-- ==== Sys2Proof/Word.lean ====
section
/-! DEFINITION. The word types of the package (00 R1, R2). -/

namespace Sys2Proof

/-- A byte of any memory of the package. -/
abbrev Byte := BitVec 8

/-- A text word (02 R25). -/
abbrev Half := BitVec 16

/-- A stack entry, scalar register, address or configuration register. -/
abbrev W64 := BitVec 64

end Sys2Proof
end

