-- ==== Sys2Proof/Syntax.lean ====
section
/-! DEFINITION. The syntax: one constructor per row of spec/opcode_table.json, with the fields of its encoding (02 R25-R43)
or, for an event or a command of the package, what says which occurrence is meant. -/

namespace Sys2Proof

/-- The seven engines of a core, in the order of their tag codes 0 to 6 (01 R12, 02 R25). -/
inductive Engine where
  | c | a | e | m | k | w | f
  deriving DecidableEq, Repr

/-- The tag code of an engine (02 R25). -/
def Engine.tag : Engine → Nat
  | .c => 0 | .a => 1 | .e => 2 | .m => 3 | .k => 4 | .w => 5 | .f => 6

/-- The engine a tag code names; the S tag, which names none, is read as C (no decoder row asks). -/
def Engine.ofTag : Nat → Engine
  | 1 => .a | 2 => .e | 3 => .m | 4 => .k | 5 => .w | 6 => .f | _ => .c

/-- The steps of the package: its instructions, and the events and commands of its units. -/
inductive Instr where
  /-- LITERAL_PUSH (R26): A literal word with X = 0 pushes the sign-extended eleven immediate bits onto its engine's parameter stack. -/
  | literalPush (t : Engine) (i : BitVec 11)
  /-- LITERAL_EXTEND (R26): A literal word with X = 1 shifts PS0 left by eleven bits and ORs in its immediate bits. -/
  | literalExtend (t : Engine) (i : BitVec 11)
  /-- WAIT (R116): Delays the engine's next issue by n cycles, or by a popped count when n is 0. -/
  | wait (t : Engine) (n : BitVec 6)
  /-- STK_DUP (R32): Pushes a copy of PSk. -/
  | stkDup (t : Engine) (k : BitVec 3)
  /-- STK_DROP (R32): Removes PSk; deeper entries rise by one. -/
  | stkDrop (t : Engine) (k : BitVec 3)
  /-- STK_SWAP (R32): Exchanges PS0 and PSk. -/
  | stkSwap (t : Engine) (k : BitVec 3)
  /-- STK_OVER (R32): Removes PSk and pushes it on top. -/
  | stkOver (t : Engine) (k : BitVec 3)
  /-- C_GET_X (R71): Pushes scalar register Xn. -/
  | cGetX (n : BitVec 4)
  /-- C_GET_P (R71): Pushes predicate Pn zero-extended. -/
  | cGetP (n : BitVec 3)
  /-- C_GET_LIDX (R71): Pushes the iteration number of loop level k. -/
  | cGetLidx (k : BitVec 2)
  /-- C_PUT_X (R71): Pops a value into scalar register Xn. -/
  | cPutX (n : BitVec 4)
  /-- C_PUT_P (R71): Pops a value and sets Pn to whether it is non-zero. -/
  | cPutP (n : BitVec 3)
  /-- C_ADD_IMM (R72): Adds a signed five-bit immediate to the popped value. -/
  | cAddImm (i : BitVec 5)
  /-- C_SUB_IMM (R72): Subtracts a signed five-bit immediate from the popped value. -/
  | cSubImm (i : BitVec 5)
  /-- C_AND_IMM (R72): ANDs the popped value with a sign-extended five-bit immediate. -/
  | cAndImm (i : BitVec 5)
  /-- C_OR_IMM (R72): ORs the popped value with a sign-extended five-bit immediate. -/
  | cOrImm (i : BitVec 5)
  /-- C_XOR_IMM (R72): XORs the popped value with a sign-extended five-bit immediate. -/
  | cXorImm (i : BitVec 5)
  /-- C_DIV (R74): Pushes the truncated quotient, signed or unsigned, and sets DIVZ on a zero divisor. -/
  | cDiv (u : BitVec 1)
  /-- C_REM (R74): Pushes the remainder, signed or unsigned, and sets DIVZ on a zero divisor. -/
  | cRem (u : BitVec 1)
  /-- C_DIVREM (R74): Pushes both quotient and remainder, with the remainder on top. -/
  | cDivrem (u : BitVec 1)
  /-- C_SHIFT (R75): Shifts or rotates a by s: shl, shr, sar or rol. -/
  | cShift (o : BitVec 2)
  /-- C_BITOP (R75): Counts set, leading or trailing bits of a, or reverses its bytes. -/
  | cBitop (o : BitVec 2)
  /-- C_CMP (R77): Compares a with b and pushes 1 or 0. -/
  | cCmp (c : BitVec 3)
  /-- C_SETP (R77): Compares a with b and sets predicate Pn to the outcome. -/
  | cSetp (c : BitVec 3) (n : BitVec 3)
  /-- C_SEL (R78): Pushes a if Pn is 1, else b. -/
  | cSel (n : BitVec 3)
  /-- C_MINMAX (R76): Pushes the signed or unsigned minimum or maximum of a and b. -/
  | cMinmax (m : BitVec 2)
  /-- C_PRED_COMBINE (R79): Combines predicate Pd with the truth of a popped value by and, or, xor or andn. -/
  | cPredCombine (d : BitVec 3) (o : BitVec 2)
  /-- C_PRED_SET (R79): Inverts, sets or clears predicate Pd. -/
  | cPredSet (d : BitVec 3) (o : BitVec 2)
  /-- C_BR (R80): Unconditional branch; a steering word. -/
  | cBr (o : BitVec 13)
  /-- C_BR_T (R80): Branches when Pn is 1; a steering word. -/
  | cBrT (n : BitVec 3) (o : BitVec 13)
  /-- C_BR_F (R80): Branches when Pn is 0; a steering word. -/
  | cBrF (n : BitVec 3) (o : BitVec 13)
  /-- C_BR_NZ (R80): Pops c and branches when it is non-zero; a steering word. -/
  | cBrNz (o : BitVec 13)
  /-- C_CALL (R81): Pushes the return address on the return stack and transfers to the target. -/
  | cCall (o : BitVec 13)
  /-- C_LOOP_COUNT (R83): Pushes a loop entry with an immediate count of 1 to 63. -/
  | cLoopCount (n : BitVec 6) (o : BitVec 13)
  /-- C_LOOP (R83): Pops a count and pushes a loop entry. -/
  | cLoop (o : BitVec 13)
  /-- C_SEND (R86): Appends a popped value to the outbound parameter queue of the named engine. -/
  | cSend (e : BitVec 3)
  /-- C_RECV (R87): Pushes the entry that the named engine hands over through its inbound queue. -/
  | cRecv (e : BitVec 3)
  /-- RECV_HANDOFF (R87): When its progress passes a C.RECV, the named engine pops PS0 into its inbound queue toward C. -/
  | recvHandoff (e : Engine)
  /-- C_LD (R89): Reads 1 to 8 bytes at a virtual address and pushes them zero- or sign-extended. -/
  | cLd (c : BitVec 2) (s : BitVec 1) (z : BitVec 2)
  /-- C_ST (R89): Posts a store of the low bytes of a value to a virtual address. -/
  | cSt (c : BitVec 2) (z : BitVec 2)
  /-- C_CSR (R90): Pushes the value of a CF, DG or PK register. -/
  | cCsr (g : BitVec 6) (i : BitVec 13)
  /-- C_CSW (R90): Pops a value and writes it to a CF, DG or PK register, subject to R91. -/
  | cCsw (g : BitVec 6) (i : BitVec 13)
  /-- S_FORK (R375): Activates the named engines at the target address. -/
  | sFork (m : BitVec 6) (o : BitVec 13)
  /-- S_JOIN (R376): Rendezvous of the active engines, after which the named engines are inactive. -/
  | sJoin (m : BitVec 6)
  /-- S_SIGN (R112): Signs the core off at the closure of tree k with a vote, opening a traverse when none is open. -/
  | sSign (k : BitVec 4)
  /-- S_LTLOAD (R111): Starts loading a leg table into buffer A or B. -/
  | sLtload (b : BitVec 1)
  /-- S_FENCE (R332): Holds accesses of the destination paths until accesses of the source paths are performed at the scope. -/
  | sFence (s : BitVec 3) (p : BitVec 6) (q : BitVec 6)
  /-- S_ACQ (R328): Requests an exclusive hold of a datum. -/
  | sAcq (s : BitVec 3)
  /-- S_ACQ_SH (R328): Requests a shared hold of a datum. -/
  | sAcqSh (s : BitVec 3)
  /-- S_REL (R329): Drains the core's writes at the scope and releases a held datum. -/
  | sRel (s : BitVec 3)
  /-- S_STEP (R261): Joins the step group's next step. -/
  | sStep (g : BitVec 4)
  /-- S_STEP_DROP (R261): Joins the step group's next step as a drop that discards pending stores. -/
  | sStepDrop (g : BitVec 4)
  /-- A_SFLD (R141): Writes one field of stream descriptor g. -/
  | aSfld (g : BitVec 4) (i : BitVec 5)
  /-- A_SGO (R142): Checks descriptor g and starts its walk at POS. -/
  | aSgo (g : BitVec 4)
  /-- A_SSTOP (R143): Stops stream g from issuing further runs. -/
  | aSstop (g : BitVec 4)
  /-- A_SSTOP_DRAIN (R143): Waits until stream g's walk has completed and its stores are performed. -/
  | aSstopDrain (g : BitVec 4)
  /-- A_SPOS (R144): Pushes the position of stream g. -/
  | aSpos (g : BitVec 4)
  /-- A_SPOS_SET (R144): Sets the position of an inactive stream g. -/
  | aSposSet (g : BitVec 4)
  /-- A_LDQ (R145): Pushes a 128-byte scratchpad line to a load queue with a format code. -/
  | aLdq (q : BitVec 2)
  /-- A_STQ (R146): Pops a store-queue entry and writes its enabled elements to the scratchpad. -/
  | aStq (s : BitVec 1)
  /-- A_LDG (R147): Copies a 128-byte line from a virtual address into the scratchpad, posted. -/
  | aLdg (c : BitVec 2)
  /-- A_STG (R147): Copies a scratchpad line to a virtual address, posted. -/
  | aStg (c : BitVec 2)
  /-- A_PLD_QUEUE (R259): Pushes 128 bytes of the present plane to a load queue. -/
  | aPldQueue (q : BitVec 2)
  /-- A_PST_QUEUE (R260): Pops a store-queue entry and stores each enabled element to the next plane. -/
  | aPstQueue (s : BitVec 1)
  /-- A_PST_PRI_QUEUE (R260): Stores each enabled element of a store-queue entry with an explicit priority. -/
  | aPstPriQueue (s : BitVec 1)
  /-- A_AGEN (R150): Pushes the address of element j of stream g's walk. -/
  | aAgen (g : BitVec 4)
  /-- A_ALU (R151): Computes add, sub, mul, and, or, xor, shl or shr on two popped values. -/
  | aAlu (o : BitVec 3)
  /-- A_XQ_COUNT (R152): Pushes the number of entries in a queue. -/
  | aXqCount (q : BitVec 3)
  /-- A_XQ_FLUSH (R152): Discards every entry of a queue. -/
  | aXqFlush (q : BitVec 3)
  /-- A_XQ_DROP (R152): Discards the head entry of a queue. -/
  | aXqDrop (q : BitVec 3)
  /-- A_XQ_PUT (R152): Pushes a broadcast entry to a load queue. -/
  | aXqPut (q : BitVec 3)
  /-- STREAM_RUN (R136): An active stream issues one run per cycle, loading or storing elements and pushing or popping queue entries. -/
  | streamRun (g : BitVec 4)
  /-- STREAM_DRAINED (R143): The walk of a drained stream completes and its stores are performed, releasing A.SSTOP with drain. -/
  | streamDrained (g : BitVec 4)
  /-- E_MOV (R171): Moves, negates or takes the absolute value of elements. -/
  | eMov (d : BitVec 5) (p : BitVec 1) (a : BitVec 5) (m : BitVec 3)
  /-- E_ADD (R167): Elementwise rounded addition. -/
  | eAdd (d : BitVec 5) (p : BitVec 1) (a : BitVec 5) (b : BitVec 5) (r : BitVec 2)
  /-- E_SUB (R167): Elementwise rounded subtraction. -/
  | eSub (d : BitVec 5) (p : BitVec 1) (a : BitVec 5) (b : BitVec 5) (r : BitVec 2)
  /-- E_MUL (R167): Elementwise rounded multiplication. -/
  | eMul (d : BitVec 5) (p : BitVec 1) (a : BitVec 5) (b : BitVec 5) (r : BitVec 2)
  /-- E_FMA (R168): Elementwise fused multiply-add with one rounding. -/
  | eFma (d : BitVec 5) (p : BitVec 1) (a : BitVec 5) (b : BitVec 5) (neg : BitVec 1) (r : BitVec 2) (c : BitVec 5)
  /-- E_DIV (R167): Elementwise rounded division. -/
  | eDiv (d : BitVec 5) (p : BitVec 1) (a : BitVec 5) (b : BitVec 5) (r : BitVec 2)
  /-- E_SQRT (R169): Elementwise rounded square root. -/
  | eSqrt (d : BitVec 5) (p : BitVec 1) (a : BitVec 5) (r : BitVec 2)
  /-- E_MIN (R170): Elementwise minimum. -/
  | eMin (d : BitVec 5) (p : BitVec 1) (a : BitVec 5) (b : BitVec 5) (n : BitVec 1)
  /-- E_MAX (R170): Elementwise maximum. -/
  | eMax (d : BitVec 5) (p : BitVec 1) (a : BitVec 5) (b : BitVec 5) (n : BitVec 1)
  /-- E_CMP (R172): Elementwise comparison writing all ones or zero. -/
  | eCmp (d : BitVec 5) (p : BitVec 1) (a : BitVec 5) (b : BitVec 5) (c : BitVec 3)
  /-- E_SELECT (R173): Selects a or b by whether c's bits are non-zero. -/
  | eSelect (d : BitVec 5) (p : BitVec 1) (a : BitVec 5) (b : BitVec 5) (c : BitVec 5)
  /-- E_IADD (R174): Elementwise wrapping or saturating integer add or subtract. -/
  | eIadd (d : BitVec 5) (p : BitVec 1) (a : BitVec 5) (b : BitVec 5) (m : BitVec 3)
  /-- E_IMUL (R175): Elementwise integer multiply: lo, hi, sat or wide. -/
  | eImul (d : BitVec 5) (p : BitVec 1) (a : BitVec 5) (b : BitVec 5) (m : BitVec 3)
  /-- E_LOGIC (R176): Elementwise bitwise and, or, xor, andn or not. -/
  | eLogic (d : BitVec 5) (p : BitVec 1) (a : BitVec 5) (b : BitVec 5) (m : BitVec 3)
  /-- E_SHIFT (R177): Elementwise shift or rotate. -/
  | eShift (d : BitVec 5) (p : BitVec 1) (a : BitVec 5) (b : BitVec 5) (m : BitVec 3)
  /-- E_CVT (R189): Converts elements between formats, rounds to integral values or scales by a power of two. -/
  | eCvt (d : BitVec 5) (p : BitVec 1) (a : BitVec 5) (b : BitVec 5) (r : BitVec 2) (o : BitVec 3) (f : BitVec 5)
  /-- E_QUANT (R193): Chooses an E8M0 scale per 32-element block and encodes the block under it. -/
  | eQuant (d : BitVec 5) (p : BitVec 1) (a : BitVec 5) (sd : BitVec 5) (f : BitVec 5)
  /-- E_RED (R178): Reduces each row or column by sum, max or min. -/
  | eRed (d : BitVec 5) (p : BitVec 1) (a : BitVec 5) (x : BitVec 1) (o : BitVec 2)
  /-- E_XPOSE (R179): Transposes the source into a C by R layout. -/
  | eXpose (d : BitVec 5) (p : BitVec 1) (a : BitVec 5)
  /-- E_PERM (R180): Gathers, broadcasts a row or column, or rotates elements. -/
  | ePerm (d : BitVec 5) (p : BitVec 1) (a : BitVec 5) (b : BitVec 5) (m : BitVec 3) (c : BitVec 5) (s : BitVec 8)
  /-- E_REP (R183): Makes the next E instruction run n times with stepped operand codes. -/
  | eRep (s : BitVec 2) (n : BitVec 4)
  /-- E_SFN (R181): Correctly rounded exp2, log2, reciprocal or reciprocal square root. -/
  | eSfn (d : BitVec 5) (p : BitVec 1) (a : BitVec 5) (f : BitVec 2)
  /-- E_TPACK (R194): Packs ternary weights five to a byte. -/
  | eTpack (d : BitVec 5) (p : BitVec 1) (a : BitVec 5)
  /-- E_MASK (R195): Builds the element mask EM by set, and, or, not, all or box. -/
  | eMask (a : BitVec 5) (f : BitVec 3)
  /-- E_XQ (R185): Counts, drops or peeks queue entries, or extracts an element to the stack. -/
  | eXq (d : BitVec 5) (p : BitVec 1) (a : BitVec 5) (m : BitVec 3)
  /-- M_WLOAD (R204): Decodes a dense B tile from a slot into the shadow plane. -/
  | mWload (f : BitVec 5)
  /-- M_WLOAD_SP (R204): Decodes a sparse B tile and its metadata into the shadow plane. -/
  | mWloadSp (f : BitVec 5)
  /-- M_MMA (R208): Accumulates a masked 16 by 16 tile product into an accumulator with one rounding. -/
  | mMma (f : BitVec 3) (k : BitVec 3)
  /-- M_TMMA (R209): Accumulates an INT8 by TERN5 sign-select product exactly. -/
  | mTmma (k : BitVec 3)
  /-- M_EPI (R213): Retires an accumulator tile, scaled and converted, to slots, SQ1 or a routed peer. -/
  | mEpi (z : BitVec 1) (d : BitVec 2) (k : BitVec 3) (s : BitVec 2) (a : BitVec 2) (f : BitVec 5)
  /-- M_ACC_CLEAR (R211): Clears accumulator tile K. -/
  | mAccClear (k : BitVec 3)
  /-- M_ACC_CLEARPAIR (R211): Clears the accumulator pair K, K+1. -/
  | mAccClearpair (k : BitVec 3)
  /-- M_ACC_LOAD (R211): Loads an accumulator tile bit for bit from two slots. -/
  | mAccLoad (k : BitVec 3)
  /-- K_GEO_DIM (R230): Writes the extent and strides of copy dimension k. -/
  | kGeoDim (k : BitVec 3)
  /-- K_FLAG (R243): Waits on, adds to, reads or sets flag FLn as a popped command word selects. -/
  | kFlag (n : BitVec 6)
  /-- K_CWAIT (R241): Reads a counter repeatedly until it reaches a target, then acquires at the scope. -/
  | kCwait (s : BitVec 3)
  /-- COPY_COMPLETE (R237): A copy's last write is performed; its counter add, flag increment and follow-on issue take place and its pins drop. -/
  | copyComplete (k : Nat)
  /-- W_ROWS (R220): Runs softmax, layernorm or rmsnorm over n scratchpad rows. -/
  | wRows (f : BitVec 3) (m : BitVec 2)
  /-- W_RSTAT (R225): Writes row statistics of an accumulator tile to a V register. -/
  | wRstat (i : BitVec 1) (k : BitVec 3)
  /-- F_AMO (R296): Posts an atomic operation on a remote word. -/
  | fAmo (o : BitVec 3) (t : BitVec 2)
  /-- F_AMO_R (R296): Performs an atomic operation and waits for the old value. -/
  | fAmoR (o : BitVec 3) (t : BitVec 2)
  /-- F_CAS (R297): Compares and swaps one word at the target, returning the old value. -/
  | fCas (w : BitVec 1)
  /-- F_CAS_M (R297): Compares and swaps n words with expected and new values read from memory. -/
  | fCasM (n : BitVec 2) (w : BitVec 1)
  /-- F_CHASE (R299): Walks a linked list at the Wallower until a stop condition. -/
  | fChase (h : BitVec 4) (c : BitVec 3) (k : BitVec 6)
  /-- F_RLD (R300): Reads a remote word and pushes it. -/
  | fRld (c : BitVec 2) (s : BitVec 1) (z : BitVec 2)
  /-- F_RST (R300): Posts a remote store through the combining buffer. -/
  | fRst (c : BitVec 2) (z : BitVec 2)
  /-- F_SKUP (R270): Posts one element update to a count sketch. -/
  | fSkup (d : BitVec 1)
  /-- F_SKUP_N (R270): Posts n element updates with values read from memory. -/
  | fSkupN (d : BitVec 1)
  /-- F_SKQ (R271): Queries the median estimate of one key and pushes it. -/
  | fSkq (i : BitVec 1)
  /-- F_SKQ_N (R271): Queries n keys and writes the estimates to memory, posted. -/
  | fSkqN (i : BitVec 1)
  /-- F_COLL (R307): Checks two layouts and starts the derived collective exchange. -/
  | fColl (e : BitVec 1) (d : BitVec 2) (s : BitVec 2)
  /-- F_LAYOUT (R305): Writes one field of a layout register. -/
  | fLayout (n : BitVec 2) (f : BitVec 4)
  /-- FAR_REPLY (R302): A reply or loaded value arrives at the issuing engine and is pushed. -/
  | farReply (k : Nat)
  /-- REPORT_ARRIVAL (R291): A #XLAT, #PERM or #SKETCH report for a posted word arrives and is taken at the next F or S word. -/
  | reportArrival (k : Nat)
  /-- WALLOWER_SERVICE (R287): A Wallower serves one far or sketch operation whole at the target memory. -/
  | wallowerService (w : BitVec 2) (k : Nat)
  /-- SKETCH_LOG_APPLY (R275): After a leg's timed part a home Wallower applies the logged sketch updates in order. -/
  | sketchLogApply (w : BitVec 2)
  /-- COMBINE_TIMER_FLUSH (R292): A combining-buffer entry flushes 256 cycles after allocation. -/
  | combineTimerFlush (k : Nat)
  /-- TOKEN_REVOKE (R294): The owning die revokes a token; the holder writes back and invalidates before the owner proceeds. -/
  | tokenRevoke (region : Nat)
  /-- FLIT_RECEIVE (R281): A station receives a flit, checks its tag and key version, and accepts, refuses or discards it. -/
  | flitReceive (l : Nat)
  /-- REPLAY_REQUEST (R281): A sender resends a flit and all later flits under their original key version and sequence number. -/
  | replayRequest (l : Nat)
  /-- FLIT_ACK (R281): An acknowledgement releases held flits at the sender. -/
  | flitAck (l : Nat) (q : Nat)
  /-- ROTATION_MARKER (R282): A receiver gets the rotation-complete marker and erases the previous link key. -/
  | rotationMarker (l : Nat)
  /-- LINK_DOWN (R281): A flit fails after 16 replays; the link goes down and its readiness bit clears. -/
  | linkDown (l : Nat)
  /-- SLOT_DEPARTURE (R122): A reserved ring slot leaves its station at its cycle, or in the next free slot as a station breach. -/
  | slotDeparture (k : Nat)
  /-- ACQUIRE_GRANT (R328): The datum's home Wallower grants a waiting acquire and the core continues. -/
  | acquireGrant (k : Nat)
  /-- RELEASE_EFFECT (R329): A release takes effect at the datum's home Wallower. -/
  | releaseEffect (k : Nat)
  /-- COLLECTIVE_COMPLETE (R312): A rank's last destination write is performed and its status word is written. -/
  | collectiveComplete (k : Nat)
  /-- STEP_SETTLE (R261): At t_g the group's step settles pending words or detects a collision, and flips. -/
  | stepSettle (g : BitVec 4)
  /-- STEP_ABSENCE_LIMIT (R263): A member stays absent DG_CLO_LIMIT cycles after the first arrival, and the whole group is pre-empted. -/
  | stepAbsenceLimit (g : BitVec 4)
  /-- LEG_TABLE_LOADED (R101): A leg table finishes loading and is validated to READY or BAD. -/
  | legTableLoaded (b : BitVec 1)
  /-- CONTROLLER_SIGNOFF (R108): An HBM controller signs off a leg once its timelines, owed commands, refresh and precharges are done. -/
  | controllerSignoff (s : BitVec 1)
  /-- REFRESH_TICK (R358): Every tREFI each bank's refresh debt rises by one. -/
  | refreshTick (s : BitVec 1)
  /-- HELD_REFRESH (R358): 6,630 cycles after sign-off without a leg start, the controller issues REFAB on held pseudo-channels. -/
  | heldRefresh (s : BitVec 1)
  /-- PAGE_WALK (R344): A page-table walk completes with a translation, a page fault or #XLAT. -/
  | pageWalk (k : Nat)
  /-- TEXT_ROW_FILL (R39): The fetch agent writes a text row into every core awaiting it. -/
  | textRowFill (row : Nat)
  /-- TASK_PLACE (R372): The Millwright places a ready task on a free core, forming step groups as needed. -/
  | taskPlace (l : Nat) (task : Nat)
  /-- MEMRD (R394): Helale command reading 8 bytes to 4 KiB at a die, tier and offset. -/
  | memrd (die : Nat) (tier : Nat) (off : Nat) (n : Nat)
  /-- MEMWR (R395): Helale command writing memory, answered once performed at system scope. -/
  | memwr (die : Nat) (tier : Nat) (off : Nat) (data : List (BitVec 8))
  /-- REGRD (R394): Helale command reading a DG_ or PK_ register. -/
  | regrd (group : Nat) (die : Nat) (idx : Nat)
  /-- REGWR (R394): Helale command writing a DG_ or PK_ register with the system attribute. -/
  | regwr (group : Nat) (die : Nat) (idx : Nat) (v : BitVec 64)
  /-- LAUNCH (R394): Helale command appending a launch record to a Millwright's launch queue. -/
  | launch (die : Nat) (space : Nat) (va : BitVec 64) (sys : Bool)
  /-- KEYLD (R422): Helale command loading a link key or a memory key version. -/
  | keyld (fields : List Nat)
  /-- FWLD (R402): Helale command delivering a firmware image for verification. -/
  | fwld (image : List (BitVec 8))
  /-- ATTEST (R403): Helale command returning a signed attestation report for a nonce. -/
  | attestCmd (nonce : List (BitVec 8))
  /-- LIFE (R400): Helale command moving the fused lifecycle forward. -/
  | lifeCmd (dest : Nat) (sig : List (BitVec 8))
  /-- DEBUG (R400): Helale command changing the debug level. -/
  | debugCmd (level : Nat) (token : List (BitVec 8))
  /-- POWER (R401): Helale command changing the power state. -/
  | powerCmd (dest : Nat)
  /-- FUNCTION_READY (R397): Bring-up of a function completes and its readiness bit sets. -/
  | functionReady (bit : Nat)
  /-- THERMAL_WARN (R405): A die junction reaches 95 degrees C and WARN sets. -/
  | thermalWarn (die : Nat)
  /-- THERMAL_TRIP (R405): A die junction reaches 110 degrees C and the package trips to OFF, erasing its keys. -/
  | thermalTrip (die : Nat)
  /-- ILLEGAL_WORD (R42): An engine issues an unassigned tag and opcode pair, a reserved field value or a misplaced extension word and takes #ILL with no other effect. -/
  | illegalWord (t : BitVec 3)
  /-- FREE_MODE_REQUEST_SERVICE (R356): A memory controller in FREE mode serves a queued untimed request: read data is returned, or a write is performed, with ECC, decryption and tag checks. -/
  | freeModeRequestService (k : Nat)
  /-- EXCHANGE_WAIT_LIMIT (R317): In untimed code an exchange waits DG_CLO_LIMIT cycles for an absent rank, and the Millwright pre-empts every rank of the collective. -/
  | exchangeWaitLimit (k : Nat)
  /-- C_GET_PMASK (R71): Pushes all eight predicates as a bit mask. -/
  | cGetPmask
  /-- C_PUT_PMASK (R71): Pops a value and sets P0-P7 from its low eight bits. -/
  | cPutPmask
  /-- C_ADD (R72): Pops a and b and pushes (a + b) mod 2^64. -/
  | cAdd
  /-- C_SUB (R72): Pops a and b and pushes (a - b) mod 2^64. -/
  | cSub
  /-- C_AND (R72): Pops a and b and pushes a AND b. -/
  | cAnd
  /-- C_OR (R72): Pops a and b and pushes a OR b. -/
  | cOr
  /-- C_XOR (R72): Pops a and b and pushes a XOR b. -/
  | cXor
  /-- C_MUL (R73): Pushes the low 64 bits of the product of two popped values. -/
  | cMul
  /-- C_MULH (R73): Pushes the high 64 bits of the signed product. -/
  | cMulh
  /-- C_MULHU (R73): Pushes the high 64 bits of the unsigned product. -/
  | cMulhu
  /-- C_RET (R81): Pops the return stack and transfers there, removing loops of the returning depth. -/
  | cRet
  /-- REGISTER_WRITE (R92): A write to a register without behaviour of its own replaces its writable fields and takes effect per R92. -/
  | registerWrite
  /-- CF_SLIP_WRITE (R36): A write to CF_SLIP sets the slip bound, clamped to 32 to 16,384. -/
  | cfSlipWrite
  /-- S_LEG (R113): Starts the core's next leg at its start cycle, or leaves the traverse after an end table. -/
  | sLeg
  /-- S_SLACK (R114): Ends the timed part of the leg on the core. -/
  | sSlack
  /-- S_TRAP (R383): Takes #SWT with CF_TVAL holding the popped value. -/
  | sTrap
  /-- S_END (R377): Ends the task: stops streams and waits for every write to be performed. -/
  | sEnd
  /-- S_YIELD (R385): Yields the core when a ready task's placement would take it. -/
  | sYield
  /-- S_YIELD_FORCE (R385): Yields the core whenever a context frame is free. -/
  | sYieldForce
  /-- S_BIND (R330): Binds a run of granules to a datum the core holds exclusively. -/
  | sBind
  /-- S_BIND_U (R330): Removes the binding of a run of granules from a datum. -/
  | sBindU
  /-- S_TOKEN_SHARED (R295): Obtains a shared ownership token for a remote 2 MiB region. -/
  | sTokenShared
  /-- S_TOKEN_EXCL (R295): Obtains an exclusive ownership token for a remote 2 MiB region. -/
  | sTokenExcl
  /-- S_TOKEN_RETURN (R295): Writes back the region's dirty lines and gives up the die's token. -/
  | sTokenReturn
  /-- A_ALLOC (R148): Clears the valid bits of n scratchpad words. -/
  | aAlloc
  /-- A_VALID_CNT (R149): Pushes the number of valid words among n. -/
  | aValidCnt
  /-- A_VALID_FIRST (R149): Pushes the index of the first invalid word among n. -/
  | aValidFirst
  /-- A_VALID_SET (R149): Makes invalid words among n zero and valid. -/
  | aValidSet
  /-- A_PLD (R259): Pushes the present-plane value of a commons word. -/
  | aPld
  /-- A_PST (R260): Stores a value to a commons word of the next plane. -/
  | aPst
  /-- A_PST_PRI (R260): Stores a value to the next plane with an explicit priority. -/
  | aPstPri
  /-- E_SHAPE (R182): Writes the shape register SHP from the E stack. -/
  | eShape
  /-- E_SHAPE_GET (R182): Pushes SHP. -/
  | eShapeGet
  /-- E_AMAX (R191): Pushes the AMAX register. -/
  | eAmax
  /-- E_AMAX_RESET (R191): Pushes AMAX and then sets it to +0. -/
  | eAmaxReset
  /-- E_AMAX_CLEAR (R191): Sets AMAX to +0. -/
  | eAmaxClear
  /-- M_CLAIM (R200): Claims a range of operand slots for writing. -/
  | mClaim
  /-- M_CLAIM_R (R200): Claims a range of operand slots for reading only. -/
  | mClaimR
  /-- M_RELEASE (R201): Waits for earlier accesses and makes a range of slots unclaimed. -/
  | mRelease
  /-- M_SWAP (R205): Exchanges the active and shadow planes. -/
  | mSwap
  /-- M_ROUTE (R214): Writes the routing register RT. -/
  | mRoute
  /-- M_ROUTE_GET (R214): Pushes the routing register RT. -/
  | mRouteGet
  /-- K_GEO_RANK (R230): Writes the copy rank and element size. -/
  | kGeoRank
  /-- K_GEO_SPACE (R230): Writes the copy spaces and alias class. -/
  | kGeoSpace
  /-- K_GEO_SIG (R230): Writes the copy signal byte. -/
  | kGeoSig
  /-- K_GEO_CLEAR (R230): Restores every geometry field to its task-start value. -/
  | kGeoClear
  /-- K_COPY (R234): Checks, translates, pins and queues a tensor copy. -/
  | kCopy
  /-- K_FOLLOW (R245): Stores a matrix command to start when the next copy lands. -/
  | kFollow
  /-- K_CNT (R239): Writes the counter register. -/
  | kCnt
  /-- K_CNT_GET (R239): Pushes the counter register. -/
  | kCntGet
  /-- K_PIN (R247): Translates and pins the pages of a range. -/
  | kPin
  /-- K_PIN_RELEASE (R247): Releases pins that this task raised over a range. -/
  | kPinRelease
  /-- K_CONV_SRC (R233): Sets the source side's convolution walk. -/
  | kConvSrc
  /-- K_CONV_DST (R233): Sets the destination side's convolution walk. -/
  | kConvDst
  /-- FOLLOW_ON_START (R246): The follow-on matrix command starts in the first cycle the array is free after its copy lands. -/
  | followOnStart
  /-- CWAIT_SATISFIED (R241): A counter read returns a value at least the target and the K.CWAIT completes as an acquire. -/
  | cwaitSatisfied
  /-- FLAG_WAIT_SATISFIED (R243): A flag reaches the waited amount and the K.FLAG wait consumes it. -/
  | flagWaitSatisfied
  /-- W_TIME (R224): Sets the pitch register TP. -/
  | wTime
  /-- W_TIME_GET (R224): Pushes the pitch register TP. -/
  | wTimeGet
  /-- F_ENQ (R298): Appends a node to a list at the list's Wallower, posted. -/
  | fEnq
  /-- F_ENQ_R (R298): Appends a node to a list and returns the previous tail. -/
  | fEnqR
  /-- F_SKADD (R272): Adds one sketch into another of the same geometry. -/
  | fSkadd
  /-- F_DRAIN (R301): Flushes the combining buffer and waits for posted F words and collectives. -/
  | fDrain
  /-- FAR_DRAIN_COMPLETE (R301): Every posted F word before an F.DRAIN is performed and the drain ends. -/
  | farDrainComplete
  /-- TOKEN_COMPLETE (R295): An S.TOKEN form completes and the core's engines continue. -/
  | tokenComplete
  /-- RELEASE_DRAIN_COMPLETE (R329): The writes before an S.REL are performed at its scope and the release is sent. -/
  | releaseDrainComplete
  /-- BIND_RECORD (R330): The binding table records an S.BIND change or refuses it. -/
  | bindRecord
  /-- FENCE_DRAIN_COMPLETE (R332): The source-path accesses of an S.FENCE are performed and held engines resume. -/
  | fenceDrainComplete
  /-- LEG_START (R107): A closure completes at max(t_last + ofs, t_ready) and starts the selected leg or completes an end table. -/
  | legStart
  /-- LEG_TIMED_END (R102): At t_start + L the leg's pseudo-channels return to FREE mode. -/
  | legTimedEnd
  /-- TIMELINE_COMMAND (R102): The controller issues a listed DRAM command at its leg cycle, serving matching requests or owing it. -/
  | timelineCommand
  /-- OWED_COMMAND_SERVICE (R137): After the timed part the controller serves owed commands in cycle order in FREE mode. -/
  | owedCommandService
  /-- STATION_SIGNOFF (R108): A ring station or bridge signs off once its slots have left and been acknowledged. -/
  | stationSignoff
  /-- CLOSURE_LIMIT_EXPIRY (R110): A closure is not complete DG_CLO_LIMIT cycles after the first arrival and the gang is pre-empted. -/
  | closureLimitExpiry
  /-- EPOCH_CLOSE (R350): The hot-page tracker closes an epoch, may start a swap, and halves every count. -/
  | epochClose
  /-- SWAP_COMPLETE (R351): A swap's lines are exchanged, leaves and reverse map rewritten and pages invalidated. -/
  | swapComplete
  /-- PATROL_LINE (R361): The patrol reads, corrects, checks and re-encrypts the next line. -/
  | patrolLine
  /-- ROTATION_PASS_END (R361): A rotation pass ends, the previous key is erased and PASS clears. -/
  | rotationPassEnd
  /-- TEXT_ROW_FREE (R40): Once every active engine passes the tail point, rows below the lowest program counter become free. -/
  | textRowFree
  /-- LAUNCH_RECORD (R369): The home Millwright checks a launch record, pins its images, stages its working set and accepts or rejects it. -/
  | launchRecord
  /-- TASK_START (R374): An untimed task's start state is set and its first word issues 32 cycles after placement. -/
  | taskStart
  /-- TIMED_TASK_START (R373): A timed task starts at T0 + START, or takes #ORDER if a predecessor has not ended. -/
  | timedTaskStart
  /-- END_COMPLETE (R377): An S.END's writes are performed; datums and pins are released, counters added and the core freed. -/
  | endComplete
  /-- CONTEXT_SAVE_COMPLETE (R386): A pre-empted or trapped task's context is written to its frame. -/
  | contextSaveComplete
  /-- CONTEXT_RESTORE_COMPLETE (R388): A task is restored from its frame and its engines resume. -/
  | contextRestoreComplete
  /-- KILL_COMPLETE (R390): After the quiesce, datums are freed, successors dropped and DG_KILL_DONE rises. -/
  | killComplete
  /-- TASK_CTL_RETRY (R382): Restores a trapped task and re-issues the trapping instruction. -/
  | taskCtlRetry
  /-- TASK_CTL_SKIP (R382): Restores a trapped task and continues after the trapping instruction. -/
  | taskCtlSkip
  /-- TASK_CTL_KILL (R382): Kills a live task. -/
  | taskCtlKill
  /-- PAGE_DONE (R389): A write to DG_PAGE_DONE restores every task of the die waiting on that page. -/
  | pageDone
  /-- TLB_INV_PAGE (R347): Removes the page at DG_TLB_VA in an address space from every TLB of the die, unless pinned. -/
  | tlbInvPage
  /-- TLB_INV_SPACE (R347): Removes every page of an address space from the die's TLBs, unless pinned. -/
  | tlbInvSpace
  /-- TLB_INV_ALL (R347): Removes every page from the die's TLBs, unless pinned. -/
  | tlbInvAll
  /-- KEY_ROTATE (R361): A write of ROTATE advances the memory key version and starts a rotation pass. -/
  | keyRotate
  /-- HASH_MASK_WRITE (R354): A write to a DG_HASH mask register is checked and applied. -/
  | hashMaskWrite
  /-- REGION_WRITE (R253): A write to DG_REGION is checked and sets a commons region descriptor. -/
  | regionWrite
  /-- SG_FAULT_CLEAR (R255): A write of 0 to DG_SG_FAULT.VALID clears the register. -/
  | sgFaultClear
  /-- UNINIT_CLEAR (R128): A write of 0 to DG_UNINIT_INFO.VALID clears it and DG_UNINIT_ADDR. -/
  | uninitClear
  /-- ERROR_LOG_CLEAR (R363): A write of 0 to DG_ECC_LOG or DG_INTEG_LOG clears the register. -/
  | errorLogClear
  /-- HALT_ENTRY (R400): A requested HALT takes effect at each die's next closure or pre-emption point. -/
  | haltEntry
  /-- POWER_ON (R422): At power-on the per-boot memory key is generated and bring-up begins. -/
  | powerOn
  /-- MILLWRIGHT_PREEMPTION (R384): The Millwright on its own decides to pre-empt a task at a pre-emption point, such as a slack window or a wait in K.CWAIT, S.ACQ or S.STEP, and starts saving it. -/
  | millwrightPreemption
  /-- POWER_LOSS (R403): Supply power is lost, so volatile state goes and an attestation index taken during signing is lost and never reused. -/
  | powerLoss
  deriving DecidableEq, Repr

end Sys2Proof
end

