-- ==== Sys2Proof/Machine/Legal.lean ====
section
/-! DEFINITION. Which values of an instruction's fields its chapter assigns (02 R42): every other value is reserved and
takes #ILL when the engine issues the word. Fields the opcode table fixes do not appear in an instruction. -/

namespace Sys2Proof.Machine

/-- An E operand code usable as a source: all but SQ0, SQ1 (02 R43). -/
def srcCode (a : BitVec 5) : Bool := a != 20 && a != 21

/-- An E operand code usable as a destination: a V register or a store queue (02 R43). -/
def dstCode (d : BitVec 5) : Bool := decide (d.toNat < 16) || d == 20 || d == 21

/-- A format code that names a format (03 R51). -/
def fmtCode (f : BitVec 5) : Bool := decide (f.toNat < 16)

/-- The field values an instruction's chapter assigns (02 R42 and the tables of the chapters). -/
def legalFields : Instr → Bool
  | .stkSwap _ k => k != 0
  | .stkOver _ k => k != 0
  | .cSend e => e != 0 && e != 7
  | .cRecv e => e != 0 && e != 7
  | .cCmp c => decide (c.toNat ≤ 5)
  | .cSetp c _ => decide (c.toNat ≤ 5)
  | .cPredSet _ o => o != 3
  | .cLoop o => o != 0
  | .cLoopCount n o => n != 0 && o != 0
  | .cCsr g _ => decide (g.toNat ≤ 2)
  | .cCsw g _ => decide (g.toNat ≤ 2)
  | .aSfld _ i => decide (i.toNat < 22)
  | .aXqCount q => decide (q.toNat < 6)
  | .aXqFlush q => decide (q.toNat < 6)
  | .aXqDrop q => decide (q.toNat < 6)
  | .aXqPut q => decide (q.toNat < 6)
  | .eMov d _ a m => dstCode d && srcCode a && decide (m.toNat ≤ 2)
  | .eAdd d _ a b _ => dstCode d && srcCode a && srcCode b
  | .eSub d _ a b _ => dstCode d && srcCode a && srcCode b
  | .eMul d _ a b _ => dstCode d && srcCode a && srcCode b
  | .eDiv d _ a b _ => dstCode d && srcCode a && srcCode b
  | .eFma d _ a b _ _ c => dstCode d && srcCode a && srcCode b && srcCode c
  | .eSqrt d _ a _ => dstCode d && srcCode a
  | .eMin d _ a b _ => dstCode d && srcCode a && srcCode b
  | .eMax d _ a b _ => dstCode d && srcCode a && srcCode b
  | .eCmp d _ a b c => dstCode d && srcCode a && srcCode b && decide (c.toNat ≤ 6)
  | .eSelect d _ a b c => dstCode d && srcCode a && srcCode b && srcCode c
  | .eIadd d _ a b m => dstCode d && srcCode a && srcCode b && decide (m.toNat ≤ 3)
  | .eImul d _ a b m => dstCode d && srcCode a && srcCode b && decide (m.toNat ≤ 3) &&
      (m != 3 || (decide (d.toNat < 16) && d.toNat % 2 == 0))
  | .eLogic d _ a b m => dstCode d && srcCode a && decide (m.toNat ≤ 4) && (if m = 4 then b == 0 else srcCode b)
  | .eShift d _ a b m => dstCode d && srcCode a && srcCode b && decide (m.toNat ≤ 3)
  | .eRed d _ a _ o => dstCode d && srcCode a && o != 3
  | .eXpose d _ a => dstCode d && srcCode a
  | .ePerm d _ a b m c x => dstCode d && srcCode a && decide (m.toNat ≤ 3) &&
      (if m = 0 then srcCode b && srcCode c && x == 0
       else b == 0 && c == 0 && (if m = 1 then decide (x.toNat < 16) else decide (x.toNat < 128)))
  | .eRep x _ => x != 3
  | .eSfn d _ a _ => dstCode d && srcCode a
  | .eXq d p a m =>
      if m = 0 then d == 0 && p == 0 && decide (16 ≤ a.toNat ∧ a.toNat ≤ 21)
      else if m = 1 then d == 0 && p == 0 && decide (16 ≤ a.toNat ∧ a.toNat ≤ 19)
      else if m = 2 then decide (d.toNat < 16) && decide (16 ≤ a.toNat ∧ a.toNat ≤ 19)
      else if m = 3 then d == 0 && p == 0 && (decide (a.toNat < 16) || decide (24 ≤ a.toNat))
      else false
  | .eCvt d _ a b _ o f => dstCode d && srcCode a &&
      (if o = 0 then (b == 22 || b == 23) && decide (f.toNat < 15) && f != 13
       else if o = 1 then b == 0 && decide (f.toNat ≤ 5)
       else if o = 2 then b == 22 && decide (f.toNat ≤ 5)
       else false)
  | .eQuant d _ a sd f => dstCode d && dstCode sd && srcCode a && (f == 4 || f == 5 || f == 6) && d != sd
  | .eTpack d _ a => dstCode d && srcCode a
  | .eMask a f => if f.toNat ≤ 2 then srcCode a else a == 0 && decide (f.toNat ≤ 5)
  | .mWload f => decide (f.toNat ≤ 6) || f == 13
  | .mWloadSp f => f == 2 || f == 3
  | .mMma f k => f != 7 && (f != 6 || k.toNat % 2 == 0)
  | .mAccClearpair k => k.toNat % 2 == 0
  | .mEpi _ d k x a f => d != 3 && x != 3 && a != 3 && decide (f.toNat ≤ 8) && (f != 0 || a == 2) &&
      (a != 2 || k.toNat % 2 == 0)
  | .kCwait x => decide (x.toNat ≤ 5)
  | .wRows f m => decide (f.toNat ≤ 2) && m != 3
  | .fAmo o t => o != 7 && (decide (t.toNat < 2) || decide (o.toNat < 3) || o == 6)
  | .fAmoR o t => o != 7 && (decide (t.toNat < 2) || decide (o.toNat < 3) || o == 6)
  | .fCasM n _ => n != 3
  | .fChase _ c _ => decide (c.toNat ≤ 3)
  | .fColl _ d s => s != d
  | .fLayout _ f => decide (f.toNat < 13)
  | .sFence s p q => decide (s.toNat ≤ 5) && p != 0 && q != 0
  | .sAcq s => decide (s.toNat ≤ 5)
  | .sAcqSh s => decide (s.toNat ≤ 5)
  | .sRel s => decide (s.toNat ≤ 5)
  | _ => true

end Sys2Proof.Machine
end

