-- ==== Sys2Proof/WellFormed.lean ====
section
/-! DEFINITION. Well-formed instructions: those whose every field has a value its chapter assigns (02 R42). A word with
another value still decodes; the engine that issues it takes #ILL. -/

namespace Sys2Proof

/-- Every field has an assigned value. -/
abbrev Instr.WellFormed (i : Instr) : Prop := Machine.legalFields i = true

end Sys2Proof
end

