-- ==== Sys2Proof/Decode.lean ====
section
/-! DEFINITION. From words to instructions and back (02 R25-R28, R41-R43). The decoder is total: it answers the
instruction or says by name why there is none; the encoder is written from the same tables. -/

namespace Sys2Proof

/-- Why words are no instruction; a core that issues them takes #ILL (02 R42). -/
inductive Reject where
  /-- No word was given. -/
  | noWord
  /-- A literal word tagged S (02 R26). -/
  | sLiteral
  /-- The tag and opcode pair is not assigned (02 R41). -/
  | unassigned (tag opc : Nat)
  /-- The extension words would run past the last text word (02 R27). -/
  | extMissing
  /-- A word in an extension position carries another tag (02 R27). -/
  | extTag
  /-- A reserved field is not zero (02 R42). -/
  | reservedField (tag opc : Nat)
  deriving DecidableEq, Repr

/-- The fixed fields of one encoding, each a least bit, a width and a value, and how its other bits are read. -/
structure Row where
  /-- Words, the operation word included. -/
  len : Nat
  /-- The fixed fields. -/
  fixed : List (Nat × Nat × Nat)
  /-- The instruction the other bits give. -/
  build : Nat → Instr

/-- The `w` bits of `v` from bit `lo` up. -/
def field (v lo w : Nat) : BitVec w := BitVec.ofNat w (v / 2 ^ lo)

/-- Whether `v` has the fixed fields of a row. -/
def Row.fits (r : Row) (v : Nat) : Bool := r.fixed.all fun f => v / 2 ^ f.1 % 2 ^ f.2.1 == f.2.2

/-- The encodings of the words every engine has (02 R41, the tables of the chapters). -/
def rowsAny : List Row :=
  [ ⟨1, [(11, 2, 2)], fun v => .literalPush (Engine.ofTag (field v 13 3).toNat) (field v 0 11)⟩
  , ⟨1, [(11, 2, 3)], fun v => .literalExtend (Engine.ofTag (field v 13 3).toNat) (field v 0 11)⟩
  , ⟨1, [(6, 7, 0)], fun v => .wait (Engine.ofTag (field v 13 3).toNat) (field v 0 6)⟩
  , ⟨1, [(3, 10, 8)], fun v => .stkDup (Engine.ofTag (field v 13 3).toNat) (field v 0 3)⟩
  , ⟨1, [(3, 10, 10)], fun v => .stkDrop (Engine.ofTag (field v 13 3).toNat) (field v 0 3)⟩
  , ⟨1, [(3, 10, 12)], fun v => .stkSwap (Engine.ofTag (field v 13 3).toNat) (field v 0 3)⟩
  , ⟨1, [(3, 10, 14)], fun v => .stkOver (Engine.ofTag (field v 13 3).toNat) (field v 0 3)⟩ ]

/-- The encodings of tag C (02 R41, the tables of the chapters). -/
def rowsC : List Row :=
  [ ⟨1, [(4, 12, 8)], fun v => .cGetX (field v 0 4)⟩
  , ⟨1, [(3, 13, 18)], fun v => .cGetP (field v 0 3)⟩
  , ⟨1, [(0, 16, 160)], fun _ => .cGetPmask⟩
  , ⟨1, [(2, 14, 44)], fun v => .cGetLidx (field v 0 2)⟩
  , ⟨1, [(4, 12, 12)], fun v => .cPutX (field v 0 4)⟩
  , ⟨1, [(3, 13, 26)], fun v => .cPutP (field v 0 3)⟩
  , ⟨1, [(0, 16, 224)], fun _ => .cPutPmask⟩
  , ⟨1, [(0, 16, 256)], fun _ => .cAdd⟩
  , ⟨1, [(5, 11, 9)], fun v => .cAddImm (field v 0 5)⟩
  , ⟨1, [(0, 16, 320)], fun _ => .cSub⟩
  , ⟨1, [(5, 11, 11)], fun v => .cSubImm (field v 0 5)⟩
  , ⟨1, [(0, 16, 512)], fun _ => .cAnd⟩
  , ⟨1, [(5, 11, 17)], fun v => .cAndImm (field v 0 5)⟩
  , ⟨1, [(0, 16, 576)], fun _ => .cOr⟩
  , ⟨1, [(5, 11, 19)], fun v => .cOrImm (field v 0 5)⟩
  , ⟨1, [(0, 16, 640)], fun _ => .cXor⟩
  , ⟨1, [(5, 11, 21)], fun v => .cXorImm (field v 0 5)⟩
  , ⟨1, [(0, 16, 384)], fun _ => .cMul⟩
  , ⟨1, [(0, 16, 400)], fun _ => .cMulh⟩
  , ⟨1, [(0, 16, 416)], fun _ => .cMulhu⟩
  , ⟨1, [(1, 15, 224)], fun v => .cDiv (field v 0 1)⟩
  , ⟨1, [(1, 15, 225)], fun v => .cRem (field v 0 1)⟩
  , ⟨1, [(1, 15, 226)], fun v => .cDivrem (field v 0 1)⟩
  , ⟨1, [(0, 3, 0), (5, 11, 22)], fun v => .cShift (field v 3 2)⟩
  , ⟨1, [(0, 3, 0), (5, 11, 23)], fun v => .cBitop (field v 3 2)⟩
  , ⟨1, [(0, 3, 0), (6, 10, 12)], fun v => .cCmp (field v 3 3)⟩
  , ⟨1, [(6, 10, 13)], fun v => .cSetp (field v 3 3) (field v 0 3)⟩
  , ⟨1, [(3, 13, 192)], fun v => .cSel (field v 0 3)⟩
  , ⟨1, [(2, 14, 400)], fun v => .cMinmax (field v 0 2)⟩
  , ⟨1, [(2, 1, 0), (6, 10, 26)], fun v => .cPredCombine (field v 3 3) (field v 0 2)⟩
  , ⟨1, [(2, 1, 1), (6, 10, 26)], fun v => .cPredSet (field v 3 3) (field v 0 2)⟩
  , ⟨2, [(13, 19, 7168)], fun v => .cBr (field v 0 13)⟩
  , ⟨2, [(13, 3, 0), (19, 13, 114)], fun v => .cBrT (field v 16 3) (field v 0 13)⟩
  , ⟨2, [(13, 3, 0), (19, 13, 116)], fun v => .cBrF (field v 16 3) (field v 0 13)⟩
  , ⟨2, [(13, 19, 7552)], fun v => .cBrNz (field v 0 13)⟩
  , ⟨2, [(13, 19, 7680)], fun v => .cCall (field v 0 13)⟩
  , ⟨1, [(0, 16, 1024)], fun _ => .cRet⟩
  , ⟨2, [(13, 19, 8704)], fun v => .cLoop (field v 0 13)⟩
  , ⟨2, [(13, 3, 0), (22, 10, 17)], fun v => .cLoopCount (field v 16 6) (field v 0 13)⟩
  , ⟨1, [(3, 13, 144)], fun v => .cSend (field v 0 3)⟩
  , ⟨1, [(3, 13, 152)], fun v => .cRecv (field v 0 3)⟩
  , ⟨1, [(5, 11, 40)], fun v => .cLd (field v 3 2) (field v 2 1) (field v 0 2)⟩
  , ⟨1, [(2, 1, 0), (5, 11, 42)], fun v => .cSt (field v 3 2) (field v 0 2)⟩
  , ⟨2, [(13, 3, 0), (22, 10, 22)], fun v => .cCsr (field v 16 6) (field v 0 13)⟩
  , ⟨2, [(13, 3, 0), (22, 10, 23)], fun v => .cCsw (field v 16 6) (field v 0 13)⟩ ]

/-- The encodings of tag S (02 R41, the tables of the chapters). -/
def rowsS : List Row :=
  [ ⟨2, [(13, 3, 7), (22, 10, 896)], fun v => .sFork (field v 16 6) (field v 0 13)⟩
  , ⟨1, [(6, 10, 897)], fun v => .sJoin (field v 0 6)⟩
  , ⟨1, [(0, 16, 57472)], fun _ => .sLeg⟩
  , ⟨1, [(4, 12, 3596)], fun v => .sSign (field v 0 4)⟩
  , ⟨1, [(0, 16, 57600)], fun _ => .sSlack⟩
  , ⟨1, [(1, 15, 28832)], fun v => .sLtload (field v 0 1)⟩
  , ⟨2, [(0, 1, 0), (13, 3, 7), (19, 13, 7216)], fun v => .sFence (field v 16 3) (field v 7 6) (field v 1 6)⟩
  , ⟨1, [(3, 13, 7224)], fun v => .sAcq (field v 0 3)⟩
  , ⟨1, [(3, 13, 7225)], fun v => .sAcqSh (field v 0 3)⟩
  , ⟨1, [(3, 13, 7232)], fun v => .sRel (field v 0 3)⟩
  , ⟨1, [(4, 12, 3620)], fun v => .sStep (field v 0 4)⟩
  , ⟨1, [(4, 12, 3621)], fun v => .sStepDrop (field v 0 4)⟩
  , ⟨1, [(0, 16, 57984)], fun _ => .sTrap⟩
  , ⟨1, [(0, 16, 58048)], fun _ => .sEnd⟩
  , ⟨1, [(0, 16, 58112)], fun _ => .sYield⟩
  , ⟨1, [(0, 16, 58113)], fun _ => .sYieldForce⟩
  , ⟨1, [(0, 16, 58176)], fun _ => .sBind⟩
  , ⟨1, [(0, 16, 58177)], fun _ => .sBindU⟩
  , ⟨1, [(0, 16, 58240)], fun _ => .sTokenShared⟩
  , ⟨1, [(0, 16, 58241)], fun _ => .sTokenExcl⟩
  , ⟨1, [(0, 16, 58242)], fun _ => .sTokenReturn⟩ ]

/-- The encodings of tag A (02 R41, the tables of the chapters). -/
def rowsA : List Row :=
  [ ⟨2, [(5, 11, 256), (20, 12, 520)], fun v => .aSfld (field v 16 4) (field v 0 5)⟩
  , ⟨1, [(4, 12, 524)], fun v => .aSgo (field v 0 4)⟩
  , ⟨1, [(4, 12, 528)], fun v => .aSstop (field v 0 4)⟩
  , ⟨1, [(4, 12, 529)], fun v => .aSstopDrain (field v 0 4)⟩
  , ⟨1, [(4, 12, 576)], fun v => .aSpos (field v 0 4)⟩
  , ⟨1, [(4, 12, 577)], fun v => .aSposSet (field v 0 4)⟩
  , ⟨1, [(2, 14, 2128)], fun v => .aLdq (field v 0 2)⟩
  , ⟨1, [(1, 15, 4288)], fun v => .aStq (field v 0 1)⟩
  , ⟨1, [(2, 14, 2160)], fun v => .aLdg (field v 0 2)⟩
  , ⟨1, [(2, 14, 2176)], fun v => .aStg (field v 0 2)⟩
  , ⟨1, [(0, 16, 8768)], fun _ => .aAlloc⟩
  , ⟨1, [(0, 16, 8832)], fun _ => .aValidCnt⟩
  , ⟨1, [(0, 16, 8833)], fun _ => .aValidFirst⟩
  , ⟨1, [(0, 16, 8834)], fun _ => .aValidSet⟩
  , ⟨1, [(0, 16, 8896)], fun _ => .aPld⟩
  , ⟨1, [(2, 14, 2225)], fun v => .aPldQueue (field v 0 2)⟩
  , ⟨1, [(0, 16, 8960)], fun _ => .aPst⟩
  , ⟨1, [(0, 16, 8968)], fun _ => .aPstPri⟩
  , ⟨1, [(1, 15, 4482)], fun v => .aPstQueue (field v 0 1)⟩
  , ⟨1, [(1, 15, 4486)], fun v => .aPstPriQueue (field v 0 1)⟩
  , ⟨1, [(4, 12, 564)], fun v => .aAgen (field v 0 4)⟩
  , ⟨1, [(3, 13, 1136)], fun v => .aAlu (field v 0 3)⟩
  , ⟨1, [(3, 13, 1144)], fun v => .aXqCount (field v 0 3)⟩
  , ⟨1, [(3, 13, 1145)], fun v => .aXqFlush (field v 0 3)⟩
  , ⟨1, [(3, 13, 1146)], fun v => .aXqDrop (field v 0 3)⟩
  , ⟨1, [(3, 13, 1147)], fun v => .aXqPut (field v 0 3)⟩ ]

/-- The encodings of tag E (02 R41, the tables of the chapters). -/
def rowsE : List Row :=
  [ ⟨1, [(0, 16, 16512)], fun _ => .eShape⟩
  , ⟨1, [(0, 16, 16513)], fun _ => .eShapeGet⟩
  , ⟨2, [(3, 5, 0), (13, 3, 2), (22, 10, 259)], fun v => .eMov (field v 17 5) (field v 16 1) (field v 8 5) (field v 0 3)⟩
  , ⟨2, [(2, 1, 0), (13, 3, 2), (22, 10, 260)], fun v => .eAdd (field v 17 5) (field v 16 1) (field v 8 5) (field v 3 5) (field v 0 2)⟩
  , ⟨2, [(2, 1, 0), (13, 3, 2), (22, 10, 261)], fun v => .eSub (field v 17 5) (field v 16 1) (field v 8 5) (field v 3 5) (field v 0 2)⟩
  , ⟨2, [(2, 1, 0), (13, 3, 2), (22, 10, 262)], fun v => .eMul (field v 17 5) (field v 16 1) (field v 8 5) (field v 3 5) (field v 0 2)⟩
  , ⟨3, [(0, 8, 0), (13, 3, 2), (29, 3, 2), (38, 10, 263)], fun v => .eFma (field v 33 5) (field v 32 1) (field v 24 5) (field v 19 5) (field v 18 1) (field v 16 2) (field v 8 5)⟩
  , ⟨2, [(2, 1, 0), (13, 3, 2), (22, 10, 264)], fun v => .eDiv (field v 17 5) (field v 16 1) (field v 8 5) (field v 3 5) (field v 0 2)⟩
  , ⟨2, [(2, 6, 0), (13, 3, 2), (22, 10, 265)], fun v => .eSqrt (field v 17 5) (field v 16 1) (field v 8 5) (field v 0 2)⟩
  , ⟨2, [(1, 2, 0), (13, 3, 2), (22, 10, 266)], fun v => .eMin (field v 17 5) (field v 16 1) (field v 8 5) (field v 3 5) (field v 0 1)⟩
  , ⟨2, [(1, 2, 0), (13, 3, 2), (22, 10, 267)], fun v => .eMax (field v 17 5) (field v 16 1) (field v 8 5) (field v 3 5) (field v 0 1)⟩
  , ⟨2, [(13, 3, 2), (22, 10, 268)], fun v => .eCmp (field v 17 5) (field v 16 1) (field v 8 5) (field v 3 5) (field v 0 3)⟩
  , ⟨3, [(0, 8, 0), (13, 6, 2), (29, 3, 2), (38, 10, 269)], fun v => .eSelect (field v 33 5) (field v 32 1) (field v 24 5) (field v 19 5) (field v 8 5)⟩
  , ⟨2, [(13, 3, 2), (22, 10, 270)], fun v => .eIadd (field v 17 5) (field v 16 1) (field v 8 5) (field v 3 5) (field v 0 3)⟩
  , ⟨2, [(13, 3, 2), (22, 10, 271)], fun v => .eImul (field v 17 5) (field v 16 1) (field v 8 5) (field v 3 5) (field v 0 3)⟩
  , ⟨2, [(13, 3, 2), (22, 10, 272)], fun v => .eLogic (field v 17 5) (field v 16 1) (field v 8 5) (field v 3 5) (field v 0 3)⟩
  , ⟨2, [(13, 3, 2), (22, 10, 273)], fun v => .eShift (field v 17 5) (field v 16 1) (field v 8 5) (field v 3 5) (field v 0 3)⟩
  , ⟨3, [(8, 8, 64), (18, 1, 0), (29, 3, 2), (38, 10, 274)], fun v => .eCvt (field v 33 5) (field v 32 1) (field v 24 5) (field v 19 5) (field v 16 2) (field v 5 3) (field v 0 5)⟩
  , ⟨3, [(5, 3, 0), (13, 11, 2), (29, 3, 2), (38, 10, 275)], fun v => .eQuant (field v 33 5) (field v 32 1) (field v 24 5) (field v 8 5) (field v 0 5)⟩
  , ⟨1, [(0, 16, 17664)], fun _ => .eAmax⟩
  , ⟨1, [(0, 16, 17665)], fun _ => .eAmaxReset⟩
  , ⟨1, [(0, 16, 17666)], fun _ => .eAmaxClear⟩
  , ⟨2, [(3, 5, 0), (13, 3, 2), (22, 10, 277)], fun v => .eRed (field v 17 5) (field v 16 1) (field v 8 5) (field v 2 1) (field v 0 2)⟩
  , ⟨2, [(0, 8, 0), (13, 3, 2), (22, 10, 278)], fun v => .eXpose (field v 17 5) (field v 16 1) (field v 8 5)⟩
  , ⟨3, [(13, 3, 2), (29, 3, 2), (38, 10, 279)], fun v => .ePerm (field v 33 5) (field v 32 1) (field v 24 5) (field v 19 5) (field v 16 3) (field v 8 5) (field v 0 8)⟩
  , ⟨1, [(6, 10, 280)], fun v => .eRep (field v 4 2) (field v 0 4)⟩
  , ⟨2, [(2, 6, 0), (13, 3, 2), (22, 10, 281)], fun v => .eSfn (field v 17 5) (field v 16 1) (field v 8 5) (field v 0 2)⟩
  , ⟨2, [(0, 8, 0), (13, 3, 2), (22, 10, 282)], fun v => .eTpack (field v 17 5) (field v 16 1) (field v 8 5)⟩
  , ⟨2, [(3, 5, 0), (13, 19, 144898)], fun v => .eMask (field v 8 5) (field v 0 3)⟩
  , ⟨2, [(3, 5, 0), (13, 3, 2), (22, 10, 284)], fun v => .eXq (field v 17 5) (field v 16 1) (field v 8 5) (field v 0 3)⟩ ]

/-- The encodings of tag M (02 R41, the tables of the chapters). -/
def rowsM : List Row :=
  [ ⟨1, [(0, 16, 24704)], fun _ => .mClaim⟩
  , ⟨1, [(0, 16, 24705)], fun _ => .mClaimR⟩
  , ⟨1, [(0, 16, 24768)], fun _ => .mRelease⟩
  , ⟨1, [(0, 1, 0), (6, 10, 388)], fun v => .mWload (field v 1 5)⟩
  , ⟨1, [(0, 1, 1), (6, 10, 388)], fun v => .mWloadSp (field v 1 5)⟩
  , ⟨1, [(0, 16, 24896)], fun _ => .mSwap⟩
  , ⟨1, [(6, 10, 390)], fun v => .mMma (field v 3 3) (field v 0 3)⟩
  , ⟨1, [(3, 13, 3152)], fun v => .mTmma (field v 0 3)⟩
  , ⟨2, [(9, 7, 48), (22, 10, 391)], fun v => .mEpi (field v 21 1) (field v 19 2) (field v 16 3) (field v 7 2) (field v 5 2) (field v 0 5)⟩
  , ⟨1, [(0, 16, 25088)], fun _ => .mRoute⟩
  , ⟨1, [(0, 16, 25089)], fun _ => .mRouteGet⟩
  , ⟨1, [(3, 13, 3144)], fun v => .mAccClear (field v 0 3)⟩
  , ⟨1, [(3, 13, 3145)], fun v => .mAccClearpair (field v 0 3)⟩
  , ⟨1, [(3, 13, 3146)], fun v => .mAccLoad (field v 0 3)⟩ ]

/-- The encodings of tag K (02 R41, the tables of the chapters). -/
def rowsK : List Row :=
  [ ⟨1, [(3, 13, 4112)], fun v => .kGeoDim (field v 0 3)⟩
  , ⟨1, [(0, 16, 32904)], fun _ => .kGeoRank⟩
  , ⟨1, [(0, 16, 32912)], fun _ => .kGeoSpace⟩
  , ⟨1, [(0, 16, 32920)], fun _ => .kGeoSig⟩
  , ⟨1, [(0, 16, 32928)], fun _ => .kGeoClear⟩
  , ⟨1, [(0, 16, 32960)], fun _ => .kCopy⟩
  , ⟨1, [(0, 16, 33024)], fun _ => .kFollow⟩
  , ⟨1, [(0, 16, 33088)], fun _ => .kCnt⟩
  , ⟨1, [(0, 16, 33089)], fun _ => .kCntGet⟩
  , ⟨1, [(6, 10, 518)], fun v => .kFlag (field v 0 6)⟩
  , ⟨1, [(3, 13, 4152)], fun v => .kCwait (field v 0 3)⟩
  , ⟨1, [(0, 16, 33280)], fun _ => .kPin⟩
  , ⟨1, [(0, 16, 33281)], fun _ => .kPinRelease⟩
  , ⟨1, [(0, 16, 33344)], fun _ => .kConvSrc⟩
  , ⟨1, [(0, 16, 33345)], fun _ => .kConvDst⟩ ]

/-- The encodings of tag W (02 R41, the tables of the chapters). -/
def rowsW : List Row :=
  [ ⟨1, [(5, 11, 1284)], fun v => .wRows (field v 2 3) (field v 0 2)⟩
  , ⟨1, [(4, 12, 2572)], fun v => .wRstat (field v 3 1) (field v 0 3)⟩
  , ⟨1, [(0, 16, 41216)], fun _ => .wTime⟩
  , ⟨1, [(0, 16, 41217)], fun _ => .wTimeGet⟩ ]

/-- The encodings of tag F (02 R41, the tables of the chapters). -/
def rowsF : List Row :=
  [ ⟨1, [(0, 1, 0), (6, 10, 770)], fun v => .fAmo (field v 3 3) (field v 1 2)⟩
  , ⟨1, [(0, 1, 1), (6, 10, 770)], fun v => .fAmoR (field v 3 3) (field v 1 2)⟩
  , ⟨1, [(1, 15, 24672)], fun v => .fCas (field v 0 1)⟩
  , ⟨1, [(1, 1, 1), (4, 12, 3084)], fun v => .fCasM (field v 2 2) (field v 0 1)⟩
  , ⟨1, [(0, 16, 49408)], fun _ => .fEnq⟩
  , ⟨1, [(0, 16, 49409)], fun _ => .fEnqR⟩
  , ⟨2, [(13, 19, 395782)], fun v => .fChase (field v 9 4) (field v 6 3) (field v 0 6)⟩
  , ⟨1, [(5, 11, 1548)], fun v => .fRld (field v 3 2) (field v 2 1) (field v 0 2)⟩
  , ⟨1, [(2, 1, 0), (5, 11, 1550)], fun v => .fRst (field v 3 2) (field v 0 2)⟩
  , ⟨1, [(1, 15, 24832)], fun v => .fSkup (field v 0 1)⟩
  , ⟨1, [(1, 15, 24833)], fun v => .fSkupN (field v 0 1)⟩
  , ⟨1, [(1, 15, 24864)], fun v => .fSkq (field v 0 1)⟩
  , ⟨1, [(1, 15, 24865)], fun v => .fSkqN (field v 0 1)⟩
  , ⟨1, [(0, 16, 49792)], fun _ => .fSkadd⟩
  , ⟨1, [(5, 11, 1558)], fun v => .fColl (field v 4 1) (field v 2 2) (field v 0 2)⟩
  , ⟨1, [(6, 10, 780)], fun v => .fLayout (field v 4 2) (field v 0 4)⟩
  , ⟨1, [(0, 16, 49984)], fun _ => .fDrain⟩ ]

/-- The encodings an operation word of tag `t` may have. -/
def rowsOf (t : Nat) : List Row :=
  match t with
  | 0 => rowsAny ++ rowsC
  | 1 => rowsAny ++ rowsA
  | 2 => rowsAny ++ rowsE
  | 3 => rowsAny ++ rowsM
  | 4 => rowsAny ++ rowsK
  | 5 => rowsAny ++ rowsW
  | 6 => rowsAny ++ rowsF
  | _ => rowsS

/-- How many opcodes of a tag are assigned; they are numbered from 0 (02 R41). -/
def assignedOps (t : Nat) : Nat :=
  match t with
  | 0 => 0x1B | 1 => 0x11 | 2 => 0x1D | 3 => 0x0B | 4 => 0x0A | 5 => 0x05 | 6 => 0x0E | _ => 0x0F

/-- The E opcodes of one word: WAIT, STK, SHAPE, AMAX and REP (02 R41). -/
def eOneWord : List Nat := [0x00, 0x01, 0x02, 0x14, 0x18]

/-- The E opcodes of three words: FMA, SELECT, CVT, QUANT and PERM (02 R41). -/
def eThreeWords : List Nat := [0x07, 0x0D, 0x12, 0x13, 0x17]

/-- The length in words of an assigned tag and opcode pair (02 R41); one word for any other (02 R42). -/
def wordsOf (t op : Nat) : Nat :=
  if assignedOps t ≤ op then 1 else
  match t with
  | 0 => if op = 0x0E ∨ op = 0x0F ∨ op = 0x11 ∨ op = 0x16 ∨ op = 0x17 then 2 else 1
  | 1 => if op = 0x02 then 2 else 1
  | 2 => if op ∈ eOneWord then 1 else if op ∈ eThreeWords then 3 else 2
  | 3 => if op = 0x07 then 2 else 1
  | 6 => if op = 0x05 then 2 else 1
  | 7 => if op = 0x00 ∨ op = 0x06 then 2 else 1
  | _ => 1

/-- The tag of a text word, bits [15:13] (02 R25). -/
def tagOf (w : Half) : Nat := w.toNat / 2 ^ 13

/-- Whether a word standing in an operation position is a literal word, bit [12] (02 R25). -/
def isLiteral (w : Half) : Bool := w.toNat / 2 ^ 12 % 2 == 1

/-- The opcode of an operation word, bits [11:6] (02 R25). -/
def opcOf (w : Half) : Nat := w.toNat / 2 ^ 6 % 2 ^ 6

/-- The words of the instruction that begins with `w` (02 R27, R42). -/
def lenOf (w : Half) : Nat := if isLiteral w then 1 else wordsOf (tagOf w) (opcOf w)

/-- Words read as one number, the first word highest. -/
def joinWords : List Half → Nat
  | [] => 0
  | w :: ws => w.toNat * 2 ^ (16 * ws.length) + joinWords ws

/-- The `n` words of a number, the first word highest. -/
def toWords : Nat → Nat → List Half
  | 0, _ => []
  | n + 1, v => BitVec.ofNat 16 (v / 2 ^ (16 * n)) :: toWords n v

/-- The instruction the words at an address begin with (02 R25-R28, R41, R42). -/
def decode (ws : List Half) : Except Reject Instr :=
  match ws with
  | [] => .error .noWord
  | w :: _ =>
    let t := tagOf w
    let op := opcOf w
    let n := lenOf w
    if isLiteral w && t == 7 then .error .sLiteral
    else if !isLiteral w && decide (assignedOps t ≤ op) then .error (.unassigned t op)
    else if ws.length < n then .error .extMissing
    else if (ws.take n).any (fun x => tagOf x != t) then .error .extTag
    else
      let v := joinWords (ws.take n)
      match (rowsOf t).find? (fun r => r.len == n && r.fits v) with
      | some r => .ok (r.build v)
      | none => .error (.reservedField t op)

/-- A number with field values added at their places. -/
def withFields (base : Nat) : List (Nat × Nat) → Nat
  | [] => base
  | f :: fs => withFields (base + f.1 * 2 ^ f.2) fs

/-- The length and the number of an instruction's words, the first word highest; an event or command has none. -/
def encodeNat (i : Instr) : Option (Nat × Nat) :=
  match i with
  | .literalPush t i => some (1, withFields 0x1000 [(t.tag, 13), (i.toNat, 0)])
  | .literalExtend t i => some (1, withFields 0x1800 [(t.tag, 13), (i.toNat, 0)])
  | .wait t n => some (1, withFields 0x0 [(t.tag, 13), (n.toNat, 0)])
  | .stkDup t k => some (1, withFields 0x40 [(t.tag, 13), (k.toNat, 0)])
  | .stkDrop t k => some (1, withFields 0x50 [(t.tag, 13), (k.toNat, 0)])
  | .stkSwap t k => some (1, withFields 0x60 [(t.tag, 13), (k.toNat, 0)])
  | .stkOver t k => some (1, withFields 0x70 [(t.tag, 13), (k.toNat, 0)])
  | .cGetX n => some (1, withFields 0x80 [(n.toNat, 0)])
  | .cGetP n => some (1, withFields 0x90 [(n.toNat, 0)])
  | .cGetPmask => some (1, withFields 0xa0 [])
  | .cGetLidx k => some (1, withFields 0xb0 [(k.toNat, 0)])
  | .cPutX n => some (1, withFields 0xc0 [(n.toNat, 0)])
  | .cPutP n => some (1, withFields 0xd0 [(n.toNat, 0)])
  | .cPutPmask => some (1, withFields 0xe0 [])
  | .cAdd => some (1, withFields 0x100 [])
  | .cAddImm i => some (1, withFields 0x120 [(i.toNat, 0)])
  | .cSub => some (1, withFields 0x140 [])
  | .cSubImm i => some (1, withFields 0x160 [(i.toNat, 0)])
  | .cAnd => some (1, withFields 0x200 [])
  | .cAndImm i => some (1, withFields 0x220 [(i.toNat, 0)])
  | .cOr => some (1, withFields 0x240 [])
  | .cOrImm i => some (1, withFields 0x260 [(i.toNat, 0)])
  | .cXor => some (1, withFields 0x280 [])
  | .cXorImm i => some (1, withFields 0x2a0 [(i.toNat, 0)])
  | .cMul => some (1, withFields 0x180 [])
  | .cMulh => some (1, withFields 0x190 [])
  | .cMulhu => some (1, withFields 0x1a0 [])
  | .cDiv u => some (1, withFields 0x1c0 [(u.toNat, 0)])
  | .cRem u => some (1, withFields 0x1c2 [(u.toNat, 0)])
  | .cDivrem u => some (1, withFields 0x1c4 [(u.toNat, 0)])
  | .cShift o => some (1, withFields 0x2c0 [(o.toNat, 3)])
  | .cBitop o => some (1, withFields 0x2e0 [(o.toNat, 3)])
  | .cCmp c => some (1, withFields 0x300 [(c.toNat, 3)])
  | .cSetp c n => some (1, withFields 0x340 [(c.toNat, 3), (n.toNat, 0)])
  | .cSel n => some (1, withFields 0x600 [(n.toNat, 0)])
  | .cMinmax m => some (1, withFields 0x640 [(m.toNat, 0)])
  | .cPredCombine d o => some (1, withFields 0x680 [(d.toNat, 3), (o.toNat, 0)])
  | .cPredSet d o => some (1, withFields 0x684 [(d.toNat, 3), (o.toNat, 0)])
  | .cBr o => some (2, withFields 0x3800000 [(o.toNat, 0)])
  | .cBrT n o => some (2, withFields 0x3900000 [(n.toNat, 16), (o.toNat, 0)])
  | .cBrF n o => some (2, withFields 0x3a00000 [(n.toNat, 16), (o.toNat, 0)])
  | .cBrNz o => some (2, withFields 0x3b00000 [(o.toNat, 0)])
  | .cCall o => some (2, withFields 0x3c00000 [(o.toNat, 0)])
  | .cRet => some (1, withFields 0x400 [])
  | .cLoopCount n o => some (2, withFields 0x4400000 [(n.toNat, 16), (o.toNat, 0)])
  | .cLoop o => some (2, withFields 0x4400000 [(o.toNat, 0)])
  | .cSend e => some (1, withFields 0x480 [(e.toNat, 0)])
  | .cRecv e => some (1, withFields 0x4c0 [(e.toNat, 0)])
  | .recvHandoff _ => none
  | .cLd c s z => some (1, withFields 0x500 [(c.toNat, 3), (s.toNat, 2), (z.toNat, 0)])
  | .cSt c z => some (1, withFields 0x540 [(c.toNat, 3), (z.toNat, 0)])
  | .cCsr g i => some (2, withFields 0x5800000 [(g.toNat, 16), (i.toNat, 0)])
  | .cCsw g i => some (2, withFields 0x5c00000 [(g.toNat, 16), (i.toNat, 0)])
  | .registerWrite => none
  | .cfSlipWrite => none
  | .sFork m o => some (2, withFields 0xe000e000 [(m.toNat, 16), (o.toNat, 0)])
  | .sJoin m => some (1, withFields 0xe040 [(m.toNat, 0)])
  | .sLeg => some (1, withFields 0xe080 [])
  | .sSign k => some (1, withFields 0xe0c0 [(k.toNat, 0)])
  | .sSlack => some (1, withFields 0xe100 [])
  | .sLtload b => some (1, withFields 0xe140 [(b.toNat, 0)])
  | .sFence s p q => some (2, withFields 0xe180e000 [(s.toNat, 16), (p.toNat, 7), (q.toNat, 1)])
  | .sAcq s => some (1, withFields 0xe1c0 [(s.toNat, 0)])
  | .sAcqSh s => some (1, withFields 0xe1c8 [(s.toNat, 0)])
  | .sRel s => some (1, withFields 0xe200 [(s.toNat, 0)])
  | .sStep g => some (1, withFields 0xe240 [(g.toNat, 0)])
  | .sStepDrop g => some (1, withFields 0xe250 [(g.toNat, 0)])
  | .sTrap => some (1, withFields 0xe280 [])
  | .sEnd => some (1, withFields 0xe2c0 [])
  | .sYield => some (1, withFields 0xe300 [])
  | .sYieldForce => some (1, withFields 0xe301 [])
  | .sBind => some (1, withFields 0xe340 [])
  | .sBindU => some (1, withFields 0xe341 [])
  | .sTokenShared => some (1, withFields 0xe380 [])
  | .sTokenExcl => some (1, withFields 0xe381 [])
  | .sTokenReturn => some (1, withFields 0xe382 [])
  | .aSfld g i => some (2, withFields 0x20802000 [(g.toNat, 16), (i.toNat, 0)])
  | .aSgo g => some (1, withFields 0x20c0 [(g.toNat, 0)])
  | .aSstop g => some (1, withFields 0x2100 [(g.toNat, 0)])
  | .aSstopDrain g => some (1, withFields 0x2110 [(g.toNat, 0)])
  | .aSpos g => some (1, withFields 0x2400 [(g.toNat, 0)])
  | .aSposSet g => some (1, withFields 0x2410 [(g.toNat, 0)])
  | .aLdq q => some (1, withFields 0x2140 [(q.toNat, 0)])
  | .aStq s => some (1, withFields 0x2180 [(s.toNat, 0)])
  | .aLdg c => some (1, withFields 0x21c0 [(c.toNat, 0)])
  | .aStg c => some (1, withFields 0x2200 [(c.toNat, 0)])
  | .aAlloc => some (1, withFields 0x2240 [])
  | .aValidCnt => some (1, withFields 0x2280 [])
  | .aValidFirst => some (1, withFields 0x2281 [])
  | .aValidSet => some (1, withFields 0x2282 [])
  | .aPld => some (1, withFields 0x22c0 [])
  | .aPldQueue q => some (1, withFields 0x22c4 [(q.toNat, 0)])
  | .aPst => some (1, withFields 0x2300 [])
  | .aPstPri => some (1, withFields 0x2308 [])
  | .aPstQueue s => some (1, withFields 0x2304 [(s.toNat, 0)])
  | .aPstPriQueue s => some (1, withFields 0x230c [(s.toNat, 0)])
  | .aAgen g => some (1, withFields 0x2340 [(g.toNat, 0)])
  | .aAlu o => some (1, withFields 0x2380 [(o.toNat, 0)])
  | .aXqCount q => some (1, withFields 0x23c0 [(q.toNat, 0)])
  | .aXqFlush q => some (1, withFields 0x23c8 [(q.toNat, 0)])
  | .aXqDrop q => some (1, withFields 0x23d0 [(q.toNat, 0)])
  | .aXqPut q => some (1, withFields 0x23d8 [(q.toNat, 0)])
  | .streamRun _ => none
  | .streamDrained _ => none
  | .eShape => some (1, withFields 0x4080 [])
  | .eShapeGet => some (1, withFields 0x4081 [])
  | .eMov d p a m => some (2, withFields 0x40c04000 [(d.toNat, 17), (p.toNat, 16), (a.toNat, 8), (m.toNat, 0)])
  | .eAdd d p a b r => some (2, withFields 0x41004000 [(d.toNat, 17), (p.toNat, 16), (a.toNat, 8), (b.toNat, 3), (r.toNat, 0)])
  | .eSub d p a b r => some (2, withFields 0x41404000 [(d.toNat, 17), (p.toNat, 16), (a.toNat, 8), (b.toNat, 3), (r.toNat, 0)])
  | .eMul d p a b r => some (2, withFields 0x41804000 [(d.toNat, 17), (p.toNat, 16), (a.toNat, 8), (b.toNat, 3), (r.toNat, 0)])
  | .eFma d p a b neg r c => some (3, withFields 0x41c040004000 [(d.toNat, 33), (p.toNat, 32), (a.toNat, 24), (b.toNat, 19), (neg.toNat, 18), (r.toNat, 16), (c.toNat, 8)])
  | .eDiv d p a b r => some (2, withFields 0x42004000 [(d.toNat, 17), (p.toNat, 16), (a.toNat, 8), (b.toNat, 3), (r.toNat, 0)])
  | .eSqrt d p a r => some (2, withFields 0x42404000 [(d.toNat, 17), (p.toNat, 16), (a.toNat, 8), (r.toNat, 0)])
  | .eMin d p a b n => some (2, withFields 0x42804000 [(d.toNat, 17), (p.toNat, 16), (a.toNat, 8), (b.toNat, 3), (n.toNat, 0)])
  | .eMax d p a b n => some (2, withFields 0x42c04000 [(d.toNat, 17), (p.toNat, 16), (a.toNat, 8), (b.toNat, 3), (n.toNat, 0)])
  | .eCmp d p a b c => some (2, withFields 0x43004000 [(d.toNat, 17), (p.toNat, 16), (a.toNat, 8), (b.toNat, 3), (c.toNat, 0)])
  | .eSelect d p a b c => some (3, withFields 0x434040004000 [(d.toNat, 33), (p.toNat, 32), (a.toNat, 24), (b.toNat, 19), (c.toNat, 8)])
  | .eIadd d p a b m => some (2, withFields 0x43804000 [(d.toNat, 17), (p.toNat, 16), (a.toNat, 8), (b.toNat, 3), (m.toNat, 0)])
  | .eImul d p a b m => some (2, withFields 0x43c04000 [(d.toNat, 17), (p.toNat, 16), (a.toNat, 8), (b.toNat, 3), (m.toNat, 0)])
  | .eLogic d p a b m => some (2, withFields 0x44004000 [(d.toNat, 17), (p.toNat, 16), (a.toNat, 8), (b.toNat, 3), (m.toNat, 0)])
  | .eShift d p a b m => some (2, withFields 0x44404000 [(d.toNat, 17), (p.toNat, 16), (a.toNat, 8), (b.toNat, 3), (m.toNat, 0)])
  | .eCvt d p a b r o f => some (3, withFields 0x448040004000 [(d.toNat, 33), (p.toNat, 32), (a.toNat, 24), (b.toNat, 19), (r.toNat, 16), (o.toNat, 5), (f.toNat, 0)])
  | .eQuant d p a sd f => some (3, withFields 0x44c040004000 [(d.toNat, 33), (p.toNat, 32), (a.toNat, 24), (sd.toNat, 8), (f.toNat, 0)])
  | .eAmax => some (1, withFields 0x4500 [])
  | .eAmaxReset => some (1, withFields 0x4501 [])
  | .eAmaxClear => some (1, withFields 0x4502 [])
  | .eRed d p a x o => some (2, withFields 0x45404000 [(d.toNat, 17), (p.toNat, 16), (a.toNat, 8), (x.toNat, 2), (o.toNat, 0)])
  | .eXpose d p a => some (2, withFields 0x45804000 [(d.toNat, 17), (p.toNat, 16), (a.toNat, 8)])
  | .ePerm d p a b m c s => some (3, withFields 0x45c040004000 [(d.toNat, 33), (p.toNat, 32), (a.toNat, 24), (b.toNat, 19), (m.toNat, 16), (c.toNat, 8), (s.toNat, 0)])
  | .eRep s n => some (1, withFields 0x4600 [(s.toNat, 4), (n.toNat, 0)])
  | .eSfn d p a f => some (2, withFields 0x46404000 [(d.toNat, 17), (p.toNat, 16), (a.toNat, 8), (f.toNat, 0)])
  | .eTpack d p a => some (2, withFields 0x46804000 [(d.toNat, 17), (p.toNat, 16), (a.toNat, 8)])
  | .eMask a f => some (2, withFields 0x46c04000 [(a.toNat, 8), (f.toNat, 0)])
  | .eXq d p a m => some (2, withFields 0x47004000 [(d.toNat, 17), (p.toNat, 16), (a.toNat, 8), (m.toNat, 0)])
  | .mClaim => some (1, withFields 0x6080 [])
  | .mClaimR => some (1, withFields 0x6081 [])
  | .mRelease => some (1, withFields 0x60c0 [])
  | .mWload f => some (1, withFields 0x6100 [(f.toNat, 1)])
  | .mWloadSp f => some (1, withFields 0x6101 [(f.toNat, 1)])
  | .mSwap => some (1, withFields 0x6140 [])
  | .mMma f k => some (1, withFields 0x6180 [(f.toNat, 3), (k.toNat, 0)])
  | .mTmma k => some (1, withFields 0x6280 [(k.toNat, 0)])
  | .mEpi z d k s a f => some (2, withFields 0x61c06000 [(z.toNat, 21), (d.toNat, 19), (k.toNat, 16), (s.toNat, 7), (a.toNat, 5), (f.toNat, 0)])
  | .mRoute => some (1, withFields 0x6200 [])
  | .mRouteGet => some (1, withFields 0x6201 [])
  | .mAccClear k => some (1, withFields 0x6240 [(k.toNat, 0)])
  | .mAccClearpair k => some (1, withFields 0x6248 [(k.toNat, 0)])
  | .mAccLoad k => some (1, withFields 0x6250 [(k.toNat, 0)])
  | .kGeoDim k => some (1, withFields 0x8080 [(k.toNat, 0)])
  | .kGeoRank => some (1, withFields 0x8088 [])
  | .kGeoSpace => some (1, withFields 0x8090 [])
  | .kGeoSig => some (1, withFields 0x8098 [])
  | .kGeoClear => some (1, withFields 0x80a0 [])
  | .kCopy => some (1, withFields 0x80c0 [])
  | .kFollow => some (1, withFields 0x8100 [])
  | .kCnt => some (1, withFields 0x8140 [])
  | .kCntGet => some (1, withFields 0x8141 [])
  | .kFlag n => some (1, withFields 0x8180 [(n.toNat, 0)])
  | .kCwait s => some (1, withFields 0x81c0 [(s.toNat, 0)])
  | .kPin => some (1, withFields 0x8200 [])
  | .kPinRelease => some (1, withFields 0x8201 [])
  | .kConvSrc => some (1, withFields 0x8240 [])
  | .kConvDst => some (1, withFields 0x8241 [])
  | .copyComplete _ => none
  | .followOnStart => none
  | .cwaitSatisfied => none
  | .flagWaitSatisfied => none
  | .wRows f m => some (1, withFields 0xa080 [(f.toNat, 2), (m.toNat, 0)])
  | .wRstat i k => some (1, withFields 0xa0c0 [(i.toNat, 3), (k.toNat, 0)])
  | .wTime => some (1, withFields 0xa100 [])
  | .wTimeGet => some (1, withFields 0xa101 [])
  | .fAmo o t => some (1, withFields 0xc080 [(o.toNat, 3), (t.toNat, 1)])
  | .fAmoR o t => some (1, withFields 0xc081 [(o.toNat, 3), (t.toNat, 1)])
  | .fCas w => some (1, withFields 0xc0c0 [(w.toNat, 0)])
  | .fCasM n w => some (1, withFields 0xc0c2 [(n.toNat, 2), (w.toNat, 0)])
  | .fEnq => some (1, withFields 0xc100 [])
  | .fEnqR => some (1, withFields 0xc101 [])
  | .fChase h c k => some (2, withFields 0xc140c000 [(h.toNat, 9), (c.toNat, 6), (k.toNat, 0)])
  | .fRld c s z => some (1, withFields 0xc180 [(c.toNat, 3), (s.toNat, 2), (z.toNat, 0)])
  | .fRst c z => some (1, withFields 0xc1c0 [(c.toNat, 3), (z.toNat, 0)])
  | .fSkup d => some (1, withFields 0xc200 [(d.toNat, 0)])
  | .fSkupN d => some (1, withFields 0xc202 [(d.toNat, 0)])
  | .fSkq i => some (1, withFields 0xc240 [(i.toNat, 0)])
  | .fSkqN i => some (1, withFields 0xc242 [(i.toNat, 0)])
  | .fSkadd => some (1, withFields 0xc280 [])
  | .fColl e d s => some (1, withFields 0xc2c0 [(e.toNat, 4), (d.toNat, 2), (s.toNat, 0)])
  | .fLayout n f => some (1, withFields 0xc300 [(n.toNat, 4), (f.toNat, 0)])
  | .fDrain => some (1, withFields 0xc340 [])
  | .farDrainComplete => none
  | .farReply _ => none
  | .reportArrival _ => none
  | .wallowerService _ _ => none
  | .sketchLogApply _ => none
  | .combineTimerFlush _ => none
  | .tokenRevoke _ => none
  | .tokenComplete => none
  | .flitReceive _ => none
  | .replayRequest _ => none
  | .flitAck _ _ => none
  | .rotationMarker _ => none
  | .linkDown _ => none
  | .slotDeparture _ => none
  | .acquireGrant _ => none
  | .releaseDrainComplete => none
  | .releaseEffect _ => none
  | .bindRecord => none
  | .fenceDrainComplete => none
  | .collectiveComplete _ => none
  | .stepSettle _ => none
  | .stepAbsenceLimit _ => none
  | .legTableLoaded _ => none
  | .legStart => none
  | .legTimedEnd => none
  | .timelineCommand => none
  | .owedCommandService => none
  | .controllerSignoff _ => none
  | .stationSignoff => none
  | .closureLimitExpiry => none
  | .refreshTick _ => none
  | .heldRefresh _ => none
  | .pageWalk _ => none
  | .epochClose => none
  | .swapComplete => none
  | .patrolLine => none
  | .rotationPassEnd => none
  | .textRowFill _ => none
  | .textRowFree => none
  | .launchRecord => none
  | .taskPlace _ _ => none
  | .taskStart => none
  | .timedTaskStart => none
  | .endComplete => none
  | .contextSaveComplete => none
  | .contextRestoreComplete => none
  | .killComplete => none
  | .taskCtlRetry => none
  | .taskCtlSkip => none
  | .taskCtlKill => none
  | .pageDone => none
  | .tlbInvPage => none
  | .tlbInvSpace => none
  | .tlbInvAll => none
  | .keyRotate => none
  | .hashMaskWrite => none
  | .regionWrite => none
  | .sgFaultClear => none
  | .uninitClear => none
  | .errorLogClear => none
  | .memrd _ _ _ _ => none
  | .memwr _ _ _ _ => none
  | .regrd _ _ _ => none
  | .regwr _ _ _ _ => none
  | .launch _ _ _ _ => none
  | .keyld _ => none
  | .fwld _ => none
  | .attestCmd _ => none
  | .lifeCmd _ _ => none
  | .debugCmd _ _ => none
  | .powerCmd _ => none
  | .haltEntry => none
  | .powerOn => none
  | .functionReady _ => none
  | .thermalWarn _ => none
  | .thermalTrip _ => none
  | .illegalWord _ => none
  | .freeModeRequestService _ => none
  | .millwrightPreemption => none
  | .exchangeWaitLimit _ => none
  | .powerLoss => none

/-- The words of an instruction (02 R25-R27 and the encoding tables of the chapters). -/
def encode (i : Instr) : Option (List Half) := (encodeNat i).map fun p => toWords p.1 p.2

/-- The text words of a number numbered as the opcode table numbers bits (log entry 7): a one-word row's word is bits
[15:0]; a row of two words has its operation word in bits [31:16] and the extension word in bits [15:0]; words of
zeros stand where an instruction is longer than that. -/
def tableWords (nbits w : Nat) : List Half :=
  toWords (nbits / 16) w ++ [0, 0]

/-- The instruction the decoder reads from a row's word of the opcode table. -/
def decodeTableWord (nbits w : Nat) : Option Instr :=
  match decode (tableWords nbits w) with
  | .ok i => some i
  | .error _ => none

end Sys2Proof
end

