-- ==== Sys2Proof/Config.lean ====
section
/-! DEFINITION. What one package fixes and the spec leaves open: opaque constants no proof can look into.
Log entries 11, 12, 31 and 87 name each. -/

namespace Sys2Proof

/-- Which of the values of CF_MODE that a C.CSW leaves to be seen an instruction of another engine sees (04 R92; log entry
12), by the number of the C.CSW, the engine's tag and its progress: nothing is known of it. -/
opaque Config.seenMode : Nat → Nat → Nat → Nat

/-- Whether, in untimed code, the epilogue's entries enter a store queue before those that E pushes in the same cycle (07 R162; log
entry 87), by the core and the cycle: nothing is known of it. -/
opaque Config.epilogueFirst : Nat → Nat → Bool

/-- The package key and the network's keyed checks: whether an image, token or signature verifies under the owner's
public key of a package (19 R400, R402; log entry 11). The first argument names what is checked. -/
opaque Config.verifies : Nat → List (BitVec 8) → Bool

/-- The security version number a firmware image carries (19 R402; log entry 11). -/
opaque Config.imageSvn : List (BitVec 8) → Nat

/-- The SHAKE256 digest of a firmware image (19 R403; log entry 11). -/
opaque Config.imageDigest : List (BitVec 8) → List (BitVec 8)

/-- The package's signature on a report for a nonce, the measured values and an attestation index (19 R403; log entry 11). -/
opaque Config.attestReport : List (BitVec 8) → List Nat → List (BitVec 8)

/-- The authentication tag of a flit under a key version, on a link, of its header bytes 0 to 15 and its payload (14 R280; log
entry 11). -/
opaque Config.flitTag : Nat → Nat → List (BitVec 8) → List (BitVec 8) → Nat

/-- The 32 bytes of an F packet, by the core, the place of its word on the path, the element of a .n form, and whether it is the
reply (14 R279; log entry 31). -/
opaque Config.packetBytes : Nat → Nat → Nat → Bool → List (BitVec 8)

/-- N_ring of a rack ring of the torus, X at 0 and Y at 1 (01 R16, R17; log entry 31). -/
opaque Config.ringSize : Nat → Nat

/-- The position of a package on a rack ring (01 R17; log entry 31). -/
opaque Config.ringPos : Nat → Nat → Nat

/-- The rack ring that a path between two packages crosses first where it crosses both (01 R17; log entry 31). -/
opaque Config.firstRing : Nat → Nat → Nat

/-- The tier in which a page of a peer package lies, by package and peer address over 4,096 (01 R23; log entry 31). -/
opaque Config.peerTier : Nat → Nat → Nat

end Sys2Proof
end

