-- ==== Sys2Proof/Machine/SMap.lean ====
section
/-! DEFINITION. A sparse map from numbers to values, held as a list of pairs in one canonical form: keys strictly
rising, no value equal to what an unlisted key reads as. Memories, register arrays and tables are such maps. -/

namespace Sys2Proof.Machine

/-- Key and value pairs, the keys rising. -/
abbrev SMap (α : Type) := List (Nat × α)

/-- What key `k` reads as: its listed value, else the default `d`. -/
def SMap.get {α : Type} (d : α) : SMap α → Nat → α
  | [], _ => d
  | (k', v) :: m, k => if k' = k then v else SMap.get d m k

/-- Whether key `k` is listed. -/
def SMap.has {α : Type} : SMap α → Nat → Bool
  | [], _ => false
  | (k', _) :: m, k => if k' = k then true else SMap.has m k

/-- The map with key `k` unlisted. -/
def SMap.erase {α : Type} : SMap α → Nat → SMap α
  | [], _ => []
  | (k', v) :: m, k => if k' = k then SMap.erase m k else (k', v) :: SMap.erase m k

/-- Lists `v` at key `k`, before the first larger key. -/
def SMap.insert {α : Type} (k : Nat) (v : α) : SMap α → SMap α
  | [] => [(k, v)]
  | (k', v') :: m => if k < k' then (k, v) :: (k', v') :: m else (k', v') :: SMap.insert k v m

/-- The map in which `k` reads as `v`, whatever `v` is: it stays listed. -/
def SMap.put {α : Type} (m : SMap α) (k : Nat) (v : α) : SMap α :=
  SMap.insert k v (SMap.erase m k)

/-- The map in which `k` reads as `v`; a `v` equal to the default is unlisted. -/
def SMap.set {α : Type} [DecidableEq α] (d : α) (m : SMap α) (k : Nat) (v : α) : SMap α :=
  if v = d then SMap.erase m k else SMap.insert k v (SMap.erase m k)

/-- The canonical form: keys strictly rise from `lo`, and no listed value is the default. -/
def SMap.wfFrom {α : Type} [DecidableEq α] (d : α) : Nat → SMap α → Bool
  | _, [] => true
  | lo, (k, v) :: m => decide (lo ≤ k) && !decide (v = d) && SMap.wfFrom d (k + 1) m

/-- The canonical form of a whole map. -/
def SMap.wf {α : Type} [DecidableEq α] (d : α) (m : SMap α) : Bool := SMap.wfFrom d 0 m

/-- The pairs of a run of values at rising keys from `k`, but for the default. -/
def SMap.ofRun {α : Type} [DecidableEq α] (d : α) (k : Nat) : List α → SMap α
  | [] => []
  | v :: vs => if v = d then SMap.ofRun d (k + 1) vs else (k, v) :: SMap.ofRun d (k + 1) vs

/-- Writes a run of values at rising keys from `k`. -/
def SMap.setRun {α : Type} [DecidableEq α] (d : α) (m : SMap α) (k : Nat) (vs : List α) : SMap α :=
  (m.filter fun p => decide (p.1 < k)) ++ (SMap.ofRun d k vs ++ m.filter fun p => decide (k + vs.length ≤ p.1))

/-- Reads `n` values at rising keys from `k`. -/
def SMap.getRun {α : Type} (d : α) (m : SMap α) (k : Nat) : Nat → List α
  | 0 => []
  | n + 1 => SMap.get d m k :: SMap.getRun d m (k + 1) n

/-- Reads `n` values at rising keys from `k`, looking only at the entries there. -/
def SMap.slice {α : Type} (d : α) (m : SMap α) (k n : Nat) : List α :=
  SMap.getRun d (m.filter fun p => decide (k ≤ p.1) && decide (p.1 < k + n)) k n

end Sys2Proof.Machine
end

