-- ==== Sys2Proof/Machine/State.lean ====
section
/-! DEFINITION. Everything the spec gives the package, as plain data (INVENTORY.md, State). Cores and dies are held
sparsely: one that is not listed is in its state after reset. -/

namespace Sys2Proof.Machine

/-- Why the machine stops for good. -/
inductive Fault where
  /-- Raised by step when the schedule names a core or a die the package does not have (01 R10, R11); safe: no such
  unit exists. -/
  | noSuchUnit
  deriving DecidableEq, Repr

/-- Why a step has no meaning here. -/
inductive Refusal where
  /-- Raised by an arm of exec whose instruction has no meaning yet; safe. -/
  | notModelled (mnemonic : String)
  deriving DecidableEq, Repr

/-- Trap causes (18 R379). -/
inductive Cause where
  | ill | stk | align | xlat | perm | uninit | breach | order | slot | plane | sketch | dramt | straddle | token
  | integ | peer | overrun | swt
  deriving DecidableEq, Repr

/-- Shorter name for the numbers of a task: its launch's home die, launch id and index (18 R366-R369). -/
structure TaskRef where
  /-- Die of the home Millwright. -/
  die : Nat
  /-- Launch id, 0 to 255. -/
  launch : Nat
  /-- Task index. -/
  task : Nat
  deriving DecidableEq, Repr

/-- Why a core is being saved (18 R384). -/
inductive SaveWhy where
  /-- A trap to be delivered (R380). -/
  | trap
  /-- A page fault at an address (R389). -/
  | page (va : W64) (write : Bool)
  /-- An S.YIELD that yields (R385). -/
  | yield
  /-- A pre-emption by the Millwright: the task becomes ready again when it is resumed (R384, R110, R263, R317). -/
  | preempt
  deriving DecidableEq, Repr

/-- What the core is doing (18 R372-R391). -/
inductive Run where
  /-- No task. -/
  | free
  /-- A task is assigned; its first word issues at the cycle (R374). -/
  | starting (at_ : Nat)
  /-- Engines issue. -/
  | running
  /-- Engines have stopped; the context is to be saved (R386). -/
  | saving (why : SaveWhy)
  /-- The context is being written to the core's frame, until the cycle (R386). -/
  | storing (why : SaveWhy) (at_ : Nat)
  /-- A trap with no free frame: the context stays in place until DG_TASK_CTL (R380). -/
  | trappedInPlace
  /-- A page fault with no free frame, or in a timed part: the core waits for DG_PAGE_DONE (R389, R103). -/
  | pagedInPlace (va : W64)
  /-- A restore from the core's frame is in progress until the cycle; the engines issue again after it, past the trapping
  instruction when `skip` holds (R382, R388). -/
  | restoring (skip : Bool) (at_ : Nat)
  /-- S.END has begun (R377). -/
  | ending
  /-- A kill has begun (R390). -/
  | killing
  /-- A killed member's storage stays readable until its set has ended (R391). -/
  | frozen
  deriving DecidableEq, Repr

/-- One resolved outcome of a steering word (02 R33, R34). -/
structure Steer where
  /-- Address of the branch word, or of the loop's end word. -/
  addr : Nat
  /-- The end word of a loop, not a transfer. -/
  loopEnd : Bool
  /-- Where to continue. -/
  target : Nat
  /-- No engine issues its next word before this cycle (04 R70). -/
  notBefore : Nat
  deriving DecidableEq, Repr

/-- What each engine keeps (02 R31-R36). -/
structure Eng where
  /-- The engine is active (02 R30). -/
  active : Bool := false
  /-- Program counter: the text address of the next word to look at (02 R33). -/
  pc : Nat := 0
  /-- The program counter stands at the second word of a C instruction whose first word the slip bound let it pass (02 R36). -/
  mid : Bool := false
  /-- Words before the program counter, between the S.FORK that started the engine and its target, that the engine has
  not yet passed on the dynamic path (18 R375; 04 R87). -/
  lead : Nat := 0
  /-- Progress count (02 R36). -/
  progress : Nat := 0
  /-- How far the engine's place on the path is ahead of its progress count, after S.FORK (18 R375). -/
  skew : Nat := 0
  /-- Parameter stack, PS0 first (02 R31). -/
  stack : List W64 := []
  /-- Steering queue, oldest first (02 R34). -/
  steer : List Steer := []
  /-- The engine has passed the end word of a loop and waits for its outcome there. -/
  endWait : Bool := false
  /-- The engine stands at an S word since this cycle (02 R29). -/
  parked : Option Nat := none
  /-- First fetch window that counts toward the window cost (02 R35, 04 R70). -/
  fromWin : Nat := 0
  /-- The next word issues no earlier than this cycle. -/
  nextIssue : Nat := 0
  /-- Breach cycles since the leg's cycle 0 (05 R119). -/
  lag : Nat := 0
  deriving DecidableEq, Repr

/-- The seven engines of a core. -/
structure Engines where
  c : Eng := {}
  a : Eng := {}
  e : Eng := {}
  m : Eng := {}
  k : Eng := {}
  w : Eng := {}
  f : Eng := {}
  deriving DecidableEq, Repr

/-- A loop stack entry (04 R68, R83). -/
structure LoopEntry where
  /-- First address of the body. -/
  start : Nat
  /-- Address of the body's last word. -/
  stop : Nat
  /-- Iteration number, from 0. -/
  iter : W64
  /-- Count, at least 1. -/
  count : W64
  /-- Return-stack depth at the C.LOOP. -/
  depth : Nat
  deriving DecidableEq, Repr

/-- A value on its way from C to an engine (04 R86). -/
structure Sent where
  /-- The engine it goes to. -/
  dest : Engine
  /-- The value. -/
  val : W64
  /-- Place of the C.SEND on the path. -/
  place : Nat
  deriving DecidableEq, Repr

/-- The control engine's registers (04 R68). -/
structure Ctl where
  /-- X0 to X15. -/
  x : Vector W64 16 := Vector.replicate 16 0
  /-- P0 to P7, Pi in bit i. -/
  p : BitVec 8 := 0
  /-- Return stack, newest first. -/
  ret : List Nat := []
  /-- Loop stack, innermost first. -/
  loops : List LoopEntry := []
  /-- Outbound parameter queues, oldest first. -/
  outq : List Sent := []
  /-- Inbound parameter queues, oldest first. -/
  inq : List (Engine × W64) := []
  deriving DecidableEq, Repr

/-- The CF registers a core holds; CF_CORE and CF_CYCLE are read from elsewhere (04 R94, R95; 02 R36). -/
structure Cf where
  mode : W64 := 1
  status : W64 := 0
  cause : W64 := 0
  tpc : W64 := 0
  tval : W64 := 0
  breach : W64 := 0
  slip : W64 := 1024
  /-- Status bits and breaches that events have set in a cycle, which a C.CSW of that cycle does not undo (04 R93). -/
  evCycle : Nat := 0
  evBits : W64 := 0
  evBreach : Nat := 0
  /-- Earlier values of CF_MODE that the other engines may still see until the next S word, and the free value that says
  which each sees (04 R92; log entry 12). -/
  older : List W64 := []
  draw : Nat := 0
  deriving DecidableEq, Repr

/-- One text row in the text store (02 R39). -/
structure Lease where
  /-- Which kernel image the row is of: the address space and address of the image. -/
  space : Nat
  image : Nat
  /-- Text row number. -/
  row : Nat
  /-- Its words; a missing tail reads as 0. -/
  words : List Half
  deriving DecidableEq, Repr

/-- The kernel a core runs and its text store (02 R25, R39, R40). -/
structure Text where
  /-- Address space and address of the running kernel's image, in the die that owns the image. -/
  space : Nat := 0
  image : Nat := 0
  /-- Text length in words. -/
  len : Nat := 0
  /-- Tail point, when the kernel declares one. -/
  tail : Option Nat := none
  /-- Text rows the store holds. -/
  rows : List Lease := []
  /-- Text rows of the running kernel freed under its tail point. -/
  freed : List Nat := []
  /-- A task has started on the core: the kernel that runs there is its first no longer (R40). -/
  begun : Bool := false
  deriving DecidableEq, Repr

/-- A core's place in its die's traverse (05 R112-R119). -/
structure CoreLeg where
  /-- The core's S.SIGN has taken effect since its last S.LEG. -/
  signed : Bool := false
  /-- What the closure gave the core: nothing yet, the start cycle of a leg, an end table, or a cause to take. -/
  go : Option Nat := none
  ended : Bool := false
  refused : Option Cause := none
  /-- Overrun to report at the next S.LEG (05 R109). -/
  overrun : Option Nat := none
  /-- The core is in the timed part of a leg. -/
  timed : Bool := false
  /-- Cycle of the core's leg cycle 0. -/
  start : Nat := 0
  /-- Length of the leg. -/
  len : Nat := 0
  /-- Breaches counted since the core's S.LEG. -/
  rise : Nat := 0
  /-- Killed peer to report (18 R391). -/
  peer : Option Nat := none
  /-- K.COPY words, sketch words and collectives issued in the leg. -/
  copies : Nat := 0
  sketches : Nat := 0
  colls : Nat := 0
  deriving DecidableEq, Repr

/-- A queue entry: format code, 128 bytes, and for a store queue one enable bit per element (06 R129). -/
structure QEntry where
  fmt : Nat
  bytes : List Byte
  enable : Nat := 0
  /-- Elements of a head entry that a store stream has already written or found disabled (06 R423). -/
  done : Nat := 0
  deriving DecidableEq, Repr

/-- What an issued word or run has yet to do (06 R136, R143, R145; 07 R163; 09 R215): entries enter a queue, for a stream with
the index of their first element; bytes are written to operand memory, or to the scratchpad by a stream, from an address on; or a
stream issues no further run. -/
inductive LateDo where
  | push (q : Nat) (es : List QEntry) (stream : Option Nat) (n : Nat)
  | slots (addr : Nat) (bs : List (Option Byte))
  | pad (addr : Nat) (bs : List (Option Byte)) (g : Nat)
  | halt (g : Nat)
  /-- A read of the present plane takes its value; it goes on to the A stack, or, so many cycles on, to a load queue with a
  format (12 R262). -/
  | plane (ca n : Nat) (dest : Option (Nat × Nat)) (after : Nat)
  /-- Slots from one on take a claim state (09 R215). -/
  | claims (slot n st : Nat)
  /-- A converted tile reaches the exchange engine with its format and the RT value of its word (09 R213, R215). -/
  | tile (fmt : Nat) (rt : W64) (elems : List (Option Nat))
  deriving DecidableEq, Repr

/-- An effect to come, with its cycle, the engine of its word, and the lag of a matrix epilogue's write (05 R119). -/
structure Late where
  at_ : Nat
  eng : Engine
  act : LateDo
  lag : Nat := 0
  deriving DecidableEq, Repr

/-- A stream (06 R131-R133, R423). -/
structure Stream where
  /-- The fields 0 to 21. -/
  fields : SMap W64 := []
  /-- POS. -/
  pos : Nat := 0
  active : Bool := false
  /-- Next element of the walk the stream touches. -/
  next : Nat := 0
  /-- Elements of the entry being filled, oldest first (a load stream). -/
  part : List Nat := []
  /-- A.SSTOP without drain inside a leg: no further runs; those issued complete (06 R143). -/
  stopping : Bool := false
  /-- Address of the A.SGO that started the stream. -/
  sgo : Nat := 0
  /-- The next run issues no earlier than this cycle (06 R136, R142). -/
  nextRun : Nat := 0
  /-- Ends of the runs whose timed requests are out, oldest first (06 R137). -/
  asked : List Nat := []
  deriving DecidableEq, Repr

/-- A burst that a timed read has brought to a core (06 R137). -/
structure Burst where
  tag : Nat
  /-- Tier offset of the 64 bytes. -/
  off : Nat
  /-- Cycle at which they reach the core. -/
  ready : Nat
  bytes : List Byte
  deriving DecidableEq, Repr

/-- A trap an engine takes at its next word, or at its next S word alone (06 R135; 11 R237; 13 R273; 14 R291). -/
structure Report where
  eng : Engine
  cause : Cause
  tval : W64
  tpc : Nat
  atS : Bool := false
  deriving DecidableEq, Repr

/-- An access of path A, M or F that has been issued and not yet performed (06 R138, R147; 04 R89; 14 R291). -/
structure Posted where
  /-- Engine that issued it. -/
  eng : Engine
  /-- Owning die, and the peer package an aperture names, if any. -/
  die : Nat
  peer : Option Nat := none
  /-- Tier and tier offset, in the owning die; for a peer package the peer address. -/
  tier : Nat
  off : Nat
  va : W64
  /-- The page's lines are under the static key (17 R360). -/
  klock : Bool
  /-- Memory type (16 R335). -/
  mt : Nat
  /-- Alias class. -/
  cls : Nat
  /-- Bytes to write, at rising offsets; none for a line to read. -/
  write : Option (List Byte)
  /-- A line to read goes to this scratchpad address (A.LDG). -/
  pad : Nat := 0
  /-- The stream whose store it is. -/
  stream : Option Nat := none
  /-- A line to read has been asked of a peer package; the address of the word that issued the access. -/
  asked : Bool := false
  tpc : Nat := 0
  /-- Place on the path of the F.RST whose combining-buffer entry it writes (14 R292). -/
  place : Nat := 0
  deriving DecidableEq, Repr

/-- What one TLB entry holds: the page's space, base address, size code, leaf (17 R342, R346). -/
structure TlbEntry where
  space : Nat
  base : Nat
  size : Nat
  leaf : Nat
  locked : Bool := false
  deriving DecidableEq, Repr

/-- A walk an access of a core waits for, or its failure (17 R344). -/
structure Walk where
  space : Nat
  va : W64
  write : Bool
  /-- The cycle after its last (17 R346). -/
  due : Nat := 0
  /-- The walk ended in a cause for the access. -/
  failed : Option Cause := none
  /-- CF_CYCLE of the fault at which it ended; a page record has been written for it, and the access waits in place (18 R381, R389; 05
  R103; 14 R286). -/
  faultAt : Option Nat := none
  reported : Bool := false
  deriving DecidableEq, Repr

/-- A pending E.REP (07 R183): repetitions, which codes step, and the repetition to run next. -/
structure Rep where
  n : Nat
  mode : Nat
  k : Nat
  deriving DecidableEq, Repr

/-- The execute engine's registers (07 R154-R156, R183; 08 R190). -/
structure Vec where
  /-- V0 to V15: byte `b` of register `v` at 1024 v + b. -/
  v : SMap Byte := []
  shp : W64 := 0xF0F01
  em : BitVec 1024 := BitVec.allOnes 1024
  amax : BitVec 32 := 0
  rep : Option Rep := none
  /-- Cycles from which results stand: V0 to V15 at 0 to 15, EM at 16, the E stack at 17, AMAX at 18
  (07 R163, R164; 08 R190; 10 R226). -/
  ready : SMap Nat := []
  deriving DecidableEq, Repr

/-- A stationary plane of the array (09 R203): its format, sparse flag and the slot's bytes it was loaded from. -/
structure Plane where
  fmt : Nat
  sparse : Bool
  data : List Byte
  /-- Bytes 0 to 63 of the metadata slot of a sparse tile. -/
  meta_ : List Byte := []
  deriving DecidableEq, Repr

/-- The matrix engine's registers (09 R198, R202, R203, R214). -/
structure Mat where
  /-- Operand memory: byte `b` of slot `n` at 512 n + b. -/
  slots : SMap Byte := []
  /-- Claim state of a slot: 0 UNCLAIMED, 1 W, 2 R. -/
  claims : SMap Nat := []
  active : Option Plane := none
  shadow : Option Plane := none
  /-- ACC0 to ACC7: byte `b` of tile `k` at 1024 k + b. -/
  acc : SMap Byte := []
  /-- RT. -/
  rt : W64 := 0
  /-- Cycles from which the tiles' last writes are visible, and the shadow plane at 8; the same for writes other than
  products; for products of follow-on commands; and the cycles after the last beats of E and W reads of tiles
  (07 R161; 09 R210, R215, R216; 11 R246). -/
  seen : SMap Nat := []
  made : SMap Nat := []
  fseen : SMap Nat := []
  reads : SMap Nat := []
  /-- Cycle from which the array is free, and whether a follow-on command holds it (11 R246). -/
  arrayAt : Nat := 0
  arrayFol : Bool := false
  /-- The cycle after that in which a follow-on command last started (11 R246). -/
  folAt : Nat := 0
  deriving DecidableEq, Repr

/-- The geometry of K.GEO (11 R229). -/
structure Geo where
  n : Nat := 1
  eb : Nat := 1
  ext : List Nat := List.replicate 8 1
  sstr : List W64 := List.replicate 8 0
  dstr : List W64 := List.replicate 8 0
  ss : Nat := 0
  ds : Nat := 0
  cls : Nat := 0
  sig : Nat := 0
  deriving DecidableEq, Repr

/-- A convolution walk of one side (11 R229, R233). -/
structure KConv where
  geom : W64 := 0
  win : W64 := 0
  pad : W64 := 0
  nb : W64 := 0
  pv : W64 := 0
  deriving DecidableEq, Repr

/-- A follow-on matrix command (11 R245): operation word and operands. -/
structure Follow where
  w : Nat
  a : W64
  rm : W64
  cm : W64
  dm : W64
  deriving DecidableEq, Repr

/-- A page a copy has translated at its submission (11 R235): the side (source 0, destination 1, counter 2), the owning
die, and what a TLB holds of it. -/
structure CopyPage where
  side : Nat
  die : Nat
  entry : TlbEntry
  deriving DecidableEq, Repr

/-- A piece of a copy: consecutive elements on both sides, within one line of 128 bytes on each (11 R236). -/
structure Piece where
  src : Option Nat
  dst : Option Nat
  n : Nat
  deriving DecidableEq, Repr

/-- A piece whose source has been read: its bytes, and the cycle from which its destination is written (11 R248). -/
structure Move where
  piece : Piece
  bytes : List Byte
  at_ : Nat
  deriving DecidableEq, Repr

/-- A submitted copy (11 R229, R234-R238). -/
structure Copy where
  geo : Geo
  convS : KConv
  convD : KConv
  sbase : W64
  dbase : W64
  cnt : W64
  inc : W64
  follow : Option Follow
  /-- Place of the K.COPY on the path, and its address. -/
  place : Nat
  tpc : Nat
  /-- Slots it was checked against: those it reads, those it writes. -/
  reads : List Nat
  writes : List Nat
  pages : List CopyPage
  pins : List (Nat × Nat × Nat × Nat)
  /-- TAG of its bursts inside a leg. -/
  tag : Option Nat
  /-- The next source run is read no earlier than this cycle; pieces read so far; those read and not written. -/
  readAt : Nat
  taken : Nat := 0
  moves : List Move := []
  /-- Numbers of the pieces with which runs begin whose timed requests are out; a request is out to a peer package; the
  unwritten word at which it stops (11 R237, R238). -/
  asks : List Nat := []
  asked : Bool := false
  stop : Option Nat := none
  /-- Pieces whose reads have been sent; numbers of the pieces with which runs that are out begin, each with the cycle from which it
  may be read (R248; 01 R23). -/
  sentTo : Nat := 0
  sent : List (Nat × Nat) := []
  /-- Stores to peer packages that have not been acknowledged: package, peer address, own address; why a peer package refused a read or
  a store, with its address (14 R286, R291). -/
  acks : List (Nat × Nat × Nat) := []
  ended : Option (Cause × Nat) := none
  /-- Some piece has been written; the cycle of the last write. -/
  begun : Bool := false
  lastAt : Nat := 0
  /-- Bytes that have left in its slots of the leg's table and have not been written, with the cycle in which they come (11 R238). -/
  slotted : List (Nat × Nat) := []
  /-- The last write has landed and the counter and the flag have risen: the follow-on command is yet to start. -/
  landed : Bool := false
  /-- It drains for a killed task: no completion action follows (R249). -/
  killed : Bool := false
  deriving DecidableEq, Repr

/-- A read of a K.CWAIT: the cycles of its effect and of its return; the value it has read (11 R241). -/
structure Poll where
  effect : Nat
  back : Nat
  got : Option W64 := none
  deriving DecidableEq, Repr

/-- The copy engine's registers (11 R229, R247). -/
structure Kop where
  geo : Geo := {}
  convS : KConv := {}
  convD : KConv := {}
  cntVa : W64 := 0
  cntInc : W64 := 0
  follow : Option Follow := none
  /-- FL0 to FL63. -/
  flags : SMap Nat := []
  /-- Copy queue, in submission order. -/
  copies : List Copy := []
  /-- Pins the task has recorded with K.PIN. -/
  pins : List (Nat × Nat × Nat × Nat) := []
  /-- The copies' next source run from the scratchpad, the slots or the commons is read no earlier than this cycle (R248). -/
  runAt : Nat := 0
  /-- Pages the pending word has translated so far (R235). -/
  walked : List CopyPage := []
  /-- The read of the pending K.CWAIT that is out (R241). -/
  poll : Option Poll := none
  deriving DecidableEq, Repr

/-- A transfer element an epilogue has delivered to a collective (15 R314, R315): the receiving rank, the element's index
in the source shard, its bits. -/
structure Routed where
  dest : Nat
  elem : Nat
  val : Nat
  deriving DecidableEq, Repr

/-- What a status word says (15 R312). -/
structure Status where
  cause : Option Cause := none
  sat : Bool := false
  ovf : Bool := false
  bytes : Nat := 0
  deriving DecidableEq, Repr

/-- What a rank sends with its transfer to a rank of another package: the rank table's address, the ordinal of its collective on it, the
rank, the digest of both layouts and E, that a sum it has combined saturated, and that it is lost (15 R308, R310, R311, R318). -/
structure CollMsg where
  tab : Nat
  ord : Nat
  rank : Nat
  digest : List W64 × List W64 × Bool := ([], [], false)
  sat : Bool := false
  lost : Bool := false
  deriving DecidableEq, Repr

/-- A collective a core has issued (15 R307-R318). -/
structure Coll where
  /-- The thirteen fields of both layouts, and the layouts' numbers. -/
  src : List W64
  dst : List W64
  /-- The epilogue form. -/
  epi : Bool
  /-- The status word: address, die, tier, offset, KLOCK. -/
  cs : W64
  csDie : Nat
  csTier : Nat
  csOff : Nat
  csKlock : Bool
  /-- The status word lies in a peer package, through an aperture; `csOff` is then the peer address. -/
  csPeer : Option Nat := none
  /-- The rank table, as (package, package index), the issuing rank, and which F.COLL of the core on that table it is. -/
  ranks : List (Nat × Nat)
  me : Nat
  ord : Nat
  /-- Its ordinal among those the core issues in a leg (R316). -/
  tag : Option Nat
  place : Nat
  /-- Since when the exchange has waited for an absent rank (R317). -/
  absentSince : Option Nat := none
  pins : List (Nat × Nat × Nat × Nat)
  /-- Slots of its source buffer, and of its destination buffer. -/
  reads : List Nat
  writes : List Nat
  pages : List CopyPage
  /-- Bytes of each held node of the source, once the engine has read them. -/
  sent : Option (List (List Byte)) := none
  /-- The headers of its destination sketches, read with them (R309). -/
  heads : List (List Byte) := []
  routed : List Routed := []
  /-- A routed tile was discarded. -/
  badRoute : Bool := false
  /-- A rank has taken a fatal fault (R318). -/
  broken : Bool := false
  /-- The task that issued it (18 R377, R390). -/
  task : Option TaskRef := none
  /-- Ranks of other packages to which its data has gone; what its slots of a leg have carried: to which station, the cycle of arrival,
  how many bytes (R310, R316). -/
  shipped : List Nat := []
  carried : List (Nat × Nat × Nat) := []
  /-- It stands for a rank of a peer package (log entry 2). -/
  away : Bool := false
  /-- Its destination is written, with this outcome; the writes to peer packages that are not acknowledged, as package and peer
  address; the status word is on its way to a peer package (R312). -/
  ended : Option Status := none
  acks : List (Nat × Nat) := []
  told : Bool := false
  /-- The status word has been written. -/
  done : Bool := false
  deriving DecidableEq, Repr

/-- A far operation that has been issued (14 R285-R302; 13 R269-R277): the word, its operands, PS0 first, and what the
engine read for it before it was sent. -/
structure FarOp where
  i : Instr
  args : List W64
  data : List W64 := []
  tpc : Nat
  place : Nat
  /-- Its target: address, owning die, peer package of an aperture with the peer address, page type, alias class. -/
  va : W64
  die : Nat
  peer : Option Nat := none
  off : Nat := 0
  mt : Nat := 0
  cls : Nat := 0
  /-- In the issuing die's own memory: tier, offset and KLOCK of its target. -/
  loc : Option (Nat × Nat × Bool) := none
  /-- The F engine waits for its result. -/
  block : Bool
  /-- The cycle of its result or acknowledgement where nothing delays it (R23, R302); the cycles of the way to its Wallower. -/
  due : Nat
  way : Nat := 8
  /-- The cycle from which it may depart (R302). -/
  departs : Nat := 0
  /-- Issued in the timed part of a leg: that leg's start; its placed issue cycle, and its issuer's lag; once it has left its
  station the placed arrival cycle (R289); its ordinal among the leg's sketch updates (13 R275). -/
  leg : Option Nat := none
  placed : Nat := 0
  lag : Nat := 0
  arrive : Option Nat := none
  ord : Nat := 0
  /-- The address space its request carries (R286). -/
  space : Nat := 0
  /-- The other die or peer package whose memory the word names: a second sketch, a run of values; the peer package and the
  peer address of that operand (13 R269). -/
  other : Option (Nat × Option Nat) := none
  otherPeer : Option (Nat × Nat) := none
  /-- Bytes of that operand a peer package has sent; a request for more is out. -/
  got : List Byte := []
  asked : Bool := false
  /-- Why no further byte of that operand comes, with the address; for a request of a peer package, the (package, die) that sent
  it (14 R294). -/
  gotFail : Option (Cause × W64) := none
  by_ : Option (Nat × Nat) := none
  /-- The bytes of a combining-buffer entry that it writes, 64 of them, none where not enabled; empty for any other (14 R292). -/
  flush : List (Option Byte) := []
  /-- The packets of its request: one for each element of a .n form (14 R279); how many of them have arrived. -/
  packets : Nat := 1
  came : Nat := 0
  /-- The last packet has left its station; the cycle of its arrival; cycle from which the Wallower may serve it (R23, R287, R302). -/
  sent : Bool := false
  arrived : Option Nat := none
  ready : Option Nat := none
  served : Bool := false
  /-- The reply has come: the cycle in which it reached, or reaches, the core. -/
  back : Option Nat := none
  /-- The result to push, and the report of R286. -/
  result : List W64 := []
  report : Option (Cause × W64) := none
  deriving DecidableEq, Repr

/-- An F packet at a station: whose operation it is of, whether it is the reply, the station it goes to and, beyond its bridge,
the peer package, the cycle from which it may leave, its placed issue cycle and the leg it was issued in (14 R279, R289). -/
structure Packet where
  core : Nat
  place : Nat
  reply : Bool := false
  /-- The packets that stand here as one: the elements of a .n form, so many from this one on. -/
  elem : Nat := 0
  n : Nat := 1
  dest : Nat
  package : Option Nat := none
  from_ : Nat
  placed : Nat
  leg : Option Nat := none
  /-- The cycle from which it may leave, less the lag it carries (14 R289). -/
  placedFrom : Nat := 0
  deriving DecidableEq, Repr

/-- A datum a core holds (16 R331): its address and whether exclusively. -/
structure Held where
  va : W64
  excl : Bool
  deriving DecidableEq, Repr

/-- A combining-buffer entry: a 64-byte block of a remote page, its enabled bytes, its allocation cycle (14 R292). -/
structure Comb where
  va : W64
  bytes : List (Option Byte)
  cycle : Nat
  /-- The die that owns it, or the peer package with the block's peer address; its memory type. -/
  die : Nat
  peer : Option Nat
  off : Nat
  mt : Nat
  /-- Address and place on the path of the F.RST that allocated it. -/
  tpc : Nat := 0
  place : Nat := 0
  deriving DecidableEq, Repr

/-- A request that leaves for a peer package (14 R285, 17 R345). -/
structure PeerReq where
  core : Nat
  eng : Engine
  package : Nat
  /-- Peer virtual address. -/
  addr : Nat
  /-- Bytes asked for, or 0. -/
  n : Nat
  /-- Bytes written, or none; where not all of them are, their enables, byte `j` in bit `j`. -/
  data : List Byte
  enable : Option Nat := none
  /-- The far operation carried, as its operation word, with its operands. -/
  op : Nat := 0
  args : List W64 := []
  /-- Of an operation issued in the timed part of a leg: its placed arrival cycle as far as its own package gives it, and its
  ordinal among the leg's sketch updates (14 R289; 13 R275). -/
  placed : Option (Nat × Nat) := none
  /-- The bytes are the line of an A.LDG, for this scratchpad address (06 R147). -/
  pad : Option Nat := none
  /-- The bytes are of the source of the K.COPY at this place (11 R238). -/
  copy : Option Nat := none
  /-- The bytes are of the second operand of the far operation at this place (13 R270-R272). -/
  operand : Option Nat := none
  /-- The bytes are a load's, for the engine itself at 0, or, one more, for a stream (17 R345). -/
  load : Option Nat := none
  /-- A page is to be translated at its owning die, to be pinned, or no longer, at 0, 1 and 2; it is written (11 R235; 17 R348). -/
  page : Option (Nat × Bool) := none
  /-- The bytes are what a rank sends in a collective (15 R310). -/
  coll : Option CollMsg := none
  deriving DecidableEq, Repr

/-- A request that has arrived from a peer package, to be answered (14 R286, 17 R345): who asks, the peer address, the bytes to
read or to write, or the far operation with its operands. -/
structure Inbound where
  package : Nat
  ident : Nat
  addr : W64
  n : Nat := 0
  data : List Byte := []
  enable : Option Nat := none
  op : Nat := 0
  args : List W64 := []
  /-- The die and the core that sent it, and the cycle in which it reached its die (14 R279, R287, R294). -/
  die : Nat := 0
  core : Nat := 0
  at_ : Nat := 0
  /-- Of an operation issued in the timed part of a leg: its placed arrival cycle, and its ordinal (14 R289; 13 R275). -/
  placed : Option (Nat × Nat) := none
  /-- A page is to be translated, to be pinned, or no longer, at 0, 1 and 2; it is written (11 R235; 17 R348). -/
  page : Option (Nat × Bool) := none
  deriving DecidableEq, Repr

/-- The answer to such a request: its bytes, or a report with the address at fault. -/
structure Answer where
  package : Nat
  ident : Nat
  data : List Byte
  report : Option (Cause × W64) := none
  deriving DecidableEq, Repr

/-- What arrives from a peer package for an engine: data, or a report (14 R286). -/
structure PeerMsg where
  core : Nat
  eng : Engine
  data : List Byte
  report : Option Cause := none
  /-- The bytes answer a load: for the engine itself at 0, or, one more, for a stream; or it acknowledges a store. The package,
  the peer address and the bytes of the request it answers (14 R291; 17 R345). -/
  load : Option Nat := none
  stored : Bool := false
  package : Nat := 0
  addr : Nat := 0
  n : Nat := 0
  /-- The bytes are what a rank of a peer package sends in a collective (15 R310, R311). -/
  rank : Option CollMsg := none
  /-- The bytes are the line of an A.LDG, for this scratchpad address. -/
  pad : Option Nat := none
  /-- The bytes are of the source of the K.COPY at this place. -/
  copy : Option Nat := none
  /-- The bytes are of the second operand of the far operation at this place. -/
  operand : Option Nat := none
  /-- The address a report names, where it is not the one the word gave (13 R273). -/
  tval : Option W64 := none
  deriving DecidableEq, Repr

/-- What an S word in progress waits for (16 R334, 12 R261, 14 R295, 18 R377). -/
inductive SWait where
  /-- Nothing. -/
  | none
  /-- S.ACQ sent; granted when the home Wallower says so (16 R328). -/
  | acquire (d : W64) (shared : Bool) (granted : Bool)
  /-- S.REL draining its writes: the accesses posted before it (16 R329). -/
  | release (d : W64) (before : List Posted) (drained : Bool)
  /-- S.BIND sent, whose answer comes in cycle `due`: true when the table has recorded the change, false when it refuses it
  (16 R330, R334). -/
  | bind (d va : W64) (n : Nat) (unbind : Bool) (due : Nat) (answer : Option Bool)
  /-- S.TOKEN sent: its form; its outcome, a cause when it fails (14 R295). -/
  | token (form : Nat) (va : W64) (answer : Option (Option Cause))
  /-- S.STEP of a group has arrived; the step's outcome (12 R261). -/
  | step (group : Nat) (drop : Bool) (settled : Bool) (plane : Option W64)
  /-- S.YIELD has yielded; the core resumes after it. -/
  | yielded
  deriving DecidableEq, Repr

/-- A fence in force: engines of the destination set wait for the accesses of the source set (16 R332). -/
structure Fence where
  /-- Source and destination sets, A, K, M, W, F, X from bit 5 down. -/
  src : Nat
  dst : Nat
  scope : Nat
  /-- Its place on the path, and the accesses posted before it. -/
  place : Nat
  before : List Posted
  /-- The cycle by which the effects to come of the issued words of P have taken place. -/
  upto : Nat := 0
  /-- The cycle in which the accesses of P were complete: it holds Q to the end of that cycle (16 R334). -/
  drainedAt : Option Nat := none
  deriving DecidableEq, Repr

/-- The operands of W.ROWS ( src dst n stride len p — ), and the bytes of an element (10 R220). -/
structure RowsArgs where
  src : Nat
  dst : Nat
  n : Nat
  stride : Nat
  len : Nat
  p : Nat
  eb : Nat
  deriving DecidableEq, Repr

/-- A W.ROWS in progress (10 R221, R222): mode and format, the cycle of its first read less one, delays of bank ports
included, its pitch, the W engine as it stood at issue, the rows in the buffers, and the row it stops at for an unwritten
word, with that word's address. -/
structure RowsRun where
  mode : Nat
  fmt : Nat
  args : RowsArgs
  base : Nat
  pe : Nat
  eng : Eng
  bufs : SMap (List Byte) := []
  stop : Option (Nat × Nat) := none
  deriving DecidableEq, Repr

/-- One core (01 R12, R13). -/
structure Core where
  run : Run := .free
  /-- A HALT has stopped the core (19 R400). -/
  halted : Bool := false
  task : Option TaskRef := none
  /-- Address space of the task, its system and handle attributes, whether it is timed (18 R366). -/
  space : Nat := 0
  sys : Bool := false
  handle : Bool := false
  text : Text := {}
  eng : Engines := {}
  swait : SWait := .none
  fences : List Fence := []
  ctl : Ctl := {}
  cf : Cf := {}
  leg : CoreLeg := {}
  /-- Scratchpad bytes, and the words whose valid bit is 1 (06 R123, R125). -/
  pad : SMap Byte := []
  valid : SMap Bool := []
  /-- LQ0 to LQ3 at 0 to 3, SQ0 and SQ1 at 4 and 5 (06 R129, R130). -/
  queues : SMap (List QEntry) := []
  /-- G0 to G15 (06 R131). -/
  streams : SMap Stream := []
  /-- Accesses issued and not yet performed, oldest first. -/
  posted : List Posted := []
  /-- Combining buffer, in allocation order (14 R292). -/
  comb : List Comb := []
  /-- Engines that wait for a peer package, the loads asked of peer packages, and what has arrived. -/
  peerAsked : List Engine := []
  peerLoads : List PeerReq := []
  peerGot : List PeerMsg := []
  /-- Held datums, in list order (16 R331). -/
  held : List Held := []
  /-- Translations of the core's TLB, most recently used first (17 R346), and walks in progress. -/
  tlb : List TlbEntry := []
  walks : List Walk := []
  /-- Bursts of timed reads not yet used; per tag of R137 and R238 the lag (05 R119) and the cycle up to which waits have
  been counted as breaches. -/
  bursts : List Burst := []
  tagLag : SMap Nat := []
  tagCounted : SMap Nat := []
  vec : Vec := {}
  mat : Mat := {}
  kop : Kop := {}
  /-- Effects to come; load queues that got an entry in this cycle; scratchpad bank ports used in this cycle, a read port at
  the bank's number, a write port at 8 more, that of a landing run of stream `g` at 16 + 8 g more, and, at 256 more, the write ports of
  the runs that issue in it (06 R124, R136). -/
  late : List Late := []
  fresh : List Nat := []
  ports : List Nat := []
  /-- A W.ROWS in progress. -/
  rows : Option RowsRun := none
  /-- TP of the row engine (10 R224). -/
  tp : Nat := 0
  /-- Cycle in which the last commons access issued so far has landed or taken its value (12 R261, R262). -/
  planeDue : Nat := 0
  /-- The cycle in which they would have landed but for the lag of their engines and copies (12 R261). -/
  planePlaced : Nat := 0
  /-- Far operations issued and not yet acknowledged, in issue order (14 R291). -/
  far : List FarOp := []
  /-- L0 to L3: field `i` of layout `l` at 16 l + i (15 R304). -/
  layouts : SMap W64 := []
  /-- Collectives issued, oldest first, and how many the core has issued on each rank table address (15 R311). -/
  colls : List Coll := []
  collSeq : SMap Nat := []
  /-- Pages the pending F.COLL has translated so far (15 R307, 11 R235). -/
  collPages : List CopyPage := []
  /-- Pages of other dies whose translation the pending K.COPY, K.PIN or F.COLL has had to ask for, by their first 4 KiB page, each with
  the cycle in which it comes, 0 while it is walked (11 R235, R248). -/
  trips : SMap Nat := []
  /-- Scratchpad words, from one up to another, that A.ALLOC has cleared in this cycle (06 R153). -/
  cleared : List (Nat × Nat) := []
  /-- The other members, not yet ended, of the set for which the core's storage is frozen (18 R391). -/
  frozenFor : List Nat := []
  /-- CF_CYCLE of the last trap (18 R381). -/
  trapAt : Nat := 0
  /-- The frame of its launch's pool that a save or a restore in progress uses (18 R380, R388). -/
  frame : Option Nat := none
  /-- Traps to be taken at a later word, oldest first. -/
  reports : List Report := []
  deriving DecidableEq, Repr

/-- A buffer's state (05 R104). -/
inductive BufState where
  | empty | loading | ready | bad
  deriving DecidableEq, Repr

/-- A timeline command (05 R100). -/
structure TCmd where
  cycle : Nat
  cmd : Nat
  bank : Nat
  addr : Nat
  tag : Nat
  /-- Offset of the entry in the table. -/
  off : Nat
  deriving DecidableEq, Repr

/-- The timeline of one pseudo-channel (05 R100). -/
structure Timeline where
  stack : Nat
  pch : Nat
  /-- Offset of its directory entry. -/
  dirOff : Nat
  cmds : List TCmd
  deriving DecidableEq, Repr

/-- A slot entry (05 R100). -/
structure Slot where
  cycle : Nat
  lane : Nat
  dir : Nat
  dest : Nat
  tag : Nat
  core : Nat
  off : Nat
  deriving DecidableEq, Repr

/-- A translation entry (05 R100). -/
structure XlatEntry where
  page : W64
  wr : Bool
  size : Nat
  off : Nat
  deriving DecidableEq, Repr

/-- A leg table that has been read (05 R99, R100). -/
structure LegTable where
  len : Nat := 0
  slack : Nat := 0
  offset : Nat := 0
  tree : Nat := 0
  xpkg : Bool := false
  npart : Nat := 0
  hrack : Nat := 0
  /-- CORES, bit i for core i of the die. -/
  cores : Nat := 0
  timelines : List Timeline := []
  slots : List Slot := []
  xlats : List XlatEntry := []
  deriving DecidableEq, Repr

/-- A leg-table buffer (05 R104, R111). -/
structure LegBuf where
  st : BufState := .empty
  addr : W64 := 0
  /-- Address space of the S.LTLOAD that fills it. -/
  space : Nat := 0
  table : LegTable := {}
  /-- Cycle at which it became READY or BAD. -/
  readyAt : Nat := 0
  /-- Cause and offset when BAD. -/
  bad : Option (Cause × Nat) := none
  /-- Pages of its translation set: the owning die and what its TLB holds of each. -/
  pages : List (Nat × TlbEntry) := []
  /-- The header has been read while the load goes on (R112). -/
  headRead : Bool := false
  /-- The load is that of the traverse's first table (R112). -/
  first : Bool := false
  /-- An S.SIGN has waited for its header (R112). -/
  awaited : Bool := false
  deriving DecidableEq, Repr

/-- The traverse a die takes part in (05 R96-R115). -/
structure Trav where
  tree : Nat
  /-- Core set, bit i for core i of the die. -/
  cores : Nat
  /-- The buffer into which the first table of the traverse was loaded (R112). -/
  firstBuf : Nat
  /-- No leg has started: the pending closure is the opening one. -/
  opening : Bool := true
  /-- Cores of the die, and stations by number (0, 1 stacks; 2 ring station), that have signed the pending closure. -/
  signed : List Nat := []
  stations : List Nat := []
  /-- First and last arrival at the pending closure on this die, and the votes so far. -/
  tFirst : Nat := 0
  tLast : Nat := 0
  vote : Bool := false
  /-- The buffer of the leg that starts at t_start or has started, the buffer current before it, and the buffer a closure has
  selected that starts no leg (R104). -/
  cur : Option Nat := none
  was : Option Nat := none
  sel : Option Nat := none
  /-- Stacks prepared for the opening, with the cycle; cycle of the last REFAB of a hold (17 R358). -/
  prepared : List (Nat × Nat) := []
  refab : Option Nat := none
  /-- t_start of the current leg. -/
  tStart : Nat := 0
  /-- The closure selected an end table, a BAD or an EMPTY buffer: no further leg starts. -/
  closed : Bool := false
  /-- Cores that have left the traverse. -/
  left : List Nat := []
  deriving DecidableEq, Repr

/-- A request of a timed stream or copy at its controller (06 R137, 11 R238). -/
structure TimedReq where
  core : Nat
  tag : Nat
  /-- Tier offset of the 64-byte burst. -/
  burst : Nat
  /-- Bytes to write, none where not enabled; none for a read. -/
  write : Option (List (Option Byte))
  /-- Cycle at which it has entered the controller's queue. -/
  arrives : Nat
  /-- The virtual address of its first byte (17 R363). -/
  va : W64 := 0
  deriving DecidableEq, Repr

/-- A FREE-mode request of a far operation or a copy that waits at a channel in STATIC mode (05 R108): its core, the place of its
word on the path, the pieces its copy has read and has yet to write (none for a far operation), and the stack. -/
structure Waiting where
  core : Nat
  place : Nat
  copy : Option (Nat × Nat) := none
  stack : Nat
  deriving DecidableEq, Repr

/-- The timed part of the current leg at the controllers of a die (05 R102, 06 R137). -/
structure TimedMem where
  /-- Commands not yet issued, as (stack, pch, command), and rows each bank has open as (stack, pch, bank, row). -/
  todo : List (Nat × Nat × TCmd) := []
  rows : List (Nat × Nat × Nat × Nat) := []
  reqs : List TimedReq := []
  /-- Owed commands in order of cycle: tag, burst offset, whether a write (R137). -/
  owed : List (Nat × Nat × Bool) := []
  /-- Stacks that run the leg in STATIC mode: pseudo-channels as (stack, pch). -/
  static_ : List (Nat × Nat) := []
  /-- FREE-mode requests, by core, that reached STATIC channels during the leg (R108): posted accesses, and Wallower requests and
  pieces of copies; for each stack one more than the last cycle in which an engine's own read met a STATIC channel. -/
  accepted : List (Nat × Posted) := []
  waiting : List Waiting := []
  turned : SMap Nat := []
  /-- Slots not yet left, and those that have left, with their cycles. -/
  slots : List Slot := []
  gone : List (Nat × Slot) := []
  /-- F packets of the leg that have come to the station so far (14 R289). -/
  packets : List Packet := []
  deriving DecidableEq, Repr

/-- A page-lock entry (17 R348). -/
structure Lock where
  tier : Nat
  frame : Nat
  size : Nat
  count : Nat
  deriving DecidableEq, Repr

/-- The DRAM of a die (17 R341, R353, R360-R363). A byte is listed at the offset its cell has under the reset masks. -/
structure Mem where
  fast : SMap Byte := []
  cap : SMap Byte := []
  /-- Fast lines, by number, that programs have written under the masks as they are; and what they wrote under the masks
  before those, the latest first: the eleven masks and the lines (17 R354, R422). -/
  wrote : SMap Bool := []
  older : List (List Nat × SMap Bool) := []
  /-- Key version of a line, where it is not the one unlisted lines have: key is tier bit below the line number. -/
  ver : SMap Nat := []
  baseVer : Nat := 0
  /-- Lines with an error ECC cannot correct, and lines with one it can (R362, R363). -/
  failed : SMap Bool := []
  soft : SMap Bool := []
  deriving DecidableEq, Repr

/-- A binding of a run of granules to a datum (16 R326). -/
structure Binding where
  datum : W64
  space : Nat
  va : W64
  n : Nat
  deriving DecidableEq, Repr

/-- A request waiting at a datum (16 R328). -/
structure AcqReq where
  core : Nat
  /-- Cycle in which it comes to the home Wallower, and the earliest one in which its grant is at the core (16 R328, R334). -/
  comes : Nat
  due : Nat
  /-- Tier and offset of the datum word. -/
  tier : Nat
  off : Nat
  shared : Bool
  deriving DecidableEq, Repr

/-- A release on its way to a datum's home (16 R329). -/
structure RelReq where
  core : Nat
  /-- The first cycle in which it may take effect, and the one by which it does (16 R334). -/
  due : Nat
  by_ : Nat
  va : W64
  tier : Nat
  off : Nat
  shared : Bool
  deriving DecidableEq, Repr

/-- How far a task of a launch has come (18 R371-R390). -/
inductive TaskSt where
  /-- Not ready, or ready and not placed. -/
  | waiting
  /-- On a core. -/
  | placed (core : Nat)
  /-- In a frame, awaiting a command of DG_TASK_CTL (R382); the core it left. -/
  | trapped (frame core : Nat)
  /-- In a frame, waiting for a page (R389). -/
  | paged (frame core : Nat) (va : W64)
  /-- In a frame and ready to run again (R382, R385, R389); past the trapping instruction when `skip` holds. -/
  | saved (frame core : Nat) (skip : Bool)
  /-- Ended by S.END, in this cycle. -/
  | ended (at_ : Nat)
  /-- Killed or dropped. -/
  | gone
  deriving DecidableEq, Repr

/-- A level of a launch (18 R367). -/
structure Level where
  domain : Nat
  scope : Nat
  nreg : Nat
  extent : Nat
  addr : W64
  /-- The region list of a stepgroup level, as register indices and images. -/
  regions : List (Nat × W64) := []
  deriving DecidableEq, Repr

/-- A task record (18 R368). -/
structure TaskRec where
  anchor : W64
  arg0 : W64
  arg1 : W64
  entry : Nat
  timed : Bool
  core : Nat
  start : Nat
  preds : List Nat
  cnt : W64
  deriving DecidableEq, Repr

/-- A live launch (18 R366-R373). -/
structure Launch where
  id : Nat
  space : Nat
  sys : Bool
  handle : Bool
  text : W64
  textw : Nat
  tail : Nat
  stat : W64
  frames : W64
  nframe : Nat
  levels : List Level
  recs : List TaskRec
  /-- State of each task, in index order. -/
  tasks : List TaskSt
  /-- The first core a group of a level has been placed on, as (level, group, core) (R367). -/
  units : List (Nat × Nat × Nat) := []
  /-- Frames of the pool in use. -/
  used : List Nat := []
  /-- Cycle T0 of timed tasks, once fixed (R373). -/
  t0 : Option Nat := none
  ended : Nat := 0
  failed : Bool := false
  /-- Pages pinned for the launch: die, tier, frame, size code. -/
  pins : List (Nat × Nat × Nat × Nat) := []
  deriving DecidableEq, Repr

/-- A launch command in a Millwright's queue (19 R394). -/
structure LaunchReq where
  va : W64
  space : Nat
  sys : Bool
  deriving DecidableEq, Repr

/-- A context in a frame: what the Millwright keeps of it beside the frame in memory (18 R386-R388). -/
structure Saved where
  launch : Nat
  frame : Nat
  /-- The core it left, and whether the task belongs to a step group, a traverse or a collective and goes back there. -/
  left : Nat
  bound : Bool
  core : Core
  deriving DecidableEq, Repr

/-- A store into a commons in the current step (12 R256, R257): the word's commons address, the storer's rank, its place
in program order, its value and priority. -/
structure PlaneStore where
  addr : Nat
  rank : Nat
  place : Nat
  order : Nat
  val : Nat
  pri : Nat
  deriving DecidableEq, Repr

/-- A step group (12 R254, R261, R263). -/
structure Group where
  /-- Package indices of the members, ascending. -/
  members : List Nat
  /-- Members that have ended or been killed. -/
  gone : List Nat := []
  /-- Regions the group owns, by register index. -/
  regions : List Nat := []
  /-- Members that have arrived at the pending step: core, drop, cycle, and the cycle without the core's breaches. -/
  arrived : List (Nat × Bool × Nat × Nat) := []
  /-- Core index of the killed member, for #PEER (18 R391). -/
  killed : Nat := 0
  deriving DecidableEq, Repr

/-- An entry of the token directory (14 R293, R294): the region, by address space and address over 2^21; its holders, as
(package, die), longest held first. -/
structure Token where
  space : Nat
  region : Nat
  excl : Bool
  holders : List (Nat × Nat)
  deriving DecidableEq, Repr

/-- A page an access of another die, a Wallower or the Millwright has found not present (14 R286, 17 R344): the space and the
address, whether to write, the core on whose behalf, and its cycle; a record has been written. -/
structure PageFault where
  space : Nat
  va : W64
  write : Bool
  core : Nat
  at_ : Nat := 0
  reported : Bool := false
  deriving DecidableEq, Repr

/-- A 128-byte line of another die's memory in a far cache (14 R293): the owning die, space and line number of its address, where
it lies there, its bytes, whether they are to be written back. -/
structure FarLine where
  owner : Nat
  space : Nat
  line : Nat
  tier : Nat
  off : Nat
  klock : Bool
  bytes : List Byte
  dirty : Bool := false
  deriving DecidableEq, Repr

/-- A swap in progress (17 R351): the capacity frame, the fast frame, and whether that was FREE. -/
structure Swap where
  hot : Nat
  cold : Nat
  free : Bool
  deriving DecidableEq, Repr

/-- One compute die (01 R10, R13). -/
structure Die where
  /-- DG registers that hold what was written or counted, at their indices; an unlisted one has its reset value. -/
  dg : SMap W64 := []
  bufA : LegBuf := {}
  bufB : LegBuf := {}
  /-- Buffer of the first S.LTLOAD since reset or since the last traverse closed (05 R112). -/
  firstLoad : Option Nat := none
  /-- The address it named. -/
  firstVa : W64 := 0
  /-- The table it named, once its header has been read. -/
  firstTable : Option LegTable := none
  trav : Option Trav := none
  timed : TimedMem := {}
  mem : Mem := {}
  /-- The memory-side TLB, and pages found not present (17 R346, 14 R286). -/
  tlb : List TlbEntry := []
  faults : List PageFault := []
  locks : List Lock := []
  binds : List Binding := []
  acqs : List AcqReq := []
  rels : List RelReq := []
  launchq : List LaunchReq := []
  launches : List Launch := []
  saved : List Saved := []
  /-- Tasks that have become ready again, as (launch, task), in that order (18 R385). -/
  requeued : List (Nat × Nat) := []
  /-- A HALT has stopped the die; one is asked for (19 R400). -/
  halted : Bool := false
  haltAsked : Bool := false
  /-- Hot-page counts: key 2 * frame + tier (17 R349). -/
  hot : SMap Nat := []
  swap : Option Swap := none
  /-- Cycle at which the last epoch closed (17 R350). -/
  epochAt : Nat := 0
  /-- Refresh: ticks of the two stacks at 0 and 1, the cycles of their next ticks at 2 and 3, and from 4 on, per bank in
  order of stack, pseudo-channel and bank, the refreshes it has had (17 R358). -/
  refresh : SMap Nat := []
  /-- Cycle at which each stack's controller signed off or last issued a held refresh, while it holds (17 R358). -/
  heldAt : SMap Nat := []
  /-- Next line of the patrol, counted over both tiers, and its next cycle (17 R361). -/
  patrol : Nat := 0
  patrolAt : Nat := 0
  /-- Present planes of the commons by commons address, side bits of words, and the stores of the current step
  (12 R251-R257). -/
  commons : SMap Byte := []
  side : SMap Bool := []
  stores : List PlaneStore := []
  groups : SMap Group := []
  /-- The token directory; its grants, the oldest first, as (space, region, holder); and the tokens the die holds of regions of
  peer packages, as (space, region, exclusive) (14 R294, R295). -/
  tokens : List Token := []
  grants : List (Nat × Nat × (Nat × Nat)) := []
  peerTokens : List (Nat × Nat × Bool) := []
  /-- The far cache, the line filled last first (14 R293). -/
  farCache : List FarLine := []
  /-- F packets at the ring station, oldest first; the cycle from which each Wallower may start an operation: 0 and 1 at the
  stacks, 2 at the capacity tier (14 R287, R289). -/
  packets : List Packet := []
  wallower : SMap Nat := []
  /-- Cycle of the recorded read of an unwritten word (06 R128). -/
  uninitAt : Nat := 0
  /-- Key versions loaded (17 R361, R422). -/
  keys : List Nat := []
  deriving DecidableEq, Repr

/-- One coming step of the schedule (log entry 3). -/
inductive Sched where
  /-- An engine of a core tries to issue its next word. -/
  | turn (core : Nat) (e : Engine)
  /-- An event or a command happens, at a core, its die or the package. -/
  | happen (core : Nat) (i : Instr)
  /-- A cycle passes. -/
  | tick
  deriving DecidableEq, Repr

/-- A write of a register that C.CSW has posted (04 R92). -/
structure RegWrite where
  cycle : Nat
  core : Nat
  /-- 0 CF, 1 DG, 2 PK. -/
  group : Nat
  idx : Nat
  val : W64
  /-- Written by a command of the Helale port (19 R394). -/
  port : Bool := false
  deriving DecidableEq, Repr

/-- Arrivals of peer packages at a closure of a tree that spans packages: how many participants, at an opening those included
that take no part in it (05 R98, R106; log entry 2). -/
structure PeerSign where
  tree : Nat
  n : Nat
  vote : Bool
  cycle : Nat
  deriving DecidableEq, Repr

/-- A flit as it stands on a link (14 R279): sequence number, key version, type, SECOND, destination and source package and
station, payload and tag; the F packets in the payload. -/
structure Flit where
  seq : Nat
  kv : Nat
  type : Nat
  second : Bool := false
  destPkg : Nat := 0
  destStation : Nat := 0
  srcPkg : Nat := 0
  srcStation : Nat := 0
  payload : List Byte := []
  atag : Nat := 0
  packets : List Packet := []
  /-- Cycle in which it reaches the receiver. -/
  at_ : Nat := 0
  /-- It left in a slot that a leg table reserves. -/
  reserved : Bool := false
  deriving DecidableEq, Repr

/-- One hop in one direction of a ring lane, with its sender's and its receiver's side (14 R280-R282). -/
structure Link where
  /-- Key versions the two ends hold, newest first; a receiver holds at most two. -/
  txKeys : List Nat := []
  rxKeys : List Nat := []
  /-- Version and next sequence number of new flits. -/
  kv : Nat := 0
  seq : Nat := 0
  /-- Flits sent and not acknowledged, oldest first; flits on the way, oldest first. -/
  held : List Flit := []
  wire : List Flit := []
  /-- Flits to be sent again under their numbers, and flits to be passed on, oldest first; the cycle in which the lane's slot was
  last taken (14 R281; 01 R16, R18). -/
  again : List Flit := []
  queue : List Flit := []
  used : Option Nat := none
  /-- Version and number of the flit the receiver accepts next. -/
  rxKv : Nat := 0
  rxSeq : Nat := 0
  /-- A rotation has begun and its marker has not been sent; the receiver has asked for replay; how often the flit the
  receiver waits for has failed. -/
  rotating : Bool := false
  asking : Bool := false
  fails : Nat := 0
  down : Bool := false
  deriving DecidableEq, Repr

/-- A response of the Helale port (19 R394): done, or refused, with a cause where there is one, and data. -/
structure Reply where
  ok : Bool
  cause : Option Cause := none
  data : List Byte := []
  deriving DecidableEq, Repr

/-- The whole package, and the model's own three fields at the end. -/
structure State where
  /-- CF_CYCLE (04 R95). -/
  cycle : Nat := 0
  /-- CF_CORE.PACKAGE (04 R95). -/
  package : Nat := 0
  cores : SMap Core := []
  dies : SMap Die := []
  /-- PK registers by index (19). -/
  pk : SMap W64 := []
  /-- Requests that have left for peer packages, and messages that have arrived from them (log entry 2). -/
  peerOut : List PeerReq := []
  peerIn : List PeerMsg := []
  /-- Requests that have arrived from peer packages and not been served, and the answers that have left (14 R286, 17 R345). -/
  inbound : List Inbound := []
  answers : List Answer := []
  /-- Bridges (3 for BX, 4 for BY) that have signed the pending closure of a tree, as (tree, bridge), and arrivals of
  peer packages there (05 R98). -/
  bridges : List (Nat × Nat) := []
  peerSigns : List PeerSign := []
  /-- Links whose ends are stations of the package, by link number (14 R280). -/
  links : SMap Link := []
  /-- Register writes posted and not yet in effect (04 R92). -/
  regWrites : List RegWrite := []
  /-- The package has power and its bring-up has begun; the firmware store; the owner's public key (19 R396, R400-R402). -/
  on : Bool := false
  firmware : Option (List Byte) := none
  owner : List Byte := []
  /-- Responses that have left by the Helale port, oldest first (19 R394, R395). -/
  replies : List Reply := []
  /-- The model's own: the coming steps (log entry 3). -/
  sched : List Sched := []
  /-- The model's own: the core for which a step is taken. -/
  actor : Nat := 0
  /-- The model's own: free values used so far (log entry 12). -/
  freeCount : Nat := 0
  deriving DecidableEq, Repr

/-- The package right after reset. -/
def State.reset : State := {}

end Sys2Proof.Machine
end

