-- ==== Sys2Proof/Machine/Operands.lean ====
section
/-! DEFINITION. The operand forms of the execute engine (02 R43, R44; 07 R157, R183, R184): which operand codes an
instruction names, how E.REP steps them. -/

namespace Sys2Proof.Machine

/-- What an operand code names (02 R43). -/
inductive Operand where
  | v (n : Nat)
  | lq (q : Nat)
  | sq (q : Nat)
  | ps
  | zero
  | acc (k : Nat)
  deriving DecidableEq, Repr

/-- The operand of a code (02 R43). -/
def operandOf (code : Nat) : Operand :=
  if code < 16 then .v code else if code < 20 then .lq (code - 16) else if code < 22 then .sq (code - 20)
  else if code = 22 then .ps else if code = 23 then .zero else .acc (code - 24)

/-- The codes of an E instruction: the destination, then the sources in the order A, B, C (02 R44). -/
structure Codes where
  dst : Option Nat
  srcs : List Nat
  /-- The destination is a pair of registers (07 R175). -/
  wide : Bool := false
  deriving DecidableEq, Repr

/-- The operand codes an instruction of the execute engine names. -/
def codesOf : Instr → Codes
  | .eMov d _ a _ => ⟨some d.toNat, [a.toNat], false⟩
  | .eAdd d _ a b _ | .eSub d _ a b _ | .eMul d _ a b _ | .eDiv d _ a b _ => ⟨some d.toNat, [a.toNat, b.toNat], false⟩
  | .eFma d _ a b _ _ c => ⟨some d.toNat, [a.toNat, b.toNat, c.toNat], false⟩
  | .eSqrt d _ a _ => ⟨some d.toNat, [a.toNat], false⟩
  | .eMin d _ a b _ | .eMax d _ a b _ => ⟨some d.toNat, [a.toNat, b.toNat], false⟩
  | .eCmp d _ a b _ => ⟨some d.toNat, [a.toNat, b.toNat], false⟩
  | .eSelect d _ a b c => ⟨some d.toNat, [a.toNat, b.toNat, c.toNat], false⟩
  | .eIadd d _ a b _ => ⟨some d.toNat, [a.toNat, b.toNat], false⟩
  | .eImul d _ a b m => ⟨some d.toNat, [a.toNat, b.toNat], m == 3⟩
  | .eLogic d _ a b m => ⟨some d.toNat, if m = 4 then [a.toNat] else [a.toNat, b.toNat], false⟩
  | .eShift d _ a b _ => ⟨some d.toNat, [a.toNat, b.toNat], false⟩
  | .eRed d _ a _ _ => ⟨some d.toNat, [a.toNat], false⟩
  | .eXpose d _ a => ⟨some d.toNat, [a.toNat], false⟩
  | .ePerm d _ a b m c _ => ⟨some d.toNat, if m = 0 then [a.toNat, b.toNat, c.toNat] else [a.toNat], false⟩
  | .eSfn d _ a _ => ⟨some d.toNat, [a.toNat], false⟩
  | .eCvt d _ a b _ o _ => ⟨some d.toNat, if o = 1 then [a.toNat] else [a.toNat, b.toNat], false⟩
  | .eQuant d _ a _ _ => ⟨some d.toNat, [a.toNat], false⟩
  | .eTpack d _ a => ⟨some d.toNat, [a.toNat], false⟩
  | .eMask a f => ⟨none, if f.toNat ≤ 2 then [a.toNat] else [], false⟩
  | .eXq d _ a m => if m = 3 then ⟨none, [a.toNat], false⟩ else if m = 2 then ⟨some d.toNat, [], false⟩ else ⟨none, [], false⟩
  | _ => ⟨none, [], false⟩

/-- A code raised by `k` where it steps: V and ACC codes do, the others do not (07 R183). -/
def stepCode (code k : Nat) : Nat := if code < 16 ∨ 24 ≤ code then code + k else code

/-- The codes of a repetition (07 R183). -/
def Codes.step (c : Codes) (r : Rep) : Codes :=
  { c with
    dst := if r.mode = 2 then c.dst else c.dst.map fun d => stepCode d (if c.wide then 2 * r.k else r.k)
    srcs := if r.mode = 1 then c.srcs else c.srcs.map fun x => stepCode x r.k }

/-- A code leaves V0-V15 or ACC0-ACC7 when it steps `by_` further at the most (07 R184). -/
def leaves (code by_ top : Nat) : Bool :=
  if code < 16 then decide (15 < code + by_ + top) else if 24 ≤ code then decide (31 < code + by_) else false

/-- Some stepped code would leave its registers in some repetition (07 R184). -/
def Codes.overruns (c : Codes) (r : Rep) : Bool :=
  (r.mode != 2 && (match c.dst with
    | some d => leaves d (if c.wide then 2 * (r.n - 1) else r.n - 1) (if c.wide then 1 else 0)
    | none => false)) ||
  (r.mode != 1 && c.srcs.any fun x => leaves x (r.n - 1) 0)

/-- Instructions E.REP does not repeat (07 R184). -/
def neverRepeats : Instr → Bool
  | .literalPush _ _ | .literalExtend _ _ | .eShape | .eShapeGet | .eRep _ _ | .eXq _ _ _ _ | .eAmax | .eAmaxReset
  | .eAmaxClear | .eQuant _ _ _ _ _ | .eMask _ _ => true
  | _ => false

/-- The codes of an instruction in the pending repetition. -/
def Vec.codes (x : Vec) (i : Instr) : Codes :=
  match x.rep with
  | some r => (codesOf i).step r
  | none => codesOf i

/-! ## Waits for results (07 R164) -/

/-- Formats whose conversions feed AMAX (08 R190). -/
def feedsAmax (f : Nat) : Bool := ([2, 3, 4, 5, 6, 7, 10, 11] : List Nat).contains f

/-- An instruction goes by EM: P is 1, or it is an E.MASK (07 R158, 08 R195). -/
def usesMask : Instr → Bool
  | .eXpose _ p _ | .eTpack _ p _ => p == 1
  | .eMov _ p _ _ | .eSqrt _ p _ _ | .eSfn _ p _ _ | .eXq _ p _ _ => p == 1
  | .eAdd _ p _ _ _ | .eSub _ p _ _ _ | .eMul _ p _ _ _ | .eDiv _ p _ _ _ | .eMin _ p _ _ _ | .eMax _ p _ _ _
  | .eCmp _ p _ _ _ | .eSelect _ p _ _ _ | .eIadd _ p _ _ _ | .eImul _ p _ _ _ | .eLogic _ p _ _ _ | .eShift _ p _ _ _
  | .eQuant _ p _ _ _ | .eRed _ p _ _ _ => p == 1
  | .eFma _ p _ _ _ _ _ | .eCvt _ p _ _ _ _ _ | .ePerm _ p _ _ _ _ _ => p == 1
  | .eMask _ _ => true
  | _ => false

/-- An instruction reads or writes the E stack beside its operands. -/
def usesStack : Instr → Bool
  | .literalPush _ _ | .literalExtend _ _ | .stkDup _ _ | .stkDrop _ _ | .stkSwap _ _ | .stkOver _ _ | .eShape | .eShapeGet
  | .eAmax | .eAmaxReset => true
  | .wait _ n => n == 0
  | .eXq _ _ _ m => m == 0 || m == 3
  | .eMask _ f => f == 5
  | _ => false

/-- An instruction reads or writes AMAX (08 R190, R191). -/
def usesAmax : Instr → Bool
  | .eAmax | .eAmaxReset | .eAmaxClear => true
  | .eCvt _ _ _ _ _ _ f => feedsAmax f.toNat
  | _ => false

/-- The state an E instruction reads or writes, by its keys in `Vec.ready`: V0 to V15, EM at 16, the E stack at 17, AMAX at
18 (07 R164, 08 R190). -/
def Vec.touches (x : Vec) (i : Instr) : List Nat :=
  let c := x.codes i
  let dst := match c.dst with | some d => if c.wide then [d, d + 1] else [d] | none => []
  let sd := match i with | .eQuant _ _ _ sd _ => [sd.toNat] | _ => []
  ((c.srcs ++ dst ++ sd).filter fun r => decide (r < 16)) ++ (if usesMask i then [16] else []) ++
    (if usesStack i || c.srcs.contains 22 then [17] else []) ++ (if usesAmax i then [18] else [])

/-- An E instruction waits for state that earlier ones have yet to write (07 R164). -/
def Vec.waits (x : Vec) (i : Instr) (cycle : Nat) : Bool := (x.touches i).any fun r => decide (cycle < SMap.get 0 x.ready r)

/-- Results stand in some of the state from a cycle on. -/
def Vec.readyAt (x : Vec) (rs : List Nat) (at_ : Nat) : Vec :=
  { x with ready := rs.foldl (fun m r => SMap.set 0 m r (max (SMap.get 0 m r) at_)) x.ready }

end Sys2Proof.Machine
end

