-- ==== Sys2Proof/Machine/Ops.lean ====
section
/-! DEFINITION. The named operations over the package's state: cores, dies, engines, stacks and registers; issuing an
instruction; taking a trap. -/

namespace Sys2Proof.Machine

/-- What a step answers. -/
abbrev Out := Host.Outcome State Fault Refusal

/-- What the body of an instruction answers: its effect, a trap with the value of CF_TVAL and, where the rule names
another word, the address for CF_TPC; or a block, in which nothing of the instruction happens: `wait` is a breach inside
a leg, `hold` is not (02 R38; 07 R161, R164; 09 R216; 10 R226); `part` is a trap after which part of the effect stands (10 R221). -/
inductive Res where
  | ok (s : State)
  | trap (c : Cause) (tval : W64) (addr : Option Nat)
  | wait (s : State)
  | hold (s : State)
  | part (c : Cause) (tval : W64) (s : State)
  deriving DecidableEq, Repr

/-- A trap at the instruction's own word. -/
abbrev Res.fail (c : Cause) (tval : W64) : Res := .trap c tval none

/-- Runs the next part of a body after the effect of one. -/
def Res.bind (r : Res) (f : State → Res) : Res :=
  match r with
  | .ok s => f s
  | .trap c v a => .trap c v a
  | .wait s => .wait s
  | .hold s => .hold s
  | .part c v s => .part c v s

/-! ## Bits -/

/-- The `w` bits of a register from bit `lo` up. -/
def bits (v : W64) (lo w : Nat) : Nat := v.toNat / 2 ^ lo % 2 ^ w

/-- The register with the `w` bits from `lo` up replaced. -/
def setBits (v : W64) (lo w x : Nat) : W64 :=
  BitVec.ofNat 64 (v.toNat - bits v lo w * 2 ^ lo + x % 2 ^ w * 2 ^ lo)

/-- A number as a 64-bit word. -/
abbrev w64 (n : Nat) : W64 := BitVec.ofNat 64 n

/-- A bit as a word. -/
def boolW (b : Bool) : W64 := if b then 1 else 0

/-- Reads a little-endian number of `n` bytes (00 R2). -/
def leNat : List Byte → Nat
  | [] => 0
  | b :: bs => b.toNat + 256 * leNat bs

/-- The `n` bytes of a number, least first. -/
def leBytes (v : Nat) : Nat → List Byte
  | 0 => []
  | n + 1 => BitVec.ofNat 8 v :: leBytes (v / 256) n

/-! ## Cores and dies -/

/-- Core `k`. -/
def State.core (s : State) (k : Nat) : Core := SMap.get {} s.cores k

/-- The state with core `k` replaced. -/
def State.setCore (s : State) (k : Nat) (c : Core) : State := { s with cores := SMap.put s.cores k c }

/-- The acting core. -/
def State.me (s : State) : Core := s.core s.actor

/-- The state with the acting core replaced. -/
def State.setMe (s : State) (c : Core) : State := s.setCore s.actor c

/-- The die of the acting core (01 R11). -/
def State.myDie (s : State) : Nat := s.actor / 512

/-- Die `d`. -/
def State.die (s : State) (d : Nat) : Die := SMap.get {} s.dies d

/-- The state with die `d` replaced. -/
def State.setDie (s : State) (d : Nat) (x : Die) : State := { s with dies := SMap.put s.dies d x }

/-- Changes the acting core. -/
def State.updMe (s : State) (f : Core → Core) : State := s.setMe (f s.me)

/-- Changes core `k`. -/
def State.updCore (s : State) (k : Nat) (f : Core → Core) : State := s.setCore k (f (s.core k))

/-- Changes die `d`. -/
def State.updDie (s : State) (d : Nat) (f : Die → Die) : State := s.setDie d (f (s.die d))

/-! ## Engines -/

/-- The engine of a tag. -/
def Engines.get (es : Engines) : Engine → Eng
  | .c => es.c | .a => es.a | .e => es.e | .m => es.m | .k => es.k | .w => es.w | .f => es.f

/-- The engines with one replaced. -/
def Engines.set (es : Engines) (t : Engine) (x : Eng) : Engines :=
  match t with
  | .c => { es with c := x } | .a => { es with a := x } | .e => { es with e := x } | .m => { es with m := x }
  | .k => { es with k := x } | .w => { es with w := x } | .f => { es with f := x }

/-- Changes every engine. -/
def Engines.map (es : Engines) (g : Engine → Eng → Eng) : Engines :=
  { c := g .c es.c, a := g .a es.a, e := g .e es.e, m := g .m es.m, k := g .k es.k, w := g .w es.w, f := g .f es.f }

/-- All engines in tag order. -/
def allEngines : List Engine := [.c, .a, .e, .m, .k, .w, .f]

/-- An engine of a core. -/
def Core.en (k : Core) (t : Engine) : Eng := k.eng.get t

/-- A core with one engine changed. -/
def Core.updEn (k : Core) (t : Engine) (g : Eng → Eng) : Core := { k with eng := k.eng.set t (g (k.en t)) }

/-- The engines that are active (02 R30). -/
def Core.actives (k : Core) : List Engine := allEngines.filter fun t => (k.en t).active

/-- The engine's place on the dynamic path (02 R33, R36). -/
def Eng.place (x : Eng) : Nat := x.progress + x.skew

/-! ## Stacks -/

/-- The parameter stack of an engine of the acting core. -/
def State.stack (s : State) (t : Engine) : List W64 := (s.me.en t).stack

/-- The acting core with another parameter stack of one engine. -/
def State.setStack (s : State) (t : Engine) (st : List W64) : State :=
  s.updMe fun k => k.updEn t fun x => { x with stack := st }

/-- The check of R31: an instruction that pops `p` and pushes `q` entries. -/
def stackFits (st : List W64) (p q : Nat) : Bool := decide (p ≤ st.length) && decide (st.length - p + q ≤ 8)

/-- Runs a body on the entries it pops, PS0 first, after the check of R31; the body sees the stack without them. -/
def popping (t : Engine) (p q : Nat) (body : List W64 → State → Res) (s : State) : Res :=
  let st := s.stack t
  if stackFits st p q then body (st.take p) (s.setStack t (st.drop p)) else .fail .stk 0

/-- Pushes entries, the last one ending on top. -/
def pushing (t : Engine) (vs : List W64) (s : State) : State :=
  s.setStack t (vs.reverse ++ s.stack t)

/-! ## Configuration registers -/

/-- The reset value of a DG register that is held as written (02 R36, 06 R128, 17 R352, R354). -/
def dgReset (i : Nat) : W64 :=
  if 340 ≤ i ∧ i ≤ 345 then w64 (2 ^ (7 + (i - 340)) + 2 ^ (20 + (i - 340)))
  else if i = 346 then w64 (2 ^ 26)
  else if 347 ≤ i ∧ i ≤ 350 then w64 (2 ^ (27 + (i - 347)) + 2 ^ (16 + (i - 347)))
  else if i = 352 then w64 (0xFFFF * 2 ^ 16)
  else 0

/-- A DG register as held. -/
def Die.reg (d : Die) (i : Nat) : W64 := SMap.get (dgReset i) d.dg i

/-- A die with a DG register set. -/
def Die.setReg (d : Die) (i : Nat) (v : W64) : Die := { d with dg := SMap.set (dgReset i) d.dg i v }

/-- A counter field that holds at its greatest value. -/
def bump (v : W64) (lo w n : Nat) : W64 := setBits v lo w (min (bits v lo w + n) (2 ^ w - 1))

/-- Adds to a counter field of a DG register. -/
def Die.bumpReg (d : Die) (i lo w n : Nat) : Die := d.setReg i (bump (d.reg i) lo w n)

/-- The CF registers with what events set before this cycle forgotten (04 R93). -/
def Cf.now (c : Cf) (cycle : Nat) : Cf :=
  if c.evCycle = cycle then c else { c with evCycle := cycle, evBits := 0, evBreach := 0 }

/-- CF_MODE as the engine of a tag sees it: until the S word after a C.CSW, an engine other than C sees the written value or
an earlier one (04 R92; log entry 12). -/
def Core.modeSeen (k : Core) (tag : Nat) : W64 :=
  if tag = 0 ∨ tag = 7 ∨ k.cf.older = [] then k.cf.mode
  else
    let vs := k.cf.mode :: k.cf.older
    vs.getD (Config.seenMode k.cf.draw tag (k.en (Engine.ofTag tag)).progress % vs.length) k.cf.mode

/-- Sets a sticky bit of CF_STATUS of a core (03 R61, 04 R74). -/
def Core.stick (k : Core) (bit cycle : Nat) : Core :=
  let c := k.cf.now cycle
  { k with cf := { c with status := c.status ||| w64 (2 ^ bit), evBits := c.evBits ||| w64 (2 ^ bit) } }

/-- Sets a sticky bit of CF_STATUS of the acting core. -/
def State.stick (s : State) (bit : Nat) : State := s.updMe fun k => k.stick bit s.cycle

/-- Sets a sticky bit when a condition holds. -/
def State.stickIf (s : State) (b : Bool) (bit : Nat) : State := if b then s.stick bit else s

/-! ## Traps -/

/-- Cause codes (18 R379). -/
def Cause.code : Cause → Nat
  | .ill => 0x01 | .stk => 0x02 | .align => 0x03 | .xlat => 0x04 | .perm => 0x05 | .uninit => 0x06 | .breach => 0x07
  | .order => 0x08 | .slot => 0x09 | .plane => 0x0A | .sketch => 0x0B | .dramt => 0x0C | .straddle => 0x0D
  | .token => 0x0E | .integ => 0x0F | .peer => 0x10 | .overrun => 0x11 | .swt => 0x13

/-- A trap is fatal by its cause, in the timed part of a leg, or without the launch's HANDLE bit (18 R379). -/
def Core.fatal (k : Core) (c : Cause) : Bool := decide (c = .integ) || k.leg.timed || !k.handle

/-- A core that takes a trap at a word: CF_CAUSE, CF_TPC and CF_TVAL are set and every engine stops; a fatal trap
begins the kill, any other the save that precedes its delivery (18 R378-R380, R386, R390). An acquire or an arrival at a step that it has
sent is withdrawn with the save or the kill (16 R328; 12 R263). -/
def Core.takeTrap (k : Core) (tag addr : Nat) (c : Cause) (tval : W64) (cycle : Nat) : Core :=
  { k with
    cf := { k.cf with cause := w64 (tag * 2 ^ 8 + c.code), tpc := w64 (addr % 2 ^ 14), tval := tval }
    walks := [], swait := (match k.swait with | .acquire _ _ false | .step _ _ false _ => k.swait | _ => .none)
    kop := { k.kop with walked := [], poll := none }, collPages := [], trips := []
    run := if k.fatal c then .killing else .saving .trap
    trapAt := cycle }

/-- Taking a trap in the acting core: the shared operation of every trap. -/
def takeTrap (s : State) (tag addr : Nat) (c : Cause) (tval : W64) : State :=
  s.updMe fun k => k.takeTrap tag addr c tval s.cycle

/-- The Millwright takes an untimed task off its core: its context is to be saved (18 R384). -/
def Core.preempt (k : Core) : Core :=
  if k.run = .running ∧ !k.leg.timed then
    { k with run := .saving .preempt, walks := [], kop := { k.kop with walked := [], poll := none }, collPages := [], trips := [] }
  else k

/-- The pool of the launch of core `c` has a frame free beside those of the saves in progress (18 R384). -/
def State.frameLeft (s : State) (c : Nat) : Bool :=
  match (s.core c).task with
  | none => false
  | some t =>
    let going := s.cores.filter fun (p : Nat × Core) =>
      (match p.2.run with | .saving _ => true | _ => false) &&
        (match p.2.task with | some u => decide (u.die = t.die) && decide (u.launch = t.launch) | none => false)
    (s.die t.die).launches.any fun (l : Launch) =>
      decide (l.id = t.launch) && decide (l.used.length + going.length < l.nframe)

/-- The Millwright pre-empts the task of a core, where a frame is free (18 R384). -/
def State.preemptCore (s : State) (c : Nat) : State := if s.frameLeft c then s.updCore c Core.preempt else s

/-- Changes several cores. -/
def State.updCores (s : State) (ks : List Nat) (f : Core → Core) : State := ks.foldl (fun s k => s.updCore k f) s

/-- `n` timing breaches: CF_BREACH rises (02 R38; 05 R114). -/
def Core.addBreach (k : Core) (n cycle : Nat) : Core :=
  let c := k.cf.now cycle
  { k with cf := { c with breach := bump c.breach 0 32 n, evBreach := c.evBreach + n }, leg := { k.leg with rise := k.leg.rise + n } }

/-- `n` timing breaches of an engine: counted inside the timed part of a leg, and nothing else (02 R38, 05 R119). -/
def Core.breachIn (k : Core) (t : Engine) (n cycle : Nat) : Core :=
  if k.leg.timed then (k.updEn t fun x => { x with lag := x.lag + n }).addBreach n cycle else k

/-- An engine that is blocked for a cycle. -/
def Core.stall (k : Core) (t : Engine) (cycle : Nat) : Core :=
  (k.breachIn t 1 cycle).updEn t fun x => { x with nextIssue := cycle + 1 }

/-! ## Text -/

/-- What the text store answers for a text address (02 R39, R40). -/
inductive Fetched where
  | word (w : Half)
  | absent
  | freed
  deriving DecidableEq, Repr

/-- The row of the running kernel that a text address lies in. -/
def Text.rowOf (x : Text) (a : Nat) : Option Lease :=
  x.rows.find? fun r => r.space == x.space && r.image == x.image && r.row == a / 128

/-- Fetches one text word. -/
def Text.fetch (x : Text) (a : Nat) : Fetched :=
  if x.freed.contains (a / 128) then .freed
  else match x.rowOf a with
    | some r => .word (r.words.getD (a % 128) 0)
    | none => .absent

/-- The words of the instruction at an address (02 R27). -/
def Text.lenAt (x : Text) (a : Nat) : Nat := match x.fetch a with | .word w => lenOf w | _ => 1

/-- The words a foreign word takes: a C word carries its extension words along, any other word stands alone. -/
def foreignLen (x : Text) (a : Nat) (w : Half) : Nat :=
  if tagOf w = 0 ∧ lenOf w = 2 then
    match x.fetch (a + 1) with
    | .word w2 => if tagOf w2 = 0 ∧ a + 1 < x.len then 2 else 1
    | _ => 1
  else 1

/-- The word at an address is the second word of a C instruction that the words before it begin (02 R27). -/
def Text.isExt (x : Text) : Nat → Bool
  | 0 => false
  | a + 1 =>
    match x.fetch a with
    | .word w => tagOf w == 0 && lenOf w == 2 && !x.isExt a
    | _ => false

/-- The operation words of C that stand from an address on, over `n` words, with their addresses (02 R27). -/
def Text.cWords (x : Text) : Nat → Nat → List (Nat × Half)
  | 0, _ => []
  | n + 1, a =>
    match x.fetch a with
    | .word w =>
      if tagOf w == 0 && !isLiteral w then
        (a, w) :: (match n, foreignLen x a w with
          | m + 1, 2 => x.cWords m (a + 2)
          | n, _ => x.cWords n (a + 1))
      else x.cWords n (a + 1)
    | _ => x.cWords n (a + 1)

/-- The end of the body of a C.LOOP at an address, when the body is not empty (04 R83). -/
def Text.loopAt (x : Text) (a : Nat) (w : Half) : Option Nat :=
  if tagOf w = 0 ∧ !isLiteral w ∧ opcOf w = 0x11 then
    match x.fetch (a + 1) with
    | .word v => if v.toNat % 2 ^ 13 ≤ 1 then none else some (a + v.toNat % 2 ^ 13)
    | _ => none
  else none

/-! ## Steering and advance -/

/-- The outcome of a loop's end word, and the loop stack after it (04 R84). -/
def resolveLoop (stop : Nat) : List LoopEntry → Nat × List LoopEntry
  | [] => (stop + 1, [])
  | e :: es =>
    if (e.iter + 1).toNat < e.count.toNat then (e.start, { e with iter := e.iter + 1 } :: es)
    else match es with
      | e' :: _ => if e'.stop = e.stop ∧ e'.depth = e.depth then resolveLoop stop es else (stop + 1, es)
      | [] => (stop + 1, [])

/-- The end address of the innermost loop, when it counts at the current call depth (04 R84, R85). -/
def Core.loopStop (k : Core) : Option Nat :=
  match k.ctl.loops with
  | e :: _ => if e.depth = k.ctl.ret.length then some e.stop else none
  | [] => none

/-- The C words between C's program counter and an address that an engine which holds no outcome has reached: C has not
issued them, and no steering word lies between (02 R33). -/
def Core.ahead (k : Core) (a : Nat) : List (Nat × Half) := k.text.cWords (a - (k.en .c).pc) (k.en .c).pc

/-- The loop end an engine other than C meets next (02 R33; 04 R83): that of its oldest outcome, else of the last C.LOOP it
has passed before C, else C's. -/
def Core.expectStop (k : Core) (t : Engine) : Option Nat :=
  match (k.en t).steer with
  | st :: _ => if st.loopEnd then some st.addr else none
  | [] =>
    match ((k.ahead (k.en t).pc).filterMap fun p => k.text.loopAt p.1 p.2).getLast? with
    | some a => some a
    | none => k.loopStop

/-- The loop end an engine meets next. -/
def Core.stopOf (k : Core) (t : Engine) : Option Nat := if t = .c then k.loopStop else k.expectStop t

/-- Whether a loop end lies within the `len` words from `a` (log entry 8). -/
def within (stop : Option Nat) (a len : Nat) : Option Nat :=
  match stop with
  | some x => if a ≤ x ∧ x < a + len then some x else none
  | none => none

/-- Some active engine's steering queue is full (02 R34). -/
def Core.steerFull (k : Core) : Bool :=
  [Engine.a, .e, .m, .k, .w, .f].any fun t => (k.en t).active && decide (32 ≤ (k.en t).steer.length)

/-- Gives an outcome to every active engine but C (02 R33). -/
def Core.giveOutcome (k : Core) (o : Steer) : Core :=
  { k with eng := k.eng.map fun t x => if t ≠ .c ∧ x.active then { x with steer := x.steer ++ [o] } else x }

/-- C moves on after a steering word of `len` words at its program counter whose outcome is `target`; `ret` when the
outcome is a loop's return, which counts as no redirect (04 R70). -/
def Core.steerTo (k : Core) (addr len target : Nat) (loopEnd : Bool) (cycle n : Nat) : Core :=
  let a := (k.en .c).pc
  let redirect := !loopEnd && target != a + len
  let nb := cycle + (if redirect then 2 else 1)
  let k := k.giveOutcome { addr := addr, loopEnd := loopEnd, target := target, notBefore := nb }
  k.updEn .c fun x => { x with
    pc := target, progress := x.progress + len, nextIssue := max nb (cycle + n)
    fromWin := if target = a + len then a / 32 + 1 else target / 32 }

/-- An engine moves past the `len` words at its program counter; its next word issues no earlier than `n` cycles on
(02 R35, R36, 04 R69, R84). -/
def Core.advance (k : Core) (t : Engine) (len n cycle : Nat) : Core :=
  let a := (k.en t).pc
  match t with
  | .c =>
    match within k.loopStop a len with
    | some stop =>
      let r := resolveLoop stop k.ctl.loops
      Core.steerTo { k with ctl := { k.ctl with loops := r.2 } } stop len r.1 true cycle n
    | none => k.updEn .c fun x => { x with
        pc := a + len, progress := x.progress + len, nextIssue := cycle + n, fromWin := a / 32 + 1 }
  | _ =>
    match within (k.expectStop t) a len with
    | some stop => k.updEn t fun x => { x with
        pc := stop, progress := x.progress + (stop - a), nextIssue := cycle + n, fromWin := a / 32 + 1
        endWait := true }
    | none => k.updEn t fun x => { x with
        pc := a + len, progress := x.progress + len, nextIssue := cycle + n, fromWin := a / 32 + 1 }

/-! ## Issue -/

/-- The length of an instruction in words. -/
def lenInstr (i : Instr) : Nat := match encodeNat i with | some (n, _) => n | none => 1

/-- The values sent to an engine whose C.SEND precedes its place on the path (04 R86). -/
def Core.dueSends (k : Core) (t : Engine) : List W64 :=
  (k.ctl.outq.filter fun x => decide (x.dest = t) && decide (x.place < (k.en t).place)).map (·.val)

/-- Delivers the values due before a word of an engine issues (04 R86); the check of R31 follows. -/
def Core.deliver (k : Core) (t : Engine) : Core :=
  let due := k.dueSends t
  let k := { k with ctl := { k.ctl with
    outq := k.ctl.outq.filter fun x => !(decide (x.dest = t) && decide (x.place < (k.en t).place)) } }
  k.updEn t fun x => { x with stack := due.reverse ++ x.stack }

/-- C stands at a word that ends a loop while some steering queue is full (02 R34). -/
def Core.steerBlocked (k : Core) (t : Engine) (len : Nat) : Bool :=
  match t with
  | .c => (within k.loopStop (k.en .c).pc len).isSome && k.steerFull
  | _ => false

/-- The repetition the execute engine's next instruction runs under (07 R183). -/
def Core.repFor (k : Core) (t : Engine) : Option Rep := if t = .e then k.vec.rep else none

/-- The trap value of an instruction: the number of the repetition, where one runs (07 R184). -/
def repValue (r : Option Rep) (v : W64) : W64 := match r with | some x => w64 x.k | none => v

/-- Completes an instruction: its engine moves on, or stays for the next repetition (07 R183). -/
def Core.complete (k : Core) (t : Engine) (r : Option Rep) (len n cycle : Nat) : Core :=
  match r with
  | none => k.advance t len n cycle
  | some x =>
    if x.k + 1 < x.n then
      { k.updEn t fun y => { y with nextIssue := cycle + n } with
        vec := { k.vec with rep := some { x with k := x.k + 1 } } }
    else ({ k with vec := { k.vec with rep := none } }).advance t len n cycle

/-- E.REP refuses the instruction it would repeat (07 R184). -/
def repRefuses (r : Option Rep) (i : Instr) : Bool :=
  match r with
  | some x => decide (x.k = 0) && (neverRepeats i || (codesOf i).overruns x)
  | none => false

/-- The path of the accesses an instruction makes, as its bit in a fence's sets: A 5, K 4, M 3, W 2, F 1 (16 R320, R332). -/
def pathBit : Instr → Option Nat
  | .cLd _ _ _ | .cSt _ _ => some 5
  | .aSgo _ | .aSstopDrain _ | .aLdq _ | .aStq _ | .aLdg _ | .aStg _ | .aPldQueue _ | .aPstQueue _ | .aPstPriQueue _
  | .aAlloc | .aValidSet | .aValidCnt | .aValidFirst | .aPld | .aPst | .aPstPri => some 5
  | .kCopy | .kCwait _ => some 4
  | .mWload _ | .mWloadSp _ | .mMma _ _ | .mTmma _ | .mEpi _ _ _ _ _ _ | .mAccLoad _ => some 3
  | .wRows _ _ => some 2
  | .fAmo _ _ | .fAmoR _ _ | .fCas _ | .fCasM _ _ | .fChase _ _ _ | .fRld _ _ _ | .fRst _ _ | .fSkup _ | .fSkupN _
  | .fSkq _ | .fSkqN _ | .fColl _ _ _ | .fEnq | .fEnqR | .fSkadd | .fDrain => some 1
  | _ => none

/-- A fence in force holds a path, in the cycle too in which the accesses of P are complete (16 R332, R334). -/
def Core.fenceOn (k : Core) (bit cycle : Nat) : Bool :=
  k.fences.any fun f => f.dst / 2 ^ bit % 2 == 1 && f.drainedAt.all fun c => decide (cycle ≤ c)

/-- A fence holds an instruction's accesses (16 R332). -/
def Core.fenced (k : Core) (i : Instr) (cycle : Nat) : Bool := match pathBit i with | some b => k.fenceOn b cycle | none => false

/-- A body traps with #ILL. -/
def Res.illegal : Res → Bool
  | .trap .ill _ _ => true
  | _ => false

/-- The acting core with nothing on the stack of the execute engine and in the queues: an E instruction takes #ILL there for its
shape, format or mode alone, the checks that come before those of the stack and of the queues' tags (07 R160). -/
def State.bare (s : State) : State := (s.setStack .e []).updMe fun k => { k with queues := [] }

/-- An engine issues an instruction at its program counter: reserved field values take #ILL (02 R42), sent values
arrive (04 R86), then the body decides. `n` is the least distance to the engine's next word. -/
def issueN (t : Engine) (i : Instr) (n : State → Nat) (body : State → Res) (s : State) : Out :=
  let k := s.me
  let addr := (k.en t).pc
  let len := lenInstr i
  let r := k.repFor t
  if k.steerBlocked t len then .next (s.updMe fun k => k.stall t s.cycle)
  else if !legalFields i then .next (takeTrap s t.tag addr .ill (repValue r 0))
  else if k.fenced i s.cycle then .next (s.updMe fun k => k.stall t s.cycle)
  else if t = .e ∧ k.vec.waits i s.cycle then .next (s.updMe fun k => k.updEn t fun x => { x with nextIssue := s.cycle + 1 })
  else
    let s1 := s.updMe fun k => k.deliver t
    if repRefuses r i then .next (takeTrap s t.tag addr .ill (repValue r 0))
    else if decide (8 < (s1.stack t).length) then
      .next (takeTrap s t.tag addr (if decide (t = .e) && (body s1.bare).illegal then .ill else .stk) (repValue r 0))
    else match body s1 with
      | .ok s2 => .next (s2.updMe fun k => k.complete t r len (n s1) s.cycle)
      | .trap c v a => .next (takeTrap s t.tag (a.getD addr) c (repValue r v))
      | .wait s2 => .next ((s2.setStack t (s1.stack t)).updMe fun k => k.stall t s.cycle)
      | .hold s2 => .next ((s2.setStack t (s1.stack t)).updMe fun k => k.updEn t fun x => { x with nextIssue := s.cycle + 1 })
      | .part c v s2 => .next (takeTrap (s2.setStack t (s1.stack t)) t.tag addr c (repValue r v))

/-- Issue with a fixed distance to the next word. -/
def issue (t : Engine) (i : Instr) (n : Nat) (body : State → Res) (s : State) : Out := issueN t i (fun _ => n) body s

/-- After an S word every engine sees the CF_MODE that C last wrote (04 R92). -/
def Core.modeSettled (k : Core) : Core := { k with cf := { k.cf with older := [] } }

/-- An engine that an S word has started begins with an empty steering queue, that word's own outcome as the end of a loop
included (02 R34). -/
def Core.onlySteer (k : Core) (movers : List Engine) : Core :=
  { k with eng := k.eng.map fun t x => if x.active && !movers.contains t then { x with steer := [] } else x }

/-- An S word takes effect: it pops the C stack, traps with engine code 7, and moves every engine that was active; `n` is
the least distance to their next words (02 R29). -/
def issueSN (i : Instr) (n : Nat) (body : State → Res) (s : State) : Out :=
  let k := s.me
  let addr := (k.en .c).pc
  let len := lenInstr i
  if k.steerBlocked .c len then .next (s.updMe fun k => k.stall .c s.cycle)
  else if !legalFields i then .next (takeTrap s 7 addr .ill 0)
  else
    let movers := k.actives
    match body s with
    | .ok s2 =>
      .next (s2.updMe fun k2 =>
        ((movers.foldr (fun t k3 =>
          (k3.updEn t fun x => { x with parked := none }).advance t len n s.cycle) k2).onlySteer movers).modeSettled)
    | .trap c v a => .next (takeTrap s 7 (a.getD addr) c v)
    | .wait s2 => .next ((s2.setStack .c (s.stack .c)).updMe fun k => k.updEn .c fun x => { x with nextIssue := s.cycle + 1 })
    | .hold s2 => .next ((s2.setStack .c (s.stack .c)).updMe fun k => k.updEn .c fun x => { x with nextIssue := s.cycle + 1 })
    | .part c v s2 => .next (takeTrap (s2.setStack .c (s.stack .c)) 7 addr c v)

/-- An S word after which the engines go on in the next cycle. -/
def issueS (i : Instr) (body : State → Res) (s : State) : Out := issueSN i 1 body s

/-- A word that is no instruction (02 R42); C stalls at it where it ends a loop and a steering queue is full (02 R34). -/
def execIllegalWord (t : BitVec 3) (s : State) : Out :=
  let e := Engine.ofTag t.toNat
  let addr := (s.me.en e).pc
  .next (if s.me.steerBlocked e (s.me.text.lenAt addr) then s.updMe fun k => k.stall e s.cycle else takeTrap s t.toNat addr .ill 0)

end Sys2Proof.Machine
end

