-- ==== Sys2Proof/Machine/Num.lean ====
section
/-! DEFINITION. The numbers the engines compute with: formats, exact values, the rounding function of R59, the arithmetic
of IEEE 754-2019 on exact values, and the canonical tree (03 R51-R65). -/

namespace Sys2Proof.Machine

/-! ## Formats -/

/-- Bits of an element by format code; none for TERN5, which has no element width (03 R51, R52). -/
def fmtBits (f : Nat) : Nat :=
  match f with
  | 0 => 64 | 1 => 32 | 2 => 16 | 3 => 16 | 4 => 8 | 5 => 8 | 6 => 8 | 7 => 16 | 8 => 32 | 9 => 64 | 10 => 8 | 11 => 16
  | 12 => 32 | 14 => 64 | 15 => 8 | _ => 0

/-- Bytes of an element by format code. -/
def fmtBytes (f : Nat) : Nat := fmtBits f / 8

/-- A binary floating format (03 R53). -/
def isFloat (f : Nat) : Bool := decide (f ≤ 5)

/-- FP32 and FP64, the wide formats of R59. -/
def isWide (f : Nat) : Bool := decide (f ≤ 1)

/-- An integer format INT8 to INT64 or NAT8 to NAT32 (03 R51). -/
def isInt (f : Nat) : Bool := decide (6 ≤ f ∧ f ≤ 12)

/-- A signed format: INT8 to INT64 and FX64. -/
def isSigned (f : Nat) : Bool := decide (6 ≤ f ∧ f ≤ 9) || f == 14

/-- Fraction bits and exponent bias of a floating format (03 R53). -/
def fracBits (f : Nat) : Nat := match f with | 0 => 52 | 1 => 23 | 2 => 10 | 3 => 7 | 4 => 3 | _ => 2
def expBits (f : Nat) : Nat := match f with | 0 => 11 | 1 => 8 | 2 => 5 | 3 => 8 | 4 => 4 | _ => 5
def fmtBias (f : Nat) : Nat := 2 ^ (expBits f - 1) - 1

/-- The code of the largest finite value of a floating format, its sign left out (03 R53). -/
def maxCode (f : Nat) : Nat := if f = 4 then 0x7E else (2 ^ expBits f - 1) * 2 ^ fracBits f - 1

/-- The format has infinities: all but E4M3 (03 R53). -/
def hasInf (f : Nat) : Bool := f != 4

/-- The canonical NaN of a floating format (03 R53, R54). -/
def canonNan (f : Nat) : Nat :=
  if f = 4 then 0x7F else (2 ^ expBits f - 1) * 2 ^ fracBits f + 2 ^ (fracBits f - 1)

/-! ## Exact values -/

/-- A NaN, an infinity, or a sign with the exact magnitude num / den; zero keeps its sign. -/
inductive Val where
  | nan
  | inf (neg : Bool)
  | fin (neg : Bool) (num den : Nat)
  deriving DecidableEq, Repr

/-- The value num / den times 2^e. -/
def Val.scaled (neg : Bool) (num den : Nat) (e : Int) : Val :=
  if 0 ≤ e then .fin neg (num * 2 ^ e.toNat) den else .fin neg num (den * 2 ^ (-e).toNat)

/-- An integer as a value. -/
def Val.ofInt (i : Int) : Val := .fin (decide (i < 0)) i.natAbs 1

/-- The signed reading of the low `w` bits of a number. -/
def signedOf (w b : Nat) : Int :=
  if b % 2 ^ w < 2 ^ (w - 1) then Int.ofNat (b % 2 ^ w) else Int.ofNat (b % 2 ^ w) - 2 ^ w

/-- The value of a floating bit pattern (03 R51, R53). -/
def floatVal (f b : Nat) : Val :=
  let fb := fracBits f
  let neg := b / 2 ^ (fmtBits f - 1) % 2 == 1
  let e := b / 2 ^ fb % 2 ^ expBits f
  let m := b % 2 ^ fb
  let top := 2 ^ expBits f - 1
  if f = 4 then
    if e = 15 ∧ m = 7 then .nan
    else if e = 0 then .scaled neg m 1 (-9) else .scaled neg (8 + m) 1 (Int.ofNat e - 10)
  else if e = top then (if m = 0 then .inf neg else .nan)
  else if e = 0 then .scaled neg m 1 (1 - Int.ofNat (fmtBias f) - Int.ofNat fb)
  else .scaled neg (2 ^ fb + m) 1 (Int.ofNat e - Int.ofNat (fmtBias f) - Int.ofNat fb)

/-- The value of an element's bits in a format (03 R51, R55). -/
def valueOf (f b : Nat) : Val :=
  if isFloat f then floatVal f b
  else if f = 15 then (if b % 256 = 255 then .nan else .scaled false 1 1 (Int.ofNat (b % 256) - 127))
  else if f = 14 then
    let i := signedOf 64 b
    .fin (decide (i < 0)) i.natAbs (2 ^ 32)
  else if isSigned f then Val.ofInt (signedOf (fmtBits f) b)
  else .fin false (b % 2 ^ fmtBits f) 1

/-! ## Rounding -/

/-- Rounding modes (03 R57). -/
inductive Mode where
  | rne | rz | ru | rd
  deriving DecidableEq, Repr

/-- The mode of a two-bit field (03 R57). -/
def modeOf (r : Nat) : Mode := match r with | 0 => .rne | 1 => .rz | 2 => .ru | _ => .rd

/-- num / den rounded to an integer under a mode, the sign given. -/
def roundDiv (m : Mode) (neg : Bool) (num den : Nat) : Nat :=
  let q := num / den
  let r := num % den
  match m with
  | .rne => if den < 2 * r ∨ (2 * r = den ∧ q % 2 = 1) then q + 1 else q
  | .rz => q
  | .ru => if r ≠ 0 ∧ !neg then q + 1 else q
  | .rd => if r ≠ 0 ∧ neg then q + 1 else q

/-- The exponent e with 2^e ≤ num / den < 2^(e+1), for num and den above 0. -/
def floorLog2 (num den : Nat) : Int :=
  let k : Int := Int.ofNat (Nat.log2 num) - Int.ofNat (Nat.log2 den)
  let ge := if 0 ≤ k then decide (den * 2 ^ k.toNat ≤ num) else decide (den ≤ num * 2 ^ (-k).toNat)
  if ge then k else k - 1

/-- num / den rounded to a floating format's significand at every exponent: the code the result has when the exponent
field may grow without bound (03 R59). -/
def roundCode (f : Nat) (m : Mode) (neg : Bool) (num den : Nat) : Nat :=
  if num = 0 then 0
  else
    let fb : Int := Int.ofNat (fracBits f)
    let emin : Int := 1 - Int.ofNat (fmtBias f)
    let e := max (floorLog2 num den) emin
    let q := e - fb
    let s := if 0 ≤ q then roundDiv m neg num (den * 2 ^ q.toNat) else roundDiv m neg (num * 2 ^ (-q).toNat) den
    -- a significand of 2^fb or more counts its leading bit into the exponent field
    (e - emin).toNat * 2 ^ fracBits f + s

/-- Bits with a sign put at the top of a format's width. -/
def withSign (f : Nat) (neg : Bool) (code : Nat) : Nat := code + (if neg then 2 ^ (fmtBits f - 1) else 0)

/-- Infinity's bits. -/
def infBits (f : Nat) (neg : Bool) : Nat := withSign f neg ((2 ^ expBits f - 1) * 2 ^ fracBits f)

/-- Least and greatest integer of an integer format; FX64 counts in units of 2^-32 (03 R55). -/
def intLeast (f : Nat) : Int := if isSigned f then -(2 ^ (fmtBits f - 1)) else 0
def intMost (f : Nat) : Int := if isSigned f then 2 ^ (fmtBits f - 1) - 1 else 2 ^ fmtBits f - 1

/-- The low bits of an integer in a format's width. -/
def intBits (f : Nat) (i : Int) : Nat := (i % 2 ^ fmtBits f).toNat

/-- An exact integer brought into a format's range, and whether it was outside (03 R59). -/
def saturate (f : Nat) (i : Int) : Nat × Bool :=
  if i < intLeast f then (intBits f (intLeast f), true)
  else if intMost f < i then (intBits f (intMost f), true)
  else (intBits f i, false)

/-- The rounding function of R59: the bits in a format, and whether SAT is set. -/
def round (v : Val) (f : Nat) (m : Mode) : Nat × Bool :=
  if isFloat f then
    match v with
    | .nan => (canonNan f, false)
    | .inf neg => if hasInf f then (infBits f neg, false) else (withSign f neg (maxCode f), true)
    | .fin neg num den =>
      let c := roundCode f m neg num den
      if maxCode f < c then
        if isWide f then
          if m = .rne ∨ (m = .ru ∧ !neg) ∨ (m = .rd ∧ neg) then (infBits f neg, false)
          else (withSign f neg (maxCode f), false)
        else (withSign f neg (maxCode f), true)
      else (withSign f neg c, false)
  else
    match v with
    | .nan => (0, true)
    | .inf neg => (intBits f (if neg then intLeast f else intMost f), true)
    | .fin neg num den =>
      let n := roundDiv m neg (if f = 14 then num * 2 ^ 32 else num) den
      saturate f (if neg then -Int.ofNat n else Int.ofNat n)

/-! ## Exact arithmetic -/

/-- The value with its sign turned. -/
def Val.neg : Val → Val
  | .nan => .nan
  | .inf s => .inf (!s)
  | .fin s n d => .fin (!s) n d

/-- The magnitude. -/
def Val.abs : Val → Val
  | .nan => .nan
  | .inf _ => .inf false
  | .fin _ n d => .fin false n d

/-- The signed numerator of a finite value over its denominator. -/
def signedNum (s : Bool) (n : Nat) : Int := if s then -Int.ofNat n else Int.ofNat n

/-- The exact sum; an exact zero of operands of opposite sign is +0, and -0 under RD (07 R167). -/
def Val.add (m : Mode) : Val → Val → Val
  | .nan, _ => .nan
  | _, .nan => .nan
  | .inf a, .inf b => if a = b then .inf a else .nan
  | .inf a, _ => .inf a
  | _, .inf b => .inf b
  | .fin sa na da, .fin sb nb db =>
    let i := signedNum sa na * Int.ofNat db + signedNum sb nb * Int.ofNat da
    if i = 0 then .fin (if sa = sb ∧ na = 0 ∧ nb = 0 then sa else decide (m = .rd)) 0 1
    else .fin (decide (i < 0)) i.natAbs (da * db)

/-- The exact product (07 R167). -/
def Val.mul : Val → Val → Val
  | .nan, _ => .nan
  | _, .nan => .nan
  | .inf a, .inf b => .inf (xor a b)
  | .inf a, .fin b n _ => if n = 0 then .nan else .inf (xor a b)
  | .fin b n _, .inf a => if n = 0 then .nan else .inf (xor a b)
  | .fin sa na da, .fin sb nb db => .fin (xor sa sb) (na * nb) (da * db)

/-- The exact quotient (07 R167). -/
def Val.div : Val → Val → Val
  | .nan, _ => .nan
  | _, .nan => .nan
  | .inf _, .inf _ => .nan
  | .inf a, .fin b _ _ => .inf (xor a b)
  | .fin a _ _, .inf b => .fin (xor a b) 0 1
  | .fin sa na da, .fin sb nb db =>
    if nb = 0 then (if na = 0 then .nan else .inf (xor sa sb)) else .fin (xor sa sb) (na * db) (da * nb)

/-- The value times 2^n. -/
def Val.scale (v : Val) (n : Int) : Val :=
  match v with
  | .fin s a b => .scaled s a b n
  | v => v

/-- The greatest integer whose square is at most a number, from a high bit down. -/
def isqrtFrom (v : Nat) : Nat → Nat → Nat
  | 0, r => r
  | k + 1, r => if (r + 2 ^ k) * (r + 2 ^ k) ≤ v then isqrtFrom v k (r + 2 ^ k) else isqrtFrom v k r

/-- The integer square root. -/
def isqrt (v : Nat) : Nat := isqrtFrom v (Nat.log2 v / 2 + 1) 0

/-- A value that every rounding treats as the square root: its integer part on a grid finer than any format's, and half a
step more where the root is not on the grid (07 R169). -/
def Val.sqrt : Val → Val
  | .nan => .nan
  | .inf neg => if neg then .nan else .inf false
  | .fin neg n d =>
    if n = 0 then .fin neg 0 1
    else if neg then .nan
    else
      let t := 96 + Nat.log2 d
      let v := n * d * 4 ^ t
      let r := isqrt v
      if r * r = v then .fin false r (d * 2 ^ t) else .fin false (2 * r + 1) (2 * d * 2 ^ t)

/-- The order of two values that are not NaN, -0 before +0 where `signedZero` (07 R170, R172). -/
def Val.lt (signedZero : Bool) : Val → Val → Bool
  | .nan, _ => false
  | _, .nan => false
  | .inf a, .inf b => a && !b
  | .inf a, .fin _ _ _ => a
  | .fin _ _ _, .inf b => !b
  | .fin sa na da, .fin sb nb db =>
    let a := signedNum sa na * Int.ofNat db
    let b := signedNum sb nb * Int.ofNat da
    decide (a < b) || (signedZero && decide (a = 0) && decide (b = 0) && sa && !sb)

/-- Whether a value is a NaN. -/
def Val.isNan : Val → Bool
  | .nan => true
  | _ => false

/-- Whether a value is finite. -/
def Val.isFin : Val → Bool
  | .fin _ _ _ => true
  | _ => false

/-! ## Transcendental values (log entry 10) -/

/-- Bits of the fixed-point grid on which 2^x and log2 x are evaluated. -/
abbrev gridBits : Nat := 320

/-- 2^(2^-i) for rising i, on the grid, times the bits of a fraction that are set: `fr` holds `n` bits below the point
and `c` is 2^(2^-(k)) for the bit in hand. -/
def exp2Bits (fr : Nat) : Nat → Nat → Nat → Nat
  | 0, _, acc => acc
  | n + 1, c, acc =>
    let c' := isqrt (c * 2 ^ gridBits)
    exp2Bits fr n c' (if fr / 2 ^ n % 2 = 1 then acc * c' / 2 ^ gridBits else acc)

/-- 2^x for a finite x, as a value every rounding to FP32 or narrower treats as 2^x (07 R181; log entry 10). -/
def exp2Fin (neg : Bool) (n d : Nat) : Val :=
  if n = 0 then .fin false 1 1
  else
    let whole : Int := Int.fdiv (signedNum neg n) (Int.ofNat d)
    if whole < -4096 then .scaled false 1 1 (-4096)
    else if 4096 < whole then .scaled false 1 1 4096
    else
      let part := (signedNum neg n - whole * Int.ofNat d).toNat
      let fr := part * 2 ^ 200 / d
      let r := exp2Bits fr 200 (2 * 2 ^ gridBits) (2 ^ gridBits)
      if part = 0 then .scaled false 1 1 whole else .scaled false (2 * r + 1) (2 * 2 ^ gridBits) whole

/-- The bits below the point of log2 of a grid value in [1, 2), by repeated squaring. -/
def log2Bits : Nat → Nat → Nat → Nat
  | 0, _, acc => acc
  | n + 1, y, acc =>
    let y2 := y * y / 2 ^ gridBits
    if 2 * 2 ^ gridBits ≤ y2 then log2Bits n (y2 / 2) (2 * acc + 1) else log2Bits n y2 (2 * acc)

/-- log2 x for a finite x above 0 (07 R181; log entry 10). -/
def log2Fin (n d : Nat) : Val :=
  let e := floorLog2 n d
  let num := if 0 ≤ e then n else n * 2 ^ (-e).toNat
  let den := if 0 ≤ e then d * 2 ^ e.toNat else d
  if num = den then Val.ofInt e
  else
    let fr := log2Bits 160 (num * 2 ^ gridBits / den) 0
    let i := e * 2 ^ 161 + Int.ofNat (2 * fr + 1)
    .fin (decide (i < 0)) i.natAbs (2 ^ 161)

/-- E.SFN's functions: 2^a, log2 a, 1/a, 1/√a (07 R181). -/
def sfn (g : Nat) (v : Val) : Val :=
  match g with
  | 0 => match v with
    | .nan => .nan
    | .inf neg => if neg then .fin false 0 1 else .inf false
    | .fin s n d => exp2Fin s n d
  | 1 => match v with
    | .nan => .nan
    | .inf neg => if neg then .nan else .inf false
    | .fin s n d => if n = 0 then .inf true else if s then .nan else log2Fin n d
  | 2 => Val.div (.fin false 1 1) v
  | _ => match v with
    | .fin s n _ => if n = 0 then .inf s else if s then .nan else Val.div (.fin false 1 1) v.sqrt
    | .inf neg => if neg then .nan else .fin false 0 1
    | .nan => .nan

/-! ## Canonical reduction -/

/-- One level of the canonical tree: neighbours combine, a last one without a neighbour passes up (03 R63). -/
def pairUp {α : Type} (add : α → α → α) : List α → List α
  | a :: b :: rest => add a b :: pairUp add rest
  | rest => rest

/-- The root of the canonical tree over a list of partials (03 R63); `n` bounds the levels. -/
def treeFold {α : Type} (add : α → α → α) : Nat → List α → List α
  | 0, xs => xs
  | n + 1, xs => if xs.length ≤ 1 then xs else treeFold add n (pairUp add xs)

/-- The canonical sum of partials as bits in a format, with whether SAT was set (03 R63); a NaN is the canonical one, that of a single
partial too (03 R54). -/
def canonicalSum (f : Nat) (xs : List Nat) : Nat × Bool :=
  let add := fun (a b : Nat × Bool) =>
    let r := if isFloat f then round (Val.add .rne (valueOf f a.1) (valueOf f b.1)) f .rne
             else saturate f ((if isSigned f then signedOf (fmtBits f) a.1 + signedOf (fmtBits f) b.1
                               else Int.ofNat (a.1 + b.1)))
    (r.1, a.2 || b.2 || r.2)
  match treeFold add 64 (xs.map fun x => (x, false)) with
  | r :: _ => if isFloat f && (valueOf f r.1).isNan then (canonNan f, r.2) else r
  | [] => (0, false)

/-! ## TERN5 -/

/-- The five weights of a byte, and whether the byte is out of range (03 R56). -/
def ternDecode (b : Nat) : List Int × Bool :=
  if 242 < b then ([0, 0, 0, 0, 0], true)
  else ((List.range 5).map fun i => match b / 3 ^ i % 3 with | 0 => 0 | 1 => 1 | _ => -1, false)

/-- The byte of five weights (03 R56). -/
def ternEncode (ts : List Int) : Nat :=
  ((List.range 5).map fun i => (match ts.getD i 0 with | 0 => 0 | 1 => 1 | _ => 2) * 3 ^ i).sum

end Sys2Proof.Machine
end

