-- ==== Sys2Proof/Machine/Pad.lean ====
section
/-! DEFINITION. The scratchpad: its words, their valid bits, reads of unwritten words (06 R123-R128), and the queues
(06 R129, R130). -/

namespace Sys2Proof.Machine

/-- Bytes of a core's scratchpad (06 R123). -/
abbrev padSize : Nat := 0x40000

/-- The word of a scratchpad address is valid (06 R125). -/
def Core.wordValid (k : Core) (sa : Nat) : Bool := SMap.get false k.valid (sa / 4)

/-- One byte as it reads when unwritten words read as zero (06 R126). -/
def Core.padByte (k : Core) (sa : Nat) : Byte := if k.wordValid sa then SMap.get 0 k.pad sa else 0

/-- Bytes at rising addresses. -/
def Core.padBytes (k : Core) (sa n : Nat) : List Byte := (List.range n).map fun j => k.padByte (sa + j)

/-- Byte addresses of the unwritten words that a run of bytes touches (06 R126). -/
def Core.unwritten (k : Core) (sa n : Nat) : List Nat :=
  if n = 0 then []
  else ((List.range ((sa + n - 1) / 4 - sa / 4 + 1)).filter fun j => !SMap.get false k.valid (sa / 4 + j)).map
    fun j => 4 * (sa / 4 + j)

/-- The first of them. -/
def Core.firstUnwritten (k : Core) (sa n : Nat) : Option Nat := (k.unwritten sa n).head?

/-- Writes one byte and sets its word's valid bit; a word whose bit was 0 gets zero in its other bytes (06 R125). -/
def Core.padPut (k : Core) (sa : Nat) (b : Byte) : Core :=
  let w := sa / 4
  let k1 := if SMap.get false k.valid w then k
            else { k with pad := (List.range 4).foldl (fun m j => SMap.set 0 m (4 * w + j) 0) k.pad,
                          valid := SMap.set false k.valid w true }
  { k1 with pad := SMap.set 0 k1.pad sa b }

/-- Writes bytes at rising addresses. -/
def Core.padWrite (k : Core) (sa : Nat) : List Byte → Core
  | [] => k
  | b :: bs => Core.padWrite (k.padPut sa b) (sa + 1) bs

/-- Writes the enabled bytes at rising addresses. -/
def Core.padWriteSome (k : Core) (sa : Nat) : List (Option Byte) → Core
  | [] => k
  | b :: bs => Core.padWriteSome (match b with | some x => k.padPut sa x | none => k) (sa + 1) bs

/-- Clears the valid bits of words (06 R148). -/
def Core.padClear (k : Core) (w n : Nat) : Core :=
  { k with valid := k.valid.filter fun p => !(decide (w ≤ p.1) && decide (p.1 < w + n)) }

/-- Clears the valid bits of words in a cycle in which copies may yet write them: those of their writes go too (06 R153). -/
def Core.padAlloc (k : Core) (w n : Nat) : Core := { k.padClear w n with cleared := (w, w + n) :: k.cleared }

/-- The words that A.ALLOC has cleared in this cycle stay cleared (06 R153). -/
def Core.reclear (k : Core) : Core := k.cleared.foldl (fun k p => k.padClear p.1 (p.2 - p.1)) k

/-- The warning a read of an unwritten word leaves at the reader's die (06 R126, R128). -/
def Die.warnUninit (d : Die) (core tag addr cycle : Nat) : Die :=
  let info := d.reg 289
  let n := min 65535 (bits info 48 16 + 1)
  if info.getLsbD 0 && !(decide (d.uninitAt = cycle) && decide (core < bits info 12 12)) then d.setReg 289 (setBits info 48 16 n)
  else
    let d1 := (d.setReg 288 (w64 (addr % 2 ^ 18))).setReg 289 (w64 (n * 2 ^ 48 + core * 2 ^ 12 + tag * 2 ^ 8 + 1))
    { d1 with uninitAt := cycle }

/-- CF_MODE.UNINIT as the engine of a tag sees it (04 R92, R95). -/
def Core.uninitTraps (k : Core) (tag : Nat) : Bool := bits (k.modeSeen tag) 0 1 == 1

/-- The writes of earlier store runs that have yet to land do so before a later access of the A path (06 R136, R138). -/
def Core.padLanded (k : Core) : Core :=
  k.late.foldl (fun k l => match l.act with
    | .pad a bs _ => { k.padWriteSome a bs with late := k.late.erase l }
    | _ => k) k

/-- What a read of the scratchpad by the engine of a tag answers: its bytes, the state with any warning, and the address
at which it takes #UNINIT (06 R126). -/
def State.padRead (s : State) (tag sa n : Nat) : State × List Byte × Option Nat :=
  let s := if tag = 1 then s.updMe Core.padLanded else s
  let k := s.me
  let bs := k.padBytes sa n
  match k.firstUnwritten sa n with
  | none => (s, bs, none)
  | some a =>
    if k.uninitTraps tag then (s, bs, some a)
    else (s.updDie s.myDie fun d => (k.unwritten sa n).foldl (fun d a => d.warnUninit s.actor tag a s.cycle) d, bs, none)

/-- Reads scratchpad bytes for an instruction, or takes #UNINIT (06 R126). -/
def withPad (s : State) (tag sa n : Nat) (f : List Byte → State → Res) : Res :=
  match s.padRead tag sa n with
  | (s, bs, none) => f bs s
  | (_, _, some a) => .fail .uninit (w64 a)

/-- An outstanding A.LDG fills bytes of a run (06 R138, R139). -/
def Core.filling (k : Core) (sa n : Nat) : Bool :=
  k.posted.any fun a => a.write.isNone && decide (a.pad < sa + n) && decide (sa < a.pad + 128)

/-! ## Ports and placed order -/

/-- The read ports, or 8 up the write ports, of the banks that a run of bytes touches (06 R124). -/
def portsOf (write : Bool) (sa n : Nat) : List Nat :=
  if n = 0 then []
  else ((List.range ((sa + n - 1) / 128 - sa / 128 + 1)).map fun j => (sa / 128 + j) % 8 + if write then 8 else 0).eraseDups

/-- The write ports of the cycle in which a store run that issues now writes, two cycles on (06 R124, R136). -/
def runPorts (sa n : Nat) : List Nat := (portsOf true sa n).map (· + 248)

/-- The write ports that the landing run of stream `g` takes. -/
def landedPorts (g sa n : Nat) : List Nat := (portsOf true sa n).map (· + 8 + 8 * g)

/-- Some of the ports serve another access in this cycle, a landing run of a stream among them (06 R124). -/
def Core.portTaken (k : Core) (ps : List Nat) : Bool :=
  ps.any fun p => k.ports.contains p ||
    (decide (8 ≤ p ∧ p < 16) && k.ports.any fun c => decide (16 ≤ c ∧ c < 256) && decide (c % 8 = p % 8))

/-- The ports serve an access in this cycle. -/
def Core.takePorts (k : Core) (ps : List Nat) : Core := { k with ports := ps ++ k.ports }

/-- The greatest lag among the core's agents that may still reach its memories: engines that have not reached the S word, active
streams, copies under way, epilogue writes (05 R119). -/
def Core.maxLag (k : Core) : Nat :=
  let es := (k.actives.filter fun t => (k.en t).parked.isNone).map fun t => (k.en t).lag
  let ss := k.streams.map fun p : Nat × Stream => if p.2.active then SMap.get 0 k.tagLag p.1 else 0
  let cs := k.kop.copies.map fun c => match c.tag with
    | some t => if c.landed then 0 else SMap.get 0 k.tagLag t
    | none => 0
  (es ++ ss ++ cs ++ k.late.map (·.lag)).foldl max 0

/-- In the timed part a unit of the core holds an access while one placed earlier may still reach it: the agent of the access
carries less lag than another (05 R119). -/
def Core.heldBack (k : Core) (lag : Nat) : Bool := k.leg.timed && decide (lag < k.maxLag)

/-- An access of an engine's word to the core's memories is held. -/
def Core.heldWord (k : Core) (t : Engine) : Bool := k.heldBack (k.en t).lag

/-! ## Queues -/

/-- A queue's entries, oldest first. -/
def Core.queue (k : Core) (q : Nat) : List QEntry := SMap.get [] k.queues q

/-- A core with one queue replaced. -/
def Core.setQueue (k : Core) (q : Nat) (es : List QEntry) : Core := { k with queues := SMap.set [] k.queues q es }

/-- Entries on their way to a queue, for which its writers have reserved room (07 R164). -/
def Core.dueIn (k : Core) (q : Nat) : Nat :=
  (k.late.map fun l => match l.act with
    | .push q' es _ _ => if q' = q then es.length else 0
    | .plane _ _ (some (q', _)) _ => if q' = q then 1 else 0
    | _ => 0).sum

/-- A queue has room for `n` more entries beside those on their way (06 R129, 07 R164). -/
def Core.room (k : Core) (q n : Nat) : Bool := decide ((k.queue q).length + k.dueIn q + n ≤ 16)

/-- Entries of a load queue the E engine can read: those pushed before this cycle (06 R136). -/
def Core.readable (k : Core) (q : Nat) : Nat := (k.queue q).length - k.fresh.count q

/-- An engine's word has an effect to come at a cycle. -/
def Core.later (k : Core) (t : Engine) (at_ : Nat) (x : LateDo) (lag : Nat := 0) : Core :=
  { k with late := k.late ++ [{ at_ := at_, eng := t, act := x, lag := lag }] }

/-- An entry of a stream is due and its queue has no room for it (06 R130). -/
def Core.overdue (k : Core) (g cycle : Nat) : Bool :=
  k.late.any fun l => decide (l.at_ ≤ cycle) && match l.act with
    | .push _ _ (some g') _ => decide (g' = g)
    | _ => false

/-- Writes to the scratchpad have yet to land. -/
def Core.padDue (k : Core) : Bool := k.late.any fun l => match l.act with | .pad _ _ _ => true | _ => false

/-- Pushes entries to a queue. -/
def Core.enqueue (k : Core) (q : Nat) (es : List QEntry) : Core := k.setQueue q (k.queue q ++ es)

/-- A queue entry whose elements all are enabled (06 R129). -/
def QEntry.full (fmt : Nat) (bs : List Byte) : QEntry := { fmt := fmt, bytes := bs, enable := 2 ^ 128 - 1 }

/-- Stream `g`. -/
def Core.stream (k : Core) (g : Nat) : Stream := SMap.get {} k.streams g

/-- A core with one stream replaced. -/
def Core.setStream (k : Core) (g : Nat) (x : Stream) : Core := { k with streams := SMap.put k.streams g x }

/-- A field of a descriptor (06 R131). -/
def Stream.fld (x : Stream) (i : Nat) : W64 := SMap.get 0 x.fields i

/-- The active stream bound to a queue (06 R142). -/
def Core.bound (k : Core) (q : Nat) : Bool := k.streams.any fun p => p.2.active && p.2.fld 16 == w64 q

end Sys2Proof.Machine
end

