-- ==== Sys2Proof/Machine/Fetch.lean ====
section
/-! DEFINITION. Engines over the shared text (02 R25-R40): the text store, where an engine stands, and what its turn
does before an instruction issues. -/

namespace Sys2Proof.Machine

/-- Up to `n` words of the text from an address; none when a row is not loaded. -/
def Text.words (x : Text) (a : Nat) : Nat → Option (List Half)
  | 0 => some []
  | n + 1 =>
    if x.len ≤ a then some []
    else match x.fetch a with
      | .word w => (x.words (a + 1) n).map (w :: ·)
      | _ => none

/-- Where an engine stands. -/
inductive Stand where
  /-- At a word of its own. -/
  | own (a : Nat)
  /-- At an S word. -/
  | sWord (a : Nat)
  /-- At C.BR, C.CALL or C.RET. -/
  | branch (a : Nat)
  /-- At a foreign word that ends the loop; `n` words long. -/
  | loopEnd (a n : Nat)
  /-- At a C.RECV that names it. -/
  | recv (a : Nat)
  /-- At a word whose row is not loaded, or is freed. -/
  | absent (a : Nat)
  | freed (a : Nat)
  /-- Past the last text word. -/
  | past
  deriving DecidableEq, Repr

/-- What stops an engine other than C at a C word (02 R33, 04 R87). -/
def cWordStop (t : Engine) (w : Half) (a : Nat) : Option Stand :=
  if isLiteral w then none
  else
    let op := opcOf w
    if op = 0x0E ∨ op = 0x0F ∨ op = 0x10 then some (.branch a)
    else if op = 0x13 ∧ w.toNat % 2 ^ 6 = t.tag then some (.recv a)
    else none

/-- The second word of a C instruction at an address lies in a text row that is not loaded: how far the instruction goes shows
only once that row is there (02 R27, R40). -/
def Text.cut (x : Text) (a : Nat) (w : Half) : Bool :=
  decide (tagOf w = 0) && decide (lenOf w = 2) && decide (a + 1 < x.len) &&
    match x.fetch (a + 1) with | .absent => true | _ => false

/-- Walks an engine over foreign words from `a`; `mid` when that is the second word of a C instruction. `cPc` is C's program
counter while the engine holds no outcome, and `stop` the loop end it meets next. -/
def Core.walk (k : Core) (t : Engine) (cPc : Option Nat) : Nat → Nat → Bool → Option Nat → Stand
  | 0, _, _, _ => .past
  | fuel + 1, a, mid, stop =>
    if k.text.len ≤ a then .past
    else match k.text.fetch a with
      | .absent => .absent a
      | .freed => .freed a
      | .word w =>
        let n := if mid then 1 else foreignLen k.text a w
        if tagOf w = 7 ∧ !mid then .sWord a
        else if tagOf w = t.tag ∧ !mid then .own a
        else if k.text.cut a w ∧ !mid then .absent a
        else match (if tagOf w = 0 ∧ !mid then cWordStop t w a else none) with
          | some st => st
          | none =>
            match within stop a n with
            | some _ => .loopEnd a n
            | none =>
              let passed := if mid then none else match cPc with
                | some c => if c ≤ a then k.text.loopAt a w else none
                | none => none
              Core.walk k t cPc fuel (a + n) false (match passed with | some x => some x | none => stop)

/-- The first C.RECV that names an engine of tag `tag` over `n` words from an address (04 R87). -/
def Text.recvIn (x : Text) (tag n a : Nat) : Option Nat :=
  ((x.cWords n a).find? fun p => opcOf p.2 == 0x13 && p.2.toNat % 2 ^ 6 == tag).map (·.1)

/-- Where an engine stands now: at a C.RECV before its first word, else where its program counter leads. -/
def Core.stand (k : Core) (t : Engine) : Stand :=
  let x := k.en t
  match k.text.recvIn t.tag x.lead (x.pc - x.lead) with
  | some a => .recv a
  | none =>
    k.walk t (if t = .c ∨ !x.steer.isEmpty then none else some (k.en .c).pc) (k.text.len - x.pc + 1) x.pc x.mid (k.stopOf t)

/-- The address a stand is at. -/
def Stand.addr (len : Nat) : Stand → Nat
  | .own a | .sWord a | .branch a | .loopEnd a _ | .recv a | .absent a | .freed a => a
  | .past => len

/-- A window that holds no word an engine stops at: none of its own, no S word, no steering word (02 R35). -/
def Core.windowEmpty (k : Core) (t : Engine) (win : Nat) : Bool :=
  (List.range 32).all fun j =>
    let a := 32 * win + j
    if k.text.len ≤ a then true
    else match k.text.fetch a with
      | .word w =>
        let steering := tagOf w == 0 && !isLiteral w && (opcOf w == 0x0E || opcOf w == 0x0F || opcOf w == 0x10)
          && !k.text.isExt a
        tagOf w != t.tag && tagOf w != 7 && !steering && k.stopOf t != some a
      | _ => true

/-- The window cost between the engine's last word and `a` (02 R35, 04 R70). -/
def Core.windowCost (k : Core) (t : Engine) (a : Nat) : Nat :=
  let lo := (k.en t).fromWin
  ((List.range (a / 32 - lo)).filter fun j => k.windowEmpty t (lo + j)).length

/-- The greatest progress the slip bound lets an engine reach (02 R36); none when no other engine is active. -/
def Core.slipLimit (k : Core) (t : Engine) : Option Nat :=
  (((k.actives.filter fun u => decide (u ≠ t)).map fun u => (k.en u).progress).min?).map (· + bits k.cf.slip 0 15)

/-- The engine would pass beyond the slip bound by moving on to progress `p` (02 R36). -/
def Core.slips (k : Core) (t : Engine) (p : Nat) : Bool :=
  match k.slipLimit t with
  | some l => decide (l < p)
  | none => false

/-- The `d` foreign words from an address on end between the two words of a C instruction. -/
def Text.splits (x : Text) : Nat → Nat → Bool → Bool
  | 0, _, mid => mid
  | d + 1, a, mid =>
    x.splits d (a + 1) (!mid && match x.fetch a with | .word w => decide (foreignLen x a w = 2) | _ => false)

/-- An engine on its way to address `a` moves as far as the slip bound lets it (02 R36). -/
def Core.creep (k : Core) (t : Engine) (a : Nat) : Core :=
  k.updEn t fun x =>
    let d := min (a - x.pc) ((k.slipLimit t).getD x.progress - x.progress)
    { x with pc := x.pc + d, progress := x.progress + d, mid := k.text.splits d x.pc x.mid, lead := 0 }

/-- The S word at an address takes effect in the cycle its rendezvous completes: S.LEG and S.SLACK (05 R113, R114); any
other does in the cycle after it (02 R29). -/
def Text.promptS (x : Text) (a : Nat) : Bool :=
  match x.fetch a with
  | .word w => w == 0xE080 || w == 0xE100
  | _ => false

/-- The engine may act in this cycle. -/
def Core.due (k : Core) (t : Engine) (cycle : Nat) : Bool :=
  let x := k.en t
  x.active && decide (x.nextIssue ≤ cycle) &&
    match x.parked with
    | none => true
    | some _ => decide (t = .c) &&
        k.actives.all fun u => match (k.en u).parked with
          | some p => decide (p < cycle) || (decide (p = cycle) && k.text.promptS x.pc)
          | none => false

/-- An engine other than C takes its oldest outcome (02 R33, 04 R70). -/
def Core.follow (k : Core) (t : Engine) (o : Steer) (passed : Nat) : Core :=
  k.updEn t fun x => { x with
    steer := x.steer.drop 1, endWait := false, pc := o.target, mid := false, progress := x.progress + passed
    nextIssue := max x.nextIssue o.notBefore
    fromWin := if o.target = x.pc + passed then max x.fromWin (o.addr / 32 + 1) else o.target / 32 }

/-- What a turn comes to: an instruction to run on a state, or a state. -/
inductive Act where
  | run (i : Instr) (s : State)
  | done (s : State)
  deriving DecidableEq, Repr

/-- Between its S.SIGN and the start of the next leg a core issues no word but S.LEG (05 R112). -/
def Core.signWait (k : Core) (cycle : Nat) : Bool :=
  k.leg.signed && k.leg.refused.isNone && !k.leg.ended &&
    (match k.leg.go with | none => true | some ts => decide (cycle + 1 < ts))

/-- Moves an engine to the address it stands at; to a C.RECV before its first word, by the words it has yet to pass. -/
def Core.moveTo (k : Core) (t : Engine) (a : Nat) : Core :=
  k.updEn t fun x =>
    if a < x.pc then { x with lead := x.pc - a }
    else { x with pc := a, progress := x.progress + (a - x.pc), mid := x.mid && a == x.pc, lead := 0 }

/-- The report an engine takes at a word: any at an S word, the others at a word of its own (06 R135; 13 R273; 14 R291). -/
def Core.reportAt (k : Core) (t : Engine) (atS : Bool) : Option Report :=
  k.reports.find? fun r => decide (r.eng = t) && (atS || !r.atS)

/-- An engine takes a report. -/
def takeReport (s : State) (r : Report) : State :=
  takeTrap (s.updMe fun k => { k with reports := k.reports.erase r }) r.eng.tag r.tpc r.cause r.tval

/-- A C.SEND to an engine that stands before address `a` and that C has not issued: the engine cannot issue the word there
(04 R86). -/
def Core.unsent (k : Core) (t : Engine) (a : Nat) : Bool :=
  (k.en t).steer.isEmpty && ((k.ahead a).any fun p => opcOf p.2 == 0x12 && p.2.toNat % 2 ^ 6 == t.tag)

/-- The operation that the F engine of a core waits for: it has issued the word at which it stands (14 R291). -/
def Core.farWaits (k : Core) : Bool := k.far.any fun o => o.block && decide (o.place = (k.en .f).place)

/-- The instruction at the address an engine of the acting core stands at. -/
def fetchAct (s : State) (t : Engine) (a : Nat) (stag : Bool) : Act :=
  let k := s.me
  match (if t = .f && !stag && k.farWaits then none else k.reportAt t stag) with
  | some r => .done (takeReport s r)
  | none =>
  match k.text.words a (k.text.lenAt a) with
  | none => .done (s.updMe fun k => k.stall t s.cycle)
  | some ws =>
    match decode ws with
    | .ok i =>
      if k.signWait s.cycle && decide (i ≠ .sLeg) then
        .done (s.updMe fun k => k.updEn t fun x => { x with nextIssue := s.cycle + 1 })
      else .run i s
    | .error _ => .run (.illegalWord (if stag then 7 else BitVec.ofNat 3 t.tag)) s

/-- One turn of an engine of the acting core, up to the instruction it issues (02 R33-R38). -/
def engineTurn (s : State) (t : Engine) : Act :=
  let k := s.me
  let x := k.en t
  if decide (k.run ≠ .running) || k.halted || !k.due t s.cycle
      || (allEngines.any fun u => decide (u.tag < t.tag) && k.due u s.cycle) then .done s
  else if x.endWait then
    match x.steer with
    | o :: _ => .done (s.setMe (if k.slips t (x.progress + 1) then k.stall t s.cycle else k.follow t o 1))
    | [] => .done (s.setMe (k.stall t s.cycle))
  else
    let st := k.stand t
    let a := st.addr k.text.len
    let there := x.progress + (a - x.pc)
    let moved := s.setMe (k.moveTo t a)
    let stalled := moved.updMe fun k => k.stall t s.cycle
    let e := k.windowCost t a
    if k.slips t there then .done (s.setMe ((k.creep t a).stall t s.cycle))
    else if e ≠ 0 then
      .done (moved.updMe fun k => k.updEn t fun x => { x with nextIssue := x.nextIssue + e, fromWin := a / 32 })
    else match st with
    | .own a =>
      if k.slips t (there + k.text.lenAt a) || k.unsent t a then .done stalled else fetchAct moved t a false
    | .sWord a =>
      match x.parked with
      | some _ => if t = .c then fetchAct moved t a true else .done s
      | none =>
        match k.reportAt t true with
        | some r => .done (takeReport moved r)
        | none => .done (moved.updMe fun k => k.updEn t fun x => { x with parked := some s.cycle })
    | .branch a =>
      let n := match k.text.fetch a with | .word w => foreignLen k.text a w | _ => 1
      match x.steer with
      | o :: _ => if k.slips t (there + n) then .done stalled else .done (moved.updMe fun k => k.follow t o n)
      | [] => .done stalled
    | .loopEnd _ n =>
      if k.slips t (there + n) then .done stalled
      else if t = .c then
        if k.steerFull then .done stalled else .done (moved.updMe fun k => k.advance .c n 1 s.cycle)
      else match x.steer with
        | o :: _ => .done (moved.updMe fun k => k.follow t o n)
        | [] => .done stalled
    | .recv _ => if k.slips t (there + 1) then .done stalled else .run (.recvHandoff t) moved
    | .absent _ => .done stalled
    | .freed a => .done (takeTrap moved t.tag a .ill 0)
    | .past => .done (takeTrap moved t.tag (k.text.len - 1) .ill (w64 k.text.len))

end Sys2Proof.Machine
end

