-- ==== Sys2Proof/Machine/Path.lean ====
section
/-! DEFINITION. The dynamic path of another engine (02 R33): the words it has still to issue before a place on the path. -/

namespace Sys2Proof.Machine

/-- The words of engine `t` from address `a`, at place `place`, up to the place `limit`, along its outcomes in `steer`. -/
def Text.coming (x : Text) (t : Engine) (limit : Nat) : Nat → Nat → Nat → List Steer → List Instr
  | 0, _, _, _ => []
  | fuel + 1, a, place, steer =>
    if limit ≤ place ∨ x.len ≤ a then []
    else match x.fetch a with
    | .word w =>
      let mine := tagOf w == t.tag
      let n := if mine then lenOf w else foreignLen x a w
      let here := if mine then
          (match x.words a (lenOf w) with
            | some ws => (match decode ws with | .ok i => [i] | .error _ => [])
            | none => [])
        else []
      let branch := tagOf w == 0 && !isLiteral w && (opcOf w == 0x0E || opcOf w == 0x0F || opcOf w == 0x10)
      match steer with
      | o :: rest =>
        if (branch && !o.loopEnd) || (o.loopEnd && decide (a ≤ o.addr) && decide (o.addr < a + n)) then
          here ++ x.coming t limit fuel o.target (place + n) rest
        else here ++ x.coming t limit fuel (a + n) (place + n) steer
      | [] => here ++ x.coming t limit fuel (a + n) (place + n) []
    | _ => []

/-- The words an active engine has still to issue before a place on the path. -/
def Core.coming (k : Core) (t : Engine) (limit : Nat) : List Instr :=
  let x := k.en t
  if !x.active then []
  else match x.endWait, x.steer with
    | true, o :: rest => k.text.coming t limit (limit - x.place + 1) o.target (x.place + 1) rest
    | _, st => k.text.coming t limit (limit - x.place + 1) x.pc x.place st

/-- Where the word that an engine of the core issues now stands on the path. -/
def Core.here (k : Core) (t : Engine) : Nat := (k.en t).place

end Sys2Proof.Machine
end

