-- ==== Sys2Proof/Machine/Tiles.lean ====
section
/-! DEFINITION. Accumulator tiles, slots and their order between engines (07 R161; 09 R198-R202, R216; 11 R246). -/

namespace Sys2Proof.Machine

/-- Tiles an M word writes (07 R161; 09 R206-R213). -/
def tilesWritten : Instr → List Nat
  | .mMma f k => if f = 6 then [k.toNat, k.toNat + 1] else [k.toNat]
  | .mTmma k | .mAccClear k | .mAccLoad k => [k.toNat]
  | .mAccClearpair k => [k.toNat, k.toNat + 1]
  | .mEpi z _ k _ a _ => if z = 1 then (if a = 2 then [k.toNat, k.toNat + 1] else [k.toNat]) else []
  | _ => []

/-- Tiles a follow-on command accumulates into (11 R245). -/
def Follow.tiles (f : Follow) : List Nat :=
  let k := f.w % 8
  if f.w / 64 % 64 = 6 ∧ f.w / 8 % 8 = 6 then [k, k + 1] else [k]

/-- A follow-on command that stands before a place on the path and has not started may touch some of the tiles, or, with
`plane`, the planes (11 R246). -/
def Core.followDue (k : Core) (tiles : List Nat) (plane : Bool) (limit : Nat) : Bool :=
  (k.kop.copies.any fun c => decide (c.place < limit) && !c.killed &&
    match c.follow with | some f => plane || f.tiles.any fun x => tiles.contains x | none => false) ||
  (let ks := k.coming .k limit
   ks.any (fun i => decide (i = .kCopy)) && (k.kop.follow.isSome || ks.any fun i => decide (i = .kFollow)))

/-- A follow-on command starts in this cycle: an M word that would issue in it waits (11 R246). -/
def Core.followNow (k : Core) (cycle : Nat) : Bool :=
  decide (k.mat.arrayAt ≤ cycle) &&
    k.kop.copies.any fun c => c.landed && !c.killed && c.follow.isSome && (k.coming .m c.place).isEmpty

/-- A follow-on command starts in this cycle, or has: it takes the cycle from an M word (11 R246). -/
def Core.followTakes (k : Core) (cycle : Nat) : Bool := k.followNow cycle || decide (cycle < k.mat.folAt)

/-- One turn of an engine: an M word that would issue in the cycle in which a follow-on command starts waits one cycle (11 R246). -/
def State.turnOf (s : State) (t : Engine) : Act :=
  match engineTurn s t with
  | .run i u => if t = .m && u.me.followTakes u.cycle then .done (u.updMe fun k => k.stall .m u.cycle) else .run i u
  | a => a

/-- A read of tiles by an engine must wait for an earlier write on the path, issued or not, to become visible (07 R161, 10 R226,
11 R246). -/
def Core.tilesPending (k : Core) (t : Engine) (tiles : List Nat) (cycle : Nat) : Bool :=
  !tiles.isEmpty &&
    ((tiles.any fun x => decide (cycle < SMap.get 0 k.mat.seen x)) || ((k.coming .m (k.here t)).any fun i => (tilesWritten i).any fun x => tiles.contains x) ||
      k.followDue tiles false (k.here t))

/-- Accumulator codes among operand codes. -/
def accTiles (codes : List Nat) : List Nat := (codes.filter fun c => decide (24 ≤ c)).map fun c => c - 24

/-- An earlier E instruction on the path may still read one of the tiles; under E.REP a lower code may step to it
(07 R161, R183). -/
def Core.eReads (k : Core) (tiles : List Nat) : Bool :=
  let es := k.coming .e (k.here .m)
  let rep := k.vec.rep.isSome || es.any fun i => match i with | .eRep _ _ => true | _ => false
  es.any fun i => (accTiles (codesOf i).srcs).any fun a =>
    tiles.any fun x => decide (a = x) || (rep && decide (a < x))

/-- An engine reads tiles over `n` beats (07 R161). -/
def Core.readTiles (k : Core) (tiles : List Nat) (until_ : Nat) : Core :=
  { k with mat := { k.mat with reads := tiles.foldl (fun m x => SMap.set 0 m x (max (SMap.get 0 m x) until_)) k.mat.reads } }

/-- Earlier W.RSTAT words on the path have yet to read one of the tiles. -/
def Core.wReads (k : Core) (tiles : List Nat) : Bool :=
  (k.coming .w (k.here .m)).any fun i => match i with | .wRstat _ x => tiles.contains x.toNat | _ => false

/-! ## Slots -/

/-- Bytes of a run of slots. -/
def Core.slotBytes (k : Core) (slot n : Nat) : List Byte := SMap.slice 0 k.mat.slots (512 * slot) (512 * n)

/-- Claim state of a slot. -/
def Core.claim (k : Core) (slot : Nat) : Nat := SMap.get 0 k.mat.claims slot

/-- The lowest slot of a run that an access may not use (09 R199). -/
def Core.badSlot (k : Core) (slot n : Nat) (write : Bool) : Option Nat :=
  ((List.range n).map (slot + ·)).find? fun x => decide (k.claim x = 0) || (write && decide (k.claim x ≠ 1))

/-- Writes slot bytes. -/
def Core.slotWrite (k : Core) (addr : Nat) (bs : List Byte) : Core :=
  { k with mat := { k.mat with slots := SMap.setRun 0 k.mat.slots addr bs } }

/-- Bytes of a tile. -/
def Core.tileBytes (k : Core) (tile n : Nat) : List Byte := SMap.slice 0 k.mat.acc (1024 * tile) n

/-- Bytes of operand memory from an address on with those that an option gives replaced. -/
def Core.slotSome (k : Core) (addr : Nat) : List (Option Byte) → Core
  | [] => k
  | b :: bs => Core.slotSome (match b with | some x => k.slotWrite addr [x] | none => k) (addr + 1) bs

/-- Another engine's read of a slot has been issued and not completed: a submitted copy's, an issued collective's
(09 R199-R201). -/
def Core.slotRead (k : Core) (slot : Nat) : Bool :=
  (k.kop.copies.any fun c => !c.landed && c.reads.contains slot) || (k.colls.any fun c => !c.done && c.reads.contains slot)

/-- Another engine's write of a slot has been issued and not completed (09 R199-R201). -/
def Core.slotWritten (k : Core) (slot : Nat) : Bool :=
  (k.kop.copies.any fun c => !c.landed && c.writes.contains slot) || (k.colls.any fun c => !c.done && c.writes.contains slot)

/-- An M.EPI's write to some slot of a range has yet to land (09 R216). -/
def Core.epiDue (k : Core) (slot n : Nat) : Bool :=
  k.late.any fun l => match l.act with
    | .slots a bs => decide (a < 512 * (slot + n)) && decide (512 * slot < a + bs.length)
    | _ => false

end Sys2Proof.Machine
end

