-- ==== Sys2Proof/Machine/Vector.lean ====
section
/-! DEFINITION. The execute engine (07 R154-R185): shape, operands, mask, and every E word but the conversions. -/

namespace Sys2Proof.Machine

/-! ## Shape -/

/-- What SHP gives an instruction (07 R154, R155). -/
structure Shape where
  rows : Nat
  cols : Nat
  fmt : Nat
  deriving DecidableEq, Repr

/-- The shape of a SHP value. -/
def shapeOf (v : W64) : Shape := { rows := bits v 8 4 + 1, cols := bits v 16 7 + 1, fmt := bits v 0 5 }

/-- Elements, their bytes, and the beats of an instruction (07 R157). -/
def Shape.n (x : Shape) : Nat := x.rows * x.cols
def Shape.eb (x : Shape) : Nat := fmtBytes x.fmt
def beatsOf (bytes : Nat) : Nat := (bytes + 127) / 128
def Shape.beats (x : Shape) : Nat := beatsOf (x.n * x.eb)

/-- The format has an element width and is assigned (07 R155). -/
def Shape.ok (x : Shape) : Bool := decide (x.fmt < 16) && x.fmt != 13

/-- The execute engine's registers of the acting core changed. -/
def State.updVec (s : State) (f : Vec → Vec) : State := s.updMe fun k => { k with vec := f k.vec }

/-! ## Sources and destinations -/

/-- Elements of `w` bytes from bytes. -/
def elemsOf (w : Nat) : Nat → List Byte → List Nat
  | 0, _ => []
  | n + 1, bs => leNat (bs.take w) :: elemsOf w n (bs.drop w)

/-- How many entries the codes pop from a load queue, in namings. -/
def namings (codes : List Nat) (q : Nat) : Nat := (codes.filter fun c => decide (c = 16 + q)).length

/-- Every entry the codes pop is present (07 R157, R160). -/
def Core.entriesReady (k : Core) (codes : List Nat) (b : Nat) : Bool :=
  (List.range 4).all fun q => decide (namings codes q * b ≤ k.readable q)

/-- Every entry the codes pop carries the format (07 R157). -/
def Core.tagsMatch (k : Core) (codes : List Nat) (b fmt : Nat) : Bool :=
  (List.range 4).all fun q => ((k.queue q).take (namings codes q * b)).all fun e => decide (e.fmt = fmt)

/-- Reads one source as `n` elements (07 R157). -/
def Core.readSource (k : Core) (sh : Shape) (code : Nat) : List Nat × Core :=
  let bytes := sh.n * sh.eb
  match operandOf code with
  | .v r => (elemsOf sh.eb sh.n (SMap.slice 0 k.vec.v (1024 * r) bytes), k)
  | .lq q =>
    (elemsOf sh.eb sh.n (((k.queue q).take sh.beats).flatMap (·.bytes)), k.setQueue q ((k.queue q).drop sh.beats))
  | .ps =>
    let st := (k.en .e).stack
    (List.replicate sh.n ((st.getD 0 0).toNat % 2 ^ (8 * sh.eb)), k.updEn .e fun x => { x with stack := x.stack.drop 1 })
  | .acc t => (elemsOf sh.eb sh.n (k.tileBytes t bytes), k)
  | _ => (List.replicate sh.n 0, k)

/-- Reads the sources in order (02 R44). -/
def Core.readSources (k : Core) (sh : Shape) : List Nat → List (List Nat) × Core
  | [] => ([], k)
  | c :: cs =>
    let r := k.readSource sh c
    let rs := r.2.readSources sh cs
    (r.1 :: rs.1, rs.2)

/-- Writes the elements of `w` bytes that are not none to a register (07 R158). -/
def putElems (w : Nat) : Nat → List (Option Nat) → SMap Byte → SMap Byte
  | _, [], m => m
  | a, x :: xs, m =>
    putElems w (a + w) xs (match x with | some v => SMap.setRun 0 m a (leBytes v w) | none => m)

/-- The store-queue entries of a list of elements (07 R158). -/
def sqEntries (fmt w : Nat) : Nat → List (Option Nat) → List QEntry
  | 0, _ => []
  | n + 1, xs =>
    let per := 128 / w
    let here := xs.take per
    let bytes := here.flatMap (fun x => leBytes (x.getD 0) w)
    { fmt := fmt, bytes := bytes ++ List.replicate (128 - bytes.length) 0,
      enable := (here.mapIdx fun i x => if x.isSome then 2 ^ i else 0).sum } :: sqEntries fmt w n (xs.drop per)

/-- Entries a destination of `n` elements takes. -/
def entriesFor (w n : Nat) : Nat := beatsOf (n * w)

/-- Writes a destination whose result stands, or whose entries are pushed, at a cycle (07 R158, R163). -/
def Core.writeDest (k : Core) (code fmt w : Nat) (xs : List (Option Nat)) (at_ : Nat) : Core :=
  match operandOf code with
  | .v r =>
    let regs := (List.range ((xs.length * w + 1023) / 1024)).map (r + ·)
    { k with vec := { k.vec with v := putElems w (1024 * r) xs k.vec.v }.readyAt regs at_ }
  | .sq q => k.later .e at_ (.push (4 + q) (sqEntries fmt w (entriesFor w xs.length) xs) none 0)
  | _ => k

/-- A destination queue has room (07 R164). -/
def Core.destRoom (k : Core) (code w n : Nat) : Bool :=
  match operandOf code with
  | .sq q => k.room (4 + q) (entriesFor w n)
  | _ => true

/-- What the mask leaves of a result: elements to write, and whether one of them saturated (07 R156, R158). -/
def masked (x : Vec) (p : BitVec 1) (rs : List (Option (Nat × Bool))) : List (Option Nat) × Bool :=
  let keep := rs.mapIdx fun i r => if p = 0 ∨ x.em.getLsbD i then r else none
  (keep.map fun r => r.map (·.1), keep.any fun r => match r with | some v => v.2 | none => false)

/-- An earlier W.RSTAT on the path has yet to write a register (10 R226). -/
def Core.rstatDue (k : Core) : Bool :=
  (k.coming .w (k.here .e)).any fun i => match i with | .wRstat _ _ => true | _ => false

/-- An instruction names a V register. -/
def Vec.touchesV (x : Vec) (i : Instr) : Bool := (x.touches i).any fun r => decide (r < 16)

/-- The waits and checks of steps 3 and 4 of R160, then the sources: `f` gets their elements. -/
def withSources (i : Instr) (sh : Shape) (dw dn : Nat) (f : List (List Nat) → State → Res) (s : State) : Res :=
  let k := s.me
  let c := k.vec.codes i
  if !stackFits (s.stack .e) (c.srcs.filter fun x => decide (x = 22)).length 0 then .fail .stk 0
  else if (k.vec.touchesV i && k.rstatDue) || k.tilesPending .e (accTiles c.srcs) s.cycle then .hold s
  else if !k.entriesReady c.srcs sh.beats then .wait s
  else if !k.tagsMatch c.srcs sh.beats sh.fmt then .fail .ill 0
  else if !(match c.dst with | some d => k.destRoom d dw dn | none => true) then .wait s
  else
    let r := k.readSources sh c.srcs
    f r.1 (s.setMe (r.2.readTiles (accTiles c.srcs) (s.cycle + sh.beats)))

/-- What distinguishes an E instruction of layout E with one destination. -/
structure EForm where
  i : Instr
  p : BitVec 1
  /-- Formats it accepts (07 R165). -/
  fmts : Nat → Bool
  /-- Further limits on the shape. -/
  bad : Shape → Bool := fun _ => false
  /-- Format and element bytes of the destination, from SHP's format. -/
  dfmt : Nat → Nat := fun f => f
  dw : Nat → Nat := fmtBytes
  /-- Elements of the destination. -/
  dn : Shape → Nat := Shape.n
  /-- Occupancy (07 R163). -/
  occ : Shape → Nat
  /-- Latency (07 R163). -/
  lat : Shape → Nat
  /-- Results by destination index; none where no result stands. -/
  f : Shape → List (List Nat) → List (Option (Nat × Bool))

/-- An E instruction of layout E (07 R157-R160). -/
def runE (x : EForm) (s : State) : Out :=
  issueN .e x.i (fun s => x.occ (shapeOf s.me.vec.shp)) (fun s =>
    let sh := shapeOf s.me.vec.shp
    if !sh.ok || !x.fmts sh.fmt || x.bad sh then .fail .ill 0
    else withSources x.i sh (x.dw sh.fmt) (x.dn sh) (fun srcs s =>
      let c := s.me.vec.codes x.i
      let r := masked s.me.vec x.p (x.f sh srcs)
      let s := s.stickIf r.2 0
      .ok (s.updMe fun k => k.writeDest (c.dst.getD 0) (x.dfmt sh.fmt) (x.dw sh.fmt) r.1 (s.cycle + x.lat sh))) s) s

/-! ## Formats by opcode (07 R165) -/

/-- Fl. -/
def fmtFl (f : Nat) : Bool := decide (f ≤ 3)
/-- Every format with an element width. -/
def fmtAll (f : Nat) : Bool := decide (f < 16) && f != 13
/-- Formats of MIN, MAX, CMP and RED. -/
def fmtNum (f : Nat) : Bool := decide (f ≤ 3) || isInt f || f == 14
/-- Formats of IADD and SHIFT. -/
def fmtIntFx (f : Nat) : Bool := isInt f || f == 14
/-- Formats of MOV neg and abs. -/
def fmtSigned (f : Nat) : Bool := decide (f ≤ 5) || decide (6 ≤ f ∧ f ≤ 9) || f == 14
/-- Formats of IMUL wide. -/
def fmtWide (f : Nat) : Bool := f == 6 || f == 7 || f == 8 || f == 10 || f == 11

/-! ## Element functions -/

/-- Elementwise over one, two and three sources. -/
def map1 (g : Nat → Nat → Nat × Bool) (sh : Shape) (xs : List (List Nat)) : List (Option (Nat × Bool)) :=
  (xs.getD 0 []).map fun a => some (g sh.fmt a)
def map2 (g : Nat → Nat → Nat → Nat × Bool) (sh : Shape) (xs : List (List Nat)) : List (Option (Nat × Bool)) :=
  List.zipWith (fun a b => some (g sh.fmt a b)) (xs.getD 0 []) (xs.getD 1 [])
def map3 (g : Nat → Nat → Nat → Nat → Nat × Bool) (sh : Shape) (xs : List (List Nat)) : List (Option (Nat × Bool)) :=
  List.zipWith (fun (ab : Nat × Nat) c => some (g sh.fmt ab.1 ab.2 c)) (List.zip (xs.getD 0 []) (xs.getD 1 []))
    (xs.getD 2 [])

/-- E.MOV (07 R171). -/
def movElem (m f a : Nat) : Nat × Bool :=
  let w := fmtBits f
  if m = 0 then (a, false)
  else if isFloat f then
    let sign := a / 2 ^ (w - 1) % 2
    (if m = 1 then (if sign = 1 then a - 2 ^ (w - 1) else a + 2 ^ (w - 1)) else a - sign * 2 ^ (w - 1), false)
  else saturate f (if m = 1 then -signedOf w a else Int.ofNat (signedOf w a).natAbs)

/-- The signed or unsigned reading of an element by its format. -/
def intOf (f a : Nat) : Int := if isSigned f then signedOf (fmtBits f) a else Int.ofNat a

/-- E.ADD, SUB, MUL and DIV: the exact value rounded (07 R167). -/
def arithElem (op : Mode → Val → Val → Val) (m : Mode) (f a b : Nat) : Nat × Bool :=
  round (op m (valueOf f a) (valueOf f b)) f m

/-- E.FMA (07 R168). -/
def fmaElem (neg : Bool) (m : Mode) (f a b c : Nat) : Nat × Bool :=
  let p := Val.mul (valueOf f a) (valueOf f b)
  round (Val.add m (if neg then p.neg else p) (valueOf f c)) f m

/-- E.MIN and E.MAX (07 R170): the chosen operand's bits, a between equals. -/
def minMaxElem (max num : Bool) (f a b : Nat) : Nat :=
  let x := valueOf f a
  let y := valueOf f b
  if x.isNan || y.isNan then
    if num && !(x.isNan && y.isNan) then (if x.isNan then b else a) else canonNan f
  else if max then (if Val.lt true x y then b else a)
  else (if Val.lt true y x then b else a)

/-- E.CMP's conditions: eq, ne, lt, le, gt, ge, uo (07 R172). -/
def cmpHolds (c : Nat) (x y : Val) : Bool :=
  if x.isNan || y.isNan then c == 1 || c == 6
  else
    let lt := Val.lt false x y
    let gt := Val.lt false y x
    match c with
    | 0 => !lt && !gt
    | 1 => lt || gt
    | 2 => lt
    | 3 => !gt
    | 4 => gt
    | 5 => !lt
    | _ => false

/-- E.IADD (07 R174). -/
def iaddElem (m f a b : Nat) : Nat × Bool :=
  let v := if m % 2 = 1 then intOf f a - intOf f b else intOf f a + intOf f b
  if m < 2 then (intBits f v, false) else saturate f v

/-- E.IMUL lo, hi and sat (07 R175). -/
def imulElem (m f a b : Nat) : Nat × Bool :=
  let v := intOf f a * intOf f b
  match m with
  | 0 => (intBits f v, false)
  | 1 => (intBits f (Int.fdiv v (2 ^ fmtBits f)), false)
  | 2 => saturate f v
  | _ => ((v % 2 ^ (2 * fmtBits f)).toNat, false)

/-- E.LOGIC (07 R176). -/
def logicElem (m f a b : Nat) : Nat :=
  let all := 2 ^ fmtBits f - 1
  match m with
  | 0 => a &&& b
  | 1 => a ||| b
  | 2 => a ^^^ b
  | 3 => a &&& (all - b)
  | _ => all - a

/-- E.SHIFT (07 R177). -/
def shiftElem (m f a b : Nat) : Nat :=
  let w := fmtBits f
  match m with
  | 0 => if w ≤ b then 0 else a * 2 ^ b % 2 ^ w
  | 1 => if w ≤ b then 0 else a / 2 ^ b
  | 2 => (Int.fdiv (signedOf w a) (2 ^ min b (w - 1)) % 2 ^ w).toNat
  | _ => (a * 2 ^ (b % w) + a / 2 ^ (w - b % w)) % 2 ^ w

/-- Occupancy of DIV and SQRT (07 R163). -/
def divOcc (sh : Shape) : Nat := if sh.fmt = 0 then 8 * sh.beats else 2 * sh.beats

/-- Latency of DIV and SQRT (07 R163). -/
def divLat (sh : Shape) : Nat := if sh.fmt = 0 then 24 + 8 * sh.beats else 12 + 2 * sh.beats

/-- The least k with 2^k at least n. -/
def log2Up (n : Nat) : Nat := if n ≤ 1 then 0 else Nat.log2 (n - 1) + 1

/-! ## Elementwise words -/

/-- E.MOV (07 R171). -/
def execEMov (d : BitVec 5) (p : BitVec 1) (a : BitVec 5) (m : BitVec 3) (s : State) : Out :=
  runE { i := .eMov d p a m, p := p, fmts := if m = 0 then fmtAll else fmtSigned, occ := Shape.beats, lat := fun sh => 4 + sh.beats
         f := map1 (movElem m.toNat) } s

/-- E.ADD (07 R167). -/
def execEAdd (d : BitVec 5) (p : BitVec 1) (a b : BitVec 5) (r : BitVec 2) (s : State) : Out :=
  runE { i := .eAdd d p a b r, p := p, fmts := fmtFl, occ := Shape.beats, lat := fun sh => 4 + sh.beats
         f := map2 (arithElem Val.add (modeOf r.toNat)) } s

/-- E.SUB (07 R167). -/
def execESub (d : BitVec 5) (p : BitVec 1) (a b : BitVec 5) (r : BitVec 2) (s : State) : Out :=
  runE { i := .eSub d p a b r, p := p, fmts := fmtFl, occ := Shape.beats, lat := fun sh => 4 + sh.beats
         f := map2 (arithElem (fun m x y => Val.add m x y.neg) (modeOf r.toNat)) } s

/-- E.MUL (07 R167). -/
def execEMul (d : BitVec 5) (p : BitVec 1) (a b : BitVec 5) (r : BitVec 2) (s : State) : Out :=
  runE { i := .eMul d p a b r, p := p, fmts := fmtFl, occ := Shape.beats, lat := fun sh => 6 + sh.beats
         f := map2 (arithElem (fun _ x y => Val.mul x y) (modeOf r.toNat)) } s

/-- E.DIV (07 R167). -/
def execEDiv (d : BitVec 5) (p : BitVec 1) (a b : BitVec 5) (r : BitVec 2) (s : State) : Out :=
  runE { i := .eDiv d p a b r, p := p, fmts := fmtFl, occ := divOcc, lat := divLat
         f := map2 (arithElem (fun _ x y => Val.div x y) (modeOf r.toNat)) } s

/-- E.FMA (07 R168). -/
def execEFma (d : BitVec 5) (p : BitVec 1) (a b : BitVec 5) (neg : BitVec 1) (r : BitVec 2) (c : BitVec 5) (s : State) : Out :=
  runE { i := .eFma d p a b neg r c, p := p, fmts := fmtFl, occ := Shape.beats, lat := fun sh => 6 + sh.beats
         f := map3 (fmaElem (neg == 1) (modeOf r.toNat)) } s

/-- E.SQRT (07 R169). -/
def execESqrt (d : BitVec 5) (p : BitVec 1) (a : BitVec 5) (r : BitVec 2) (s : State) : Out :=
  runE { i := .eSqrt d p a r, p := p, fmts := fmtFl, occ := divOcc, lat := divLat
         f := map1 (fun f a => round (valueOf f a).sqrt f (modeOf r.toNat)) } s

/-- E.MIN (07 R170). -/
def execEMin (d : BitVec 5) (p : BitVec 1) (a b : BitVec 5) (n : BitVec 1) (s : State) : Out :=
  runE { i := .eMin d p a b n, p := p, fmts := fun f => fmtNum f && (n == 0 || !isInt f), occ := Shape.beats, lat := fun sh => 4 + sh.beats
         f := map2 (fun f a b => (minMaxElem false (n == 1) f a b, false)) } s

/-- E.MAX (07 R170). -/
def execEMax (d : BitVec 5) (p : BitVec 1) (a b : BitVec 5) (n : BitVec 1) (s : State) : Out :=
  runE { i := .eMax d p a b n, p := p, fmts := fun f => fmtNum f && (n == 0 || !isInt f), occ := Shape.beats, lat := fun sh => 4 + sh.beats
         f := map2 (fun f a b => (minMaxElem true (n == 1) f a b, false)) } s

/-- E.CMP (07 R172). -/
def execECmp (d : BitVec 5) (p : BitVec 1) (a b : BitVec 5) (c : BitVec 3) (s : State) : Out :=
  runE { i := .eCmp d p a b c, p := p, fmts := fun f => fmtNum f && (c != 6 || !isInt f), occ := Shape.beats, lat := fun sh => 4 + sh.beats
         f := map2 (fun f a b =>
           (if cmpHolds c.toNat (valueOf f a) (valueOf f b) then 2 ^ fmtBits f - 1 else 0, false)) } s

/-- E.SELECT (07 R173). -/
def execESelect (d : BitVec 5) (p : BitVec 1) (a b c : BitVec 5) (s : State) : Out :=
  runE { i := .eSelect d p a b c, p := p, fmts := fmtAll, occ := Shape.beats, lat := fun sh => 4 + sh.beats
         f := map3 (fun _ a b c => (if c ≠ 0 then a else b, false)) } s

/-- E.IADD (07 R174). -/
def execEIadd (d : BitVec 5) (p : BitVec 1) (a b : BitVec 5) (m : BitVec 3) (s : State) : Out :=
  runE { i := .eIadd d p a b m, p := p, fmts := fmtIntFx, occ := Shape.beats, lat := fun sh => 4 + sh.beats, f := map2 (iaddElem m.toNat) } s

/-- E.IMUL (07 R175). -/
def execEImul (d : BitVec 5) (p : BitVec 1) (a b : BitVec 5) (m : BitVec 3) (s : State) : Out :=
  runE { i := .eImul d p a b m, p := p, fmts := if m = 3 then fmtWide else isInt
         occ := fun sh => if m = 3 then 2 * sh.beats else sh.beats
         lat := fun sh => 5 + (if m = 3 then 2 * sh.beats else sh.beats)
         dfmt := fun f => if m = 3 then f + 1 else f
         dw := fun f => if m = 3 then 2 * fmtBytes f else fmtBytes f
         f := map2 (imulElem m.toNat) } s

/-- E.LOGIC (07 R176). -/
def execELogic (d : BitVec 5) (p : BitVec 1) (a b : BitVec 5) (m : BitVec 3) (s : State) : Out :=
  runE { i := .eLogic d p a b m, p := p, fmts := fmtAll, occ := Shape.beats, lat := fun sh => 4 + sh.beats
         f := if m = 4 then map1 (fun f a => (logicElem 4 f a 0, false))
              else map2 (fun f a b => (logicElem m.toNat f a b, false)) } s

/-- E.SHIFT (07 R177). -/
def execEShift (d : BitVec 5) (p : BitVec 1) (a b : BitVec 5) (m : BitVec 3) (s : State) : Out :=
  runE { i := .eShift d p a b m, p := p, fmts := fmtIntFx, occ := Shape.beats, lat := fun sh => 4 + sh.beats
         f := map2 (fun f a b => (shiftElem m.toNat f a b, false)) } s

/-- E.SFN (07 R181). -/
def execESfn (d : BitVec 5) (p : BitVec 1) (a : BitVec 5) (g : BitVec 2) (s : State) : Out :=
  runE { i := .eSfn d p a g, p := p, fmts := fun f => decide (1 ≤ f ∧ f ≤ 3), occ := fun sh => 2 * sh.beats, lat := fun sh => 10 + 2 * sh.beats
         f := map1 (fun f a => round (sfn g.toNat (valueOf f a)) f .rne) } s

/-! ## Reduction, transposition, permutation -/

/-- One reduction: sum by the canonical tree, max, min (07 R178). -/
def reduceElems (o f : Nat) (xs : List Nat) : Nat × Bool :=
  if o = 0 then canonicalSum f xs
  else match xs with
    | [] => (0, false)
    | [x] => (if (valueOf f x).isNan then canonNan f else x, false)
    | x :: rest => (rest.foldl (fun a b => minMaxElem (o == 1) false f a b) x, false)

/-- Results at the given destination indices, none elsewhere. -/
def scatter (n : Nat) (rs : List (Nat × Nat × Bool)) : List (Option (Nat × Bool)) :=
  (List.range n).map fun i => (rs.find? fun r => decide (r.1 = i)).map (·.2)

/-- E.RED (07 R178). -/
def execERed (d : BitVec 5) (p : BitVec 1) (a : BitVec 5) (x : BitVec 1) (o : BitVec 2) (s : State) : Out :=
  runE { i := .eRed d p a x o, p := p, fmts := fmtNum, occ := Shape.beats
         lat := fun sh => 6 + sh.beats + 2 * log2Up (if x = 0 then sh.cols else sh.rows)
         f := fun sh xs =>
           let v := xs.getD 0 []
           if x = 0 then scatter sh.n ((List.range sh.rows).map fun r =>
             (r * sh.cols, reduceElems o.toNat sh.fmt ((v.drop (r * sh.cols)).take sh.cols)))
           else scatter sh.n ((List.range sh.cols).map fun c =>
             (c, reduceElems o.toNat sh.fmt ((List.range sh.rows).map fun r => v.getD (r * sh.cols + c) 0))) } s

/-- E.XPOSE (07 R179). -/
def execEXpose (d : BitVec 5) (p : BitVec 1) (a : BitVec 5) (s : State) : Out :=
  runE { i := .eXpose d p a, p := p, fmts := fmtAll, occ := Shape.beats, lat := fun sh => 6 + 2 * sh.beats
         f := fun sh xs => (List.range sh.n).map fun j =>
           some ((xs.getD 0 []).getD (j % sh.rows * sh.cols + j / sh.rows) 0, false) } s

/-- The source index of an element under E.PERM's rowb, colb and rot (07 R180). -/
def permIndex (m sub : Nat) (sh : Shape) (i : Nat) : Nat :=
  let r := i / sh.cols
  let c := i % sh.cols
  match m with
  | 1 => sub * sh.cols + c
  | 2 => r * sh.cols + sub
  | _ => r * sh.cols + (c + sub) % sh.cols

/-- E.PERM (07 R180). -/
def execEPerm (d : BitVec 5) (p : BitVec 1) (a b : BitVec 5) (m : BitVec 3) (c : BitVec 5) (sub : BitVec 8) (s : State) : Out :=
  runE { i := .ePerm d p a b m c sub, p := p, fmts := fmtAll, occ := Shape.beats
         bad := fun sh => (m == 1 && decide (sh.rows ≤ sub.toNat)) || (decide (2 ≤ m.toNat) && decide (sh.cols ≤ sub.toNat))
         f := fun sh xs =>
           let v := xs.getD 0 []
           if m = 0 then
             List.zipWith (fun j k => some (if j < sh.n then v.getD j 0 else k, false)) (xs.getD 1 []) (xs.getD 2 [])
           else (List.range sh.n).map fun i => some (v.getD (permIndex m.toNat sub.toNat sh i) 0, false)
         lat := fun sh => 5 + sh.beats } s

/-! ## Shape, repetition, queue words -/

/-- Bits of SHP that are assigned (07 R155). -/
abbrev shpMask : W64 := 0x7F0F1F

/-- E.SHAPE (07 R182). -/
def execEShape (s : State) : Out :=
  issue .e .eShape 1 (popping .e 1 0 fun vs s =>
    let v := vs.getD 0 0
    let sh := shapeOf v
    if v &&& ~~~ shpMask ≠ 0 ∨ (sh.ok ∧ 1024 < sh.n * sh.eb) then .fail .ill 0
    else .ok (s.updVec fun x => { x with shp := v })) s

/-- E.SHAPE get (07 R182). -/
def execEShapeGet (s : State) : Out :=
  issue .e .eShapeGet 1 (popping .e 0 1 fun _ s => .ok (pushing .e [s.me.vec.shp] s)) s

/-- E.REP (07 R183). -/
def execERep (m : BitVec 2) (n : BitVec 4) (s : State) : Out :=
  issue .e (.eRep m n) 1 (fun s =>
    .ok (s.updVec fun x => { x with rep := some { n := n.toNat + 1, mode := m.toNat, k := 0 } })) s

/-- The load queue an active stream fills is closed to E.XQ count, drop and peek (07 R185). -/
def xqClosed (k : Core) (a : Nat) : Bool := decide (a < 20) && k.bound (a - 16)

/-- E.XQ (07 R185). In the cycle in which an entry is pushed into a queue, drop does not see it yet and count does: DESIGN CHOICE, the
spec does not say (log entry 100). -/
def execEXq (d : BitVec 5) (p : BitVec 1) (a : BitVec 5) (m : BitVec 3) (s : State) : Out :=
  issueN .e (.eXq d p a m) (fun s => if m = 2 then (shapeOf s.me.vec.shp).beats else 1) (fun s =>
    let k := s.me
    let sh := shapeOf k.vec.shp
    let q := a.toNat - 16
    match m.toNat with
    | 0 =>
      if xqClosed k a.toNat then .fail .ill 0
      else popping .e 0 1 (fun _ s => .ok (pushing .e [w64 (s.me.queue q).length] s)) s
    | 1 =>
      if xqClosed k a.toNat then .fail .ill 0
      else if s.me.readable q = 0 then .ok s else .ok (s.updMe fun k => k.setQueue q ((k.queue q).drop 1))
    | 2 =>
      if xqClosed k a.toNat || !sh.ok then .fail .ill 0
      else if k.rstatDue then .hold s
      else if k.readable q < sh.beats then .wait s
      else if !k.tagsMatch [a.toNat] sh.beats sh.fmt then .fail .ill 0
      else
        let es := elemsOf sh.eb sh.n (((k.queue q).take sh.beats).flatMap (·.bytes))
        let r := masked k.vec p (es.map fun e => some (e, false))
        .ok (s.updMe fun k => k.writeDest d.toNat sh.fmt sh.eb r.1 (s.cycle + 4 + sh.beats))
    | _ =>
      if !sh.ok then .fail .ill 0
      else popping .e 1 1 (fun vs s =>
        let j := (vs.getD 0 0).toNat
        if sh.n ≤ j then .fail .ill 0
        else if (decide (a.toNat < 16) && s.me.rstatDue) || s.me.tilesPending .e (accTiles [a.toNat]) s.cycle then .hold s
        else
          let es := (s.me.readSource sh a.toNat).1
          .ok ((pushing .e [w64 (es.getD j 0)] s).updMe fun k =>
            { k.readTiles (accTiles [a.toNat]) (s.cycle + 1) with vec := k.vec.readyAt [17] (s.cycle + 4) })) s) s

end Sys2Proof.Machine
end

