-- ==== Sys2Proof/Machine/Convert.lean ====
section
/-! DEFINITION. Conversions and quantisation (08 R187-R195): E.CVT, E.AMAX, E.QUANT, E.TPACK and E.MASK. -/

namespace Sys2Proof.Machine

/-! ## E.CVT -/

/-- A value rounded to an integral value, the sign of a zero kept (08 R189). -/
def integral (m : Mode) (v : Val) : Val :=
  match v with
  | .fin neg n d => .fin neg (roundDiv m neg n d) 1
  | v => v

/-- 2^n with n far beyond every format's range cut to a bound that rounds alike (08 R189). -/
def scaleBy (v : Val) (n : Int) : Val := v.scale (max (-8192) (min 8192 n))

/-- The value an element converts to, before its one rounding (08 R189). -/
def cvtValue (o : Nat) (m : Mode) (x : Val) (ps : Option W64) : Val :=
  match o, ps with
  | 0, some w => Val.mul x (valueOf 1 (w.toNat % 2 ^ 32))
  | 0, none => x
  | 1, _ => integral m x
  | _, some w => scaleBy x w.toInt
  | _, none => x

/-- AMAX after one element's source value (08 R190). -/
def amaxStep (m : Nat) (x : Val) : Nat :=
  let u := (round x.abs 1 .ru).1
  if (valueOf 1 m).isNan || (valueOf 1 u).isNan then canonNan 1 else max m u

/-- E.CVT (08 R187-R190). -/
def execECvt (d : BitVec 5) (p : BitVec 1) (a b : BitVec 5) (r : BitVec 2) (o : BitVec 3) (f : BitVec 5) (s : State) : Out :=
  let df := f.toNat
  let i := Instr.eCvt d p a b r o f
  issueN .e i (fun s => let sh := shapeOf s.me.vec.shp; max sh.beats (beatsOf (sh.n * fmtBytes df))) (fun s =>
    let sh := shapeOf s.me.vec.shp
    if !sh.ok || (o != 0 && sh.fmt != df) || 1024 < sh.n * fmtBytes df then .fail .ill 0
    else
      let c := s.me.vec.codes i
      let usesPs := o ≠ 1 ∧ b = 22
      -- the last naming of PS gives the scale; it is the top once the others have been popped
      withSources i sh (fmtBytes df) sh.n (fun srcs s' =>
        let pops := ((c.srcs.take 1).filter fun x => decide (x = 22)).length
        let ps := if usesPs then some ((s.stack .e).getD pops 0) else none
        let xs := (srcs.getD 0 []).map fun v => valueOf sh.fmt v
        let rs := xs.map fun x => some (round (cvtValue o.toNat (modeOf r.toNat) x ps) df (modeOf r.toNat))
        let k := s'.me
        let w := masked k.vec p rs
        let seen := (List.zip xs w.1).filterMap fun q => if q.2.isSome then some q.1 else none
        let am := if feedsAmax df then seen.foldl amaxStep k.vec.amax.toNat else k.vec.amax.toNat
        let s' := s'.stickIf w.2 0
        .ok (s'.updMe fun k =>
          let at_ := s'.cycle + 5 + max sh.beats (beatsOf (sh.n * fmtBytes df))
          let k := k.writeDest (c.dst.getD 0) df (fmtBytes df) w.1 at_
          { k with vec := { k.vec with amax := BitVec.ofNat 32 am }.readyAt (if feedsAmax df then [18] else []) at_ })) s) s

/-! ## E.AMAX -/

/-- E.AMAX (08 R191). -/
def execEAmax (s : State) : Out :=
  issue .e .eAmax 1 (popping .e 0 1 fun _ s => .ok (pushing .e [s.me.vec.amax.setWidth 64] s)) s

/-- E.AMAX reset (08 R191). -/
def execEAmaxReset (s : State) : Out :=
  issue .e .eAmaxReset 1 (popping .e 0 1 fun _ s =>
    .ok ((pushing .e [s.me.vec.amax.setWidth 64] s).updVec fun x => { x with amax := 0 })) s

/-- E.AMAX clear (08 R191). -/
def execEAmaxClear (s : State) : Out :=
  issue .e .eAmaxClear 1 (fun s => .ok (s.updVec fun x => { x with amax := 0 })) s

/-! ## E.QUANT -/

/-- emax of a code format (08 R193). -/
def quantMax (f : Nat) : Int := if f = 4 then 8 else if f = 5 then 15 else 6

/-- The exact sum of two rationals whose denominators are powers of two. -/
def addPow2 (a b : Nat × Nat) : Nat × Nat :=
  if a.2 ≤ b.2 then (a.1 * (b.2 / a.2) + b.1, b.2) else (a.1 + b.1 * (a.2 / b.2), a.2)

/-- The square of the difference of two finite values, as numerator and denominator. -/
def sqDiff (x y : Val) : Nat × Nat :=
  match Val.add .rne x y.neg with
  | .fin _ n d => (n * n, d * d)
  | _ => (0, 1)

/-- A candidate scale: its exponent, the codes with their saturation, and the exact error (08 R193). -/
structure Cand where
  e : Int
  codes : List (Nat × Bool)
  err : Nat × Nat
  deriving DecidableEq, Repr

/-- Codes and error of a block under an exponent (08 R193). -/
def candOf (f : Nat) (xs : List Val) (e : Int) : Cand :=
  let codes := xs.map fun x => round (x.scale (-e)) f .rne
  let errs := List.zipWith (fun x (c : Nat × Bool) => sqDiff ((valueOf f c.1).scale e) x) xs codes
  { e := e, codes := codes, err := errs.foldl addPow2 (0, 1) }

/-- The better of two candidates: the least error, the larger exponent between equals; `b` has the larger one. -/
def better (a b : Cand) : Cand := if b.err.1 * a.err.2 ≤ a.err.1 * b.err.2 then b else a

/-- Scale byte and codes of a block (08 R193). -/
def quantBlock (f : Nat) (xs : List Val) : Nat × List (Nat × Bool) :=
  if xs.any fun x => !x.isFin then (255, xs.map fun _ => (0, false))
  else
    let m := xs.foldl (fun a x => if Val.lt false a x.abs then x.abs else a) (.fin false 0 1)
    match m with
    | .fin _ n d =>
      if n = 0 then (127, xs.map fun x => round x f .rne)
      else
        let e0 := floorLog2 n d - quantMax f
        let clamp := fun e : Int => max (-127) (min 127 e)
        let c := better (better (candOf f xs (clamp (e0 - 1))) (candOf f xs (clamp e0))) (candOf f xs (clamp (e0 + 1)))
        ((c.e + 127).toNat, c.codes)
    | _ => (255, [])

/-- The blocks of a list of values, 32 at a time. -/
def quantBlocks (f : Nat) : Nat → List Val → List (Nat × List (Nat × Bool))
  | 0, _ => []
  | n + 1, xs => quantBlock f (xs.take 32) :: quantBlocks f n (xs.drop 32)

/-- E.QUANT (08 R192, R193). The room that R164 asks for of `sd`'s store queue is waited for before the checks of R160 on the stack and
the queues' tags, that of `d`'s after them: DESIGN CHOICE, the spec gives no order (log entry 100). -/
def execEQuant (d : BitVec 5) (p : BitVec 1) (a sd f : BitVec 5) (s : State) : Out :=
  let i := Instr.eQuant d p a sd f
  issueN .e i (fun s => 2 * (shapeOf s.me.vec.shp).beats + 2) (fun s =>
    let sh := shapeOf s.me.vec.shp
    if !sh.ok || !decide (1 ≤ sh.fmt ∧ sh.fmt ≤ 3) || sh.cols % 32 != 0 then .fail .ill 0
    else if !s.me.destRoom sd.toNat 1 (sh.n / 32) then .wait s
    else withSources i sh 1 sh.n (fun srcs s =>
      let blocks := quantBlocks f.toNat (sh.n / 32) ((srcs.getD 0 []).map fun v => valueOf sh.fmt v)
      let w := masked s.me.vec p ((blocks.flatMap (·.2)).map some)
      let s := s.stickIf w.2 0
      .ok (s.updMe fun k =>
        let at_ := s.cycle + 12 + 2 * sh.beats
        (k.writeDest d.toNat f.toNat 1 w.1 at_).writeDest sd.toNat 15 1 (blocks.map fun b => some b.1) at_)) s) s

/-! ## E.TPACK -/

/-- The trit of a value, and whether the value is no trit (08 R194). -/
def tritOf (x : Val) : Int × Bool :=
  match x with
  | .nan => (0, true)
  | .inf neg => (if neg then -1 else 1, true)
  | .fin neg n d => if n = 0 then (0, false) else (if neg then -1 else 1, n != d)

/-- Bytes of packed trits with whether a value was no trit. -/
def packTrits : Nat → List Val → List (Nat × Bool)
  | 0, _ => []
  | n + 1, xs =>
    let ts := (xs.take 5).map tritOf
    (ternEncode ((List.range 5).map fun j => (ts.getD j (0, false)).1), ts.any (·.2)) :: packTrits n (xs.drop 5)

/-- E.TPACK (08 R194). -/
def execETpack (d : BitVec 5) (p : BitVec 1) (a : BitVec 5) (s : State) : Out :=
  runE { i := .eTpack d p a, p := p, fmts := fun f => decide (1 ≤ f ∧ f ≤ 3) || f == 6, occ := Shape.beats
         lat := fun sh => 6 + sh.beats
         dfmt := fun _ => 10, dw := fun _ => 1, dn := fun sh => (sh.n + 4) / 5
         f := fun sh xs =>
           (packTrits ((sh.n + 4) / 5) ((xs.getD 0 []).map fun v => valueOf sh.fmt v)).map some } s

/-! ## E.MASK -/

/-- EM with the bits of the first `n` elements given by a function (08 R195). -/
def setMask (em : BitVec 1024) (n : Nat) (g : Nat → Bool) : BitVec 1024 :=
  BitVec.ofNat 1024 (em.toNat / 2 ^ n * 2 ^ n + ((List.range n).map fun i => if g i then 2 ^ i else 0).sum)

/-- E.MASK (08 R195). -/
def execEMask (a : BitVec 5) (f : BitVec 3) (s : State) : Out :=
  let i := Instr.eMask a f
  issueN .e i (fun s => if f.toNat ≤ 2 then (shapeOf s.me.vec.shp).beats else 1) (fun s =>
    let sh := shapeOf s.me.vec.shp
    let put := fun (s : State) (g : BitVec 1024 → Nat → Bool) =>
      Res.ok (s.updVec fun x => { x with em := setMask x.em sh.n (g x.em) }.readyAt [16]
        (s.cycle + if f.toNat ≤ 2 then 4 + sh.beats else 2))
    if f = 4 then .ok (s.updVec fun x => { x with em := BitVec.allOnes 1024 }.readyAt [16] (s.cycle + 2))
    else if !sh.ok then .fail .ill 0
    else if f = 3 then put s fun em i => !em.getLsbD i
    else if f = 5 then
      popping .e 2 0 (fun vs s =>
        put s fun _ i => decide (i / sh.cols < (vs.getD 1 0).toNat) && decide (i % sh.cols < (vs.getD 0 0).toNat)) s
    else withSources i sh 1 0 (fun srcs s =>
      let v := srcs.getD 0 []
      put s fun em i =>
        let k := v.getD i 0 != 0
        if f = 0 then k else if f = 1 then em.getLsbD i && k else em.getLsbD i || k) s) s

end Sys2Proof.Machine
end

