-- ==== Sys2Proof/Machine/Layout.lean ====
section
/-! DEFINITION. Layouts and the exchange two of them derive (15 R304-R308, R314, R315). -/

namespace Sys2Proof.Machine

/-- The thirteen fields of a layout register (15 R305). -/
abbrev Layout := List W64

namespace Layout

/-- A field. -/
def fld (l : Layout) (i : Nat) : W64 := l.getD i 0

/-- Fields of the head (15 R305). -/
def fmt (l : Layout) : Nat := bits (l.fld 0) 0 5
def rank (l : Layout) : Nat := bits (l.fld 0) 5 3 + 1
def axes (l : Layout) : Nat := bits (l.fld 0) 8 2 + 1
def psum (l : Layout) : Nat := bits (l.fld 0) 10 4
def space (l : Layout) : Nat := bits (l.fld 0) 14 2
def gran (l : Layout) : Nat := 2 ^ bits (l.fld 0) 16 5
def sk (l : Layout) : Bool := bits (l.fld 0) 21 1 == 1

/-- Extent of a mesh axis; 1 for an unused one (15 R306). -/
def mesh (l : Layout) (a : Nat) : Nat := if a < l.axes then bits (l.fld 1) (16 * a) 16 else 1
def ranktab (l : Layout) : W64 := l.fld 2
def base (l : Layout) : W64 := l.fld 3
def npart (l : Layout) : Nat := (l.fld 4).toNat
def extent (l : Layout) (d : Nat) : Nat := bits (l.fld (5 + d)) 0 32
/-- SHARD of a dimension: 0, or a mesh axis plus 1. -/
def shard (l : Layout) (d : Nat) : Nat := bits (l.fld (5 + d)) 32 3

/-- Number of ranks. -/
def ranks (l : Layout) : Nat := l.mesh 0 * l.mesh 1 * l.mesh 2 * l.mesh 3

/-- Mesh coordinate of a rank on an axis (15 R306). -/
def coord (l : Layout) (r a : Nat) : Nat :=
  r / ((List.range a).map l.mesh).prod % l.mesh a

/-- Rank index of mesh coordinates. -/
def rankAt (l : Layout) (c : Nat → Nat) : Nat :=
  ((List.range 4).map fun a => c a * ((List.range a).map l.mesh).prod).sum

/-- Axes that hold partial sums, ascending. -/
def psumAxes (l : Layout) : List Nat := (List.range 4).filter fun a => l.psum / 2 ^ a % 2 == 1

/-- S and the granule count G (15 R306). -/
def psumSize (l : Layout) : Nat := (l.psumAxes.map l.mesh).prod
def granules (l : Layout) : Nat := if l.psum = 0 then 1 else l.npart / l.gran

/-- Nodes a rank holds, and the first of them. -/
def held (l : Layout) : Nat := if l.psum = 0 then 1 else l.granules / l.psumSize
def linear (l : Layout) (r : Nat) : List Nat → Nat
  | [] => 0
  | a :: as => l.coord r a + l.mesh a * l.linear r as
def firstNode (l : Layout) (r : Nat) : Nat := if l.psum = 0 then 0 else l.linear r l.psumAxes * l.held

/-- Extent of a dimension within a shard. -/
def localExt (l : Layout) (d : Nat) : Nat :=
  if l.shard d = 0 then l.extent d else l.extent d / l.mesh (l.shard d - 1)

/-- Elements of a shard, and bytes of one held node. -/
def count (l : Layout) : Nat := ((List.range l.rank).map l.localExt).prod
def eb (l : Layout) : Nat := fmtBytes l.fmt
def nodeBytes (l : Layout) : Nat :=
  if l.sk then 64 + ((List.range l.rank).map l.extent).prod * l.eb else l.count * l.eb

/-- Bytes of the local buffer. -/
def bufBytes (l : Layout) : Nat := l.held * l.nodeBytes

/-- Global coordinate, on dimension `d`, of element `x` of a rank's shard. -/
def globalCoord (l : Layout) (r x d : Nat) : Nat :=
  x / ((List.range d).map l.localExt).prod % l.localExt d
    + (if l.shard d = 0 then 0 else l.coord r (l.shard d - 1) * l.localExt d)

/-- Index, in its holder's shard, of the element at a global coordinate. -/
def localIndex (l : Layout) (g : Nat → Nat) : Nat :=
  ((List.range l.rank).map fun d => g d % l.localExt d * ((List.range d).map l.localExt).prod).sum

/-- The holder of lowest index of the element at a global coordinate and of a node (15 R308). -/
def holder (l : Layout) (g : Nat → Nat) (node : Nat) : Nat :=
  l.rankAt fun a =>
    match (List.range l.rank).find? fun d => l.shard d == a + 1 with
    | some d => g d / l.localExt d
    | none =>
      if l.psum / 2 ^ a % 2 = 1 then
        node / l.held / (((l.psumAxes.filter fun b => decide (b < a)).map l.mesh).prod) % l.mesh a
      else 0

/-- Byte offset of an element within a node: a sketch's counters stand in the whole sketch (15 R306). -/
def byteOff (l : Layout) (r x : Nat) : Nat :=
  if l.sk then 64 + ((List.range l.rank).map fun d =>
    l.globalCoord r x d * ((List.range d).map l.extent).prod).sum * l.eb
  else x * l.eb

end Layout

/-- Where one node of one destination element comes from: the holding rank, which of its held nodes, the element there. -/
structure Source where
  rank : Nat
  node : Nat
  elem : Nat
  deriving DecidableEq, Repr

/-- The nodes an element of a destination shard is made of, for the node `q` the destination holds (15 R308). -/
def sourcesOf (src dst : Layout) (r q x : Nat) : List Source :=
  let g := dst.globalCoord r x
  let nodes := if src.psum = 0 then [0] else if dst.psum = 0 then List.range src.granules else [dst.firstNode r + q]
  nodes.map fun t =>
    { rank := src.holder g t, node := t % src.held, elem := src.localIndex g }

/-- The elements of rank `a`'s source shard, with its held node, that it sends to rank `b`. -/
def transfer (src dst : Layout) (a b : Nat) : List (Nat × Nat) :=
  (List.range dst.held).flatMap fun q =>
    (List.range dst.count).flatMap fun x =>
      (sourcesOf src dst b q x).filterMap fun o => if o.rank = a then some (o.node, o.elem) else none

/-- Two collectives of ranks pair: by the address of the rank table, and by order (15 R311). -/
def Coll.pairs (a b : Coll) : Bool := Layout.ranktab a.src == Layout.ranktab b.src && decide (a.ord = b.ord)

/-- A collective of an earlier leg has no slot of the next one (15 R316). -/
def Coll.untag (c : Coll) : Coll := { c with tag := none }

/-- Cores of the package that are ranks of a collective. -/
def Coll.cores (c : Coll) (package : Nat) : List Nat := (c.ranks.filter fun r => decide (r.1 = package % 2 ^ 10)).map (·.2)

/-- Ranks of the collectives in flight of some cores (15 R317, R318). -/
def State.collMates (s : State) (ks : List Nat) : List Nat :=
  (ks.flatMap fun k => ((s.core k).colls.filter fun c => !c.done).flatMap fun c =>
    (c.cores s.package).filter fun r => (s.core r).colls.any (c.pairs ·)).eraseDups

/-! ## Routed tiles -/

/-- The rank an RT value names (09 R214, 15 R314). -/
def Coll.rankOf (c : Coll) (package : Nat) (rt : W64) : Option Nat :=
  let p := if bits rt 21 1 = 1 then bits rt 22 10 else package
  c.ranks.findIdx? fun r => decide (r = (p, bits rt 0 12))

/-- Element of the source shard at cell (r, c) of tile `t` (15 R314). -/
def tileElem (src : Layout) (t i : Nat) : Option Nat :=
  let cols := src.localExt 0
  let wide := (cols + 15) / 16
  let row := 16 * (t / wide) + i / 16
  let col := 16 * (t % wide) + i % 16
  if row < src.localExt 1 ∧ col < cols then some (row * cols + col) else none

/-- A collective takes the in-mask elements of a routed tile, or discards it and sets ROUTE (15 R315). -/
def Coll.bindTile (c : Coll) (package : Nat) (rt : W64) (fmt : Nat) (elems : List (Option Nat)) : Coll :=
  match c.rankOf package rt with
  | none => { c with badRoute := true }
  | some b =>
    let sends := (transfer c.src c.dst c.me b).map (·.2)
    let cells := (List.range 256).filterMap fun i =>
      match elems.getD i none, tileElem c.src (bits rt 32 8) i with
      | some v, some e => some (e, v)
      | _, _ => none
    let due := cells.filter fun p => sends.contains p.1
    let sent := (List.range 256).any fun i => match tileElem c.src (bits rt 32 8) i with | some e => sends.contains e | none => false
    let again := due.any fun p => c.routed.any fun o => decide (o.dest = b) && decide (o.elem = p.1)
    if fmt ≠ Layout.fmt c.src ∨ !sent ∨ again then { c with badRoute := true }
    else { c with routed := c.routed ++ due.map fun p => { dest := b, elem := p.1, val := p.2 } }

/-- The oldest epilogue-form collective that is not complete (15 R315). -/
def Core.routeTo (k : Core) : Option Nat := k.colls.findIdx? fun c => c.epi && !c.done

/-- An epilogue to route may hand its tile over (09 R216, 15 R315). -/
def Core.routeReady (k : Core) : Bool := k.routeTo.isSome

/-- Hands a converted tile to the exchange engine. -/
def Core.route (k : Core) (package fmt : Nat) (rt : W64) (elems : List (Option Nat)) : Core :=
  match k.routeTo with
  | none => k
  | some j => { k with colls := k.colls.modify j fun c => c.bindTile package rt fmt elems }

end Sys2Proof.Machine
end

