-- ==== Sys2Proof/Machine/Matrix.lean ====
section
/-! DEFINITION. The matrix engine (09 R198-R217; 03 R62): slots and claims, planes, products, accumulators, the epilogue
and the routing register; the follow-on command of a copy shares its product (11 R245, R246). -/

namespace Sys2Proof.Machine

/-- Changes the matrix engine's registers of the acting core. -/
def State.updMat (s : State) (f : Mat → Mat) : State := s.updMe fun k => { k with mat := f k.mat }

/-! ## Claims -/

/-- Sets the claim state of slots. -/
def Mat.claimRun (m : Mat) (slot n st : Nat) : Mat := { m with claims := SMap.setRun 0 m.claims slot (List.replicate n st) }

/-- A slot that a claim would change from W to R has writes under way, or from R to W reads, of another engine (09 R200). -/
def Core.claimBusy (k : Core) (st slot : Nat) : Bool :=
  (decide (k.claim slot = 1) && decide (st = 2) && k.slotWritten slot) ||
    (decide (k.claim slot = 2) && decide (st = 1) && k.slotRead slot)

/-- M.CLAIM in either form; its effect is there from the next cycle on (09 R200, R215). -/
def claimBody (i : Instr) (st : Nat) (s : State) : Out :=
  issue .m i 1 (popping .m 2 0 fun vs s =>
    let n := (vs.getD 0 0).toNat
    let a := (vs.getD 1 0).toNat
    if n = 0 then .ok s
    else if 256 < a + n then .fail .ill 0
    else if (List.range n).any fun j => s.me.claimBusy st (a + j) then .wait s
    else if st = 2 ∧ ((List.range n).any fun j => s.me.claim (a + j) == 1 && s.me.epiDue (a + j) 1) then .hold s
    else .ok (s.updMe fun k => k.later .m (s.cycle + 1) (.claims a n st))) s

/-- M.CLAIM (09 R200). -/
def execMClaim (s : State) : Out := claimBody .mClaim 1 s

/-- M.CLAIM r (09 R200). -/
def execMClaimR (s : State) : Out := claimBody .mClaimR 2 s

/-- M.RELEASE (09 R201). -/
def execMRelease (s : State) : Out :=
  issue .m .mRelease 1 (popping .m 2 0 fun vs s =>
    let n := (vs.getD 0 0).toNat
    let a := (vs.getD 1 0).toNat
    if 256 < a + n then .fail .ill 0
    else match s.me.badSlot a n false with
      | some x => .fail .slot (w64 x)
      | none =>
        if (List.range n).any fun j => s.me.slotRead (a + j) || s.me.slotWritten (a + j) then .wait s
        else if s.me.epiDue a n then .hold s
        else .ok (s.updMe fun k => k.later .m (s.cycle + 1) (.claims a n 0))) s

/-! ## Order on the array (09 R215, R216; 11 R246) -/

/-- The array is occupied up to a cycle by a word of M, or by a follow-on command. -/
def Mat.busy (m : Mat) (until_ : Nat) (fol : Bool) : Mat := { m with arrayAt := until_, arrayFol := fol }

/-- Cycles of tiles, or of the shadow plane at 8, put no earlier than `at_`. -/
def markTiles (m : SMap Nat) (tiles : List Nat) (at_ : Nat) : SMap Nat :=
  tiles.foldl (fun m x => SMap.set 0 m x (max (SMap.get 0 m x) at_)) m

/-- A write of tiles other than a product is visible from a cycle. -/
def Mat.wrote (m : Mat) (tiles : List Nat) (at_ : Nat) : Mat :=
  { m with seen := markTiles m.seen tiles at_, made := markTiles m.made tiles at_ }

/-- Some of the tiles stands only from a later cycle. -/
def laterTile (m : SMap Nat) (tiles : List Nat) (cycle : Nat) : Bool := tiles.any fun x => decide (cycle < SMap.get 0 m x)

/-- An M word that writes tiles waits for earlier E and W reads on the path (07 R161, 10 R226). -/
def Core.tileHeld (k : Core) (tiles : List Nat) (cycle : Nat) : Bool :=
  k.eReads tiles || k.wReads tiles || laterTile k.mat.reads tiles cycle

/-- An M word that touches tiles, or with `plane` the planes, waits for follow-on commands before it on the path, and one that
uses the array while a follow-on command holds it (11 R246). -/
def Core.followHolds (k : Core) (tiles : List Nat) (plane : Bool) (cycle : Nat) : Bool :=
  k.followDue tiles plane (k.here .m) || laterTile k.mat.fseen tiles cycle || k.followNow cycle || (k.mat.arrayFol && decide (cycle < k.mat.arrayAt))

/-! ## Stationary planes -/

/-- The first bad nibble of a sparse tile's metadata (09 R204). -/
def badNibble (md : List Byte) : Option Nat :=
  (List.range 128).find? fun j =>
    let x := (md.getD (j / 2) 0).toNat / 16 ^ (j % 2) % 16
    decide (x / 4 ≤ x % 4)

/-- A bad TERN5 byte stands in a tile (03 R56, 09 R202). -/
def ternBadTile (data : List Byte) : Bool :=
  (List.range 416).any fun j => decide (242 < (data.getD j 0).toNat)

/-- M.WLOAD dense (09 R204). -/
def execMWload (f : BitVec 5) (s : State) : Out :=
  issue .m (.mWload f) 1 (popping .m 1 0 fun vs s =>
    let a := (vs.getD 0 0).toNat
    if 256 ≤ a then .fail .ill 0
    else match s.me.badSlot a 1 false with
      | some x => .fail .slot (w64 x)
      | none =>
        if s.me.followHolds [] true s.cycle then .wait s
        else if s.me.epiDue a 1 then .hold s
        else if s.me.heldWord .m then .wait s
        else
          let data := s.me.slotBytes a 1
          let s := s.stickIf (f == 13 && ternBadTile data) 1
          .ok (s.updMat fun m => { m with shadow := some { fmt := f.toNat, sparse := false, data := data }
                                          seen := markTiles m.seen [8] (s.cycle + 4) }.busy (s.cycle + 1) false)) s

/-- M.WLOAD sparse (09 R204). -/
def execMWloadSp (f : BitVec 5) (s : State) : Out :=
  issue .m (.mWloadSp f) 1 (popping .m 2 0 fun vs s =>
    let a := (vs.getD 1 0).toNat
    let b := (vs.getD 0 0).toNat
    if 256 ≤ a ∨ 256 ≤ b then .fail .ill 0
    else match (s.me.badSlot (min a b) 1 false).orElse fun _ => s.me.badSlot (max a b) 1 false with
      | some x => .fail .slot (w64 x)
      | none =>
        if s.me.followHolds [] true s.cycle then .wait s
        else if s.me.epiDue a 1 || s.me.epiDue b 1 then .hold s
        else if s.me.heldWord .m then .wait s
        else
          let md := (s.me.slotBytes b 1).take 64
          match badNibble md with
          | some j => .fail .ill (w64 j)
          | none => .ok (s.updMat fun m =>
              { m with shadow := some { fmt := f.toNat, sparse := true, data := s.me.slotBytes a 1, meta_ := md }
                       seen := markTiles m.seen [8] (s.cycle + 5) }.busy (s.cycle + 1) false)) s

/-- M.SWAP (09 R205). -/
def execMSwap (s : State) : Out :=
  issue .m .mSwap 1 (fun s =>
    if s.me.mat.shadow.isNone then .fail .ill 0
    else if s.me.followDue [] true (s.me.here .m) then .wait s
    else if laterTile s.me.mat.seen [8] s.cycle then .hold s
    else .ok (s.updMat fun m => { m with active := m.shadow, shadow := m.active })) s

/-! ## Products -/

/-- The form of an M.MMA by its code: A format, formats of the plane, dense and sparse depth, occupancy, accumulator
format (09 R206). -/
structure MmaForm where
  fmt : Nat
  planes : List Nat
  dense : Nat
  sparse : Nat
  occ : Nat
  acc : Nat
  deriving DecidableEq, Repr

/-- The table of R206. -/
def mmaForm (code : Nat) : MmaForm :=
  match code with
  | 0 => ⟨2, [2], 16, 32, 4, 1⟩
  | 1 => ⟨3, [3], 16, 32, 4, 1⟩
  | 2 => ⟨4, [4, 5], 32, 0, 4, 1⟩
  | 3 => ⟨5, [4, 5], 32, 0, 4, 1⟩
  | 4 => ⟨6, [6], 32, 0, 4, 8⟩
  | 5 => ⟨1, [1], 8, 0, 8, 1⟩
  | _ => ⟨0, [0], 4, 0, 16, 0⟩

/-- A mask value over a width: all ones stands for every bit; a set bit beyond is refused (09 R206). -/
def maskOf (v : W64) (w : Nat) : Option Nat :=
  if v = BitVec.allOnes 64 then some (2 ^ w - 1) else if v.toNat < 2 ^ w then some v.toNat else none

/-- Depth of a form on a plane (09 R206). -/
def MmaForm.depth (x : MmaForm) (p : Option Plane) : Nat :=
  if (match p with | some q => q.sparse | none => false) && decide (x.sparse ≠ 0) then x.sparse else x.dense

/-- The B value at depth `k` and column `c`; none where the sparse tile keeps nothing (09 R202, R204). -/
def Plane.bval (p : Plane) (k c : Nat) : Option Val :=
  let eb := fmtBytes p.fmt
  let elem := fun j => some (valueOf p.fmt (leNat ((p.data.drop (j * eb)).take eb)))
  if p.fmt = 13 then
    let b := (p.data.getD (26 * c + k / 5) 0).toNat
    some (Val.ofInt ((ternDecode b).1.getD (k % 5) 0))
  else if !p.sparse then elem (k * 16 + c)
  else
    let g := k / 4
    let x := (p.meta_.getD ((8 * c + g) / 2) 0).toNat / 16 ^ ((8 * c + g) % 2) % 16
    if x % 4 = k % 4 then elem (2 * g * 16 + c)
    else if x / 4 = k % 4 then elem ((2 * g + 1) * 16 + c) else none

/-- The single rounding of the array: the result of a list of contributing terms, the accumulator first (03 R62). -/
def arrayRound (fmt : Nat) (terms : List Val) : Nat × Bool :=
  match terms with
  | [] => (0, false)
  | t :: ts => round (ts.foldl (Val.add .rne) t) fmt .rne

/-- Byte offset, within the accumulators, of an element of a tile or a pair (09 R202). -/
def accOff (k : Nat) (pair : Bool) (r c : Nat) : Nat :=
  if pair then 1024 * (k + r / 8) + (r % 8 * 16 + c) * 8 else 1024 * k + (r * 16 + c) * 4

/-- Bits of an accumulator element. -/
def Mat.accGet (m : Mat) (k : Nat) (pair : Bool) (r c : Nat) : Nat :=
  leNat (SMap.slice 0 m.acc (accOff k pair r c) (if pair then 8 else 4))

/-- Sets an accumulator element. -/
def Mat.accPut (m : Mat) (k : Nat) (pair : Bool) (r c v : Nat) : Mat :=
  { m with acc := SMap.setRun 0 m.acc (accOff k pair r c) (leBytes v (if pair then 8 else 4)) }

/-- The elements inside row and column masks, in ascending linear index. -/
def maskedCells (rm cm : Nat) : List (Nat × Nat) :=
  ((List.range 256).map fun i => (i / 16, i % 16)).filter fun x =>
    rm / 2 ^ x.1 % 2 == 1 && cm / 2 ^ x.2 % 2 == 1

/-- The product into a tile: every element inside the masks (09 R208, R209). `aval` reads A, `on` tells the depths that
the depth mask enables. -/
def Core.product (k : Core) (tile : Nat) (pair : Bool) (accFmt rm cm depth : Nat) (on : Nat → Bool)
    (aval : Nat → Nat → Val) (p : Plane) : Mat × Bool :=
  (maskedCells rm cm).foldl (fun (acc : Mat × Bool) x =>
    let terms := (List.range depth).filterMap fun d =>
      if on d then (p.bval d x.2).map fun b => Val.mul (aval x.1 d) b else none
    let r := arrayRound accFmt (valueOf accFmt (k.mat.accGet tile pair x.1 x.2) :: terms)
    (acc.1.accPut tile pair x.1 x.2 r.1, acc.2 || r.2)) (k.mat, false)

/-- What M.MMA or M.TMMA comes to once its operands stand: a cause, or the product. -/
def Core.mma (k : Core) (tern : Bool) (code tile : Nat) (a rm cm dm : W64) : Except (Cause × W64) (Mat × Bool) :=
  let f := mmaForm code
  let act := k.mat.active
  let depth := if tern then 32 else f.depth act
  let slots := if tern then 4 else if f.depth act = f.sparse then 2 else 1
  match maskOf rm 16, maskOf cm 16, maskOf dm depth with
  | some r, some c, some d =>
    if 256 < a.toNat + slots then .error (.ill, 0)
    else match act with
    | none => .error (.ill, 0)
    | some p =>
      let fits := if tern then p.fmt == 13 else f.planes.contains p.fmt && (!p.sparse || f.sparse != 0)
      if !fits then .error (.ill, 0)
      else match k.badSlot a.toNat slots false with
      | some x => .error (.slot, w64 x)
      | none =>
        let data := k.slotBytes a.toNat slots
        if tern then
          .ok (k.product tile false 8 r c 128 (fun j => d / 2 ^ (j / 4) % 2 == 1)
            (fun i j => valueOf 6 (data.getD (i * 128 + j) 0).toNat) p)
        else
          let eb := fmtBytes f.fmt
          .ok (k.product tile (f.acc == 0) f.acc r c depth (fun j => d / 2 ^ j % 2 == 1)
            (fun i j => valueOf f.fmt (leNat ((data.drop ((i * depth + j) * eb)).take eb))) p)
  | _, _, _ => .error (.ill, 0)

/-- The tiles of an M.MMA or M.TMMA, its occupancy, and the number of A slots (09 R206, R209, R215). -/
def mmaTiles (tern : Bool) (code tile : Nat) : List Nat := if !tern ∧ code = 6 then [tile, tile + 1] else [tile]
def mmaOcc (tern : Bool) (code : Nat) : Nat := if tern then 4 else (mmaForm code).occ
def Core.mmaSlots (k : Core) (tern : Bool) (code : Nat) : Nat :=
  if tern then 4 else if (mmaForm code).depth k.mat.active = (mmaForm code).sparse then 2 else 1

/-- A product begun at a cycle: it is visible twelve cycles after its occupancy (09 R215). -/
def Mat.began (m : Mat) (tern : Bool) (code tile cycle : Nat) (fol : Bool) : Mat :=
  let at_ := cycle + mmaOcc tern code + 12
  let tiles := mmaTiles tern code tile
  let m := { m with seen := markTiles m.seen tiles at_ }.busy (cycle + mmaOcc tern code) fol
  if fol then { m with made := markTiles m.made tiles at_, fseen := markTiles m.fseen tiles at_, folAt := cycle + 1 } else m

/-- M.MMA and M.TMMA as M words (09 R206-R210, R216). -/
def mmaBody (tern : Bool) (code tile : Nat) (s : State) : Res :=
  popping .m 4 0 (fun vs s =>
    let tiles := mmaTiles tern code tile
    match s.me.mma tern code tile (vs.getD 3 0) (vs.getD 2 0) (vs.getD 1 0) (vs.getD 0 0) with
    | .error (c, v) => .fail c v
    | .ok r =>
      if s.me.followHolds tiles false s.cycle then .wait s
      else if s.me.tileHeld tiles s.cycle || laterTile s.me.mat.made tiles s.cycle
          || s.me.epiDue (vs.getD 3 0).toNat (s.me.mmaSlots tern code) then .hold s
      else if s.me.heldWord .m then .wait s
      else .ok ((s.stickIf r.2 0).updMat fun _ => r.1.began tern code tile s.cycle false)) s

/-- M.MMA (09 R206-R208). -/
def execMMma (f k : BitVec 3) (s : State) : Out :=
  issue .m (.mMma f k) (mmaForm f.toNat).occ (mmaBody false f.toNat k.toNat) s

/-- M.TMMA (09 R209). -/
def execMTmma (k : BitVec 3) (s : State) : Out := issue .m (.mTmma k) 4 (mmaBody true 0 k.toNat) s

/-! ## Accumulators -/

/-- Clears tiles. -/
def Mat.clearTiles (m : Mat) (tiles : List Nat) : Mat :=
  { m with acc := m.acc.filter fun p => !tiles.contains (p.1 / 1024) }

/-- A write of tiles by M.ACC (09 R211). -/
def accBody (tiles : List Nat) (f : Mat → Mat) (s : State) : Res :=
  if s.me.followHolds tiles false s.cycle then .wait s
  else if s.me.tileHeld tiles s.cycle then .hold s
  else .ok (s.updMat f)

/-- M.ACC clear (09 R211). -/
def execMAccClear (k : BitVec 3) (s : State) : Out :=
  issue .m (.mAccClear k) 1 (accBody [k.toNat] fun m => m.clearTiles [k.toNat]) s

/-- M.ACC clearpair (09 R211). -/
def execMAccClearpair (k : BitVec 3) (s : State) : Out :=
  issue .m (.mAccClearpair k) 1 (accBody [k.toNat, k.toNat + 1] fun m => m.clearTiles [k.toNat, k.toNat + 1]) s

/-- M.ACC load (09 R211). -/
def execMAccLoad (k : BitVec 3) (s : State) : Out :=
  issue .m (.mAccLoad k) 2 (popping .m 1 0 fun vs s =>
    let a := (vs.getD 0 0).toNat
    if 255 ≤ a then .fail .ill 0
    else match s.me.badSlot a 2 false with
      | some x => .fail .slot (w64 x)
      | none =>
        if s.me.followHolds [k.toNat] false s.cycle then .wait s
        else if s.me.epiDue a 2 then .hold s
        else if s.me.heldWord .m then .wait s
        else
          let data := s.me.slotBytes a 2
          accBody [k.toNat] (fun m =>
            ({ m with acc := SMap.setRun 0 m.acc (1024 * k.toNat) data }.wrote [k.toNat] (s.cycle + 4)).busy (s.cycle + 2) false) s) s

/-! ## The epilogue -/

/-- RT.VALID (09 R214). -/
def rtValid (v : W64) : Bool := v.getLsbD 63

/-- Elements of a converted tile, none outside the masks, with SAT (09 R213). -/
def Core.epilogue (k : Core) (tile accMode df rm cm : Nat) (scale : Nat) (sc : W64) : List (Option Nat) × Bool :=
  let pair := accMode == 2
  let fmt := if accMode = 0 then 1 else if accMode = 1 then 8 else 0
  let q := if scale = 2 then k.slotBytes sc.toNat 1 else []
  let rs := (List.range 256).map fun i =>
    let r := i / 16
    let c := i % 16
    if rm / 2 ^ r % 2 = 1 ∧ cm / 2 ^ c % 2 = 1 then
      let x := valueOf fmt (k.mat.accGet tile pair r c)
      let y := match scale with
        | 0 => x
        | 1 => Val.mul x (valueOf 1 (sc.toNat % 2 ^ 32))
        | _ => Val.mul x (Val.mul (valueOf 15 (q.getD r 0).toNat) (valueOf 15 (q.getD (16 + c) 0).toNat))
      some (round y df .rne)
    else none
  (rs.map fun r => r.map (·.1), rs.any fun r => match r with | some v => v.2 | none => false)

/-- The lowest of two failing slots. -/
def lowerSlot (a b : Option Nat) : Option Nat :=
  match a, b with
  | some x, some y => some (min x y)
  | some x, none => some x
  | none, y => y

/-- Bytes of elements of `w` bytes, none for those that are not written. -/
def elemBytesSome (w : Nat) (xs : List (Option Nat)) : List (Option Byte) :=
  xs.flatMap fun x => match x with | some v => (leBytes v w).map some | none => List.replicate w none

/-- Entries pushed to SQ1 in successive cycles from one on (09 R215). -/
def Core.pushEach (k : Core) (at_ : Nat) : List QEntry → Core
  | [] => k
  | e :: es => Core.pushEach (k.later .m at_ (.push 5 [e] none 0)) (at_ + 1) es

/-- M.EPI (09 R212, R213, R215, R216). -/
def execMEpi (z : BitVec 1) (d : BitVec 2) (k : BitVec 3) (x a : BitVec 2) (f : BitVec 5) (s : State) : Out :=
  let scaled := if x = 0 then 0 else 1
  let toSlot := if d = 0 then 1 else 0
  let tile := k.toNat
  let pair := a == 2
  let tiles := if pair then [tile, tile + 1] else [tile]
  let df := f.toNat
  let ed := fmtBytes df
  let nslots := (256 * ed + 511) / 512
  let occ := if pair then 8 else 4
  issue .m (.mEpi z d k x a f) occ (popping .m (2 + scaled + toSlot) 0 fun vs s =>
    -- ( rm cm [sc] [ds] — )
    let ds := if d = 0 then (vs.getD 0 0).toNat else 0
    let sc := if x = 0 then 0 else vs.getD toSlot 0
    match maskOf (vs.getD (1 + scaled + toSlot) 0) 16, maskOf (vs.getD (scaled + toSlot) 0) 16 with
    | some rm, some cm =>
      if (d = 0 ∧ 256 < ds + nslots) ∨ (x = 2 ∧ 256 ≤ sc.toNat) ∨ (d = 2 ∧ !rtValid s.me.mat.rt) then .fail .ill 0
      else match lowerSlot (if d = 0 then s.me.badSlot ds nslots true else none)
          (if x = 2 then s.me.badSlot sc.toNat 1 false else none) with
      | some y => .fail .slot (w64 y)
      | none =>
        if s.me.followHolds tiles false s.cycle then .wait s
        else if (z = 1 ∧ s.me.tileHeld tiles s.cycle) ∨ laterTile s.me.mat.seen tiles s.cycle
            ∨ (d = 0 ∧ s.me.epiDue ds nslots) ∨ (x = 2 ∧ s.me.epiDue sc.toNat 1) then .hold s
        else if x = 2 ∧ s.me.heldWord .m then .wait s
        else if d = 1 ∧ !s.me.room 5 (entriesFor ed 256) then .wait s
        else if d = 2 ∧ !s.me.routeReady then .wait s
        else
          let r := s.me.epilogue tile a.toNat df rm cm x.toNat sc
          let s := s.stickIf r.2 0
          .ok (s.updMe fun k =>
            let k := if d = 0 then
                k.later .m (s.cycle + occ + 6) (.slots (512 * ds) (elemBytesSome ed r.1)) (k.en .m).lag
              else if d = 1 then k.pushEach (s.cycle + 6) (sqEntries df ed (entriesFor ed 256) r.1)
              else k.later .m (s.cycle + 6) (.tile df k.mat.rt r.1)
            let m := k.mat.busy (s.cycle + occ) false
            { k with mat := if z = 1 then (m.clearTiles tiles).wrote tiles (s.cycle + occ) else m })
    | _, _ => .fail .ill 0) s

/-! ## The routing register -/

/-- Bits of RT that are assigned (09 R214). -/
abbrev rtMask : W64 := 0x800000FFFFE00FFF

/-- M.ROUTE (09 R214). -/
def execMRoute (s : State) : Out :=
  issue .m .mRoute 1 (popping .m 1 0 fun vs s =>
    let v := vs.getD 0 0
    if v &&& ~~~ rtMask ≠ 0 then .fail .ill 0 else .ok (s.updMat fun m => { m with rt := v })) s

/-- M.ROUTE get (09 R214). -/
def execMRouteGet (s : State) : Out :=
  issue .m .mRouteGet 1 (popping .m 0 1 fun _ s => .ok (pushing .m [s.me.mat.rt] s)) s

end Sys2Proof.Machine
end

