-- ==== Sys2Proof/Machine/Memory.lean ====
section
/-! DEFINITION. The memory of the dies: the DRAM map, lines and their checks (17 R341, R353, R360-R363, R422, R424), page
tables, walks and TLBs (17 R342-R346), and an access from a virtual address to its bytes. -/

namespace Sys2Proof.Machine

/-! ## The DRAM map -/

/-- Size of a tier in bytes: fast 96 GiB, capacity 256 GiB (17 R341). -/
def tierSize (tier : Nat) : Nat := if tier = 0 then 0x1800000000 else 0x4000000000

/-- Parity of the low 35 bits of a number. -/
def parity (v : Nat) : Nat := popCount35 v 35 % 2
where
  /-- Set bits among the low bits. -/
  popCount35 (v : Nat) : Nat → Nat
    | 0 => 0
    | n + 1 => v % 2 + popCount35 (v / 2) n

/-- The hash masks of a die are those of reset. -/
def Die.plainHash (d : Die) : Bool := (List.range 11).all fun i => d.reg (340 + i) == dgReset (340 + i)

/-- Parity of the low 35 bits of an offset under the mask of DG register `i` (17 R353). -/
def Die.hashBit (d : Die) (i u : Nat) : Nat := parity (u &&& (d.reg i).toNat)

/-- Pseudo-channel of a fast-tier offset (17 R353). -/
def Die.pchOf (d : Die) (o : Nat) : Nat :=
  let u := o % 2 ^ 35
  ((List.range 6).map fun i => d.hashBit (340 + i) u * 2 ^ i).sum

/-- Stack of a fast-tier offset (17 R353). -/
def Die.stackOf (d : Die) (o : Nat) : Nat := d.hashBit 346 (o % 2 ^ 35)

/-- Bank of a fast-tier offset, 0 to 47 (17 R353). -/
def Die.bankOf (d : Die) (o : Nat) : Nat :=
  let u := o % 2 ^ 35
  o / 2 ^ 35 * 16 + ((List.range 4).map fun i => d.hashBit (347 + i) u * 2 ^ i).sum

/-- Row of a fast-tier offset (17 R353). -/
def rowOf (o : Nat) : Nat := o / 2 ^ 31 % 16 * 2 ^ 10 + o / 2 ^ 16 % 2 ^ 10

/-- Column of a fast-tier offset (17 R353). -/
def colOf (o : Nat) : Nat := o / 2 ^ 13 % 8 * 2 + o / 2 ^ 6 % 2

/-- Channel of a capacity-tier offset (17 R355). -/
def capChannel (o : Nat) : Nat := (o / 2 ^ 7 % 16) ^^^ (o / 2 ^ 21 % 16)

/-- The base bit of hash field `i`: pseudo-channel bits 0 to 5, the stack, bank bits 0 to 3 (17 R353). -/
def fieldBase (i : Nat) : Nat := if i < 6 then 7 + i else if i = 6 then 26 else 20 + i

/-- The base bits of all fields (17 R353). -/
def baseBits : Nat := 0x7C001F80

/-- The offset that names under the masks `to` the cell that `o` names under the masks `src` (17 R353, R354, R424). -/
def remap (src dest : Nat → Nat) (o : Nat) : Nat :=
  let u := o % 2 ^ 35
  let r := u - (u &&& baseBits)
  o - u + r + ((List.range 11).map fun i => (parity (u &&& src i) + parity (r &&& dest i)) % 2 * 2 ^ fieldBase i).sum

/-- The masks of a die, and those of reset. -/
def Die.mask (d : Die) (i : Nat) : Nat := (d.reg (340 + i)).toNat
def resetMask (i : Nat) : Nat := (dgReset (340 + i)).toNat

/-- The offset that, under the reset masks, names the cell an offset names under the die's masks. -/
def Die.cellOf (d : Die) (o : Nat) : Nat := if d.plainHash then o else remap d.mask resetMask o

/-- The offset under which a program last wrote a cell, if one has (17 R360, R422). -/
def Die.writtenAs (d : Die) (cell : Nat) : Option Nat :=
  let now := remap resetMask d.mask cell
  if SMap.has d.mem.wrote (now / 256) then some now
  else d.mem.older.findSome? fun e =>
    let was := remap resetMask (fun i => e.1.getD i 0) cell
    if SMap.has e.2 (was / 256) then some was else none

/-- The memory before the masks change: what programs have written keeps the masks it was written under (17 R354). -/
def Die.agedMem (d : Die) : Mem := { d.mem with wrote := [], older := ((List.range 11).map d.mask, d.mem.wrote) :: d.mem.older }

/-- The die with a mask register changed (17 R354). -/
def Die.remask (d : Die) (i : Nat) (v : W64) : Die :=
  if d.reg i = v then d
  else { d with mem := d.agedMem }.setReg i v

/-! ## Lines -/

/-- The key of a line in the tables of versions and errors. -/
def lineKey (tier off : Nat) : Nat := 2 * (off / 256) + tier

/-- What a byte no program has written reads as: zero (17 R422). -/
abbrev blank : Byte := 0

/-- Current, previous key version and whether a rotation pass runs (17 R361). -/
def Die.keyCur (d : Die) : Nat := bits (d.reg 360) 0 4
def Die.keyPrev (d : Die) : Nat := bits (d.reg 360) 8 4
def Die.keyPass (d : Die) : Bool := bits (d.reg 360) 63 1 == 1

/-- Place of a line in the patrol's order, fast tier first (17 R361). -/
def patrolPlace (tier off : Nat) : Nat := if tier = 0 then off / 256 else tierSize 0 / 256 + off / 256

/-- Key version of a line (17 R360, R361); a base version of 16 is that of lines whose keys have been erased, which no pass revives
(19 R401). -/
def Die.verOf (d : Die) (tier off : Nat) : Nat :=
  let dflt := if d.keyPass && decide (patrolPlace tier off < d.patrol) && decide (d.mem.baseVer < 16) then d.keyCur else d.mem.baseVer
  match d.mem.ver.find? (fun p => p.1 == lineKey tier off) with
  | some p => p.2
  | none => dflt

/-- A version is live (17 R361). -/
def Die.live (d : Die) (v : Nat) : Bool := v == d.keyCur || v == 15 || (d.keyPass && v == d.keyPrev)

/-- Every cell of a fast line was last written under the offset that names it now, or by no program (17 R354, R360, R422). -/
def Die.placed (d : Die) (tier off : Nat) : Bool :=
  if tier ≠ 0 || d.mem.older.isEmpty || SMap.has d.mem.wrote (off / 256) then true
  else (List.range 256).all fun j =>
    let o := off / 256 * 256 + j
    match d.writtenAs (d.cellOf o) with
    | some x => x == o
    | none => true

/-- The stack, or both capacity channels, of a line are ready (19 R396, R398). -/
def Die.lineReady (d : Die) (tier off : Nat) : Bool :=
  let r := d.reg 500
  if tier = 0 then r.getLsbD (d.stackOf (off / 256 * 256))
  else r.getLsbD (2 + capChannel (off / 256 * 256)) && r.getLsbD (2 + capChannel (off / 256 * 256 + 128))

/-- A line passes every check (17 R363, 19 R398). -/
def Die.lineOk (d : Die) (tier off : Nat) : Bool :=
  d.lineReady tier off && !SMap.get false d.mem.failed (lineKey tier off) && d.live (d.verOf tier off) && d.placed tier off

/-- The byte at a tier offset. -/
def Die.byteAt (d : Die) (tier off : Nat) : Byte :=
  if tier = 0 then SMap.get blank d.mem.fast (d.cellOf off) else SMap.get blank d.mem.cap off

/-- The bytes from a tier offset. -/
def Die.bytesAt (d : Die) (tier off n : Nat) : List Byte :=
  if tier ≠ 0 then SMap.slice blank d.mem.cap off n
  else if d.plainHash then SMap.slice blank d.mem.fast off n
  else (List.range n).map fun j => d.byteAt tier (off + j)

/-- Lists the lines that `n` bytes from an offset touch, by their first offsets. -/
def linesOf (off n : Nat) : List Nat :=
  if n = 0 then [] else (List.range ((off + n - 1) / 256 - off / 256 + 1)).map fun j => (off / 256 + j) * 256

/-- Reads bytes; none when a line fails a check. -/
def Die.peek (d : Die) (tier off n : Nat) : Option (List Byte) :=
  if (linesOf off n).all (fun l => d.lineOk tier l) then some (d.bytesAt tier off n) else none

/-- The canonical form of a die's memory: offsets and line numbers strictly rising, nothing listed that reads as an
unlisted entry would. -/
def Memory.wf (m : Mem) : Bool :=
  SMap.wf blank m.fast && SMap.wf blank m.cap && SMap.wf false m.wrote && SMap.wf false m.failed && SMap.wf false m.soft
    && m.older.all fun e => SMap.wf false e.2

/-- Puts bytes at rising offsets of the fast tier, each where its own offset maps (17 R424). -/
def Mem.scatter (m : Mem) (d : Die) (off : Nat) : List Byte → Mem
  | [] => m
  | b :: bs => Mem.scatter { m with fast := SMap.set blank m.fast (d.cellOf off) b } d (off + 1) bs

/-- Puts bytes at rising offsets. -/
def Mem.putBytes (m : Mem) (d : Die) (tier off : Nat) (bs : List Byte) : Mem :=
  if tier ≠ 0 then { m with cap := SMap.setRun blank m.cap off bs }
  else if d.plainHash then { m with fast := SMap.setRun blank m.fast off bs }
  else m.scatter d off bs

/-- The tables of a memory once a line has been written whole: no error stands in it (17 R360, R363, R422). -/
def Mem.renew (m : Mem) (tier line : Nat) : Mem :=
  let key := lineKey tier line
  { m with failed := SMap.set false m.failed key false
           soft := SMap.set false m.soft key false
           ver := SMap.erase m.ver key
           wrote := if tier = 0 then SMap.set false m.wrote (line / 256) true else m.wrote }

/-- Marks a line as written whole under a key version: it passes its checks (17 R360, R363). -/
def Die.sealLine (d : Die) (tier line ver : Nat) : Die :=
  let m := d.mem.renew tier line
  { d with mem := if Die.verOf { d with mem := m } tier line = ver then m
                  else { m with ver := SMap.put m.ver (lineKey tier line) ver } }

/-- Writes bytes as controller operations on whole lines; none when a line that is written in part fails a check. -/
def Die.poke (d : Die) (tier off : Nat) (bs : List Byte) (klock : Bool) : Option Die :=
  let ls := linesOf off bs.length
  let whole := fun l => decide (off ≤ l) && decide (l + 256 ≤ off + bs.length)
  if ls.all fun l => d.lineReady tier l && (whole l || d.lineOk tier l) then
    let d1 := { d with mem := d.mem.putBytes d tier off bs }
    some (ls.foldl (fun d l => d.sealLine tier l (if klock then 15 else d.keyCur)) d1)
  else none

/-- Counts the bursts of an access for the hot-page tracker (17 R349; log entry 95). -/
def Die.heat (d : Die) (tier off n : Nat) : Die :=
  let key := 2 * (off / 2 ^ 21) + tier
  let c := SMap.get 0 d.hot key
  { d with hot := SMap.set 0 d.hot key (min 65535 (c + (off % 64 + n + 63) / 64)) }

/-- Records an uncorrectable line in DG_INTEG_LOG (17 R363). -/
def Die.logInteg (d : Die) (tier line : Nat) (scrub : Bool) : Die :=
  let n := min 65535 (bits (d.reg 364) 48 16 + 1)
  d.setReg 364 (w64 (n * 2 ^ 48 + tier * 2 ^ 47 + (if scrub then 2 ^ 46 else 0) + line / 256 % 2 ^ 32 * 2 ^ 8))

/-- Corrects a soft error in a line and counts it (17 R362). -/
def Die.correct (d : Die) (tier line : Nat) : Die :=
  let key := lineKey tier line
  if SMap.get false d.mem.soft key then
    let n := min 65535 (bits (d.reg 363) 48 16 + 1)
    ({ d with mem := { d.mem with soft := SMap.set false d.mem.soft key false } }).setReg 363
      (w64 (n * 2 ^ 48 + tier * 2 ^ 47 + line / 256 % 2 ^ 32 * 2 ^ 8))
  else d

/-- The first line of a run that fails a check. -/
def Die.badLine (d : Die) (tier off n : Nat) : Nat :=
  ((linesOf off n).find? fun l => !d.lineOk tier l).getD 0

/-- Bring-up of the package has ended (19 R396). -/
def State.bringUpDone (s : State) : Bool := (SMap.get 0 s.pk 0).getLsbD 63

/-- An access waits for the bring-up of its stack or channel (19 R398). -/
def State.unready (s : State) (die tier off n : Nat) : Bool :=
  !s.bringUpDone && (linesOf off n).any fun l => !(s.die die).lineReady tier l

/-- The die as it would stand with every stack and channel ready. -/
def Die.allReady (d : Die) : Die := d.setReg 500 (d.reg 500 ||| w64 0x3FFFF)

/-- A read by a unit: counts, corrections and the log included; none for an uncorrectable error. -/
def State.read (s : State) (die tier off n : Nat) : State × Option (List Byte) :=
  let d := (s.die die).heat tier off n
  match d.peek tier off n with
  | some bs => (s.setDie die ((linesOf off n).foldl (fun d l => d.correct tier l) d), some bs)
  | none => (s.setDie die (d.logInteg tier (d.badLine tier off n) false), none)

/-- Corrects the lines that a write covers in part, which it reads first (17 R360, R362). -/
def Die.mend (d : Die) (tier off n : Nat) : Die :=
  ((linesOf off n).filter fun l => !(decide (off ≤ l) && decide (l + 256 ≤ off + n))).foldl (fun d l => d.correct tier l) d

/-- A write by a unit; false for an uncorrectable error, which leaves the bytes as they were. -/
def State.write (s : State) (die tier off : Nat) (bs : List Byte) (klock : Bool) : State × Bool :=
  let d := (s.die die).heat tier off bs.length
  match (d.mend tier off bs.length).poke tier off bs klock with
  | some d => (s.setDie die d, true)
  | none => (s.setDie die (d.logInteg tier (d.badLine tier off bs.length) false), false)

/-! ## Page tables -/

/-- Bytes of a page by size code (17 R343). -/
def pageSize (code : Nat) : Nat :=
  match code with
  | 0 => 2 ^ 12 | 1 => 2 ^ 16 | 2 => 2 ^ 18 | 3 => 2 ^ 21 | 4 => 2 ^ 25 | 5 => 2 ^ 29 | 6 => 2 ^ 30 | _ => 2 ^ 34

/-- Level of a leaf by size code (17 R343). -/
def pageLevel (code : Nat) : Nat :=
  if code ≤ 2 then 0 else if code ≤ 5 then 1 else 2

/-- Entries a page fills by size code (17 R343). -/
def pageGroup (code : Nat) : Nat :=
  match code with
  | 0 => 1 | 1 => 16 | 2 => 64 | 3 => 1 | 4 => 16 | 5 => 256 | 6 => 1 | _ => 16

/-- Fields of a page-table entry (17 R342). -/
def pteP (x : Nat) : Bool := x % 2 == 1
def pteLeaf (x : Nat) : Bool := x / 2 % 2 == 1
def pteSize (x : Nat) : Nat := x / 4 % 8
def pteMt (x : Nat) : Nat := x / 2 ^ 5 % 4
def pteRd (x : Nat) : Bool := x / 2 ^ 7 % 2 == 1
def pteW (x : Nat) : Bool := x / 2 ^ 8 % 2 == 1
def pteX (x : Nat) : Bool := x / 2 ^ 9 % 2 == 1
def pteRa (x : Nat) : Bool := x / 2 ^ 10 % 2 == 1
def pteAp (x : Nat) : Bool := x / 2 ^ 11 % 2 == 1
def pteTier (x : Nat) : Nat := x / 2 ^ 12 % 2
def pteKlock (x : Nat) : Bool := x / 2 ^ 13 % 2 == 1
def pteFrame (x : Nat) : Nat := x / 2 ^ 16 % 2 ^ 36
def pteApidx (x : Nat) : Nat := x / 2 ^ 16 % 2 ^ 16
def ptePaged (x : Nat) : Bool := x / 2 ^ 63 == 1

/-- A reserved bit of a present entry is set (17 R342). -/
def pteReserved (x : Nat) : Bool :=
  x / 2 ^ 52 != 0 || x / 2 ^ 14 % 4 != 0 ||
  (if pteLeaf x then pteAp x && x / 2 ^ 32 % 2 ^ 20 != 0
   else x / 4 % 2 ^ 10 != 0 || pteKlock x)

/-- The index of an address at a level (17 R343). -/
def pteIndex (va lvl : Nat) : Nat := va / 2 ^ (12 + 9 * lvl) % (if lvl = 4 then 2 ^ 7 else 2 ^ 9)

/-- What a walk comes to (17 R344). -/
inductive WalkOut where
  | leaf (x : Nat)
  | fault
  | fail (c : Cause)
  deriving DecidableEq, Repr

/-- A walk that finds a leaf. -/
def WalkOut.isLeaf : WalkOut → Bool
  | .leaf _ => true
  | _ => false

/-- A 64-bit word of a table. -/
def Die.tableWord (d : Die) (tier off : Nat) : Option Nat := (d.peek tier off 8).map leNat

/-- The walk from a level down; `n` levels remain and the table stands at (tier, base) (17 R344). -/
def Die.walkFrom (d : Die) (va : Nat) : Nat → Nat → Nat → WalkOut
  | 0, _, _ => .fail .xlat
  | n + 1, tier, base =>
    let i := pteIndex va n
    match d.tableWord tier (base + 8 * i) with
    | none => .fail .integ
    | some x =>
      if !pteP x then (if ptePaged x then .fault else .fail .xlat)
      else if pteReserved x then .fail .xlat
      else if !pteLeaf x then
        (if n = 0 then .fail .xlat else Die.walkFrom d va n (pteTier x) (pteFrame x * 4096))
      else if pageLevel (pteSize x) ≠ n then .fail .xlat
      else
        let g := pageGroup (pteSize x)
        let check := fun h : Nat =>
          if !pteAp h && (decide (pteFrame h * 4096 % pageSize (pteSize h) ≠ 0)
              || decide (tierSize (pteTier h) < pteFrame h * 4096 + pageSize (pteSize h))) then WalkOut.fail .xlat
          else .leaf h
        if g = 1 then check x
        else match d.tableWord tier (base + 8 * (i - i % g)) with
          | none => .fail .integ
          | some h =>
            if !pteP h || !pteLeaf h || pteSize h != pteSize x then .fail .xlat else check h

/-- The walk of an address in a space (17 R344). -/
def Die.walk (d : Die) (space : Nat) (va : W64) : WalkOut :=
  let r := d.reg (320 + space)
  if bits r 0 1 = 0 then .fail .xlat
  else d.walkFrom va.toNat 5 (bits r 12 1) (bits r 16 36 * 4096)

/-- The table words a walk reads, by tier and offset (17 R344). -/
def Die.walkReads (d : Die) (va : Nat) : Nat → Nat → Nat → List (Nat × Nat)
  | 0, _, _ => []
  | n + 1, tier, base =>
    let off := base + 8 * pteIndex va n
    (tier, off) :: (match d.tableWord tier off with
      | none => []
      | some x =>
        if !pteP x then []
        else if !pteLeaf x then d.walkReads va n (pteTier x) (pteFrame x * 4096)
        else [(tier, off - 8 * (pteIndex va n % pageGroup (pteSize x)))])

/-- The table words of a walk of an address in a space, and their bursts for the hot-page tracker (17 R344, R349). -/
def Die.walkWords (d : Die) (space : Nat) (va : W64) : List (Nat × Nat) :=
  let r := d.reg (320 + space)
  if bits r 0 1 = 0 then [] else d.walkReads va.toNat 5 (bits r 12 1) (bits r 16 36 * 4096)
def Die.heatWalk (d : Die) (space : Nat) (va : W64) : Die := (d.walkWords space va).foldl (fun d p => d.heat p.1 p.2 8) d

/-- t_mem of a tier (01 R23). -/
def tMem (tier : Nat) : Nat := if tier = 0 then 170 else 255

/-- Cycles of the table reads of a walk from a level down (17 R346). -/
def Die.readTime (d : Die) (va : Nat) : Nat → Nat → Nat → Nat
  | 0, _, _ => 0
  | n + 1, tier, base =>
    let here := tMem tier + 8
    match d.tableWord tier (base + 8 * pteIndex va n) with
    | none => here
    | some x =>
      if !pteP x || pteReserved x then here
      else if !pteLeaf x then here + (if n = 0 then 0 else Die.readTime d va n (pteTier x) (pteFrame x * 4096))
      else if pageLevel (pteSize x) ≠ n || pageGroup (pteSize x) = 1 then here
      else 2 * here

/-- Cycles a walk takes (17 R346). -/
def Die.walkTime (d : Die) (space : Nat) (va : W64) : Nat :=
  let r := d.reg (320 + space)
  8 + (if bits r 0 1 = 0 then 0 else d.readTime va.toNat 5 (bits r 12 1) (bits r 16 36 * 4096))

/-- A walk waits for the bring-up of the memory that holds its tables (19 R398). -/
def State.walkHeld (s : State) (die space : Nat) (va : W64) : Bool :=
  !s.bringUpDone && decide ((s.die die).walk space va = .fail .integ)
    && decide ((s.die die).allReady.walk space va ≠ .fail .integ)

/-- The walk of an address; one that waits for bring-up finds its page not present yet. -/
def State.walkOf (s : State) (die space : Nat) (va : W64) : WalkOut :=
  if s.walkHeld die space va then .fault else (s.die die).walk space va

/-! ## Translation -/

/-- Where an address lies, and what its leaf permits. -/
structure Place where
  die : Nat
  /-- The peer package of an aperture page; `off` is then the peer address (17 R345). -/
  peer : Option Nat
  tier : Nat
  off : Nat
  rd : Bool
  w : Bool
  x : Bool
  ra : Bool
  mt : Nat
  klock : Bool
  /-- Size code of the page. -/
  size : Nat
  deriving DecidableEq, Repr

/-- The TLB entry that holds an address, in a list of entries. -/
def tlbFind (tlb : List TlbEntry) (space : Nat) (va : W64) : Option TlbEntry :=
  tlb.find? fun e => e.space == space && e.base == va.toNat / pageSize e.size

/-- The list with an entry put first, and the least recently used unlocked ones dropped beyond `cap` (17 R346). -/
def tlbInsert (cap : Nat) (tlb : List TlbEntry) (e : TlbEntry) : List TlbEntry :=
  let rest := tlb.filter fun x => !(x.space == e.space && x.base == e.base && x.size == e.size)
  if rest.length < cap then e :: rest
  else match rest.reverse.find? (fun x => !x.locked) with
    | some x => e :: rest.erase x
    | none => rest

/-- The place of an address under a leaf; none where an aperture entry is not valid (17 R344, R345). -/
def placeOf (d : Die) (die : Nat) (va : W64) (x : Nat) : Option Place :=
  let sz := pageSize (pteSize x)
  let base : Place := { die := die, peer := none, tier := pteTier x, off := pteFrame x * 4096 + va.toNat % sz
                        rd := pteRd x, w := pteW x, x := pteX x, ra := pteRa x, mt := pteMt x, klock := pteKlock x
                        size := pteSize x }
  if !pteAp x then some base
  else
    let r := d.reg 339
    if bits r 0 1 = 0 then none
    else match d.tableWord (bits r 12 1) (bits r 16 36 * 4096 + 8 * pteApidx x) with
      | none => none
      | some a =>
        let rbase := a % 2 ^ 46 * 4096
        if a / 2 ^ 63 ≠ 1 ∨ rbase % sz ≠ 0 then none
        else some { base with peer := some (a / 2 ^ 48 % 2 ^ 10), off := rbase + va.toNat % sz }

/-- Why an aperture leaf has no place: its table's line fails a check, or its entry is not valid (17 R345, R363). -/
def Die.aptCause (d : Die) (x : Nat) : Cause :=
  let r := d.reg 339
  if pteAp x && bits r 0 1 == 1 && (d.tableWord (bits r 12 1) (bits r 16 36 * 4096 + 8 * pteApidx x)).isNone then .integ
  else .xlat

/-- What translating an address answers: its place, a wait for a walk, or a cause. -/
inductive Xlat where
  | at_ (p : Place) (s : State)
  | wait (s : State)
  | fail (c : Cause) (s : State)
  deriving DecidableEq, Repr

/-- The entry at the front of a TLB that holds it. -/
def tlbTouch (tlb : List TlbEntry) (e : TlbEntry) : List TlbEntry := e :: tlb.erase e

/-- Asks for a walk for the acting core, or takes the failure of one that has ended. -/
def askWalk (s : State) (va : W64) (write : Bool) : Xlat :=
  let k := s.me
  match k.walks.find? (fun w => w.va == va && w.write == write) with
  | some w =>
    match w.failed with
    | some c => .fail c (s.setMe { k with walks := k.walks.erase w })
    | none => .wait s
  | none => .wait (s.setMe { k with walks := k.walks ++
      [{ space := k.space, va := va, write := write, due := s.cycle + 1 + (s.die (bits va 55 3)).walkTime k.space va }] })

/-- Translates an address for the acting core: through its own TLB in its own die, else through the owning die's
memory-side TLB (17 R344-R346, 14 R286). -/
def translate (s : State) (va : W64) (write : Bool) : Xlat :=
  if bits va 58 6 ≠ 0 then .fail .xlat s
  else
    let k := s.me
    let die := bits va 55 3
    let own := decide (die = s.myDie)
    let tlb := if own then k.tlb else (s.die die).tlb
    match tlbFind tlb k.space va with
    | none => askWalk s va write
    | some e =>
      let s := if own then s.setMe { k with tlb := tlbTouch k.tlb e }
               else s.updDie die fun d => { d with tlb := tlbTouch d.tlb e }
      match placeOf (s.die die) die va e.leaf with
      | some p => .at_ p s
      | none => .fail ((s.die die).aptCause e.leaf) s

/-- Translates and checks alignment and permission, in the order of R89: #XLAT, #ALIGN, #PERM. -/
def locate (s : State) (va : W64) (size : Nat) (read write : Bool) : Xlat :=
  match translate s va write with
  | .at_ p s =>
    if va.toNat % size ≠ 0 then .fail .align s
    else if (read && !p.rd) || (write && !p.w) then .fail .perm s
    else .at_ p s
  | r => r

/-- Continues a body at the place of an address, or traps with the address in CF_TVAL. -/
def withPlace (s : State) (va : W64) (size : Nat) (read write : Bool) (f : Place → State → Res) : Res :=
  match locate s va size read write with
  | .at_ p s => f p s
  | .wait s => .wait s
  | .fail c _ => .fail c va

/-! ## Accesses issued and not yet performed -/

/-- Two accesses touch a common byte, or, on a DEVICE page, a common 64-byte block (16 R335). -/
def Posted.meets (a : Posted) (die : Nat) (peer : Option Nat) (tier off n mt : Nat) : Bool :=
  let an := match a.write with | some bs => bs.length | none => 128
  decide (a.die = die) && decide (a.peer = peer) && decide (a.tier = tier) &&
    (if a.mt = 2 ∨ mt = 2 then
       decide (a.off / 64 ≤ (off + n - 1) / 64) && decide (off / 64 ≤ (a.off + an - 1) / 64)
     else decide (a.off < off + n) && decide (off < a.off + an))

/-- An earlier access must take effect before a later one of its path (06 R138, 16 R335, R336). -/
def Posted.before (a : Posted) (alias_ : Bool) (die : Nat) (peer : Option Nat) (tier off n mt cls : Nat) : Bool :=
  (decide (a.mt = 3) && decide (mt = 3)) ||
  (a.meets die peer tier off n mt && (!alias_ || decide (a.cls = cls) || decide (2 ≤ a.mt) || decide (2 ≤ mt)))

/-- CF_MODE.ALIAS as the engine of a tag sees it (04 R92, R95). -/
def Core.aliasMode (k : Core) (tag : Nat) : Bool := bits (k.modeSeen tag) 1 1 == 1

/-- Whether accesses of engines are of one path: C and A travel on path A (16 R320). -/
def samePath (a b : Engine) : Bool :=
  let p := fun e : Engine => if e = .c then .a else e
  decide (p a = p b)

/-- Two accesses of path A, by engines `a` and `b`, whose classes may let them pass each other: CF_MODE.ALIAS allows it, but not
to two accesses of C (06 R138; 04 R89). -/
def Core.mayPass (k : Core) (a b : Engine) : Bool := k.aliasMode b.tag && !(decide (a = .c) && decide (b = .c))

/-- An access of the acting core must wait for one of its own posted accesses. -/
def Core.mustWait (k : Core) (t : Engine) (p : Place) (n cls : Nat) : Bool :=
  k.posted.any fun a => samePath a.eng t && a.before (k.mayPass a.eng t) p.die p.peer p.tier p.off n p.mt cls

end Sys2Proof.Machine
end

