-- ==== Sys2Proof/Machine/Pins.lean ====
section
/-! DEFINITION. The page-lock table of a die (17 R348). -/

namespace Sys2Proof.Machine

/-- A page named by a pin: its die, tier, frame (offset by 4,096) and size code. -/
abbrev PageKey := Nat × Nat × Nat × Nat

/-- The key of the page a leaf maps in its die. -/
def keyOf (die leaf : Nat) : PageKey := (die, pteTier leaf, pteFrame leaf, pteSize leaf)

/-- The page a TLB entry of a die names: one behind an aperture lies in its peer package, and is no page of the die (17 R345, R348;
log entry 2). -/
def State.pageKey (s : State) (die : Nat) (e : TlbEntry) : PageKey :=
  if !pteAp e.leaf then keyOf die e.leaf
  else match placeOf (s.die die) die (w64 (e.base * pageSize e.size)) e.leaf with
    | some q => (8 + q.peer.getD 0, 0, q.off / 4096, q.size)
    | none => (8 + 1024, 0, pteApidx e.leaf, e.size)

/-- The pages that leg-table entries or translations name. -/
def State.pageKeys (s : State) (ps : List (Nat × TlbEntry)) : List PageKey := ps.map fun p => s.pageKey p.1 p.2

/-- The pin count of a page. -/
def Die.pinCount (d : Die) (tier frame size : Nat) : Nat :=
  match d.locks.find? (fun l => l.tier == tier && l.frame == frame && l.size == size) with
  | some l => l.count
  | none => 0

/-- The frames of a swap in progress are held: new pins on them wait (17 R351). -/
def Die.swapping (d : Die) (tier frame size : Nat) : Bool :=
  match d.swap with
  | none => false
  | some w =>
    let f := frame * 4096
    let hit := fun base => decide (base < f + pageSize size) && decide (f < base + 2 ^ 21)
    (tier == 1 && hit (w.hot * 2 ^ 21)) || (tier == 0 && hit (w.cold * 2 ^ 21))

/-- Raises the pin count of a page by one; none while it must wait. -/
def Die.pin (d : Die) (tier frame size : Nat) : Option Die :=
  if d.swapping tier frame size then none
  else
    let same := fun l : Lock => l.tier == tier && l.frame == frame && l.size == size
    match d.locks.find? same with
    | some l =>
      if 65535 ≤ l.count then none
      else some { d with locks := d.locks.map fun x => if same x then { x with count := x.count + 1 } else x }
    | none =>
      if 16384 ≤ d.locks.length then none
      else some { d with locks := d.locks ++ [{ tier := tier, frame := frame, size := size, count := 1 }] }

/-- Lowers the pin count of a page by one; an entry that falls to 0 is free. -/
def Die.unpin (d : Die) (tier frame size : Nat) : Die :=
  let same := fun l : Lock => l.tier == tier && l.frame == frame && l.size == size
  { d with locks := (d.locks.map fun x => if same x then { x with count := x.count - 1 } else x).filter
                      fun x => decide (x.count ≠ 0) }

/-- A page of a peer package, at 8 and its number, is pinned, or no longer, at its owning die there (11 R235; log entry 2). -/
def State.tellPin (s : State) (k : PageKey) (form : Nat) : State :=
  if 1032 ≤ k.1 then s
  else { s with peerOut := s.peerOut ++ [{ core := s.actor, eng := .k, package := k.1 - 8, addr := k.2.2.1 * 4096, n := 0, data := []
                                           page := some (form, false) }] }

/-- Pins pages of any die, all or none (11 R235). -/
def State.pinAll (s : State) : List PageKey → Option State
  | [] => some s
  | k :: ks =>
    if 8 ≤ k.1 then (s.tellPin k 1).pinAll ks
    else match (s.die k.1).pin k.2.1 k.2.2.1 k.2.2.2 with
    | some d => (s.setDie k.1 d).pinAll ks
    | none => none

/-- A single request would need more than 4,096 entries of one die (17 R348). -/
def tooManyPins (ks : List PageKey) : Bool :=
  (List.range 8).any fun d => decide (4096 < (ks.filter fun k => decide (k.1 = d)).length)

/-- Unpins pages of any die. -/
def State.unpinAll (s : State) (ks : List PageKey) : State :=
  ks.foldl (fun s k => if 8 ≤ k.1 then s.tellPin k 2 else s.updDie k.1 fun d => d.unpin k.2.1 k.2.2.1 k.2.2.2) s

end Sys2Proof.Machine
end

