-- ==== Sys2Proof/Machine/Closures.lean ====
section
/-! DEFINITION. The pending closure of a tree, and which leg-table buffer is current or committed (05 R98, R104-R107). -/

namespace Sys2Proof.Machine

/-- The buffer of a number, A at 0 and B at 1. -/
def Die.buf (d : Die) (b : Nat) : LegBuf := if b = 0 then d.bufA else d.bufB

/-- A die with one buffer replaced. -/
def Die.setBuf (d : Die) (b : Nat) (x : LegBuf) : Die := if b = 0 then { d with bufA := x } else { d with bufB := x }

/-- Number of participants of a core set given as bits. -/
def bitCount (v n : Nat) : Nat := ((List.range n).filter fun i => v / 2 ^ i % 2 == 1).length

/-- Every participating core of the traverse on this die, and every station the closing table names, has signed. -/
def Trav.stationsDue (d : Die) (t : Trav) : List Nat :=
  if t.opening then []
  else match t.cur with
    | none => []
    | some b =>
      let tb := (d.buf b).table
      (if tb.timelines.any fun x => x.stack == 0 then [0] else []) ++
      (if tb.timelines.any fun x => x.stack == 1 then [1] else []) ++
      (if tb.slots.any fun x => decide (x.lane < 4) then [2] else [])

/-- All of this die's participants have arrived at the pending closure (05 R98, R107). -/
def Die.allSigned (d : Die) (t : Trav) : Bool :=
  decide (bitCount t.cores 512 ≤ t.signed.length) && (Trav.stationsDue d t).all fun x => t.stations.contains x

/-- The dies whose open traverse runs on a tree and is not closed. -/
def State.diesOn (s : State) (tree : Nat) : List Nat :=
  (List.range 8).filter fun d => match (s.die d).trav with | some t => decide (t.tree = tree) && !t.closed | none => false

/-- What a closure of a tree has come to. -/
structure Closure where
  done : Bool
  tLast : Nat
  vote : Bool
  deriving DecidableEq, Repr

/-- The traverse of a die, or one that has nothing. -/
def State.travOf (s : State) (d : Nat) : Trav := (s.die d).trav.getD { tree := 16, cores := 0, firstBuf := 0 }

/-- The cores of a die that take part in its traverse. -/
def State.participants (s : State) (d : Nat) : List Nat :=
  let t := s.travOf d
  ((List.range 512).filter fun i => t.cores / 2 ^ i % 2 == 1 && !t.left.contains i).map fun i => 512 * d + i

/-- A core of the traverse of a die, on any die of its tree. -/
def State.ofTraverse (s : State) (d core : Nat) : Bool :=
  (s.diesOn (s.travOf d).tree).any fun x => (s.participants x).contains core

/-- The table whose closure is pending on a die: the current leg's, or the first one's at the opening (05 R107, R112). -/
def State.closingTable (s : State) (d : Nat) : LegTable :=
  match (s.travOf d).cur with
  | some b => ((s.die d).buf b).table
  | none => (s.die d).firstTable.getD {}

/-- The first table of a die's traverse was BAD before its directory and its slots could be read, so that no one can tell its
controllers and stations from the cores of its tree: the cores of the die's own package are then all that signs (05 R98). -/
def State.outlineLost (s : State) (d : Nat) : Bool :=
  let t := s.travOf d
  let tb := s.closingTable d
  t.opening && decide (((s.die d).buf t.firstBuf).st = .bad) && tb.timelines.isEmpty && tb.slots.isEmpty

/-- The bridges some slot of the closing tables reserves (05 R98). -/
def State.bridgesDue (s : State) (ds : List Nat) : List Nat :=
  let lanes := ds.flatMap fun d => (s.closingTable d).slots.map (·.lane)
  (if lanes.any fun l => l == 4 || l == 5 then [3] else []) ++ (if lanes.any fun l => decide (6 ≤ l) then [4] else [])

/-- Stacks of a die that the first table of its traverse lists: at the opening their controllers prepare (17 R358). -/
def State.preparing (s : State) (d : Nat) : List Nat :=
  if (s.die d).trav.isSome && (s.travOf d).opening then [0, 1].filter fun k => (s.closingTable d).timelines.any fun x => x.stack == k else []

/-- The pending closure of a tree over the dies of the package and its peers (05 R98, R105, R107). -/
def State.closure (s : State) (tree : Nat) : Closure :=
  let ds := s.diesOn tree
  let opening := ds.any fun d => (s.travOf d).opening
  let br := s.bridgesDue ds
  let here := (ds.map fun d => (s.travOf d).signed.length + (s.travOf d).stations.length).sum
  let bridgeN := (s.bridges.filter fun p => p.1 == tree).length
  let peers := s.peerSigns.filter fun p => p.tree == tree
  let total := here + bridgeN + (peers.map (·.n)).sum
  let stations := if opening then
      (ds.map fun d =>
        let tb := s.closingTable d
        ((if tb.timelines.any fun x => x.stack == 0 then 1 else 0) +
         (if tb.timelines.any fun x => x.stack == 1 then 1 else 0) +
         (if tb.slots.any fun x => decide (x.lane < 4) then 1 else 0))).sum + br.length
    else 0
  let npart := match ds with | d :: _ => (s.closingTable d).npart | [] => 0
  { done := !ds.isEmpty && (ds.all fun d => (s.die d).allSigned (s.travOf d))
      && (decide (npart ≤ total + stations) || (ds.any fun d => s.outlineLost d))
      && (opening || br.all fun b => s.bridges.contains (tree, b))
    tLast := ((ds.map fun d => (s.travOf d).tLast) ++ peers.map (·.cycle)).foldl max 0
    vote := (ds.any fun d => (s.travOf d).vote) || peers.any (·.vote) }

/-- The buffer a closure has selected and whose leg has not started, on a die (05 R104). -/
def State.committedBuf (s : State) (d : Nat) : Option Nat :=
  match (s.die d).trav with
  | none => none
  | some t =>
    if t.closed then t.sel
    else if s.cycle < t.tStart then t.cur
    else if (s.closure t.tree).done then some (if (s.closure t.tree).vote then 1 else 0)
    else none

/-- The vote of the last closure on a die: that of one which has completed and whose leg has not begun, or what LEG_START has
kept (05 R105, R121). -/
def State.voteOf (s : State) (d : Nat) : Nat :=
  let kept := bits ((s.die d).reg 273) 12 1
  match (s.die d).trav with
  | none => kept
  | some t =>
    let c := s.closure t.tree
    if t.closed || s.cycle < t.tStart || !c.done then kept else if c.vote then 1 else 0

/-- The buffer from which a leg of the die runs, from its start until the next leg's start (05 R104). -/
def State.currentBuf (s : State) (d : Nat) : Option Nat :=
  match (s.die d).trav with
  | none => none
  | some t => if s.cycle < t.tStart then t.was else t.cur

/-- A buffer is committed (05 R104). -/
def State.committed (s : State) (d b : Nat) : Bool := s.committedBuf d == some b

/-- A buffer is current (05 R104). -/
def State.current (s : State) (d b : Nat) : Bool := s.currentBuf d == some b

end Sys2Proof.Machine
end

