-- ==== Sys2Proof/Machine/Flags.lean ====
section
/-! DEFINITION. The values and status bits of the integer forms (04 R72-R79). -/

namespace Sys2Proof.Machine

/-- CF_STATUS.SAT, TERNBAD and DIVZ (04 R95). -/
abbrev satBit : Nat := 0
abbrev ternBadBit : Nat := 1
abbrev divzBit : Nat := 2

/-- A quotient, a remainder and whether the divisor was zero (04 R74). -/
structure DivOut where
  quot : W64
  rem : W64
  zero : Bool
  deriving DecidableEq, Repr

/-- C.DIV on two words, read unsigned or signed (04 R74). -/
def divide (unsignd : Bool) (a b : W64) : DivOut :=
  if b = 0 then { quot := BitVec.allOnes 64, rem := a, zero := true }
  else if unsignd then { quot := w64 (a.toNat / b.toNat), rem := w64 (a.toNat % b.toNat), zero := false }
  else { quot := BitVec.ofInt 64 (Int.tdiv a.toInt b.toInt), rem := BitVec.ofInt 64 (Int.tmod a.toInt b.toInt)
         zero := false }

/-- The high half of the signed and of the unsigned product (04 R73). -/
def mulHigh (a b : W64) : W64 := BitVec.ofInt 64 (Int.fdiv (a.toInt * b.toInt) (2 ^ 64))
def mulHighU (a b : W64) : W64 := w64 (a.toNat * b.toNat / 2 ^ 64)

/-- The shift and rotate forms of C.SHF: shl, shr, sar, rol (04 R75). -/
def shiftOp (o : BitVec 2) (a n : W64) : W64 :=
  match o.toNat with
  | 0 => if 64 ≤ n.toNat then 0 else w64 (a.toNat * 2 ^ n.toNat)
  | 1 => if 64 ≤ n.toNat then 0 else w64 (a.toNat / 2 ^ n.toNat)
  | 2 => BitVec.ofInt 64 (Int.fdiv a.toInt (2 ^ min n.toNat 63))
  | _ => let r := n.toNat % 64; w64 (a.toNat * 2 ^ r + a.toNat / 2 ^ (64 - r))

/-- Set bits among the low `n` bits. -/
def popCount (v : Nat) : Nat → Nat
  | 0 => 0
  | n + 1 => v % 2 + popCount (v / 2) n

/-- Zeros below the lowest set bit, `n` when the low `n` bits are zero. -/
def trailingZeros (v : Nat) : Nat → Nat
  | 0 => 0
  | n + 1 => if v % 2 = 1 then 0 else 1 + trailingZeros (v / 2) n

/-- Zeros above the highest set bit of a 64-bit value. -/
def leadingZeros (v : Nat) : Nat := if v = 0 then 64 else 63 - Nat.log2 v

/-- The low `n` bytes of a number in reverse order. -/
def swapBytes (v : Nat) : Nat → Nat
  | 0 => 0
  | n + 1 => v % 256 * 256 ^ n + swapBytes (v / 256) n

/-- The bit-count forms of C.SHF: popc, clz, ctz, bswap (04 R75). -/
def bitOp (o : BitVec 2) (a : W64) : W64 :=
  match o.toNat with
  | 0 => w64 (popCount a.toNat 64)
  | 1 => w64 (leadingZeros a.toNat)
  | 2 => w64 (trailingZeros a.toNat 64)
  | _ => w64 (swapBytes a.toNat 8)

/-- The condition of C.CMP and C.SETP: eq, ne, lt, le, ltu, leu (04 R77). -/
def condHolds (c : BitVec 3) (a b : W64) : Bool :=
  match c.toNat with
  | 0 => a == b
  | 1 => a != b
  | 2 => a.slt b
  | 3 => a.sle b
  | 4 => a.ult b
  | _ => a.ule b

/-- C.MINMAX: min, max, minu, maxu (04 R76). -/
def minMax (m : BitVec 2) (a b : W64) : W64 :=
  match m.toNat with
  | 0 => if b.slt a then b else a
  | 1 => if a.slt b then b else a
  | 2 => if b.ult a then b else a
  | _ => if a.ult b then b else a

/-- C.PRED and, or, xor, andn on one predicate (04 R79). -/
def predCombine (o : BitVec 2) (p t : Bool) : Bool :=
  match o.toNat with
  | 0 => p && t
  | 1 => p || t
  | 2 => xor p t
  | _ => p && !t

/-- C.PRED not, set, clr (04 R79). -/
def predSet (o : BitVec 2) (p : Bool) : Bool :=
  match o.toNat with
  | 0 => !p
  | 1 => true
  | _ => false

/-- A predicate register file with one predicate replaced. -/
def setPred (p : BitVec 8) (n : Nat) (v : Bool) : BitVec 8 :=
  if v then p ||| BitVec.ofNat 8 (2 ^ n) else p &&& ~~~ BitVec.ofNat 8 (2 ^ n)

/-- Sign-extends the low `n` bits of a number to a word. -/
def sextBits (n v : Nat) : W64 :=
  if v % 2 ^ n < 2 ^ (n - 1) then w64 (v % 2 ^ n) else BitVec.ofInt 64 (Int.ofNat (v % 2 ^ n) - 2 ^ n)

end Sys2Proof.Machine
end

