-- ==== Sys2Proof/Machine/Control.lean ====
section
/-! DEFINITION. Literals, STK and WAIT of every engine, and the control engine's words but for its loads, stores and
configuration registers (02 R26, R32; 05 R116; 04 R71-R88). -/

namespace Sys2Proof.Machine

/-! ## Shapes -/

/-- A C word that pops entries, PS0 first, and pushes values that depend on them alone. -/
def pureC (i : Instr) (n p : Nat) (f : List W64 → List W64) (s : State) : Out :=
  issue .c i n (popping .c p (f (List.replicate p 0)).length fun vs s => .ok (pushing .c (f vs) s)) s

/-- A two-operand form ( a b — c ). -/
def binC (i : Instr) (n : Nat) (f : W64 → W64 → W64) (s : State) : Out :=
  pureC i n 2 (fun vs => [f (vs.getD 1 0) (vs.getD 0 0)]) s

/-- A one-operand form ( a — c ). -/
def unC (i : Instr) (n : Nat) (f : W64 → W64) (s : State) : Out :=
  pureC i n 1 (fun vs => [f (vs.getD 0 0)]) s

/-- A change of the control engine's registers. -/
def State.updCtl (s : State) (f : Ctl → Ctl) : State := s.updMe fun k => { k with ctl := f k.ctl }

/-! ## Literals, STK, WAIT -/

/-- LITERAL_PUSH (02 R26). -/
def execLiteralPush (t : Engine) (i : BitVec 11) (s : State) : Out :=
  issue t (.literalPush t i) 1 (fun s =>
    if 8 ≤ (s.stack t).length then .fail .stk 0 else .ok (pushing t [sextBits 11 i.toNat] s)) s

/-- LITERAL_EXTEND (02 R26). -/
def execLiteralExtend (t : Engine) (i : BitVec 11) (s : State) : Out :=
  issue t (.literalExtend t i) 1 (popping t 1 1 fun vs s =>
    .ok (pushing t [(vs.getD 0 0) <<< (11 : Nat) ||| w64 i.toNat] s)) s

/-- The distance WAIT puts before its engine's next word (05 R116). -/
def waitCount (t : Engine) (n : BitVec 6) (s : State) : Nat :=
  max 1 (if n = 0 then ((s.stack t).getD 0 0).toNat else n.toNat)

/-- WAIT (05 R116). -/
def execWait (t : Engine) (n : BitVec 6) (s : State) : Out :=
  issueN t (.wait t n) (waitCount t n)
    (if n = 0 then popping t 1 0 fun _ s => .ok s else fun s => .ok s) s

/-- An STK word: the depth it needs, whether it pushes one more entry, and the stack after it (02 R32). -/
def stkOp (t : Engine) (i : Instr) (need : Nat) (grows : Bool) (f : List W64 → List W64) (s : State) : Out :=
  issue t i 1 (fun s =>
    let st := s.stack t
    if st.length < need || (grows && decide (8 ≤ st.length)) then .fail .stk 0 else .ok (s.setStack t (f st))) s

/-- STK dup k (02 R32). -/
def execStkDup (t : Engine) (k : BitVec 3) (s : State) : Out :=
  stkOp t (.stkDup t k) (k.toNat + 1) true (fun st => st.getD k.toNat 0 :: st) s

/-- STK drop k (02 R32). -/
def execStkDrop (t : Engine) (k : BitVec 3) (s : State) : Out :=
  stkOp t (.stkDrop t k) (k.toNat + 1) false (fun st => st.eraseIdx k.toNat) s

/-- STK swap k (02 R32). -/
def execStkSwap (t : Engine) (k : BitVec 3) (s : State) : Out :=
  stkOp t (.stkSwap t k) (k.toNat + 1) false
    (fun st => (st.set 0 (st.getD k.toNat 0)).set k.toNat (st.getD 0 0)) s

/-- STK over k (02 R32). -/
def execStkOver (t : Engine) (k : BitVec 3) (s : State) : Out :=
  stkOp t (.stkOver t k) (k.toNat + 1) false (fun st => st.getD k.toNat 0 :: st.eraseIdx k.toNat) s

/-! ## Registers and predicates -/

/-- A C word that reads a value and pushes it. -/
def getC (i : Instr) (f : Ctl → W64) (s : State) : Out :=
  issue .c i 1 (popping .c 0 1 fun _ s => .ok (pushing .c [f s.me.ctl] s)) s

/-- A C word that pops a value into the control engine's registers. -/
def putC (i : Instr) (f : W64 → Ctl → Ctl) (s : State) : Out :=
  issue .c i 1 (popping .c 1 0 fun vs s => .ok (s.updCtl (f (vs.getD 0 0)))) s

/-- C.GET x (04 R71). -/
def execCGetX (n : BitVec 4) (s : State) : Out := getC (.cGetX n) (fun r => r.x.get ⟨n.toNat, n.isLt⟩) s

/-- C.GET p (04 R71). -/
def execCGetP (n : BitVec 3) (s : State) : Out := getC (.cGetP n) (fun r => boolW (r.p.getLsbD n.toNat)) s

/-- C.GET pmask (04 R71). -/
def execCGetPmask (s : State) : Out := getC .cGetPmask (fun r => r.p.setWidth 64) s

/-- C.GET lidx (04 R71): the iteration number of a loop level, 0 where no such loop is active. -/
def execCGetLidx (k : BitVec 2) (s : State) : Out :=
  getC (.cGetLidx k) (fun r => match r.loops[k.toNat]? with | some e => e.iter | none => 0) s

/-- C.PUT x (04 R71). -/
def execCPutX (n : BitVec 4) (s : State) : Out :=
  putC (.cPutX n) (fun v r => { r with x := r.x.set n.toNat v n.isLt }) s

/-- C.PUT p (04 R71). -/
def execCPutP (n : BitVec 3) (s : State) : Out :=
  putC (.cPutP n) (fun v r => { r with p := setPred r.p n.toNat (v != 0) }) s

/-- C.PUT pmask (04 R71). -/
def execCPutPmask (s : State) : Out := putC .cPutPmask (fun v r => { r with p := v.setWidth 8 }) s

/-! ## Arithmetic and logic -/

/-- C.ADD (04 R72). -/
def execCAdd (s : State) : Out := binC .cAdd 1 (· + ·) s

/-- C.ADD imm (04 R72). -/
def execCAddImm (i : BitVec 5) (s : State) : Out := unC (.cAddImm i) 1 (· + i.signExtend 64) s

/-- C.SUB (04 R72). -/
def execCSub (s : State) : Out := binC .cSub 1 (· - ·) s

/-- C.SUB imm (04 R72). -/
def execCSubImm (i : BitVec 5) (s : State) : Out := unC (.cSubImm i) 1 (· - i.signExtend 64) s

/-- C.AND (04 R72). -/
def execCAnd (s : State) : Out := binC .cAnd 1 (· &&& ·) s

/-- C.AND imm (04 R72). -/
def execCAndImm (i : BitVec 5) (s : State) : Out := unC (.cAndImm i) 1 (· &&& i.signExtend 64) s

/-- C.OR (04 R72). -/
def execCOr (s : State) : Out := binC .cOr 1 (· ||| ·) s

/-- C.OR imm (04 R72). -/
def execCOrImm (i : BitVec 5) (s : State) : Out := unC (.cOrImm i) 1 (· ||| i.signExtend 64) s

/-- C.XOR (04 R72). -/
def execCXor (s : State) : Out := binC .cXor 1 (· ^^^ ·) s

/-- C.XOR imm (04 R72). -/
def execCXorImm (i : BitVec 5) (s : State) : Out := unC (.cXorImm i) 1 (· ^^^ i.signExtend 64) s

/-- C.MUL (04 R73). -/
def execCMul (s : State) : Out := binC .cMul 3 (· * ·) s

/-- C.MULH (04 R73). -/
def execCMulh (s : State) : Out := binC .cMulh 3 mulHigh s

/-- C.MULHU (04 R73). -/
def execCMulhu (s : State) : Out := binC .cMulhu 3 mulHighU s

/-- C.DIV in any form: what it pushes of quotient and remainder (04 R74). -/
def divC (i : Instr) (u : BitVec 1) (out : DivOut → List W64) (s : State) : Out :=
  issue .c i 36 (popping .c 2 (out ⟨0, 0, false⟩).length fun vs s =>
    let r := divide (u == 1) (vs.getD 1 0) (vs.getD 0 0)
    .ok (pushing .c (out r) (s.stickIf r.zero divzBit))) s

/-- C.DIV quotient (04 R74). -/
def execCDiv (u : BitVec 1) (s : State) : Out := divC (.cDiv u) u (fun r => [r.quot]) s

/-- C.DIV remainder (04 R74). -/
def execCRem (u : BitVec 1) (s : State) : Out := divC (.cRem u) u (fun r => [r.rem]) s

/-- C.DIV quotient and remainder, the remainder on top (04 R74). -/
def execCDivrem (u : BitVec 1) (s : State) : Out := divC (.cDivrem u) u (fun r => [r.quot, r.rem]) s

/-- C.SHF shifts and rotate (04 R75). -/
def execCShift (o : BitVec 2) (s : State) : Out := binC (.cShift o) 1 (shiftOp o) s

/-- C.SHF bit counts and byte reversal (04 R75). -/
def execCBitop (o : BitVec 2) (s : State) : Out := unC (.cBitop o) 1 (bitOp o) s

/-- C.MINMAX (04 R76). -/
def execCMinmax (m : BitVec 2) (s : State) : Out := binC (.cMinmax m) 1 (minMax m) s

/-- C.CMP (04 R77). -/
def execCCmp (c : BitVec 3) (s : State) : Out := binC (.cCmp c) 1 (fun a b => boolW (condHolds c a b)) s

/-- C.SETP (04 R77). -/
def execCSetp (c n : BitVec 3) (s : State) : Out :=
  issue .c (.cSetp c n) 1 (popping .c 2 0 fun vs s =>
    .ok (s.updCtl fun r => { r with p := setPred r.p n.toNat (condHolds c (vs.getD 1 0) (vs.getD 0 0)) })) s

/-- C.SEL (04 R78). -/
def execCSel (n : BitVec 3) (s : State) : Out :=
  issue .c (.cSel n) 1 (popping .c 2 1 fun vs s =>
    .ok (pushing .c [if s.me.ctl.p.getLsbD n.toNat then vs.getD 1 0 else vs.getD 0 0] s)) s

/-- C.PRED and, or, xor, andn (04 R79). -/
def execCPredCombine (d : BitVec 3) (o : BitVec 2) (s : State) : Out :=
  putC (.cPredCombine d o)
    (fun v r => { r with p := setPred r.p d.toNat (predCombine o (r.p.getLsbD d.toNat) (v != 0)) }) s

/-- C.PRED not, set, clr (04 R79). -/
def execCPredSet (d : BitVec 3) (o : BitVec 2) (s : State) : Out :=
  issue .c (.cPredSet d o) 1 (fun s =>
    .ok (s.updCtl fun r => { r with p := setPred r.p d.toNat (predSet o (r.p.getLsbD d.toNat)) })) s

/-! ## Control transfer -/

/-- The text address an offset reaches from the operation word, when it lies in the text (04 R80, R82). -/
def Core.targetOf (k : Core) (o : BitVec 13) : Option Nat :=
  let x : Int := Int.ofNat (k.en .c).pc + o.toInt
  if 0 ≤ x ∧ x < Int.ofNat k.text.len then some x.toNat else none

/-- A C.BR whose outcome lies outside the innermost body at the current call depth removes that entry, and so on
(04 R85). -/
def leaveLoops (depth target : Nat) : List LoopEntry → List LoopEntry
  | [] => []
  | e :: es =>
    if e.depth = depth ∧ (target < e.start ∨ e.stop < target) then leaveLoops depth target es else e :: es

/-- A steering word of C, at which it stalls before anything else while a steering queue is full (02 R33, R34; 04 R70): the body answers the state and the address to continue at. -/
def issueSteer (i : Instr) (body : State → Except Cause (State × Nat)) (s : State) : Out :=
  let k := s.me
  let addr := (k.en .c).pc
  if k.steerFull then .next (s.updMe fun k => k.stall .c s.cycle)
  else if !legalFields i then .next (takeTrap s 0 addr .ill 0)
  else match body s with
    | .error c => .next (takeTrap s 0 addr c 0)
    | .ok (s2, target) => .next (s2.updMe fun k => k.steerTo addr (lenInstr i) target false s.cycle 1)

/-- C.BR on a condition that is computed from the state, popping the entries it reads (04 R80, R82, R85). The target is checked
before the stack: DESIGN CHOICE, the spec gives no order (log entry 29). -/
def branchC (i : Instr) (o : BitVec 13) (pops : Nat) (taken : State → Bool) (s : State) : Out :=
  issueSteer i (fun s =>
    match s.me.targetOf o with
    | none => .error .ill
    | some tgt =>
      if (s.stack .c).length < pops then .error .stk
      else
        let next := (s.me.en .c).pc + 2
        let out := if taken s then tgt else next
        let s := s.setStack .c ((s.stack .c).drop pops)
        .ok (s.updCtl fun r => { r with loops := leaveLoops r.ret.length out r.loops }, out)) s

/-- C.BR (04 R80). -/
def execCBr (o : BitVec 13) (s : State) : Out := branchC (.cBr o) o 0 (fun _ => true) s

/-- C.BR.T (04 R80). -/
def execCBrT (n : BitVec 3) (o : BitVec 13) (s : State) : Out :=
  branchC (.cBrT n o) o 0 (fun s => s.me.ctl.p.getLsbD n.toNat) s

/-- C.BR.F (04 R80). -/
def execCBrF (n : BitVec 3) (o : BitVec 13) (s : State) : Out :=
  branchC (.cBrF n o) o 0 (fun s => !s.me.ctl.p.getLsbD n.toNat) s

/-- C.BR.NZ (04 R80). -/
def execCBrNz (o : BitVec 13) (s : State) : Out :=
  branchC (.cBrNz o) o 1 (fun s => (s.stack .c).getD 0 0 != 0) s

/-- C.CALL (04 R81, R82). -/
def execCCall (o : BitVec 13) (s : State) : Out :=
  issueSteer (.cCall o) (fun s =>
    match s.me.targetOf o with
    | none => .error .ill
    | some tgt =>
      if 16 ≤ s.me.ctl.ret.length then .error .stk
      else .ok (s.updCtl fun r => { r with ret := (((s.me.en .c).pc + 2) % 2 ^ 14) :: r.ret }, tgt)) s

/-- C.RET (04 R81, R85). -/
def execCRet (s : State) : Out :=
  issueSteer .cRet (fun s =>
    match s.me.ctl.ret with
    | [] => .error .stk
    | a :: rest =>
      let depth := s.me.ctl.ret.length
      .ok (s.updCtl fun r => { r with ret := rest, loops := r.loops.filter fun e => e.depth != depth }, a)) s

/-- C.LOOP with a count (04 R82, R83). -/
def loopBody (o : BitVec 13) (count : W64) (s : State) : Res :=
  let a := (s.me.en .c).pc
  let stop := a + o.toNat
  if s.me.text.len ≤ stop then .fail .ill 0
  else if o = 1 then .ok s
  else if 4 ≤ s.me.ctl.loops.length then .fail .stk 0
  else .ok (s.updCtl fun r => { r with
    loops := { start := a + 2, stop := stop, iter := 0, count := if count = 0 then 1 else count
               depth := r.ret.length } :: r.loops })

/-- C.LOOP with its count on the stack (04 R83). The end is checked before the stack: DESIGN CHOICE, the spec gives no order
(log entry 29). -/
def execCLoop (o : BitVec 13) (s : State) : Out :=
  issue .c (.cLoop o) 1 (fun s =>
    if s.me.text.len ≤ (s.me.en .c).pc + o.toNat then .fail .ill 0
    else popping .c 1 0 (fun vs s => loopBody o (vs.getD 0 0) s) s) s

/-- C.LOOP with its count in the word (04 R83). -/
def execCLoopCount (n : BitVec 6) (o : BitVec 13) (s : State) : Out :=
  issue .c (.cLoopCount n o) 1 (loopBody o (w64 n.toNat)) s

/-! ## Parameter queues -/

/-- C.SEND (04 R86, R88). -/
def execCSend (e : BitVec 3) (s : State) : Out :=
  issue .c (.cSend e) 1 (popping .c 1 0 fun vs s =>
    let t := Engine.ofTag e.toNat
    let k := s.me
    if 8 ≤ (k.ctl.outq.filter fun x => decide (x.dest = t)).length then .wait s
    else .ok (s.updCtl fun r => { r with
      outq := r.outq ++ [{ dest := t, val := vs.getD 0 0, place := (k.en .c).place }] })) s

/-- C.RECV (04 R87, R88). The named engine is checked before the stack: DESIGN CHOICE, the spec gives no order (log entry 29). -/
def execCRecv (e : BitVec 3) (s : State) : Out :=
  issue .c (.cRecv e) 1 (fun s =>
    let t := Engine.ofTag e.toNat
    if !(s.me.en t).active then .fail .ill 0
    else if !stackFits (s.stack .c) 0 1 then .fail .stk 0
    else match s.me.ctl.inq.find? (fun x => decide (x.1 = t)) with
      | none => .wait s
      | some x => .ok (pushing .c [x.2] (s.updCtl fun r => { r with inq := r.inq.erase x }))) s

/-- RECV_HANDOFF (04 R87): the engine a C.RECV names, standing at it, pops its PS0 into its inbound queue; the execute engine
once its stack's last result stands (07 R164). -/
def execRecvHandoff (e : Engine) (s : State) : Out :=
  let k := s.me
  let here := match k.stand e with | .recv a => a + (k.en e).lead == (k.en e).pc | _ => false
  if decide (k.run ≠ .running) || !(k.en e).active || !here then .next s
  else match (k.en e).stack with
  | [] => .next (takeTrap s e.tag ((k.en e).pc - (k.en e).lead) .stk 0)
  | v :: rest =>
    if e = .e ∧ s.cycle < SMap.get 0 k.vec.ready 17 then .next (s.updMe fun k => k.updEn e fun x => { x with nextIssue := s.cycle + 1 })
    else if 8 ≤ (k.ctl.inq.filter fun x => decide (x.1 = e)).length then .next (s.updMe fun k => k.stall e s.cycle)
    else
      let t0 := (k.en e).nextIssue
      let w0 := (k.en e).fromWin
      let k := { k with ctl := { k.ctl with inq := k.ctl.inq ++ [(e, v)] } }
      let k := k.updEn e fun x => { x with stack := rest }
      if 0 < (k.en e).lead then .next (s.setMe (k.updEn e fun x => { x with lead := x.lead - 1 }))
      else
        let k := k.advance e 1 0 s.cycle
        .next (s.setMe (k.updEn e fun x => { x with nextIssue := t0, fromWin := w0 }))

end Sys2Proof.Machine
end

