-- ==== Sys2Proof/Machine/Rings.lean ====
section
/-! DEFINITION. The stations of the package ring, the bridges to the rack rings, and their links (01 R10, R16, R17; 19 R396). -/

namespace Sys2Proof.Machine

/-- The ring station of a die (01 R10). -/
def stationOf (die : Nat) : Nat := if die < 4 then die else die + 1

/-- The die at a station; the bridges stand at stations 4 and 9 (01 R10). -/
def dieAt (station : Nat) : Option Nat :=
  if station < 4 then some station else if 5 ≤ station ∧ station ≤ 8 then some (station - 1) else none

/-- The bridge station of a rack ring: X, at 0, joins at BX, Y at BY (01 R10, R16). -/
def bridgeOf (ring : Nat) : Nat := if ring = 0 then 4 else 9

/-- The next station in a direction, 0 rising. -/
def stationAfter (station dir : Nat) : Nat := if dir = 0 then (station + 1) % 10 else (station + 9) % 10

/-- Hops from station `a` to station `b` in a direction. -/
def hopsBy (a b dir : Nat) : Nat := if dir = 0 then (b + 10 - a) % 10 else (a + 10 - b) % 10

/-- The direction of untimed traffic: that of fewer hops, rising where both have five (01 R17). -/
def ringDir (a b : Nat) : Nat := if hopsBy a b 0 ≤ hopsBy a b 1 then 0 else 1

/-- Hops between two stations of untimed traffic (01 R17, R23). -/
def stationHops (a b : Nat) : Nat := hopsBy a b (ringDir a b)

/-- Package-ring hops between two dies (01 R10, R17, R23). -/
def ringHops (a b : Nat) : Nat := stationHops (stationOf a) (stationOf b)

/-- Hops on a rack ring from package `a` to package `b` in a direction, 0 rising. -/
def rackBy (ring a b dir : Nat) : Nat :=
  let n := Config.ringSize ring
  let x := Config.ringPos a ring % n
  let y := Config.ringPos b ring % n
  if dir = 0 then (y + n - x) % n else (x + n - y) % n

/-- The direction of untimed traffic on a rack ring: that of fewer hops, rising where both have as many (01 R17). -/
def rackDir (ring a b : Nat) : Nat := if rackBy ring a b 0 ≤ rackBy ring a b 1 then 0 else 1

/-- Hops between two packages on a rack ring (01 R17, R23). -/
def rackHops (ring a b : Nat) : Nat := rackBy ring a b (rackDir ring a b)

/-- The rack rings a path between two packages crosses, in order (01 R17; log entry 31). -/
def ringsTo (a b : Nat) : List Nat :=
  if rackHops 1 a b = 0 then [0]
  else if rackHops 0 a b = 0 then [1]
  else [Config.firstRing a b % 2, 1 - Config.firstRing a b % 2]

/-- The rack ring by which a path to a peer package leaves, and the one by which it arrives there. -/
def ringOut (a b : Nat) : Nat := (ringsTo a b).headD 0
def ringIn (a b : Nat) : Nat := (ringsTo a b).getLastD 0

/-- Cycles of the way from a die to the Wallower of a peer address in a peer package (01 R23). -/
def wayToPeer (package die q addr : Nat) : Nat :=
  12 * (stationHops (stationOf die) (bridgeOf (ringOut package q)) +
      stationHops (bridgeOf (ringIn package q)) (stationOf (addr / 2 ^ 55 % 8)))
    + 180 * ((ringsTo package q).map fun r => rackHops r package q).sum

/-- Cycles of a service in a peer package before the effect (01 R23; log entry 31). -/
def peerService (q addr : Nat) : Nat := 20 + if Config.peerTier q (addr / 4096) % 2 = 0 then 170 else 255

/-- Cycles of the way from a die to the Wallower of a target: over the die network, or over the rings (01 R23; 14 R302). -/
def State.wayFrom (s : State) (die owner : Nat) (peer : Option Nat) (addr : Nat) : Nat :=
  match peer with
  | some q => wayToPeer s.package die q addr
  | none => if owner = die then 8 else 12 * ringHops die owner

/-- The packets of an operation at its station (14 R279, R289). -/
def FarOp.packet (o : FarOp) (package core : Nat) : Packet :=
  { core := core, place := o.place, n := o.packets, from_ := o.departs, placed := o.placed, leg := o.leg, package := o.peer
    placedFrom := o.departs - o.lag
    dest := match o.peer with
      | some q => bridgeOf (ringOut package q)
      | none => stationOf o.die }

/-- Packets join the station of a die; those of a leg are noted for its slots (14 R289). -/
def Die.queuePacket (d : Die) (p : Packet) : Die :=
  { d with packets := d.packets ++ [p]
           timed := if p.leg.isSome && decide (p.leg = d.trav.map (·.tStart)) then
               { d.timed with packets := d.timed.packets ++ [p] } else d.timed }

/-- A word whose target bytes lie in one block: any other may touch several (14 R288). -/
def oneBlock : Instr → Bool
  | .fAmo _ _ | .fAmoR _ _ | .fCas _ | .fRld _ _ _ | .fRst _ _ => true
  | _ => false

/-- The dies and peer packages whose memory an operation names (13 R274). -/
def FarOp.dies (o : FarOp) : List (Nat × Option Nat) := (o.die, o.peer) :: o.other.toList

/-- A timed update stays logged until its leg is over (13 R275). -/
def FarOp.logged (o : FarOp) : Bool := o.leg.isSome && (match o.i with | .fSkup _ => true | _ => false)

/-- An earlier operation of the core, not yet served, that comes before a read at an address on path F, or, where the load is of
path A, the write of a combining-buffer entry that does (14 R288, R292, R297). -/
def FarOp.ahead (o : FarOp) (pathF : Bool) (die : Nat) (peer : Option Nat) (va : W64) (mt : Nat) : Bool :=
  !o.served && !o.logged && (pathF || !o.flush.isEmpty) &&
    ((decide (mt = 3) && decide (o.mt = 3)) ||
      (o.dies.contains (die, peer) && (!oneBlock o.i || decide (o.va.toNat / 64 = va.toNat / 64))))

/-- The package-ring hops from station `a` on in a direction up to station `b`, each by its bit in PK_READY (19 R396). -/
def hopsOf (b dir : Nat) : Nat → Nat → List Nat
  | 0, _ => []
  | n + 1, a => if a = b then [] else (2 * a + dir) :: hopsOf b dir n (stationAfter a dir)

/-- A link of the package ring: sending station, direction (0 rising), lane. Those of the rack rings follow: 80 to 87 leave
the package, 88 to 95 enter it, by ring, direction and lane. -/
def linkNo (station dir lane : Nat) : Nat := (station * 2 + dir) * 4 + lane

/-- The link of a rack ring on which the package sends. -/
def rackLink (ring dir lane : Nat) : Nat := 80 + (ring * 2 + dir) * 2 + lane

/-- Sending station, direction and lane of a package-ring link. -/
def linkStation (l : Nat) : Nat := l / 8
def linkDir (l : Nat) : Nat := l / 4 % 2
def linkLane (l : Nat) : Nat := l % 4

/-- The rack ring of a rack-ring link. -/
def linkRing (l : Nat) : Nat := (l - 80) % 8 / 4

/-- The station at which a link ends: on a rack ring, the bridge, or none where it leaves the package. -/
def linkEnd (l : Nat) : Option Nat :=
  if l < 80 then some (stationAfter (linkStation l) (linkDir l)) else if l < 88 then none else some (bridgeOf (linkRing l))

/-- The link a slot leaves on. -/
def Slot.link (x : Slot) (die : Nat) : Nat :=
  if x.lane < 4 then linkNo (stationOf die) x.dir x.lane else rackLink ((x.lane - 4) / 2) x.dir ((x.lane - 4) % 2)

/-- The bit of PK_READY of a link's hop (19 R396). -/
def linkBit (l : Nat) : Nat := if l < 80 then 2 * linkStation l + linkDir l else 20 + (l - 80) / 2 % 4

/-- The die whose station sends on a link, and the die whose station receives. -/
def txDie (l : Nat) : Option Nat := if l < 80 then dieAt (linkStation l) else none
def rxDie (l : Nat) : Option Nat := (linkEnd l).bind dieAt

end Sys2Proof.Machine
end

