-- ==== Sys2Proof/Machine/Scalar.lean ====
section
/-! DEFINITION. Loads and stores of single values, posted accesses and their service, and C.LD and C.ST
(04 R89; 06 R138, R147; 14 R292; 17 R356). -/

namespace Sys2Proof.Machine

/-- A request to a pseudo-channel in STATIC mode waits for FREE mode, one of another task from the end of its hold on (05 R102;
17 R358). -/
def State.staticHeld (s : State) (die tier off : Nat) : Bool :=
  let d := s.die die
  tier == 0 && !d.timed.static_.isEmpty && d.timed.static_.contains (d.stackOf off, d.pchOf off)
    && (match d.trav with | some t => decide (t.tStart ≤ s.cycle) || !s.ofTraverse die s.actor | none => false)

/-- The timelines of either leg-table buffer list a pseudo-channel. -/
def Die.lists (d : Die) (stack pch : Nat) : Bool :=
  (d.bufA.table.timelines ++ d.bufB.table.timelines).any fun t => t.stack == stack && t.pch == pch

/-- From its sign-off to the start of the leg a controller holds what its tables list, while one is LOADING the whole stack: it
serves the traverse's own requests alone (17 R358). -/
def State.signedHeld (s : State) (die tier off : Nat) : Bool :=
  let d := s.die die
  tier == 0 && !d.heldAt.isEmpty && SMap.has d.heldAt (d.stackOf off)
    && (decide (d.bufA.st = .loading) || decide (d.bufB.st = .loading) || d.lists (d.stackOf off) (d.pchOf off))
    && !s.ofTraverse die s.actor

/-- A run meets a burst that is owed: every other access to it comes after (06 R137). -/
def State.anyOwed (s : State) (die tier off n : Nat) : Bool :=
  tier == 0 && (s.die die).timed.owed.any fun o => decide (o.2.1 / 64 ≤ (off + n - 1) / 64) && decide (off / 64 ≤ o.2.1 / 64)

/-- What a read comes to: its bytes, a wait, or a cause with its value. -/
inductive Got where
  | ok (bs : List Byte) (s : State)
  | wait (s : State)
  | fail (c : Cause) (tval : W64) (s : State)
  deriving DecidableEq, Repr

/-- A message answers a load that has been asked of a peer package. -/
def PeerMsg.loads (m : PeerMsg) (r : PeerReq) : Bool :=
  decide (m.eng = r.eng) && decide (m.load = r.load) && decide (m.package = r.package) && decide (m.addr = r.addr) &&
    decide (m.n = r.n)

/-- Asks a peer package for bytes, or takes what has arrived, which stays until the word, or the run of a stream, is done (17 R345;
log entry 2); `tag` is 0 for the engine itself, or one more than a stream. -/
def peerLoad (s : State) (tag : Nat) (t : Engine) (p : Place) (package n : Nat) (va : W64) : Got :=
  let r : PeerReq := { core := s.actor, eng := t, package := package, addr := p.off, n := n, data := [], load := some tag }
  match s.me.peerGot.find? fun m => m.loads r with
  | some m =>
    (match m.report with
    | some c => .fail c va s
    | none => .ok m.data s)
  | none =>
    if s.me.peerLoads.contains r then .wait s
    else .wait { s.updMe fun k => { k with peerLoads := r :: k.peerLoads } with peerOut := s.peerOut ++ [r] }

/-- The maximal stretches of enabled bytes, with their offsets from `o` on. -/
def stretches : Nat → List (Option Byte) → List (Nat × List Byte)
  | _, [] => []
  | o, none :: bs => stretches (o + 1) bs
  | o, some b :: bs =>
    match stretches (o + 1) bs with
    | (o', xs) :: rest => if o' = o + 1 then (o, b :: xs) :: rest else (o, [b]) :: (o', xs) :: rest
    | [] => [(o, [b])]

/-- A combining-buffer entry as its one write, which departs in the next cycle (14 R292, R302). -/
def Comb.op (c : Comb) (s : State) : FarOp :=
  let way := s.wayFrom s.myDie c.die c.peer c.off
  let service := match c.peer with | some q => peerService q c.off | none => 0
  { i := .fRst 0 3, args := [], tpc := c.tpc, place := c.place, va := c.va, die := c.die, peer := c.peer, off := c.off, mt := c.mt
    block := false, due := s.cycle + 1 + 2 * way + service, way := way, departs := s.cycle + 1, placed := s.cycle
    space := s.me.space, flush := c.bytes }

/-- The combining buffer of the acting core without its entries that satisfy a test: these flush, in allocation order, as packets
of the ring station (14 R292). -/
def State.flushComb (s : State) (which : Comb → Bool) : State :=
  let ops := (s.me.comb.filter which).map fun c => c.op s
  let s := s.updMe fun k => { k with comb := k.comb.filter fun c => !which c, far := k.far ++ ops }
  s.updDie s.myDie fun d => ops.foldl (fun d o => d.queuePacket (o.packet s.package s.actor)) d

/-- The combining-buffer entry of a block. -/
def Core.combOf (k : Core) (va : W64) : Option Comb := k.comb.find? fun c => c.va.toNat / 64 == va.toNat / 64

/-- The bytes a combining-buffer entry serves whole (14 R292). -/
def Comb.serve (c : Comb) (va : W64) (n : Nat) : Option (List Byte) :=
  ((List.range n).mapM fun j => c.bytes.getD (va.toNat % 64 + j) none)

/-- Some byte of a run lies in a pseudo-channel in STATIC mode. -/
def State.anyStatic (s : State) (die tier off n : Nat) : Bool :=
  !(s.die die).timed.static_.isEmpty && (List.range n).any fun j => s.staticHeld die tier (off + j)

/-- The stacks with a channel in STATIC mode that a run lies in. -/
def State.staticStacks (s : State) (die tier off n : Nat) : List Nat :=
  if s.anyStatic die tier off n then ((List.range n).filter fun j => s.staticHeld die tier (off + j)).map
    (fun j => (s.die die).stackOf (off + j)) |>.eraseDups
  else []

/-- A FREE-mode request that is tried anew in each cycle has met a channel in STATIC mode, which accepts it (05 R102, R108). -/
def State.turnAway (s : State) (die tier off n : Nat) : State :=
  (s.staticStacks die tier off n).foldl (fun s k => s.updDie die fun x =>
    { x with timed := { x.timed with turned := SMap.set 0 x.timed.turned k (s.cycle + 1) } }) s

/-- The same for a far operation or a copy, which is served when its unit comes to it. -/
def State.keepWaiting (s : State) (core place : Nat) (copy : Option (Nat × Nat)) (die tier off n : Nat) : State :=
  (s.staticStacks die tier off n).foldl (fun s k => s.updDie die fun x =>
    let w : Waiting := { core := core, place := place, copy := copy, stack := k }
    if x.timed.waiting.contains w then x else { x with timed := { x.timed with waiting := w :: x.timed.waiting } }) s

/-- Some byte of a run lies in a pseudo-channel that a controller holds. -/
def State.anyHeld (s : State) (die tier off n : Nat) : Bool :=
  !(s.die die).heldAt.isEmpty && (List.range n).any fun j => s.signedHeld die tier (off + j)

/-- What is left of a token after an uncached access by a die: a read revokes an exclusive holder, a write every other holder
(14 R294). -/
def Token.after (t : Token) (me : Nat × Nat) (write : Bool) : Token :=
  if t.excl then (if t.holders.contains me then t else { t with holders := [] })
  else if write then { t with holders := t.holders.filter (· == me) }
  else t

/-! ### Tokens and the far cache (14 R293, R294) -/

/-- A line is of a region of a directory's entry. -/
def FarLine.under (x : FarLine) (owner : Nat) (t : Token) : Bool :=
  decide (x.owner = owner) && decide (x.space = t.space) && decide (x.line / 2 ^ 14 = t.region)

/-- A line goes back to its owner's memory, if it is dirty. -/
def FarLine.writeBack (x : FarLine) (s : State) : State :=
  if x.dirty then (s.write x.owner x.tier x.off x.bytes x.klock).1 else s

/-- A holder of a token writes back its dirty lines of the region and invalidates them. -/
def State.dropLines (s : State) (owner : Nat) (t : Token) (holder : Nat × Nat) : State :=
  if holder.1 ≠ s.package then s
  else
    let mine := (s.die holder.2).farCache.filter fun x => x.under owner t
    mine.foldl (fun s x => x.writeBack s)
      (s.updDie holder.2 fun d => { d with farCache := d.farCache.filter fun x => !x.under owner t })

/-- A directory's entry has other holders: those that lose the token write back first; each counts as a revocation. -/
def State.retoken (s : State) (owner : Nat) (t : Token) (holders : List (Nat × Nat)) : State :=
  let lost := t.holders.filter fun h => !holders.contains h
  let s := lost.foldl (fun s h => s.dropLines owner t h) s
  s.updDie owner fun d =>
    { d with grants := d.grants.filter fun g => !(decide (g.1 = t.space) && decide (g.2.1 = t.region) && lost.contains g.2.2)
             tokens := if holders.isEmpty then d.tokens.erase t
                       else d.tokens.map fun x => if x = t then { t with holders := holders } else x }.bumpReg 300 16 16 lost.length

/-- Revokes the tokens that an uncached access to a region, for a die, stands against in the directory of the owner. -/
def State.revokeFor (s : State) (me : Nat × Nat) (owner space : Nat) (va : W64) (n : Nat) (write : Bool) : State :=
  let hit := fun t : Token => decide (t.space = space) && decide (va.toNat / 2 ^ 21 ≤ t.region)
    && decide (t.region ≤ (va.toNat + n - 1) / 2 ^ 21) && decide (t.after me write ≠ t)
  ((s.die owner).tokens.filter hit).foldl (fun s t => s.retoken owner t (t.after me write).holders) s

/-- The token of an address that the die of a core holds, for another die's memory. -/
def State.tokenOf (s : State) (core die : Nat) (va : W64) : Option Token :=
  if die = core / 512 then none
  else (s.die die).tokens.find? fun t => decide (t.space = (s.core core).space) && decide (t.region = va.toNat / 2 ^ 21) &&
    t.holders.contains (s.package, core / 512)

/-- Before an uncached access of a core, its own die's lines of the region go back, and the tokens that stand against it are
revoked (14 R294). -/
def State.uncached (s : State) (core die : Nat) (va : W64) (n : Nat) (write : Bool) : State :=
  let s := match s.tokenOf core die va with
    | some t => s.dropLines die t (s.package, core / 512)
    | none => s
  s.revokeFor (s.package, core / 512) die (s.core core).space va n write

/-- Where an access lies: owning die, address, tier, offset, whether the page's lines are under the static key. -/
structure At where
  die : Nat
  va : W64
  tier : Nat
  off : Nat
  klock : Bool
  deriving DecidableEq, Repr

/-- Lines of a far cache (01 R13). -/
abbrev farLines : Nat := 2 ^ 18

/-- The line of an address, in the far cache of a core's die: filled from its owner where it is not there; the oldest line makes
room (the model's choice: log entry 82). -/
def State.farLine (s : State) (core : Nat) (a : At) : State × Option FarLine :=
  let sp := (s.core core).space
  match (s.die (core / 512)).farCache.find? fun x => decide (x.owner = a.die) && decide (x.space = sp) &&
      decide (x.line = a.va.toNat / 128) with
  | some x => (s, some x)
  | none =>
    let off := a.off - a.va.toNat % 128
    match s.read a.die a.tier off 128 with
    | (s, none) => (s, none)
    | (s, some bs) =>
      let x : FarLine := { owner := a.die, space := sp, line := a.va.toNat / 128, tier := a.tier, off := off, klock := a.klock
                           bytes := bs }
      let old := (s.die (core / 512)).farCache
      let s := match old.getLast? with
        | some y => if old.length < farLines then s else y.writeBack s
        | none => s
      (s.updDie (core / 512) fun d => { d with farCache := x :: old.take (farLines - 1) }, some x)

/-- A far cache with a line's bytes changed from a byte on: it is dirty. -/
def Die.storeLine (d : Die) (x : FarLine) (at_ : Nat) (bs : List Byte) : Die :=
  { d with farCache := d.farCache.map fun y =>
      if decide (y.owner = x.owner) && decide (y.space = x.space) && decide (y.line = x.line) then
        { y with bytes := y.bytes.take at_ ++ bs ++ y.bytes.drop (at_ + bs.length), dirty := true } else y }

/-- Cuts a run of bytes where lines end, as (distance from its start, bytes). -/
def cutLines : Nat → Nat → Nat → Nat → List (Nat × Nat)
  | 0, _, _, _ => []
  | m + 1, va, o, n =>
    if n = 0 then []
    else
      let here := min n (128 - va % 128)
      (o, here) :: cutLines m (va + here) (o + here) (n - here)

/-- An address so many bytes on. -/
def At.plus (a : At) (o : Nat) : At := { a with va := a.va + w64 o, off := a.off + o }

/-- A read by an engine of a core: through the far cache of its die where that holds the token of a NORMAL page, uncached
otherwise; none for an uncorrectable error (14 R293, R294). -/
def State.farRead (s : State) (core : Nat) (a : At) (n mt : Nat) : State × Option (List Byte) :=
  if mt ≠ 0 || (s.tokenOf core a.die a.va).isNone then (s.uncached core a.die a.va n false).read a.die a.tier a.off n
  else (cutLines (n / 128 + 2) a.va.toNat 0 n).foldl (fun acc p =>
    match acc with
    | (s, none) => (s, none)
    | (s, some bs) => match s.farLine core (a.plus p.1) with
      | (s, none) => (s, none)
      | (s, some x) => (s, some (bs ++ (x.bytes.drop ((a.va.toNat + p.1) % 128)).take p.2))) (s, some [])

/-- A write by an engine of a core: into the far cache where its die holds the token exclusively of a NORMAL page, else
uncached; false for an uncorrectable error (14 R293, R294). -/
def State.farWrite (s : State) (core : Nat) (a : At) (bs : List Byte) (mt : Nat) : State × Bool :=
  let cut := cutLines (bs.length / 128 + 2) a.va.toNat 0 bs.length
  match (if mt = 0 then s.tokenOf core a.die a.va else none) with
  | none => (s.uncached core a.die a.va bs.length true).write a.die a.tier a.off bs a.klock
  | some t =>
    let into := fun (s : State) (x : FarLine) (p : Nat × Nat) =>
      s.updDie (core / 512) fun d => d.storeLine x ((a.va.toNat + p.1) % 128) ((bs.drop p.1).take p.2)
    if t.excl then cut.foldl (fun acc p =>
      match acc with
      | (s, false) => (s, false)
      | (s, true) => match s.farLine core (a.plus p.1) with
        | (s, none) => (s, false)
        | (s, some x) => (into s x p, true)) (s, true)
    else (s.uncached core a.die a.va bs.length true).write a.die a.tier a.off bs a.klock

/-- An access waits: for FREE mode, for the start of a leg, for an owed command, or for bring-up (05 R102; 06 R137; 17 R358;
19 R398). -/
def State.waits (s : State) (die tier off n : Nat) : Bool :=
  s.anyStatic die tier off n || s.anyHeld die tier off n || s.anyOwed die tier off n || s.unready die tier off n

/-- Where an access at a place lies. -/
def Place.at_ (p : Place) (va : W64) : At := { die := p.die, va := va, tier := p.tier, off := p.off, klock := p.klock }

/-- Where a posted access lies. -/
def Posted.at_ (a : Posted) : At := { die := a.die, va := a.va, tier := a.tier, off := a.off, klock := a.klock }

/-- Reads `n` bytes at a place for an engine: the core's own earlier accesses come first, then the combining buffer, which serves
a C.LD and flushes before the reads of an F.CAS, and the memory (06 R138, 14 R292, R297, 17 R356). -/
def readPlace (tag : Nat) (t : Engine) (p : Place) (va : W64) (n cls : Nat) (s : State) : Got :=
  match (if t = .c ∨ t = .f then s.me.combOf va else none) with
  | some c =>
    match (if t = .c then c.serve va n else none) with
    | some bs => .ok bs s
    | none => .wait (s.flushComb fun x => decide (x.va = c.va))
  | none =>
    if s.me.mustWait t p n cls ||
        ((t = .c ∨ t = .f) && s.me.far.any fun o => o.ahead (decide (t = .f)) p.die p.peer va p.mt) then .wait s
    else match p.peer with
      | some q => peerLoad s tag t p q n va
      | none =>
        if s.waits p.die p.tier p.off n then .wait (s.turnAway p.die p.tier p.off n)
        else match s.farRead s.actor (p.at_ va) n p.mt with
          | (s, some bs) => .ok bs s
          | (s, none) => .fail .integ va s

/-- Reads `n` bytes at a virtual address aligned to `al` (04 R89): translation, alignment, permission, then the read. -/
def fetchSpan (tag : Nat) (t : Engine) (va : W64) (al n cls : Nat) (s : State) : Got :=
  match locate s va al true false with
  | .at_ p s => readPlace tag t p va n cls s
  | .wait s => .wait s
  | .fail c s => .fail c va s

/-- The answers of peer packages to the loads of an engine's word, or of a stream's run, are used up. -/
def Core.dropLoads (k : Core) (t : Engine) (tag : Nat) : Core :=
  { k with peerLoads := k.peerLoads.filter fun r => !(decide (r.eng = t) && decide (r.load = some tag))
           peerGot := k.peerGot.filter fun m => !(decide (m.eng = t) && decide (m.load = some tag)) }

/-- Continues a body with the bytes of a read. -/
def loadSpan (t : Engine) (va : W64) (al n cls : Nat) (f : List Byte → State → Res) (s : State) : Res :=
  match fetchSpan 0 t va al n cls s with
  | .ok bs s => f bs (s.updMe fun k => k.dropLoads t 0)
  | .wait s => .wait s
  | .fail c v _ => .fail c v

/-- Reads one aligned value of `n` bytes. -/
def loadBytes (t : Engine) (va : W64) (n cls : Nat) (f : List Byte → State → Res) (s : State) : Res :=
  loadSpan t va n n cls f s

/-- Posts a write of bytes at a virtual address (04 R89, 06 R147). -/
def postBytes (t : Engine) (va : W64) (bs : List Byte) (cls : Nat) (s : State) : Res :=
  withPlace s va bs.length false true fun p s =>
    let a : Posted :=
      { eng := t, die := p.die, peer := p.peer, tier := p.tier, off := p.off, va := va, klock := p.klock, mt := p.mt,
        cls := cls, write := some bs, tpc := (s.me.en t).pc }
    .ok (s.updMe fun k => { k with posted := k.posted ++ [a] })

/-- Sign- or zero-extends loaded bytes to a word (04 R89). -/
def extendBytes (signed : Bool) (bs : List Byte) : W64 :=
  if signed then sextBits (8 * bs.length) (leNat bs) else w64 (leNat bs)

/-- A load of `n` bytes at the top of an engine's stack that the combining buffer serves whole (14 R292). -/
def State.combServes (s : State) (t : Engine) (n : Nat) : Bool :=
  let va := (s.stack t).getD 0 0
  match s.me.combOf va with
  | some e => decide (va.toNat % n = 0) && (e.serve va n).isSome
  | none => false

/-- C.LD (04 R89): illegal inside a leg. The leg is checked before the stack: DESIGN CHOICE, the spec gives no order (log entry
29). -/
def execCLd (c : BitVec 2) (sgn : BitVec 1) (z : BitVec 2) (s : State) : Out :=
  issueN .c (.cLd c sgn z) (fun s => if s.combServes .c (2 ^ z.toNat) then 4 else 1) (fun s =>
    if s.me.leg.timed then .fail .ill 0
    else popping .c 1 1 (fun vs s =>
      loadBytes .c (vs.getD 0 0) (2 ^ z.toNat) c.toNat (fun bs s =>
        .ok (pushing .c [extendBytes (sgn == 1) bs] s)) s) s) s

/-- C.ST (04 R89): posted; illegal inside a leg. The leg is checked before the stack: DESIGN CHOICE, the spec gives no order
(log entry 29). -/
def execCSt (c z : BitVec 2) (s : State) : Out :=
  issue .c (.cSt c z) 1 (fun s =>
    if s.me.leg.timed then .fail .ill 0
    else popping .c 2 0 (fun vs s =>
      postBytes .c (vs.getD 0 0) (leBytes (vs.getD 1 0).toNat (2 ^ z.toNat)) c.toNat s) s) s

/-! ## Service of posted accesses -/

/-- The line an A.LDG has asked of a peer package has come (06 R147; log entry 2). -/
def Core.lineCame (k : Core) (a : Posted) (m : PeerMsg) : Core :=
  let k := { k with posted := k.posted.erase a, peerGot := k.peerGot.erase m }
  match m.report with
  | none => k.padWrite a.pad (m.data.take 128)
  | some c => { k with reports := k.reports ++ [{ eng := .a, cause := c, tval := a.va, tpc := a.tpc }] }

/-- An A.LDG through an aperture: its request leaves, or its line has come (06 R147, 17 R345). -/
def peerLine (s : State) (core : Nat) (a : Posted) (q : Nat) : State :=
  match (s.core core).peerGot.find? fun m => decide (m.pad = some a.pad) with
  | some m => s.updCore core fun k => k.lineCame a m
  | none =>
    if a.asked then s
    else { s.updCore core fun k => { k with posted := k.posted.map fun b => if b = a then { a with asked := true } else b } with
      peerOut := s.peerOut ++ [{ core := core, eng := .a, package := q, addr := a.off, n := 128, data := [], pad := some a.pad }] }

/-- A message acknowledges a posted store to a peer package. -/
def PeerMsg.acks (m : PeerMsg) (a : Posted) (q : Nat) : Bool :=
  m.stored && m.copy.isNone && decide (m.eng = a.eng) && decide (m.package = q) && decide (m.addr = a.off)

/-- A store through an aperture: its request leaves, or its acknowledgement, or its report, has come: only then it is performed
(14 R286; 16 R324; 17 R345; log entry 2). -/
def peerWrite (s : State) (core : Nat) (a : Posted) (q : Nat) (bs : List Byte) : State :=
  if a.asked then
    match (s.core core).peerGot.find? fun m => m.acks a q with
    | some m => s.updCore core fun k => { k with
        posted := k.posted.erase a, peerGot := k.peerGot.erase m
        reports := k.reports ++ (m.report.map fun c => ({ eng := a.eng, cause := c, tval := a.va, tpc := a.tpc } : Report)).toList }
    | none => s
  else { s.updCore core fun k => { k with posted := k.posted.map fun b => if b = a then { a with asked := true } else b } with
    peerOut := s.peerOut ++ [{ core := core, eng := a.eng, package := q, addr := a.off, n := 0, data := bs }] }

/-- Performs one posted access of a core (17 R356). An uncorrectable error takes #INTEG in the core (17 R363). -/
def performPosted (s0 : State) (core : Nat) (a : Posted) : State :=
  let s := s0.updCore core fun k => { k with posted := k.posted.erase a }
  match a.peer, a.write with
  | some q, some bs => peerWrite s0 core a q bs
  | some q, none => peerLine s0 core a q
  | none, some bs =>
    match s.farWrite core a.at_ bs a.mt with
    | (s, true) => s
    | (s, false) => s.updCore core fun k => k.takeTrap a.eng.tag (k.en a.eng).pc .integ a.va s.cycle
  | none, none =>
    match s.farRead core a.at_ 128 a.mt with
    | (s, some bs) => s.updCore core fun k => k.padWrite a.pad bs
    | (s, none) => s.updCore core fun k => k.takeTrap a.eng.tag (k.en a.eng).pc .integ a.va s.cycle

/-- Bytes of a posted access. -/
def Posted.bytes (a : Posted) : Nat := match a.write with | some bs => bs.length | none => 128

/-- A posted access may be performed now: no earlier one of its path stands before it (06 R138, 14 R288, 16 R335). -/
def Core.mayPerform (k : Core) (j : Nat) : Bool :=
  match k.posted[j]? with
  | none => false
  | some b =>
    let n := match b.write with | some bs => bs.length | none => 128
    (k.posted.take j).all fun a =>
      !(samePath a.eng b.eng && a.before (k.mayPass a.eng b.eng) b.die b.peer b.tier b.off n b.mt b.cls)

/-- The write port that the line of an A.LDG takes as it fills (06 R124). -/
def Posted.ports (a : Posted) : List Nat := if a.write.isNone then portsOf true a.pad 128 else []
def Posted.portHeld (a : Posted) (k : Core) : Bool := k.portTaken a.ports
def Posted.fillPorts (a : Posted) (k : Core) : Core := k.takePorts a.ports

/-- FREE_MODE_REQUEST_SERVICE (17 R356): a controller in FREE mode performs the k-th posted access of the acting core. -/
def execFreeModeRequestService (k : Nat) (s : State) : Out :=
  match s.me.posted[k]? with
  | none => .next s
  | some a =>
    if s.me.mayPerform k && !(a.peer.isNone && s.waits a.die a.tier a.off a.bytes) && !a.portHeld s.me then
      .next (performPosted (s.updMe a.fillPorts) s.actor a)
    else .next s

end Sys2Proof.Machine
end

