-- ==== Sys2Proof/Machine/FarMem.lean ====
section
/-! DEFINITION. Memory as a Wallower reaches it: the owning die's memory-side TLB, and values at virtual addresses
(14 R286, R287; 17 R346). -/

namespace Sys2Proof.Machine

/-- Capacity of a memory-side TLB (17 R346). -/
abbrev sideTlbSize : Nat := 16384

/-- What an address comes to at its owning die. -/
inductive OwnerX where
  | at_ (p : Place) (s : State)
  /-- The page is not present: the Millwright brings it in (14 R286). -/
  | absent (s : State)
  | fail (c : Cause) (s : State)
  deriving DecidableEq, Repr

/-- Notes a page that is not present at its die, on behalf of the acting core (14 R286). -/
def State.noteFault (s : State) (die space : Nat) (va : W64) (write : Bool) : State :=
  s.updDie die fun d =>
    if d.faults.any fun f => decide (f.space = space) && decide (f.va.toNat / 4096 = va.toNat / 4096) then d
    else { d with faults := d.faults ++ [{ space := space, va := va, write := write, core := s.actor, at_ := s.cycle }] }

/-- Translation at the owning die through its memory-side TLB, which a walk fills (14 R286, 17 R346). -/
def ownerXlat (s : State) (die space : Nat) (va : W64) (read write : Bool) : OwnerX :=
  if bits va 58 6 ≠ 0 ∨ bits va 55 3 ≠ die then .fail .xlat s
  else
    let d := s.die die
    let done := fun (leaf : Nat) (s : State) =>
      match placeOf (s.die die) die va leaf with
      | some p =>
        if p.peer.isSome then OwnerX.fail .xlat s
        else if (read && !p.rd) || (write && !p.w) then .fail .perm s
        else .at_ p s
      | none => .fail ((s.die die).aptCause leaf) s
    match tlbFind d.tlb space va with
    | some e => done e.leaf (s.setDie die { d with tlb := tlbTouch d.tlb e })
    | none =>
      match s.walkOf die space va with
      | .fault => .absent (s.noteFault die space va write)
      | .fail c => .fail c s
      | .leaf x =>
        let e : TlbEntry := { space := space, base := va.toNat / pageSize (pteSize x), size := pteSize x, leaf := x }
        done x (s.setDie die { d.heatWalk space va with tlb := tlbInsert sideTlbSize d.tlb e })

/-- What a Wallower's access comes to. -/
inductive Near where
  | ok (bs : List Byte) (s : State)
  /-- It waits: for a page, or for FREE mode (14 R286, 05 R102). -/
  | wait (s : State)
  | fail (c : Cause) (va : W64) (s : State)
  deriving DecidableEq, Repr

/-- Runs on with the bytes of an access. -/
def Near.bind (r : Near) (f : List Byte → State → Near) : Near :=
  match r with
  | .ok bs s => f bs s
  | .wait s => .wait s
  | .fail c v s => .fail c v s

/-- Continues with the place of an address at its owning die. -/
def ownerPlace (s : State) (die space : Nat) (va : W64) (n : Nat) (read write : Bool) (f : Place → State → Near) : Near :=
  match ownerXlat s die space va read write with
  | .absent s => .wait s
  | .fail c s => .fail c va s
  | .at_ p s => if s.waits p.die p.tier p.off n then .wait (s.turnAway p.die p.tier p.off n) else f p s

/-- Reads bytes at a virtual address of a die, uncached: an exclusive token is revoked first (14 R294). -/
def nearRead (s : State) (die space : Nat) (va : W64) (n : Nat) : Near :=
  ownerPlace s die space va n true false fun p s =>
    match (s.revokeFor (s.package, die) die space va n false).read p.die p.tier p.off n with
    | (s, some bs) => .ok bs s
    | (s, none) => .fail .integ va s

/-- Writes bytes at a virtual address of a die, uncached: every token is revoked first (14 R294). -/
def nearWrite (s : State) (die space : Nat) (va : W64) (bs : List Byte) : Near :=
  ownerPlace s die space va bs.length false true fun p s =>
    match (s.revokeFor (s.package, die) die space va bs.length true).write p.die p.tier p.off bs p.klock with
    | (s, true) => .ok [] s
    | (s, false) => .fail .integ va s

/-! ## Memory as a Millwright reaches it -/

/-- An attempt that has to wait counts no bursts (17 R349). -/
def State.unheated (s old : State) : State := old.dies.foldl (fun s p => s.updDie p.1 fun x => { x with hot := p.2.hot }) s

/-- Cuts a run of addresses where 4 KiB pages end. -/
def cutPages : Nat → Nat → Nat → List (Nat × Nat)
  | 0, _, _ => []
  | m + 1, va, n =>
    if n = 0 then []
    else
      let here := min n (4096 - va % 4096)
      (va, here) :: cutPages m (va + here) (n - here)

/-- The pieces of a run. -/
def piecesOf (va n : Nat) : List (Nat × Nat) := cutPages (n / 4096 + 2) va n

/-- Reads bytes at a virtual address of a space, through the owning die. -/
def millRead (s : State) (space va n : Nat) : Near :=
  (piecesOf va n).foldl (fun acc p => acc.bind fun bs s =>
    (nearRead s (p.1 / 2 ^ 55 % 8) space (w64 p.1) p.2).bind fun more s => .ok (bs ++ more) s) (.ok [] s)

/-- Writes bytes at a virtual address of a space, through the owning die. -/
def millWrite (s : State) (space va : Nat) (bs : List Byte) : Near :=
  ((piecesOf va bs.length).foldl (fun acc p => acc.bind fun _ s =>
    (nearWrite s (p.1 / 2 ^ 55 % 8) space (w64 p.1) ((bs.drop (p.1 - va)).take p.2))) (.ok [] s))

end Sys2Proof.Machine
end

