-- ==== Sys2Proof/Machine/Regs.lean ====
section
/-! DEFINITION. The configuration registers as software reads and writes them: groups CF, DG and PK (04 R90-R95), with the
field maps of the chapters that own them. -/

namespace Sys2Proof.Machine

/-! ## Group CF -/

/-- A CF register as read (04 R94, R95). -/
def readCf (s : State) (i : Nat) : Option W64 :=
  let k := s.me
  match i with
  | 0 => some (w64 (s.package % 2 ^ 10 * 2 ^ 12 + s.actor % 2 ^ 12))
  | 1 => some (w64 s.cycle)
  | 2 => some k.cf.mode
  | 3 => some k.cf.status
  | 4 => some k.cf.cause
  | 5 => some k.cf.tpc
  | 6 => some k.cf.tval
  | 7 => some k.cf.breach
  | 8 => some k.cf.slip
  | _ => none

/-- A write of a CF register other than CF_SLIP; read-only registers and reserved bits ignore it, and what an event has
set in the same cycle stays (04 R91, R93, R95). -/
def Cf.write (c : Cf) (i : Nat) (v : W64) (cycle : Nat) : Cf :=
  let c := c.now cycle
  match i with
  | 2 => { c with mode := v &&& 0xF }
  | 3 => { c with status := (v &&& 0x7) ||| c.evBits }
  | 7 => { c with breach := bump (v &&& 0xFFFFFFFF) 0 32 c.evBreach }
  | _ => c

/-- A core writes a CF register other than CF_SLIP: the other engines may still see an earlier CF_MODE (04 R92). -/
def State.writeCf (s : State) (i : Nat) (v : W64) : State :=
  let t := s.updMe fun k => { k with cf := k.cf.write i v s.cycle }
  if i = 2 then
    { t.updMe fun k => { k with cf := { k.cf with older := s.me.cf.mode :: s.me.cf.older, draw := s.freeCount } } with
      freeCount := s.freeCount + 1 }
  else t

/-- CF_SLIP.WORDS after a write (02 R36). -/
def slipOf (v : W64) : W64 :=
  let n := v.toNat % 2 ^ 15
  if n < 32 then 32 else if 16384 < n then 16384 else w64 n

/-! ## Group DG -/

/-- The index names a DG register some chapter assigns. -/
def dgAssigned (i : Nat) : Bool :=
  decide (256 ≤ i ∧ i ≤ 276) || i == 288 || i == 289 || i == 300 || i == 302 || decide (320 ≤ i ∧ i ≤ 356)
    || decide (360 ≤ i ∧ i ≤ 364) || decide (400 ≤ i ∧ i ≤ 407) || i == 500 || decide (1024 ≤ i ∧ i < 1696)

/-- Writable bits of the DG registers whose write only replaces fields: a read-only register has none. -/
def dgMask (i : Nat) : Nat :=
  let root := (2 ^ 36 - 1) * 2 ^ 16 + 2 ^ 12 + 1
  let queue := (2 ^ 46 - 1) * 2 ^ 12 + 2 ^ 11 + 15
  if 256 ≤ i ∧ i ≤ 271 then 2 ^ 16 - 1
  else if i = 272 ∨ i = 353 ∨ i = 362 then 2 ^ 32 - 1
  else if i = 274 ∨ i = 300 ∨ i = 337 ∨ i = 403 ∨ i = 405 then 2 ^ 64 - 1
  else if (320 ≤ i ∧ i ≤ 335) ∨ i = 339 ∨ i = 355 then root
  else if 340 ≤ i ∧ i ≤ 350 then 2 ^ 35 - 1
  else if i = 336 then 0xF3
  else if i = 351 then 31
  else if i = 352 then 2 ^ 63 + 2 ^ 48 - 1
  else if i = 402 ∨ i = 404 then queue
  else if 1024 ≤ i ∧ i ≤ 1535 then
    2 ^ 63 + 15 * 2 ^ 56 + 3 * 2 ^ 54 + 2 ^ 53 + 2 ^ 52 + (2 ^ 16 - 1)
  else 0

/-- The code of a buffer's state (05 R121). -/
def BufState.code : BufState → Nat
  | .empty => 0 | .loading => 1 | .ready => 2 | .bad => 3

/-- DG_LEG_STAT (05 R121): OPEN, TREE, VOTE, the committed and the current buffer, and the buffers' states. -/
def State.legStat (s : State) (die : Nat) : Nat :=
  let d := s.die die
  let vote := s.voteOf die
  let st := d.bufB.st.code * 2 ^ 4 + d.bufA.st.code
  match d.trav with
  | none => vote * 2 ^ 12 + st
  | some t =>
    let cur := match s.currentBuf die with | some b => 2 ^ 9 + b * 2 ^ 8 | none => 0
    let sel := match s.committedBuf die with | some b => 2 ^ 11 + b * 2 ^ 10 | none => 0
    2 ^ 20 + t.tree % 16 * 2 ^ 16 + vote * 2 ^ 12 + sel + cur + st

/-- Tasks of a launch that no core holds and nothing stands before (18 R371). -/
def Launch.isReady (l : Launch) (i : Nat) : Bool :=
  match l.tasks.getD i .gone, l.recs[i]? with
  | .waiting, some r => r.preds.all fun p => match l.tasks.getD p .gone with | .ended _ => true | _ => false
  | .saved _ _ _, some _ => true
  | _, _ => false

/-- DG_SCHED (18 R392). -/
def schedWord (s : State) (die : Nat) : W64 :=
  let d := s.die die
  let running := (s.cores.filter fun p => p.1 / 512 == die && p.2.task.isSome).length
  let ready := (d.launches.map fun l => ((List.range l.tasks.length).filter l.isReady).length).sum
  let trapped := (d.launches.map fun l =>
    (l.tasks.filter fun t => match t with | .trapped _ _ => true | _ => false).length).sum
  let inPlace := (s.cores.filter fun p => p.1 / 512 == die && decide (p.2.run = .trappedInPlace)).length
  w64 (running % 2 ^ 12 * 2 ^ 48 + ready % 2 ^ 24 * 2 ^ 24 + (trapped + inPlace) % 2 ^ 16)

/-- A DG register as read (the tables of 05, 06, 12, 14, 16-19). -/
def readDg (s : State) (die i : Nat) : Option W64 :=
  if !dgAssigned i then none
  else
    let d := s.die die
    some (match i with
      | 273 => w64 (s.legStat die)
      | 302 => w64 d.binds.length
      | 338 => w64 d.locks.length
      | 354 => w64 ((if d.swap.isSome then 2 ^ 63 else 0) + bits (d.reg 354) 0 32)
      | 361 => 0
      | 406 => 0
      | 407 => schedWord s die
      | _ => d.reg i)

/-- A mask register's own base bit (17 R353, R354). -/
def hashBase (i : Nat) : Nat := if i ≤ 345 then 7 + (i - 340) else if i = 346 then 26 else 27 + (i - 347)

/-- A mask that a write of DG_HASH refuses (17 R354). -/
def badHash (d : Die) (i : Nat) (v : W64) : Bool :=
  let own := hashBase i
  !v.getLsbD own
    || (([7, 8, 9, 10, 11, 12, 26, 27, 28, 29, 30] : List Nat).any fun b => decide (b ≠ own) && v.getLsbD b)
    || decide (2 ^ 35 ≤ v.toNat)
    || decide (d.bufA.st ≠ .empty) || decide (d.bufB.st ≠ .empty)

/-- Fields of a region descriptor (12 R252). -/
def regionEn (v : W64) : Bool := bits v 63 1 == 1
def regionGroup (v : W64) : Nat := bits v 56 4
def regionRule (v : W64) : Nat := bits v 54 2
def regionW8 (v : W64) : Bool := bits v 53 1 == 1
def regionFx (v : W64) : Bool := bits v 52 1 == 1
def regionLast (v : W64) : Nat := bits v 8 8
def regionFirst (v : W64) : Nat := bits v 0 8

/-- A step group is formed on a die (12 R255). -/
def Die.formed (d : Die) (g : Nat) : Bool := bits (d.reg (1536 + g)) 63 1 == 1

/-- A descriptor that a write of DG_REGION refuses (12 R253). -/
def badRegion (d : Die) (i : Nat) (v : W64) : Bool :=
  let field := (i - 1024) / 16
  regionRule v == 3 || (regionRule v == 1 && !regionW8 v) || (regionFx v && regionRule v != 1)
    || decide (regionLast v < regionFirst v)
    || (regionEn v && ((List.range 16).any fun r =>
          let j := 1024 + 16 * field + r
          let o := d.reg j
          decide (j ≠ i) && regionEn o && decide (regionFirst v ≤ regionLast o) && decide (regionFirst o ≤ regionLast v)))
    || (regionEn (d.reg i) && d.formed (regionGroup (d.reg i)))

/-- A write of DG_KEY_CTL that takes #ILL (17 R361). -/
def badRotate (d : Die) (v : W64) : Bool :=
  v.getLsbD 0 && (d.keyPass || !d.keys.contains ((d.keyCur + 1) % 15))

/-- A write of a DG register that takes #ILL and writes nothing. -/
def badDgWrite (d : Die) (i : Nat) (v : W64) : Bool :=
  if 340 ≤ i ∧ i ≤ 350 then badHash d i v
  else if 1024 ≤ i ∧ i ≤ 1535 then badRegion d i v
  else if i = 361 then badRotate d v
  else if i = 400 then bits v 60 2 == 3
  else false

/-! ## Group PK -/

/-- Every bit of a die's DG_READY that names a function is set (19 R396). -/
def Die.allSet (d : Die) : Bool := d.reg 500 &&& 0xFFFFFFFF00FFFFFF == 0xFFFFFFFF00FFFFFF

/-- PK_READY.DIE (19 R396). -/
def State.diesReady (s : State) : Nat := ((List.range 8).map fun d => if (s.die d).allSet then 2 ^ (32 + d) else 0).sum

/-- A PK register as read (19 R396, R399, R402, R403, R405). -/
def readPk (s : State) (i : Nat) : Option W64 :=
  if i = 0 then some (SMap.get 0 s.pk 0 ||| w64 s.diesReady) else if i < 5 then some (SMap.get 0 s.pk i) else none

/-- The package with a PK register set. -/
def State.setPk (s : State) (i : Nat) (v : W64) : State := { s with pk := SMap.set 0 s.pk i v }

/-! ## What a posted write is -/

/-- The kinds of register write that have a step of their own. -/
inductive RegKind where
  | plain | slip | hash | region | sgFault | uninit | errLog | keyRotate | tlbPage | tlbSpace | tlbAll | retry | skip
  | kill | pageDone
  deriving DecidableEq, Repr

/-- The kind of a write (the chapters named beside the registers). -/
def RegWrite.kind (w : RegWrite) : RegKind :=
  if w.group = 0 then (if w.idx = 8 then .slip else .plain)
  else if w.group = 2 then .plain
  else if 340 ≤ w.idx ∧ w.idx ≤ 350 then .hash
  else if 1024 ≤ w.idx ∧ w.idx ≤ 1535 then .region
  else if 1552 ≤ w.idx ∧ w.idx ≤ 1567 then .sgFault
  else if w.idx = 289 then .uninit
  else if w.idx = 363 ∨ w.idx = 364 then .errLog
  else if w.idx = 361 then .keyRotate
  else if w.idx = 336 then
    (match bits w.val 0 2 with | 1 => .tlbPage | 2 => .tlbSpace | 3 => .tlbAll | _ => .plain)
  else if w.idx = 400 then (match bits w.val 60 2 with | 0 => .retry | 1 => .skip | _ => .kill)
  else if w.idx = 406 then .pageDone
  else .plain

/-- A comes before b: an earlier cycle, or the lower package index in one cycle (04 R92). -/
def RegWrite.before (a b : RegWrite) : Bool :=
  decide (a.cycle < b.cycle) || (decide (a.cycle = b.cycle) && decide (a.core < b.core))

/-- The die a write goes to. -/
def RegWrite.die (w : RegWrite) : Nat := w.core / 512

/-- The launch of a Millwright with an id. -/
def Die.launch (d : Die) (id : Nat) : Option Launch := d.launches.find? fun l => decide (l.id = id)

/-- The state of a task of a launch. -/
def Launch.st (l : Launch) (i : Nat) : TaskSt := l.tasks.getD i .gone

/-- The task a command names: in the launch of that id of the writer's die, else of the lowest other die (18 R382). -/
def State.ctlTask (s : State) (w : RegWrite) : Option (TaskRef × Launch) :=
  let id := bits w.val 48 8
  let i := bits w.val 0 24
  ((w.die :: (List.range 8).filter fun d => decide (d ≠ w.die)).findSome? fun d =>
    ((s.die d).launch id).bind fun l => if i < l.tasks.length then some ({ die := d, launch := id, task := i }, l) else none)

/-- The writer's stores and copies before its C.CSW have been performed (18 R382). -/
def State.writerDone (s : State) (w : RegWrite) : Bool :=
  w.port || ((s.core w.core).posted.all fun a => a.eng != .a && a.eng != .c) && (s.core w.core).kop.copies.all (·.landed)

/-- The named task's trap is being delivered: the command waits (18 R393). -/
def State.ctlSaving (s : State) (w : RegWrite) : Bool :=
  match s.ctlTask w with
  | some (t, l) => (match l.st t.task with
      | .placed c => (match (s.core c).run with | .saving .trap | .storing .trap _ => true | _ => false)
          && decide ((s.core c).task = some t)
      | _ => false)
  | none => false

/-- A RETRY or SKIP waits for what its writer has written before it and for the delivery of the trap (18 R382, R393). -/
def State.ctlWaits (s : State) (w : RegWrite) : Bool :=
  (decide (w.kind = .retry) || decide (w.kind = .skip)) && (!s.writerDone w || s.ctlSaving w)

/-- The write to apply next among those posted before this cycle; a RETRY or SKIP that waits holds back no other (04 R92). -/
def State.nextWrite (s : State) : Option RegWrite :=
  (s.regWrites.filter fun w => decide (w.cycle < s.cycle) && !s.ctlWaits w).foldl
    (fun best w => match best with | none => some w | some b => if w.before b then some w else some b) none

/-- A response leaves by the port. -/
def State.reply (s : State) (r : Reply) : State := { s with replies := s.replies ++ [r] }

/-- A write of the port is answered once it has taken effect, or been refused (19 R395). -/
def State.portAnswer (s : State) (w : RegWrite) (e : State) : State :=
  if !w.port then e
  else if w.group = 1 && badDgWrite (s.die w.die) w.idx w.val then e.reply { ok := false, cause := some .ill }
  else e.reply { ok := true, data := [] }

/-- Takes a posted write of a kind, if that is the next write; the die is the writer's (04 R92). -/
def applyWrite (s : State) (kind : RegKind) (f : RegWrite → State → State) : Out :=
  match s.nextWrite with
  | some w => if w.kind = kind then .next (s.portAnswer w (f w { s with regWrites := s.regWrites.erase w })) else .next s
  | none => .next s

/-- REGISTER_WRITE (04 R91, R92): a register without behaviour of its own takes its writable fields; with DG_HOT_CTL an epoch begins
(17 R350; log entry 95). -/
def execRegisterWrite (s : State) : Out :=
  applyWrite s .plain (fun w s =>
    if w.group = 1 then
      s.updDie w.die fun d => { d.setReg w.idx ((d.reg w.idx &&& ~~~ w64 (dgMask w.idx)) ||| (w.val &&& w64 (dgMask w.idx))) with
        epochAt := if w.idx = 352 then s.cycle else d.epochAt }
    else s)

/-- CF_SLIP_WRITE (02 R36). -/
def execCfSlipWrite (s : State) : Out :=
  applyWrite s .slip (fun w s => s.updCore w.core fun k => { k with cf := { k.cf with slip := slipOf w.val } })

/-- HASH_MASK_WRITE (17 R354): refused again if a buffer has been filled meanwhile. -/
def execHashMaskWrite (s : State) : Out :=
  applyWrite s .hash (fun w s => s.updDie w.die fun d => if badHash d w.idx w.val then d else d.remask w.idx w.val)

/-- REGION_WRITE (12 R253). -/
def execRegionWrite (s : State) : Out :=
  applyWrite s .region (fun w s => s.updDie w.die fun d =>
    if badRegion d w.idx w.val then d else d.setReg w.idx (w.val &&& w64 (dgMask w.idx)))

/-- SG_FAULT_CLEAR (12 R255): a write of 0 to VALID clears the register. -/
def execSgFaultClear (s : State) : Out :=
  applyWrite s .sgFault (fun w s => s.updDie w.die fun d => if w.val.getLsbD 63 then d else d.setReg w.idx 0)

/-- UNINIT_CLEAR (06 R128): a write of 0 to VALID clears DG_UNINIT_INFO and DG_UNINIT_ADDR. -/
def execUninitClear (s : State) : Out :=
  applyWrite s .uninit (fun w s => s.updDie w.die fun d =>
    if w.val.getLsbD 0 then d else (d.setReg 289 0).setReg 288 0)

/-- ERROR_LOG_CLEAR (17 R363): a write of 0 to COUNT clears the register. -/
def execErrorLogClear (s : State) : Out :=
  applyWrite s .errLog (fun w s => s.updDie w.die fun d => if bits w.val 48 16 = 0 then d.setReg w.idx 0 else d)

/-! ## C.CSR and C.CSW -/

/-- A register of a group as the acting core reads it. -/
def readReg (s : State) (g i : Nat) : Option W64 :=
  if g = 0 then readCf s i else if g = 1 then readDg s s.myDie i else readPk s i

/-- The issue distance of CSR and CSW by group (04 R69). -/
def regIssue (g : Nat) : Nat := if g = 0 then 2 else if g = 1 then 24 else 96

/-- C.CSR (04 R90). The index is checked before the stack: DESIGN CHOICE, the spec gives no order (log entry 29). -/
def execCCsr (g : BitVec 6) (i : BitVec 13) (s : State) : Out :=
  issue .c (.cCsr g i) (regIssue g.toNat) (fun s =>
    match readReg s g.toNat i.toNat with
    | none => .fail .ill 0
    | some v => popping .c 0 1 (fun _ s => .ok (pushing .c [v] s)) s) s

/-- C.CSW (04 R90-R92): what a write may not do is refused at issue; a CF write is in effect at once, any other before
the C engine's next word. The index is checked before the stack: DESIGN CHOICE, the spec gives no order (log entry 29). -/
def execCCsw (g : BitVec 6) (i : BitVec 13) (s : State) : Out :=
  issue .c (.cCsw g i) (regIssue g.toNat) (fun s =>
    match readReg s g.toNat i.toNat with
    | none => .fail .ill 0
    | some _ => popping .c 1 0 (fun vs s =>
        let v := vs.getD 0 0
        if g.toNat = 0 ∧ i.toNat ≠ 8 then .ok (s.writeCf i.toNat v)
        else if g.toNat ≠ 0 ∧ !s.me.sys then .fail .perm 0
        else if g.toNat = 1 ∧ badDgWrite (s.die s.myDie) i.toNat v then .fail .ill 0
        else .ok { s with regWrites := s.regWrites ++
          [{ cycle := s.cycle, core := s.actor, group := g.toNat, idx := i.toNat, val := v }] }) s) s

end Sys2Proof.Machine
end

