-- ==== Sys2Proof/Machine/LegTable.lean ====
section
/-! DEFINITION. Leg tables: reading an image, its validation, the DRAM timing rules and the refresh deadline
(05 R99-R101, R106; 17 R346, R357-R359). -/

namespace Sys2Proof.Machine

/-- What reading bytes at virtual addresses of a die comes to. -/
inductive VRead where
  | ok (bs : List Byte)
  | fault (va : W64)
  | fail (c : Cause)
  deriving DecidableEq, Repr

/-- The place of an address by a walk of the die's tables, for a unit that keeps no TLB entry. -/
def Die.resolve (d : Die) (die space : Nat) (va : W64) : Except (Option Cause) Place :=
  match d.walk space va with
  | .fault => .error none
  | .fail c => .error (some c)
  | .leaf x => match placeOf d die va x with
    | some p => .ok p
    | none => .error (some .xlat)

/-- Reads `n` aligned 8-byte words at a virtual address of a die. -/
def Die.vwords (d : Die) (die space : Nat) (va : W64) : Nat → Except (Option Cause) (List Nat)
  | 0 => .ok []
  | n + 1 =>
    match d.resolve die space va with
    | .error e => .error e
    | .ok p =>
      if !p.rd then .error (some .perm)
      else match d.peek p.tier p.off 8 with
        | none => .error (some .integ)
        | some bs =>
          match Die.vwords d die space (va + 8) n with
          | .error e => .error e
          | .ok ws => .ok (leNat bs :: ws)

/-- Bits [lo+w-1:lo] of a number. -/
def nbits (v lo w : Nat) : Nat := v / 2 ^ lo % 2 ^ w

/-- The least k with 4^k at least n (05 R106). -/
def log4Up (n : Nat) : Nat := ((List.range 17).find? fun k => decide (n ≤ 4 ^ k)).getD 17

/-- The minimum closure offset (05 R106). -/
def minOfs (npart hrack : Nat) : Nat := 4 + 3 * log4Up npart + 360 * hrack

/-- The header's sixteen words as a table without its sections (05 R99). -/
def headerOf (h : List Nat) : LegTable :=
  let w := fun i => h.getD i 0
  { len := nbits (w 0) 32 32, slack := nbits (w 1) 0 32, offset := nbits (w 1) 32 16, tree := nbits (w 1) 48 8,
    xpkg := nbits (w 1) 56 1 == 1, npart := nbits (w 3) 0 32, hrack := nbits (w 3) 32 16,
    cores := ((List.range 8).map fun i => w (8 + i) * 2 ^ (64 * i)).sum }

/-- The counts NTL, NSLOT and NXLAT of a header (05 R99). -/
def headerCounts (h : List Nat) : Nat × Nat × Nat :=
  let w := h.getD 2 0
  (nbits w 0 16, nbits w 16 16, nbits w 32 16)

/-- The header's first failing field by R99 and R106, as its offset. -/
def headerBad (h : List Nat) : Option Nat :=
  let t := headerOf h
  let w := fun i => h.getD i 0
  let c := headerCounts h
  if nbits (w 0) 0 32 ≠ 0x4C454731 then some 0
  else if t.len = 0 then none
  else if t.len < 16 ∨ 2 ^ 31 < t.len then some 4
  else if 2 ^ 31 < t.slack then some 8
  else if t.offset < minOfs t.npart t.hrack then some 12
  else if 16 ≤ t.tree then some 14
  else if nbits (w 1) 57 7 ≠ 0 then some 15
  else if 128 < c.1 then some 16
  else if 256 < c.2.2 then some 20
  else if nbits (w 2) 48 16 ≠ 0 then some 22
  else if !t.xpkg ∧ t.hrack ≠ 0 then some 28
  else if nbits (w 3) 48 16 ≠ 0 ∨ w 4 ≠ 0 ∨ w 5 ≠ 0 ∨ w 6 ≠ 0 ∨ w 7 ≠ 0 then some 30
  else if 65536 < 128 + 8 * (c.1 + c.2.1 + c.2.2) then some 18
  else none

/-- A timeline command from its entry (05 R100). -/
def cmdOf (v off : Nat) : TCmd :=
  { cycle := nbits v 32 32, cmd := nbits v 28 4, bank := nbits v 22 6, addr := nbits v 8 14, tag := nbits v 0 8, off := off }

/-- A row command, as against a column command (05 R100). -/
def TCmd.isRow (c : TCmd) : Bool := c.cmd != 3 && c.cmd != 4

/-- The entry's fields have assigned values (05 R100, 06 R137). -/
def TCmd.formOk (c : TCmd) (len : Nat) : Bool :=
  decide (c.cycle < len) && decide (c.cmd ≤ 6) &&
  (if c.cmd = 2 ∨ c.cmd = 6 then c.bank == 0 else decide (c.bank < 48)) &&
  (if c.isRow then c.tag == 0 else decide (c.tag < 16) || decide (128 ≤ c.tag)) &&
  (if c.cmd = 0 then true else if c.isRow then c.addr == 0 else decide (c.addr < 16))

/-- The commands of a timeline stand in order: cycles rise, and at one cycle a row command stands before a column
command (05 R100). -/
def orderBad : List TCmd → Option Nat
  | a :: b :: cs =>
    if a.cycle < b.cycle ∨ (a.cycle = b.cycle ∧ a.isRow ∧ !b.isRow) then orderBad (b :: cs) else some b.off
  | _ => none

/-! ## DRAM timing -/

/-- What a bank has had (17 R357). -/
structure BankSt where
  active : Bool := false
  act : Option Nat := none
  pre : Option Nat := none
  rd : Option Nat := none
  wr : Option Nat := none
  ref : Option Nat := none
  deriving DecidableEq, Repr

/-- What a pseudo-channel has had (17 R357). -/
structure ChanSt where
  banks : SMap BankSt := []
  /-- ACT commands as (cycle, bank), and column commands as (cycle, bank group, whether a write), newest first. -/
  acts : List (Nat × Nat) := []
  cols : List (Nat × Nat × Bool) := []
  refab : Option Nat := none
  deriving DecidableEq, Repr

/-- At least `n` cycles have passed since an event, if there was one. -/
def since (e : Option Nat) (n t : Nat) : Bool := match e with | none => true | some u => decide (u + n ≤ t)

/-- The bank group of a bank (17 R357). -/
def bankGroup (b : Nat) : Nat := b % 16 / 4

/-- A precharge of one bank keeps tRAS, tRTP and tWR, unless the bank is precharged already. -/
def BankSt.mayPre (b : BankSt) (t : Nat) : Bool :=
  since b.ref 180 t && (!b.active || (since b.act 56 t && since b.rd 8 t && since b.wr 30 t))

/-- The bank after a precharge. -/
def BankSt.precharge (b : BankSt) (t : Nat) : BankSt := if b.active then { b with active := false, pre := some t } else b

/-- A command keeps every rule of R357 after what the pseudo-channel has had. -/
def ChanSt.allows (c : ChanSt) (x : TCmd) : Bool :=
  let t := x.cycle
  let b := SMap.get {} c.banks x.bank
  since c.refab 420 t &&
  (match x.cmd with
   | 0 => !b.active && since b.pre 24 t && since b.ref 180 t && (c.acts.all fun a => decide (a.2 = x.bank) || decide (a.1 + 4 ≤ t))
            && decide ((c.acts.filter fun a => decide (t < a.1 + 24)).length < 4)
   | 1 => b.mayPre t
   | 2 => c.banks.all fun p => p.2.mayPre t
   | 5 => !b.active && since b.ref 180 t
   | 6 => c.banks.all fun p => !p.2.active && since p.2.ref 180 t
   | _ =>
     let wr := x.cmd == 4
     b.active && since b.act 24 t && since b.ref 180 t && c.cols.all fun p =>
       decide (p.1 + (if p.2.1 = bankGroup x.bank then 4 else 3) ≤ t) &&
       (if !p.2.2 && wr then decide (p.1 + 8 ≤ t) else if p.2.2 && !wr then decide (p.1 + 12 ≤ t) else true))

/-- The pseudo-channel after a command. -/
def ChanSt.after (c : ChanSt) (x : TCmd) : ChanSt :=
  let t := x.cycle
  let b := SMap.get {} c.banks x.bank
  match x.cmd with
  | 0 => { c with banks := SMap.put c.banks x.bank { b with active := true, act := some t, rd := none, wr := none },
                  acts := (t, x.bank) :: c.acts }
  | 1 => { c with banks := SMap.put c.banks x.bank (b.precharge t) }
  | 2 => { c with banks := c.banks.map fun p => (p.1, p.2.precharge t) }
  | 3 => { c with banks := SMap.put c.banks x.bank { b with rd := some t }, cols := (t, bankGroup x.bank, false) :: c.cols }
  | 4 => { c with banks := SMap.put c.banks x.bank { b with wr := some t }, cols := (t, bankGroup x.bank, true) :: c.cols }
  | 5 => { c with banks := SMap.put c.banks x.bank { b with ref := some t } }
  | _ => { c with refab := some t }

/-- The first command of a timeline that breaks a rule of R357, as its offset. -/
def timingBad (c : ChanSt) : List TCmd → Option Nat
  | [] => none
  | x :: xs => if c.allows x then timingBad (c.after x) xs else some x.off

/-- Refreshes of a bank in a timeline, by cycle. -/
def refreshesOf (cmds : List TCmd) (b : Nat) : List Nat :=
  (cmds.filter fun c => c.cmd == 6 || (c.cmd == 5 && c.bank == b)).map (·.cycle)

/-- The refresh deadline of R358 holds for every bank: it is tightest just before a refresh and at the last cycle. -/
def deadlineOk (cmds : List TCmd) (len : Nat) : Bool :=
  (List.range 48).all fun b =>
    let rs := refreshesOf cmds b
    ((len - 1) :: rs).all fun c =>
      decide (1 + (c + 6629) / 6630 ≤ 8 + (rs.filter fun u => decide (u < c)).length)

/-! ## Sections -/

/-- A slot entry (05 R100). -/
def slotOf (v off : Nat) : Slot :=
  { cycle := nbits v 32 32, lane := nbits v 29 3, dir := nbits v 28 1, dest := nbits v 18 10, tag := nbits v 10 8,
    core := nbits v 0 9, off := off }

/-- A slot entry's fields have assigned values (05 R100, 14 R289). -/
def slotOk (v len : Nat) : Bool :=
  let x := slotOf v 0
  decide (x.cycle < len) && (decide (4 ≤ x.lane) || decide (x.dest < 10)) && nbits v 9 1 == 0 &&
  (decide (128 ≤ x.tag) || (decide (1 ≤ x.tag) && decide (x.tag ≤ 8) && x.core == 0))

/-- A translation entry (05 R100). -/
def xlatOf (v off : Nat) : XlatEntry :=
  { page := w64 (v / 2 ^ 12 * 2 ^ 12), wr := nbits v 3 1 == 1, size := nbits v 0 3, off := off }

/-- Bits of PK_READY of the hops a slot of a die crosses; on a rack ring, that of its first link. -/
def Slot.hops (x : Slot) (die : Nat) : List Nat :=
  if x.lane < 4 then hopsOf x.dest x.dir 10 (stationOf die)
  else [20 + (x.lane - 4) / 2 * 2 + x.dir]

/-- What a part of a load comes to: a page or a channel it waits for, or the first failure with its offset. -/
inductive Load (α : Type) where
  | ok (x : α) (s : State)
  | later (s : State)
  | bad (c : Cause) (off : Nat) (s : State)
  deriving DecidableEq, Repr

/-- Goes on with what a part of a load has found. -/
def Load.bind {α β : Type} (r : Load α) (f : α → State → Load β) : Load β :=
  match r with
  | .ok x s => f x s
  | .later s => .later s
  | .bad c off s => .bad c off s

/-- Words of a table, as the Millwright reads them in FREE mode (05 R101, R111). -/
def imageWords (s : State) (space va n : Nat) : Load (List Nat) :=
  match millRead s space va (8 * n) with
  | .ok bs s => .ok ((List.range n).map fun j => leNat ((bs.drop (8 * j)).take 8)) s
  | .wait s => .later s
  | .fail c _ s => .bad c 0 s

/-- The timelines of a directory. -/
def readTimelines (space va len : Nat) : List (Nat × Nat) → State → Load (List Timeline)
  | [], s => .ok [] s
  | (v, off) :: rest, s =>
    let count := nbits v 32 17
    let o := nbits v 0 16
    if nbits v 56 8 ≠ 0 ∨ nbits v 16 16 ≠ 0 ∨ count = 0 ∨ 8191 < count ∨ o % 8 ≠ 0 ∨ 65536 < o + 8 * count then
      .bad .ill off s
    else (imageWords s space (va + o) count).bind fun ws s =>
      let cmds := (List.range ws.length).map fun j => cmdOf (ws.getD j 0) (o + 8 * j)
      match cmds.find? fun c => !c.formOk len with
      | some c => .bad .ill c.off s
      | none => (readTimelines space va len rest s).bind fun ts s =>
        .ok ({ stack := nbits v 55 1, pch := nbits v 49 6, dirOff := off, cmds := cmds } :: ts) s

/-- The entries of a directory that name one pseudo-channel as one timeline (05 R100). -/
def addTimeline (ts : List Timeline) (x : Timeline) : List Timeline :=
  if ts.any fun t => t.stack == x.stack && t.pch == x.pch then
    ts.map fun t => if t.stack == x.stack && t.pch == x.pch then { t with cmds := t.cmds ++ x.cmds } else t
  else ts ++ [x]

/-- The first failure of the timelines by R100 and R357-R359. -/
def timelinesBad (d : Die) (len : Nat) (ts : List Timeline) : Option (Cause × Nat) :=
  match ts.findSome? (fun t => orderBad t.cmds) with
  | some off => some (.ill, off)
  | none => match ts.find? (fun x => !(d.reg 500).getLsbD x.stack) with
  | some x => some (.ill, x.dirOff)
  | none => match ts.findSome? (fun t => timingBad {} t.cmds) with
  | some off => some (.dramt, off)
  | none => match ts.find? (fun t => !deadlineOk t.cmds len) with
    | some t => some (.dramt, t.dirOff)
    | none =>
      let low := (List.range 11).any fun i => (d.reg (340 + i)).toNat % 64 != 0
      match ts.findSome? (fun t => t.cmds.find? fun c => !c.isRow) with
      | some c => if low then some (.straddle, c.off) else none
      | none => none

/-- The TLB entries of the pages of a translation set, by walks of the owning dies' tables; a page that is not present is
noted there to be brought in (05 R101). The SIZE of an entry is not compared with the leaf's (log entry 73). -/
def xlatPages (space : Nat) : List XlatEntry → State → Load (List (Nat × TlbEntry))
  | [], s => .ok [] s
  | e :: es, s =>
    let die := bits e.page 55 3
    match s.walkOf die space e.page with
    | .fault => .later (s.noteFault die space e.page e.wr)
    | .fail c => .bad c e.off s
    | .leaf x =>
      if !(if e.wr then pteW x else pteRd x) then .bad .perm e.off s
      else (xlatPages space es s).bind fun ps s =>
        .ok ((die, { space := space, base := e.page.toNat / pageSize (pteSize x), size := pteSize x, leaf := x,
                     locked := true }) :: ps) s

/-- The field of a table that does not fit the open traverse of a die (05 R101). -/
def Die.travBad (d : Die) (t : LegTable) : Option Nat :=
  match d.trav with
  | none => none
  | some tr => if t.tree ≠ tr.tree then some 14 else if t.cores ≠ tr.cores then some 64 else none

/-- The header of a table's image (05 R99). -/
def loadHead (s : State) (space va : Nat) : Load (List Nat) := imageWords s space va 16

/-- A table as far as its header, its directory and its slot entries tell, before they are validated (05 R98, R112). -/
def loadOutline (s : State) (space va : Nat) : Load LegTable :=
  (loadHead s space va).bind fun h s =>
  let c := headerCounts h
  if (headerBad h).isSome then .ok (headerOf h) s
  else if (headerOf h).len = 0 then .ok { len := 0 } s
  else (imageWords s space (va + 128) (c.1 + c.2.1)).bind fun ws s =>
    .ok { headerOf h with
      timelines := (ws.take c.1).map fun v => { stack := nbits v 55 1, pch := nbits v 49 6, dirOff := 0, cmds := [] }
      slots := (ws.drop c.1).map fun v => slotOf v 0 } s

/-- A table's image, read and validated: the header, the tree and the core set, the directory and its commands, timing, the
refresh deadline, the straddle test, the slots, the translation entries (05 R99-R101; the order is the model's, log
entry 74). -/
def loadTable (s : State) (die space va : Nat) : Load (LegTable × List (Nat × TlbEntry)) :=
  (loadHead s space va).bind fun h s =>
  let t := headerOf h
  let c := headerCounts h
  match headerBad h with
  | some off => .bad .ill off s
  | none =>
    if t.len = 0 then .ok ({ len := 0 }, []) s
    else match (s.die die).travBad t with
    | some off => .bad .ill off s
    | none =>
      (imageWords s space (va + 128) (c.1 + c.2.1 + c.2.2)).bind fun ws s =>
      let at_ := fun j => (ws.getD j 0, 128 + 8 * j)
      let sl := (List.range c.2.1).map fun j => at_ (c.1 + j)
      let xl := (List.range c.2.2).map fun j => at_ (c.1 + c.2.1 + j)
      (readTimelines space va t.len ((List.range c.1).map at_) s).bind fun ts s =>
      let ts := ts.foldl addTimeline []
      let t := { t with timelines := ts, slots := sl.map fun p => slotOf p.1 p.2, xlats := xl.map fun p => xlatOf p.1 p.2 }
      match timelinesBad (s.die die) t.len ts with
      | some (c, off) => .bad c off s
      | none => match sl.find? (fun p => !slotOk p.1 t.len
            || ((slotOf p.1 p.2).hops die).any fun b => !(SMap.get 0 s.pk 0).getLsbD b) with
        | some p => .bad .ill p.2 s
        | none => match xl.find? fun p => nbits p.1 4 8 != 0 || nbits p.1 58 6 != 0 with
          | some p => .bad .ill p.2 s
          | none => (xlatPages space t.xlats s).bind fun ps s =>
            -- a core TLB locks at most 96 pages, a memory-side TLB 8,192 (17 R346)
            if 96 < (ps.filter fun p => decide (p.1 = die)).eraseDups.length then .bad .ill 20 s
            else .ok (t, ps) s

end Sys2Proof.Machine
end

