-- ==== Sys2Proof/Machine/Legs.lean ====
section
/-! DEFINITION. Legs and closures (05 R96-R122; 06 R137; 17 R356-R358): the four S words of a traverse, the loads, starts
and ends of legs, the timelines, refresh and the sign-offs. -/

namespace Sys2Proof.Machine

/-! ## Closures -/

/-- Changes the traverse of a die. -/
def Die.updTrav (d : Die) (f : Trav → Trav) : Die := { d with trav := d.trav.map f }

/-- An arrival at the pending closure of a die. -/
def Trav.arrive (t : Trav) (cycle : Nat) : Trav :=
  { t with tFirst := if t.signed.isEmpty && t.stations.isEmpty then cycle else t.tFirst, tLast := max t.tLast cycle }

/-- The core's index within its die. -/
def State.slotInDie (s : State) : Nat := s.actor % 512

/-! ## S.LTLOAD -/

/-- S.LTLOAD (05 R111). -/
def execSLtload (b : BitVec 1) (s : State) : Out :=
  issueS (.sLtload b) (popping .c 1 0 fun vs s =>
    let va := vs.getD 0 0
    let d := s.die s.myDie
    let buf := d.buf b.toNat
    if bits va 58 6 ≠ 0 then .fail .xlat va
    else if va.toNat % 128 ≠ 0 then .fail .align va
    else if s.current s.myDie b.toNat || s.committed s.myDie b.toNat then .fail .ill 0
    else if buf.st = .loading then (if buf.addr = va then .ok s else .fail .ill 0)
    else
      let s1 := s.unpinAll (s.pageKeys buf.pages)
      .ok (s1.updDie s1.myDie fun d =>
        let first := d.firstLoad.isNone || (d.firstTable.isNone && d.firstVa == va)
        let d := d.setBuf b.toNat { st := .loading, addr := va, space := s.me.space, first := first }
        if first then { d with firstLoad := some b.toNat, firstVa := va } else d)) s

/-- A buffer with a failed table, and DG_LEG_BAD (05 R101, R121). -/
def Die.markBad (d : Die) (b : Nat) (c : Cause) (off cycle : Nat) : Die :=
  (d.setBuf b { d.buf b with st := .bad, table := {}, bad := some (c, off), readyAt := cycle, pages := [] }).setReg 276
    (w64 (c.code * 2 ^ 16 + off % 2 ^ 16))

/-- A buffer's load with its header read; the first table of a traverse to come is known from then on (05 R112). -/
def Die.noteHead (d : Die) (b : Nat) (t : LegTable) : Die :=
  let d := if (d.buf b).first then { d with firstTable := some (if t.len = 0 then { len := 0 } else t) } else d
  d.setBuf b { d.buf b with headRead := true }

/-- A buffer with a validated table (05 R101). -/
def Die.noteReady (d : Die) (b : Nat) (t : LegTable) (pages : List (Nat × TlbEntry)) (cycle : Nat) : Die :=
  let d := if (d.buf b).first then { d with firstTable := some t } else d
  d.setBuf b { d.buf b with st := .ready, table := t, bad := none, readyAt := cycle, pages := pages }

/-- The Millwright reads leg tables on behalf of a core of the traverse (17 R358). -/
def State.forTraverse (s : State) : State :=
  match s.participants s.myDie with
  | c :: _ => if (s.die s.myDie).trav.isSome then { s with actor := c } else s
  | [] => s

/-- The first table of a traverse as its directory and its slots tell, once they can be read: the opening closure tells by them the
cores of its tree from the controllers and the stations (05 R98, R107). -/
def State.noteOutline (s : State) (die b : Nat) : State :=
  let buf := (s.die die).buf b
  if !buf.first then s
  else match loadOutline s.forTraverse buf.space buf.addr.toNat with
    | .ok t s' => { (s'.unheated s).updDie die fun d => { d with firstTable := some t } with actor := s.actor }
    | _ => s

/-- LEG_TABLE_LOADED (05 R101, R111, R112): the header of the table is read, then the table is read and validated; absent
pages, channels in STATIC mode and full page-lock tables leave it LOADING. -/
def execLegTableLoaded (b : BitVec 1) (s : State) : Out :=
  let die := s.myDie
  let buf := (s.die die).buf b.toNat
  let back := fun (t : State) => Host.Outcome.next { t with actor := s.actor }
  if buf.st ≠ .loading then .next s
  else if !buf.headRead then
    match loadHead s.forTraverse buf.space buf.addr.toNat with
    | .later t => back (t.unheated s)
    | .bad c off s => back (s.updDie die fun d => d.markBad b.toNat c off s.cycle)
    | .ok h s => back ((s.updDie die fun d => d.noteHead b.toNat (headerOf h)).noteOutline die b.toNat)
  else match loadTable s.forTraverse die buf.space buf.addr.toNat with
    | .later t => back ((t.unheated s).noteOutline die b.toNat)
    | .bad c off s => back (s.updDie die fun d => d.markBad b.toNat c off s.cycle)
    | .ok r s =>
      match s.pinAll (s.pageKeys r.2) with
      | none => back s
      | some s => back (s.updDie die fun d => d.noteReady b.toNat r.1 r.2 s.cycle)

/-! ## S.SIGN -/

/-- What issued words and W.ROWS write to the scratchpad and the slots stands there (16 R329). -/
def Core.landedAll (k : Core) : Bool :=
  k.rows.isNone && k.late.all fun l => match l.act with | .slots _ _ | .pad _ _ _ => false | _ => true

/-- The writes of a core that a release covers are performed: posted accesses, the combining buffer, submitted copies, what
issued words write to its own memories, far operations but for sketch updates logged in a timed part (16 R329, 05 R118,
13 R275). -/
def Core.drained (k : Core) : Bool :=
  k.posted.isEmpty && k.comb.isEmpty && (k.kop.copies.all (·.landed)) && k.landedAll &&
    k.far.all fun o => o.leg.isSome && (match o.i with | .fSkup _ => true | _ => false)

/-- At the opening of a traverse a READY buffer of another tree or core set becomes BAD (05 R112). -/
def State.testBuf (s : State) (d : Nat) (b : Nat) : State :=
  let buf := (s.die d).buf b
  if buf.st ≠ .ready ∨ buf.table.len = 0 then s
  else match (s.die d).travBad buf.table with
    | none => s
    | some off =>
      (s.unpinAll (s.pageKeys buf.pages)).updDie d fun x => x.markBad b .ill off buf.readyAt

/-- Opens a traverse on a tree: its core set is that of the first table (05 R112). -/
def State.openTrav (s : State) (d tree first : Nat) : State :=
  let cores := ((s.die d).firstTable.getD {}).cores
  ((s.updDie d fun x => { x with trav := some { tree := tree, cores := cores, firstBuf := first } }).testBuf d 0).testBuf d 1

/-- Timed writes of the acting core that no controller has served yet (05 R118). -/
def State.timedWrites (s : State) : Bool :=
  s.dies.any fun p => p.2.timed.reqs.any fun r => decide (r.core = s.actor) && r.write.isSome

/-- Every write the acting core has made is complete (05 R118). -/
def State.drainedMe (s : State) : Bool := s.me.drained && !s.timedWrites

/-- Records a core's S.SIGN at its die (05 R112). -/
def signBody (tree : Nat) (vote : Bool) (s : State) : Res :=
  let die := s.myDie
  let d := s.die die
  let me := s.slotInDie
  let sign := fun s : State =>
    let s := s.updDie die fun d => d.updTrav fun t =>
      { (t.arrive s.cycle) with signed := me :: t.signed, vote := t.vote || vote }
    Res.ok (s.updMe fun k => { k with leg := { k.leg with signed := true, go := none, ended := false } })
  if s.me.leg.timed then .fail .ill 0
  else match d.trav with
    | some t =>
      if tree ≠ t.tree || t.cores / 2 ^ me % 2 == 0 || s.me.leg.signed || t.left.contains me then .fail .ill 0
      else if !s.drainedMe then .wait (s.flushComb fun _ => true)
      else sign s
    | none =>
      match d.firstLoad with
      | none => .fail .ill 0
      | some b =>
        if (d.buf b).st = .loading && (d.buf b).first && d.firstTable.isNone then
          .wait (s.updDie die fun d => d.setBuf b { d.buf b with awaited := true })
        else if (d.firstTable.getD {}).cores / 2 ^ me % 2 == 0 then .fail .ill 0
        else if !s.drainedMe then .wait (s.flushComb fun _ => true)
        else sign (s.openTrav die tree b)

/-- A killed member of the traverse is reported at the S word at which C stands, once (18 R391). -/
def peerTrap (s : State) (p : Nat) : Out :=
  .next (takeTrap (s.updMe fun k => { k with leg := { k.leg with peer := none } }) 7 (s.me.en .c).pc .peer (w64 p))

/-- S.SIGN (05 R112). -/
def execSSign (k : BitVec 4) (s : State) : Out :=
  match s.me.leg.peer, s.me.leg.timed, s.stack .c with
  | some p, false, _ :: _ => peerTrap s p
  | _, _, _ => issueS (.sSign k) (popping .c 1 0 fun vs s => signBody k.toNat (vs.getD 0 0 != 0) s) s

/-! ## The start of a leg -/

/-- The closure offset of the pending closure (05 R107). At an opening over several dies it is that of the acting core's die:
DESIGN CHOICE, the spec does not say which die's DG_CLO_OFFSET counts (log entry 97). -/
def State.closureOfs (s : State) (d : Nat) : Nat :=
  let t := s.travOf d
  let tb := s.closingTable d
  if t.opening then max (bits ((s.die d).reg (256 + t.tree)) 0 16) (minOfs tb.npart tb.hrack) else tb.offset

/-- Changes the context of a core's signed member, where it is that. -/
def Saved.updMember (x : Saved) (k : Nat) (f : Core → Core) : Saved :=
  if x.bound && decide (x.left = k) && x.core.leg.signed then { x with core := f x.core } else x

/-- Changes a member of a traverse: the core, or the context of its task where that has been pre-empted after its S.SIGN and goes
back there (05 R107, R114; 18 R384; log entry 46). -/
def State.updMember (s : State) (k : Nat) (f : Core → Core) : State :=
  if (s.core k).leg.signed then s.updCore k f
  else { s with dies := s.dies.map fun p => (p.1, { p.2 with saved := p.2.saved.map fun x => x.updMember k f }) }

/-- Changes the members of a traverse on a die. -/
def State.updMembers (s : State) (ks : List Nat) (f : Core → Core) : State := ks.foldl (fun s k => s.updMember k f) s

/-- The overrun of the closing leg, in cycles past its bound (05 R109). -/
def State.overrunOf (s : State) (d tLast : Nat) : Nat :=
  let t := s.travOf d
  let tb := s.closingTable d
  if t.opening then 0 else tLast - (t.tStart + tb.len + tb.slack)

/-- Counts an overrun and tells the cores that ask for it (05 R109). -/
def State.noteOverrun (s : State) (d tLast : Nat) : State :=
  let o := s.overrunOf d tLast
  if o = 0 then s
  else (s.updDie d fun x => x.bumpReg 274 0 16 1).updMembers (s.participants d) fun k =>
    if bits k.cf.mode 3 1 = 1 then { k with leg := { k.leg with overrun := some o } } else k

/-- The pages of the translation set of a die's current leg, by owning die. -/
def State.runPages (s : State) (d : Nat) : List (Nat × TlbEntry) :=
  match (s.die d).trav.bind (·.cur) with
  | some b => ((s.die d).buf b).pages
  | none => []

/-- Two TLB entries hold the same page. -/
def TlbEntry.same (a b : TlbEntry) : Bool := decide (a.space = b.space) && decide (a.base = b.base) && decide (a.size = b.size)

/-- The memory-side TLBs no longer lock the pages of a die's current leg, but for those another die's leg locks (05 R102; 17
R346). -/
def State.unlockSet (s : State) (d : Nat) : State :=
  let others := ((List.range 8).filter fun x => decide (x ≠ d)).flatMap s.runPages
  (s.runPages d).foldl (fun s p =>
    if others.any fun q => decide (q.1 = p.1) && q.2.same p.2 then s
    else s.updDie p.1 fun x => { x with tlb := x.tlb.map fun e => if e.same p.2 then { e with locked := false } else e }) s

/-- The memory-side TLBs lock the translation set of a leg that starts (05 R102, 17 R346). -/
def State.lockSet (s : State) (d : Nat) (buf : LegBuf) : State :=
  buf.pages.foldl (fun s p => s.updDie p.1 fun x => { x with tlb := tlbInsert 16384 x.tlb p.2 }) (s.unlockSet d)

/-- The core's TLB without locks, and then with those of some pages of its die (05 R102, 17 R346). -/
def Core.lockTlb (k : Core) (es : List TlbEntry) : Core :=
  { k with tlb := es.foldl (fun l e => tlbInsert 128 l e) (k.tlb.map fun e => { e with locked := false }) }

/-- Commands of a leg in order of cycle, a row command first (05 R100, R102). -/
def insertCmd (c : Nat × Nat × TCmd) : List (Nat × Nat × TCmd) → List (Nat × Nat × TCmd)
  | [] => [c]
  | x :: xs => if c.2.2.cycle < x.2.2.cycle then c :: x :: xs else x :: insertCmd c xs

/-- The timed part of a leg at the controllers and the ring station of a die. -/
def TimedMem.begin (t : LegTable) : TimedMem :=
  { todo := (t.timelines.flatMap fun l => l.cmds.map fun c => (l.stack, l.pch, c)).foldl (fun l c => insertCmd c l) []
    static_ := t.timelines.map fun l => (l.stack, l.pch)
    slots := t.slots }

/-- Starts a leg of a die from a buffer at a cycle (05 R102, R105, R107). -/
def State.startLeg (s : State) (d b ts : Nat) : State :=
  let buf := (s.die d).buf b
  let s := (s.lockSet d buf).updDie d fun x =>
    { (x.setReg 275 (w64 ts)).updTrav fun t => { t with
        opening := false, signed := [], stations := [], vote := false, tFirst := 0, tLast := 0, cur := some b
        was := t.cur, tStart := ts, prepared := [], refab := none }
      with timed := TimedMem.begin buf.table, heldAt := [] }
  s.updMembers (s.participants d) fun k =>
    { k with leg := { k.leg with go := some ts, len := buf.table.len },
             eng := k.eng.map fun _ x => { x with nextIssue := max x.nextIssue (ts - 1) } }

/-- A closure that selects an end table, or a buffer that cannot run: no leg follows on the tree (05 R105, R112). -/
def State.endTrav (s : State) (d b : Nat) (cause : Option Cause) : State :=
  (s.updDie d fun x => x.updTrav fun t => { t with closed := true, sel := some b }).updMembers (s.participants d) fun k =>
    { k with leg := { k.leg with ended := cause.isNone, refused := cause } }

/-- The cause of a code (18 R379). -/
def Cause.ofCode (n : Nat) : Cause :=
  ([.ill, .stk, .align, .xlat, .perm, .uninit, .breach, .order, .slot, .plane, .sketch, .dramt, .straddle, .token, .integ,
    .peer, .overrun, .swt] : List Cause).find? (fun c => c.code == n) |>.getD .ill

/-- The cause a buffer that cannot run gives at S.LEG: that of DG_LEG_BAD, or #ILL for an EMPTY one (05 R105). -/
def Die.refusal (d : Die) (b : Nat) : Option Cause :=
  match (d.buf b).st with
  | .bad => some (Cause.ofCode (bits (d.reg 276) 16 6))
  | .empty => some .ill
  | _ => none

/-- VOTE of DG_LEG_STAT (05 R121). -/
def Die.setVote (d : Die) (v : Bool) : Die := d.setReg 273 (if v then w64 (2 ^ 12) else 0)

/-- tRFCab, the cycles a start keeps from a REFAB of a hold (17 R357, R358). -/
abbrev tRFCab : Nat := 420

/-- The pending closure of a tree: its cycle, and whether the start has waited (05 R105, R107; 17 R358). -/
structure Start where
  at_ : Nat
  late : Bool
  deriving DecidableEq, Repr

/-- When a tree's next leg starts from buffer `b` (05 R105, R107; 17 R358): the last arrival and the offset, the buffers'
loads, at an opening the preparation, and tRFCab after a REFAB of a hold. -/
def State.startOf (s : State) (ds : List Nat) (b tLast ofs : Nat) : Start :=
  let ready := (ds.map fun d => ((s.die d).buf b).readyAt).foldl max 0
  let prep := (ds.flatMap fun d => (s.travOf d).prepared.map (·.2)).foldl max 0
  let refab := (ds.filterMap fun d => (s.travOf d).refab).foldl (fun m c => max m (c + tRFCab)) 0
  let awaited := ds.any fun d => (s.travOf d).opening && ((s.die d).buf (s.travOf d).firstBuf).awaited
  { at_ := max (max (max (tLast + ofs) ready) prep) refab
    late := decide (tLast + ofs ≤ ready) || awaited || decide (max (tLast + ofs) ready < refab) }

/-- LEG_START (05 R105, R107, R109): the pending closure of the acting core's die is complete on every die of its tree;
the selected buffer's leg starts, or an end table completes, or the cores are told why none can. -/
def execLegStart (s : State) : Out :=
  match (s.die s.myDie).trav with
  | none => .next s
  | some t =>
    let cl := s.closure t.tree
    let ds := s.diesOn t.tree
    let b := if cl.vote then 1 else 0
    let unprepared := ds.any fun d => (s.preparing d).any fun k => !(s.travOf d).prepared.any fun (p : Nat × Nat) => p.1 == k
    if t.closed || !cl.done || unprepared || (ds.any fun d => decide (((s.die d).buf b).st = .loading)) then .next s
    else
      let st := s.startOf ds b cl.tLast (s.closureOfs s.myDie)
      let refused := ds.findSome? fun d => (s.die d).refusal b
      let ends := refused.isNone && ds.any fun d => decide (((s.die d).buf b).table.len = 0)
      if s.cycle + (if ends then 0 else 1) < st.at_ then .next s
      else
        let s := ds.foldl (fun s d => s.noteOverrun d cl.tLast) s
        let s := ds.foldl (fun s d => s.updDie d fun x => x.setVote cl.vote) s
        let s := if st.late then ds.foldl (fun s d => s.updDie d fun x => x.bumpReg 274 16 16 1) s else s
        let s := { s with bridges := s.bridges.filter fun p => p.1 != t.tree,
                          peerSigns := s.peerSigns.filter fun p => p.tree != t.tree }
        match refused with
        | some c => .next (ds.foldl (fun s d => s.endTrav d b (some (((s.die d).refusal b).getD c))) s)
        | none =>
          if ends then .next (ds.foldl (fun s d => s.endTrav d b none) s)
          else .next (ds.foldl (fun s d => s.startLeg d b (max st.at_ s.cycle)) s)

/-! ## S.LEG and S.SLACK -/

/-- A core leaves its traverse; the traverse closes with its last core (05 R113), on each die with the last core of that die:
DESIGN CHOICE, the spec does not say so for a tree over several dies (log entry 97). -/
def State.leaveTrav (s : State) : State :=
  let die := s.myDie
  let me := s.slotInDie
  let was := (s.die die).trav.isNone
  let s := (s.updMe fun k => { k.lockTlb [] with leg := {} }).updDie die fun d => d.updTrav fun t => { t with left := me :: t.left }
  let t := s.travOf die
  if !was && decide (bitCount t.cores 512 ≤ t.left.length) then
    let pages := (s.die die).bufA.pages ++ (s.die die).bufB.pages
    let s := (s.unlockSet die).unpinAll (s.pageKeys pages)
    s.updDie die fun d => { d with trav := none, bufA := {}, bufB := {}, firstLoad := none, firstTable := none, firstVa := 0, timed := {},
                                   heldAt := [] }
  else s

/-- The acting core reaches S.LEG in the cycle before a start, or had reached it by then (05 R113). -/
def State.legCycle (s : State) (ts : Nat) : Nat :=
  let onTime := s.me.actives.all fun u => match (s.me.en u).parked with | some p => decide (p < ts) | none => true
  if onTime then ts else max ts (s.cycle + 1)

/-- The core's leg cycle 0 (05 R113): late cycles count as breaches. -/
def State.enterLeg (s : State) (ts : Nat) : State :=
  let start := s.legCycle ts
  let late := start - ts
  let own := ((s.runPages s.myDie).filter fun p => p.1 == s.myDie).map (·.2)
  let s := s.updMe fun k =>
    ({ k.lockTlb own with
      leg := { k.leg with signed := false, go := none, timed := true, start := start, rise := 0,
                          copies := 0, sketches := 0, colls := 0 },
      colls := k.colls.map Coll.untag,
      tagLag := if late = 0 then [] else (k.streams.filter fun (p : Nat × Stream) => p.2.active).map fun (p : Nat × Stream) => (p.1, late),
      eng := k.eng.map fun _ x => { x with lag := late } }).addBreach late s.cycle
  if late = 0 then s else s.updDie s.myDie fun d => d.bumpReg 274 48 16 late

/-- S.LEG (05 R113). A leg whose start was known only in its cycle (05 R107) begins in that cycle. -/
def execSLeg (s : State) : Out :=
  let g := s.me.leg
  match g.peer, g.overrun with
  | some p, _ => peerTrap s p
  | none, some v =>
    if g.signed && g.refused.isNone then
      .next (takeTrap (s.updMe fun k => { k with leg := { k.leg with overrun := none } }) 7 (s.me.en .c).pc .overrun (w64 v))
    else issueS .sLeg (fun _ => .fail (g.refused.getD .ill) 0) s
  | none, none =>
    issueSN .sLeg (match g.go with | some ts => s.legCycle ts - s.cycle | none => 1) (fun s =>
      match g.refused with
      | some c => .fail c 0
      | none =>
        if g.signed && g.ended then .ok s.leaveTrav
        else if (s.die s.myDie).trav.isNone || !g.signed then .fail .ill 0
        else match g.go with
          | none => .wait s
          | some ts => if s.cycle + 1 < ts then .wait s else .ok (s.enterLeg ts)) s

/-- S.SLACK (05 R114): takes effect at leg cycle L - 1 at the earliest; #BREACH follows the effect. -/
def execSSlack (s : State) : Out :=
  let g := s.me.leg
  if g.timed && decide (g.start + g.len ≤ s.cycle + 1) && bits s.me.cf.mode 2 1 == 1 && decide (0 < g.rise) then
    .next (takeTrap (s.updMe fun k => { k with leg := { k.leg with timed := false } }) 7 (s.me.en .c).pc .breach (w64 g.rise))
  else
    issueS .sSlack (fun s =>
      if !g.timed then .fail .ill 0
      else if s.cycle + 1 < g.start + g.len then .wait s
      else .ok (s.updMe fun k =>
        { k with leg := { k.leg with timed := false }, tagLag := [], eng := k.eng.map fun _ x => { x with lag := 0 } })) s

/-! ## Timelines -/

/-- A burst at an offset lies in a bank, row and column of a pseudo-channel. -/
def Die.burstAt (d : Die) (stack pch bank row col off : Nat) : Bool :=
  d.stackOf off == stack && d.pchOf off == pch && d.bankOf off == bank && rowOf off == row && colOf off == col

/-- A core is given a burst a timed read has brought: 20 cycles at the stack and 8 back (06 R137). -/
def Core.giveBurst (k : Core) (tag off cycle : Nat) (bs : List Byte) : Core :=
  { k with bursts := k.bursts ++ [{ tag := tag, off := off, ready := cycle + 28, bytes := bs }] }

/-- A stream or copy waits up to a cycle, from `from_` on: each cycle is a breach, counted once (06 R137, 05 R119). -/
def Core.waitTag (k : Core) (tag from_ upto : Nat) : Core :=
  let lo := max from_ (SMap.get 0 k.tagCounted tag)
  let n := upto - lo
  if n = 0 then k
  else
    { k.addBreach n upto with
      tagCounted := SMap.set 0 k.tagCounted tag upto
      tagLag := SMap.set 0 k.tagLag tag (SMap.get 0 k.tagLag tag + n) }

/-- Bytes of a burst under the enabled bytes of a request. -/
def mergeBytes (old : List Byte) (new : List (Option Byte)) : List Byte :=
  (List.range old.length).map fun j => match new.getD j none with | some b => b | none => old.getD j 0

/-- Serves the requests of a burst that have reached the controller: every read, and the merged writes in ascending
package index (06 R137). -/
def State.serveBurst (s : State) (d off tag : Nat) (write : Bool) : State :=
  let mine := (s.die d).timed.reqs.filter fun r =>
    decide (r.tag = tag) && decide (r.burst = off) && (r.write.isSome == write) && decide (r.arrives ≤ s.cycle)
  let s := s.updDie d fun x => { x with timed := { x.timed with reqs := x.timed.reqs.filter fun r => !mine.contains r } }
  if mine.isEmpty then s
  else match (if write then (s, (s.die d).peek 0 off 64) else s.read d 0 off 64) with
    | (s, none) =>
      let s := if write then (s.read d 0 off 64).1 else s
      mine.foldl (fun s r => s.updCore r.core fun k =>
        k.takeTrap (if tag < 128 then 1 else 4) (k.en (if tag < 128 then .a else .k)).pc .integ r.va s.cycle) s
    | (s, some bs) =>
      if write then
        let ordered := (List.range 4096).flatMap fun c => mine.filter fun r => decide (r.core = c)
        (s.write d 0 off (ordered.foldl (fun bs r => mergeBytes bs (r.write.getD [])) bs) false).1
      else mine.foldl (fun s r => s.updCore r.core fun k => k.giveBurst tag off s.cycle bs) s

/-- A request waits for an owed command: that of its burst is owed, or no command of its tag is still to come (06 R137). -/
def TimedMem.owedTo (t : TimedMem) (r : TimedReq) (cycle : Nat) : Bool :=
  decide (r.arrives ≤ cycle) &&
    (t.owed.contains (r.tag, r.burst, r.write.isSome) ||
      !t.todo.any fun c => !c.2.2.isRow && decide (c.2.2.tag = r.tag) && (c.2.2.cmd == 4) == r.write.isSome)

/-- A stream or copy of a core has a request that waits for an owed command: it is held (06 R137; 11 R238). -/
def State.owedHeld (s : State) (core tag : Nat) : Bool :=
  let t := (s.die (core / 512)).timed
  t.reqs.any fun r => decide (r.core = core) && decide (r.tag = tag) && t.owedTo r s.cycle

/-- Each cycle in which a stream or copy waits for an owed command is a breach of it (06 R137; 11 R238). -/
def State.owedWaits (s : State) : State :=
  s.dies.foldl (fun s p => (p.2.timed.reqs.filter fun r => p.2.timed.owedTo r s.cycle).foldl (fun s r =>
    s.updCore r.core fun k => k.waitTag r.tag s.cycle (s.cycle + 1)) s) s

/-- The stream or the copy of a tag is under way on a core. -/
def Core.tagActive (k : Core) (tag : Nat) : Bool :=
  if tag < 128 then (SMap.get {} k.streams tag).active else true

/-- A participating core whose stream or copy carries lag holds back a command (06 R137, 11 R238). -/
def State.streamLags (s : State) (d tag : Nat) : Bool :=
  (s.participants d).any fun k =>
    (s.core k).leg.timed && (s.core k).tagActive tag && decide (0 < SMap.get 0 (s.core k).tagLag tag)

/-- Key of a bank in the refresh table. -/
def bankKey (stack pch bank : Nat) : Nat := 4 + (stack * 64 + pch) * 48 + bank

/-- A refresh of one bank (17 R358): a debt is never less than -8. -/
def Die.refreshBank (d : Die) (stack pch bank : Nat) : Die :=
  let paid := SMap.get 0 d.refresh (bankKey stack pch bank)
  let ticks := SMap.get 0 d.refresh stack
  { d with refresh := SMap.set 0 d.refresh (bankKey stack pch bank) (min (paid + 1) (ticks + 8)) }

/-- The effect of one timeline command (05 R102, 06 R137). -/
def State.runCommand (s : State) (d stack pch : Nat) (c : TCmd) : State :=
  let die := s.die d
  match c.cmd with
  | 0 => s.updDie d fun x => { x with timed := { x.timed with
      rows := (stack, pch, c.bank, c.addr) :: x.timed.rows.filter fun r => !(r.1 == stack && r.2.1 == pch && r.2.2.1 == c.bank) } }
  | 1 => s.updDie d fun x => { x with timed := { x.timed with
      rows := x.timed.rows.filter fun r => !(r.1 == stack && r.2.1 == pch && r.2.2.1 == c.bank) } }
  | 2 => s.updDie d fun x => { x with timed := { x.timed with
      rows := x.timed.rows.filter fun r => !(r.1 == stack && r.2.1 == pch) } }
  | 5 => s.updDie d fun x => x.refreshBank stack pch c.bank
  | 6 => s.updDie d fun x => (List.range 48).foldl (fun x b => x.refreshBank stack pch b) x
  | _ =>
    let write := c.cmd == 4
    match die.timed.rows.find? fun r => r.1 == stack && r.2.1 == pch && r.2.2.1 == c.bank with
    | none => s
    | some r =>
      let hit := fun off => die.burstAt stack pch c.bank r.2.2.2 c.addr off
      let reqs := die.timed.reqs.filter fun q =>
        decide (q.tag = c.tag) && (q.write.isSome == write) && hit q.burst && decide (q.arrives ≤ s.cycle)
      let owedHere := die.timed.owed.any fun o => hit o.2.1
      match reqs with
      | q :: _ =>
        if owedHere || s.streamLags d c.tag then
          s.updDie d fun x => { x with timed := { x.timed with owed := x.timed.owed ++ [(c.tag, q.burst, write)] } }
        else s.serveBurst d q.burst c.tag write
      | [] =>
        let off := (r.2.2.2 / 1024) * 2 ^ 31 + (r.2.2.2 % 1024) * 2 ^ 16 + (c.addr / 2) * 2 ^ 13 + (c.addr % 2) * 2 ^ 6
        let full := ((List.range 2048).map fun j => off + c.bank / 16 * 2 ^ 35 + (j % 64) * 2 ^ 7 + (j / 64 % 2) * 2 ^ 26
          + (j / 128) * 2 ^ 27).find? hit
        match full with
        | some o => s.updDie d fun x => { x with timed := { x.timed with owed := x.timed.owed ++ [(c.tag, o, write)] } }
        | none => s

/-- TIMELINE_COMMAND (05 R102): the next command of the acting core's die issues at its cycle. -/
def execTimelineCommand (s : State) : Out :=
  let d := s.die s.myDie
  match d.timed.todo, d.trav with
  | (stack, pch, c) :: rest, some t =>
    if s.cycle < t.tStart + c.cycle then .next s
    else
      let s := s.updDie s.myDie fun x => { x with timed := { x.timed with todo := rest } }
      .next (s.runCommand s.myDie stack pch c)
  | _, _ => .next s

/-- The timed part has ended on every participating core of a die. -/
def State.timedOver (s : State) (d : Nat) : Bool :=
  (s.participants d).all fun k => !(s.core k).leg.timed && (s.core k).leg.go.isNone

/-- The FREE-mode requests that the controllers of a die have accepted for their STATIC channels: posted accesses of cores
(05 R102, R108). -/
def State.acceptedBy (s : State) (d : Nat) : List (Nat × Posted) :=
  s.cores.flatMap fun (p : Nat × Core) => (p.2.posted.filter fun a =>
    a.peer.isNone && decide (a.die = d) && s.anyStatic d a.tier a.off a.bytes).map fun a => (p.1, a)

/-- A far operation or a copy still waits where it stood at a channel in STATIC mode. -/
def State.stillWaits (s : State) (w : Waiting) : Bool :=
  match w.copy with
  | none => (s.core w.core).far.any fun o => decide (o.place = w.place) && !o.served
  | some n => (s.core w.core).kop.copies.any fun c => decide (c.place = w.place) && decide ((c.taken, c.moves.length) = n)

/-- An accepted request of a stack has not been served (05 R108): an engine's own read, tried anew in each cycle, has been in the
first cycle in FREE mode. -/
def State.unserved (s : State) (d stack : Nat) : Bool :=
  let x := s.die d
  (x.timed.accepted.any fun (p : Nat × Posted) => (s.core p.1).posted.contains p.2 &&
    (List.range p.2.bytes).any fun j => x.stackOf (p.2.off + j) == stack) ||
  (x.timed.waiting.any fun w => decide (w.stack = stack) && s.stillWaits w) ||
  decide (s.cycle < SMap.get 0 x.timed.turned stack + 1)

/-- LEG_TIMED_END (05 R102): at t_start + L the pseudo-channels of the leg return to FREE mode. -/
def execLegTimedEnd (s : State) : Out :=
  let d := s.die s.myDie
  match d.trav with
  | none => .next s
  | some t =>
    let len := match t.cur with | some b => (d.buf b).table.len | none => 0
    if t.cur.isNone || s.cycle < t.tStart + len || !d.timed.todo.isEmpty then .next s
    else
      let kept := s.acceptedBy s.myDie
      .next (s.updDie s.myDie fun x => { x with timed := { x.timed with static_ := [], rows := [], accepted := kept } })

/-- OWED_COMMAND_SERVICE (06 R137): after the timed part the next owed command is served with the requests
that match; what is left then is served in FREE mode too. -/
def execOwedCommandService (s : State) : Out :=
  let d := s.die s.myDie
  match d.timed.owed with
  | [] =>
    match d.timed.reqs with
    | r :: _ =>
      if !d.timed.static_.isEmpty || s.cycle < r.arrives then .next s
      else .next (s.serveBurst s.myDie r.burst r.tag r.write.isSome)
    | [] => .next s
  | (tag, off, write) :: rest =>
    let coming := d.timed.reqs.any fun r => decide (r.tag = tag) && decide (r.burst = off) && decide (s.cycle < r.arrives)
    if !s.timedOver s.myDie || !d.timed.static_.isEmpty || coming then .next s
    else
      let s := s.updDie s.myDie fun x => { x with timed := { x.timed with owed := rest } }
      .next (s.serveBurst s.myDie off tag write)

/-! ## Refresh and sign-offs -/

/-- REFRESH_TICK (17 R358): every tREFI each bank's debt of a stack rises by one. -/
def execRefreshTick (sel : BitVec 1) (s : State) : Out :=
  let d := s.die s.myDie
  let due := SMap.get 0 d.refresh (2 + sel.toNat)
  if (d.reg 500).getLsbD sel.toNat && decide (due ≤ s.cycle) then
    .next (s.updDie s.myDie fun x =>
      let ticks := SMap.set 0 x.refresh sel.toNat (SMap.get 0 x.refresh sel.toNat + 1)
      { x with refresh := SMap.set 0 ticks (2 + sel.toNat) (due + 6630) })
  else .next s

/-- Pays every debt of a stack: refreshes in FREE mode until no bank owes any (05 R108, 17 R358). -/
def Die.payRefresh (d : Die) (stack : Nat) : Die :=
  let ticks := SMap.get 0 d.refresh stack
  let keys := (List.range 64).flatMap fun p => (List.range 48).map fun b => bankKey stack p b
  let paid := keys.foldl (fun m key => if SMap.get 0 m key < ticks then SMap.set 0 m key ticks else m) d.refresh
  { d with refresh := paid }

/-- A station arrives at the pending closure (05 R107, R108). -/
def Die.signStation (d : Die) (x cycle : Nat) : Die :=
  d.updTrav fun t => { (t.arrive cycle) with stations := x :: t.stations }

/-- A station may sign: the leg's timed part is over, it is due and has not signed. -/
def Die.mayStation (d : Die) (x cycle : Nat) : Bool :=
  match d.trav with
  | none => false
  | some t =>
    let len := match t.cur with | some b => (d.buf b).table.len | none => 0
    (Trav.stationsDue d t).contains x && !t.stations.contains x && decide (t.tStart + len ≤ cycle) &&
      d.timed.static_.isEmpty && d.timed.todo.isEmpty

/-- Sketch updates of the current leg are still in a log of the die (13 R275). -/
def State.logHeld (s : State) (d : Nat) : Bool :=
  s.cores.any fun p => p.2.far.any fun o =>
    decide (o.die = d) && decide (o.leg = some (s.travOf d).tStart) && (match o.i with | .fSkup _ => true | _ => false)

/-- A controller's stack is done with the leg (05 R108): its owed commands, its timed requests and the FREE-mode requests it
has accepted are served, and the sketch logs are applied (13 R275). -/
def State.stackDone (s : State) (d stack : Nat) : Bool :=
  let x := s.die d
  (x.timed.owed.all fun o => x.stackOf o.2.1 != stack) && (x.timed.reqs.all fun r => x.stackOf r.burst != stack) &&
    !s.unserved d stack && !s.logHeld d

/-- A controller may prepare for the opening closure of the traverse (17 R358). -/
def State.mayPrepare (s : State) (d stack : Nat) : Bool :=
  (s.preparing d).contains stack && !(s.travOf d).prepared.any fun (p : Nat × Nat) => p.1 == stack

/-- CONTROLLER_SIGNOFF (05 R108; 17 R358): the stack's refresh debt is paid and its controller signs the closure of a leg, or,
at an opening, has prepared; from then on it holds. -/
def execControllerSignoff (sel : BitVec 1) (s : State) : Out :=
  let k := sel.toNat
  let hold := fun (d : Die) => { d with heldAt := SMap.put d.heldAt k s.cycle }
  if (s.die s.myDie).mayStation k s.cycle && s.stackDone s.myDie k then
    .next (s.updDie s.myDie fun x => hold ((x.payRefresh k).signStation k s.cycle))
  else if s.mayPrepare s.myDie k then
    .next (s.updDie s.myDie fun x => hold ((x.payRefresh k).updTrav fun t => { t with prepared := (k, s.cycle) :: t.prepared }))
  else .next s

/-- HELD_REFRESH (17 R358): 6,630 cycles after the sign-off, and again after each further 6,630, REFAB on every held
pseudo-channel. -/
def execHeldRefresh (sel : BitVec 1) (s : State) : Out :=
  let d := s.die s.myDie
  if SMap.has d.heldAt sel.toNat && decide (SMap.get 0 d.heldAt sel.toNat + 6630 ≤ s.cycle) then
    let all := decide (d.bufA.st = .loading) || decide (d.bufB.st = .loading)
    .next (s.updDie s.myDie fun x =>
      let y := ((List.range 64).filter fun p => all || d.lists sel.toNat p).foldl
        (fun x p => (List.range 48).foldl (fun x b => x.refreshBank sel.toNat p b) x) x
      { y with heldAt := SMap.put y.heldAt sel.toNat s.cycle }.updTrav fun t => { t with refab := some s.cycle })
  else .next s

/-- The links a ring station or a bridge sends on: those of a compute die's station, or the rack ring's (01 R10, R16). -/
def linkOf (station link : Nat) : Bool :=
  if link < 80 then decide (link / 8 = station)
  else (decide (station = 4) && decide (link < 84)) || (decide (station = 9) && decide (84 ≤ link))

/-- Flits that left in reserved slots of a station's links are not acknowledged yet (05 R108). -/
def State.unacked (s : State) (station : Nat) : Bool :=
  s.links.any fun (p : Nat × Link) => linkOf station p.1 && p.2.held.any (·.reserved)

/-- STATION_SIGNOFF (05 R108): the ring station of the acting core's die, or else a bridge some table of its tree uses,
signs once the leg's slots have left and their flits are acknowledged. -/
def execStationSignoff (s : State) : Out :=
  let d := s.die s.myDie
  if d.mayStation 2 s.cycle && d.timed.slots.isEmpty && !s.unacked (stationOf s.myDie) then
    .next (s.updDie s.myDie fun x => x.signStation 2 s.cycle)
  else match d.trav with
    | none => .next s
    | some t =>
      let ds := s.diesOn t.tree
      let len := match t.cur with | some b => (d.buf b).table.len | none => 0
      if t.opening || s.cycle < t.tStart + len || (ds.any fun x => !(s.die x).timed.slots.isEmpty) then .next s
      else match (s.bridgesDue ds).find? fun b => !s.bridges.contains (t.tree, b) && !s.unacked (if b = 3 then 4 else 9) with
        | some b =>
          let s := s.updDie s.myDie fun x => x.updTrav fun t => t.arrive s.cycle
          .next { s with bridges := (t.tree, b) :: s.bridges }
        | none => .next s

/-- CLOSURE_LIMIT_EXPIRY (05 R110): where more than DG_CLO_LIMIT cycles have passed since the first arrival on the die, the gang
on every die of the tree is pre-empted, with every rank of a collective it takes part in (15 R317); an arrival in the limit's own cycle still completes the closure (R120). The bound goes on
from the same first arrival after a pre-emption: DESIGN CHOICE, the spec does not say whether it runs anew (log entry 97). -/
def execClosureLimitExpiry (s : State) : Out :=
  let d := s.die s.myDie
  let limit := bits (d.reg 272) 0 32
  match d.trav with
  | none => .next s
  | some t =>
    if limit = 0 || t.closed || (t.signed.isEmpty && t.stations.isEmpty) || (s.closure t.tree).done
        || s.cycle ≤ t.tFirst + limit then .next s
    else
      let gang := (s.diesOn t.tree).flatMap s.participants
      .next ((gang ++ (s.collMates gang).filter fun k => !gang.contains k).foldl State.preemptCore s)

end Sys2Proof.Machine
end

