-- ==== Sys2Proof/Machine/Access.lean ====
section
/-! DEFINITION. The access engine's words, but for those of the planes, and its streams (06 R131-R153, R423). -/

namespace Sys2Proof.Machine

/-! ## Descriptors and walks -/

/-- The limits of a descriptor field's value (06 R131). -/
def fieldFits (i : Nat) (v : W64) : Bool :=
  match i with
  | 1 => decide (v.toNat ≤ 1)
  | 2 | 3 | 4 | 5 => decide (1 ≤ v.toNat ∧ v.toNat < 2 ^ 32)
  | 10 => decide (v.toNat < 32) && v != 15
  | 11 => v == 0 || v == 16 || v == 32
  | 14 => decide (v.toNat < 15) && v != 13
  | 15 => decide (v.toNat ≤ 3)
  | 16 => decide (v.toNat ≤ 5)
  | 21 => decide (v.toNat < 2 ^ 32)
  | _ => true

/-- A descriptor field as it is kept: the reserved bits of cvwin and cvpad stay 0 (00 R4; 06 R131). -/
def fieldKept (i : Nat) (v : W64) : W64 :=
  if i = 19 then setBits v 0 8 0 else if i = 20 then setBits v 32 32 0 else v

/-- The memory format and the delivery format of a stream. -/
def Stream.fmt (x : Stream) : Nat := (x.fld 10).toNat
def Stream.dfmt (x : Stream) : Nat := (x.fld 14).toNat

/-- The stream loads (06 R131). -/
def Stream.loads (x : Stream) : Bool := decide ((x.fld 16).toNat < 4)

/-- The stream walks bytes of TERN5, five elements each (06 R133). -/
def Stream.tern (x : Stream) : Bool := x.fmt == 13

/-- Bytes an element takes in memory: for TERN5 those of its byte. -/
def Stream.unit (x : Stream) : Nat := if x.tern then 1 else fmtBytes x.fmt

/-- Extent of a dimension. -/
def Stream.ext (x : Stream) (d : Nat) : Nat := (x.fld (2 + d)).toNat

/-- E, the number of elements of the walk (06 R132, R133). -/
def Stream.total (x : Stream) : Nat := x.ext 0 * x.ext 1 * x.ext 2 * x.ext 3 * (if x.tern then 5 else 1)

/-- Elements of a queue entry (06 R129). -/
def Stream.per (x : Stream) : Nat := 128 / fmtBytes x.dfmt

/-- An address mod 2^64. -/
def wrap64 (i : Int) : Nat := (i % 2 ^ 64).toNat

/-- The fields of a convolution walk (06 R131, R134): H, W, OH, OW; dy, dx, sy, sx, dil; padT, padL. -/
structure Conv where
  base : Nat
  str : List Int
  geom : W64
  win : W64
  pad : W64
  nb : Nat
  deriving DecidableEq, Repr

/-- Every convolution field is within its limits (06 R131). -/
def Conv.ok (v : Conv) : Bool :=
  bits v.geom 48 16 != 0 && bits v.geom 32 16 != 0 && bits v.geom 16 16 != 0 && bits v.geom 0 16 != 0 &&
    bits v.win 24 8 != 0 && bits v.win 16 8 != 0 && bits v.win 8 8 != 0

/-- Address of the element of channel `c` and pixel `p`; none for a padding element (06 R134). -/
def Conv.addr (v : Conv) (c p : Nat) : Option Nat :=
  let h : Int := Int.ofNat (bits v.geom 48 16)
  let w : Int := Int.ofNat (bits v.geom 32 16)
  let oh := bits v.geom 16 16
  let ow := bits v.geom 0 16
  let n := p / (oh * ow)
  let q := p % (oh * ow)
  let iy : Int := Int.ofNat (q / ow) * Int.ofNat (bits v.win 24 8)
    + signedOf 16 (bits v.win 48 16) * Int.ofNat (bits v.win 8 8) - Int.ofNat (bits v.pad 16 16)
  let ix : Int := Int.ofNat (q % ow) * Int.ofNat (bits v.win 16 8)
    + signedOf 16 (bits v.win 32 16) * Int.ofNat (bits v.win 8 8) - Int.ofNat (bits v.pad 0 16)
  if v.nb ≤ n ∨ iy < 0 ∨ h ≤ iy ∨ ix < 0 ∨ w ≤ ix then none
  else some (wrap64 (Int.ofNat v.base + Int.ofNat c * v.str.getD 0 0 + ix * v.str.getD 1 0 + iy * v.str.getD 2 0
    + Int.ofNat n * v.str.getD 3 0))

/-- Address of an element of a walk over four dimensions (06 R132). -/
def affineAddr (base : Nat) (ext : List Nat) (str : List Int) (j : Nat) : Nat :=
  let e0 := ext.getD 0 1
  let e1 := ext.getD 1 1
  let e2 := ext.getD 2 1
  wrap64 (Int.ofNat base + Int.ofNat (j % e0) * str.getD 0 0 + Int.ofNat (j / e0 % e1) * str.getD 1 0
    + Int.ofNat (j / e0 / e1 % e2) * str.getD 2 0 + Int.ofNat (j / e0 / e1 / e2 % ext.getD 3 1) * str.getD 3 0)

/-- The strides of a descriptor. -/
def Stream.strides (x : Stream) : List Int := (List.range 4).map fun d => (x.fld (6 + d)).toInt

/-- The convolution of a descriptor. -/
def Stream.conv (x : Stream) : Conv :=
  { base := (x.fld 0).toNat, str := x.strides, geom := x.fld 18, win := x.fld 19, pad := x.fld 20, nb := (x.fld 21).toNat }

/-- Address of element `j`; none for a padding element (06 R132-R134). -/
def Stream.addr (x : Stream) (j : Nat) : Option Nat :=
  let u := if x.tern then j / 5 else j
  if x.fld 21 = 0 then
    some (affineAddr (x.fld 0).toNat ((List.range 4).map x.ext) x.strides u)
  else x.conv.addr (u % x.ext 0) (u / x.ext 0 % x.ext 1)

/-- The checks of R131 to R134 on a descriptor; reserved format codes fail (06 R142). -/
def Stream.legal (x : Stream) : Bool :=
  decide (x.fmt < 16) && decide (x.dfmt < 16) &&
    (x.fld 11 == 0 || x.ext 0 % (x.fld 11).toNat == 0) &&
    (!(x.fmt == 14 || x.dfmt == 14) || x.fmt == x.dfmt) &&
    (!x.tern || (x.loads && ([1, 2, 3, 6] : List Nat).contains x.dfmt && x.fld 6 == 1)) &&
    (x.fld 21 == 0 || (x.ext 2 == 1 && x.ext 3 == 1 && x.conv.ok))

/-- End of the run that begins at element `j`, whose address is `a`: elements at consecutive addresses in one line of
128 bytes, below `stop` (06 R136). -/
def Stream.runEnd (x : Stream) (stop line : Nat) : Nat → Nat → Nat → Nat
  | 0, j, _ => j
  | n + 1, j, prev =>
    if stop ≤ j then j
    else match x.addr j with
      | none => j
      | some a =>
        let next := if x.tern && j % 5 != 0 then prev else prev + x.unit
        if a / 128 = line ∧ a = next then x.runEnd stop line n (j + 1) a else j

/-- End of a run of padding elements from element `j`, below `stop`. -/
def Stream.padEnd (x : Stream) (stop : Nat) : Nat → Nat → Nat
  | 0, j => j
  | n + 1, j => if decide (j < stop) && (x.addr j).isNone then x.padEnd stop n (j + 1) else j

/-- Bytes of the run from element `j0` to before `j1`. -/
def Stream.runBytes (x : Stream) (j0 j1 : Nat) : Nat :=
  if x.tern then ((j1 - 1) / 5 - j0 / 5 + 1) else (j1 - j0) * x.unit

/-! ## How a stream stops -/

/-- A stream stops at a fault: a part-full entry is dropped, and POS is its first element (06 R135, R423). -/
def Core.stopStream (k : Core) (g : Nat) (c : Cause) (tval : W64) : Core :=
  let x := k.stream g
  { k.setStream g { x with pos := x.next - x.part.length, next := x.next - x.part.length, part := [], active := false, asked := [] }
    with reports := k.reports ++ [{ eng := .a, cause := c, tval := tval, tpc := x.sgo }] }

/-- The padding value of a descriptor in its delivery format (06 R131). -/
def Stream.padValue (x : Stream) : Nat := (x.fld 17).toNat % 2 ^ fmtBits x.dfmt

/-- Bytes of elements given as bits. -/
def elemBytes (w : Nat) (es : List Nat) : List Byte := es.flatMap fun e => leBytes e w

/-- A load entry of elements, completed with the padding value (06 R133). -/
def Stream.entry (x : Stream) (es : List Nat) : QEntry :=
  QEntry.full x.dfmt (elemBytes (fmtBytes x.dfmt) (es ++ List.replicate (x.per - es.length) x.padValue))

/-- The walk of a load stream completes (06 R132). -/
def Stream.finish (x : Stream) : Stream :=
  { x with pos := 0, next := 0, part := [], active := false, stopping := false, asked := [] }

/-- An entry of a stream, with the index of its first element, is due at a cycle (06 R136). -/
def Core.entryDue (k : Core) (g first at_ : Nat) (es : List Nat) : Core :=
  let x := k.stream g
  k.later .a at_ (.push (x.fld 16).toNat [x.entry es] (some g) first)

/-- An entry of a stream has been pushed: POS moves past it, and with the last one the walk completes (06 R132). -/
def Core.delivered (k : Core) (g first : Nat) : Core :=
  let x := k.stream g
  if !x.active || x.pos ≠ first then k
  else if x.total ≤ first + x.per then k.setStream g x.finish
  else k.setStream g { x with pos := first + x.per }

/-- A load stream issues no further run: a part-full entry is completed with padding (06 R143). -/
def Core.stopLoad (k : Core) (g at_ : Nat) : Core :=
  let x := k.stream g
  let k1 := if x.part.isEmpty then k else k.entryDue g (x.next - x.part.length) at_ x.part
  k1.setStream g { x with pos := x.next, part := [], active := false, stopping := false, asked := [] }

/-- Adds the elements of a run to a load stream; each complete entry, and the walk's last, is due at a cycle
(06 R132, R133, R136). -/
def Core.deliverRun (k : Core) (g : Nat) (es : List Nat) (at_ : Nat) : Core :=
  let x := k.stream g
  let step := fun (p : Core × List Nat × Nat) e =>
    let part := p.2.1 ++ [e]
    if part.length = x.per then (p.1.entryDue g p.2.2 at_ part, [], p.2.2 + x.per) else (p.1, part, p.2.2)
  let r := es.foldl step (k, x.part, x.next - x.part.length)
  let next := x.next + es.length
  let asked := x.asked.drop 1
  let y := { x with next := next, part := r.2.1, asked := asked }
  if x.total ≤ next then
    (if r.2.1.isEmpty then r.1 else r.1.entryDue g r.2.2 at_ r.2.1).setStream g { y with part := [] }
  else if x.stopping && asked.isEmpty then (r.1.setStream g y).stopLoad g at_
  else r.1.setStream g y

/-- Cycles from the last run of an entry to its push: three for the scratchpad (06 R136). DESIGN CHOICE for a global stream, one cycle
from the delivery of its last run, for which the spec gives none (log entry 96). -/
def Stream.pushLag (x : Stream) : Nat := if x.fld 1 = 0 then 3 else 1

/-! ## Elements -/

/-- One timed burst of a run: found among those the core has, or asked for (06 R137). -/
def Core.takeBurst (k : Core) (tag off cycle : Nat) : Option (Core × List Byte) :=
  match k.bursts.find? fun b => decide (b.tag = tag) && decide (b.off = off) && decide (b.ready ≤ cycle) with
  | some b => some ({ k with bursts := k.bursts.erase b }, b.bytes)
  | none => none

/-- Offsets of the bursts that bytes of a run touch. -/
def burstsOf (off n : Nat) : List Nat :=
  if n = 0 then [] else (List.range ((off + n - 1) / 64 - off / 64 + 1)).map fun j => (off / 64 + j) * 64

/-- A run of the acting core goes to a pseudo-channel in STATIC mode of its own die as timed bursts (06 R137). -/
def State.timedRun (s : State) (p : Place) (n : Nat) : Bool :=
  s.me.leg.timed && p.peer.isNone && decide (p.die = s.myDie) && s.anyStatic p.die p.tier p.off n

/-- Sends the requests of a run at an address to the controller: they reach it nine cycles on (06 R137). -/
def State.askBursts (s : State) (tag va off n : Nat) (write : Option (List (Option Byte))) : State :=
  s.updDie s.myDie fun d => { d with timed := { d.timed with
    reqs := d.timed.reqs ++ (burstsOf off n).map fun b =>
      { core := s.actor, tag := tag, burst := b, arrives := s.cycle + 9, va := w64 (va + (max b off - off)),
        write := write.map fun bs => (List.range 64).map fun j =>
          if off ≤ b + j ∧ b + j < off + n then bs.getD (b + j - off) none else none } } }

/-- Takes every burst of a timed run; none while one has not come. -/
def State.takeRun (s : State) (tag off n : Nat) : Option (State × List Byte) :=
  let r := (burstsOf off n).foldl (fun (acc : Option (Core × List Byte)) b =>
    match acc with
    | none => none
    | some (k, bs) => (k.takeBurst tag b s.cycle).map fun x => (x.1, bs ++ x.2)) (some (s.me, []))
  r.map fun x => (s.setMe x.1, (x.2.drop (off % 64)).take n)

/-- Counts a cycle of waiting of a stream inside a leg (06 R130). -/
def State.streamWaits (s : State) (g : Nat) : State :=
  s.updMe fun k => if k.leg.timed then k.waitTag g s.cycle (s.cycle + 1) else k

/-- A bank port, or an access placed earlier, holds a run of the acting core (06 R124, 05 R119). -/
def State.runHeld (s : State) (g : Nat) (ports : List Nat) : Bool :=
  s.me.portTaken ports || s.me.heldBack (SMap.get 0 s.me.tagLag g)

/-- Address of the E8M0 scale of element `j` (06 R133). -/
def Stream.scaleAt (x : Stream) (j : Nat) : Nat :=
  wrap64 (Int.ofNat (x.fld 12).toNat + Int.ofNat (j / (x.fld 11).toNat) * (x.fld 13).toInt)

/-- The read ports of the scratchpad that the scales of a run's elements take: a run is served in one cycle with its scales, those of
one bank together (06 R124; log entry 96). -/
def Stream.scalePorts (x : Stream) (j0 j1 : Nat) : List Nat :=
  if x.fld 11 = 0 ∨ x.fld 1 ≠ 0 then []
  else ((List.range (j1 - j0)).flatMap fun i => portsOf false (x.scaleAt (j0 + i)) 1).eraseDups

/-- A run of a scratchpad stream with a bad address takes its trap; one that is held waits, before it reads anything. -/
def State.padRunWaits (s : State) (g : Nat) (x : Stream) (a j0 j1 : Nat) : Bool :=
  decide (x.fld 1 = 0) && decide (a % x.unit = 0) && decide (a < padSize) && !s.me.filling a (x.runBytes j0 j1) &&
    s.runHeld g (portsOf false a (x.runBytes j0 j1) ++ x.scalePorts j0 j1)

/-- Reads the bytes of a stream's run, with the address at which an unwritten word is met (06 R126, R135-R138). -/
def runBytes (s : State) (g : Nat) (x : Stream) (a n : Nat) : Got × Option Nat :=
  if x.fld 1 = 0 then
    if a % x.unit ≠ 0 then (.fail .align (w64 a) s, none)
    else if padSize ≤ a then (.fail .xlat (w64 a) s, none)
    else
      let r := (s.updMe fun k => k.takePorts (portsOf false a n)).padRead 1 a n
      (.ok r.2.1 r.1, r.2.2)
  else
    (match locate s (w64 a) x.unit true false with
      | .wait s => .wait (s.streamWaits g)
      | .fail c s => .fail c (w64 a) s
      | .at_ p s =>
        if !x.asked.isEmpty then
          match s.takeRun g p.off n with
          | some (s, bs) => .ok bs s
          | none => .wait s
        else readPlace (g + 1) .a p (w64 a) n (x.fld 15).toNat s, none)

/-- Reads the E8M0 scale of element `j` of stream `g` (06 R133). -/
def scaleByte (s : State) (g : Nat) (x : Stream) (j : Nat) : Got :=
  let a := x.scaleAt j
  if x.fld 1 = 0 then
    if padSize ≤ a then .fail .xlat (w64 a) s
    else if s.me.filling a 1 then .wait s
    else match s.padRead 1 a 1 with
      | (s, bs, none) => .ok bs s
      | (s, _, some b) => .fail .uninit (w64 b) s
  else fetchSpan (g + 1) .a (w64 a) 1 1 (x.fld 15).toNat s

/-- The value of an E8M0 byte turned over: 1 / s. -/
def scaleOver (b : Nat) : Val := Val.div (.fin false 1 1) (valueOf 15 b)

/-- The delivered bits of an element of a load run, with SAT and TERNBAD (06 R133). -/
def loadElem (x : Stream) (j0 j : Nat) (bs : List Byte) (scale : Option Nat) : Nat × Bool × Bool :=
  let sv : Val := match scale with | some b => valueOf 15 b | none => .fin false 1 1
  if x.tern then
    let b := (bs.getD (j / 5 - j0 / 5) 0).toNat
    let ts := ternDecode b
    let r := round (Val.mul (Val.ofInt (ts.1.getD (j % 5) 0)) sv) x.dfmt .rne
    (r.1, r.2, ts.2)
  else
    let v := leNat ((bs.drop ((j - j0) * x.unit)).take x.unit)
    if x.fmt = x.dfmt ∧ scale.isNone then (v, false, false)
    else
      let r := round (Val.mul (valueOf x.fmt v) sv) x.dfmt .rne
      (r.1, r.2, false)

/-- The scales of the elements of a run, and what stops the run before its end. -/
structure Scales where
  out : List (Option Nat)
  stop : Option Got
  s : State
  deriving DecidableEq, Repr

/-- Reads the scales of `n` elements from element `j` on, each element's for itself: an unwritten word warns once for each (DESIGN
CHOICE, the spec does not say whether a block's byte is read once; log entry 96) (06 R126, R133). -/
def readScales (g : Nat) (x : Stream) : Nat → Nat → State → List (Option Nat) → Scales
  | 0, _, s, acc => { out := acc, stop := none, s := s }
  | n + 1, j, s, acc =>
    if x.fld 11 = 0 then readScales g x n (j + 1) s (acc ++ [none])
    else match scaleByte s g x j with
      | .ok bs s => readScales g x n (j + 1) s (acc ++ [some (leNat bs)])
      | r => { out := acc, stop := some r, s := s }

/-- A stream stops at a scale that cannot be read (06 R135). -/
def settleStop (s : State) (g : Nat) (stop : Option Got) : State :=
  match stop with
  | some (.fail c v _) => s.updMe fun k => k.stopStream g c v
  | _ => s

/-! ## Runs -/

/-- The end of the run at element `j`, below `stop`. -/
def Stream.endOf (x : Stream) (j stop padStop : Nat) : Nat :=
  match x.addr j with
  | none => x.padEnd padStop (padStop - j) (j + 1)
  | some a => x.runEnd stop (a / 128) (stop - j) (j + 1) a

/-- The end of the next run of a load stream at element `j`, with `n` elements in the entry that is open there: a run of
padding ends with its entry (06 R136). -/
def Stream.loadEnd (x : Stream) (j n : Nat) : Nat := x.endOf j x.total (min x.total (j + (x.per - n % x.per)))

/-- Sends the timed requests of the next run whose requests are not yet out (06 R137). -/
def aheadRun (s : State) (g : Nat) : State :=
  let x := s.me.stream g
  let j := (x.asked.getLast?).getD x.next
  if !s.me.leg.timed || x.fld 1 = 0 || x.stopping || x.total ≤ j then s
  else
    let j1 := x.loadEnd j (j - x.next + x.part.length)
    match x.addr j with
    | none =>
      if x.asked.isEmpty then s else s.updMe fun k => k.setStream g { x with asked := x.asked ++ [j1] }
    | some a =>
      match locate s (w64 a) x.unit true false with
      | .at_ p s =>
        let n := x.runBytes j j1
        if s.timedRun p n then
          (s.askBursts g a p.off n none).updMe fun k => k.setStream g { x with asked := x.asked ++ [j1] }
        else s
      | .wait s => if x.asked.isEmpty then s else s.streamWaits g
      | .fail _ _ => s

/-- A run of a load stream (06 R132-R136). -/
def loadRun (s : State) (g : Nat) : State :=
  let x := s.me.stream g
  let j0 := x.next
  let at_ := s.cycle + x.pushLag
  let j1 := match x.asked with
    | e :: _ => e
    | [] => x.loadEnd j0 x.part.length
  match x.addr j0 with
  | none => s.updMe fun k => k.deliverRun g (List.replicate (j1 - j0) x.padValue) at_
  | some a =>
    if x.fld 1 = 0 ∧ s.me.filling a (x.runBytes j0 j1) then s
    else if s.padRunWaits g x a j0 j1 then s.streamWaits g
    else
    let sc := readScales g x (j1 - j0) j0 (s.updMe fun k => k.takePorts (x.scalePorts j0 j1)) []
    match sc.stop with
    | some (.wait s) => s.streamWaits g
    | _ =>
    match runBytes sc.s g x a (x.runBytes j0 j1) with
    | (.wait s, _) => s
    | (.fail c v s, _) => s.updMe fun k => k.stopStream g c v
    | (.ok bs s, bad) =>
      let clean := match bad with
        | none => j1 - j0
        | some b => if x.tern then (b - a) * 5 - j0 % 5 else (b - a) / x.unit
      let es := (sc.out.take clean).mapIdx fun i sv => loadElem x j0 (j0 + i) bs sv
      let s := (s.stickIf (es.any fun e => e.2.1) 0).stickIf (es.any fun e => e.2.2) 1
      let s := s.updMe fun k => (k.dropLoads .a (g + 1)).deliverRun g (es.map (·.1)) at_
      if clean < sc.out.length then s.updMe fun k => k.stopStream g .uninit (w64 (bad.getD 0))
      else settleStop s g sc.stop

/-- The stored bytes of the element `i` of an entry in a store run; none where it is disabled (06 R133). -/
def storeElem (x : Stream) (e : QEntry) (i : Nat) (scale : Option Nat) : List (Option Byte) × Bool :=
  let w := fmtBytes x.dfmt
  if !(e.enable / 2 ^ i % 2 == 1) then (List.replicate x.unit none, false)
  else
    let v := leNat ((e.bytes.drop (i * w)).take w)
    let r := if x.fmt = x.dfmt ∧ scale.isNone then (v, false)
      else round (Val.mul (valueOf x.dfmt v) (match scale with | some b => scaleOver b | none => .fin false 1 1)) x.fmt .rne
    ((leBytes r.1 x.unit).map some, r.2)

/-- The entries of a store queue after `m` elements from the head's first unwritten one; `per` to an entry (06 R133, R423). -/
def passEntries (per : Nat) : List QEntry → Nat → List QEntry
  | [], _ => []
  | e :: rest, m =>
    if per ≤ e.done + m then passEntries per rest (m - (per - e.done)) else { e with done := e.done + m } :: rest

/-- The walk has ended: an entry it has begun leaves its queue (06 R133). -/
def dropBegun : List QEntry → List QEntry
  | e :: rest => if 0 < e.done then rest else e :: rest
  | [] => []

/-- Puts `m` elements of a store stream behind it: entries leave its queue once it is done with them (06 R133, R423). -/
def Core.passStored (k : Core) (g m : Nat) : Core :=
  let x := k.stream g
  let q := (x.fld 16).toNat
  let next := x.next + m
  let es := passEntries x.per (k.queue q) m
  (k.setStream g { x with next := next, pos := next }).setQueue q (if x.total ≤ next then dropBegun es else es)

/-- Writes the bytes of a store run: the scratchpad two cycles on (06 R136, R137). -/
def storeBytes (s : State) (g : Nat) (x : Stream) (a : Nat) (p : Option Place) (bs : List (Option Byte)) : State :=
  match p with
  | none => s.updMe fun k => (k.later .a (s.cycle + 2) (.pad a bs g)).takePorts (runPorts a bs.length)
  | some p =>
    if s.timedRun p bs.length then s.askBursts g a p.off bs.length (some bs)
    else s.updMe fun k => { k with posted := k.posted ++ (stretches 0 bs).map fun r =>
      { eng := .a, die := p.die, peer := p.peer, tier := p.tier, off := p.off + r.1, va := w64 (a + r.1),
        klock := p.klock, mt := p.mt, cls := (x.fld 15).toNat, write := some r.2, stream := some g, tpc := x.sgo } }

/-- A run of a store stream (06 R133-R136, R423): over the entries of its format that stand in its queue (log entry 79). -/
def storeRun (s : State) (g : Nat) : State :=
  let x := s.me.stream g
  let es := (s.me.queue (x.fld 16).toNat).takeWhile fun e => e.fmt == x.dfmt
  match s.me.queue (x.fld 16).toNat with
  | [] => s.streamWaits g
  | e :: _ =>
    if e.fmt ≠ x.dfmt then s.updMe fun k => k.stopStream g .ill (w64 e.fmt)
    else
      let j0 := x.next
      match x.addr j0 with
      | none =>
        let stop := min x.total (j0 + (x.per - e.done))
        s.updMe fun k => k.passStored g (x.padEnd stop (stop - j0) (j0 + 1) - j0)
      | some a =>
        let stop := min x.total (j0 + (x.per * es.length - e.done))
        let j1 := x.endOf j0 stop stop
        let go := fun (s : State) (p : Option Place) =>
          let sc := readScales g x (j1 - j0) j0 (s.updMe fun k => k.takePorts (x.scalePorts j0 j1)) []
          match sc.stop with
          | some (.wait s) => s.streamWaits g
          | _ =>
            let ys := sc.out.mapIdx fun i sv => storeElem x (es.getD ((e.done + i) / x.per) e) ((e.done + i) % x.per) sv
            let s := storeBytes sc.s g x a p (ys.flatMap (·.1))
            let s := (s.stickIf (ys.any (·.2)) 0).updMe fun k => (k.dropLoads .a (g + 1)).passStored g ys.length
            settleStop s g sc.stop
        if x.fld 1 = 0 then
          if a % x.unit ≠ 0 then s.updMe fun k => k.stopStream g .align (w64 a)
          else if padSize ≤ a then s.updMe fun k => k.stopStream g .xlat (w64 a)
          else if s.me.filling a (x.runBytes j0 j1) then s
          else if s.runHeld g (runPorts a (x.runBytes j0 j1) ++ x.scalePorts j0 j1) then s.streamWaits g
          else go s none
        else match locate s (w64 a) x.unit false true with
          | .wait s => s.streamWaits g
          | .fail c s => s.updMe fun k => k.stopStream g c (w64 a)
          | .at_ p s => go s (some p)

/-- One run of an active stream, in a cycle in which none has issued yet (06 R136). -/
def State.streamStep (s : State) (g : Nat) : State :=
  let x := s.me.stream g
  if !x.active || s.cycle < x.nextRun then s
  else
    let s := s.updMe fun k => k.setStream g { x with nextRun := s.cycle + 1 }
    if s.owedHeld s.actor g then s
    else if s.me.overdue g s.cycle then s.streamWaits g
    else if x.total ≤ x.next then s
    else if x.loads then loadRun (aheadRun s g) g else storeRun s g

/-- In a cycle the words of A and C come before runs, and runs come in ascending order of their streams (06 R124, R138). -/
def Core.runTurn (k : Core) (g cycle : Nat) : Bool :=
  !k.due .c cycle && !k.due .a cycle &&
    !(k.streams.any fun p => decide (p.1 < g) && p.2.active && decide (p.2.nextRun ≤ cycle))

/-- The core waits for the grant of an S.ACQ: its engines issue nothing (16 R328). -/
def Core.acquiring (k : Core) : Bool := match k.swait with | .acquire _ _ false => true | _ => false

/-- STREAM_RUN (06 R136). -/
def execStreamRun (g : BitVec 4) (s : State) : Out :=
  if s.me.run = .running && !s.me.fenceOn 5 s.cycle && !s.me.acquiring && s.me.runTurn g.toNat s.cycle then .next (s.streamStep g.toNat)
  else .next s

/-- A stream's stores have not all been performed. -/
def State.storing (s : State) (g : Nat) : Bool :=
  s.me.padDue || (s.me.posted.any fun a => a.stream == some g) ||
    (s.die s.myDie).timed.reqs.any fun r => decide (r.core = s.actor) && decide (r.tag = g) && r.write.isSome

/-- STREAM_DRAINED (06 R143): a store stream whose walk and stores are complete is inactive. -/
def execStreamDrained (g : BitVec 4) (s : State) : Out :=
  let x := s.me.stream g.toNat
  if x.active && !x.loads && decide (x.total ≤ x.next) && !s.storing g.toNat then
    .next (s.updMe fun k => k.setStream g.toNat x.finish)
  else .next s

/-! ## The stream words -/

/-- A.SFLD (06 R141). -/
def execASfld (g : BitVec 4) (i : BitVec 5) (s : State) : Out :=
  issue .a (.aSfld g i) 1 (popping .a 1 0 fun vs s =>
    let x := s.me.stream g.toNat
    if x.active || !fieldFits i.toNat (vs.getD 0 0) then .fail .ill 0
    else .ok (s.updMe fun k => k.setStream g.toNat { x with fields := SMap.set 0 x.fields i.toNat (fieldKept i.toNat (vs.getD 0 0)) })) s

/-- A.SGO (06 R142). -/
def execASgo (g : BitVec 4) (s : State) : Out :=
  issue .a (.aSgo g) 1 (fun s =>
    let x := s.me.stream g.toNat
    if x.active || s.me.bound (x.fld 16).toNat || !x.legal || x.total ≤ x.pos then .fail .ill 0
    else .ok (s.updMe fun k => { k.setStream g.toNat
      { x with active := true, next := x.pos, part := [], stopping := false, sgo := (k.en .a).pc,
               nextRun := s.cycle + 1, asked := [] } with
      tagLag := SMap.set 0 k.tagLag g.toNat (k.en .a).lag })) s

/-- A stream that issues no further runs from a cycle on (06 R143): what is outstanding completes. -/
def Core.haltStream (k : Core) (g cycle : Nat) : Core :=
  let x := k.stream g
  if !x.active || x.total ≤ x.next then k
  else if x.loads && !x.asked.isEmpty then k.setStream g { x with stopping := true }
  else if x.loads then k.stopLoad g (cycle + 2)
  else k.setStream g { x with active := false }

/-- A.SSTOP (06 R143, R153): the run of the same cycle still issues. -/
def execASstop (g : BitVec 4) (s : State) : Out :=
  issue .a (.aSstop g) 1 (fun s =>
    if !(s.me.stream g.toNat).active then .ok s
    else .ok (s.updMe fun k => k.later .a (s.cycle + 1) (.halt g.toNat))) s

/-- A.SSTOP with drain (06 R143). -/
def execASstopDrain (g : BitVec 4) (s : State) : Out :=
  issue .a (.aSstopDrain g) 1 (fun s => if (s.me.stream g.toNat).active then .wait s else .ok s) s

/-- A.SPOS (06 R144). -/
def execASpos (g : BitVec 4) (s : State) : Out :=
  issue .a (.aSpos g) 1 (popping .a 0 1 fun _ s => .ok (pushing .a [w64 (s.me.stream g.toNat).pos] s)) s

/-- A.SPOS set (06 R144). -/
def execASposSet (g : BitVec 4) (s : State) : Out :=
  issue .a (.aSposSet g) 1 (popping .a 1 0 fun vs s =>
    let x := s.me.stream g.toNat
    if x.active || x.total ≤ (vs.getD 0 0).toNat then .fail .ill 0
    else .ok (s.updMe fun k => k.setStream g.toNat
      { x with pos := (vs.getD 0 0).toNat, next := (vs.getD 0 0).toNat })) s

/-! ## Lines -/

/-- The checks of a scratchpad line address (06 R145). -/
def withLine (sa : W64) (r : Res) : Res :=
  if sa.toNat % 128 ≠ 0 then .fail .align sa else if padSize ≤ sa.toNat then .fail .xlat sa else r

/-- A format code a queue entry may have (06 R145). -/
def entryFmt (f : W64) : Bool := decide (f.toNat < 16) && f != 13

/-- A landing run of a stream that meets an A word at a write port is the loser: inside a leg its delay is a breach (06 R124). -/
def Core.landedLose (k : Core) (ps : List Nat) (cycle : Nat) : Core :=
  if !k.leg.timed then k
  else (k.ports.filter fun c => decide (16 ≤ c ∧ c < 256) && ps.contains (c % 8 + 8)).foldl
    (fun k c => k.waitTag ((c - 16) / 8) cycle (cycle + 1)) k

/-- An A word's access to the scratchpad: earlier store runs land, and the banks' ports serve it; inside a leg an access placed
earlier holds it (06 R124, R138; 05 R119). -/
def padWord (write : Bool) (sa n : Nat) (f : State → Res) (s : State) : Res :=
  if s.me.heldWord .a then .wait s
  else f (s.updMe fun k => (k.landedLose (portsOf write sa n) s.cycle).padLanded.takePorts (portsOf write sa n))

/-- A.LDQ (06 R145). -/
def execALdq (q : BitVec 2) (s : State) : Out :=
  issue .a (.aLdq q) 1 (popping .a 2 0 fun vs s =>
    let sa := vs.getD 1 0
    let f := vs.getD 0 0
    withLine sa (
      if !entryFmt f || s.me.bound q.toNat then .fail .ill 0
      else if !s.me.room q.toNat 1 || s.me.filling sa.toNat 128 then .wait s
      else padWord false sa.toNat 128 (fun s => withPad s 1 sa.toNat 128 fun bs s =>
        .ok (s.updMe fun k => k.later .a (s.cycle + 3) (.push q.toNat [QEntry.full f.toNat bs] none 0))) s)) s

/-- The bytes of an entry's enabled elements. -/
def QEntry.enabled (e : QEntry) : List (Option Byte) :=
  (List.range 128).map fun j =>
    if e.enable / 2 ^ (j / fmtBytes e.fmt) % 2 = 1 then some (e.bytes.getD j 0) else none

/-- A.STQ (06 R146). -/
def execAStq (q : BitVec 1) (s : State) : Out :=
  issue .a (.aStq q) 1 (popping .a 1 0 fun vs s =>
    let sa := vs.getD 0 0
    let sq := 4 + q.toNat
    withLine sa (
      if s.me.bound sq then .fail .ill 0
      else match s.me.queue sq with
        | [] => .wait s
        | e :: rest =>
          if s.me.filling sa.toNat 128 then .wait s
          else padWord true sa.toNat 128 (fun s =>
            .ok (s.updMe fun k => (k.setQueue sq rest).padWriteSome sa.toNat e.enabled)) s)) s

/-- A.LDG (06 R147): posted. -/
def execALdg (c : BitVec 2) (s : State) : Out :=
  issue .a (.aLdg c) 1 (popping .a 2 0 fun vs s =>
    let va := vs.getD 1 0
    let sa := vs.getD 0 0
    if s.me.leg.timed then .fail .ill 0
    else withPlace s va 128 true false fun p s => withLine sa (
      if s.me.filling sa.toNat 128 then .wait s
      else .ok (s.updMe fun k => { k.padLanded with posted := k.posted ++
        [{ eng := .a, die := p.die, peer := p.peer, tier := p.tier, off := p.off, va := va, klock := p.klock, mt := p.mt,
           cls := c.toNat, write := none, pad := sa.toNat, tpc := (k.en .a).pc }] }))) s

/-- A.STG (06 R147): the scratchpad is read at issue, the write is posted. -/
def execAStg (c : BitVec 2) (s : State) : Out :=
  issue .a (.aStg c) 1 (popping .a 2 0 fun vs s =>
    let va := vs.getD 1 0
    let sa := vs.getD 0 0
    if s.me.leg.timed then .fail .ill 0
    else withPlace s va 128 false true fun p s => withLine sa (
      if s.me.filling sa.toNat 128 then .wait s
      else padWord false sa.toNat 128 (fun s => withPad s 1 sa.toNat 128 fun bs s =>
        .ok (s.updMe fun k => { k with posted := k.posted ++
          [{ eng := .a, die := p.die, peer := p.peer, tier := p.tier, off := p.off, va := va, klock := p.klock, mt := p.mt,
             cls := c.toNat, write := some bs, tpc := (k.en .a).pc }] })) s)) s

/-! ## Valid bits -/

/-- The address checks of A.ALLOC and A.VALID (06 R123, R148, R149): #XLAT names the first address beyond the scratchpad; then
their turn. -/
def withWords (sa n : W64) (f : State → Res) (s : State) : Res :=
  if sa.toNat % 4 ≠ 0 then .fail .align sa
  else if padSize < sa.toNat + 4 * n.toNat then .fail .xlat (w64 (max sa.toNat padSize))
  else if s.me.filling sa.toNat (4 * n.toNat) then .wait s
  else padWord false 0 0 f s

/-- The distance ALLOC and VALID put before the next word (06 R140). -/
def wordsIssue (s : State) : Nat := 1 + (((s.stack .a).getD 0 0).toNat + 1023) / 1024

/-- A.ALLOC (06 R148). -/
def execAAlloc (s : State) : Out :=
  issueN .a .aAlloc wordsIssue (popping .a 2 0 fun vs =>
    withWords (vs.getD 1 0) (vs.getD 0 0) fun s =>
      .ok (s.updMe fun k => k.padAlloc ((vs.getD 1 0).toNat / 4) (vs.getD 0 0).toNat)) s

/-- A.VALID cnt (06 R149). -/
def execAValidCnt (s : State) : Out :=
  issueN .a .aValidCnt wordsIssue (popping .a 2 1 fun vs =>
    let w := (vs.getD 1 0).toNat / 4
    let n := (vs.getD 0 0).toNat
    withWords (vs.getD 1 0) (vs.getD 0 0) fun s =>
      .ok (pushing .a [w64 ((List.range n).filter fun j => SMap.get false s.me.valid (w + j)).length] s)) s

/-- A.VALID first (06 R149). -/
def execAValidFirst (s : State) : Out :=
  issueN .a .aValidFirst wordsIssue (popping .a 2 1 fun vs =>
    let w := (vs.getD 1 0).toNat / 4
    let n := (vs.getD 0 0).toNat
    withWords (vs.getD 1 0) (vs.getD 0 0) fun s =>
      .ok (pushing .a [w64 (((List.range n).find? fun j => !SMap.get false s.me.valid (w + j)).getD n)] s)) s

/-- A.VALID set (06 R149): an invalid word becomes zero and valid. -/
def execAValidSet (s : State) : Out :=
  issueN .a .aValidSet wordsIssue (popping .a 2 0 fun vs =>
    let w := (vs.getD 1 0).toNat / 4
    let n := (vs.getD 0 0).toNat
    withWords (vs.getD 1 0) (vs.getD 0 0) fun s =>
      .ok (s.updMe fun k => (List.range n).foldl (fun k j =>
        if SMap.get false k.valid (w + j) then k else k.padWrite (4 * (w + j)) [0, 0, 0, 0]) k)) s

/-! ## Addresses and arithmetic -/

/-- A.AGEN (06 R150). -/
def execAAgen (g : BitVec 4) (s : State) : Out :=
  issue .a (.aAgen g) 3 (popping .a 1 1 fun vs s =>
    let x := s.me.stream g.toNat
    let j := (vs.getD 0 0).toNat
    if !x.legal || x.total ≤ j then .fail .ill 0
    else .ok (pushing .a [match x.addr j with | some a => w64 a | none => BitVec.allOnes 64] s)) s

/-- The forms of A.ALU (06 R151). -/
def aluOp (o : BitVec 3) (a b : W64) : W64 :=
  match o.toNat with
  | 0 => a + b
  | 1 => a - b
  | 2 => a * b
  | 3 => a &&& b
  | 4 => a ||| b
  | 5 => a ^^^ b
  | 6 => shiftOp 0 a b
  | _ => shiftOp 1 a b

/-- A.ALU (06 R151). -/
def execAAlu (o : BitVec 3) (s : State) : Out :=
  issue .a (.aAlu o) (if o = 2 then 3 else 1) (popping .a 2 1 fun vs s =>
    .ok (pushing .a [aluOp o (vs.getD 1 0) (vs.getD 0 0)] s)) s

/-! ## Queue words -/

/-- A.XQ count (06 R152). -/
def execAXqCount (q : BitVec 3) (s : State) : Out :=
  issue .a (.aXqCount q) 1 (popping .a 0 1 fun _ s => .ok (pushing .a [w64 (s.me.queue q.toNat).length] s)) s

/-- A.XQ flush (06 R152). -/
def execAXqFlush (q : BitVec 3) (s : State) : Out :=
  issue .a (.aXqFlush q) 1 (fun s =>
    if s.me.bound q.toNat then .fail .ill 0 else .ok (s.updMe fun k => k.setQueue q.toNat [])) s

/-- A.XQ drop (06 R152). -/
def execAXqDrop (q : BitVec 3) (s : State) : Out :=
  issue .a (.aXqDrop q) 1 (fun s =>
    if s.me.bound q.toNat then .fail .ill 0
    else .ok (s.updMe fun k => k.setQueue q.toNat ((k.queue q.toNat).drop 1))) s

/-- An entry enters a load queue behind those of earlier A words that are on their way (06 R130, R145; log entry 80). -/
def Core.putEntry (k : Core) (q : Nat) (e : QEntry) (cycle : Nat) : Core :=
  let ats := k.late.filterMap fun l => match l.act with
    | .push q' _ none _ => if q' = q then some l.at_ else none
    | .plane _ _ (some (q', _)) after => if q' = q then some (l.at_ + after) else none
    | _ => none
  if ats.isEmpty then k.enqueue q [e] else k.later .a (ats.foldl max cycle) (.push q [e] none 0)

/-- A.XQ put (06 R152). -/
def execAXqPut (q : BitVec 3) (s : State) : Out :=
  issue .a (.aXqPut q) 1 (fun s =>
    if 4 ≤ q.toNat ∨ s.me.bound q.toNat then .fail .ill 0
    else popping .a 2 0 (fun vs s =>
      let f := vs.getD 0 0
      let v := vs.getD 1 0
      if !entryFmt f then .fail .ill 0
      else if !s.me.room q.toNat 1 then .wait s
      else
        let w := fmtBytes f.toNat
        .ok (s.updMe fun k => k.putEntry q.toNat
          (QEntry.full f.toNat (elemBytes w (List.replicate (128 / w) v.toNat))) s.cycle)) s) s

end Sys2Proof.Machine
end

