-- ==== Sys2Proof/Machine/Planes.lean ====
section
/-! DEFINITION. The commons: regions, plane loads and stores, step groups and S.STEP (12 R251-R264). -/

namespace Sys2Proof.Machine

/-! ## Regions -/

/-- The register index of the enabled region that holds a commons address (12 R251, R252). -/
def Die.regionAt (d : Die) (ca : Nat) : Option Nat :=
  if 2 ^ 25 ≤ ca then none
  else ((List.range 16).map fun r => 1024 + 16 * (ca / 2 ^ 20) + r).find? fun j =>
    let v := d.reg j
    regionEn v && decide (regionFirst v ≤ ca / 4096 % 256) && decide (ca / 4096 % 256 ≤ regionLast v)

/-- Bytes of a word of a region. -/
def regionWidth (v : W64) : Nat := if regionW8 v then 8 else 4

/-- Bytes of the present plane (12 R256). -/
def Die.pres (d : Die) (ca n : Nat) : List Byte := SMap.slice 0 d.commons ca n

/-- Step group `g`. -/
def Die.group (d : Die) (g : Nat) : Group := SMap.get { members := [] } d.groups g

/-- A die with one group replaced. -/
def Die.setGroup (d : Die) (g : Nat) (x : Group) : Die := { d with groups := SMap.put d.groups g x }

/-- Members that are still there. -/
def Group.live (x : Group) : List Nat := x.members.filter fun m => !x.gone.contains m

/-- Rank of a core in a group (12 R254). -/
def Group.rankOf (x : Group) (core : Nat) : Nat := (x.members.filter fun m => decide (m < core)).length

/-- FROZEN of a group (12 R255). -/
def Die.groupFrozen (d : Die) (g : Nat) : Bool := bits (d.reg (1536 + g)) 62 1 == 1

/-- A core may store to a region of group `g`: a cause with its value when it may not (12 R260). -/
def Die.mayStore (d : Die) (g core ca : Nat) : Option (Cause × Nat) :=
  if !d.formed g || !((d.group g).live.contains core) then some (.perm, ca)
  else if d.groupFrozen g then some (.peer, (d.group g).killed)
  else none

/-- Records a store of bytes into words of a commons: every word with a byte to write is one store (12 R256, R257, R260).
`pri` is an explicit priority. -/
def Die.planeStore (d : Die) (core place ca : Nat) (bs : List (Option Byte)) (pri : Option Nat) : Die :=
  match d.regionAt ca with
  | none => d
  | some j =>
    let v := d.reg j
    let w := regionWidth v
    let rank := (d.group (regionGroup v)).rankOf core
    let first := ca / w
    let words := (List.range ((ca + bs.length - 1) / w - first + 1)).map (first + ·)
    words.foldl (fun d x =>
      let mine := fun j : Nat => if ca ≤ x * w + j then bs.getD (x * w + j - ca) none else none
      if (List.range w).any fun j => (mine j).isSome then
        let val := leNat ((List.range w).map fun j => (mine j).getD (SMap.get 0 d.commons (x * w + j)))
        { d with stores := d.stores ++
            [{ addr := x * w, rank := rank, place := place, order := (d.stores.map fun x => x.order + 1).foldl max 0, val := val,
               pri := pri.getD rank }] }
      else d) d

/-- Cycles to the read, and to the arrival, of a plane access: own field, other field (12 R262). -/
def State.planeNear (s : State) (ca : Nat) : Bool := decide (ca / 2 ^ 20 = s.actor % 512 / 16)

/-- A commons access of the core lands in a cycle; but for its agent's lag it would have landed so much earlier (12 R261). -/
def Core.planeAt (k : Core) (cycle lag : Nat) : Core :=
  { k with planeDue := max k.planeDue cycle, planePlaced := max k.planePlaced (cycle - lag) }

/-- The acting core has a commons access of its A engine that lands in `n` cycles (12 R261). -/
def State.planeWait (s : State) (n : Nat) : State := s.updMe fun k => k.planeAt (s.cycle + n) (k.en .a).lag

/-! ## A.PLD and A.PST -/

/-- Cycles from the issue of a plane read to the end of the cycle in which it takes its value, and from there to its arrival
(12 R262). -/
def State.pldRead (s : State) (ca : Nat) : Nat := if s.planeNear ca then 3 else 9
def State.pldCome (s : State) (ca : Nat) : Nat := if s.planeNear ca then 3 else 9

/-- A read of `n` bytes of the present plane that the acting core has issued (12 R262). -/
def State.pld (s : State) (ca n : Nat) (dest : Option (Nat × Nat)) : State :=
  (s.planeWait (s.pldRead ca - 1)).updMe fun k => k.later .a (s.cycle + s.pldRead ca) (.plane ca n dest (s.pldCome ca))

/-- A.PLD, stack form (12 R259, R262). -/
def execAPld (s : State) : Out :=
  let near := fun s : State => s.planeNear ((s.stack .a).getD 0 0).toNat
  issueN .a .aPld (fun s => if near s then 7 else 19) (popping .a 1 1 fun vs s =>
    let ca := (vs.getD 0 0).toNat
    let d := s.die s.myDie
    match d.regionAt ca with
    | none => .fail .xlat (w64 ca)
    | some j =>
      let w := regionWidth (d.reg j)
      if ca % w ≠ 0 then .fail .align (w64 ca)
      else .ok (s.pld ca w none)) s

/-- A.PLD, queue form (12 R259). -/
def execAPldQueue (q : BitVec 2) (s : State) : Out :=
  issue .a (.aPldQueue q) 1 (popping .a 2 0 fun vs s =>
    let ca := (vs.getD 1 0).toNat
    let f := vs.getD 0 0
    let d := s.die s.myDie
    if (d.regionAt ca).isNone then .fail .xlat (w64 ca)
    else if ca % 128 ≠ 0 then .fail .align (w64 ca)
    else if !entryFmt f || s.me.bound q.toNat then .fail .ill 0
    else if !s.me.room q.toNat 1 then .wait s
    else .ok (s.pld ca 128 (some (q.toNat, f.toNat)))) s

/-- The checks of a store to the commons that stand before its queue or its value (12 R260): `f` gets the region. -/
def withRegion (s : State) (ca : Nat) (align : Nat → Nat) (pri : Option W64) (bound : Bool) (f : W64 → Res) : Res :=
  let d := s.die s.myDie
  match d.regionAt ca with
  | none => .fail .xlat (w64 ca)
  | some j =>
    let v := d.reg j
    if ca % align (regionWidth v) ≠ 0 then .fail .align (w64 ca)
    else if bound then .fail .ill 0
    else if (match pri with | some p => decide (65535 < p.toNat) || decide (regionRule v ≠ 0) | none => false) then .fail .ill 0
    else f v

/-- A.PST of a stack value (12 R260). -/
def pstBody (pri : Option W64) (ca : Nat) (v : W64) (s : State) : Res :=
  withRegion s ca id pri false fun r =>
    let d := s.die s.myDie
    match d.mayStore (regionGroup r) s.actor ca with
    | some (c, x) => .fail c (w64 x)
    | none =>
      let bs := (leBytes v.toNat (regionWidth r)).map some
      .ok ((s.planeWait (if s.planeNear ca then 4 else 12)).updDie s.myDie fun d =>
        d.planeStore s.actor (s.me.here .a) ca bs (pri.map (·.toNat)))

/-- A.PST (12 R260). -/
def execAPst (s : State) : Out :=
  issue .a .aPst 1 (popping .a 2 0 fun vs s => pstBody none (vs.getD 0 0).toNat (vs.getD 1 0) s) s

/-- A.PST pri (12 R260). -/
def execAPstPri (s : State) : Out :=
  issue .a .aPstPri 1 (popping .a 3 0 fun vs s =>
    pstBody (some (vs.getD 0 0)) (vs.getD 1 0).toNat (vs.getD 2 0) s) s

/-- A.PST of a store queue's head (12 R260). -/
def pstQueueBody (sq : Nat) (pri : Option W64) (ca : Nat) (s : State) : Res :=
  withRegion s ca (fun _ => 128) pri (s.me.bound (4 + sq)) fun r =>
    match s.me.queue (4 + sq) with
    | [] => .wait s
    | e :: rest =>
      let d := s.die s.myDie
      if fmtBytes e.fmt ≠ regionWidth r then .fail .ill 0
      else match d.mayStore (regionGroup r) s.actor ca with
        | some (c, x) => .fail c (w64 x)
        | none =>
          let place := s.me.here .a
          let s := s.updMe fun k => k.setQueue (4 + sq) rest
          .ok ((s.planeWait (if s.planeNear ca then 4 else 12)).updDie s.myDie fun d =>
            d.planeStore s.actor place ca e.enabled (pri.map (·.toNat)))

/-- A.PST queue (12 R260). -/
def execAPstQueue (q : BitVec 1) (s : State) : Out :=
  issue .a (.aPstQueue q) 1 (popping .a 1 0 fun vs s => pstQueueBody q.toNat none (vs.getD 0 0).toNat s) s

/-- A.PST pri queue (12 R260). -/
def execAPstPriQueue (q : BitVec 1) (s : State) : Out :=
  issue .a (.aPstPriQueue q) 1 (popping .a 2 0 fun vs s =>
    pstQueueBody q.toNat (some (vs.getD 0 0)) (vs.getD 1 0).toNat s) s

/-! ## Settlement -/

/-- A store of one word comes before another in the order of (rank, program order). -/
def PlaneStore.before (a b : PlaneStore) : Bool :=
  decide (a.rank < b.rank) || (decide (a.rank = b.rank) &&
    (decide (a.place < b.place) || (decide (a.place = b.place) && decide (a.order < b.order))))

/-- The new present value of a pending word, with whether a SUM was clamped (12 R257). -/
def settleWord (v : W64) (xs : List PlaneStore) : Nat × Bool :=
  match regionRule v with
  | 1 =>
    let t := (xs.map fun x => signedOf 64 x.val).sum
    saturate 9 t
  | 0 =>
    let last := xs.filter fun x => !xs.any fun y => decide (y.rank = x.rank) && x.before y
    let best := last.foldl (fun (acc : Option PlaneStore) x => match acc with
      | none => some x
      | some a => if decide (a.pri < x.pri) || (decide (a.pri = x.pri) && decide (a.rank < x.rank)) then some x else some a)
      none
    ((match best with | some x => x.val | none => 0), false)
  | _ => ((match xs with | x :: _ => x.val | [] => 0), false)

/-- The stores that lie in regions of a group. -/
def Die.groupStores (d : Die) (g : Nat) : List PlaneStore :=
  d.stores.filter fun x => match d.regionAt x.addr with | some j => decide (regionGroup (d.reg j) = g) | none => false

/-- The pending words of a group. -/
def Die.pendingWords (d : Die) (g : Nat) : List Nat := ((d.groupStores g).map (·.addr)).eraseDups

/-- A FAULT word with two or more stores (12 R258): the lowest. -/
def Die.collision (d : Die) (g : Nat) : Option (Nat × List PlaneStore) :=
  let xs := d.groupStores g
  let bad := (d.pendingWords g).filter fun a =>
    (match d.regionAt a with | some j => regionRule (d.reg j) == 2 | none => false) &&
      decide (2 ≤ (xs.filter fun x => decide (x.addr = a)).length)
  match bad with
  | [] => none
  | b :: bs =>
    let a := bs.foldl min b
    some (a, xs.filter fun x => decide (x.addr = a))

/-- The first store of a list, and what is left. -/
def firstStore (xs : List PlaneStore) : Option PlaneStore :=
  xs.foldl (fun acc x => match acc with | none => some x | some a => if x.before a then some x else some a) none

/-- Forgets the stores of a group. -/
def Die.dropStores (d : Die) (g : Nat) : Die :=
  let xs := d.groupStores g
  { d with stores := d.stores.filter fun x => !xs.contains x }

/-- Every pending word of a group takes its new value and flips (12 R256, R257). -/
def Die.flip (d : Die) (g : Nat) : Die :=
  let xs := d.groupStores g
  let d1 := (d.pendingWords g).foldl (fun (d : Die) a =>
    match d.regionAt a with
    | none => d
    | some j =>
      let v := d.reg j
      let r := settleWord v (xs.filter fun x => decide (x.addr = a))
      let d := if r.2 then d.setReg (1536 + g) (setBits (d.reg (1536 + g)) 61 1 1) else d
      { d with commons := SMap.setRun 0 d.commons a (leBytes r.1 (regionWidth v))
               side := SMap.set false d.side a (!SMap.get false d.side a) }) d
  d1.dropStores g

/-- STEPS rises by one (12 R261). -/
def Die.countStep (d : Die) (g : Nat) : Die :=
  d.setReg (1536 + g) (setBits (d.reg (1536 + g)) 0 32 (bits (d.reg (1536 + g)) 0 32 + 1))

/-- Every member that is still there has arrived at the pending step; ended members count as arrived (18 R377). -/
def Group.complete (x : Group) : Bool :=
  !x.arrived.isEmpty && x.live.all fun m => x.arrived.any fun a => decide (a.1 = m)

/-- t_g of the pending step (12 R261). -/
def Group.settleAt (x : Group) : Nat :=
  (x.arrived.map (·.2.2.1)).foldl max 0 + 6 + 3 * log4Up x.members.length

/-- The cycles by which t_g passes its placed cycle (12 R261). -/
def Group.late (x : Group) : Nat :=
  (x.arrived.map (·.2.2.1)).foldl max 0 - (x.arrived.map (·.2.2.2)).foldl max 0

/-- The breach cycles that have delayed a core's arrival: its last engine's or its last commons access's cycle against those less
their lags (12 R261). -/
def Core.slipped (k : Core) : Nat :=
  let ps := k.actives.map fun t => ((k.en t).parked.getD 0, (k.en t).lag)
  (ps.map (·.1)).foldl max k.planeDue - (ps.map fun p => p.1 - p.2).foldl max k.planePlaced

/-- A step that takes effect `n` cycles late is as many breaches in a member inside the timed part of a leg (12 R261). -/
def Core.stepLate (k : Core) (n cycle : Nat) : Core :=
  if k.leg.timed && decide (0 < n) then
    { k with eng := k.eng.map fun _ x => { x with lag := x.lag + n } }.addBreach n cycle
  else k

/-- Tells the members that their step has taken effect. -/
def State.stepDone (s : State) (g : Nat) (cores : List Nat) : State :=
  cores.foldl (fun s c => s.updCore c fun k =>
    match k.swait with
    | .step _ drop false _ => { k with swait := .step g drop true none }
    | _ => k) s

/-- STEP_SETTLE (12 R256-R258, R261): at t_g the pending words of group `g` settle, are dropped, or collide. -/
def execStepSettle (g : BitVec 4) (s : State) : Out :=
  let die := s.myDie
  let d := s.die die
  let x := d.group g.toNat
  if !d.formed g.toNat || d.groupFrozen g.toNat || !x.complete || s.cycle < x.settleAt then .next s
  else
    let cores := x.arrived.map (·.1)
    let s := cores.foldl (fun s c => s.updCore c fun k => k.stepLate x.late s.cycle) s
    let clear := fun d : Die => d.setGroup g.toNat { d.group g.toNat with arrived := [] }
    if x.arrived.any (·.2.1) then
      .next ((s.updDie die fun d => (clear (d.dropStores g.toNat)).countStep g.toNat).stepDone g.toNat cores)
    else match d.collision g.toNat with
      | some (a, xs) =>
        let s1 := s.updDie die clear
        let one := firstStore xs
        let two := firstStore (xs.filter fun y => decide (some y ≠ one))
        let rank := fun o : Option PlaneStore => match o with | some y => y.rank | none => 0
        let s2 := s1.updDie die fun d =>
          d.setReg (1552 + g.toNat) (w64 (2 ^ 63 + rank two * 2 ^ 51 + rank one * 2 ^ 42 + a))
        .next (cores.foldl (fun s c => s.updCore c fun k =>
          { k with swait := .none }.takeTrap 7 (k.en .c).pc .plane (w64 a) s.cycle) s2)
      | none => .next ((s.updDie die fun d => (clear (d.flip g.toNat)).countStep g.toNat).stepDone g.toNat cores)

/-- STEP_ABSENCE_LIMIT (12 R263): a member has been absent for DG_CLO_LIMIT cycles since the first arrival, and the whole
group is pre-empted. -/
def execStepAbsenceLimit (g : BitVec 4) (s : State) : Out :=
  let d := s.die s.myDie
  let x := d.group g.toNat
  let limit := bits (d.reg 272) 0 32
  let first := (x.arrived.map (·.2.2.1)).foldl min ((x.arrived.map (·.2.2.1)).headD 0)
  let absent := x.live.any fun m => decide ((s.core m).run ≠ .running)
  if limit = 0 || x.arrived.isEmpty || x.complete || !absent || s.cycle < first + limit then .next s
  else .next (x.live.foldl State.preemptCore s)

/-! ## Formation and end of a group -/

/-- Clears the side bits and the stores of a region's words, and with `zero` both planes (12 R254, R263). -/
def Die.clearRegion (d : Die) (zero : Bool) (j : Nat) : Die :=
  let v := d.reg j
  let lo := (j - 1024) / 16 * 2 ^ 20 + regionFirst v * 4096
  let hi := (j - 1024) / 16 * 2 ^ 20 + (regionLast v + 1) * 4096
  let out := fun a : Nat => !(decide (lo ≤ a) && decide (a < hi))
  { d with commons := if zero then d.commons.filter fun p => out p.1 else d.commons
           side := d.side.filter fun p => out p.1
           stores := d.stores.filter fun x => out x.addr }

/-- The Millwright forms group `g` (12 R253, R254): descriptors, planes, membership and status. -/
def Die.formGroup (d : Die) (die g : Nat) (members : List Nat) (regions : List (Nat × W64)) : Die :=
  let d := regions.foldl (fun (d : Die) r =>
    (d.setReg r.1 (setBits (r.2 &&& w64 (dgMask 1024)) 56 4 g)).clearRegion true r.1) d
  let word := fun m => ((List.range 64).filter fun i => members.contains (512 * die + 64 * m + i)).map (2 ^ ·) |>.sum
  let d := (List.range 8).foldl (fun (d : Die) m => d.setReg (1568 + 8 * g + m) (w64 (word m))) d
  let d := (d.setReg (1536 + g) (w64 (2 ^ 63 + members.length * 2 ^ 48))).setReg (1552 + g) 0
  d.setGroup g { members := members, regions := regions.map (·.1) }

/-- A member of a group has ended or been killed; the last one takes the group down (12 R263; 18 R377, R391). -/
def Die.memberGone (d : Die) (core : Nat) (killed : Bool) : Die :=
  match (List.range 16).find? fun g => d.formed g && (d.group g).live.contains core with
  | none => d
  | some g =>
    let x := d.group g
    let x := { x with gone := core :: x.gone
                      killed := if killed && !d.groupFrozen g then core else x.killed
                      arrived := x.arrived.filter fun a => decide (a.1 ≠ core) }
    if x.live.isEmpty then
      let d := x.regions.foldl (fun (d : Die) j => (d.clearRegion false j).setReg j 0) d
      { (d.setReg (1536 + g) (setBits (d.reg (1536 + g)) 63 1 0)) with groups := SMap.erase d.groups g }
    else
      let d := if killed then d.setReg (1536 + g) (setBits (d.reg (1536 + g)) 62 1 1) else d
      d.setGroup g x

end Sys2Proof.Machine
end

