-- ==== Sys2Proof/Machine/Copy.lean ====
section
/-! DEFINITION. The copy engine (11 R228-R250). -/

namespace Sys2Proof.Machine

/-- Changes the copy engine's registers of the acting core. -/
def State.updKop (s : State) (f : Kop → Kop) : State := s.updMe fun k => { k with kop := f k.kop }

/-! ## Geometry, counter register, follow-on register -/

/-- A K word that pops entries and writes the copy engine's registers, or takes #ILL (11 R230). -/
def setK (i : Instr) (p : Nat) (f : List W64 → Kop → Option Kop) (s : State) : Out :=
  issue .k i 1 (popping .k p 0 fun vs s =>
    match f vs s.me.kop with
    | some x => .ok (s.updKop fun _ => x)
    | none => .fail .ill 0) s

/-- K.GEO dim (11 R230). -/
def execKGeoDim (k : BitVec 3) (s : State) : Out :=
  setK (.kGeoDim k) 3 (fun vs x =>
    let e := (vs.getD 2 0).toNat
    if e < 1 ∨ 2 ^ 32 ≤ e then none
    else some { x with geo := { x.geo with
      ext := x.geo.ext.set k.toNat e, sstr := x.geo.sstr.set k.toNat (vs.getD 1 0),
      dstr := x.geo.dstr.set k.toNat (vs.getD 0 0) } }) s

/-- K.GEO rank (11 R230). -/
def execKGeoRank (s : State) : Out :=
  setK .kGeoRank 2 (fun vs x =>
    let n := (vs.getD 1 0).toNat
    let eb := (vs.getD 0 0).toNat
    if n < 1 ∨ 8 < n ∨ !([1, 2, 4, 8] : List Nat).contains eb then none
    else some { x with geo := { x.geo with n := n, eb := eb } }) s

/-- K.GEO space (11 R230). -/
def execKGeoSpace (s : State) : Out :=
  setK .kGeoSpace 3 (fun vs x =>
    let v := fun i => (vs.getD i 0).toNat
    if 3 < v 2 ∨ 3 < v 1 ∨ 3 < v 0 then none
    else some { x with geo := { x.geo with ss := v 2, ds := v 1, cls := v 0 } }) s

/-- K.GEO sig (11 R230). -/
def execKGeoSig (s : State) : Out :=
  setK .kGeoSig 1 (fun vs x =>
    let v := (vs.getD 0 0).toNat
    if 256 ≤ v then none else some { x with geo := { x.geo with sig := v } }) s

/-- K.GEO clear (11 R230). -/
def execKGeoClear (s : State) : Out := setK .kGeoClear 0 (fun _ x => some { x with geo := {} }) s

/-- The convolution walk of five popped values ( geom win pad nb pv — ); none where a reserved bit is set (11 R233). -/
def kconvOf (vs : List W64) : Option KConv :=
  let v := fun i => vs.getD i 0
  if bits (v 3) 0 8 ≠ 0 ∨ bits (v 2) 32 32 ≠ 0 ∨ bits (v 1) 32 32 ≠ 0 then none
  else some { geom := v 4, win := v 3, pad := v 2, nb := v 1, pv := v 0 }

/-- K.CONV src (11 R233). -/
def execKConvSrc (s : State) : Out :=
  setK .kConvSrc 5 (fun vs x => (kconvOf vs).map fun c => { x with convS := c }) s

/-- K.CONV dst (11 R233). -/
def execKConvDst (s : State) : Out :=
  setK .kConvDst 5 (fun vs x => (kconvOf vs).map fun c => { x with convD := c }) s

/-- K.CNT (11 R239). -/
def execKCnt (s : State) : Out :=
  issue .k .kCnt 1 (popping .k 2 0 fun vs s =>
    let va := vs.getD 1 0
    let inc := vs.getD 0 0
    if va.toNat % 8 ≠ 0 then .fail .align va
    else if inc.toNat < 1 ∨ 2 ^ 32 ≤ inc.toNat then .fail .ill 0
    else .ok (s.updKop fun x => { x with cntVa := va, cntInc := inc })) s

/-- K.CNT get (11 R239). -/
def execKCntGet (s : State) : Out :=
  issue .k .kCntGet 1 (popping .k 0 2 fun _ s => .ok (pushing .k [s.me.kop.cntVa, s.me.kop.cntInc] s)) s

/-- The matrix word of a follow-on command: TMMA or not, its code and its tile (11 R245). -/
def followWord (w : W64) : Option (Bool × Nat × Nat) :=
  if 2 ^ 16 ≤ w.toNat then none
  else match decode [BitVec.ofNat 16 w.toNat] with
    | .ok (.mMma f k) => if legalFields (.mMma f k) then some (false, f.toNat, k.toNat) else none
    | .ok (.mTmma k) => some (true, 0, k.toNat)
    | _ => none

/-- K.FOLLOW (11 R245): steps 1 and 3 of R207 with the widest depth and the most slots of the form. -/
def execKFollow (s : State) : Out :=
  issue .k .kFollow 1 (popping .k 5 0 fun vs s =>
    let v := fun i => vs.getD i 0
    match followWord (v 4) with
    | none => .fail .ill 0
    | some (tern, code, _) =>
      let f := mmaForm code
      let depth := if tern then 32 else max f.dense f.sparse
      let slots := if tern then 4 else if f.sparse ≠ 0 then 2 else 1
      match maskOf (v 2) 16, maskOf (v 1) 16, maskOf (v 0) depth with
      | some _, some _, some _ =>
        if 256 < (v 3).toNat + slots || s.me.kop.follow.isSome then .fail .ill 0
        else .ok (s.updKop fun x => { x with
          follow := some { w := (v 4).toNat, a := v 3, rm := v 2, cm := v 1, dm := v 0 } })
      | _, _, _ => .fail .ill 0) s

/-! ## The walk -/

/-- Address of element `j` under extents and strides, the innermost first (11 R231). -/
def affineN (base : Int) : List (Nat × Int) → Nat → Int
  | [], _ => base
  | (e, t) :: rest, j => affineN (base + Int.ofNat (j % e) * t) rest (j / e)

/-- Number of elements (11 R231). -/
def Copy.count (c : Copy) : Nat := (c.geo.ext.take c.geo.n).prod

/-- Base, strides, convolution and space of a side, the destination's where `d` holds. -/
def Copy.base (c : Copy) (d : Bool) : W64 := if d then c.dbase else c.sbase
def Copy.strides (c : Copy) (d : Bool) : List Int :=
  ((if d then c.geo.dstr else c.geo.sstr).take c.geo.n).map (·.toInt)
def Copy.kconv (c : Copy) (d : Bool) : KConv := if d then c.convD else c.convS
def Copy.space (c : Copy) (d : Bool) : Nat := if d then c.geo.ds else c.geo.ss

/-- A side's convolution walk as one of R134. -/
def Copy.conv (c : Copy) (d : Bool) : Conv :=
  let x := c.kconv d
  { base := (c.base d).toNat, str := c.strides d, geom := x.geom, win := x.win, pad := x.pad, nb := x.nb.toNat }

/-- Address of element `j` on a side; none for a padding element (11 R231, R233). -/
def Copy.addr (c : Copy) (d : Bool) (j : Nat) : Option Nat :=
  if (c.kconv d).nb = 0 then
    some (wrap64 (affineN (Int.ofNat (c.base d).toNat) ((c.geo.ext.take c.geo.n).zip (c.strides d)) j))
  else (c.conv d).addr (j % c.geo.ext.getD 0 1) (j / c.geo.ext.getD 0 1 % c.geo.ext.getD 1 1)

/-- The addresses of a side in walk order. -/
def Copy.addrs (c : Copy) (d : Bool) : List Nat := (List.range c.count).filterMap (c.addr d)

/-- The range of a side: its least address, and its greatest plus eb (11 R232). -/
def Copy.span (c : Copy) (d : Bool) : Option (Nat × Nat) :=
  match c.addrs d with
  | [] => none
  | a :: as => some (as.foldl min a, as.foldl max a + c.geo.eb)

/-- Element `j` goes on where the piece before it ended, on one side. -/
def continues (prev : Option Nat) (n : Nat) (a : Option Nat) : Bool :=
  match prev, a with
  | some p, some x => decide (x = p + n) && decide (x / 128 = p / 128)
  | none, none => true
  | _, _ => false

/-- The pieces of a copy in walk order, from element `j` on. -/
def Copy.piecesFrom (c : Copy) : Nat → Nat → Option Piece → List Piece
  | 0, _, last => last.toList
  | m + 1, j, last =>
    let a := c.addr false j
    let b := c.addr true j
    match last with
    | none => c.piecesFrom m (j + 1) (some { src := a, dst := b, n := c.geo.eb })
    | some p =>
      if continues p.src p.n a && continues p.dst p.n b then
        c.piecesFrom m (j + 1) (some { p with n := p.n + c.geo.eb })
      else p :: c.piecesFrom m (j + 1) (some { src := a, dst := b, n := c.geo.eb })

/-- The pieces of a copy. -/
def Copy.pieces (c : Copy) : List Piece := c.piecesFrom c.count 0 none

/-- The pieces grouped by runs of the source (11 R236, R248). -/
def groupRuns : List Piece → List (List Piece)
  | [] => []
  | p :: ps => match groupRuns ps with
    | (q :: qs) :: rest => if continues p.src p.n q.src then (p :: q :: qs) :: rest else [p] :: (q :: qs) :: rest
    | _ => [[p]]

/-- Bytes of some pieces. -/
def lenOfPieces (ps : List Piece) : Nat := (ps.map (·.n)).sum

/-! ## Submission -/

/-- First element, source before destination, whose address fails a test (11 R234). -/
def Copy.firstBad (c : Copy) (bad : Bool → Nat → Bool) : Option Nat :=
  (List.range c.count).findSome? fun j =>
    ([false, true].findSome? fun d => match c.addr d j with
      | some a => if bad d a then some a else none
      | none => none)

/-- Two ranges of one space overlap. -/
def spansMeet : Option (Nat × Nat) → Option (Nat × Nat) → Bool
  | some (a, b), some (c, d) => decide (a < d) && decide (c < b)
  | _, _ => false

/-- A global address lies behind an aperture (17 R345). -/
def State.behindAperture (s : State) (a : Nat) : Bool :=
  match tlbFind s.me.tlb s.me.space (w64 a), s.walkOf s.myDie s.me.space (w64 a) with
  | some e, _ => pteAp e.leaf
  | none, .leaf x => pteAp x
  | none, _ => false

/-- A side has an address of another die, or of a peer package (11 R238). -/
def Copy.remote (c : Copy) (s : State) : Bool :=
  [false, true].any fun d => c.space d == 1 && (c.addrs d).any fun a => decide (a / 2 ^ 55 ≠ s.myDie) || s.behindAperture a

/-- Check 2 of R234. -/
def Copy.combines (c : Copy) (s : State) : Bool :=
  let k := s.me
  let on := fun d => (c.kconv d).nb != 0
  !(c.space false == c.space true && spansMeet (c.span false) (c.span true)) &&
    (!(on false || on true) ||
      (c.geo.n == 4 && c.geo.ext.getD 2 1 == 1 && c.geo.ext.getD 3 1 == 1)) &&
    (!on false || (c.conv false).ok) && (!on true || (c.conv true).ok) &&
    decide (c.count * c.geo.eb ≤ 2 ^ 40) && !(decide (128 ≤ c.geo.sig) && c.cnt == 0) &&
    !(k.leg.timed && (decide (128 ≤ k.leg.copies) || (decide (64 ≤ k.leg.copies) && c.remote s)))

/-- Check 3 of R234. -/
def Copy.misaligned (c : Copy) : Option Nat :=
  if [false, true].any fun d => (c.base d).toNat % c.geo.eb != 0 || (c.strides d).any fun t => t % Int.ofNat c.geo.eb != 0 then
    some ((c.firstBad fun _ a => a % c.geo.eb != 0).getD
      (if c.sbase.toNat % c.geo.eb ≠ 0 then c.sbase.toNat else c.dbase.toNat))
  else none

/-- Check 4 of R234: the ranges of R228. -/
def Copy.outOfRange (c : Copy) (d : Die) : Option Nat :=
  c.firstBad fun side a => match c.space side with
    | 0 => decide (padSize < a + c.geo.eb)
    | 1 => decide (2 ^ 58 ≤ a)
    | 2 => decide (0x20000 < a + c.geo.eb)
    | _ => (d.regionAt a).isNone

/-- Slots touched, in walk order (11 R234). -/
def Copy.slotsOf (c : Copy) (d : Bool) : List Nat :=
  if c.space d = 2 then ((c.addrs d).map (· / 512)).eraseDups else []

/-- Check 5 of R234: the lowest bad slot (09 R199). -/
def Copy.slotBad (c : Copy) (k : Core) : Option Nat :=
  (((c.slotsOf false).filter fun x => decide (k.claim x = 0)) ++
    ((c.slotsOf true).filter fun x => decide (k.claim x ≠ 1))).min?

/-- A commons destination obeys A.PST: membership and FROZEN (11 R228, 12 R260). -/
def Copy.planeBad (c : Copy) (d : Die) (core : Nat) : Option (Cause × Nat) :=
  if c.geo.ds ≠ 3 then none
  else (c.addrs true).findSome? fun a => match d.regionAt a with
    | some j => d.mayStore (regionGroup (d.reg j)) core a
    | none => none

/-- What translating pages comes to: all of them, those found before a wait, or a cause with its address (11 R235). -/
inductive Pages where
  | ok (ps : List CopyPage) (s : State)
  | wait (ps : List CopyPage) (s : State)
  | fail (c : Cause) (a : Nat)
  deriving DecidableEq, Repr

/-- An address lies in one of the pages of a side. -/
def pageFor (ps : List CopyPage) (side : Nat) (va : W64) : Option CopyPage :=
  ps.find? fun p => p.side == side && p.die == bits va 55 3 && p.entry.base == va.toNat / pageSize p.entry.size

/-- The cycles in which a page of another die is asked for at its owner and comes back, beside its walk (11 R248; 01 R23; log entry
98). -/
def State.askTime (s : State) (die : Nat) : Nat := 24 * ringHops s.myDie die + 20

/-- A page of another die that its owner's TLB lacked is not back yet (11 R248). -/
def State.tripOut (s : State) (a : Nat) : Bool :=
  decide (a / 2 ^ 55 % 8 ≠ s.myDie) && SMap.has s.me.trips (a / 4096) &&
    (decide (SMap.get 0 s.me.trips (a / 4096) = 0) || decide (s.cycle < SMap.get 0 s.me.trips (a / 4096)))

/-- A page of another die whose walk has ended comes back in its time (11 R248). -/
def State.tripBack (s : State) (a : Nat) : State :=
  if SMap.get 0 s.me.trips (a / 4096) ≠ 0 then s
  else s.updMe fun k => { k with trips := SMap.put k.trips (a / 4096) (s.cycle + s.askTime (a / 2 ^ 55 % 8)) }

/-- A page of another die has to be walked there (11 R248). -/
def State.tripAsk (s : State) (a : Nat) : State :=
  if decide (a / 2 ^ 55 % 8 = s.myDie) || SMap.has s.me.trips (a / 4096) then s
  else s.updMe fun k => { k with trips := SMap.put k.trips (a / 4096) 0 }

/-- Asks a peer package for the translation of a page behind an aperture at its owning die, or takes what has come (11 R235; log entry
2). -/
def askPage (s : State) (t : Engine) (package addr : Nat) (write : Bool) (va : W64) : Got :=
  let r : PeerReq := { core := s.actor, eng := t, package := package, addr := addr, n := 0, data := [], load := some 64
                       page := some (0, write) }
  match s.me.peerGot.find? fun m => m.loads r with
  | some m =>
    (match m.report with
    | some c => .fail c va s
    | none => .ok [] s)
  | none =>
    if s.me.peerLoads.contains r then .wait s
    else .wait { s.updMe fun k => { k with peerLoads := r :: k.peerLoads } with peerOut := s.peerOut ++ [r] }

/-- Translates the pages of a list of (side, address) for an engine: a source is read, side 0, a destination written, a counter both, at
2, and a status word written, at 3 (11 R235; 15 R307). -/
def collectPages (t : Engine) (s : State) : List (Nat × Nat) → List CopyPage → Pages
  | [], ps => .ok ps s
  | (side, a) :: rest, ps =>
    match pageFor ps side (w64 a) with
    | some _ => collectPages t s rest ps
    | none =>
      match locate s (w64 a) 1 (side == 0 || side == 2) (side != 0) with
      | .wait s => .wait ps (s.tripAsk a)
      | .fail c _ => .fail c a
      | .at_ p s =>
        let tlb := if p.die = s.myDie then s.me.tlb else (s.die p.die).tlb
        match tlbFind tlb s.me.space (w64 a) with
        | none => .wait ps s
        | some e =>
          if s.tripOut a then .wait ps (s.tripBack a)
          else match (match p.peer with
              | some q => askPage s t q p.off (side != 0) (w64 a)
              | none => .ok [] s) with
            | .ok _ s => collectPages t s rest (ps ++ [{ side := side, die := p.die, entry := e }])
            | .wait s => .wait ps s
            | .fail c _ _ => .fail c a

/-- Keeps the pages the pending word has translated while it waits for more (11 R235). -/
def State.keepPages (s : State) (ps : List CopyPage) : State := s.updKop fun x => { x with walked := ps }

/-- The pending word of an engine has its pages (11 R235). -/
def Core.havePages (k : Core) (t : Engine) : Core :=
  { k.dropLoads t 64 with trips := [], kop := { k.kop with walked := [] }, collPages := [] }

/-- The addresses a copy translates: those of its global sides in walk order, and its counter (11 R234, R239). -/
def Copy.wanted (c : Copy) : List (Nat × Nat) :=
  ((List.range c.count).flatMap fun j =>
    [false, true].filterMap fun d =>
      if c.space d = 1 then (c.addr d j).map fun a => ((if d then 1 else 0), a) else none) ++
  (if 128 ≤ c.geo.sig then [(2, c.cnt.toNat)] else [])

/-- The page a translation pins (11 R235). -/
def State.pinKey (s : State) (p : CopyPage) : PageKey := s.pageKey p.die p.entry

/-- The pages a set of translations pins. -/
def State.pinsOf (s : State) (ps : List CopyPage) : List PageKey := (ps.map s.pinKey).eraseDups

/-- Where an address of a side lies. -/
def Copy.placeAt (c : Copy) (s : State) (side a : Nat) : Option Place :=
  (pageFor c.pages side (w64 a)).bind fun p => placeOf (s.die p.die) p.die (w64 a) p.entry.leaf

/-- A side's address goes to a pseudo-channel in STATIC mode of the core's own die (11 R238). -/
def Copy.timedSide (c : Copy) (s : State) (d : Bool) (a n : Nat) : Option Place :=
  if c.space d = 1 then
    match c.placeAt s (if d then 1 else 0) a with
    | some p => if s.timedRun p n then some p else none
    | none => none
  else none

/-- Number of the first piece of each run, with the run. -/
def numberRuns : Nat → List (List Piece) → List (Nat × List Piece)
  | _, [] => []
  | i, r :: rs => (i, r) :: numberRuns (i + r.length) rs

/-- Sends the timed read requests of a copy: the i-th run's reach the controller nine cycles after its read cycle (06 R137,
11 R238, R248). -/
def Copy.askReads (c : Copy) (s : State) : State × Copy :=
  match c.tag with
  | none => (s, c)
  | some t =>
    ((numberRuns 0 (groupRuns c.pieces)).mapIdx fun i r => (i, r)).foldl (fun acc x =>
      match (x.2.2.head?).bind (·.src) with
      | none => acc
      | some a =>
        let n := lenOfPieces x.2.2
        match c.timedSide acc.1 false a n with
        | some p =>
          let mine : List TimedReq := (burstsOf p.off n).map fun b =>
            { core := s.actor, tag := t, burst := b, arrives := s.cycle + 2 + x.1 + 9, write := none, va := w64 (a + (max b p.off - p.off)) }
          (acc.1.updDie s.myDie fun d => { d with timed := { d.timed with reqs := d.timed.reqs ++ mine } },
            { acc.2 with asks := acc.2.asks ++ [x.2.1] })
        | none => acc) (s, c)

/-- A copy enters the copy queue: its requests go out, and the follow-on register is empty (11 R234). -/
def State.submit (s : State) (c : Copy) : State :=
  let r := c.askReads s
  r.1.updMe fun k => { k.havePages .k with
    kop := { k.kop with follow := none, walked := [], copies := k.kop.copies ++ [r.2] }
    leg := if k.leg.timed then { k.leg with copies := k.leg.copies + 1 } else k.leg
    tagLag := match c.tag with | some t => SMap.set 0 k.tagLag t (k.en .k).lag | none => k.tagLag }

/-- K.COPY (11 R234). -/
def copyBody (s : State) : Res :=
  popping .k 2 0 (fun vs s =>
    let k := s.me
    let x := k.kop
    let c : Copy :=
      { geo := x.geo, convS := x.convS, convD := x.convD, sbase := vs.getD 1 0, dbase := vs.getD 0 0
        cnt := if 128 ≤ x.geo.sig then x.cntVa else 0, inc := x.cntInc, follow := x.follow, place := k.here .k
        tpc := (k.en .k).pc, reads := [], writes := [], pages := [], pins := []
        tag := if k.leg.timed then some (128 + k.leg.copies) else none, readAt := s.cycle + 2 }
    let d := s.die s.myDie
    if !c.combines s then .fail .ill 0
    else match c.misaligned with
    | some a => .fail .align (w64 a)
    | none => match c.outOfRange d with
    | some a => .fail .xlat (w64 a)
    | none => match c.slotBad k with
    | some x => .fail .slot (w64 x)
    | none => match c.planeBad d s.actor with
    | some (e, v) => .fail e (w64 v)
    | none => match collectPages .k s c.wanted x.walked with
    | .wait ps s => .wait (s.keepPages ps)
    | .fail e a => .fail e (w64 a)
    | .ok ps s =>
      let pins := s.pinsOf ps
      if tooManyPins pins then .fail .ill 0
      else if decide (16 ≤ (x.copies.filter fun y => !y.landed).length) then .wait (s.keepPages ps)
      else match s.pinAll pins with
        | none => .wait (s.keepPages ps)
        | some s => .ok (s.submit { c with reads := c.slotsOf false, writes := c.slotsOf true, pages := ps, pins := pins })) s

/-- K.COPY (11 R234-R238). -/
def execKCopy (s : State) : Out := issue .k .kCopy 1 copyBody s

/-! ## Order among copies -/

/-- What two accesses that touch a common byte share: the space and, in global memory, the die, the peer package and the tier;
with the offset (11 R232, R244). -/
def Copy.where_ (c : Copy) (s : State) (d : Bool) (a : Nat) : (Nat × Nat × Option Nat × Nat) × Nat :=
  if c.space d ≠ 1 then ((c.space d, 0, none, 0), a)
  else match c.placeAt s (if d then 1 else 0) a with
    | some p => ((1, p.die, p.peer, p.tier), p.off)
    | none => ((1, a / 2 ^ 55, none, 2), a)

/-- The type of the page of an address of a side: NORMAL but for what the page's leaf gives (17 R342). -/
def Copy.mtAt (c : Copy) (s : State) (d : Bool) (a : Nat) : Nat :=
  if c.space d ≠ 1 then 0 else match c.placeAt s (if d then 1 else 0) a with | some p => p.mt | none => 0

/-- A run of `n` bytes at a place, on a page of a type, comes after some pieces of a copy, on one side of it: they share a byte, or, on
DEVICE pages, a 64-byte block, or both lie on SO pages (11 R244; 16 R335). -/
def Copy.touches (x : Copy) (s : State) (d : Bool) (ps : List Piece) (w : (Nat × Nat × Option Nat × Nat) × Nat) (n mt : Nat) : Bool :=
  ps.any fun p => match (if d then p.dst else p.src) with
    | none => false
    | some a =>
      let y := x.where_ s d a
      let ymt := x.mtAt s d a
      (decide (mt = 3) && decide (ymt = 3)) || (decide (y.1 = w.1) &&
        (if mt = 2 ∨ ymt = 2 then decide (y.2 / 64 ≤ (w.2 + n - 1) / 64) && decide (w.2 / 64 ≤ (y.2 + p.n - 1) / 64)
         else decide (y.2 < w.2 + n) && decide (w.2 < y.2 + p.n)))

/-- Pieces of a copy that are not written, and those not read. -/
def Copy.unwritten (x : Copy) : List Piece := x.moves.map (·.piece) ++ x.pieces.drop x.taken
def Copy.unread (x : Copy) : List Piece := x.pieces.drop x.taken

/-- An earlier copy of the core must first write, or where the run is itself a write also read, a byte of a run; on SO and DEVICE pages
reads too keep their order (11 R244; 16 R335). -/
def Copy.behind (c : Copy) (s : State) (d : Bool) (a n : Nat) : Bool :=
  let k := s.me
  let w := c.where_ s d a
  let mt := c.mtAt s d a
  (k.kop.copies.takeWhile fun x => decide (x.place ≠ c.place)).any fun x => !x.landed &&
    !(k.aliasMode 4 && x.geo.cls != c.geo.cls && ((x.pages ++ c.pages).all fun p => decide (pteMt p.entry.leaf < 2))) &&
    (x.touches s true x.unwritten w n mt || ((d || decide (2 ≤ mt)) && x.touches s false x.unread w n mt))

/-! ## Slots of a leg -/

/-- The slots of a die that belong to a core's copy of a tag: those to come, and those that have left (11 R238). -/
def State.slotsFor (s : State) (die core tag : Nat) : List Slot × List (Nat × Slot) :=
  let mine := fun x : Slot => decide (x.tag = tag) && decide (x.core = core % 512)
  let t := (s.die die).timed
  (t.slots.filter mine, t.gone.filter fun p => mine p.2)

/-- A slot of the copy on a die is past its cycle. -/
def State.slotLate (s : State) (die tag : Nat) : Bool :=
  match (s.die die).trav with
  | some t => (s.slotsFor die s.actor tag).1.any fun x => decide (t.tStart + x.cycle < s.cycle)
  | none => false

/-- The cycles from a slot's departure to its arrival: the hops to its destination, in its direction (01 R23; 05 R100). -/
def Slot.way (x : Slot) (die : Nat) : Nat := if x.lane < 4 then 12 * hopsBy (stationOf die) x.dest x.dir else 0

/-- Cycles from the departure of a request to its effect at a place of the package (01 R23; 14 R302). -/
def State.reachTime (s : State) (q : Place) : Nat := s.wayFrom s.myDie q.die none 0 + 20 + tMem q.tier

/-- Bytes of another die's memory have come: the request has left in the copy's first slot, and the owning die's slots have
brought as many bytes, or, where that has no slot for them, they have come back in their time (11 R238; 01 R23). -/
def Copy.brought (c : Copy) (s : State) (q : Place) (n : Nat) : Bool :=
  match c.tag with
  | none => true
  | some t =>
    let mine := s.slotsFor s.myDie s.actor t
    let its := s.slotsFor q.die s.actor t
    if its.1.isEmpty && its.2.isEmpty then
      (match mine.2 with
        | (g, _) :: _ => decide (g + s.reachTime q + s.wayFrom s.myDie q.die none 0 ≤ s.cycle)
        | [] => mine.1.isEmpty)
    else (mine.1.isEmpty || !mine.2.isEmpty) &&
      ((its.1.isEmpty && its.2.all fun p => decide (p.1 + p.2.way q.die ≤ s.cycle)) ||
        decide (lenOfPieces (c.pieces.take c.taken) + n ≤
          256 * (its.2.filter fun p => decide (p.1 + p.2.way q.die ≤ s.cycle)).length))

/-- The copy has no slot of its own die's table. -/
def Copy.slotless (c : Copy) (s : State) : Bool :=
  match c.tag with
  | none => true
  | some t => let mine := s.slotsFor s.myDie s.actor t; mine.1.isEmpty && mine.2.isEmpty

/-- Bytes bound for another die or package may be written: they have left in the copy's slots and come, `more` cycles before, or it
has no slot left for them. -/
def Copy.departed (c : Copy) (s : State) (n more : Nat) : Bool :=
  match c.tag with
  | none => true
  | some t => ((s.slotsFor s.myDie s.actor t).1.isEmpty && decide ((c.slotted.map (·.2)).sum < n)) ||
      decide (n ≤ ((c.slotted.filter fun p => decide (p.1 + more ≤ s.cycle)).map (·.2)).sum)

/-- Bytes that have come are written. -/
def dropBytes : Nat → List (Nat × Nat) → List (Nat × Nat)
  | _, [] => []
  | n, (g, m) :: rest => if n = 0 then (g, m) :: rest else if m ≤ n then dropBytes (n - m) rest else (g, m - n) :: rest

/-! ## Movement -/

/-- A copy's waiting is a breach inside the timed part of a leg (11 R238, 05 R119). -/
def Copy.waited (c : Copy) (s : State) : State :=
  match c.tag with
  | some t => s.updMe fun k => if k.leg.timed then k.waitTag t s.cycle (s.cycle + 1) else k
  | none => s

/-- An access placed earlier may still reach the core's memories (05 R119). -/
def Copy.heldIn (c : Copy) (k : Core) : Bool := match c.tag with | some t => k.heldBack (SMap.get 0 k.tagLag t) | none => false

/-- A copy that waits at a channel in STATIC mode without bursts of its own: the request stays with the controller (05 R102, R108). -/
def Copy.keepWaiting (c : Copy) (s : State) (q : Place) (n : Nat) : State :=
  s.keepWaiting s.actor c.place (some (c.taken, c.moves.length)) q.die q.tier q.off n

/-- The lag of a copy (05 R119). -/
def Copy.lag (c : Copy) (k : Core) : Nat := match c.tag with | some t => SMap.get 0 k.tagLag t | none => 0

/-- A copy's access to the commons takes place: an S.STEP after it waits for it (12 R261). -/
def Copy.atCommons (c : Copy) (s : State) : State := s.updMe fun k => k.planeAt s.cycle (c.lag k)

/-- A step of a group takes effect in this cycle and has yet to: reads of the commons come after it (12 R262). -/
def State.settling (s : State) : Bool :=
  let d := s.die s.myDie
  d.groups.any fun p => p.2.complete && !d.groupFrozen p.1 && decide (p.2.settleAt ≤ s.cycle)

/-- What the read of a run comes to: its bytes and the address of an unwritten word, a wait, or an uncorrectable error. -/
inductive Taken where
  | ok (bs : List Byte) (stop : Option Nat) (s : State) (c : Copy)
  | wait (s : State) (c : Copy)
  | fail (s : State)
  deriving DecidableEq, Repr

/-- Bytes of a copy's source from a peer package: asked for, or come (17 R345; log entry 2). -/
def Copy.fromPeer (c : Copy) (s : State) (package off n a : Nat) : Taken :=
  match s.me.peerGot.find? fun m => decide (m.copy = some c.place) && !m.stored with
  | some m =>
    let s := s.updMe fun k => { k with peerGot := k.peerGot.erase m }
    (match m.report with
      | some e => .wait s { c with ended := some (e, a) }
      | none => .ok m.data none s { c with asked := false })
  | none =>
    if c.asked then .wait s c
    else .wait { s with peerOut := s.peerOut ++ [{ core := s.actor, eng := .k, package := package, addr := off, n := n, data := []
                                                   copy := some c.place }] } { c with asked := true }

/-- Reads `n` bytes of a source run (11 R228, R233, R237, R238). -/
def Copy.readRun (c : Copy) (s : State) (src : Option Nat) (n : Nat) : Taken :=
  match src with
  | none => .ok (List.replicate (n / c.geo.eb) (leBytes c.convS.pv.toNat c.geo.eb)).flatten none s c
  | some a =>
    if c.behind s false a n then .wait (c.waited s) c
    else match c.geo.ss with
    | 0 =>
      if s.me.portTaken (portsOf false a n) || c.heldIn s.me then .wait (c.waited s) c
      else
        let r := (s.updMe fun k => k.takePorts (portsOf false a n)).padRead 4 a n
        .ok r.2.1 r.2.2 r.1 c
    | 2 => if c.heldIn s.me then .wait (c.waited s) c else .ok (SMap.slice 0 s.me.mat.slots a n) none s c
    | 3 => if s.settling then .wait s c else .ok ((s.die s.myDie).pres a n) none (c.atCommons s) c
    | _ =>
      match c.placeAt s 0 a with
      | none => .wait s c
      | some q => match q.peer with
        | some pk => if c.brought s { q with die := 8 } n then c.fromPeer s pk q.off n a else .wait s c
        | none =>
          if c.asks.contains c.taken then
            match s.takeRun (c.tag.getD 0) q.off n with
            | some (s, bs) => .ok bs none s c
            | none => .wait s c
          else if s.waits q.die q.tier q.off n then .wait (c.waited (c.keepWaiting s q n)) c
          else if decide (q.die ≠ s.myDie) && !c.brought s q n then
            .wait (if s.slotLate q.die (c.tag.getD 0) then c.waited s else s) c
          else match s.farRead s.actor (q.at_ (w64 a)) n q.mt with
            | (s, some bs) => .ok bs none s c
            | (s, none) => .fail s

/-- The moves of the pieces of a run, given its bytes, from a cycle on. -/
def movesOf (at_ : Nat) : List Piece → List Byte → List Move
  | [], _ => []
  | p :: ps, bs =>
    if bs.isEmpty then []
    else { piece := { p with n := (bs.take p.n).length }, bytes := bs.take p.n, at_ := at_ } :: movesOf at_ ps (bs.drop p.n)

/-- What a copy comes to in a cycle: the copy, or the address of an uncorrectable error (17 R363). -/
abbrev Moving := State × Except Nat Copy

/-- Sends the reads of a copy's global runs, one a cycle: each may be read at its effect, in its time (01 R23; 11 R248). Those of a
leg that its timelines list or that a slot carries, of padding and of peer packages are not sent here. -/
def Copy.sendReads (s : State) : Nat → Copy → Copy
  | 0, c => c
  | fuel + 1, c =>
    match (if c.geo.ss = 1 then (groupRuns (c.pieces.drop c.sentTo)).head? else none) with
    | none => c
    | some run =>
      let out := fun (at_ : Nat) => { c with sentTo := c.sentTo + run.length, sent := c.sent ++ [(c.sentTo, at_)] }
      match ((run.head?).bind (·.src)).bind fun a => c.placeAt s 0 a with
      | none => if ((run.head?).bind (·.src)).isNone then Copy.sendReads s fuel (out s.cycle) else c
      | some q =>
        if c.asks.contains c.sentTo || q.peer.isSome || (c.tag.isSome && decide (q.die ≠ s.myDie) && !c.slotless s) then
          Copy.sendReads s fuel (out s.cycle)
        else if s.cycle < c.readAt then c
        else { out (s.cycle + s.reachTime q) with readAt := s.cycle + 1 }

/-- The run that begins at the next piece may be read: one of global memory at its effect, any other from its cycle on. -/
def Copy.mayRead (c : Copy) (s : State) (shared : Bool) : Bool :=
  if c.geo.ss = 1 then c.sent.any fun p => decide (p.1 = c.taken) && decide (p.2 ≤ s.cycle)
  else decide (c.readAt ≤ s.cycle) && (!shared || decide (s.me.kop.runAt ≤ s.cycle))

/-- Cycles by which a run's bytes come after they have been read: their way back from another unit (01 R23; 14 R302). -/
def Copy.comeTime (c : Copy) (s : State) (src : Option Nat) : Nat :=
  match (if c.geo.ss = 1 then src.bind fun a => c.placeAt s 0 a else none) with
  | some q =>
    if q.peer.isSome || c.asks.contains c.taken || (c.tag.isSome && decide (q.die ≠ s.myDie)) then 0
    else s.wayFrom s.myDie q.die none 0
  | none => 0

/-- Reads the next source run of a copy (11 R237, R248): the engine's runs from the scratchpad, the slots and the commons share
one read a cycle. -/
def Copy.readNext (c : Copy) (s : State) : Moving :=
  match (groupRuns (c.pieces.drop c.taken)).head? with
  | none => (s, .ok c)
  | some run =>
    let src := (run.head?).bind (·.src)
    let shared := src.isSome && c.geo.ss != 1
    let at_ := s.cycle + c.comeTime s src + 3
    if !c.mayRead s shared then (s, .ok c)
    else match c.readRun s src (lenOfPieces run) with
      | .wait s c => (s, .ok c)
      | .fail s => (s, .error (src.getD 0))
      | .ok bs stop s c =>
        let s := if shared then s.updKop fun x => { x with runAt := s.cycle + 1 } else s
        match stop, src with
        | some u, some a =>
          (s, .ok { c with taken := c.pieces.length, stop := some u,
                            moves := c.moves ++ movesOf at_ run (bs.take ((u - a) / c.geo.eb * c.geo.eb)) })
        | _, _ => (s, .ok { c with taken := c.taken + run.length, sent := c.sent.filter fun p => decide (c.taken < p.1),
                                    readAt := if c.geo.ss = 1 then c.readAt else s.cycle + 1,
                                    moves := c.moves ++ movesOf at_ run bs })

/-- Reads as many runs as the cycle gives: more than one only of those of global memory that have come (11 R238, R248). -/
def Copy.readAll : Nat → Copy → State → Moving
  | 0, c, s => (s, .ok c)
  | n + 1, c, s =>
    match c.readNext s with
    | (s, .ok c') => if c'.taken = c.taken then (s, .ok c') else Copy.readAll n c' s
    | r => r

/-- Writes each element of a piece as a store of its own (12 R257). -/
def Die.planeCopy (d : Die) (core place eb ca : Nat) (bs : List Byte) : Die :=
  (List.range (bs.length / eb)).foldl (fun d j =>
    d.planeStore core place (ca + j * eb) (((bs.drop (j * eb)).take eb).map some) none) d

/-- Writes a piece to global memory: as timed bursts, through an aperture, or in FREE mode; none while it waits (11 R238). -/
def Copy.putGlobal (c : Copy) (s : State) (a : Nat) (bs : List Byte) : Option (State × Bool) :=
  match c.placeAt s 1 a with
  | none => none
  | some q => match q.peer with
    | some pk =>
      if c.departed s bs.length 0 then
        some ({ s with peerOut := s.peerOut ++
          [{ core := s.actor, eng := .k, package := pk, addr := q.off, n := 0, data := bs, copy := some c.place }] }, true)
      else none
    | none =>
      if c.tag.isSome && s.timedRun q bs.length then some (s.askBursts (c.tag.getD 0) a q.off bs.length (some (bs.map some)), true)
      else if s.waits q.die q.tier q.off bs.length ||
          (decide (q.die ≠ s.myDie) && !c.departed s bs.length (20 + tMem q.tier)) then none
      else some (s.farWrite s.actor (q.at_ (w64 a)) bs q.mt)

/-- Cycles from a write's departure to its effect, and from there to the copy's knowing of it: none in the core, in a burst of a leg,
and in a slot, whose time `departed` gives (01 R23; 14 R302). -/
def Copy.writeTime (c : Copy) (s : State) (m : Move) : Nat × Nat :=
  match (if c.geo.ds = 1 then m.piece.dst.bind fun a => c.placeAt s 1 a else none) with
  | some q =>
    if q.peer.isSome || (c.tag.isSome && (s.timedRun q m.bytes.length || (decide (q.die ≠ s.myDie) && !c.slotless s))) then (0, 0)
    else (s.reachTime q, s.wayFrom s.myDie q.die none 0)
  | none => (0, 0)

/-- A side's piece lies in another die or package. -/
def Copy.away (c : Copy) (s : State) (a : Nat) : Bool :=
  c.geo.ds == 1 && (match c.placeAt s 1 a with | some q => q.peer.isSome || decide (q.die ≠ s.myDie) | none => false)

/-- Writes one piece; none while it waits, and false for an uncorrectable error (11 R228, R237). -/
def Copy.put (c : Copy) (s : State) (m : Move) : Option (State × Bool) :=
  match m.piece.dst with
  | none => some (s, true)
  | some a =>
    if c.behind s true a m.piece.n then none
    else match c.geo.ds with
    | 0 =>
      if s.me.portTaken (portsOf true a m.piece.n) || c.heldIn s.me then none
      else some (s.updMe fun k => ((k.padWrite a m.bytes).reclear).takePorts (portsOf true a m.piece.n), true)
    | 2 => if c.heldIn s.me then none else some (s.updMe fun k => k.slotWrite a m.bytes, true)
    | 3 => some (c.atCommons (s.updDie s.myDie fun d => d.planeCopy s.actor c.place c.geo.eb a m.bytes), true)
    | _ => c.putGlobal s a m.bytes

/-- The wait of a write is a breach, but not one for a slot of the ring that is still to come (11 R238). -/
def Copy.putWaits (c : Copy) (s : State) (m : Move) : State :=
  match m.piece.dst.bind fun a => (if c.geo.ds = 1 then c.placeAt s 1 a else none) with
  | some q =>
    let held := q.peer.isNone && s.waits q.die q.tier q.off m.piece.n
    let s := if held then c.keepWaiting s q m.piece.n else s
    if (q.peer.isSome || decide (q.die ≠ s.myDie)) && !held && !s.slotLate s.myDie (c.tag.getD 0) then s else c.waited s
  | none => if m.piece.dst.isSome then c.waited s else s

/-- A piece has been written: whether one is away, and the acknowledgement that a peer package owes. -/
def Copy.wrote (c : Copy) (s : State) (m : Move) : Copy :=
  let away := match m.piece.dst with | some a => c.away s a | none => false
  let peer := (m.piece.dst.bind fun a => (if c.geo.ds = 1 then c.placeAt s 1 a else none)).bind fun q => q.peer.map fun p => (p, q.off, m.piece.dst.getD 0)
  { c with begun := c.begun || m.piece.dst.isSome, lastAt := max c.lastAt (s.cycle + (c.writeTime s m).2)
           slotted := if away then dropBytes m.piece.n c.slotted else c.slotted, acks := c.acks ++ peer.toList }

/-- Writes the pieces that are due, in walk order (11 R232, R248). -/
def Copy.writeDue : List Move → Copy → State → Moving
  | [], c, s => (s, .ok { c with moves := [] })
  | m :: ms, c, s =>
    if s.cycle < m.at_ + (c.writeTime s m).1 then (s, .ok { c with moves := m :: ms })
    else match c.put s m with
      | none => (c.putWaits s m, .ok { c with moves := m :: ms })
      | some (s, false) => (s, .error (m.piece.dst.getD 0))
      | some (s, true) => Copy.writeDue ms (c.wrote s m) s

/-- Two pieces write a common byte. -/
def Move.overlaps (x y : Move) : Bool :=
  match x.piece.dst, y.piece.dst with
  | some a, some b => decide (a < b + y.piece.n) && decide (b < a + x.piece.n)
  | _, _ => false

/-- Writes one piece of global memory before those that stand in front of it: untimed pieces are performed in any order, but for those
that share a byte (11 R232, R236). -/
def Copy.writePick (p : Nat) (c : Copy) (s : State) : Moving :=
  match c.moves[p]? with
  | none => (s, .ok c)
  | some m =>
    if c.tag.isSome || c.geo.ds ≠ 1 || s.cycle < m.at_ + (c.writeTime s m).1 || (c.moves.take p).any m.overlaps then (s, .ok c)
    else match c.put s m with
      | none => (s, .ok c)
      | some (s, false) => (s, .error (m.piece.dst.getD 0))
      | some (s, true) => (s, .ok { c.wrote s m with moves := c.moves.eraseIdx p })

/-! ## Completion -/

/-- Timed write requests of a copy are still at the controller. -/
def State.copyReqs (s : State) (core tag : Nat) : Bool :=
  (s.die (core / 512)).timed.reqs.any fun r => decide (r.core = core) && decide (r.tag = tag) && r.write.isSome

/-- The acting core with the j-th copy replaced, or taken off the queue. -/
def State.setCopy (s : State) (j : Nat) (c : Option Copy) : State :=
  s.updKop fun x => { x with copies := match c with | some c => x.copies.set j c | none => x.copies.eraseIdx j }

/-- A copy that stops: its pins drop, and the K engine traps at its next word (11 R237). -/
def State.stopCopy (s : State) (j : Nat) (c : Copy) (cause : Cause) (v : Nat) : State :=
  ((s.unpinAll c.pins).setCopy j none).updMe fun k =>
    { k with reports := k.reports ++ [{ eng := .k, cause := cause, tval := w64 v, tpc := c.tpc }] }

/-- The counter of a copy waits for FREE mode or bring-up. -/
def Copy.counterWaits (c : Copy) (s : State) : Bool :=
  decide (128 ≤ c.geo.sig) && (match c.placeAt s 2 c.cnt.toNat with
    | some q => q.peer.isNone && s.waits q.die q.tier q.off 8
    | none => false)

/-- The counter add of a copy, at the counter's owning memory: an atomic access, against which no token stands (11 R240; 14 R294). -/
def Copy.addCounter (c : Copy) (s : State) : State × Bool :=
  if c.geo.sig < 128 then (s, true)
  else match c.placeAt s 2 c.cnt.toNat with
    | none => (s, true)
    | some q => match q.peer with
      | some pk => ({ s with peerOut := s.peerOut ++ [{ core := s.actor, eng := .k, package := pk, addr := q.off, n := 0
                                                        data := [], op := 0x8140, args := [c.inc] }] }, true)
      | none => match (s.uncached s.actor q.die c.cnt 8 true).read q.die q.tier q.off 8 with
        | (s, none) => (s, false)
        | (s, some bs) => s.write q.die q.tier q.off (leBytes ((leNat bs + c.inc.toNat) % 2 ^ 64) 8) q.klock

/-- Adds to a flag, which holds at its greatest value (11 R242, R243). -/
def Kop.addFlag (x : Kop) (n a : Nat) : Kop :=
  { x with flags := SMap.set 0 x.flags n (min (SMap.get 0 x.flags n + a) (2 ^ 32 - 1)) }

/-- The completion actions of the j-th copy: counter add, flag increment; its pins drop unless its follow-on command is
yet to start (11 R237, R242). -/
def State.finishCopy (s : State) (j : Nat) (c : Copy) : State × Bool :=
  let r := c.addCounter s
  let s := if c.geo.sig / 64 % 2 = 1 then r.1.updKop fun x => x.addFlag (c.geo.sig % 64) 1 else r.1
  if c.follow.isSome then (s.setCopy j (some { c with landed := true }), r.2)
  else ((s.unpinAll c.pins).setCopy j none, r.2)

/-- An uncorrectable error at an address in a copy, which goes no further (17 R363). -/
def State.copyInteg (s : State) (j : Nat) (c : Copy) (v : Nat) : State :=
  takeTrap (s.setCopy j (some { c with killed := true, landed := true, moves := [] })) 4 c.tpc .integ (w64 v)

/-- A store of a copy has been acknowledged, or refused (14 R286, R291; 17 R345). -/
def Copy.acked (c : Copy) (m : PeerMsg) (cycle : Nat) : Copy :=
  match c.acks.find? fun x => decide (x.1 = m.package) && decide (x.2.1 = m.addr) with
  | some x => { c with acks := c.acks.erase x, lastAt := max c.lastAt cycle, ended := c.ended.or (m.report.map fun e => (e, x.2.2)) }
  | none => c

/-- Takes the acknowledgements that peer packages have sent for a copy's stores (14 R291). -/
def Copy.takeAcks (c : Copy) (s : State) : State × Copy :=
  let ms := s.me.peerGot.filter fun m => m.stored && decide (m.copy = some c.place)
  (s.updMe fun k => { k with peerGot := k.peerGot.filter fun m => !ms.contains m }, ms.foldl (fun c m => c.acked m s.cycle) c)

/-- Every element of a copy has been written, in an earlier cycle (11 R237, R248). -/
def Copy.over (c : Copy) (s : State) : Bool :=
  decide (c.pieces.length ≤ c.taken) && c.moves.isEmpty && c.acks.isEmpty && decide (c.lastAt < s.cycle) &&
    !(match c.tag with | some t => s.copyReqs s.actor t | none => false)

/-- The copy is a killed task's: no completion action follows (11 R249). -/
def Copy.dead (c : Copy) (s : State) : Bool := c.killed || decide (s.me.run = .killing)

/-- The copy completes now (11 R237). -/
def Copy.due (c : Copy) (s : State) : Bool := !c.landed && c.over s && c.stop.isNone && !c.dead s && !c.counterWaits s

/-- What is left of a copy's cycle once it has written (11 R237, R248). -/
def State.copyReads (j : Nat) (c0 : Copy) (r : Moving) : State :=
  match r with
  | (s, .error v) => s.copyInteg j c0 v
  | (s, .ok c) => match (Copy.sendReads s c.pieces.length c).readAll c.pieces.length s with
    | (s, .error v) => s.copyInteg j c0 v
    | (s, .ok c) => s.setCopy j (some c)

/-- The cycle of a copy: it completes, or writes what is due, where `p` is not 0 its p-th piece alone, and reads its next run (11 R236,
R237, R238, R248, R249); one that waits for an owed command is held (06 R137). -/
def State.copyStep (s : State) (p place : Nat) : State :=
  match s.me.kop.copies.findIdx? fun c => decide (c.place = place) with
  | none => s
  | some j => match s.me.kop.copies[j]? with
    | none => s
    | some c =>
      if c.landed || c.tag.any (s.owedHeld s.actor) then s
      else match c.ended with
      | some (e, v) =>
        if c.dead s then s.setCopy j (some { c with killed := true, landed := true })
        else if e = .integ then s.copyInteg j c v else s.stopCopy j c e v
      | none =>
      if c.over s then
        match c.stop with
        | some u => if c.dead s then s.setCopy j (some { c with killed := true, landed := true }) else s.stopCopy j c .uninit u
        | none =>
          if c.dead s then s.setCopy j (some { c with killed := true, landed := true })
          else if c.counterWaits s then s
          else
            let r := s.finishCopy j c
            if r.2 then r.1 else r.1.copyInteg j c c.cnt.toNat
      else
        let r := c.takeAcks s
        State.copyReads j r.2 (if p = 0 then r.2.writeDue r.2.moves r.1 else r.2.writePick p r.1)

/-- In a cycle the accesses of the access engine come before those of the copy engine (06 R124). -/
def Core.copyTurn (k : Core) (cycle : Nat) : Bool :=
  decide (k.run ≠ .running) || k.halted ||
    (!k.due .c cycle && !k.due .a cycle &&
      (k.fenceOn 5 cycle || k.acquiring || !(k.streams.any fun p => p.2.active && decide (p.2.nextRun ≤ cycle))))

/-- The cycles of a copy are fixed: in a leg, and where it stays within the core's memories and the commons (11 R238, R248). -/
def Copy.fixed (c : Copy) : Bool := c.tag.isSome || (c.geo.ss != 1 && c.geo.ds != 1)

/-- COPY_COMPLETE (11 R236, R237, R238, R244, R248): one copy of the acting core has its cycle, after those before it whose cycles are
fixed; one whose last write stands completes. Of n copies the event names the (k mod n)-th, and by k / n the piece with which an
untimed one of global memory goes on, in whatever order that gives. -/
def execCopyComplete (k : Nat) (s : State) : Out :=
  let cs := s.me.kop.copies
  let j := k % cs.length
  match cs[j]? with
  | none => .next s
  | some c =>
    if s.me.copyTurn s.cycle || c.due s then
      .next (State.copyStep (((cs.take j).filter Copy.fixed).foldl (fun s x => s.copyStep 0 x.place) s) (k / cs.length) c.place)
    else .next s

/-- The array is free: no M word occupies it (11 R246). -/
def Core.arrayFree (k : Core) (cycle : Nat) : Bool := decide (k.mat.arrayAt ≤ cycle)

/-- FOLLOW_ON_START (11 R246): the follow-on command of the acting core's oldest landed copy starts once every M word
before the copy on the path has issued and the array is free. -/
def execFollowOnStart (s : State) : Out :=
  match s.me.kop.copies.findIdx? fun c => c.landed && !c.dead s with
  | none => .next s
  | some j =>
    match s.me.kop.copies[j]? with
    | none => .next s
    | some c =>
      match c.follow with
      | none => .next ((s.unpinAll c.pins).setCopy j none)
      | some f =>
        if !(s.me.coming .m c.place).isEmpty || !s.me.arrayFree s.cycle then .next s
        else
          let done := (s.unpinAll c.pins).setCopy j none
          match followWord (w64 f.w) with
          | none => .next done
          | some (tern, code, tile) =>
            match s.me.mma tern code tile f.a f.rm f.cm f.dm with
            | .error (e, v) => .next (s.stopCopy j c e v.toNat)
            | .ok r =>
              .next (((done.stickIf r.2 0).updMat fun _ => r.1.began tern code tile s.cycle true).updMe fun k =>
                let due := (k.en .m).active && decide ((k.en .m).nextIssue ≤ s.cycle)
                let k := if due then k.breachIn .m 1 s.cycle else k
                k.updEn .m fun x => { x with nextIssue := max x.nextIssue (s.cycle + 1) })

/-! ## Waits -/

/-- A read of a K.CWAIT departs for its counter (11 R241). -/
def pollStart (va : W64) (s : State) : Res :=
  withPlace s va 8 true false fun p s =>
    let way := match p.peer with | some _ => 0 | none => s.wayFrom s.myDie p.die none 0
    let effect := match p.peer with | some _ => s.cycle | none => s.cycle + s.reachTime p
    .hold (s.updKop fun x => { x with poll := some { effect := effect, back := effect + way } })

/-- A read of a K.CWAIT that has come back: the engine goes on where the counter has reached the target, and else reads again from the
next cycle on (11 R241). -/
def pollEnd (target v : W64) (s : State) : Res :=
  let s := s.updKop fun x => { x with poll := none }
  if target.toNat ≤ v.toNat then .ok s else .hold s

/-- K.CWAIT once more (11 R241): the engine goes on when a read of the counter that has returned has reached the target. -/
def cwaitBody (s : State) : Res :=
  if s.me.leg.timed then .fail .ill 0
  else popping .k 2 0 (fun vs s =>
    match s.me.kop.poll with
    | none => pollStart (vs.getD 1 0) s
    | some p =>
      match p.got with
      | some v => if s.cycle < p.back then .hold s else pollEnd (vs.getD 0 0) v s
      | none =>
        if s.cycle < p.effect then .hold s
        else loadBytes .k (vs.getD 1 0) 8 0 (fun bs s =>
          let v := w64 (leNat bs)
          if s.cycle < p.back then .hold (s.updKop fun x => { x with poll := some { p with got := some v } })
          else pollEnd (vs.getD 0 0) v s) s) s

/-- K.CWAIT (11 R241). -/
def execKCwait (x : BitVec 3) (s : State) : Out := issue .k (.kCwait x) 1 cwaitBody s

/-- CWAIT_SATISFIED (11 R241): the K.CWAIT at which the acting core's K engine stands completes. -/
def execCwaitSatisfied (s : State) : Out :=
  match engineTurn s .k with
  | .run (.kCwait x) t => match cwaitBody t with
    | .ok _ => execKCwait x t
    | _ => .next s
  | _ => .next s

/-- Bits of a K.FLAG command word (11 R243). -/
def flagOp (v : W64) : Nat := bits v 62 2
def flagAmount (v : W64) : Nat := bits v 0 32

/-- K.FLAG (11 R243). -/
def flagBody (n : Nat) (s : State) : Res :=
  match s.stack .k with
  | [] => .fail .stk 0
  | v :: _ =>
    let a := flagAmount v
    let fl := SMap.get 0 s.me.kop.flags n
    let set := fun x (s : State) => s.updKop fun y => { y with flags := SMap.set 0 y.flags n x }
    if bits v 32 30 ≠ 0 then .fail .ill 0
    else match flagOp v with
      | 0 =>
        if s.me.leg.timed then .fail .ill 0
        else if a ≤ fl then popping .k 1 0 (fun _ s => .ok (set (fl - a) s)) s else .hold s
      | 1 => popping .k 1 0 (fun _ s => .ok (s.updKop fun x => x.addFlag n a)) s
      | 2 => if a ≠ 0 then .fail .ill 0 else popping .k 1 1 (fun _ s => .ok (pushing .k [w64 fl] s)) s
      | _ => popping .k 1 0 (fun _ s => .ok (set a s)) s

/-- Some copy of the acting core completes in this cycle and has yet to: its increment comes before a K.FLAG (11 R242). -/
def State.flagDue (s : State) : Bool := s.me.kop.copies.any fun c => decide (c.geo.sig / 64 % 2 = 1) && c.due s

/-- K.FLAG (11 R243). -/
def execKFlag (n : BitVec 6) (s : State) : Out :=
  if s.flagDue then .next s else issue .k (.kFlag n) 1 (flagBody n.toNat) s

/-- FLAG_WAIT_SATISFIED (11 R243): the K.FLAG wait at which the acting core's K engine stands succeeds. -/
def execFlagWaitSatisfied (s : State) : Out :=
  match engineTurn s .k with
  | .run (.kFlag n) t => match flagBody n.toNat t with
    | .ok _ => execKFlag n t
    | _ => .next s
  | _ => .next s

/-! ## Pins -/

/-- Addresses, one of each page that overlaps a run, given how far a page at an address reaches. -/
def pinWalk (s : State) (stop : Nat) : Nat → Nat → List CopyPage → Pages
  | 0, _, ps => .ok ps s
  | fuel + 1, a, ps =>
    if stop ≤ a then .ok ps s
    else match collectPages .k s [(0, a)] ps with
      | .ok ps s => match pageFor ps 0 (w64 a) with
        | some p => pinWalk s stop fuel ((a / pageSize p.entry.size + 1) * pageSize p.entry.size) ps
        | none => .ok ps s
      | r => r

/-- K.PIN in either form (11 R247). -/
def pinBody (release : Bool) (s : State) : Res :=
  if s.me.leg.timed then .fail .ill 0
  else popping .k 2 0 (fun vs s =>
    let va := (vs.getD 1 0).toNat
    let n := (vs.getD 0 0).toNat
    if n < 1 ∨ 2 ^ 40 < n then .fail .ill 0
    else match pinWalk s (va + n) (n / 4096 + 2) va s.me.kop.walked with
      | .wait ps s => .wait (s.keepPages ps)
      | .fail c a => .fail c (w64 a)
      | .ok ps s =>
        let keys := s.pinsOf ps
        let kept := s
        let s := s.updMe fun k => k.havePages .k
        if release then
          if keys.all fun x => s.me.kop.pins.contains x then
            .ok ((s.unpinAll keys).updKop fun x => { x with pins := keys.foldl (fun l y => l.erase y) x.pins })
          else .fail .ill 0
        else if tooManyPins keys then .fail .ill 0
        else match s.pinAll keys with
          | none => .wait (kept.keepPages ps)
          | some s => .ok (s.updKop fun x => { x with pins := x.pins ++ keys })) s

/-- Pages a K.PIN covers, for its distance (11 R248). -/
def pinTime (s : State) : Nat :=
  let va := ((s.stack .k).getD 1 0).toNat
  let n := ((s.stack .k).getD 0 0).toNat
  match pinWalk s (va + n) (n / 4096 + 2) va s.me.kop.walked with
  | .ok ps _ => 1 + ps.length
  | _ => 1

/-- K.PIN (11 R247). -/
def execKPin (s : State) : Out := issueN .k .kPin pinTime (pinBody false) s

/-- K.PIN release (11 R247). -/
def execKPinRelease (s : State) : Out := issueN .k .kPinRelease pinTime (pinBody true) s

end Sys2Proof.Machine
end

