-- ==== Sys2Proof/Machine/Sketch.lean ====
section
/-! DEFINITION. Count sketches at their home Wallower (13 R265-R272). -/

namespace Sys2Proof.Machine

/-! ## The hash -/

/-- The finaliser of R8. -/
def mix (z : W64) : W64 :=
  let a := (z ^^^ (z >>> (30 : Nat))) * 0xBF58476D1CE4E5B9
  let b := (a ^^^ (a >>> (27 : Nat))) * 0x94D049BB133111EB
  b ^^^ (b >>> (31 : Nat))

/-- γ (13 R267). -/
abbrev gammaW : W64 := 0x9E3779B97F4A7C15

/-- A(r) and B(r) (13 R267). -/
def hashA (seed : W64) (r : Nat) : W64 := mix (seed + w64 (r + 1) * gammaW) ||| 1
def hashB (seed : W64) (r : Nat) : W64 := mix ((seed ^^^ 0xD6E8FEB86659FD93) + w64 (r + 1) * gammaW) ||| 1

/-- bucket(r, key) of rows of 2^w counters (13 R267). -/
def bucketOf (seed : W64) (w r : Nat) (key : W64) : Nat := (key * hashA seed r).toNat / 2 ^ (64 - w)

/-- sgn(r, key) (13 R267). -/
def signOf (seed : W64) (r : Nat) (key : W64) : Int := if (key * hashB seed r).getLsbD 63 then -1 else 1

/-! ## Headers -/

/-- The fields of a header (13 R265). -/
structure Sk where
  sk : W64
  d : Nat
  w : Nat
  /-- Bytes of a counter. -/
  cb : Nat
  clamp : Bool
  scale : Int
  seed : W64
  count : Nat
  sticky : Nat
  deriving DecidableEq, Repr

/-- SAT and OVF. -/
def Sk.ovf (h : Sk) : Bool := h.sticky / 2 % 2 == 1
def Sk.stickSat (h : Sk) (b : Bool) : Sk := if b then { h with sticky := h.sticky ||| 1 } else h
def Sk.stickOvf (h : Sk) : Sk := { h with sticky := h.sticky ||| 2 }

/-- Bytes of a sketch (13 R265). -/
def Sk.span (h : Sk) : Nat := 64 + h.d * 2 ^ h.w * h.cb

/-- The header of 64 bytes, when its own fields pass R266. -/
def skOf (sk : W64) (bs : List Byte) : Option Sk :=
  let b := fun i => (bs.getD i 0).toNat
  let fl := b 6
  if leNat (bs.take 4) ≠ 0x534B5431 ∨ 16 ≤ b 4 ∨ b 4 % 2 = 0 ∨ b 5 < 10 ∨ 26 < b 5 ∨ 4 ≤ fl ∨ 4 ≤ b 24
      ∨ ((bs.drop 25).any fun x => x != 0) then none
  else some { sk := sk, d := b 4, w := b 5, cb := if fl % 2 = 1 then 8 else 4, clamp := fl / 2 % 2 == 1
              scale := signedOf 8 (b 7), seed := w64 (leNat ((bs.drop 8).take 8)), count := leNat ((bs.drop 16).take 8)
              sticky := b 24 }

/-- Bytes 16 to 24 of a header: COUNT and STICKY. -/
def Sk.tail (h : Sk) : List Byte := leBytes h.count 8 ++ [BitVec.ofNat 8 h.sticky]

/-- Address of a counter (13 R265). -/
def Sk.addr (h : Sk) (r b : Nat) : W64 := h.sk + w64 (64 + (r * 2 ^ h.w + b) * h.cb)

/-! ## Counter arithmetic -/

/-- quant(v, H), with whether SAT is set (13 R268). -/
def quant (v : Val) (h : Sk) : Int × Bool :=
  match v with
  | .nan => (0, true)
  | .inf neg => (if neg then -32768 else 32767, true)
  | .fin s n d =>
    let x := Val.scale (.fin s n d) (-h.scale)
    match x with
    | .fin s n d =>
      let q := signedNum s (roundDiv .rne s n d)
      if 32767 < q then (32767, true) else if q < -32768 then (-32768, true) else (q, false)
    | _ => (0, true)

/-- lim(H) (13 R268). -/
def Sk.lim (h : Sk) : Int := if h.cb = 4 then 2 ^ 31 - 1 else 2 ^ 63 - 1

/-- cadd(a, b, H) (13 R268): none for OVERFLOW. -/
def cadd (a b : Int) (h : Sk) : Option (Int × Bool) :=
  let n := a + b
  if n.natAbs ≤ h.lim.natAbs then some (n, false)
  else if h.clamp then some (if n < 0 then -h.lim else h.lim, true)
  else none

/-! ## Operations -/

/-- What a sketch operation comes to. -/
inductive SkOut (α : Type) where
  | ok (a : α) (s : State)
  | wait (s : State)
  | fail (c : Cause) (va : W64) (s : State)
  deriving DecidableEq, Repr

/-- Continues with the bytes of an access to the sketch, every token of the region revoked: an absent page is reported as #XLAT
(13 R266; 14 R294). -/
def skRead {α : Type} (s : State) (die space : Nat) (va : W64) (n : Nat) (f : List Byte → State → SkOut α) : SkOut α :=
  match ownerXlat s die space va true false with
  | .absent _ => .fail .xlat va s
  | .fail c s => .fail c va s
  | .at_ p s =>
    if s.waits p.die p.tier p.off n then .wait s
    else match (s.revokeFor (s.package, die) die space va n true).read p.die p.tier p.off n with
      | (s, some bs) => f bs s
      | (s, none) => .fail .integ va s

/-- Writes bytes of the sketch. -/
def skWrite {α : Type} (s : State) (die space : Nat) (va : W64) (bs : List Byte) (f : State → SkOut α) : SkOut α :=
  match ownerXlat s die space va false true with
  | .absent _ => .fail .xlat va s
  | .fail c s => .fail c va s
  | .at_ p s =>
    if s.waits p.die p.tier p.off bs.length then .wait s
    else match (s.revokeFor (s.package, die) die space va bs.length true).write p.die p.tier p.off bs p.klock with
      | (s, true) => f s
      | (s, false) => .fail .integ va s

/-- Every page of a run that is present lies in one tier of the die (13 R265, R266). -/
def oneTier (d : Die) (space tier : Nat) (stop : Nat) : Nat → Nat → Bool
  | 0, _ => true
  | fuel + 1, a =>
    if stop ≤ a then true
    else match d.walk space (w64 a) with
      | .leaf x => !pteAp x && pteTier x == tier && oneTier d space tier stop fuel ((a / pageSize (pteSize x) + 1) * pageSize (pteSize x))
      | _ => oneTier d space tier stop fuel ((a / 4096 + 1) * 4096)

/-- Reads a header and applies R266; `write` when the operation would write the sketch. -/
def withHeader {α : Type} (s : State) (die space : Nat) (sk : W64) (write : Bool) (f : Sk → State → SkOut α) : SkOut α :=
  skRead s die space sk 64 fun bs s =>
    match skOf sk bs with
    | none => .fail .sketch sk s
    | some h =>
      let tier := match ownerXlat s die space sk true false with | .at_ p _ => p.tier | _ => 0
      let stop := sk.toNat + h.span
      if (stop - 1) / 2 ^ 55 ≠ sk.toNat / 2 ^ 55 ∨ !oneTier (s.die die) space tier stop (h.span / 4096 + 2) sk.toNat then
        .fail .sketch sk s
      else if write && !h.clamp && h.ovf then .fail .sketch sk s
      else f h s

/-- Reads a list of counters by (row, bucket). -/
def readCounters {α : Type} (die space : Nat) (h : Sk) : List (Nat × Nat) → List Int → State →
    (List Int → State → SkOut α) → SkOut α
  | [], acc, s, f => f acc s
  | (r, b) :: rest, acc, s, f =>
    skRead s die space (h.addr r b) h.cb fun bs s =>
      readCounters die space h rest (acc ++ [signedOf (8 * h.cb) (leNat bs)]) s f

/-- Writes a list of counters. -/
def writeCounters {α : Type} (die space : Nat) (h : Sk) : List ((Nat × Nat) × Int) → State → (State → SkOut α) → SkOut α
  | [], s, f => f s
  | ((r, b), v) :: rest, s, f =>
    skWrite s die space (h.addr r b) (leBytes (v % 2 ^ (8 * h.cb)).toNat h.cb) fun s =>
      writeCounters die space h rest s f

/-- Writes COUNT and STICKY of a header. -/
def putTail {α : Type} (die space : Nat) (h : Sk) (s : State) (f : State → SkOut α) : SkOut α :=
  skWrite s die space (h.sk + 16) h.tail f

/-- The d counters of a key. -/
def Sk.cells (h : Sk) (key : W64) : List (Nat × Nat) := (List.range h.d).map fun r => (r, bucketOf h.seed h.w r key)

/-- The counters of a key after an update by `q`, with SAT; none for OVERFLOW (13 R270). -/
def bumpAll (h : Sk) (key : W64) (q : Int) (xs : List Int) : Option (List Int × Bool) :=
  (xs.mapIdx fun r x => (r, x)).foldl (fun acc p => match acc with
    | none => none
    | some (ys, sat) => (cadd p.2 (signOf h.seed p.1 key * q) h).map fun n => (ys ++ [n.1], sat || n.2)) (some ([], false))

/-- F.SKUP of one key (13 R270). -/
def skup (s : State) (die space : Nat) (sk key : W64) (v : Val) : SkOut Unit :=
  withHeader s die space sk true fun h s =>
    let q := quant v h
    let h := h.stickSat q.2
    readCounters die space h (h.cells key) [] s fun xs s =>
      match bumpAll h key q.1 xs with
      | none => putTail die space h.stickOvf s fun s => .fail .sketch sk s
      | some (ys, sat) =>
        writeCounters die space h ((h.cells key).zip ys) s fun s =>
          putTail die space { h.stickSat sat with count := (h.count + 1) % 2 ^ 64 } s fun s => .ok () s

/-- The value at place `k` of a list in rising order: the one with at most `k` smaller and more than `k` not greater. -/
def nthSmallest (xs : List Int) (k : Nat) : Int :=
  (xs.find? fun x => decide ((xs.filter fun y => decide (y < x)).length ≤ k) &&
    decide (k < (xs.filter fun y => decide (y ≤ x)).length)).getD 0

/-- The median of the signed counters of a key (13 R271). -/
def estimate (h : Sk) (key : W64) (xs : List Int) : Int :=
  nthSmallest (xs.mapIdx fun r x => signOf h.seed r key * x) (h.d / 2)

/-- The result of a query: FP32 bits, or the median as INT64 (13 R271). -/
def estimateBits (int : Bool) (h : Sk) (m : Int) : Nat :=
  if int then (m % 2 ^ 64).toNat else (round (Val.scale (Val.ofInt m) h.scale) 1 .rne).1

/-- F.SKQ of one key (13 R271), over the counters with the querying core's own logged updates added (13 R275). -/
def skq (s : State) (die space : Nat) (sk key : W64) (int : Bool) (own : List (W64 × Val)) : SkOut Nat :=
  withHeader s die space sk false fun h s =>
    readCounters die space h (h.cells key) [] s fun xs s =>
      let ys := own.foldl (fun (xs : List Int) u =>
        let q := (quant u.2 h).1
        let n := (List.range h.d).map fun r =>
          if bucketOf h.seed h.w r u.1 = bucketOf h.seed h.w r key then
            cadd (xs.getD r 0) (signOf h.seed r u.1 * q) h
          else some (xs.getD r 0, false)
        if n.all (·.isSome) then n.map fun x => (x.getD (0, false)).1 else xs) xs
      .ok (estimateBits int h (estimate h key ys)) s

/-- Where the sketch that F.SKADD adds lies: in a die of the package, or, its bytes having come, in a peer package. -/
inductive SkSrc where
  | mem (die space : Nat)
  | come (bs : List Byte)
  deriving DecidableEq, Repr

/-- A counter of the sketch that is added. -/
def SkSrc.counter {α : Type} (x : SkSrc) (h : Sk) (r b : Nat) (s : State) (f : Int → State → SkOut α) : SkOut α :=
  match x with
  | .mem die space => readCounters die space h [(r, b)] [] s fun ys s => f (ys.getD 0 0) s
  | .come bs => f (signedOf (8 * h.cb) (leNat ((bs.drop (64 + (r * 2 ^ h.w + b) * h.cb)).take h.cb))) s

/-- The header of the sketch that is added (13 R266). -/
def SkSrc.header {α : Type} (x : SkSrc) (sk : W64) (s : State) (f : Sk → State → SkOut α) : SkOut α :=
  match x with
  | .mem die space => withHeader s die space sk false f
  | .come bs => match skOf sk (bs.take 64) with
    | none => .fail .sketch sk s
    | some h => f h s

/-- Adds counters one by one; stops before the first that overflows (13 R272). -/
def addCounters (die space : Nat) (from_ : SkSrc) (hd hs : Sk) : Nat → Nat → Bool → State → SkOut (Option Bool)
  | 0, _, sat, s => .ok (some sat) s
  | m + 1, i, sat, s =>
    let r := i / 2 ^ hd.w
    let b := i % 2 ^ hd.w
    match from_.counter hs r b s fun y s =>
        readCounters die space hd [(r, b)] [] s fun xs s => .ok (xs.getD 0 0, y) s with
    | .wait s => .wait s
    | .fail c v s => .fail c v s
    | .ok (x, y) s =>
      match cadd x y hd with
      | none => .ok none s
      | some (n, c) =>
        match writeCounters die space hd [((r, b), n)] s fun s => SkOut.ok () s with
        | .wait s => .wait s
        | .fail c v s => .fail c v s
        | .ok _ s => addCounters die space from_ hd hs m (i + 1) (sat || c) s

/-- F.SKADD (13 R272). -/
def skadd (s : State) (die space : Nat) (dst src : W64) (from_ : SkSrc) : SkOut Unit :=
  withHeader s die space dst true fun hd s =>
    from_.header src s fun hs s =>
      let here := match from_ with | .mem _ _ => true | .come _ => false
      let meet := here && decide (dst.toNat < src.toNat + hs.span) && decide (src.toNat < dst.toNat + hd.span)
      if hd.d ≠ hs.d ∨ hd.w ≠ hs.w ∨ hd.cb ≠ hs.cb ∨ hd.seed ≠ hs.seed ∨ hd.scale ≠ hs.scale ∨ ((dst ≠ src ∨ !here) ∧ meet) then
        .fail .sketch dst s
      else match addCounters die space from_ hd hs (hd.d * 2 ^ hd.w) 0 false s with
        | .wait s => .wait s
        | .fail c v s => .fail c v s
        | .ok none s => putTail die space hd.stickOvf s fun s => .fail .sketch dst s
        | .ok (some sat) s =>
          putTail die space
            { hd with count := (hd.count + hs.count) % 2 ^ 64
                      sticky := hd.sticky ||| hs.sticky ||| (if sat then 1 else 0) } s fun s => .ok () s

end Sys2Proof.Machine
end

