-- ==== Sys2Proof/Machine/Collective.lean ====
section
/-! DEFINITION. Layout registers, F.COLL, and the exchange engines (15 R304-R318). -/

namespace Sys2Proof.Machine

/-! ## F.LAYOUT -/

/-- A field's value keeps the limits the field alone decides (15 R305). -/
def layoutFieldOk (i : Nat) (v : W64) : Bool :=
  match i with
  | 0 => bits v 22 42 == 0 && bits v 14 2 != 3 && decide (bits v 0 5 < 16)
  | 2 => bits v 0 2 == 0
  | 4 => bits v 32 32 == 0
  | 1 | 3 => true
  | _ => bits v 35 29 == 0 && decide (bits v 32 3 ≤ 4)

/-- F.LAYOUT (15 R305). -/
def execFLayout (n : BitVec 2) (f : BitVec 4) (s : State) : Out :=
  issue .f (.fLayout n f) 1 (popping .f 1 0 fun vs s =>
    let v := vs.getD 0 0
    if layoutFieldOk f.toNat v then
      .ok (s.updMe fun k => { k with layouts := SMap.set 0 k.layouts (16 * n.toNat + f.toNat) v })
    else .fail .ill 0) s

/-- The thirteen fields of a layout register. -/
def Core.layout (k : Core) (n : Nat) : Layout := (List.range 13).map fun i => SMap.get 0 k.layouts (16 * n + i)

/-! ## The checks of F.COLL -/

namespace Layout

/-- Every mesh extent keeps its limit, and the ranks are at most 2^22 (15 R305, R307). -/
def meshOk (l : Layout) : Bool :=
  ((List.range 4).all fun a => if a < l.axes then bits (l.fld 1) (16 * a) 16 != 0 else bits (l.fld 1) (16 * a) 16 == 0)
    && decide (l.ranks ≤ 2 ^ 22)

/-- N keeps its limit where it counts. -/
def npartOk (l : Layout) : Bool := l.psum == 0 || (decide (1 ≤ l.npart) && decide (l.npart < 2 ^ 32))

/-- Least power of two that is at least `n`. -/
def ceilPow (n : Nat) : Nat := ((List.range 33).map fun i => 2 ^ i).find? (fun p => decide (n ≤ p)) |>.getD (2 ^ 33)

/-- The granule and the axes of the partial sums fit N. -/
def granOk (l : Layout) : Bool :=
  l.psum == 0 || !l.npartOk || !l.meshOk ||
    (decide (l.gran ≤ ceilPow l.npart) && l.npart % l.gran == 0 && l.granules % l.psumSize == 0)

/-- The head on its own (15 R307, check 2). -/
def headOk (l : Layout) : Bool :=
  decide (l.fmt < 16) && l.space != 3 && l.psum / 2 ^ l.axes == 0 && (!l.sk || l.fmt == 8 || l.fmt == 9) && l.granOk

/-- A dimension below RANK: its extent, its axis, and that no lower dimension takes that axis. -/
def dimOk (l : Layout) (d : Nat) : Bool :=
  let a := l.shard d
  l.extent d != 0 && decide (((List.range (d + 1)).map l.extent).prod ≤ 2 ^ 40) &&
    (a == 0 || (((List.range d).all fun e => l.shard e != a) && l.psum / 2 ^ (a - 1) % 2 == 0
      && l.extent d % l.mesh (a - 1) == 0))

/-- The first failing field of a layout on its own (15 R307, check 2). -/
def ownBad (l : Layout) : Option Nat :=
  (List.range 13).find? fun i =>
    match i with
    | 0 => !l.headOk
    | 1 => !l.meshOk
    | 4 => !l.npartOk
    | 2 | 3 => false
    | _ => decide (l.axes < l.shard (i - 5)) || (decide (i - 5 < l.rank) && !l.dimOk (i - 5))

/-- Formats a reducing pair may have. -/
def reduces (f : Nat) : Bool := ([0, 1, 2, 3, 8, 9, 14] : List Nat).contains f

/-- The first field in which the destination does not fit the source (15 R307, check 3). -/
def pairBad (s d : Layout) : Option Nat :=
  let kept := d.psum == s.psum
  (List.range 13).find? fun i =>
    match i with
    | 0 => s.rank != d.rank || s.axes != d.axes || s.fmt != d.fmt || s.sk != d.sk || (d.psum != 0 && !kept)
            || (kept && s.gran != d.gran)
            || (if s.psum != 0 && !kept then !(reduces s.fmt || s.sk) else s.fmt == 13)
    | 1 | 2 => s.fld i != d.fld i
    | 3 => false
    | 4 => kept && s.npart != d.npart
    | _ => decide (i - 5 < d.rank) && s.extent (i - 5) != d.extent (i - 5)

/-- Tiles of the source shard (15 R314). -/
def tiles (l : Layout) : Nat := ((l.localExt 0 + 15) / 16) * ((l.localExt 1 + 15) / 16)

/-- The conditions of the epilogue form (15 R314). -/
def epiOk (l : Layout) : Bool := l.rank == 2 && l.held == 1 && decide (l.tiles ≤ 256)

/-- Alignment of a base. -/
def align (l : Layout) : Nat := if l.sk then 64 else l.eb

/-- The first address of a buffer that its space does not have (11 R228). -/
def outside (l : Layout) : Option Nat :=
  let lim := if l.space = 0 then padSize else if l.space = 2 then 0x20000 else 2 ^ 58
  let a := l.base.toNat
  if a + l.bufBytes ≤ lim then none else some (max a lim)

/-- The slots of a buffer. -/
def slots (l : Layout) : List Nat :=
  if l.space = 2 then (List.range ((l.base.toNat + l.bufBytes - 1) / 512 - l.base.toNat / 512 + 1)).map (l.base.toNat / 512 + ·)
  else []

end Layout

/-- Entry `j` of a rank table on, as (package, index) (15 R306, R307 check 4). -/
def readRanks (tab : W64) : Nat → Nat → List (Nat × Nat) → State → (List (Nat × Nat) → State → Res) → Res
  | 0, _, acc, s, f => f acc s
  | n + 1, j, acc, s, f =>
    match fetchSpan 0 .f (tab + w64 (4 * j)) 4 4 0 s with
    | .ok bs s => readRanks tab n (j + 1) (acc ++ [(leNat bs / 2 ^ 22 % 2 ^ 10, leNat bs % 2 ^ 12)]) s f
    | .wait s => .wait s
    | .fail c v _ => .fail c v

/-- Translates the pages of a run of addresses, to before `stop` (15 R307 check 6, 11 R235). -/
def spanPages (side stop : Nat) : Nat → Nat → List CopyPage → State → Pages
  | 0, _, ps, s => .ok ps s
  | n + 1, a, ps, s =>
    if stop ≤ a then .ok ps s
    else match collectPages .f s [(side, a)] ps with
      | .ok ps s => match pageFor ps side (w64 a) with
        | some p => spanPages side stop n ((a / pageSize p.entry.size + 1) * pageSize p.entry.size) ps s
        | none => .wait ps s
      | r => r

/-- The first address of the source buffer, else of the destination buffer, that its space does not have; and the lowest bad slot
of both: the source plays no part in the epilogue form (15 R307, check 6; 09 R199). -/
def buffersOutside (e : Bool) (src dst : Layout) : Option Nat := (if e then none else src.outside).orElse fun _ => dst.outside
def Core.buffersSlot (k : Core) (e : Bool) (src dst : Layout) : Option Nat :=
  ((if e then [] else src.slots.filter fun x => decide (k.claim x = 0)) ++
    (dst.slots.filter fun x => decide (k.claim x ≠ 1))).min?

/-- The pages of one buffer. -/
def bufferPages (l : Layout) (side : Nat) (s : State) (ps : List CopyPage) : Pages :=
  if l.space ≠ 1 then .ok ps s
  else spanPages side (l.base.toNat + l.bufBytes) (l.bufBytes / 4096 + 2) l.base.toNat ps s

/-- The pages of both buffers. -/
def buffersPages (e : Bool) (src dst : Layout) (s : State) (ps : List CopyPage) : Pages :=
  match if e then Pages.ok ps s else bufferPages src 0 s ps with
  | .ok ps s => bufferPages dst 1 s ps
  | r => r

/-- Keeps the pages a pending F.COLL has translated while it waits for more. -/
def State.keepCollPages (s : State) (ps : List CopyPage) : State := s.updMe fun k => { k with collPages := ps }

/-- The two buffers overlap. -/
def buffersMeet (a b : Layout) : Bool :=
  a.space == b.space && decide (a.base.toNat < b.base.toNat + b.bufBytes) && decide (b.base.toNat < a.base.toNat + a.bufBytes)

/-- Files a collective, its pages pinned (15 R307, R311, R316). -/
def State.addColl (s : State) (c : Coll) : State :=
  s.updMe fun k =>
    let tab := (Layout.ranktab c.src).toNat
    let n := SMap.get 0 k.collSeq tab
    { k with
      colls := k.colls ++ [{ c with ord := n, tag := if k.leg.timed then some (k.leg.colls % 64) else none }]
      collSeq := SMap.set 0 k.collSeq tab (n + 1)
      leg := if k.leg.timed then { k.leg with colls := k.leg.colls + 1 } else k.leg }

/-- F.COLL (15 R307). -/
def collBody (e : BitVec 1) (dl sl : BitVec 2) (s : State) : Res :=
  popping .f 1 0 (fun vs s =>
    let cs := vs.getD 0 0
    let src := s.me.layout sl.toNat
    let dst := s.me.layout dl.toNat
    let ill := fun (l i : Nat) => Res.fail .ill (w64 (16 * l + i))
    match Layout.ownBad src, Layout.ownBad dst, Layout.pairBad src dst with
    | some i, _, _ => ill sl.toNat i
    | none, some i, _ => ill dl.toNat i
    | none, none, some i => ill dl.toNat i
    | none, none, none =>
      if e = 1 ∧ !Layout.epiOk src then ill sl.toNat 0
      else readRanks (Layout.ranktab src) (Layout.ranks src) 0 [] s fun ranks s =>
        let mine := (s.package % 2 ^ 10, s.actor)
        if (ranks.filter (· == mine)).length ≠ 1 then ill sl.toNat 2
        else if cs.toNat % 8 ≠ 0 then .fail .align cs
        else if (Layout.base src).toNat % Layout.align src ≠ 0 then .fail .align (Layout.base src)
        else if (Layout.base dst).toNat % Layout.align dst ≠ 0 then .fail .align (Layout.base dst)
        else
          match buffersOutside (e == 1) src dst, s.me.buffersSlot (e == 1) src dst with
          | some a, _ => .fail .xlat (w64 a)
          | none, some x => .fail .slot (w64 x)
          | none, none => match buffersPages (e == 1) src dst s s.me.collPages with
            | .wait ps s => .wait (s.keepCollPages ps)
            | .fail c a => .fail c (w64 a)
            | .ok ps s =>
              if e = 0 ∧ buffersMeet src dst then ill dl.toNat 3
              else match locate s cs 8 false true with
                | .wait s => .wait (s.keepCollPages ps)
                | .fail c _ => .fail c cs
                | .at_ p s => match collectPages .f s [(3, cs.toNat)] ps with
                  | .wait ps s => .wait (s.keepCollPages ps)
                  | .fail c a => .fail c (w64 a)
                  | .ok ps s =>
                    let pins := s.pinsOf ps
                    if tooManyPins pins then .fail .ill 0
                    else match s.pinAll pins with
                      | none => .wait (s.keepCollPages ps)
                      | some s => .ok ((s.updMe fun k => (k.havePages .f).dropLoads .f 0).addColl
                          { src := src, dst := dst, epi := e == 1, cs := cs, csDie := p.die, csTier := p.tier, csOff := p.off
                            csKlock := p.klock, csPeer := p.peer, ranks := ranks, me := (ranks.findIdx? (· == mine)).getD 0
                            ord := 0, tag := none, place := s.me.here .f, pins := pins
                            reads := if e = 1 then [] else Layout.slots src, writes := Layout.slots dst
                            pages := ps, task := s.me.task })) s

/-- F.COLL (15 R307). -/
def execFColl (e : BitVec 1) (d sl : BitVec 2) (s : State) : Out := issue .f (.fColl e d sl) 1 (collBody e d sl) s

/-! ## The exchange -/

/-- What the ranks compare: every field but base and SPACE, and E (15 R311). -/
def Coll.digest (c : Coll) : List W64 × List W64 × Bool :=
  let of := fun (l : List W64) => (l.set 3 0).set 0 (setBits (l.getD 0 0) 14 2 0)
  (of c.src, of c.dst, c.epi)

/-- A collective's partner at a rank of the package: the core's number and its collective's place in its list. -/
def State.partner (s : State) (c : Coll) (r : Nat × Nat) : Option (Nat × Nat) :=
  ((s.core r.2).colls.findIdx? fun x => c.pairs x).map fun j => (r.2, j)

/-- All of a list of optional values, or none. -/
def allSome {α : Type} : List (Option α) → Option (List α)
  | [] => some []
  | none :: _ => none
  | some x :: xs => (allSome xs).map (x :: ·)

/-- Every element of the outgoing transfers of an epilogue-form collective has been delivered (15 R315). -/
def Coll.routedAll (c : Coll) : Bool :=
  !c.epi || (List.range (Layout.ranks c.src)).all fun b =>
    (transfer c.src c.dst c.me b).all fun x => c.routed.any fun o => decide (o.dest = b) && decide (o.elem = x.2)

/-- The exchange engine of a core's die has come up, or bring-up has ended without it (19 R396-R398; log entry 94). -/
def State.exchangeUp (s : State) (core : Nat) : Bool := ((s.die (core / 512)).reg 500).getLsbD 23 || s.bringUpDone

/-- The rank at a core stands ready to send (15 R313, R317; 16 R332). -/
def Core.maySend (k : Core) (c : Coll) : Bool :=
  c.routedAll && !(k.fences.any fun f => f.dst % 2 == 1 && f.drainedAt.isNone && decide (f.place ≤ c.place))

/-! ### Reads -/

/-- Where an address of a buffer in global memory lies, by the pages that are pinned for it: side 0 is read, 1 written. -/
def Coll.spot (c : Coll) (s : State) (side a : Nat) : Option Place :=
  (pageFor c.pages side (w64 a)).bind fun p => placeOf (s.die p.die) p.die (w64 a) p.entry.leaf

/-- The parts of a run in 64-byte blocks, as address and bytes. -/
def blockRuns (a n : Nat) : List (Nat × Nat) :=
  (burstsOf a n).map fun b => (max a b, min (a + n) (b + 64) - max a b)

/-- A run of a buffer that the engine reads: its side, its space, its address and its bytes. -/
abbrev CollRun := Nat × Nat × Nat × Nat

/-- The parts of runs that lie in global memory, with their places. -/
def Coll.parts64 (c : Coll) (s : State) (runs : List CollRun) : List ((Nat × Nat) × Place) :=
  (runs.filter fun r => decide (r.2.1 = 1)).flatMap fun r =>
    (blockRuns r.2.2.1 r.2.2.2).filterMap fun b => (c.spot s r.1 b.1).map fun p => (b, p)

/-- The request for a part of a buffer behind an aperture (17 R345; log entry 2). -/
def Coll.request (c : Coll) (core q off n : Nat) : PeerReq :=
  { core := core, eng := .f, package := q, addr := off, n := n, data := [], load := some (65 + c.place) }

/-- What has not come of the runs from peer packages. -/
def Coll.lacks (c : Coll) (s : State) (runs : List CollRun) : List PeerReq :=
  ((c.parts64 s runs).filterMap fun x => x.2.peer.map fun q => c.request s.actor q x.2.off x.1.2).filter fun r =>
    !s.me.peerGot.any (·.loads r)

/-- Some part of the runs lies in a channel in STATIC mode, or is held for another reason (05 R102; 15 R316). -/
def Coll.barred (c : Coll) (s : State) (runs : List CollRun) : Bool :=
  (c.parts64 s runs).any fun x => x.2.peer.isNone && s.waits x.2.die x.2.tier x.2.off x.1.2

/-- Sends the requests that have not been sent. -/
def State.askAll (s : State) (rs : List PeerReq) : State :=
  rs.foldl (fun s r =>
    if s.me.peerLoads.contains r then s
    else { s.updMe fun k => { k with peerLoads := r :: k.peerLoads } with peerOut := s.peerOut ++ [r] }) s

/-- Reads one part of a run, with what is found wrong first, and where. -/
def Coll.readPart (c : Coll) (side : Nat) (acc : State × List Byte × Option (Cause × Nat)) (b : Nat × Nat) :
    State × List Byte × Option (Cause × Nat) :=
  let s := acc.1
  match c.spot s side b.1 with
  | none => (s, acc.2.1 ++ List.replicate b.2 0, acc.2.2.or (some (.xlat, b.1)))
  | some p => match p.peer with
    | some q => match s.me.peerGot.find? (·.loads (c.request s.actor q p.off b.2)) with
      | some m => (s, acc.2.1 ++ m.data, acc.2.2.or (m.report.map fun e => (e, b.1)))
      | none => (s, acc.2.1, acc.2.2)
    | none => match (s.uncached s.actor p.die (w64 b.1) b.2 false).read p.die p.tier p.off b.2 with
      | (s, some bs) => (s, acc.2.1 ++ bs, acc.2.2)
      | (s, none) => (s, acc.2.1 ++ List.replicate b.2 0, acc.2.2.or (some (.integ, b.1)))

/-- Reads one run: the bytes of a buffer of the acting core, by space (15 R310). -/
def Coll.readRun (c : Coll) (s : State) (r : CollRun) : State × List Byte × Option (Cause × Nat) :=
  match r.2.1 with
  | 0 => (s, s.me.padBytes r.2.2.1 r.2.2.2, none)
  | 2 => (s, SMap.slice 0 s.me.mat.slots r.2.2.1 r.2.2.2, none)
  | _ => (blockRuns r.2.2.1 r.2.2.2).foldl (c.readPart r.1) (s, [], none)

/-- Reads runs. -/
def Coll.readRuns (c : Coll) : List CollRun → State → State × List (List Byte) × Option (Cause × Nat)
  | [], s => (s, [], none)
  | r :: rs, s =>
    let x := c.readRun s r
    let y := Coll.readRuns c rs x.1
    (y.1, x.2.1 :: y.2.1, x.2.2.or y.2.2)

/-- The held nodes of the source, and, of a sketch, the headers of the destination (15 R309, R310). -/
def Coll.nodeRuns (c : Coll) : List CollRun :=
  if c.epi then []
  else (List.range (Layout.held c.src)).map fun q =>
    (0, Layout.space c.src, (Layout.base c.src).toNat + q * Layout.nodeBytes c.src, Layout.nodeBytes c.src)
def Coll.headRuns (c : Coll) : List CollRun :=
  if Layout.sk c.src then
    (List.range (Layout.held c.dst)).map fun q =>
      (1, Layout.space c.dst, (Layout.base c.dst).toNat + q * Layout.nodeBytes c.dst, 64)
  else []

/-- A sketch of a buffer keeps to one die and one tier (13 R266): the pages under it do. -/
def Coll.oneHome (c : Coll) (s : State) (side : Nat) (l : Layout) (a : Nat) : Bool :=
  let ps := c.pages.filter fun p => p.side == side && decide (p.entry.base * pageSize p.entry.size < a + Layout.nodeBytes l) &&
    decide (a < (p.entry.base + 1) * pageSize p.entry.size)
  decide (Layout.space l ≠ 1) || ps.all fun p => ps.all fun q => match c.spot s side (p.entry.base * pageSize p.entry.size),
      c.spot s side (q.entry.base * pageSize q.entry.size) with
    | some x, some y => decide (x.peer = y.peer) && decide (p.die = q.die) && (x.peer.isSome || decide (x.tier = y.tier))
    | _, _ => true

/-- The bytes of the nodes that are sketches; none of one that R266 rejects for its span. -/
def Coll.housed (c : Coll) (s : State) (side : Nat) (l : Layout) (bss : List (List Byte)) : List (List Byte) :=
  bss.mapIdx fun q bs =>
    if !Layout.sk l || c.oneHome s side l ((Layout.base l).toNat + q * Layout.nodeBytes l) then bs else []

/-- What reading the source comes to. -/
inductive Took where
  | ok (c : Coll) (s : State)
  | wait (s : State)
  | fail (e : Cause) (at_ : Nat) (s : State)
  deriving DecidableEq, Repr

/-- The acting core's rank reads its source once, when the engine is up, its tiles have come and no fence holds it (15 R313, R315;
16 R332). -/
def Coll.capture (c : Coll) (s : State) : Took :=
  if c.sent.isSome then .ok c s
  else if !(s.exchangeUp s.actor && s.me.maySend c) then .wait s
  else
    let runs := c.nodeRuns ++ c.headRuns
    let lacks := c.lacks s runs
    if !lacks.isEmpty then .wait (s.askAll lacks)
    else if c.barred s runs then .wait s
    else
      let r := c.readRuns runs s
      match r.2.2 with
      | some e => .fail e.1 e.2 r.1
      | none => .ok { c with sent := some (c.housed s 0 c.src (r.2.1.take c.nodeRuns.length))
                             heads := c.housed s 1 c.dst (r.2.1.drop c.nodeRuns.length) } r.1

/-! ### What a rank sends -/

/-- The bits of one element of a node that a rank sends to rank `b`. -/
def Coll.bitsOf (c : Coll) (b node elem : Nat) : Nat :=
  if c.epi then ((c.routed.find? fun o => decide (o.dest = b) && decide (o.elem = elem)).map (·.val)).getD 0
  else
    let eb := Layout.eb c.src
    leNat (((((c.sent.getD []).getD node []).drop (Layout.byteOff c.src c.me elem)).take eb))

/-- The maximal aligned subtrees of `n` leaves from a leaf on, as first leaf and number of leaves (03 R64). -/
def alignedParts : Nat → Nat → Nat → List (Nat × Nat)
  | 0, _, _ => []
  | fuel + 1, a, n =>
    if n = 0 then []
    else
      let z := (((List.range 33).map (2 ^ ·)).filter fun z => a % z == 0 && decide (z ≤ n)).foldl max 1
      (a, z) :: alignedParts fuel (a + z) (n - z)

/-- The parts in which a rank sends what element `x` of node `q` of rank `b`'s shard needs of it: leaves of the tree of the
nodes, or, in a reducing pair, the maximal aligned subtrees of its leaves (03 R64, 15 R310); counters, whose sum the destination's
header rules, one by one (15 R309). -/
def Coll.parts (c : Coll) (rank b q x : Nat) : List (List (Nat × Source)) :=
  let os := ((sourcesOf c.src c.dst b q x).mapIdx fun t o => (t, o)).filter fun p => decide (p.2.rank = rank)
  if Layout.sk c.src then os.map fun p => [p]
  else (alignedParts os.length ((os.head?.map (·.1)).getD 0) os.length).map fun z =>
    os.filter fun p => decide (z.1 ≤ p.1) && decide (p.1 < z.1 + z.2)

/-- The value of some nodes of an element: their canonical sum (03 R63, 15 R308). -/
def Coll.combine (c : Coll) (xs : List Nat) : Nat × Bool :=
  match xs with
  | [x] => (x, false)
  | _ => canonicalSum (Layout.fmt c.src) xs

/-- The headers of its sketches, and the parts, that a rank sends to rank `b` (15 R309, R310). -/
def Coll.headBytes (c : Coll) : List Byte := if Layout.sk c.src then (c.sent.getD []).flatMap fun bs => bs.take 64 else []
def Coll.partsTo (c : Coll) (b : Nat) : List (List (Nat × Source)) :=
  (List.range (Layout.held c.dst)).flatMap fun q => (List.range (Layout.count c.dst)).flatMap fun x => c.parts c.me b q x

/-- The bytes a rank sends to rank `b`, and whether a sum among them saturated (15 R308-R310). -/
def Coll.sentTo (c : Coll) (b : Nat) : List Byte × Bool :=
  let vs := (c.partsTo b).map fun ps => c.combine (ps.map fun p => c.bitsOf b p.2.node p.2.elem)
  (c.headBytes ++ vs.flatMap fun v => leBytes v.1 (Layout.eb c.src), vs.any (·.2))

/-- Number of the bytes a rank sends to rank `b`. -/
def Coll.lenTo (c : Coll) (b : Nat) : Nat :=
  (if Layout.sk c.src then 64 * Layout.held c.src else 0) + (c.partsTo b).length * Layout.eb c.src

/-- The values among the bytes that have come from a rank of a peer package: element, first leaf, bits. -/
def Coll.received (c : Coll) (rank : Nat) (bs : List Byte) : List Routed :=
  let eb := Layout.eb c.src
  let keys := (List.range (Layout.held c.dst)).flatMap fun q => (List.range (Layout.count c.dst)).flatMap fun x =>
    (c.parts rank c.me q x).map fun ps => (((ps.head?).map (·.1)).getD 0, q * Layout.count c.dst + x)
  keys.mapIdx fun i k => { dest := k.1, elem := k.2, val := leNat ((bs.drop (i * eb)).take eb) }

/-- The bits of leaf `t` of an element of rank `b`: none where they have come as part of a subtree whose first leaf is another
(03 R64). -/
def Coll.leaf (d : Coll) (b q x t : Nat) (o : Source) : Option Nat :=
  if !d.away then some (d.bitsOf b o.node o.elem)
  else (d.routed.find? fun r => decide (r.dest = t) && decide (r.elem = q * Layout.count d.dst + x)).map (·.val)

/-- The canonical sum over leaves of which some stand for a subtree (03 R63, R64). -/
def Coll.combineSome (c : Coll) (xs : List (Option Nat)) : Nat × Bool :=
  match xs with
  | [x] => if Layout.psum c.src ≠ 0 ∧ Layout.psum c.dst = 0 then canonicalSum (Layout.fmt c.src) [x.getD 0] else (x.getD 0, false)
  | _ =>
    let add := fun (a b : Option (Nat × Bool)) => match a, b with
      | some x, some y =>
        let r := canonicalSum (Layout.fmt c.src) [x.1, y.1]
        some (r.1, x.2 || y.2 || r.2)
      | some x, none => some x
      | none, y => y
    (((treeFold add 64 (xs.map fun x => x.map fun v => (v, false))).head?).bind id).getD (0, false)

/-- The value of a destination counter from its nodes; none where it overflows (15 R309). -/
def counterSum (h : Sk) (xs : List Nat) : Option (Int × Bool) :=
  let add := fun (a b : Option (Int × Bool)) => match a, b with
    | some x, some y => (cadd x.1 y.1 h).map fun r => (r.1, r.2 || x.2 || y.2)
    | _, _ => none
  ((treeFold add 64 (xs.map fun x => some (signedOf (8 * h.cb) x, false))).head?).getD (some (0, false))

/-- The shard of rank `c.me`, node `q`: bytes, SAT, and whether a counter overflowed, from which element on nothing is written. -/
def Coll.shard (c : Coll) (all : List Coll) (q : Nat) (h : Option Sk) : List Byte × Bool × Bool :=
  let eb := Layout.eb c.dst
  (List.range (Layout.count c.dst)).foldl (fun acc x =>
    if acc.2.2 then acc
    else
      let ys := (sourcesOf c.src c.dst c.me q x).mapIdx fun t o => (all[o.rank]?).bind fun d => d.leaf c.me q x t o
      let xs := ys.map fun y => y.getD 0
      match h with
      | none =>
        let r := c.combineSome ys
        (acc.1 ++ leBytes r.1 eb, acc.2.1 || r.2, false)
      | some h =>
        match xs with
        | [v] => (acc.1 ++ leBytes v eb, acc.2.1, false)
        | _ => match counterSum h xs with
          | some r => (acc.1 ++ leBytes (r.1 % 2 ^ (8 * eb)).toNat eb, acc.2.1 || r.2, false)
          | none => (acc.1, acc.2.1, true)) ([], false, false)

/-- The status word (15 R312). -/
def Coll.statusWord (c : Coll) (x : Status) : Nat :=
  2 ^ 63 + (if x.sat then 2 ^ 62 else 0) + (if x.ovf then 2 ^ 61 else 0) + (if c.badRoute then 2 ^ 60 else 0)
    + (match x.cause with | some e => e.code * 2 ^ 48 | none => 0) + x.bytes % 2 ^ 48

/-- A message of a peer package belongs to a collective (15 R311). -/
def Coll.owns (c : Coll) (m : PeerMsg) : Bool :=
  match m.rank with
  | some r => decide (r.tab = (Layout.ranktab c.src).toNat) && decide (r.ord = c.ord)
  | none => false

/-- The sketch header of a node of bytes, if it passes and fits the layout (15 R306, R309; 13 R266). -/
def headerOfNode (l : Layout) (bs : List Byte) : Option Sk :=
  match skOf 0 (bs.take 64) with
  | some h => if Layout.rank l = 1 ∧ Layout.extent l 0 = h.d * 2 ^ h.w ∧ Layout.eb l = h.cb then some h else none
  | none => none

/-- Headers agree in D, W, CW, SEED and SCALE (15 R309). -/
def Sk.agrees (a b : Sk) : Bool :=
  decide (a.d = b.d) && decide (a.w = b.w) && decide (a.cb = b.cb) && decide (a.seed = b.seed) && decide (a.scale = b.scale)

/-- What a rank writes: addresses of its destination with bytes (15 R308, R309). -/
abbrev Writes := List (Nat × List Byte)

/-- A sum of shards, node by node (15 R308). -/
def Coll.plainOut (c : Coll) (all : List Coll) : Status × Writes :=
  (List.range (Layout.held c.dst)).foldl (fun (acc : Status × Writes) q =>
    let r := c.shard all q none
    ({ acc.1 with sat := acc.1.sat || r.2.1, bytes := acc.1.bytes + r.1.length },
      acc.2 ++ [((Layout.base c.dst).toNat + q * Layout.nodeBytes c.dst, r.1)])) ({}, [])

/-- A sketch collective's nodes one by one: the rank's counters at their place in the whole sketch (15 R306, R309). -/
def Coll.sketchOut (c : Coll) (all : List Coll) (heads : List Sk) (count : Nat → Nat) : Status × Writes :=
  (heads.mapIdx fun q h => (q, h)).foldl (fun (acc : Status × Writes) (p : Nat × Sk) =>
    let r := c.shard all p.1 (some p.2)
    let h := { (p.2.stickSat r.2.1) with count := count p.1 }
    let h := if r.2.2 then h.stickOvf else h
    let base := (Layout.base c.dst).toNat + p.1 * Layout.nodeBytes c.dst
    ({ cause := if r.2.2 then some .sketch else acc.1.cause, sat := acc.1.sat || r.2.1, ovf := acc.1.ovf || r.2.2
       bytes := acc.1.bytes + r.1.length },
      acc.2 ++ [(base + Layout.byteOff c.dst c.me 0, r.1), (base + 16, h.tail)])) ({}, [])

/-- Sum of the COUNT fields of the sources of a destination node (15 R309). -/
def Coll.countOf (c : Coll) (all : List Coll) (q : Nat) : Nat :=
  (((sourcesOf c.src c.dst c.me q 0).map fun o =>
    leNat ((((((all[o.rank]?).bind (·.sent)).getD []).getD o.node []).drop 16).take 8)).sum) % 2 ^ 64

/-- What a rank writes from what every rank has sent, and its status; the headers of every source and of the
destination at every rank of the package must pass and agree (15 R309, 22 R419). -/
def Coll.outcome (c : Coll) (all : List Coll) : Status × Writes :=
  if Layout.sk c.src then
    let dest := fun (d : Coll) => d.heads.map fun bs => headerOfNode c.dst bs
    let sources := all.flatMap fun d => (d.sent.getD []).map fun bs => headerOfNode c.src bs
    match allSome (dest c), allSome (all.flatMap dest ++ sources) with
    | some heads, some (h :: hs) =>
      if (hs.all fun x => h.agrees x) && (all.flatMap fun d => (dest d).filterMap id).all fun x => x.clamp || !x.ovf then
        c.sketchOut all heads (c.countOf all)
      else ({ cause := some .sketch }, [])
    | _, _ => ({ cause := some .sketch }, [])
  else c.plainOut all

/-- Cuts bytes into runs of `n`. -/
def chunks (n : Nat) : Nat → List Byte → List (List Byte)
  | 0, _ => []
  | k + 1, bs => bs.take n :: chunks n k (bs.drop n)

/-- What stands in for the collective of a rank in a peer package, whose bytes have arrived (log entry 2). -/
def Coll.outside (c : Coll) (i : Nat) (bs : List Byte) : Coll :=
  let n := if Layout.sk c.src then 64 * Layout.held c.src else 0
  { c with me := i, epi := false, away := true, heads := [], sent := some (chunks 64 (n / 64) bs), routed := c.received i (bs.drop n) }

/-! ### Slots of a leg, and other packages -/

/-- The station to which a rank's bytes go from a die (05 R100; 15 R316). -/
def State.stationTo (s : State) (r : Nat × Nat) : Nat :=
  if r.1 = s.package % 2 ^ 10 then stationOf (r.2 / 512) else bridgeOf (ringOut s.package r.1)

/-- Ranks that a rank on a die reaches through a station. -/
def Coll.ranksAt (c : Coll) (s : State) (die station : Nat) : List Nat :=
  ((c.ranks.mapIdx fun i r => (i, r)).filter fun p =>
    decide (s.stationTo p.2 = station) && !(decide (p.2.1 = s.package % 2 ^ 10) && decide (p.2.2 / 512 = die))).map (·.1)

/-- Bytes a rank sends to a station, for ranks before the i-th: a slot takes them in ascending (destination rank, byte offset)
(15 R316). -/
def Coll.bytesAt (c : Coll) (s : State) (die station i : Nat) : Nat :=
  (((c.ranksAt s die station).filter fun j => decide (j < i)).map c.lenTo).sum

/-- What a rank sends to the i-th has reached it: at once outside a leg and within a die, else in the collective's slots
(15 R310, R316). -/
def State.collReached (s : State) (core : Nat) (c : Coll) (i : Nat) : Bool :=
  match c.ranks[i]? with
  | none => true
  | some r =>
    let st := s.stationTo r
    c.tag.isNone || !(s.core core).leg.timed || !(c.ranksAt s (core / 512) st).contains i ||
      decide (c.bytesAt s (core / 512) st (i + 1) ≤
        ((c.carried.filter fun x => decide (x.1 = st) && decide (x.2.1 ≤ s.cycle)).map (·.2.2)).sum)

/-- The message for a rank of another package: its bytes, or none where the collective has failed (15 R310, R311, R318). -/
def Coll.message (c : Coll) (core i : Nat) (r : Nat × Nat) (fails : Option Cause) : PeerReq :=
  let x := if fails.isSome then ([], false) else c.sentTo i
  { core := core, eng := .f, package := r.1, addr := r.2, n := 0, data := x.1, op := 0xC2C0
    coll := some { tab := (Layout.ranktab c.src).toNat, ord := c.ord, rank := c.me, digest := c.digest, sat := x.2
                   lost := fails.isSome && decide (fails ≠ some .ill) } }

/-- Ranks of other packages to which nothing has gone. -/
def Coll.unshipped (c : Coll) (s : State) : List (Nat × Nat × Nat) :=
  (c.ranks.mapIdx fun i r => (i, r)).filter fun p => decide (p.2.1 ≠ s.package % 2 ^ 10) && !c.shipped.contains p.1

/-- Sends the ranks of other packages what their shards need of a rank, as it reaches them (03 R64, 15 R310, R316). -/
def Coll.ship (c : Coll) (s : State) (fails : Option Cause) : State × Coll :=
  let now := (c.unshipped s).filter fun p => fails.isSome || s.collReached s.actor c p.1
  ({ s with peerOut := s.peerOut ++ now.map fun p => c.message s.actor p.1 p.2 fails }, { c with shipped := c.shipped ++ now.map (·.1) })

/-! ### Completion -/

/-- Sets the k-th collective of a core. -/
def State.setColl (s : State) (core k : Nat) (c : Coll) : State := s.updCore core fun x => { x with colls := x.colls.set k c }

/-- A message of a peer package for a rank. -/
def Coll.from_ (c : Coll) (m : PeerMsg) (i : Nat) : Bool := c.owns m && m.rank.any fun r => decide (r.rank = i)

/-- Drops the collectives of a group once every rank of the package is done, and has sent what it had to send. -/
def State.dropGroup (s : State) (c : Coll) : State :=
  let cores := c.cores s.package
  let ended := cores.all fun k => (s.core k).colls.any (c.pairs ·) && (s.core k).colls.all fun x =>
    !c.pairs x || (x.done && (x.unshipped s).isEmpty)
  if ended then cores.foldl (fun s k => s.updCore k fun x => { x with colls := x.colls.filter fun y => !c.pairs y }) s
  else s

/-- The status word is written: the rank's collective is complete, its pins are dropped (15 R312). -/
def State.closeColl (s : State) (core j : Nat) (c : Coll) : State :=
  ((s.unpinAll c.pins).updCore core fun k =>
    { k.dropLoads .f (65 + c.place) with
      colls := k.colls.set j { c with done := true }
      peerGot := (k.dropLoads .f (65 + c.place)).peerGot.filter fun m => !c.owns m && decide (m.copy ≠ some c.place) }).dropGroup c

/-- Ends a rank's collective with an outcome: once its writes are acknowledged the status word is written, in a channel in FREE mode
(15 R312, R316). -/
def State.finishColl (s : State) (core j : Nat) (c : Coll) (x : Status) : State :=
  let c := { c with ended := some x }
  if !c.acks.isEmpty then s.setColl core j c
  else if c.told then s.closeColl core j c
  else
    let bs := leBytes (c.statusWord x) 8
    match c.csPeer with
    | some q => { s.setColl core j { c with told := true, acks := [(q, c.csOff)] } with
        peerOut := s.peerOut ++ [{ core := core, eng := .f, package := q, addr := c.csOff, n := 0, data := bs, copy := some c.place }] }
    | none =>
      if s.waits c.csDie c.csTier c.csOff 8 then s.setColl core j c
      else match (s.uncached core c.csDie c.cs 8 true).write c.csDie c.csTier c.csOff bs c.csKlock with
        | (s, true) => s.closeColl core j c
        | (s, false) => s.updCore core fun k => k.takeTrap 6 (k.en .f).pc .integ c.cs s.cycle

/-- Writes one part of a run of the destination in global memory. -/
def Coll.writePart (c : Coll) (acc : State × Coll × Option Nat) (b : Nat × List Byte) : State × Coll × Option Nat :=
  let s := acc.1
  match c.spot s 1 b.1 with
  | none => acc
  | some p => match p.peer with
    | some q => ({ s with peerOut := s.peerOut ++
        [{ core := s.actor, eng := .f, package := q, addr := p.off, n := 0, data := b.2, copy := some c.place }] },
        { acc.2.1 with acks := acc.2.1.acks ++ [(q, p.off)] }, acc.2.2)
    | none =>
      let r := (s.uncached s.actor p.die (w64 b.1) b.2.length true).write p.die p.tier p.off b.2 p.klock
      (r.1, acc.2.1, acc.2.2.or (if r.2 then none else some b.1))

/-- Writes one run of the destination, by space, with the address of the first uncorrectable error. -/
def Coll.writeRun (acc : State × Coll × Option Nat) (w : Nat × List Byte) : State × Coll × Option Nat :=
  let c := acc.2.1
  match Layout.space c.dst with
  | 0 => (acc.1.updMe fun k => k.padWrite w.1 w.2, acc.2)
  | 2 => (acc.1.updMe fun k => k.slotWrite w.1 w.2, acc.2)
  | _ => ((blockRuns w.1 w.2.length).map fun b => (b.1, (w.2.drop (b.1 - w.1)).take b.2)).foldl c.writePart acc

/-- The collectives of all ranks in order, whose bytes have reached the acting core's; none while those of one have not. -/
def State.gather (s : State) (c : Coll) : Option (List Coll) :=
  allSome (c.ranks.mapIdx fun i r =>
    if r.1 = s.package % 2 ^ 10 then
      match s.partner c r with
      | some (k, j) => ((s.core k).colls[j]?).bind fun x => if x.sent.isSome && s.collReached k x c.me then some x else none
      | none => none
    else (s.me.peerGot.find? fun m => c.from_ m i).map fun m => c.outside i m.data)

/-- A sum that a rank of another package has combined for this one saturated (15 R308). -/
def Coll.satOut (c : Coll) (s : State) : Bool := s.me.peerGot.any fun m => c.owns m && m.rank.any (·.sat)

/-- The collective of a rank of the package that is under way or done. -/
def State.collAt (s : State) (c : Coll) (r : Nat × Nat) : Option Coll :=
  (s.partner c r).bind fun p => (s.core p.1).colls[p.2]?

/-- A rank's digest differs from that of a peer that has come so far (15 R311). -/
def State.digestBad (s : State) (c : Coll) : Bool :=
  (c.ranks.any fun r => decide (r.1 = s.package % 2 ^ 10) && (s.collAt c r).any fun x => x.digest != c.digest) ||
    s.me.peerGot.any fun m => c.owns m && m.rank.any fun r => r.digest != c.digest

/-- A rank is killed with its collective, or its transfer has failed: nothing comes from it (15 R318). -/
def State.rankLost (s : State) (c : Coll) : Bool :=
  c.broken || (c.ranks.any fun r => decide (r.1 = s.package % 2 ^ 10) && (decide ((s.core r.2).run = .frozen) ||
      (s.collAt c r).any fun x => x.sent.isNone && x.ended.any fun y => y.cause.isSome && decide (y.cause ≠ some .ill))) ||
    s.me.peerGot.any fun m => c.owns m && (m.report.isSome || m.rank.any (·.lost))

/-- The cause with which a collective ends before its transfers. -/
def State.collFails (s : State) (c : Coll) : Option Cause :=
  if s.digestBad c then some .ill else if s.rankLost c then some .peer else none

/-- Takes the acknowledgements of peer packages for a collective's writes; a refusal is its cause (14 R286; 15 R312). -/
def Coll.takeAcks (c : Coll) (s : State) : State × Coll :=
  let ms := s.me.peerGot.filter fun m => m.stored && decide (m.copy = some c.place) && c.acks.contains (m.package, m.addr)
  (s.updMe fun k => { k with peerGot := k.peerGot.filter fun m => !ms.contains m },
    ms.foldl (fun c m => { c with
      acks := c.acks.erase (m.package, m.addr)
      ended := if c.told then c.ended else c.ended.map fun x => { x with cause := x.cause.or m.report } }) c)

/-- The collective fails: every rank of another package is told, and the status word says why (15 R311, R312, R318). -/
def State.failColl (s : State) (k : Nat) (c : Coll) (e : Cause) : State :=
  let r := c.ship s (some e)
  r.1.finishColl r.1.actor k r.2 { cause := some e }

/-- Writes the destination of the acting core's k-th collective, whose ranks' bytes have come, and ends it (15 R308, R309, R312). -/
def State.deliverColl (s : State) (k : Nat) (c : Coll) (all : List Coll) : State :=
  let r := c.outcome all
  let x := { r.1 with sat := r.1.sat || c.satOut s }
  if c.barred s (r.2.map fun w => (1, Layout.space c.dst, w.1, w.2.length)) then s
  else match r.2.foldl Coll.writeRun (s, c, none) with
    | (s, c, none) => s.finishColl s.actor k c x
    | (s, c, some a) => takeTrap (s.setColl s.actor k c) 6 (s.me.en .f).pc .integ (w64 a)

/-- One turn of the acting core's k-th collective that has no outcome yet: it reads its source, sends it, and where every rank's bytes
have come it writes its destination (15 R308-R318). -/
def State.turnColl (s : State) (k : Nat) (c : Coll) : State :=
  match s.collFails c with
  | some e => s.failColl k c e
  | none => match c.capture s with
    | .wait s => s
    | .fail e a s => if e = .integ then takeTrap s 6 (s.me.en .f).pc .integ (w64 a) else s.failColl k c e
    | .ok c s =>
      let r := c.ship s none
      let s := r.1.setColl r.1.actor k r.2
      match s.gather r.2 with
      | none => s
      | some all => s.deliverColl k r.2 all

/-- COLLECTIVE_COMPLETE (15 R308-R312, R316, R318): the k-th collective of the acting core goes on at its rank; one of a killed task
does nothing more (11 R249). -/
def execCollectiveComplete (k : Nat) (s : State) : Out :=
  match s.me.colls[k]? with
  | none => .next s
  | some c =>
    if s.me.run = .killing ∧ c.task = s.me.task then
      let a := c.takeAcks s
      .next (a.1.setColl a.1.actor k a.2)
    else if c.done then
      let r := if c.sent.isSome then c.ship s none else (s, c)
      .next ((r.1.setColl r.1.actor k r.2).dropGroup r.2)
    else
      let a := c.takeAcks s
      match a.2.ended with
      | some x => .next (a.1.finishColl a.1.actor k a.2 x)
      | none => .next (a.1.turnColl k a.2)

/-- A rank of the package is absent: its task has been pre-empted, and its collective is in the saved context, or yet to be issued
(15 R317). -/
def State.absent (s : State) (c : Coll) (r : Nat × Nat) : Bool :=
  decide (r.1 = s.package % 2 ^ 10) && (s.partner c r).isNone && s.dies.any fun p => p.2.saved.any fun x =>
    decide (x.left = r.2) && ((x.core.colls.any (c.pairs ·)) ||
      decide (SMap.get 0 (s.core r.2).collSeq (Layout.ranktab c.src).toNat ≤ c.ord))

/-- EXCHANGE_WAIT_LIMIT (15 R317): in untimed code the k-th collective of the acting core has waited DG_CLO_LIMIT cycles for
an absent rank; every rank is pre-empted. -/
def execExchangeWaitLimit (k : Nat) (s : State) : Out :=
  let limit := bits ((s.die s.myDie).reg 272) 0 32
  match s.me.colls[k]? with
  | none => .next s
  | some c =>
    if c.done || limit = 0 || s.me.leg.timed then .next s
    else if !c.ranks.any (s.absent c) then .next (s.setColl s.actor k { c with absentSince := none })
    else match c.absentSince with
      | none => .next (s.setColl s.actor k { c with absentSince := some s.cycle })
      | some t =>
        if s.cycle < t + limit then .next s
        else .next (((c.cores s.package).filter fun r => (s.core r).colls.any (c.pairs ·)).foldl State.preemptCore s)

end Sys2Proof.Machine
end

