-- ==== Sys2Proof/Machine/Far.lean ====
section
/-! DEFINITION. The far engine's words and the operations they send (14 R285, R289, R292, R296-R302; 13 R269, R277). -/

namespace Sys2Proof.Machine

/-! ## Checks at the issuing core -/

/-- Where an F request goes (14 R285). -/
structure FarTo where
  die : Nat
  peer : Option Nat
  /-- Peer address, for a peer package. -/
  off : Nat
  mt : Nat
  loc : Option (Nat × Nat × Bool)
  deriving DecidableEq, Repr

/-- What R285 answers. -/
inductive FarX where
  | ok (t : FarTo) (s : State)
  | wait (s : State)
  | fail (c : Cause) (va : W64)
  deriving DecidableEq, Repr

/-- The checks of R285 at the issuing core; `ra` where the word needs the RA bit of an aperture. -/
def farTo (s : State) (va : W64) (read write ra : Bool) : FarX :=
  if bits va 58 6 ≠ 0 then .fail .xlat va
  else if bits va 55 3 ≠ s.myDie then .ok { die := bits va 55 3, peer := none, off := 0, mt := 0, loc := none } s
  else match translate s va write with
    | .wait s => .wait s
    | .fail c _ => .fail c va
    | .at_ p s =>
      if (read && !p.rd) || (write && !p.w) || (p.peer.isSome && ra && !p.ra) then .fail .perm va
      else .ok { die := p.die, peer := p.peer, off := p.off, mt := p.mt
                 loc := if p.peer.isNone then some (p.tier, p.off, p.klock) else none } s

/-- Cycles of the way from a die to the Wallower of a target: over the die network, or over the rings (01 R23; 14 R302). -/
def State.wayTo (s : State) (die : Nat) (t : FarTo) : Nat :=
  s.wayFrom die t.die t.peer t.off

/-- Cycles of a service at its Wallower before the effect: 20, t_mem, and the walk of a page its TLB lacks; for a page that
is not there, t_mem of the fast tier (01 R23; 14 R286). -/
def State.effectTime (s : State) (die space : Nat) (va : W64) : Nat :=
  let d := s.die die
  let tier := match d.walk space va with | .leaf x => pteTier x | _ => 0
  20 + tMem tier + (if (tlbFind d.tlb space va).isSome then 0 else d.walkTime space va)

/-- The header of a sketch as it stands at its address (13 R265). -/
def State.headAt (s : State) (die space : Nat) (va : W64) : Option Sk :=
  match (s.die die).walk space va with
  | .leaf x => (placeOf (s.die die) die va x).bind fun p => ((s.die die).peek p.tier p.off 64).bind (skOf va)
  | _ => none

/-- Cycles a query takes longer at its Wallower (13 R277). -/
def State.queryTime (s : State) (i : Instr) (die space : Nat) (va : W64) : Nat :=
  match i with
  | .fSkq _ => ((s.headAt die space va).map fun h => 4 * h.d).getD 0
  | _ => 0

/-- The cycles from the departure of an operation to its effect at its target (01 R23; 14 R302; 13 R277). -/
def State.effectAfter (s : State) (i : Instr) (va : W64) (t : FarTo) : Nat :=
  let way := s.wayTo s.myDie t
  match t.peer, t.loc with
  | some q, _ => way + peerService q t.off
  | none, some (tier, _, _) => way + 20 + tMem tier + s.queryTime i t.die s.me.space va
  | none, none => way + s.effectTime t.die s.me.space va + s.queryTime i t.die s.me.space va

/-- Continues with the target of an address, or traps. -/
def withFar (s : State) (va : W64) (read write ra : Bool) (f : FarTo → State → Res) : Res :=
  match farTo s va read write ra with
  | .ok t s => f t s
  | .wait s => .wait s
  | .fail c v => .fail c v

/-! ## Sending -/

/-- An F request stays in its own die. -/
def FarTo.near (t : FarTo) (die : Nat) : Bool := t.peer.isNone && decide (t.die = die)

/-- The packets of a word's request: one for each element of a .n form (14 R279). -/
def elems (i : Instr) (args : List W64) : Nat :=
  match i with
  | .fSkupN _ | .fSkqN _ => (args.getD 1 0).toNat
  | _ => 1

/-- The operation as it stands at its issue: it departs in the next cycle (14 R302). -/
def mkFar (s : State) (i : Instr) (args data : List W64) (va : W64) (t : FarTo) (cls : Nat) (block : Bool) : FarOp :=
  let k := s.me
  let timed := k.leg.timed
  let leg := if timed then (s.die s.myDie).trav.map (·.tStart) else none
  let lag := (k.en .f).lag
  let departs := s.cycle + 1
  let way := s.wayTo s.myDie t
  let near := t.near s.myDie
  { i := i, args := args, data := data, tpc := (k.en .f).pc, place := k.here .f, va := va, die := t.die, peer := t.peer
    off := t.off, mt := t.mt, cls := cls, loc := t.loc, block := block
    due := departs + s.effectAfter i va t + way, way := way, departs := departs, leg := leg, placed := s.cycle - lag, lag := lag
    arrive := if leg.isSome && near then some (departs + way - lag) else none
    ord := k.leg.sketches, space := k.space
    packets := elems i args, came := if near then elems i args else 0
    sent := near, arrived := if near then some (departs + way) else none
    ready := if near then some (departs + s.effectAfter i va t) else none }

/-- The 13-bit form of the word a request to a peer package carries. -/
def opWord (i : Instr) : Nat := match encodeNat i with | some (_, w) => w | none => 0

/-- Bytes of the longest sketch (13 R265). -/
abbrev maxSpan : Nat := 64 + 15 * 2 ^ 26 * 8

/-- Bytes of an element of the values of an F.SKUP.n or F.SKQ.n (13 R269). -/
def valueBytes : Instr → Nat
  | .fSkupN d => if d = 0 then 4 else 8
  | .fSkqN i => if i = 0 then 4 else 8
  | _ => 0

/-- The runs of bytes an operation may touch, as far as its words say (14 R288, R292; 13 R270-R272). -/
def FarOp.runs (o : FarOp) : List (W64 × Nat) :=
  match o.i with
  | .fSkup _ | .fSkq _ => [(o.va, maxSpan)]
  | .fSkupN _ | .fSkqN _ => [(o.va, maxSpan), (o.args.getD 0 0, valueBytes o.i * (o.args.getD 1 0).toNat)]
  | .fSkadd => [(o.va, maxSpan), (o.args.getD 0 0, maxSpan)]
  | .fCasM n w =>
    let b := 2 ^ n.toNat * (if w = 0 then 4 else 8)
    [(o.va, b), (o.args.getD 0 0, 2 * b)]
  | .fEnq | .fEnqR => [(o.va, 16), (o.args.getD 0 0, 8)]
  | .fChase _ _ k => [(o.va, 8), (o.va + w64 (8 * k.toNat), 8)]
  | _ => [(o.va, 1)]

/-- A block of the combining buffer lies in a run. -/
def Comb.inRun (c : Comb) (r : W64 × Nat) : Bool :=
  decide (c.va.toNat < r.1.toNat + r.2) && decide (r.1.toNat < c.va.toNat + 64)

/-- A combining-buffer entry that flushes before an operation (14 R292). -/
def FarOp.flushes (o : FarOp) (c : Comb) : Bool := o.runs.any c.inRun

/-- An operation that departs later. -/
def FarOp.delayed (o : FarOp) (n : Nat) : FarOp :=
  { o with departs := o.departs + n, due := o.due + n, ready := o.ready.map (· + n), arrive := o.arrive.map (· + n)
           arrived := o.arrived.map (· + n) }

/-- The memory type of the page of an address, as the tables of the die that owns the address have it (14 R286). -/
def State.typeAt (s : State) (space : Nat) (va : W64) : Nat :=
  match (s.die (bits va 55 3)).walk space va with | .leaf x => pteMt x | _ => 0

/-- An operation with the memory type of its target, which only the owning die knows for a page of another die; SO where the
values or the second sketch it names lie on an SO page (14 R286, R288; 16 R335). -/
def State.typed (s : State) (o : FarOp) : FarOp :=
  let mt := if o.loc.isSome || o.peer.isSome then o.mt else s.typeAt o.space o.va
  { o with mt := if o.other.isSome && decide (s.typeAt o.space (o.args.getD 0 0) = 3) then 3 else mt }

/-- Sends an operation, a cycle later where entries of the combining buffer flush before it (14 R285, R292, R302): over the die
network, or as a packet of the ring station. -/
def State.sendFar (s : State) (o : FarOp) : State :=
  let o := if s.me.comb.any o.flushes then o.delayed 1 else o
  let s := (s.flushComb o.flushes).updMe fun k => { k with far := k.far ++ [o] }
  if o.sent then s
  else s.updDie s.myDie fun d => d.queuePacket (o.packet s.package s.actor)

/-- What a blocking word comes to: it is sent once, and the engine waits for its reply. -/
def blockOn (s : State) (mk : State → FarOp) : Res :=
  .hold (s.sendFar (mk s))

/-- An F slot of the leg to the station of an operation's packet is still to leave (14 R289). -/
def State.slotLeft (s : State) (o : FarOp) : Bool :=
  (s.die s.myDie).timed.slots.any fun x =>
    decide (1 ≤ x.tag ∧ x.tag ≤ 8) && decide (x.lane < 4) && decide (x.dest = (o.packet s.package s.actor).dest)

/-- The engine waits for the reply of the word at which it stands: in a leg each cycle beyond its placement is a breach. The
placement counts from the departure of the operation's slot; one that misses every slot has none (14 R289). -/
def farHold (s : State) : Res :=
  if s.me.far.any fun o => o.block && o.leg.isSome && (if o.sent then decide (o.due ≤ s.cycle) else !s.slotLeft o) then .wait s
  else .hold s

/-- A word of the F engine that sends one operation, checked in the order of the list before R296: `timedOk` where the
timed part allows it, `al` the alignment of its target, `pos` the target's place on the stack. -/
def farWord (i : Instr) (p q : Nat) (timedOk : Bool) (block : Bool) (pos al : Nat) (read write ra : Bool) (cls : Nat)
    (more : List W64 → Option (Cause × W64)) (s : State) : Out :=
  issue .f i 1 (fun s0 =>
    if s0.me.farWaits then farHold s0
    else popping .f p q (fun vs s =>
      let va := vs.getD pos 0
      if !timedOk && s.me.leg.timed then .fail .ill 0
      else if va.toNat % al ≠ 0 then .fail .align va
      else match more vs with
        | some (c, v) => .fail c v
        | none =>
          if block then
            withFar s0 va read write ra fun t s => blockOn s fun s => mkFar s i vs [] va t cls true
          else withFar s va read write ra fun t s => .ok (s.sendFar (mkFar s i vs [] va t cls false))) s0) s

/-- No further check. -/
def noMore (_ : List W64) : Option (Cause × W64) := none

/-! ## The words -/

/-- Bytes of an F.AMO type. -/
def amoBytes (t : BitVec 2) : Nat := if t.toNat % 2 = 0 then 4 else 8

/-- F.AMO (14 R296). -/
def execFAmo (o : BitVec 3) (t : BitVec 2) (s : State) : Out :=
  farWord (.fAmo o t) 2 0 true false 1 (amoBytes t) true true true 0 noMore s

/-- F.AMO with return (14 R296). -/
def execFAmoR (o : BitVec 3) (t : BitVec 2) (s : State) : Out :=
  farWord (.fAmoR o t) 2 1 true true 1 (amoBytes t) true true true 0 noMore s

/-- Bytes of an F.CAS word. -/
def casBytes (w : BitVec 1) : Nat := if w = 0 then 4 else 8

/-- F.CAS, stack form (14 R297). -/
def execFCas (w : BitVec 1) (s : State) : Out :=
  farWord (.fCas w) 3 1 true true 2 (casBytes w) true true true 0 noMore s

/-- The words of an F.CAS memory form. -/
def casCount (n : BitVec 2) : Nat := 2 ^ n.toNat

/-- Reads the 2n words at ea, each checked on its own page, the first n for writing too (14 R297). -/
def readPairs (size n : Nat) (ea : W64) : Nat → Nat → List W64 → State → (List W64 → State → Res) → Res
  | 0, _, acc, s, f => f acc s
  | m + 1, j, acc, s, f =>
    match locate s (ea + w64 (j * size)) size true (decide (j < n)) with
    | .wait s => .wait s
    | .fail c _ => .fail c (ea + w64 (j * size))
    | .at_ p s =>
      match readPlace 0 .f p (ea + w64 (j * size)) size 0 s with
      | .wait s => .wait s
      | .fail c v _ => .fail c v
      | .ok bs s => readPairs size n ea m (j + 1) (acc ++ [w64 (leNat bs)]) s f

/-- The cycles that the reads of the 2n words at ea take, which are out at one time (14 R302). -/
def State.pairsTime (s : State) (size n : Nat) (ea : W64) : Nat :=
  ((List.range (2 * n)).map fun j => match farTo s (ea + w64 (j * size)) true false false with
    | .ok t _ => s.effectAfter (.fRld 0 0 0) (ea + w64 (j * size)) t + s.wayTo s.myDie t
    | _ => 0).foldl max 0

/-- F.CAS, memory form (14 R297). -/
def execFCasM (n : BitVec 2) (w : BitVec 1) (s : State) : Out :=
  issue .f (.fCasM n w) 1 (fun s0 =>
    if s0.me.farWaits then farHold s0
    else popping .f 2 1 (fun vs s =>
      let ea := vs.getD 0 0
      let va := vs.getD 1 0
      let size := casBytes w
      if s.me.leg.timed then .fail .ill 0
      else if va.toNat % (casCount n * size) ≠ 0 then .fail .align va
      else if ea.toNat % size ≠ 0 then .fail .align ea
      else withFar s0 va true true true fun t s =>
        readPairs size (casCount n) ea (2 * casCount n) 0 [] s fun ws s =>
          blockOn (s.updMe fun k => k.dropLoads .f 0) fun s =>
            (mkFar s (.fCasM n w) vs ws va t 0 true).delayed (s.pairsTime size (casCount n) ea)) s0) s

/-- The alignment of an F.ENQ's node (14 R298). -/
def nodeCheck (vs : List W64) : Option (Cause × W64) :=
  if (vs.getD 0 0).toNat % 8 ≠ 0 then some (.align, vs.getD 0 0) else none

/-- F.ENQ (14 R298). -/
def execFEnq (s : State) : Out := farWord .fEnq 2 0 false false 1 16 true true true 0 nodeCheck s

/-- F.ENQ with return (14 R298). -/
def execFEnqR (s : State) : Out := farWord .fEnqR 2 1 false true 1 16 true true true 0 nodeCheck s

/-- F.CHASE (14 R299): a head of 0 is not sent. -/
def execFChase (h : BitVec 4) (c : BitVec 3) (k : BitVec 6) (s : State) : Out :=
  let headZero := fun s : State => decide ((s.stack .f).getD 1 0 = 0)
  if headZero (s.updMe fun x => x.deliver .f) then
    issue .f (.fChase h c k) 2 (popping .f 2 2 fun _ s =>
      if s.me.leg.timed then .fail .ill 0 else .ok (pushing .f [0, 32] s)) s
  else farWord (.fChase h c k) 2 2 false true 1 8 true false true 0 noMore s

/-- F.RLD (14 R300): a combining-buffer entry that holds every byte serves it. -/
def execFRld (c : BitVec 2) (sel : BitVec 1) (z : BitVec 2) (s : State) : Out :=
  let n := 2 ^ z.toNat
  let held := fun s : State => match s.me.combOf ((s.stack .f).getD 0 0) with
    | some e => if ((s.stack .f).getD 0 0).toNat % n = 0 then e.serve ((s.stack .f).getD 0 0) n else none
    | none => none
  match held (s.updMe fun x => x.deliver .f) with
  | some bs => issue .f (.fRld c sel z) 4 (popping .f 1 1 fun vs s =>
      withFar s (vs.getD 0 0) true false false fun _ s => .ok (pushing .f [extendBytes (sel == 1) bs] s)) s
  | none => farWord (.fRld c sel z) 1 1 true true 0 n true false false c.toNat noMore s

/-- An untimed store to another die or package waits in the combining buffer where its page is NORMAL or WC (14 R292). -/
def combines (s : State) (va : W64) (t : FarTo) : Bool :=
  !s.me.leg.timed && t.loc.isNone && decide ((if t.peer.isSome then t.mt else s.typeAt s.me.space va) < 2)

/-- The block of an address with bytes put into it. -/
def blockWith (o : Nat) (bs : List Byte) (old : List (Option Byte)) : List (Option Byte) :=
  (List.range 64).map fun j => if o ≤ j ∧ j < o + bs.length then bs[j - o]? else old.getD j none

/-- A store to a target goes into the combining buffer: into the entry of its block, or a new one; with all 64 in use the oldest
flushes, and the store allocates in the next cycle (14 R292, R303). -/
def State.combine (s : State) (va : W64) (t : FarTo) (bs : List Byte) : State :=
  let o := va.toNat % 64
  if (s.me.combOf va).isSome then
    s.updMe fun k => { k with comb := k.comb.map fun c =>
      if c.va.toNat / 64 = va.toNat / 64 then { c with bytes := blockWith o bs c.bytes } else c }
  else
    let full := decide (64 ≤ s.me.comb.length)
    let oldest := s.me.comb.head?.map (·.va)
    let s := if full then s.flushComb fun x => decide (some x.va = oldest) else s
    s.updMe fun k => { k with comb := k.comb ++ [{ va := va - w64 o, bytes := blockWith o bs []
                                                   cycle := if full then s.cycle + 1 else s.cycle, die := t.die, peer := t.peer
                                                   off := t.off - o, mt := t.mt, tpc := (k.en .f).pc, place := k.here .f }] }

/-- F.RST (14 R300, R292). -/
def execFRst (c z : BitVec 2) (s : State) : Out :=
  let n := 2 ^ z.toNat
  issue .f (.fRst c z) 1 (popping .f 2 0 fun vs s =>
    let va := vs.getD 0 0
    if va.toNat % n ≠ 0 then .fail .align va
    else withFar s va false true false fun t s =>
      if combines s va t then .ok (s.combine va t (leBytes (vs.getD 1 0).toNat n))
      else .ok (s.sendFar (mkFar s (.fRst c z) vs [] va t c.toNat false))) s

/-- The posted work of the F engine that F.DRAIN waits for (14 R301): every posted operation performed, no report to come,
every collective's status word written, the combining buffer empty. -/
def Core.farDrained (k : Core) : Bool :=
  k.far.isEmpty && k.comb.isEmpty && k.colls.all (·.done)

/-- F.DRAIN (14 R301). -/
def drainBody (s : State) : Res :=
  if s.me.leg.timed then .fail .ill 0
  else
    let s := s.flushComb fun _ => true
    match s.me.reportAt .f false with
    | some r => .trap r.cause r.tval (some r.tpc)
    | none => if s.me.farDrained then .ok s else .hold s

/-- F.DRAIN (14 R301). -/
def execFDrain (s : State) : Out := issue .f .fDrain 1 drainBody s

/-- FAR_DRAIN_COMPLETE (14 R301): the F.DRAIN at which the acting core's F engine stands ends. -/
def execFarDrainComplete (s : State) : Out :=
  match engineTurn s .f with
  | .run .fDrain t => match drainBody t with
    | .ok _ => execFDrain t
    | _ => .next s
  | _ => .next s

/-! ## Sketch words -/

/-- Counts the sketch updates of a leg. -/
def State.countSketch (s : State) : State :=
  if s.me.leg.timed then s.updMe fun k => { k with leg := { k.leg with sketches := k.leg.sketches + 1 } } else s

/-- An operation that names a second operand, which lies elsewhere (13 R269). -/
def FarOp.also (o : FarOp) (t : FarTo) : FarOp :=
  { o with other := some (t.die, t.peer), otherPeer := t.peer.map fun q => (q, t.off) }

/-- A sketch word (13 R269): `sk` lists the stack places of its sketches, `va` the place and element size of its values. -/
def sketchWord (i : Instr) (p q : Nat) (timedOk block : Bool) (n : Option Nat) (sks : List Nat) (va : Option (Nat × Nat))
    (writeSk readVa : Bool) (s : State) : Out :=
  issue .f i 1 (fun s0 =>
    if s0.me.farWaits then farHold s0
    else popping .f p q (fun vs s =>
      let at_ := fun j => vs.getD j 0
      let legal := match n with | some j => decide (1 ≤ (at_ j).toNat ∧ (at_ j).toNat ≤ 2 ^ 20) | none => true
      let ended := !block && n.isNone && sks.length == 1 && decide (4096 ≤ s.me.leg.sketches)
      if s.me.leg.timed && (!timedOk || ended) then .fail .ill 0
      else if !legal then .fail .ill 0
      else match sks.find? fun j => (at_ j).toNat % 64 != 0 with
        | some j => .fail .align (at_ j)
        | none =>
          match (match va with | some (j, sz) => if (at_ j).toNat % sz ≠ 0 then some (at_ j) else none | none => none) with
          | some a => .fail .align a
          | none =>
            let base := if block then s0 else s
            let home := at_ (sks.headD 0)
            withFar base home true writeSk true fun t s =>
              let mk := fun (s : State) => mkFar s i vs [] home t 0 block
              match sks.drop 1, va with
              | j :: _, _ => withFar s (at_ j) true false true fun u s => .ok (s.sendFar ((mk s).also u))
              | [], some (j, _) => withFar s (at_ j) readVa (!readVa) true fun u s => .ok (s.sendFar ((mk s).also u))
              | [], none => if block then blockOn s mk else .ok ((s.sendFar (mk s)).countSketch)) s0) s

/-- F.SKUP (13 R269): ( sk key v — ). -/
def execFSkup (d : BitVec 1) (s : State) : Out := sketchWord (.fSkup d) 3 0 true false none [2] none true true s

/-- F.SKUP.n (13 R269): ( sk key0 n va — ). -/
def execFSkupN (d : BitVec 1) (s : State) : Out :=
  sketchWord (.fSkupN d) 4 0 false false (some 1) [3] (some (0, if d = 0 then 4 else 8)) true true s

/-- F.SKQ (13 R269): ( sk key — e ). -/
def execFSkq (i : BitVec 1) (s : State) : Out := sketchWord (.fSkq i) 2 1 true true none [1] none false true s

/-- F.SKQ.n (13 R269): ( sk key0 n va — ). -/
def execFSkqN (i : BitVec 1) (s : State) : Out :=
  sketchWord (.fSkqN i) 4 0 false false (some 1) [3] (some (0, if i = 0 then 4 else 8)) false false s

/-- F.SKADD (13 R269): ( dst src — ). -/
def execFSkadd (s : State) : Out := sketchWord .fSkadd 2 0 false false none [1, 0] none true true s

end Sys2Proof.Machine
end

