-- ==== Sys2Proof/Machine/Wallower.lean ====
section
/-! DEFINITION. The Wallowers: the service of far operations and of requests from peer packages, their order, their replies and
reports, and the sketch logs (14 R286-R291, R297-R302; 13 R270-R276; 17 R345). -/

namespace Sys2Proof.Machine

/-! ## Service -/

/-- The new value of F.AMO (14 R290). -/
def amoNew (o : BitVec 3) (t : BitVec 2) (old v : Nat) : Nat :=
  let w := 8 * amoBytes t
  if t.toNat < 2 then
    match o.toNat with
    | 0 => (old + v) % 2 ^ w
    | 1 => if signedOf w v < signedOf w old then v else old
    | 2 => if signedOf w old < signedOf w v then v else old
    | 3 => old &&& v
    | 4 => old ||| v
    | 5 => old ^^^ v
    | _ => v
  else
    let f := if t = 2 then 1 else 0
    match o.toNat with
    | 0 => (round (Val.add .rne (valueOf f old) (valueOf f v)) f .rne).1
    | 1 | 2 =>
      let x := valueOf f old
      let y := valueOf f v
      if x.isNan || y.isNan then canonNan f
      else if o.toNat = 2 then (if Val.lt true x y then v else old)
      else (if Val.lt true y x then v else old)
    | _ => v

/-- What a service comes to: the result, with the cycles its reply leaves later; a wait; a wait for so many bytes of the second
operand, which lies in a peer package; or a report. -/
inductive Served where
  | ok (result : List W64) (late : Nat) (s : State)
  | wait (s : State)
  | ask (n : Nat)
  | report (c : Cause) (va : W64) (s : State)
  deriving DecidableEq, Repr

/-- A chain of accesses as a service. -/
def Near.served (r : Near) (f : List Byte → State → Served) : Served :=
  match r with
  | .ok bs s => f bs s
  | .wait s => .wait s
  | .fail c v s => .report c v s

/-- Continues with the place of an address of an operation's target: as its own core found it, in its own die, or as the owning die's
memory-side TLB gives it (14 R285, R286). -/
def withTarget (s : State) (o : FarOp) (va : W64) (n : Nat) (read write : Bool) (f : At → Nat → State → Served) : Served :=
  let go := fun (a : At) (mt : Nat) (s : State) => if s.waits a.die a.tier a.off n then Served.wait s else f a mt s
  match o.loc with
  | some (tier, off, klock) => go { die := o.die, va := va, tier := tier, off := off + (va - o.va).toNat, klock := klock } o.mt s
  | none => match ownerXlat s o.die o.space va read write with
    | .absent s => .wait s
    | .fail c s => .report c va s
    | .at_ p s => go (p.at_ va) p.mt s

/-- The tokens that stand against an access of an operation are revoked: those of every die but the one that sent it, whose own
lines go back (14 R287, R294). -/
def State.forTarget (s : State) (o : FarOp) (a : At) (n : Nat) (write : Bool) : State :=
  match o.by_ with
  | some h => s.revokeFor h a.die o.space a.va n write
  | none => s.uncached s.actor a.die a.va n write

/-- Reads at an operation's target: an F.RLD of the package through the far cache of its die (14 R293). -/
def targetRead (s : State) (o : FarOp) (n : Nat) (write : Bool) (f : List Byte → State → Served) : Served :=
  withTarget s o o.va n true write fun a mt s =>
    match (if o.by_.isNone && !write then s.farRead s.actor a n mt else (s.forTarget o a n write).read a.die a.tier a.off n) with
    | (s, some bs) => f bs s
    | (s, none) => .report .integ o.va s

/-- Writes at an operation's target. -/
def targetWrite (s : State) (o : FarOp) (bs : List Byte) (f : State → Served) : Served :=
  withTarget s o o.va bs.length false true fun a _ s =>
    match (s.forTarget o a bs.length true).write a.die a.tier a.off bs a.klock with
    | (s, true) => f s
    | (s, false) => .report .integ o.va s

/-- The service of a store: its bytes, or the enabled bytes of a combining-buffer entry as one write; one of the package goes
through the far cache of its die (14 R292, R293, R300). -/
def serveStore (s : State) (o : FarOp) (bs : List (Option Byte)) : Served :=
  (stretches 0 bs).foldl (fun acc r =>
    match acc with
    | .ok _ _ s => withTarget s o (o.va + w64 r.1) r.2.length false true fun a mt s =>
      (match (if o.by_.isNone then s.farWrite s.actor a r.2 mt
          else (s.forTarget o a r.2.length true).write a.die a.tier a.off r.2 a.klock) with
        | (s, true) => .ok [] 0 s
        | (s, false) => .report .integ a.va s)
    | x => x) (.ok [] 0 s)

/-- F.CAS's service on n words: the previous words (14 R297). -/
def serveCas (s : State) (o : FarOp) (size n : Nat) (expect new : List W64) (f : Bool → List Nat → State → Served) : Served :=
  targetRead s o (n * size) true fun bs s =>
    let old := (List.range n).map fun j => leNat ((bs.drop (j * size)).take size)
    let same := (List.range n).all fun j => decide (old.getD j 0 = (expect.getD j 0).toNat % 256 ^ size)
    if same then
      targetWrite s o ((List.range n).flatMap fun j => leBytes (new.getD j 0).toNat size) fun s => f true old s
    else f false old s

/-- F.ENQ's service (14 R298): its writes in order; a `prev` that fails its checks leaves everything as it was. -/
def serveEnq (s0 : State) (o : FarOp) (node : W64) (ret : Bool) : Served :=
  let sp := o.space
  let lh := o.va
  if bits node 58 6 ≠ 0 ∨ bits node 55 3 ≠ o.die then .report .xlat node s0
  else match ownerXlat s0 o.die sp node false true with
    | .absent s => .wait s
    | .fail c s => .report c node s
    | .at_ _ s =>
      targetRead s o 16 true fun _ s =>
        (nearWrite s o.die sp node (leBytes 0 8)).served fun _ s =>
          (nearRead s o.die sp (lh + 8) 8).served fun bs s =>
            let prev := w64 (leNat bs)
            let finish := fun s : State =>
              (nearWrite s o.die sp (if prev = 0 then lh else prev) (leBytes node.toNat 8)).served fun _ s =>
                (nearWrite s o.die sp (lh + 8) (leBytes node.toNat 8)).served fun _ s =>
                  .ok (if ret then [prev] else []) 0 s
            if prev = 0 then finish s
            else match ownerXlat s o.die sp prev false true with
              | .absent s => .wait s
              | .fail c _ => .report (if c = .perm then .perm else .xlat) prev s0
              | .at_ _ s => finish s

/-- Reads bytes at a virtual address of a die, each 4 KiB page translated and checked. -/
def spanRead (s : State) (die space : Nat) (va : W64) (n : Nat) : Near :=
  (piecesOf va.toNat n).foldl (fun acc p => acc.bind fun bs s =>
    (nearRead s die space (w64 p.1) p.2).bind fun more s => .ok (bs ++ more) s) (.ok [] s)

/-- How a walk of F.CHASE stops at a node before its end: it waits, or meets an uncorrectable error, which its word takes (17 R363). -/
inductive Stopped where
  | wait (s : State)
  | integ (va : W64) (s : State)
  deriving DecidableEq, Repr

/-- Where a walk of F.CHASE stands at a node: its next pointer and its key word, where both may be read (14 R299). -/
def chaseKey (s : State) (die space : Nat) (p koff : W64) : Except Stopped (Option (Nat × Nat × State)) :=
  if bits p 55 9 ≠ die ∨ bits (p + 8 * koff) 55 9 ≠ die then .ok none
  else match spanRead s die space p 8 with
    | .wait s => .error (.wait s)
    | .fail .integ v s => .error (.integ v s)
    | .fail _ _ _ => .ok none
    | .ok next s => match spanRead s die space (p + 8 * koff) 8 with
      | .wait s => .error (.wait s)
      | .fail .integ v s => .error (.integ v s)
      | .fail _ _ _ => .ok none
      | .ok bs s => .ok (some (leNat bs, leNat next, s))

/-- Cycles that the service takes longer for a node read after the first (14 R302). -/
def nodeTime (s : State) (die space : Nat) (p : W64) : Nat :=
  match (s.die die).walk space p with | .leaf x => tMem (pteTier x) + 8 | _ => 0

/-- What the walk of F.CHASE has found: the node, st, and the cycles its service takes longer. -/
structure Chased where
  node : W64
  st : Nat
  late : Nat
  deriving DecidableEq, Repr

/-- The walk of F.CHASE (14 R299) from node `p`, after `k` nodes; or it stops while a page is brought in, or at an error. -/
def chaseWalk (die space : Nat) (cond : Nat) (koff key : W64) (hops : Nat) : Nat → Nat → Nat → W64 → State →
    Except Stopped (Chased × State)
  | 0, k, late, p, s => .ok ({ node := p, st := 96 + k, late := late }, s)
  | fuel + 1, k, late, p, s =>
    if p = 0 then .ok ({ node := 0, st := 32 + k, late := late }, s)
    else match chaseKey s die space p koff with
      | .error e => .error e
      | .ok none => .ok ({ node := p, st := 96 + k, late := late }, s)
      | .ok (some (x, next, s)) =>
        let late := if k = 0 then late else late + nodeTime s die space p
        let k := k + 1
        let hit := match cond with
          | 0 => decide (w64 x = key)
          | 1 => decide (key.toNat ≤ x)
          | 2 => key.sle (w64 x)
          | _ => false
        if hit then .ok ({ node := p, st := k, late := late }, s)
        else if k = hops then .ok ({ node := w64 next, st := 64 + k, late := late }, s)
        else chaseWalk die space cond koff key hops fuel k late (w64 next) s

/-- A sketch operation as a service: an operation that only reports leaves nothing behind but what R270 and R272 keep. -/
def SkOut.served {α : Type} (r : SkOut α) (s0 : State) (f : α → State → Served) : Served :=
  match r with
  | .ok a s => f a s
  | .wait _ => .wait s0
  | .fail c v s => .report c v (if c = .sketch ∨ c = .integ then s else s0)

/-- The value of an update: FP32 or FP64 bits. -/
def skValue (d : BitVec 1) (v : Nat) : Val := if d = 0 then valueOf 1 (v % 2 ^ 32) else valueOf 0 v

/-- The place in a peer package of an address, where the die that issued an operation maps its page there (13 R269; 17 R345). -/
def State.apPage (s : State) (o : FarOp) (a : W64) : Option Place :=
  if o.by_.isSome || decide (bits a 55 9 ≠ s.myDie) then none
  else match (s.die s.myDie).walk o.space a with
    | .leaf x => if pteAp x then placeOf (s.die s.myDie) s.myDie a x else none
    | _ => none

/-- Bytes of the second operand of an operation are gathered before it is served: some of them lie in a peer package, or they have
come with a peer's request. -/
def State.gathers (s : State) (o : FarOp) : Bool :=
  o.by_.isSome || (match o.i with
    | .fSkupN _ =>
      (piecesOf (o.args.getD 0 0).toNat (valueBytes o.i * (o.args.getD 1 0).toNat)).any fun p => (s.apPage o (w64 p.1)).isSome
    | .fSkadd => (s.apPage o (o.args.getD 0 0)).isSome
    | _ => false)

/-- So many bytes of the second operand are there, or no more will come. -/
def FarOp.gathered (o : FarOp) (n : Nat) : Bool := o.by_.isSome || o.gotFail.isSome || decide (n ≤ o.got.length)

/-- A value of an F.SKUP.n: in a die of the package, or gathered (13 R269, R270). -/
def FarOp.value (o : FarOp) (s : State) (a : W64) (n : Nat) (f : List Byte → State → Served) : Served :=
  if s.gathers o then
    let bs := (o.got.drop (a - o.args.getD 0 0).toNat).take n
    if bs.length = n then f bs s
    else match o.gotFail with
      | some (c, v) => .report c v s
      | none => .report .xlat a s
  else (nearRead s (bits a 55 3) o.space a n).served f

/-- F.SKUP.n from element `j` on (13 R270). -/
def serveSkupN (o : FarOp) (d : BitVec 1) : Nat → Nat → State → Served
  | 0, _, s => .ok [] 0 s
  | m + 1, j, s =>
    let n := valueBytes o.i
    o.value s (o.args.getD 0 0 + w64 (n * j)) n fun bs s1 =>
      (skup s1 o.die o.space o.va (o.args.getD 2 0 + w64 j) (skValue d (leNat bs))).served s fun _ s =>
        serveSkupN o d m (j + 1) s

/-- A result of an F.SKQ.n is written: in a die of the package, or to a peer package as its page is mapped (13 R271; 17 R345). -/
def FarOp.putValue (o : FarOp) (s : State) (a : W64) (bs : List Byte) (f : State → Served) : Served :=
  match s.apPage o a with
  | none => (nearWrite s (bits a 55 3) o.space a bs).served fun _ s => f s
  | some p => match p.peer with
    | some q =>
      if !p.w then .report .perm a s
      else f { s with peerOut := s.peerOut ++ [{ core := s.actor, eng := .f, package := q, addr := p.off, n := 0, data := bs }] }
    | none => .report .xlat a s

/-- F.SKQ.n from element `j` on (13 R271); the results of a peer's request go back with its answer. -/
def serveSkqN (o : FarOp) (int : Bool) : Nat → Nat → List W64 → State → Served
  | 0, _, acc, s => .ok acc 0 s
  | m + 1, j, acc, s =>
    let n := valueBytes o.i
    (skq s o.die o.space o.va (o.args.getD 2 0 + w64 j) int []).served s fun x s =>
      if o.by_.isSome then serveSkqN o int m (j + 1) (acc ++ [w64 x]) s
      else o.putValue s (o.args.getD 0 0 + w64 (n * j)) (leBytes x n) fun s => serveSkqN o int m (j + 1) acc s

/-- The span of a sketch of a peer package lies in one tier of one die there (13 R266; log entry 31). -/
def State.peerSpanOk (s : State) (o : FarOp) (src : W64) (h : Sk) : Bool :=
  let at_ := fun a => (s.apPage o a).map fun p => (p.peer, p.off / 2 ^ 55, Config.peerTier (p.peer.getD 0) (p.off / 4096) % 2)
  (piecesOf src.toNat h.span).all fun p => decide (at_ (w64 p.1) = at_ src)

/-- F.SKADD (13 R272): a source sketch in a peer package is first read whole. -/
def serveSkadd (s : State) (o : FarOp) : Served :=
  let src := o.args.getD 0 0
  let run := fun x => (skadd s o.die o.space o.va src x).served s fun _ s => .ok [] 0 s
  if !s.gathers o then run (.mem (bits src 55 3) o.space)
  else
    let h := skOf src (o.got.take 64)
    let need := if o.got.length < 64 then 64 else (h.map Sk.span).getD 64
    if !o.gathered need then .ask need
    else match o.gotFail, h with
      | some (c, v), _ => .report c v s
      | none, some h => if o.by_.isNone && !s.peerSpanOk o src h then .report .sketch src s else run (.come o.got)
      | none, none => run (.come o.got)

/-- The updates the querying core has logged earlier in the leg to a sketch (13 R275). -/
def Core.ownLog (k : Core) (o : FarOp) : List (W64 × Val) :=
  if o.leg.isNone then []
  else (k.far.takeWhile fun x => x != o).filterMap fun x =>
    match x.i with
    | .fSkup d => if x.leg = o.leg ∧ x.va = o.va then some (x.args.getD 1 0, skValue d (x.args.getD 0 0).toNat) else none
    | _ => none

/-- Serves an operation whole, a query with the updates its core has logged (14 R287, R290, R297-R300; 13 R270-R272, R275). -/
def serveFar (s : State) (o : FarOp) (own : List (W64 × Val)) : Served :=
  let v := fun j => o.args.getD j 0
  match o.i with
  | .fAmo op t =>
    let n := amoBytes t
    targetRead s o n true fun bs s =>
      targetWrite s o (leBytes (amoNew op t (leNat bs) ((v 0).toNat % 256 ^ n)) n) fun s => .ok [] 0 s
  | .fAmoR op t =>
    let n := amoBytes t
    targetRead s o n true fun bs s =>
      targetWrite s o (leBytes (amoNew op t (leNat bs) ((v 0).toNat % 256 ^ n)) n) fun s => .ok [w64 (leNat bs)] 0 s
  | .fCas w =>
    serveCas s o (casBytes w) 1 [v 1] [v 0] fun _ old s => .ok [w64 (old.getD 0 0)] 0 s
  | .fCasM n w =>
    let c := casCount n
    serveCas s o (casBytes w) c (o.data.take c) (o.data.drop c) fun ok old s => .ok (boolW ok :: old.map w64) 0 s
  | .fEnq => serveEnq s o (v 0) false
  | .fEnqR => serveEnq s o (v 0) true
  | .fChase h c k =>
    match chaseWalk o.die o.space c.toNat (w64 k.toNat) (v 0) (h.toNat + 1) (h.toNat + 1) 0 0 o.va s with
    | .error (.wait s) => .wait s
    | .error (.integ a s) => .report .integ a s
    | .ok (x, s) => .ok [x.node, w64 x.st] x.late s
  | .fRld _ sgn z => targetRead s o (2 ^ z.toNat) false fun bs s => .ok [extendBytes (sgn == 1) bs] 0 s
  | .fRst _ z => serveStore s o (if o.flush.isEmpty then (leBytes (v 1).toNat (2 ^ z.toNat)).map some else o.flush)
  | .fSkup d => (skup s o.die o.space o.va (v 1) (skValue d (v 0).toNat)).served s fun _ s => .ok [] 0 s
  | .fSkupN d =>
    let n := valueBytes o.i * (v 1).toNat
    if s.gathers o ∧ !o.gathered n then .ask n else serveSkupN o d (v 1).toNat 0 s
  | .fSkq i => (skq s o.die o.space o.va (v 0) (i == 1) own).served s fun x s => .ok [w64 x] 0 s
  | .fSkqN i => serveSkqN o (i == 1) (v 1).toNat 0 [] s
  | .fSkadd => serveSkadd s o
  | _ => .ok [] 0 s

/-! ## Order of service -/

/-- The Wallower at an address of a die: 0 and 1 at the stacks, 2 at the capacity tier (14 R287, 13 R266). -/
def State.unitAt (s : State) (die space : Nat) (va : W64) : Option Nat :=
  match ownerXlat s die space va false false with
  | .at_ p _ => some (if p.tier = 0 then (s.die die).stackOf p.off else 2)
  | _ => none

/-- The Wallower that serves an operation. -/
def State.wallowerOf (s : State) (o : FarOp) : Option Nat :=
  match o.loc with
  | some (tier, off, _) => some (if tier = 0 then (s.die o.die).stackOf off else 2)
  | none => s.unitAt o.die o.space o.va

/-- Remote loads and stores carry alias classes; the write of a combining-buffer entry has none (14 R288, R292). -/
def FarOp.classed (o : FarOp) : Bool := o.flush.isEmpty && (match o.i with | .fRld _ _ _ | .fRst _ _ => true | _ => false)

/-- Two operations may touch a common block (14 R288). -/
def FarOp.meets (a b : FarOp) : Bool :=
  (a.dies.any fun x => b.dies.contains x) && (!(oneBlock a.i && oneBlock b.i) || decide (a.va.toNat / 64 = b.va.toNat / 64))

/-- An earlier operation of one core comes before a later one (14 R288; 13 R274). -/
def FarOp.before (a b : FarOp) (alias_ : Bool) : Bool :=
  (decide (a.mt = 3) && decide (b.mt = 3)) ||
    (a.meets b && !(alias_ && a.classed && b.classed && decide (a.cls ≠ b.cls) && decide (a.mt < 2) && decide (b.mt < 2)))

/-- Every operation of the acting core that comes before its j-th has been performed. -/
def State.farTurn (s : State) (j : Nat) (o : FarOp) : Bool :=
  (s.me.far.take j).all fun a => a.served || a.logged || !(s.typed a).before (s.typed o) (s.me.aliasMode 6)

/-- The 64-byte blocks that a word names, of those an operation touches. -/
def FarOp.blocks (o : FarOp) : List Nat :=
  (o.va.toNat / 64) :: (match o.i with | .fEnq | .fEnqR => [(o.args.getD 0 0).toNat / 64] | _ => [])

/-- Two operations touch a common block of a die. -/
def FarOp.sharesBlock (a b : FarOp) : Bool :=
  decide (a.die = b.die) && decide (a.space = b.space) && a.blocks.any b.blocks.contains

/-- No operation of another core, or request of a peer package, that has arrived earlier at a block of an untimed operation of the
acting core and has its turn is still to be served (14 R287). -/
def State.arrivalTurn (s : State) (o : FarOp) : Bool :=
  match o.leg, o.arrived with
  | none, some a =>
    (s.cores.all fun p => decide (p.1 = s.actor) || (List.range p.2.far.length).all fun j => match p.2.far[j]? with
      | some x => x.served || x.peer.isSome || x.leg.isSome || !x.arrived.any (fun b => decide (b < a)) || !x.sharesBlock o ||
          !({ s with actor := p.1 } : State).farTurn j x
      | none => true) &&
      s.inbound.all fun r => r.placed.isSome || decide (a ≤ r.at_) || decide (bits r.addr 55 3 ≠ o.die) ||
        decide (bits ((s.die o.die).reg 351) 0 4 ≠ o.space) || !o.blocks.contains (r.addr.toNat / 64)
  | _, _ => true

/-! ## Placed arrivals -/

/-- (placed issue cycle, core) of a packet comes first; packets of one core and cycle keep their order (14 R289). -/
def packetFirst (a b : Packet) : Bool :=
  decide (a.placed < b.placed) || (decide (a.placed = b.placed) && decide (a.core < b.core))

/-- Puts a packet into a list in order. -/
def packetInsert (x : Packet) : List Packet → List Packet
  | [] => [x]
  | y :: ys => if packetFirst x y then x :: y :: ys else y :: packetInsert x ys

/-- The packets for a slot: the next in order, all for one package, up to its count (14 R279, R289; log entry 31). -/
def Slot.takes (x : Slot) (ps : List Packet) : List Packet :=
  (ps.takeWhile fun p => decide (some p.package = ps.head?.map (·.package))).take x.tag

/-- The slots by their cycles. -/
def slotInsert (x : Slot) : List Slot → List Slot
  | [] => [x]
  | y :: ys => if x.cycle < y.cycle then x :: y :: ys else y :: slotInsert x ys

/-- The F slots of a table that take the packets of a station, were there no breach, with the arrivals they give (14 R289). -/
def assignSlots (die tStart : Nat) : List Slot → List Packet → List (Packet × Nat)
  | [], _ => []
  | x :: xs, ps =>
    let took := x.takes (ps.filter fun p => decide (p.dest = x.dest) && decide (p.placedFrom ≤ tStart + x.cycle))
    (took.map fun p => (p, tStart + x.cycle + 12 * hopsBy (stationOf die) x.dest x.dir)) ++
      assignSlots die tStart xs (ps.filter fun p => !took.contains p)

/-- The placed arrival of a core's packet of the current leg of its die: by the slot it leaves in where nothing is late; none where
it misses every slot (14 R289). -/
def State.placedArrival (s : State) (core place : Nat) : Option Nat :=
  let die := core / 512
  match (s.die die).trav with
  | none => none
  | some t =>
    let m := (s.die die).timed
    let slots := ((m.slots ++ m.gone.map (·.2)).filter fun x => decide (1 ≤ x.tag ∧ x.tag ≤ 8) && decide (x.lane < 4)).foldl
      (fun acc x => slotInsert x acc) []
    let ps := (m.packets.filter fun p => decide (p.leg = some t.tStart)).foldl (fun acc p => packetInsert p acc) []
    ((assignSlots die t.tStart slots ps).find? fun x => decide (x.1.core = core) && decide (x.1.place = place) && !x.1.reply).map
      (·.2)

/-- The fixed path time from a core to a Wallower of a die (14 R289). -/
def pathTime (core die : Nat) : Nat := if core / 512 = die then 9 else 1 + 12 * ringHops (core / 512) die

/-- A lagging core of a leg can still give a placed arrival at or before one (14 R289). -/
def State.lagHolds (s : State) (leg die at_ : Nat) : Bool :=
  s.cores.any fun p => p.2.leg.timed && decide (0 < (p.2.en .f).lag) &&
    (match (s.die (p.1 / 512)).trav with | some t => decide (t.tStart = leg) | none => false) &&
    decide (s.cycle - (p.2.en .f).lag + pathTime p.1 die ≤ at_)

/-- An F slot to the station of a die that is late would arrive, by its place, at or before a cycle (14 R289). -/
def State.slotHolds (s : State) (leg die at_ : Nat) : Bool :=
  s.dies.any fun p => (match p.2.trav with | some t => decide (t.tStart = leg) | none => false) &&
    p.2.timed.slots.any fun x => decide (1 ≤ x.tag ∧ x.tag ≤ 8) && decide (x.lane < 4) && decide (x.dest = stationOf die) &&
      decide (leg + x.cycle < s.cycle) && decide (leg + x.cycle + 12 * hopsBy (stationOf p.1) x.dest x.dir ≤ at_)

/-- (placed arrival, package number, package index of its core, issue) of a timed request comes first (14 R289). -/
def placedFirst (a b : Nat × Nat × Nat × Nat) : Bool :=
  decide (a.1 < b.1) || (decide (a.1 = b.1) && (decide (a.2.1 < b.2.1) || (decide (a.2.1 = b.2.1) &&
    (decide (a.2.2.1 < b.2.2.1) || (decide (a.2.2.1 = b.2.2.1) && decide (a.2.2.2 < b.2.2.2))))))

/-- The place of a timed operation of a core among the requests of its leg; none where it misses every slot and has not left. -/
def State.placeIn (s : State) (core : Nat) (o : FarOp) : Option (Nat × Nat × Nat × Nat) :=
  (o.arrive.or (s.placedArrival core o.place)).map fun a => (a, s.package, core, o.place)

/-- The place of a timed request of a peer package among the requests of the leg. -/
def Inbound.placeIn (r : Inbound) : Option (Nat × Nat × Nat × Nat) :=
  r.placed.map fun p => (p.1, r.package, r.core, p.2)

/-- A timed operation of the acting core has its turn: no request of its leg that comes before it may still be served
(14 R289). -/
def State.timedTurn (s : State) (o : FarOp) : Bool :=
  match o.leg, o.arrive with
  | some l, some a =>
    let mine := (a, s.package, s.actor, o.place)
    !s.lagHolds l o.die a && !s.slotHolds l o.die a &&
      (s.cores.all fun p => p.2.far.all fun x =>
        x.served || x.logged || decide (x.leg ≠ o.leg) || !x.meets o || !(s.placeIn p.1 x).any fun b => placedFirst b mine) &&
      s.inbound.all fun r => decide (bits r.addr 55 3 ≠ o.die) || decide (r.addr.toNat / 64 ≠ o.va.toNat / 64) ||
        !r.placeIn.any fun b => placedFirst b mine
  | _, _ => true

/-- A logged update of an earlier leg at the same Wallower has yet to be applied (13 R275). -/
def State.logBefore (s : State) (o : FarOp) : Bool :=
  s.cores.any fun p => p.2.far.any fun x =>
    x.logged && !x.served && decide (x.die = o.die) && (match o.leg, x.leg with | some a, some b => decide (b < a) | _, _ => false)

/-- The holders whose token an operation of the core's die must see revoked (14 R294). -/
def State.tokenHolds (s : State) (o : FarOp) : Bool :=
  let me := (s.package, s.myDie)
  (s.die o.die).tokens.any fun t =>
    decide (t.space = o.space) && decide (t.region = o.va.toNat / 2 ^ 21) &&
      (match o.i with
        | .fRld _ _ _ => t.excl && !t.holders.contains me
        | .fRst _ _ => !t.holders.contains me || (!t.excl && decide (t.holders ≠ [me]))
        | _ => !t.holders.contains me)

/-- What is left of an access of the acting core that waits: the walks it has asked for. -/
def State.keepWalks (s t : State) : State := s.updMe fun k => { k with walks := t.me.walks }

/-- What is left of a service that waits: the pages it has found not present. -/
def State.keepFaults (s t : State) : State :=
  (List.range 8).foldl (fun s d => s.updDie d fun x => { x with faults := (t.die d).faults }) s

/-- Cycles a Wallower is taken by an operation: it starts at most one a cycle; an update takes 4d, an F.SKADD moves 64 bytes of
counters a cycle (14 R287; 13 R277). -/
def State.unitTime (s : State) (o : FarOp) : Nat :=
  match o.i, s.headAt o.die o.space o.va with
  | .fSkup _, some h => 4 * h.d
  | .fSkadd, some h => (h.span - 64 + 63) / 64
  | _, _ => 1

/-- A Wallower of a die has come up, or bring-up has ended without it (19 R396-R398; log entry 94). -/
def State.unitUp (s : State) (die w : Nat) : Bool := ((s.die die).reg 500).getLsbD (19 + w) || s.bringUpDone

/-- A Wallower of a die may start an operation: each die has three (14 R287). -/
def State.unitFree (s : State) (die w : Nat) : Bool :=
  decide (w < 3) && s.unitUp die w && decide (SMap.get 0 (s.die die).wallower w ≤ s.cycle)

/-- A Wallower of a die has started an operation. -/
def State.occupy (s : State) (die w n : Nat) : State :=
  s.updDie die fun d => { d with wallower := SMap.set 0 d.wallower w (s.cycle + n) }

/-- Wallower `w` may serve the k-th operation of the acting core now: the operation has come, and it is its turn (14 R287-R289,
R294; 13 R274, R275). -/
def State.mayServe (s : State) (w k : Nat) (o : FarOp) : Bool :=
  o.ready.any (fun c => decide (c ≤ s.cycle)) && !o.served && o.peer.isNone && !o.logged &&
    (match s.wallowerOf o with | some x => decide (x = w) | none => true) &&
    s.unitFree o.die w && s.farTurn k o && s.arrivalTurn o && s.timedTurn o && !s.logBefore o && !s.tokenHolds o

/-! ## Replies -/

/-- The die of an operation's Wallower takes part in the operation's leg (14 R289). -/
def State.inLeg (s : State) (o : FarOp) : Bool :=
  match (s.die o.die).trav, o.leg with | some t, some l => decide (t.tStart = l) | _, _ => false

/-- The reply of an operation of a core leaves its Wallower: over the die network, or as a packet of the station there
(14 R289, R302; 01 R23). -/
def State.answer (s : State) (core : Nat) (o : FarOp) (r : List W64) (e : Option (Cause × W64)) (late : Nat) : State :=
  let near := decide (o.die = core / 512)
  let done := { o with served := true, result := r, report := e, back := if near then some (s.cycle + late + o.way) else none }
  let s := s.updCore core fun c => { c with far := c.far.map fun x => if x = o then done else x }
  if near then s
  else s.updDie o.die fun d => d.queuePacket
    { core := core, place := o.place, reply := true, dest := stationOf (core / 512), from_ := s.cycle + late
      placed := o.placed, leg := if s.inLeg o then o.leg else none, placedFrom := s.cycle + late - o.lag }

/-- The acting core's operation, changed. -/
def State.setFar (s : State) (k : Nat) (o : FarOp) : State := s.updMe fun c => { c with far := c.far.set k o }

/-- Further bytes of the second operand of an operation of the acting core, up to `n` of them, page by page: from a die of the
package, or asked of the peer package that its page is mapped to (13 R269; 17 R345; log entry 2). -/
def State.askOperand (s : State) (k : Nat) (o : FarOp) (n : Nat) : State :=
  let a := o.args.getD 0 0 + w64 o.got.length
  let here := min (n - o.got.length) (4096 - a.toNat % 4096)
  match s.me.peerGot.find? fun m => decide (m.operand = some o.place) with
  | some m =>
    let s := s.updMe fun c => { c with peerGot := c.peerGot.erase m }
    match m.report with
    | some c => s.setFar k { o with gotFail := some (c, m.tval.getD a) }
    | none => s.setFar k { o with got := o.got ++ m.data, asked := false }
  | none =>
    if o.asked then s
    else match s.apPage o a with
      | some p =>
        if !p.rd then s.setFar k { o with gotFail := some (.perm, a) }
        else { s.setFar k { o with asked := true } with peerOut := s.peerOut ++
          [{ core := s.actor, eng := .f, package := p.peer.getD 0, addr := p.off, n := here, data := [], operand := some o.place }] }
      | none => match nearRead s (bits a 55 3) o.space a here with
        | .ok bs s => s.setFar k { o with got := o.got ++ bs }
        | .wait t => s.keepFaults t
        | .fail c v s => s.setFar k { o with gotFail := some (c, v) }

/-- Bytes that a request to a peer package brings with it: the values of an F.SKUP.n, or, as far as its header says, the sketch that is
added (13 R270, R272; log entry 2). -/
def State.shipped (_s : State) (o : FarOp) : Nat :=
  match o.i with
  | .fSkupN _ => valueBytes o.i * (o.args.getD 1 0).toNat
  | .fSkadd => if o.got.length < 64 then 64 else ((skOf (o.args.getD 0 0) (o.got.take 64)).map Sk.span).getD 64
  | _ => 0

/-- An operation for a peer package whose second operand fails before any of it can be sent is reported (13 R269, R273). -/
def State.unsendable (_s : State) (o : FarOp) : Option (Cause × W64) :=
  if o.peer.isNone || o.served || o.sent then none
  else match o.i with
    | .fSkupN _ => if o.got.length < valueBytes o.i then o.gotFail else none
    | .fSkadd => o.gotFail
    | _ => none

/-! ## Requests of peer packages -/

/-- The bytes that a request writes, none where not enabled. -/
def Inbound.masked (r : Inbound) : List (Option Byte) :=
  match r.enable with
  | none => r.data.map some
  | some m => r.data.mapIdx fun j b => if m.testBit j then some b else none

/-- The operation that a request of a peer package carries, in the space DG_INBOUND names; a write is a store of its bytes, and the
values or the second sketch that an operation names come with it (14 R286; 17 R345; log entry 2). -/
def Inbound.toOp (r : Inbound) (space : Nat) : Option FarOp :=
  let word := fun j => BitVec.ofNat 16 (r.op / 2 ^ (16 * j))
  let base : FarOp := { i := .fRst 0 3, args := r.args, tpc := r.ident, place := (r.placed.map (·.2)).getD 0, va := r.addr,
                        die := bits r.addr 55 3, peer := some r.package, block := true, due := 0, space := space
                        by_ := some (r.package, r.die), ord := (r.placed.map (·.2)).getD 0 }
  if r.op = 0 then some { base with flush := r.masked }
  else match decode (if r.op < 2 ^ 16 then [word 0] else [word 0, word 1]) with
  | .ok i =>
    let n := match i with | .fCasM _ _ => 2 | _ => r.args.length
    some { base with i := i, args := r.args.take n, data := r.args.drop n, got := r.data }
  | .error _ => none

/-! ### Tokens (14 R294, R295) -/

/-- The directory's entry for a region. -/
def Die.token (d : Die) (space region : Nat) : Option Token :=
  d.tokens.find? fun t => decide (t.space = space) && decide (t.region = region)

/-- Replaces an entry of the directory, in its place, or drops it; a new one comes last. -/
def Die.putToken (d : Die) (t : Token) : Die :=
  let here := fun (x : Token) => decide (x.space = t.space) && decide (x.region = t.region)
  { d with tokens := if t.holders.isEmpty then d.tokens.filter fun x => !here x
                     else if d.tokens.any here then d.tokens.map fun x => if here x then t else x else d.tokens ++ [t] }

/-- A holder has been granted a token: the latest grant. -/
def Die.grant (d : Die) (t : Token) (h : Nat × Nat) : Die :=
  let g := (t.space, t.region, h)
  { d.putToken t with grants := d.grants.filter (· != g) ++ [g] }

/-- A holder has given up its token. -/
def Die.giveUp (d : Die) (t : Token) (h : Nat × Nat) : Die :=
  { d.putToken { t with holders := t.holders.filter (· != h) } with grants := d.grants.filter (· != (t.space, t.region, h)) }

/-- What a request for a token needs revoked in an entry: the other holders, or the one of longest standing (14 R294). -/
inductive Conflict where
  | none
  | others
  | oldest
  deriving DecidableEq, Repr

/-- The conflict of a request with the entry of its region. -/
def Token.conflict (t : Token) (me : Nat × Nat) (form : Nat) : Conflict :=
  if form = 0 then
    (if t.holders.contains me then .none
     else if t.excl then .others
     else if 16 ≤ t.holders.length then .oldest else .none)
  else if form = 1 then (if t.holders.all (· == me) then .none else .others)
  else .none

/-- The entry of a region without what a request stands against. -/
def State.resolve (s : State) (die : Nat) (t : Token) (me : Nat × Nat) (form : Nat) : State :=
  match t.conflict me form with
  | .none => s
  | .oldest => s.retoken die t (t.holders.drop 1)
  | .others => s.retoken die t (t.holders.filter (· == me))

/-- A directory that is full, without the holder that was granted longest ago (14 R294). -/
def State.dropOldest (s : State) (die : Nat) : State :=
  match (s.die die).grants with
  | [] => s
  | (sp, region, h) :: _ => match (s.die die).token sp region with
    | some t => s.retoken die t (t.holders.filter (· != h))
    | none => s.updDie die fun d => { d with grants := d.grants.drop 1 }

/-- A directory of so many regions is full (14 R294). -/
def Die.directoryFull (d : Die) : Bool := decide (16384 ≤ d.tokens.length)

/-- The entry of a region once a request for its token has been granted. -/
def Token.granted (t : Token) (me : Nat × Nat) (form : Nat) : Token :=
  if form = 0 then (if t.holders.contains me then t else { t with excl := false, holders := t.holders ++ [me] })
  else { t with excl := true, holders := [me] }

/-- The entry of a region, or one that nobody holds. -/
def Die.tokenOr (d : Die) (space region : Nat) : Token :=
  (d.token space region).getD { space := space, region := region, excl := false, holders := [] }

/-- What a token request finds at its region's first page: a wait, a cause, or the page (14 R295). -/
def tokenPage (s : State) (die space : Nat) (va : W64) (form : Nat) : Except (Option Cause × State) State :=
  match ownerXlat s die space va (decide (form < 2)) false with
  | .absent s => .error (none, s)
  | .fail c s => .error (some c, s)
  | .at_ p s => if p.mt ≠ 0 || (form == 1 && !p.w) then .error (some .token, s) else .ok s

/-- A token request of a peer package: granted once what it stands against has been revoked (14 R294, R295). -/
def serveToken (s : State) (r : Inbound) (space form : Nat) : Served :=
  let die := bits r.addr 55 3
  let me := (r.package, r.die)
  let region := r.addr.toNat / 2 ^ 21
  match tokenPage s die space r.addr form with
  | .error (none, s) => .wait s
  | .error (some c, s) => .report c r.addr s
  | .ok s =>
    if form = 2 then
      .ok [] 0 (s.updDie die fun d => match d.token space region with | some t => d.giveUp t me | none => d)
    else
      let s := s.resolve die ((s.die die).tokenOr space region) me form
      let s := if ((s.die die).token space region).isNone && (s.die die).directoryFull then s.dropOldest die else s
      let t := (s.die die).tokenOr space region
      .ok [] 0 (s.updDie die fun d => d.grant (t.granted me form) me)

/-! ### Service of a request -/

/-- A page of the die is translated for a peer package, and pinned for it, or no longer (11 R235; 17 R348). -/
def servePage (s : State) (r : Inbound) (space form : Nat) (write : Bool) : Served :=
  let die := bits r.addr 55 3
  match ownerXlat s die space r.addr (form == 0 && !write) (form == 0 && write) with
  | .absent s => .wait s
  | .fail c s => .report c r.addr s
  | .at_ p s =>
    let key : PageKey := (die, p.tier, p.off / pageSize p.size * pageSize p.size / 4096, p.size)
    if form = 1 then (match s.pinAll [key] with | some s => .ok [] 0 s | none => .wait s)
    else if form = 2 then .ok [] 0 (s.unpinAll [key])
    else .ok [] 0 s

/-- Serves a request of a peer package: an access, the counter add of a copy, a token request, a page to be translated or pinned, or a
far operation; tokens that stand against it are revoked first (14 R286, R287, R294; 11 R235, R240). -/
def serveInbound (s : State) (r : Inbound) (space : Nat) : Served :=
  let die := bits r.addr 55 3
  let free := fun (n : Nat) (write : Bool) => s.revokeFor (r.package, r.die) die space r.addr n write
  match r.page with
  | some (form, write) => servePage s r space form write
  | none =>
  if 0xE380 ≤ r.op ∧ r.op < 0xE383 then serveToken s r space (r.op - 0xE380)
  else if r.op = 0x8140 then
    (nearRead (free 8 true) die space r.addr 8).served fun bs s =>
      (nearWrite s die space r.addr (leBytes ((leNat bs + (r.args.getD 0 0).toNat) % 2 ^ 64) 8)).served fun _ s => .ok [] 0 s
  else if r.op = 0 ∧ r.data.isEmpty then
    (nearRead (free r.n false) die space r.addr r.n).served fun bs s => .ok (bs.map fun b => w64 b.toNat) 0 s
  else match r.toOp space with
    | some o => serveFar s o []
    | none => .report .ill r.addr s

/-- The bytes of an answer: those read, or the words of a result. -/
def Inbound.bytes (r : Inbound) (ws : List W64) : List Byte :=
  if r.op = 0 then ws.map fun w => BitVec.ofNat 8 w.toNat else ws.flatMap fun w => leBytes w.toNat 8

/-- A timed update of a peer package: it stays logged until the leg is over (13 R275). -/
def Inbound.logged (r : Inbound) : Bool := r.placed.isSome && (r.op == 0xC200 || r.op == 0xC201)

/-- The cycles that the Wallower is taken by a request, and those from its arrival to its effect (01 R23; 13 R277). -/
def Inbound.unitTime (r : Inbound) (s : State) (space : Nat) : Nat :=
  if 0xC000 ≤ r.op ∧ r.op < 2 ^ 16 then (match r.toOp space with | some o => s.unitTime o | none => 1) else 1
def Inbound.effectTime (r : Inbound) (s : State) (space : Nat) : Nat :=
  s.effectTime (bits r.addr 55 3) space r.addr +
    (if r.op = 0xC240 ∨ r.op = 0xC241 then s.queryTime (.fSkq 0) (bits r.addr 55 3) space r.addr else 0)

/-- The j-th request of a peer package has its turn: those of its core and those at its block that arrived earlier have been served, of
the package's own too, and in a leg what comes before it by its placed arrival (14 R287-R289; 13 R274). -/
def State.inboundTurn (s : State) (j : Nat) (r : Inbound) (space : Nat) : Bool :=
  let die := bits r.addr 55 3
  let block := r.addr.toNat / 64
  ((s.inbound.take j).all fun x => x.logged ||
      !((decide (x.package = r.package) && decide (x.core = r.core)) || decide (x.addr.toNat / 64 = block)) ||
        (x.placed.isSome && r.placed.isSome)) &&
    s.cores.all fun p => (List.range p.2.far.length).all fun i => match p.2.far[i]? with
      | some x => x.served || x.logged || x.peer.isSome || decide (x.die ≠ die) || decide (x.space ≠ space) || !x.blocks.contains block ||
          (match r.placeIn, x.leg with
            | some a, some _ => !(s.placeIn p.1 x).any fun b => placedFirst b a
            | _, _ => !x.arrived.any (fun b => decide (b < r.at_)) || !({ s with actor := p.1 } : State).farTurn i x)
      | none => true

/-- In a leg no request of a peer package at the block of another comes before it by its placed arrival (14 R289). -/
def State.inboundFirst (s : State) (r : Inbound) : Bool :=
  s.inbound.all fun x => x.logged || decide (x.addr.toNat / 64 ≠ r.addr.toNat / 64) ||
    (match x.placeIn, r.placeIn with | some b, some a => !placedFirst b a | _, _ => true)

/-- The j-th request of a peer package, at its die, is served; without DG_INBOUND.EN it is reported back (17 R345). -/
def State.answerInbound (s : State) (w j : Nat) : State :=
  match s.inbound[j]? with
  | none => s
  | some r =>
    let die := bits r.addr 55 3
    let reg := (s.die die).reg 351
    let space := bits reg 0 4
    let reply := fun (s : State) (n : Nat) (bs : List Byte) (e : Option (Cause × W64)) =>
      { (s.occupy die w n) with inbound := s.inbound.eraseIdx j, answers := s.answers ++
        [{ package := r.package, ident := r.ident, data := bs, report := e }] }
    if die ≠ s.myDie || !s.unitFree die w || r.logged || decide (s.cycle < r.at_ + r.effectTime s space) then s
    else if bits reg 4 1 = 0 then reply s 1 [] (some (.perm, r.addr))
    else if !s.inboundTurn j r space || !s.inboundFirst r then s
    else match serveInbound s r space with
      | .ok ws _ t => reply t (r.unitTime s space) (r.bytes ws) none
      | .report c v t => reply t 1 [] (some (c, v))
      | .wait t => s.keepFaults t
      | .ask _ => s

/-- WALLOWER_SERVICE (14 R287): Wallower `w` serves the k-th operation of the acting core, if it is its turn; from the last
operation on, `k` counts the requests of peer packages. -/
def execWallowerService (w : BitVec 2) (k : Nat) (s : State) : Out :=
  match s.me.far[k]? with
  | none => .next (s.answerInbound w.toNat (k - s.me.far.length))
  | some o =>
    if o.peer.isSome && !o.served && !o.sent && o.gotFail.isNone && decide (o.got.length < s.shipped o) then
      .next (s.askOperand k o (s.shipped o))
    else match s.unsendable o with
    | some e => .next ((s.answer s.actor o [] (some e) 0).updDie s.myDie fun d =>
        { d with packets := d.packets.filter fun p => !(decide (p.core = s.actor) && decide (p.place = o.place)) })
    | none =>
    if !s.mayServe w.toNat k o then .next s
    else match serveFar s o (s.me.ownLog o) with
      | .ok r late t => .next ((t.occupy o.die w.toNat (s.unitTime o)).answer s.actor o r none late)
      | .report c v t => .next ((t.occupy o.die w.toNat 1).answer s.actor o [] (some (c, v)) 0)
      | .wait t => .next (s.keepFaults t)
      | .ask n => .next (s.askOperand k o n)

/-! ## The replies at the core -/

/-- The words of some bytes. -/
def wordsOf (n : Nat) (bs : List Byte) : List W64 := (List.range n).map fun j => w64 (leNat ((bs.drop (8 * j)).take 8))

/-- The bytes a peer package has answered with, as the result of an operation (log entry 2). -/
def peerResult (o : FarOp) (bs : List Byte) : List W64 :=
  match o.i with
  | .fAmoR _ _ | .fCas _ | .fEnqR | .fSkq _ => wordsOf 1 bs
  | .fCasM n _ => wordsOf (casCount n + 1) bs
  | .fRld _ sgn z => [extendBytes (sgn == 1) (bs.take (2 ^ z.toNat))]
  | .fChase _ _ _ => wordsOf 2 bs
  | .fSkqN _ => wordsOf (o.args.getD 1 0).toNat bs
  | _ => []

/-- A message for the far engine that answers an operation. -/
def PeerMsg.answers (m : PeerMsg) : Bool :=
  decide (m.eng = .f) && m.load.isNone && !m.stored && m.rank.isNone && m.pad.isNone && m.copy.isNone && m.operand.isNone

/-- Takes the answer of a peer package for the oldest operation sent to one, no earlier than its time (14 R286). -/
def Core.takePeer (k : Core) (j : Nat) (o : FarOp) (cycle : Nat) : Core :=
  if o.served || o.peer.isNone || !o.sent || decide (cycle < o.due)
      || (k.far.take j).any (fun x => decide (x.peer = o.peer) && !x.served) then k
  else match k.peerGot.find? PeerMsg.answers with
    | none => k
    | some m => { k with
        peerGot := k.peerGot.erase m
        far := k.far.set j { o with served := true, back := some cycle, result := peerResult o m.data
                                    report := (m.report.map fun c => (c, m.tval.getD o.va)).or o.gotFail } }

/-- A message that answers a load nobody waits for any more. -/
def Core.unasked (k : Core) (m : PeerMsg) : Bool := m.load.isSome && !k.peerLoads.any m.loads

/-- A message of a peer package reaches the core it is for (log entry 2). -/
def State.takeMessage (s : State) (j : Nat) : State :=
  match s.peerIn[j]? with
  | none => s
  | some m => { s.updCore m.core fun k => { k with peerGot := if k.unasked m then k.peerGot else k.peerGot ++ [m] } with
      peerIn := s.peerIn.eraseIdx j }

/-- The reply of an operation is there. -/
def FarOp.come (o : FarOp) (cycle : Nat) : Bool := o.served && o.back.any fun c => decide (c ≤ cycle)

/-- What the end of a blocking word comes to: its result; a wait; a cause of a write of its own. -/
inductive Pushed where
  | ok (r : List W64) (s : State)
  | wait (s : State)
  | fail (c : Cause) (va : W64) (s : State)
  deriving DecidableEq, Repr

/-- Writes words of `size` bytes from an address on, each on its own page: those of an F.CAS memory form over the expected ones at ea
(14 R297), the results of an F.SKQ.n (13 R271). -/
def writeBack (size : Nat) (ea : W64) : Nat → List W64 → State → Pushed
  | _, [], s => .ok [] s
  | j, x :: xs, s =>
    let a := ea + w64 (j * size)
    match locate s a size false true with
    | .at_ p s =>
      let bs := leBytes x.toNat size
      (match p.peer with
        | some q => writeBack size ea (j + 1) xs { s with peerOut := s.peerOut ++
            [{ core := s.actor, eng := .f, package := q, addr := p.off, n := 0, data := bs }] }
        | none =>
          if s.waits p.die p.tier p.off size then .wait s
          else match s.farWrite s.actor (p.at_ a) bs p.mt with
            | (s, true) => writeBack size ea (j + 1) xs s
            | (s, false) => .fail .integ a s)
    | .wait s => .wait s
    | .fail c s => .fail c a s

/-- The result of an operation as its engine pushes it, once what it leaves in the core's own memory is written: the words an F.CAS
memory form writes back, the results of an F.SKQ.n on a sketch of a peer package. -/
def State.resultOf (s : State) (o : FarOp) : Pushed :=
  match o.i, o.result with
  | .fCasM _ w, ok :: old => match writeBack (casBytes w) (o.args.getD 0 0) 0 old s with | .ok _ s => .ok [ok] s | r => r
  | .fSkqN _, r => if o.peer.isSome then writeBack (valueBytes o.i) (o.args.getD 0 0) 0 r s else .ok [] s
  | _, r => .ok r s

/-- The F engine of the acting core goes on past a blocking word with its result. -/
def State.farPush (s : State) (o : FarOp) (r : List W64) : State :=
  s.updMe fun c => (c.updEn .f fun x => { x with stack := r.reverse ++ x.stack.drop o.args.length }).advance .f (lenInstr o.i) 1 s.cycle

/-- FAR_REPLY (14 R302): the reply of the k-th operation of the acting core arrives: a result is pushed and the engine goes
on, or the blocking word takes its report; an acknowledgement ends a posted one. From the last operation on, `k` counts the
messages of peer packages. -/
def execFarReply (k : Nat) (s : State) : Out :=
  if s.me.far.length ≤ k then .next (s.takeMessage (k - s.me.far.length))
  else
    let s := match s.me.far[k]? with
      | some o => if o.served then s else s.updMe fun c => c.takePeer k o s.cycle
      | none => s
    match s.me.far[k]? with
    | none => .next s
    | some o =>
      let gone := fun (s : State) => s.updMe fun c => { c with far := c.far.eraseIdx k }
      if !o.come s.cycle then .next s
      else match o.block, o.report with
        | true, some (c, v) => .next (if s.me.run = .running then takeTrap (gone s) 6 o.tpc c v else gone s)
        | true, none => (match s.resultOf o with
          | .ok r s => .next ((gone s).farPush o r)
          | .wait t => .next (s.keepWalks t)
          | .fail c v t => .next (if s.me.run = .running then takeTrap (gone t) 6 o.tpc c v else gone t))
        | false, some _ => .next s
        | false, none => match s.resultOf o with
          | .ok _ s => .next (gone s)
          | .wait t => .next (s.keepWalks t)
          | .fail c v t => .next (gone (t.updMe fun x => { x with
              reports := x.reports ++ [{ eng := .f, cause := c, tval := v, tpc := o.tpc }] }))

/-- REPORT_ARRIVAL (14 R291, 13 R273, R275): the report of the k-th operation of the acting core, a posted one, arrives; that of a
logged update is taken at an S word. -/
def execReportArrival (k : Nat) (s : State) : Out :=
  match s.me.far[k]? with
  | none => .next s
  | some o =>
    match o.report with
    | some (c, v) =>
      if o.block || !o.come s.cycle then .next s
      else .next (s.updMe fun x => { x with
        far := x.far.eraseIdx k
        reports := x.reports ++ [{ eng := .f, cause := c, tval := v, tpc := o.tpc, atS := o.logged }] })
    | none => .next s

/-- COMBINE_TIMER_FLUSH (14 R292): the k-th combining-buffer entry of the acting core flushes 256 cycles after its
allocation; entries flush in allocation order. -/
def execCombineTimerFlush (k : Nat) (s : State) : Out :=
  match s.me.comb[k]? with
  | none => .next s
  | some c => if k = 0 ∧ c.cycle + 256 ≤ s.cycle then .next (s.flushComb fun y => decide (y.va = c.va)) else .next s

/-! ## The sketch log -/

/-- A logged update: the package and the core that issued it, and its operation; the `tpc` of one of a peer package is its ident. -/
abbrev Logged := Nat × Nat × FarOp

/-- The logged updates at a Wallower of the acting core's die. -/
def State.skLog (s : State) (w : Nat) : List Logged :=
  s.cores.flatMap fun p => (p.2.far.filter fun o => o.logged && !o.served && o.peer.isNone && decide (o.die = s.myDie) &&
    (match s.wallowerOf o with | some x => decide (x = w) | none => true)).map fun o => (s.package, p.1, o)

/-- The logged updates of peer packages at a Wallower of the acting core's die (13 R275; log entry 2). -/
def State.peerLog (s : State) (w : Nat) : List Logged :=
  let reg := (s.die s.myDie).reg 351
  (s.inbound.filter fun r => r.logged && decide (bits r.addr 55 3 = s.myDie) && bits reg 4 1 == 1).filterMap fun r =>
    (r.toOp (bits reg 0 4)).bind fun o =>
      if (match s.wallowerOf o with | some x => decide (x = w) | none => true) then some (r.package, r.core, o) else none

/-- The timed part of a leg has ended on every core that takes part in it, those that entered late included (05 R113). -/
def State.legOver (s : State) (tStart : Nat) : Bool :=
  s.cores.all fun p =>
    decide (p.2.leg.go ≠ some tStart) && !(p.2.leg.timed &&
      (match (s.die (p.1 / 512)).trav with | some t => decide (t.tStart = tStart) | none => false))

/-- (k, g, c) of a logged update comes first (13 R275). -/
def logFirst (a b : Logged) : Bool :=
  decide (a.2.2.ord < b.2.2.ord) || (decide (a.2.2.ord = b.2.2.ord) &&
    (decide (a.1 < b.1) || (decide (a.1 = b.1) && decide (a.2.1 < b.2.1))))

/-- Puts an update into a list in order. -/
def logInsert (x : Logged) : List Logged → List Logged
  | [] => [x]
  | y :: ys => if logFirst x y then x :: y :: ys else y :: logInsert x ys

/-- A logged update has been applied, or is reported: its issuer hears of it. -/
def State.logDone (s : State) (x : Logged) (e : Option (Cause × W64)) : State :=
  if x.2.2.peer.isNone then s.answer x.2.1 x.2.2 [] e 0
  else { s with inbound := s.inbound.filter fun r => !(decide (r.package = x.1) && decide (r.ident = x.2.2.tpc))
                answers := s.answers ++ [{ package := x.1, ident := x.2.2.tpc, data := [], report := e }] }

/-- Applies a logged update at its Wallower, which it takes for 4d cycles (13 R273, R275, R277). -/
def State.applyLog (w : Nat) (x : Logged) (s : State) : State :=
  let n := s.unitTime x.2.2
  match serveFar { s with actor := if x.2.2.peer.isNone then x.2.1 else s.actor } x.2.2 [] with
  | .ok _ _ t => ({ t with actor := s.actor }.occupy s.myDie w n).logDone x none
  | .report c v t => ({ t with actor := s.actor }.occupy s.myDie w 1).logDone x (some (c, v))
  | .wait t => s.keepFaults t
  | .ask _ => s

/-- SKETCH_LOG_APPLY (13 R275): Wallower `w` of the acting core's die applies the next update of the oldest leg whose timed part is over,
once all of the leg's have come, in ascending (k, g, c). -/
def execSketchLogApply (w : BitVec 2) (s : State) : Out :=
  let log := s.skLog w.toNat
  let first := match log.filterMap fun x => x.2.2.leg with
    | l :: ls => some (ls.foldl min l)
    | [] => none
  let mine := log.filter fun x => decide (x.2.2.leg = first)
  let done := match first with | some l => s.legOver l | none => s.timedOver s.myDie
  if !done || !s.unitFree s.myDie w.toNat || mine.any (fun x => !x.2.2.ready.any fun c => decide (c ≤ s.cycle)) then .next s
  else match (mine ++ s.peerLog w.toNat).foldl (fun acc x => logInsert x acc) [] with
    | [] => .next s
    | x :: _ => .next (State.applyLog w.toNat x s)

end Sys2Proof.Machine
end

