-- ==== Sys2Proof/Machine/Links.lean ====
section
/-! DEFINITION. The links of the rings: flits, replay, key rotation, the slots that no table reserves, and the reserved slots of a
leg (01 R16-R18; 05 R122; 11 R238; 14 R279-R284, R289; 15 R316). -/

namespace Sys2Proof.Machine

/-- The link by number. -/
def State.link (s : State) (l : Nat) : Link := SMap.get {} s.links l

/-- The state with a link changed. -/
def State.updLink (s : State) (l : Nat) (f : Link → Link) : State :=
  { s with links := SMap.put s.links l (f (s.link l)) }

/-- Counts an event in a field of DG_FAR_EVENTS of a die, if there is one (14 R284). -/
def State.farEvent (s : State) (die : Option Nat) (lo : Nat) : State :=
  match die with | some d => s.updDie d fun x => x.bumpReg 300 lo 16 1 | none => s

/-- Counts `n` station breaches of a die (05 R122). -/
def State.stationBreach (s : State) (die : Option Nat) (n : Nat) : State :=
  match die with | some d => s.updDie d fun x => x.bumpReg 274 32 16 n | none => s

/-! ## Flits -/

/-- The packets in a flit: those of a .n form count each (14 R279). -/
def Flit.count (f : Flit) : Nat := (f.packets.map (·.n)).sum

/-- Header bytes 0 to 15, which are authenticated (14 R279, R280). -/
def Flit.header (f : Flit) : List Byte :=
  leBytes f.seq 6 ++ leBytes (f.kv * 2 ^ 6 + f.type) 1
    ++ leBytes ((if f.second then 2 ^ 7 else 0) + (f.count - 1) % 8 * 2 ^ 4) 1
    ++ leBytes (f.destStation * 2 ^ 10 + f.destPkg) 2 ++ leBytes (f.srcStation * 2 ^ 10 + f.srcPkg) 2 ++ leBytes 0 4

/-- The authentication tag of a flit on a link (14 R280; log entry 11). -/
def Flit.tagOn (f : Flit) (l : Nat) : Nat := Config.flitTag f.kv l f.header f.payload

/-- A new flit of this version and the next number may be sent (14 R280). -/
def Link.maySend (x : Link) : Bool := x.txKeys.contains x.kv && decide (x.seq < 2 ^ 48 - 1) && !x.down

/-- Cycles of a hop: of the package ring, or of a rack ring (01 R23). -/
def hopTime (l : Nat) : Nat := if l < 80 then 12 else 180

/-- Sends a new flit in this cycle's slot of a link, or, where flits are to be sent again first, behind them (14 R280, R281). -/
def State.sendFlit (s : State) (l : Nat) (f : Flit) : State :=
  s.updLink l fun x =>
    let g := { f with seq := x.seq, kv := x.kv, at_ := s.cycle + hopTime l }
    let g := { g with atag := g.tagOn l }
    let x := { x with seq := x.seq + 1, held := x.held ++ [g] }
    if x.again.isEmpty then { x with wire := x.wire ++ [g], used := some s.cycle } else { x with again := x.again ++ [g] }

/-- A flit passes the receiver's checks (14 R281). -/
def Flit.good (f : Flit) (x : Link) (l : Nat) : Bool := x.rxKeys.contains f.kv && decide (f.atag = f.tagOn l)

/-- A flit is the one the receiver accepts next. -/
def Flit.expected (f : Flit) (x : Link) : Bool :=
  (decide (f.kv = x.rxKv) && decide (f.seq = x.rxSeq)) || (decide (f.kv = (x.rxKv + 1) % 4) && decide (f.seq = 0))

/-- The receiver has accepted a flit that its sender still holds. -/
def Flit.accepted (f : Flit) (x : Link) : Bool :=
  (decide (f.kv = x.rxKv) && decide (f.seq < x.rxSeq)) || decide ((f.kv + 1) % 4 = x.rxKv)

/-! ## What a flit brings -/

/-- The operation of a packet, as its core holds it. -/
def State.packetOp (s : State) (p : Packet) : Option FarOp :=
  (s.core p.core).far.find? fun o => decide (o.place = p.place)

/-- Packets have come to the Wallower of their operation, which it may serve once all have (14 R279, R286; 01 R23; 13 R277). -/
def FarOp.reached (o : FarOp) (s : State) (n : Nat) : FarOp :=
  let came := o.came + n
  if came < o.packets then { o with came := came }
  else { o with came := came, arrived := some s.cycle,
                ready := some (s.cycle + s.effectTime o.die o.space o.va + s.queryTime o.i o.die o.space o.va) }

/-- A packet reaches its station: a request joins its Wallower's queue, and a reply goes to its core (14 R286, R302; 01 R23). -/
def State.arrivePacket (s : State) (p : Packet) : State :=
  s.updCore p.core fun k => { k with far := k.far.map fun o =>
    if o.place ≠ p.place then o
    else if p.reply then { o with back := some s.cycle }
    else (o.reached s p.n) }

/-- The request of an operation to a peer package: a combining-buffer entry as the write of its enabled bytes, a timed one with its placed
arrival (14 R285, R289, R292; 13 R275; log entry 2). -/
def FarOp.request (o : FarOp) (s : State) (core q : Nat) : PeerReq :=
  let rest := wayToPeer s.package (core / 512) q o.off - 12 * stationHops (stationOf (core / 512)) (bridgeOf (ringOut s.package q))
  let args := match o.i, o.gotFail with
    | .fSkupN _, some _ => o.args.set 1 (w64 (o.got.length / valueBytes o.i))
    | _, _ => o.args
  let base : PeerReq := { core := core, eng := .f, package := q, addr := o.off, n := 0, data := o.got, op := opWord o.i,
                          args := args ++ o.data, placed := o.arrive.map fun a => (a + rest, o.ord) }
  if o.flush.isEmpty then base
  else { base with op := 0, args := [], data := o.flush.map (·.getD 0)
                   enable := some (((List.range 64).filter fun j => ((o.flush.getD j none).isSome)).map (2 ^ ·)).sum }

/-- Packets leave the package: once the last of a request has, it goes to the peer package (14 R285; log entry 2). -/
def State.leavePacket (s : State) (p : Packet) : State :=
  match s.packetOp p, p.package with
  | some o, some q =>
    let s := s.updCore p.core fun k => { k with far := k.far.map fun x => if x.place = p.place then { x with came := x.came + p.n } else x }
    if o.came + p.n < o.packets then s else { s with peerOut := s.peerOut ++ [o.request s p.core q] }
  | _, _ => s

/-- Packets that wait at a Wallower of a die: those of the package's operations and of peers' requests (14 R283). -/
def State.farQueue (s : State) (die w : Nat) : Nat :=
  (s.cores.map fun p => ((p.2.far.filter fun o => !o.served && o.peer.isNone && decide (o.die = die) &&
    !o.arrived.any (fun c => decide (s.cycle < c)) && decide (s.wallowerOf o = some w)).map (·.came)).sum).sum +
    (s.inbound.filter fun r => decide (bits r.addr 55 3 = die) &&
      decide (s.unitAt die (bits ((s.die die).reg 351) 0 4) r.addr = some w)).length

/-- The queue of the target unit of a flit for a die is full: that of any packet in it, or, where they came from a peer package,
of any unit (14 R283; log entry 31). -/
def State.queueFull (s : State) (die : Nat) (f : Flit) : Bool :=
  if f.packets.isEmpty then [0, 1, 2].any fun w => decide (256 ≤ s.farQueue die w)
  else f.packets.any fun p => match (s.packetOp p).bind s.wallowerOf with
    | some w => decide (256 ≤ s.farQueue die w)
    | none => false

/-- The station of the package at which a flit ends, or leaves it, seen from a link's end. -/
def State.goal (s : State) (f : Flit) : Nat :=
  if f.destPkg = s.package % 2 ^ 10 then f.destStation else bridgeOf (ringOut s.package f.destPkg)

/-- A destination refuses a flit that no table reserves a slot for: the station, or, on a rack ring, the bridge (01 R18;
14 R283). -/
def State.refusesFlit (s : State) (l : Nat) (f : Flit) : Bool :=
  decide (f.type = 1) && !f.reserved && !f.second && decide (f.destPkg = s.package % 2 ^ 10) &&
    (decide (88 ≤ l) || decide (linkEnd l = some f.destStation)) &&
    (match dieAt f.destStation with | some d => s.queueFull d f | none => false)

/-- Puts a flit before the next hop of a link. -/
def State.pass (s : State) (l : Nat) (f : Flit) : State := s.updLink l fun x => { x with queue := x.queue ++ [f] }

/-- Where an accepted flit on the way goes on: along its ring, from a rack ring onto the package ring, from the package ring onto
a rack ring, or round a rack ring; none where it has come (01 R16, R17). A flit on one rack ring for a package beyond the other turns here,
over the package ring: DESIGN CHOICE, the spec says only that each ring's rule applies on it (log entry 31). -/
def State.nextHop (s : State) (l : Nat) (f : Flit) : Option Nat :=
  match linkEnd l with
  | none => none
  | some st =>
    let mine := decide (f.destPkg = s.package % 2 ^ 10)
    let onto := fun (goal : Nat) => some (linkNo st (ringDir st goal) (linkLane l % 2))
    if 88 ≤ l then
      (if mine then (if f.destStation = st then none else onto f.destStation)
       else if ringOut s.package f.destPkg = linkRing l then some (l - 8) else onto (s.goal f))
    else if s.goal f ≠ st then some (linkNo st (linkDir l) (linkLane l))
    else if mine then none
    else
      let r := ringOut s.package f.destPkg
      some (rackLink r (rackDir r s.package f.destPkg) (linkLane l % 2))

/-- The hop on which a refused flit goes once round its ring (01 R18). -/
def roundHop (l : Nat) : Nat :=
  if 88 ≤ l then l - 8 else linkNo (stationAfter (linkStation l) (linkDir l)) (linkDir l) (linkLane l)

/-- An accepted flit goes on, or its packets have come; one that changes its ring can be refused there anew. -/
def State.deliverFlit (s : State) (l : Nat) (f : Flit) : State :=
  match s.nextHop l f with
  | some m => s.pass m { f with second := f.second && decide (80 ≤ l) == decide (80 ≤ m) }
  | none =>
    if l < 88 ∧ 80 ≤ l then f.packets.foldl State.leavePacket s else f.packets.foldl State.arrivePacket s

/-- FLIT_RECEIVE (14 R281, R283): the next flit on a link reaches its receiver. What leaves the package is a peer's to check (log
entry 31). -/
def execFlitReceive (l : Nat) (s : State) : Out :=
  let x := s.link l
  match x.wire with
  | [] => .next s
  | f :: rest =>
    let drop := fun s : State => s.updLink l fun x => { x with wire := rest }
    if s.cycle < f.at_ then .next s
    else if 80 ≤ l ∧ l < 88 then
      .next (if f.type = 7 then (drop s).updLink l fun x => { x with rxKeys := [f.kv] } else (drop s).deliverFlit l f)
    else if x.asking then .next (drop s)
    else if !f.good x l then
      .next ((((drop s).updLink l fun x => { x with asking := true }).farEvent (rxDie l) 0).farEvent (rxDie l) 32)
    else if !f.expected x then .next (drop s)
    else if f.type = 7 then .next s
    else
      let s1 := (drop s).updLink l fun x => { x with rxKv := f.kv, rxSeq := f.seq + 1, fails := 0 }
      if s.refusesFlit l f then .next ((s1.farEvent (rxDie l) 48).pass (roundHop l) { f with second := true })
      else if f.type = 6 then .next s1
      else .next (s1.deliverFlit l f)

/-! ## Replay, acknowledgement and rotation -/

/-- REPLAY_REQUEST (14 R281): the sender is to send again the flit the receiver asks for and every later one, under their
numbers; a reserved slot that is delayed is a station breach. -/
def execReplayRequest (l : Nat) (s : State) : Out :=
  let x := s.link l
  if !x.asking || decide (16 ≤ x.fails) then .next s
  else
    let again := x.held.filter fun f => !f.accepted x
    .next ((s.updLink l fun x => { x with wire := [], again := again, asking := false, fails := x.fails + 1 }).stationBreach
      (txDie l) (again.filter (·.reserved)).length)

/-- FLIT_ACK (14 R281, R282): the acknowledgement up to SEQ `q` releases the held flits; once none of the old version is
left, the rotation-complete marker goes out. -/
def execFlitAck (l q : Nat) (s : State) : Out :=
  let x := s.link l
  let keep := x.held.filter fun f => !((80 ≤ l || f.accepted x) && decide (f.seq ≤ q))
  let s1 := s.updLink l fun x => { x with held := keep }
  if x.rotating && (keep.all fun f => decide (f.kv = x.kv)) && x.maySend then
    .next ((s1.updLink l fun x => { x with rotating := false }).sendFlit l { seq := 0, kv := 0, type := 7 })
  else .next s1

/-- ROTATION_MARKER (14 R282): the receiver erases the previous key. -/
def execRotationMarker (l : Nat) (s : State) : Out :=
  let x := s.link l
  match x.wire with
  | f :: rest =>
    if f.type = 7 ∧ f.at_ ≤ s.cycle ∧ f.good x l ∧ f.expected x ∧ !x.asking then
      .next (s.updLink l fun x => { x with wire := rest, rxKv := f.kv, rxSeq := f.seq + 1, fails := 0, rxKeys := [f.kv] })
    else .next s
  | [] => .next s

/-- A package with a readiness bit cleared. -/
def State.clearReady (s : State) (bit : Nat) : State :=
  let v := SMap.get 0 s.pk 0
  { s with pk := SMap.set 0 s.pk 0 (setBits v bit 1 0) }

/-- The link of the other direction at the same sender. -/
def otherWay (l : Nat) : Nat := if l < 80 then linkNo (linkStation l) (1 - linkDir l) (linkLane l) else 80 + ((l - 80) ^^^ 2)

/-- LINK_DOWN (14 R281, 19 R398): a flit has failed again after 16 replays: the link goes down, and what it has not
acknowledged leaves in the other direction. -/
def execLinkDown (l : Nat) (s : State) : Out :=
  let x := s.link l
  if !x.asking || x.fails < 16 || x.down then .next s
  else
    let again := (x.held.filter fun f => !f.accepted x) ++ x.queue
    let s := (s.updLink l fun x => { x with down := true, asking := false, held := [], wire := [], again := [], queue := [] }).clearReady
      (linkBit l)
    .next (again.foldl (fun s f => s.pass (otherWay l) { f with reserved := false })
      (s.stationBreach (txDie l) (again.filter (·.reserved)).length))

/-! ## Reserved slots -/

/-- A flit of this package before a rack ring waits for a slot of a leg table there (05 R100; 14 R289). -/
def State.awaitsSlot (s : State) (l : Nat) (f : Flit) : Bool :=
  decide (80 ≤ l) && f.reserved && decide (f.srcPkg = s.package % 2 ^ 10) && s.dies.any fun p => p.2.timed.slots.any fun x =>
    decide (4 ≤ x.lane) && decide (x.tag ≤ 8) && decide (x.dest = f.destPkg) && decide (x.link p.1 = l)

/-- The slot of a link is taken in this cycle: a flit has left in it, flits are to be sent again, or a reserved one passes there
(05 R122; 14 R281; 01 R16). -/
def State.laneTaken (s : State) (l : Nat) : Bool :=
  let x := s.link l
  decide (x.used = some s.cycle) || !x.again.isEmpty || (x.queue.any fun f => f.reserved && !s.awaitsSlot l f) ||
    s.links.any fun p => match p.2.wire with
      | f :: _ => f.reserved && decide (f.at_ ≤ s.cycle) && decide (s.nextHop p.1 f = some l)
      | [] => false

/-- A participating core of the die with lag could still issue a packet that comes before one (14 R289). -/
def State.lagFirst (s : State) (die : Nat) (x : Packet) : Bool :=
  s.cores.any fun p => decide (p.1 / 512 = die) && p.2.leg.timed && decide (0 < (p.2.en .f).lag) &&
    (decide (s.cycle - (p.2.en .f).lag < x.placed)
      || (decide (s.cycle - (p.2.en .f).lag = x.placed) && decide (p.1 < x.core)))

/-- The packets an F slot takes (14 R289). -/
def State.slotPackets (s : State) (die tStart : Nat) (x : Slot) : List Packet :=
  if x.tag = 0 ∨ 8 < x.tag ∨ 4 ≤ x.lane then []
  else
    let mine := (s.die die).packets.filter fun p =>
      decide (p.leg = some tStart) && decide (p.dest = x.dest) && decide (p.from_ ≤ s.cycle)
    x.takes ((mine.foldl (fun acc p => packetInsert p acc) []).takeWhile fun p => !s.lagFirst die p)

/-- A packet of the station once some have left: gone, or the rest of those of a .n form. -/
def Packet.after (p : Packet) (left : List Packet) : Option Packet :=
  match left.find? fun x => decide (x.core = p.core) && decide (x.place = p.place) && x.reply == p.reply && decide (x.elem = p.elem) with
  | some x => if x.n < p.n then some { p with elem := p.elem + x.n, n := p.n - x.n } else none
  | none => some p

/-- Packets of a die's station are gone; their operations have left with the last, and one of a leg with its placed arrival: that of the
slot it leaves in where nothing is late, else its own less the lag it carries (14 R289). -/
def State.depart (s : State) (die at_ hops : Nat) (ps : List Packet) : State :=
  let arrive := fun (p : Packet) (o : FarOp) => (s.placedArrival p.core p.place).getD (at_ + 12 * hops - o.lag)
  let left := s.updDie die fun d => { d with packets := d.packets.filterMap fun p => p.after ps }
  ps.foldl (fun s p =>
    if p.reply then s
    else s.updCore p.core fun k => { k with far := k.far.map fun o =>
      if o.place = p.place then
        { o with sent := decide (o.packets ≤ p.elem + p.n)
                 due := if o.leg.isSome then at_ + (o.due - o.departs) else o.due
                 arrive := if o.leg.isSome then some (arrive p o) else none }
      else o }) left

/-- The flit of some packets (14 R279). -/
def State.flitOf (s : State) (station : Nat) (package dest type : Nat) (reserved : Bool) (ps : List Packet) : Flit :=
  { seq := 0, kv := 0, type := type, destPkg := package, destStation := dest, srcPkg := s.package % 2 ^ 10, srcStation := station
    packets := ps, payload := ps.flatMap fun p => (List.range p.n).flatMap fun j => Config.packetBytes p.core p.place (p.elem + j) p.reply
    reserved := reserved }

/-- Bytes of a copy that are bound for another die or package: read and not yet departed, and yet to be read (11 R238). -/
def Copy.outBytes (c : Copy) (s : State) : Nat × Nat :=
  let away := fun (p : Piece) => match p.dst with | some a => c.away s a | none => false
  (lenOfPieces ((c.moves.map (·.piece)).filter away) - (c.slotted.map (·.2)).sum, lenOfPieces ((c.pieces.drop c.taken).filter away))

/-- The data of a copy slot of a die is ready: 256 bytes, or the rest, of what the copy sends; what another die's copy reads here
does not wait for FREE mode (11 R238). -/
def State.copyReady (s : State) (die : Nat) (x : Slot) : Bool :=
  s.cores.all fun p =>
    decide (p.1 % 512 ≠ x.core) || !p.2.leg.timed ||
      (match p.2.kop.copies.find? fun c => decide (c.tag = some x.tag) with
        | some c =>
          let home : State := { s with actor := p.1 }
          if p.1 / 512 = die then
            let b := c.outBytes home
            decide (b.1 + b.2 = 0) || decide (min 256 (b.1 + b.2) ≤ b.1)
          else
            let next := ((groupRuns (c.pieces.drop c.taken)).head?.bind List.head?).bind (·.src)
            (match next.bind fun a => c.placeAt home 0 a with
              | some q => decide (q.die ≠ die) || q.peer.isSome || !s.waits q.die q.tier q.off 1
              | none => true)
        | none => decide (p.1 / 512 ≠ die) || decide (x.tag < 128 + p.2.leg.copies))

/-- The collective of a core that an exchange slot names: the first of the ordinal, mod 64, that still sends through it (15 R316). -/
def Slot.ofColl (x : Slot) (c : Coll) : Bool := decide (c.tag.map (· % 64) = some (x.tag % 64)) && !c.done

/-- Bytes of a collective that have left for a station, and all that go there (15 R316). -/
def Coll.carriedTo (c : Coll) (station : Nat) : Nat := ((c.carried.filter fun y => decide (y.1 = station)).map (·.2.2)).sum
def Coll.allTo (c : Coll) (s : State) (die station : Nat) : Nat := c.bytesAt s die station c.ranks.length

/-- The next 256 bytes, or the rest, for a station are there: the source has been read, or the tiles of their elements have come
(15 R314-R316). -/
def Coll.nextReady (c : Coll) (s : State) (die station : Nat) : Bool :=
  let n := c.carriedTo station
  decide (c.allTo s die station ≤ n) || c.sent.isSome || (c.epi &&
    let eb := Layout.eb c.src
    let ps := (c.ranksAt s die station).flatMap fun b => (c.partsTo b).map fun p => (b, p)
    ((ps.drop (n / eb)).take (256 / eb)).all fun p => p.2.all fun o => c.routed.any fun r => decide (r.dest = p.1) && decide (r.elem = o.2.elem))

/-- The data of an exchange slot is ready (15 R316). -/
def State.exchangeReady (s : State) (die : Nat) (x : Slot) : Bool :=
  let k := s.core (512 * die + x.core)
  !k.leg.timed || decide (4 ≤ x.lane) || (match k.colls.find? x.ofColl with
    | some c => c.nextReady s die x.dest
    | none => decide (x.tag % 64 < k.leg.colls))

/-- What fills a slot is ready (11 R238; 14 R289; 15 R316). -/
def State.slotReady (s : State) (die : Nat) (x : Slot) : Bool :=
  if x.tag ≤ 8 then true else if x.tag < 192 then s.copyReady die x else s.exchangeReady die x

/-- A copy's bytes leave in a slot (11 R238). -/
def State.slotCopy (s : State) (die : Nat) (x : Slot) : State :=
  let core := 512 * die + x.core
  match (s.core core).kop.copies.findIdx? fun c => decide (c.tag = some x.tag) with
  | none => s
  | some j => match (s.core core).kop.copies[j]? with
    | none => s
    | some c =>
      let n := min 256 (c.outBytes { s with actor := core }).1
      s.updCore core fun k => { k with kop := { k.kop with copies := k.kop.copies.set j { c with slotted := c.slotted ++ [(s.cycle + x.way die, n)] } } }

/-- A collective's bytes leave in a slot (15 R316). -/
def State.slotExchange (s : State) (die : Nat) (x : Slot) : State :=
  let core := 512 * die + x.core
  match (s.core core).colls.findIdx? x.ofColl with
  | none => s
  | some j => match (s.core core).colls[j]? with
    | none => s
    | some c =>
      let n := min 256 (c.allTo s die x.dest - c.carriedTo x.dest)
      s.setColl core j { c with carried := c.carried ++ [(x.dest, s.cycle + x.way die, n)] }

/-- A reserved slot leaves on a link with what fills it: in an F slot of a rack ring, what has come to the bridge for its package
(05 R100; 14 R289). -/
def State.sendSlot (s : State) (l : Nat) (x : Slot) (f : Flit) : State :=
  match (if 4 ≤ x.lane ∧ x.tag ≤ 8 then (s.link l).queue.find? fun g => g.reserved && decide (g.destPkg = x.dest) else none) with
  | some g => (s.updLink l fun y => { y with queue := y.queue.erase g }).sendFlit l g
  | none => s.sendFlit l f

/-- TYPE of a slot's flit; an F slot that no packet fills is empty (14 R279, R289). -/
def Slot.flitType (x : Slot) (ps : List Packet) : Nat :=
  if x.tag ≤ 8 then (if ps.isEmpty then 0 else if ps.all (·.reply) then 2 else 1) else if x.tag < 192 then 3 else 4

/-- SLOT_DEPARTURE (05 R122, 14 R289; 11 R238): the k-th reserved slot of the acting core's die leaves: at its cycle, or, its
lane being taken or its data not ready, in a later one as a station breach. -/
def execSlotDeparture (k : Nat) (s : State) : Out :=
  let die := s.myDie
  let d := s.die die
  match d.timed.slots[k]?, d.trav with
  | some x, some t =>
    let at_ := t.tStart + x.cycle
    let l := x.link die
    if s.cycle < at_ || s.laneTaken l || !(s.link l).maySend || !s.slotReady die x then .next s
    else
      let ps := s.slotPackets die t.tStart x
      let s := s.depart die at_ (hopsBy (stationOf die) x.dest x.dir) ps
      let s := if 128 ≤ x.tag ∧ x.tag < 192 then s.slotCopy die x else if 192 ≤ x.tag ∧ x.lane < 4 then s.slotExchange die x else s
      let s := s.updDie die fun d => { d with timed := { d.timed with
        slots := d.timed.slots.eraseIdx k, gone := d.timed.gone ++ [(s.cycle, x)] } }
      let s := if at_ < s.cycle then s.stationBreach (some die) 1 else s
      let rack := decide (4 ≤ x.lane)
      .next (s.sendSlot l x (s.flitOf (stationOf die) (if rack then x.dest else ((ps.head?.bind (·.package)).getD s.package) % 2 ^ 10) (if rack then 0 else x.dest)
        (x.flitType ps) true ps))
  | _, _ => .next s

/-! ## Slots that no table reserves -/

/-- A request to a peer package stays while an operation that its core issued earlier and that comes before it has yet to be performed,
but for one that has left for the same package, whose requests keep their order (14 R288; 13 R274; 16 R335). -/
def State.orderHeld (s : State) (p : Packet) : Bool :=
  p.package.isSome && !p.reply &&
    let k := s.core p.core
    match k.far.find? fun o => decide (o.place = p.place) with
    | some o => (k.far.takeWhile fun x => decide (x.place ≠ p.place)).any fun x =>
        !x.served && !x.logged && !(decide (x.peer = o.peer) && x.sent) && (s.typed x).before (s.typed o) (k.aliasMode 6)
    | none => false

/-- The bytes that a request to a peer package brings with it are there (13 R269; log entry 2). -/
def State.ready (s : State) (p : Packet) : Bool :=
  match s.packetOp p with
  | some o => o.peer.isNone || p.reply || o.gotFail.isSome || decide (s.shipped o ≤ o.got.length)
  | none => true

/-- A packet of a leg has missed every F slot to its station, and the leg's length is over (14 R289). -/
def State.missed (s : State) (die : Nat) (p : Packet) (l : Nat) : Bool :=
  decide (l + (s.core p.core).leg.len ≤ s.cycle) && !s.lagFirst die p &&
    !(s.die die).timed.slots.any fun x => decide (1 ≤ x.tag ∧ x.tag ≤ 8) && decide (x.lane < 4) && decide (x.dest = p.dest)

/-- A packet may leave its station untimed: it is there, and its leg's timed part, if it has one, is over on the die, or it has missed
its slots (14 R289). -/
def State.mayLeave (s : State) (die : Nat) (p : Packet) : Bool :=
  decide (p.from_ ≤ s.cycle) && !s.orderHeld p && s.ready p && (match p.leg, (s.die die).trav with
    | some l, some t => decide (t.tStart ≠ l) || s.timedOver die || s.missed die p l
    | _, _ => true)

/-- A link has its slot of this cycle free for new flits of its station. -/
def State.linkFree (s : State) (l : Nat) : Bool :=
  let x := s.link l
  decide (x.used ≠ some s.cycle) && x.again.isEmpty && x.queue.isEmpty && x.maySend

/-- The link on which a packet leaves a die: the first free lane in its direction (01 R17, R23). -/
def State.wayOut (s : State) (die : Nat) (p : Packet) : Option Nat :=
  let st := stationOf die
  ([0, 1, 2, 3].map (linkNo st (ringDir st p.dest))).find? s.linkFree

/-- The first `m` packets of a list: of a .n form as many as there is room for. -/
def takePackets : Nat → List Packet → List Packet
  | _, [] => []
  | m, p :: ps => if m = 0 then [] else if p.n ≤ m then p :: takePackets (m - p.n) ps else [{ p with n := m }]

/-- Up to eight packets of a die with one way leave in a free slot; `n` bounds the flits (14 R279). -/
def State.sendPackets (die : Nat) : Nat → State → State
  | 0, s => s
  | n + 1, s =>
    match ((s.die die).packets.filter (s.mayLeave die)).find? fun p => (s.wayOut die p).isSome with
    | none => s
    | some p => match s.wayOut die p with
      | none => s
      | some l =>
        let ps := takePackets 8 ((s.die die).packets.filter fun q => s.mayLeave die q && decide (q.dest = p.dest) &&
          decide (q.package = p.package) && q.reply == p.reply)
        let st := stationOf die
        let s := s.depart die s.cycle (stationHops st p.dest) ps
        State.sendPackets die n (s.sendFlit l (s.flitOf st (p.package.getD (s.package % 2 ^ 10))
          (if p.package.isSome then 0 else p.dest) (if p.reply then 2 else 1) false ps))

/-- The oldest flit to be sent again leaves (14 R281). -/
def State.resend (s : State) (l : Nat) : State :=
  s.updLink l fun x => match x.again with
    | f :: rest => { x with again := rest, wire := x.wire ++ [{ f with at_ := s.cycle + hopTime l }], used := some s.cycle }
    | [] => x

/-- The flit before a link that goes on next: a reserved one first (01 R16, R18). -/
def State.nextFlit (s : State) (l : Nat) : Option Flit :=
  let ready := (s.link l).queue.filter fun f => !s.awaitsSlot l f
  (ready.find? (·.reserved)).or ready.head?

/-- A leg table reserves the slot of a link in this cycle (05 R100). -/
def State.reserves (s : State) (l : Nat) : Bool :=
  s.dies.any fun p => match p.2.trav with
    | some t => (p.2.timed.slots ++ p.2.timed.gone.map (·.2)).any fun x =>
        decide (t.tStart + x.cycle = s.cycle) && decide (x.link p.1 = l)
    | none => false

/-- A link in a cycle whose slot is free: a flit to be sent again leaves, in a slot that no table reserves, or one that passes (14 R281; 01 R16, R18). -/
def State.linkCycle (s : State) (l : Nat) : State :=
  let x := s.link l
  if decide (x.used = some s.cycle) || x.down then s
  else if !x.again.isEmpty then (if s.reserves l then s else s.resend l)
  else match s.nextFlit l with
    | some f => if x.maySend then (s.updLink l fun y => { y with queue := y.queue.erase f }).sendFlit l f else s
    | none => s

/-- The rings in a cycle: every link, then the stations' packets in the slots that are left (01 R16, R23; 14 R289). -/
def State.ringCycle (s : State) : State :=
  let s := (s.links.map (·.1)).foldl State.linkCycle s
  ((s.dies.filter fun p => !p.2.packets.isEmpty).map (·.1)).foldl (fun s d => State.sendPackets d 8 s) s

end Sys2Proof.Machine
end

