-- ==== Sys2Proof/Machine/Rows.lean ====
section
/-! DEFINITION. The row engine (10 R219-R227). -/

namespace Sys2Proof.Machine

/-! ## Row arithmetic -/

/-- log2 e on a grid of 340 bits (log entry 10). -/
abbrev log2e : Nat := 3231268632397048050285194455912483530120604959188080231085610272067897583579003293357694054285468539685

/-- e^x as a value every rounding to FP32 treats as e^x (10 R219; log entry 10). -/
def expVal : Val → Val
  | .nan => .nan
  | .inf neg => if neg then .fin false 0 1 else .inf false
  | .fin s n d => exp2Fin s (n * log2e) (d * 2 ^ 340)

/-- A value rounded once to FP32 under RNE. -/
def rne32 (v : Val) : Val := valueOf 1 (round v 1 .rne).1

/-- The canonical tree over leaves of which some may be absent (03 R63), in FP32; +0 without a leaf. -/
def treeVal (xs : List (Option Val)) : Val :=
  let add := fun (a b : Option Val) =>
    match a, b with
    | some x, some y => some (rne32 (Val.add .rne x y))
    | some x, none => some x
    | none, y => y
  match treeFold add 64 xs with
  | some v :: _ => v
  | _ => .fin false 0 1

/-- The greater of two values under R170 with NUM = 0. -/
def maxVal (x y : Val) : Val :=
  if x.isNan || y.isNan then .nan else if Val.lt true x y then y else x

/-- A value is minus infinity. -/
def isNegInf : Val → Bool
  | .inf true => true
  | _ => false

/-- The rows of R219: the exact results of a row, before the last rounding. -/
def rowVals (mode : Nat) (xs : List Val) (pi : Val) : List Val :=
  let len := Val.ofInt xs.length
  if mode = 0 then
    let z := xs.map fun x => rne32 (Val.mul x pi)
    if z.all isNegInf then xs.map fun _ => Val.fin false 0 1
    else
      let m := z.foldl maxVal (.inf true)
      let e := z.map fun v => rne32 (expVal (rne32 (Val.add .rne v m.neg)))
      let t := treeVal (e.map some)
      e.map fun v => Val.div v t
  else
    let d := if mode = 1 then
        let mu := rne32 (Val.div (treeVal (xs.map some)) len)
        xs.map fun x => rne32 (Val.add .rne x mu.neg)
      else xs
    let v := rne32 (Val.div (treeVal (d.map fun x => some (rne32 (Val.mul x x)))) len)
    let r := rne32 (sfn 3 (rne32 (Val.add .rne v pi)))
    d.map fun x => Val.mul x r

/-! ## W.ROWS -/

/-- The operands on a stack, PS0 first. -/
def RowsArgs.of (eb : Nat) (vs : List W64) : RowsArgs :=
  let v := fun i => (vs.getD i 0).toNat
  { src := v 5, dst := v 4, n := v 3, stride := v 2, len := v 1, p := v 0, eb := eb }

/-- Bytes from the first to the last byte of the rows of a region. -/
def RowsArgs.span (x : RowsArgs) : Nat := (x.n - 1) * x.stride + x.len * x.eb

/-- The lowest byte at or above the end of the scratchpad that the rows from `a` touch (10 R220). -/
def RowsArgs.beyond (x : RowsArgs) (a : Nat) : Option Nat :=
  ((List.range x.n).find? fun i => decide (padSize < a + i * x.stride + x.len * x.eb)).map fun i =>
    max (a + i * x.stride) padSize

/-- The limits of R220 in table order: none when every one holds. -/
def RowsArgs.check (x : RowsArgs) : Option (Cause × Nat) :=
  if x.len < 1 ∨ 8192 < x.len ∨ x.n < 1 ∨ 65535 < x.n then some (.ill, 0)
  else if x.stride % 4 ≠ 0 then some (.align, 0)
  else if 1 < x.n ∧ x.stride < x.len * x.eb then some (.ill, 0)
  else if x.src % 4 ≠ 0 then some (.align, 0)
  else if x.dst % 4 ≠ 0 then some (.align, 0)
  else if 2 ^ 32 ≤ x.p then some (.ill, 0)
  else match lowerSlot (x.beyond x.src) (x.beyond x.dst) with
    | some a => some (.xlat, a)
    | none =>
      if x.dst ≠ x.src ∧ x.src < x.dst + x.span ∧ x.dst < x.src + x.span then some (.ill, 0) else none

/-- Lines of 128 bytes a row takes, and the pitch of the rows (10 R222). -/
def RowsArgs.beats (x : RowsArgs) : Nat := (x.len * x.eb + 127) / 128
def RowsArgs.pitch (x : RowsArgs) (tp : Nat) : Nat := max tp (2 * x.beats + 8)

/-- Cycles to the next W word: the schedule of R222 (10 R222, R224). -/
def RowsArgs.time (x : RowsArgs) (tp : Nat) : Nat := 1 + (x.n - 1) * x.pitch tp + 3 * x.beats + 16

/-- The results of a row's bytes, with SAT (10 R219, R221). -/
def RowsRun.results (r : RowsRun) (bs : List Byte) : List Byte × Bool :=
  let xs := (elemsOf r.args.eb r.args.len bs).map (valueOf r.fmt)
  let ys := (rowVals r.mode xs (valueOf 1 r.args.p)).map fun v => round v r.fmt .rne
  (ys.flatMap fun y => leBytes y.1 r.args.eb, ys.any (·.2))

/-- The row and the line within it that a phase of the schedule, which begins at a cycle, has now (10 R222). -/
def RowsRun.lineAt (r : RowsRun) (first cycle : Nat) : Option (Nat × Nat) :=
  let i := (cycle - first) / r.pe
  let j := (cycle - first) % r.pe
  if first ≤ cycle ∧ i < r.args.n ∧ j < r.args.beats then some (i, j) else none

/-- Bytes of a row's line. -/
def RowsRun.lineLen (r : RowsRun) (j : Nat) : Nat := min 128 (r.args.len * r.args.eb - 128 * j)

/-- The line a W.ROWS reads now: none from the row on at which it stops. -/
def RowsRun.readNow (r : RowsRun) (cycle : Nat) : Option (Nat × Nat) :=
  if r.stop.isSome then none else r.lineAt (r.base + 1) cycle

/-- The line it writes now: rows before the one at which it stops (10 R221). -/
def RowsRun.writeNow (r : RowsRun) (cycle : Nat) : Option (Nat × Nat) :=
  match r.lineAt (r.base + 2 * r.args.beats + 17) cycle, r.stop with
  | some (i, j), some (i0, _) => if i < i0 then some (i, j) else none
  | x, _ => x

/-- The scratchpad addresses of a line on both sides. -/
def RowsRun.srcOf (r : RowsRun) (x : Nat × Nat) : Nat := r.args.src + x.1 * r.args.stride + 128 * x.2
def RowsRun.dstOf (r : RowsRun) (x : Nat × Nat) : Nat := r.args.dst + x.1 * r.args.stride + 128 * x.2

/-- The bank ports a W.ROWS needs now (06 R124). -/
def RowsRun.portsNow (r : RowsRun) (cycle : Nat) : List Nat :=
  (match r.readNow cycle with | some x => portsOf false (r.srcOf x) (r.lineLen x.2) | none => []) ++
    (match r.writeNow cycle with | some x => portsOf true (r.dstOf x) (r.lineLen x.2) | none => [])

/-- Reads a line into the row's buffer; with the row's last line its results stand (10 R221, R222). -/
def State.rowsRead (s : State) (r : RowsRun) (x : Nat × Nat) : State × RowsRun :=
  match s.padRead 5 (r.srcOf x) (r.lineLen x.2) with
  | (_, _, some a) => (s, { r with stop := some (x.1, a) })
  | (s, bs, none) =>
    let row := SMap.get [] r.bufs x.1 ++ bs
    if x.2 + 1 < r.args.beats then (s, { r with bufs := SMap.put r.bufs x.1 row })
    else
      let y := r.results row
      (s.stickIf y.2 0, { r with bufs := SMap.put r.bufs x.1 y.1 })

/-- Writes a line of a row's results. -/
def State.rowsWrite (s : State) (r : RowsRun) (x : Nat × Nat) : State :=
  s.updMe fun k => k.padWrite (r.dstOf x) (((SMap.get [] r.bufs x.1).drop (128 * x.2)).take (r.lineLen x.2))

/-- A port, or an access placed earlier, delays a W.ROWS by a cycle, and with it the W engine (06 R124; 10 R222; 05 R119). -/
def Core.rowsSlip (k : Core) (r : RowsRun) (cycle : Nat) : Core :=
  let k := k.breachIn .w 1 cycle
  { k.updEn .w fun x => { x with nextIssue := x.nextIssue + 1 } with rows := some { r with base := r.base + 1 } }

/-- A W.ROWS that has met an unwritten word: W stands at it as at its issue, and takes #UNINIT (10 R221). -/
def Core.rowsStop (k : Core) (r : RowsRun) (a cycle : Nat) : Core :=
  let k := { k.updEn .w fun x => { x with
    pc := r.eng.pc, mid := r.eng.mid, progress := r.eng.progress, endWait := r.eng.endWait, fromWin := r.eng.fromWin
    stack := r.eng.stack } with rows := none }
  if k.run = .running then k.takeTrap 5 r.eng.pc .uninit (w64 a) cycle else k

/-- The cycle after which a W.ROWS has nothing left to do: its last row, or the last before the one at which it stops, is
written (10 R221, R222). -/
def RowsRun.lastCycle (r : RowsRun) : Nat :=
  match r.stop with
  | none => r.base + 16 + (r.args.n - 1) * r.pe + 3 * r.args.beats
  | some (i, _) => if i = 0 then 0 else r.base + 16 + (i - 1) * r.pe + 3 * r.args.beats

/-- A W.ROWS that reaches past the last cycle of its leg holds W beyond its placement: a breach in each cycle (10 R224; 05 R114; log
entry 99). -/
def State.rowsOver (s : State) : State :=
  let k := s.me
  let end_ := (match (s.die s.myDie).trav with | some t => t.tStart | none => 0) + k.leg.len
  if k.rows.isSome && k.leg.timed && decide (end_ ≤ s.cycle - (k.en .w).lag) then s.updMe fun k => k.breachIn .w 1 s.cycle else s

/-- What the acting core's W.ROWS does in a cycle, after the accesses of the engines before it (06 R124; 10 R221-R223). -/
def State.rowsStep (s : State) : State :=
  match s.me.rows with
  | none => s
  | some r =>
    let ps := r.portsNow s.cycle
    if !ps.isEmpty && (s.me.portTaken ps || s.me.heldWord .w) then s.updMe fun k => k.rowsSlip r s.cycle
    else
      let s := match r.writeNow s.cycle with | some x => s.rowsWrite r x | none => s
      let p := match r.readNow s.cycle with | some x => s.rowsRead r x | none => (s, r)
      let s := p.1.updMe fun k => { k with rows := some p.2 }
      if s.cycle < p.2.lastCycle then s
      else match p.2.stop with
        | none => s.updMe fun k => { k with rows := none }
        | some (_, a) => s.updMe fun k => k.rowsStop p.2 a s.cycle

/-- W.ROWS (10 R220-R223): the rows are worked on in the cycles of the schedule, during which W issues nothing. -/
def execWRows (f : BitVec 3) (m : BitVec 2) (s : State) : Out :=
  let eb := if f = 0 then 4 else 2
  issueN .w (.wRows f m) (fun s => (RowsArgs.of eb ((s.stack .w).take 6)).time s.me.tp)
    (fun s0 => popping .w 6 0 (fun vs s =>
      let x := RowsArgs.of eb vs
      match x.check with
      | some (c, v) => .fail c (w64 v)
      | none => .ok (s.updMe fun k => { k with
          rows := some { mode := m.toNat, fmt := f.toNat + 1, args := x, base := s.cycle, pe := x.pitch k.tp
                         eng := s0.me.en .w } })) s0) s

/-! ## W.TIME -/

/-- W.TIME (10 R224). -/
def execWTime (s : State) : Out :=
  issue .w .wTime 1 (popping .w 1 0 fun vs s =>
    let p := (vs.getD 0 0).toNat
    if 65535 < p then .fail .ill 0 else .ok (s.updMe fun k => { k with tp := p })) s

/-- W.TIME get (10 R224). -/
def execWTimeGet (s : State) : Out :=
  issue .w .wTimeGet 1 (popping .w 0 1 fun _ s => .ok (pushing .w [w64 s.me.tp] s)) s

/-! ## W.RSTAT -/

/-- An earlier E instruction on the path touches V register `v`; under E.REP a lower code may step to it (10 R226). -/
def Core.vBusy (k : Core) (v : Nat) : Bool :=
  let es := k.coming .e (k.here .w)
  let rep := k.vec.rep.isSome || es.any fun i => match i with | .eRep _ _ => true | _ => false
  let hit := fun c : Nat => decide (c = v) || (rep && decide (c < v))
  es.any fun i =>
    let c := codesOf i
    (c.srcs.any hit) ||
    (match c.dst with | some d => hit d || (c.wide && hit (d + 1)) | none => false) ||
    (match i with | .eQuant _ _ _ sd _ => hit sd.toNat | _ => false)

/-- The four statistics of a row (10 R225). -/
def rowStats (xs : List (Option Val)) : List Val :=
  let ys := xs.filterMap id
  [ys.foldl maxVal (.inf true), treeVal xs, treeVal (xs.map fun x => x.map fun y => rne32 (Val.mul y y)),
   Val.ofInt ys.length]

/-- W.RSTAT (10 R225, R226). -/
def execWRstat (i : BitVec 1) (k_ : BitVec 3) (s : State) : Out :=
  issue .w (.wRstat i k_) 4 (popping .w 3 0 fun vs s =>
    let v := (vs.getD 2 0).toNat
    match maskOf (vs.getD 1 0) 16, maskOf (vs.getD 0 0) 16 with
    | some rm, some cm =>
      if 16 ≤ v then .fail .ill 0
      else if s.me.tilesPending .w [k_.toNat] s.cycle || s.me.vBusy v || decide (s.cycle + 14 < SMap.get 0 s.me.vec.ready v) then .hold s
      else
        let fmt := if i = 1 then 8 else 1
        let put := fun (m : SMap Byte) (r : Nat) =>
          if rm / 2 ^ r % 2 = 1 then
            let xs := (List.range 16).map fun c =>
              if cm / 2 ^ c % 2 = 1 then some (rne32 (valueOf fmt (s.me.mat.accGet k_.toNat false r c))) else none
            SMap.setRun 0 m (1024 * v + 16 * r) ((rowStats xs).flatMap fun y => leBytes (round y 1 .rne).1 4)
          else m
        .ok ((s.updVec fun x => { x with v := (List.range 16).foldl put x.v }.readyAt [v] (s.cycle + 14)).updMe fun k =>
          k.readTiles [k_.toNat] (s.cycle + 4))
    | _, _ => .fail .ill 0) s

end Sys2Proof.Machine
end

