-- ==== Sys2Proof/Machine/Cycle.lean ====
section
/-! DEFINITION. The passing of a cycle: what issued words have yet to do takes place in its cycle (06 R124, R136, R138, R142,
R143; 07 R163; 09 R215, R218; 10 R222; 12 R262), and the rings move (01 R16, R23). -/

namespace Sys2Proof.Machine

/-- A state seen for another core. -/
def State.within (s : State) (core : Nat) (f : State → State) : State := { f { s with actor := core } with actor := s.actor }

/-- Entries reach a queue, and the stream whose they are moves on (06 R130, R132, R136). -/
def Core.arrive (k : Core) (q : Nat) (es : List QEntry) (g : Option Nat) (first : Nat) : Core :=
  let k := { k.enqueue q es with fresh := if q < 4 then q :: k.fresh else k.fresh }
  match g with
  | some g => k.delivered g first
  | none => k

/-- A read of the present plane takes its value (12 R256, R262). -/
def State.sample (s : State) (l : Late) (ca n after : Nat) (dest : Option (Nat × Nat)) : State :=
  let bs := (s.die s.myDie).pres ca n
  match dest with
  | none => pushing .a [w64 (leNat bs)] s
  | some (q, f) => s.updMe fun k => k.later l.eng (l.at_ + after) (.push q [QEntry.full f bs] none 0)

/-- Effects of the acting core that are due take place in a given order; entries wait for room in their queue, behind those
that wait for the same one, and an epilogue's write behind an access placed earlier (05 R119). -/
def State.land : List Late → List Nat → State → State
  | [], _, s => s
  | l :: ls, full, s =>
    let gone := s.updMe fun k => { k with late := k.late.erase l }
    match l.act with
    | .push q es g n =>
      if full.contains q || decide (16 < (s.me.queue q).length + es.length) then State.land ls (q :: full) s
      else State.land ls full (gone.updMe fun k => k.arrive q es g n)
    | .slots a bs =>
      if s.me.heldBack l.lag then
        State.land ls full ((gone.updMe fun k => k.later l.eng (l.at_ + 1) l.act (l.lag + 1)).updMe fun k => k.addBreach 1 s.cycle)
      else State.land ls full (gone.updMe fun k => k.slotSome a bs)
    | .pad a bs g => State.land ls full (gone.updMe fun k => { k.padWriteSome a bs with ports := landedPorts g a bs.length ++ k.ports })
    | .halt g => State.land ls full (gone.updMe fun k => k.haltStream g s.cycle)
    | .plane ca n dest after => State.land ls full (gone.sample l ca n after dest)
    | .claims a n st => State.land ls full (gone.updMat fun m => m.claimRun a n st)
    | .tile fmt rt es => State.land ls full (gone.updMe fun k => k.route s.package fmt rt es)

/-- What is due on a core: the matrix engine's first, but in untimed code pushes of E and of an epilogue in either order, as
Config.epilogueFirst has it (07 R162, R186; 09 R218; log entry 87). -/
def Core.dueNow (k : Core) (core cycle : Nat) : List Late :=
  let due := k.late.filter fun l => decide (l.at_ ≤ cycle)
  let ms := due.filter fun l => decide (l.eng = .m)
  let others := due.filter fun l => decide (l.eng ≠ .m)
  if k.leg.timed || ms.isEmpty || others.isEmpty || Config.epilogueFirst core cycle then ms ++ others else others ++ ms

/-- The acting core at the start of a cycle: its ports are free, and what is due takes place. -/
def State.coreCycle (s : State) : State :=
  let s := s.updMe fun k => { k with ports := [], fresh := [], cleared := [] }
  State.land (s.me.dueNow s.actor s.cycle) [] s

/-- The cores of the package that are listed. -/
def State.listed (s : State) : List Nat := s.cores.map (·.1)

/-- A cycle passes: each W.ROWS ends its cycle and the rings move, and in the next one each core's effects that are due take
place. -/
def State.passCycle (s : State) : State :=
  let s := ((s.listed.foldl (fun s c => s.within c fun s => s.rowsStep.rowsOver) s).owedWaits).ringCycle
  let s := { s with cycle := s.cycle + 1 }
  s.listed.foldl (fun s c => s.within c State.coreCycle) s

end Sys2Proof.Machine
end

