-- ==== Sys2Proof/Machine/Manage.lean ====
section
/-! DEFINITION. Memory management: page walks and page records, TLB invalidation, keys and the patrol, hot pages and swaps
(17 R344-R363; 18 R381, R389). -/

namespace Sys2Proof.Machine

/-! ## Memory as a Millwright reaches it -/

/-- A run of addresses can be written now. -/
def millReaches (s : State) (space va n : Nat) : Bool :=
  (piecesOf va n).all fun p =>
    match ownerXlat s (p.1 / 2 ^ 55 % 8) space (w64 p.1) true true with
    | .at_ q s => !s.waits q.die q.tier q.off p.2
    | _ => false

/-! ## The trap and page queues -/

/-- What appending a record comes to. -/
inductive Queued where
  | ok (s : State)
  /-- The queue is full, does not exist or cannot be reached. -/
  | full
  | wait (s : State)
  deriving DecidableEq, Repr

/-- Appends a record to the queue of a register of a die, in the space of the task it is about (18 R381). -/
def queueAppend (s : State) (die reg space : Nat) (r : List Byte) : Queued :=
  let q := (s.die die).reg reg
  let base := bits q 12 46 * 4096
  let n := 2 ^ (bits q 0 4 + 4)
  if bits q 11 1 = 0 then .full
  else match millRead s space base 8 with
    | .wait s => .wait s
    | .fail _ _ _ => .full
    | .ok bs s =>
      let made := leNat bs
      if (made + 2 ^ 64 - ((s.die die).reg (reg + 1)).toNat) % 2 ^ 64 = n then .full
      else
        let slot := base + 64 + 64 * (made % n)
        if !millReaches s space slot 64 || !millReaches s space base 8 then
          (match millWrite s space slot r with | .wait s => .wait s | _ => .full)
        else match (millWrite s space slot r).bind fun _ s => millWrite s space base (leBytes (made + 1) 8) with
          | .ok _ s => .ok s
          | _ => .full

/-- The task and launch a record names. -/
def Core.taskNo (k : Core) : Nat := match k.task with | some t => t.task | none => 0
def Core.launchNo (k : Core) : Nat := match k.task with | some t => t.launch | none => 0

/-- A page record, with the cycle of the fault (18 R381). -/
def pageRecord (s : State) (at_ core : Nat) (space : Nat) (va : W64) (write timed : Bool) : List Byte :=
  let k := s.core core
  leBytes at_ 8 ++ leBytes va.toNat 8 ++ leBytes (space % 16) 1
    ++ leBytes ((if write then 1 else 0) + if timed then 2 else 0) 1 ++ leBytes core 2 ++ leBytes k.taskNo 4
    ++ leBytes k.launchNo 1 ++ List.replicate 39 0

/-! ## Page walks -/

/-- Puts a translation where the access that asked for it looks (17 R346). -/
def State.fillTlb (s : State) (die : Nat) (e : TlbEntry) : State :=
  if die = s.myDie then s.updMe fun k => { k with tlb := tlbInsert 128 k.tlb e }
  else s.updDie die fun d => { d with tlb := tlbInsert sideTlbSize d.tlb e }

/-- Records the line at which a walk met an uncorrectable error (17 R363). -/
def Die.logWalk (d : Die) (space : Nat) (va : W64) : Die :=
  match (d.walkWords space va).find? fun p => (d.tableWord p.1 p.2).isNone with
  | some p => d.logInteg p.1 (p.2 / 256 * 256) false
  | none => d

/-- A page an access of the acting core needs is not present (18 R389, 05 R103, 14 R286): the record is appended; in untimed
code and the core's own die the core is saved, any other access waits in place. -/
def pageFault (s : State) (j : Nat) (w : Walk) : State :=
  let die := bits w.va 55 3
  let k := s.me
  let at_ := w.faultAt.getD s.cycle
  match queueAppend s die 404 w.space (pageRecord s at_ s.actor w.space w.va w.write k.leg.timed) with
  | .ok s =>
    if die = s.myDie ∧ !k.leg.timed ∧ k.run = .running then
      s.updMe fun k => { ({ k with run := .running } : Core).preempt with run := .saving (.page w.va w.write) }
    else s.updMe fun k => { k with walks := k.walks.set j { w with faultAt := some at_, reported := true } }
  | _ => s.updMe fun k => { k with walks := k.walks.set j { w with faultAt := some at_ } }

/-- Writes the record of a page that a Wallower or the Millwright of the acting core's die has found not present. -/
def sideFault (s : State) (j : Nat) (f : PageFault) : State :=
  let die := s.myDie
  match queueAppend s die 404 f.space (pageRecord s f.at_ f.core f.space f.va f.write (s.core f.core).leg.timed) with
  | .ok s => s.updDie die fun d => { d with faults := d.faults.set j { f with reported := true } }
  | _ => s

/-- PAGE_WALK (17 R344): the k-th walk of the acting core completes; from the last on, `k` counts the pages its die's
memory-side walks have found not present. -/
def execPageWalk (k : Nat) (s : State) : Out :=
  match s.me.walks[k]? with
  | some w =>
    let die := bits w.va 55 3
    if w.failed.isSome || w.reported || decide (s.cycle < w.due) || s.walkHeld die w.space w.va then .next s
    else match (s.die die).walk w.space w.va with
      | .leaf x =>
        let e : TlbEntry := { space := w.space, base := w.va.toNat / pageSize (pteSize x), size := pteSize x, leaf := x }
        .next (((s.updDie die fun d => d.heatWalk w.space w.va).fillTlb die e).updMe fun c => { c with walks := c.walks.eraseIdx k })
      | .fail c =>
        let s := s.updDie die fun d => d.heatWalk w.space w.va
        let s := if c = .integ then s.updDie die fun d => d.logWalk w.space w.va else s
        .next (s.updMe fun x => { x with walks := x.walks.set k { w with failed := some c } })
      | .fault => .next (pageFault s k w)
  | none =>
    let j := k - s.me.walks.length
    match (s.die s.myDie).faults[j]? with
    | some f => if f.reported then .next s else .next (sideFault s j f)
    | none => .next s

/-! ## TLB invalidation -/

/-- A leaf's page is pinned, or belongs to a running or committed leg's translation set (17 R347); one behind an aperture has no pin
count on the die. -/
def State.leafHeld (s : State) (die leaf : Nat) : Bool :=
  (!pteAp leaf && decide ((s.die die).pinCount (pteTier leaf) (pteFrame leaf) (pteSize leaf) ≠ 0)) ||
    (List.range 8).any fun d => [0, 1].any fun b =>
      (s.current d b || s.committed d b) && ((s.die d).buf b).pages.any fun p =>
        decide (p.1 = die) && pteAp p.2.leaf == pteAp leaf && decide (keyOf die p.2.leaf = keyOf die leaf)

/-- Every translation of a die's TLBs. -/
def State.tlbsOf (s : State) (die : Nat) : List TlbEntry :=
  (s.die die).tlb ++ (s.cores.filter fun p => decide (p.1 / 512 = die)).flatMap fun p => p.2.tlb

/-- A table of `n` levels maps a page of a lock's key (17 R344, R347). -/
def Die.tableMaps (d : Die) (l : Lock) : Nat → Nat → Nat → Bool
  | 0, _, _ => false
  | n + 1, tier, base => (List.range (if n = 4 then 128 else 512)).any fun i =>
      match d.tableWord tier (base + 8 * i) with
      | none => false
      | some x =>
        if !pteP x || pteReserved x then false
        else if !pteLeaf x then Die.tableMaps d l n (pteTier x) (pteFrame x * 4096)
        else !pteAp x && pageLevel (pteSize x) == n && i % pageGroup (pteSize x) == 0 && pteTier x == l.tier
          && pteFrame x == l.frame && pteSize x == l.size

/-- A pinned page of the die is a page of a space (17 R347). -/
def Die.spacePinned (d : Die) (space : Nat) : Bool :=
  let r := d.reg (320 + space)
  bits r 0 1 == 1 && d.locks.any fun l => d.tableMaps l 5 (bits r 12 1) (bits r 16 36 * 4096)

/-- Pages of a die in the translation sets of the current and committed legs (17 R347). -/
def State.legPages (s : State) (die : Nat) : List TlbEntry :=
  (List.range 8).flatMap fun d => ([0, 1] : List Nat).flatMap fun b =>
    if s.current d b || s.committed d b then (((s.die d).buf b).pages.filter fun p => decide (p.1 = die)).map (·.2) else []

/-- Removes translations from every TLB of a die, and from those that a pending K.COPY, K.PIN or F.COLL has collected. -/
def State.dropTlb (s : State) (die : Nat) (gone : TlbEntry → Bool) : State :=
  let s := s.updDie die fun d => { d with tlb := d.tlb.filter fun e => !gone e }
  let keep := fun (ps : List CopyPage) => ps.filter fun p => !(decide (p.die = die) && gone p.entry)
  { s with cores := s.cores.map fun p => (p.1, { p.2 with
      tlb := if p.1 / 512 = die then p.2.tlb.filter fun e => !gone e else p.2.tlb
      kop := { p.2.kop with walked := keep p.2.kop.walked }, collPages := keep p.2.collPages }) }

/-- A write of DG_TLB_INV: refused as a whole when a page it covers is held (17 R347). -/
def tlbCommand (covers : State → Nat → W64 → TlbEntry → Bool) (also : State → Nat → W64 → Bool) (w : RegWrite) (s : State) : State :=
  let die := w.die
  let held := also s die w.val || ((s.tlbsOf die).any fun e => covers s die w.val e && s.leafHeld die e.leaf)
    || (s.legPages die).any (covers s die w.val)
  let s := if held then s else s.dropTlb die (covers s die w.val)
  s.updDie die fun d => d.setReg 336 ((w.val &&& 0xF3) ||| w64 (if held then 2 ^ 63 else 0))

/-- TLB_INV_PAGE (17 R347): the page that holds DG_TLB_VA in SPACE. -/
def execTlbInvPage (s : State) : Out :=
  applyWrite s .tlbPage (tlbCommand
    (fun s die v e => decide (e.space = bits v 4 4) && decide (e.base = ((s.die die).reg 337).toNat / pageSize e.size))
    (fun s die v => match (s.die die).walk (bits v 4 4) ((s.die die).reg 337) with
      | .leaf x => s.leafHeld die x
      | _ => false))

/-- TLB_INV_SPACE (17 R347): every page of SPACE. -/
def execTlbInvSpace (s : State) : Out :=
  applyWrite s .tlbSpace (tlbCommand (fun _ _ v e => decide (e.space = bits v 4 4))
    (fun s die v => (s.die die).spacePinned (bits v 4 4)))

/-- TLB_INV_ALL (17 R347): every page. -/
def execTlbInvAll (s : State) : Out :=
  applyWrite s .tlbAll (tlbCommand (fun _ _ _ _ => true) (fun s die _ => !(s.die die).locks.isEmpty))

/-! ## Keys and the patrol -/

/-- KEY_ROTATE (17 R361): PREV := CUR, CUR := (CUR + 1) mod 15, and a pass starts. -/
def execKeyRotate (s : State) : Out :=
  applyWrite s .keyRotate (fun w s => s.updDie w.die fun d =>
    if !w.val.getLsbD 0 || badRotate d w.val then d
    else { d.setReg 360 (w64 (2 ^ 63 + d.keyCur * 2 ^ 8 + (d.keyCur + 1) % 15)) with patrol := 0 })

/-- Lines of the die, and the tier and offset of the n-th in the patrol's order (17 R361). -/
abbrev lineCount : Nat := tierSize 0 / 256 + tierSize 1 / 256
def lineAt (n : Nat) : Nat × Nat := if n < tierSize 0 / 256 then (0, n * 256) else (1, (n - tierSize 0 / 256) * 256)

/-- The patrol's visit to a line: corrected, checked, re-encrypted under CUR where its version is neither CUR nor 15. -/
def Die.patrolLine (d : Die) (tier off : Nat) : Die :=
  if !d.lineReady tier off then d
  else
    let d := (d.correct tier off).heat tier off 256
    if !d.lineOk tier off then d.logInteg tier off true
    else if d.verOf tier off = d.keyCur ∨ d.verOf tier off = 15 then d
    else (d.sealLine tier off d.keyCur).heat tier off 256

/-- The cycles the patrol gives a line; none while no pass runs (17 R361). -/
def Die.period (d : Die) : Option Nat :=
  let p := bits (d.reg 362) 0 32
  if p ≠ 0 then some p else if d.keyPass then some 64 else none

/-- A pass is complete: DG_SCRUB.PASSES rises and the patrol starts over. -/
def Die.passDone (d : Die) : Die :=
  { d.setReg 362 (setBits (d.reg 362) 32 32 (bits (d.reg 362) 32 32 + 1)) with patrol := 0 }

/-- The package is neither in RETAIN nor OFF (19 R399). -/
def State.powered (s : State) : Bool := decide (bits (SMap.get 0 s.pk 1) 8 2 < 2)

/-- PATROL_LINE (17 R361): the scrubber of the acting core's die visits its next line. -/
def execPatrolLine (s : State) : Out :=
  let d := s.die s.myDie
  match d.period with
  | none => .next s
  | some p =>
    if s.cycle < d.patrolAt || !(d.reg 500).getLsbD 22 || !s.powered || decide (lineCount ≤ d.patrol) then .next s
    else
      let at_ := lineAt d.patrol
      let d := { d.patrolLine at_.1 at_.2 with patrol := d.patrol + 1, patrolAt := s.cycle + p }
      .next (s.setDie s.myDie (if d.patrol = lineCount ∧ !d.keyPass then d.passDone else d))

/-- ROTATION_PASS_END (17 R361): the rotation pass has read every line: the key of PREV is erased and PASS clears. -/
def execRotationPassEnd (s : State) : Out :=
  let d := s.die s.myDie
  if d.keyPass && decide (d.patrol = lineCount) then
    let cur := d.keyCur
    let prev := d.keyPrev
    .next (s.setDie s.myDie
      { (d.setReg 360 (setBits (d.reg 360) 63 1 0)).passDone with
        keys := d.keys.filter (· != prev)
        mem := if d.mem.baseVer < 16 then { d.mem with baseVer := cur, ver := d.mem.ver.filter fun p => p.2 != cur } else d.mem })
  else .next s

/-! ## Hot pages -/

/-- Frames of 2 MiB of a tier. -/
def frameCount (tier : Nat) : Nat := tierSize tier / 2 ^ 21

/-- The reverse-map entry of a frame; none while the map is not valid or cannot be read (17 R349). -/
def Die.rmapAt (d : Die) (tier f : Nat) : Option (Nat × Nat) :=
  let r := d.reg 355
  if bits r 0 1 = 0 then none
  else some (bits r 12 1, bits r 16 36 * 4096 + 8 * (if tier = 0 then f else 49152 + f))

/-- The entry's word. -/
def Die.rmap (d : Die) (tier f : Nat) : Option Nat := (d.rmapAt tier f).bind fun p => d.tableWord p.1 p.2

/-- Fields of a reverse-map entry. -/
def rmapV (x : Nat) : Bool := x / 2 ^ 63 % 2 == 1
def rmapFree (x : Nat) : Bool := x / 2 ^ 62 % 2 == 1
def rmapTier (x : Nat) : Nat := x / 2 ^ 47 % 2
def rmapOff (x : Nat) : Nat := x % 2 ^ 40

/-- The leaf entry the reverse map names for a frame: SIZE 3, NORMAL, KLOCK 0, and mapping that frame (17 R349). -/
def Die.hotLeaf (d : Die) (tier f : Nat) : Option Nat :=
  match d.rmap tier f with
  | some x =>
    if !rmapV x then none
    else match d.tableWord (rmapTier x) (rmapOff x) with
      | some p =>
        if pteP p && pteLeaf p && !pteAp p && pteSize p == 3 && pteMt p == 0 && !pteKlock p && pteTier p == tier
            && pteFrame p == f * 512 then some p else none
      | none => none
  | none => none

/-- A page-lock entry holds a frame, or part of it. -/
def Die.framePinned (d : Die) (tier f : Nat) : Bool :=
  d.locks.any fun l => decide (l.tier = tier) && decide (l.frame * 4096 < (f + 1) * 2 ^ 21)
    && decide (f * 2 ^ 21 < l.frame * 4096 + pageSize l.size)

/-- A locked translation set holds a frame. -/
def State.frameLocked (s : State) (die tier f : Nat) : Bool :=
  (List.range 8).any fun d => [0, 1].any fun b =>
    ((s.die d).buf b).pages.any fun p => decide (p.1 = die) && decide (pteTier p.2.leaf = tier)
      && decide (pteFrame p.2.leaf * 4096 < (f + 1) * 2 ^ 21)
      && decide (f * 2 ^ 21 < pteFrame p.2.leaf * 4096 + pageSize (pteSize p.2.leaf))

/-- A frame is a candidate for a swap (17 R349). -/
def State.candidate (s : State) (die tier f : Nat) : Bool :=
  ((s.die die).hotLeaf tier f).isSome && !(s.die die).framePinned tier f && !s.frameLocked die tier f

/-- A frame's count. -/
def Die.heatOf (d : Die) (tier f : Nat) : Nat := SMap.get 0 d.hot (2 * f + tier)

/-- The candidate of a list that a test puts first; the earlier one where neither comes before the other. -/
def bestBy (before : Nat → Nat → Bool) : List Nat → Option Nat
  | [] => none
  | x :: xs => match bestBy before xs with
    | none => some x
    | some y => if before y x then some y else some x

/-- H of R350: the candidate capacity frame of greatest count. -/
def State.hottest (s : State) (die : Nat) : Option Nat :=
  bestBy (fun y x => decide ((s.die die).heatOf 1 x < (s.die die).heatOf 1 y))
    ((List.range (frameCount 1)).filter fun f => s.candidate die 1 f)

/-- C of R350: a FREE fast frame, else the candidate of least count; whether it is FREE. Frames of `keep` are left out. -/
def State.coldest (s : State) (die : Nat) (keep : Nat → Bool) : Option (Nat × Bool) :=
  let d := s.die die
  match (List.range (frameCount 0)).find? fun f =>
      !keep f && (match d.rmap 0 f with | some x => rmapFree x && !rmapV x | none => false) with
  | some f => some (f, true)
  | none => (bestBy (fun y x => decide (d.heatOf 0 y < d.heatOf 0 x))
      ((List.range (frameCount 0)).filter fun f => !keep f && s.candidate die 0 f)).map fun f => (f, false)

/-- Halves every count, rounding down. -/
def Die.halve (d : Die) : Die :=
  { d with hot := (d.hot.map fun p => (p.1, p.2 / 2)).filter fun p => decide (p.2 ≠ 0) }

/-- Capacity frames that only a pin keeps from being candidates, of count at least THRESH (17 R350). -/
def State.pinnedHot (s : State) (die thresh : Nat) : Nat :=
  ((List.range (frameCount 1)).filter fun f =>
    decide (thresh ≤ (s.die die).heatOf 1 f) && ((s.die die).hotLeaf 1 f).isSome
      && (s.die die).framePinned 1 f).length

/-- EPOCH_CLOSE (17 R350): the tracker of the acting core's die closes an epoch. -/
def execEpochClose (s : State) : Out :=
  let die := s.myDie
  let d := s.die die
  let ctl := d.reg 352
  let epoch := bits ctl 0 16
  let thresh := bits ctl 16 16
  if bits ctl 63 1 = 0 || epoch = 0 || s.cycle < d.epochAt + epoch * 1024 then .next s
  else
    let choice : Option Swap :=
      if d.swap.isSome then none
      else match s.hottest die with
        | none => none
        | some h =>
          if d.heatOf 1 h < thresh then none
          else match s.coldest die (fun _ => false) with
            | none => none
            | some (c, true) => some { hot := h, cold := c, free := true }
            | some (c, false) =>
              if d.heatOf 1 h ≤ d.heatOf 0 c + bits ctl 32 16 then none else some { hot := h, cold := c, free := false }
    let n := min (2 ^ 32 - 1) (bits (d.reg 353) 0 32 + s.pinnedHot die thresh)
    .next (s.setDie die { (d.setReg 353 (w64 n)).halve with
      epochAt := s.cycle, swap := match choice with | some w => some w | none => d.swap })

/-! ## Swaps -/

/-- What a line holds, moved as it stands: bytes, version, and its error marks. -/
structure LineImage where
  bytes : List Byte
  ver : Nat
  failed : Bool
  soft : Bool
  ok : Bool
  deriving DecidableEq, Repr

/-- A line as it stands. -/
def Die.lineImage (d : Die) (tier off : Nat) : LineImage :=
  { bytes := d.bytesAt tier off 256, ver := d.verOf tier off
    failed := SMap.get false d.mem.failed (lineKey tier off), soft := SMap.get false d.mem.soft (lineKey tier off)
    ok := d.lineOk tier off }

/-- Puts a line at another offset: re-encrypted under CUR, or, where it fails a check, as it is (17 R351, R363). -/
def Die.putLine (d : Die) (tier off : Nat) (x : LineImage) : Die :=
  let d := { d with mem := d.mem.putBytes d tier off x.bytes }
  let d := d.sealLine tier off (if x.ok then d.keyCur else x.ver)
  { d with mem := { d.mem with failed := SMap.set false d.mem.failed (lineKey tier off) (!x.ok)
                               soft := SMap.set false d.mem.soft (lineKey tier off) x.soft } }

/-- Exchanges line `i` of a capacity frame and a fast frame; only the first moves to a FREE frame (17 R351). -/
def Die.swapLine (d : Die) (w : Swap) (i : Nat) : Die :=
  let h := d.lineImage 1 (w.hot * 2 ^ 21 + 256 * i)
  let c := d.lineImage 0 (w.cold * 2 ^ 21 + 256 * i)
  let d := d.putLine 0 (w.cold * 2 ^ 21 + 256 * i) h
  if w.free then d else d.putLine 1 (w.hot * 2 ^ 21 + 256 * i) c

/-- Writes a 64-bit word of a table. -/
def Die.putTable (d : Die) (at_ : Option (Nat × Nat)) (x : Nat) : Die :=
  match at_ with
  | some p => ((d.heat p.1 p.2 8).poke p.1 p.2 (leBytes x 8) false).getD d
  | none => d

/-- A leaf entry that maps another frame. -/
def leafTo (x tier frame : Nat) : Nat :=
  x - pteTier x * 2 ^ 12 + tier * 2 ^ 12 - pteFrame x * 2 ^ 16 + frame * 2 ^ 16

/-- The bursts of a swap: each line of both frames is read and written; where one is FREE the other's are read, its own written (17
R349, R351). -/
def Die.heatSwap (d : Die) (w : Swap) : Die :=
  let n := if w.free then 2 ^ 21 else 2 ^ 22
  (d.heat 1 (w.hot * 2 ^ 21) n).heat 0 (w.cold * 2 ^ 21) n

/-- The swap of two frames: lines, leaves, reverse-map entries (17 R351). -/
def Die.swapFrames (d : Die) (w : Swap) : Die :=
  let rh := (d.rmap 1 w.hot).getD 0
  let rc := (d.rmap 0 w.cold).getD 0
  let lh := d.hotLeaf 1 w.hot
  let lc := d.hotLeaf 0 w.cold
  let d := ((List.range 8192).foldl (fun d i => d.swapLine w i) d).heatSwap w
  let d := match lh with | some x => d.putTable (some (rmapTier rh, rmapOff rh)) (leafTo x 0 (w.cold * 512)) | none => d
  let d := if w.free then d
    else match lc with | some x => d.putTable (some (rmapTier rc, rmapOff rc)) (leafTo x 1 (w.hot * 512)) | none => d
  (d.putTable (d.rmapAt 0 w.cold) rh).putTable (d.rmapAt 1 w.hot) rc

/-- A translation of one of the two frames. -/
def Swap.hits (w : Swap) (e : TlbEntry) : Bool :=
  !pteAp e.leaf && pteSize e.leaf == 3 &&
    ((pteTier e.leaf == 1 && pteFrame e.leaf == w.hot * 512) || (pteTier e.leaf == 0 && pteFrame e.leaf == w.cold * 512))

/-- DG_HOT_STAT.SWAPS rises (17 R352). -/
def Die.countSwap (d : Die) : Die := d.setReg 354 (setBits (d.reg 354) 0 32 (bits (d.reg 354) 0 32 + 1))

/-- A swap done whole, with both pages out of the TLBs. -/
def State.doSwap (s : State) (die : Nat) (w : Swap) : State :=
  (s.updDie die fun d => (d.swapFrames w).countSwap).dropTlb die w.hits

/-- SWAP_COMPLETE (17 R351): the swap in progress on the acting core's die completes. -/
def execSwapComplete (s : State) : Out :=
  let die := s.myDie
  match (s.die die).swap with
  | none => .next s
  | some w =>
    .next ((s.doSwap die w).updDie die fun d => { d with swap := none })

end Sys2Proof.Machine
end

