-- ==== Sys2Proof/Machine/Place.lean ====
section
/-! DEFINITION. Launches and the placement of their tasks (18 R367, R371-R373, R388; 12 R254). -/

namespace Sys2Proof.Machine

/-! ## Launches -/

/-- The launch of a task. -/
def State.launchOf (s : State) (t : TaskRef) : Option Launch := (s.die t.die).launch t.launch

/-- Changes a launch. -/
def State.updLaunch (s : State) (die id : Nat) (f : Launch → Launch) : State :=
  s.updDie die fun d => { d with launches := d.launches.map fun l => if l.id = id then f l else l }

/-- A task of a launch with another state. -/
def State.setTask (s : State) (t : TaskRef) (st : TaskSt) : State :=
  s.updLaunch t.die t.launch fun l => { l with tasks := l.tasks.set t.task st }

/-- The task is over. -/
def TaskSt.over : TaskSt → Bool
  | .ended _ | .gone => true
  | _ => false

/-- The lowest free frame of the launch's pool (18 R380). -/
def Launch.freeFrame (l : Launch) : Option Nat := (List.range l.nframe).find? fun k => !l.used.contains k

/-- Address of a frame (18 R387). -/
def Launch.frameAt (l : Launch) (k : Nat) : Nat := l.frames.toNat + k * 0x6F000

/-- Tasks of one group of a level: the product of the extents up to it (18 R367). -/
def Launch.span (l : Launch) (n : Nat) : Nat := ((l.levels.take (n + 1)).map (·.extent)).prod

/-- The levels with their numbers. -/
def Launch.numbered (l : Launch) : List (Nat × Level) := (List.range l.levels.length).zip l.levels

/-- The unit of a domain that a core lies in; the outer domains hold the whole package (18 R367). -/
def unitOf (domain core : Nat) : Nat :=
  match domain with
  | 0 => core
  | 1 => core / 16
  | 2 | 7 => core / 512
  | _ => 0

/-- The levels permit a task a core, given the cores of earlier tasks of its groups (18 R367, R372). -/
def Launch.permits (l : Launch) (i core : Nat) : Bool :=
  l.numbered.all fun p => l.units.all fun u =>
    !(decide (u.1 = p.1) && decide (u.2.1 = i / l.span p.1)) || decide (unitOf p.2.domain u.2.2 = unitOf p.2.domain core)

/-- Notes the core of a task for the groups it is the first of. -/
def Launch.settle (l : Launch) (i core : Nat) : Launch :=
  { l with units := l.units ++ (l.numbered.filter fun p =>
      !l.units.any fun u => decide (u.1 = p.1) && decide (u.2.1 = i / l.span p.1)).map fun p => (p.1, i / l.span p.1, core) }

/-- The innermost stepgroup level. -/
def Launch.stepLevel (l : Launch) : Option (Nat × Level) := l.numbered.find? fun p => decide (p.2.domain = 7)

/-- Drops the tasks that a killed or dropped predecessor keeps from starting (18 R371). -/
def Launch.dropAfter (l : Launch) : Launch :=
  (List.range l.tasks.length).foldl (fun (l : Launch) i =>
    match l.st i, l.recs[i]? with
    | .waiting, some r => if r.preds.any fun p => decide (l.st p = .gone) then { l with tasks := l.tasks.set i .gone } else l
    | _, _ => l) l

/-! ## Free cores -/

/-- A timed task that is not over names the core (18 R373). -/
def Launch.names (l : Launch) (core : Nat) : Bool :=
  (List.range l.recs.length).any fun i => match l.recs[i]? with
    | some r => r.timed && decide (r.core = core) && !(l.st i).over
    | none => false

/-- The launches of the package, with their dies. -/
def State.launches (s : State) : List (Nat × Launch) :=
  (List.range 8).flatMap fun d => (s.die d).launches.map fun l => (d, l)

/-- A context in a frame goes back to the core and nowhere else (18 R388). -/
def State.boundTo (s : State) (core : Nat) : Bool :=
  (List.range 8).any fun d => (s.die d).saved.any fun x => x.bound && decide (x.left = core)

/-- The core runs no task and holds no frozen storage (18 R372). -/
def State.idle (s : State) (core : Nat) : Bool := decide ((s.core core).run = .free)

/-- The core's field is ready (19 R396, R398). -/
def State.fieldReady (s : State) (core : Nat) : Bool := ((s.die (core / 512)).reg 500).getLsbD (32 + core % 512 / 16)

/-- An untimed task may be placed on the core (18 R372, R373, R388; 19 R398, R400). -/
def State.open_ (s : State) (core : Nat) : Bool :=
  s.idle core && s.fieldReady core && !(s.die (core / 512)).halted && !s.boundTo core
    && !s.launches.any fun p => p.2.names core

/-! ## The search of R372 -/

/-- Home die and home field of an anchor (18 R372). -/
def State.home (s : State) (die space : Nat) (anchor : W64) : Nat × Nat :=
  let owner := bits anchor 55 3
  if anchor = 0 ∨ bits anchor 58 6 ≠ 0 then (die, 0)
  else match (s.die owner).walk space anchor with
    | .leaf x =>
      if pteAp x then (die, 0)
      else
        let off := pteFrame x * 4096 + anchor.toNat % pageSize (pteSize x)
        if pteTier x = 0 then (owner, 16 * (s.die owner).stackOf off + (s.die owner).pchOf off / 4)
        else (owner, 2 * capChannel off)
    | _ => (die, 0)

/-- Fields in ascending distance from a field, the lower first. -/
def fieldsFrom (f : Nat) : List Nat :=
  (List.range 32).flatMap fun k =>
    (if k ≤ f then [f - k] else []) ++ (if 0 < k ∧ f + k < 32 then [f + k] else [])

/-- The other dies in ascending station distance, the lower first. -/
def diesFrom (d : Nat) : List Nat :=
  (List.range 6).flatMap fun h => (List.range 8).filter fun x => decide (x ≠ d) && decide (ringHops d x = h)

/-- The cores of a die in the order of the search; `f` is the home field on the home die. -/
def coresOf (d : Nat) (f : Option Nat) : List Nat :=
  match f with
  | some f => (fieldsFrom f).flatMap fun x => (List.range 16).map fun c => 512 * d + 16 * x + c
  | none => (List.range 512).map fun c => 512 * d + c

/-- Dies with their home field in the order of the search. -/
def searchOrder (h : Nat × Nat) : List (Nat × Option Nat) := (h.1, some h.2) :: (diesFrom h.1).map fun d => (d, none)

/-- The core R372 chooses for a task that is no member of a step group to be formed; `also` counts as free. -/
def State.choose (s : State) (die : Nat) (l : Launch) (i : Nat) (also : Option Nat) : Option Nat :=
  let free := fun c => decide (also = some c) || s.open_ c
  let left : Option Saved := match l.st i with
    | .saved f _ _ => (s.die die).saved.find? fun x => decide (x.launch = l.id) && decide (x.frame = f) && x.bound
    | _ => none
  match left with
  | some x => if decide (also = some x.left) || (s.idle x.left && s.fieldReady x.left && !(s.die (x.left / 512)).halted) then some x.left else none
  | none =>
    let anchor := match l.recs[i]? with | some r => r.anchor | none => 0
    ((searchOrder (s.home die l.space anchor)).flatMap fun p => coresOf p.1 p.2).find? fun c => free c && l.permits i c

/-! ## Step groups -/

/-- The tasks of one group of a level, in index order. -/
def Launch.groupTasks (l : Launch) (n g : Nat) : List Nat :=
  (List.range l.tasks.length).filter fun i => decide (i / l.span n = g)

/-- Cores for the tasks of a group among the free cores of a die, in order; none where one finds none. -/
def pickCores (free : List Nat) (l : Launch) : List Nat → Option (List (Nat × Nat) × Launch)
  | [] => some ([], l)
  | i :: is =>
    match free.find? fun c => l.permits i c with
    | none => none
    | some c => (pickCores (free.erase c) (l.settle i c) is).map fun r => ((i, c) :: r.1, r.2)

/-- The lowest group number free on a die (18 R367). -/
def Die.freeGroup (d : Die) : Option Nat := (List.range 16).find? fun g => !d.formed g

/-- A region that a formed group of the die owns has the register, or a granule of the field, of a region of a list (12 R253, R263). -/
def Die.ownsAny (d : Die) (rs : List (Nat × W64)) : Bool :=
  rs.any fun r => (List.range 16).any fun m =>
    let j := r.1 / 16 * 16 + m
    let v := d.reg j
    regionEn v && d.formed (regionGroup v) && (decide (j = r.1) ||
      (decide (bits v 0 8 ≤ bits r.2 8 8) && decide (bits r.2 0 8 ≤ bits v 8 8)))

/-- The die and the cores of a group of tasks that is to be formed (18 R367, R372; 12 R254). -/
def State.chooseGroup (s : State) (die : Nat) (l : Launch) (lv : Level) (is : List Nat) :
    Option (Nat × List (Nat × Nat) × Launch) :=
  let anchor := match is with | i :: _ => (match l.recs[i]? with | some r => r.anchor | none => 0) | [] => 0
  (searchOrder (s.home die l.space anchor)).findSome? fun p =>
    if (s.die p.1).ownsAny lv.regions then none
    else (pickCores ((coresOf p.1 p.2).filter s.open_) l is).map fun r => (p.1, r.1, r.2)

/-! ## Order -/

/-- An untimed task that has never run is ready (18 R371). -/
def Launch.fresh (l : Launch) (i : Nat) : Bool :=
  match l.st i, l.recs[i]? with
  | .waiting, some r => !r.timed && l.isReady i
  | _, _ => false

/-- The ready tasks of a Millwright in the order in which it places them, as (launch, task) (18 R372, R385). -/
def Die.readyTasks (d : Die) : List (Nat × Nat) :=
  (d.launches.flatMap fun l => ((List.range l.tasks.length).filter l.fresh).map fun i => (l.id, i)) ++
    d.requeued.filter fun p => match d.launch p.1 with
      | some l => (match l.st p.2 with | .saved _ _ _ => true | _ => false)
      | none => false

/-- A task becomes ready again, after those that are ready (18 R385). -/
def State.requeue (s : State) (t : TaskRef) : State :=
  s.updDie t.die fun d => { d with requeued := d.requeued.filter (· != (t.launch, t.task)) ++ [(t.launch, t.task)] }

/-- Where a ready task would be placed now: its own core, or, for a member of a group to be formed, that of each member. -/
inductive Placing where
  | none
  | one (core : Nat)
  | group (die : Nat) (cores : List (Nat × Nat)) (l : Launch) (lv : Level)
  deriving DecidableEq, Repr

/-- Where the Millwright of a die would place a task (18 R372; 12 R254); `also` counts as a free core. -/
def State.placing (s : State) (die : Nat) (l : Launch) (i : Nat) (also : Option Nat) : Placing :=
  match l.stepLevel, l.st i with
  | some (n, lv), .waiting =>
    let is := l.groupTasks n (i / l.span n)
    if !is.all l.fresh || is.head? ≠ some i then .none
    else match s.chooseGroup die l lv is with
      | some (d, cs, l2) => .group d cs l2 lv
      | none => .none
  | _, _ => match s.choose die l i also with | some c => .one c | none => .none

/-- A ready task's placement would take the acting core, were it free (18 R385). -/
def State.wanted (s : State) : Bool :=
  (List.range 8).any fun d => (s.die d).readyTasks.any fun p =>
    match (s.die d).launch p.1 with
    | some l => (match s.placing d l p.2 (some s.actor) with | .one c => decide (c = s.actor) | _ => false)
    | none => false

/-! ## Assignment -/

/-- Some core of the package runs a task. -/
def State.awake (s : State) : Bool := s.cores.any fun p => p.2.task.isSome

/-- PK_LIFE.POWER (19 R399). -/
def State.power (s : State) : Nat := bits (SMap.get 0 s.pk 1) 8 2

/-- The cycles for which the first task of an idle package waits for it to wake (19 R401). -/
def State.wakeDelay (s : State) : Nat := if s.power = 1 ∧ !s.awake then 20000 else 0

/-- The cycles from assignment to the first word (18 R374, 19 R401). -/
def State.startDelay (s : State) : Nat := 32 + s.wakeDelay

/-- A core's text store turned to the kernel of a launch (02 R39, R40). -/
def Text.turn (x : Text) (l : Launch) : Text :=
  { x with space := l.space, image := l.text.toNat, len := l.textw, tail := if l.tail = 0xFFFF then none else some l.tail, freed := [] }

/-- Cycles in which a Millwright writes or reads a frame (18 R386, R388). -/
abbrev frameTime : Nat := 1776

/-- Gives a core to a task. -/
def State.assign (s : State) (die : Nat) (l : Launch) (i core : Nat) (run : Run) : State :=
  let ref : TaskRef := { die := die, launch := l.id, task := i }
  let s := s.updCore core fun k => { k with
    run := run, task := some ref, space := l.space, sys := l.sys, handle := l.handle, text := k.text.turn l }
  (s.setTask ref (.placed core)).updLaunch die l.id fun l => l.settle i core

/-- TASK_PLACE (18 R372): the Millwright of the acting core's die places task `i` of launch `id`, if no task before it in
the order can be placed. -/
def execTaskPlace (id i : Nat) (s : State) : Out :=
  let die := s.myDie
  let d := s.die die
  let able := fun (p : Nat × Nat) => match d.launch p.1 with
    | some l => (match s.placing die l p.2 none with | .none => false | _ => true)
    | none => false
  let before := d.readyTasks.takeWhile (· != (id, i))
  if !d.readyTasks.contains (id, i) || before.any able || !(d.reg 500).getLsbD 18 || decide (2 ≤ s.power) then .next s
  else match d.launch id with
    | none => .next s
    | some l => match s.placing die l i none with
      | .none => .next s
      | .one c => match l.st i with
        | .saved f _ skip =>
          let s := s.updDie die fun d => { d with requeued := d.requeued.filter (· != (id, i)) }
          .next ((s.assign die l i c (.restoring skip (s.cycle + frameTime))).updCore c fun k => { k with frame := some f })
        | _ => .next (s.assign die l i c (.starting (s.cycle + s.startDelay)))
      | .group gd cs _ lv => match (s.die gd).freeGroup with
        | none => .next s
        | some g =>
          let from_ := s.cycle + s.startDelay
          .next (cs.foldl (fun (s : State) p => s.assign die l p.1 p.2 (.starting from_))
            (s.updDie gd fun x => x.formGroup gd g (cs.map (·.2)) lv.regions))

end Sys2Proof.Machine
end

