-- ==== Sys2Proof/Machine/Frame.lean ====
section
/-! DEFINITION. Context frames: what a save writes to memory and what a restore reads back (18 R386-R388). Areas whose
inner layout the spec leaves open are written in a layout of the model's own and restored from what the Millwright keeps
(log entry 15). -/

namespace Sys2Proof.Machine

/-! ## Areas -/

/-- A list of 64-bit values as bytes. -/
def bytesOf (vs : List W64) : List Byte := vs.flatMap fun v => leBytes v.toNat 8

/-- The list brought to `n` bytes. -/
def padTo (n : Nat) (bs : List Byte) : List Byte := (bs ++ List.replicate (n - bs.length) 0).take n

/-- The active engines but C, as S.FORK names them (18 R375, R387). -/
def Core.activeMask (k : Core) : Nat :=
  ([Engine.a, .e, .m, .k, .w, .f].map fun t => if (k.en t).active then 2 ^ (6 - t.tag) else 0).sum

/-- Bits as bytes, bit i of byte j for bit 8 j + i. -/
def bitBytes (n : Nat) (f : Nat → Bool) : List Byte :=
  (List.range n).map fun j => BitVec.ofNat 8 (((List.range 8).map fun i => if f (8 * j + i) then 2 ^ i else 0).sum)

/-- One entry of a queue: format code, then the enables (log entry 15). -/
def QEntry.head (e : QEntry) : List Byte := padTo 16 (leBytes e.fmt 1 ++ leBytes e.enable 15)

/-- Fields of a copy's geometry and of a convolution walk, for the frame (log entry 15). -/
def Geo.bytes (g : Geo) : List Byte :=
  bytesOf ([w64 g.n, w64 g.eb] ++ g.ext.map w64 ++ g.sstr ++ g.dstr ++ [w64 g.ss, w64 g.ds, w64 g.cls, w64 g.sig])
def KConv.bytes (c : KConv) : List Byte := bytesOf [c.geom, c.win, c.pad, c.nb, c.pv]

/-- A plane's attributes (log entry 15). -/
def planeHead (p : Option Plane) : List Byte :=
  match p with
  | some x => leBytes (x.fmt + 32 + if x.sparse then 64 else 0) 1
  | none => [0]

/-- A plane's contents. -/
def planeData (p : Option Plane) : List Byte := match p with | some x => x.data ++ x.meta_ | none => []

/-- The areas of the frame of a core's context, as offset and bytes (18 R387). -/
def Core.frameAreas (k : Core) (core : Nat) : List (Nat × List Byte) :=
  let five := [Engine.a, Engine.e, .m, .k, .w, .f]
  let q := fun i => k.queue i
  [ (0x00000, padTo 64 (leBytes 0x46524D31 4 ++ leBytes k.taskNo 4 ++ padTo 4 (leBytes k.launchNo 1) ++ padTo 4 (leBytes core 2)
      ++ bytesOf [k.cf.cause, k.cf.tpc, k.cf.tval])),
    (0x00040, padTo 64 (bytesOf [k.cf.mode, k.cf.status, k.cf.breach, k.cf.slip])),
    (0x00080, bytesOf k.ctl.x.toList),
    (0x00100, padTo 64 (padTo 8 (leBytes k.ctl.p.toNat 1 ++ leBytes k.activeMask 1)
      ++ allEngines.flatMap fun t => leBytes ((k.en t).pc + (k.en t).progress % 2 ^ 48 * 2 ^ 16) 8)),
    (0x00140, padTo 32 (k.ctl.ret.flatMap fun a => leBytes a 2)),
    (0x00160, padTo 672 (padTo 64 (k.ctl.loops.flatMap fun e => bytesOf [e.iter, e.count])
      ++ padTo 64 (k.ctl.loops.flatMap fun e => leBytes e.start 2 ++ leBytes e.stop 2 ++ leBytes e.depth 2)
      ++ leBytes k.ctl.loops.length 2 ++ leBytes k.ctl.ret.length 2)),
    (0x00400, allEngines.flatMap fun t => padTo 128 (padTo 64 (bytesOf (k.en t).stack) ++ leBytes (k.en t).stack.length 8)),
    (0x00800, five.flatMap (fun t => padTo 128 (bytesOf ((k.ctl.outq.filter fun x => decide (x.dest = t)).map (·.val))))
      ++ five.flatMap (fun t => padTo 128 (bytesOf ((k.ctl.inq.filter fun x => decide (x.1 = t)).map (·.2))))),
    (0x00E00, five.flatMap fun t => padTo 64 ((k.en t).steer.flatMap fun o => leBytes o.target 2)),
    (0x01000, (List.range 6).flatMap fun i => padTo 256 ((q i).flatMap QEntry.head)),
    (0x01600, padTo 256 (padTo 64 (bytesOf ([k.vec.shp, w64 k.vec.amax.toNat] ++
        match k.vec.rep with | some r => [w64 r.n, w64 r.mode, w64 r.k] | none => []))
      ++ bitBytes 128 fun i => k.vec.em.getLsbD i)),
    (0x01700, padTo 128 (leBytes ((List.range 256).map fun i => SMap.get 0 k.mat.claims i % 4 * 4 ^ i).sum 64
      ++ bytesOf [k.mat.rt] ++ planeHead k.mat.active ++ planeHead k.mat.shadow)),
    (0x01780, padTo 640 (bytesOf [w64 k.tp, k.kop.cntVa, k.kop.cntInc]
      ++ padTo 40 (match k.kop.follow with | some f => bytesOf [w64 f.w, f.a, f.rm, f.cm, f.dm] | none => [])
      ++ padTo 256 k.kop.geo.bytes ++ k.kop.convS.bytes ++ k.kop.convD.bytes)),
    (0x01A00, (List.range 64).flatMap fun i => leBytes (SMap.get 0 k.kop.flags i) 4),
    (0x01B00, (List.range 4).flatMap fun l => padTo 128 (bytesOf ((List.range 13).map fun i => SMap.get 0 k.layouts (16 * l + i)))),
    (0x02000, (List.range 16).flatMap fun g =>
      let x := k.stream g
      bytesOf ((List.range 22).map x.fld ++ [w64 x.pos, boolW x.active])),
    (0x02C00, padTo 1024 (k.held.flatMap fun h => bytesOf [h.va, boolW h.excl])),
    (0x03000, (List.range 6).flatMap fun i => padTo 2048 ((q i).flatMap fun e => padTo 128 e.bytes)),
    (0x06000, SMap.slice 0 k.vec.v 0 16384),
    (0x0A000, SMap.slice 0 k.mat.acc 0 8192),
    (0x0C000, padTo 2048 (planeData k.mat.active) ++ padTo 2048 (planeData k.mat.shadow)),
    (0x0D000, bitBytes 8192 fun i => SMap.get false k.valid i),
    (0x0F000, SMap.slice 0 k.mat.slots 0 131072),
    (0x2F000, SMap.slice 0 k.pad 0 262144) ]

/-- Writes a context's frame at an address of a space (18 R386). -/
def writeFrame (s : State) (space at_ core : Nat) (k : Core) : Near :=
  (k.frameAreas core).foldl (fun (acc : Near) p => acc.bind fun _ s => millWrite s space (at_ + p.1) p.2) (.ok [] s)

/-! ## Restoring -/

/-- Bytes as a map from a base, zero being unlisted. -/
def mapOf (bs : List Byte) : SMap Byte := (bs.zipIdx.filter fun p => decide (p.1 ≠ 0)).map fun p => (p.2, p.1)

/-- The `i`-th 64-bit value of bytes. -/
def wordAt (bs : List Byte) (i : Nat) : W64 := w64 (leNat ((bs.drop (8 * i)).take 8))

/-- A run of bytes of a frame's image. -/
def cut (f : List Byte) (off n : Nat) : List Byte := (f.drop off).take n

/-- A map of set bits. -/
def bitsMap (bs : List Byte) : SMap Bool :=
  bs.zipIdx.flatMap fun p => ((List.range 8).filter fun i => p.1.getLsbD i).map fun i => (8 * p.2 + i, true)

/-- A parameter stack as a frame holds it; a depth word above 8, which the spec leaves open, is read as 8 (log entry 67). -/
def stackFrom (bs : List Byte) : List W64 := (List.range (min 8 (wordAt bs 8).toNat)).map (wordAt bs)

/-- A field of a stream descriptor without its reserved bits, which read as zero (00 R4; 06 R131). -/
def streamField (i : Nat) (v : W64) : W64 :=
  if i = 19 then w64 (v.toNat / 2 ^ 8 * 2 ^ 8) else if i = 20 then w64 (v.toNat % 2 ^ 32) else v

/-- A field of a layout without its reserved bits (00 R4; 15 R305). -/
def layoutField (i : Nat) (v : W64) : W64 :=
  if i = 0 then w64 (v.toNat % 2 ^ 22) else if i = 4 then w64 (v.toNat % 2 ^ 32)
  else if 5 ≤ i then w64 (v.toNat % 2 ^ 35) else v

/-- A stream as a frame holds it. -/
def Stream.from_ (x : Stream) (bs : List Byte) : Stream :=
  let fields := (List.range 22).foldl (fun (m : SMap W64) i => SMap.set 0 m i (streamField i (wordAt bs i))) []
  let pos := (wordAt bs 22).toNat
  { x with fields := fields, pos := pos, next := pos, active := wordAt bs 23 != 0 }

/-- The context with what its frame's image says where the spec fixes the layout (18 R382, R387). -/
def Core.fromFrame (k : Core) (f : List Byte) : Core :=
  let mask := (cut f 0x101 1).headD 0
  let eng := k.eng.map fun t x => { x with
    stack := stackFrom (cut f (0x400 + 128 * t.tag) 128)
    active := if t = .c then x.active else mask.getLsbD (6 - t.tag) }
  let w := fun i => wordAt (cut f 0x40 32) i
  let head := fun i => wordAt (cut f 0x10 24) i
  { k with
    eng := eng
    cf := { k.cf with cause := head 0 &&& 0x73F, tpc := head 1 &&& 0x3FFF, tval := head 2, mode := w 0 &&& 0xF, status := w 1 &&& 7, breach := w 2 &&& 0xFFFFFFFF, slip := slipOf (w 3) }
    ctl := { k.ctl with
      x := Vector.ofFn fun (i : Fin 16) => wordAt (cut f 0x80 128) i.val
      p := (cut f 0x100 1).headD 0
      ret := (List.range k.ctl.ret.length).map fun i => leNat (cut f (0x140 + 2 * i) 2) % 2 ^ 14 }
    kop := { k.kop with flags :=
      (List.range 64).foldl (fun (m : SMap Nat) i => SMap.set 0 m i (leNat (cut f (0x1A00 + 4 * i) 4))) [] }
    layouts := (List.range 52).foldl (fun (m : SMap W64) j =>
      SMap.set 0 m (16 * (j / 13) + j % 13) (layoutField (j % 13) (wordAt (cut f (0x1B00 + 128 * (j / 13)) 128) (j % 13)))) []
    streams := (List.range 16).foldl (fun (m : SMap Stream) g =>
      if SMap.has k.streams g || (cut f (0x2000 + 192 * g) 192).any (· != 0) then
        SMap.put m g ((k.stream g).from_ (cut f (0x2000 + 192 * g) 192))
      else m) []
    queues := k.queues.map fun p => (p.1, p.2.zipIdx.map fun e => { e.1 with bytes := cut f (0x3000 + 2048 * p.1 + 128 * e.2) 128 })
    vec := { k.vec with v := mapOf (cut f 0x6000 16384) }
    mat := { k.mat with acc := mapOf (cut f 0xA000 8192), slots := mapOf (cut f 0xF000 131072) }
    valid := bitsMap (cut f 0xD000 8192)
    pad := mapOf (cut f 0x2F000 262144) }

/-! ## Cores as contexts leave them and return -/

/-- An entry that is not complete is dropped, and every walk stands at its next element (06 R423). -/
def Stream.settle (x : Stream) : Stream :=
  if !x.active then x
  else
    let next := if x.loads then x.pos else x.next
    { x with pos := next, next := next, part := [], asked := [], stopping := false }

/-- Entries whose queue has no room for them are not pushed: POS is the first element of the first (06 R132, R423). -/
def Core.dropDue (k : Core) : Core :=
  { k.late.foldl (fun (k : Core) l => match l.act with
      | .push _ _ (some g) n => k.setStream g { k.stream g with pos := min (k.stream g).pos n }
      | _ => k) k with late := [] }

/-- Every result stands by a cycle: nothing is on its way to a queue, the slots or the scratchpad but entries that find no
room, and no W.ROWS is in progress (18 R386). -/
def Core.resultsStand (k : Core) (cycle : Nat) : Bool :=
  let by_ := fun m : SMap Nat => m.all fun p => decide (p.2 ≤ cycle)
  (k.late.all fun l => decide (l.at_ ≤ cycle)) && k.rows.isNone && by_ k.vec.ready && by_ k.mat.seen && by_ k.mat.made
    && by_ k.mat.fseen && by_ k.mat.reads && decide (k.mat.arrayAt ≤ cycle)

/-- Every copy has completed; a follow-on command stays only while M words before its K.COPY have not issued (11 R246, R249;
log entry 81). -/
def Core.copiesDone (k : Core) : Bool := k.kop.copies.all fun c => c.landed && (c.killed || !(k.coming .m c.place).isEmpty)

/-- Nothing of the task is on its way: what has been issued has completed (18 R386; 11 R249; 13 R276; 14 R292). -/
def Core.settled (k : Core) (cycle : Nat) : Bool :=
  k.posted.isEmpty && k.comb.isEmpty && k.copiesDone && k.far.isEmpty && k.resultsStand cycle &&
    (k.colls.all fun c => c.acks.isEmpty || decide (c.task ≠ k.task)) &&
    k.peerAsked.all fun e => k.peerGot.any fun m => decide (m.eng = e)

/-- The context a save takes: the collectives of the task go with it (18 R386, 15 R317). -/
def Core.context (k0 : Core) : Core :=
  let k := k0.dropDue
  { k with
    streams := k.streams.map fun p => (p.1, p.2.settle)
    eng := k.eng.map fun _ x => { x with parked := none }
    colls := (k.colls.filter fun c => decide (c.task = k.task)).map fun c => { c with absentSince := none }
    frame := none
    tlb := [], walks := [] }

/-- The core after its task has left: nothing runs or is on its way; every register keeps what it holds until a task
starts or returns there (18 R374, R388). -/
def Core.vacated (k : Core) : Core :=
  { k with
    run := .free
    task := none
    swait := .none
    fences := []
    leg := {}
    posted := []
    comb := []
    peerAsked := []
    peerLoads := []
    peerGot := []
    held := []
    walks := []
    tlb := k.tlb.map fun e => { e with locked := false }
    bursts := []
    tagLag := []
    tagCounted := []
    late := []
    fresh := []
    rows := none
    collPages := []
    trips := []
    cleared := []
    ctl := { k.ctl with outq := [], inq := [] }
    kop := { k.kop with copies := [], pins := [], walked := [], poll := none }
    far := []
    colls := k.colls.filter fun c => decide (c.task ≠ k.task)
    frozenFor := []
    frame := none
    reports := [] }

/-- The context on a core that holds the task again. -/
def Core.returned (k ctx : Core) (cycle : Nat) : Core :=
  { ctx with
    run := .running, task := k.task, space := k.space, sys := k.sys, handle := k.handle
    text := { k.text with freed := ctx.text.freed }
    tlb := k.tlb, colls := k.colls ++ ctx.colls, collSeq := k.collSeq
    eng := ctx.eng.map fun _ x => { x with nextIssue := max x.nextIssue (cycle + 1) } }

/-- Past the word an engine stands at (18 R382, 02 R42): a steering word gives its next word as outcome; a C.RECV before the
engine's first word is one word less to pass (04 R87), and a repetition ends only where its word is passed (07 R183). -/
def Core.passWord (k : Core) (t : Engine) (cycle : Nat) : Core :=
  let a := (k.en t).pc
  if 0 < (k.en t).lead then k.updEn t fun x => { x with lead := x.lead - 1 }
  else match k.text.fetch a with
  | .word w =>
    let len := lenOf w
    let steering := tagOf w == 0 && !isLiteral w && (opcOf w == 0x0E || opcOf w == 0x0F || opcOf w == 0x10)
    let k := if t = .e ∧ tagOf w = t.tag then { k with vec := { k.vec with rep := none } } else k
    if t = .c ∧ steering then k.steerTo a len (a + len) false cycle 1
    else (k.updEn t fun x => { x with parked := none }).advance t len 1 cycle
  | _ => k

/-- The engines that a SKIP moves: that of the trap, or at an S word every engine that stands there (18 R382). -/
def Core.skipped (k : Core) : List Engine :=
  let tag := bits k.cf.cause 8 3
  let t := if tag = 7 then Engine.c else Engine.ofTag tag
  let a := (k.en t).pc
  match k.text.fetch a with
  | .word w => if tagOf w = 7 then k.actives.filter fun u => decide ((k.en u).pc = a) else [t]
  | _ => [t]

/-- The core after a SKIP. -/
def Core.skip (k : Core) (cycle : Nat) : Core := k.skipped.foldl (fun k t => k.passWord t cycle) k

/-- A SKIP would resume beyond the kernel's last text word (18 R382). -/
def Core.skipsOut (k : Core) : Bool :=
  let after := k.skip 0
  k.skipped.any fun t => decide (k.text.len ≤ (after.en t).pc)

end Sys2Proof.Machine
end

