-- ==== Sys2Proof/Machine/Order.lean ====
section
/-! DEFINITION. The ordering instructions: datums, bindings and fences (16 R325-R334). -/

namespace Sys2Proof.Machine

/-! ## Datums -/

/-- Fields of a datum word (16 R325). -/
def datumEx (w : Nat) : Bool := w / 2 ^ 63 % 2 == 1
def datumSh (w : Nat) : Nat := w / 2 ^ 38 % 2 ^ 12

/-- A datum word no operation leaves behind: a reserved bit, or both kinds of hold (16 R328). -/
def datumBad (w : Nat) : Bool :=
  w / 2 ^ 50 % 2 ^ 13 != 0 || w / 2 ^ 32 % 2 ^ 6 != 0 || w / 2 ^ 12 % 2 ^ 10 != 0 || (datumEx w && datumSh w != 0)

/-- A free datum as its exclusive holder leaves it at the grant (16 R328). -/
def datumTaken (package core : Nat) : Nat := 2 ^ 63 + package % 2 ^ 10 * 2 ^ 22 + core % 2 ^ 12

/-- A datum after a release: EX, PACKAGE and INDEX are 0, or SH is one less (16 R329). -/
def datumFreed (shared : Bool) (w : Nat) : Nat :=
  if shared then (if datumSh w = 0 then w else w - 2 ^ 38)
  else w - w / 2 ^ 63 % 2 * 2 ^ 63 - w / 2 ^ 22 % 2 ^ 10 * 2 ^ 22 - w % 2 ^ 12

/-- Where a datum stands, checked as for F.AMO (16, The instructions, 5). -/
inductive DatumAt where
  | at_ (die tier off : Nat) (t : FarTo) (s : State)
  | peer (package off : Nat) (s : State)
  | wait (s : State)
  | fail (c : Cause) (va : W64)
  deriving DecidableEq, Repr

/-- Finds a datum: by the core's TLB in its own die, by the owner's otherwise (14 R285, R286). -/
def datumAt (s : State) (d : W64) : DatumAt :=
  match farTo s d true true true with
  | .fail c v => .fail c v
  | .wait s => .wait s
  | .ok t s =>
    match t.peer, t.loc with
    | some q, _ => .peer q t.off s
    | none, some (tier, off, _) => .at_ t.die tier off t s
    | none, none => match ownerXlat s t.die s.me.space d true true with
      | .at_ p s => .at_ p.die p.tier p.off t s
      | .absent s => .wait s
      | .fail c _ => .fail c d

/-- Cycles from the issue of a request about a datum to its effect at the home Wallower, and to its answer: T (16 R334, 01 R23). -/
def State.datumReach (s : State) (d : W64) (t : FarTo) : Nat := s.effectAfter .sBind d t
def State.datumTrip (s : State) (d : W64) (t : FarTo) : Nat := s.datumReach d t + s.wayTo s.myDie t

/-- Files a request behind those that come to the home Wallower before it or with it (16 R328). -/
def insertAcq (q : AcqReq) : List AcqReq → List AcqReq
  | [] => [q]
  | x :: xs => if q.comes < x.comes then q :: x :: xs else x :: insertAcq q xs

/-- Sends a request about a datum of a peer package, whose answer comes to C (log entry 2). -/
def State.askPeer (s : State) (package off op : Nat) (args : List W64) (wait : Bool) : State :=
  { (if wait then s.updMe fun k => { k with peerAsked := .c :: k.peerAsked } else s) with
    peerOut := s.peerOut ++ [{ core := s.actor, eng := .c, package := package, addr := off, n := 0, data := [], op := op
                               args := args }] }

/-- The answer of a peer package for C, taken. -/
def State.peerAnswer (s : State) : Option (PeerMsg × State) :=
  if s.me.peerAsked.contains .c then
    (s.me.peerGot.find? fun m => decide (m.eng = .c) && m.load.isNone && !m.stored).map fun m =>
      (m, s.updMe fun k => { k with peerGot := k.peerGot.erase m, peerAsked := k.peerAsked.erase .c })
  else none

/-- The checks common to the four words: the timed part and alignment. -/
def datumCheck (s : State) (d : W64) (f : Res) : Res :=
  if s.me.leg.timed then .fail .ill 0 else if d.toNat % 8 ≠ 0 then .fail .align d else f

/-- A core's wait for its S word. -/
def State.waitFor (s : State) (w : SWait) : State := s.updMe fun k => { k with swait := w }

/-! ## S.ACQ -/

/-- Adds a datum to the held list of a core (16 R328). -/
def Core.hold (k : Core) (d : W64) (shared : Bool) : Core := { k with held := k.held ++ [{ va := d, excl := !shared }] }

/-- S.ACQ (16 R328): sends the request once, then waits for the grant. -/
def acqBody (shared : Bool) (op : Nat) (s0 : State) : Res :=
  match s0.me.swait with
  | .acquire _ _ true => popping .c 1 0 (fun _ s => .ok (s.waitFor .none)) s0
  | .acquire _ _ false => .hold s0
  | _ =>
    popping .c 1 0 (fun vs s =>
      let d := vs.getD 0 0
      datumCheck s d
        (match datumAt s0 d with
          | .fail c v => .fail c v
          | .wait s => .wait s
          | .peer q off s1 =>
            if (s.me.held.any fun h => h.va == d) || decide (8 ≤ s.me.held.length) then .fail .ill 0
            else .hold ((s1.waitFor (.acquire d shared false)).askPeer q off op [d] true)
          | .at_ die tier off t s1 =>
            if (s.me.held.any fun h => h.va == d) || decide (8 ≤ s.me.held.length) then .fail .ill 0
            else match (s1.die die).peek tier off 8 with
              | some bs =>
                if datumBad (leNat bs) then .fail .ill 0
                else .hold ((s1.waitFor (.acquire d shared false)).updDie die fun x =>
                  { x with acqs := insertAcq { core := s1.actor, comes := s1.cycle + s1.wayTo s1.myDie t
                                               due := s1.cycle + s1.datumTrip d t, tier := tier, off := off, shared := shared }
                             x.acqs })
              | none => if s1.waits die tier off 8 then .wait s1 else .fail .integ d)) s0

/-- S.ACQ, exclusive (16 R328). -/
def execSAcq (sc : BitVec 3) (s : State) : Out := issueS (.sAcq sc) (acqBody false (0xE1C0 + sc.toNat)) s

/-- S.ACQ, shared (16 R328). -/
def execSAcqSh (sc : BitVec 3) (s : State) : Out := issueS (.sAcqSh sc) (acqBody true (0xE1C8 + sc.toNat)) s

/-- An earlier request for the same datum waits, or a release of the same core on it is on its way (16 R327, R328). -/
def Die.acqBlocked (d : Die) (k : Nat) (q : AcqReq) : Bool :=
  ((d.acqs.take k).any fun x => decide (x.tier = q.tier) && decide (x.off = q.off)) ||
    d.rels.any fun x => decide (x.core = q.core) && decide (x.tier = q.tier) && decide (x.off = q.off)

/-- The datum after a grant; none while the request must wait. -/
def grantWord (package core w : Nat) (shared : Bool) : Option Nat :=
  if datumEx w then none
  else if shared then (if datumSh w < 4095 then some (w + 2 ^ 38) else none)
  else if datumSh w = 0 then some (datumTaken package core) else none

/-- Grants an acquire to a core: it takes d into its held list, and its S.ACQ ends. -/
def Core.grant (k : Core) : Core :=
  match k.swait with
  | .acquire d shared false => { k.hold d shared with swait := .acquire d shared true }
  | _ => k

/-- ACQUIRE_GRANT (16 R328): the k-th request waiting at the acting core's die is granted, or, past them, the peer package's
grant of the acting core's own request arrives. -/
def execAcquireGrant (k : Nat) (s : State) : Out :=
  let die := s.myDie
  let d := s.die die
  match d.acqs[k]? with
  | none =>
    match s.peerAnswer with
    | some (m, s) => match m.report with
      | some c => .next (takeTrap s 7 (s.me.en .c).pc c (match s.me.swait with | .acquire d _ _ => d | _ => 0))
      | none => .next (s.updMe Core.grant)
    | none => .next s
  | some q =>
    if s.cycle < q.due || d.acqBlocked k q || s.waits die q.tier q.off 8 then .next s
    else
      let gone := s.updDie die fun x => { x with acqs := x.acqs.eraseIdx k }
      let fail := fun (s : State) (c : Cause) => s.updCore q.core fun x => x.takeTrap 7 (x.en .c).pc c
        (if c = .integ then (match x.swait with | .acquire d _ _ => d | _ => 0) else 0) s.cycle
      match gone.read die q.tier q.off 8 with
      | (s, none) => .next (fail s .integ)
      | (s1, some bs) =>
        if datumBad (leNat bs) then .next (fail s1 .ill)
        else match grantWord s.package q.core (leNat bs) q.shared with
          | none => .next s
          | some w => .next ((s1.write die q.tier q.off (leBytes w 8) false).1.updCore q.core Core.grant)

/-! ## S.REL -/

/-- Sends the release of a held datum and drops it from the held list (16 R329); false while its page is being walked. -/
def State.release (s : State) (h : Held) (op : Nat) : State × Bool :=
  let drop := fun (s : State) => s.updMe fun k => { k with held := k.held.erase h }
  match datumAt s h.va with
  | .at_ die tier off t s => ((drop s).updDie die fun x =>
      { x with rels := x.rels ++ [{ core := s.actor, due := s.cycle + s.datumReach h.va t, by_ := s.cycle + s.datumTrip h.va t
                                    va := h.va, tier := tier, off := off, shared := !h.excl }] }, true)
  | .peer q off s => ((drop s).askPeer q off op [h.va] false, true)
  | .wait s => (s, false)
  | .fail _ _ => (drop s, true)

/-- S.REL (16 R329): waits for the writes that precede it, then posts the release. -/
def relBody (op : Nat) (s0 : State) : Res :=
  match s0.me.swait with
  | .release d _ true => popping .c 1 0 (fun _ s =>
      match s.me.held.find? fun h => h.va == d with
      | some h => (match s.release h op with
        | (s, true) => .ok (s.waitFor .none)
        | (s, false) => .wait s)
      | none => .ok (s.waitFor .none)) s0
  | .release _ _ false => .hold s0
  | _ =>
    popping .c 1 0 (fun vs s =>
      let d := vs.getD 0 0
      datumCheck s d
        (match datumAt s0 d with
          | .fail c v => .fail c v
          | .wait s => .wait s
          | .peer _ _ s1 | .at_ _ _ _ _ s1 =>
            if s.me.held.all fun h => h.va != d then .fail .ill 0
            else
              let s2 := s1.flushComb fun _ => true
              .hold (s2.waitFor (.release d s2.me.posted false)))) s0

/-- S.REL (16 R329). -/
def execSRel (sc : BitVec 3) (s : State) : Out := issueS (.sRel sc) (relBody (0xE200 + sc.toNat)) s

/-- RELEASE_DRAIN_COMPLETE (16 R329): the writes before the acting core's S.REL are performed. -/
def execReleaseDrainComplete (s : State) : Out :=
  match s.me.swait with
  | .release d before false =>
    if (before.all fun a => !s.me.posted.contains a) && (s.me.kop.copies.all (·.landed)) && s.me.far.isEmpty
        && s.me.landedAll then
      .next (s.waitFor (.release d before true))
    else .next s
  | _ => .next s

/-- RELEASE_EFFECT (16 R329): the k-th release on its way to the acting core's die takes effect, in the order its core issued
them. -/
def execReleaseEffect (k : Nat) (s : State) : Out :=
  let die := s.myDie
  let d := s.die die
  match d.rels[k]? with
  | none => .next s
  | some q =>
    let first := (d.rels.take k).all fun x => !(decide (x.core = q.core) && decide (x.tier = q.tier) && decide (x.off = q.off))
    if s.cycle < q.due || !first || s.waits die q.tier q.off 8 then .next s
    else
      let gone := s.updDie die fun x => { x with rels := x.rels.eraseIdx k }
      match gone.read die q.tier q.off 8 with
      | (s, none) => .next (s.updCore q.core fun x => x.takeTrap 7 (x.en .c).pc .integ q.va s.cycle)
      | (s, some bs) => .next (s.write die q.tier q.off (leBytes (datumFreed q.shared (leNat bs)) 8) false).1

/-! ## S.BIND -/

/-- S.BIND (16 R330): sent once the core's hold and n are tested, then waits for the table's answer. -/
def bindBody (unbind : Bool) (s0 : State) : Res :=
  match s0.me.swait with
  | .bind _ _ _ _ _ (some ok) => popping .c 3 0 (fun _ s => if ok then .ok (s.waitFor .none) else .fail .ill 0) s0
  | .bind _ _ _ _ _ none => .hold s0
  | _ =>
    popping .c 3 0 (fun vs s =>
      let n := vs.getD 0 0
      let va := vs.getD 1 0
      let d := vs.getD 2 0
      datumCheck s d
        (if va.toNat % 4096 ≠ 0 then .fail .align va
         else match datumAt s0 d with
          | .fail c v => .fail c v
          | .wait s => .wait s
          | .peer q off s1 =>
            if (s.me.held.all fun h => h.va != d || !h.excl) || n = 0 || decide (2 ^ 20 < n.toNat) then .fail .ill 0
            else .hold ((s1.waitFor (.bind d va n.toNat unbind 0 none)).askPeer q off
              (0xE340 + if unbind then 1 else 0) [d, va, n] true)
          | .at_ _ _ _ t s1 =>
            if (s.me.held.all fun h => h.va != d || !h.excl) || n = 0 || decide (2 ^ 20 < n.toNat) then .fail .ill 0
            else .hold (s1.waitFor (.bind d va n.toNat unbind (s1.cycle + s1.datumTrip d t) none)))) s0

/-- S.BIND (16 R330). -/
def execSBind (s : State) : Out := issueS .sBind (bindBody false) s

/-- S.BIND.u (16 R330). -/
def execSBindU (s : State) : Out := issueS .sBindU (bindBody true) s

/-- First granule of a binding, and the granule after its last. -/
def Binding.lo (b : Binding) : Nat := b.va.toNat / 4096
def Binding.hi (b : Binding) : Nat := b.lo + b.n

/-- The run of granules from `lo` to before `hi`, bound as `b` is. -/
def Binding.part (b : Binding) (lo hi : Nat) : List Binding :=
  if lo < hi then [{ b with va := w64 (lo * 4096), n := hi - lo }] else []

/-- The parts of `lo` to before `hi` that no run of a list covers; `n` bounds the steps. -/
def gapsOf (runs : List Binding) (hi : Nat) : Nat → Nat → List (Nat × Nat)
  | 0, _ => []
  | n + 1, lo =>
    if hi ≤ lo then []
    else match runs.find? fun b => decide (b.lo ≤ lo) && decide (lo < b.hi) with
      | some b => gapsOf runs hi n b.hi
      | none =>
        let next := ((runs.filter fun b => decide (lo < b.lo)).map (·.lo)).foldl min hi
        (lo, next) :: gapsOf runs hi n next

/-- The binding table after s.bind; none where it refuses it (16 R326, R330). -/
def bindRuns (runs : List Binding) (new : Binding) : Option (List Binding) :=
  let near := runs.filter fun b => decide (b.space = new.space) && decide (b.lo < new.hi) && decide (new.lo < b.hi)
  let fresh := (gapsOf near new.hi (2 * near.length + 2) new.lo).flatMap fun g => new.part g.1 g.2
  if (near.any fun b => b.datum != new.datum) || decide (4096 < runs.length + fresh.length) then none
  else some (runs ++ fresh)

/-- The binding table after s.bind.u; none where it refuses it: a granule is not bound to d, or the table lacks an entry for
a run left in two (16 R330). -/
def unbindRuns (runs : List Binding) (gone : Binding) : Option (List Binding) :=
  let mine := fun b : Binding => decide (b.space = gone.space) && b.datum == gone.datum
  let near := runs.filter fun b => mine b && decide (b.lo < gone.hi) && decide (gone.lo < b.hi)
  let left := runs.flatMap fun b =>
    if near.contains b then b.part b.lo gone.lo ++ b.part gone.hi b.hi else [b]
  if (gapsOf near gone.hi (2 * near.length + 2) gone.lo).isEmpty && decide (left.length ≤ 4096) then some left else none

/-- A granule of a run is bound to a datum that another die owns (16 R326, R330). -/
def State.boundAway (s : State) (die : Nat) (b : Binding) : Bool :=
  s.dies.any fun p => decide (p.1 ≠ die) && p.2.binds.any fun x => decide (x.space = b.space) && decide (x.lo < b.hi) && decide (b.lo < x.hi)

/-- BIND_RECORD (16 R330): the binding table of d's die records the change the acting core waits for, or refuses it. -/
def execBindRecord (s : State) : Out :=
  match s.me.swait with
  | .bind d va n unbind due none =>
    if s.me.peerAsked.contains .c then
      match s.peerAnswer with
      | some (m, s) => .next (s.waitFor (.bind d va n unbind due (some m.report.isNone)))
      | none => .next s
    else if s.cycle < due then .next s
    else
      let die := bits d 55 3
      let b : Binding := { datum := d, space := s.me.space, va := va, n := n }
      let runs := (s.die die).binds
      match (if unbind then unbindRuns runs b else if s.boundAway die b then none else bindRuns runs b) with
      | some r => .next ((s.updDie die fun x => { x with binds := r }).waitFor (.bind d va n unbind due (some true)))
      | none => .next (s.waitFor (.bind d va n unbind due (some false)))
  | _ => .next s

/-! ## S.FENCE -/

/-- The cycle by which what the issued A and M words that a fence's set names have yet to do has taken place. -/
def Core.lateOf (k : Core) (p : BitVec 6) : Nat :=
  (k.late.map fun l => if (l.eng = .a ∧ p.getLsbD 5) ∨ (l.eng = .m ∧ p.getLsbD 3) then l.at_ else 0).foldl max 0

/-- S.FENCE (16 R332): engines outside Q go on at once; with F in P the combining buffer flushes. -/
def execSFence (sc : BitVec 3) (p q : BitVec 6) (s : State) : Out :=
  issueS (.sFence sc p q) (fun s =>
    if s.me.leg.timed then .fail .ill 0
    else
      let s := if p.getLsbD 1 then s.flushComb fun _ => true else s
      .ok (s.updMe fun k => { k with fences := k.fences ++
        [{ src := p.toNat, dst := q.toNat, scope := sc.toNat, place := k.here .c, before := k.posted, upto := k.lateOf p }] })) s

/-- The accesses of P that precede a fence are performed (16 R332). -/
def Fence.drained (f : Fence) (k : Core) (cycle : Nat) : Bool :=
  let has := fun b => f.src / 2 ^ b % 2 == 1
  decide (f.upto ≤ cycle) && (!has 2 || k.rows.all fun r => decide (f.place ≤ r.eng.place)) && (!has 5 || f.before.all fun a => !((a.eng == .a || a.eng == .c) && k.posted.contains a)) &&
  (!has 4 || k.kop.copies.all fun c => c.killed || decide (f.place ≤ c.place)) &&
  (!has 1 || k.far.all fun o => decide (f.place ≤ o.place)) &&
  (!has 0 || k.colls.all fun c => c.done || decide (f.place ≤ c.place))

/-- A fence in a cycle: once its sources are performed it holds nothing from the next cycle on (16 R334). -/
def Fence.turn (f : Fence) (k : Core) (cycle : Nat) : Option Fence :=
  match f.drainedAt with
  | some c => if c < cycle then none else some f
  | none => if f.drained k cycle then some { f with drainedAt := some cycle } else some f

/-- FENCE_DRAIN_COMPLETE (16 R332, R334): the fences of the acting core whose sources are performed. -/
def execFenceDrainComplete (s : State) : Out :=
  .next (s.updMe fun k => { k with fences := k.fences.filterMap fun f => f.turn k s.cycle })

end Sys2Proof.Machine
end

