-- ==== Sys2Proof/Machine/Task.lean ====
section
/-! DEFINITION. The S words of tasks (18 R375-R377, R383, R385), saves and restores (18 R380, R384-R389), and the commands
that resolve a trap or a page fault (18 R382, R389). -/

namespace Sys2Proof.Machine

/-! ## S.FORK and S.JOIN -/

/-- Engines that a mask names: A, E, M, K, W, F from bit 5 down (18 R375). -/
def maskEngines (m : BitVec 6) : List Engine := [Engine.a, .e, .m, .k, .w, .f].filter fun t => m.getLsbD (6 - t.tag)

/-- An S word, or C.BR, C.CALL, C.RET or C.LOOP, stands from an address up to a target; none where a row is not loaded
(18 R375). -/
def Text.barred (x : Text) (target : Nat) : Nat → Nat → Option Bool
  | 0, _ => some false
  | n + 1, a =>
    if target ≤ a then some false
    else match x.fetch a with
      | .word w =>
        let op := opcOf w
        if tagOf w = 7 then some true
        else if tagOf w = 0 && !isLiteral w && (op == 0x0E || op == 0x0F || op == 0x10 || op == 0x11) then some true
        else x.barred target n (a + lenOf w)
      | .absent => none
      | .freed => some true

/-- A core between its S.SIGN and the following S.LEG (05 R115). -/
def Core.signing (k : Core) : Bool := k.leg.signed

/-- An engine that S.FORK starts: its stack and other state stay (18 R375). -/
def Eng.forked (x c : Eng) (target o cycle : Nat) : Eng :=
  { x with active := true, pc := target, mid := false, lead := o - 2, progress := c.progress, skew := c.skew + o, steer := [],
           endWait := false,
           parked := none, fromWin := target / 32, nextIssue := cycle + 1, lag := c.lag }

/-- S.FORK (18 R375); a wait for a text row in a leg is a breach (02 R38). -/
def forkBody (m : BitVec 6) (o : BitVec 13) (s : State) : Res :=
  let k := s.me
  let a := (k.en .c).pc
  let target : Int := Int.ofNat a + o.toInt
  let named := maskEngines m
  if k.signing || named.isEmpty || (named.any fun t => (k.en t).active) || decide (o.toInt < 2)
      || decide (Int.ofNat k.text.len ≤ target) then .fail .ill 0
  else match k.text.barred target.toNat k.text.len (a + 2) with
    | none => .hold (s.updMe fun k => k.breachIn .c 1 s.cycle)
    | some true => .fail .ill 0
    | some false => .ok (s.updMe fun k =>
        { k with eng := k.eng.map fun t x => if named.contains t then x.forked (k.en .c) target.toNat o.toNat s.cycle else x })

/-- S.FORK (18 R375). -/
def execSFork (m : BitVec 6) (o : BitVec 13) (s : State) : Out := issueS (.sFork m o) (forkBody m o) s

/-- S.JOIN (18 R376). -/
def execSJoin (m : BitVec 6) (s : State) : Out :=
  issueS (.sJoin m) (fun s =>
    if s.me.signing then .fail .ill 0
    else .ok (s.updMe fun k =>
      { k with eng := k.eng.map fun t x => if (maskEngines m).contains t then { x with active := false } else x })) s

/-! ## S.TRAP, S.END, S.YIELD -/

/-- S.TRAP (18 R383). -/
def execSTrap (s : State) : Out := issueS .sTrap (popping .c 1 0 fun vs _ => .fail .swt (vs.getD 0 0)) s

/-- The acting core belongs to an open traverse (05 R115). -/
def State.inTraverse (s : State) : Bool :=
  match (s.die s.myDie).trav with
  | none => false
  | some t => t.cores / 2 ^ s.slotInDie % 2 == 1 && !t.left.contains s.slotInDie

/-- Every active stream stops as under A.SSTOP, and the load queues, with what is on its way to them, are emptied (18 R377). -/
def Core.haltStreams (k : Core) (cycle : Nat) : Core :=
  let k := (List.range 16).foldl (fun (k : Core) g => k.haltStream g cycle) k
  let k := (List.range 4).foldl (fun (k : Core) q => k.setQueue q []) k
  { k with late := k.late.filter fun l => match l.act with
      | .push q _ _ _ => decide (4 ≤ q)
      | .plane _ _ d _ => d.isNone
      | .halt _ => false
      | _ => true }

/-- S.END (18 R377): its first step; END_COMPLETE does the others. -/
def execSEnd (s : State) : Out :=
  issueS .sEnd (fun s =>
    if s.me.leg.timed || s.inTraverse then .fail .ill 0
    else .ok ((s.flushComb fun _ => true).updMe fun k => { k.haltStreams s.cycle with run := .ending })) s

/-- S.YIELD in either form (18 R385). -/
def yieldBody (force : Bool) (s : State) : Res :=
  if s.me.leg.timed then .fail .ill 0
  else if s.frameLeft s.actor && (force || s.wanted) then .ok (s.updMe fun k => { k with run := .saving .yield })
  else .ok s

/-- S.YIELD (18 R385). -/
def execSYield (s : State) : Out := issueSN .sYield 2 (yieldBody false) s

/-- S.YIELD.FORCE (18 R385). -/
def execSYieldForce (s : State) : Out := issueSN .sYieldForce 2 (yieldBody true) s

/-! ## Pre-emption -/

/-- The acting core stands at a point where the Millwright may pre-empt its task (18 R384). -/
def State.mayPreempt (s : State) : Bool :=
  let k := s.me
  let t := s.travOf s.myDie
  let slack := s.inTraverse && !t.opening && !(t.was.isNone && k.leg.go.isSome)
  let atWait := match engineTurn s .k with | .run (.kCwait _) _ => true | _ => false
  let atS := match k.swait with | .acquire _ _ false | .step _ _ false _ => true | _ => false
  decide (k.run = .running) && !k.leg.timed && (slack || atWait || atS) && s.frameLeft s.actor

/-- MILLWRIGHT_PREEMPTION (18 R384). -/
def execMillwrightPreemption (s : State) : Out := .next (if s.mayPreempt then s.preemptCore s.actor else s)

/-! ## Saves -/

/-- Takes back what the acting core has asked for and not been given: an acquire, an arrival at a step (18 R384; 12 R263). -/
def State.withdraw (s : State) : State :=
  match s.me.swait with
  | .acquire d _ false =>
    let s := s.updDie (bits d 55 3) fun x => { x with acqs := x.acqs.filter fun q => decide (q.core ≠ s.actor) }
    s.updMe fun k => { k with swait := .none }
  | .step g _ false _ =>
    let s := s.updDie s.myDie fun d => d.setGroup g
      { d.group g with arrived := (d.group g).arrived.filter fun a => decide (a.1 ≠ s.actor) }
    s.updMe fun k => { k with swait := .none }
  | _ => s

/-- The task on the acting core belongs to a step group, a traverse or a collective in flight (18 R388, R391). -/
def State.coScheduled (s : State) : Bool :=
  ((List.range 16).any fun g => (s.die s.myDie).formed g && ((s.die s.myDie).group g).live.contains s.actor) || s.inTraverse ||
    s.me.colls.any fun c => !c.done && decide (c.task = s.me.task)

/-- A trap record, with the cycle of the trap (18 R381). -/
def trapRecord (s : State) (frame : Nat) : List Byte :=
  let k := s.me
  leBytes k.trapAt 8 ++ leBytes k.taskNo 4 ++ leBytes k.launchNo 1 ++ [0] ++ leBytes s.actor 2
    ++ bytesOf [k.cf.cause, k.cf.tpc, k.cf.tval] ++ leBytes frame 8 ++ List.replicate 16 0

/-- What a task becomes in its frame. -/
def SaveWhy.state (why : SaveWhy) (frame core : Nat) : TaskSt :=
  match why with
  | .trap => .trapped frame core
  | .page va _ => .paged frame core va
  | .yield | .preempt => .saved frame core false

/-- The acting core's context goes to frame `f` of its launch, and the core is free (18 R380, R385, R386). -/
def State.saveTo (s : State) (t : TaskRef) (why : SaveWhy) (f : Nat) : State :=
  let s := s.withdraw
  let k := s.me
  let saved : Saved := { launch := t.launch, frame := f, left := s.actor, bound := s.coScheduled, core := k.context }
  let s := s.updDie t.die fun d => { d with saved := d.saved ++ [saved] }
  let s := s.setTask t (why.state f s.actor)
  let s := match why with
    | .yield | .preempt => s.requeue t
    | _ => s
  s.updMe Core.vacated

/-- Writes the frame and lets the context go; a frame that cannot be written kills the task (17 R363). -/
def State.saveFrame (s : State) (t : TaskRef) (l : Launch) (why : SaveWhy) (f : Nat) : State :=
  match writeFrame s l.space (l.frameAt f) s.actor s.me.context with
  | .ok _ s => s.saveTo t why f
  | .wait s => s
  | .fail _ _ s => s.updMe fun k => { k with run := .killing }

/-- The task on the acting core is to be killed. -/
def State.toKill (s : State) : State := s.updMe fun k => { k with run := .killing }

/-- Delivers the trap of the acting core (18 R380): the context goes to a frame, or stays; a record is appended; with no room
for one the trap is fatal. -/
def State.deliverTrap (s : State) (t : TaskRef) (l : Launch) (frame : Option Nat) : State :=
  let append := fun (s : State) at_ => queueAppend s s.myDie 402 l.space (trapRecord s at_)
  match frame with
  | none => match append s 0 with
    | .ok s => s.updMe fun k => { k with run := .trappedInPlace }
    | .full => s.toKill
    | .wait s => s
  | some f => match append s (l.frameAt f) with
    | .full => s.toKill
    | .wait s => s
    | .ok _ => match writeFrame s l.space (l.frameAt f) s.actor s.me.context with
      | .wait s => s
      | .fail _ _ s => s.toKill
      | .ok _ s => match append s (l.frameAt f) with
        | .ok s => s.saveTo t .trap f
        | .full => s.toKill
        | .wait s => s

/-- The lowest free frame of its launch is the acting core's; its context is being written there (18 R380, R386). -/
def State.beginStore (s : State) (t : TaskRef) (why : SaveWhy) (f : Nat) : State :=
  (s.updLaunch t.die t.launch fun l => { l with used := f :: l.used }).updMe fun k =>
    { k with run := .storing why (s.cycle + frameTime), frame := some f }

/-- CONTEXT_SAVE_COMPLETE (18 R386): once what the acting core has issued is complete, its context is written to the lowest
free frame, which takes its time; then a trap is delivered, and the core is free. With no free frame the context stays in
place. -/
def execContextSaveComplete (s : State) : Out :=
  match s.me.run, s.me.task with
  | .saving why, some t =>
    if !s.me.comb.isEmpty then .next (s.flushComb fun _ => true)
    else if !s.me.settled s.cycle then .next s
    else match s.launchOf t with
      | none => .next s
      | some l =>
        match why, l.freeFrame with
        | .trap, none => .next (s.deliverTrap t l none)
        | .page va _, none => .next (s.updMe fun k => { k with run := .pagedInPlace va })
        | .yield, none | .preempt, none => .next (s.updMe fun k => { k with run := .running })
        | why, some f => .next (s.beginStore t why f)
  | .storing why at_, some t =>
    (match s.launchOf t, s.me.frame with
      | some l, some f =>
        if s.cycle < at_ then .next s
        else .next (match why with
          | .trap => s.deliverTrap t l (some f)
          | why => s.saveFrame t l why f)
      | _, _ => .next s)
  | _, _ => .next s

/-! ## Restores -/

/-- Frees a frame of a launch. -/
def State.freeFrame (s : State) (die id f : Nat) : State :=
  (s.updLaunch die id fun l => { l with used := l.used.erase f }).updDie die fun d =>
    { d with saved := d.saved.filter fun x => !(decide (x.launch = id) && decide (x.frame = f)) }

/-- What a Millwright keeps of a frame. -/
def Die.savedIn (d : Die) (id f : Nat) : Option Saved :=
  d.saved.find? fun x => decide (x.launch = id) && decide (x.frame = f)

/-- CONTEXT_RESTORE_COMPLETE (18 R388): the acting core takes the context of its task from the frame. -/
def execContextRestoreComplete (s : State) : Out :=
  match s.me.run, s.me.task with
  | .restoring skip at_, some t =>
    (match s.launchOf t, s.me.frame, s.me.frame.bind ((s.die t.die).savedIn t.launch) with
      | some l, some f, some x =>
        if s.cycle < at_ then .next s
        else (match millRead s l.space (l.frameAt f) 0x6F000 with
          | .wait s => .next s
          | .fail _ _ s => .next (s.updMe fun k => { k with run := .killing })
          | .ok bs s =>
            let ctx := x.core.fromFrame bs
            let past := fun (k : Core) => { ({ k with cf := x.core.cf } : Core).skip s.cycle with cf := k.cf }
            let ctx := if skip then past ctx else ctx
            .next ((s.updMe fun k => k.returned ctx s.cycle).freeFrame t.die t.launch f))
      | _, _, _ => .next s)
  | _, _ => .next s

/-! ## DG_TASK_CTL -/

/-- DG_TASK_CTL after a command (18 R392). -/
def State.setCtl (s : State) (w : RegWrite) (refused : Bool) : State :=
  s.updDie w.die fun d => d.setReg 400 ((w.val &&& w64 (3 * 2 ^ 60 + 0xFF * 2 ^ 48 + 0xFFFFFF)) ||| w64 (if refused then 2 ^ 63 else 0))

/-- RETRY or SKIP on a task (18 R382). -/
def resume (skip : Bool) (w : RegWrite) (s : State) : State :=
  match s.ctlTask w with
  | none => s.setCtl w true
  | some (t, l) =>
    match l.st t.task with
    | .trapped f c =>
      let out := match (s.die t.die).savedIn t.launch f with | some x => x.core.skipsOut | none => true
      if skip && out then s.setCtl w true
      else ((s.setTask t (.saved f c skip)).requeue t).setCtl w false
    | .placed c =>
      if (s.core c).run ≠ .trappedInPlace ∨ (s.core c).task ≠ some t then s.setCtl w true
      else if skip && (s.core c).skipsOut then s.setCtl w true
      else (s.updCore c fun k => { (if skip then k.skip s.cycle else k) with run := .running }).setCtl w false
    | _ => s.setCtl w true

/-- TASK_CTL_RETRY (18 R382). -/
def execTaskCtlRetry (s : State) : Out := applyWrite s .retry (resume false)

/-- TASK_CTL_SKIP (18 R382). -/
def execTaskCtlSkip (s : State) : Out := applyWrite s .skip (resume true)

/-! ## DG_PAGE_DONE -/

/-- The addresses of the page that holds an address in a space, as the tables of its die map it (18 R389). -/
def Die.pageAround (d : Die) (space : Nat) (va : W64) : Nat × Nat :=
  let n := match d.walk space va with | .leaf x => pageSize (pteSize x) | _ => 4096
  (va.toNat / n * n, va.toNat / n * n + n)

/-- What a core that waits for a page does once it is done. -/
def Core.pageDone (k : Core) (hit : Nat → W64 → Bool) : Core :=
  let k := { k with walks := k.walks.filter fun w => !(w.reported && hit w.space w.va) }
  match k.run with
  | .pagedInPlace va => if hit k.space va then { k with run := .running } else k
  | .saving (.page va _) => if hit k.space va then { k with run := .saving .preempt } else k
  | .storing (.page va _) at_ => if hit k.space va then { k with run := .storing .preempt at_ } else k
  | _ => k

/-- A launch whose tasks that wait for the page are ready again. -/
def Launch.pageDone (l : Launch) (hit : Nat → W64 → Bool) : Launch × List Nat :=
  let here := (List.range l.tasks.length).filter fun i => match l.st i with | .paged _ _ va => hit l.space va | _ => false
  ({ l with tasks := l.tasks.map fun t => match t with
      | .paged f c va => if hit l.space va then .saved f c false else .paged f c va
      | t => t }, here)

/-- PAGE_DONE (18 R389): every task that waits on a page of the die which holds the address is restored, with RETRY. -/
def execPageDone (s : State) : Out :=
  applyWrite s .pageDone (fun w s =>
    let va := w.val &&& w64 ((2 ^ 46 - 1) * 2 ^ 12)
    let space := bits w.val 0 4
    let r := (s.die w.die).pageAround space va
    let hit := fun (sp : Nat) (a : W64) =>
      decide (sp = space) && decide (bits a 55 3 = w.die) && decide (r.1 ≤ a.toNat) && decide (a.toNat < r.2)
    let s := { s with cores := s.cores.map fun p : Nat × Core => (p.1, p.2.pageDone hit) }
    let s := s.updDie w.die fun d => { d with faults := d.faults.filter fun f => !(f.reported && hit f.space f.va) }
    (List.range 8).foldl (fun (s : State) d => (s.die d).launches.foldl (fun (s : State) l =>
      let x := l.pageDone hit
      x.2.foldl (fun s i => s.requeue { die := d, launch := l.id, task := i }) (s.updLaunch d l.id fun _ => x.1)) s) s)

end Sys2Proof.Machine
end

