-- ==== Sys2Proof/Machine/Launch.lean ====
section
/-! DEFINITION. Launch records, the start, the end and the kill of tasks, and the text store's loader (18 R366-R374, R377,
R390, R391; 17 R352; 02 R39, R40). -/

namespace Sys2Proof.Machine

/-! ## The status word -/

/-- The launch status word (18 R369). -/
def Launch.status (l : Launch) (done : Bool) (cause : Nat) : Nat :=
  (if done then 2 ^ 63 else 0) + (if l.failed then 2 ^ 62 else 0) + l.id % 256 * 2 ^ 54 + cause % 64 * 2 ^ 48 + l.ended % 2 ^ 32

/-- Writes the status word of a launch. -/
def Launch.writeStatus (l : Launch) (s : State) (done : Bool) (cause : Nat) : Near :=
  millWrite s l.space l.stat.toNat (leBytes (l.status done cause) 8)

/-- A launch whose tasks are all over completes: its status word is written, its pins drop, and it is gone (18 R369). The
word is left as it is where it cannot be written. -/
def State.closeLaunch (s : State) (die id : Nat) : Near :=
  match (s.die die).launch id with
  | none => .ok [] s
  | some l =>
    if !l.tasks.all (·.over) then .ok [] s
    else
      let gone := fun (s : State) => (s.unpinAll l.pins).updDie die fun d =>
        { d with launches := d.launches.filter fun x => decide (x.id ≠ id) }
      match l.writeStatus s true 0 with
      | .ok _ s => .ok [] (gone s)
      | .wait s => .wait s
      | .fail _ _ s => .ok [] (gone s)

/-! ## Reading and checking a record (18 R366-R369) -/

/-- The header's bytes as fields. -/
def fldAt (h : List Byte) (off n : Nat) : Nat := leNat ((h.drop off).take n)

/-- The least scope code of a domain (18 R367). -/
def leastScope (domain : Nat) : Nat := ([0, 1, 2, 3, 4, 4, 5, 2] : List Nat).getD domain 0

/-- A level entry of a header. -/
def levelOf (h : List Byte) (n : Nat) : Level :=
  let b := 128 + 16 * n
  { domain := fldAt h b 1, scope := fldAt h (b + 1) 1, nreg := fldAt h (b + 2) 2, extent := fldAt h (b + 4) 4
    addr := w64 (fldAt h (b + 8) 8) }

/-- A level entry's own values are in range. -/
def Level.fits (x : Level) : Bool :=
  decide (x.domain < 8) && decide (x.scope ≤ 5) && decide (leastScope x.domain ≤ x.scope) &&
    decide (1 ≤ x.extent ∧ x.extent ≤ 2 ^ 24) && (if x.domain = 7 then decide (x.nreg ≤ 512) else decide (x.nreg = 0))

/-- The place of a domain in the order of levels (18 R367). -/
def Level.rank (x : Level) : Nat := if x.domain = 7 then 1 else x.domain

/-- The levels satisfy R367. -/
def Launch.levelsOk (l : Launch) (ntask : Nat) : Bool :=
  l.levels.all Level.fits &&
    ((List.range l.levels.length).all fun i => (List.range l.levels.length).all fun j =>
      !decide (i < j) || decide ((l.levels.map Level.rank).getD i 0 ≤ (l.levels.map Level.rank).getD j 0)) &&
    decide (ntask ≤ l.span (l.levels.length - 1)) &&
    decide ((l.levels.filter fun x => decide (x.domain = 7)).length ≤ 1) &&
    (match l.stepLevel with | some (n, _) => decide (min (l.span n) ntask ≤ 512) | none => true)

/-- The launch a header describes, without its tasks; none where a field is out of its row (18 R366, R369). -/
def launchOfHeader (h : List Byte) (va : W64) (id : Nat) (sys : Bool) : Option Launch :=
  let nlev := fldAt h 4 1
  let l : Launch := { id := id, space := fldAt h 5 1, sys := fldAt h 6 1 % 2 == 1, handle := fldAt h 6 1 / 2 % 2 == 1
                      text := w64 (fldAt h 8 8), textw := fldAt h 16 2, tail := fldAt h 18 2, stat := w64 (fldAt h 56 8)
                      frames := w64 (fldAt h 64 8), nframe := fldAt h 72 4
                      levels := (List.range nlev).map (levelOf h), recs := [], tasks := [] }
  let ntask := fldAt h 20 4
  if va.toNat % 64 = 0 && fldAt h 0 4 == 0x4C4E4331 && decide (1 ≤ nlev ∧ nlev ≤ 8) && decide (l.space < 16)
      && decide (fldAt h 6 1 < 4) && fldAt h 7 1 == 0 && l.text.toNat % 256 == 0 && decide (1 ≤ l.textw ∧ l.textw ≤ 16384)
      && (l.tail == 0xFFFF || decide (l.tail < l.textw)) && decide (1 ≤ ntask ∧ ntask ≤ 2 ^ 24)
      && fldAt h 24 8 % 64 == 0 && fldAt h 32 8 % 16 == 0 && decide (fldAt h 40 4 ≤ 4096) && decide (fldAt h 44 4 ≤ 64)
      && l.stat.toNat % 8 == 0 && l.frames.toNat % 4096 == 0 && decide (l.nframe ≤ 65535)
      && ((h.drop 76).take 52).all (· == 0) && (h.drop (128 + 16 * nlev)).all (· == 0)
      && l.levelsOk ntask && (!l.sys || sys) then some l
  else none

/-- A task record; none where a field is out of its row (18 R368). -/
def taskOf (b : List Byte) (i textw : Nat) : Option TaskRec :=
  let npred := fldAt b 27 1
  let preds := (List.range npred).map fun j => fldAt b (40 + 4 * j) 4
  let timed := fldAt b 26 1 == 1
  if decide (fldAt b 26 1 < 2) && decide (npred ≤ 4) && fldAt b 30 2 == 0 && fldAt b 36 4 == 0
      && decide (fldAt b 24 2 < textw) && (preds.all fun p => decide (p < i))
      && ((b.drop (40 + 4 * npred)).take (16 - 4 * npred)).all (· == 0)
      && (if timed then decide (fldAt b 28 2 < 4096) else fldAt b 28 2 == 0 && fldAt b 32 4 == 0)
      && fldAt b 56 8 % 8 == 0 then
    some { anchor := w64 (fldAt b 0 8), arg0 := w64 (fldAt b 8 8), arg1 := w64 (fldAt b 16 8), entry := fldAt b 24 2,
           timed := timed, core := fldAt b 28 2, start := fldAt b 32 4, preds := preds, cnt := w64 (fldAt b 56 8) }
  else none

/-- A task comes after another along predecessors; `n` bounds the chain. -/
def comesAfter (recs : List TaskRec) : Nat → Nat → Nat → Bool
  | 0, _, _ => false
  | n + 1, i, j => match recs[i]? with
    | some r => r.preds.contains j || r.preds.any fun p => decide (j < p) && comesAfter recs n p j
    | none => false

/-- Two timed tasks of one core of which neither waits for the other (18 R369; log entry 40). -/
def timedOverlap (recs : List TaskRec) : Bool :=
  (List.range recs.length).any fun i => (List.range i).any fun j =>
    match recs[i]?, recs[j]? with
    | some x, some y => x.timed && y.timed && decide (x.core = y.core) && !comesAfter recs (i + 1) i j
    | _, _ => false

/-- Timed tasks of one group that no one unit of its domain holds (18 R367). -/
def Launch.timedSplit (l : Launch) (recs : List TaskRec) : Bool :=
  l.numbered.any fun p => (List.range recs.length).any fun i => (List.range i).any fun j =>
    match recs[i]?, recs[j]? with
    | some x, some y => x.timed && y.timed && decide (i / l.span p.1 = j / l.span p.1) &&
        decide (unitOf p.2.domain x.core ≠ unitOf p.2.domain y.core)
    | _, _ => false

/-- A region-list entry as register index and image; none where it is out of its row (18 R367; 12 R252). -/
def regionOf (b : List Byte) : Option (Nat × W64) :=
  let v := w64 (fldAt b 8 8)
  if decide (fldAt b 0 1 < 32) && decide (fldAt b 1 1 < 16) && fldAt b 2 6 == 0 && v &&& ~~~ w64 (dgMask 1024) == 0
      && regionRule v != 3 && (regionRule v != 1 || regionW8 v) && (!regionFx v || regionRule v == 1)
      && decide (regionFirst v ≤ regionLast v) then some (1024 + 16 * fldAt b 0 1 + fldAt b 1 1, v)
  else none

/-! ## What a record's addresses come to -/

/-- A permission the Millwright needs. -/
inductive Need where
  | r | w | x
  deriving DecidableEq, Repr

/-- What looking at the pages of a run comes to. -/
inductive PageRun where
  | ok (pages : List PageKey)
  | wait
  | fail (c : Cause)
  deriving DecidableEq, Repr

/-- The pages of a run of addresses, from an address up to `stop`; `n` bounds their number (18 R369). -/
def pagesOf (s : State) (space stop : Nat) (need : Need) : Nat → Nat → PageRun
  | 0, _ => .ok []
  | n + 1, va =>
    if stop ≤ va then .ok []
    else if 2 ^ 58 ≤ va then .fail .xlat
    else
      let die := va / 2 ^ 55 % 8
      if s.walkHeld die space (w64 va) then .wait
      else match (s.die die).walk space (w64 va) with
        | .fault => .fail .xlat
        | .fail c => .fail (if c = .integ then .xlat else c)
        | .leaf x =>
          if pteAp x then .fail .xlat
          else if !(match need with | .r => pteRd x | .w => pteW x | .x => pteX x) then .fail .perm
          else
            let sz := pageSize (pteSize x)
            match pagesOf s space stop need n ((va / sz + 1) * sz) with
            | .ok ps => .ok (keyOf die x :: ps)
            | e => e

/-- The pages of a run of `n` bytes. -/
def runPages (s : State) (space va n : Nat) (need : Need) : PageRun := pagesOf s space (va + n) need (n / 4096 + 2) va

/-- What reading or checking a record comes to. -/
inductive RecOut (α : Type) where
  | ok (x : α) (s : State)
  | wait (s : State)
  | reject (c : Cause) (s : State)
  deriving DecidableEq, Repr

/-- Goes on with what a part of the check has found. -/
def RecOut.bind {α β : Type} (r : RecOut α) (f : α → State → RecOut β) : RecOut β :=
  match r with
  | .ok x s => f x s
  | .wait s => .wait s
  | .reject c s => .reject c s

/-- Goes on where a condition holds, else rejects with #ILL. -/
def RecOut.unless {α : Type} (b : Bool) (s : State) (f : RecOut α) : RecOut α := if b then .reject .ill s else f

/-- Reads an array of a record through its pages (18 R369). -/
def recRead (s : State) (space va n : Nat) : RecOut (List Byte) :=
  match runPages s space va n .r with
  | .wait => .wait s
  | .fail c => .reject c s
  | .ok _ => match millRead s space va n with
    | .ok bs s => .ok bs s
    | .wait s => .wait s
    | .fail c _ s => .reject (if c = .integ then .xlat else c) s

/-- The pages of a run that a record's check asks for. -/
def recPages (s : State) (space va n : Nat) (need : Need) : RecOut (List PageKey) :=
  match runPages s space va n need with
  | .ok ps => .ok ps s
  | .wait => .wait s
  | .fail c => .reject c s

/-- The elements of a list one after the other. -/
def RecOut.each {α β : Type} (f : α → State → RecOut β) : List α → State → RecOut (List β)
  | [], s => .ok [] s
  | x :: xs, s => (f x s).bind fun y s => (RecOut.each f xs s).bind fun ys s => .ok (y :: ys) s

/-- Bytes that a leg table's image takes, as its header and directory say (05 R99, R100). -/
def tableBytes (s : State) (space : Nat) (va : W64) : Nat :=
  let die := bits va 55 3
  let d := s.die die
  match d.vwords die space va 16 with
  | .error _ => 128
  | .ok h =>
    let c := headerCounts h
    match d.vwords die space (va + 128) (min c.1 128) with
    | .error _ => 128
    | .ok ws => (ws.map fun v => nbits v 0 16 + 8 * nbits v 32 17).foldl max (128 + 8 * (c.1 + c.2.1 + c.2.2))

/-- The launch with its task records and region lists, and the pages to pin (18 R367-R369). -/
def readRecord (s : State) (h : List Byte) (l : Launch) : RecOut (Launch × List PageKey) :=
  let ntask := fldAt h 20 4
  (recRead s l.space (fldAt h 24 8) (64 * ntask)).bind fun raw s =>
  let opt := (List.range ntask).map fun i => taskOf ((raw.drop (64 * i)).take 64) i l.textw
  let recs := opt.filterMap id
  RecOut.unless (recs.length ≠ ntask || timedOverlap recs || l.timedSplit recs) s <|
  (RecOut.each (fun (x : Level) s =>
    if x.domain = 7 then (recRead s l.space x.addr.toNat (16 * x.nreg)).bind fun raw s =>
      let rs := ((List.range x.nreg).map fun j => regionOf ((raw.drop (16 * j)).take 16)).filterMap id
      RecOut.unless (rs.length ≠ x.nreg) s (.ok { x with regions := rs } s)
    else .ok x s) l.levels s).bind fun levels s =>
  (recPages s l.space l.text.toNat (2 * l.textw) .x).bind fun text s =>
  (recRead s l.space (fldAt h 48 8) (8 * fldAt h 44 4)).bind fun lt s =>
  (RecOut.each (fun j s =>
    let va := wordAt lt j
    recPages s l.space va.toNat (tableBytes s l.space va) .r) (List.range (fldAt h 44 4)) s).bind fun tables s =>
  (recPages s l.space l.stat.toNat 8 .w).bind fun _ s =>
  (RecOut.each (fun (r : TaskRec) s => if r.cnt = 0 then .ok [] s else recPages s l.space r.cnt.toNat 8 .w) recs s).bind fun _ s =>
  (RecOut.each (fun (p : Nat × Level) s =>
    if p.2.domain = 7 ∨ p.2.addr = 0 then .ok [] s
    else recPages s l.space p.2.addr.toNat (8 * ((ntask + l.span p.1 - 1) / l.span p.1)) .w) l.numbered s).bind fun _ s =>
  match runPages s l.space l.frames.toNat (0x6F000 * l.nframe) .w with
  | .wait => .wait s
  | .fail _ => .reject .xlat s
  | .ok pool =>
    let pins := text ++ tables.flatten ++ pool
    if tooManyPins pool then .reject .xlat s
    else .ok ({ l with recs := recs, levels := levels, tasks := List.replicate ntask .waiting, pins := pins }, pins) s

/-! ## Staging (17 R352) -/

/-- Addresses of the pages of a working-set entry, each once. -/
def pageHeads (s : State) (space stop : Nat) : Nat → Nat → List Nat
  | 0, _ => []
  | n + 1, va =>
    if stop ≤ va then []
    else
      let sz := match (s.die (va / 2 ^ 55 % 8)).walk space (w64 va) with | .leaf x => pageSize (pteSize x) | _ => 4096
      va :: pageHeads s space stop n ((va / sz + 1) * sz)

/-- The working set maps a fast frame of a die. -/
def wsetKeeps (s : State) (space die : Nat) (heads : List Nat) (f : Nat) : Bool :=
  heads.any fun va => decide (va / 2 ^ 55 % 8 = die) && (match (s.die die).walk space (w64 va) with
    | .leaf x => !pteAp x && pteTier x == 0 && decide (pteFrame x * 4096 < (f + 1) * 2 ^ 21)
        && decide (f * 2 ^ 21 < pteFrame x * 4096 + pageSize (pteSize x))
    | _ => false)

/-- Stages the page at an address: MOVED or MISS of DG_STAGE counts it, of the Millwright's die. -/
def stagePage (home space : Nat) (heads : List Nat) (s : State) (va : Nat) : State :=
  let die := va / 2 ^ 55 % 8
  match (s.die die).walk space (w64 va) with
  | .leaf x =>
    if pteAp x || pteTier x == 0 then s
    else
      let count := fun (s : State) lo => s.updDie home fun d => d.setReg 356 (setBits (d.reg 356) lo 32 (bits (d.reg 356) lo 32 + 1))
      let f := pteFrame x / 512
      if pteSize x ≠ 3 ∨ !s.candidate die 1 f then count s 32
      else match s.coldest die (wsetKeeps s space die heads) with
        | none => count s 32
        | some (c, free) => count (s.doSwap die { hot := f, cold := c, free := free }) 0
  | _ => s

/-- Stages the pages of a working set: DG_STAGE counts for the last launch. -/
def stageAll (s : State) (home space : Nat) (heads : List Nat) : State :=
  heads.foldl (stagePage home space heads) (s.updDie home fun d => d.setReg 356 0)

/-! ## LAUNCH_RECORD -/

/-- Lifecycle BLANK and RETURNED reject every launch (19 R400). -/
def State.lifeBars (s : State) : Bool := decide (bits (SMap.get 0 s.pk 1) 0 2 = 0) || decide (bits (SMap.get 0 s.pk 1) 0 2 = 3)

/-- The lowest launch id no live launch of a die holds (18 R369). -/
def Die.freeLaunch (d : Die) : Option Nat := (List.range 256).find? fun i => (d.launch i).isNone

/-- A rejected launch: its status word is written where it can be (18 R369). -/
def rejectRecord (s : State) (h : List Byte) (id : Nat) (c : Cause) : Near :=
  let l : Launch := { id := id, space := fldAt h 5 1 % 16, sys := false, handle := false, text := 0, textw := 0, tail := 0,
                      stat := w64 (fldAt h 56 8), frames := 0, nframe := 0, levels := [], recs := [], tasks := [], failed := true }
  if l.stat.toNat % 8 ≠ 0 then .ok [] s
  else match l.writeStatus s true c.code with
    | .ok _ s => .ok [] s
    | .wait s => .wait s
    | .fail _ _ s => .ok [] s

/-- Accepts a launch: pins, staging, once no swap is in progress where its working set lies, the status word, and the launch is live
(18 R369; 17 R352). -/
def acceptRecord (s : State) (die : Nat) (h : List Byte) (l : Launch) (pins : List PageKey) : RecOut Unit :=
  (recRead s l.space (fldAt h 32 8) (16 * fldAt h 40 4)).bind fun raw s =>
  let ws := (List.range (fldAt h 40 4)).map fun j => (fldAt raw (16 * j) 8, fldAt raw (16 * j + 8) 8)
  RecOut.unless (ws.any fun p => decide (p.1 % 2 ^ 21 ≠ 0)) s <|
  let heads := ws.flatMap fun p => pageHeads s l.space (p.1 + p.2) (p.2 / 4096 + 2) p.1
  if heads.any fun va => s.walkHeld (va / 2 ^ 55 % 8) l.space (w64 va) || (s.die (va / 2 ^ 55 % 8)).swap.isSome then .wait s
  else if heads.any fun va => decide (2 ^ 58 ≤ va) || !((s.die (va / 2 ^ 55 % 8)).walk l.space (w64 va)).isLeaf then .reject .xlat s
  else match l.writeStatus s false 0 with
  | .wait s => .wait s
  | .fail c _ s => .reject (if c = .integ then .xlat else c) s
  | .ok _ s1 => match s1.pinAll pins with
    | none => .wait s
    | some s2 => .ok () ((stageAll s2 die l.space heads).updDie die fun d => { d with launches := d.launches ++ [l] })

/-- LAUNCH_RECORD (18 R369): the Millwright of the acting core's die checks the record at the head of its queue. -/
def execLaunchRecord (s : State) : Out :=
  let die := s.myDie
  let d := s.die die
  match d.launchq, d.freeLaunch with
  | q :: rest, some id =>
    if !(d.reg 500).getLsbD 18 || decide (2 ≤ s.power) then .next s
    else
      let drop := fun (s : State) => s.updDie die fun d => { d with launchq := rest }
      let refuse := fun (s : State) (h : List Byte) (c : Cause) => match rejectRecord s h id c with
        | .ok _ s => Host.Outcome.next (drop s)
        | .wait s => .next s
        | .fail _ _ s => .next (drop s)
      match recRead s q.space q.va.toNat 256 with
      | .wait s => .next s
      | .reject _ s => .next (drop s)
      | .ok h s =>
        if s.lifeBars then refuse s h .perm
        else match launchOfHeader h q.va id q.sys with
          | none => refuse s h .ill
          | some l => match readRecord s h l with
            | .wait s => .next s
            | .reject c s => refuse s h c
            | .ok (l, pins) s => match acceptRecord s die h l pins with
              | .ok _ s => .next (drop s)
              | .wait s => .next s
              | .reject c s => refuse s h c
  | _, _ => .next s

/-! ## The text store -/

/-- A row of a kernel's text is in a core's store. -/
def Text.holds (x : Text) (space image row : Nat) : Bool :=
  x.rows.any fun r => decide (r.space = space) && decide (r.image = image) && decide (r.row = row)

/-- A row whose lease may pass to a kernel: of another kernel than that one, and than the running one (02 R40). -/
def Text.lapsed (x : Text) (busy : Bool) (space image : Nat) (r : Lease) : Bool :=
  !(decide (r.space = space) && decide (r.image = image)) &&
    !(busy && decide (r.space = x.space) && decide (r.image = x.image))

/-- Kernels whose rows a core awaits, as (space, image, length): its own, and those of timed tasks to come as far as rows are
free; the first of these also takes the rows of kernels that have ended on the core (02 R39, R40). -/
def State.kernels (s : State) (core : Nat) : List (Nat × Nat × Nat) :=
  let k := s.core core
  let room := decide (k.text.rows.length < 128)
  (if k.task.isSome then [(k.text.space, k.text.image, k.text.len)] else []) ++
    match (s.launches.filter fun p => p.2.names core).map fun p => (p.2.space, p.2.text.toNat, p.2.textw) with
    | [] => []
    | q :: rest =>
      (if room || k.text.rows.any (k.text.lapsed k.task.isSome q.1 q.2.1) then [q] else []) ++ if room then rest else []

/-- The lowest row of a kernel that a core awaits; a freed row of its own kernel it does not. -/
def State.awaits (s : State) (core : Nat) (q : Nat × Nat × Nat) : Option Nat :=
  let x := (s.core core).text
  (List.range ((q.2.2 + 127) / 128)).find? fun r =>
    !x.holds q.1 q.2.1 r && !(decide (x.space = q.1) && decide (x.image = q.2.1) && x.freed.contains r)

/-- Puts a row into a store; a full store loses a row whose lease may pass. -/
def Text.put (x : Text) (busy : Bool) (r : Lease) : Text :=
  if x.rows.length < 128 then { x with rows := x.rows ++ [r] }
  else match x.rows.find? (x.lapsed busy r.space r.image) with
    | some o => { x with rows := x.rows.erase o ++ [r] }
    | none => x

/-- TEXT_ROW_FILL (02 R39): the fetch agent reads text row `row` of a kernel that the acting core awaits, and writes it into
every core of the die that awaits it. -/
def execTextRowFill (row : Nat) (s : State) : Out :=
  match (s.kernels s.actor).find? fun q => decide (s.awaits s.actor q = some row) with
  | none => .next s
  | some q =>
    let va := q.2.1 + 256 * row
    match ownerPlace s (va / 2 ^ 55 % 8) q.1 (w64 va) 256 false false fun p s =>
        (match s.read p.die p.tier p.off 256 with
          | (s, some bs) => .ok bs s
          | (s, none) => .fail .integ (w64 va) s) with
    | .wait s => .next s
    | .fail c _ s => .next (if c = .integ then takeTrap s 0 (128 * row) c (w64 va) else s)
    | .ok bs s =>
      let words := (List.range 128).map fun j => (BitVec.ofNat 16 (leNat ((bs.drop (2 * j)).take 2)) : Half)
      let r : Lease := { space := q.1, image := q.2.1, row := row, words := words }
      let cores := (List.range 512).map fun i => 512 * s.myDie + i
      .next (cores.foldl (fun (s : State) c =>
        if (s.kernels c).any fun x => decide (x = q) && !(s.core c).text.holds q.1 q.2.1 row
            && !(decide ((s.core c).text.space = q.1) && decide ((s.core c).text.image = q.2.1) && (s.core c).text.freed.contains row)
        then s.updCore c fun k => { k with text := k.text.put k.task.isSome r } else s) s)

/-- TEXT_ROW_FREE (02 R40): once every active engine of the acting core stands at or beyond the tail point, the rows wholly
below the lowest program counter are free. -/
def execTextRowFree (s : State) : Out :=
  let k := s.me
  let pcs := k.actives.map fun t => (k.en t).pc
  match k.text.tail, pcs with
  | some t, p :: ps =>
    let low := ps.foldl min p
    if decide (k.run ≠ .running) || decide (low < t) then .next s
    else
      let old := fun r : Lease => decide (r.space = k.text.space) && decide (r.image = k.text.image) && decide (128 * (r.row + 1) ≤ low)
      .next (s.updMe fun k => { k with text := { k.text with
        rows := k.text.rows.filter fun r => !old r
        freed := ((List.range (low / 128)) ++ k.text.freed).eraseDups } })
  | _, _ => .next s

/-! ## Starts -/

/-- The start state of a task (18 R374; 06 R127): what no chapter gives a task-start value stays, and so does what a killed member of
its set has to tell it (12 R263; 18 R391). -/
def Core.begin (k : Core) (entry : Nat) (arg0 arg1 : W64) (cycle : Nat) : Core :=
  { run := .running, task := k.task, space := k.space, sys := k.sys, handle := k.handle, text := { k.text with begun := true }, tlb := k.tlb
    colls := k.colls, collSeq := k.collSeq, pad := k.pad, mat := { acc := k.mat.acc }, leg := { peer := k.leg.peer }
    ctl := { x := ((Vector.replicate 16 0).set 0 arg0).set 1 arg1 }
    eng := { c := { active := true, pc := entry, nextIssue := cycle, fromWin := entry / 32 } } }

/-- The text a task needs before its first word: its entry row, and for the first task on a core all of it (02 R40). -/
def Text.startable (x : Text) (entry : Nat) : Bool :=
  let has := fun r => x.holds x.space x.image r
  has (entry / 128) && (x.begun || (List.range ((x.len + 127) / 128)).all has)

/-- The record of a task. -/
def State.recordOf (s : State) (t : TaskRef) : Option TaskRec := (s.launchOf t).bind fun l => l.recs[t.task]?

/-- A core whose assigned task may start: its cycle has come and its text is loaded. -/
def State.canStart (s : State) (core : Nat) : Bool :=
  let k := s.core core
  match k.run, k.task with
  | .starting at_, some t => decide (at_ ≤ s.cycle) && !(s.die (core / 512)).halted &&
      ((s.recordOf t).any fun r => k.text.startable r.entry)
  | _, _ => false

/-- The cores that start with the acting core: the members of its step group that have yet to, or itself alone (12 R254). -/
def State.startSet (s : State) : List Nat :=
  let d := s.die s.myDie
  match (List.range 16).find? fun g => d.formed g && (d.group g).live.contains s.actor with
  | none => [s.actor]
  | some g => (d.group g).live.filter fun c => decide (c = s.actor) ||
      (match (s.core c).run with | .starting _ => true | _ => false)

/-- The task assigned to a core starts. -/
def State.startOn (s : State) (core : Nat) : State :=
  match (s.core core).task.bind s.recordOf with
  | some r => s.updCore core fun k => k.begin r.entry r.arg0 r.arg1 s.cycle
  | none => s

/-- TASK_START (18 R374): the task assigned to the acting core starts, the members of a step group all at once (12 R254). -/
def execTaskStart (s : State) : Out :=
  if s.startSet.all s.canStart then .next (s.startSet.foldl State.startOn s) else .next s

/-- The timed tasks of a launch that are not over, by index. -/
def Launch.timedLeft (l : Launch) : List Nat :=
  (List.range l.recs.length).filter fun i => match l.recs[i]? with | some r => r.timed && decide (l.st i = .waiting) | none => false

/-- Another launch whose T0 is fixed still names the core. -/
def State.heldBy (s : State) (die id core : Nat) : Bool :=
  s.launches.any fun p => !(decide (p.1 = die) && decide (p.2.id = id)) && p.2.t0.isSome && p.2.names core

/-- T0 of a launch of the acting core's die can be fixed: every core its timed tasks name is free (18 R373). -/
def State.t0Ready (s : State) (l : Launch) : Bool :=
  let cores := l.timedLeft.map fun i => match l.recs[i]? with | some r => r.core | none => 0
  l.t0.isNone && !cores.isEmpty && cores.all fun c => s.idle c && !s.boundTo c && !s.heldBy s.myDie l.id c

/-- Fixes T0 of a launch, in an idle package once it has woken (18 R373; 19 R401). -/
def fixT0 (s : State) (l : Launch) : State := s.updLaunch s.myDie l.id fun l => { l with t0 := some (s.cycle + s.wakeDelay) }

/-- The timed tasks that start with one, by index: those of its step group, all together, or itself alone (12 R254). -/
def Launch.startsWith (l : Launch) (i : Nat) : List (Nat × TaskRec) :=
  let is : List Nat := match l.stepLevel with
    | some (n, _) => (l.groupTasks n (i / l.span n)).filter fun j => (l.recs[j]?).any TaskRec.timed
    | none => [i]
  is.filterMap fun j => (l.recs[j]?).map fun r => (j, r)

/-- Forms the step group of timed tasks that start; none while it has no number, or another group owns a region of its
(18 R367; 12 R253, R254). -/
def State.formTimed (s : State) (l : Launch) (cores : List Nat) : Option State :=
  match l.stepLevel with
  | none => some s
  | some (_, lv) =>
    let gd := cores.headD 0 / 512
    if (s.die gd).ownsAny lv.regions then none
    else (s.die gd).freeGroup.map fun x => s.updDie gd fun d => d.formGroup gd x cores lv.regions

/-- A timed task and those that start with it are due, and their cores are free and hold their text (18 R373; 12 R254). -/
def State.timedReady (s : State) (l : Launch) (t0 i : Nat) : Bool :=
  (l.startsWith i).all fun x => decide (t0 + x.2.start ≤ s.cycle) && decide (l.st x.1 = .waiting) && s.idle x.2.core &&
    ((s.core x.2.core).text.turn l).startable x.2.entry && !(s.die (x.2.core / 512)).halted

/-- The timed tasks of the Millwright of the acting core's die that start now, with T0 of their launch (18 R373). -/
def State.timedDue (s : State) : Option (Launch × Nat × List (Nat × TaskRec)) :=
  (s.die s.myDie).launches.findSome? fun l => l.t0.bind fun t0 => (l.timedLeft.find? fun i =>
    s.timedReady l t0 i && (s.formTimed l ((l.startsWith i).map (·.2.core))).isSome).map fun i => (l, t0, l.startsWith i)

/-- Predecessors that have not ended at a cycle before `at_`, the lowest first. -/
def Launch.unfinished (l : Launch) (r : TaskRec) (at_ : Nat) : Option Nat :=
  (List.range l.tasks.length).find? fun p => r.preds.contains p &&
    match l.st p with | .ended c => decide (at_ ≤ c) | _ => true

/-- A timed task starts, with #ORDER in place of its first word where a predecessor has not ended before (18 R373). -/
def State.startTimed (s : State) (l : Launch) (t0 : Nat) (x : Nat × TaskRec) : State :=
  let s := (s.assign s.myDie l x.1 x.2.core .running).updCore x.2.core fun k => k.begin x.2.entry x.2.arg0 x.2.arg1 s.cycle
  match l.unfinished x.2 (t0 + x.2.start) with
  | some p => s.updCore x.2.core fun k => k.takeTrap 0 x.2.entry .order (w64 p) s.cycle
  | none => s

/-- TIMED_TASK_START (18 R373; 12 R254): T0 of a launch is fixed, or timed tasks start, the members of a step group together. -/
def execTimedTaskStart (s : State) : Out :=
  match s.timedDue with
  | some (l, t0, xs) =>
    let s := (s.formTimed l (xs.map (·.2.core))).getD s
    .next (xs.foldl (fun s x => s.startTimed l t0 x) s)
  | none =>
    match (s.die s.myDie).launches.find? s.t0Ready with
    | some l => .next (fixT0 s l)
    | none => .next s

/-! ## Ends -/

/-- Adds 1 to a counter, as a release at system scope (18 R367, R377). -/
def addOne (s : State) (space : Nat) (va : W64) : Near :=
  (millRead s space va.toNat 8).bind fun bs s => millWrite s space va.toNat (leBytes ((leNat bs + 1) % 2 ^ 64) 8)

/-- Adds 1 to each of several counters. -/
def addEach (space : Nat) : List W64 → State → Near
  | [], s => .ok [] s
  | v :: vs, s => (addOne s space v).bind fun _ s => addEach space vs s

/-- A place that the Millwright will write is reachable now. -/
def reachEach (space : Nat) : List W64 → State → Near
  | [], s => .ok [] s
  | v :: vs, s => (ownerPlace s (bits v 55 3) space v 8 true true fun _ s => .ok [] s).bind fun _ s => reachEach space vs s

/-- Releases the datums the acting core holds, in list order (16 R331); false while the page of one is being walked. -/
def releaseAll : Nat → State → State × Bool
  | 0, s => (s, true)
  | n + 1, s => match s.me.held with
    | [] => (s, true)
    | h :: _ => match s.release h 0xE205 with
      | (s, true) => releaseAll n s
      | (s, false) => (s, false)

/-- The Millwright frees a datum of a killed task, by the page tables (16 R331). -/
def State.freeDatum (s : State) (h : Held) : State :=
  let die := bits h.va 55 3
  match s.walkOf die s.me.space h.va with
  | .leaf x => match placeOf (s.die die) die h.va x with
    | some p => match p.peer with
      | some q => s.askPeer q p.off 0xE205 [h.va] false
      | none => s.updDie p.die fun d => { d with rels := d.rels ++
          [{ core := s.actor, due := s.cycle, by_ := s.cycle, va := h.va, tier := p.tier, off := p.off, shared := !h.excl }] }
    | none => s
  | _ => s

/-- The datums of a killed task are freed, and nothing is published (16 R331). -/
def State.freeAll (s : State) : State :=
  (s.me.held.foldl State.freeDatum s).updMe fun k => { k with held := [] }

/-- A level whose groups have counters (18 R367). -/
def Level.counts (x : Level) : Bool := x.domain != 7 && x.addr != 0

/-- Every other task of a task's group at level `n` has ended. -/
def Launch.lastOf (l : Launch) (n i : Nat) : Bool :=
  (l.groupTasks n (i / l.span n)).all fun j => decide (j = i) || (match l.st j with | .ended _ => true | _ => false)

/-- The counters of groups that end with a task (18 R367). -/
def Launch.endedCounters (l : Launch) (i : Nat) : List W64 :=
  (l.numbered.filter fun p => p.2.counts && l.lastOf p.1 i).map fun p => p.2.addr + w64 (8 * (i / l.span p.1))

/-- The counters that rise when a task ends, its own first (18 R367, R377). -/
def Launch.counters (l : Launch) (i : Nat) : List W64 :=
  (match l.recs[i]? with | some r => if r.cnt = 0 then [] else [r.cnt] | none => []) ++ l.endedCounters i

/-- A member of a frozen set is over: storage that was kept for it alone is free (18 R391). -/
def State.thaw (s : State) (core : Nat) : State :=
  { s with cores := s.cores.map fun p : Nat × Core =>
      if p.2.run = .frozen then
        let left := p.2.frozenFor.erase core
        (p.1, if left.isEmpty then p.2.vacated else { p.2 with frozenFor := left })
      else p }

/-- END_COMPLETE (18 R377): the writes of the acting core's task are performed; datums and pins are released, the counters
rise, and the core is free. -/
def execEndComplete (s : State) : Out :=
  match s.me.run, s.me.task with
  | .ending, some t =>
    if !s.me.settled s.cycle || !s.me.kop.copies.isEmpty then .next s
    else match s.launchOf t with
      | none => .next s
      | some l =>
        let adds := l.counters t.task
        let kill := fun (s : State) => s.updMe fun k => { k with run := .killing }
        (match reachEach l.space (l.stat :: adds) s with
          | .wait s => .next s
          | .fail _ _ _ | .ok _ _ => match releaseAll s.me.held.length s with
            | (s, false) => .next s
            | (s, true) => match addEach l.space adds (s.unpinAll s.me.kop.pins) with
              | .wait s => .next s
              | .fail _ _ s => .next (kill (s.updMe fun k => { k with kop := { k.kop with pins := [] } }))
              | .ok _ s =>
                let s := (s.setTask t (.ended s.cycle)).updLaunch t.die t.launch fun l => { l with ended := l.ended + 1 }
                let s := ((s.updDie s.myDie fun d => d.memberGone s.actor false).updMe fun k =>
                  { k.vacated with colls := k.colls }).thaw s.actor
                (match s.closeLaunch t.die t.launch with
                  | .ok _ s | .wait s | .fail _ _ s => .next s))
  | _, _ => .next s

/-! ## Kills -/

/-- The other members of the co-scheduled sets of the acting core's task (18 R391). -/
def State.setOf (s : State) : List Nat :=
  let d := s.die s.myDie
  let grp := (List.range 16).flatMap fun g =>
    if d.formed g && (d.group g).live.contains s.actor then (d.group g).live else []
  let trav := if s.inTraverse then (s.diesOn (s.travOf s.myDie).tree).flatMap s.participants else []
  let coll := (s.me.colls.filter fun c => !c.done && decide (c.task = s.me.task)).flatMap fun c =>
    (c.ranks.filter fun r => decide (r.1 = s.package % 2 ^ 10)).map (·.2)
  (grp ++ trav ++ coll).eraseDups.filter fun c => decide (c ≠ s.actor) && ((s.core c).task.isSome || s.boundTo c)

/-- Work of a killed task on the acting core that has not drained (11 R249; 18 R378, R390). -/
def State.draining (s : State) : Bool :=
  let k := s.me
  !k.posted.isEmpty || !k.comb.isEmpty || (k.kop.copies.any fun c => !c.landed) || !k.far.isEmpty || !k.resultsStand s.cycle ||
    (k.colls.any fun c => decide (c.task = k.task) && !c.acks.isEmpty) ||
    (s.die s.myDie).timed.reqs.any fun r => decide (r.core = s.actor)

/-- The pins of a core's task: those of K.PIN and those of its copies (11 R247, R249). -/
def Kop.allPins (x : Kop) : List PageKey := x.pins ++ x.copies.flatMap (·.pins)

/-- Tells cores of a killed peer, in place or saved in a frame: each takes #PEER at its next closure (12 R263; 18 R391). -/
def State.tellPeers (s : State) (cores : List Nat) (dead : Nat) : State :=
  let tell := fun k : Core => { k with leg := { k.leg with peer := some dead } }
  let s := s.updCores (cores.filter fun c => decide (c ≠ dead)) tell
  (List.range 8).foldl (fun (s : State) d => s.updDie d fun x => { x with
    saved := x.saved.map fun f => if f.bound && decide (f.left ≠ dead) && cores.contains f.left then { f with core := tell f.core } else f }) s

/-- A member of a step group has been killed: its group freezes, and the others are to take #PEER (12 R263). -/
def State.memberKilled (s : State) (core : Nat) : State :=
  let d := s.die (core / 512)
  let live := (List.range 16).flatMap fun g => if d.formed g && (d.group g).live.contains core then (d.group g).live else []
  (s.tellPeers live core).updDie (core / 512) fun d => d.memberGone core true

/-- The traverse of a killed member closes on every die of its tree, both buffers become EMPTY, and the others are to take
#PEER, but for those to whom a closure has given its outcome already: they take that at their S.LEG (18 R391; 05 R105). -/
def State.breakTraverse (s : State) : State :=
  if !s.inTraverse then s
  else
    let dead := s.actor
    let tree := (s.travOf s.myDie).tree
    let s := { s with bridges := s.bridges.filter fun p => p.1 != tree, peerSigns := s.peerSigns.filter fun p => p.tree != tree }
    ((List.range 8).filter fun d => decide ((s.travOf d).tree = tree)).foldl (fun (s : State) d =>
      let others := (s.participants d).filter fun c =>
        decide (c ≠ dead) && (s.core c).leg.refused.isNone && !(s.core c).leg.ended
      let s := (s.updMembers others fun k =>
        { k.lockTlb [] with leg := { k.leg with signed := false, go := none, ended := false, refused := none } }).tellPeers others dead
      let pages := (s.die d).bufA.pages ++ (s.die d).bufB.pages
      ((s.unlockSet d).unpinAll (s.pageKeys pages)).updDie d fun x =>
        { x with trav := none, bufA := {}, bufB := {}, firstLoad := none, firstTable := none, firstVa := 0, heldAt := []
                 timed := { x.timed with todo := [], rows := [], owed := [], static_ := [], accepted := [], waiting := [], slots := [] } }) s

/-- A collective is broken by a killed rank's (15 R318). -/
def Coll.breakWith (dead c : Coll) : Coll := if dead.pairs c && !c.done then { c with broken := true } else c

/-- A core has its collective that pairs with one under way, in place or in a saved context, or has yet to issue it. -/
def State.collOpen (s : State) (c : Coll) (core : Nat) : Bool :=
  let open_ := fun k : Core => k.task.isSome && !k.colls.any fun x => c.pairs x && x.done
  open_ (s.core core) || s.dies.any fun p => p.2.saved.any fun x => decide (x.left = core) && !x.core.colls.any fun x => c.pairs x && x.done

/-- The collectives of the killed task end on the acting core, and are broken at the other ranks, which take #PEER at their next
closure; those of other packages are told (15 R318; 18 R391). -/
def State.breakColls (s : State) : State :=
  let mine := s.me.colls.filter fun c => decide (c.task = s.me.task)
  let s := s.unpinAll ((mine.filter fun c => !c.done).flatMap (·.pins))
  let s := s.updMe fun k => { k with colls := k.colls.filter fun c => decide (c.task ≠ k.task) }
  mine.foldl (fun (s : State) c =>
    let left := (c.cores s.package).filter fun r => decide (r ≠ s.actor) && s.collOpen c r
    let tell := fun k : Core => { k with colls := k.colls.map (Coll.breakWith c) }
    let s := (s.updCores left tell).tellPeers left s.actor
    let s : State := { s with dies := s.dies.map fun p => (p.1, { p.2 with saved := p.2.saved.map fun x => { x with core := tell x.core } }) }
    (c.ship s (some .peer)).1) s

/-- A copy of a killed task: it drains if it has made a write, and else is cancelled; its pins stay (11 R249). -/
def Copy.cancelled (c : Copy) : Copy :=
  { c with killed := true, landed := c.landed || !c.begun, moves := if c.begun then c.moves else [] }

/-- Cancels what can be: copies that have made no write, far operations not yet sent, updates logged, reads of timed streams
(11 R249; 13 R276). -/
def State.cancel (s : State) : State :=
  let s := (s.flushComb fun _ => true).updMe fun k => { k with
    kop := { k.kop with copies := k.kop.copies.map Copy.cancelled }
    far := k.far.filter fun o => o.sent && (!o.logged || o.ready.isNone || o.served)
    reports := [], walks := [], peerAsked := [], peerLoads := []
    peerGot := k.peerGot.filter fun m => m.load.isNone && (m.copy.isNone || k.kop.copies.any fun c => decide (m.copy = some c.place))}
  let drains := fun (r : TimedReq) => s.me.kop.copies.any fun c => !c.landed && decide (c.tag = some r.tag)
  let s := s.updDie s.myDie fun d =>
    { d with timed := { d.timed with reqs := d.timed.reqs.filter fun r =>
                          !(decide (r.core = s.actor) && r.write.isNone && !drains r) }
             packets := d.packets.filter fun p => p.reply || decide (p.core ≠ s.actor) }
  s.withdraw

/-- The task is over, its successors are dropped, its launch has failed (18 R371, R390). -/
def State.taskGone (s : State) (t : TaskRef) : State :=
  (s.setTask t .gone).updLaunch t.die t.launch fun l => { l.dropAfter with failed := true }

/-- DG_KILL_DONE.COUNT of a die rises (18 R390). -/
def Die.killDone (d : Die) : Die := d.setReg 401 (w64 ((bits (d.reg 401) 0 32 + 1) % 2 ^ 32))

/-- KILL_COMPLETE (18 R390, R391): the acting core's outstanding work is cancelled or drained, its datums are freed, the
successors dropped, and the core is free or frozen. -/
def execKillComplete (s : State) : Out :=
  match s.me.run, s.me.task with
  | .killing, some t =>
    let s1 := s.cancel
    if s1.draining then .next s1
    else match s.launchOf t with
      | none => .next s1
      | some l => match reachEach l.space [l.stat] s1 with
        | .wait s => .next s
        | _ =>
          let s2 := s1.freeAll
          let set := s2.setOf
          let s3 := (s2.breakTraverse.breakColls.unpinAll s2.me.kop.allPins).taskGone t
          let s3 := match s3.me.frame with | some f => s3.freeFrame t.die t.launch f | none => s3
          let s4 := (s3.memberKilled s3.actor).updDie s3.myDie Die.killDone
          let s5 := (s4.updMe fun k =>
            if set.isEmpty then k.vacated
            else { k with run := .frozen, task := none, frozenFor := set, frame := none, eng := {}, held := [], swait := .none, fences := []
                          streams := [], kop := { k.kop with pins := [], copies := [] }, leg := {} }).thaw s3.actor
          (match s5.closeLaunch t.die t.launch with
            | .ok _ s | .wait s | .fail _ _ s => .next s)
  | _, _ => .next s

/-- Kills a task whose context is in a frame, or that has not started (18 R390; 16 R331; 11 R249). -/
def State.killAway (s : State) (t : TaskRef) (frame : Option Nat) : State :=
  let die := match frame.bind ((s.die t.die).savedIn t.launch) with | some x => x.left / 512 | none => t.die
  let s : State := match frame with
    | none => s
    | some f => match (s.die t.die).savedIn t.launch f with
      | none => s
      | some x =>
        let home := { s with actor := x.left }
        let was := home.me
        let s1 := home.setMe { x.core with run := .killing, task := some t }
        let s3 := s1.freeAll.breakColls.unpinAll x.core.kop.allPins
        let dead := if x.bound then s3.breakTraverse.memberKilled x.left else s3
        ((dead.setMe was).freeFrame t.die t.launch f).thaw x.left
  (s.taskGone t).updDie die Die.killDone

/-- A KILL on a task (18 R382, R390). -/
def killTask (w : RegWrite) (s : State) : State :=
  match s.ctlTask w with
  | none => s.setCtl w true
  | some (t, l) =>
    let me := s.actor
    let away := fun (f : Option Nat) =>
      let s := s.killAway t f
      let s : State := match s.closeLaunch t.die t.launch with | .ok _ s | .wait s | .fail _ _ s => s
      { s with actor := me }.setCtl w false
    match l.st t.task with
    | .waiting => away none
    | .trapped f _ | .paged f _ _ | .saved f _ _ => away (some f)
    | .placed c =>
      (s.updCore c fun k => { k with run := .killing }).setCtl w false
    | .ended _ | .gone => s.setCtl w true

/-- TASK_CTL_KILL (18 R382). -/
def execTaskCtlKill (s : State) : Out := applyWrite s .kill killTask

end Sys2Proof.Machine
end

