-- ==== Sys2Proof/Machine/Device.lean ====
section
/-! DEFINITION. The package at its boundary (19): the Helale port's commands, bring-up, lifecycle, debug, power, firmware,
attestation and temperature. -/

namespace Sys2Proof.Machine

/-! ## The port -/

/-- Fields of PK_LIFE (19 R399). -/
def State.life (s : State) : Nat := bits (SMap.get 0 s.pk 1) 0 2
def State.debug (s : State) : Nat := bits (SMap.get 0 s.pk 1) 4 2

/-- The package with a field of PK_LIFE replaced. -/
def State.setLife (s : State) (lo w v : Nat) : State := s.setPk 1 (setBits (SMap.get 0 s.pk 1) lo w v)

/-- The Helale port is ready (19 R396). -/
def State.portReady (s : State) : Bool := (SMap.get 0 s.pk 0).getLsbD 24

/-- A command is done; a command is refused. -/
def State.done_ (s : State) (data : List Byte) : State := s.reply { ok := true, data := data }
def State.refuse (s : State) (c : Option Cause) : State := s.reply { ok := false, cause := c }

/-- A command takes effect once the port is ready (19 R395-R397). -/
def portCommand (s : State) (f : State → State) : Out := .next (if s.on && s.portReady then f s else s)

/-- The extent of MEMRD and MEMWR (19 R394). -/
def portSpan (die tier off n : Nat) : Bool :=
  decide (die < 8) && decide (tier < 2) && decide (8 ≤ n ∧ n ≤ 4096) && decide (off + n ≤ tierSize tier)

/-- Some line of a run is in memory that is not ready. -/
def State.notReady (s : State) (die tier off n : Nat) : Bool := (linesOf off n).any fun l => !(s.die die).lineReady tier l

/-- MEMRD (19 R394). -/
def execMemrd (die tier off n : Nat) (s : State) : Out :=
  portCommand s fun s =>
    if !portSpan die tier off n then s.refuse none
    else if s.notReady die tier off n then s.refuse none
    else if s.waits die tier off n then s
    else match s.read die tier off n with
      | (s, some bs) => s.done_ bs
      | (s, none) => s.refuse (some .integ)

/-- MEMWR (19 R394, R395): answered once the write is performed. -/
def execMemwr (die tier off : Nat) (data : List (BitVec 8)) (s : State) : Out :=
  portCommand s fun s =>
    if !portSpan die tier off data.length then s.refuse none
    else if s.notReady die tier off data.length then s.refuse none
    else if s.waits die tier off data.length then s
    else match s.write die tier off data false with
      | (s, true) => s.done_ []
      | (s, false) => s.refuse (some .integ)

/-- The die of a register command is ready; PK registers belong to no die (19 R394). -/
def State.regReady (s : State) (group die : Nat) : Bool := group = 2 || (decide (group = 1) && decide (die < 8) && (s.die die).allSet)

/-- REGRD (19 R394). -/
def execRegrd (group die idx : Nat) (s : State) : Out :=
  portCommand s fun s =>
    if !s.regReady group die then s.refuse none
    else match (if group = 1 then readDg s die idx else readPk s idx) with
      | some v => s.done_ (leBytes v.toNat 8)
      | none => s.refuse (some .ill)

/-- REGWR (19 R394, R395): with the system attribute; it takes effect as a C.CSW does, and is answered then (04 R91, R92). -/
def execRegwr (group die idx : Nat) (v : BitVec 64) (s : State) : Out :=
  portCommand s fun s =>
    if !s.regReady group die then s.refuse none
    else if (if group = 1 then readDg s die idx else readPk s idx).isNone then s.refuse (some .ill)
    else if group = 1 && badDgWrite (s.die die) idx v then s.refuse (some .ill)
    else { s with regWrites := s.regWrites ++
      [{ cycle := s.cycle, core := 512 * die, group := group, idx := idx, val := v, port := true }] }

/-- LAUNCH (19 R394). -/
def execLaunch (die space : Nat) (va : BitVec 64) (sys : Bool) (s : State) : Out :=
  portCommand s fun s =>
    if 8 ≤ die ∨ 16 ≤ space then s.refuse none
    else if 64 ≤ (s.die die).launchq.length then s.refuse none
    else (s.updDie die fun d => { d with launchq := d.launchq ++ [{ va := va, space := space, sys := sys }] }).done_ []

/-- A memory key version is live on some die (17 R361, R422). -/
def State.keyLive (s : State) (v : Nat) : Bool :=
  (List.range 8).any fun d => decide ((s.die d).keyCur = v) || ((s.die d).keyPass && decide ((s.die d).keyPrev = v))

/-- Loads a link key of a version at both ends of a link (14 R280, R282): the first one is in use at once, that of the next
version begins a rotation; while one runs it leaves the link as it is, whose receiver holds two keys (log entry 11). -/
def Link.loadKey (x : Link) (v : Nat) : Link :=
  if x.txKeys.isEmpty then { x with txKeys := [v], rxKeys := [v], kv := v, seq := 0, rxKv := v, rxSeq := 0 }
  else if v = (x.kv + 1) % 4 && !x.rotating && decide (x.rxKeys.length < 2) then
    { x with txKeys := v :: x.txKeys.take 1, rxKeys := v :: x.rxKeys.take 1, kv := v, seq := 0, rotating := true }
  else x

/-- KEYLD (17 R422, 14 R280), which never replaces a live memory key, the static one of version 15 among them: fields are 0, a link and a key version, or 1 and a memory key version; the keys themselves
are not modelled (log entry 11). -/
def execKeyld (fields : List Nat) (s : State) : Out :=
  portCommand s fun s =>
    if s.life = 0 ∨ s.life = 3 then s.refuse none
    else match fields with
      | [0, l, v] => if 96 ≤ l ∨ 4 ≤ v then s.refuse none else (s.updLink l fun x => x.loadKey v).done_ []
      | [1, v] =>
        if 16 ≤ v ∨ s.keyLive v ∨ (v = 15 ∧ (List.range 8).any fun d => (s.die d).keys.contains 15) then s.refuse none
        else ((List.range 8).foldl (fun (s : State) d => s.updDie d fun x =>
          { x with keys := v :: x.keys.filter (· != v) }) s).done_ []
      | _ => s.refuse none

/-- FWLD (19 R394, R402): an image that verifies under Rhowin's key and is not below MIN runs. -/
def execFwld (image : List (BitVec 8)) (s : State) : Out :=
  portCommand s fun s =>
    let min := bits (SMap.get 0 s.pk 2) 32 32
    let svn := Config.imageSvn image % 2 ^ 32
    if !Config.verifies 0 image || decide (svn < min) then s.refuse none
    else { (s.setPk 2 (setBits (SMap.get 0 s.pk 2) 0 32 svn)).done_ [] with firmware := some image }

/-- ATTEST (19 R403): the index is taken before the report leaves. -/
def execAttestCmd (nonce : List (BitVec 8)) (s : State) : Out :=
  portCommand s fun s =>
    let next := bits (SMap.get 0 s.pk 3) 0 21
    let pk := fun i => match readPk s i with | some v => v.toNat | none => 0
    if nonce.length ≠ 32 ∨ 2 ^ 20 ≤ next then s.refuse none
    else
      let image := s.firmware.getD []
      let report := nonce ++ leBytes s.package 4 ++ leBytes (pk 1) 8 ++ leBytes (pk 2) 8 ++ Config.imageDigest image
        ++ leBytes (pk 0) 8 ++ leBytes next 4
      (s.setPk 3 (w64 (next + 1))).done_ (report ++ Config.attestReport nonce [s.package, pk 1, pk 2, pk 0, next])

/-! ## Lifecycle -/

/-- The transitions of R400. -/
def lifeMoves (from_ dest : Nat) : Bool :=
  (from_ == 0 && dest == 1) || (from_ == 1 && dest == 2) || (from_ == 1 && dest == 3) || (from_ == 2 && dest == 3)

/-- Erases every link key. -/
def State.eraseLinks (s : State) : State :=
  { s with links := s.links.map fun p => (p.1, { p.2 with txKeys := [], rxKeys := [] }) }

/-- Erases every key and zeroises the DRAM (19 R400). -/
def State.eraseAll (s : State) : State :=
  { s.eraseLinks with dies := s.dies.map fun p => (p.1, { p.2 with keys := [], mem := { baseVer := p.2.keyCur } }) }

/-- LIFE (19 R400): a signed command moves the lifecycle forwards. -/
def execLifeCmd (dest : Nat) (sig : List (BitVec 8)) (s : State) : Out :=
  portCommand s fun s =>
    if !lifeMoves s.life dest || !Config.verifies (16 + 4 * s.life + dest) sig then s.refuse none
    else
      let s1 := s.setLife 0 2 dest
      let s2 : State := if dest = 1 then { s1 with owner := sig.take 68 } else if dest = 3 then s1.eraseAll else s1
      s2.done_ []

/-! ## Debug -/

/-- DEBUG (19 R400, R401): a DEPLOYED package asks for a token; HALT is then asked of every die. -/
def execDebugCmd (level : Nat) (token : List (BitVec 8)) (s : State) : Out :=
  portCommand s fun s =>
    let signed := decide (s.life = 2) && decide (level ≠ 0)
    if 3 ≤ level ∨ 2 ≤ s.power ∨ (signed ∧ !Config.verifies (32 + level) token) then s.refuse none
    else
      let s := (s.setLife 4 2 level).setLife 16 1 (if signed then 1 else 0)
      let s := (List.range 8).foldl (fun (s : State) d => s.updDie d fun x =>
        if level = 2 then { x with haltAsked := !x.halted } else { x with halted := false, haltAsked := false }) s
      (if level = 2 then s else { s with cores := s.cores.map fun p => (p.1, { p.2 with halted := false }) }).done_ []

/-- A task of launch `l` away from the cores of a halted DEPLOYED die is killed where it waits (19 R401). -/
def State.haltTask (s : State) (die : Nat) (l : Launch) (i : Nat) : State :=
  let t : TaskRef := { die := die, launch := l.id, task := i }
  match (s.launchOf t).map fun (l : Launch) => l.st i with
  | some .waiting => s.killAway t none
  | some (.trapped f _) | some (.paged f _ _) | some (.saved f _ _) => { s.killAway t (some f) with actor := s.actor }
  | _ => s

/-- Every task of launch `l` away from the cores of a halted DEPLOYED die (19 R401). -/
def State.haltLaunch (s : State) (die : Nat) (l : Launch) : State :=
  (List.range l.tasks.length).foldl (fun (s : State) i => s.haltTask die l i) s

/-- A halted DEPLOYED die: every live task on it is killed, and every memory key is erased; a fresh key stands at CUR, so
every older line fails (19 R401). -/
def State.haltDeployed (s : State) (die : Nat) : State :=
  let s := s.updDie die fun d => { d with keys := [d.keyCur], mem := { d.mem with baseVer := 16, ver := [] } }
  let s : State := { s with
    cores := s.cores.map fun (p : Nat × Core) =>
      if p.1 / 512 = die ∧ p.2.task.isSome then (p.1, { p.2 with run := .killing }) else p }
  (s.die die).launches.foldl (fun (s : State) (l : Launch) =>
    match (s.haltLaunch die l).closeLaunch die l.id with | .ok _ s | .wait s | .fail _ _ s => s) s

/-- The acting core stands where a halt may stop it: a completed closure of its die's traverse, or a pre-emption point of
untimed code (19 R400, 18 R384). -/
def State.mayHalt (s : State) : Bool :=
  let k := s.me
  if decide (k.run ≠ .running) then true
  else if s.inTraverse then (s.closure (s.travOf s.myDie).tree).done && !k.leg.timed
  else
    (match engineTurn s .k with | .run (.kCwait _) _ => true | _ => false) ||
      (match engineTurn s .c with | .run .sYield _ | .run .sYieldForce _ => true | _ => false) ||
      (match k.swait with | .acquire _ _ false | .step _ _ false _ => true | _ => false)

/-- HALT_ENTRY (19 R400, R401): a requested halt stops the acting core; its die is halted once no core of it runs on. -/
def execHaltEntry (s : State) : Out :=
  let die := s.myDie
  if !(s.die die).haltAsked || !s.mayHalt then .next s
  else
    let s := s.updMe fun k => { k with halted := true }
    if s.cores.any fun p => decide (p.1 / 512 = die) && decide (p.2.run = .running) && !p.2.halted then .next s
    else
      let s := s.updDie die fun d => { d with halted := true, haltAsked := false }
      .next (if s.life = 2 then s.haltDeployed die else s)

/-! ## Power -/

/-- A die in RETAIN: DRAM, keys, the key status and the readiness bits stay (19 R401). -/
def Die.retained (d : Die) : Die :=
  { dg := d.dg.filter fun p => p.1 == 360 || p.1 == 500, mem := if d.plainHash then d.mem else d.agedMem, keys := d.keys, patrol := d.patrol, refresh := d.refresh }

/-- The package without power: fuses, the firmware store and the counter of R403 stay (19 R400, R401, R403). -/
def State.powerDown (s : State) : State :=
  let life := w64 (bits (SMap.get 0 s.pk 1) 0 2 + 3 * 2 ^ 8)
  { State.reset with
    cycle := s.cycle, package := s.package, firmware := s.firmware, owner := s.owner, replies := s.replies, sched := s.sched
    actor := s.actor, freeCount := s.freeCount
    pk := SMap.set 0 (SMap.set 0 (SMap.set 0 [] 1 life) 2 (SMap.get 0 s.pk 2)) 3 (SMap.get 0 s.pk 3) }

/-- A launch is live. -/
def State.anyLaunch (s : State) : Bool := !s.launches.isEmpty

/-- The package in RETAIN: what the dies keep, and the links (19 R401). -/
def State.powerRetain (s : State) : State :=
  { s with
    cores := []
    dies := s.dies.map fun (p : Nat × Die) => (p.1, p.2.retained)
    regWrites := [] }

/-- POWER (19 R399, R401): to RUN, IDLE, RETAIN or OFF. -/
def execPowerCmd (dest : Nat) (s : State) : Out :=
  portCommand s fun s =>
    if 4 ≤ dest ∨ (dest = 2 ∧ (s.debug = 2 ∨ s.anyLaunch)) then s.refuse none
    else if dest = 3 then s.powerDown.done_ []
    else if dest = 2 then
      (((s.powerRetain.setLife 4 2 0).setLife 16 1 0).setLife 8 2 2).done_ []
    else (s.setLife 8 2 dest).done_ []

/-- POWER_ON (17 R422, 19 R397): every die generates a per-boot key as version 0, and bring-up begins. -/
def execPowerOn (s : State) : Out :=
  if s.on then .next s
  else
    let s := (List.range 8).foldl (fun (s : State) d => s.updDie d fun x => { x with keys := [0] }) s
    .next { (s.setLife 8 2 0).setPk 0 0 with on := true, cycle := 0 }

/-- POWER_LOSS (19 R403): volatile state goes; an index taken stays taken. -/
def execPowerLoss (s : State) : Out := .next s.powerDown

/-! ## Bring-up -/

/-- What a function of a die waits for (19 R397): once the scrubber or the exchange engine is ready, the training of both stacks has
ended. -/
def Die.mayReady (d : Die) (bit : Nat) (firmware : Bool) : Bool :=
  let r := d.reg 500
  if bit < 2 then !(r.getLsbD 22 || r.getLsbD 23)
  else if bit < 18 then true
  else if bit = 18 then firmware
  else if bit = 19 ∨ bit = 20 then r.getLsbD (bit - 19)
  else if bit = 21 then (List.range 16).all fun c => r.getLsbD (2 + c)
  else if bit = 22 ∨ bit = 23 then r.getLsbD 0 || r.getLsbD 1
  else decide (32 ≤ bit) && decide (bit < 64) && r.getLsbD 18

/-- Every ring link has a key, and every die its current memory key (19 R396). -/
def State.keysLoaded (s : State) : Bool :=
  ((List.range 80).all fun l => !(s.link l).txKeys.isEmpty) &&
    (List.range 8).all fun d => (s.die d).keys.contains (s.die d).keyCur

/-- What a function of the package waits for (19 R397). -/
def State.mayReady (s : State) (bit : Nat) : Bool :=
  if bit < 24 then (SMap.get 0 s.pk 0).getLsbD 25 && s.links.all fun p => !(decide (linkBit p.1 = bit) && p.2.down)
  else if bit = 24 then true
  else if bit = 25 then s.keysLoaded
  else bit == 63

/-- FUNCTION_READY (19 R396, R397): bit below 64 of the DG_READY of the acting core's die, bit - 64 of PK_READY above. A stack's
refresh begins with it (17 R358). -/
def execFunctionReady (bit : Nat) (s : State) : Out :=
  let die := s.myDie
  if !s.on || s.bringUpDone || (bit ≠ 88 && !s.portReady) then .next s
  else if bit < 64 then
    if !(s.die die).mayReady bit s.firmware.isSome then .next s
    else .next (s.updDie die fun d =>
      let d := d.setReg 500 (d.reg 500 ||| w64 (2 ^ bit))
      if bit < 2 then { d with refresh := SMap.set 0 d.refresh (2 + bit) (s.cycle + 6630) } else d)
  else if s.mayReady (bit - 64) then .next (s.setPk 0 (SMap.get 0 s.pk 0 ||| w64 (2 ^ (bit - 64))))
  else .next s

/-! ## Temperature -/

/-- PK_THERM with a junction temperature seen (19 R405). -/
def State.heated (s : State) (deg : Nat) (warn : Bool) : State :=
  let v := SMap.get 0 s.pk 4
  s.setPk 4 (w64 (max (bits v 0 8) deg + if warn || v.getLsbD 8 then 2 ^ 8 else 0))

/-- THERMAL_WARN (19 R405): a junction of a die reaches 95 degrees. -/
def execThermalWarn (die : Nat) (s : State) : Out := .next (if s.on && decide (die < 8) then s.heated 95 true else s)

/-- THERMAL_TRIP (19 R405): a junction of a die reaches 110 degrees, and the package is OFF. -/
def execThermalTrip (die : Nat) (s : State) : Out := .next (if s.on && decide (die < 8) then s.powerDown else s)

end Sys2Proof.Machine
end

