-- ==== Sys2Proof/Machine/Steps.lean ====
section
/-! DEFINITION. The S.STEP words (12 R261). -/

namespace Sys2Proof.Machine

/-- A copy has commons accesses that have not taken place: reads that have not taken their value, writes that have not landed (12
R261). -/
def Copy.planeOut (c : Copy) : Bool :=
  !c.landed && ((c.geo.ss == 3 && decide (c.taken < c.pieces.length)) ||
    (c.geo.ds == 3 && (decide (c.taken < c.pieces.length) || !c.moves.isEmpty)))

/-- S.STEP of group `g` (12 R261): arrives once the core's own commons accesses have landed, then waits for t_g. -/
def stepBody (g : Nat) (drop : Bool) (s : State) : Res :=
  let d := s.die s.myDie
  let x := d.group g
  if !d.formed g || !x.live.contains s.actor then .fail .ill 0
  else if d.groupFrozen g then .fail .peer (w64 x.killed)
  else match s.me.swait with
    | .step _ _ true _ => .ok (s.updMe fun k => { k with swait := .none })
    | .step _ _ false _ => .hold s
    | _ =>
      if s.cycle < s.me.planeDue || s.me.kop.copies.any Copy.planeOut then .hold s
      else
        let s := s.updDie s.myDie fun d => d.setGroup g { x with
          arrived := x.arrived ++ [(s.actor, drop, s.cycle, s.cycle - (if s.me.leg.timed then s.me.slipped else 0))] }
        .hold (s.updMe fun k => { k with swait := .step g drop false none })

/-- S.STEP (12 R261). -/
def execSStep (g : BitVec 4) (s : State) : Out := issueS (.sStep g) (stepBody g.toNat false) s

/-- S.STEP drop (12 R261). -/
def execSStepDrop (g : BitVec 4) (s : State) : Out := issueS (.sStepDrop g) (stepBody g.toNat true) s

end Sys2Proof.Machine
end

