-- ==== Sys2Proof/Machine/Tokens.lean ====
section
/-! DEFINITION. Ownership tokens: S.TOKEN, and the directory of the owning die (14 R293-R295). -/

namespace Sys2Proof.Machine

/-- Bytes of a region. -/
abbrev regionBytes : Nat := 2 ^ 21

/-- An S.TOKEN form (14 R295): 0 shared, 1 exclusive, 2 return. It waits until it has completed; the first two ask for read
permission (log entry 83). -/
def tokenWord (i : Instr) (form : Nat) (s : State) : Out :=
  issueS i (fun s0 =>
    match s0.me.swait with
    | .token _ va (some r) =>
      let done := fun s : State => s.updMe fun k => { k with swait := .none }
      (match r with
        | some c => .fail c va
        | none => popping .c 1 0 (fun _ s => .ok (done s)) s0)
    | .token _ _ none => .hold s0
    | _ =>
      popping .c 1 0 (fun vs s =>
        let va := vs.getD 0 0
        if s.me.leg.timed then .fail .ill 0
        else if va.toNat % regionBytes ≠ 0 then .fail .align va
        else withFar s0 va (decide (form < 2)) false false fun t s' =>
          match t.peer with
          | some q => .hold { (s'.updMe fun k => { k with swait := .token form va none, peerAsked := .c :: k.peerAsked }) with
              peerOut := s'.peerOut ++ [{ core := s'.actor, eng := .c, package := q, addr := t.off, n := 0, data := []
                                          op := 0xE380 + form }] }
          | none =>
            if t.die = s.myDie then .ok s
            else .hold (s'.updMe fun k => { k with swait := .token form va none })) s0) s

/-- S.TOKEN shared (14 R295). -/
def execSTokenShared (s : State) : Out := tokenWord .sTokenShared 0 s

/-- S.TOKEN excl (14 R295). -/
def execSTokenExcl (s : State) : Out := tokenWord .sTokenExcl 1 s

/-- S.TOKEN return (14 R295). -/
def execSTokenReturn (s : State) : Out := tokenWord .sTokenReturn 2 s

/-- The region a core has asked a token of, in a die's directory: the asking die, its space, the region and the form. -/
def Core.asks (k : Core) (package core die : Nat) : Option ((Nat × Nat) × Nat × Nat × Nat) :=
  match k.swait with
  | .token form va none =>
    if decide (bits va 55 3 = die) && !k.peerAsked.contains .c then
      some ((package, core / 512), k.space, va.toNat / regionBytes, form) else none
  | _ => none

/-- A request of some core for a region. -/
def State.tokenAsks (s : State) (die : Nat) : List ((Nat × Nat) × Nat × Nat × Nat) :=
  s.cores.filterMap fun p => p.2.asks s.package p.1 die

/-- An operation waits at a Wallower of a die for the token of an entry to be revoked. -/
def State.opWants (s : State) (die : Nat) (t : Token) : Bool :=
  s.cores.any fun p => p.2.far.any fun o =>
    o.ready.any (fun c => decide (c ≤ s.cycle)) && !o.served && decide (o.die = die) && decide (o.va.toNat / regionBytes = t.region)
      && decide (o.space = t.space) &&
      ({ s with actor := p.1 } : State).tokenHolds o

/-- TOKEN_REVOKE (14 R294): the directory of the acting core's die revokes what a waiting request or operation stands
against in its entry number `region`, or, being full, the holder that was granted longest ago; a holder writes back and invalidates its
lines first. -/
def execTokenRevoke (region : Nat) (s : State) : Out :=
  let die := s.myDie
  let d := s.die die
  match d.tokens[region]? with
  | none => .next s
  | some t =>
    let asks := s.tokenAsks die
    let mine := asks.find? fun a => decide (a.2.1 = t.space) && decide (a.2.2.1 = t.region) &&
      decide (t.conflict a.1 a.2.2.2 ≠ .none)
    let full := d.directoryFull && (d.grants.head?.any fun g => decide (g.1 = t.space) && decide (g.2.1 = t.region)) &&
      asks.any fun a => decide (a.2.2.2 < 2) && (d.token a.2.1 a.2.2.1).isNone
    if s.opWants die t then .next (s.retoken die t [])
    else match mine with
      | some a => .next (s.resolve die t a.1 a.2.2.2)
      | none => if full then .next (s.dropOldest die) else .next s

/-- The token's answer, in the acting core. -/
def State.tokenAnswer (s : State) (form : Nat) (va : W64) (r : Option Cause) : State :=
  s.updMe fun k => { k with swait := .token form va (some r) }

/-- The tokens of peer packages' regions that a die holds, after a form of S.TOKEN has completed there (14 R295). -/
def Die.peerToken (d : Die) (space region form : Nat) : Die :=
  let rest := d.peerTokens.filter fun t => !(decide (t.1 = space) && decide (t.2.1 = region))
  let old := d.peerTokens.any fun t => decide (t.1 = space) && decide (t.2.1 = region) && t.2.2
  { d with peerTokens := if form = 2 then rest else rest ++ [(space, region, form == 1 || old)] }

/-- TOKEN_COMPLETE (14 R295): the S.TOKEN of the acting core completes: the token is granted or given up, or refused. -/
def execTokenComplete (s : State) : Out :=
  match s.me.swait with
  | .token form va none =>
    let sp := s.me.space
    let region := va.toNat / regionBytes
    if s.me.peerAsked.contains .c then
      match s.me.peerGot.find? fun m => decide (m.eng = .c) && m.load.isNone && !m.stored with
      | some m =>
        let s := s.updMe fun k => { k with peerGot := k.peerGot.erase m, peerAsked := k.peerAsked.erase .c }
        .next ((if m.report.isNone then s.updDie s.myDie fun d => d.peerToken sp region form else s).tokenAnswer form va m.report)
      | none => .next s
    else
      let die := bits va 55 3
      let me := (s.package, s.myDie)
      match tokenPage s die sp va form with
      | .error (none, s) => .next s
      | .error (some c, s) => .next (s.tokenAnswer form va (some c))
      | .ok s =>
        let old := (s.die die).tokenOr sp region
        if form = 2 then
          .next (((s.dropLines die old me).updDie die fun d => if old.holders.contains me then d.giveUp old me else d).tokenAnswer
            form va none)
        else if old.conflict me form ≠ .none || (old.holders.isEmpty && (s.die die).directoryFull) then .next s
        else .next ((s.updDie die fun d => d.grant (old.granted me form) me).tokenAnswer form va none)
  | _ => .next s

end Sys2Proof.Machine
end

