-- ==== Sys2Proof/Machine/Dispatch.lean ====
section
/-! DEFINITION. The dispatch of every step to its meaning, one arm per constructor of Instr. -/

namespace Sys2Proof.Machine

/-- What one instruction, event or command does to the machine. -/
def exec (i : Instr) (s : State) : Host.Outcome State Fault Refusal :=
  match i with
  | .literalPush t imm => Sys2Proof.Machine.execLiteralPush t imm s
  | .literalExtend t imm => Sys2Proof.Machine.execLiteralExtend t imm s
  | .wait t n => Sys2Proof.Machine.execWait t n s
  | .stkDup t k => Sys2Proof.Machine.execStkDup t k s
  | .stkDrop t k => Sys2Proof.Machine.execStkDrop t k s
  | .stkSwap t k => Sys2Proof.Machine.execStkSwap t k s
  | .stkOver t k => Sys2Proof.Machine.execStkOver t k s
  | .cGetX n => Sys2Proof.Machine.execCGetX n s
  | .cGetP n => Sys2Proof.Machine.execCGetP n s
  | .cGetPmask => Sys2Proof.Machine.execCGetPmask s
  | .cGetLidx k => Sys2Proof.Machine.execCGetLidx k s
  | .cPutX n => Sys2Proof.Machine.execCPutX n s
  | .cPutP n => Sys2Proof.Machine.execCPutP n s
  | .cPutPmask => Sys2Proof.Machine.execCPutPmask s
  | .cAdd => Sys2Proof.Machine.execCAdd s
  | .cAddImm imm => Sys2Proof.Machine.execCAddImm imm s
  | .cSub => Sys2Proof.Machine.execCSub s
  | .cSubImm imm => Sys2Proof.Machine.execCSubImm imm s
  | .cAnd => Sys2Proof.Machine.execCAnd s
  | .cAndImm imm => Sys2Proof.Machine.execCAndImm imm s
  | .cOr => Sys2Proof.Machine.execCOr s
  | .cOrImm imm => Sys2Proof.Machine.execCOrImm imm s
  | .cXor => Sys2Proof.Machine.execCXor s
  | .cXorImm imm => Sys2Proof.Machine.execCXorImm imm s
  | .cMul => Sys2Proof.Machine.execCMul s
  | .cMulh => Sys2Proof.Machine.execCMulh s
  | .cMulhu => Sys2Proof.Machine.execCMulhu s
  | .cDiv u => Sys2Proof.Machine.execCDiv u s
  | .cRem u => Sys2Proof.Machine.execCRem u s
  | .cDivrem u => Sys2Proof.Machine.execCDivrem u s
  | .cShift o => Sys2Proof.Machine.execCShift o s
  | .cBitop o => Sys2Proof.Machine.execCBitop o s
  | .cCmp c => Sys2Proof.Machine.execCCmp c s
  | .cSetp c n => Sys2Proof.Machine.execCSetp c n s
  | .cSel n => Sys2Proof.Machine.execCSel n s
  | .cMinmax m => Sys2Proof.Machine.execCMinmax m s
  | .cPredCombine d o => Sys2Proof.Machine.execCPredCombine d o s
  | .cPredSet d o => Sys2Proof.Machine.execCPredSet d o s
  | .cBr o => Sys2Proof.Machine.execCBr o s
  | .cBrT n o => Sys2Proof.Machine.execCBrT n o s
  | .cBrF n o => Sys2Proof.Machine.execCBrF n o s
  | .cBrNz o => Sys2Proof.Machine.execCBrNz o s
  | .cCall o => Sys2Proof.Machine.execCCall o s
  | .cRet => Sys2Proof.Machine.execCRet s
  | .cLoopCount n o => Sys2Proof.Machine.execCLoopCount n o s
  | .cLoop o => Sys2Proof.Machine.execCLoop o s
  | .cSend e => Sys2Proof.Machine.execCSend e s
  | .cRecv e => Sys2Proof.Machine.execCRecv e s
  | .recvHandoff e => Sys2Proof.Machine.execRecvHandoff e s
  | .cLd c sel z => Sys2Proof.Machine.execCLd c sel z s
  | .cSt c z => Sys2Proof.Machine.execCSt c z s
  | .cCsr g imm => Sys2Proof.Machine.execCCsr g imm s
  | .cCsw g imm => Sys2Proof.Machine.execCCsw g imm s
  | .registerWrite => Sys2Proof.Machine.execRegisterWrite s
  | .cfSlipWrite => Sys2Proof.Machine.execCfSlipWrite s
  | .sFork m o => Sys2Proof.Machine.execSFork m o s
  | .sJoin m => Sys2Proof.Machine.execSJoin m s
  | .sLeg => Sys2Proof.Machine.execSLeg s
  | .sSign k => Sys2Proof.Machine.execSSign k s
  | .sSlack => Sys2Proof.Machine.execSSlack s
  | .sLtload b => Sys2Proof.Machine.execSLtload b s
  | .sFence sel p q => Sys2Proof.Machine.execSFence sel p q s
  | .sAcq sel => Sys2Proof.Machine.execSAcq sel s
  | .sAcqSh sel => Sys2Proof.Machine.execSAcqSh sel s
  | .sRel sel => Sys2Proof.Machine.execSRel sel s
  | .sStep g => Sys2Proof.Machine.execSStep g s
  | .sStepDrop g => Sys2Proof.Machine.execSStepDrop g s
  | .sTrap => Sys2Proof.Machine.execSTrap s
  | .sEnd => Sys2Proof.Machine.execSEnd s
  | .sYield => Sys2Proof.Machine.execSYield s
  | .sYieldForce => Sys2Proof.Machine.execSYieldForce s
  | .sBind => Sys2Proof.Machine.execSBind s
  | .sBindU => Sys2Proof.Machine.execSBindU s
  | .sTokenShared => Sys2Proof.Machine.execSTokenShared s
  | .sTokenExcl => Sys2Proof.Machine.execSTokenExcl s
  | .sTokenReturn => Sys2Proof.Machine.execSTokenReturn s
  | .aSfld g imm => Sys2Proof.Machine.execASfld g imm s
  | .aSgo g => Sys2Proof.Machine.execASgo g s
  | .aSstop g => Sys2Proof.Machine.execASstop g s
  | .aSstopDrain g => Sys2Proof.Machine.execASstopDrain g s
  | .aSpos g => Sys2Proof.Machine.execASpos g s
  | .aSposSet g => Sys2Proof.Machine.execASposSet g s
  | .aLdq q => Sys2Proof.Machine.execALdq q s
  | .aStq sel => Sys2Proof.Machine.execAStq sel s
  | .aLdg c => Sys2Proof.Machine.execALdg c s
  | .aStg c => Sys2Proof.Machine.execAStg c s
  | .aAlloc => Sys2Proof.Machine.execAAlloc s
  | .aValidCnt => Sys2Proof.Machine.execAValidCnt s
  | .aValidFirst => Sys2Proof.Machine.execAValidFirst s
  | .aValidSet => Sys2Proof.Machine.execAValidSet s
  | .aPld => Sys2Proof.Machine.execAPld s
  | .aPldQueue q => Sys2Proof.Machine.execAPldQueue q s
  | .aPst => Sys2Proof.Machine.execAPst s
  | .aPstPri => Sys2Proof.Machine.execAPstPri s
  | .aPstQueue sel => Sys2Proof.Machine.execAPstQueue sel s
  | .aPstPriQueue sel => Sys2Proof.Machine.execAPstPriQueue sel s
  | .aAgen g => Sys2Proof.Machine.execAAgen g s
  | .aAlu o => Sys2Proof.Machine.execAAlu o s
  | .aXqCount q => Sys2Proof.Machine.execAXqCount q s
  | .aXqFlush q => Sys2Proof.Machine.execAXqFlush q s
  | .aXqDrop q => Sys2Proof.Machine.execAXqDrop q s
  | .aXqPut q => Sys2Proof.Machine.execAXqPut q s
  | .streamRun g => Sys2Proof.Machine.execStreamRun g s
  | .streamDrained g => Sys2Proof.Machine.execStreamDrained g s
  | .eShape => Sys2Proof.Machine.execEShape s
  | .eShapeGet => Sys2Proof.Machine.execEShapeGet s
  | .eMov d p a m => Sys2Proof.Machine.execEMov d p a m s
  | .eAdd d p a b r => Sys2Proof.Machine.execEAdd d p a b r s
  | .eSub d p a b r => Sys2Proof.Machine.execESub d p a b r s
  | .eMul d p a b r => Sys2Proof.Machine.execEMul d p a b r s
  | .eFma d p a b neg r c => Sys2Proof.Machine.execEFma d p a b neg r c s
  | .eDiv d p a b r => Sys2Proof.Machine.execEDiv d p a b r s
  | .eSqrt d p a r => Sys2Proof.Machine.execESqrt d p a r s
  | .eMin d p a b n => Sys2Proof.Machine.execEMin d p a b n s
  | .eMax d p a b n => Sys2Proof.Machine.execEMax d p a b n s
  | .eCmp d p a b c => Sys2Proof.Machine.execECmp d p a b c s
  | .eSelect d p a b c => Sys2Proof.Machine.execESelect d p a b c s
  | .eIadd d p a b m => Sys2Proof.Machine.execEIadd d p a b m s
  | .eImul d p a b m => Sys2Proof.Machine.execEImul d p a b m s
  | .eLogic d p a b m => Sys2Proof.Machine.execELogic d p a b m s
  | .eShift d p a b m => Sys2Proof.Machine.execEShift d p a b m s
  | .eCvt d p a b r o f => Sys2Proof.Machine.execECvt d p a b r o f s
  | .eQuant d p a sd f => Sys2Proof.Machine.execEQuant d p a sd f s
  | .eAmax => Sys2Proof.Machine.execEAmax s
  | .eAmaxReset => Sys2Proof.Machine.execEAmaxReset s
  | .eAmaxClear => Sys2Proof.Machine.execEAmaxClear s
  | .eRed d p a x o => Sys2Proof.Machine.execERed d p a x o s
  | .eXpose d p a => Sys2Proof.Machine.execEXpose d p a s
  | .ePerm d p a b m c sel => Sys2Proof.Machine.execEPerm d p a b m c sel s
  | .eRep sel n => Sys2Proof.Machine.execERep sel n s
  | .eSfn d p a f => Sys2Proof.Machine.execESfn d p a f s
  | .eTpack d p a => Sys2Proof.Machine.execETpack d p a s
  | .eMask a f => Sys2Proof.Machine.execEMask a f s
  | .eXq d p a m => Sys2Proof.Machine.execEXq d p a m s
  | .mClaim => Sys2Proof.Machine.execMClaim s
  | .mClaimR => Sys2Proof.Machine.execMClaimR s
  | .mRelease => Sys2Proof.Machine.execMRelease s
  | .mWload f => Sys2Proof.Machine.execMWload f s
  | .mWloadSp f => Sys2Proof.Machine.execMWloadSp f s
  | .mSwap => Sys2Proof.Machine.execMSwap s
  | .mMma f k => Sys2Proof.Machine.execMMma f k s
  | .mTmma k => Sys2Proof.Machine.execMTmma k s
  | .mEpi z d k sel a f => Sys2Proof.Machine.execMEpi z d k sel a f s
  | .mRoute => Sys2Proof.Machine.execMRoute s
  | .mRouteGet => Sys2Proof.Machine.execMRouteGet s
  | .mAccClear k => Sys2Proof.Machine.execMAccClear k s
  | .mAccClearpair k => Sys2Proof.Machine.execMAccClearpair k s
  | .mAccLoad k => Sys2Proof.Machine.execMAccLoad k s
  | .kGeoDim k => Sys2Proof.Machine.execKGeoDim k s
  | .kGeoRank => Sys2Proof.Machine.execKGeoRank s
  | .kGeoSpace => Sys2Proof.Machine.execKGeoSpace s
  | .kGeoSig => Sys2Proof.Machine.execKGeoSig s
  | .kGeoClear => Sys2Proof.Machine.execKGeoClear s
  | .kCopy => Sys2Proof.Machine.execKCopy s
  | .kFollow => Sys2Proof.Machine.execKFollow s
  | .kCnt => Sys2Proof.Machine.execKCnt s
  | .kCntGet => Sys2Proof.Machine.execKCntGet s
  | .kFlag n => Sys2Proof.Machine.execKFlag n s
  | .kCwait sel => Sys2Proof.Machine.execKCwait sel s
  | .kPin => Sys2Proof.Machine.execKPin s
  | .kPinRelease => Sys2Proof.Machine.execKPinRelease s
  | .kConvSrc => Sys2Proof.Machine.execKConvSrc s
  | .kConvDst => Sys2Proof.Machine.execKConvDst s
  | .copyComplete k => Sys2Proof.Machine.execCopyComplete k s
  | .followOnStart => Sys2Proof.Machine.execFollowOnStart s
  | .cwaitSatisfied => Sys2Proof.Machine.execCwaitSatisfied s
  | .flagWaitSatisfied => Sys2Proof.Machine.execFlagWaitSatisfied s
  | .wRows f m => Sys2Proof.Machine.execWRows f m s
  | .wRstat imm k => Sys2Proof.Machine.execWRstat imm k s
  | .wTime => Sys2Proof.Machine.execWTime s
  | .wTimeGet => Sys2Proof.Machine.execWTimeGet s
  | .fAmo o t => Sys2Proof.Machine.execFAmo o t s
  | .fAmoR o t => Sys2Proof.Machine.execFAmoR o t s
  | .fCas w => Sys2Proof.Machine.execFCas w s
  | .fCasM n w => Sys2Proof.Machine.execFCasM n w s
  | .fEnq => Sys2Proof.Machine.execFEnq s
  | .fEnqR => Sys2Proof.Machine.execFEnqR s
  | .fChase h c k => Sys2Proof.Machine.execFChase h c k s
  | .fRld c sel z => Sys2Proof.Machine.execFRld c sel z s
  | .fRst c z => Sys2Proof.Machine.execFRst c z s
  | .fSkup d => Sys2Proof.Machine.execFSkup d s
  | .fSkupN d => Sys2Proof.Machine.execFSkupN d s
  | .fSkq imm => Sys2Proof.Machine.execFSkq imm s
  | .fSkqN imm => Sys2Proof.Machine.execFSkqN imm s
  | .fSkadd => Sys2Proof.Machine.execFSkadd s
  | .fColl e d sel => Sys2Proof.Machine.execFColl e d sel s
  | .fLayout n f => Sys2Proof.Machine.execFLayout n f s
  | .fDrain => Sys2Proof.Machine.execFDrain s
  | .farDrainComplete => Sys2Proof.Machine.execFarDrainComplete s
  | .farReply k => Sys2Proof.Machine.execFarReply k s
  | .reportArrival k => Sys2Proof.Machine.execReportArrival k s
  | .wallowerService w k => Sys2Proof.Machine.execWallowerService w k s
  | .sketchLogApply w => Sys2Proof.Machine.execSketchLogApply w s
  | .combineTimerFlush k => Sys2Proof.Machine.execCombineTimerFlush k s
  | .tokenRevoke region => Sys2Proof.Machine.execTokenRevoke region s
  | .tokenComplete => Sys2Proof.Machine.execTokenComplete s
  | .flitReceive l => Sys2Proof.Machine.execFlitReceive l s
  | .replayRequest l => Sys2Proof.Machine.execReplayRequest l s
  | .flitAck l q => Sys2Proof.Machine.execFlitAck l q s
  | .rotationMarker l => Sys2Proof.Machine.execRotationMarker l s
  | .linkDown l => Sys2Proof.Machine.execLinkDown l s
  | .slotDeparture k => Sys2Proof.Machine.execSlotDeparture k s
  | .acquireGrant k => Sys2Proof.Machine.execAcquireGrant k s
  | .releaseDrainComplete => Sys2Proof.Machine.execReleaseDrainComplete s
  | .releaseEffect k => Sys2Proof.Machine.execReleaseEffect k s
  | .bindRecord => Sys2Proof.Machine.execBindRecord s
  | .fenceDrainComplete => Sys2Proof.Machine.execFenceDrainComplete s
  | .collectiveComplete k => Sys2Proof.Machine.execCollectiveComplete k s
  | .stepSettle g => Sys2Proof.Machine.execStepSettle g s
  | .stepAbsenceLimit g => Sys2Proof.Machine.execStepAbsenceLimit g s
  | .legTableLoaded b => Sys2Proof.Machine.execLegTableLoaded b s
  | .legStart => Sys2Proof.Machine.execLegStart s
  | .legTimedEnd => Sys2Proof.Machine.execLegTimedEnd s
  | .timelineCommand => Sys2Proof.Machine.execTimelineCommand s
  | .owedCommandService => Sys2Proof.Machine.execOwedCommandService s
  | .controllerSignoff sel => Sys2Proof.Machine.execControllerSignoff sel s
  | .stationSignoff => Sys2Proof.Machine.execStationSignoff s
  | .closureLimitExpiry => Sys2Proof.Machine.execClosureLimitExpiry s
  | .refreshTick sel => Sys2Proof.Machine.execRefreshTick sel s
  | .heldRefresh sel => Sys2Proof.Machine.execHeldRefresh sel s
  | .pageWalk k => Sys2Proof.Machine.execPageWalk k s
  | .epochClose => Sys2Proof.Machine.execEpochClose s
  | .swapComplete => Sys2Proof.Machine.execSwapComplete s
  | .patrolLine => Sys2Proof.Machine.execPatrolLine s
  | .rotationPassEnd => Sys2Proof.Machine.execRotationPassEnd s
  | .textRowFill row => Sys2Proof.Machine.execTextRowFill row s
  | .textRowFree => Sys2Proof.Machine.execTextRowFree s
  | .launchRecord => Sys2Proof.Machine.execLaunchRecord s
  | .taskPlace l task => Sys2Proof.Machine.execTaskPlace l task s
  | .taskStart => Sys2Proof.Machine.execTaskStart s
  | .timedTaskStart => Sys2Proof.Machine.execTimedTaskStart s
  | .endComplete => Sys2Proof.Machine.execEndComplete s
  | .contextSaveComplete => Sys2Proof.Machine.execContextSaveComplete s
  | .contextRestoreComplete => Sys2Proof.Machine.execContextRestoreComplete s
  | .killComplete => Sys2Proof.Machine.execKillComplete s
  | .taskCtlRetry => Sys2Proof.Machine.execTaskCtlRetry s
  | .taskCtlSkip => Sys2Proof.Machine.execTaskCtlSkip s
  | .taskCtlKill => Sys2Proof.Machine.execTaskCtlKill s
  | .pageDone => Sys2Proof.Machine.execPageDone s
  | .tlbInvPage => Sys2Proof.Machine.execTlbInvPage s
  | .tlbInvSpace => Sys2Proof.Machine.execTlbInvSpace s
  | .tlbInvAll => Sys2Proof.Machine.execTlbInvAll s
  | .keyRotate => Sys2Proof.Machine.execKeyRotate s
  | .hashMaskWrite => Sys2Proof.Machine.execHashMaskWrite s
  | .regionWrite => Sys2Proof.Machine.execRegionWrite s
  | .sgFaultClear => Sys2Proof.Machine.execSgFaultClear s
  | .uninitClear => Sys2Proof.Machine.execUninitClear s
  | .errorLogClear => Sys2Proof.Machine.execErrorLogClear s
  | .memrd die tier off n => Sys2Proof.Machine.execMemrd die tier off n s
  | .memwr die tier off data => Sys2Proof.Machine.execMemwr die tier off data s
  | .regrd group die idx => Sys2Proof.Machine.execRegrd group die idx s
  | .regwr group die idx v => Sys2Proof.Machine.execRegwr group die idx v s
  | .launch die space va sys => Sys2Proof.Machine.execLaunch die space va sys s
  | .keyld fields => Sys2Proof.Machine.execKeyld fields s
  | .fwld image => Sys2Proof.Machine.execFwld image s
  | .attestCmd nonce => Sys2Proof.Machine.execAttestCmd nonce s
  | .lifeCmd dest sig => Sys2Proof.Machine.execLifeCmd dest sig s
  | .debugCmd level token => Sys2Proof.Machine.execDebugCmd level token s
  | .powerCmd dest => Sys2Proof.Machine.execPowerCmd dest s
  | .haltEntry => Sys2Proof.Machine.execHaltEntry s
  | .powerOn => Sys2Proof.Machine.execPowerOn s
  | .functionReady bit => Sys2Proof.Machine.execFunctionReady bit s
  | .thermalWarn die => Sys2Proof.Machine.execThermalWarn die s
  | .thermalTrip die => Sys2Proof.Machine.execThermalTrip die s
  | .illegalWord t => Sys2Proof.Machine.execIllegalWord t s
  | .freeModeRequestService k => Sys2Proof.Machine.execFreeModeRequestService k s
  | .millwrightPreemption => Sys2Proof.Machine.execMillwrightPreemption s
  | .exchangeWaitLimit k => Sys2Proof.Machine.execExchangeWaitLimit k s
  | .powerLoss => Sys2Proof.Machine.execPowerLoss s

end Sys2Proof.Machine
end

