-- ==== Sys2Proof/Machine/Schedule.lean ====
section
/-! DEFINITION. What a step may be: an event or the turn of an engine, and the placing of a program's first words (log
entries 3, 4 and 14). -/

namespace Sys2Proof.Machine

/-- An event or a command of the package; an instruction comes only by an engine's turn. -/
def isEvent (i : Instr) : Bool :=
  (encodeNat i).isNone && (match i with | .illegalWord _ => false | _ => true)

/-- The first engine of a core that may act. -/
def Core.firstDue (k : Core) (cycle : Nat) : Option Engine :=
  if k.run = .running ∧ !k.halted then allEngines.find? fun t => k.due t cycle else none

/-- The first core, in package order, with an engine that may act. -/
def State.firstTurn (s : State) : Option (Nat × Engine) :=
  s.cores.findSome? fun p => (p.2.firstDue s.cycle).map fun t => (p.1, t)

/-- The step of the register write that is next. -/
def State.writeEvent (s : State) : Option (Nat × Instr) :=
  s.nextWrite.map fun w => (w.core, match w.kind with
    | .plain => .registerWrite | .slip => .cfSlipWrite | .hash => .hashMaskWrite | .region => .regionWrite
    | .sgFault => .sgFaultClear | .uninit => .uninitClear | .errLog => .errorLogClear | .keyRotate => .keyRotate
    | .tlbPage => .tlbInvPage | .tlbSpace => .tlbInvSpace | .tlbAll => .tlbInvAll | .retry => .taskCtlRetry
    | .skip => .taskCtlSkip | .kill => .taskCtlKill | .pageDone => .pageDone)

/-- The engine that issues a word of a tag; S words issue through C (02 R29). -/
def issuer (w : Half) : Engine := Engine.ofTag (tagOf w)

/-- A core that is about to issue the words `ws` at text address 0 as the only words of its store (log entry 14). -/
def Core.atWords (k : Core) (ws : List Half) (cycle : Nat) : Core :=
  let t := issuer (ws.headD 0)
  let sWord := tagOf (ws.headD 0) == 7
  { k with
    run := .running
    task := some { die := 0, launch := 0, task := 0 }
    text := { k.text with len := 16384, freed := [],
                          rows := [{ space := k.text.space, image := k.text.image, row := 0, words := ws }] }
    eng := k.eng.map fun u x =>
      { x with active := u == .c || u == t, pc := 0, endWait := false, steer := [], fromWin := 0,
               parked := if sWord then some 0 else none,
               nextIssue := if u == t then 0 else cycle + 1 } }

end Sys2Proof.Machine
end

