-- ==== Sys2Proof/Machine/Due.lean ====
section
/-! DEFINITION. Which step comes next (log entries 3 and 4): the schedule the state holds, and where that is empty a
default: the first event that has an effect, then the engines that are due in order of core and tag, then the passing of
a cycle. -/

namespace Sys2Proof.Machine

/-- The text rows a core waits for. -/
def State.rowFills (s : State) (k : Nat) : List Instr :=
  ((s.kernels k).filterMap fun q => s.awaits k q).map Instr.textRowFill

/-- The cores on which timed tasks of a die's launches start. -/
def Die.timedCores (d : Die) : List Nat :=
  (d.launches.flatMap fun l => (l.recs.filter fun r => r.timed).map fun r => r.core).eraseDups

/-- What may happen at a core: the events at the index of each thing the core waits for. -/
def State.coreEvents (s : State) (k : Nat) : List Instr :=
  let c := s.core k
  ((List.range c.walks.length).map Instr.pageWalk)
    ++ ((List.range c.posted.length).map Instr.freeModeRequestService)
    ++ (c.streams.map fun p : Nat × Stream => Instr.streamRun (BitVec.ofNat 4 p.1))
    ++ (c.streams.map fun p : Nat × Stream => Instr.streamDrained (BitVec.ofNat 4 p.1))
    ++ ((List.range c.kop.copies.length).map Instr.copyComplete)
    ++ [.followOnStart, .tokenComplete, .releaseDrainComplete, .bindRecord, .fenceDrainComplete]
    ++ ((List.range (c.far.length + s.inbound.length)).flatMap fun n => [0, 1, 2].map fun w : BitVec 2 => Instr.wallowerService w n)
    ++ ((List.range c.far.length).flatMap fun n => [.farReply n, .reportArrival n])
    ++ ((List.range c.peerGot.length).map fun n => Instr.farReply (c.far.length + n))
    ++ (if c.comb.isEmpty then [] else [.combineTimerFlush 0])
    ++ ((List.range c.colls.length).flatMap fun n => [Instr.collectiveComplete n, .exchangeWaitLimit n])
    ++ s.rowFills k
    ++ [.textRowFree, .taskStart, .endComplete, .contextSaveComplete, .contextRestoreComplete, .killComplete]
    ++ (if c.peerGot.isEmpty then [] else [.acquireGrant (s.die (k / 512)).acqs.length])

/-- What may happen at a die. -/
def State.dieEvents (s : State) (d : Nat) : List Instr :=
  let x := s.die d
  ((List.range x.acqs.length).map Instr.acquireGrant)
    ++ ((List.range x.rels.length).map Instr.releaseEffect)
    ++ ((List.range x.tokens.length).map Instr.tokenRevoke)
    ++ ((List.range x.faults.length).map fun j => Instr.pageWalk ((s.core (512 * d)).walks.length + j))
    ++ (x.groups.flatMap fun p : Nat × Group => [Instr.stepSettle (BitVec.ofNat 4 p.1), .stepAbsenceLimit (BitVec.ofNat 4 p.1)])
    ++ [.legTableLoaded 0, .legTableLoaded 1, .timelineCommand]
    ++ ((List.range x.timed.slots.length).map Instr.slotDeparture)
    ++ [.legTimedEnd, .owedCommandService, .sketchLogApply 0, .sketchLogApply 1, .sketchLogApply 2, .sketchLogApply 3,
        .controllerSignoff 0, .controllerSignoff 1, .stationSignoff, .legStart, .closureLimitExpiry,
        .refreshTick 0, .refreshTick 1, .heldRefresh 0, .heldRefresh 1, .epochClose, .swapComplete, .patrolLine,
        .rotationPassEnd, .launchRecord, .timedTaskStart]
    ++ (x.readyTasks.map fun p : Nat × Nat => Instr.taskPlace p.1 p.2)
    ++ (List.range 64).map Instr.functionReady

/-- What may happen on a link. -/
def linkEvents (p : Nat × Link) : List Instr :=
  [.rotationMarker p.1, .flitReceive p.1, .replayRequest p.1, .linkDown p.1]
    ++ (match p.2.held with | f :: _ => if p.2.wire.contains f then [] else [.flitAck p.1 f.seq] | [] => [])

/-- What may happen next, the register writes of earlier cycles first (04 R92). -/
def State.events (s : State) : List (Nat × Instr) :=
  s.writeEvent.toList
    ++ (s.dies.flatMap fun p : Nat × Die => (s.dieEvents p.1).map fun i => (512 * p.1, i))
    ++ (s.dies.flatMap fun p : Nat × Die => p.2.timedCores.flatMap fun k => (s.rowFills k).map fun i => (k, i))
    ++ (s.cores.flatMap fun p : Nat × Core => (s.coreEvents p.1).map fun i => (p.1, i))
    ++ (s.links.flatMap fun p : Nat × Link => (linkEvents p).map fun i => (0, i))
    ++ (if s.on then (List.range 32).map fun b => (0, Instr.functionReady (64 + b)) else [])

/-- Places in the copy queue of the copies whose cycles the spec fixes (11 R238, R248). -/
def Core.timedCopies (k : Core) : List Nat :=
  (List.range k.kop.copies.length).filter fun j => (k.kop.copies[j]?).any Copy.fixed

/-- The events of the far operations a core has issued in a leg (14 R289; 05 R119). -/
def Core.timedFar (k : Core) : List Instr :=
  ((List.range k.far.length).filter fun j => (k.far[j]?).any fun o => o.leg.isSome).flatMap fun j =>
    [.wallowerService 0 j, .wallowerService 1 j, .wallowerService 2 j, .farReply j]

/-- The events whose cycle the spec fixes: none of them is late (05 R102, R107, R122; 14 R281, R289; 06 R136; 11 R238; 12 R261; 16 R334;
17 R350, R358,
R361; 18 R373, R374, R386, R388). -/
def State.timely (s : State) : List (Nat × Instr) :=
  (s.dies.flatMap fun p : Nat × Die =>
      (((List.range p.2.rels.length).filter fun j => (p.2.rels[j]?).any fun q => decide (q.by_ ≤ s.cycle)).map Instr.releaseEffect
        ++ [Instr.timelineCommand, .legTimedEnd, .legStart, .refreshTick 0, .refreshTick 1, .timedTaskStart, .epochClose,
          .patrolLine, .rotationPassEnd]
        ++ (List.range p.2.timed.slots.length).map Instr.slotDeparture
        ++ p.2.groups.map fun q : Nat × Group => Instr.stepSettle (BitVec.ofNat 4 q.1)).map fun i => (512 * p.1, i))
    ++ (s.links.map fun p : Nat × Link => (0, Instr.flitReceive p.1))
    ++ (s.cores.flatMap fun p : Nat × Core =>
      (p.2.timedFar ++ (p.2.streams.map fun q : Nat × Stream => Instr.streamRun (BitVec.ofNat 4 q.1))
        ++ p.2.timedCopies.map Instr.copyComplete
        ++ (List.range p.2.walks.length).map Instr.pageWalk
        ++ [Instr.followOnStart, .taskStart, .textRowFree, .combineTimerFlush 0, .contextSaveComplete,
          .contextRestoreComplete]).map fun i => (p.1, i))

/-- An event has an effect now. -/
def State.has (s : State) (e : Nat × Instr) : Bool :=
  match exec e.2 { s with actor := e.1 } with
  | .next t => decide (t ≠ { s with actor := e.1 })
  | _ => true

/-- A cycle may pass: no engine is due, no event of a fixed cycle and no register write of an earlier cycle can take
effect. -/
def State.mayTick (s : State) : Bool := s.firstTurn.isNone && !((s.writeEvent.toList ++ s.timely).any s.has)

/-- The step taken when the schedule is empty. -/
def State.defaultItem (s : State) : Sched :=
  match s.events.find? s.has with
  | some e => .happen e.1 e.2
  | none =>
    match s.firstTurn with
    | some t => .turn t.1 t.2
    | none => .tick

/-- The coming step, and the state with it taken off the schedule. -/
def State.takeItem (s : State) : Sched × State :=
  match s.sched with
  | [] => (s.defaultItem, s)
  | x :: xs => (x, { s with sched := xs })

end Sys2Proof.Machine
end

