-- ==== Sys2Proof/Machine/Step.lean ====
section
/-! DEFINITION. One step of the package, and the placing of an instruction where the next step fetches. -/

namespace Sys2Proof.Machine

/-- One step: the item the schedule names, or the default when it names none. -/
def step (s : State) : Host.Outcome State Fault Refusal :=
  let p := s.takeItem
  match p.1 with
  | .turn k e =>
    if 4096 ≤ k then .fault .noSuchUnit
    else match State.turnOf { p.2 with actor := k } e with
      | .run i t => exec i t
      | .done t => .next t
  | .happen k i =>
    if 4096 ≤ k then .fault .noSuchUnit
    else if isEvent i then exec i { p.2 with actor := k } else .next p.2
  | .tick => .next (if p.2.mayTick then p.2.passCycle else p.2)

/-- The state with an instruction of the opcode table stored at text address 0 of core 0, about to issue it. -/
def State.withFetchWord (s : State) (nbits w : Nat) : State :=
  let ws := tableWords nbits w
  let cycle := s.cycle + 1
  { s.setCore 0 ((s.core 0).atWords ws cycle) with cycle := cycle, sched := [.turn 0 (issuer (ws.headD 0))] }

end Sys2Proof.Machine
end

