-- ==== Sys2Proof/Certificates/Slice0/Obligations.lean ====
section
/-! DEFINITION. The statements for the provers. A word's statement has the form: where the engine can issue the word and the
operands are as the rule asks, exec answers the next state that the rule gives, written out; every part of the state it does
not name is as before. -/

namespace Sys2Proof.Spec

open Sys2Proof.Machine

/-- The instruction that words decode to; none where they are no instruction (02 R42). -/
def reads (ws : List Half) : Option Instr := (decode ws).toOption

/-! ## The common shape of a word -/

/-- The state in which a word's effect begins: the values C has sent to its engine have arrived (04 R86). -/
def arrived (t : Engine) (s : State) : State := s.updMe fun k => k.deliver t

/-- The parameter stack a word acts on. -/
def top (t : Engine) (s : State) : List W64 := (arrived t s).stack t

/-- The engine of the acting core can issue a word: its fields have assigned values (02 R42), no steering queue and no fence
holds it (02 R34, 16 R332), what it touches of the execute engine's state stands (07 R164), the values sent to the engine fit
its stack (02 R31, 04 R86), and a pending E.REP may repeat it (07 R184). -/
def CanIssue (t : Engine) (i : Instr) (s : State) : Prop :=
  legalFields i = true ∧ s.me.steerBlocked t (lenInstr i) = false ∧ s.me.fenced i s.cycle = false ∧
    ¬(t = .e ∧ s.me.vec.waits i s.cycle = true) ∧ (top t s).length ≤ 8 ∧ repRefuses (s.me.repFor t) i = false

/-- The state once a word with effect `e` has issued: its engine moves past the word, or stays for the next repetition of a
pending E.REP; its next word issues no earlier than `n` cycles on (02 R36, 04 R69, 07 R183). -/
def issued (t : Engine) (i : Instr) (n : Nat) (s e : State) : State :=
  e.updMe fun k => k.complete t (s.me.repFor t) (lenInstr i) n s.cycle

/-- A word of C whose effect is to replace the entries it pops by a function of them: its issue distance, how many entries
it pops and what it pushes, the new top last (04 R72-R77). Operands stand PS0 first. -/
def pureForm : Instr → Option (Nat × Nat × (List W64 → List W64))
  | .cAdd => some (1, 2, fun v => [v.getD 1 0 + v.getD 0 0])
  | .cSub => some (1, 2, fun v => [v.getD 1 0 - v.getD 0 0])
  | .cAnd => some (1, 2, fun v => [v.getD 1 0 &&& v.getD 0 0])
  | .cOr => some (1, 2, fun v => [v.getD 1 0 ||| v.getD 0 0])
  | .cXor => some (1, 2, fun v => [v.getD 1 0 ^^^ v.getD 0 0])
  | .cAddImm i => some (1, 1, fun v => [v.getD 0 0 + i.signExtend 64])
  | .cSubImm i => some (1, 1, fun v => [v.getD 0 0 - i.signExtend 64])
  | .cAndImm i => some (1, 1, fun v => [v.getD 0 0 &&& i.signExtend 64])
  | .cOrImm i => some (1, 1, fun v => [v.getD 0 0 ||| i.signExtend 64])
  | .cXorImm i => some (1, 1, fun v => [v.getD 0 0 ^^^ i.signExtend 64])
  | .cMul => some (3, 2, fun v => [v.getD 1 0 * v.getD 0 0])
  | .cMulh => some (3, 2, fun v => [BitVec.ofInt 64 ((v.getD 1 0).toInt * (v.getD 0 0).toInt / 2 ^ 64)])
  | .cMulhu => some (3, 2, fun v => [BitVec.ofNat 64 ((v.getD 1 0).toNat * (v.getD 0 0).toNat / 2 ^ 64)])
  | .cShift 0 => some (1, 2, fun v => [v.getD 1 0 <<< (v.getD 0 0).toNat])
  | .cShift 1 => some (1, 2, fun v => [v.getD 1 0 >>> (v.getD 0 0).toNat])
  | .cShift 2 => some (1, 2, fun v => [(v.getD 1 0).sshiftRight (v.getD 0 0).toNat])
  | .cShift _ => some (1, 2, fun v => [(v.getD 1 0).rotateLeft (v.getD 0 0).toNat])
  | .cBitop 0 => some (1, 1, fun v => [BitVec.ofNat 64 ((List.range 64).countP fun j => (v.getD 0 0).getLsbD j)])
  | .cBitop 1 => some (1, 1, fun v => [BitVec.ofNat 64 ((List.range 64).takeWhile fun j => !(v.getD 0 0).getMsbD j).length])
  | .cBitop 2 => some (1, 1, fun v => [BitVec.ofNat 64 ((List.range 64).takeWhile fun j => !(v.getD 0 0).getLsbD j).length])
  | .cBitop _ => some (1, 1, fun v => [BitVec.ofNat 64 (leNat (leBytes (v.getD 0 0).toNat 8).reverse)])
  | .cCmp c => some (1, 2, fun v => [if condHolds c (v.getD 1 0) (v.getD 0 0) then 1 else 0])
  | .cMinmax 0 => some (1, 2, fun v => [if (v.getD 1 0).toInt ≤ (v.getD 0 0).toInt then v.getD 1 0 else v.getD 0 0])
  | .cMinmax 1 => some (1, 2, fun v => [if (v.getD 0 0).toInt ≤ (v.getD 1 0).toInt then v.getD 1 0 else v.getD 0 0])
  | .cMinmax 2 => some (1, 2, fun v => [if (v.getD 1 0).toNat ≤ (v.getD 0 0).toNat then v.getD 1 0 else v.getD 0 0])
  | .cMinmax _ => some (1, 2, fun v => [if (v.getD 0 0).toNat ≤ (v.getD 1 0).toNat then v.getD 1 0 else v.getD 0 0])
  | _ => none

/-- The word completes: exec answers the state in which its effect `e` stands and its engine has moved on. -/
def completes (t : Engine) (i : Instr) (n : Nat) (s e : State) : Prop := exec i s = .next (issued t i n s e)

/-- What C.GET pushes (04 R71). -/
def getForm (i : Instr) (r : Ctl) : Option W64 :=
  match i with
  | .cGetX n => some (r.x.get n.toFin)
  | .cGetP n => some (if r.p.getLsbD n.toNat then 1 else 0)
  | .cGetPmask => some (r.p.setWidth 64)
  | .cGetLidx k => some ((r.loops[k.toNat]?.map LoopEntry.iter).getD 0)
  | _ => none

/-- What C.PUT and C.PRED do with the entry they pop (04 R71, R79). -/
def putForm (i : Instr) : Option (W64 → Ctl → Ctl) :=
  match i with
  | .cPutX n => some fun v r => { r with x := r.x.set n.toNat v n.isLt }
  | .cPutP n => some fun v r => { r with p := setPred r.p n.toNat (v ≠ 0) }
  | .cPutPmask => some fun v r => { r with p := v.setWidth 8 }
  | .cPredCombine d o => some fun v r =>
      let q := r.p.getLsbD d.toNat
      let t := v != 0
      { r with p := setPred r.p d.toNat (if o = 0 then q && t else if o = 1 then q || t else if o = 2 then xor q t else q && !t) }
  | _ => none

/-- The forms of C.DIV: the U bit, and whether the quotient and the remainder are pushed (04 R74). -/
def divForm : Instr → Option (BitVec 1 × Bool × Bool)
  | .cDiv u => some (u, true, false)
  | .cRem u => some (u, false, true)
  | .cDivrem u => some (u, true, true)
  | _ => none

/-- Quotient toward zero and remainder; all ones and the dividend for a zero divisor (04 R74). -/
def quotRem (u : BitVec 1) (a b : W64) : W64 × W64 :=
  if b = 0 then (BitVec.allOnes 64, a)
  else if u = 1 then (a / b, a % b)
  else (BitVec.ofInt 64 (a.toInt.tdiv b.toInt), BitVec.ofInt 64 (a.toInt.tmod b.toInt))

/-- The branch words: offset, entries popped and whether the condition holds (04 R80). -/
def branchForm (s : State) : Instr → Option (BitVec 13 × Nat × Bool)
  | .cBr o => some (o, 0, true)
  | .cBrT n o => some (o, 0, s.me.ctl.p.getLsbD n.toNat)
  | .cBrF n o => some (o, 0, !s.me.ctl.p.getLsbD n.toNat)
  | .cBrNz o => some (o, 1, (s.stack .c).getD 0 0 != 0)
  | _ => none

/-- The text address a signed offset from C's word reaches, where it lies in the text (04 R80, R82). -/
def inText (s : State) (o : BitVec 13) : Option Nat :=
  let a : Int := (s.me.en .c).pc + o.toInt
  if 0 ≤ a ∧ a < s.me.text.len then some a.toNat else none

/-- The state once C has resolved a steering word whose other effect is `e` (04 R70). -/
def steered (s : State) (i : Instr) (target : Nat) (e : State) : State :=
  e.updMe fun k => k.steerTo (s.me.en .c).pc (lenInstr i) target false s.cycle 1

/-- The state with the loop entry of a C.LOOP at C's program counter (04 R83). -/
def looped (o : BitVec 13) (count : W64) (s : State) : State :=
  if o = 1 then s
  else s.updCtl fun r => { r with
    loops := { start := (s.me.en .c).pc + 2, stop := (s.me.en .c).pc + o.toNat, iter := 0
               count := if count = 0 then 1 else count, depth := r.ret.length } :: r.loops }

/-- What an access of the acting core to `n` bytes at a place must not meet: an earlier access of its own, for C a combining-buffer
entry or the write of one, a controller in STATIC mode, in bring-up or that holds for a leg, an owed burst (05 R102, 06 R137, R138,
14 R292, 17 R358, 19 R398). -/
def Unhindered (t : Engine) (p : Place) (va : W64) (n cls : Nat) (s : State) : Prop :=
  p.peer = none ∧ s.me.mustWait t p n cls = false ∧ s.waits p.die p.tier p.off n = false ∧
    (t = .c → s.me.combOf va = none ∧ ∀ o ∈ s.me.far, o.ahead false p.die none va p.mt = false)

/-- The state once a load of an engine has used up what peer packages have sent for it (17 R345). -/
def loaded (t : Engine) (s : State) : State := s.updMe fun k => k.dropLoads t 0

/-- The write a store posts at a place (04 R89, 06 R147). -/
def postedWrite (t : Engine) (p : Place) (va : W64) (cls : Nat) (bs : List Byte) : Posted :=
  { eng := t, die := p.die, peer := p.peer, tier := p.tier, off := p.off, va := va, klock := p.klock, mt := p.mt
    cls := cls, write := some bs }

/-- A loaded value of `n` bytes as a stack entry (04 R89). -/
def extended (signed : Bool) (n : Nat) (bs : List Byte) : W64 :=
  if signed then (BitVec.ofNat (8 * n) (leNat bs)).signExtend 64 else BitVec.ofNat 64 (leNat bs)

/-- The state once the register write `w` is taken off the posted ones. -/
def taken (s : State) (w : RegWrite) : State := { s with regWrites := s.regWrites.erase w }

/-- The event takes the next register write `w`, of its kind, its effect is `e`, and a write of the port is then answered (04 R92; 19
R395). -/
def takes (i : Instr) (k : RegKind) (s : State) (w : RegWrite) (e : State) : Prop :=
  s.nextWrite = some w → w.kind = k → exec i s = .next (s.portAnswer w e)

/-- An S word can take effect: its fields have assigned values, no steering queue holds it, and the C stack is within its
depth (02 R29, R31, R34, R42). -/
def CanIssueS (i : Instr) (s : State) : Prop :=
  legalFields i = true ∧ s.me.steerBlocked .c (lenInstr i) = false ∧ (s.stack .c).length ≤ 8

/-- The engine stands at its word and tries again in the next cycle: its stack is as it was. -/
def holds (t : Engine) (i : Instr) (s e : State) : Prop :=
  exec i s = .next ((e.setStack t (top t s)).updMe fun k => k.updEn t fun x => { x with nextIssue := s.cycle + 1 })

/-- The state once an S word with effect `e` has taken effect: every engine that was active moves past it, its next word
`n` cycles on at the earliest, and one that the word starts has an empty steering queue (02 R29, R34). -/
def issuedS (i : Instr) (n : Nat) (s e : State) : State :=
  e.updMe fun k2 => ((s.me.actives.foldr
    (fun t k3 => (k3.updEn t fun x => { x with parked := none }).advance t (lenInstr i) n s.cycle) k2).onlySteer
      s.me.actives).modeSettled

/-- The S word completes with effect `e`. -/
def completesS (i : Instr) (n : Nat) (s e : State) : Prop := exec i s = .next (issuedS i n s e)

/-- The S word waits with effect `e`: the C stack is as it was, and C tries again in the next cycle. -/
def waitsS (i : Instr) (s e : State) : Prop :=
  exec i s = .next ((e.setStack .c (s.stack .c)).updMe fun k => k.updEn .c fun x => { x with nextIssue := s.cycle + 1 })

/-- A core's S.SIGN is recorded at its die (05 R107, R112). -/
def signedAt (s : State) (vote : Bool) : State :=
  (s.updDie s.myDie fun d => d.updTrav fun t =>
    { t with tFirst := if t.signed.isEmpty && t.stations.isEmpty then s.cycle else t.tFirst, tLast := max t.tLast s.cycle
             signed := s.actor % 512 :: t.signed, vote := t.vote || vote }).updMe fun k =>
      { k with leg := { k.leg with signed := true, go := none, ended := false } }

/-- Whether an engine is named by a mask of S.FORK and S.JOIN: A, E, M, K, W, F from bit 5 down (18 R375). -/
def inMask (m : BitVec 6) (t : Engine) : Bool := t ≠ .c && m.getLsbD (6 - t.tag)

/-- The state in which a core's commons access has its landing noted, and the cycle by which it would land but for its engine's
lag: `near` cycles on in its own field, `far` otherwise (12 R261, R262). -/
def plane (ca near far : Nat) (s : State) : State :=
  let n := if ca / 2 ^ 20 = s.actor % 512 / 16 then near else far
  s.updMe fun k => { k with
    planeDue := max k.planeDue (s.cycle + n)
    planePlaced := max k.planePlaced (s.cycle + n - (k.en .a).lag) }

/-- The state in which each member of a group has counted the cycles by which its step passes its placed cycle (12 R261). -/
def stepLateAll (g : Nat) (s : State) : State :=
  (((s.die s.myDie).group g).arrived.map fun a => a.1).foldl
    (fun u c => u.updCore c fun k => k.stepLate ((s.die s.myDie).group g).late u.cycle) s

/-- A scratchpad line address the access engine may use: aligned, in the scratchpad, no load still filling it, no access
placed earlier to come (05 R119; 06 R138, R145). -/
def LineFree (s : State) (sa : W64) : Prop :=
  s.me.heldWord .a = false ∧ sa.toNat % 128 = 0 ∧ sa.toNat < 0x40000 ∧ s.me.filling sa.toNat 128 = false

/-- The state in which a word of A reaches the scratchpad: earlier store runs have landed, one that meets it at a port in the timed
part of a leg being the loser, and the ports that its `n` bytes take serve no other access in the cycle (06 R124, R136, R138). -/
def atPad (write : Bool) (sa n : Nat) (s : State) : State :=
  s.updMe fun k => (k.landedLose (portsOf write sa n) s.cycle).padLanded.takePorts (portsOf write sa n)

/-- The state in which it has read there. -/
def readPad (sa n : Nat) (s : State) : State := (atPad false sa n s).updMe Core.padLanded

/-- A run of scratchpad words A.ALLOC and A.VALID may use (06 R148; 05 R119). -/
def WordsFree (s : State) (sa n : W64) : Prop :=
  s.me.heldWord .a = false ∧ sa.toNat % 4 = 0 ∧ sa.toNat + 4 * n.toNat ≤ 0x40000 ∧ s.me.filling sa.toNat (4 * n.toNat) = false

/-- The issue distance of A.ALLOC and A.VALID of `n` words (06 R140). -/
def wordsDistance (n : W64) : Nat := 1 + (n.toNat + 1023) / 1024

/-- The exact sum of the stored bit patterns, read signed (12 R257). -/
def storeSum (xs : List PlaneStore) : Int := (xs.map fun x => (BitVec.ofNat 64 x.val).toInt).sum

/-- The fields of a stream that walks the scratchpad without a conversion or scales (06 R131, R133). -/
def PlainPadStream (x : Stream) : Prop :=
  x.fld 1 = 0 ∧ x.fld 10 = x.fld 14 ∧ x.fld 10 ≠ 13 ∧ x.fld 11 = 0 ∧ x.fld 21 = 0

/-! ## The words of the execute engine -/

/-- The state in which a word of E has read its sources, and what they gave: one list of elements for each source, in the
order A, B, C; its accumulator tiles are read over its beats (02 R44; 07 R157, R159, R161). -/
def vecRead (i : Instr) (sh : Shape) (s : State) : List (List Nat) × State :=
  let r := (arrived .e s).me.readSources sh (s.me.vec.codes i).srcs
  (r.1, (arrived .e s).setMe (r.2.readTiles (accTiles (s.me.vec.codes i).srcs) (s.cycle + sh.beats)))

/-- The sources of a word of E can be read and its destination of `dn` elements of `dw` bytes has room: the stack holds an
entry for every naming of PS, no earlier W.RSTAT, M word or follow-on command has still to write what it names, and the
queue entries are there with SHP's format (07 R157, R160, R161, R164; 10 R226; 11 R246). -/
def VecReady (i : Instr) (sh : Shape) (dw dn : Nat) (s : State) : Prop :=
  let k := (arrived .e s).me
  let c := s.me.vec.codes i
  stackFits (top .e s) (c.srcs.filter fun x => decide (x = 22)).length 0 = true ∧ (k.vec.touchesV i && k.rstatDue) = false ∧
    k.tilesPending .e (accTiles c.srcs) s.cycle = false ∧ k.entriesReady c.srcs sh.beats = true ∧
    k.tagsMatch c.srcs sh.beats sh.fmt = true ∧ ∀ d, c.dst = some d → k.destRoom d dw dn = true

/-- The elements that are written: all with P = 0, those whose mask bit is 1 with P = 1 (07 R158). -/
def written (x : Vec) (p : BitVec 1) (rs : List (Option (Nat × Bool))) : List (Option (Nat × Bool)) :=
  (List.range rs.length).map fun j => if p = 1 ∧ x.em.getLsbD j = false then none else rs.getD j none

/-- The state with elements written to a destination, where they stand or are pushed at cycle `at_`; SAT is set where a written
one saturated (07 R158, R163). -/
def vecWrite (s : State) (p : BitVec 1) (d fmt w at_ : Nat) (rs : List (Option (Nat × Bool))) : State :=
  let ws := written s.me.vec p rs
  (if (ws.any fun r => (r.map fun v => v.2).getD false) = true then s.stick 0 else s).updMe fun k =>
    k.writeDest d fmt w (ws.map fun r => r.map fun v => v.1) at_

/-- A word of E of layout E with one destination completes as the form says, wherever its format and shape are allowed. -/
def vecCompletes (i : Instr) (x : EForm) : Prop :=
  ∀ (s : State) (sh : Shape), sh = shapeOf s.me.vec.shp → CanIssue .e i s → sh.ok = true → x.fmts sh.fmt = true →
    x.bad sh = false → VecReady i sh (x.dw sh.fmt) (x.dn sh) s →
    completes .e i (x.occ sh) s (vecWrite (vecRead i sh s).2 x.p ((s.me.vec.codes i).dst.getD 0) (x.dfmt sh.fmt)
      (x.dw sh.fmt) (s.cycle + x.lat sh) (x.f sh (vecRead i sh s).1))

/-- The form of a word that computes every element from the like elements of its sources, `d` cycles behind its occupancy. -/
def elementwise (i : Instr) (p : BitVec 1) (fmts : Nat → Bool) (occ : Shape → Nat) (d : Nat)
    (g : Nat → Nat → Nat → Nat → Nat × Bool) : EForm :=
  { i := i, p := p, fmts := fmts, occ := occ, lat := fun sh => d + occ sh
    f := fun sh xs => (List.range sh.n).map fun j =>
      some (g sh.fmt ((xs.getD 0 []).getD j 0) ((xs.getD 1 []).getD j 0) ((xs.getD 2 []).getD j 0)) }

/-- Fl, Int and FX64, as 07 R165 lists them; without Fl; and every format with an element width. -/
def flIntFx (f : Nat) : Bool := ([0, 1, 2, 3, 6, 7, 8, 9, 10, 11, 12, 14] : List Nat).contains f
def intFx (f : Nat) : Bool := ([6, 7, 8, 9, 10, 11, 12, 14] : List Nat).contains f
def everyFmt (f : Nat) : Bool := flIntFx f || f == 4 || f == 5 || f == 15

/-- E.CMP: the relation of two elements that are numbers, and what holds with a NaN (07 R172). -/
def related (c : BitVec 3) (x y : Val) : Bool :=
  if x = .nan ∨ y = .nan then c == 1 || c == 6
  else
    match c with
    | 0 => !(Val.lt false x y || Val.lt false y x)
    | 1 => Val.lt false x y || Val.lt false y x
    | 2 => Val.lt false x y
    | 3 => !Val.lt false y x
    | 4 => Val.lt false y x
    | 5 => !Val.lt false x y
    | _ => false

/-- E.MIN and E.MAX: the chosen operand's bits, a between equals; the other operand beside one NaN where NUM is 1, else the
canonical NaN (07 R170). -/
def chosen (isMax num : Bool) (f a b : Nat) : Nat :=
  let x := valueOf f a
  let y := valueOf f b
  if x = .nan then (if num = true ∧ y ≠ .nan then b else canonNan f)
  else if y = .nan then (if num = true then a else canonNan f)
  else if (if isMax then Val.lt true x y else Val.lt true y x) = true then b else a

/-- The elementwise words: mask bit, formats, occupancy and element function (07 R163, R165, R167-R177, R181). -/
def elemForm (i : Instr) : Option EForm :=
  let fl := fun f : Nat => decide (f ≤ 3)
  let slow := fun (p : BitVec 1) (g : Nat → Nat → Nat → Nat → Nat × Bool) => some
    { elementwise i p fl (fun sh => if sh.fmt = 0 then 8 * sh.beats else 2 * sh.beats) 0 g with
      lat := fun sh => if sh.fmt = 0 then 24 + 8 * sh.beats else 12 + 2 * sh.beats }
  match i with
  | .eMov _ p _ m => some (elementwise i p (if m = 0 then everyFmt else fun f => ([0, 1, 2, 3, 4, 5, 6, 7, 8, 9, 14] : List Nat).contains f)
      Shape.beats 4 fun f a _ _ =>
        if m = 0 then (a, false)
        else if f ≤ 5 then (if m = 1 then a ^^^ 2 ^ (fmtBits f - 1) else a % 2 ^ (fmtBits f - 1), false)
        else saturate f (if m = 1 then -signedOf (fmtBits f) a else (signedOf (fmtBits f) a).natAbs))
  | .eAdd _ p _ _ r => some (elementwise i p fl Shape.beats 4 fun f a b _ =>
      round (Val.add (modeOf r.toNat) (valueOf f a) (valueOf f b)) f (modeOf r.toNat))
  | .eSub _ p _ _ r => some (elementwise i p fl Shape.beats 4 fun f a b _ =>
      round (Val.add (modeOf r.toNat) (valueOf f a) (valueOf f b).neg) f (modeOf r.toNat))
  | .eMul _ p _ _ r => some (elementwise i p fl Shape.beats 6 fun f a b _ =>
      round (Val.mul (valueOf f a) (valueOf f b)) f (modeOf r.toNat))
  | .eDiv _ p _ _ r => slow p fun f a b _ => round (Val.div (valueOf f a) (valueOf f b)) f (modeOf r.toNat)
  | .eFma _ p _ _ neg r _ => some (elementwise i p fl Shape.beats 6 fun f a b c =>
      round (Val.add (modeOf r.toNat)
        (if neg = 1 then (Val.mul (valueOf f a) (valueOf f b)).neg else Val.mul (valueOf f a) (valueOf f b)) (valueOf f c))
        f (modeOf r.toNat))
  | .eSqrt _ p _ r => slow p fun f a _ _ => round (valueOf f a).sqrt f (modeOf r.toNat)
  | .eMin _ p _ _ n => some (elementwise i p (fun f => flIntFx f && (n == 0 || f == 14 || decide (f ≤ 3))) Shape.beats 4
      fun f a b _ => (chosen false (n == 1) f a b, false))
  | .eMax _ p _ _ n => some (elementwise i p (fun f => flIntFx f && (n == 0 || f == 14 || decide (f ≤ 3))) Shape.beats 4
      fun f a b _ => (chosen true (n == 1) f a b, false))
  | .eCmp _ p _ _ c => some (elementwise i p (fun f => flIntFx f && (c != 6 || f == 14 || decide (f ≤ 3))) Shape.beats 4
      fun f a b _ => (if related c (valueOf f a) (valueOf f b) = true then 2 ^ fmtBits f - 1 else 0, false))
  | .eSelect _ p _ _ _ => some (elementwise i p everyFmt Shape.beats 4 fun _ a b c => (if c = 0 then b else a, false))
  | .eIadd _ p _ _ m => some (elementwise i p intFx Shape.beats 4 fun f a b _ =>
      let v := if m = 1 ∨ m = 3 then intOf f a - intOf f b else intOf f a + intOf f b
      if m = 0 ∨ m = 1 then ((v % 2 ^ fmtBits f).toNat, false) else saturate f v)
  | .eImul _ p _ _ m =>
      if m = 3 then none
      else some (elementwise i p (fun f => decide (6 ≤ f ∧ f ≤ 12)) Shape.beats 5 fun f a b _ =>
        let v := intOf f a * intOf f b
        if m = 0 then ((v % 2 ^ fmtBits f).toNat, false)
        else if m = 1 then ((v / 2 ^ fmtBits f % 2 ^ fmtBits f).toNat, false) else saturate f v)
  | .eLogic _ p _ _ m => some (elementwise i p everyFmt Shape.beats 4 fun f a b _ =>
      (match m with
        | 0 => a &&& b
        | 1 => a ||| b
        | 2 => a ^^^ b
        | 3 => a &&& ((2 ^ fmtBits f - 1) ^^^ b)
        | _ => (2 ^ fmtBits f - 1) ^^^ a, false))
  | .eShift _ p _ _ m => some (elementwise i p intFx Shape.beats 4 fun f a b _ =>
      (match m with
        | 0 => if b < fmtBits f then a * 2 ^ b % 2 ^ fmtBits f else 0
        | 1 => if b < fmtBits f then a / 2 ^ b else 0
        | 2 => (signedOf (fmtBits f) a / 2 ^ min b (fmtBits f - 1) % 2 ^ fmtBits f).toNat
        | _ => ((BitVec.ofNat (fmtBits f) a).rotateLeft b).toNat, false))
  | .eSfn _ p _ g => some (elementwise i p (fun f => decide (1 ≤ f ∧ f ≤ 3)) (fun sh => 2 * sh.beats) 10 fun f a _ _ =>
      round (sfn g.toNat (valueOf f a)) f .rne)
  | _ => none

/-- Results given row by row. -/
def byRows (sh : Shape) (g : Nat → Nat → Option (Nat × Bool)) : List (Option (Nat × Bool)) :=
  (List.range sh.rows).flatMap fun r => (List.range sh.cols).map fun c => g r c

/-- The least k with 2^k at least n, up to 2^11. -/
def logUp (n : Nat) : Nat := ((List.range 11).filter fun q => decide (2 ^ q < n)).length

/-- The reduction of some elements: the canonical tree's sum, the greatest or the least, a NaN canonical (03 R54, R63; 07 R178). -/
def reduced (o : BitVec 2) (f : Nat) (xs : List Nat) : Nat × Bool :=
  if o = 0 then canonicalSum f xs
  else (xs.foldl (fun a b => chosen (o == 1) false f a b) (xs.headD 0), false)

/-- The words of E that move elements between places: wide products, E.RED, E.XPOSE, E.PERM and E.TPACK (07 R163, R165,
R175, R178-R180; 08 R194). -/
def movingForm (i : Instr) : Option EForm :=
  match i with
  | .eImul _ p _ _ 3 => some
      { i := i, p := p, fmts := fun f => ([6, 7, 8, 10, 11] : List Nat).contains f, occ := fun sh => 2 * sh.beats
        lat := fun sh => 5 + 2 * sh.beats
        dfmt := fun f => f + 1, dw := fun f => 2 * fmtBytes f
        f := fun sh xs => (List.range sh.n).map fun j => some
          ((intOf sh.fmt ((xs.getD 0 []).getD j 0) * intOf sh.fmt ((xs.getD 1 []).getD j 0) % 2 ^ (2 * fmtBits sh.fmt)).toNat,
            false) }
  | .eRed _ p _ x o => some
      { i := i, p := p, fmts := flIntFx, occ := Shape.beats
        lat := fun sh => 6 + sh.beats + 2 * logUp (if x = 0 then sh.cols else sh.rows)
        f := fun sh xs => byRows sh fun r c =>
          if x = 0 then
            if c = 0 then some (reduced o sh.fmt ((List.range sh.cols).map fun j => (xs.getD 0 []).getD (r * sh.cols + j) 0))
            else none
          else if r = 0 then some (reduced o sh.fmt ((List.range sh.rows).map fun j => (xs.getD 0 []).getD (j * sh.cols + c) 0))
          else none }
  | .eXpose _ p _ => some
      { i := i, p := p, fmts := everyFmt, occ := Shape.beats, lat := fun sh => 6 + 2 * sh.beats
        f := fun sh xs => (List.range sh.cols).flatMap fun c => (List.range sh.rows).map fun r =>
          some ((xs.getD 0 []).getD (r * sh.cols + c) 0, false) }
  | .ePerm _ p _ _ m _ sub => some
      { i := i, p := p, fmts := everyFmt, occ := Shape.beats, lat := fun sh => 5 + sh.beats
        bad := fun sh => if m = 0 then false else if m = 1 then decide (sh.rows ≤ sub.toNat) else decide (sh.cols ≤ sub.toNat)
        f := fun sh xs => byRows sh fun r c =>
          let a := fun j => (xs.getD 0 []).getD j 0
          let j := (xs.getD 1 []).getD (r * sh.cols + c) 0
          some (if m = 0 then (if j < sh.n then a j else (xs.getD 2 []).getD (r * sh.cols + c) 0)
            else if m = 1 then a (sub.toNat * sh.cols + c)
            else if m = 2 then a (r * sh.cols + sub.toNat)
            else a (r * sh.cols + (c + sub.toNat) % sh.cols), false) }
  | .eTpack _ p _ => some
      { i := i, p := p, fmts := fun f => ([1, 2, 3, 6] : List Nat).contains f, occ := Shape.beats
        lat := fun sh => 6 + sh.beats
        dfmt := fun _ => 10, dw := fun _ => 1, dn := fun sh => (sh.n + 4) / 5
        f := fun sh xs => (List.range ((sh.n + 4) / 5)).map fun j =>
          let t := fun q => if 5 * j + q < sh.n then tritOf (valueOf sh.fmt ((xs.getD 0 []).getD (5 * j + q) 0)) else (0, false)
          some (ternEncode ((List.range 5).map fun q => (t q).1), (List.range 5).any fun q => (t q).2) }
  | _ => none

/-- The bit EM[j] after E.MASK of form `f` (08 R195): `src` are the elements of its source and `v`, `u` the entries it pops. -/
def maskBit (f : BitVec 3) (sh : Shape) (em : BitVec 1024) (src : List Nat) (u v : W64) (j : Nat) : Bool :=
  if f = 4 then true
  else if sh.n ≤ j then em.getLsbD j
  else match f with
    | 0 => src.getD j 0 != 0
    | 1 => em.getLsbD j && src.getD j 0 != 0
    | 2 => em.getLsbD j || src.getD j 0 != 0
    | 3 => !em.getLsbD j
    | _ => decide (j / sh.cols < u.toNat) && decide (j % sh.cols < v.toNat)

/-! ## The words of the matrix engine -/

/-- The value of a row, column or depth mask over `w` bits: all ones stands for every bit, and no bit from `w` up may be
set otherwise (09 R206). -/
def maskIs (v : W64) (w r : Nat) : Prop := (v = BitVec.allOnes 64 ∧ r = 2 ^ w - 1) ∨ (v.toNat < 2 ^ w ∧ r = v.toNat)

/-- Slots `a` to `a + n − 1` exist, and each is claimed, for writing where `w` holds (09 R199). -/
def SlotsUsable (s : State) (a n : Nat) (w : Bool) : Prop :=
  a + n ≤ 256 ∧ ∀ j, j < n → s.me.claim (a + j) ≠ 0 ∧ (w = true → s.me.claim (a + j) = 1)

/-- No copy and no collective still uses a slot of a run, and no epilogue has still to write it (09 R199-R201, R216). -/
def SlotsIdle (s : State) (a n : Nat) : Prop :=
  (∀ j, j < n → s.me.slotRead (a + j) = false ∧ s.me.slotWritten (a + j) = false) ∧ s.me.epiDue a n = false

/-- No follow-on command of an earlier copy may still use the planes, or holds the array (11 R246). -/
def PlanesFree (s : State) : Prop := s.me.followHolds [] true s.cycle = false

/-- Tiles that an M word may write: no earlier E or W word has still to read them, and no earlier follow-on command to write
them (07 R161, 10 R226, 11 R246). -/
def TilesFree (s : State) (tiles : List Nat) : Prop :=
  s.me.tileHeld tiles s.cycle = false ∧ s.me.followHolds tiles false s.cycle = false

/-- One tile, or the pair that begins with it. -/
def tilesOf (pair : Bool) (k : Nat) : List Nat := if pair then [k, k + 1] else [k]

/-- A byte of the accumulators that belongs to none of some tiles. -/
def offTiles (tiles : List Nat) (a : Nat) : Prop := ∀ t ∈ tiles, a / 1024 ≠ t

/-- What M.MMA and M.TMMA multiply (09 R206-R209): accumulator format, depth, depths that one bit of the depth mask governs,
slots of A, and an element of A in the slots' bytes. -/
structure Product where
  pair : Bool
  acc : Nat
  depth : Nat
  per : Nat
  slots : Nat
  aval : List Byte → Nat → Nat → Val

/-- The product of a word on an active plane, where the plane suits it (09 R206, R209). -/
def productOf (i : Instr) (p : Plane) : Option Product :=
  let form := fun (acc depth slots fa : Nat) => some (Product.mk (acc == 0) acc depth 1 slots fun bs r d =>
    valueOf fa (leNat ((bs.drop ((r * depth + d) * fmtBytes fa)).take (fmtBytes fa))))
  match i with
  | .mMma f _ =>
      if f = 0 then (if p.fmt = 2 then (if p.sparse then form 1 32 2 2 else form 1 16 1 2) else none)
      else if f = 1 then (if p.fmt = 3 then (if p.sparse then form 1 32 2 3 else form 1 16 1 3) else none)
      else if p.sparse then none
      else if f = 2 then (if p.fmt = 4 ∨ p.fmt = 5 then form 1 32 1 4 else none)
      else if f = 3 then (if p.fmt = 4 ∨ p.fmt = 5 then form 1 32 1 5 else none)
      else if f = 4 then (if p.fmt = 6 then form 8 32 1 6 else none)
      else if f = 5 then (if p.fmt = 1 then form 1 8 1 1 else none)
      else (if p.fmt = 0 then form 0 4 1 0 else none)
  | .mTmma _ => if p.fmt = 13 then some (Product.mk false 8 128 4 4 fun bs r d =>
      valueOf 6 (bs.getD (r * 128 + d) 0).toNat) else none
  | _ => none

/-- Bits of the accumulator element (r, c) of a tile or a pair (09 R202). -/
def accBits (m : Mat) (k : Nat) (pair : Bool) (r c : Nat) : Nat :=
  if pair then leNat ((List.range 8).map fun q => SMap.get 0 m.acc (1024 * (k + r / 8) + (r % 8 * 16 + c) * 8 + q))
  else leNat ((List.range 4).map fun q => SMap.get 0 m.acc (1024 * k + (r * 16 + c) * 4 + q))

/-- The element (r, c) after a product: the old element and the enabled products whose B element stands, added exactly and
rounded once; whether it saturated (03 R62; 09 R208). -/
def productElem (x : Product) (p : Plane) (m : Mat) (k dm : Nat) (bs : List Byte) (r c : Nat) : Nat × Bool :=
  let terms := (List.range x.depth).filterMap fun d =>
    if dm.testBit (d / x.per) then (p.bval d c).map fun b => Val.mul (x.aval bs r d) b else none
  round (terms.foldl (Val.add .rne) (valueOf x.acc (accBits m k x.pair r c))) x.acc .rne

/-- The word, its tile and its occupancy (09 R206, R209). -/
def productWord : Instr → Option (Nat × Nat)
  | .mMma f k => some (k.toNat, if f = 5 then 8 else if f = 6 then 16 else 4)
  | .mTmma k => some (k.toNat, 4)
  | _ => none

/-- The element of linear index `j` of an epilogue, none outside the masks: the accumulator's element times its scale,
rounded once (09 R213). -/
def epiElem (k : Core) (tile acc df rm cm kind : Nat) (sc : W64) (j : Nat) : Option (Nat × Bool) :=
  let x := valueOf (if acc = 0 then 1 else if acc = 1 then 8 else 0) (accBits k.mat tile (acc == 2) (j / 16) (j % 16))
  let scale := fun q => valueOf 15 (SMap.get (0 : Byte) k.mat.slots (512 * sc.toNat + q)).toNat
  if rm.testBit (j / 16) && cm.testBit (j % 16) then
    some (round (if kind = 0 then x else if kind = 1 then Val.mul x (valueOf 1 (sc.toNat % 2 ^ 32))
      else Val.mul x (Val.mul (scale (j / 16)) (scale (16 + j % 16)))) df .rne)
  else none

/-! ## The words of the copy engine and the row engine -/

/-- The copy a K.COPY of the acting core submits from `sb` to `db`, before it is granted (11 R229, R234, R238, R239). -/
def copyOf (s : State) (sb db : W64) : Copy :=
  let x := s.me.kop
  { geo := x.geo, convS := x.convS, convD := x.convD, sbase := sb, dbase := db
    cnt := if 128 ≤ x.geo.sig then x.cntVa else 0, inc := x.cntInc, follow := x.follow
    place := (s.me.en .k).place, tpc := (s.me.en .k).pc, reads := [], writes := [], pages := [], pins := []
    tag := if s.me.leg.timed then some (128 + s.me.leg.copies) else none, readAt := s.cycle + 2 }

/-- The checks 2 to 6 of a submission pass (11 R234). -/
def CopyAllowed (c : Copy) (s : State) : Prop :=
  c.combines s = true ∧ c.misaligned = none ∧ c.outOfRange (s.die s.myDie) = none ∧ c.slotBad s.me = none ∧
    c.planeBad (s.die s.myDie) s.actor = none

/-- A word of K that pops entries and sets the copy engine's registers (11 R230, R233, R239): how many entries it pops, and
the registers after it, where the values are allowed. Operands stand PS0 first. -/
def kopForm (i : Instr) : Option (Nat × (List W64 → Kop → Option Kop)) :=
  let n := fun (v : List W64) j => (v.getD j 0).toNat
  let conv := fun (v : List W64) (f : KConv → Kop) =>
    if bits (v.getD 3 0) 0 8 = 0 ∧ bits (v.getD 2 0) 32 32 = 0 ∧ bits (v.getD 1 0) 32 32 = 0 then
      some (f { geom := v.getD 4 0, win := v.getD 3 0, pad := v.getD 2 0, nb := v.getD 1 0, pv := v.getD 0 0 })
    else none
  match i with
  | .kGeoDim k => some (3, fun v x =>
      if 1 ≤ n v 2 ∧ n v 2 < 2 ^ 32 then
        some { x with geo := { x.geo with
          ext := x.geo.ext.set k.toNat (n v 2)
          sstr := x.geo.sstr.set k.toNat (v.getD 1 0)
          dstr := x.geo.dstr.set k.toNat (v.getD 0 0) } }
      else none)
  | .kGeoRank => some (2, fun v x =>
      if 1 ≤ n v 1 ∧ n v 1 ≤ 8 ∧ (n v 0 = 1 ∨ n v 0 = 2 ∨ n v 0 = 4 ∨ n v 0 = 8) then
        some { x with geo := { x.geo with
          n := n v 1
          eb := n v 0 } }
      else none)
  | .kGeoSpace => some (3, fun v x =>
      if n v 2 ≤ 3 ∧ n v 1 ≤ 3 ∧ n v 0 ≤ 3 then
        some { x with geo := { x.geo with
          ss := n v 2
          ds := n v 1
          cls := n v 0 } }
      else none)
  | .kGeoSig => some (1, fun v x => if n v 0 < 256 then some { x with geo := { x.geo with sig := n v 0 } } else none)
  | .kGeoClear => some (0, fun _ x => some { x with geo := {} })
  | .kConvSrc => some (5, fun v x => conv v fun c => { x with convS := c })
  | .kConvDst => some (5, fun v x => conv v fun c => { x with convD := c })
  | .kCnt => some (2, fun v x =>
      if n v 1 % 8 = 0 ∧ 1 ≤ n v 0 ∧ n v 0 < 2 ^ 32 then some { x with
        cntVa := v.getD 1 0
        cntInc := v.getD 0 0 } else none)
  | _ => none

/-- The state once a copy whose elements are written has made its counter add, flag increment and unpinning, or, with a
follow-on command, once the command may start (11 R237, R242). -/
def copyDone (s : State) (j : Nat) (c : Copy) : State :=
  let s1 := (c.addCounter s).1
  let s2 := if c.geo.sig / 64 % 2 = 1 then s1.updKop fun x => { x with
    flags := SMap.set 0 x.flags (c.geo.sig % 64) (min (SMap.get 0 x.flags (c.geo.sig % 64) + 1) (2 ^ 32 - 1)) } else s1
  if c.follow = none then (s2.unpinAll c.pins).updKop fun x => { x with copies := x.copies.eraseIdx j }
  else s2.updKop fun x => { x with copies := x.copies.set j { c with landed := true } }

/-- K.FLAG's command word: operation, amount (11 R243). -/
def flagWord (op a : Nat) : W64 := BitVec.ofNat 64 (op * 2 ^ 62 + a)

/-- Element `j` of row `i` of W.ROWS's result, as the bytes it stands in (10 R219, R221). -/
def rowResult (k : Core) (x : RowsArgs) (mode fmt i j : Nat) : List Byte :=
  let xs := (List.range x.len).map fun q => valueOf fmt (leNat (k.padBytes (x.src + i * x.stride + q * x.eb) x.eb))
  leBytes (round ((rowVals mode xs (valueOf 1 x.p)).getD j .nan) fmt .rne).1 x.eb

/-- The acting core's W.ROWS over some cycles in which nothing else takes place. -/
def rowsAfter : Nat → State → State
  | 0, s => s
  | n + 1, s => rowsAfter n { (s.updMe fun k => { k with ports := [] }).rowsStep with cycle := s.cycle + 1 }

/-- The four statistics of a row of an accumulator tile under a column mask: the greatest element, the canonical sum, that
of the squares, and the count (10 R225). -/
def rowStatistic (m : Mat) (fmt k r cm q : Nat) : Nat :=
  let el := fun c : Nat => valueOf 1 (round (valueOf fmt (accBits m k false r c)) 1 .rne).1
  let sel := (List.range 16).map fun c => if cm.testBit c then some (el c) else none
  (round (match q with
    | 0 => (sel.filterMap id).foldl maxVal (.inf true)
    | 1 => treeVal sel
    | 2 => treeVal (sel.map fun v => v.map fun y => valueOf 1 (round (Val.mul y y) 1 .rne).1)
    | _ => Val.ofInt (sel.filterMap id).length) 1 .rne).1

/-! ## The words of the far engine -/

/-- A word of F that sends one operation (14 R285, R296-R300): how many entries it pops, the place of its target among them,
the target's alignment, whether it reads, writes and needs an aperture's RA bit, its alias class, whether it may stand in
the timed part of a leg, and whether the engine waits for its reply. -/
structure FarForm where
  pops : Nat
  pos : Nat
  align : Nat
  read : Bool
  write : Bool
  ra : Bool
  cls : Nat
  timed : Bool
  block : Bool

/-- The words that send one operation. -/
def farForm : Instr → Option FarForm
  | .fAmo _ t => some ⟨2, 1, if t = 0 ∨ t = 2 then 4 else 8, true, true, true, 0, true, false⟩
  | .fAmoR _ t => some ⟨2, 1, if t = 0 ∨ t = 2 then 4 else 8, true, true, true, 0, true, true⟩
  | .fCas w => some ⟨3, 2, if w = 0 then 4 else 8, true, true, true, 0, true, true⟩
  | .fEnq => some ⟨2, 1, 16, true, true, true, 0, false, false⟩
  | .fEnqR => some ⟨2, 1, 16, true, true, true, 0, false, true⟩
  | .fChase _ _ _ => some ⟨2, 1, 8, true, false, true, 0, false, true⟩
  | .fRld c _ z => some ⟨1, 0, 2 ^ z.toNat, true, false, false, c.toNat, true, true⟩
  | _ => none

/-- What else a word asks of its operands: F.ENQ's node is aligned, F.CHASE's head is not 0, no combining-buffer entry serves
an F.RLD (14 R292, R298-R300). -/
def FarFits (i : Instr) (v : List W64) (s : State) : Prop :=
  match i with
  | .fEnq | .fEnqR => (v.getD 0 0).toNat % 8 = 0
  | .fChase _ _ _ => v.getD 1 0 ≠ 0
  | .fRld _ _ z => ∀ e, s.me.combOf (v.getD 0 0) = some e → e.serve (v.getD 0 0) (2 ^ z.toNat) = none
  | _ => True

/-- What a word of F that sends one operation stands on: it can issue, its operands are there and aligned, it does not wait
for a reply, and its target passes the checks of its own core, at `t` in the state `s2` (14 R285). -/
def FarSends (i : Instr) (x : FarForm) (v : List W64) (s s1 s2 : State) (t : FarTo) : Prop :=
  farForm i = some x ∧ CanIssue .f i s ∧ (arrived .f s).me.farWaits = false ∧ v = (top .f s).take x.pops ∧ v.length = x.pops ∧
    (s.me.leg.timed = true → x.timed = true) ∧ (v.getD x.pos 0).toNat % x.align = 0 ∧ FarFits i v (arrived .f s) ∧
    farTo s1 (v.getD x.pos 0) x.read x.write x.ra = .ok t s2

/-- The engine stands at its word until the reply comes: its stack is as it was (14 R302). -/
def waitsF (i : Instr) (s e : State) : Prop :=
  exec i s = .next ((e.setStack .f (top .f s)).updMe fun k => k.updEn .f fun x => { x with nextIssue := s.cycle + 1 })

/-- The new value of F.AMO: the sum, the lesser, the greater, a logic function, or the operand itself (14 R290). -/
def amoResult (o : BitVec 3) (t : BitVec 2) (old v : Nat) : Nat :=
  let f := if t = 2 then 1 else 0
  let w := if t = 0 then 32 else 64
  if t.toNat < 2 then
    match o with
    | 0 => (old + v) % 2 ^ w
    | 1 => if signedOf w old ≤ signedOf w v then old else v
    | 2 => if signedOf w v ≤ signedOf w old then old else v
    | 3 => old &&& v
    | 4 => old ||| v
    | 5 => old ^^^ v
    | _ => v
  else
    match o with
    | 0 => (round (Val.add .rne (valueOf f old) (valueOf f v)) f .rne).1
    | 1 => chosen false false f old v
    | 2 => chosen true false f old v
    | _ => v

/-- The operation has come and stands ready to be served by Wallower `w` (13 R274, R275; 14 R287-R289, R294). -/
def Servable (s : State) (w : BitVec 2) (k : Nat) (o : FarOp) : Prop :=
  s.me.far[k]? = some o ∧ (∃ c, o.ready = some c ∧ c ≤ s.cycle) ∧ o.served = false ∧ o.peer = none ∧ o.logged = false ∧
    o.by_ = none ∧ (∀ x, s.wallowerOf o = some x → x = w.toNat) ∧ s.unitFree o.die w.toNat = true ∧ s.farTurn k o = true ∧
    s.arrivalTurn o = true ∧ s.timedTurn o = true ∧ s.logBefore o = false ∧ s.tokenHolds o = false

/-- The state once Wallower `w` has served an operation of the acting core, with the effect in `t` and a result: the Wallower is
taken for a cycle, and the reply is on its way, over the die network or as a packet of the station at the target (14 R287, R289,
R302). -/
def servedAs (s t : State) (w : BitVec 2) (o : FarOp) (r : List W64) : State :=
  let u := (t.updDie o.die fun d => { d with wallower := SMap.set 0 d.wallower w.toNat (t.cycle + 1) }).updCore s.actor fun c =>
    { c with far := c.far.map fun x => if x = o then
      { o with served := true, result := r, report := none
               back := if o.die = s.actor / 512 then some (t.cycle + o.way) else none } else x }
  if o.die = s.actor / 512 then u
  else u.updDie o.die fun d => d.queuePacket
    { core := s.actor, place := o.place, reply := true, dest := stationOf (s.actor / 512), from_ := t.cycle
      placed := o.placed, leg := if u.inLeg o then o.leg else none, placedFrom := t.cycle - o.lag }

/-- Where the target of an operation lies, as its own core found it (14 R285). -/
def placeAt (o : FarOp) (tier off : Nat) (klock : Bool) : At := { die := o.die, va := o.va, tier := tier, off := off, klock := klock }

/-- A sketch word (13 R269): pops, the places of its sketches, the first its home, the place and size of its values in
memory and whether it reads them, whether it writes the sketch, the place of its count. -/
structure SketchForm where
  pops : Nat
  sks : List Nat
  vals : Option (Nat × Nat × Bool)
  write : Bool
  count : Option Nat

/-- The sketch words that send one operation and go on. -/
def sketchForm : Instr → Option SketchForm
  | .fSkup _ => some ⟨3, [2], none, true, none⟩
  | .fSkupN d => some ⟨4, [3], some (0, if d = 0 then 4 else 8, true), true, some 1⟩
  | .fSkqN i => some ⟨4, [3], some (0, if i = 0 then 4 else 8, false), false, some 1⟩
  | .fSkadd => some ⟨2, [1, 0], none, true, none⟩
  | _ => none

/-! ## Collectives, links and legs -/

/-- Every value of a field of a layout register that the field alone allows (15 R305). -/
def layoutValue (f : Nat) (v : W64) : Prop :=
  match f with
  | 0 => bits v 0 5 < 16 ∧ bits v 14 2 ≠ 3 ∧ bits v 22 42 = 0
  | 1 | 3 => True
  | 2 => bits v 0 2 = 0
  | 4 => v.toNat < 2 ^ 32
  | _ => v.toNat < 2 ^ 35 ∧ bits v 32 3 ≤ 4

/-- The collective an F.COLL of the acting core files (15 R307, R311). -/
def collOf (s : State) (src dst : Layout) (e : BitVec 1) (cs : W64) (p : Place) (ranks : List (Nat × Nat))
    (ps : List CopyPage)
    (pins : List PageKey) : Coll :=
  { src := src, dst := dst, epi := e == 1, cs := cs, csDie := p.die, csTier := p.tier, csOff := p.off, csKlock := p.klock
    csPeer := p.peer, ranks := ranks, me := (ranks.findIdx? fun r => r == (s.package % 2 ^ 10, s.actor)).getD 0
    ord := 0, tag := none, place := (s.me.en .f).place, pins := pins
    reads := if e = 1 then [] else Layout.slots src, writes := Layout.slots dst, pages := ps, task := s.me.task }

/-- A flit that its receiver accepts: its version's key and its tag fit, and it is the next one (14 R280, R281). -/
def Accepted (f : Flit) (x : Link) (l : Nat) : Prop :=
  f.kv ∈ x.rxKeys ∧ f.atag = Config.flitTag f.kv l f.header f.payload ∧
    (f.kv = x.rxKv ∧ f.seq = x.rxSeq ∨ f.kv = (x.rxKv + 1) % 4 ∧ f.seq = 0) ∧ x.asking = false

/-- The flits that a sender still holds and its receiver has not accepted (14 R281). -/
def unaccepted (x : Link) : List Flit := x.held.filter fun f => !f.accepted x

/-! ## Memory management, tasks and the package -/

/-- DG_TLB_INV after a command: its writable fields, and BUSY or REFUSED in bit 63 (17 R347). -/
def tlbInvDone (s : State) (w : RegWrite) (refused : Bool) : State :=
  s.updDie w.die fun d => d.setReg 336 ((w.val &&& 0xF3) ||| (if refused then BitVec.ofNat 64 (2 ^ 63) else 0))

/-- Whether a command of DG_TLB_INV covers a translation: one page of SPACE, SPACE, or all (17 R347). -/
def tlbCovers (i : Instr) (s : State) (w : RegWrite) (e : TlbEntry) : Bool :=
  match i with
  | .tlbInvPage => decide (e.space = bits w.val 4 4) && decide (e.base = ((s.die w.die).reg 337).toNat / pageSize e.size)
  | .tlbInvSpace => decide (e.space = bits w.val 4 4)
  | _ => true

/-- The kind of register write of a command of DG_TLB_INV. -/
def tlbKind : Instr → Option RegKind
  | .tlbInvPage => some .tlbPage
  | .tlbInvSpace => some .tlbSpace
  | .tlbInvAll => some .tlbAll
  | _ => none

/-- A page that a command of DG_TLB_INV covers is held: pinned, or of a running or committed leg (17 R347). -/
def tlbHeld (i : Instr) (s : State) (w : RegWrite) : Bool :=
  (match i with
    | .tlbInvPage => (match (s.die w.die).walk (bits w.val 4 4) ((s.die w.die).reg 337) with
        | .leaf x => s.leafHeld w.die x
        | _ => false)
    | .tlbInvSpace => (s.die w.die).spacePinned (bits w.val 4 4)
    | .tlbInvAll => !(s.die w.die).locks.isEmpty
    | _ => false) ||
    (((s.die w.die).tlb ++ (s.cores.filter fun p => decide (p.1 / 512 = w.die)).flatMap fun p => p.2.tlb).any fun e =>
      tlbCovers i s w e && s.leafHeld w.die e.leaf) ||
    (s.legPages w.die).any (tlbCovers i s w)

/-- The acting core once its task has left it for frame `f` of its launch (18 R380, R385, R386). -/
def savedAs (s : State) (t : TaskRef) (why : SaveWhy) (f : Nat) : State :=
  let s1 := s.withdraw
  let s2 := (s1.updDie t.die fun d => { d with
    saved := d.saved ++ [{ launch := t.launch, frame := f, left := s1.actor, bound := s1.coScheduled, core := s1.me.context }] })
  let s3 := s2.setTask t (match why with
    | .trap => .trapped f s1.actor
    | .page va _ => .paged f s1.actor va
    | _ => .saved f s1.actor false)
  (match why with
    | .yield | .preempt => s3.requeue t
    | _ => s3).updMe Core.vacated

/-- The port takes commands (19 R395-R397). -/
def PortOpen (s : State) : Prop := s.on = true ∧ (SMap.get 0 s.pk 0).getLsbD 24 = true

/-- A command whose effect is `e` is answered with data (19 R395). -/
def answered (e : State) (data : List Byte) : State := { e with replies := e.replies ++ [{ ok := true, data := data }] }

/-- A command is refused, with no cause (19 R395). -/
def turnedAway (s : State) : State := { s with replies := s.replies ++ [{ ok := false, cause := none }] }

/-- The extent of a MEMRD or MEMWR is a run of 8 to 4,096 bytes of a tier of a die, ready and in FREE mode, and no controller
holds it for a leg (19 R394; 17 R358). -/
def PortExtent (s : State) (die tier off n : Nat) : Prop :=
  die < 8 ∧ tier < 2 ∧ 8 ≤ n ∧ n ≤ 4096 ∧ off + n ≤ tierSize tier ∧ s.notReady die tier off n = false ∧
    s.waits die tier off n = false

/-- Lifecycle moves one way: BLANK to OWNED, OWNED to DEPLOYED or RETURNED, DEPLOYED to RETURNED (19 R400). -/
def lifeStep (a b : Nat) : Prop := (a = 0 ∧ b = 1) ∨ (a = 1 ∧ (b = 2 ∨ b = 3)) ∨ (a = 2 ∧ b = 3)

/-! ## The machine as a whole -/

/-- The tag code of the engine whose word an instruction is; none for an event or a command (02 R25). -/
def tagOfInstr (i : Instr) : Option Nat := (encodeNat i).map fun p => p.2 / 2 ^ (16 * p.1 - 3)

/-- The acting core after a trap: the trap registers hold the cause with the engine's code, the address and the value; what
it waited for is given up, but an acquire or an arrival at a step that it has sent goes with the save or the kill; no word issues
any more, and the task is killed where the trap is fatal, saved where it is not (18 R378, R379; 16 R328; 12 R263). -/
def trapped (s : State) (tag addr : Nat) (c : Cause) (tval : W64) : State :=
  s.updMe fun k => { k with
    cf := { k.cf with
      cause := BitVec.ofNat 64 (256 * tag + c.code)
      tpc := BitVec.ofNat 64 (addr % 2 ^ 14)
      tval := tval }
    walks := []
    swait := (match k.swait with
      | .acquire _ _ false | .step _ _ false _ => k.swait
      | _ => .none)
    kop := { k.kop with
      walked := []
      poll := none }
    collPages := []
    trips := []
    run := if c = .integ ∨ k.leg.timed = true ∨ k.handle = false then .killing else .saving .trap
    trapAt := s.cycle }

/-- The value a trap takes where its cause gives none: the number of the repetition under E.REP, else 0 (07 R184). -/
def plainValue (s : State) (t : Engine) : W64 :=
  match s.me.repFor t with
  | some r => BitVec.ofNat 64 r.k
  | none => 0

/-- Every memory of the package is in its one form: addresses rising, nothing listed that an unlisted address reads as. -/
def MemoryCanonical (s : State) : Prop := ∀ d, Memory.wf (s.die d).mem = true

/-- The hash masks of a die name every cell of the fast tier once (17 R353). -/
def CellsDistinct (d : Die) : Prop := ∀ a b, d.cellOf a = d.cellOf b → a = b

/-- After a store of `bs` at an offset of a tier of a die, exactly those bytes have changed. -/
def OnlyStored (s t : State) (die tier off : Nat) (bs : List Byte) : Prop :=
  ∀ d u a, u < 2 → (t.die d).byteAt u a =
    if d = die ∧ u = tier ∧ off ≤ a ∧ a < off + bs.length then bs.getD (a - off) 0 else (s.die d).byteAt u a

/-- Words of C that act on the stack, the scalar registers and CF_STATUS alone. -/
def plainControl : Instr → Bool
  | .cGetX _ | .cGetP _ | .cGetPmask | .cGetLidx _ | .cPutX _ | .cPutP _ | .cPutPmask | .cAdd | .cAddImm _ | .cSub
  | .cSubImm _ | .cAnd | .cAndImm _ | .cOr | .cOrImm _ | .cXor | .cXorImm _ | .cMul | .cMulh | .cMulhu | .cDiv _ | .cRem _
  | .cDivrem _ | .cShift _ | .cBitop _ | .cCmp _ | .cSetp _ _ | .cSel _ | .cMinmax _ | .cPredCombine _ _ | .cPredSet _ _ => true
  | _ => false

/-- Words of E. -/
def executeWord (i : Instr) : Bool := tagOfInstr i == some 2

/-- The word that an engine stands at is next to issue: the engine may act, no engine of a lower tag may, and the word's row
is loaded (02 R29-R38). -/
def AtWord (c : Core) (t : Engine) (cycle a : Nat) (ws : List Half) : Prop :=
  c.run = .running ∧ c.halted = false ∧ c.due t cycle = true ∧ (∀ u, u.tag < t.tag → c.due u cycle = false) ∧
    (c.en t).endWait = false ∧ c.text.words a (c.text.lenAt a) = some ws

/-! ## Parts of statements -/

/-- C.BR, C.CALL and C.RET: the condition chooses the target or the following word, the return stack and the loop stack
change as the rules say, and C continues at the chosen address (04 R70, R80-R82, R85). -/
def ControlTransfer : Prop :=
  ∀ (s : State), s.me.steerFull = false →
    (∀ (i : Instr) (o : BitVec 13) (p : Nat) (taken : Bool) (target : Nat), branchForm s i = some (o, p, taken) →
      inText s o = some target → p ≤ (s.stack .c).length →
      exec i s = .next (steered s i (if taken then target else (s.me.en .c).pc + 2)
        ((s.setStack .c ((s.stack .c).drop p)).updCtl fun r =>
          { r with loops := leaveLoops r.ret.length (if taken then target else (s.me.en .c).pc + 2) r.loops }))) ∧
    (∀ (o : BitVec 13) (target : Nat), inText s o = some target → s.me.ctl.ret.length < 16 →
      exec (.cCall o) s = .next (steered s (.cCall o) target
        (s.updCtl fun r => { r with ret := (((s.me.en .c).pc + 2) % 2 ^ 14) :: r.ret }))) ∧
    (∀ (a : Nat) (rest : List Nat), s.me.ctl.ret = a :: rest →
      exec .cRet s = .next (steered s .cRet a
        (s.updCtl fun r => { r with ret := rest, loops := r.loops.filter fun e => e.depth ≠ rest.length + 1 })))

/-- C.LOOP makes an entry with the body's bounds, iteration 0 and the count, a count of 0 running once; a body of no words
makes none (04 R82, R83). -/
def ControlLoops : Prop :=
  ∀ (s : State) (o : BitVec 13), (s.me.en .c).pc + o.toNat < s.me.text.len → (o = 1 ∨ s.me.ctl.loops.length < 4) →
    (∀ (v : W64) (rest : List W64), CanIssue .c (.cLoop o) s → top .c s = v :: rest →
      completes .c (.cLoop o) 1 s (looped o v ((arrived .c s).setStack .c rest))) ∧
    (∀ n : BitVec 6, CanIssue .c (.cLoopCount n o) s →
      completes .c (.cLoopCount n o) 1 s (looped o (n.setWidth 64) (arrived .c s)))

/-- C.CSR pushes the register; C.CSW changes a CF register at once and posts any other write (04 R90-R92, R94, R95). -/
def ConfigurationRegisters : Prop :=
  ∀ (s : State) (g : BitVec 6) (i : BitVec 13) (v : W64),
    (CanIssue .c (.cCsr g i) s → readReg (arrived .c s) g.toNat i.toNat = some v → (top .c s).length < 8 →
      completes .c (.cCsr g i) (regIssue g.toNat) s ((arrived .c s).setStack .c (v :: top .c s))) ∧
    (∀ rest : List W64, CanIssue .c (.cCsw g i) s → top .c s = v :: rest →
      (readReg (arrived .c s) g.toNat i.toNat).isSome = true →
      (g = 0 → i ≠ 2 → i ≠ 8 →
        completes .c (.cCsw g i) 2 s
          (((arrived .c s).setStack .c rest).updMe fun k => { k with cf := k.cf.write i.toNat v s.cycle })) ∧
      (g = 0 → i = 2 →
        completes .c (.cCsw g i) 2 s
          { ((arrived .c s).setStack .c rest).updMe fun k =>
              { k with cf := { k.cf.write 2 v s.cycle with older := k.cf.mode :: k.cf.older, draw := s.freeCount } } with
            freeCount := s.freeCount + 1 }) ∧
      ((g = 0 ∧ i = 8) ∨ (g ≠ 0 ∧ s.me.sys = true ∧ (g = 1 → badDgWrite (s.die s.myDie) i.toNat v = false)) →
        completes .c (.cCsw g i) (regIssue g.toNat) s { (arrived .c s).setStack .c rest with
          regWrites := s.regWrites ++
            [{ cycle := s.cycle, core := s.actor, group := g.toNat, idx := i.toNat, val := v }] }))

/-- What the CF registers read as, and the reset values of those the spec gives one for (04 R94, R95; 02 R36). -/
def ControlRegisterReads : Prop :=
  (∀ s : State, readReg s 0 0 = some (BitVec.ofNat 64 (s.package % 1024 * 4096 + s.actor % 4096)) ∧
    readReg s 0 1 = some (BitVec.ofNat 64 s.cycle) ∧ readReg s 0 2 = some s.me.cf.mode ∧
    readReg s 0 3 = some s.me.cf.status ∧ readReg s 0 4 = some s.me.cf.cause ∧ readReg s 0 5 = some s.me.cf.tpc ∧
    readReg s 0 6 = some s.me.cf.tval ∧ readReg s 0 7 = some s.me.cf.breach ∧ readReg s 0 8 = some s.me.cf.slip ∧
    ∀ i, 9 ≤ i → readReg s 0 i = none) ∧
  (∀ (c : Cf) (i : Nat) (v : W64) (n : Nat), i ≠ 2 → i ≠ 3 → i ≠ 7 →
    (c.write i v n).mode = c.mode ∧ (c.write i v n).status = c.status ∧ (c.write i v n).cause = c.cause ∧
    (c.write i v n).tpc = c.tpc ∧ (c.write i v n).tval = c.tval ∧ (c.write i v n).breach = c.breach ∧
    (c.write i v n).slip = c.slip)

/-- S.BIND and S.BIND.u wait for the binding table, which records or refuses the change, and then end (16 R330). -/
def BindWords : Prop :=
  ∀ (s : State) (d va n : W64) (rest : List W64),
    (∀ (i : Instr) (un : Bool), (i = .sBind ∧ un = false ∨ i = .sBindU ∧ un = true) → CanIssueS i s →
      s.stack .c = n :: va :: d :: rest →
      (∀ due : Nat, s.me.swait = .bind d va n.toNat un due (some true) →
        completesS i 1 s ((s.setStack .c rest).updMe fun k => { k with swait := .none })) ∧
      (∀ (s2 : State) (die tier off : Nat) (t : FarTo), s.me.swait = .none → s.me.leg.timed = false → d.toNat % 8 = 0 →
        va.toNat % 4096 = 0 → datumAt s d = .at_ die tier off t s2 → (∃ h ∈ s.me.held, h.va = d ∧ h.excl = true) →
        n ≠ 0 → n.toNat ≤ 2 ^ 20 →
        waitsS i s (s2.updMe fun k =>
          { k with swait := .bind d va n.toNat un (s2.cycle + s2.datumTrip d t) none }))) ∧
    (∀ (un : Bool) (due : Nat) (r : List Binding), s.me.swait = .bind d va n.toNat un due none → s.me.peerAsked = [] →
      due ≤ s.cycle →
      (if un then unbindRuns (s.die (bits d 55 3)).binds { datum := d, space := s.me.space, va := va, n := n.toNat }
       else if s.boundAway (bits d 55 3) { datum := d, space := s.me.space, va := va, n := n.toNat } then none
       else bindRuns (s.die (bits d 55 3)).binds { datum := d, space := s.me.space, va := va, n := n.toNat }) = some r →
      exec .bindRecord s = .next ((s.updDie (bits d 55 3) fun x => { x with binds := r }).updMe fun k =>
        { k with swait := .bind d va n.toNat un due (some true) }))

/-- The S.TOKEN words end once answered; a request that meets no conflict is granted, one that does has the holders in its way
revoked (14 R293-R295). -/
def TokenWords : Prop :=
  ∀ (s : State) (va : W64) (rest : List W64),
    (∀ (i : Instr) (form : Nat), (i = .sTokenShared ∧ form = 0 ∨ i = .sTokenExcl ∧ form = 1 ∨ i = .sTokenReturn ∧ form = 2) →
      CanIssueS i s → s.stack .c = va :: rest → s.me.swait = .token form va (some none) →
      completesS i 1 s ((s.setStack .c rest).updMe fun k => { k with swait := .none })) ∧
    (∀ (s2 : State) (p : Place) (form : Nat), form < 2 → s.me.swait = .token form va none → s.me.peerAsked = [] →
      ownerXlat s (bits va 55 3) s.me.space va true false = .at_ p s2 → p.mt = 0 → (form = 1 → p.w = true) →
      ((s2.die (bits va 55 3)).token s.me.space (va.toNat / 2 ^ 21)) = none →
      (s2.die (bits va 55 3)).tokens.length < 16384 →
      exec .tokenComplete s = .next ((s2.updDie (bits va 55 3) fun d => { d with
          tokens := d.tokens ++
            [{ space := s.me.space, region := va.toNat / 2 ^ 21, excl := form == 1, holders := [(s.package, s.myDie)] }]
          grants := (d.grants.filter (· != (s.me.space, va.toNat / 2 ^ 21, s.package, s.myDie))) ++
            [(s.me.space, va.toNat / 2 ^ 21, s.package, s.myDie)] }).updMe
        fun k => { k with swait := .token form va (some none) })) ∧
    (∀ (t : Token) (k : Nat), (s.die s.myDie).tokens[k]? = some t → s.opWants s.myDie t = true →
      exec (.tokenRevoke k) s = .next ((t.holders.foldl (fun u h => u.dropLines s.myDie t h) s).updDie s.myDie fun d =>
        { d with
          grants := d.grants.filter fun g => !(decide (g.1 = t.space) && decide (g.2.1 = t.region) && t.holders.contains g.2.2)
          tokens := d.tokens.erase t }.bumpReg 300 16 16 t.holders.length))

/-- M.CLAIM marks a run of slots, once nothing uses slots that change their claim, and M.RELEASE frees one, each from the next cycle
on (09 R199-R201, R215). -/
def SlotClaims : Prop :=
  ∀ (s : State) (a n : W64) (rest : List W64), top .m s = n :: a :: rest →
    (∀ (i : Instr) (st : Nat), (i = .mClaim ∧ st = 1 ∨ i = .mClaimR ∧ st = 2) → CanIssue .m i s →
      (n = 0 → completes .m i 1 s ((arrived .m s).setStack .m rest)) ∧
      (n ≠ 0 → a.toNat + n.toNat ≤ 256 →
        (∀ j, j < n.toNat →
          (s.me.claim (a.toNat + j) = 1 → st = 2 →
            s.me.slotWritten (a.toNat + j) = false ∧ s.me.epiDue (a.toNat + j) 1 = false) ∧
          (s.me.claim (a.toNat + j) = 2 → st = 1 → s.me.slotRead (a.toNat + j) = false)) →
        completes .m i 1 s (((arrived .m s).setStack .m rest).updMe fun k =>
          k.later .m (s.cycle + 1) (.claims a.toNat n.toNat st)))) ∧
    (CanIssue .m .mRelease s → SlotsUsable s a.toNat n.toNat false → SlotsIdle s a.toNat n.toNat →
      completes .m .mRelease 1 s (((arrived .m s).setStack .m rest).updMe fun k =>
        k.later .m (s.cycle + 1) (.claims a.toNat n.toNat 0)))

/-- M.WLOAD loads the shadow plane from its slots, M.SWAP exchanges the planes, and M.ROUTE writes or pushes RT (09 R203-R205,
R214; 03 R56). -/
def PlaneLoadsAndRouting : Prop :=
  ∀ (s : State) (a b : W64) (rest : List W64),
    (∀ f : BitVec 5, CanIssue .m (.mWload f) s → top .m s = a :: rest → SlotsUsable s a.toNat 1 false →
      s.me.epiDue a.toNat 1 = false → PlanesFree s → s.me.heldWord .m = false →
      completes .m (.mWload f) 1 s ((((arrived .m s).setStack .m rest).stickIf
        (f == 13 && (List.range 416).any fun j => decide (242 < (SMap.get (0 : Byte) s.me.mat.slots (512 * a.toNat + j)).toNat)) 1).updMat
          fun m => { m with
            shadow := some { fmt := f.toNat, sparse := false, data := SMap.slice 0 m.slots (512 * a.toNat) 512 }
            seen := markTiles m.seen [8] (s.cycle + 4)
            arrayAt := s.cycle + 1, arrayFol := false })) ∧
    (∀ f : BitVec 5, CanIssue .m (.mWloadSp f) s → top .m s = b :: a :: rest → SlotsUsable s a.toNat 1 false →
      SlotsUsable s b.toNat 1 false → s.me.epiDue a.toNat 1 = false → s.me.epiDue b.toNat 1 = false → PlanesFree s →
      s.me.heldWord .m = false → (∀ j, j < 128 → (SMap.get (0 : Byte) s.me.mat.slots (512 * b.toNat + j / 2)).toNat / 16 ^ (j % 2) % 4 <
        (SMap.get (0 : Byte) s.me.mat.slots (512 * b.toNat + j / 2)).toNat / 16 ^ (j % 2) / 4 % 4) →
      completes .m (.mWloadSp f) 1 s (((arrived .m s).setStack .m rest).updMat fun m => { m with
        shadow := some
          { fmt := f.toNat, sparse := true, data := SMap.slice 0 m.slots (512 * a.toNat) 512
            meta_ := SMap.slice 0 m.slots (512 * b.toNat) 64 }
        seen := markTiles m.seen [8] (s.cycle + 5)
        arrayAt := s.cycle + 1, arrayFol := false })) ∧
    (CanIssue .m .mSwap s → s.me.mat.shadow ≠ none → SMap.get 0 s.me.mat.seen 8 ≤ s.cycle →
      s.me.followDue [] true (s.me.here .m) = false →
      completes .m .mSwap 1 s ((arrived .m s).updMat fun m => { m with active := m.shadow, shadow := m.active })) ∧
    (CanIssue .m .mRoute s → top .m s = a :: rest → a &&& ~~~ 0x800000FFFFE00FFF = 0 →
      completes .m .mRoute 1 s (((arrived .m s).setStack .m rest).updMat fun m => { m with rt := a })) ∧
    (CanIssue .m .mRouteGet s → (top .m s).length < 8 →
      completes .m .mRouteGet 1 s ((arrived .m s).setStack .m (s.me.mat.rt :: top .m s)))

/-- M.ACC clear, clearpair and load zero or fill their tiles and no other byte (09 R211). -/
def AccumulatorWords : Prop :=
  ∀ (s : State) (k : BitVec 3),
    (∀ (i : Instr) (pair : Bool), (i = .mAccClear k ∧ pair = false ∨ i = .mAccClearpair k ∧ pair = true) →
      CanIssue .m i s → TilesFree s (tilesOf pair k.toNat) →
      ∃ acc : SMap Byte, completes .m i 1 s ((arrived .m s).updMat fun m => { m with acc := acc }) ∧
        ∀ b, (offTiles (tilesOf pair k.toNat) b → SMap.get 0 acc b = SMap.get 0 s.me.mat.acc b) ∧
          (¬ offTiles (tilesOf pair k.toNat) b → SMap.get 0 acc b = 0)) ∧
    (∀ (a : W64) (rest : List W64), CanIssue .m (.mAccLoad k) s → top .m s = a :: rest → SlotsUsable s a.toNat 2 false →
      s.me.epiDue a.toNat 2 = false → TilesFree s [k.toNat] → s.me.heldWord .m = false →
      ∃ acc : SMap Byte,
        completes .m (.mAccLoad k) 2 s (((arrived .m s).setStack .m rest).updMat fun m => { m with
          acc := acc
          seen := markTiles m.seen [k.toNat] (s.cycle + 4)
          made := markTiles m.made [k.toNat] (s.cycle + 4)
          arrayAt := s.cycle + 2, arrayFol := false }) ∧
        ∀ b, (b / 1024 ≠ k.toNat → SMap.get 0 acc b = SMap.get 0 s.me.mat.acc b) ∧
          (b < 1024 → SMap.get 0 acc (1024 * k.toNat + b) = SMap.get 0 s.me.mat.slots (512 * a.toNat + b)))

/-- The K words that set the walk, the convolutions and the counter register, and K.CNT get and K.FOLLOW (11 R230, R233, R239,
R245). -/
def CopyRegisters : Prop :=
  ∀ (s : State),
    (∀ (i : Instr) (p : Nat) (f : List W64 → Kop → Option Kop) (x : Kop), kopForm i = some (p, f) → CanIssue .k i s →
      p ≤ (top .k s).length → f ((top .k s).take p) s.me.kop = some x →
      completes .k i 1 s (((arrived .k s).setStack .k ((top .k s).drop p)).updKop fun _ => x)) ∧
    (CanIssue .k .kCntGet s → (top .k s).length + 2 ≤ 8 →
      completes .k .kCntGet 1 s ((arrived .k s).setStack .k (s.me.kop.cntInc :: s.me.kop.cntVa :: top .k s))) ∧
    (∀ (w a rm cm dm : W64) (rest : List W64) (tern : Bool) (code tile r c d : Nat), CanIssue .k .kFollow s →
      top .k s = dm :: cm :: rm :: a :: w :: rest → followWord w = some (tern, code, tile) → maskIs rm 16 r →
      maskIs cm 16 c →
      maskIs dm (if tern then 32 else max (mmaForm code).dense (mmaForm code).sparse) d →
      a.toNat + (if tern then 4 else if (mmaForm code).sparse = 0 then 1 else 2) ≤ 256 → s.me.kop.follow = none →
      completes .k .kFollow 1 s (((arrived .k s).setStack .k rest).updKop fun x => { x with
        follow := some { w := w.toNat, a := a, rm := rm, cm := cm, dm := dm } }))

/-- K.CWAIT reads the counter, and goes on once a read that has returned has reached its target; K.FLAG waits for, adds to, reads or sets a flag; the events
that end the two waits complete the word the engine stands at; increments of the cycle come first (11 R241-R243). -/
def CopyWaitsAndFlags : Prop :=
  ∀ (s : State) (n : BitVec 6) (v : W64) (rest : List W64),
    (∀ (s2 s3 : State) (x : BitVec 3) (va t : W64) (p : Place) (y : Poll) (bs : List Byte), CanIssue .k (.kCwait x) s →
      s.me.leg.timed = false → top .k s = t :: va :: rest →
      locate ((arrived .k s).setStack .k rest) va 8 true false = .at_ p s2 →
      (s.me.kop.poll = none → p.peer = none →
        holds .k (.kCwait x) s (s2.updKop fun k => { k with
          poll := some { effect := s2.cycle + s2.reachTime p, back := s2.cycle + s2.reachTime p + s2.wayFrom s2.myDie p.die none 0 } })) ∧
      (s.me.kop.poll = some y → y.got = none → y.effect ≤ s.cycle → Unhindered .k p va 8 0 s2 →
        s2.farRead s2.actor (p.at_ va) 8 p.mt = (s3, some bs) →
        (s.cycle < y.back → holds .k (.kCwait x) s ((loaded .k s3).updKop fun k =>
          { k with poll := some { y with got := some (BitVec.ofNat 64 (leNat bs)) } })) ∧
        (y.back ≤ s.cycle → t.toNat ≤ (BitVec.ofNat 64 (leNat bs) : W64).toNat →
          completes .k (.kCwait x) 1 s ((loaded .k s3).updKop fun k => { k with poll := none }) ∧
          ∀ s0, engineTurn s0 .k = .run (.kCwait x) s → (arrived .k s) = s →
            exec .cwaitSatisfied s0 = .next (issued .k (.kCwait x) 1 s
              ((loaded .k s3).updKop fun k => { k with poll := none }))))) ∧
    (∀ (x : BitVec 3) (va t c : W64) (y : Poll), CanIssue .k (.kCwait x) s → s.me.leg.timed = false → top .k s = t :: va :: rest →
      s.me.kop.poll = some y → y.got = some c → y.back ≤ s.cycle →
      (t.toNat ≤ c.toNat → completes .k (.kCwait x) 1 s (((arrived .k s).setStack .k rest).updKop fun k => { k with poll := none })) ∧
      (c.toNat < t.toNat → holds .k (.kCwait x) s (((arrived .k s).setStack .k rest).updKop fun k => { k with poll := none }))) ∧
    (∀ a : Nat, CanIssue .k (.kFlag n) s → s.flagDue = false → a < 2 ^ 32 → top .k s = v :: rest →
      (v = flagWord 0 a → s.me.leg.timed = false → a ≤ SMap.get 0 s.me.kop.flags n.toNat →
        completes .k (.kFlag n) 1 s (((arrived .k s).setStack .k rest).updKop fun x => { x with
          flags := SMap.set 0 x.flags n.toNat (SMap.get 0 s.me.kop.flags n.toNat - a) }) ∧
        ∀ s0, engineTurn s0 .k = .run (.kFlag n) s → (arrived .k s) = s →
          exec .flagWaitSatisfied s0 = .next (issued .k (.kFlag n) 1 s ((s.setStack .k rest).updKop fun x => { x with
            flags := SMap.set 0 x.flags n.toNat (SMap.get 0 s.me.kop.flags n.toNat - a) }))) ∧
      (v = flagWord 1 a →
        completes .k (.kFlag n) 1 s (((arrived .k s).setStack .k rest).updKop fun x => { x with
          flags := SMap.set 0 x.flags n.toNat (min (SMap.get 0 x.flags n.toNat + a) (2 ^ 32 - 1)) })) ∧
      (v = flagWord 2 0 →
        completes .k (.kFlag n) 1 s ((arrived .k s).setStack .k
          (BitVec.ofNat 64 (SMap.get 0 s.me.kop.flags n.toNat) :: rest))) ∧
      (v = flagWord 3 a →
        completes .k (.kFlag n) 1 s (((arrived .k s).setStack .k rest).updKop fun x => { x with
          flags := SMap.set 0 x.flags n.toNat a })))

/-- K.PIN pins every page of a run once and K.PIN release takes the pins back (11 R247). -/
def PinWords : Prop :=
  ∀ (s s1 s2 : State) (va n : W64) (rest : List W64) (ps qs : List CopyPage) (s0 : State) (keys : List PageKey),
    s.me.leg.timed = false → top .k s = n :: va :: rest → 1 ≤ n.toNat → n.toNat ≤ 2 ^ 40 → s1 = (arrived .k s).setStack .k rest →
    pinWalk (arrived .k s) (va.toNat + n.toNat) (n.toNat / 4096 + 2) va.toNat s.me.kop.walked = .ok qs s0 →
    pinWalk s1 (va.toNat + n.toNat) (n.toNat / 4096 + 2) va.toNat s.me.kop.walked = .ok ps s2 → keys = s2.pinsOf ps →
    (∀ s3, CanIssue .k .kPin s → tooManyPins keys = false → (s2.updMe fun k => k.havePages .k).pinAll keys = some s3 →
      completes .k .kPin (1 + qs.length) s (s3.updKop fun x => { x with pins := x.pins ++ keys })) ∧
    (CanIssue .k .kPinRelease s → (∀ q ∈ keys, q ∈ s2.me.kop.pins) →
      completes .k .kPinRelease (1 + qs.length) s (((s2.updMe fun k => k.havePages .k).unpinAll keys).updKop fun x =>
        { x with pins := keys.foldl (fun l y => l.erase y) x.pins }))

/-- K.COPY submits a copy whose pages translate and are pinned: its requests go out and it enters the queue (11 R234, R235,
R238). -/
def CopySubmission : Prop :=
  ∀ (s s1 s2 s3 : State) (sb db : W64) (rest : List W64) (c c2 : Copy) (ps : List CopyPage), CanIssue .k .kCopy s →
    top .k s = db :: sb :: rest → s1 = (arrived .k s).setStack .k rest → c = copyOf s1 sb db → CopyAllowed c s1 →
    collectPages .k s1 c.wanted s1.me.kop.walked = .ok ps s2 → tooManyPins (s2.pinsOf ps) = false →
    (s1.me.kop.copies.filter fun y => !y.landed).length < 16 → s2.pinAll (s2.pinsOf ps) = some s3 →
    c2 = { c with reads := c.slotsOf false, writes := c.slotsOf true, pages := ps, pins := s2.pinsOf ps } →
    completes .k .kCopy 1 s ((c2.askReads s3).1.updMe fun k => { k.havePages .k with
      kop := { k.kop with follow := none, walked := [], copies := k.kop.copies ++ [(c2.askReads s3).2] }
      leg := if s1.me.leg.timed then { k.leg with copies := k.leg.copies + 1 } else k.leg
      tagLag := match c.tag with | some x => SMap.set 0 k.tagLag x (s1.me.en .k).lag | none => k.tagLag })

/-- A copy is under way and goes on in this cycle: no refusal of a store of its has come, and no owed command holds it (06 R137;
11 R238). -/
def CopyGoesOn (s s1 : State) (c : Copy) : Prop :=
  c.landed = false ∧ c.ended = none ∧ (∀ x, c.tag = some x → s.owedHeld s.actor x = false) ∧ c.takeAcks s = (s1, c)

/-- In a cycle a copy reads its next source run, whose bytes are written from the third cycle on, and writes what is due; once
its last element stands it completes; its follow-on command starts when the array is free (11 R237, R242, R246, R248). -/
def CopyMovement : Prop :=
  ∀ (s : State),
    (∀ (c : Copy) (run : List Piece) (rest : List (List Piece)) (a : Nat) (bs : List Byte) (s1 s2 : State),
      s.me.kop.copies = [c] → s.me.copyTurn s.cycle = true → CopyGoesOn s s1 c → c.moves = [] → c.geo.ss = 0 →
      groupRuns (c.pieces.drop c.taken) = run :: rest → (run.head?).bind (·.src) = some a →
      c.readAt ≤ s.cycle → s.me.kop.runAt ≤ s.cycle → c.readRun s1 (some a) (lenOfPieces run) = .ok bs none s2 c →
      exec (.copyComplete 0) s = .next (s2.updKop fun x => { x with
        runAt := s.cycle + 1
        copies := x.copies.set 0
          { c with taken := c.taken + run.length, readAt := s.cycle + 1, moves := movesOf (s.cycle + 3) run bs
                   sent := c.sent.filter fun p => decide (c.taken < p.1) } })) ∧
    (∀ (c : Copy) (m : Move) (a : Nat) (s1 : State), s.me.kop.copies = [c] → s.me.copyTurn s.cycle = true → CopyGoesOn s s1 c →
      c.moves = [m] → c.pieces.length ≤ c.taken → m.at_ ≤ s.cycle → m.piece.dst = some a → c.geo.ds = 0 →
      c.behind s1 true a m.piece.n = false → s1.me.portTaken (portsOf true a m.piece.n) = false → c.heldIn s1.me = false →
      exec (.copyComplete 0) s = .next ((s1.updMe fun k =>
          ((k.padWrite a m.bytes).reclear).takePorts (portsOf true a m.piece.n)).updKop fun x => { x with
        copies := x.copies.set 0 { c with moves := [], begun := true, lastAt := max c.lastAt s.cycle } })) ∧
    (∀ (c : Copy) (cs : List Copy), s.me.kop.copies = c :: cs → c.landed = false → c.pieces.length ≤ c.taken → c.moves = [] →
      c.acks = [] → c.ended = none → (∀ x, c.tag = some x → s.owedHeld s.actor x = false) →
      c.lastAt < s.cycle → (∀ x, c.tag = some x → s.copyReqs s.actor x = false) → c.stop = none → c.killed = false →
      s.me.run ≠ .killing →
      c.counterWaits s = false → (c.addCounter s).2 = true → exec (.copyComplete 0) s = .next (copyDone s 0 c)) ∧
    (∀ (j : Nat) (c : Copy) (f : Follow) (tern : Bool) (code tile : Nat) (r : Mat × Bool), s.me.run ≠ .killing →
      s.me.kop.copies.findIdx? (fun c => c.landed && !c.killed) = some j → s.me.kop.copies[j]? = some c → c.follow = some f →
      s.me.coming .m c.place = [] → s.me.arrayFree s.cycle = true → followWord (BitVec.ofNat 64 f.w) = some (tern, code, tile) →
      s.me.mma tern code tile f.a f.rm f.cm f.dm = .ok r → (s.me.en .m).active = false →
      exec .followOnStart s = .next (((((s.unpinAll c.pins).updKop fun x => { x with copies := x.copies.eraseIdx j }).stickIf
        r.2 0).updMat fun _ => r.1.began tern code tile s.cycle true).updMe fun k => k.updEn .m fun x => { x with
          nextIssue := max x.nextIssue (s.cycle + 1) }))

/-- The state once a launch whose tasks are all over is closed; as it is while one is not (18 R369). -/
def closed (s : State) (die id : Nat) : State :=
  match s.closeLaunch die id with
  | .ok _ u | .wait u | .fail _ _ u => u

/-- The acting core's task has ended: its counters have risen, it is no member of a group any more, and the core is free
(18 R377). -/
def endedAs (s : State) (t : TaskRef) : State :=
  let s1 := (s.setTask t (.ended s.cycle)).updLaunch t.die t.launch fun l => { l with ended := l.ended + 1 }
  ((s1.updDie s1.myDie fun d => d.memberGone s1.actor false).updMe fun k => { k.vacated with colls := k.colls }).thaw s1.actor

/-- END_COMPLETE: a task that holds no datum ends, its pins dropped, where its launch's words can be reached; a task without
counters always (18 R377). -/
def TaskEnds : Prop :=
  ∀ (s : State) (t : TaskRef) (l : Launch), s.me.run = .ending → s.me.task = some t → s.launchOf t = some l →
    s.me.settled s.cycle = true → s.me.kop.copies = [] → s.me.held = [] →
    (∀ w : State, reachEach l.space (l.stat :: l.counters t.task) s ≠ .wait w) →
    (l.counters t.task = [] →
      exec .endComplete s = .next (closed (endedAs (s.unpinAll s.me.kop.pins) t) t.die t.launch)) ∧
    (∀ (bs : List Byte) (s1 : State), addEach l.space (l.counters t.task) (s.unpinAll s.me.kop.pins) = .ok bs s1 →
      exec .endComplete s = .next (closed (endedAs s1 t) t.die t.launch))

/-- A save takes the lowest free frame of the pool, and is done 1,776 cycles on; a yield or a pre-emption that finds none lets
the task go on; a restore takes as long, frees the frame and, after a SKIP, stands past the word of the trap (18 R380, R382,
R384-R388). -/
def TaskSaves : Prop :=
  ∀ (s : State) (t : TaskRef) (l : Launch), s.me.task = some t → s.launchOf t = some l →
    (∀ why : SaveWhy, s.me.run = .saving why → s.me.comb = [] → s.me.settled s.cycle = true →
      (∀ f : Nat, l.freeFrame = some f → exec .contextSaveComplete s = .next
        ((s.updLaunch t.die t.launch fun l => { l with used := f :: l.used }).updMe fun k =>
          { k with run := .storing why (s.cycle + 1776), frame := some f })) ∧
      (l.freeFrame = none → why = .yield ∨ why = .preempt →
        exec .contextSaveComplete s = .next (s.updMe fun k => { k with run := .running }))) ∧
    (∀ (why : SaveWhy) (at_ f : Nat) (bs : List Byte) (s1 : State), s.me.run = .storing why at_ → at_ ≤ s.cycle →
      s.me.frame = some f → why ≠ .trap → writeFrame s l.space (l.frameAt f) s.actor s.me.context = .ok bs s1 →
      exec .contextSaveComplete s = .next (savedAs s1 t why f)) ∧
    (∀ (at_ f : Nat) (skip : Bool) (x : Saved) (bs : List Byte) (s1 : State) (ctx : Core), s.me.run = .restoring skip at_ →
      at_ ≤ s.cycle → s.me.frame = some f → (s.die t.die).savedIn t.launch f = some x →
      millRead s l.space (l.frameAt f) 0x6F000 = .ok bs s1 →
      ctx = (if skip then { ({ x.core.fromFrame bs with cf := x.core.cf } : Core).skip s1.cycle with
          cf := (x.core.fromFrame bs).cf } else x.core.fromFrame bs) →
      exec .contextRestoreComplete s = .next ((s1.updMe fun k => k.returned ctx s1.cycle).freeFrame t.die t.launch f)) ∧
    (s.mayPreempt = true → exec .millwrightPreemption s = .next (s.updMe fun k => { k with
      run := .saving .preempt
      walks := []
      kop := { k.kop with
        walked := []
        poll := none }
      collPages := []
      trips := [] }))

/-- KILL_COMPLETE: what can be cancelled is; once the rest has drained, a task alone in its sets is gone, with its datums and pins, its
group's and traverse's other members told, its launch failed, and the core free (11 R249; 18 R390, R391). -/
def TaskKills : Prop :=
  ∀ (s s1 s2 s3 : State) (t : TaskRef) (l : Launch), s.me.run = .killing → s.me.task = some t → s1 = s.cancel →
    (s1.draining = true → exec .killComplete s = .next s1) ∧
    (s1.draining = false → s.launchOf t = some l → s1.freeAll.setOf = [] →
      (∀ w : State, reachEach l.space [l.stat] s1 ≠ .wait w) →
      s2 = (s1.freeAll.breakTraverse.breakColls.unpinAll s1.freeAll.me.kop.allPins).taskGone t → s2.me.frame = none →
      s3 = (s2.memberKilled s2.actor).updDie s2.myDie Die.killDone →
      exec .killComplete s = .next (closed ((s3.updMe Core.vacated).thaw s2.actor) t.die t.launch))

/-- RETRY and SKIP let a task whose trap is delivered go on, KILL begins a kill, a command on no such task is refused; after a
DG_PAGE_DONE what waited for the page goes on (18 R382, R389, R390, R392, R393). -/
def TaskCommands : Prop :=
  ∀ (s : State) (w : RegWrite) (t : TaskRef) (l : Launch), s.nextWrite = some w →
    (∀ (i : Instr) (skip : Bool), (i = .taskCtlRetry ∧ skip = false ∨ i = .taskCtlSkip ∧ skip = true) →
      w.kind = (if skip then .skip else .retry) →
      ((taken s w).ctlTask w = none → exec i s = .next ((taken s w).setCtl w true)) ∧
      ((taken s w).ctlTask w = some (t, l) →
        (∀ f c : Nat, l.st t.task = .trapped f c →
          (skip = true → ∃ x : Saved, ((taken s w).die t.die).savedIn t.launch f = some x ∧ x.core.skipsOut = false) →
          exec i s = .next ((((taken s w).setTask t (.saved f c skip)).requeue t).setCtl w false)) ∧
        (∀ c : Nat, l.st t.task = .placed c → ((taken s w).core c).run = .trappedInPlace →
          ((taken s w).core c).task = some t → (skip = true → ((taken s w).core c).skipsOut = false) →
          exec i s = .next (((taken s w).updCore c fun k =>
            { (if skip then k.skip s.cycle else k) with run := .running }).setCtl w false)))) ∧
    (w.kind = .kill →
      ((taken s w).ctlTask w = none → exec .taskCtlKill s = .next ((taken s w).setCtl w true)) ∧
      (∀ c : Nat, (taken s w).ctlTask w = some (t, l) → l.st t.task = .placed c →
        exec .taskCtlKill s = .next (((taken s w).updCore c fun k => { k with run := .killing }).setCtl w false))) ∧
    (∀ (space : Nat) (r : Nat × Nat) (hit : Nat → W64 → Bool), w.kind = .pageDone → space = bits w.val 0 4 →
      r = ((taken s w).die w.die).pageAround space (w.val &&& BitVec.ofNat 64 ((2 ^ 46 - 1) * 2 ^ 12)) →
      hit = (fun sp a => decide (sp = space) && decide (bits a 55 3 = w.die) && decide (r.1 ≤ a.toNat) && decide (a.toNat < r.2)) →
      ((∀ d < 8, (s.die d).launches = []) →
        exec .pageDone s = .next (({ taken s w with cores := s.cores.map fun p => (p.1, p.2.pageDone hit) } : State).updDie w.die
          fun d => { d with faults := d.faults.filter fun f => !(f.reported && hit f.space f.va) })) ∧
      (∀ (k : Core) (va : W64), k.run = .pagedInPlace va → hit k.space va = true → (k.pageDone hit).run = .running) ∧
      (∀ (i f c : Nat) (va : W64), l.st i = .paged f c va → hit l.space va = true →
        (l.pageDone hit).1.st i = .saved f c false))

end Sys2Proof.Spec

open Sys2Proof Sys2Proof.Machine Sys2Proof.Spec

/-- Every arithmetic, logic, shift, count, compare and min/max word of C replaces its operands by its result and changes
nothing else (04 R72, R73, R75-R77); the encodings of C.MUL, C.SHF and C.MINMAX are as their rules give them (R73, R75, R76). -/
def Obligations.ControlArithmetic : Prop :=
  (∀ x : BitVec 6, reads [0x0180 + x.setWidth 16] =
    if x = 0x00 then some .cMul else if x = 0x10 then some .cMulh else if x = 0x20 then some .cMulhu
    else none) ∧
  (∀ x : BitVec 6, reads [0x02C0 + x.setWidth 16] =
    if x &&& 7 ≠ 0 then none
    else if x.getLsbD 5 then some (.cBitop (BitVec.ofNat 2 (x.toNat / 8))) else some (.cShift (BitVec.ofNat 2 (x.toNat / 8)))) ∧
  (∀ x : BitVec 6, reads [0x0640 + x.setWidth 16] =
    if x.toNat < 4 then some (.cMinmax (BitVec.ofNat 2 x.toNat)) else none) ∧
  ∀ (i : Instr) (n p : Nat) (f : List W64 → List W64) (s : State), pureForm i = some (n, p, f) →
    CanIssue .c i s → p ≤ (top .c s).length →
    exec i s = .next (issued .c i n s ((arrived .c s).setStack .c (f ((top .c s).take p) ++ (top .c s).drop p)))

/-- A literal word pushes its sign-extended bits or extends the top entry; WAIT sets the distance to its engine's next
word; the STK words copy, remove or move entries of their engine's stack (02 R26, R32; 05 R116). -/
def Obligations.LiteralsStackAndWait : Prop :=
  ∀ (t : Engine) (s : State),
    (∀ i : BitVec 11, CanIssue t (.literalPush t i) s → (top t s).length < 8 →
      completes t (.literalPush t i) 1 s ((arrived t s).setStack t (i.signExtend 64 :: top t s))) ∧
    (∀ (i : BitVec 11) (v : W64) (rest : List W64), CanIssue t (.literalExtend t i) s → top t s = v :: rest →
      completes t (.literalExtend t i) 1 s ((arrived t s).setStack t ((v <<< 11 ||| i.setWidth 64) :: rest))) ∧
    (∀ n : BitVec 6, CanIssue t (.wait t n) s → n ≠ 0 → completes t (.wait t n) n.toNat s (arrived t s)) ∧
    (∀ (v : W64) (rest : List W64), CanIssue t (.wait t 0) s → top t s = v :: rest →
      completes t (.wait t 0) (max 1 v.toNat) s ((arrived t s).setStack t rest)) ∧
    (∀ k : BitVec 3, CanIssue t (.stkDup t k) s → k.toNat < (top t s).length → (top t s).length < 8 →
      completes t (.stkDup t k) 1 s ((arrived t s).setStack t ((top t s).getD k.toNat 0 :: top t s))) ∧
    (∀ k : BitVec 3, CanIssue t (.stkDrop t k) s → k.toNat < (top t s).length →
      completes t (.stkDrop t k) 1 s ((arrived t s).setStack t ((top t s).take k.toNat ++ (top t s).drop (k.toNat + 1)))) ∧
    (∀ k : BitVec 3, CanIssue t (.stkSwap t k) s → k.toNat < (top t s).length →
      completes t (.stkSwap t k) 1 s
        ((arrived t s).setStack t
          (((top t s).set 0 ((top t s).getD k.toNat 0)).set k.toNat ((top t s).getD 0 0)))) ∧
    (∀ k : BitVec 3, CanIssue t (.stkOver t k) s → k.toNat < (top t s).length →
      completes t (.stkOver t k) 1 s
        ((arrived t s).setStack t
          ((top t s).getD k.toNat 0 :: ((top t s).take k.toNat ++ (top t s).drop (k.toNat + 1)))))

/-- C.GET, C.PUT, C.SETP, C.SEL and C.PRED move values between the stack, X0-X15, P0-P7 and the loop counters (04 R71,
R77-R79).
The choices in it that are the model's own: log entry 72. -/
def Obligations.ControlRegistersAndPredicates : Prop :=
  ∀ (s : State) (v : W64) (rest : List W64),
    (∀ (i : Instr) (x : W64), getForm i (arrived .c s).me.ctl = some x → CanIssue .c i s → (top .c s).length < 8 →
      completes .c i 1 s ((arrived .c s).setStack .c (x :: top .c s))) ∧
    (∀ (i : Instr) (f : W64 → Ctl → Ctl), putForm i = some f → CanIssue .c i s → top .c s = v :: rest →
      completes .c i 1 s (((arrived .c s).setStack .c rest).updCtl (f v))) ∧
    (∀ (c n : BitVec 3) (b : W64), CanIssue .c (.cSetp c n) s → top .c s = b :: v :: rest →
      completes .c (.cSetp c n) 1 s (((arrived .c s).setStack .c rest).updCtl
        fun r => { r with p := setPred r.p n.toNat (condHolds c v b) })) ∧
    (∀ (n : BitVec 3) (b : W64), CanIssue .c (.cSel n) s → top .c s = b :: v :: rest →
      completes .c (.cSel n) 1 s ((arrived .c s).setStack .c
        ((if (arrived .c s).me.ctl.p.getLsbD n.toNat then v else b) :: rest))) ∧
    (∀ (d : BitVec 3) (o : BitVec 2), CanIssue .c (.cPredSet d o) s →
      completes .c (.cPredSet d o) 1 s ((arrived .c s).updCtl fun r =>
        { r with p := setPred r.p d.toNat (if o = 0 then !r.p.getLsbD d.toNat else o == 1) }))

/-- C.DIV pushes the quotient, the remainder or both, truncated toward zero; a zero divisor gives all ones and the
dividend and sets CF_STATUS.DIVZ; the forms are encoded as the rule gives them (04 R74). -/
def Obligations.ControlDivision : Prop :=
  (∀ x : BitVec 6, reads [0x01C0 + x.setWidth 16] =
    if x.toNat < 2 then some (.cDiv (BitVec.ofNat 1 x.toNat)) else if x.toNat < 4 then some (.cRem (BitVec.ofNat 1 x.toNat))
    else if x.toNat < 6 then some (.cDivrem (BitVec.ofNat 1 x.toNat)) else none) ∧
  ∀ (i : Instr) (u : BitVec 1) (q m : Bool) (s : State) (a b : W64) (rest : List W64),
    divForm i = some (u, q, m) → CanIssue .c i s → top .c s = b :: a :: rest →
    completes .c i 36 s
      ((((arrived .c s).setStack .c rest).stickIf (b == 0) 2).setStack .c
        ((if m then [(quotRem u a b).2] else []) ++ (if q then [(quotRem u a b).1] else []) ++ rest))

/-- C.BR, C.CALL and C.RET: the condition chooses the target or the following word, the return stack and the loop stack
change as the rules say, and C continues at the chosen address (04 R70, R80-R82, R85).
C.LOOP makes an entry with the body's bounds, iteration 0 and the count, a count of 0 running once; a body of no words
makes none (04 R82, R83).
The choices in it that are the model's own: log entries 68, 69, 78. -/
def Obligations.ControlTransferAndLoops : Prop := ControlTransfer ∧ ControlLoops

/-- C.SEND appends to the outbound queue, C.RECV pushes the oldest inbound entry of the engine it names, and the engine a
C.RECV names hands its PS0 over when it reaches that word (04 R86-R88). -/
def Obligations.ControlSendReceive : Prop :=
  ∀ (s : State),
    (∀ (e : BitVec 3) (v : W64) (rest : List W64), CanIssue .c (.cSend e) s → top .c s = v :: rest →
      ((arrived .c s).me.ctl.outq.filter fun x => x.dest = Engine.ofTag e.toNat).length < 8 →
      completes .c (.cSend e) 1 s (((arrived .c s).setStack .c rest).updCtl fun r =>
        { r with outq := r.outq ++ [{ dest := Engine.ofTag e.toNat, val := v, place := (s.me.en .c).place }] })) ∧
    (∀ (e : BitVec 3) (v : W64) (l r : List (Engine × W64)), CanIssue .c (.cRecv e) s → (top .c s).length < 8 →
      (s.me.en (Engine.ofTag e.toNat)).active = true →
      (arrived .c s).me.ctl.inq = l ++ (Engine.ofTag e.toNat, v) :: r → (∀ x ∈ l, x.1 ≠ Engine.ofTag e.toNat) →
      completes .c (.cRecv e) 1 s
        (((arrived .c s).updCtl fun c => { c with inq := l ++ r }).setStack .c (v :: top .c s))) ∧
    (∀ (e : Engine) (v : W64) (rest : List W64), e ≠ .c → s.me.run = .running → (s.me.en e).active = true →
      s.me.stand e = .recv ((s.me.en e).pc - (s.me.en e).lead) → (s.me.en e).lead ≤ (s.me.en e).pc →
      (s.me.en e).stack = v :: rest → (s.me.ctl.inq.filter fun x => x.1 = e).length < 8 →
      (e = .e → SMap.get 0 s.me.vec.ready 17 ≤ s.cycle) →
      ((s.me.en e).lead = 0 → s.me.expectStop e ≠ some (s.me.en e).pc →
        exec (.recvHandoff e) s = .next (s.updMe fun k =>
          { k.updEn e fun x => { x with stack := rest, pc := x.pc + 1, progress := x.progress + 1 } with
            ctl := { k.ctl with inq := k.ctl.inq ++ [(e, v)] } })) ∧
      (0 < (s.me.en e).lead → exec (.recvHandoff e) s = .next (s.updMe fun k =>
          { k.updEn e fun x => { x with stack := rest, lead := x.lead - 1 } with
            ctl := { k.ctl with inq := k.ctl.inq ++ [(e, v)] } })))

/-- C.LD reads the bytes at an address, extended as the word says; C.ST posts a write of the low bytes (04 R89). -/
def Obligations.ControlLoadStore : Prop :=
  ∀ (s s2 : State) (c z : BitVec 2) (p : Place) (va : W64), s.me.leg.timed = false →
    (∀ (sgn : BitVec 1) (rest : List W64) (bs : List Byte) (s3 : State), CanIssue .c (.cLd c sgn z) s →
      top .c s = va :: rest → locate ((arrived .c s).setStack .c rest) va (2 ^ z.toNat) true false = .at_ p s2 →
      (Unhindered .c p va (2 ^ z.toNat) c.toNat s2 → s2.farRead s2.actor (p.at_ va) (2 ^ z.toNat) p.mt = (s3, some bs) →
        completes .c (.cLd c sgn z) 1 s ((loaded .c s3).setStack .c (extended (sgn == 1) (2 ^ z.toNat) bs :: s3.stack .c))) ∧
      (∀ e : Comb, s.me.combOf va = some e → e.serve va (2 ^ z.toNat) = some bs →
        completes .c (.cLd c sgn z) 4 s ((loaded .c s2).setStack .c (extended (sgn == 1) (2 ^ z.toNat) bs :: s2.stack .c)))) ∧
    (∀ (v : W64) (rest : List W64), CanIssue .c (.cSt c z) s → top .c s = va :: v :: rest →
      locate ((arrived .c s).setStack .c rest) va (2 ^ z.toNat) false true = .at_ p s2 →
      completes .c (.cSt c z) 1 s (s2.updMe fun k =>
        { k with posted := k.posted ++ [{ postedWrite .c p va c.toNat (leBytes v.toNat (2 ^ z.toNat)) with tpc := (k.en .c).pc }] }))

/-- FREE_MODE_REQUEST_SERVICE performs a posted access that may be performed: a store's bytes are written, a line a load
asked for goes to the scratchpad (06 R138, R147; 17 R356). -/
def Obligations.PostedAccessService : Prop :=
  ∀ (s s3 : State) (j : Nat) (a : Posted), s.me.posted[j]? = some a → s.me.mayPerform j = true → a.peer = none →
    s.waits a.die a.tier a.off a.bytes = false → a.portHeld s.me = false →
    (∀ bs : List Byte, a.write = some bs →
      ((s.updMe a.fillPorts).updMe fun k => { k with posted := k.posted.erase a }).farWrite s.actor a.at_ bs a.mt = (s3, true) →
      exec (.freeModeRequestService j) s = .next s3) ∧
    (∀ bs : List Byte, a.write = none →
      ((s.updMe a.fillPorts).updMe fun k => { k with posted := k.posted.erase a }).farRead s.actor a.at_ 128 a.mt = (s3, some bs) →
      exec (.freeModeRequestService j) s = .next (s3.updMe fun k => k.padWrite a.pad bs)) ∧
    (∀ (core n : Nat) (w : At) (bs : List Byte) (r : State), w.die = core / 512 → (s.die w.die).tokens = [] →
      (s.read w.die w.tier w.off n = (r, some bs) → s.farRead core w n a.mt = (r, some bs)) ∧
      (s.write w.die w.tier w.off bs w.klock = (r, true) → s.farWrite core w bs a.mt = (r, true)))

/-- C.CSR pushes the register; C.CSW changes a CF register at once and posts any other write (04 R90-R92, R94, R95).
What the CF registers read as, and the reset values of those the spec gives one for (04 R94, R95; 02 R36).
The choices in it that are the model's own: log entry 12. -/
def Obligations.ConfigurationRegisterWords : Prop := ConfigurationRegisters ∧ ControlRegisterReads

/-- The next posted register write takes effect as the register's chapter says: writable fields are replaced, CF_SLIP is
held between 32 and 16,384, a write of 0 clears a log (02 R36; 04 R91, R92; 06 R128; 12 R253, R255; 17 R354, R363).
The choices in it that are the model's own: log entries 60, 71. -/
def Obligations.PostedRegisterWrites : Prop :=
  ∀ (s : State) (w : RegWrite),
    (w.group = 1 → takes .registerWrite .plain s w ((taken s w).updDie w.die fun d =>
      d.setReg w.idx ((d.reg w.idx &&& ~~~BitVec.ofNat 64 (dgMask w.idx)) ||| (w.val &&& BitVec.ofNat 64 (dgMask w.idx))))) ∧
    takes .cfSlipWrite .slip s w ((taken s w).updCore w.core fun k =>
      { k with cf := { k.cf with slip := BitVec.ofNat 64 (max 32 (min 16384 (w.val.toNat % 32768))) } }) ∧
    (badHash (s.die w.die) w.idx w.val = false →
      takes .hashMaskWrite .hash s w ((taken s w).updDie w.die fun d => d.remask w.idx w.val)) ∧
    (badRegion (s.die w.die) w.idx w.val = false →
      takes .regionWrite .region s w ((taken s w).updDie w.die fun d =>
        d.setReg w.idx (w.val &&& BitVec.ofNat 64 (dgMask w.idx)))) ∧
    (w.val.getLsbD 63 = false →
      takes .sgFaultClear .sgFault s w ((taken s w).updDie w.die fun d => d.setReg w.idx 0)) ∧
    (w.val.getLsbD 0 = false →
      takes .uninitClear .uninit s w ((taken s w).updDie w.die fun d => (d.setReg 289 0).setReg 288 0)) ∧
    (w.val.toNat / 2 ^ 48 % 2 ^ 16 = 0 →
      takes .errorLogClear .errLog s w ((taken s w).updDie w.die fun d => d.setReg w.idx 0))

/-- S.SIGN joins the open traverse of its die, or opens one, and its vote counts; S.LTLOAD sets a buffer LOADING (05 R107,
R111, R112).
The choices in it that are the model's own: log entry 23. -/
def Obligations.LegSignAndLoad : Prop :=
  ∀ (s : State) (v : W64) (rest : List W64), s.stack .c = v :: rest →
    (∀ (k : BitVec 4) (t : Trav), CanIssueS (.sSign k) s → s.me.leg.peer = none → s.me.leg.timed = false → (s.die s.myDie).trav = some t →
      t.tree = k.toNat → t.cores / 2 ^ (s.actor % 512) % 2 = 1 → s.me.leg.signed = false →
      t.left.contains (s.actor % 512) = false → s.drainedMe = true →
      completesS (.sSign k) 1 s (signedAt (s.setStack .c rest) (v != 0))) ∧
    (∀ (k : BitVec 4) (b : Nat) (tb : LegTable), CanIssueS (.sSign k) s → s.me.leg.peer = none → s.me.leg.timed = false →
      (s.die s.myDie).trav = none →
      (s.die s.myDie).firstLoad = some b → (s.die s.myDie).firstTable = some tb →
      tb.cores / 2 ^ (s.actor % 512) % 2 = 1 → s.drainedMe = true →
      completesS (.sSign k) 1 s (signedAt ((s.setStack .c rest).openTrav s.myDie k.toNat b) (v != 0))) ∧
    (∀ b : BitVec 1, CanIssueS (.sLtload b) s → bits v 58 6 = 0 → v.toNat % 128 = 0 →
      s.current s.myDie b.toNat = false → s.committed s.myDie b.toNat = false →
      ((s.die s.myDie).buf b.toNat).st ≠ .loading →
      ((s.die s.myDie).firstLoad = none ∨ ((s.die s.myDie).firstTable = none ∧ (s.die s.myDie).firstVa = v) →
        completesS (.sLtload b) 1 s (((s.setStack .c rest).unpinAll
            ((s.setStack .c rest).pageKeys ((s.die s.myDie).buf b.toNat).pages)).updDie s.myDie fun d =>
          { d.setBuf b.toNat { st := .loading, addr := v, space := s.me.space, first := true } with
            firstLoad := some b.toNat
            firstVa := v })) ∧
      ((s.die s.myDie).firstLoad ≠ none → (s.die s.myDie).firstTable ≠ none ∨ (s.die s.myDie).firstVa ≠ v →
        completesS (.sLtload b) 1 s (((s.setStack .c rest).unpinAll
            ((s.setStack .c rest).pageKeys ((s.die s.myDie).buf b.toNat).pages)).updDie s.myDie fun d =>
          d.setBuf b.toNat { st := .loading, addr := v, space := s.me.space, first := false })))

/-- S.LEG enters the leg that the closure has started, or leaves the traverse after an end table; S.SLACK ends the timed part, and
traps with #BREACH where CF_MODE asks for it and breaches were counted in the leg (05 R113, R114).
The choices in it that are the model's own: log entries 13, 48. -/
def Obligations.LegEnterAndLeave : Prop :=
  ∀ s : State,
    (∀ ts : Nat, CanIssueS .sLeg s → s.me.leg.peer = none → s.me.leg.overrun = none →
      (s.die s.myDie).trav.isSome = true → s.me.leg.signed = true →
      s.me.leg.refused = none → s.me.leg.ended = false → s.me.leg.go = some ts → ts ≤ s.cycle + 1 →
      completesS .sLeg (s.legCycle ts - s.cycle) s (s.enterLeg ts)) ∧
    (CanIssueS .sLeg s → s.me.leg.peer = none → s.me.leg.overrun = none →
      (s.die s.myDie).trav.isSome = true → s.me.leg.signed = true → s.me.leg.refused = none →
      s.me.leg.ended = true → s.me.leg.go = none → completesS .sLeg 1 s s.leaveTrav) ∧
    (∀ ts : Nat, s.cycle + 1 ≤ ts → (s.enterLeg ts).me.leg.timed = true ∧ (s.enterLeg ts).me.leg.start = ts ∧
      (s.enterLeg ts).me.leg.signed = false ∧ (s.enterLeg ts).me.cf.breach = s.me.cf.breach) ∧
    (CanIssueS .sSlack s → s.me.leg.timed = true → s.me.leg.start + s.me.leg.len ≤ s.cycle + 1 →
      (bits s.me.cf.mode 2 1 = 0 ∨ s.me.leg.rise = 0) →
      completesS .sSlack 1 s (s.updMe fun k =>
        { k with leg := { k.leg with timed := false }, tagLag := []
                 eng := k.eng.map fun _ x => { x with lag := 0 } })) ∧
    (s.me.leg.timed = true → s.me.leg.start + s.me.leg.len ≤ s.cycle + 1 → bits s.me.cf.mode 2 1 = 1 → 0 < s.me.leg.rise →
      exec .sSlack s = .next (takeTrap (s.updMe fun k => { k with leg := { k.leg with timed := false } }) 7 (s.me.en .c).pc
        .breach (BitVec.ofNat 64 s.me.leg.rise)))

/-- S.FORK starts the engines its mask names at the target, S.JOIN stops those its mask names, S.END begins the end of the
task, S.TRAP traps with #SWT, and S.YIELD saves the task where it yields (18 R375-R377, R383, R385). -/
def Obligations.TaskWords : Prop :=
  ∀ s : State,
    (∀ (m : BitVec 6) (o : BitVec 13), CanIssueS (.sFork m o) s → s.me.leg.signed = false → m ≠ 0 →
      (∀ t, inMask m t = true → (s.me.en t).active = false) → 2 ≤ o.toInt →
      (s.me.en .c).pc + o.toInt.toNat < s.me.text.len →
      s.me.text.barred ((s.me.en .c).pc + o.toInt.toNat) s.me.text.len ((s.me.en .c).pc + 2) = some false →
      completesS (.sFork m o) 1 s (s.updMe fun k => { k with
        eng := k.eng.map fun t x => if inMask m t then { x with
          active := true, pc := (k.en .c).pc + o.toInt.toNat, mid := false, lead := o.toNat - 2
          progress := (k.en .c).progress, skew := (k.en .c).skew + o.toInt.toNat, steer := [], endWait := false, parked := none
          fromWin := ((k.en .c).pc + o.toInt.toNat) / 32, nextIssue := s.cycle + 1, lag := (k.en .c).lag }
        else x })) ∧
    (∀ m : BitVec 6, CanIssueS (.sJoin m) s → s.me.leg.signed = false →
      completesS (.sJoin m) 1 s (s.updMe fun k => { k with
        eng := k.eng.map fun t x => if inMask m t then { x with active := false } else x })) ∧
    (CanIssueS .sEnd s → s.me.leg.timed = false → s.inTraverse = false →
      completesS .sEnd 1 s ((s.flushComb fun _ => true).updMe fun k => { k.haltStreams s.cycle with run := .ending })) ∧
    (∀ (v : W64) (rest : List W64), CanIssueS .sTrap s → s.stack .c = v :: rest →
      exec .sTrap s = .next (takeTrap s 7 (s.me.en .c).pc .swt v)) ∧
    (CanIssueS .sYield s → s.me.leg.timed = false →
      completesS .sYield 2 s (if s.frameLeft s.actor && s.wanted then s.updMe fun k => { k with run := .saving .yield } else s)) ∧
    (CanIssueS .sYieldForce s → s.me.leg.timed = false →
      completesS .sYieldForce 2 s (if s.frameLeft s.actor then s.updMe fun k => { k with run := .saving .yield } else s))

/-- S.FENCE records its sets and what precedes it; once that is performed the fence holds no engine from the next cycle on (16 R332,
R334).
The choices in it that are the model's own: log entry 39. -/
def Obligations.FenceWord : Prop :=
  ∀ s : State,
    (∀ (sc : BitVec 3) (p q : BitVec 6), CanIssueS (.sFence sc p q) s → s.me.leg.timed = false →
      completesS (.sFence sc p q) 1 s
        ((if p.getLsbD 1 then s.flushComb fun _ => true else s).updMe fun k =>
          { k with fences := k.fences ++
            [{ src := p.toNat, dst := q.toNat, scope := sc.toNat, place := k.here .c, before := k.posted
               upto := k.lateOf p }] })) ∧
    (∀ f : Fence, s.me.fences = [f] → s.me.posted = [] → (∀ c ∈ s.me.kop.copies, c.killed = true ∨ f.place ≤ c.place) →
      (∀ o ∈ s.me.far, f.place ≤ o.place) → (∀ c ∈ s.me.colls, c.done = true ∨ f.place ≤ c.place) → s.me.rows = none →
      f.upto ≤ s.cycle → f.drainedAt = none →
      exec .fenceDrainComplete s = .next (s.updMe fun k => { k with fences := [{ f with drainedAt := some s.cycle }] })) ∧
    (∀ (f : Fence) (c : Nat), s.me.fences = [f] → f.drainedAt = some c → c < s.cycle →
      exec .fenceDrainComplete s = .next (s.updMe fun k => { k with fences := [] })) ∧
    (∀ (f : Fence) (b : Nat), s.me.fences = [f] → f.dst / 2 ^ b % 2 = 1 → f.drainedAt = none →
      (s.me.fenceOn b s.cycle = true ∧
        ∀ t : State, t.me.fences = [{ f with drainedAt := some s.cycle }] → t.me.fenceOn b s.cycle = true ∧
          ∀ n, s.cycle < n → t.me.fenceOn b n = false))

/-- S.ACQ sends its request once and ends when it has been granted; a free datum is granted and then names its holder; S.REL
frees it once the writes before it are performed (16 R328, R329).
The choices in it that are the model's own: log entries 41, 91. -/
def Obligations.DatumAcquireRelease : Prop :=
  ∀ (s s2 : State) (sc : BitVec 3) (d : W64) (rest : List W64), s.me.leg.timed = false → s.stack .c = d :: rest →
    (∀ (i : Instr) (sh : Bool) (die tier off : Nat) (t : FarTo) (bs : List Byte),
      (i = .sAcq sc ∧ sh = false ∨ i = .sAcqSh sc ∧ sh = true) → CanIssueS i s → s.me.swait = .none → d.toNat % 8 = 0 →
      datumAt s d = .at_ die tier off t s2 → (∀ h ∈ s.me.held, h.va ≠ d) → s.me.held.length < 8 →
      (s2.die die).peek tier off 8 = some bs → datumBad (leNat bs) = false →
      waitsS i s ((s2.updMe fun k => { k with swait := .acquire d sh false }).updDie die fun x =>
        { x with acqs := insertAcq { core := s2.actor, comes := s2.cycle + s2.wayTo s2.myDie t, due := s2.cycle + s2.datumTrip d t
                                     tier := tier, off := off, shared := sh } x.acqs })) ∧
    (∀ b : Bool, CanIssueS (.sAcq sc) s → s.me.swait = .acquire d b true →
      completesS (.sAcq sc) 1 s ((s.setStack .c rest).updMe fun k => { k with swait := .none })) ∧
    (∀ b : Bool, CanIssueS (.sAcqSh sc) s → s.me.swait = .acquire d b true →
      completesS (.sAcqSh sc) 1 s ((s.setStack .c rest).updMe fun k => { k with swait := .none })) ∧
    (∀ (h : Held) (before : List Posted) (s3 : State), CanIssueS (.sRel sc) s → s.me.swait = .release d before true →
      (s.me.held.find? fun x => x.va == d) = some h →
      (s.setStack .c rest).release h (0xE200 + sc.toNat) = (s3, true) →
      completesS (.sRel sc) 1 s (s3.updMe fun k => { k with swait := .none })) ∧
    (∀ (h : Held) (die tier off : Nat) (t : FarTo), datumAt s d = .at_ die tier off t s2 → h.va = d →
      s.release h (0xE200 + sc.toNat) = ((s2.updMe fun k => { k with held := k.held.erase h }).updDie die fun x =>
        { x with rels := x.rels ++ [{ core := s2.actor, due := s2.cycle + s2.datumReach d t, by_ := s2.cycle + s2.datumTrip d t
                                      va := d, tier := tier, off := off, shared := !h.excl }] }, true)) ∧
    (∀ before : List Posted, s.me.swait = .release d before false → s.me.posted = [] →
      (∀ c ∈ s.me.kop.copies, c.landed = true) → s.me.far = [] → s.me.landedAll = true →
      exec .releaseDrainComplete s = .next (s.updMe fun k => { k with swait := .release d before true }))

/-- A grant writes the datum's new value and adds the datum to the core's held list; a release writes the value without the
holder (16 R325, R328, R329). -/
def Obligations.DatumWords : Prop :=
  ∀ (s s1 : State) (k : Nat) (bs : List Byte),
    (∀ (q : AcqReq) (w : Nat), (s.die s.myDie).acqs[k]? = some q → q.due ≤ s.cycle → (s.die s.myDie).acqBlocked k q = false →
      s.waits s.myDie q.tier q.off 8 = false →
      (s.updDie s.myDie fun x => { x with acqs := x.acqs.eraseIdx k }).read s.myDie q.tier q.off 8 = (s1, some bs) →
      datumBad (leNat bs) = false → grantWord s.package q.core (leNat bs) q.shared = some w →
      exec (.acquireGrant k) s = .next ((s1.write s.myDie q.tier q.off (leBytes w 8) false).1.updCore q.core fun c =>
        match c.swait with
        | .acquire d sh false => { c with held := c.held ++ [{ va := d, excl := !sh }], swait := .acquire d sh true }
        | _ => c)) ∧
    (∀ q : RelReq, (s.die s.myDie).rels[0]? = some q → q.due ≤ s.cycle → s.waits s.myDie q.tier q.off 8 = false →
      (s.updDie s.myDie fun x => { x with rels := x.rels.eraseIdx 0 }).read s.myDie q.tier q.off 8 = (s1, some bs) →
      exec (.releaseEffect 0) s =
        .next (s1.write s.myDie q.tier q.off (leBytes (datumFreed q.shared (leNat bs)) 8) false).1) ∧
    (∀ package core : Nat, package < 1024 → core < 4096 → datumFreed false (datumTaken package core) = 0) ∧
    (∀ w w' p c : Nat, grantWord p c w true = some w' → datumFreed true w' = w)

/-- A.PLD reads the present plane, whose value it takes in its read cycle; A.PST records a store that the next step settles
(12 R256, R259, R260, R262).
The choices in it that are the model's own: log entry 5. -/
def Obligations.PlaneWords : Prop :=
  ∀ (s : State) (v ca p : W64) (rest : List W64) (j near : Nat), (s.die s.myDie).regionAt ca.toNat = some j →
    near = (if ca.toNat / 2 ^ 20 = s.actor % 512 / 16 then 3 else 9) →
    (CanIssue .a .aPld s → top .a s = ca :: rest → ca.toNat % regionWidth ((s.die s.myDie).reg j) = 0 →
      completes .a .aPld (if ca.toNat / 2 ^ 20 = s.actor % 512 / 16 then 7 else 19) s
        ((plane ca.toNat 2 8 ((arrived .a s).setStack .a rest)).updMe fun k =>
          k.later .a (s.cycle + near) (.plane ca.toNat (regionWidth ((s.die s.myDie).reg j)) none near))) ∧
    (∀ q : BitVec 2, CanIssue .a (.aPldQueue q) s → top .a s = v :: ca :: rest → ca.toNat % 128 = 0 →
      v.toNat < 16 → v ≠ 13 → s.me.bound q.toNat = false → s.me.room q.toNat 1 = true →
      completes .a (.aPldQueue q) 1 s ((plane ca.toNat 2 8 ((arrived .a s).setStack .a rest)).updMe fun k =>
        k.later .a (s.cycle + near) (.plane ca.toNat 128 (some (q.toNat, v.toNat)) near))) ∧
    (∀ (l : Late) (n after : Nat),
      s.sample l ca.toNat n after none = s.setStack .a (w64 (leNat ((s.die s.myDie).pres ca.toNat n)) :: s.stack .a) ∧
      ∀ q f : Nat, s.sample l ca.toNat n after (some (q, f)) = s.updMe fun k => k.later l.eng (l.at_ + after)
        (.push q [QEntry.full f ((s.die s.myDie).pres ca.toNat n)] none 0)) ∧
    ((s.die s.myDie).mayStore (regionGroup ((s.die s.myDie).reg j)) s.actor ca.toNat = none →
      (CanIssue .a .aPst s → top .a s = ca :: v :: rest → ca.toNat % regionWidth ((s.die s.myDie).reg j) = 0 →
        completes .a .aPst 1 s ((plane ca.toNat 4 12 ((arrived .a s).setStack .a rest)).updDie s.myDie fun d =>
          d.planeStore s.actor (s.me.here .a) ca.toNat
            ((leBytes v.toNat (regionWidth ((s.die s.myDie).reg j))).map some) none)) ∧
      (CanIssue .a .aPstPri s → top .a s = p :: ca :: v :: rest → p.toNat < 65536 →
        regionRule ((s.die s.myDie).reg j) = 0 → ca.toNat % regionWidth ((s.die s.myDie).reg j) = 0 →
        completes .a .aPstPri 1 s ((plane ca.toNat 4 12 ((arrived .a s).setStack .a rest)).updDie s.myDie fun d =>
          d.planeStore s.actor (s.me.here .a) ca.toNat
            ((leBytes v.toNat (regionWidth ((s.die s.myDie).reg j))).map some) (some p.toNat))) ∧
      (∀ (q : BitVec 1) (e : QEntry) (es : List QEntry), s.me.queue (4 + q.toNat) = e :: es →
        s.me.bound (4 + q.toNat) = false → fmtBytes e.fmt = regionWidth ((s.die s.myDie).reg j) → ca.toNat % 128 = 0 →
        (CanIssue .a (.aPstQueue q) s → top .a s = ca :: rest →
          completes .a (.aPstQueue q) 1 s
            ((plane ca.toNat 4 12 (((arrived .a s).setStack .a rest).updMe fun k => k.setQueue (4 + q.toNat) es)).updDie
              s.myDie fun d => d.planeStore s.actor (s.me.here .a) ca.toNat e.enabled none)) ∧
        (CanIssue .a (.aPstPriQueue q) s → top .a s = p :: ca :: rest → p.toNat < 65536 →
          regionRule ((s.die s.myDie).reg j) = 0 →
          completes .a (.aPstPriQueue q) 1 s
            ((plane ca.toNat 4 12 (((arrived .a s).setStack .a rest).updMe fun k => k.setQueue (4 + q.toNat) es)).updDie
              s.myDie fun d => d.planeStore s.actor (s.me.here .a) ca.toNat e.enabled (some p.toNat)))))

/-- S.STEP arrives at its group's step and ends when the step has taken effect; the step flips every pending word, or drops
the stores, or finds a collision (12 R256-R258, R261).
The choices in it that are the model's own: log entry 30. -/
def Obligations.StepWords : Prop :=
  ∀ (s : State) (g : BitVec 4), (s.die s.myDie).formed g.toNat = true →
    (s.die s.myDie).groupFrozen g.toNat = false →
    (∀ (i : Instr) (drop : Bool), (i = .sStep g ∧ drop = false ∨ i = .sStepDrop g ∧ drop = true) → CanIssueS i s →
      ((s.die s.myDie).group g.toNat).live.contains s.actor = true →
      (∀ (h : Nat) (b : Bool) (p : Option W64), s.me.swait = .step h b true p →
        completesS i 1 s (s.updMe fun k => { k with swait := .none })) ∧
      (s.me.swait = .none → s.me.planeDue ≤ s.cycle →
        (∀ c ∈ s.me.kop.copies, c.landed = true ∨
          (c.geo.ss = 3 → c.pieces.length ≤ c.taken) ∧ (c.geo.ds = 3 → c.pieces.length ≤ c.taken ∧ c.moves = [])) →
        waitsS i s ((s.updDie s.myDie fun d => d.setGroup g.toNat
            { (s.die s.myDie).group g.toNat with
              arrived := ((s.die s.myDie).group g.toNat).arrived ++
                [(s.actor, drop, s.cycle, s.cycle - if s.me.leg.timed then s.me.slipped else 0)] }).updMe fun k =>
          { k with swait := .step g.toNat drop false none }))) ∧
    (((s.die s.myDie).group g.toNat).complete = true → ((s.die s.myDie).group g.toNat).settleAt ≤ s.cycle →
      ((((s.die s.myDie).group g.toNat).arrived.any fun a => a.2.1) = true →
        exec (.stepSettle g) s = .next (((stepLateAll g.toNat s).updDie s.myDie fun d =>
          ((d.dropStores g.toNat).setGroup g.toNat { (d.dropStores g.toNat).group g.toNat with arrived := [] }).countStep
            g.toNat).stepDone g.toNat (((s.die s.myDie).group g.toNat).arrived.map fun a => a.1))) ∧
      ((((s.die s.myDie).group g.toNat).arrived.any fun a => a.2.1) = false → (s.die s.myDie).collision g.toNat = none →
        exec (.stepSettle g) s = .next (((stepLateAll g.toNat s).updDie s.myDie fun d =>
          ((d.flip g.toNat).setGroup g.toNat { (d.flip g.toNat).group g.toNat with arrived := [] }).countStep
            g.toNat).stepDone g.toNat (((s.die s.myDie).group g.toNat).arrived.map fun a => a.1))) ∧
      (∀ (a : Nat) (xs : List PlaneStore) (x y : PlaneStore),
        (((s.die s.myDie).group g.toNat).arrived.any fun a => a.2.1) = false →
        (s.die s.myDie).collision g.toNat = some (a, xs) → firstStore xs = some x →
        firstStore (xs.filter fun z => decide (some z ≠ some x)) = some y →
        exec (.stepSettle g) s = .next ((((s.die s.myDie).group g.toNat).arrived.map fun a => a.1).foldl
          (fun u c => u.updCore c fun k => { k with swait := .none }.takeTrap 7 (k.en .c).pc .plane (w64 a) u.cycle)
          (((stepLateAll g.toNat s).updDie s.myDie fun d =>
            d.setGroup g.toNat { d.group g.toNat with arrived := [] }).updDie s.myDie fun d =>
              d.setReg (1552 + g.toNat) (w64 (2 ^ 63 + y.rank * 2 ^ 51 + x.rank * 2 ^ 42 + a)))))) ∧
    (((s.die s.myDie).group g.toNat).arrived ≠ [] → ((s.die s.myDie).group g.toNat).complete = false →
      bits ((s.die s.myDie).reg 272) 0 32 ≠ 0 →
      (∃ m ∈ ((s.die s.myDie).group g.toNat).live, (s.core m).run ≠ .running) →
      (∀ a ∈ ((s.die s.myDie).group g.toNat).arrived, a.2.2.1 + bits ((s.die s.myDie).reg 272) 0 32 ≤ s.cycle) →
      exec (.stepAbsenceLimit g) s = .next (((s.die s.myDie).group g.toNat).live.foldl State.preemptCore s))

/-- Under rule PRIORITY a pending word takes the value of the store with the greatest priority among the last stores of the
ranks, the greater rank on equal priorities; under SUM the exact sum of the stores, brought to the nearer extreme outside 64
bits; under FAULT its one store's value (12 R257). -/
def Obligations.PlaneSettlement : Prop :=
  (∀ (v : W64) (xs : List PlaneStore), regionRule v = 0 → xs ≠ [] →
    ∃ x ∈ xs, settleWord v xs = (x.val, false) ∧ (∀ y ∈ xs, y.rank = x.rank → x.before y = false) ∧
      ∀ y ∈ xs, (∀ z ∈ xs, z.rank = y.rank → y.before z = false) →
        y.pri < x.pri ∨ (y.pri = x.pri ∧ y.rank ≤ x.rank)) ∧
  (∀ (v : W64) (xs : List PlaneStore), regionRule v = 1 →
    ((-(2 ^ 63) ≤ storeSum xs ∧ storeSum xs < 2 ^ 63 →
        settleWord v xs = ((BitVec.ofInt 64 (storeSum xs)).toNat, false)) ∧
      (storeSum xs < -(2 ^ 63) → settleWord v xs = (2 ^ 63, true)) ∧
      (2 ^ 63 ≤ storeSum xs → settleWord v xs = (2 ^ 63 - 1, true)))) ∧
  (∀ (v : W64) (x : PlaneStore), regionRule v = 2 → settleWord v [x] = (x.val, false))

/-- S.BIND and S.BIND.u wait for the binding table, which records or refuses the change, and then end (16 R330).
The S.TOKEN words end once answered; a request that meets no conflict is granted, one that does has the holders in its way
revoked (14 R293-R295).
The choices in it that are the model's own: log entries 21, 32, 83. -/
def Obligations.BindAndTokenWords : Prop := BindWords ∧ TokenWords

/-- A.SFLD writes a descriptor field, A.SGO starts a walk at POS, A.SSTOP ends one, A.SPOS reads or sets POS and A.AGEN
computes an element's address (06 R131, R132, R141-R144, R150).
The choices in it that are the model's own: log entry 77. -/
def Obligations.StreamWords : Prop :=
  ∀ (s : State) (g : BitVec 4) (v : W64) (rest : List W64),
    (∀ i : BitVec 5, CanIssue .a (.aSfld g i) s → top .a s = v :: rest → (s.me.stream g.toNat).active = false →
      fieldFits i.toNat v = true →
      completes .a (.aSfld g i) 1 s (((arrived .a s).setStack .a rest).updMe fun k => k.setStream g.toNat
        { s.me.stream g.toNat with fields := SMap.set 0 (s.me.stream g.toNat).fields i.toNat (fieldKept i.toNat v) })) ∧
    (∀ i : Nat, i ≠ 19 → i ≠ 20 → fieldKept i v = v) ∧
    (CanIssue .a (.aSgo g) s → (s.me.stream g.toNat).active = false → s.me.bound ((s.me.stream g.toNat).fld 16).toNat = false →
      (s.me.stream g.toNat).legal = true → (s.me.stream g.toNat).pos < (s.me.stream g.toNat).total →
      completes .a (.aSgo g) 1 s ((arrived .a s).updMe fun k => { k.setStream g.toNat { s.me.stream g.toNat with
        active := true, next := (s.me.stream g.toNat).pos, part := [], stopping := false, sgo := (s.me.en .a).pc
        nextRun := s.cycle + 1, asked := [] } with tagLag := SMap.set 0 k.tagLag g.toNat (s.me.en .a).lag })) ∧
    (CanIssue .a (.aSstop g) s → (s.me.stream g.toNat).active = false →
      completes .a (.aSstop g) 1 s (arrived .a s)) ∧
    (CanIssue .a (.aSstop g) s → (s.me.stream g.toNat).active = true →
      completes .a (.aSstop g) 1 s ((arrived .a s).updMe fun k => k.later .a (s.cycle + 1) (.halt g.toNat))) ∧
    (CanIssue .a (.aSstopDrain g) s → (s.me.stream g.toNat).active = false →
      completes .a (.aSstopDrain g) 1 s (arrived .a s)) ∧
    (CanIssue .a (.aSpos g) s → (top .a s).length < 8 →
      completes .a (.aSpos g) 1 s ((arrived .a s).setStack .a (BitVec.ofNat 64 (s.me.stream g.toNat).pos :: top .a s))) ∧
    (CanIssue .a (.aSposSet g) s → top .a s = v :: rest → (s.me.stream g.toNat).active = false →
      v.toNat < (s.me.stream g.toNat).total →
      completes .a (.aSposSet g) 1 s (((arrived .a s).setStack .a rest).updMe fun k => k.setStream g.toNat
        { s.me.stream g.toNat with pos := v.toNat, next := v.toNat })) ∧
    (CanIssue .a (.aAgen g) s → top .a s = v :: rest → (s.me.stream g.toNat).legal = true →
      v.toNat < (s.me.stream g.toNat).total →
      completes .a (.aAgen g) 3 s ((arrived .a s).setStack .a
        (((s.me.stream g.toNat).addr v.toNat).elim (BitVec.allOnes 64) (BitVec.ofNat 64) :: rest)))

/-- A run of a load stream reads the elements the scratchpad holds and sends them on to its queue, and one of a store stream
sends on the enabled elements of its queue's entries, the head's first; a store stream whose walk and stores are complete becomes
inactive (06 R132-R136, R143).
The choices in it that are the model's own: log entries 26, 79. -/
def Obligations.StreamRuns : Prop :=
  ∀ (s : State) (g : BitVec 4) (x : Stream) (a j1 n : Nat), x = s.me.stream g.toNat → s.me.run = .running →
    s.me.fenceOn 5 s.cycle = false → s.me.acquiring = false → s.owedHeld s.actor g.toNat = false → s.me.leg.timed = false →
    x.active = true →
    (s.me.runTurn g.toNat s.cycle = true → s.me.overdue g.toNat s.cycle = false → PlainPadStream x → x.nextRun ≤ s.cycle →
      x.next < x.total → x.asked = [] → x.addr x.next = some a → a % x.unit = 0 → a < 0x40000 → n = x.runBytes x.next j1 →
      s.me.filling a n = false →
      ((x.fld 16).toNat < 4 → s.me.portTaken (portsOf false a n) = false → j1 = x.loadEnd x.next x.part.length →
        ∀ k : Core, k = ((s.me.setStream g.toNat { x with nextRun := s.cycle + 1 }).takePorts (portsOf false a n)).padLanded →
          k.firstUnwritten a n = none →
          exec (.streamRun g) s = .next (s.setMe ((k.dropLoads .a (g.toNat + 1)).deliverRun g.toNat
            ((List.range (j1 - x.next)).map fun i => leNat (((k.padBytes a n).drop (i * x.unit)).take x.unit))
            (s.cycle + 3)))) ∧
      (∀ (e : QEntry) (es : List QEntry), ¬(x.fld 16).toNat < 4 → s.me.portTaken (runPorts a n) = false →
        s.me.queue (x.fld 16).toNat = e :: es → e.fmt = x.dfmt →
        (∀ m ll : Nat, m = ((e :: es).takeWhile fun y => y.fmt == x.dfmt).length → ll = min x.total (x.next + (x.per * m - e.done)) →
          j1 = x.endOf x.next ll ll →
          exec (.streamRun g) s = .next (s.updMe fun k =>
            ((((k.setStream g.toNat { x with nextRun := s.cycle + 1 }).later .a (s.cycle + 2) (.pad a
              ((List.range (j1 - x.next)).flatMap fun i =>
                let y := (e :: es).getD ((e.done + i) / x.per) e
                if y.enable / 2 ^ ((e.done + i) % x.per) % 2 = 1 then
                  (leBytes (leNat ((y.bytes.drop ((e.done + i) % x.per * x.unit)).take x.unit)) x.unit).map some
                else List.replicate x.unit none) g.toNat)).takePorts (runPorts a n)).dropLoads .a (g.toNat + 1)).passStored g.toNat
              (j1 - x.next))))) ∧
    (¬(x.fld 16).toNat < 4 → x.total ≤ x.next → s.storing g.toNat = false →
      exec (.streamDrained g) s = .next (s.updMe fun k => k.setStream g.toNat
        { x with pos := 0, next := 0, part := [], active := false, stopping := false, asked := [] }))

/-- A.LDQ and A.STQ move a line between the scratchpad and a queue; A.LDG and A.STG post a line's move between the
scratchpad and memory (06 R145-R147).
The choices in it that are the model's own: log entries 5, 29. -/
def Obligations.LineWords : Prop :=
  ∀ (s : State) (sa va f : W64) (rest : List W64), LineFree (arrived .a s) sa →
    (∀ q : BitVec 2, CanIssue .a (.aLdq q) s → top .a s = f :: sa :: rest → f.toNat < 16 → f ≠ 13 →
      s.me.bound q.toNat = false → s.me.room q.toNat 1 = true →
      (readPad sa.toNat 128 ((arrived .a s).setStack .a rest)).me.firstUnwritten sa.toNat 128 = none →
      completes .a (.aLdq q) 1 s ((readPad sa.toNat 128 ((arrived .a s).setStack .a rest)).updMe fun k =>
        k.later .a (s.cycle + 3) (.push q.toNat [QEntry.full f.toNat (k.padBytes sa.toNat 128)] none 0))) ∧
    (∀ (q : BitVec 1) (e : QEntry) (es : List QEntry), CanIssue .a (.aStq q) s → top .a s = sa :: rest →
      s.me.bound (4 + q.toNat) = false → s.me.queue (4 + q.toNat) = e :: es →
      completes .a (.aStq q) 1 s ((atPad true sa.toNat 128 ((arrived .a s).setStack .a rest)).updMe fun k =>
        (k.setQueue (4 + q.toNat) es).padWriteSome sa.toNat e.enabled)) ∧
    (∀ (c : BitVec 2) (p : Place) (s2 : State), s.me.leg.timed = false →
      (CanIssue .a (.aLdg c) s → top .a s = sa :: va :: rest →
        locate ((arrived .a s).setStack .a rest) va 128 true false = .at_ p s2 →
        completes .a (.aLdg c) 1 s (s2.updMe fun k => { k.padLanded with posted := k.posted ++
          [{ eng := .a, die := p.die, peer := p.peer, tier := p.tier, off := p.off, va := va, klock := p.klock
             mt := p.mt, cls := c.toNat, write := none, pad := sa.toNat, tpc := (k.en .a).pc }] })) ∧
      (CanIssue .a (.aStg c) s → top .a s = sa :: va :: rest →
        locate ((arrived .a s).setStack .a rest) va 128 false true = .at_ p s2 →
        (readPad sa.toNat 128 s2).me.firstUnwritten sa.toNat 128 = none →
        completes .a (.aStg c) 1 s ((readPad sa.toNat 128 s2).updMe fun k => { k with posted := k.posted ++
          [{ postedWrite .a p va c.toNat (k.padBytes sa.toNat 128) with tpc := (k.en .a).pc }] })))

/-- A.ALLOC clears the valid bits of a run of words; A.VALID counts them, finds the first that is not valid, or makes every
word valid, a word that was not reading as zero (06 R140, R148, R149).
The choices in it that are the model's own: log entry 25. -/
def Obligations.ValidBitWords : Prop :=
  ∀ (s s1 : State) (sa n : W64) (rest : List W64), top .a s = n :: sa :: rest → WordsFree (arrived .a s) sa n →
    s1 = atPad false 0 0 ((arrived .a s).setStack .a rest) →
    (CanIssue .a .aAlloc s → completes .a .aAlloc (wordsDistance n) s (s1.updMe fun k =>
      { k with valid := k.valid.filter fun p => !(decide (sa.toNat / 4 ≤ p.1) && decide (p.1 < sa.toNat / 4 + n.toNat))
               cleared := (sa.toNat / 4, sa.toNat / 4 + n.toNat) :: k.cleared })) ∧
    (CanIssue .a .aValidCnt s → completes .a .aValidCnt (wordsDistance n) s (s1.setStack .a
      (BitVec.ofNat 64 ((List.range n.toNat).countP fun j => SMap.get false s1.me.valid (sa.toNat / 4 + j)) :: rest))) ∧
    (CanIssue .a .aValidFirst s → completes .a .aValidFirst (wordsDistance n) s (s1.setStack .a
      (BitVec.ofNat 64 (((List.range n.toNat).find? fun j => !SMap.get false s1.me.valid (sa.toNat / 4 + j)).getD
        n.toNat) :: rest))) ∧
    (CanIssue .a .aValidSet s → ∃ (pad : SMap Byte) (valid : SMap Bool),
      completes .a .aValidSet (wordsDistance n) s
        (s1.updMe fun k => { k with pad := pad, valid := valid }) ∧
      (∀ x, Core.padByte { s1.me with pad := pad, valid := valid } x = s1.me.padByte x) ∧
      ∀ w, SMap.get false valid w =
        (SMap.get false s1.me.valid w || (decide (sa.toNat / 4 ≤ w) && decide (w < sa.toNat / 4 + n.toNat))))

/-- A write of one byte makes its word valid, keeps the other bytes of a valid word, zeroes those of an invalid one, and
changes no other word (06 R125). -/
def Obligations.ScratchpadWrite : Prop :=
  ∀ (k : Core) (sa a w : Nat) (b : Byte),
    (k.padPut sa b).padByte a = (if a = sa then b else k.padByte a) ∧
    SMap.get false (k.padPut sa b).valid w = (SMap.get false k.valid w || w == sa / 4)

/-- A.ALU computes on the access stack, and A.XQ counts, empties, drops the head of or fills a queue (06 R151, R152).
The choices in it that are the model's own: log entry 80. -/
def Obligations.AccessAluAndQueues : Prop :=
  ∀ (s : State) (a b : W64) (rest : List W64),
    (∀ o : BitVec 3, CanIssue .a (.aAlu o) s → top .a s = b :: a :: rest →
      completes .a (.aAlu o) (if o = 2 then 3 else 1) s ((arrived .a s).setStack .a
        ((match o with
          | 0 => a + b | 1 => a - b | 2 => a * b | 3 => a &&& b | 4 => a ||| b | 5 => a ^^^ b | 6 => a <<< b.toNat
          | _ => a >>> b.toNat) :: rest))) ∧
    (∀ q : BitVec 3, CanIssue .a (.aXqCount q) s → (top .a s).length < 8 →
      completes .a (.aXqCount q) 1 s ((arrived .a s).setStack .a
        (BitVec.ofNat 64 (s.me.queue q.toNat).length :: top .a s))) ∧
    (∀ q : BitVec 3, s.me.bound q.toNat = false →
      (CanIssue .a (.aXqFlush q) s → completes .a (.aXqFlush q) 1 s ((arrived .a s).updMe fun k => k.setQueue q.toNat [])) ∧
      (CanIssue .a (.aXqDrop q) s → completes .a (.aXqDrop q) 1 s ((arrived .a s).updMe fun k =>
        k.setQueue q.toNat ((s.me.queue q.toNat).drop 1))) ∧
      (CanIssue .a (.aXqPut q) s → q.toNat < 4 → top .a s = b :: a :: rest → b.toNat < 16 → b ≠ 13 →
        s.me.room q.toNat 1 = true → s.me.dueIn q.toNat = 0 →
        completes .a (.aXqPut q) 1 s (((arrived .a s).setStack .a rest).updMe fun k => k.enqueue q.toNat
          [QEntry.full b.toNat (elemBytes (fmtBytes b.toNat) (List.replicate (128 / fmtBytes b.toNat) a.toNat))])))

/-- Every elementwise word of E reads its sources and writes each enabled element's result (07 R157-R177, R181).
The choices in it that are the model's own: log entry 10. -/
def Obligations.ElementwiseWords : Prop :=
  ∀ (i : Instr) (x : EForm), elemForm i = some x → vecCompletes i x

/-- Wide products, reductions, transposition, permutation and ternary packing (07 R175, R178-R180; 08 R194). -/
def Obligations.MovingWords : Prop :=
  ∀ (i : Instr) (x : EForm), movingForm i = some x → vecCompletes i x

/-- E.CVT converts each element with one rounding and feeds AMAX; E.QUANT encodes blocks of 32 under a scale; E.AMAX reads
and clears AMAX (08 R187-R193). -/
def Obligations.ConversionWords : Prop :=
  ∀ (s : State) (sh : Shape), sh = shapeOf s.me.vec.shp →
    (∀ (d : BitVec 5) (p : BitVec 1) (a b : BitVec 5) (r : BitVec 2) (o : BitVec 3) (f : BitVec 5) (i : Instr)
      (ps : Option W64) (xs : List Val) (rs : List (Option (Nat × Bool))) (at_ : Nat), i = .eCvt d p a b r o f → CanIssue .e i s →
      at_ = s.cycle + 5 + max sh.beats ((sh.n * fmtBytes f.toNat + 127) / 128) →
      sh.ok = true → (o = 0 ∨ sh.fmt = f.toNat) → sh.n * fmtBytes f.toNat ≤ 1024 → VecReady i sh (fmtBytes f.toNat) sh.n s →
      ps = (if o ≠ 1 ∧ b = 22 then some ((top .e s).getD (if a = 22 then 1 else 0) 0) else none) →
      xs = ((vecRead i sh s).1.getD 0 []).map (valueOf sh.fmt) →
      rs = xs.map (fun x => some (round (cvtValue o.toNat (modeOf r.toNat) x ps) f.toNat (modeOf r.toNat))) →
      completes .e i (max sh.beats ((sh.n * fmtBytes f.toNat + 127) / 128)) s
        ((vecWrite (vecRead i sh s).2 p ((s.me.vec.codes i).dst.getD 0) f.toNat (fmtBytes f.toNat) at_ rs).updMe fun k =>
          if ([2, 3, 4, 5, 6, 7, 10, 11] : List Nat).contains f.toNat = true then
            { k with vec := { k.vec with
              amax := BitVec.ofNat 32 (((List.range xs.length).filter fun j => ((written s.me.vec p rs).getD j none).isSome).foldl
                (fun m j => amaxStep m (xs.getD j .nan)) s.me.vec.amax.toNat) }.readyAt [18] at_ }
          else k)) ∧
    (∀ (d : BitVec 5) (p : BitVec 1) (a sd f : BitVec 5) (i : Instr) (bs : List (Nat × List (Nat × Bool))),
      i = .eQuant d p a sd f → CanIssue .e i s → sh.ok = true → 1 ≤ sh.fmt → sh.fmt ≤ 3 → sh.cols % 32 = 0 →
      VecReady i sh 1 sh.n s → s.me.destRoom sd.toNat 1 (sh.n / 32) = true →
      bs = (List.range (sh.n / 32)).map (fun j => quantBlock f.toNat
        (((((vecRead i sh s).1.getD 0 []).map (valueOf sh.fmt)).drop (32 * j)).take 32)) →
      completes .e i (2 * sh.beats + 2) s
        ((vecWrite (vecRead i sh s).2 p d.toNat f.toNat 1 (s.cycle + 12 + 2 * sh.beats)
            ((bs.flatMap fun x => x.2).map some)).updMe fun k =>
          k.writeDest sd.toNat 15 1 (bs.map fun x => some x.1) (s.cycle + 12 + 2 * sh.beats))) ∧
    ((top .e s).length < 8 →
      (CanIssue .e .eAmax s →
        completes .e .eAmax 1 s ((arrived .e s).setStack .e (s.me.vec.amax.setWidth 64 :: top .e s))) ∧
      (CanIssue .e .eAmaxReset s →
        completes .e .eAmaxReset 1 s (((arrived .e s).setStack .e (s.me.vec.amax.setWidth 64 :: top .e s)).updVec
          fun x => { x with amax := 0 }))) ∧
    (CanIssue .e .eAmaxClear s →
      completes .e .eAmaxClear 1 s ((arrived .e s).updVec fun x => { x with amax := 0 }))

/-- E.MASK sets the bits of EM that stand for elements, from its source, by inversion, or as a rectangle (08 R195, R196). -/
def Obligations.MaskWords : Prop :=
  ∀ (s : State) (sh : Shape) (a : BitVec 5) (f : BitVec 3) (u v : W64) (rest : List W64), sh = shapeOf s.me.vec.shp →
    CanIssue .e (.eMask a f) s → (f = 4 ∨ sh.ok = true) → (f = 5 → top .e s = v :: u :: rest) →
    (f.toNat ≤ 2 → VecReady (.eMask a f) sh 1 0 s) →
    ∃ em : BitVec 1024,
      completes .e (.eMask a f) (if f.toNat ≤ 2 then sh.beats else 1) s
        ((if f.toNat ≤ 2 then (vecRead (.eMask a f) sh s).2
          else if f = 5 then (arrived .e s).setStack .e rest else arrived .e s).updVec fun x =>
            { x with em := em }.readyAt [16] (s.cycle + if f.toNat ≤ 2 then 4 + sh.beats else 2)) ∧
      ∀ j, j < 1024 → em.getLsbD j = maskBit f sh s.me.vec.em ((vecRead (.eMask a f) sh s).1.getD 0 []) u v j

/-- E.SHAPE writes or pushes SHP, E.REP arms a repetition, and E.XQ counts, drops, copies or extracts (07 R182, R183,
R185). -/
def Obligations.ShapeRepeatAndQueueWords : Prop :=
  ∀ (s : State) (sh : Shape) (v : W64) (rest : List W64), sh = shapeOf s.me.vec.shp →
    (CanIssue .e .eShape s → top .e s = v :: rest → v &&& ~~~ 0x7F0F1F = 0 →
      ((shapeOf v).ok = true → (shapeOf v).rows * (shapeOf v).cols * fmtBytes (shapeOf v).fmt ≤ 1024) →
      completes .e .eShape 1 s (((arrived .e s).setStack .e rest).updVec fun x => { x with shp := v })) ∧
    (CanIssue .e .eShapeGet s → (top .e s).length < 8 →
      completes .e .eShapeGet 1 s ((arrived .e s).setStack .e (s.me.vec.shp :: top .e s))) ∧
    (∀ (m : BitVec 2) (n : BitVec 4), CanIssue .e (.eRep m n) s → s.me.vec.rep = none →
      completes .e (.eRep m n) 1 s
        ((arrived .e s).updVec fun x => { x with rep := some { n := n.toNat + 1, mode := m.toNat, k := 0 } })) ∧
    (∀ (d : BitVec 5) (p : BitVec 1) (a : BitVec 5), a.toNat < 20 → 16 ≤ a.toNat → s.me.bound (a.toNat - 16) = false →
      (CanIssue .e (.eXq d p a 1) s →
        completes .e (.eXq d p a 1) 1 s ((arrived .e s).updMe fun k =>
          if s.me.readable (a.toNat - 16) = 0 then k
          else k.setQueue (a.toNat - 16) ((s.me.queue (a.toNat - 16)).drop 1))) ∧
      (CanIssue .e (.eXq d p a 2) s → sh.ok = true → s.me.rstatDue = false →
        sh.beats ≤ s.me.readable (a.toNat - 16) →
        (∀ e ∈ (s.me.queue (a.toNat - 16)).take sh.beats, e.fmt = sh.fmt) →
        completes .e (.eXq d p a 2) sh.beats s ((arrived .e s).updMe fun k => k.writeDest d.toNat sh.fmt sh.eb
          ((written s.me.vec p ((elemsOf sh.eb sh.n (((s.me.queue (a.toNat - 16)).take sh.beats).flatMap fun e => e.bytes)).map
            fun e => some (e, false))).map fun r => r.map fun x => x.1) (s.cycle + 4 + sh.beats)))) ∧
    (∀ (d : BitVec 5) (p : BitVec 1) (a : BitVec 5),
      (CanIssue .e (.eXq d p a 0) s → (a.toNat < 20 → s.me.bound (a.toNat - 16) = false) → (top .e s).length < 8 →
        completes .e (.eXq d p a 0) 1 s ((arrived .e s).setStack .e
          (BitVec.ofNat 64 (s.me.queue (a.toNat - 16)).length :: top .e s))) ∧
      (CanIssue .e (.eXq d p a 3) s → top .e s = v :: rest → sh.ok = true → v.toNat < sh.n →
        (a.toNat < 16 → s.me.rstatDue = false) → (arrived .e s).me.tilesPending .e (accTiles [a.toNat]) s.cycle = false →
        completes .e (.eXq d p a 3) 1 s (((arrived .e s).setStack .e
          (BitVec.ofNat 64 (((arrived .e s).me.readSource sh a.toNat).1.getD v.toNat 0) :: rest)).updMe fun k =>
            { k.readTiles (accTiles [a.toNat]) (s.cycle + 1) with vec := k.vec.readyAt [17] (s.cycle + 4) })))

/-- What a source gives: a V register its bytes, an accumulator tile its image, a load queue the entries it pops, PS one
value in every element, ZERO zeros (07 R154, R157). -/
def Obligations.SourceElements : Prop :=
  ∀ (k : Core) (sh : Shape) (j : Nat), j < sh.n →
    (∀ r, r < 16 → (k.readSource sh r).2 = k ∧
      (k.readSource sh r).1.getD j 0 =
        leNat ((List.range sh.eb).map fun q => SMap.get 0 k.vec.v (1024 * r + j * sh.eb + q))) ∧
    (∀ t, t < 8 → (k.readSource sh (24 + t)).2 = k ∧
      (k.readSource sh (24 + t)).1.getD j 0 =
        leNat ((List.range sh.eb).map fun q => SMap.get 0 k.mat.acc (1024 * t + j * sh.eb + q))) ∧
    (∀ q, q < 4 → (∀ e ∈ (k.queue q).take sh.beats, e.bytes.length = 128) → sh.beats ≤ (k.queue q).length → 128 % sh.eb = 0 →
      (k.readSource sh (16 + q)).2 = k.setQueue q ((k.queue q).drop sh.beats) ∧
      (k.readSource sh (16 + q)).1.getD j 0 =
        leNat (((((k.queue q).map fun e => e.bytes).getD (j * sh.eb / 128) []).drop (j * sh.eb % 128)).take sh.eb)) ∧
    (k.readSource sh 22).1.getD j 0 = ((k.en .e).stack.getD 0 0).toNat % 2 ^ (8 * sh.eb) ∧
    (k.readSource sh 23).2 = k ∧ (k.readSource sh 23).1.getD j 0 = 0

/-- A V destination receives the written elements, byte by byte, to stand at the cycle given, and no other byte of any register
changes (07 R154, R158, R163). -/
def Obligations.RegisterDestination : Prop :=
  ∀ (k : Core) (r fmt w at_ : Nat) (xs : List (Option Nat)), r < 16 → 0 < w →
    (∀ (j q v : Nat), q < w → xs.getD j none = some v →
      SMap.get 0 (k.writeDest r fmt w xs at_).vec.v (1024 * r + j * w + q) = BitVec.ofNat 8 (v / 256 ^ q)) ∧
    (∀ a, (∀ j q v, q < w → xs.getD j none = some v → a ≠ 1024 * r + j * w + q) →
      SMap.get 0 (k.writeDest r fmt w xs at_).vec.v a = SMap.get 0 k.vec.v a) ∧
    ∃ v, k.writeDest r fmt w xs at_ =
      { k with vec := { k.vec with v := v }.readyAt ((List.range ((xs.length * w + 1023) / 1024)).map (r + ·)) at_ }

/-- M.CLAIM marks a run of slots, once nothing uses slots that change their claim, and M.RELEASE frees one (09 R199-R201).
M.WLOAD loads the shadow plane from its slots, M.SWAP exchanges the planes, and M.ROUTE writes or pushes RT (09 R203-R205,
R214; 03 R56).
M.ACC clear, clearpair and load zero or fill their tiles and no other byte (09 R211). -/
def Obligations.MatrixSlotsPlanesAndAccumulator : Prop := SlotClaims ∧ PlaneLoadsAndRouting ∧ AccumulatorWords

/-- M.MMA and M.TMMA add to every element inside the masks the products of its row of A and its column of the active plane,
with one rounding, and change no other byte of the accumulators; the result is visible 12 cycles behind the occupancy (03 R62;
09 R206-R210, R215).
The choices in it that are the model's own: log entry 85. -/
def Obligations.MatrixProducts : Prop :=
  ∀ (i : Instr) (k n : Nat) (p : Plane) (x : Product) (s : State) (a rm cm dm : W64) (rest : List W64) (r c d : Nat),
    productWord i = some (k, n) → s.me.mat.active = some p → productOf i p = some x → CanIssue .m i s →
    top .m s = dm :: cm :: rm :: a :: rest → maskIs rm 16 r → maskIs cm 16 c → maskIs dm (x.depth / x.per) d →
    SlotsUsable s a.toNat x.slots false → s.me.epiDue a.toNat x.slots = false → TilesFree s (tilesOf x.pair k) →
    laterTile s.me.mat.made (tilesOf x.pair k) s.cycle = false → s.me.heldWord .m = false →
    ∃ acc : SMap Byte,
      completes .m i n s ((((arrived .m s).setStack .m rest).stickIf
        ((List.range 256).any fun j => r.testBit (j / 16) && c.testBit (j % 16) &&
          (productElem x p s.me.mat k d (SMap.slice 0 s.me.mat.slots (512 * a.toNat) (512 * x.slots)) (j / 16) (j % 16)).2) 0).updMat
        fun m => { m with
          acc := acc
          seen := markTiles m.seen (tilesOf x.pair k) (s.cycle + n + 12)
          arrayAt := s.cycle + n, arrayFol := false }) ∧
      (∀ j, j < 256 → accBits { s.me.mat with acc := acc } k x.pair (j / 16) (j % 16) =
        if r.testBit (j / 16) && c.testBit (j % 16) then
          (productElem x p s.me.mat k d (SMap.slice 0 s.me.mat.slots (512 * a.toNat) (512 * x.slots)) (j / 16) (j % 16)).1
        else accBits s.me.mat k x.pair (j / 16) (j % 16)) ∧
      ∀ b, offTiles (tilesOf x.pair k) b → SMap.get 0 acc b = SMap.get 0 s.me.mat.acc b

/-- M.EPI converts a tile or a pair under its masks and scale, writes the slots, the store queue or the route it names in the
cycles of its schedule, sets SAT where a written element saturated, and clears the tile where Z is 1 (09 R212, R213, R215,
R216).
The choices in it that are the model's own: log entry 85. -/
def Obligations.EpilogueWord : Prop :=
  ∀ (z : BitVec 1) (d : BitVec 2) (k : BitVec 3) (kind acc : BitVec 2) (f : BitVec 5) (i : Instr) (s : State)
    (rm cm sc ds : W64) (rest : List W64) (r c o : Nat) (es : List (Option (Nat × Bool))), i = .mEpi z d k kind acc f →
    CanIssue .m i s →
    top .m s = (if d = 0 then [ds] else []) ++ (if kind = 0 then [] else [sc]) ++ (cm :: rm :: rest) →
    maskIs rm 16 r → maskIs cm 16 c →
    (d = 0 → SlotsUsable s ds.toNat ((256 * fmtBytes f.toNat + 511) / 512) true) →
    (kind = 2 → SlotsUsable s sc.toNat 1 false) → (d = 2 → s.me.mat.rt.getLsbD 63 = true ∧ s.me.routeReady = true) →
    (d = 1 → s.me.room 5 ((256 * fmtBytes f.toNat + 127) / 128) = true) →
    (d = 0 → s.me.epiDue ds.toNat ((256 * fmtBytes f.toNat + 511) / 512) = false) →
    (kind = 2 → s.me.epiDue sc.toNat 1 = false ∧ s.me.heldWord .m = false) →
    (z = 1 → s.me.tileHeld (tilesOf (acc == 2) k.toNat) s.cycle = false) →
    laterTile s.me.mat.seen (tilesOf (acc == 2) k.toNat) s.cycle = false →
    s.me.followHolds (tilesOf (acc == 2) k.toNat) false s.cycle = false →
    o = (if acc = 2 then 8 else 4) →
    es = (List.range 256).map (epiElem s.me k.toNat acc.toNat f.toNat r c kind.toNat (if kind = 0 then 0 else sc)) →
    completes .m i o s
      ((((arrived .m s).setStack .m rest).stickIf (es.any fun e => (e.map fun v => v.2).getD false) 0).updMe fun k0 =>
        let k1 : Core :=
          if d = 0 then
            { k0 with late := k0.late ++ [{ at_ := s.cycle + o + 6, eng := .m, lag := (k0.en .m).lag
                                            act := .slots (512 * ds.toNat) (es.flatMap fun e => match e with
                                              | some v => (leBytes v.1 (fmtBytes f.toNat)).map some
                                              | none => List.replicate (fmtBytes f.toNat) none) }] }
          else if d = 1 then
            { k0 with late := k0.late ++ (sqEntries f.toNat (fmtBytes f.toNat) ((256 * fmtBytes f.toNat + 127) / 128)
                (es.map fun e => e.map fun v => v.1)).mapIdx fun j e =>
                  { at_ := s.cycle + 6 + j, eng := .m, act := .push 5 [e] none 0 } }
          else { k0 with late := k0.late ++ [{ at_ := s.cycle + 6, eng := .m
                                               act := .tile f.toNat k0.mat.rt (es.map fun e => e.map fun v => v.1) }] }
        let m := { k1.mat with arrayAt := s.cycle + o, arrayFol := false }
        { k1 with mat := if z = 1 then (m.clearTiles (tilesOf (acc == 2) k.toNat)).wrote (tilesOf (acc == 2) k.toNat) (s.cycle + o)
                         else m })

/-- The K words that set the walk, the convolutions and the counter register, and K.CNT get and K.FOLLOW (11 R230, R233, R239,
R245).
K.CWAIT goes on once the counter has reached its target; K.FLAG waits for, adds to, reads or sets a flag; the events
that end the two waits complete the word the engine stands at (11 R241, R243).
K.PIN pins every page of a run once and K.PIN release takes the pins back (11 R247). -/
def Obligations.CopyStateAndWaitWords : Prop := CopyRegisters ∧ CopyWaitsAndFlags ∧ PinWords

/-- K.COPY submits a copy whose pages translate and are pinned (11 R234, R235, R238).
A copy reads its runs, writes their bytes and completes; its follow-on command starts (11 R237, R242, R246, R248).
The choices in it that are the model's own: log entries 17, 29, 84. -/
def Obligations.CopyWords : Prop := CopySubmission ∧ CopyMovement

/-- W.ROWS begins on rows that pass its checks and holds W for their schedule, W.TIME sets or pushes the row interval, and W.RSTAT
writes the four statistics of each row its mask names into a V register and no other byte of one (10 R219-R226).
The choices in it that are the model's own: log entry 5. -/
def Obligations.RowWords : Prop :=
  ∀ (s : State),
    (∀ (f : BitVec 3) (m : BitVec 2) (x : RowsArgs), CanIssue .w (.wRows f m) s → 6 ≤ (top .w s).length →
      x = RowsArgs.of (if f = 0 then 4 else 2) ((top .w s).take 6) → x.check = none →
      completes .w (.wRows f m) (1 + (x.n - 1) * x.pitch s.me.tp + 3 * x.beats + 16) s
        (((arrived .w s).setStack .w ((top .w s).drop 6)).updMe fun k => { k with
          rows := some { mode := m.toNat, fmt := f.toNat + 1, args := x, base := s.cycle, pe := x.pitch s.me.tp
                         eng := (arrived .w s).me.en .w } })) ∧
    (∀ (v : W64) (rest : List W64), CanIssue .w .wTime s → top .w s = v :: rest → v.toNat < 65536 →
      completes .w .wTime 1 s (((arrived .w s).setStack .w rest).updMe fun k => { k with tp := v.toNat })) ∧
    (CanIssue .w .wTimeGet s → (top .w s).length < 8 →
      completes .w .wTimeGet 1 s ((arrived .w s).setStack .w (BitVec.ofNat 64 s.me.tp :: top .w s))) ∧
    (∀ (i : BitVec 1) (k : BitVec 3) (v rm cm : W64) (rest : List W64) (r c : Nat), CanIssue .w (.wRstat i k) s →
      top .w s = cm :: rm :: v :: rest → maskIs rm 16 r → maskIs cm 16 c → v.toNat < 16 →
      s.me.tilesPending .w [k.toNat] s.cycle = false → s.me.vBusy v.toNat = false →
      SMap.get 0 s.me.vec.ready v.toNat ≤ s.cycle + 14 →
      ∃ regs : SMap Byte,
        completes .w (.wRstat i k) 4 s ((((arrived .w s).setStack .w rest).updVec fun x =>
          { x with v := regs }.readyAt [v.toNat] (s.cycle + 14)).updMe fun k0 => k0.readTiles [k.toNat] (s.cycle + 4)) ∧
        (∀ row q b, row < 16 → q < 4 → b < 4 → r.testBit row = true →
          SMap.get 0 regs (1024 * v.toNat + 16 * row + 4 * q + b) =
            BitVec.ofNat 8 (rowStatistic s.me.mat (if i = 1 then 8 else 1) k.toNat row c q / 256 ^ b)) ∧
        ∀ a, (∀ row, row < 16 → r.testBit row = true → a < 1024 * v.toNat + 16 * row ∨ 1024 * v.toNat + 16 * row + 16 ≤ a) →
          SMap.get 0 regs a = SMap.get 0 s.me.vec.v a)

/-- In the cycles of its schedule a W.ROWS that meets no other access ends; then every element of every row holds the result of
its row as it stood before, and no other byte of the scratchpad reads otherwise than before (10 R219-R222).
The choices in it that are the model's own: log entry 10. -/
def Obligations.RowResults : Prop :=
  ∀ (mode fmt tp : Nat) (x : RowsArgs) (w : Eng) (s t : State),
    (fmt = 1 ∧ x.eb = 4 ∨ (fmt = 2 ∨ fmt = 3) ∧ x.eb = 2) → x.check = none → mode ≤ 2 → s.me.leg.timed = false →
    s.me.rows = some { mode := mode, fmt := fmt, args := x, base := s.cycle, pe := x.pitch tp, eng := w } →
    (∀ i, i < x.n → s.me.firstUnwritten (x.src + i * x.stride) (x.len * x.eb) = none) →
    t = rowsAfter (1 + (x.n - 1) * x.pitch tp + 3 * x.beats + 16) s →
    t.me.rows = none ∧
    (∀ i j b, i < x.n → j < x.len → b < x.eb →
      t.me.padByte (x.dst + i * x.stride + j * x.eb + b) = (rowResult s.me x mode fmt i j).getD b 0) ∧
    ∀ a, (∀ i, i < x.n → a < x.dst + i * x.stride ∨ x.dst + i * x.stride + x.len * x.eb ≤ a) →
      t.me.padByte a = s.me.padByte a

/-- F.AMO and F.ENQ send their operation and go on; the words with a result send theirs and wait for its reply; an F.RLD that
the combining buffer serves and an F.CHASE of a null head complete at once (14 R285, R289, R292, R296-R300).
The choices in it that are the model's own: log entries 5, 29. -/
def Obligations.FarWords : Prop :=
  ∀ (i : Instr) (x : FarForm) (v : List W64) (s : State),
    (∀ (s2 : State) (t : FarTo), x.block = false →
      FarSends i x v s ((arrived .f s).setStack .f ((top .f s).drop x.pops)) s2 t →
      completes .f i 1 s (s2.sendFar (mkFar s2 i v [] (v.getD x.pos 0) t x.cls false))) ∧
    (∀ (s2 : State) (t : FarTo), x.block = true → FarSends i x v s (arrived .f s) s2 t →
      waitsF i s (s2.sendFar (mkFar s2 i v [] (v.getD x.pos 0) t x.cls true))) ∧
    (∀ (h : BitVec 4) (c : BitVec 3) (k : BitVec 6) (key : W64) (rest : List W64), CanIssue .f (.fChase h c k) s →
      s.me.leg.timed = false → top .f s = key :: 0 :: rest →
      completes .f (.fChase h c k) 2 s ((arrived .f s).setStack .f (32 :: 0 :: rest))) ∧
    (∀ (c : BitVec 2) (sgn : BitVec 1) (z : BitVec 2) (va : W64) (rest : List W64) (e : Comb) (bs : List Byte)
      (s2 : State) (t : FarTo), CanIssue .f (.fRld c sgn z) s → top .f s = va :: rest → va.toNat % 2 ^ z.toNat = 0 → s.me.combOf va = some e →
      e.serve va (2 ^ z.toNat) = some bs → bs.length = 2 ^ z.toNat →
      farTo ((arrived .f s).setStack .f rest) va true false false = .ok t s2 →
      completes .f (.fRld c sgn z) 4 s (s2.setStack .f (extended (sgn == 1) (2 ^ z.toNat) bs :: s2.stack .f)))

/-- The memory form of F.CAS reads its words and sends them; F.RST joins a combining-buffer entry or sends a store; F.DRAIN
ends once the engine's posted work is done; the sketch words send their operation (13 R269; 14 R292, R297, R300, R301).
The choices in it that are the model's own: log entries 5, 29. -/
def Obligations.FarMemoryAndSketchWords : Prop :=
  ∀ (s s1 s2 s3 : State) (va ea v : W64) (rest : List W64) (t : FarTo), (arrived .f s).me.farWaits = false →
    s1 = (arrived .f s).setStack .f rest →
    (∀ (n : BitVec 2) (w : BitVec 1) (ws : List W64), CanIssue .f (.fCasM n w) s → s.me.leg.timed = false →
      top .f s = ea :: va :: rest → va.toNat % (2 ^ n.toNat * casBytes w) = 0 → ea.toNat % casBytes w = 0 →
      farTo (arrived .f s) va true true true = .ok t s2 →
      (∀ f : List W64 → State → Res, readPairs (casBytes w) (2 ^ n.toNat) ea (2 * 2 ^ n.toNat) 0 [] s2 f = f ws s3) →
      waitsF (.fCasM n w) s ((loaded .f s3).sendFar ((mkFar (loaded .f s3) (.fCasM n w) [ea, va] ws va t 0 true).delayed
        ((loaded .f s3).pairsTime (casBytes w) (2 ^ n.toNat) ea)))) ∧
    (∀ (c z : BitVec 2), CanIssue .f (.fRst c z) s → top .f s = va :: v :: rest → va.toNat % 2 ^ z.toNat = 0 →
      farTo s1 va false true false = .ok t s2 →
      (combines s2 va t = true → completes .f (.fRst c z) 1 s (s2.combine va t (leBytes v.toNat (2 ^ z.toNat)))) ∧
      (combines s2 va t = false →
        completes .f (.fRst c z) 1 s (s2.sendFar (mkFar s2 (.fRst c z) [va, v] [] va t c.toNat false)))) ∧
    (CanIssue .f .fDrain s → s.me.leg.timed = false →
      ((arrived .f s).flushComb fun _ => true).me.reportAt .f false = none →
      ((arrived .f s).flushComb fun _ => true).me.farDrained = true →
      completes .f .fDrain 1 s ((arrived .f s).flushComb fun _ => true) ∧
      ∀ s0, engineTurn s0 .f = .run .fDrain s → arrived .f s = s →
        exec .farDrainComplete s0 = .next (issued .f .fDrain 1 s (s.flushComb fun _ => true))) ∧
    (∀ (i : Instr) (x : SketchForm) (a : List W64) (home : W64), sketchForm i = some x → CanIssue .f i s →
      a = (top .f s).take x.pops → a.length = x.pops → rest = (top .f s).drop x.pops →
      (s.me.leg.timed = true → (∃ d, i = .fSkup d) ∧ s.me.leg.sketches < 4096) →
      (∀ j, x.count = some j → 1 ≤ (a.getD j 0).toNat ∧ (a.getD j 0).toNat ≤ 2 ^ 20) →
      (∀ j ∈ x.sks, (a.getD j 0).toNat % 64 = 0) → (∀ j n r, x.vals = some (j, n, r) → (a.getD j 0).toNat % n = 0) →
      home = a.getD (x.sks.headD 0) 0 → farTo s1 home true x.write true = .ok t s2 →
      (∀ t2, x.vals = none → x.sks.tail = [] → t2 = s2 →
        completes .f i 1 s ((t2.sendFar (mkFar t2 i a [] home t 0 false)).countSketch)) ∧
      (∀ j t2 u, x.vals = none → x.sks.tail = [j] → farTo s2 (a.getD j 0) true false true = .ok u t2 →
        completes .f i 1 s (t2.sendFar ((mkFar t2 i a [] home t 0 false).also u))) ∧
      (∀ j n r t2 u, x.vals = some (j, n, r) → farTo s2 (a.getD j 0) r (!r) true = .ok u t2 →
        completes .f i 1 s (t2.sendFar ((mkFar t2 i a [] home t 0 false).also u)))) ∧
    (∀ (i : BitVec 1), CanIssue .f (.fSkq i) s → top .f s = v :: va :: rest → va.toNat % 64 = 0 →
      farTo (arrived .f s) va true false true = .ok t s2 →
      waitsF (.fSkq i) s (s2.sendFar (mkFar s2 (.fSkq i) [v, va] [] va t 0 true)))

/-- A Wallower serves an atomic, a compare-and-swap, a load or a store in one go and its result is the old value or the bytes
read; the reply pushes the result and frees the engine, an acknowledgement ends a posted word, a report goes to the engine's
next word; a request of a peer package without DG_INBOUND.EN is reported back; the combining buffer flushes after 256 cycles and
logged updates are applied once their leg is over (13 R275; 14 R286, R287, R290-R292, R296, R297, R300, R302).
The choices in it that are the model's own: log entries 18, 31, 88. -/
def Obligations.FarService : Prop :=
  ∀ (s : State) (k : Nat) (o : FarOp),
    (∀ (w : BitVec 2) (tier off n : Nat) (klock : Bool) (bs : List Byte) (s2 : State), Servable s w k o →
      o.loc = some (tier, off, klock) → s.waits o.die tier off n = false →
      (∀ (op : BitVec 3) (t : BitVec 2) (new : List Byte) (s3 : State), (o.i = .fAmo op t ∨ o.i = .fAmoR op t) →
        n = (if t = 0 ∨ t = 2 then 4 else 8) → (s.uncached s.actor o.die o.va n true).read o.die tier off n = (s2, some bs) →
        new = leBytes (amoResult op t (leNat bs) ((o.args.getD 0 0).toNat % 256 ^ n)) n →
        s2.waits o.die tier off n = false →
        (s2.uncached s2.actor o.die o.va n true).write o.die tier off new klock = (s3, true) →
        exec (.wallowerService w k) s =
          .next (servedAs s s3 w o (if o.i = .fAmoR op t then [BitVec.ofNat 64 (leNat bs)] else []))) ∧
      (∀ (z : BitVec 1) (s3 : State), o.i = .fCas z → n = (if z = 0 then 4 else 8) →
        (s.uncached s.actor o.die o.va n true).read o.die tier off n = (s2, some bs) → bs.length = n →
        (leNat bs ≠ (o.args.getD 1 0).toNat % 256 ^ n →
          exec (.wallowerService w k) s = .next (servedAs s s2 w o [BitVec.ofNat 64 (leNat bs)])) ∧
        (leNat bs = (o.args.getD 1 0).toNat % 256 ^ n → s2.waits o.die tier off n = false →
          (s2.uncached s2.actor o.die o.va n true).write o.die tier off (leBytes (o.args.getD 0 0).toNat n) klock = (s3, true) →
          exec (.wallowerService w k) s = .next (servedAs s s3 w o [BitVec.ofNat 64 (leNat bs)]))) ∧
      (∀ (c : BitVec 2) (sgn : BitVec 1) (z : BitVec 2), o.i = .fRld c sgn z → n = 2 ^ z.toNat → bs.length = n →
        s.farRead s.actor (placeAt o tier off klock) n o.mt = (s2, some bs) →
        exec (.wallowerService w k) s = .next (servedAs s s2 w o [extended (sgn == 1) n bs])) ∧
      (∀ (c z : BitVec 2), o.i = .fRst c z → n = 2 ^ z.toNat → o.flush = [] →
        s.farWrite s.actor (placeAt o tier off klock) (leBytes (o.args.getD 1 0).toNat n) o.mt = (s2, true) →
        exec (.wallowerService w k) s = .next (servedAs s s2 w o []))) ∧
    (∀ at_, s.me.far[k]? = some o → o.served = true → o.back = some at_ → at_ ≤ s.cycle →
      (∀ c v, o.report = some (c, v) → o.block = false → exec (.reportArrival k) s = .next (s.updMe fun x => { x with
        far := x.far.eraseIdx k
        reports := x.reports ++ [{ eng := .f, cause := c, tval := v, tpc := o.tpc, atS := o.logged }] })) ∧
      (o.report = none → o.block = false → (∀ i, o.i ≠ .fSkqN i) →
        exec (.farReply k) s = .next (s.updMe fun c => { c with far := c.far.eraseIdx k })) ∧
      (∀ (r : List W64) (s2 : State), o.report = none → o.block = true →
        ((∀ n z, o.i ≠ .fCasM n z) ∧ (∀ i, o.i ≠ .fSkqN i) ∧ r = o.result ∧ s2 = s ∨
          (∃ n z ok old u, o.i = .fCasM n z ∧ o.result = ok :: old ∧ r = [ok] ∧
            writeBack (if z = 0 then 4 else 8) (o.args.getD 0 0) 0 old s = .ok u s2)) →
        exec (.farReply k) s = .next ((s2.updMe fun c => { c with far := c.far.eraseIdx k }).updMe fun c =>
          (c.updEn .f fun x => { x with stack := r.reverse ++ x.stack.drop o.args.length }).advance .f (lenInstr o.i) 1
            s2.cycle))) ∧
    (∀ (w : BitVec 2) (j : Nat) (r : Inbound), s.inbound[j]? = some r → bits r.addr 55 3 = s.myDie →
      s.unitFree s.myDie w.toNat = true → bits ((s.die s.myDie).reg 351) 4 1 = 0 → r.logged = false →
      r.at_ + r.effectTime s (bits ((s.die s.myDie).reg 351) 0 4) ≤ s.cycle →
      exec (.wallowerService w (s.me.far.length + j)) s = .next
        { (s.updDie s.myDie fun d => { d with wallower := SMap.set 0 d.wallower w.toNat (s.cycle + 1) }) with
          inbound := s.inbound.eraseIdx j
          answers := s.answers ++ [{ package := r.package, ident := r.ident, data := [], report := some (.perm, r.addr) }] }) ∧
    (∀ (j : Nat) (m : PeerMsg), s.peerIn[j]? = some m →
      exec (.farReply (s.me.far.length + j)) s = .next { (s.updCore m.core fun c =>
          { c with peerGot := if c.unasked m then c.peerGot else c.peerGot ++ [m] }) with
        peerIn := s.peerIn.eraseIdx j }) ∧
    (∀ (c : Comb) (cs : List Comb), s.me.comb = c :: cs → c.cycle + 256 ≤ s.cycle →
      exec (.combineTimerFlush 0) s = .next (s.flushComb fun y => decide (y.va = c.va))) ∧
    (∀ (w : BitVec 2) (l : Nat) (ls : List Nat) (x : Logged) (xs : List Logged),
      (s.skLog w.toNat).filterMap (fun x => x.2.2.leg) = l :: ls → s.legOver (ls.foldl min l) = true →
      s.unitFree s.myDie w.toNat = true →
      (∀ x ∈ s.skLog w.toNat, x.2.2.leg = some (ls.foldl min l) → ∃ c, x.2.2.ready = some c ∧ c ≤ s.cycle) →
      ((s.skLog w.toNat).filter (fun x => decide (x.2.2.leg = some (ls.foldl min l))) ++ s.peerLog w.toNat).foldl
        (fun acc x => logInsert x acc) [] = x :: xs →
      exec (.sketchLogApply w) s = .next (State.applyLog w.toNat x s))

/-- F.LAYOUT writes a field of a layout register, F.COLL files a collective that passes its checks, and a collective
completes at its rank once every rank is ready, or fails when a rank is lost or a peer package says so (15 R305, R307, R308, R312, R317, R318).
The choices in it that are the model's own: log entries 18, 29, 33. -/
def Obligations.CollectiveWords : Prop :=
  ∀ (s : State),
    (∀ (n : BitVec 2) (f : BitVec 4) (v : W64) (rest : List W64), CanIssue .f (.fLayout n f) s → top .f s = v :: rest →
      layoutValue f.toNat v →
      completes .f (.fLayout n f) 1 s (((arrived .f s).setStack .f rest).updMe fun k =>
        { k with layouts := SMap.set 0 k.layouts (16 * n.toNat + f.toNat) v })) ∧
    (∀ (e : BitVec 1) (dl sl : BitVec 2) (src dst : Layout) (cs : W64) (rest : List W64) (s1 s2 s4 s5 s6 s7 : State)
      (ranks : List (Nat × Nat)) (ps1 ps : List CopyPage) (p : Place), CanIssue .f (.fColl e dl sl) s →
      top .f s = cs :: rest → s1 = (arrived .f s).setStack .f rest → src = s.me.layout sl.toNat → dst = s.me.layout dl.toNat →
      Layout.ownBad src = none → Layout.ownBad dst = none → Layout.pairBad src dst = none →
      (e = 1 → Layout.epiOk src = true) →
      (∀ f : List (Nat × Nat) → State → Res, readRanks (Layout.ranktab src) (Layout.ranks src) 0 [] s1 f = f ranks s2) →
      (ranks.filter fun r => r == (s2.package % 2 ^ 10, s2.actor)).length = 1 → cs.toNat % 8 = 0 →
      (Layout.base src).toNat % Layout.align src = 0 → (Layout.base dst).toNat % Layout.align dst = 0 →
      buffersOutside (e == 1) src dst = none → s2.me.buffersSlot (e == 1) src dst = none →
      buffersPages (e == 1) src dst s2 s2.me.collPages = .ok ps1 s4 → (e = 0 → buffersMeet src dst = false) →
      locate s4 cs 8 false true = .at_ p s5 → collectPages .f s5 [(3, cs.toNat)] ps1 = .ok ps s6 →
      tooManyPins (s6.pinsOf ps) = false → s6.pinAll (s6.pinsOf ps) = some s7 →
      s7.package = s2.package → s7.actor = s2.actor →
      completes .f (.fColl e dl sl) 1 s
        ((s7.updMe fun k => (k.havePages .f).dropLoads .f 0).addColl (collOf s7 src dst e cs p ranks ps (s6.pinsOf ps)))) ∧
    (∀ (j : Nat) (c c0 : Coll) (s0 : State), s.me.colls[j]? = some c → c.done = false →
      ¬(s.me.run = .killing ∧ c.task = s.me.task) → c.takeAcks s = (s0, c0) →
      (∀ x, c0.ended = some x → exec (.collectiveComplete j) s = .next (s0.finishColl s0.actor j c0 x)) ∧
      (c0.ended = none → s0.digestBad c0 = true → exec (.collectiveComplete j) s = .next (s0.failColl j c0 .ill)) ∧
      (c0.ended = none → s0.digestBad c0 = false → s0.rankLost c0 = true →
        exec (.collectiveComplete j) s = .next (s0.failColl j c0 .peer)) ∧
      (∀ (s1 : State) (c1 : Coll) (r : State × Coll), c0.ended = none → s0.digestBad c0 = false → s0.rankLost c0 = false →
        c0.capture s0 = .ok c1 s1 → r = c1.ship s1 none →
        ((r.1.setColl r.1.actor j r.2).gather r.2 = none →
          exec (.collectiveComplete j) s = .next (r.1.setColl r.1.actor j r.2)) ∧
        ∀ (all : List Coll) (s2 s3 : State) (c2 : Coll) (o : Status × Writes), s2 = r.1.setColl r.1.actor j r.2 →
          s2.gather r.2 = some all → o = r.2.outcome all →
          r.2.barred s2 (o.2.map fun w => (1, Layout.space r.2.dst, w.1, w.2.length)) = false →
          o.2.foldl Coll.writeRun (s2, r.2, none) = (s3, c2, none) →
          exec (.collectiveComplete j) s =
            .next (s3.finishColl s3.actor j c2 { o.1 with sat := o.1.sat || r.2.satOut s2 }))) ∧
    (∀ (j : Nat) (c : Coll), s.me.colls[j]? = some c → c.done = false → bits ((s.die s.myDie).reg 272) 0 32 ≠ 0 →
      s.me.leg.timed = false →
      ((∀ r ∈ c.ranks, s.absent c r = false) →
        exec (.exchangeWaitLimit j) s = .next (s.setColl s.actor j { c with absentSince := none })) ∧
      (∀ r ∈ c.ranks, s.absent c r = true → c.absentSince = none →
        exec (.exchangeWaitLimit j) s = .next (s.setColl s.actor j { c with absentSince := some s.cycle })) ∧
      (∀ r ∈ c.ranks, ∀ t, s.absent c r = true → c.absentSince = some t →
        t + bits ((s.die s.myDie).reg 272) 0 32 ≤ s.cycle →
        exec (.exchangeWaitLimit j) s = .next (((c.cores s.package).filter fun r =>
          (s.core r).colls.any (c.pairs ·)).foldl State.preemptCore s)))

/-- A link accepts the next flit in sequence and passes it on, or sends it once round its ring where its target refuses it; it asks
for a replay of a flit that fails, sends again what was not accepted, releases what was acknowledged, ends a rotation at the
marker, and goes down after 16 failed replays; a reserved slot leaves at its cycle (01 R18; 05 R122; 14 R280-R283, R289; 19
R398).
The choices in it that are the model's own: log entries 11, 31. -/
def Obligations.LinkEvents : Prop :=
  ∀ (s : State) (l : Nat) (x : Link), x = s.link l →
    (∀ (f : Flit) (rest : List Flit), x.wire = f :: rest → f.at_ ≤ s.cycle → Accepted f x l →
      (∀ s1 : State, l < 80 ∨ 88 ≤ l → f.type ≠ 7 → s1 = ((s.updLink l fun x => { x with wire := rest }).updLink l fun x =>
          { x with rxKv := f.kv, rxSeq := f.seq + 1, fails := 0 }) →
        (s.refusesFlit l f = false → f.type ≠ 6 → exec (.flitReceive l) s = .next (s1.deliverFlit l f)) ∧
        (s.refusesFlit l f = true →
          exec (.flitReceive l) s = .next ((s1.farEvent (rxDie l) 48).pass (roundHop l) { f with second := true }))) ∧
      (f.type = 7 → exec (.rotationMarker l) s = .next (s.updLink l fun x =>
        { x with wire := rest, rxKv := f.kv, rxSeq := f.seq + 1, fails := 0, rxKeys := [f.kv] }))) ∧
    (∀ (f : Flit) (rest : List Flit), x.wire = f :: rest → f.at_ ≤ s.cycle → x.asking = false → l < 80 ∨ 88 ≤ l →
      (f.kv ∉ x.rxKeys ∨ f.atag ≠ Config.flitTag f.kv l f.header f.payload) →
      exec (.flitReceive l) s = .next ((((s.updLink l fun x => { x with wire := rest }).updLink l fun x =>
        { x with asking := true }).farEvent (rxDie l) 0).farEvent (rxDie l) 32)) ∧
    (x.asking = true → x.fails < 16 → exec (.replayRequest l) s = .next ((s.updLink l fun x =>
      { x with wire := [], again := unaccepted x, asking := false, fails := x.fails + 1 }).stationBreach (txDie l)
        ((unaccepted x).filter fun f => f.reserved).length)) ∧
    (∀ q, x.rotating = false → exec (.flitAck l q) s = .next (s.updLink l fun y =>
      { y with held := x.held.filter fun f => !((decide (80 ≤ l) || f.accepted x) && decide (f.seq ≤ q)) })) ∧
    (x.asking = true → 16 ≤ x.fails → x.down = false → exec (.linkDown l) s = .next ((unaccepted x ++ x.queue).foldl
      (fun s f => s.pass (otherWay l) { f with reserved := false })
      (((s.updLink l fun x => { x with down := true, asking := false, held := [], wire := [], again := [], queue := [] }).clearReady
        (linkBit l)).stationBreach (txDie l) ((unaccepted x ++ x.queue).filter fun f => f.reserved).length))) ∧
    (∀ (j : Nat) (y : Slot) (t : Trav) (ps : List Packet) (u : State), (s.die s.myDie).timed.slots[j]? = some y →
      (s.die s.myDie).trav = some t → s.cycle = t.tStart + y.cycle → y.lane < 4 → y.tag < 128 ∨ 192 ≤ y.tag →
      s.laneTaken (y.link s.myDie) = false → (s.link (y.link s.myDie)).maySend = true → s.slotReady s.myDie y = true →
      ps = s.slotPackets s.myDie t.tStart y →
      u = s.depart s.myDie s.cycle (hopsBy (stationOf s.myDie) y.dest y.dir) ps →
      exec (.slotDeparture j) s = .next (((if 192 ≤ y.tag then u.slotExchange s.myDie y else u).updDie s.myDie
        fun d => { d with timed := { d.timed with
          slots := d.timed.slots.eraseIdx j
          gone := d.timed.gone ++ [(s.cycle, y)] } }).sendFlit (y.link s.myDie)
        { seq := 0, kv := 0, type := y.flitType ps, destPkg := ((ps.head?.bind Packet.package).getD s.package) % 2 ^ 10
          destStation := y.dest
          srcPkg := s.package % 2 ^ 10, srcStation := stationOf s.myDie, packets := ps
          payload := ps.flatMap fun p => (List.range p.n).flatMap fun j => Config.packetBytes p.core p.place (p.elem + j) p.reply
          reserved := true }))

/-- The events of a traverse: a table's header is read, then the table is loaded or fails, the closure is complete and the leg
starts on every die of its tree, its commands issue, its timed part ends, owed commands are served, controllers and stations
sign, refresh goes on, and the limit takes an incomplete closure's gang off (05 R101, R102, R105, R107-R112; 06 R137;
17 R356-R358).
The choices in it that are the model's own: log entries 20, 26, 46, 74, 75, 90. -/
def Obligations.LegEvents : Prop :=
  ∀ (s : State) (d : Die), d = s.die s.myDie →
    (∀ (b : BitVec 1), (d.buf b.toNat).st = .loading →
      (∀ (h : List Nat) (s1 : State), (d.buf b.toNat).headRead = false →
        loadHead s.forTraverse (d.buf b.toNat).space (d.buf b.toNat).addr.toNat = .ok h s1 →
        exec (.legTableLoaded b) s = .next { (s1.updDie s.myDie fun x =>
          let y := if (x.buf b.toNat).first then
              { x with firstTable := some (if (headerOf h).len = 0 then { len := 0 } else headerOf h) } else x
          y.setBuf b.toNat { y.buf b.toNat with headRead := true }).noteOutline s.myDie b.toNat with actor := s.actor }) ∧
      ((d.buf b.toNat).headRead = true →
        (∀ (c : Cause) (off : Nat) (s1 : State),
          loadTable s.forTraverse s.myDie (d.buf b.toNat).space (d.buf b.toNat).addr.toNat = .bad c off s1 →
          exec (.legTableLoaded b) s = .next { s1.updDie s.myDie fun x => (x.setBuf b.toNat { x.buf b.toNat with
              st := .bad, table := {}, bad := some (c, off), readyAt := s1.cycle, pages := [] }).setReg 276
                (BitVec.ofNat 64 (c.code * 2 ^ 16 + off % 2 ^ 16)) with actor := s.actor }) ∧
        (∀ (t : LegTable) (pages : List (Nat × TlbEntry)) (s1 s2 : State),
          loadTable s.forTraverse s.myDie (d.buf b.toNat).space (d.buf b.toNat).addr.toNat = .ok (t, pages) s1 →
          s1.pinAll (s1.pageKeys pages) = some s2 →
          exec (.legTableLoaded b) s = .next { s2.updDie s.myDie fun x =>
            let y := if (x.buf b.toNat).first then { x with firstTable := some t } else x
            y.setBuf b.toNat { y.buf b.toNat with
              st := .ready, table := t, bad := none, readyAt := s2.cycle, pages := pages } with actor := s.actor }))) ∧
    (∀ (t : Trav) (ds : List Nat) (b ts : Nat), d.trav = some t → t.closed = false → (s.closure t.tree).done = true →
      ds = s.diesOn t.tree → b = (if (s.closure t.tree).vote then 1 else 0) →
      (∀ x ∈ ds, ∀ k ∈ s.preparing x, ∃ p ∈ (s.travOf x).prepared, p.1 = k) →
      (∀ x ∈ ds, ((s.die x).buf b).st = .ready ∧ ((s.die x).buf b).table.len ≠ 0 ∧ ((s.die x).buf b).readyAt < ts ∧
        s.overrunOf x (s.closure t.tree).tLast = 0 ∧ (∀ p ∈ (s.travOf x).prepared, p.2 ≤ ts) ∧ (s.travOf x).refab = none ∧
        ((s.travOf x).opening = true → ((s.die x).buf (s.travOf x).firstBuf).awaited = false)) →
      ts = (s.closure t.tree).tLast + s.closureOfs s.myDie → ts ≤ s.cycle + 1 →
      exec .legStart s = .next (ds.foldl (fun s2 x => s2.startLeg x b (max ts s2.cycle))
        { ds.foldl (fun s2 x => s2.updDie x fun y => y.setVote (s.closure t.tree).vote) s with
          bridges := s.bridges.filter fun p => p.1 != t.tree
          peerSigns := s.peerSigns.filter fun p => p.tree != t.tree })) ∧
    (∀ (t : Trav) (stack pch : Nat) (c : TCmd) (rest : List (Nat × Nat × TCmd)), d.trav = some t →
      d.timed.todo = (stack, pch, c) :: rest → t.tStart + c.cycle ≤ s.cycle →
      exec .timelineCommand s = .next ((s.updDie s.myDie fun x => { x with
        timed := { x.timed with todo := rest } }).runCommand s.myDie stack pch c)) ∧
    (∀ (t : Trav) (b : Nat), d.trav = some t → t.cur = some b → t.tStart + (d.buf b).table.len ≤ s.cycle → d.timed.todo = [] →
      exec .legTimedEnd s = .next (s.updDie s.myDie fun x => { x with
        timed := { x.timed with
          static_ := []
          rows := []
          accepted := s.acceptedBy s.myDie } })) ∧
    (d.timed.static_ = [] →
      (∀ (tag off : Nat) (write : Bool) (rest : List (Nat × Nat × Bool)), d.timed.owed = (tag, off, write) :: rest →
        s.timedOver s.myDie = true → (∀ r ∈ d.timed.reqs, r.tag = tag → r.burst = off → r.arrives ≤ s.cycle) →
        exec .owedCommandService s = .next ((s.updDie s.myDie fun x => { x with
          timed := { x.timed with owed := rest } }).serveBurst s.myDie off tag write)) ∧
      (∀ (r : TimedReq) (rest : List TimedReq), d.timed.owed = [] → d.timed.reqs = r :: rest → r.arrives ≤ s.cycle →
        exec .owedCommandService s = .next (s.serveBurst s.myDie r.burst r.tag r.write.isSome))) ∧
    (∀ sel : BitVec 1,
      (d.mayStation sel.toNat s.cycle = true → s.stackDone s.myDie sel.toNat = true →
        exec (.controllerSignoff sel) s = .next (s.updDie s.myDie fun x => { Die.signStation (x.payRefresh sel.toNat) sel.toNat s.cycle with
          heldAt := SMap.put (Die.signStation (x.payRefresh sel.toNat) sel.toNat s.cycle).heldAt sel.toNat s.cycle })) ∧
      (d.mayStation sel.toNat s.cycle = false → s.mayPrepare s.myDie sel.toNat = true →
        exec (.controllerSignoff sel) s = .next (s.updDie s.myDie fun x =>
          let y := (x.payRefresh sel.toNat).updTrav fun t => { t with prepared := (sel.toNat, s.cycle) :: t.prepared }
          { y with heldAt := SMap.put y.heldAt sel.toNat s.cycle })) ∧
      ((d.reg 500).getLsbD sel.toNat = true → SMap.get 0 d.refresh (2 + sel.toNat) ≤ s.cycle →
        exec (.refreshTick sel) s = .next (s.updDie s.myDie fun x => { x with
          refresh := SMap.set 0 (SMap.set 0 x.refresh sel.toNat (SMap.get 0 x.refresh sel.toNat + 1)) (2 + sel.toNat)
            (SMap.get 0 d.refresh (2 + sel.toNat) + 6630) })) ∧
      (SMap.has d.heldAt sel.toNat = true → SMap.get 0 d.heldAt sel.toNat + 6630 ≤ s.cycle →
        ∃ m, exec (.heldRefresh sel) s = .next (s.updDie s.myDie fun x => { x with
          refresh := m
          heldAt := SMap.put x.heldAt sel.toNat s.cycle
          trav := x.trav.map fun t => { t with refab := some s.cycle } }))) ∧
    (d.timed.slots = [] → s.unacked (stationOf s.myDie) = false → d.mayStation 2 s.cycle = true →
      exec .stationSignoff s = .next (s.updDie s.myDie fun x => x.signStation 2 s.cycle)) ∧
    (∀ (t : Trav) (gang : List Nat), d.trav = some t → gang = (s.diesOn t.tree).flatMap s.participants → bits (d.reg 272) 0 32 ≠ 0 → t.closed = false → (t.signed ≠ [] ∨ t.stations ≠ []) →
      (s.closure t.tree).done = false → t.tFirst + bits (d.reg 272) 0 32 < s.cycle →
      exec .closureLimitExpiry s =
        .next ((gang ++ (s.collMates gang).filter fun k => !gang.contains k).foldl State.preemptCore s))

/-- A page walk fills a TLB or records why it fails; a TLB command drops what it covers or is refused whole; a key rotation
makes the next key current; the patrol visits a line and a finished pass erases the old key; an epoch closes; a swap ends
(17 R344-R351, R361).
The choices in it that are the model's own: log entries 18, 36, 62. -/
def Obligations.ManagementEvents : Prop :=
  ∀ (s : State) (d : Die), d = s.die s.myDie →
    (∀ (k : Nat) (w : Walk), s.me.walks[k]? = some w → w.failed = none → w.reported = false → w.due ≤ s.cycle →
      s.walkHeld (bits w.va 55 3) w.space w.va = false →
      (∀ x e, (s.die (bits w.va 55 3)).walk w.space w.va = .leaf x →
        e = { space := w.space, base := w.va.toNat / pageSize (pteSize x), size := pteSize x, leaf := x } →
        exec (.pageWalk k) s = .next (((s.updDie (bits w.va 55 3) fun d => d.heatWalk w.space w.va).fillTlb (bits w.va 55 3) e).updMe fun c => { c with walks := c.walks.eraseIdx k })) ∧
      (∀ c, (s.die (bits w.va 55 3)).walk w.space w.va = .fail c → c ≠ .integ →
        exec (.pageWalk k) s = .next ((s.updDie (bits w.va 55 3) fun d => d.heatWalk w.space w.va).updMe fun x =>
          { x with walks := x.walks.set k { w with failed := some c } }))) ∧
    (∀ (i : Instr) (kind : RegKind) (w : RegWrite), tlbKind i = some kind →
      (tlbHeld i (taken s w) w = true → takes i kind s w (tlbInvDone (taken s w) w true)) ∧
      (tlbHeld i (taken s w) w = false →
        takes i kind s w (tlbInvDone ((taken s w).dropTlb w.die (tlbCovers i (taken s w) w)) w false))) ∧
    (∀ w : RegWrite, w.val.getLsbD 0 = true → (s.die w.die).keyPass = false →
      ((s.die w.die).keyCur + 1) % 15 ∈ (s.die w.die).keys →
      takes .keyRotate .keyRotate s w ((taken s w).updDie w.die fun d =>
        { d.setReg 360 (BitVec.ofNat 64 (2 ^ 63 + d.keyCur * 2 ^ 8 + (d.keyCur + 1) % 15)) with patrol := 0 })) ∧
    (∀ p : Nat, d.period = some p → d.patrolAt ≤ s.cycle → (d.reg 500).getLsbD 22 = true → s.powered = true →
      d.patrol + 1 < tierSize 0 / 256 + tierSize 1 / 256 →
      exec .patrolLine s = .next (s.setDie s.myDie
        { d.patrolLine (if d.patrol < tierSize 0 / 256 then 0 else 1)
            (if d.patrol < tierSize 0 / 256 then d.patrol * 256 else (d.patrol - tierSize 0 / 256) * 256) with
          patrol := d.patrol + 1
          patrolAt := s.cycle + p })) ∧
    (d.keyPass = true → d.mem.baseVer < 16 → d.patrol = tierSize 0 / 256 + tierSize 1 / 256 →
      exec .rotationPassEnd s = .next (s.setDie s.myDie
        { (d.setReg 360 (setBits (d.reg 360) 63 1 0)).passDone with
          keys := d.keys.filter (· != d.keyPrev)
          mem := { d.mem with
            baseVer := d.keyCur
            ver := d.mem.ver.filter fun p => p.2 != d.keyCur } })) ∧
    (bits (d.reg 352) 63 1 = 1 → bits (d.reg 352) 0 16 ≠ 0 → d.epochAt + bits (d.reg 352) 0 16 * 1024 ≤ s.cycle →
      ∃ (v : W64) (w : Option Swap), exec .epochClose s = .next (s.setDie s.myDie { (d.setReg 353 v).halve with
        epochAt := s.cycle
        swap := w }) ∧ (d.swap ≠ none → w = d.swap)) ∧
    (∀ w : Swap, d.swap = some w → exec .swapComplete s = .next ((s.doSwap s.myDie w).updDie s.myDie fun d =>
      { d with swap := none }))

/-- A kernel's text row arrives at every core of the die that awaits it and old rows are freed; the Millwright accepts a
record, places a ready task, starts it, and starts a timed task at its cycle (02 R39, R40; 18 R369-R374).
The choices in it that are the model's own: log entries 4, 38, 42, 44, 52, 93. -/
def Obligations.LaunchAndStart : Prop :=
  ∀ (s : State) (d : Die), d = s.die s.myDie →
    (∀ (row : Nat) (q : Nat × Nat × Nat) (p : Place) (s1 s2 : State) (bs : List Byte),
      (s.kernels s.actor).find? (fun q => decide (s.awaits s.actor q = some row)) = some q →
      ownerXlat s ((q.2.1 + 256 * row) / 2 ^ 55 % 8) q.1 (BitVec.ofNat 64 (q.2.1 + 256 * row)) false false = .at_ p s1 →
      s1.waits p.die p.tier p.off 256 = false → s1.read p.die p.tier p.off 256 = (s2, some bs) →
      exec (.textRowFill row) s = .next (((List.range 512).map fun i => 512 * s2.myDie + i).foldl (fun (t : State) c =>
        if (t.kernels c).any fun x => decide (x = q) && !(t.core c).text.holds q.1 q.2.1 row
            && !(decide ((t.core c).text.space = q.1) && decide ((t.core c).text.image = q.2.1) && (t.core c).text.freed.contains row)
        then t.updCore c fun k => { k with
          text := k.text.put k.task.isSome {
            space := q.1, image := q.2.1, row := row
            words := (List.range 128).map fun j => BitVec.ofNat 16 (leNat ((bs.drop (2 * j)).take 2)) } }
        else t) s2)) ∧
    (∀ (tail low : Nat), s.me.run = .running → s.me.text.tail = some tail → s.me.actives ≠ [] →
      (∀ t ∈ s.me.actives, low ≤ (s.me.en t).pc) → (∃ t ∈ s.me.actives, (s.me.en t).pc = low) → tail ≤ low →
      exec .textRowFree s = .next (s.updMe fun k => { k with text := { k.text with
        rows := k.text.rows.filter fun r =>
          !(decide (r.space = k.text.space) && decide (r.image = k.text.image) && decide (128 * (r.row + 1) ≤ low))
        freed := ((List.range (low / 128)) ++ k.text.freed).eraseDups } })) ∧
    (∀ (q : LaunchReq) (rest : List LaunchReq) (id : Nat) (s1 s2 s3 : State) (h : List Byte) (l l2 : Launch)
      (pins : List PageKey), d.launchq = q :: rest → d.freeLaunch = some id → (d.reg 500).getLsbD 18 = true → s.power < 2 →
      recRead s q.space q.va.toNat 256 = .ok h s1 → s1.lifeBars = false → launchOfHeader h q.va id q.sys = some l →
      readRecord s1 h l = .ok (l2, pins) s2 → acceptRecord s2 s.myDie h l2 pins = .ok () s3 →
      exec .launchRecord s = .next (s3.updDie s.myDie fun d => { d with launchq := rest })) ∧
    (∀ (id i c : Nat) (l : Launch), d.readyTasks.head? = some (id, i) → (d.reg 500).getLsbD 18 = true → s.power < 2 →
      d.launch id = some l →
      (s.placing s.myDie l i none = .one c → l.st i = .waiting →
        exec (.taskPlace id i) s = .next (s.assign s.myDie l i c (.starting (s.cycle + s.startDelay)))) ∧
      (∀ f left skip, s.placing s.myDie l i none = .one c → l.st i = .saved f left skip →
        exec (.taskPlace id i) s = .next (((s.updDie s.myDie fun d =>
          { d with requeued := d.requeued.filter (· != (id, i)) }).assign s.myDie l i c (.restoring skip (s.cycle + 1776))).updCore c
            fun k => { k with frame := some f })) ∧
      (∀ gd cs l2 lv g, s.placing s.myDie l i none = .group gd cs l2 lv → (s.die gd).freeGroup = some g →
        exec (.taskPlace id i) s = .next (cs.foldl (fun (t : State) p => t.assign s.myDie l p.1 p.2
          (.starting (s.cycle + s.startDelay))) (s.updDie gd fun x => x.formGroup gd g (cs.map fun p => p.2) lv.regions)))) ∧
    ((∀ c ∈ s.startSet, ∃ (at_ : Nat) (t : TaskRef) (r : TaskRec), (s.core c).run = .starting at_ ∧ at_ ≤ s.cycle ∧
        (s.core c).task = some t ∧ s.recordOf t = some r ∧ (s.core c).text.startable r.entry = true ∧
        (s.die (c / 512)).halted = false) →
      exec .taskStart s = .next (s.startSet.foldl State.startOn s)) ∧
    (∀ (u : State) (c : Nat) (t : TaskRef) (r : TaskRec), (u.core c).task = some t → u.recordOf t = some r →
      u.startOn c = u.updCore c fun k => k.begin r.entry r.arg0 r.arg1 u.cycle) ∧
    (∀ (l : Launch) (t0 : Nat) (xs : List (Nat × TaskRec)), s.timedDue = some (l, t0, xs) →
      (l ∈ d.launches ∧ l.t0 = some t0 ∧ ∀ x ∈ xs, t0 + x.2.start ≤ s.cycle ∧ l.st x.1 = .waiting ∧ s.idle x.2.core = true ∧
        ((s.core x.2.core).text.turn l).startable x.2.entry = true) ∧
      exec .timedTaskStart s = .next (xs.foldl (fun u x => u.startTimed l t0 x)
        ((s.formTimed l (xs.map fun x => x.2.core)).getD s))) ∧
    (∀ (u : State) (l : Launch) (t0 i : Nat) (r : TaskRec),
      (l.unfinished r (t0 + r.start) = none → u.startTimed l t0 (i, r) = (u.assign u.myDie l i r.core .running).updCore r.core
        fun k => k.begin r.entry r.arg0 r.arg1 u.cycle) ∧
      (∀ p, l.unfinished r (t0 + r.start) = some p → u.startTimed l t0 (i, r) =
        ((u.assign u.myDie l i r.core .running).updCore r.core fun k => k.begin r.entry r.arg0 r.arg1 u.cycle).updCore r.core
          fun k => k.takeTrap 0 r.entry .order (BitVec.ofNat 64 p) u.cycle)) ∧
    (∀ l : Launch, s.timedDue = none → d.launches.find? s.t0Ready = some l →
      exec .timedTaskStart s = .next (s.updLaunch s.myDie l.id fun l => { l with t0 := some (s.cycle + s.wakeDelay) }))

/-- A task ends once its accesses are performed, its counters then raised; it is saved to the lowest free frame, which takes
1,776 cycles, comes back from its frame, or is killed once its work is cancelled or drained; the Millwright pre-empts; the
commands of DG_TASK_CTL and DG_PAGE_DONE resolve a stopped task (18 R377, R380, R382, R384-R391).
The choices in it that are the model's own: log entries 15, 37, 44, 49, 50, 81, 92. -/
def Obligations.TaskEvents : Prop := TaskEnds ∧ TaskSaves ∧ TaskKills ∧ TaskCommands

/-- The commands of the Helale port read and write memory and registers, launch, load keys and firmware, attest, and move
lifecycle, debug and power; bring-up and the temperature sensors do what they state (17 R361, R422; 19 R394-R405).
The choices in it that are the model's own: log entries 11, 14, 55, 57. -/
def Obligations.PackageCommands : Prop :=
  ∀ (s : State),
    (PortOpen s →
      (∀ (die tier off n : Nat) (bs : List Byte) (s2 : State), PortExtent s die tier off n →
        s.read die tier off n = (s2, some bs) → exec (.memrd die tier off n) s = .next (answered s2 bs)) ∧
      (∀ (die tier off : Nat) (bs : List Byte) (s2 : State), PortExtent s die tier off bs.length →
        s.write die tier off bs false = (s2, true) → exec (.memwr die tier off bs) s = .next (answered s2 [])) ∧
      (∀ (group die i : Nat) (v : W64), s.regReady group die = true →
        (if group = 1 then readDg s die i else readPk s i) = some v →
        exec (.regrd group die i) s = .next (answered s (leBytes v.toNat 8)) ∧
        ∀ x : W64, (group = 1 → badDgWrite (s.die die) i x = false) →
          exec (.regwr group die i x) s = .next { s with regWrites := s.regWrites ++
            [{ cycle := s.cycle, core := 512 * die, group := group, idx := i, val := x, port := true }] }) ∧
      (∀ (die space : Nat) (va : W64) (sys : Bool), die < 8 → space < 16 → (s.die die).launchq.length < 64 →
        exec (.launch die space va sys) s = .next (answered (s.updDie die fun d =>
          { d with launchq := d.launchq ++ [{ va := va, space := space, sys := sys }] }) [])) ∧
      (∀ l v, s.life ≠ 0 → s.life ≠ 3 → l < 96 → v < 4 →
        exec (.keyld [0, l, v]) s = .next (answered (s.updLink l fun x => x.loadKey v) [])) ∧
      (∀ image : List Byte, exec (.fwld image) s = .next
        (if Config.verifies 0 image = true ∧ bits (SMap.get 0 s.pk 2) 32 32 ≤ Config.imageSvn image % 2 ^ 32 then
          { answered (s.setPk 2 (setBits (SMap.get 0 s.pk 2) 0 32 (Config.imageSvn image % 2 ^ 32))) [] with firmware := some image }
        else turnedAway s)) ∧
      (∀ nonce : List Byte, nonce.length = 32 → bits (SMap.get 0 s.pk 3) 0 21 < 2 ^ 20 →
        ∃ report, exec (.attestCmd nonce) s = .next (answered (s.setPk 3
          (BitVec.ofNat 64 (bits (SMap.get 0 s.pk 3) 0 21 + 1))) (nonce ++ report))) ∧
      (∀ (dest : Nat) (sig : List Byte), lifeStep s.life dest → exec (.lifeCmd dest sig) s = .next
        (if Config.verifies (16 + 4 * s.life + dest) sig = true then answered
          (if dest = 1 then { s.setLife 0 2 dest with owner := sig.take 68 }
            else if dest = 3 then (s.setLife 0 2 dest).eraseAll else s.setLife 0 2 dest) []
        else turnedAway s)) ∧
      (∀ (level : Nat) (token : List Byte), level < 2 → s.power < 2 →
        (s.life = 2 → level ≠ 0 → Config.verifies (32 + level) token = true) →
        ∃ (dies : SMap Die) (cores : SMap Core), exec (.debugCmd level token) s = .next (answered
          { (s.setLife 4 2 level).setLife 16 1 (if s.life = 2 ∧ level ≠ 0 then 1 else 0) with
            dies := dies
            cores := cores } [])) ∧
      (∀ dest, (dest < 2 → exec (.powerCmd dest) s = .next (answered (s.setLife 8 2 dest) [])) ∧
        (dest = 2 → s.debug ≠ 2 → s.launches = [] → exec (.powerCmd dest) s =
          .next (answered (((s.powerRetain.setLife 4 2 0).setLife 16 1 0).setLife 8 2 2) [])) ∧
        (dest = 3 → exec (.powerCmd dest) s = .next (answered s.powerDown [])))) ∧
    ((s.die s.myDie).haltAsked = true → s.mayHalt = true →
      (∃ p ∈ (s.updMe fun k => { k with halted := true }).cores, p.1 / 512 = s.myDie ∧ p.2.run = .running ∧ p.2.halted = false) →
      exec .haltEntry s = .next (s.updMe fun k => { k with halted := true })) ∧
    (s.on = false → exec .powerOn s = .next { (((List.range 8).foldl (fun (t : State) d => t.updDie d fun x =>
      { x with keys := [0] }) s).setLife 8 2 0).setPk 0 0 with
        on := true
        cycle := 0 }) ∧
    exec .powerLoss s = .next s.powerDown ∧
    (∀ bit, s.on = true → s.bringUpDone = false → (bit = 88 ∨ (SMap.get 0 s.pk 0).getLsbD 24 = true) →
      (64 ≤ bit → s.mayReady (bit - 64) = true →
        exec (.functionReady bit) s = .next (s.setPk 0 (SMap.get 0 s.pk 0 ||| BitVec.ofNat 64 (2 ^ (bit - 64))))) ∧
      (2 ≤ bit → bit < 64 → (s.die s.myDie).mayReady bit s.firmware.isSome = true →
        exec (.functionReady bit) s = .next (s.updDie s.myDie fun d =>
          d.setReg 500 (d.reg 500 ||| BitVec.ofNat 64 (2 ^ bit))))) ∧
    (∀ die, s.on = true → die < 8 →
      exec (.thermalWarn die) s = .next (s.setPk 4 (BitVec.ofNat 64 (max (bits (SMap.get 0 s.pk 4) 0 8) 95 + 2 ^ 8))) ∧
      exec (.thermalTrip die) s = .next s.powerDown)

/-- An engine's turn at a word of its own runs the instruction its words decode to, or takes #ILL where they decode to none;
an S word runs once C finds every engine there; an engine at a C.RECV that names it takes its handoff; an event of the
schedule runs on the core it names; a cycle passes where no engine is due and nothing of a fixed cycle is left (02 R28-R30,
R33-R38; 04 R86, R87; log entry 3).
The choices in it that are the model's own: log entry 3. -/
def Obligations.StepRunsDecoded : Prop :=
  ∀ (s s2 : State) (k : Nat), k < 4096 →
    (∀ (t : Engine) (a : Nat) (ws : List Half) (c : Core) (m : State), s.takeItem = (.turn k t, s2) → c = s2.core k →
      m = ({ s2 with actor := k } : State).setMe (c.moveTo t a) → AtWord c t s2.cycle a ws →
      c.slips t ((c.en t).progress + (a - (c.en t).pc)) = false →
      c.windowCost t a = 0 → (t = .m → m.me.followTakes m.cycle = false) →
      (c.stand t = .own a → c.unsent t a = false → c.reportAt t false = none →
        c.slips t ((c.en t).progress + (a - (c.en t).pc) + c.text.lenAt a) = false →
        (∀ i, decode ws = .ok i → (c.signWait s2.cycle = false ∨ i = .sLeg) → step s = exec i m) ∧
        (∀ e, decode ws = .error e → step s = exec (.illegalWord (BitVec.ofNat 3 t.tag)) m)) ∧
      (∀ p, t = .c → c.stand t = .sWord a → (c.en t).parked = some p → c.reportAt t true = none →
        (∀ i, decode ws = .ok i → (c.signWait s2.cycle = false ∨ i = .sLeg) → step s = exec i m) ∧
        (∀ e, decode ws = .error e → step s = exec (.illegalWord 7) m)) ∧
      (c.stand t = .recv a → c.slips t ((c.en t).progress + (a - (c.en t).pc) + 1) = false →
        step s = exec (.recvHandoff t) m)) ∧
    (s.takeItem = (.tick, s2) → step s = .next (if s2.mayTick then s2.passCycle else s2)) ∧
    (∀ i : Instr, s.takeItem = (.happen k i, s2) → encodeNat i = none → (∀ g, i ≠ .illegalWord g) →
      step s = exec i { s2 with actor := k })

/-- The words that the spec's own examples write out decode to the instructions it names beside them (02 R26, R27, R32, R43;
04 R72, R83, R90, R91; 05 R111-R114; 07 R164, R180; 08 R187, R192; 09 R212; 10 R220; 11 R241, R245; 15 R305; 16 R332). -/
def Obligations.DecodedWords : Prop :=
  reads [0x1002] = some (.literalPush .c 2) ∧ reads [0x1B88] = some (.literalExtend .c 0x388) ∧
  reads [0x57FD] = some (.literalPush .e 0x7FD) ∧ reads [0x5C78] = some (.literalExtend .e 0x478) ∧
  reads [0x0040] = some (.stkDup .c 0) ∧ reads [0x0072] = some (.stkOver .c 2) ∧ reads [0x4061] = some (.stkSwap .e 1) ∧
  reads [0x0123] = some (.cAddImm 3) ∧ reads [0x017F] = some (.cSubImm (-1)) ∧
  reads [0x0445, 0x0008] = some (.cLoopCount 5 8) ∧ reads [0x0580, 0x0003] = some (.cCsr 0 3) ∧
  reads [0x05C0, 0x0003] = some (.cCsw 0 3) ∧
  reads [0x2080, 0x2000] = some (.aSfld 0 0) ∧ reads [0x23C5] = some (.aXqCount 5) ∧ reads [0x23DA] = some (.aXqPut 2) ∧
  reads [0x41C7, 0x5008, 0x4200] = some (.eFma 3 1 16 1 0 0 2) ∧ reads [0x4182, 0x5010] = some (.eMul 1 0 16 2 0) ∧
  reads [0x40E8, 0x4100] = some (.eMov 20 0 1 0) ∧ reads [0x410F, 0x41B1] = some (.eAdd 7 1 1 22 1) ∧
  reads [0x45C4, 0x4901, 0x4003] = some (.ePerm 2 0 9 0 1 0 3) ∧
  reads [0x44A8, 0x44B0, 0x4004] = some (.eCvt 20 0 4 22 0 0 4) ∧ reads [0x44C4, 0x4100, 0x4304] = some (.eQuant 2 0 1 3 4) ∧
  reads [0x61C0, 0x6002] = some (.mEpi 0 0 0 0 0 2) ∧ reads [0xA085] = some (.wRows 1 1) ∧
  reads [0x8100] = some .kFollow ∧ reads [0x81C2] = some (.kCwait 2) ∧ reads [0xC312] = some (.fLayout 1 2) ∧
  reads [0xE0C3] = some (.sSign 3) ∧ reads [0xE141] = some (.sLtload 1) ∧ reads [0xE080] = some .sLeg ∧
  reads [0xE180, 0xE810] = some (.sFence 0 0x10 0x08) ∧ reads [0xE183, 0xF022] = some (.sFence 3 0x20 0x11) ∧
  reads [0x41C7] = none ∧ reads [0x41C7, 0x2008, 0x4200] = none ∧ reads [0xF000] = none

/-- An instruction whose fields have assigned values is what its own words decode to, whatever text follows them; every
instruction but the events, the commands and the illegal word has words (02 R25-R28, R41-R43). -/
def Obligations.DecodeEncode : Prop :=
  ∀ (i : Instr), i.WellFormed →
    (∀ (ws rest : List Half), encode i = some ws → decode (ws ++ rest) = .ok i ∧ ws.length = lenInstr i) ∧
    (∀ (j : Instr) (ws : List Half), j.WellFormed → encode i = some ws → encode j = some ws → i = j)

/-- Reset: nothing runs, the memories hold their reset contents in canonical form, the registers hold the reset values that
the register tables give, and the package is off (04 R94; 17 R422; 19 R396, R397, R399).
The choices in it that are the model's own: log entry 14. -/
def Obligations.ResetState : Prop :=
  MemoryCanonical State.reset ∧ State.reset.on = false ∧
    (∀ k, (State.reset.core k).run = .free ∧ ∀ t, ((State.reset.core k).en t).active = false ∧
      ((State.reset.core k).en t).stack = []) ∧
    (∀ d tier a, (State.reset.die d).byteAt tier a = 0) ∧
    (∀ d, (State.reset.die d).reg 500 = 0) ∧ SMap.get 0 State.reset.pk 0 = 0

/-- Every step keeps the canonical form of the memories. -/
def Obligations.StepKeepsMemory : Prop :=
  ∀ s t : State, MemoryCanonical s → step s = .next t → MemoryCanonical t

/-- A word with a field value its chapter does not assign takes #ILL and changes nothing but the trap registers; so does a
word that is no instruction (of C and S words, where no full steering queue makes C wait first, 02 R34); the causes have the codes of the table (02 R42; 18 R378, R379). -/
def Obligations.IllegalFields : Prop :=
  (∀ (i : Instr) (tag : Nat) (s : State), tagOfInstr i = some tag → legalFields i = false →
    (tag = 0 ∨ tag = 7 → s.me.steerFull = false) →
    exec i s = .next (trapped s tag (s.me.en (Engine.ofTag tag)).pc .ill (plainValue s (Engine.ofTag tag)))) ∧
  (∀ (g : BitVec 3) (s : State), (g = 0 ∨ g = 7 → s.me.steerFull = false) →
    exec (.illegalWord g) s = .next (trapped s g.toNat (s.me.en (Engine.ofTag g.toNat)).pc .ill 0)) ∧
  [Cause.ill, .stk, .align, .xlat, .perm, .uninit, .breach, .order, .slot, .plane, .sketch, .dramt, .straddle, .token, .integ,
    .peer, .overrun, .swt].map Cause.code = (List.range 17).map (· + 1) ++ [0x13]

/-- A word finds fewer entries on its engine's stack than it pops, or would leave more than eight, or eight are there when a
value arrives: #STK (in the execute engine #ILL where the shape or a repetition bars the word, 07 R160, R184), and nothing but the trap registers changes (02 R31, R32; 04 R86). -/
def Obligations.StackTraps : Prop :=
  ∀ (s : State),
    (∀ (i : Instr) (tag : Nat) (t : Engine), tagOfInstr i = some tag → 0 < tag → tag < 7 → t = Engine.ofTag tag →
      legalFields i = true → s.me.fenced i s.cycle = false → ¬(t = .e ∧ s.me.vec.waits i s.cycle = true) → 8 < (top t s).length →
      (t ≠ .e ∨ (repRefuses (s.me.repFor t) i = false ∧ ∃ n, i = .literalPush .e n) →
        exec i s = .next (trapped s tag (s.me.en t).pc .stk (plainValue s t))) ∧
      (t = .e → ∃ c, (c = .stk ∨ c = .ill) ∧ exec i s = .next (trapped s tag (s.me.en t).pc c (plainValue s t)))) ∧
    (∀ (i : Instr) (n p : Nat) (f : List W64 → List W64), pureForm i = some (n, p, f) → CanIssue .c i s →
      (top .c s).length < p → exec i s = .next (trapped s 0 (s.me.en .c).pc .stk 0)) ∧
    (∀ (t : Engine) (i : BitVec 11), CanIssue t (.literalPush t i) s → (top t s).length = 8 →
      exec (.literalPush t i) s = .next (trapped s t.tag (s.me.en t).pc .stk (plainValue s t))) ∧
    (∀ (t : Engine) (n : BitVec 3), (CanIssue t (.stkDup t n) s → (top t s).length ≤ n.toNat ∨ (top t s).length = 8 →
        exec (.stkDup t n) s = .next (trapped s t.tag (s.me.en t).pc .stk (plainValue s t))) ∧
      (∀ i, i = .stkDrop t n ∨ i = .stkSwap t n ∨ i = .stkOver t n → CanIssue t i s → (top t s).length ≤ n.toNat →
        exec i s = .next (trapped s t.tag (s.me.en t).pc .stk (plainValue s t)))) ∧
    (∀ (i : Instr) (x : W64), getForm i (arrived .c s).me.ctl = some x → CanIssue .c i s → (top .c s).length = 8 →
      exec i s = .next (trapped s 0 (s.me.en .c).pc .stk 0))

/-- How an engine moves on: past the words it has issued, with the distance to its next word; to a loop's end word where one
lies among them, C back to the loop's first word until its last iteration (02 R35, R36; 04 R69, R84).
The choices in it that are the model's own: log entries 8, 9. -/
def Obligations.EnginesMoveOn : Prop :=
  ∀ (k : Core) (t : Engine) (len n cycle : Nat),
    (within (if t = .c then k.loopStop else k.expectStop t) (k.en t).pc len = none →
      k.advance t len n cycle = k.updEn t fun x => { x with
        pc := x.pc + len
        progress := x.progress + len
        nextIssue := cycle + n
        fromWin := x.pc / 32 + 1 }) ∧
    (∀ e es, t = .c → k.ctl.loops = e :: es → e.depth = k.ctl.ret.length → (k.en .c).pc ≤ e.stop → e.stop < (k.en .c).pc + len →
      (e.iter + 1).toNat < e.count.toNat →
      ((k.advance .c len n cycle).en .c).pc = e.start ∧
        (k.advance .c len n cycle).ctl.loops = { e with iter := e.iter + 1 } :: es ∧
        ∀ u, u ≠ .c → (k.en u).active = true → ((k.advance .c len n cycle).en u).steer =
          (k.en u).steer ++ [{ addr := e.stop, loopEnd := true, target := e.start, notBefore := cycle + 1 }]) ∧
    (∀ e es, t = .c → k.ctl.loops = e :: es → e.depth = k.ctl.ret.length → (k.en .c).pc ≤ e.stop → e.stop < (k.en .c).pc + len →
      e.count.toNat ≤ (e.iter + 1).toNat → (∀ f fs, es = f :: fs → ¬ (f.stop = e.stop ∧ f.depth = e.depth)) →
      ((k.advance .c len n cycle).en .c).pc = e.stop + 1 ∧ (k.advance .c len n cycle).ctl.loops = es)

/-- A word of C that acts on the stack and the registers, and every word of E, leaves all but its own core as it was, and in
its core every register, memory and queue that is not its own: memory, the dies, the links and every other core are
unchanged, the scratchpad, the matrix unit but for the cycle in which its tiles are read, the copy engine and the streams too
(02 R31; 04 R71-R79; 07 R164). -/
def Obligations.RegisterFrame : Prop :=
  ∀ (i : Instr) (s t : State), exec i s = .next t →
    (plainControl i = true → t = s.updMe fun k => { k with
      eng := t.me.eng
      ctl := t.me.ctl
      cf := t.me.cf
      leg := { k.leg with rise := t.me.leg.rise }
      kop := { k.kop with walked := t.me.kop.walked, poll := t.me.kop.poll }
      collPages := t.me.collPages
      trips := t.me.trips
      run := t.me.run
      walks := t.me.walks
      swait := t.me.swait }) ∧
    (executeWord i = true → t = s.updMe fun k => { k with
      eng := t.me.eng
      ctl := { k.ctl with outq := t.me.ctl.outq }
      cf := t.me.cf
      vec := t.me.vec
      queues := t.me.queues
      mat := { k.mat with reads := t.me.mat.reads }
      late := t.me.late
      leg := { k.leg with rise := t.me.leg.rise }
      kop := { k.kop with walked := t.me.kop.walked, poll := t.me.kop.poll }
      collPages := t.me.collPages
      trips := t.me.trips
      run := t.me.run
      walks := t.me.walks
      swait := t.me.swait })

/-- MEMWR and a store that a core has posted change exactly the bytes they store, in every memory of the package; the bytes
stored read back; no die holds a token of the store's region (06 R147; 14 R294; 17 R353, R356; 19 R394). -/
def Obligations.StoreFrame : Prop :=
  ∀ (s : State),
    (∀ (die tier off : Nat) (bs : List Byte), PortOpen s → PortExtent s die tier off bs.length → CellsDistinct (s.die die) →
      (s.write die tier off bs false).2 = true →
      ∃ t, exec (.memwr die tier off bs) s = .next t ∧ OnlyStored s t die tier off bs) ∧
    (∀ (j : Nat) (a : Posted) (bs : List Byte) (s2 : State), s.me.posted[j]? = some a → s.me.mayPerform j = true →
      a.peer = none → a.tier < 2 → s.waits a.die a.tier a.off a.bytes = false → a.write = some bs → bs ≠ [] →
      CellsDistinct (s.die a.die) →
      (∀ k ∈ (s.die a.die).tokens, k.space ≠ s.me.space ∨ k.region < a.va.toNat / 2 ^ 21 ∨
        (a.va.toNat + bs.length - 1) / 2 ^ 21 < k.region) →
      s2 = (s.updMe fun k => { k with posted := k.posted.erase a }) →
      (s2.write a.die a.tier a.off bs a.klock).2 = true →
      ∃ t, exec (.freeModeRequestService j) s = .next t ∧ OnlyStored s t a.die a.tier a.off bs)
end

