-- ==== Sys2Proof/Laws/SMap.lean ====
section
/-! SUPPORT. Sparse maps: reading after writing, and that every operation keeps the canonical form. -/

namespace Sys2Proof.Machine

variable {α : Type}

/-! ## Reading after writing -/

theorem SMap.get_erase_same (d : α) (m : SMap α) (k : Nat) : SMap.get d (SMap.erase m k) k = d := by
  induction m with
  | nil => rfl
  | cons p m ih => by_cases h : p.1 = k <;> simp [SMap.erase, SMap.get, h, ih]

theorem SMap.get_erase_other (d : α) (m : SMap α) {k a : Nat} (h : a ≠ k) :
    SMap.get d (SMap.erase m k) a = SMap.get d m a := by
  induction m with
  | nil => rfl
  | cons p m ih =>
    by_cases hk : p.1 = k
    · simp [SMap.erase, SMap.get, hk, ih, Ne.symm h]
    · simp [SMap.erase, SMap.get, hk, ih]

theorem SMap.get_insert_same (d : α) (m : SMap α) (k : Nat) (v : α) (h : SMap.has m k = false) :
    SMap.get d (SMap.insert k v m) k = v := by
  induction m with
  | nil => simp [SMap.insert, SMap.get]
  | cons p m ih =>
    have hp : p.1 ≠ k := by intro he; simp [SMap.has, he] at h
    have hm : SMap.has m k = false := by simpa [SMap.has, hp] using h
    by_cases hk : k < p.1 <;> simp [SMap.insert, SMap.get, hk, hp, ih hm]

theorem SMap.get_insert_other (d : α) (m : SMap α) {k a : Nat} (v : α) (h : a ≠ k) :
    SMap.get d (SMap.insert k v m) a = SMap.get d m a := by
  induction m with
  | nil => simp [SMap.insert, SMap.get, Ne.symm h]
  | cons p m ih => by_cases hk : k < p.1 <;> simp [SMap.insert, SMap.get, hk, ih, Ne.symm h]

theorem SMap.has_erase_same (m : SMap α) (k : Nat) : SMap.has (SMap.erase m k) k = false := by
  induction m with
  | nil => rfl
  | cons p m ih => by_cases h : p.1 = k <;> simp [SMap.erase, SMap.has, h, ih]

@[simp] theorem SMap.get_put_same (d : α) (m : SMap α) (k : Nat) (v : α) : SMap.get d (SMap.put m k v) k = v :=
  SMap.get_insert_same d _ k v (SMap.has_erase_same m k)

theorem SMap.get_put_other (d : α) (m : SMap α) {k a : Nat} (v : α) (h : a ≠ k) :
    SMap.get d (SMap.put m k v) a = SMap.get d m a := by
  rw [SMap.put, SMap.get_insert_other d _ v h, SMap.get_erase_other d m h]

theorem SMap.get_put (d : α) (m : SMap α) (k a : Nat) (v : α) :
    SMap.get d (SMap.put m k v) a = if a = k then v else SMap.get d m a := by
  by_cases h : a = k
  · simp [h]
  · simp [h, SMap.get_put_other]

variable [DecidableEq α]

@[simp] theorem SMap.get_set_same (d : α) (m : SMap α) (k : Nat) (v : α) : SMap.get d (SMap.set d m k v) k = v := by
  unfold SMap.set
  split
  · simp_all [SMap.get_erase_same]
  · exact SMap.get_insert_same d _ k v (SMap.has_erase_same m k)

theorem SMap.get_set_other (d : α) (m : SMap α) {k a : Nat} (v : α) (h : a ≠ k) :
    SMap.get d (SMap.set d m k v) a = SMap.get d m a := by
  unfold SMap.set
  split
  · exact SMap.get_erase_other d m h
  · rw [SMap.get_insert_other d _ v h, SMap.get_erase_other d m h]

theorem SMap.get_set (d : α) (m : SMap α) (k a : Nat) (v : α) :
    SMap.get d (SMap.set d m k v) a = if a = k then v else SMap.get d m a := by
  by_cases h : a = k
  · simp [h]
  · simp [h, SMap.get_set_other]

omit [DecidableEq α] in
theorem SMap.get_filter (d : α) (m : SMap α) (p : Nat → Bool) (a : Nat) :
    SMap.get d (m.filter fun x => p x.1) a = if p a then SMap.get d m a else d := by
  induction m with
  | nil => simp [SMap.get]
  | cons x m ih =>
    by_cases hx : p x.1
    · by_cases ha : x.1 = a
      · subst ha; simp [List.filter, hx, SMap.get]
      · simp [List.filter, hx, SMap.get, ha, ih]
    · by_cases ha : x.1 = a
      · subst ha; simp [List.filter, hx, ih]
      · simp [List.filter, hx, SMap.get, ha, ih]

omit [DecidableEq α] in
theorem SMap.get_append (d : α) (m n : SMap α) (a : Nat) :
    SMap.get d (m ++ n) a = if SMap.has m a then SMap.get d m a else SMap.get d n a := by
  induction m with
  | nil => simp [SMap.has]
  | cons x m ih => by_cases ha : x.1 = a <;> simp [SMap.get, SMap.has, ha, ih]

omit [DecidableEq α] in
theorem SMap.has_filter (m : SMap α) (p : Nat → Bool) (a : Nat) :
    SMap.has (m.filter fun x => p x.1) a = (p a && SMap.has m a) := by
  induction m with
  | nil => simp [SMap.has]
  | cons x m ih =>
    by_cases hx : p x.1
    · by_cases ha : x.1 = a
      · subst ha; simp [List.filter, hx, SMap.has]
      · simp [List.filter, hx, SMap.has, ha, ih]
    · by_cases ha : x.1 = a
      · subst ha; simp [List.filter, hx, ih]
      · simp [List.filter, hx, SMap.has, ha, ih]

omit [DecidableEq α] in
theorem SMap.get_of_not_has (d : α) (m : SMap α) (a : Nat) (h : SMap.has m a = false) : SMap.get d m a = d := by
  induction m with
  | nil => rfl
  | cons x m ih =>
    by_cases ha : x.1 = a
    · simp [SMap.has, ha] at h
    · simp [SMap.has, ha] at h; simp [SMap.get, ha, ih h]

theorem SMap.get_ofRun (d : α) (k a : Nat) (vs : List α) :
    SMap.get d (SMap.ofRun d k vs) a = if k ≤ a then vs.getD (a - k) d else d := by
  induction vs generalizing k with
  | nil => simp [SMap.ofRun, SMap.get]
  | cons v vs ih =>
    unfold SMap.ofRun
    by_cases hv : v = d
    · rw [if_pos hv, ih]
      by_cases h1 : k + 1 ≤ a
      · have h2 : a - k = (a - (k + 1)) + 1 := by omega
        have h3 : k ≤ a := by omega
        simp [h1, h3, h2]
      · by_cases h4 : k = a
        · subst h4; simp [hv, h1]
        · have : ¬ k ≤ a := by omega
          simp [h1, this]
    · rw [if_neg hv, SMap.get, ih]
      by_cases h4 : k = a
      · subst h4; simp
      · by_cases h1 : k + 1 ≤ a
        · have h2 : a - k = (a - (k + 1)) + 1 := by omega
          have h3 : k ≤ a := by omega
          simp [h4, h1, h3, h2]
        · have : ¬ k ≤ a := by omega
          simp [h4, h1, this]

theorem SMap.has_ofRun_outside (d : α) (k a : Nat) (vs : List α) (h : a < k ∨ k + vs.length ≤ a) :
    SMap.has (SMap.ofRun d k vs) a = false := by
  induction vs generalizing k with
  | nil => rfl
  | cons v vs ih =>
    have h' : a < k + 1 ∨ k + 1 + vs.length ≤ a := by simp at h; omega
    have hk : k ≠ a := by simp at h; omega
    unfold SMap.ofRun
    split
    · exact ih (k + 1) h'
    · simp [SMap.has, hk, ih (k + 1) h']

/-- A run reads back, and every key outside it reads as before. -/
theorem SMap.get_setRun (d : α) (m : SMap α) (k a : Nat) (vs : List α) :
    SMap.get d (SMap.setRun d m k vs) a
      = if k ≤ a ∧ a < k + vs.length then vs.getD (a - k) d else SMap.get d m a := by
  unfold SMap.setRun
  rw [SMap.get_append, SMap.get_append, SMap.get_filter d m (fun x => decide (x < k)),
    SMap.has_filter m (fun x => decide (x < k)), SMap.get_filter d m (fun x => decide (k + vs.length ≤ x)),
    SMap.get_ofRun]
  by_cases h1 : a < k
  · have h2 : ¬ k ≤ a := by omega
    have h3 : ¬ k + vs.length ≤ a := by omega
    by_cases hm : SMap.has m a = true
    · simp [h1, h2, hm]
    · have := SMap.get_of_not_has d m a (by simpa using hm)
      simp [h1, h2, h3, hm, this]
  · have h2 : k ≤ a := by omega
    by_cases h3 : a < k + vs.length
    · have h4 : ¬ k + vs.length ≤ a := by omega
      by_cases hh : SMap.has (SMap.ofRun d k vs) a = true
      · simp [h1, h2, h3, hh]
      · have := SMap.get_of_not_has d _ a (by simpa using hh)
        rw [SMap.get_ofRun] at this
        simp only [h2, if_true] at this
        have hh' : SMap.has (SMap.ofRun d k vs) a = false := by simpa using hh
        simp only [hh', h1, h2, h3, h4, decide_false, decide_true, Bool.false_and, Bool.false_eq_true, if_false, and_self, if_true]
        exact this.symm
    · have h4 : k + vs.length ≤ a := by omega
      have := SMap.has_ofRun_outside d k a vs (.inr h4)
      simp [h1, h3, h4, this]

/-! ## The canonical form -/

theorem SMap.wfFrom_mono (d : α) {lo lo' : Nat} (h : lo' ≤ lo) :
    ∀ m : SMap α, SMap.wfFrom d lo m = true → SMap.wfFrom d lo' m = true
  | [], _ => rfl
  | (k, v) :: m, hm => by
    simp only [SMap.wfFrom, Bool.and_eq_true, decide_eq_true_eq] at hm ⊢
    exact ⟨⟨by omega, hm.1.2⟩, hm.2⟩

theorem SMap.wfFrom_erase (d : α) (k : Nat) : ∀ (lo : Nat) (m : SMap α), SMap.wfFrom d lo m = true →
    SMap.wfFrom d lo (SMap.erase m k) = true
  | _, [], _ => rfl
  | lo, (k', v) :: m, h => by
    simp only [SMap.wfFrom, Bool.and_eq_true, decide_eq_true_eq] at h
    have ih := SMap.wfFrom_erase d k (k' + 1) m h.2
    unfold SMap.erase
    split
    · exact SMap.wfFrom_mono d (by omega) _ ih
    · simp only [SMap.wfFrom, Bool.and_eq_true, decide_eq_true_eq]; exact ⟨h.1, ih⟩

theorem SMap.wfFrom_insert (d : α) (k : Nat) (v : α) (hv : v ≠ d) : ∀ (lo : Nat) (m : SMap α), lo ≤ k →
    SMap.has m k = false → SMap.wfFrom d lo m = true → SMap.wfFrom d lo (SMap.insert k v m) = true
  | lo, [], hlo, _, _ => by simp [SMap.insert, SMap.wfFrom, hlo, hv]
  | lo, (k', v') :: m, hlo, hn, h => by
    have hk : k' ≠ k := by intro he; simp [SMap.has, he] at hn
    have hm : SMap.has m k = false := by simpa [SMap.has, hk] using hn
    simp only [SMap.wfFrom, Bool.and_eq_true, decide_eq_true_eq] at h
    unfold SMap.insert
    split
    · simp only [SMap.wfFrom, Bool.and_eq_true, decide_eq_true_eq]
      exact ⟨⟨hlo, by simp [hv]⟩, ⟨by omega, h.1.2⟩, h.2⟩
    · simp only [SMap.wfFrom, Bool.and_eq_true, decide_eq_true_eq]
      exact ⟨h.1, SMap.wfFrom_insert d k v hv (k' + 1) m (by omega) hm h.2⟩

/-- Writing one key keeps the canonical form. -/
theorem SMap.wf_set (d : α) (m : SMap α) (k : Nat) (v : α) (h : SMap.wf d m = true) :
    SMap.wf d (SMap.set d m k v) = true := by
  unfold SMap.set
  split
  · exact SMap.wfFrom_erase d k 0 m h
  · next hv => exact SMap.wfFrom_insert d k v hv 0 _ (Nat.zero_le _) (SMap.has_erase_same m k) (SMap.wfFrom_erase d k 0 m h)

theorem SMap.wf_erase (d : α) (m : SMap α) (k : Nat) (h : SMap.wf d m = true) : SMap.wf d (SMap.erase m k) = true :=
  SMap.wfFrom_erase d k 0 m h

/-- All keys of a map lie below a bound. -/
def SMap.below (hi : Nat) (m : SMap α) : Prop := ∀ p ∈ m, p.1 < hi

theorem SMap.wfFrom_append (d : α) (hi : Nat) : ∀ (lo : Nat) (m n : SMap α), SMap.wfFrom d lo m = true →
    SMap.below hi m → lo ≤ hi → SMap.wfFrom d hi n = true → SMap.wfFrom d lo (m ++ n) = true
  | _, [], n, _, _, hlo, hn => SMap.wfFrom_mono d hlo n hn
  | lo, (k, v) :: m, n, hm, hb, _, hn => by
    simp only [List.cons_append, SMap.wfFrom, Bool.and_eq_true, decide_eq_true_eq] at hm ⊢
    have hk : k < hi := hb (k, v) (by simp)
    exact ⟨hm.1, SMap.wfFrom_append d hi (k + 1) m n hm.2 (fun p hp => hb p (by simp [hp])) (by omega) hn⟩

theorem SMap.wfFrom_filter (d : α) (q : Nat × α → Bool) : ∀ (lo : Nat) (m : SMap α), SMap.wfFrom d lo m = true →
    SMap.wfFrom d lo (m.filter q) = true
  | _, [], _ => rfl
  | lo, (k, v) :: m, h => by
    simp only [SMap.wfFrom, Bool.and_eq_true, decide_eq_true_eq] at h
    have ih := SMap.wfFrom_filter d q (k + 1) m h.2
    by_cases hq : q (k, v)
    · simp only [List.filter, hq, SMap.wfFrom, Bool.and_eq_true, decide_eq_true_eq]; exact ⟨h.1, ih⟩
    · simp only [List.filter, hq]; exact SMap.wfFrom_mono d (by omega) _ ih

theorem SMap.wfFrom_filter_ge (d : α) (b : Nat) : ∀ (lo : Nat) (m : SMap α), SMap.wfFrom d lo m = true →
    SMap.wfFrom d b (m.filter fun p => decide (b ≤ p.1)) = true
  | _, [], _ => rfl
  | lo, (k, v) :: m, h => by
    simp only [SMap.wfFrom, Bool.and_eq_true, decide_eq_true_eq] at h
    by_cases hq : b ≤ k
    · have ih := SMap.wfFrom_filter d (fun p => decide (b ≤ p.1)) (k + 1) m h.2
      simp only [List.filter, hq, decide_true, SMap.wfFrom, Bool.and_eq_true, decide_eq_true_eq]
      exact ⟨⟨trivial, h.1.2⟩, ih⟩
    · simp only [List.filter, hq, decide_false]; exact SMap.wfFrom_filter_ge d b (k + 1) m h.2

theorem SMap.wfFrom_ofRun (d : α) (vs : List α) : ∀ k, SMap.wfFrom d k (SMap.ofRun d k vs) = true := by
  induction vs with
  | nil => intro k; rfl
  | cons v vs ih =>
    intro k
    unfold SMap.ofRun
    split
    · exact SMap.wfFrom_mono d (by omega) _ (ih (k + 1))
    · next hv => simp [SMap.wfFrom, hv, ih (k + 1)]

theorem SMap.below_ofRun (d : α) (vs : List α) : ∀ k, SMap.below (k + vs.length) (SMap.ofRun d k vs) := by
  induction vs with
  | nil => intro k p hp; simp [SMap.ofRun] at hp
  | cons v vs ih =>
    intro k p hp
    unfold SMap.ofRun at hp
    have hr := ih (k + 1) p
    simp only [List.length_cons]
    split at hp
    · have := hr hp; omega
    · rcases List.mem_cons.mp hp with h | h
      · subst h; simp
      · have := hr h; omega

/-- Writing a run of keys keeps the canonical form. -/
theorem SMap.wf_setRun (d : α) (m : SMap α) (k : Nat) (vs : List α) (h : SMap.wf d m = true) :
    SMap.wf d (SMap.setRun d m k vs) = true := by
  unfold SMap.setRun
  refine SMap.wfFrom_append d k 0 _ _ (SMap.wfFrom_filter d _ 0 m h) ?_ (Nat.zero_le _) ?_
  · intro p hp; simpa using (List.mem_filter.mp hp).2
  · exact SMap.wfFrom_append d (k + vs.length) k _ _ (SMap.wfFrom_ofRun d vs k) (SMap.below_ofRun d vs k) (by omega)
      (SMap.wfFrom_filter_ge d (k + vs.length) 0 m h)

omit [DecidableEq α] in
theorem SMap.getRun_length (d : α) (m : SMap α) (k n : Nat) : (SMap.getRun d m k n).length = n := by
  induction n generalizing k with
  | zero => rfl
  | succ n ih => simp [SMap.getRun, ih]

omit [DecidableEq α] in
theorem SMap.getRun_congr (d : α) (m m' : SMap α) (k n : Nat) (h : ∀ a, k ≤ a → a < k + n → SMap.get d m a = SMap.get d m' a) :
    SMap.getRun d m k n = SMap.getRun d m' k n := by
  induction n generalizing k with
  | zero => rfl
  | succ n ih =>
    simp only [SMap.getRun]
    rw [h k (by omega) (by omega), ih (k + 1) fun a h1 h2 => h a (by omega) (by omega)]

omit [DecidableEq α] in
/-- Reading a run through the entries there alone is reading it. -/
theorem SMap.slice_eq (d : α) (m : SMap α) (k n : Nat) : SMap.slice d m k n = SMap.getRun d m k n := by
  unfold SMap.slice
  refine SMap.getRun_congr d _ m k n fun a h1 h2 => ?_
  rw [SMap.get_filter d m (fun x => decide (k ≤ x) && decide (x < k + n))]
  simp [h1, h2]

end Sys2Proof.Machine
end

