-- ==== Sys2Proof/Laws/Memory.lean ====
section
/-! SUPPORT. The memory of a die: every operation keeps its canonical form, and what a write leaves to be read. -/

namespace Sys2Proof.Machine

theorem Memory.wf_iff (m : Mem) : Memory.wf m = true ↔
    SMap.wf blank m.fast = true ∧ SMap.wf blank m.cap = true ∧ SMap.wf false m.wrote = true ∧
      SMap.wf false m.failed = true ∧ SMap.wf false m.soft = true ∧ ∀ e ∈ m.older, SMap.wf false e.2 = true := by
  simp [Memory.wf, and_assoc]

theorem Memory.wf_empty (v : Nat) : Memory.wf { baseVer := v } = true := rfl

theorem Mem.scatter_wf (m : Mem) (d : Die) (off : Nat) (bs : List Byte) (h : Memory.wf m = true) :
    Memory.wf (m.scatter d off bs) = true := by
  induction bs generalizing m off with
  | nil => exact h
  | cons b bs ih =>
    refine ih _ _ ?_
    rw [Memory.wf_iff] at h ⊢
    exact ⟨SMap.wf_set _ _ _ _ h.1, h.2⟩

/-- Putting bytes keeps the canonical form. -/
theorem Mem.putBytes_wf (m : Mem) (d : Die) (tier off : Nat) (bs : List Byte) (h : Memory.wf m = true) :
    Memory.wf (m.putBytes d tier off bs) = true := by
  unfold Mem.putBytes
  split
  · rw [Memory.wf_iff] at h ⊢; exact ⟨h.1, SMap.wf_setRun _ _ _ _ h.2.1, h.2.2⟩
  · split
    · rw [Memory.wf_iff] at h ⊢; exact ⟨SMap.wf_setRun _ _ _ _ h.1, h.2⟩
    · exact m.scatter_wf d off bs h

@[simp] theorem Die.setReg_mem (d : Die) (i : Nat) (v : W64) : (d.setReg i v).mem = d.mem := rfl

@[simp] theorem Die.bumpReg_mem (d : Die) (i lo w n : Nat) : (d.bumpReg i lo w n).mem = d.mem := rfl

@[simp] theorem Die.heat_mem (d : Die) (tier off n : Nat) : (d.heat tier off n).mem = d.mem := by
  simp only [Die.heat]

@[simp] theorem Die.logInteg_mem (d : Die) (tier line : Nat) (b : Bool) : (d.logInteg tier line b).mem = d.mem := by
  unfold Die.logInteg
  exact Die.setReg_mem _ _ _

theorem Die.remask_wf (d : Die) (i : Nat) (v : W64) (h : Memory.wf d.mem = true) :
    Memory.wf (d.remask i v).mem = true := by
  unfold Die.remask
  split
  · exact h
  · rw [Die.setReg_mem]
    rw [Memory.wf_iff] at h ⊢
    refine ⟨h.1, h.2.1, rfl, h.2.2.2.1, h.2.2.2.2.1, fun e he => ?_⟩
    rcases List.mem_cons.mp he with rfl | he
    · exact h.2.2.1
    · exact h.2.2.2.2.2 e he

theorem Mem.renew_wf (m : Mem) (tier line : Nat) (h : Memory.wf m = true) :
    Memory.wf (m.renew tier line) = true := by
  rw [Memory.wf_iff] at h ⊢
  refine ⟨h.1, h.2.1, ?_, SMap.wf_set false m.failed (lineKey tier line) false h.2.2.2.1,
    SMap.wf_set false m.soft (lineKey tier line) false h.2.2.2.2.1, h.2.2.2.2.2⟩
  show SMap.wf false (if tier = 0 then SMap.set false m.wrote (line / 256) true else m.wrote) = true
  split
  · exact SMap.wf_set _ _ _ _ h.2.2.1
  · exact h.2.2.1

/-- Marking a line as written keeps the canonical form. -/
theorem Die.sealLine_wf (d : Die) (tier line ver : Nat) (h : Memory.wf d.mem = true) :
    Memory.wf (d.sealLine tier line ver).mem = true := by
  have h1 := d.mem.renew_wf tier line h
  have e : (d.sealLine tier line ver).mem = (if Die.verOf { d with mem := d.mem.renew tier line } tier line = ver
      then d.mem.renew tier line
      else { d.mem.renew tier line with ver := SMap.put (d.mem.renew tier line).ver (lineKey tier line) ver }) := rfl
  rw [e]
  split
  · exact h1
  · exact h1

theorem Die.sealLines_wf (tier : Nat) (ver : Die → Nat) (ls : List Nat) (d : Die) (h : Memory.wf d.mem = true) :
    Memory.wf (ls.foldl (fun d l => d.sealLine tier l (ver d)) d).mem = true := by
  induction ls generalizing d with
  | nil => exact h
  | cons l ls ih => exact ih _ (d.sealLine_wf tier l _ h)

/-- A write of bytes keeps the canonical form. -/
theorem Die.poke_wf (d d' : Die) (tier off : Nat) (bs : List Byte) (k : Bool) (h : Memory.wf d.mem = true)
    (hp : d.poke tier off bs k = some d') : Memory.wf d'.mem = true := by
  unfold Die.poke at hp
  simp only at hp
  split at hp
  · rw [← Option.some.inj hp]
    exact Die.sealLines_wf tier (fun d => if k then 15 else d.keyCur) _ _ (d.mem.putBytes_wf d tier off bs h)
  · cases hp

theorem Die.correct_wf (d : Die) (tier line : Nat) (h : Memory.wf d.mem = true) :
    Memory.wf (d.correct tier line).mem = true := by
  have hc : Memory.wf { d.mem with soft := SMap.set false d.mem.soft (lineKey tier line) false } = true := by
    rw [Memory.wf_iff] at h ⊢
    exact ⟨h.1, h.2.1, h.2.2.1, h.2.2.2.1, SMap.wf_set false d.mem.soft (lineKey tier line) false h.2.2.2.2.1, h.2.2.2.2.2⟩
  unfold Die.correct
  simp only
  split
  · rw [Die.setReg_mem]; exact hc
  · exact h

theorem Die.corrects_wf (tier : Nat) (ls : List Nat) (d : Die) (h : Memory.wf d.mem = true) :
    Memory.wf (ls.foldl (fun d l => d.correct tier l) d).mem = true := by
  induction ls generalizing d with
  | nil => exact h
  | cons l ls ih => exact ih _ (d.correct_wf tier l h)

/-! ## The package -/

@[simp] theorem State.die_setDie_same (s : State) (d : Nat) (x : Die) : (s.setDie d x).die d = x := by
  simp [State.setDie, State.die]

theorem State.die_setDie (s : State) (d e : Nat) (x : Die) :
    (s.setDie d x).die e = if e = d then x else s.die e := by
  simp [State.setDie, State.die, SMap.get_put]

@[simp] theorem State.die_setCore (s : State) (k : Nat) (c : Core) (d : Nat) : (s.setCore k c).die d = s.die d := rfl

@[simp] theorem State.die_updMe (s : State) (f : Core → Core) (d : Nat) : (s.updMe f).die d = s.die d := rfl

/-- Every die's memory has its canonical form. -/
def State.memWf (s : State) : Prop := ∀ d, Memory.wf (s.die d).mem = true

theorem State.memWf_setDie {s : State} {d : Nat} {x : Die} (h : s.memWf) (hx : Memory.wf x.mem = true) :
    (s.setDie d x).memWf := by
  intro e
  rw [State.die_setDie]
  split
  · exact hx
  · exact h e

/-- A read by a unit keeps the canonical form. -/
theorem State.read_memWf (s : State) (die tier off n : Nat) (h : s.memWf) : (s.read die tier off n).1.memWf := by
  unfold State.read
  simp only
  split
  · exact State.memWf_setDie h (Die.corrects_wf tier _ _ (by simpa using h die))
  · exact State.memWf_setDie h (by simpa using h die)

/-- What a write in part corrects first keeps the canonical form. -/
theorem Die.mend_wf (d : Die) (tier off n : Nat) (h : Memory.wf d.mem = true) : Memory.wf (d.mend tier off n).mem = true :=
  Die.corrects_wf tier _ _ h

/-- A write by a unit keeps the canonical form. -/
theorem State.write_memWf (s : State) (die tier off : Nat) (bs : List Byte) (k : Bool) (h : s.memWf) :
    (s.write die tier off bs k).1.memWf := by
  unfold State.write
  simp only
  split
  · next d hd => exact State.memWf_setDie h (Die.poke_wf _ _ tier off bs k (Die.mend_wf _ tier off bs.length (by simpa using h die)) hd)
  · exact State.memWf_setDie h (by simpa using h die)

theorem State.reset_memWf : State.reset.memWf := fun _ => rfl

/-! ## What a write leaves to be read -/

theorem Die.sealLine_bytes (d : Die) (tier line ver : Nat) :
    (d.sealLine tier line ver).mem.fast = d.mem.fast ∧ (d.sealLine tier line ver).mem.cap = d.mem.cap
      ∧ (d.sealLine tier line ver).dg = d.dg := by
  unfold Die.sealLine
  refine ⟨?_, ?_, rfl⟩ <;> (simp only; split <;> rfl)

theorem Die.sealLines_bytes (tier : Nat) (ver : Die → Nat) (ls : List Nat) (d : Die) :
    (ls.foldl (fun d l => d.sealLine tier l (ver d)) d).mem.fast = d.mem.fast
      ∧ (ls.foldl (fun d l => d.sealLine tier l (ver d)) d).mem.cap = d.mem.cap
      ∧ (ls.foldl (fun d l => d.sealLine tier l (ver d)) d).dg = d.dg := by
  induction ls generalizing d with
  | nil => exact ⟨rfl, rfl, rfl⟩
  | cons l ls ih =>
    have h := d.sealLine_bytes tier l (ver d)
    have h' := ih (d.sealLine tier l (ver d))
    exact ⟨h'.1.trans h.1, h'.2.1.trans h.2.1, h'.2.2.trans h.2.2⟩

theorem Die.reg_congr {d e : Die} (h : d.dg = e.dg) (i : Nat) : d.reg i = e.reg i := by simp [Die.reg, h]

theorem Die.plainHash_congr {d e : Die} (h : d.dg = e.dg) : d.plainHash = e.plainHash := by
  simp [Die.plainHash, Die.reg_congr h]

theorem Die.cellOf_congr {d e : Die} (h : d.dg = e.dg) (o : Nat) : d.cellOf o = e.cellOf o := by
  have hm : d.mask = e.mask := by funext i; simp [Die.mask, Die.reg_congr h]
  simp [Die.cellOf, Die.plainHash_congr h, hm]

/-- After a write, with the hash masks of reset, the bytes written read back and every other byte of both tiers reads as before. -/
theorem Die.byteAt_poke (d d' : Die) (tier off : Nat) (bs : List Byte) (k : Bool) (hh : d.plainHash = true)
    (hp : d.poke tier off bs k = some d') (t a : Nat) (ht : t = 0 ↔ tier = 0) :
    d'.byteAt t a = if off ≤ a ∧ a < off + bs.length then bs.getD (a - off) blank else d.byteAt t a := by
  unfold Die.poke at hp
  simp only at hp
  split at hp
  · rw [← Option.some.inj hp]
    have hs := Die.sealLines_bytes tier (fun d => if k then 15 else d.keyCur) (linesOf off bs.length)
      { d with mem := d.mem.putBytes d tier off bs }
    unfold Die.byteAt
    rw [hs.1, hs.2.1, Die.cellOf_congr hs.2.2 a]
    have hc : ∀ o, d.cellOf o = o := fun o => by simp [Die.cellOf, hh]
    have hc' : Die.cellOf { d with mem := d.mem.putBytes d tier off bs } a = d.cellOf a := Die.cellOf_congr rfl a
    rw [hc', hc]
    by_cases h0 : tier = 0
    · simp [ht.mpr h0, Mem.putBytes, h0, hh, SMap.get_setRun]
    · have : t ≠ 0 := fun h => h0 (ht.mp h)
      simp [this, Mem.putBytes, h0, SMap.get_setRun]
  · cases hp

end Sys2Proof.Machine
end

