-- ==== Sys2Proof/Laws/State.lean ====
section
/-! SUPPORT. What each update of the state leaves in each field, one lemma per field, so that no proof unfolds an update. -/

namespace Sys2Proof.Machine

/-! ## Updates of the package -/

@[simp] theorem State.setCore_cycle (s : State) (k : Nat) (c : Core) : (s.setCore k c).cycle = s.cycle := rfl
@[simp] theorem State.setCore_package (s : State) (k : Nat) (c : Core) : (s.setCore k c).package = s.package := rfl
@[simp] theorem State.setCore_dies (s : State) (k : Nat) (c : Core) : (s.setCore k c).dies = s.dies := rfl
@[simp] theorem State.setCore_pk (s : State) (k : Nat) (c : Core) : (s.setCore k c).pk = s.pk := rfl
@[simp] theorem State.setCore_peerOut (s : State) (k : Nat) (c : Core) : (s.setCore k c).peerOut = s.peerOut := rfl
@[simp] theorem State.setCore_peerIn (s : State) (k : Nat) (c : Core) : (s.setCore k c).peerIn = s.peerIn := rfl
@[simp] theorem State.setCore_inbound (s : State) (k : Nat) (c : Core) : (s.setCore k c).inbound = s.inbound := rfl
@[simp] theorem State.setCore_answers (s : State) (k : Nat) (c : Core) : (s.setCore k c).answers = s.answers := rfl
@[simp] theorem State.setCore_bridges (s : State) (k : Nat) (c : Core) : (s.setCore k c).bridges = s.bridges := rfl
@[simp] theorem State.setCore_peerSigns (s : State) (k : Nat) (c : Core) : (s.setCore k c).peerSigns = s.peerSigns := rfl
@[simp] theorem State.setCore_links (s : State) (k : Nat) (c : Core) : (s.setCore k c).links = s.links := rfl
@[simp] theorem State.setCore_regWrites (s : State) (k : Nat) (c : Core) : (s.setCore k c).regWrites = s.regWrites := rfl
@[simp] theorem State.setCore_on (s : State) (k : Nat) (c : Core) : (s.setCore k c).on = s.on := rfl
@[simp] theorem State.setCore_firmware (s : State) (k : Nat) (c : Core) : (s.setCore k c).firmware = s.firmware := rfl
@[simp] theorem State.setCore_owner (s : State) (k : Nat) (c : Core) : (s.setCore k c).owner = s.owner := rfl
@[simp] theorem State.setCore_replies (s : State) (k : Nat) (c : Core) : (s.setCore k c).replies = s.replies := rfl
@[simp] theorem State.setCore_sched (s : State) (k : Nat) (c : Core) : (s.setCore k c).sched = s.sched := rfl
@[simp] theorem State.setCore_actor (s : State) (k : Nat) (c : Core) : (s.setCore k c).actor = s.actor := rfl
@[simp] theorem State.setCore_freeCount (s : State) (k : Nat) (c : Core) : (s.setCore k c).freeCount = s.freeCount := rfl
@[simp] theorem State.setCore_die (s : State) (k : Nat) (c : Core) (d : Nat) : (s.setCore k c).die d = s.die d := rfl
@[simp] theorem State.setCore_myDie (s : State) (k : Nat) (c : Core) : (s.setCore k c).myDie = s.myDie := rfl

@[simp] theorem State.setMe_cycle (s : State) (c : Core) : (s.setMe c).cycle = s.cycle := rfl
@[simp] theorem State.setMe_package (s : State) (c : Core) : (s.setMe c).package = s.package := rfl
@[simp] theorem State.setMe_dies (s : State) (c : Core) : (s.setMe c).dies = s.dies := rfl
@[simp] theorem State.setMe_pk (s : State) (c : Core) : (s.setMe c).pk = s.pk := rfl
@[simp] theorem State.setMe_peerOut (s : State) (c : Core) : (s.setMe c).peerOut = s.peerOut := rfl
@[simp] theorem State.setMe_peerIn (s : State) (c : Core) : (s.setMe c).peerIn = s.peerIn := rfl
@[simp] theorem State.setMe_inbound (s : State) (c : Core) : (s.setMe c).inbound = s.inbound := rfl
@[simp] theorem State.setMe_answers (s : State) (c : Core) : (s.setMe c).answers = s.answers := rfl
@[simp] theorem State.setMe_bridges (s : State) (c : Core) : (s.setMe c).bridges = s.bridges := rfl
@[simp] theorem State.setMe_peerSigns (s : State) (c : Core) : (s.setMe c).peerSigns = s.peerSigns := rfl
@[simp] theorem State.setMe_links (s : State) (c : Core) : (s.setMe c).links = s.links := rfl
@[simp] theorem State.setMe_regWrites (s : State) (c : Core) : (s.setMe c).regWrites = s.regWrites := rfl
@[simp] theorem State.setMe_on (s : State) (c : Core) : (s.setMe c).on = s.on := rfl
@[simp] theorem State.setMe_firmware (s : State) (c : Core) : (s.setMe c).firmware = s.firmware := rfl
@[simp] theorem State.setMe_owner (s : State) (c : Core) : (s.setMe c).owner = s.owner := rfl
@[simp] theorem State.setMe_replies (s : State) (c : Core) : (s.setMe c).replies = s.replies := rfl
@[simp] theorem State.setMe_sched (s : State) (c : Core) : (s.setMe c).sched = s.sched := rfl
@[simp] theorem State.setMe_actor (s : State) (c : Core) : (s.setMe c).actor = s.actor := rfl
@[simp] theorem State.setMe_freeCount (s : State) (c : Core) : (s.setMe c).freeCount = s.freeCount := rfl
@[simp] theorem State.setMe_die (s : State) (c : Core) (d : Nat) : (s.setMe c).die d = s.die d := rfl
@[simp] theorem State.setMe_myDie (s : State) (c : Core) : (s.setMe c).myDie = s.myDie := rfl

@[simp] theorem State.updMe_cycle (s : State) (f : Core → Core) : (s.updMe f).cycle = s.cycle := rfl
@[simp] theorem State.updMe_package (s : State) (f : Core → Core) : (s.updMe f).package = s.package := rfl
@[simp] theorem State.updMe_dies (s : State) (f : Core → Core) : (s.updMe f).dies = s.dies := rfl
@[simp] theorem State.updMe_pk (s : State) (f : Core → Core) : (s.updMe f).pk = s.pk := rfl
@[simp] theorem State.updMe_peerOut (s : State) (f : Core → Core) : (s.updMe f).peerOut = s.peerOut := rfl
@[simp] theorem State.updMe_peerIn (s : State) (f : Core → Core) : (s.updMe f).peerIn = s.peerIn := rfl
@[simp] theorem State.updMe_inbound (s : State) (f : Core → Core) : (s.updMe f).inbound = s.inbound := rfl
@[simp] theorem State.updMe_answers (s : State) (f : Core → Core) : (s.updMe f).answers = s.answers := rfl
@[simp] theorem State.updMe_bridges (s : State) (f : Core → Core) : (s.updMe f).bridges = s.bridges := rfl
@[simp] theorem State.updMe_peerSigns (s : State) (f : Core → Core) : (s.updMe f).peerSigns = s.peerSigns := rfl
@[simp] theorem State.updMe_links (s : State) (f : Core → Core) : (s.updMe f).links = s.links := rfl
@[simp] theorem State.updMe_regWrites (s : State) (f : Core → Core) : (s.updMe f).regWrites = s.regWrites := rfl
@[simp] theorem State.updMe_on (s : State) (f : Core → Core) : (s.updMe f).on = s.on := rfl
@[simp] theorem State.updMe_firmware (s : State) (f : Core → Core) : (s.updMe f).firmware = s.firmware := rfl
@[simp] theorem State.updMe_owner (s : State) (f : Core → Core) : (s.updMe f).owner = s.owner := rfl
@[simp] theorem State.updMe_replies (s : State) (f : Core → Core) : (s.updMe f).replies = s.replies := rfl
@[simp] theorem State.updMe_sched (s : State) (f : Core → Core) : (s.updMe f).sched = s.sched := rfl
@[simp] theorem State.updMe_actor (s : State) (f : Core → Core) : (s.updMe f).actor = s.actor := rfl
@[simp] theorem State.updMe_freeCount (s : State) (f : Core → Core) : (s.updMe f).freeCount = s.freeCount := rfl
@[simp] theorem State.updMe_die (s : State) (f : Core → Core) (d : Nat) : (s.updMe f).die d = s.die d := rfl
@[simp] theorem State.updMe_myDie (s : State) (f : Core → Core) : (s.updMe f).myDie = s.myDie := rfl

@[simp] theorem State.updCore_cycle (s : State) (k : Nat) (f : Core → Core) : (s.updCore k f).cycle = s.cycle := rfl
@[simp] theorem State.updCore_package (s : State) (k : Nat) (f : Core → Core) : (s.updCore k f).package = s.package := rfl
@[simp] theorem State.updCore_dies (s : State) (k : Nat) (f : Core → Core) : (s.updCore k f).dies = s.dies := rfl
@[simp] theorem State.updCore_pk (s : State) (k : Nat) (f : Core → Core) : (s.updCore k f).pk = s.pk := rfl
@[simp] theorem State.updCore_peerOut (s : State) (k : Nat) (f : Core → Core) : (s.updCore k f).peerOut = s.peerOut := rfl
@[simp] theorem State.updCore_peerIn (s : State) (k : Nat) (f : Core → Core) : (s.updCore k f).peerIn = s.peerIn := rfl
@[simp] theorem State.updCore_inbound (s : State) (k : Nat) (f : Core → Core) : (s.updCore k f).inbound = s.inbound := rfl
@[simp] theorem State.updCore_answers (s : State) (k : Nat) (f : Core → Core) : (s.updCore k f).answers = s.answers := rfl
@[simp] theorem State.updCore_bridges (s : State) (k : Nat) (f : Core → Core) : (s.updCore k f).bridges = s.bridges := rfl
@[simp] theorem State.updCore_peerSigns (s : State) (k : Nat) (f : Core → Core) : (s.updCore k f).peerSigns = s.peerSigns := rfl
@[simp] theorem State.updCore_links (s : State) (k : Nat) (f : Core → Core) : (s.updCore k f).links = s.links := rfl
@[simp] theorem State.updCore_regWrites (s : State) (k : Nat) (f : Core → Core) : (s.updCore k f).regWrites = s.regWrites := rfl
@[simp] theorem State.updCore_on (s : State) (k : Nat) (f : Core → Core) : (s.updCore k f).on = s.on := rfl
@[simp] theorem State.updCore_firmware (s : State) (k : Nat) (f : Core → Core) : (s.updCore k f).firmware = s.firmware := rfl
@[simp] theorem State.updCore_owner (s : State) (k : Nat) (f : Core → Core) : (s.updCore k f).owner = s.owner := rfl
@[simp] theorem State.updCore_replies (s : State) (k : Nat) (f : Core → Core) : (s.updCore k f).replies = s.replies := rfl
@[simp] theorem State.updCore_sched (s : State) (k : Nat) (f : Core → Core) : (s.updCore k f).sched = s.sched := rfl
@[simp] theorem State.updCore_actor (s : State) (k : Nat) (f : Core → Core) : (s.updCore k f).actor = s.actor := rfl
@[simp] theorem State.updCore_freeCount (s : State) (k : Nat) (f : Core → Core) : (s.updCore k f).freeCount = s.freeCount := rfl
@[simp] theorem State.updCore_die (s : State) (k : Nat) (f : Core → Core) (d : Nat) : (s.updCore k f).die d = s.die d := rfl
@[simp] theorem State.updCore_myDie (s : State) (k : Nat) (f : Core → Core) : (s.updCore k f).myDie = s.myDie := rfl

@[simp] theorem State.setDie_cycle (s : State) (d : Nat) (x : Die) : (s.setDie d x).cycle = s.cycle := rfl
@[simp] theorem State.setDie_package (s : State) (d : Nat) (x : Die) : (s.setDie d x).package = s.package := rfl
@[simp] theorem State.setDie_cores (s : State) (d : Nat) (x : Die) : (s.setDie d x).cores = s.cores := rfl
@[simp] theorem State.setDie_pk (s : State) (d : Nat) (x : Die) : (s.setDie d x).pk = s.pk := rfl
@[simp] theorem State.setDie_peerOut (s : State) (d : Nat) (x : Die) : (s.setDie d x).peerOut = s.peerOut := rfl
@[simp] theorem State.setDie_peerIn (s : State) (d : Nat) (x : Die) : (s.setDie d x).peerIn = s.peerIn := rfl
@[simp] theorem State.setDie_inbound (s : State) (d : Nat) (x : Die) : (s.setDie d x).inbound = s.inbound := rfl
@[simp] theorem State.setDie_answers (s : State) (d : Nat) (x : Die) : (s.setDie d x).answers = s.answers := rfl
@[simp] theorem State.setDie_bridges (s : State) (d : Nat) (x : Die) : (s.setDie d x).bridges = s.bridges := rfl
@[simp] theorem State.setDie_peerSigns (s : State) (d : Nat) (x : Die) : (s.setDie d x).peerSigns = s.peerSigns := rfl
@[simp] theorem State.setDie_links (s : State) (d : Nat) (x : Die) : (s.setDie d x).links = s.links := rfl
@[simp] theorem State.setDie_regWrites (s : State) (d : Nat) (x : Die) : (s.setDie d x).regWrites = s.regWrites := rfl
@[simp] theorem State.setDie_on (s : State) (d : Nat) (x : Die) : (s.setDie d x).on = s.on := rfl
@[simp] theorem State.setDie_firmware (s : State) (d : Nat) (x : Die) : (s.setDie d x).firmware = s.firmware := rfl
@[simp] theorem State.setDie_owner (s : State) (d : Nat) (x : Die) : (s.setDie d x).owner = s.owner := rfl
@[simp] theorem State.setDie_replies (s : State) (d : Nat) (x : Die) : (s.setDie d x).replies = s.replies := rfl
@[simp] theorem State.setDie_sched (s : State) (d : Nat) (x : Die) : (s.setDie d x).sched = s.sched := rfl
@[simp] theorem State.setDie_actor (s : State) (d : Nat) (x : Die) : (s.setDie d x).actor = s.actor := rfl
@[simp] theorem State.setDie_freeCount (s : State) (d : Nat) (x : Die) : (s.setDie d x).freeCount = s.freeCount := rfl
@[simp] theorem State.setDie_core (s : State) (d : Nat) (x : Die) (k : Nat) : (s.setDie d x).core k = s.core k := rfl
@[simp] theorem State.setDie_me (s : State) (d : Nat) (x : Die) : (s.setDie d x).me = s.me := rfl
@[simp] theorem State.setDie_myDie (s : State) (d : Nat) (x : Die) : (s.setDie d x).myDie = s.myDie := rfl

@[simp] theorem State.updDie_cycle (s : State) (d : Nat) (f : Die → Die) : (s.updDie d f).cycle = s.cycle := rfl
@[simp] theorem State.updDie_package (s : State) (d : Nat) (f : Die → Die) : (s.updDie d f).package = s.package := rfl
@[simp] theorem State.updDie_cores (s : State) (d : Nat) (f : Die → Die) : (s.updDie d f).cores = s.cores := rfl
@[simp] theorem State.updDie_pk (s : State) (d : Nat) (f : Die → Die) : (s.updDie d f).pk = s.pk := rfl
@[simp] theorem State.updDie_peerOut (s : State) (d : Nat) (f : Die → Die) : (s.updDie d f).peerOut = s.peerOut := rfl
@[simp] theorem State.updDie_peerIn (s : State) (d : Nat) (f : Die → Die) : (s.updDie d f).peerIn = s.peerIn := rfl
@[simp] theorem State.updDie_inbound (s : State) (d : Nat) (f : Die → Die) : (s.updDie d f).inbound = s.inbound := rfl
@[simp] theorem State.updDie_answers (s : State) (d : Nat) (f : Die → Die) : (s.updDie d f).answers = s.answers := rfl
@[simp] theorem State.updDie_bridges (s : State) (d : Nat) (f : Die → Die) : (s.updDie d f).bridges = s.bridges := rfl
@[simp] theorem State.updDie_peerSigns (s : State) (d : Nat) (f : Die → Die) : (s.updDie d f).peerSigns = s.peerSigns := rfl
@[simp] theorem State.updDie_links (s : State) (d : Nat) (f : Die → Die) : (s.updDie d f).links = s.links := rfl
@[simp] theorem State.updDie_regWrites (s : State) (d : Nat) (f : Die → Die) : (s.updDie d f).regWrites = s.regWrites := rfl
@[simp] theorem State.updDie_on (s : State) (d : Nat) (f : Die → Die) : (s.updDie d f).on = s.on := rfl
@[simp] theorem State.updDie_firmware (s : State) (d : Nat) (f : Die → Die) : (s.updDie d f).firmware = s.firmware := rfl
@[simp] theorem State.updDie_owner (s : State) (d : Nat) (f : Die → Die) : (s.updDie d f).owner = s.owner := rfl
@[simp] theorem State.updDie_replies (s : State) (d : Nat) (f : Die → Die) : (s.updDie d f).replies = s.replies := rfl
@[simp] theorem State.updDie_sched (s : State) (d : Nat) (f : Die → Die) : (s.updDie d f).sched = s.sched := rfl
@[simp] theorem State.updDie_actor (s : State) (d : Nat) (f : Die → Die) : (s.updDie d f).actor = s.actor := rfl
@[simp] theorem State.updDie_freeCount (s : State) (d : Nat) (f : Die → Die) : (s.updDie d f).freeCount = s.freeCount := rfl
@[simp] theorem State.updDie_core (s : State) (d : Nat) (f : Die → Die) (k : Nat) : (s.updDie d f).core k = s.core k := rfl
@[simp] theorem State.updDie_me (s : State) (d : Nat) (f : Die → Die) : (s.updDie d f).me = s.me := rfl
@[simp] theorem State.updDie_myDie (s : State) (d : Nat) (f : Die → Die) : (s.updDie d f).myDie = s.myDie := rfl

@[simp] theorem State.setStack_cycle (s : State) (t : Engine) (st : List W64) : (s.setStack t st).cycle = s.cycle := rfl
@[simp] theorem State.setStack_package (s : State) (t : Engine) (st : List W64) : (s.setStack t st).package = s.package := rfl
@[simp] theorem State.setStack_dies (s : State) (t : Engine) (st : List W64) : (s.setStack t st).dies = s.dies := rfl
@[simp] theorem State.setStack_pk (s : State) (t : Engine) (st : List W64) : (s.setStack t st).pk = s.pk := rfl
@[simp] theorem State.setStack_peerOut (s : State) (t : Engine) (st : List W64) : (s.setStack t st).peerOut = s.peerOut := rfl
@[simp] theorem State.setStack_peerIn (s : State) (t : Engine) (st : List W64) : (s.setStack t st).peerIn = s.peerIn := rfl
@[simp] theorem State.setStack_inbound (s : State) (t : Engine) (st : List W64) : (s.setStack t st).inbound = s.inbound := rfl
@[simp] theorem State.setStack_answers (s : State) (t : Engine) (st : List W64) : (s.setStack t st).answers = s.answers := rfl
@[simp] theorem State.setStack_bridges (s : State) (t : Engine) (st : List W64) : (s.setStack t st).bridges = s.bridges := rfl
@[simp] theorem State.setStack_peerSigns (s : State) (t : Engine) (st : List W64) : (s.setStack t st).peerSigns = s.peerSigns := rfl
@[simp] theorem State.setStack_links (s : State) (t : Engine) (st : List W64) : (s.setStack t st).links = s.links := rfl
@[simp] theorem State.setStack_regWrites (s : State) (t : Engine) (st : List W64) : (s.setStack t st).regWrites = s.regWrites := rfl
@[simp] theorem State.setStack_on (s : State) (t : Engine) (st : List W64) : (s.setStack t st).on = s.on := rfl
@[simp] theorem State.setStack_firmware (s : State) (t : Engine) (st : List W64) : (s.setStack t st).firmware = s.firmware := rfl
@[simp] theorem State.setStack_owner (s : State) (t : Engine) (st : List W64) : (s.setStack t st).owner = s.owner := rfl
@[simp] theorem State.setStack_replies (s : State) (t : Engine) (st : List W64) : (s.setStack t st).replies = s.replies := rfl
@[simp] theorem State.setStack_sched (s : State) (t : Engine) (st : List W64) : (s.setStack t st).sched = s.sched := rfl
@[simp] theorem State.setStack_actor (s : State) (t : Engine) (st : List W64) : (s.setStack t st).actor = s.actor := rfl
@[simp] theorem State.setStack_freeCount (s : State) (t : Engine) (st : List W64) : (s.setStack t st).freeCount = s.freeCount := rfl
@[simp] theorem State.setStack_die (s : State) (t : Engine) (st : List W64) (d : Nat) : (s.setStack t st).die d = s.die d := rfl
@[simp] theorem State.setStack_myDie (s : State) (t : Engine) (st : List W64) : (s.setStack t st).myDie = s.myDie := rfl

/-! ## What a changed core or die reads as -/

@[simp] theorem State.core_setCore_same (s : State) (k : Nat) (c : Core) : (s.setCore k c).core k = c :=
  SMap.get_put_same _ _ _ _

theorem State.core_setCore_other (s : State) {k j : Nat} (c : Core) (h : j ≠ k) : (s.setCore k c).core j = s.core j :=
  SMap.get_put_other _ _ _ h

@[simp] theorem State.me_setMe (s : State) (c : Core) : (s.setMe c).me = c := SMap.get_put_same _ _ _ _

@[simp] theorem State.me_updMe (s : State) (f : Core → Core) : (s.updMe f).me = f s.me := SMap.get_put_same _ _ _ _

@[simp] theorem State.core_updCore_same (s : State) (k : Nat) (f : Core → Core) : (s.updCore k f).core k = f (s.core k) :=
  SMap.get_put_same _ _ _ _

theorem State.core_updMe_other (s : State) {j : Nat} (f : Core → Core) (h : j ≠ s.actor) : (s.updMe f).core j = s.core j :=
  SMap.get_put_other _ _ _ h

@[simp] theorem State.die_setDie_at (s : State) (d : Nat) (x : Die) : (s.setDie d x).die d = x := SMap.get_put_same _ _ _ _

theorem State.die_setDie_other (s : State) {d e : Nat} (x : Die) (h : e ≠ d) : (s.setDie d x).die e = s.die e :=
  SMap.get_put_other _ _ _ h

@[simp] theorem State.die_updDie_same (s : State) (d : Nat) (f : Die → Die) : (s.updDie d f).die d = f (s.die d) :=
  SMap.get_put_same _ _ _ _

/-! ## Engines of a core -/

@[simp] theorem Engines.get_set_same (es : Engines) (t : Engine) (x : Eng) : (es.set t x).get t = x := by cases t <;> rfl

theorem Engines.get_set_other (es : Engines) {t u : Engine} (x : Eng) (h : u ≠ t) : (es.set t x).get u = es.get u := by
  cases t <;> cases u <;> first | rfl | exact absurd rfl h

@[simp] theorem Core.en_updEn_same (k : Core) (t : Engine) (g : Eng → Eng) : (k.updEn t g).en t = g (k.en t) :=
  Engines.get_set_same _ _ _

theorem Core.en_updEn_other (k : Core) {t u : Engine} (g : Eng → Eng) (h : u ≠ t) : (k.updEn t g).en u = k.en u :=
  Engines.get_set_other _ _ h

@[simp] theorem State.stack_setStack_same (s : State) (t : Engine) (st : List W64) : (s.setStack t st).stack t = st := by
  simp [State.stack, State.setStack]

@[simp] theorem Core.updEn_run (k : Core) (t : Engine) (g : Eng → Eng) : (k.updEn t g).run = k.run := rfl
@[simp] theorem Core.updEn_halted (k : Core) (t : Engine) (g : Eng → Eng) : (k.updEn t g).halted = k.halted := rfl
@[simp] theorem Core.updEn_task (k : Core) (t : Engine) (g : Eng → Eng) : (k.updEn t g).task = k.task := rfl
@[simp] theorem Core.updEn_space (k : Core) (t : Engine) (g : Eng → Eng) : (k.updEn t g).space = k.space := rfl
@[simp] theorem Core.updEn_sys (k : Core) (t : Engine) (g : Eng → Eng) : (k.updEn t g).sys = k.sys := rfl
@[simp] theorem Core.updEn_handle (k : Core) (t : Engine) (g : Eng → Eng) : (k.updEn t g).handle = k.handle := rfl
@[simp] theorem Core.updEn_text (k : Core) (t : Engine) (g : Eng → Eng) : (k.updEn t g).text = k.text := rfl
@[simp] theorem Core.updEn_swait (k : Core) (t : Engine) (g : Eng → Eng) : (k.updEn t g).swait = k.swait := rfl
@[simp] theorem Core.updEn_fences (k : Core) (t : Engine) (g : Eng → Eng) : (k.updEn t g).fences = k.fences := rfl
@[simp] theorem Core.updEn_ctl (k : Core) (t : Engine) (g : Eng → Eng) : (k.updEn t g).ctl = k.ctl := rfl
@[simp] theorem Core.updEn_cf (k : Core) (t : Engine) (g : Eng → Eng) : (k.updEn t g).cf = k.cf := rfl
@[simp] theorem Core.updEn_leg (k : Core) (t : Engine) (g : Eng → Eng) : (k.updEn t g).leg = k.leg := rfl
@[simp] theorem Core.updEn_pad (k : Core) (t : Engine) (g : Eng → Eng) : (k.updEn t g).pad = k.pad := rfl
@[simp] theorem Core.updEn_valid (k : Core) (t : Engine) (g : Eng → Eng) : (k.updEn t g).valid = k.valid := rfl
@[simp] theorem Core.updEn_queues (k : Core) (t : Engine) (g : Eng → Eng) : (k.updEn t g).queues = k.queues := rfl
@[simp] theorem Core.updEn_streams (k : Core) (t : Engine) (g : Eng → Eng) : (k.updEn t g).streams = k.streams := rfl
@[simp] theorem Core.updEn_posted (k : Core) (t : Engine) (g : Eng → Eng) : (k.updEn t g).posted = k.posted := rfl
@[simp] theorem Core.updEn_comb (k : Core) (t : Engine) (g : Eng → Eng) : (k.updEn t g).comb = k.comb := rfl
@[simp] theorem Core.updEn_peerAsked (k : Core) (t : Engine) (g : Eng → Eng) : (k.updEn t g).peerAsked = k.peerAsked := rfl
@[simp] theorem Core.updEn_peerLoads (k : Core) (t : Engine) (g : Eng → Eng) : (k.updEn t g).peerLoads = k.peerLoads := rfl
@[simp] theorem Core.updEn_peerGot (k : Core) (t : Engine) (g : Eng → Eng) : (k.updEn t g).peerGot = k.peerGot := rfl
@[simp] theorem Core.updEn_held (k : Core) (t : Engine) (g : Eng → Eng) : (k.updEn t g).held = k.held := rfl
@[simp] theorem Core.updEn_tlb (k : Core) (t : Engine) (g : Eng → Eng) : (k.updEn t g).tlb = k.tlb := rfl
@[simp] theorem Core.updEn_walks (k : Core) (t : Engine) (g : Eng → Eng) : (k.updEn t g).walks = k.walks := rfl
@[simp] theorem Core.updEn_bursts (k : Core) (t : Engine) (g : Eng → Eng) : (k.updEn t g).bursts = k.bursts := rfl
@[simp] theorem Core.updEn_tagLag (k : Core) (t : Engine) (g : Eng → Eng) : (k.updEn t g).tagLag = k.tagLag := rfl
@[simp] theorem Core.updEn_tagCounted (k : Core) (t : Engine) (g : Eng → Eng) : (k.updEn t g).tagCounted = k.tagCounted := rfl
@[simp] theorem Core.updEn_vec (k : Core) (t : Engine) (g : Eng → Eng) : (k.updEn t g).vec = k.vec := rfl
@[simp] theorem Core.updEn_mat (k : Core) (t : Engine) (g : Eng → Eng) : (k.updEn t g).mat = k.mat := rfl
@[simp] theorem Core.updEn_kop (k : Core) (t : Engine) (g : Eng → Eng) : (k.updEn t g).kop = k.kop := rfl
@[simp] theorem Core.updEn_late (k : Core) (t : Engine) (g : Eng → Eng) : (k.updEn t g).late = k.late := rfl
@[simp] theorem Core.updEn_fresh (k : Core) (t : Engine) (g : Eng → Eng) : (k.updEn t g).fresh = k.fresh := rfl
@[simp] theorem Core.updEn_ports (k : Core) (t : Engine) (g : Eng → Eng) : (k.updEn t g).ports = k.ports := rfl
@[simp] theorem Core.updEn_rows (k : Core) (t : Engine) (g : Eng → Eng) : (k.updEn t g).rows = k.rows := rfl
@[simp] theorem Core.updEn_tp (k : Core) (t : Engine) (g : Eng → Eng) : (k.updEn t g).tp = k.tp := rfl
@[simp] theorem Core.updEn_planeDue (k : Core) (t : Engine) (g : Eng → Eng) : (k.updEn t g).planeDue = k.planeDue := rfl
@[simp] theorem Core.updEn_planePlaced (k : Core) (t : Engine) (g : Eng → Eng) : (k.updEn t g).planePlaced = k.planePlaced := rfl
@[simp] theorem Core.updEn_far (k : Core) (t : Engine) (g : Eng → Eng) : (k.updEn t g).far = k.far := rfl
@[simp] theorem Core.updEn_layouts (k : Core) (t : Engine) (g : Eng → Eng) : (k.updEn t g).layouts = k.layouts := rfl
@[simp] theorem Core.updEn_colls (k : Core) (t : Engine) (g : Eng → Eng) : (k.updEn t g).colls = k.colls := rfl
@[simp] theorem Core.updEn_collSeq (k : Core) (t : Engine) (g : Eng → Eng) : (k.updEn t g).collSeq = k.collSeq := rfl
@[simp] theorem Core.updEn_collPages (k : Core) (t : Engine) (g : Eng → Eng) : (k.updEn t g).collPages = k.collPages := rfl
@[simp] theorem Core.updEn_trips (k : Core) (t : Engine) (g : Eng → Eng) : (k.updEn t g).trips = k.trips := rfl
@[simp] theorem Core.updEn_cleared (k : Core) (t : Engine) (g : Eng → Eng) : (k.updEn t g).cleared = k.cleared := rfl
@[simp] theorem Core.updEn_frozenFor (k : Core) (t : Engine) (g : Eng → Eng) : (k.updEn t g).frozenFor = k.frozenFor := rfl
@[simp] theorem Core.updEn_trapAt (k : Core) (t : Engine) (g : Eng → Eng) : (k.updEn t g).trapAt = k.trapAt := rfl
@[simp] theorem Core.updEn_frame (k : Core) (t : Engine) (g : Eng → Eng) : (k.updEn t g).frame = k.frame := rfl
@[simp] theorem Core.updEn_reports (k : Core) (t : Engine) (g : Eng → Eng) : (k.updEn t g).reports = k.reports := rfl

/-! ## Registers of a die -/

@[simp] theorem Die.reg_setReg_same (d : Die) (i : Nat) (v : W64) : (d.setReg i v).reg i = v := by
  simp [Die.reg, Die.setReg]

theorem Die.reg_setReg_other (d : Die) {i j : Nat} (v : W64) (h : j ≠ i) : (d.setReg i v).reg j = d.reg j := by
  simp only [Die.reg, Die.setReg, SMap.set]
  split
  · rw [SMap.get_erase_other _ _ h]
  · rw [SMap.get_insert_other _ _ _ h, SMap.get_erase_other _ _ h]

@[simp] theorem Die.setReg_bufA (d : Die) (i : Nat) (v : W64) : (d.setReg i v).bufA = d.bufA := rfl
@[simp] theorem Die.setReg_bufB (d : Die) (i : Nat) (v : W64) : (d.setReg i v).bufB = d.bufB := rfl
@[simp] theorem Die.setReg_firstLoad (d : Die) (i : Nat) (v : W64) : (d.setReg i v).firstLoad = d.firstLoad := rfl
@[simp] theorem Die.setReg_firstVa (d : Die) (i : Nat) (v : W64) : (d.setReg i v).firstVa = d.firstVa := rfl
@[simp] theorem Die.setReg_firstTable (d : Die) (i : Nat) (v : W64) : (d.setReg i v).firstTable = d.firstTable := rfl
@[simp] theorem Die.setReg_trav (d : Die) (i : Nat) (v : W64) : (d.setReg i v).trav = d.trav := rfl
@[simp] theorem Die.setReg_timed (d : Die) (i : Nat) (v : W64) : (d.setReg i v).timed = d.timed := rfl
@[simp] theorem Die.setReg_tlb (d : Die) (i : Nat) (v : W64) : (d.setReg i v).tlb = d.tlb := rfl
@[simp] theorem Die.setReg_faults (d : Die) (i : Nat) (v : W64) : (d.setReg i v).faults = d.faults := rfl
@[simp] theorem Die.setReg_locks (d : Die) (i : Nat) (v : W64) : (d.setReg i v).locks = d.locks := rfl
@[simp] theorem Die.setReg_binds (d : Die) (i : Nat) (v : W64) : (d.setReg i v).binds = d.binds := rfl
@[simp] theorem Die.setReg_acqs (d : Die) (i : Nat) (v : W64) : (d.setReg i v).acqs = d.acqs := rfl
@[simp] theorem Die.setReg_rels (d : Die) (i : Nat) (v : W64) : (d.setReg i v).rels = d.rels := rfl
@[simp] theorem Die.setReg_launchq (d : Die) (i : Nat) (v : W64) : (d.setReg i v).launchq = d.launchq := rfl
@[simp] theorem Die.setReg_launches (d : Die) (i : Nat) (v : W64) : (d.setReg i v).launches = d.launches := rfl
@[simp] theorem Die.setReg_saved (d : Die) (i : Nat) (v : W64) : (d.setReg i v).saved = d.saved := rfl
@[simp] theorem Die.setReg_requeued (d : Die) (i : Nat) (v : W64) : (d.setReg i v).requeued = d.requeued := rfl
@[simp] theorem Die.setReg_halted (d : Die) (i : Nat) (v : W64) : (d.setReg i v).halted = d.halted := rfl
@[simp] theorem Die.setReg_haltAsked (d : Die) (i : Nat) (v : W64) : (d.setReg i v).haltAsked = d.haltAsked := rfl
@[simp] theorem Die.setReg_hot (d : Die) (i : Nat) (v : W64) : (d.setReg i v).hot = d.hot := rfl
@[simp] theorem Die.setReg_swap (d : Die) (i : Nat) (v : W64) : (d.setReg i v).swap = d.swap := rfl
@[simp] theorem Die.setReg_epochAt (d : Die) (i : Nat) (v : W64) : (d.setReg i v).epochAt = d.epochAt := rfl
@[simp] theorem Die.setReg_refresh (d : Die) (i : Nat) (v : W64) : (d.setReg i v).refresh = d.refresh := rfl
@[simp] theorem Die.setReg_heldAt (d : Die) (i : Nat) (v : W64) : (d.setReg i v).heldAt = d.heldAt := rfl
@[simp] theorem Die.setReg_patrol (d : Die) (i : Nat) (v : W64) : (d.setReg i v).patrol = d.patrol := rfl
@[simp] theorem Die.setReg_patrolAt (d : Die) (i : Nat) (v : W64) : (d.setReg i v).patrolAt = d.patrolAt := rfl
@[simp] theorem Die.setReg_commons (d : Die) (i : Nat) (v : W64) : (d.setReg i v).commons = d.commons := rfl
@[simp] theorem Die.setReg_side (d : Die) (i : Nat) (v : W64) : (d.setReg i v).side = d.side := rfl
@[simp] theorem Die.setReg_stores (d : Die) (i : Nat) (v : W64) : (d.setReg i v).stores = d.stores := rfl
@[simp] theorem Die.setReg_groups (d : Die) (i : Nat) (v : W64) : (d.setReg i v).groups = d.groups := rfl
@[simp] theorem Die.setReg_tokens (d : Die) (i : Nat) (v : W64) : (d.setReg i v).tokens = d.tokens := rfl
@[simp] theorem Die.setReg_grants (d : Die) (i : Nat) (v : W64) : (d.setReg i v).grants = d.grants := rfl
@[simp] theorem Die.setReg_peerTokens (d : Die) (i : Nat) (v : W64) : (d.setReg i v).peerTokens = d.peerTokens := rfl
@[simp] theorem Die.setReg_farCache (d : Die) (i : Nat) (v : W64) : (d.setReg i v).farCache = d.farCache := rfl
@[simp] theorem Die.setReg_packets (d : Die) (i : Nat) (v : W64) : (d.setReg i v).packets = d.packets := rfl
@[simp] theorem Die.setReg_wallower (d : Die) (i : Nat) (v : W64) : (d.setReg i v).wallower = d.wallower := rfl
@[simp] theorem Die.setReg_uninitAt (d : Die) (i : Nat) (v : W64) : (d.setReg i v).uninitAt = d.uninitAt := rfl
@[simp] theorem Die.setReg_keys (d : Die) (i : Nat) (v : W64) : (d.setReg i v).keys = d.keys := rfl

/-! ## A trap -/

@[simp] theorem Core.takeTrap_halted (k : Core) (tag addr : Nat) (c : Cause) (v : W64) (t : Nat) : (k.takeTrap tag addr c v t).halted = k.halted := rfl
@[simp] theorem Core.takeTrap_task (k : Core) (tag addr : Nat) (c : Cause) (v : W64) (t : Nat) : (k.takeTrap tag addr c v t).task = k.task := rfl
@[simp] theorem Core.takeTrap_space (k : Core) (tag addr : Nat) (c : Cause) (v : W64) (t : Nat) : (k.takeTrap tag addr c v t).space = k.space := rfl
@[simp] theorem Core.takeTrap_sys (k : Core) (tag addr : Nat) (c : Cause) (v : W64) (t : Nat) : (k.takeTrap tag addr c v t).sys = k.sys := rfl
@[simp] theorem Core.takeTrap_handle (k : Core) (tag addr : Nat) (c : Cause) (v : W64) (t : Nat) : (k.takeTrap tag addr c v t).handle = k.handle := rfl
@[simp] theorem Core.takeTrap_text (k : Core) (tag addr : Nat) (c : Cause) (v : W64) (t : Nat) : (k.takeTrap tag addr c v t).text = k.text := rfl
@[simp] theorem Core.takeTrap_eng (k : Core) (tag addr : Nat) (c : Cause) (v : W64) (t : Nat) : (k.takeTrap tag addr c v t).eng = k.eng := rfl
@[simp] theorem Core.takeTrap_fences (k : Core) (tag addr : Nat) (c : Cause) (v : W64) (t : Nat) : (k.takeTrap tag addr c v t).fences = k.fences := rfl
@[simp] theorem Core.takeTrap_ctl (k : Core) (tag addr : Nat) (c : Cause) (v : W64) (t : Nat) : (k.takeTrap tag addr c v t).ctl = k.ctl := rfl
@[simp] theorem Core.takeTrap_leg (k : Core) (tag addr : Nat) (c : Cause) (v : W64) (t : Nat) : (k.takeTrap tag addr c v t).leg = k.leg := rfl
@[simp] theorem Core.takeTrap_pad (k : Core) (tag addr : Nat) (c : Cause) (v : W64) (t : Nat) : (k.takeTrap tag addr c v t).pad = k.pad := rfl
@[simp] theorem Core.takeTrap_valid (k : Core) (tag addr : Nat) (c : Cause) (v : W64) (t : Nat) : (k.takeTrap tag addr c v t).valid = k.valid := rfl
@[simp] theorem Core.takeTrap_queues (k : Core) (tag addr : Nat) (c : Cause) (v : W64) (t : Nat) : (k.takeTrap tag addr c v t).queues = k.queues := rfl
@[simp] theorem Core.takeTrap_streams (k : Core) (tag addr : Nat) (c : Cause) (v : W64) (t : Nat) : (k.takeTrap tag addr c v t).streams = k.streams := rfl
@[simp] theorem Core.takeTrap_posted (k : Core) (tag addr : Nat) (c : Cause) (v : W64) (t : Nat) : (k.takeTrap tag addr c v t).posted = k.posted := rfl
@[simp] theorem Core.takeTrap_comb (k : Core) (tag addr : Nat) (c : Cause) (v : W64) (t : Nat) : (k.takeTrap tag addr c v t).comb = k.comb := rfl
@[simp] theorem Core.takeTrap_peerAsked (k : Core) (tag addr : Nat) (c : Cause) (v : W64) (t : Nat) : (k.takeTrap tag addr c v t).peerAsked = k.peerAsked := rfl
@[simp] theorem Core.takeTrap_peerLoads (k : Core) (tag addr : Nat) (c : Cause) (v : W64) (t : Nat) : (k.takeTrap tag addr c v t).peerLoads = k.peerLoads := rfl
@[simp] theorem Core.takeTrap_peerGot (k : Core) (tag addr : Nat) (c : Cause) (v : W64) (t : Nat) : (k.takeTrap tag addr c v t).peerGot = k.peerGot := rfl
@[simp] theorem Core.takeTrap_held (k : Core) (tag addr : Nat) (c : Cause) (v : W64) (t : Nat) : (k.takeTrap tag addr c v t).held = k.held := rfl
@[simp] theorem Core.takeTrap_tlb (k : Core) (tag addr : Nat) (c : Cause) (v : W64) (t : Nat) : (k.takeTrap tag addr c v t).tlb = k.tlb := rfl
@[simp] theorem Core.takeTrap_bursts (k : Core) (tag addr : Nat) (c : Cause) (v : W64) (t : Nat) : (k.takeTrap tag addr c v t).bursts = k.bursts := rfl
@[simp] theorem Core.takeTrap_tagLag (k : Core) (tag addr : Nat) (c : Cause) (v : W64) (t : Nat) : (k.takeTrap tag addr c v t).tagLag = k.tagLag := rfl
@[simp] theorem Core.takeTrap_tagCounted (k : Core) (tag addr : Nat) (c : Cause) (v : W64) (t : Nat) : (k.takeTrap tag addr c v t).tagCounted = k.tagCounted := rfl
@[simp] theorem Core.takeTrap_vec (k : Core) (tag addr : Nat) (c : Cause) (v : W64) (t : Nat) : (k.takeTrap tag addr c v t).vec = k.vec := rfl
@[simp] theorem Core.takeTrap_mat (k : Core) (tag addr : Nat) (c : Cause) (v : W64) (t : Nat) : (k.takeTrap tag addr c v t).mat = k.mat := rfl
@[simp] theorem Core.takeTrap_late (k : Core) (tag addr : Nat) (c : Cause) (v : W64) (t : Nat) : (k.takeTrap tag addr c v t).late = k.late := rfl
@[simp] theorem Core.takeTrap_fresh (k : Core) (tag addr : Nat) (c : Cause) (v : W64) (t : Nat) : (k.takeTrap tag addr c v t).fresh = k.fresh := rfl
@[simp] theorem Core.takeTrap_ports (k : Core) (tag addr : Nat) (c : Cause) (v : W64) (t : Nat) : (k.takeTrap tag addr c v t).ports = k.ports := rfl
@[simp] theorem Core.takeTrap_rows (k : Core) (tag addr : Nat) (c : Cause) (v : W64) (t : Nat) : (k.takeTrap tag addr c v t).rows = k.rows := rfl
@[simp] theorem Core.takeTrap_tp (k : Core) (tag addr : Nat) (c : Cause) (v : W64) (t : Nat) : (k.takeTrap tag addr c v t).tp = k.tp := rfl
@[simp] theorem Core.takeTrap_planeDue (k : Core) (tag addr : Nat) (c : Cause) (v : W64) (t : Nat) : (k.takeTrap tag addr c v t).planeDue = k.planeDue := rfl
@[simp] theorem Core.takeTrap_planePlaced (k : Core) (tag addr : Nat) (c : Cause) (v : W64) (t : Nat) : (k.takeTrap tag addr c v t).planePlaced = k.planePlaced := rfl
@[simp] theorem Core.takeTrap_far (k : Core) (tag addr : Nat) (c : Cause) (v : W64) (t : Nat) : (k.takeTrap tag addr c v t).far = k.far := rfl
@[simp] theorem Core.takeTrap_layouts (k : Core) (tag addr : Nat) (c : Cause) (v : W64) (t : Nat) : (k.takeTrap tag addr c v t).layouts = k.layouts := rfl
@[simp] theorem Core.takeTrap_colls (k : Core) (tag addr : Nat) (c : Cause) (v : W64) (t : Nat) : (k.takeTrap tag addr c v t).colls = k.colls := rfl
@[simp] theorem Core.takeTrap_collSeq (k : Core) (tag addr : Nat) (c : Cause) (v : W64) (t : Nat) : (k.takeTrap tag addr c v t).collSeq = k.collSeq := rfl
@[simp] theorem Core.takeTrap_cleared (k : Core) (tag addr : Nat) (c : Cause) (v : W64) (t : Nat) : (k.takeTrap tag addr c v t).cleared = k.cleared := rfl
@[simp] theorem Core.takeTrap_frozenFor (k : Core) (tag addr : Nat) (c : Cause) (v : W64) (t : Nat) : (k.takeTrap tag addr c v t).frozenFor = k.frozenFor := rfl
@[simp] theorem Core.takeTrap_frame (k : Core) (tag addr : Nat) (c : Cause) (v : W64) (t : Nat) : (k.takeTrap tag addr c v t).frame = k.frame := rfl
@[simp] theorem Core.takeTrap_reports (k : Core) (tag addr : Nat) (c : Cause) (v : W64) (t : Nat) : (k.takeTrap tag addr c v t).reports = k.reports := rfl

end Sys2Proof.Machine
end

