-- ==== Sys2Proof/Laws/Ops.lean ====
section
/-! SUPPORT. What the shared operations of issue can answer: one lemma each for an effect, a trap and a wait, and one that
says what every answer keeps. -/

namespace Sys2Proof.Machine

/-! ## Stacks -/

/-- A word that finds its operands runs its body on them. -/
theorem popping_ok {t : Engine} {p q : Nat} {body : List W64 → State → Res} {s : State}
    (h : stackFits (s.stack t) p q = true) :
    popping t p q body s = body ((s.stack t).take p) (s.setStack t ((s.stack t).drop p)) := by
  simp [popping, h]

/-- A word that does not find them, or would overfill the stack, takes #STK. -/
theorem popping_short {t : Engine} {p q : Nat} {body : List W64 → State → Res} {s : State}
    (h : stackFits (s.stack t) p q = false) : popping t p q body s = .fail .stk 0 := by
  simp [popping, h]

/-! ## Issue of an engine's word -/

section
variable {t : Engine} {i : Instr} {n : State → Nat} {body : State → Res} {s : State}

/-- A reserved field value takes #ILL. -/
theorem issueN_illegal (hb : s.me.steerBlocked t (lenInstr i) = false) (h : legalFields i = false) :
    issueN t i n body s = .next (takeTrap s t.tag (s.me.en t).pc .ill (repValue (s.me.repFor t) 0)) := by
  simp [issueN, h, hb]

/-- A full steering queue or a fence holds the word. -/
theorem issueN_held (h : legalFields i = true) (hb : (s.me.steerBlocked t (lenInstr i) || s.me.fenced i s.cycle) = true) :
    issueN t i n body s = .next (s.updMe fun k => k.stall t s.cycle) := by
  unfold issueN; cases hs : s.me.steerBlocked t (lenInstr i) <;> simp_all

/-- An E word whose results of earlier words are not there yet tries again in the next cycle. -/
theorem issueN_waits (h : legalFields i = true) (hb : (s.me.steerBlocked t (lenInstr i) || s.me.fenced i s.cycle) = false)
    (hv : t = .e ∧ s.me.vec.waits i s.cycle = true) :
    issueN t i n body s = .next (s.updMe fun k => k.updEn t fun x => { x with nextIssue := s.cycle + 1 }) := by
  rw [Bool.or_eq_false_iff] at hb
  unfold issueN; simp only [h, hb.1, hb.2, Bool.not_true, Bool.false_eq_true, if_false]; rw [if_pos hv]

/-- What a word that can issue comes to, by what its body comes to. -/
theorem issueN_run (h : legalFields i = true) (hb : (s.me.steerBlocked t (lenInstr i) || s.me.fenced i s.cycle) = false)
    (hv : ¬ (t = .e ∧ s.me.vec.waits i s.cycle = true))
    (hs : ((s.updMe fun k => k.deliver t).stack t).length ≤ 8) (hr : repRefuses (s.me.repFor t) i = false) :
    issueN t i n body s =
      match body (s.updMe fun k => k.deliver t) with
      | .ok s2 => .next (s2.updMe fun k =>
          k.complete t (s.me.repFor t) (lenInstr i) (n (s.updMe fun k => k.deliver t)) s.cycle)
      | .trap c v a => .next (takeTrap s t.tag (a.getD (s.me.en t).pc) c (repValue (s.me.repFor t) v))
      | .wait s2 => .next ((s2.setStack t ((s.updMe fun k => k.deliver t).stack t)).updMe fun k => k.stall t s.cycle)
      | .hold s2 => .next ((s2.setStack t ((s.updMe fun k => k.deliver t).stack t)).updMe fun k =>
          k.updEn t fun x => { x with nextIssue := s.cycle + 1 })
      | .part c v s2 => .next (takeTrap (s2.setStack t ((s.updMe fun k => k.deliver t).stack t)) t.tag
          (s.me.en t).pc c (repValue (s.me.repFor t) v)) := by
  have h8 : ¬ 8 < ((s.updMe fun k => k.deliver t).stack t).length := by omega
  rw [Bool.or_eq_false_iff] at hb
  simp only [issueN, h, hb.1, hb.2, hr, h8, hv, Bool.not_true, Bool.false_eq_true, if_false, decide_false] <;> rfl

/-- The word takes effect. -/
theorem issueN_ok {s2 : State} (h : legalFields i = true)
    (hb : (s.me.steerBlocked t (lenInstr i) || s.me.fenced i s.cycle) = false)
    (hv : ¬ (t = .e ∧ s.me.vec.waits i s.cycle = true))
    (hs : ((s.updMe fun k => k.deliver t).stack t).length ≤ 8) (hr : repRefuses (s.me.repFor t) i = false)
    (he : body (s.updMe fun k => k.deliver t) = .ok s2) :
    issueN t i n body s = .next (s2.updMe fun k =>
      k.complete t (s.me.repFor t) (lenInstr i) (n (s.updMe fun k => k.deliver t)) s.cycle) := by
  rw [issueN_run h hb hv hs hr, he]

/-- The word traps before it has any effect. -/
theorem issueN_trap {c : Cause} {v : W64} {a : Option Nat} (h : legalFields i = true)
    (hb : (s.me.steerBlocked t (lenInstr i) || s.me.fenced i s.cycle) = false)
    (hv : ¬ (t = .e ∧ s.me.vec.waits i s.cycle = true))
    (hs : ((s.updMe fun k => k.deliver t).stack t).length ≤ 8) (hr : repRefuses (s.me.repFor t) i = false)
    (he : body (s.updMe fun k => k.deliver t) = .trap c v a) :
    issueN t i n body s = .next (takeTrap s t.tag (a.getD (s.me.en t).pc) c (repValue (s.me.repFor t) v)) := by
  rw [issueN_run h hb hv hs hr, he]

end

/-! ## What every answer keeps -/

/-- Every state a body comes to has a property. -/
def Res.all (P : State → Prop) : Res → Prop
  | .ok s => P s
  | .trap _ _ _ => True
  | .wait s => P s
  | .hold s => P s
  | .part _ _ s => P s

/-- A property that changes of the acting core keep, and the body keeps, holds of whatever an engine's word comes to. -/
theorem issueN_keeps (P : State → Prop) (hP : ∀ s f, P s → P (s.updMe f)) {t : Engine} {i : Instr} {n : State → Nat}
    {body : State → Res} {s : State} (h : P s) (hb : ∀ x, P x → (body x).all P) :
    ∃ u, issueN t i n body s = .next u ∧ P u := by
  unfold issueN
  simp only
  split
  · exact ⟨_, rfl, hP _ _ h⟩
  split
  · exact ⟨_, rfl, hP _ _ h⟩
  split
  · exact ⟨_, rfl, hP _ _ h⟩
  split
  · exact ⟨_, rfl, hP _ _ h⟩
  split
  · exact ⟨_, rfl, hP _ _ h⟩
  split
  · exact ⟨_, rfl, hP _ _ h⟩
  have hk := hb _ (hP s (fun k => k.deliver t) h)
  split <;> rename_i e <;> rw [e] at hk
  · exact ⟨_, rfl, hP _ _ hk⟩
  · exact ⟨_, rfl, hP _ _ h⟩
  · exact ⟨_, rfl, hP _ _ (hP _ _ hk)⟩
  · exact ⟨_, rfl, hP _ _ (hP _ _ hk)⟩
  · exact ⟨_, rfl, hP _ _ (hP _ _ hk)⟩

/-- The same of an S word. -/
theorem issueSN_keeps (P : State → Prop) (hP : ∀ s f, P s → P (s.updMe f)) {i : Instr} {n : Nat} {body : State → Res}
    {s : State} (h : P s) (hb : ∀ x, P x → (body x).all P) : ∃ u, issueSN i n body s = .next u ∧ P u := by
  unfold issueSN
  simp only
  split
  · exact ⟨_, rfl, hP _ _ h⟩
  split
  · exact ⟨_, rfl, hP _ _ h⟩
  have hk := hb _ h
  split <;> rename_i e <;> rw [e] at hk
  · exact ⟨_, rfl, hP _ _ hk⟩
  · exact ⟨_, rfl, hP _ _ h⟩
  · exact ⟨_, rfl, hP _ _ (hP _ _ hk)⟩
  · exact ⟨_, rfl, hP _ _ (hP _ _ hk)⟩
  · exact ⟨_, rfl, hP _ _ (hP _ _ hk)⟩

/-- The stack check keeps what the body keeps. -/
theorem popping_all (P : State → Prop) (hP : ∀ s f, P s → P (s.updMe f)) {t : Engine} {p q : Nat}
    {body : List W64 → State → Res} (hb : ∀ vs x, P x → (body vs x).all P) (s : State) (h : P s) :
    (popping t p q body s).all P := by
  unfold popping
  simp only
  split
  · exact hb _ _ (hP _ _ h)
  · trivial

end Sys2Proof.Machine
end

