-- ==== Sys2Proof/Laws/PerInstr.lean ====
section
/-! SUPPORT. Facts about every instruction as syntax, one lemma per constructor. -/

namespace Sys2Proof.Laws.SameTag

open Sys2Proof

/-- An instruction has one to three words, each of 16 bits, and all of them carry one tag (02 R25, R27). -/
def Statement (i : Instr) : Prop :=
  ∀ n v, encodeNat i = some (n, v) →
    v < 2 ^ (16 * n) ∧ (n = 1 ∨ n = 2 ∧ v / 2 ^ 13 % 8 = v / 2 ^ 29 ∨
      n = 3 ∧ v / 2 ^ 13 % 8 = v / 2 ^ 45 ∧ v / 2 ^ 29 % 8 = v / 2 ^ 45)

theorem tag_lt (t : Engine) : t.tag < 7 := by cases t <;> decide

theorem literalPush (t : Engine) (i : BitVec 11) : Statement (.literalPush t i) := by
  rintro n v ⟨⟩
  have h0 := tag_lt t
  have h1 := i.isLt
  refine ⟨?_, .inl rfl⟩ <;> simp only [withFields] <;> omega
theorem literalExtend (t : Engine) (i : BitVec 11) : Statement (.literalExtend t i) := by
  rintro n v ⟨⟩
  have h0 := tag_lt t
  have h1 := i.isLt
  refine ⟨?_, .inl rfl⟩ <;> simp only [withFields] <;> omega
theorem wait (t : Engine) (n : BitVec 6) : Statement (.wait t n) := by
  rintro n v ⟨⟩
  have h0 := tag_lt t
  have h1 := n.isLt
  refine ⟨?_, .inl rfl⟩ <;> simp only [withFields] <;> omega
theorem stkDup (t : Engine) (k : BitVec 3) : Statement (.stkDup t k) := by
  rintro n v ⟨⟩
  have h0 := tag_lt t
  have h1 := k.isLt
  refine ⟨?_, .inl rfl⟩ <;> simp only [withFields] <;> omega
theorem stkDrop (t : Engine) (k : BitVec 3) : Statement (.stkDrop t k) := by
  rintro n v ⟨⟩
  have h0 := tag_lt t
  have h1 := k.isLt
  refine ⟨?_, .inl rfl⟩ <;> simp only [withFields] <;> omega
theorem stkSwap (t : Engine) (k : BitVec 3) : Statement (.stkSwap t k) := by
  rintro n v ⟨⟩
  have h0 := tag_lt t
  have h1 := k.isLt
  refine ⟨?_, .inl rfl⟩ <;> simp only [withFields] <;> omega
theorem stkOver (t : Engine) (k : BitVec 3) : Statement (.stkOver t k) := by
  rintro n v ⟨⟩
  have h0 := tag_lt t
  have h1 := k.isLt
  refine ⟨?_, .inl rfl⟩ <;> simp only [withFields] <;> omega
theorem cGetX (n : BitVec 4) : Statement (.cGetX n) := by
  rintro n v ⟨⟩
  have h0 := n.isLt
  refine ⟨?_, .inl rfl⟩ <;> simp only [withFields] <;> omega
theorem cGetP (n : BitVec 3) : Statement (.cGetP n) := by
  rintro n v ⟨⟩
  have h0 := n.isLt
  refine ⟨?_, .inl rfl⟩ <;> simp only [withFields] <;> omega
theorem cGetPmask : Statement .cGetPmask := by
  rintro n v ⟨⟩
  refine ⟨?_, .inl rfl⟩ <;> simp only [withFields] <;> omega
theorem cGetLidx (k : BitVec 2) : Statement (.cGetLidx k) := by
  rintro n v ⟨⟩
  have h0 := k.isLt
  refine ⟨?_, .inl rfl⟩ <;> simp only [withFields] <;> omega
theorem cPutX (n : BitVec 4) : Statement (.cPutX n) := by
  rintro n v ⟨⟩
  have h0 := n.isLt
  refine ⟨?_, .inl rfl⟩ <;> simp only [withFields] <;> omega
theorem cPutP (n : BitVec 3) : Statement (.cPutP n) := by
  rintro n v ⟨⟩
  have h0 := n.isLt
  refine ⟨?_, .inl rfl⟩ <;> simp only [withFields] <;> omega
theorem cPutPmask : Statement .cPutPmask := by
  rintro n v ⟨⟩
  refine ⟨?_, .inl rfl⟩ <;> simp only [withFields] <;> omega
theorem cAdd : Statement .cAdd := by
  rintro n v ⟨⟩
  refine ⟨?_, .inl rfl⟩ <;> simp only [withFields] <;> omega
theorem cAddImm (i : BitVec 5) : Statement (.cAddImm i) := by
  rintro n v ⟨⟩
  have h0 := i.isLt
  refine ⟨?_, .inl rfl⟩ <;> simp only [withFields] <;> omega
theorem cSub : Statement .cSub := by
  rintro n v ⟨⟩
  refine ⟨?_, .inl rfl⟩ <;> simp only [withFields] <;> omega
theorem cSubImm (i : BitVec 5) : Statement (.cSubImm i) := by
  rintro n v ⟨⟩
  have h0 := i.isLt
  refine ⟨?_, .inl rfl⟩ <;> simp only [withFields] <;> omega
theorem cAnd : Statement .cAnd := by
  rintro n v ⟨⟩
  refine ⟨?_, .inl rfl⟩ <;> simp only [withFields] <;> omega
theorem cAndImm (i : BitVec 5) : Statement (.cAndImm i) := by
  rintro n v ⟨⟩
  have h0 := i.isLt
  refine ⟨?_, .inl rfl⟩ <;> simp only [withFields] <;> omega
theorem cOr : Statement .cOr := by
  rintro n v ⟨⟩
  refine ⟨?_, .inl rfl⟩ <;> simp only [withFields] <;> omega
theorem cOrImm (i : BitVec 5) : Statement (.cOrImm i) := by
  rintro n v ⟨⟩
  have h0 := i.isLt
  refine ⟨?_, .inl rfl⟩ <;> simp only [withFields] <;> omega
theorem cXor : Statement .cXor := by
  rintro n v ⟨⟩
  refine ⟨?_, .inl rfl⟩ <;> simp only [withFields] <;> omega
theorem cXorImm (i : BitVec 5) : Statement (.cXorImm i) := by
  rintro n v ⟨⟩
  have h0 := i.isLt
  refine ⟨?_, .inl rfl⟩ <;> simp only [withFields] <;> omega
theorem cMul : Statement .cMul := by
  rintro n v ⟨⟩
  refine ⟨?_, .inl rfl⟩ <;> simp only [withFields] <;> omega
theorem cMulh : Statement .cMulh := by
  rintro n v ⟨⟩
  refine ⟨?_, .inl rfl⟩ <;> simp only [withFields] <;> omega
theorem cMulhu : Statement .cMulhu := by
  rintro n v ⟨⟩
  refine ⟨?_, .inl rfl⟩ <;> simp only [withFields] <;> omega
theorem cDiv (u : BitVec 1) : Statement (.cDiv u) := by
  rintro n v ⟨⟩
  have h0 := u.isLt
  refine ⟨?_, .inl rfl⟩ <;> simp only [withFields] <;> omega
theorem cRem (u : BitVec 1) : Statement (.cRem u) := by
  rintro n v ⟨⟩
  have h0 := u.isLt
  refine ⟨?_, .inl rfl⟩ <;> simp only [withFields] <;> omega
theorem cDivrem (u : BitVec 1) : Statement (.cDivrem u) := by
  rintro n v ⟨⟩
  have h0 := u.isLt
  refine ⟨?_, .inl rfl⟩ <;> simp only [withFields] <;> omega
theorem cShift (o : BitVec 2) : Statement (.cShift o) := by
  rintro n v ⟨⟩
  have h0 := o.isLt
  refine ⟨?_, .inl rfl⟩ <;> simp only [withFields] <;> omega
theorem cBitop (o : BitVec 2) : Statement (.cBitop o) := by
  rintro n v ⟨⟩
  have h0 := o.isLt
  refine ⟨?_, .inl rfl⟩ <;> simp only [withFields] <;> omega
theorem cCmp (c : BitVec 3) : Statement (.cCmp c) := by
  rintro n v ⟨⟩
  have h0 := c.isLt
  refine ⟨?_, .inl rfl⟩ <;> simp only [withFields] <;> omega
theorem cSetp (c : BitVec 3) (n : BitVec 3) : Statement (.cSetp c n) := by
  rintro n v ⟨⟩
  have h0 := c.isLt
  have h1 := n.isLt
  refine ⟨?_, .inl rfl⟩ <;> simp only [withFields] <;> omega
theorem cSel (n : BitVec 3) : Statement (.cSel n) := by
  rintro n v ⟨⟩
  have h0 := n.isLt
  refine ⟨?_, .inl rfl⟩ <;> simp only [withFields] <;> omega
theorem cMinmax (m : BitVec 2) : Statement (.cMinmax m) := by
  rintro n v ⟨⟩
  have h0 := m.isLt
  refine ⟨?_, .inl rfl⟩ <;> simp only [withFields] <;> omega
theorem cPredCombine (d : BitVec 3) (o : BitVec 2) : Statement (.cPredCombine d o) := by
  rintro n v ⟨⟩
  have h0 := d.isLt
  have h1 := o.isLt
  refine ⟨?_, .inl rfl⟩ <;> simp only [withFields] <;> omega
theorem cPredSet (d : BitVec 3) (o : BitVec 2) : Statement (.cPredSet d o) := by
  rintro n v ⟨⟩
  have h0 := d.isLt
  have h1 := o.isLt
  refine ⟨?_, .inl rfl⟩ <;> simp only [withFields] <;> omega
theorem cBr (o : BitVec 13) : Statement (.cBr o) := by
  rintro n v ⟨⟩
  have h0 := o.isLt
  refine ⟨?_, .inr (.inl ⟨rfl, ?_⟩)⟩ <;> simp only [withFields] <;> omega
theorem cBrT (n : BitVec 3) (o : BitVec 13) : Statement (.cBrT n o) := by
  rintro n v ⟨⟩
  have h0 := n.isLt
  have h1 := o.isLt
  refine ⟨?_, .inr (.inl ⟨rfl, ?_⟩)⟩ <;> simp only [withFields] <;> omega
theorem cBrF (n : BitVec 3) (o : BitVec 13) : Statement (.cBrF n o) := by
  rintro n v ⟨⟩
  have h0 := n.isLt
  have h1 := o.isLt
  refine ⟨?_, .inr (.inl ⟨rfl, ?_⟩)⟩ <;> simp only [withFields] <;> omega
theorem cBrNz (o : BitVec 13) : Statement (.cBrNz o) := by
  rintro n v ⟨⟩
  have h0 := o.isLt
  refine ⟨?_, .inr (.inl ⟨rfl, ?_⟩)⟩ <;> simp only [withFields] <;> omega
theorem cCall (o : BitVec 13) : Statement (.cCall o) := by
  rintro n v ⟨⟩
  have h0 := o.isLt
  refine ⟨?_, .inr (.inl ⟨rfl, ?_⟩)⟩ <;> simp only [withFields] <;> omega
theorem cRet : Statement .cRet := by
  rintro n v ⟨⟩
  refine ⟨?_, .inl rfl⟩ <;> simp only [withFields] <;> omega
theorem cLoopCount (n : BitVec 6) (o : BitVec 13) : Statement (.cLoopCount n o) := by
  rintro n v ⟨⟩
  have h0 := n.isLt
  have h1 := o.isLt
  refine ⟨?_, .inr (.inl ⟨rfl, ?_⟩)⟩ <;> simp only [withFields] <;> omega
theorem cLoop (o : BitVec 13) : Statement (.cLoop o) := by
  rintro n v ⟨⟩
  have h0 := o.isLt
  refine ⟨?_, .inr (.inl ⟨rfl, ?_⟩)⟩ <;> simp only [withFields] <;> omega
theorem cSend (e : BitVec 3) : Statement (.cSend e) := by
  rintro n v ⟨⟩
  have h0 := e.isLt
  refine ⟨?_, .inl rfl⟩ <;> simp only [withFields] <;> omega
theorem cRecv (e : BitVec 3) : Statement (.cRecv e) := by
  rintro n v ⟨⟩
  have h0 := e.isLt
  refine ⟨?_, .inl rfl⟩ <;> simp only [withFields] <;> omega
theorem recvHandoff (e : Engine) : Statement (.recvHandoff e) := fun _ _ h => nomatch h
theorem cLd (c : BitVec 2) (s : BitVec 1) (z : BitVec 2) : Statement (.cLd c s z) := by
  rintro n v ⟨⟩
  have h0 := c.isLt
  have h1 := s.isLt
  have h2 := z.isLt
  refine ⟨?_, .inl rfl⟩ <;> simp only [withFields] <;> omega
theorem cSt (c : BitVec 2) (z : BitVec 2) : Statement (.cSt c z) := by
  rintro n v ⟨⟩
  have h0 := c.isLt
  have h1 := z.isLt
  refine ⟨?_, .inl rfl⟩ <;> simp only [withFields] <;> omega
theorem cCsr (g : BitVec 6) (i : BitVec 13) : Statement (.cCsr g i) := by
  rintro n v ⟨⟩
  have h0 := g.isLt
  have h1 := i.isLt
  refine ⟨?_, .inr (.inl ⟨rfl, ?_⟩)⟩ <;> simp only [withFields] <;> omega
theorem cCsw (g : BitVec 6) (i : BitVec 13) : Statement (.cCsw g i) := by
  rintro n v ⟨⟩
  have h0 := g.isLt
  have h1 := i.isLt
  refine ⟨?_, .inr (.inl ⟨rfl, ?_⟩)⟩ <;> simp only [withFields] <;> omega
theorem registerWrite : Statement .registerWrite := fun _ _ h => nomatch h
theorem cfSlipWrite : Statement .cfSlipWrite := fun _ _ h => nomatch h
theorem sFork (m : BitVec 6) (o : BitVec 13) : Statement (.sFork m o) := by
  rintro n v ⟨⟩
  have h0 := m.isLt
  have h1 := o.isLt
  refine ⟨?_, .inr (.inl ⟨rfl, ?_⟩)⟩ <;> simp only [withFields] <;> omega
theorem sJoin (m : BitVec 6) : Statement (.sJoin m) := by
  rintro n v ⟨⟩
  have h0 := m.isLt
  refine ⟨?_, .inl rfl⟩ <;> simp only [withFields] <;> omega
theorem sLeg : Statement .sLeg := by
  rintro n v ⟨⟩
  refine ⟨?_, .inl rfl⟩ <;> simp only [withFields] <;> omega
theorem sSign (k : BitVec 4) : Statement (.sSign k) := by
  rintro n v ⟨⟩
  have h0 := k.isLt
  refine ⟨?_, .inl rfl⟩ <;> simp only [withFields] <;> omega
theorem sSlack : Statement .sSlack := by
  rintro n v ⟨⟩
  refine ⟨?_, .inl rfl⟩ <;> simp only [withFields] <;> omega
theorem sLtload (b : BitVec 1) : Statement (.sLtload b) := by
  rintro n v ⟨⟩
  have h0 := b.isLt
  refine ⟨?_, .inl rfl⟩ <;> simp only [withFields] <;> omega
theorem sFence (s : BitVec 3) (p : BitVec 6) (q : BitVec 6) : Statement (.sFence s p q) := by
  rintro n v ⟨⟩
  have h0 := s.isLt
  have h1 := p.isLt
  have h2 := q.isLt
  refine ⟨?_, .inr (.inl ⟨rfl, ?_⟩)⟩ <;> simp only [withFields] <;> omega
theorem sAcq (s : BitVec 3) : Statement (.sAcq s) := by
  rintro n v ⟨⟩
  have h0 := s.isLt
  refine ⟨?_, .inl rfl⟩ <;> simp only [withFields] <;> omega
theorem sAcqSh (s : BitVec 3) : Statement (.sAcqSh s) := by
  rintro n v ⟨⟩
  have h0 := s.isLt
  refine ⟨?_, .inl rfl⟩ <;> simp only [withFields] <;> omega
theorem sRel (s : BitVec 3) : Statement (.sRel s) := by
  rintro n v ⟨⟩
  have h0 := s.isLt
  refine ⟨?_, .inl rfl⟩ <;> simp only [withFields] <;> omega
theorem sStep (g : BitVec 4) : Statement (.sStep g) := by
  rintro n v ⟨⟩
  have h0 := g.isLt
  refine ⟨?_, .inl rfl⟩ <;> simp only [withFields] <;> omega
theorem sStepDrop (g : BitVec 4) : Statement (.sStepDrop g) := by
  rintro n v ⟨⟩
  have h0 := g.isLt
  refine ⟨?_, .inl rfl⟩ <;> simp only [withFields] <;> omega
theorem sTrap : Statement .sTrap := by
  rintro n v ⟨⟩
  refine ⟨?_, .inl rfl⟩ <;> simp only [withFields] <;> omega
theorem sEnd : Statement .sEnd := by
  rintro n v ⟨⟩
  refine ⟨?_, .inl rfl⟩ <;> simp only [withFields] <;> omega
theorem sYield : Statement .sYield := by
  rintro n v ⟨⟩
  refine ⟨?_, .inl rfl⟩ <;> simp only [withFields] <;> omega
theorem sYieldForce : Statement .sYieldForce := by
  rintro n v ⟨⟩
  refine ⟨?_, .inl rfl⟩ <;> simp only [withFields] <;> omega
theorem sBind : Statement .sBind := by
  rintro n v ⟨⟩
  refine ⟨?_, .inl rfl⟩ <;> simp only [withFields] <;> omega
theorem sBindU : Statement .sBindU := by
  rintro n v ⟨⟩
  refine ⟨?_, .inl rfl⟩ <;> simp only [withFields] <;> omega
theorem sTokenShared : Statement .sTokenShared := by
  rintro n v ⟨⟩
  refine ⟨?_, .inl rfl⟩ <;> simp only [withFields] <;> omega
theorem sTokenExcl : Statement .sTokenExcl := by
  rintro n v ⟨⟩
  refine ⟨?_, .inl rfl⟩ <;> simp only [withFields] <;> omega
theorem sTokenReturn : Statement .sTokenReturn := by
  rintro n v ⟨⟩
  refine ⟨?_, .inl rfl⟩ <;> simp only [withFields] <;> omega
theorem aSfld (g : BitVec 4) (i : BitVec 5) : Statement (.aSfld g i) := by
  rintro n v ⟨⟩
  have h0 := g.isLt
  have h1 := i.isLt
  refine ⟨?_, .inr (.inl ⟨rfl, ?_⟩)⟩ <;> simp only [withFields] <;> omega
theorem aSgo (g : BitVec 4) : Statement (.aSgo g) := by
  rintro n v ⟨⟩
  have h0 := g.isLt
  refine ⟨?_, .inl rfl⟩ <;> simp only [withFields] <;> omega
theorem aSstop (g : BitVec 4) : Statement (.aSstop g) := by
  rintro n v ⟨⟩
  have h0 := g.isLt
  refine ⟨?_, .inl rfl⟩ <;> simp only [withFields] <;> omega
theorem aSstopDrain (g : BitVec 4) : Statement (.aSstopDrain g) := by
  rintro n v ⟨⟩
  have h0 := g.isLt
  refine ⟨?_, .inl rfl⟩ <;> simp only [withFields] <;> omega
theorem aSpos (g : BitVec 4) : Statement (.aSpos g) := by
  rintro n v ⟨⟩
  have h0 := g.isLt
  refine ⟨?_, .inl rfl⟩ <;> simp only [withFields] <;> omega
theorem aSposSet (g : BitVec 4) : Statement (.aSposSet g) := by
  rintro n v ⟨⟩
  have h0 := g.isLt
  refine ⟨?_, .inl rfl⟩ <;> simp only [withFields] <;> omega
theorem aLdq (q : BitVec 2) : Statement (.aLdq q) := by
  rintro n v ⟨⟩
  have h0 := q.isLt
  refine ⟨?_, .inl rfl⟩ <;> simp only [withFields] <;> omega
theorem aStq (s : BitVec 1) : Statement (.aStq s) := by
  rintro n v ⟨⟩
  have h0 := s.isLt
  refine ⟨?_, .inl rfl⟩ <;> simp only [withFields] <;> omega
theorem aLdg (c : BitVec 2) : Statement (.aLdg c) := by
  rintro n v ⟨⟩
  have h0 := c.isLt
  refine ⟨?_, .inl rfl⟩ <;> simp only [withFields] <;> omega
theorem aStg (c : BitVec 2) : Statement (.aStg c) := by
  rintro n v ⟨⟩
  have h0 := c.isLt
  refine ⟨?_, .inl rfl⟩ <;> simp only [withFields] <;> omega
theorem aAlloc : Statement .aAlloc := by
  rintro n v ⟨⟩
  refine ⟨?_, .inl rfl⟩ <;> simp only [withFields] <;> omega
theorem aValidCnt : Statement .aValidCnt := by
  rintro n v ⟨⟩
  refine ⟨?_, .inl rfl⟩ <;> simp only [withFields] <;> omega
theorem aValidFirst : Statement .aValidFirst := by
  rintro n v ⟨⟩
  refine ⟨?_, .inl rfl⟩ <;> simp only [withFields] <;> omega
theorem aValidSet : Statement .aValidSet := by
  rintro n v ⟨⟩
  refine ⟨?_, .inl rfl⟩ <;> simp only [withFields] <;> omega
theorem aPld : Statement .aPld := by
  rintro n v ⟨⟩
  refine ⟨?_, .inl rfl⟩ <;> simp only [withFields] <;> omega
theorem aPldQueue (q : BitVec 2) : Statement (.aPldQueue q) := by
  rintro n v ⟨⟩
  have h0 := q.isLt
  refine ⟨?_, .inl rfl⟩ <;> simp only [withFields] <;> omega
theorem aPst : Statement .aPst := by
  rintro n v ⟨⟩
  refine ⟨?_, .inl rfl⟩ <;> simp only [withFields] <;> omega
theorem aPstPri : Statement .aPstPri := by
  rintro n v ⟨⟩
  refine ⟨?_, .inl rfl⟩ <;> simp only [withFields] <;> omega
theorem aPstQueue (s : BitVec 1) : Statement (.aPstQueue s) := by
  rintro n v ⟨⟩
  have h0 := s.isLt
  refine ⟨?_, .inl rfl⟩ <;> simp only [withFields] <;> omega
theorem aPstPriQueue (s : BitVec 1) : Statement (.aPstPriQueue s) := by
  rintro n v ⟨⟩
  have h0 := s.isLt
  refine ⟨?_, .inl rfl⟩ <;> simp only [withFields] <;> omega
theorem aAgen (g : BitVec 4) : Statement (.aAgen g) := by
  rintro n v ⟨⟩
  have h0 := g.isLt
  refine ⟨?_, .inl rfl⟩ <;> simp only [withFields] <;> omega
theorem aAlu (o : BitVec 3) : Statement (.aAlu o) := by
  rintro n v ⟨⟩
  have h0 := o.isLt
  refine ⟨?_, .inl rfl⟩ <;> simp only [withFields] <;> omega
theorem aXqCount (q : BitVec 3) : Statement (.aXqCount q) := by
  rintro n v ⟨⟩
  have h0 := q.isLt
  refine ⟨?_, .inl rfl⟩ <;> simp only [withFields] <;> omega
theorem aXqFlush (q : BitVec 3) : Statement (.aXqFlush q) := by
  rintro n v ⟨⟩
  have h0 := q.isLt
  refine ⟨?_, .inl rfl⟩ <;> simp only [withFields] <;> omega
theorem aXqDrop (q : BitVec 3) : Statement (.aXqDrop q) := by
  rintro n v ⟨⟩
  have h0 := q.isLt
  refine ⟨?_, .inl rfl⟩ <;> simp only [withFields] <;> omega
theorem aXqPut (q : BitVec 3) : Statement (.aXqPut q) := by
  rintro n v ⟨⟩
  have h0 := q.isLt
  refine ⟨?_, .inl rfl⟩ <;> simp only [withFields] <;> omega
theorem streamRun (g : BitVec 4) : Statement (.streamRun g) := fun _ _ h => nomatch h
theorem streamDrained (g : BitVec 4) : Statement (.streamDrained g) := fun _ _ h => nomatch h
theorem eShape : Statement .eShape := by
  rintro n v ⟨⟩
  refine ⟨?_, .inl rfl⟩ <;> simp only [withFields] <;> omega
theorem eShapeGet : Statement .eShapeGet := by
  rintro n v ⟨⟩
  refine ⟨?_, .inl rfl⟩ <;> simp only [withFields] <;> omega
theorem eMov (d : BitVec 5) (p : BitVec 1) (a : BitVec 5) (m : BitVec 3) : Statement (.eMov d p a m) := by
  rintro n v ⟨⟩
  have h0 := d.isLt
  have h1 := p.isLt
  have h2 := a.isLt
  have h3 := m.isLt
  refine ⟨?_, .inr (.inl ⟨rfl, ?_⟩)⟩ <;> simp only [withFields] <;> omega
theorem eAdd (d : BitVec 5) (p : BitVec 1) (a : BitVec 5) (b : BitVec 5) (r : BitVec 2) : Statement (.eAdd d p a b r) := by
  rintro n v ⟨⟩
  have h0 := d.isLt
  have h1 := p.isLt
  have h2 := a.isLt
  have h3 := b.isLt
  have h4 := r.isLt
  refine ⟨?_, .inr (.inl ⟨rfl, ?_⟩)⟩ <;> simp only [withFields] <;> omega
theorem eSub (d : BitVec 5) (p : BitVec 1) (a : BitVec 5) (b : BitVec 5) (r : BitVec 2) : Statement (.eSub d p a b r) := by
  rintro n v ⟨⟩
  have h0 := d.isLt
  have h1 := p.isLt
  have h2 := a.isLt
  have h3 := b.isLt
  have h4 := r.isLt
  refine ⟨?_, .inr (.inl ⟨rfl, ?_⟩)⟩ <;> simp only [withFields] <;> omega
theorem eMul (d : BitVec 5) (p : BitVec 1) (a : BitVec 5) (b : BitVec 5) (r : BitVec 2) : Statement (.eMul d p a b r) := by
  rintro n v ⟨⟩
  have h0 := d.isLt
  have h1 := p.isLt
  have h2 := a.isLt
  have h3 := b.isLt
  have h4 := r.isLt
  refine ⟨?_, .inr (.inl ⟨rfl, ?_⟩)⟩ <;> simp only [withFields] <;> omega
theorem eFma (d : BitVec 5) (p : BitVec 1) (a : BitVec 5) (b : BitVec 5) (neg : BitVec 1) (r : BitVec 2) (c : BitVec 5) : Statement (.eFma d p a b neg r c) := by
  rintro n v ⟨⟩
  have h0 := d.isLt
  have h1 := p.isLt
  have h2 := a.isLt
  have h3 := b.isLt
  have h4 := neg.isLt
  have h5 := r.isLt
  have h6 := c.isLt
  refine ⟨?_, .inr (.inr ⟨rfl, ?_, ?_⟩)⟩ <;> simp only [withFields] <;> omega
theorem eDiv (d : BitVec 5) (p : BitVec 1) (a : BitVec 5) (b : BitVec 5) (r : BitVec 2) : Statement (.eDiv d p a b r) := by
  rintro n v ⟨⟩
  have h0 := d.isLt
  have h1 := p.isLt
  have h2 := a.isLt
  have h3 := b.isLt
  have h4 := r.isLt
  refine ⟨?_, .inr (.inl ⟨rfl, ?_⟩)⟩ <;> simp only [withFields] <;> omega
theorem eSqrt (d : BitVec 5) (p : BitVec 1) (a : BitVec 5) (r : BitVec 2) : Statement (.eSqrt d p a r) := by
  rintro n v ⟨⟩
  have h0 := d.isLt
  have h1 := p.isLt
  have h2 := a.isLt
  have h3 := r.isLt
  refine ⟨?_, .inr (.inl ⟨rfl, ?_⟩)⟩ <;> simp only [withFields] <;> omega
theorem eMin (d : BitVec 5) (p : BitVec 1) (a : BitVec 5) (b : BitVec 5) (n : BitVec 1) : Statement (.eMin d p a b n) := by
  rintro n v ⟨⟩
  have h0 := d.isLt
  have h1 := p.isLt
  have h2 := a.isLt
  have h3 := b.isLt
  have h4 := n.isLt
  refine ⟨?_, .inr (.inl ⟨rfl, ?_⟩)⟩ <;> simp only [withFields] <;> omega
theorem eMax (d : BitVec 5) (p : BitVec 1) (a : BitVec 5) (b : BitVec 5) (n : BitVec 1) : Statement (.eMax d p a b n) := by
  rintro n v ⟨⟩
  have h0 := d.isLt
  have h1 := p.isLt
  have h2 := a.isLt
  have h3 := b.isLt
  have h4 := n.isLt
  refine ⟨?_, .inr (.inl ⟨rfl, ?_⟩)⟩ <;> simp only [withFields] <;> omega
theorem eCmp (d : BitVec 5) (p : BitVec 1) (a : BitVec 5) (b : BitVec 5) (c : BitVec 3) : Statement (.eCmp d p a b c) := by
  rintro n v ⟨⟩
  have h0 := d.isLt
  have h1 := p.isLt
  have h2 := a.isLt
  have h3 := b.isLt
  have h4 := c.isLt
  refine ⟨?_, .inr (.inl ⟨rfl, ?_⟩)⟩ <;> simp only [withFields] <;> omega
theorem eSelect (d : BitVec 5) (p : BitVec 1) (a : BitVec 5) (b : BitVec 5) (c : BitVec 5) : Statement (.eSelect d p a b c) := by
  rintro n v ⟨⟩
  have h0 := d.isLt
  have h1 := p.isLt
  have h2 := a.isLt
  have h3 := b.isLt
  have h4 := c.isLt
  refine ⟨?_, .inr (.inr ⟨rfl, ?_, ?_⟩)⟩ <;> simp only [withFields] <;> omega
theorem eIadd (d : BitVec 5) (p : BitVec 1) (a : BitVec 5) (b : BitVec 5) (m : BitVec 3) : Statement (.eIadd d p a b m) := by
  rintro n v ⟨⟩
  have h0 := d.isLt
  have h1 := p.isLt
  have h2 := a.isLt
  have h3 := b.isLt
  have h4 := m.isLt
  refine ⟨?_, .inr (.inl ⟨rfl, ?_⟩)⟩ <;> simp only [withFields] <;> omega
theorem eImul (d : BitVec 5) (p : BitVec 1) (a : BitVec 5) (b : BitVec 5) (m : BitVec 3) : Statement (.eImul d p a b m) := by
  rintro n v ⟨⟩
  have h0 := d.isLt
  have h1 := p.isLt
  have h2 := a.isLt
  have h3 := b.isLt
  have h4 := m.isLt
  refine ⟨?_, .inr (.inl ⟨rfl, ?_⟩)⟩ <;> simp only [withFields] <;> omega
theorem eLogic (d : BitVec 5) (p : BitVec 1) (a : BitVec 5) (b : BitVec 5) (m : BitVec 3) : Statement (.eLogic d p a b m) := by
  rintro n v ⟨⟩
  have h0 := d.isLt
  have h1 := p.isLt
  have h2 := a.isLt
  have h3 := b.isLt
  have h4 := m.isLt
  refine ⟨?_, .inr (.inl ⟨rfl, ?_⟩)⟩ <;> simp only [withFields] <;> omega
theorem eShift (d : BitVec 5) (p : BitVec 1) (a : BitVec 5) (b : BitVec 5) (m : BitVec 3) : Statement (.eShift d p a b m) := by
  rintro n v ⟨⟩
  have h0 := d.isLt
  have h1 := p.isLt
  have h2 := a.isLt
  have h3 := b.isLt
  have h4 := m.isLt
  refine ⟨?_, .inr (.inl ⟨rfl, ?_⟩)⟩ <;> simp only [withFields] <;> omega
theorem eCvt (d : BitVec 5) (p : BitVec 1) (a : BitVec 5) (b : BitVec 5) (r : BitVec 2) (o : BitVec 3) (f : BitVec 5) : Statement (.eCvt d p a b r o f) := by
  rintro n v ⟨⟩
  have h0 := d.isLt
  have h1 := p.isLt
  have h2 := a.isLt
  have h3 := b.isLt
  have h4 := r.isLt
  have h5 := o.isLt
  have h6 := f.isLt
  refine ⟨?_, .inr (.inr ⟨rfl, ?_, ?_⟩)⟩ <;> simp only [withFields] <;> omega
theorem eQuant (d : BitVec 5) (p : BitVec 1) (a : BitVec 5) (sd : BitVec 5) (f : BitVec 5) : Statement (.eQuant d p a sd f) := by
  rintro n v ⟨⟩
  have h0 := d.isLt
  have h1 := p.isLt
  have h2 := a.isLt
  have h3 := sd.isLt
  have h4 := f.isLt
  refine ⟨?_, .inr (.inr ⟨rfl, ?_, ?_⟩)⟩ <;> simp only [withFields] <;> omega
theorem eAmax : Statement .eAmax := by
  rintro n v ⟨⟩
  refine ⟨?_, .inl rfl⟩ <;> simp only [withFields] <;> omega
theorem eAmaxReset : Statement .eAmaxReset := by
  rintro n v ⟨⟩
  refine ⟨?_, .inl rfl⟩ <;> simp only [withFields] <;> omega
theorem eAmaxClear : Statement .eAmaxClear := by
  rintro n v ⟨⟩
  refine ⟨?_, .inl rfl⟩ <;> simp only [withFields] <;> omega
theorem eRed (d : BitVec 5) (p : BitVec 1) (a : BitVec 5) (x : BitVec 1) (o : BitVec 2) : Statement (.eRed d p a x o) := by
  rintro n v ⟨⟩
  have h0 := d.isLt
  have h1 := p.isLt
  have h2 := a.isLt
  have h3 := x.isLt
  have h4 := o.isLt
  refine ⟨?_, .inr (.inl ⟨rfl, ?_⟩)⟩ <;> simp only [withFields] <;> omega
theorem eXpose (d : BitVec 5) (p : BitVec 1) (a : BitVec 5) : Statement (.eXpose d p a) := by
  rintro n v ⟨⟩
  have h0 := d.isLt
  have h1 := p.isLt
  have h2 := a.isLt
  refine ⟨?_, .inr (.inl ⟨rfl, ?_⟩)⟩ <;> simp only [withFields] <;> omega
theorem ePerm (d : BitVec 5) (p : BitVec 1) (a : BitVec 5) (b : BitVec 5) (m : BitVec 3) (c : BitVec 5) (s : BitVec 8) : Statement (.ePerm d p a b m c s) := by
  rintro n v ⟨⟩
  have h0 := d.isLt
  have h1 := p.isLt
  have h2 := a.isLt
  have h3 := b.isLt
  have h4 := m.isLt
  have h5 := c.isLt
  have h6 := s.isLt
  refine ⟨?_, .inr (.inr ⟨rfl, ?_, ?_⟩)⟩ <;> simp only [withFields] <;> omega
theorem eRep (s : BitVec 2) (n : BitVec 4) : Statement (.eRep s n) := by
  rintro n v ⟨⟩
  have h0 := s.isLt
  have h1 := n.isLt
  refine ⟨?_, .inl rfl⟩ <;> simp only [withFields] <;> omega
theorem eSfn (d : BitVec 5) (p : BitVec 1) (a : BitVec 5) (f : BitVec 2) : Statement (.eSfn d p a f) := by
  rintro n v ⟨⟩
  have h0 := d.isLt
  have h1 := p.isLt
  have h2 := a.isLt
  have h3 := f.isLt
  refine ⟨?_, .inr (.inl ⟨rfl, ?_⟩)⟩ <;> simp only [withFields] <;> omega
theorem eTpack (d : BitVec 5) (p : BitVec 1) (a : BitVec 5) : Statement (.eTpack d p a) := by
  rintro n v ⟨⟩
  have h0 := d.isLt
  have h1 := p.isLt
  have h2 := a.isLt
  refine ⟨?_, .inr (.inl ⟨rfl, ?_⟩)⟩ <;> simp only [withFields] <;> omega
theorem eMask (a : BitVec 5) (f : BitVec 3) : Statement (.eMask a f) := by
  rintro n v ⟨⟩
  have h0 := a.isLt
  have h1 := f.isLt
  refine ⟨?_, .inr (.inl ⟨rfl, ?_⟩)⟩ <;> simp only [withFields] <;> omega
theorem eXq (d : BitVec 5) (p : BitVec 1) (a : BitVec 5) (m : BitVec 3) : Statement (.eXq d p a m) := by
  rintro n v ⟨⟩
  have h0 := d.isLt
  have h1 := p.isLt
  have h2 := a.isLt
  have h3 := m.isLt
  refine ⟨?_, .inr (.inl ⟨rfl, ?_⟩)⟩ <;> simp only [withFields] <;> omega
theorem mClaim : Statement .mClaim := by
  rintro n v ⟨⟩
  refine ⟨?_, .inl rfl⟩ <;> simp only [withFields] <;> omega
theorem mClaimR : Statement .mClaimR := by
  rintro n v ⟨⟩
  refine ⟨?_, .inl rfl⟩ <;> simp only [withFields] <;> omega
theorem mRelease : Statement .mRelease := by
  rintro n v ⟨⟩
  refine ⟨?_, .inl rfl⟩ <;> simp only [withFields] <;> omega
theorem mWload (f : BitVec 5) : Statement (.mWload f) := by
  rintro n v ⟨⟩
  have h0 := f.isLt
  refine ⟨?_, .inl rfl⟩ <;> simp only [withFields] <;> omega
theorem mWloadSp (f : BitVec 5) : Statement (.mWloadSp f) := by
  rintro n v ⟨⟩
  have h0 := f.isLt
  refine ⟨?_, .inl rfl⟩ <;> simp only [withFields] <;> omega
theorem mSwap : Statement .mSwap := by
  rintro n v ⟨⟩
  refine ⟨?_, .inl rfl⟩ <;> simp only [withFields] <;> omega
theorem mMma (f : BitVec 3) (k : BitVec 3) : Statement (.mMma f k) := by
  rintro n v ⟨⟩
  have h0 := f.isLt
  have h1 := k.isLt
  refine ⟨?_, .inl rfl⟩ <;> simp only [withFields] <;> omega
theorem mTmma (k : BitVec 3) : Statement (.mTmma k) := by
  rintro n v ⟨⟩
  have h0 := k.isLt
  refine ⟨?_, .inl rfl⟩ <;> simp only [withFields] <;> omega
theorem mEpi (z : BitVec 1) (d : BitVec 2) (k : BitVec 3) (s : BitVec 2) (a : BitVec 2) (f : BitVec 5) : Statement (.mEpi z d k s a f) := by
  rintro n v ⟨⟩
  have h0 := z.isLt
  have h1 := d.isLt
  have h2 := k.isLt
  have h3 := s.isLt
  have h4 := a.isLt
  have h5 := f.isLt
  refine ⟨?_, .inr (.inl ⟨rfl, ?_⟩)⟩ <;> simp only [withFields] <;> omega
theorem mRoute : Statement .mRoute := by
  rintro n v ⟨⟩
  refine ⟨?_, .inl rfl⟩ <;> simp only [withFields] <;> omega
theorem mRouteGet : Statement .mRouteGet := by
  rintro n v ⟨⟩
  refine ⟨?_, .inl rfl⟩ <;> simp only [withFields] <;> omega
theorem mAccClear (k : BitVec 3) : Statement (.mAccClear k) := by
  rintro n v ⟨⟩
  have h0 := k.isLt
  refine ⟨?_, .inl rfl⟩ <;> simp only [withFields] <;> omega
theorem mAccClearpair (k : BitVec 3) : Statement (.mAccClearpair k) := by
  rintro n v ⟨⟩
  have h0 := k.isLt
  refine ⟨?_, .inl rfl⟩ <;> simp only [withFields] <;> omega
theorem mAccLoad (k : BitVec 3) : Statement (.mAccLoad k) := by
  rintro n v ⟨⟩
  have h0 := k.isLt
  refine ⟨?_, .inl rfl⟩ <;> simp only [withFields] <;> omega
theorem kGeoDim (k : BitVec 3) : Statement (.kGeoDim k) := by
  rintro n v ⟨⟩
  have h0 := k.isLt
  refine ⟨?_, .inl rfl⟩ <;> simp only [withFields] <;> omega
theorem kGeoRank : Statement .kGeoRank := by
  rintro n v ⟨⟩
  refine ⟨?_, .inl rfl⟩ <;> simp only [withFields] <;> omega
theorem kGeoSpace : Statement .kGeoSpace := by
  rintro n v ⟨⟩
  refine ⟨?_, .inl rfl⟩ <;> simp only [withFields] <;> omega
theorem kGeoSig : Statement .kGeoSig := by
  rintro n v ⟨⟩
  refine ⟨?_, .inl rfl⟩ <;> simp only [withFields] <;> omega
theorem kGeoClear : Statement .kGeoClear := by
  rintro n v ⟨⟩
  refine ⟨?_, .inl rfl⟩ <;> simp only [withFields] <;> omega
theorem kCopy : Statement .kCopy := by
  rintro n v ⟨⟩
  refine ⟨?_, .inl rfl⟩ <;> simp only [withFields] <;> omega
theorem kFollow : Statement .kFollow := by
  rintro n v ⟨⟩
  refine ⟨?_, .inl rfl⟩ <;> simp only [withFields] <;> omega
theorem kCnt : Statement .kCnt := by
  rintro n v ⟨⟩
  refine ⟨?_, .inl rfl⟩ <;> simp only [withFields] <;> omega
theorem kCntGet : Statement .kCntGet := by
  rintro n v ⟨⟩
  refine ⟨?_, .inl rfl⟩ <;> simp only [withFields] <;> omega
theorem kFlag (n : BitVec 6) : Statement (.kFlag n) := by
  rintro n v ⟨⟩
  have h0 := n.isLt
  refine ⟨?_, .inl rfl⟩ <;> simp only [withFields] <;> omega
theorem kCwait (s : BitVec 3) : Statement (.kCwait s) := by
  rintro n v ⟨⟩
  have h0 := s.isLt
  refine ⟨?_, .inl rfl⟩ <;> simp only [withFields] <;> omega
theorem kPin : Statement .kPin := by
  rintro n v ⟨⟩
  refine ⟨?_, .inl rfl⟩ <;> simp only [withFields] <;> omega
theorem kPinRelease : Statement .kPinRelease := by
  rintro n v ⟨⟩
  refine ⟨?_, .inl rfl⟩ <;> simp only [withFields] <;> omega
theorem kConvSrc : Statement .kConvSrc := by
  rintro n v ⟨⟩
  refine ⟨?_, .inl rfl⟩ <;> simp only [withFields] <;> omega
theorem kConvDst : Statement .kConvDst := by
  rintro n v ⟨⟩
  refine ⟨?_, .inl rfl⟩ <;> simp only [withFields] <;> omega
theorem copyComplete (k : Nat) : Statement (.copyComplete k) := fun _ _ h => nomatch h
theorem followOnStart : Statement .followOnStart := fun _ _ h => nomatch h
theorem cwaitSatisfied : Statement .cwaitSatisfied := fun _ _ h => nomatch h
theorem flagWaitSatisfied : Statement .flagWaitSatisfied := fun _ _ h => nomatch h
theorem wRows (f : BitVec 3) (m : BitVec 2) : Statement (.wRows f m) := by
  rintro n v ⟨⟩
  have h0 := f.isLt
  have h1 := m.isLt
  refine ⟨?_, .inl rfl⟩ <;> simp only [withFields] <;> omega
theorem wRstat (i : BitVec 1) (k : BitVec 3) : Statement (.wRstat i k) := by
  rintro n v ⟨⟩
  have h0 := i.isLt
  have h1 := k.isLt
  refine ⟨?_, .inl rfl⟩ <;> simp only [withFields] <;> omega
theorem wTime : Statement .wTime := by
  rintro n v ⟨⟩
  refine ⟨?_, .inl rfl⟩ <;> simp only [withFields] <;> omega
theorem wTimeGet : Statement .wTimeGet := by
  rintro n v ⟨⟩
  refine ⟨?_, .inl rfl⟩ <;> simp only [withFields] <;> omega
theorem fAmo (o : BitVec 3) (t : BitVec 2) : Statement (.fAmo o t) := by
  rintro n v ⟨⟩
  have h0 := o.isLt
  have h1 := t.isLt
  refine ⟨?_, .inl rfl⟩ <;> simp only [withFields] <;> omega
theorem fAmoR (o : BitVec 3) (t : BitVec 2) : Statement (.fAmoR o t) := by
  rintro n v ⟨⟩
  have h0 := o.isLt
  have h1 := t.isLt
  refine ⟨?_, .inl rfl⟩ <;> simp only [withFields] <;> omega
theorem fCas (w : BitVec 1) : Statement (.fCas w) := by
  rintro n v ⟨⟩
  have h0 := w.isLt
  refine ⟨?_, .inl rfl⟩ <;> simp only [withFields] <;> omega
theorem fCasM (n : BitVec 2) (w : BitVec 1) : Statement (.fCasM n w) := by
  rintro n v ⟨⟩
  have h0 := n.isLt
  have h1 := w.isLt
  refine ⟨?_, .inl rfl⟩ <;> simp only [withFields] <;> omega
theorem fEnq : Statement .fEnq := by
  rintro n v ⟨⟩
  refine ⟨?_, .inl rfl⟩ <;> simp only [withFields] <;> omega
theorem fEnqR : Statement .fEnqR := by
  rintro n v ⟨⟩
  refine ⟨?_, .inl rfl⟩ <;> simp only [withFields] <;> omega
theorem fChase (h : BitVec 4) (c : BitVec 3) (k : BitVec 6) : Statement (.fChase h c k) := by
  rintro n v ⟨⟩
  have h0 := h.isLt
  have h1 := c.isLt
  have h2 := k.isLt
  refine ⟨?_, .inr (.inl ⟨rfl, ?_⟩)⟩ <;> simp only [withFields] <;> omega
theorem fRld (c : BitVec 2) (s : BitVec 1) (z : BitVec 2) : Statement (.fRld c s z) := by
  rintro n v ⟨⟩
  have h0 := c.isLt
  have h1 := s.isLt
  have h2 := z.isLt
  refine ⟨?_, .inl rfl⟩ <;> simp only [withFields] <;> omega
theorem fRst (c : BitVec 2) (z : BitVec 2) : Statement (.fRst c z) := by
  rintro n v ⟨⟩
  have h0 := c.isLt
  have h1 := z.isLt
  refine ⟨?_, .inl rfl⟩ <;> simp only [withFields] <;> omega
theorem fSkup (d : BitVec 1) : Statement (.fSkup d) := by
  rintro n v ⟨⟩
  have h0 := d.isLt
  refine ⟨?_, .inl rfl⟩ <;> simp only [withFields] <;> omega
theorem fSkupN (d : BitVec 1) : Statement (.fSkupN d) := by
  rintro n v ⟨⟩
  have h0 := d.isLt
  refine ⟨?_, .inl rfl⟩ <;> simp only [withFields] <;> omega
theorem fSkq (i : BitVec 1) : Statement (.fSkq i) := by
  rintro n v ⟨⟩
  have h0 := i.isLt
  refine ⟨?_, .inl rfl⟩ <;> simp only [withFields] <;> omega
theorem fSkqN (i : BitVec 1) : Statement (.fSkqN i) := by
  rintro n v ⟨⟩
  have h0 := i.isLt
  refine ⟨?_, .inl rfl⟩ <;> simp only [withFields] <;> omega
theorem fSkadd : Statement .fSkadd := by
  rintro n v ⟨⟩
  refine ⟨?_, .inl rfl⟩ <;> simp only [withFields] <;> omega
theorem fColl (e : BitVec 1) (d : BitVec 2) (s : BitVec 2) : Statement (.fColl e d s) := by
  rintro n v ⟨⟩
  have h0 := e.isLt
  have h1 := d.isLt
  have h2 := s.isLt
  refine ⟨?_, .inl rfl⟩ <;> simp only [withFields] <;> omega
theorem fLayout (n : BitVec 2) (f : BitVec 4) : Statement (.fLayout n f) := by
  rintro n v ⟨⟩
  have h0 := n.isLt
  have h1 := f.isLt
  refine ⟨?_, .inl rfl⟩ <;> simp only [withFields] <;> omega
theorem fDrain : Statement .fDrain := by
  rintro n v ⟨⟩
  refine ⟨?_, .inl rfl⟩ <;> simp only [withFields] <;> omega
theorem farDrainComplete : Statement .farDrainComplete := fun _ _ h => nomatch h
theorem farReply (k : Nat) : Statement (.farReply k) := fun _ _ h => nomatch h
theorem reportArrival (k : Nat) : Statement (.reportArrival k) := fun _ _ h => nomatch h
theorem wallowerService (w : BitVec 2) (k : Nat) : Statement (.wallowerService w k) := fun _ _ h => nomatch h
theorem sketchLogApply (w : BitVec 2) : Statement (.sketchLogApply w) := fun _ _ h => nomatch h
theorem combineTimerFlush (k : Nat) : Statement (.combineTimerFlush k) := fun _ _ h => nomatch h
theorem tokenRevoke (region : Nat) : Statement (.tokenRevoke region) := fun _ _ h => nomatch h
theorem tokenComplete : Statement .tokenComplete := fun _ _ h => nomatch h
theorem flitReceive (l : Nat) : Statement (.flitReceive l) := fun _ _ h => nomatch h
theorem replayRequest (l : Nat) : Statement (.replayRequest l) := fun _ _ h => nomatch h
theorem flitAck (l : Nat) (q : Nat) : Statement (.flitAck l q) := fun _ _ h => nomatch h
theorem rotationMarker (l : Nat) : Statement (.rotationMarker l) := fun _ _ h => nomatch h
theorem linkDown (l : Nat) : Statement (.linkDown l) := fun _ _ h => nomatch h
theorem slotDeparture (k : Nat) : Statement (.slotDeparture k) := fun _ _ h => nomatch h
theorem acquireGrant (k : Nat) : Statement (.acquireGrant k) := fun _ _ h => nomatch h
theorem releaseDrainComplete : Statement .releaseDrainComplete := fun _ _ h => nomatch h
theorem releaseEffect (k : Nat) : Statement (.releaseEffect k) := fun _ _ h => nomatch h
theorem bindRecord : Statement .bindRecord := fun _ _ h => nomatch h
theorem fenceDrainComplete : Statement .fenceDrainComplete := fun _ _ h => nomatch h
theorem collectiveComplete (k : Nat) : Statement (.collectiveComplete k) := fun _ _ h => nomatch h
theorem stepSettle (g : BitVec 4) : Statement (.stepSettle g) := fun _ _ h => nomatch h
theorem stepAbsenceLimit (g : BitVec 4) : Statement (.stepAbsenceLimit g) := fun _ _ h => nomatch h
theorem legTableLoaded (b : BitVec 1) : Statement (.legTableLoaded b) := fun _ _ h => nomatch h
theorem legStart : Statement .legStart := fun _ _ h => nomatch h
theorem legTimedEnd : Statement .legTimedEnd := fun _ _ h => nomatch h
theorem timelineCommand : Statement .timelineCommand := fun _ _ h => nomatch h
theorem owedCommandService : Statement .owedCommandService := fun _ _ h => nomatch h
theorem controllerSignoff (s : BitVec 1) : Statement (.controllerSignoff s) := fun _ _ h => nomatch h
theorem stationSignoff : Statement .stationSignoff := fun _ _ h => nomatch h
theorem closureLimitExpiry : Statement .closureLimitExpiry := fun _ _ h => nomatch h
theorem refreshTick (s : BitVec 1) : Statement (.refreshTick s) := fun _ _ h => nomatch h
theorem heldRefresh (s : BitVec 1) : Statement (.heldRefresh s) := fun _ _ h => nomatch h
theorem pageWalk (k : Nat) : Statement (.pageWalk k) := fun _ _ h => nomatch h
theorem epochClose : Statement .epochClose := fun _ _ h => nomatch h
theorem swapComplete : Statement .swapComplete := fun _ _ h => nomatch h
theorem patrolLine : Statement .patrolLine := fun _ _ h => nomatch h
theorem rotationPassEnd : Statement .rotationPassEnd := fun _ _ h => nomatch h
theorem textRowFill (row : Nat) : Statement (.textRowFill row) := fun _ _ h => nomatch h
theorem textRowFree : Statement .textRowFree := fun _ _ h => nomatch h
theorem launchRecord : Statement .launchRecord := fun _ _ h => nomatch h
theorem taskPlace (l : Nat) (task : Nat) : Statement (.taskPlace l task) := fun _ _ h => nomatch h
theorem taskStart : Statement .taskStart := fun _ _ h => nomatch h
theorem timedTaskStart : Statement .timedTaskStart := fun _ _ h => nomatch h
theorem endComplete : Statement .endComplete := fun _ _ h => nomatch h
theorem contextSaveComplete : Statement .contextSaveComplete := fun _ _ h => nomatch h
theorem contextRestoreComplete : Statement .contextRestoreComplete := fun _ _ h => nomatch h
theorem killComplete : Statement .killComplete := fun _ _ h => nomatch h
theorem taskCtlRetry : Statement .taskCtlRetry := fun _ _ h => nomatch h
theorem taskCtlSkip : Statement .taskCtlSkip := fun _ _ h => nomatch h
theorem taskCtlKill : Statement .taskCtlKill := fun _ _ h => nomatch h
theorem pageDone : Statement .pageDone := fun _ _ h => nomatch h
theorem tlbInvPage : Statement .tlbInvPage := fun _ _ h => nomatch h
theorem tlbInvSpace : Statement .tlbInvSpace := fun _ _ h => nomatch h
theorem tlbInvAll : Statement .tlbInvAll := fun _ _ h => nomatch h
theorem keyRotate : Statement .keyRotate := fun _ _ h => nomatch h
theorem hashMaskWrite : Statement .hashMaskWrite := fun _ _ h => nomatch h
theorem regionWrite : Statement .regionWrite := fun _ _ h => nomatch h
theorem sgFaultClear : Statement .sgFaultClear := fun _ _ h => nomatch h
theorem uninitClear : Statement .uninitClear := fun _ _ h => nomatch h
theorem errorLogClear : Statement .errorLogClear := fun _ _ h => nomatch h
theorem memrd (die : Nat) (tier : Nat) (off : Nat) (n : Nat) : Statement (.memrd die tier off n) := fun _ _ h => nomatch h
theorem memwr (die : Nat) (tier : Nat) (off : Nat) (data : List (BitVec 8)) : Statement (.memwr die tier off data) := fun _ _ h => nomatch h
theorem regrd (group : Nat) (die : Nat) (idx : Nat) : Statement (.regrd group die idx) := fun _ _ h => nomatch h
theorem regwr (group : Nat) (die : Nat) (idx : Nat) (v : BitVec 64) : Statement (.regwr group die idx v) := fun _ _ h => nomatch h
theorem launch (die : Nat) (space : Nat) (va : BitVec 64) (sys : Bool) : Statement (.launch die space va sys) := fun _ _ h => nomatch h
theorem keyld (fields : List Nat) : Statement (.keyld fields) := fun _ _ h => nomatch h
theorem fwld (image : List (BitVec 8)) : Statement (.fwld image) := fun _ _ h => nomatch h
theorem attestCmd (nonce : List (BitVec 8)) : Statement (.attestCmd nonce) := fun _ _ h => nomatch h
theorem lifeCmd (dest : Nat) (sig : List (BitVec 8)) : Statement (.lifeCmd dest sig) := fun _ _ h => nomatch h
theorem debugCmd (level : Nat) (token : List (BitVec 8)) : Statement (.debugCmd level token) := fun _ _ h => nomatch h
theorem powerCmd (dest : Nat) : Statement (.powerCmd dest) := fun _ _ h => nomatch h
theorem haltEntry : Statement .haltEntry := fun _ _ h => nomatch h
theorem powerOn : Statement .powerOn := fun _ _ h => nomatch h
theorem functionReady (bit : Nat) : Statement (.functionReady bit) := fun _ _ h => nomatch h
theorem thermalWarn (die : Nat) : Statement (.thermalWarn die) := fun _ _ h => nomatch h
theorem thermalTrip (die : Nat) : Statement (.thermalTrip die) := fun _ _ h => nomatch h
theorem illegalWord (t : BitVec 3) : Statement (.illegalWord t) := fun _ _ h => nomatch h
theorem freeModeRequestService (k : Nat) : Statement (.freeModeRequestService k) := fun _ _ h => nomatch h
theorem millwrightPreemption : Statement .millwrightPreemption := fun _ _ h => nomatch h
theorem exchangeWaitLimit (k : Nat) : Statement (.exchangeWaitLimit k) := fun _ _ h => nomatch h
theorem powerLoss : Statement .powerLoss := fun _ _ h => nomatch h

end Sys2Proof.Laws.SameTag
end

