-- ==== Sys2Proof/Laws/Reach.lean ====
section
/-! SUPPORT. What translation and the accesses of the Wallowers and Millwrights leave of the memories: their canonical form. -/

namespace Sys2Proof.Machine

/-- Changes of the acting core leave every memory as it is. -/
theorem State.memWf_updMe (s : State) (f : Core → Core) (h : s.memWf) : (s.updMe f).memWf := h

theorem State.memWf_setMe (s : State) (c : Core) (h : s.memWf) : (s.setMe c).memWf := h

theorem State.memWf_setCore (s : State) (k : Nat) (c : Core) (h : s.memWf) : (s.setCore k c).memWf := h

/-- A change of a die that keeps its memory's form keeps that of all. -/
theorem State.memWf_updDie (s : State) (d : Nat) (f : Die → Die)
    (hf : Memory.wf (s.die d).mem = true → Memory.wf (f (s.die d)).mem = true) (h : s.memWf) : (s.updDie d f).memWf :=
  State.memWf_setDie h (hf (h d))

/-- What a result of translation comes to. -/
def Xlat.all (P : State → Prop) : Xlat → Prop
  | .at_ _ s => P s
  | .wait s => P s
  | .fail _ s => P s

theorem askWalk_memWf (s : State) (va : W64) (w : Bool) (h : s.memWf) : (askWalk s va w).all State.memWf := by
  unfold askWalk
  simp only
  split
  · split
    · exact h
    · exact h
  · exact h

theorem translate_memWf (s : State) (va : W64) (w : Bool) (h : s.memWf) : (translate s va w).all State.memWf := by
  have hs : ∀ e : TlbEntry, (s.setMe { s.me with tlb := tlbTouch s.me.tlb e }).memWf := fun e => h
  have hd : ∀ (d : Nat) (e : TlbEntry), (s.updDie d fun x => { x with tlb := tlbTouch x.tlb e }).memWf :=
    fun d e => s.memWf_updDie d _ (fun hx => hx) h
  unfold translate
  simp only
  split
  · exact h
  · split
    · exact askWalk_memWf s va w h
    · next e _ =>
      split
      · next hp =>
        show State.memWf _
        split
        · exact hs e
        · exact hd _ e
      · show State.memWf _
        split
        · exact hs e
        · exact hd _ e

theorem locate_memWf (s : State) (va : W64) (n : Nat) (r w : Bool) (h : s.memWf) : (locate s va n r w).all State.memWf := by
  have ht := translate_memWf s va w h
  unfold locate
  split <;> rename_i e
  · rw [e] at ht
    split
    · exact ht
    · split
      · exact ht
      · exact ht
  · exact ht

/-- What an access at the owning die comes to. -/
def Near.all (P : State → Prop) : Near → Prop
  | .ok _ s => P s
  | .wait s => P s
  | .fail _ _ s => P s

theorem Near.bind_all (P : State → Prop) (r : Near) (f : List Byte → State → Near) (hr : r.all P)
    (hf : ∀ bs s, P s → (f bs s).all P) : (r.bind f).all P := by
  cases r with
  | ok bs s => exact hf bs s hr
  | wait s => exact hr
  | fail c v s => exact hr

theorem noteFault_memWf (s : State) (die space : Nat) (va : W64) (w : Bool) (h : s.memWf) :
    (s.noteFault die space va w).memWf := by
  refine s.memWf_updDie die _ (fun hx => ?_) h
  split
  · exact hx
  · exact hx

/-- What translation at the owning die comes to. -/
def OwnerX.all (P : State → Prop) : OwnerX → Prop
  | .at_ _ s => P s
  | .absent s => P s
  | .fail _ s => P s

/-- Bursts that are counted leave the memory as it is. -/
theorem Die.heatWalk_mem (d : Die) (space : Nat) (va : W64) : (d.heatWalk space va).mem = d.mem := by
  have fold : ∀ (ps : List (Nat × Nat)) (d : Die), (ps.foldl (fun d p => d.heat p.1 p.2 8) d).mem = d.mem := by
    intro ps
    induction ps with
    | nil => exact fun _ => rfl
    | cons p ps ih => exact fun d => ih (d.heat p.1 p.2 8)
  exact fold _ _

theorem ownerXlat_memWf (s : State) (die space : Nat) (va : W64) (r w : Bool) (h : s.memWf) :
    (ownerXlat s die space va r w).all State.memWf := by
  have hset : ∀ tlb, (s.setDie die { s.die die with tlb := tlb }).memWf := fun tlb => State.memWf_setDie h (h die)
  have hwalk : ∀ tlb, (s.setDie die { (s.die die).heatWalk space va with tlb := tlb }).memWf := fun tlb =>
    State.memWf_setDie h ((congrArg Memory.wf (Die.heatWalk_mem _ _ _)).trans (h die))
  unfold ownerXlat
  simp only
  split
  · exact h
  · split
    · split
      · split
        · exact hset _
        · split
          · exact hset _
          · exact hset _
      · exact hset _
    · split
      · exact noteFault_memWf s die space va w h
      · exact h
      · split
        · split
          · exact hwalk _
          · split
            · exact hwalk _
            · exact hwalk _
        · exact hwalk _

/-- A fold of changes each of which keeps the memories' form keeps it. -/
theorem State.memWf_foldl {α : Type} (f : State → α → State) (hf : ∀ s a, s.memWf → (f s a).memWf) :
    ∀ (l : List α) (s : State), s.memWf → (l.foldl f s).memWf
  | [], _, h => h
  | a :: l, _, h => memWf_foldl f hf l _ (hf _ a h)

theorem State.turnAway_memWf (s : State) (die tier off n : Nat) (h : s.memWf) : (s.turnAway die tier off n).memWf :=
  State.memWf_foldl _ (fun s _ hs => s.memWf_updDie die _ (fun hx => hx) hs) _ _ h

theorem ownerPlace_memWf (s : State) (die space : Nat) (va : W64) (n : Nat) (r w : Bool) (f : Place → State → Near)
    (hf : ∀ p x, x.memWf → (f p x).all State.memWf) (h : s.memWf) : (ownerPlace s die space va n r w f).all State.memWf := by
  have hx := ownerXlat_memWf s die space va r w h
  unfold ownerPlace
  split <;> rename_i e <;> rw [e] at hx
  · exact hx
  · exact hx
  · split
    · exact State.turnAway_memWf _ _ _ _ _ hx
    · exact hf _ _ hx

theorem FarLine.writeBack_memWf (x : FarLine) (s : State) (h : s.memWf) : (x.writeBack s).memWf := by
  unfold FarLine.writeBack
  split
  · exact State.write_memWf s _ _ _ _ _ h
  · exact h

theorem State.dropLines_memWf (s : State) (owner : Nat) (t : Token) (holder : Nat × Nat) (h : s.memWf) :
    (s.dropLines owner t holder).memWf := by
  unfold State.dropLines
  split
  · exact h
  · exact State.memWf_foldl _ (fun s x hs => x.writeBack_memWf s hs) _ _ (s.memWf_updDie _ _ (fun hx => hx) h)

theorem State.retoken_memWf (s : State) (owner : Nat) (t : Token) (hs : List (Nat × Nat)) (h : s.memWf) :
    (s.retoken owner t hs).memWf :=
  State.memWf_updDie _ _ _ (fun hx => hx)
    (State.memWf_foldl _ (fun s x hs => s.dropLines_memWf owner t x hs) _ _ h)

/-- The revocations that an uncached access calls for keep the memories' form: what is dirty is written back. -/
theorem State.revokeFor_memWf (s : State) (me : Nat × Nat) (owner space : Nat) (va : W64) (n : Nat) (w : Bool) (h : s.memWf) :
    (s.revokeFor me owner space va n w).memWf :=
  State.memWf_foldl _ (fun s t hs => s.retoken_memWf owner t _ hs) _ _ h

theorem nearRead_memWf (s : State) (die space : Nat) (va : W64) (n : Nat) (h : s.memWf) :
    (nearRead s die space va n).all State.memWf := by
  refine ownerPlace_memWf s die space va n true false _ (fun p x hx => ?_) h
  have hr := State.read_memWf _ p.die p.tier p.off n (x.revokeFor_memWf (x.package, die) die space va n false hx)
  split <;> rename_i e <;> rw [e] at hr <;> exact hr

theorem nearWrite_memWf (s : State) (die space : Nat) (va : W64) (bs : List Byte) (h : s.memWf) :
    (nearWrite s die space va bs).all State.memWf := by
  refine ownerPlace_memWf s die space va bs.length false true _ (fun p x hx => ?_) h
  have hw := State.write_memWf _ p.die p.tier p.off bs p.klock (x.revokeFor_memWf (x.package, die) die space va bs.length true hx)
  split <;> rename_i e <;> rw [e] at hw <;> exact hw

/-- A read at a virtual address of a space keeps the memories' form. -/
theorem millRead_memWf (s : State) (space va n : Nat) (h : s.memWf) : (millRead s space va n).all State.memWf := by
  have fold : ∀ (ps : List (Nat × Nat)) (r : Near), r.all State.memWf →
      (ps.foldl (fun acc p => acc.bind fun bs s =>
        (nearRead s (p.1 / 2 ^ 55 % 8) space (w64 p.1) p.2).bind fun more s => .ok (bs ++ more) s) r).all State.memWf := by
    intro ps
    induction ps with
    | nil => exact fun _ hr => hr
    | cons p ps ih =>
      intro r hr
      exact ih _ (r.bind_all _ _ hr fun bs x hx =>
        Near.bind_all _ _ _ (nearRead_memWf x _ _ _ _ hx) fun _ _ hy => hy)
  exact fold _ _ h

/-- A write at a virtual address of a space keeps the memories' form. -/
theorem millWrite_memWf (s : State) (space va : Nat) (bs : List Byte) (h : s.memWf) :
    (millWrite s space va bs).all State.memWf := by
  have fold : ∀ (ps : List (Nat × Nat)) (r : Near), r.all State.memWf →
      (ps.foldl (fun acc p => acc.bind fun _ s =>
        nearWrite s (p.1 / 2 ^ 55 % 8) space (w64 p.1) ((bs.drop (p.1 - va)).take p.2)) r).all State.memWf := by
    intro ps
    induction ps with
    | nil => exact fun _ hr => hr
    | cons p ps ih =>
      intro r hr
      exact ih _ (r.bind_all _ _ hr fun _ x hx => nearWrite_memWf x _ _ _ _ hx)
  exact fold _ _ h

end Sys2Proof.Machine
end

