-- ==== Sys2Proof/Tests/Slice0.lean ====
section
/-! SUPPORT. Tests: words laid out from the spec's encodings, results the spec works out, ill-formed terms, and for every
statement with hypotheses states and operands that meet them. -/

namespace Sys2Proof.Tests
open Sys2Proof.Machine Sys2Proof.Spec

set_option maxRecDepth 10000
set_option Elab.async false
set_option synthInstance.maxSize 2048
set_option linter.unusedVariables false

/-! ## Small states -/

/-- A die whose functions are all ready. -/
def readyDie : Die := { dg := [(500, BitVec.allOnes 64)], keys := [0] }
/-- Core 0 running 400 words of text, all at address 0. -/
def runner : Core := { run := .running, text := { len := 400, rows := [{ space := 0, image := 0, row := 0, words := List.replicate 128 0x0001 }] } }
/-- Text that begins with some words. -/
def textOf (ws : List Half) : Text :=
  { len := 400, rows := [{ space := 0, image := 0, row := 0, words := ws ++ List.replicate (128 - ws.length) 0x0001 }] }
/-- A page of 2 MiB at address 0, read and written, in the fast tier from its first byte. -/
def page0 : TlbEntry := { space := 0, base := 0, size := 3, leaf := 399 }
/-- A package in which only core 0 runs, with an engine's stack. -/
def at_ (t : Engine) (st : List W64) (f : Core → Core) : State :=
  { State.reset with
    on := true
    cycle := 10
    dies := [(0, readyDie)]
    cores := [(0, f ({ runner with tlb := [page0] }.updEn t fun x => { x with active := true, stack := st }))] }
/-- A ready die whose tables map the addresses of space 0 below 2 MiB to the fast tier, which holds some bytes below 4,096. -/
def tables : SMap Byte :=
  [(4096, 1), (4098, 2), (8192, 1), (8194, 3), (12288, 1), (12290, 4), (16384, 0x8F), (16385, 7)]
def pagedDie (bs : SMap Byte) : Die :=
  { readyDie with
    dg := [(320, 0x10001), (500, BitVec.allOnes 64)]
    mem := { fast := bs ++ tables } }
/-- A level of one task to each unit, a task's record, and a launch of some tasks with one frame. -/
def flat (domain : Nat) : Level := { domain := domain, scope := 2, nreg := 0, extent := 4, addr := 0 }
def plain : TaskRec :=
  { anchor := 0, arg0 := 5, arg1 := 7, entry := 0, timed := false, core := 0, start := 0, preds := [], cnt := 0 }
def tasks (rs : List TaskRec) (ts : List TaskSt) : Launch :=
  { id := 0, space := 0, sys := false, handle := true, text := 1024, textw := 1, tail := 0xFFFF, stat := 2048, frames := 65536
    nframe := 1, levels := [flat 0], recs := rs, tasks := ts }
def ref : TaskRef := { die := 0, launch := 0, task := 0 }
/-- A package whose die 0 has page tables, some bytes of memory and some launches. -/
def runs (bs : SMap Byte) (ls : List Launch) (f : Core → Core) : State :=
  { (at_ .c [] f).updDie 0 fun _ => { pagedDie bs with launches := ls } with pk := [(1, 1)] }
/-- A launch record at address 256: one task, its record at 1,536, its text at 1,024, its status word at 2,048. -/
def record : SMap Byte :=
  [(256, 0x31), (257, 0x43), (258, 0x4E), (259, 0x4C), (260, 1), (265, 4), (272, 1), (274, 0xFF), (275, 0xFF), (276, 1)
  , (281, 6), (313, 8), (388, 1)]
def recOf {α : Type} (x : α) : RecOut α → α × State
  | .ok y s => (y, s)
  | _ => (x, .reset)
def nearOf : Near → List Byte × State
  | .ok b s => (b, s)
  | _ => ([], .reset)
/-- What a far target, a run of pages and an effect come to. -/
def farOf : FarX → FarTo × State
  | .ok t s => (t, s)
  | _ => ({ die := 0, peer := none, off := 0, mt := 0, loc := none }, .reset)
def pagesOf : Pages → List CopyPage × State
  | .ok p s => (p, s)
  | _ => ([], .reset)
def resOf : Res → State
  | .ok s => s
  | _ => .reset
def atOf : Xlat → Place × State
  | .at_ p s => (p, s)
  | _ => ({ die := 0, peer := none, tier := 0, off := 0, rd := false, w := false, x := false, ra := false, mt := 0, klock := false
            size := 0 }, .reset)
theorem atOf_eq (x : Xlat) (h : (match x with | .at_ _ _ => true | _ => false) = true) : x = .at_ (atOf x).1 (atOf x).2 := by
  cases x <;> first | rfl | cases h
theorem nearOf_eq (x : Near) (h : (match x with | .ok _ _ => true | _ => false) = true) :
    x = .ok (nearOf x).1 (nearOf x).2 := by
  cases x <;> first | rfl | cases h
def outOf : Out → State
  | .next s => s
  | _ => .reset
theorem outOf_eq (x : Out) (h : (match x with | .next _ => true | _ => false) = true) : x = .next (outOf x) := by
  cases x <;> first | rfl | cases h
/-- A package has canonical memories if the dies it lists have. -/
theorem canonical_of_dies (s : State) (h : (s.dies.all fun p => Memory.wf p.2.mem) = true) : MemoryCanonical s := by
  have get : ∀ m : SMap Die, (m.all fun p => Memory.wf p.2.mem) = true → ∀ d, Memory.wf (SMap.get {} m d).mem = true := by
    intro m
    induction m with
    | nil => exact fun _ _ => rfl
    | cons p m ih =>
      intro h d
      simp only [List.all_cons, Bool.and_eq_true] at h
      unfold SMap.get
      split
      · exact h.1
      · exact ih h.2 d
  exact get s.dies h
/-- Under the masks of reset an offset names its own cell. -/
theorem cells_plain (d : Die) (h : d.plainHash = true) : CellsDistinct d := by
  intro a b hab
  simpa [Die.cellOf, h] using hab
/-- What a result that is no refusal comes to. -/
theorem exceptOf_eq {α β : Type} [DecidableEq β] (x : Except α β) (y : β) (h : (match x with | .ok z => decide (z = y) | _ => false) = true) :
    x = .ok y := by
  cases x with
  | error e => cases h
  | ok z => exact congrArg Except.ok (of_decide_eq_true h)
theorem errorOf_eq {α β : Type} [DecidableEq α] (x : Except α β) (y : α) (h : (match x with | .error z => decide (z = y) | _ => false) = true) :
    x = .error y := by
  cases x with
  | ok e => cases h
  | error z => exact congrArg Except.error (of_decide_eq_true h)
/-- An access that does not wait. -/
theorem no_wait (x : Near) (h : (match x with | .wait _ => false | _ => true) = true) (w : State) : x ≠ .wait w := by
  rintro rfl
  cases h
/-- K.COPY of one element between two places of the fast tier, and what it comes to. -/
def copier : State :=
  at_ .k [256, 64, 9] fun k => { k with tlb := [{ page0 with leaf := 1423 }], kop := { k.kop with geo := { n := 1, eb := 4, ss := 1, ds := 1 } } }
def copier1 : State := (arrived .k copier).setStack .k [9]
def copier2 : List CopyPage × State := pagesOf (collectPages .k copier1 (copyOf copier1 64 256).wanted [])
def copier3 : State := (copier2.2.pinAll (copier2.2.pinsOf copier2.1)).getD .reset
def submitted : Copy :=
  { copyOf copier1 64 256 with pages := copier2.1, pins := copier2.2.pinsOf copier2.1, reads := (copyOf copier1 64 256).slotsOf false
                               writes := (copyOf copier1 64 256).slotsOf true }
/-- A copy of one element of the scratchpad; its only piece; a core with it. -/
def padCopy : Copy := { copyOf copier1 64 256 with geo := { n := 1, eb := 4, ss := 0, ds := 0 } }
def padPiece : Piece := { src := some 64, dst := some 256, n := 4 }
def copying (c : Copy) : State := at_ .k [] fun k => { (k.padWrite 64 [1, 2, 3, 4]) with kop := { k.kop with copies := [c] } }
def tookOf : Taken → List Byte × State
  | .ok bs _ s _ => (bs, s)
  | _ => ([], .reset)
/-- A word of M that follows a landed copy. -/
def followOn : Follow := { w := 0x6182, a := 3, rm := 1, cm := 1, dm := 1 }
def following : State :=
  at_ .k [] fun k => { k with
    kop := { k.kop with copies := [{ padCopy with landed := true, follow := some followOn }] }
    mat := { k.mat with claims := [(3, 1)], active := some { fmt := 2, sparse := false, data := List.replicate 512 1 } } }
/-- K.PIN of eight bytes, the pages it walks, and K.PIN.release of them. -/
def pinner : State := at_ .k [8, 64, 9] fun k => { k with tlb := [{ page0 with leaf := 1423 }] }
def walkOf (s : State) : List CopyPage × State := pagesOf (pinWalk s 72 2 64 [])
def pinned : State := (walkOf (arrived .k pinner)).2.keepPages []
def unpinner : State :=
  let p := walkOf pinner
  ((p.2.pinAll (p.2.pinsOf p.1)).getD .reset).updMe fun k => { k with kop := { k.kop with pins := p.2.pinsOf p.1 } }
/-- A collective of some ranks of this package, its source read or not. -/
def collective (ranks : List (Nat × Nat)) (sent : Option (List (List Byte))) : Coll :=
  { src := [1, 1, 0, 0, 1, 4], dst := [1, 1, 0, 1024, 1, 4], epi := false, cs := 64, csDie := 0, csTier := 0, csOff := 64, csKlock := false
    ranks := ranks, me := 0, ord := 0, tag := none, place := 0, pins := [], reads := [], writes := [], pages := [], sent := sent }
def collecting (c : Coll) : State := at_ .f [] fun k => { k with colls := [c] }
/-- A collective that has read its source, and a datum's place. -/
def tookColl : Took → Coll × State
  | .ok c s => (c, s)
  | _ => (collective [] none, .reset)
def datumOf : DatumAt → Nat × Nat × Nat × FarTo × State
  | .at_ d tier off t s => (d, tier, off, t, s)
  | _ => (0, 0, 0, { die := 0, peer := none, off := 0, mt := 0, loc := none }, .reset)
/-- A timed task's record, its launch, and a package in which it starts now. -/
def timedTask : TaskRec := { plain with timed := true, core := 0, start := 2 }
def timedLaunch : Launch := { tasks [timedTask] [.waiting] with t0 := some 5 }
def timedRun : State :=
  (runs [] [timedLaunch] fun k => k).setCore 0 { text := { rows := [{ space := 0, image := 1024, row := 0, words := [] }] } }
/-- F.COLL of two layouts that the core holds, and the states it goes through. -/
def coller : State :=
  at_ .f [64, 9] fun k => { k with
    tlb := [{ page0 with leaf := 1423 }]
    layouts := [(0, 1), (1, 1), (4, 1), (5, 4), (16, 1), (17, 1), (19, 1024), (20, 1), (21, 4)] }
def coller1 : State := (arrived .f coller).setStack .f [9]
def coller2 : State := resOf (readRanks (coller.me.layout 0).ranktab (coller.me.layout 0).ranks 0 [] coller1 fun _ s => .ok s)
def coller4 : List CopyPage × State := pagesOf (buffersPages false (coller.me.layout 0) (coller.me.layout 1) coller2 coller2.me.collPages)
def coller6 : List CopyPage × State := pagesOf (collectPages .f coller4.2 [(3, 64)] coller4.1)
def coller7 : State := (coller6.2.pinAll (coller6.2.pinsOf coller6.1)).getD .reset
/-- A flit of a type with its tag, and a link that has it on its way. -/
def flit (seq kv type : Nat) : Flit := { seq := seq, kv := kv, type := type, atag := Config.flitTag kv 0 (Flit.header { seq := seq, kv := kv, type := type }) [] }
def linked (x : Link) : State := { at_ .c [] id with links := [(0, x)] }
def headOf : Load (List Nat) → List Nat × State
  | .ok h s => (h, s)
  | _ => ([], .reset)
def badOf {α : Type} : Load α → State
  | .bad _ _ s => s
  | _ => .reset
def tableOf {α : Type} : Load α → Option α × State
  | .ok x s => (some x, s)
  | _ => (none, .reset)

/-! ### Frames: a die at rest whose memory-side TLB holds the page of a frame -/
/-- The page at address 0 as a memory-side TLB holds it. -/
def sidePage : TlbEntry := { space := 0, base := 0, size := 3, leaf := 1935 }
/-- A die at rest: its page is in its TLB, and no access to its memory waits or fails. -/
structure Calm (d : Die) : Prop where
  tlb : d.tlb = [sidePage]
  dg : d.dg = [(320, 0x10001), (500, BitVec.allOnes 64)]
  static_ : d.timed.static_ = []
  older : d.mem.older = []
  failed : d.mem.failed = []
  soft : d.mem.soft = []
  ver : d.mem.ver = []
  base : d.mem.baseVer = 0
  held : d.heldAt = []
  owed : d.timed.owed = []
  tokens : d.tokens = []
theorem Calm.reg360 {d : Die} (h : Calm d) : d.reg 360 = 0 := by rw [Die.reg, h.dg]; decide
theorem Calm.reg500 {d : Die} (h : Calm d) : d.reg 500 = BitVec.allOnes 64 := by rw [Die.reg, h.dg]; decide
theorem Calm.keyCur {d : Die} (h : Calm d) : d.keyCur = 0 := by rw [Die.keyCur, h.reg360]; decide
theorem Calm.keyPass {d : Die} (h : Calm d) : d.keyPass = false := by rw [Die.keyPass, h.reg360]; decide
theorem Calm.ready {d : Die} (h : Calm d) (off : Nat) : d.lineReady 0 off = true := by
  have : d.stackOf (off / 256 * 256) < 64 := by
    unfold Die.stackOf Die.hashBit parity
    omega
  simp only [Die.lineReady, h.reg500, BitVec.getLsbD_allOnes, this, decide_true, if_true]
theorem Calm.verOf {d : Die} (h : Calm d) (off : Nat) : d.verOf 0 off = 0 := by
  simp [Die.verOf, h.ver, h.keyPass, h.base]
theorem Calm.lineOk {d : Die} (h : Calm d) (off : Nat) : d.lineOk 0 off = true := by
  simp [Die.lineOk, h.ready, h.failed, h.verOf, Die.live, h.keyCur, Die.placed, h.older, SMap.get]
theorem Calm.sealLine {d : Die} (h : Calm d) (line : Nat) : Calm (d.sealLine 0 line 0) := by
  have hv : Die.verOf { d with mem := d.mem.renew 0 line } 0 line = 0 := by
    have hk : Die.keyPass { d with mem := d.mem.renew 0 line } = false := h.keyPass
    unfold Die.verOf
    rw [hk]
    simp [Mem.renew, h.ver, h.base, SMap.erase]
  have e : d.sealLine 0 line 0 = { d with mem := d.mem.renew 0 line } := by
    simp only [Die.sealLine, hv, if_true]
  rw [e]
  exact ⟨h.tlb, h.dg, h.static_, h.older, by simp [Mem.renew, h.failed, SMap.set, SMap.erase],
    by simp [Mem.renew, h.soft, SMap.set, SMap.erase], by simp [Mem.renew, h.ver, SMap.erase], h.base, h.held, h.owed, h.tokens⟩
theorem Calm.sealLines (ls : List Nat) (v : Die → Nat) (hv : ∀ d, Calm d → v d = 0) {d : Die} (h : Calm d) :
    Calm (ls.foldl (fun d l => d.sealLine 0 l (v d)) d) := by
  induction ls generalizing d with
  | nil => exact h
  | cons l ls ih => exact ih (by show Calm (d.sealLine 0 l (v d)); rw [hv d h]; exact h.sealLine l)
theorem Calm.heat {d : Die} (h : Calm d) (off n : Nat) : Calm (d.heat 0 off n) :=
  ⟨h.tlb, h.dg, h.static_, h.older, h.failed, h.soft, h.ver, h.base, h.held, h.owed, h.tokens⟩
theorem Calm.putBytes {d : Die} (h : Calm d) (off : Nat) (bs : List Byte) :
    Calm { d with mem := d.mem.putBytes d 0 off bs } := by
  have hp : d.plainHash = true := by
    unfold Die.plainHash Die.reg
    rw [h.dg]
    decide
  have e : d.mem.putBytes d 0 off bs = { d.mem with fast := SMap.setRun blank d.mem.fast off bs } := by
    simp [Mem.putBytes, hp]
  rw [e]
  exact ⟨h.tlb, h.dg, h.static_, h.older, h.failed, h.soft, h.ver, h.base, h.held, h.owed, h.tokens⟩
theorem Calm.poke {d : Die} (h : Calm d) (off : Nat) (bs : List Byte) :
    ∃ x, d.poke 0 off bs false = some x ∧ Calm x := by
  have hall : (linesOf off bs.length).all (fun l => d.lineReady 0 l && ((decide (off ≤ l) && decide (l + 256 ≤ off + bs.length)) || d.lineOk 0 l)) = true := by
    simp [h.ready, h.lineOk]
  refine ⟨(linesOf off bs.length).foldl (fun d l => d.sealLine 0 l (if false = true then 15 else d.keyCur))
      { d with mem := d.mem.putBytes d 0 off bs }, ?_, ?_⟩
  · unfold Die.poke
    simp only [hall, if_true]
  · exact Calm.sealLines _ (fun d => if false = true then 15 else d.keyCur) (fun x hx => by simpa using hx.keyCur) (h.putBytes off bs)
theorem Calm.peek {d : Die} (h : Calm d) (off n : Nat) : d.peek 0 off n = some (d.bytesAt 0 off n) := by
  have hall : (linesOf off n).all (fun l => d.lineOk 0 l) = true := by simp [h.lineOk]
  simp [Die.peek, h.lineOk]
theorem Calm.corrects (ls : List Nat) {d : Die} (h : Calm d) : ls.foldl (fun d l => d.correct 0 l) d = d := by
  induction ls with
  | nil => rfl
  | cons l ls ih =>
    have e : d.correct 0 l = d := by simp [Die.correct, h.soft, SMap.get]
    show ls.foldl _ (d.correct 0 l) = d
    rw [e]; exact ih
theorem Calm.mend {d : Die} (h : Calm d) (off n : Nat) : d.mend 0 off n = d := h.corrects _
/-- The package with a die at rest. -/
theorem setDie_zero (s : State) (d x : Die) (h : s.dies = [(0, d)]) : s.setDie 0 x = { s with dies := [(0, x)] } := by
  simp [State.setDie, h, SMap.put, SMap.erase, SMap.insert]
theorem die_zero (s : State) (d : Die) (h : s.dies = [(0, d)]) : s.die 0 = d := by simp [State.die, h, SMap.get]
/-- A package of one die at rest. -/
def AtRest (s : State) : Prop := ∃ d, s.dies = [(0, d)] ∧ Calm d
def framePlace (va : Nat) : Place :=
  { die := 0, peer := none, tier := 0, off := va, rd := true, w := true, x := true, ra := true, mt := 0, klock := false, size := 3 }
theorem AtRest.owner {s : State} (h : AtRest s) (va : Nat) (hv : va < 2 ^ 21) (r w : Bool) :
    ∃ s', ownerXlat s 0 0 (w64 va) r w = .at_ (framePlace va) s' ∧ AtRest s' := by
  obtain ⟨d, hd, hc⟩ := h
  have hn : (w64 va).toNat = va := by simp only [w64, BitVec.toNat_ofNat]; omega
  have hb : ¬ (bits (w64 va) 58 6 ≠ 0 ∨ bits (w64 va) 55 3 ≠ 0) := by
    simp only [bits, hn]; omega
  have hz : va / 2 ^ 21 = 0 := by omega
  have hm : va % 2 ^ 21 = va := by omega
  have hf : tlbFind d.tlb 0 (w64 va) = some sidePage := by
    have : va / 2097152 = 0 := by omega
    simp [tlbFind, hc.tlb, hn, sidePage, pageSize, this]
  have ht : ({ d with tlb := tlbTouch d.tlb sidePage } : Die) = d := by
    rw [hc.tlb]
    have : tlbTouch [sidePage] sidePage = [sidePage] := by decide
    rw [this, ← hc.tlb]
  have hp : placeOf d 0 (w64 va) 1935 = some (framePlace va) := by
    have e1 : pteAp 1935 = false := by decide
    have e2 : pageSize (pteSize 1935) = 2 ^ 21 := by decide
    have e3 : pteFrame 1935 * 4096 + va = va := by
      have : pteFrame 1935 = 0 := by decide
      omega
    simp only [placeOf, e1, e2, hn, hm, e3, Bool.not_false, if_true]
    rfl
  refine ⟨s, ?_, d, hd, hc⟩
  have hs : s.setDie 0 d = s := by rw [setDie_zero s d d hd, ← hd]
  unfold ownerXlat
  rw [if_neg hb]
  simp only [die_zero s d hd, hf, ht, hs]
  rw [show sidePage.leaf = 1935 from rfl, hp]
  cases r <;> cases w <;> rfl
theorem AtRest.waits {s : State} (h : AtRest s) (off n : Nat) : s.waits 0 0 off n = false := by
  obtain ⟨d, hd, hc⟩ := h
  simp [State.waits, State.anyStatic, State.anyHeld, State.anyOwed, State.unready, die_zero s d hd, hc.static_, hc.ready, hc.held, hc.owed]
theorem AtRest.revoke {s : State} (h : AtRest s) (me : Nat × Nat) (va : W64) (n : Nat) (w : Bool) : s.revokeFor me 0 0 va n w = s := by
  obtain ⟨d, hd, hc⟩ := h
  simp [State.revokeFor, die_zero s d hd, hc.tokens]
theorem AtRest.write {s : State} (h : AtRest s) (va : Nat) (hv : va < 2 ^ 21) (bs : List Byte) :
    ∃ s', nearWrite s 0 0 (w64 va) bs = .ok [] s' ∧ AtRest s' := by
  obtain ⟨s1, h1, hr⟩ := h.owner va hv false true
  obtain ⟨d, hd, hc⟩ := id hr
  obtain ⟨x, hx, hcx⟩ := (hc.heat va bs.length).poke va bs
  refine ⟨s1.setDie 0 x, ?_, x, by rw [setDie_zero s1 d x hd], hcx⟩
  have hw : s1.write 0 0 va bs false = (s1.setDie 0 x, true) := by
    simp only [State.write, die_zero s1 d hd, (hc.heat va bs.length).mend, hx]
  unfold nearWrite ownerPlace
  simp only [h1, framePlace, hr.waits, hr.revoke, hw]
  rfl
theorem AtRest.read {s : State} (h : AtRest s) (va n : Nat) (hv : va < 2 ^ 21) :
    ∃ bs s', nearRead s 0 0 (w64 va) n = .ok bs s' ∧ AtRest s' := by
  obtain ⟨s1, h1, hr⟩ := h.owner va hv true false
  obtain ⟨d, hd, hc⟩ := id hr
  have hc' := hc.heat va n
  refine ⟨(d.heat 0 va n).bytesAt 0 va n, s1.setDie 0 (d.heat 0 va n), ?_, d.heat 0 va n, by rw [setDie_zero s1 d _ hd], hc'⟩
  · have hw : s1.read 0 0 va n = (s1.setDie 0 (d.heat 0 va n), some ((d.heat 0 va n).bytesAt 0 va n)) := by
      simp only [State.read, die_zero s1 d hd, hc'.peek, hc'.corrects]
    unfold nearRead ownerPlace
    simp only [h1, framePlace, hr.waits, hr.revoke, hw]
    rfl
theorem cutPages_lt : ∀ (m va n : Nat), ∀ p ∈ cutPages m va n, p.1 < va + n
  | 0, _, _, p, hp => by simp [cutPages] at hp
  | m + 1, va, n, p, hp => by
    unfold cutPages at hp
    split at hp
    · simp at hp
    · rcases List.mem_cons.mp hp with rfl | hp
      · simp; omega
      · have := cutPages_lt m _ _ p hp
        omega
theorem AtRest.pieces (f : Nat × Nat → List Byte) (ps : List (Nat × Nat)) (hp : ∀ p ∈ ps, p.1 < 2 ^ 21) {s : State} (h : AtRest s) :
    ∃ s', ps.foldl (fun acc p => acc.bind fun _ s => nearWrite s (p.1 / 2 ^ 55 % 8) 0 (w64 p.1) (f p)) (Near.ok [] s) = .ok [] s' ∧
      AtRest s' := by
  induction ps generalizing s with
  | nil => exact ⟨s, rfl, h⟩
  | cons p ps ih =>
    have h0 := hp p (by simp)
    obtain ⟨s1, h1, hr⟩ := h.write p.1 h0 (f p)
    have hz : p.1 / 2 ^ 55 % 8 = 0 := by omega
    obtain ⟨s2, h2, hr2⟩ := ih (fun q hq => hp q (by simp [hq])) hr
    refine ⟨s2, ?_, hr2⟩
    simp only [List.foldl_cons, Near.bind, hz, h1]
    exact h2
theorem AtRest.millWrite {s : State} (h : AtRest s) (va : Nat) (bs : List Byte) (hv : va + bs.length ≤ 2 ^ 21) :
    ∃ s', millWrite s 0 va bs = .ok [] s' ∧ AtRest s' :=
  AtRest.pieces _ _ (fun p hp => by have := cutPages_lt _ _ _ p hp; omega) h
theorem AtRest.areas (at_ : Nat) (as : List (Nat × List Byte)) (hp : ∀ p ∈ as, at_ + p.1 + p.2.length ≤ 2 ^ 21) {s : State} (h : AtRest s) :
    ∃ s', as.foldl (fun (acc : Near) p => acc.bind fun _ s => Machine.millWrite s 0 (at_ + p.1) p.2) (.ok [] s) = .ok [] s' ∧ AtRest s' := by
  induction as generalizing s with
  | nil => exact ⟨s, rfl, h⟩
  | cons p ps ih =>
    obtain ⟨s1, h1, hr⟩ := h.millWrite _ _ (hp p (by simp))
    obtain ⟨s2, h2, hr2⟩ := ih (fun q hq => hp q (by simp [hq])) hr
    refine ⟨s2, ?_, hr2⟩
    simp only [List.foldl_cons, Near.bind, h1]
    exact h2
theorem AtRest.readPieces (ps : List (Nat × Nat)) (hp : ∀ p ∈ ps, p.1 < 2 ^ 21) {s : State} (h : AtRest s) (bs : List Byte) :
    ∃ out s', ps.foldl (fun acc p => acc.bind fun bs s =>
      (nearRead s (p.1 / 2 ^ 55 % 8) 0 (w64 p.1) p.2).bind fun more s => .ok (bs ++ more) s) (Near.ok bs s) = .ok out s' := by
  induction ps generalizing s bs with
  | nil => exact ⟨bs, s, rfl⟩
  | cons p ps ih =>
    have h0 := hp p (by simp)
    obtain ⟨more, s1, h1, hr⟩ := h.read p.1 p.2 h0
    have hz : p.1 / 2 ^ 55 % 8 = 0 := by omega
    obtain ⟨out, s2, h2⟩ := ih (fun q hq => hp q (by simp [hq])) hr (bs ++ more)
    refine ⟨out, s2, ?_⟩
    simp only [List.foldl_cons, Near.bind, hz, h1]
    exact h2
theorem AtRest.millRead {s : State} (h : AtRest s) (va n : Nat) (hv : va + n ≤ 2 ^ 21) :
    ∃ bs s', Machine.millRead s 0 va n = .ok bs s' :=
  AtRest.readPieces _ (fun p hp => by have := cutPages_lt _ _ _ p hp; omega) h []
theorem padTo_length (n : Nat) (bs : List Byte) : (padTo n bs).length = n := by
  simp [padTo]; omega
theorem slice_length (d : Byte) (m : SMap Byte) (k n : Nat) : (SMap.slice d m k n).length = n := by
  rw [SMap.slice_eq, SMap.getRun_length]
theorem bitBytes_length (n : Nat) (f : Nat → Bool) : (bitBytes n f).length = n := by simp [bitBytes]

/-- A package of one task that is to be saved or has been, its page in the memory-side TLB. -/
def framed (l : Launch) (f : Core → Core) (g : Die → Die) : State :=
  (runs [] [l] fun k => { f k with task := some ref }).updDie 0 fun d => g { d with tlb := [sidePage] }
theorem framed_rest (l : Launch) (f : Core → Core) : AtRest (framed l f fun d => d) :=
  ⟨_, rfl, ⟨rfl, rfl, rfl, rfl, rfl, rfl, rfl, rfl, rfl, rfl, rfl⟩⟩
theorem framed_saved (l : Launch) (f : Core → Core) (x : List Saved) : AtRest (framed l f fun d => { d with saved := x }) :=
  ⟨_, rfl, ⟨rfl, rfl, rfl, rfl, rfl, rfl, rfl, rfl, rfl, rfl, rfl⟩⟩
theorem leBytes_length (v n : Nat) : (leBytes v n).length = n := by
  induction n generalizing v with
  | zero => rfl
  | succ n ih => simp [leBytes, ih]
theorem bytesOf_length (vs : List W64) : (bytesOf vs).length = 8 * vs.length := by
  induction vs with
  | nil => rfl
  | cons v vs ih => simp only [bytesOf, List.flatMap_cons, List.length_append, leBytes_length, List.length_cons] at ih ⊢; omega
/-- The areas of a frame end below its last byte. -/
theorem frame_lengths (k : Core) : ∀ p ∈ k.frameAreas 0, p.1 + p.2.length ≤ 0x6F000 := by
  have pair : ∀ (a n : Nat) (bs : List Byte), bs.length = n → a + n ≤ 0x6F000 → (a, bs).1 + (a, bs).2.length ≤ 0x6F000 :=
    fun a n bs h h1 => by subst h; exact h1
  intro p hp
  simp only [Core.frameAreas, List.mem_cons, List.not_mem_nil, or_false] at hp
  rcases hp with rfl | rfl | rfl | rfl | rfl | rfl | rfl | rfl | rfl | rfl | rfl | rfl | rfl | rfl | rfl | rfl | rfl | rfl |
    rfl | rfl | rfl | rfl | rfl | rfl <;>
  refine pair _ _ _ (by simp only [padTo_length, slice_length, bitBytes_length, leBytes_length, bytesOf_length, List.length_flatMap, allEngines, List.map_const', List.length_append, List.length_map, List.length_cons, Vector.length_toList]; rfl) (by decide)
/-- The save of a task's frame is written. -/
theorem frame_written (l : Launch) (f : Core → Core) (h0 : l.space = 0) (h1 : l.frameAt 0 = 65536) :
    ∃ bs s', writeFrame (framed l f fun d => d) l.space (l.frameAt 0) (framed l f fun d => d).actor
      (State.me (framed l f fun d => d)).context = .ok bs s' := by
  rw [h0, h1, show (framed l f fun d => d).actor = 0 from rfl]
  obtain ⟨s', h, -⟩ := AtRest.areas 65536 (Core.frameAreas (State.me (framed l f fun d => d)).context 0)
    (fun p hp => by have := frame_lengths _ p hp; omega) (framed_rest l f)
  exact ⟨[], s', h⟩
/-- A frame is read. -/
theorem frame_read (l : Launch) (f : Core → Core) (x : List Saved) (h0 : l.space = 0) (h1 : l.frameAt 0 = 65536) :
    ∃ bs s', millRead (framed l f fun d => { d with saved := x }) l.space (l.frameAt 0) 454656 = .ok bs s' := by
  rw [h0, h1]
  exact (framed_saved l _ x).millRead 65536 454656 (by decide)
/-- One task's frame to save, and one to read back. -/
def savedTask : Launch := tasks [plain] [.placed 0]
theorem save_written : ∃ bs s', writeFrame (framed savedTask (fun k => { k with run := .storing .preempt 4, frame := some 0 }) fun d => d)
    savedTask.space (savedTask.frameAt 0)
    (framed savedTask (fun k => { k with run := .storing .preempt 4, frame := some 0 }) fun d => d).actor
    (State.me (framed savedTask (fun k => { k with run := .storing .preempt 4, frame := some 0 }) fun d => d)).context = .ok bs s' :=
  frame_written _ _ rfl rfl
def readTask : Launch := { savedTask with used := [0] }
def kept : Saved := { launch := 0, frame := 0, left := 0, bound := false, core := runner }
theorem frame_readable : ∃ bs s', millRead (framed readTask (fun k => { k with run := .restoring false 4, frame := some 0 })
    fun d => { d with saved := [kept] }) readTask.space (readTask.frameAt 0) 454656 = .ok bs s' :=
  frame_read _ _ _ rfl rfl

/-! ## Words and what they read as -/
/-- Words laid out from the encodings of the words every engine has (02 R25-R43 and its chapter), and what they read as. -/
theorem test_decode_any : (([
    ([0x55B5], .literalPush .e 1461),
    ([0x7DC0], .literalExtend .m 1472),
    ([0x800B], .wait .k 11),
    ([0xA046], .stkDup .w 6),
    ([0xC051], .stkDrop .f 1),
    ([0x2064], .stkSwap .a 4),
    ([0x4077], .stkOver .e 7)] : List (List Half × Instr)).all fun p => decide (reads p.1 = some p.2)) = true := by decide +kernel
/-- Words laid out from the encodings of tag C (04) (02 R25-R43 and its chapter), and what they read as. -/
theorem test_decode_c : (([
    ([0x008D], .cGetX 13),
    ([0x0091], .cGetP 1),
    ([0x00A0], .cGetPmask),
    ([0x00B2], .cGetLidx 2),
    ([0x00C9], .cPutX 9),
    ([0x00D4], .cPutP 4),
    ([0x00E0], .cPutPmask),
    ([0x0100], .cAdd),
    ([0x0125], .cAddImm 5),
    ([0x0140], .cSub),
    ([0x017B], .cSubImm 27),
    ([0x0200], .cAnd),
    ([0x0231], .cAndImm 17),
    ([0x0240], .cOr),
    ([0x0267], .cOrImm 7),
    ([0x0280], .cXor),
    ([0x02BD], .cXorImm 29),
    ([0x0180], .cMul),
    ([0x0190], .cMulh),
    ([0x01A0], .cMulhu),
    ([0x01C1], .cDiv 1),
    ([0x01C3], .cRem 1),
    ([0x01C5], .cDivrem 1),
    ([0x02D0], .cShift 2),
    ([0x02E8], .cBitop 1),
    ([0x0308], .cCmp 1),
    ([0x0359], .cSetp 3 1),
    ([0x0606], .cSel 6),
    ([0x0641], .cMinmax 1),
    ([0x06A1], .cPredCombine 4 1),
    ([0x06BD], .cPredSet 7 1),
    ([0x0380, 0x0482], .cBr 1154),
    ([0x0395, 0x0762], .cBrT 5 1890),
    ([0x03A1, 0x076D], .cBrF 1 1901),
    ([0x03B0, 0x04A3], .cBrNz 1187),
    ([0x03C0, 0x04AE], .cCall 1198),
    ([0x0400], .cRet),
    ([0x0444, 0x0799], .cLoopCount 4 1945),
    ([0x0440, 0x04CF], .cLoop 1231),
    ([0x0482], .cSend 2),
    ([0x04C5], .cRecv 5),
    ([0x050E], .cLd 1 1 2),
    ([0x0559], .cSt 3 1),
    ([0x0586, 0x07DB], .cCsr 6 2011),
    ([0x05D1, 0x07E6], .cCsw 17 2022)] : List (List Half × Instr)).all fun p => decide (reads p.1 = some p.2)) = true := by decide +kernel
/-- Words laid out from the encodings of tag S (05, 11, 12, 16, 18) (02 R25-R43 and its chapter), and what they read as. -/
theorem test_decode_s : (([
    ([0xE01C, 0xE7F1], .sFork 28 2033),
    ([0xE067], .sJoin 39),
    ([0xE080], .sLeg),
    ([0xE0CD], .sSign 13),
    ([0xE100], .sSlack),
    ([0xE141], .sLtload 1),
    ([0xE186, 0xF990], .sFence 6 51 8),
    ([0xE1C1], .sAcq 1),
    ([0xE1CC], .sAcqSh 4),
    ([0xE207], .sRel 7),
    ([0xE24A], .sStep 10),
    ([0xE255], .sStepDrop 5),
    ([0xE280], .sTrap),
    ([0xE2C0], .sEnd),
    ([0xE300], .sYield),
    ([0xE301], .sYieldForce),
    ([0xE340], .sBind),
    ([0xE341], .sBindU),
    ([0xE380], .sTokenShared),
    ([0xE381], .sTokenExcl),
    ([0xE382], .sTokenReturn)] : List (List Half × Instr)).all fun p => decide (reads p.1 = some p.2)) = true := by decide +kernel
/-- Words laid out from the encodings of tag A (06) (02 R25-R43 and its chapter), and what they read as. -/
theorem test_decode_a : (([
    ([0x2083, 0x2018], .aSfld 3 24),
    ([0x20CE], .aSgo 14),
    ([0x2109], .aSstop 9),
    ([0x2114], .aSstopDrain 4),
    ([0x240F], .aSpos 15),
    ([0x241A], .aSposSet 10),
    ([0x2141], .aLdq 1),
    ([0x2181], .aStq 1),
    ([0x21C3], .aLdg 3),
    ([0x2202], .aStg 2),
    ([0x2240], .aAlloc),
    ([0x2280], .aValidCnt),
    ([0x2281], .aValidFirst),
    ([0x2282], .aValidSet),
    ([0x22C0], .aPld),
    ([0x22C5], .aPldQueue 1),
    ([0x2300], .aPst),
    ([0x2308], .aPstPri),
    ([0x2305], .aPstQueue 1),
    ([0x230D], .aPstPriQueue 1),
    ([0x234F], .aAgen 15),
    ([0x2382], .aAlu 2),
    ([0x23C5], .aXqCount 5),
    ([0x23C9], .aXqFlush 1),
    ([0x23D3], .aXqDrop 3),
    ([0x23DE], .aXqPut 6)] : List (List Half × Instr)).all fun p => decide (reads p.1 = some p.2)) = true := by decide +kernel
/-- Words laid out from the encodings of tag E (07, 08) (02 R25-R43 and its chapter), and what they read as. -/
theorem test_decode_e : (([
    ([0x4080], .eShape),
    ([0x4081], .eShapeGet),
    ([0x40EF, 0x4106], .eMov 23 1 1 6),
    ([0x4105, 0x4C0A], .eAdd 2 1 12 1 2),
    ([0x415B, 0x5761], .eSub 13 1 23 12 1),
    ([0x41B1, 0x42B9], .eMul 24 1 2 23 1),
    ([0x41C7, 0x4D15, 0x4100], .eFma 3 1 13 2 1 1 1),
    ([0x421D, 0x586A], .eDiv 14 1 24 13 2),
    ([0x4273, 0x4301], .eSqrt 25 1 3 1),
    ([0x4289, 0x4E19], .eMin 4 1 14 3 1),
    ([0x42DF, 0x5971], .eMax 15 1 25 14 1),
    ([0x4335, 0x44CE], .eCmp 26 1 4 25 6),
    ([0x434B, 0x4F20, 0x5900], .eSelect 5 1 15 4 25),
    ([0x43A1, 0x5A7C], .eIadd 16 1 26 15 4),
    ([0x43F7, 0x45D7], .eImul 27 1 5 26 7),
    ([0x440D, 0x502A], .eLogic 6 1 16 5 2),
    ([0x4463, 0x5B85], .eShift 17 1 27 16 5),
    ([0x44B9, 0x46D9, 0x40BA], .eCvt 28 1 6 27 1 5 26),
    ([0x44CF, 0x5100, 0x461B], .eQuant 7 1 17 6 27),
    ([0x4500], .eAmax),
    ([0x4501], .eAmaxReset),
    ([0x4502], .eAmaxClear),
    ([0x4567, 0x5D07], .eRed 19 1 29 1 3),
    ([0x45BD, 0x4800], .eXpose 30 1 8),
    ([0x45D3, 0x5345, 0x5227], .ePerm 9 1 19 8 5 18 39),
    ([0x4619], .eRep 1 9),
    ([0x467F, 0x4902], .eSfn 31 1 9 2),
    ([0x4695, 0x5400], .eTpack 10 1 20),
    ([0x46C0, 0x5502], .eMask 21 2),
    ([0x4703, 0x4A07], .eXq 1 1 10 7)] : List (List Half × Instr)).all fun p => decide (reads p.1 = some p.2)) = true := by decide +kernel
/-- Words laid out from the encodings of tag M (09) (02 R25-R43 and its chapter), and what they read as. -/
theorem test_decode_m : (([
    ([0x6080], .mClaim),
    ([0x6081], .mClaimR),
    ([0x60C0], .mRelease),
    ([0x6118], .mWload 12),
    ([0x612F], .mWloadSp 23),
    ([0x6140], .mSwap),
    ([0x61AA], .mMma 5 2),
    ([0x6281], .mTmma 1),
    ([0x61ED, 0x616C], .mEpi 1 1 5 2 3 12),
    ([0x6200], .mRoute),
    ([0x6201], .mRouteGet),
    ([0x6244], .mAccClear 4),
    ([0x624F], .mAccClearpair 7),
    ([0x6252], .mAccLoad 2)] : List (List Half × Instr)).all fun p => decide (reads p.1 = some p.2)) = true := by decide +kernel
/-- Words laid out from the encodings of tag K (11) (02 R25-R43 and its chapter), and what they read as. -/
theorem test_decode_k : (([
    ([0x8085], .kGeoDim 5),
    ([0x8088], .kGeoRank),
    ([0x8090], .kGeoSpace),
    ([0x8098], .kGeoSig),
    ([0x80A0], .kGeoClear),
    ([0x80C0], .kCopy),
    ([0x8100], .kFollow),
    ([0x8140], .kCnt),
    ([0x8141], .kCntGet),
    ([0x81A8], .kFlag 40),
    ([0x81C3], .kCwait 3),
    ([0x8200], .kPin),
    ([0x8201], .kPinRelease),
    ([0x8240], .kConvSrc),
    ([0x8241], .kConvDst)] : List (List Half × Instr)).all fun p => decide (reads p.1 = some p.2)) = true := by decide +kernel
/-- Words laid out from the encodings of tag W (10) (02 R25-R43 and its chapter), and what they read as. -/
theorem test_decode_w : (([
    ([0xA08B], .wRows 2 3),
    ([0xA0CA], .wRstat 1 2),
    ([0xA100], .wTime),
    ([0xA101], .wTimeGet)] : List (List Half × Instr)).all fun p => decide (reads p.1 = some p.2)) = true := by decide +kernel
/-- Words laid out from the encodings of tag F (13 to 15) (02 R25-R43 and its chapter), and what they read as. -/
theorem test_decode_f : (([
    ([0xC0B6], .fAmo 6 3),
    ([0xC08D], .fAmoR 1 2),
    ([0xC0C1], .fCas 1),
    ([0xC0CF], .fCasM 3 1),
    ([0xC100], .fEnq),
    ([0xC101], .fEnqR),
    ([0xC140, 0xD142], .fChase 8 5 2),
    ([0xC19D], .fRld 3 1 1),
    ([0xC1D3], .fRst 2 3),
    ([0xC201], .fSkup 1),
    ([0xC203], .fSkupN 1),
    ([0xC241], .fSkq 1),
    ([0xC243], .fSkqN 1),
    ([0xC280], .fSkadd),
    ([0xC2D6], .fColl 1 1 2),
    ([0xC331], .fLayout 3 1),
    ([0xC340], .fDrain)] : List (List Half × Instr)).all fun p => decide (reads p.1 = some p.2)) = true := by decide +kernel

/-! ## Results the spec works out -/
/-- 5,000 is pushed as 2 and extended by 0x388 (02, table of example encodings). -/
theorem test_literal_5000 :
    ((outOf (exec (.literalExtend .c 0x388) (at_ .c [2] fun k => k))).me.en .c).stack = [5000] := by decide +kernel
/-- −5,000 is pushed as −3 and extended by 1,144 (02, table of example encodings). -/
theorem test_literal_minus_5000 :
    ((outOf (exec (.literalExtend .e 0x478) (at_ .e [-3] fun k => k))).me.en .e).stack = [-5000] := by decide +kernel
/-- dup 1 copies the second entry (02 R32). -/
theorem test_dup_1 : ((outOf (exec (.stkDup .a 1) (at_ .a [5, 7] fun k => k))).me.en .a).stack = [7, 5, 7] := by decide +kernel
/-- INT8 sadd of 100 and 100 gives 127 and SAT (07 R174); SHP is 1 by 1 INT8. -/
def bytePair (a b : Byte) (f : W64) : State :=
  at_ .e [] fun k => { k with vec := { k.vec with shp := f, v := [(1024, a), (2048, b)] } }
theorem test_sadd_int8 :
    SMap.get 0 (outOf (exec (.eIadd 3 0 1 2 2) (bytePair 100 100 6))).me.vec.v 3072 = 127 ∧
      (outOf (exec (.eIadd 3 0 1 2 2) (bytePair 100 100 6))).me.cf.status = 1 := by decide +kernel
/-- NAT8 ssub of 3 and 5 gives 0 and SAT (07 R174): the destination byte held 9. -/
theorem test_ssub_nat8 :
    SMap.get 0 (outOf (exec (.eIadd 1 0 1 2 3) (bytePair 3 5 10))).me.vec.v 1024 = 0 ∧
      (outOf (exec (.eIadd 1 0 1 2 3) (bytePair 3 5 10))).me.cf.status = 1 := by decide +kernel
/-- INT8 neg of −128 gives 127 (07 R171). -/
theorem test_neg_int8 :
    SMap.get 0 (outOf (exec (.eMov 3 0 1 1) (bytePair 0x80 0 6))).me.vec.v 3072 = 127 := by decide +kernel
/-- FP16 65,504 + 65,504 gives 65,504 and SAT, and FP16 1/(+0) gives +∞ (07 R167). -/
theorem test_fp16_overflow :
    round (Val.add .rne (valueOf 2 0x7BFF) (valueOf 2 0x7BFF)) 2 .rne = (0x7BFF, true) ∧
      round (Val.div (valueOf 2 0x3C00) (valueOf 2 0)) 2 .rne = (0x7C00, false) := by decide +kernel
/-- The canonical tree over 2^24, six ones and −2^24 in FP32 gives 5 (03 R65, worked example). -/
theorem test_canonical_tree :
    canonicalSum 1 [0x4B800000, 0x3F800000, 0x3F800000, 0x3F800000, 0x3F800000, 0x3F800000, 0x3F800000, 0xCB800000]
      = (0x40A00000, false) := by decide +kernel
/-- The weights +1, −1, 0, 0, +1 pack as 0x58 and come back (03 R56). -/
theorem test_ternary_byte :
    ternEncode [1, -1, 0, 0, 1] = 0x58 ∧ ternDecode 0x58 = ([1, -1, 0, 0, 1], false) ∧ (ternDecode 243).2 = true := by decide +kernel
/-- Four hops from die 2 to die 5, and 286 cycles there and back to its fast tier (01 R23, example 1). -/
theorem test_ring : ringHops 2 5 = 4 ∧ 12 * ringHops 2 5 + 20 + tMem 0 + 12 * ringHops 5 2 = 286 := by decide +kernel
/-- parity(0b1011) is 1 (00 R6). -/
theorem test_parity : parity 0b1011 = 1 := by decide +kernel
/-- C crosses the empty window 1 on its way to address 70; E, whose word stands at address 40, crosses none (02 R35). -/
def windows : Core :=
  { run := .running, text := textOf (List.replicate 16 0x0001 ++ List.replicate 16 0x4001 ++ List.replicate 16 0x4001 ++ List.replicate 16 0x6001) }
theorem test_windows : windows.windowCost .c 70 = 1 ∧ windows.windowCost .e 40 = 0 := by decide +kernel
/-- A store to X is what later reads give, and the other registers keep theirs (04 R71). -/
theorem test_put_x :
    (outOf (exec (.cPutX 3) (at_ .c [77] fun k => k))).me.ctl.x.toList.take 5 = [0, 0, 0, 77, 0] := by decide +kernel
/-- Division by zero sets DIVZ, −2^63 / −1 wraps (04 R74). -/
theorem test_div_corner :
    ((outOf (exec (.cDiv 0) (at_ .c [-1, 0x8000000000000000] fun k => k))).me.en .c).stack = [0x8000000000000000] := by decide +kernel
/-- The boundary table of 04 R72-R76: −7 / 2, its remainder, 7 / 0, its remainder, and 1 shifted by 64. -/
theorem test_boundaries :
    let top := fun (i : Instr) (st : List W64) => ((outOf (exec i (at_ .c st fun k => k))).me.en .c).stack
    top (.cDiv 0) [2, -7] = [-3] ∧ top (.cRem 0) [2, -7] = [-1] ∧ top (.cDiv 1) [0, 7] = [0xFFFFFFFFFFFFFFFF] ∧
      top (.cRem 0) [0, 7] = [7] ∧ (outOf (exec (.cRem 0) (at_ .c [0, 7] fun k => k))).me.cf.status = 4 ∧
      top (.cDivrem 0) [-1, 0x8000000000000000] = [0, 0x8000000000000000] ∧ top (.cShift 0) [64, 1] = [0] := by decide +kernel
/-- A word on an empty stack takes #STK at its own address with cause 0x02 (04 R86, 18 R379). -/
theorem test_stack_trap :
    bits (outOf (exec (.cPutX 3) (at_ .c [] fun k => k))).me.cf.cause 0 8 = 2 := by decide +kernel
/-- A word of memory survives a write and a read at the same place; its neighbour is as before (17 R422). -/
theorem test_memory :
    (State.read (State.write (runs [(72, 9)] [] fun k => k) 0 0 64 [1, 2, 3, 4, 5, 6, 7, 8] false).1 0 0 64 9).2
      = some [1, 2, 3, 4, 5, 6, 7, 8, 9] := by decide +kernel
/-! ## Ill-formed instructions (02 R42), a term for each check -/
theorem test_ill_formed :
    ([ .stkSwap .c 0, .stkOver .e 0, .cSend 0, .cSend 7, .cRecv 0, .cRecv 7, .cCmp 6, .cSetp 7 0, .cPredSet 1 3, .cLoop 0,
       .cLoopCount 0 4, .cLoopCount 4 0, .cCsr 3 0, .cCsw 3 0, .aSfld 0 22, .aXqCount 6, .aXqFlush 7, .aXqDrop 6, .aXqPut 6,
       .eMov 16 0 1 0, .eMov 1 0 20 0, .eMov 1 0 1 3, .eAdd 22 0 1 2 0, .eAdd 1 0 20 2 0, .eAdd 1 0 1 21 0, .eSub 24 0 1 2 0,
       .eSub 1 0 21 2 0, .eSub 1 0 1 20 0, .eMul 17 0 1 2 0, .eMul 1 0 20 2 0, .eMul 1 0 1 20 0, .eDiv 17 0 1 2 0, .eDiv 1 0 20 2 0,
       .eDiv 1 0 1 20 0, .eFma 17 0 1 2 0 0 3, .eFma 1 0 20 2 0 0 3, .eFma 1 0 1 20 0 0 3, .eFma 1 0 1 2 0 0 20, .eSqrt 17 0 1 0,
       .eSqrt 1 0 20 0, .eMin 17 0 1 2 0, .eMin 1 0 20 2 0, .eMin 1 0 1 20 0, .eMax 17 0 1 2 0, .eMax 1 0 20 2 0, .eMax 1 0 1 20 0,
       .eCmp 17 0 1 2 0, .eCmp 1 0 20 2 0, .eCmp 1 0 1 20 0, .eCmp 1 0 1 2 7, .eSelect 17 0 1 2 3, .eSelect 1 0 20 2 3,
       .eSelect 1 0 1 20 3, .eSelect 1 0 1 2 20, .eIadd 17 0 1 2 0, .eIadd 1 0 20 2 0, .eIadd 1 0 1 20 0, .eIadd 1 0 1 2 4,
       .eImul 17 0 1 2 0, .eImul 1 0 20 2 0, .eImul 1 0 1 20 0, .eImul 1 0 1 2 4, .eImul 1 0 1 2 3, .eImul 20 0 1 2 3,
       .eLogic 17 0 1 2 0, .eLogic 1 0 20 2 0, .eLogic 1 0 1 20 0, .eLogic 1 0 1 2 5, .eLogic 1 0 1 2 4, .eShift 17 0 1 2 0,
       .eShift 1 0 20 2 0, .eShift 1 0 1 20 0, .eShift 1 0 1 2 4, .eRed 17 0 1 0 0, .eRed 1 0 20 0 0, .eRed 1 0 1 0 3, .eXpose 17 0 1,
       .eXpose 1 0 20, .ePerm 17 0 1 2 0 3 0, .ePerm 1 0 20 2 0 3 0, .ePerm 1 0 1 0 4 0 0, .ePerm 1 0 1 20 0 3 0, .ePerm 1 0 1 2 0 20 0,
       .ePerm 1 0 1 2 0 3 1, .ePerm 1 0 1 2 1 0 3, .ePerm 1 0 1 0 1 2 3, .ePerm 1 0 1 0 1 0 16, .ePerm 1 0 1 0 2 0 128, .eRep 3 4,
       .eSfn 17 0 1 0, .eSfn 1 0 20 0, .eXq 1 0 16 0, .eXq 0 1 16 0, .eXq 0 0 22 0, .eXq 0 0 20 1, .eXq 16 0 17 2, .eXq 1 0 20 2,
       .eXq 1 0 1 3, .eXq 0 0 16 3, .eXq 0 0 16 4, .eCvt 17 0 1 22 0 0 1, .eCvt 1 0 20 22 0 0 1, .eCvt 1 0 1 1 0 0 1, .eCvt 1 0 1 22 0 0 13,
       .eCvt 1 0 1 22 0 0 15, .eCvt 1 0 1 1 0 1 0, .eCvt 1 0 1 0 0 1 6, .eCvt 1 0 1 23 0 2 1, .eCvt 1 0 1 22 0 2 6, .eCvt 1 0 1 22 0 3 1,
       .eQuant 17 0 1 2 4, .eQuant 1 0 1 17 4, .eQuant 1 0 20 2 4, .eQuant 1 0 1 2 3, .eQuant 1 0 1 1 4, .eTpack 17 0 1, .eTpack 1 0 20,
       .eMask 20 0, .eMask 1 3, .eMask 0 6, .mWload 7, .mWload 16, .mWloadSp 1, .mMma 7 0, .mMma 6 1, .mAccClearpair 1, .mEpi 0 3 0 0 0 2,
       .mEpi 0 0 0 3 0 2, .mEpi 0 0 0 0 3 2, .mEpi 0 0 0 0 2 9, .mEpi 0 0 0 0 1 0, .mEpi 0 0 1 0 2 0, .kCwait 6, .wRows 3 0, .wRows 0 3,
       .fAmo 7 0, .fAmo 3 2, .fAmoR 7 0, .fAmoR 5 3, .fCasM 3 0, .fChase 0 4 0, .fColl 0 5 5, .fLayout 0 13, .sFence 6 1 1, .sFence 0 0 1,
       .sFence 0 1 0, .sAcq 6, .sAcqSh 7, .sRel 6 ] : List Instr).all (fun i => decide (¬ i.WellFormed)) = true := by decide +kernel
/-- Terms at the edges of the same checks, which pass them. -/
theorem test_well_formed :
    ([ .stkSwap .c 1, .stkOver .e 7, .cSend 6, .cRecv 1, .cCmp 5, .cPredSet 1 2, .cLoopCount 1 1, .cCsr 2 0, .aSfld 0 21, .aXqPut 5,
       .eMov 15 0 1 2, .eMov 20 0 31 0, .eAdd 21 0 22 23 3, .eImul 2 0 1 2 3, .eLogic 1 0 1 0 4, .ePerm 1 0 1 2 0 3 0,
       .ePerm 1 0 1 0 1 0 15, .ePerm 1 0 1 0 3 0 127, .eXq 0 0 21 0, .eXq 15 1 19 2, .eXq 0 0 24 3, .eCvt 1 0 1 23 0 0 14,
       .eCvt 1 0 1 0 0 1 5, .eQuant 20 0 1 21 6, .eMask 0 5, .mWload 13, .mWloadSp 3, .mMma 6 2, .mEpi 0 0 2 0 2 0, .kCwait 5,
       .wRows 2 2, .fAmo 6 3, .fAmo 5 1, .fCasM 2 0, .fColl 0 1 2, .fLayout 3 12, .sFence 5 1 1, .sRel 5 ] : List Instr).all
      (fun i => decide i.WellFormed) = true := by decide +kernel

/-! ## Witnesses: states and operands that meet the hypotheses of the statements -/

theorem witness_ControlArithmetic :
    (∃ (i : Instr) (n : Nat) (p : Nat) (f : List W64 → List W64) (s : State), pureForm i = some (n, p, f) ∧ CanIssue Engine.c i s ∧ p ≤ (top Engine.c s).length) :=
    ⟨.cAdd, 1, 2, fun v => [v.getD 1 0 + v.getD 0 0], (at_ .c [5, 7, 9] id), rfl, by delta CanIssue; decide +kernel⟩


theorem witness_LiteralsStackAndWait :
    (∃ (t : Engine) (s : State) (i : BitVec 11), CanIssue t (Instr.literalPush t i) s ∧ (top t s).length < 8) ∧
    (∃ (t : Engine) (s : State) (i : BitVec 11) (v : W64) (rest : List W64), CanIssue t (Instr.literalExtend t i) s ∧ top t s = v :: rest) ∧
    (∃ (t : Engine) (s : State) (n : BitVec 6), CanIssue t (Instr.wait t n) s ∧ n ≠ 0) ∧
    (∃ (t : Engine) (s : State) (v : W64) (rest : List W64), CanIssue t (Instr.wait t 0) s ∧ top t s = v :: rest) ∧
    (∃ (t : Engine) (s : State) (k : BitVec 3), CanIssue t (Instr.stkDup t k) s ∧ k.toNat < (top t s).length ∧ (top t s).length < 8) ∧
    (∃ (t : Engine) (s : State) (k : BitVec 3), CanIssue t (Instr.stkDrop t k) s ∧ k.toNat < (top t s).length) ∧
    (∃ (t : Engine) (s : State) (k : BitVec 3), CanIssue t (Instr.stkSwap t k) s ∧ k.toNat < (top t s).length) ∧
    (∃ (t : Engine) (s : State) (k : BitVec 3), CanIssue t (Instr.stkOver t k) s ∧ k.toNat < (top t s).length) :=
    ⟨⟨.e, (at_ .e [5, 7, 9] id), 0x7FF, by delta CanIssue; decide +kernel⟩,
    ⟨.e, (at_ .e [5, 7, 9] id), 0x7FF, 5, [7, 9], by delta CanIssue; decide +kernel⟩,
    ⟨.e, (at_ .e [5, 7, 9] id), 63, by delta CanIssue; decide +kernel⟩,
    ⟨.e, (at_ .e [5, 7, 9] id), 5, [7, 9], by delta CanIssue; decide +kernel⟩,
    ⟨.e, (at_ .e [5, 7, 9] id), 2, by delta CanIssue; decide +kernel⟩,
    ⟨.e, (at_ .e [5, 7, 9] id), 2, by delta CanIssue; decide +kernel⟩,
    ⟨.e, (at_ .e [5, 7, 9] id), 2, by delta CanIssue; decide +kernel⟩,
    ⟨.e, (at_ .e [5, 7, 9] id), 2, by delta CanIssue; decide +kernel⟩⟩


theorem witness_ControlRegistersAndPredicates :
    (∃ (s : State) (i : Instr) (x : W64), getForm i (arrived Engine.c s).me.ctl = some x ∧ CanIssue Engine.c i s ∧ (top Engine.c s).length < 8) ∧
    (∃ (s : State) (v : W64) (rest : List W64) (i : Instr) (f : W64 → Ctl → Ctl), putForm i = some f ∧ CanIssue Engine.c i s ∧ top Engine.c s = v :: rest) ∧
    (∃ (s : State) (v : W64) (rest : List W64) (c : BitVec 3) (n : BitVec 3) (b : W64), CanIssue Engine.c (Instr.cSetp c n) s ∧ top Engine.c s = b :: v :: rest) ∧
    (∃ (s : State) (v : W64) (rest : List W64) (n : BitVec 3) (b : W64), CanIssue Engine.c (Instr.cSel n) s ∧ top Engine.c s = b :: v :: rest) ∧
    (∃ (s : State) (d : BitVec 3) (o : BitVec 2), CanIssue Engine.c (Instr.cPredSet d o) s) :=
    ⟨⟨(at_ .c [5, 7, 9] id), .cGetX 15, 0, by delta CanIssue; decide +kernel⟩,
    ⟨(at_ .c [5, 7, 9] id), 5, [7, 9], .cPutX 15, fun v r => { r with x := r.x.set 15 v (by decide) }, rfl, by delta CanIssue; decide +kernel⟩,
    ⟨(at_ .c [5, 7, 9] id), 7, [9], 5, 7, 5, by delta CanIssue; decide +kernel⟩,
    ⟨(at_ .c [5, 7, 9] id), 7, [9], 7, 5, by delta CanIssue; decide +kernel⟩,
    ⟨(at_ .c [5, 7, 9] id), 7, 2, by delta CanIssue; decide +kernel⟩⟩


theorem witness_ControlDivision :
    (∃ (i : Instr) (u : BitVec 1) (q : Bool) (m : Bool) (s : State) (a : W64) (b : W64) (rest : List W64), divForm i = some (u, q, m) ∧ CanIssue Engine.c i s ∧ top Engine.c s = b :: a :: rest) :=
    ⟨.cDivrem 1, 1, true, true, (at_ .c [0, 7] id), 7, 0, [], by delta CanIssue; decide +kernel⟩

def controlTransferAndLoops1 : State := (at_ .c [5] fun k => { k with ctl := { k.ctl with ret := [3] } })
theorem witness_ControlTransferAndLoops :
    (∃ (s : State) (i : Instr) (o : BitVec 13) (p : Nat) (taken : Bool) (target : Nat), s.me.steerFull = false ∧ branchForm s i = some (o, p, taken) ∧ inText s o = some target ∧ p ≤ (s.stack Engine.c).length) ∧
    (∃ (s : State) (o : BitVec 13) (target : Nat), s.me.steerFull = false ∧ inText s o = some target ∧ s.me.ctl.ret.length < 16) ∧
    (∃ (s : State) (a : Nat) (rest : List Nat), s.me.steerFull = false ∧ s.me.ctl.ret = a :: rest) ∧
    (∃ (s : State) (o : BitVec 13) (v : W64) (rest : List W64), (s.me.en Engine.c).pc + o.toNat < s.me.text.len ∧ (o = 1 ∨ s.me.ctl.loops.length < 4) ∧ CanIssue Engine.c (Instr.cLoop o) s ∧ top Engine.c s = v :: rest) ∧
    (∃ (s : State) (o : BitVec 13) (n : BitVec 6), (s.me.en Engine.c).pc + o.toNat < s.me.text.len ∧ (o = 1 ∨ s.me.ctl.loops.length < 4) ∧ CanIssue Engine.c (Instr.cLoopCount n o) s) :=
    ⟨⟨(at_ .c [5, 7, 9] id), .cBrNz 9, 9, 1, true, 9, by decide +kernel⟩,
    ⟨(at_ .c [5, 7, 9] id), 399, 399, by decide +kernel⟩,
    ⟨controlTransferAndLoops1, 3, [], by decide +kernel⟩,
    ⟨(at_ .c [5, 7, 9] id), 8, 5, [7, 9], by delta CanIssue; decide +kernel⟩,
    ⟨(at_ .c [5, 7, 9] id), 8, 63, by delta CanIssue; decide +kernel⟩⟩

def controlSendReceive1 : State := (at_ .c [] fun k => { k.updEn .e (fun x => { x with active := true }) with ctl := { k.ctl with inq := [(.a, 1), (.e, 2)] } })
def controlSendReceive2 : State := (at_ .e [4] fun k => { k with text := { k.text with rows := [{ space := 0, image := 0, row := 0, words := [0x04C2] }] } })
def controlSendReceive3 : State := (at_ .e [4] fun k => { (k.updEn .e fun x => { x with pc := 3, lead := 2 }) with text := { k.text with rows := [{ space := 0, image := 0, row := 0, words := [0x0001, 0x04C2] }] } })
theorem witness_ControlSendReceive :
    (∃ (s : State) (e : BitVec 3) (v : W64) (rest : List W64), CanIssue Engine.c (Instr.cSend e) s ∧ top Engine.c s = v :: rest ∧ (List.filter (fun x => decide (x.dest = Engine.ofTag e.toNat)) (arrived Engine.c s).me.ctl.outq).length < 8) ∧
    (∃ (s : State) (e : BitVec 3) (v : W64) (l : List (Engine × W64)) (r : List (Engine × W64)), CanIssue Engine.c (Instr.cRecv e) s ∧ (top Engine.c s).length < 8 ∧ (s.me.en (Engine.ofTag e.toNat)).active = true ∧ (arrived Engine.c s).me.ctl.inq = l ++ (Engine.ofTag e.toNat, v) :: r ∧ (∀ (x : Engine × W64), x ∈ l → x.fst ≠ Engine.ofTag e.toNat)) ∧
    (∃ (s : State) (e : Engine) (v : W64) (rest : List W64), e ≠ Engine.c ∧ s.me.run = Run.running ∧ (s.me.en e).active = true ∧ s.me.stand e = Stand.recv ((s.me.en e).pc - (s.me.en e).lead) ∧ (s.me.en e).lead ≤ (s.me.en e).pc ∧ (s.me.en e).stack = v :: rest ∧ (List.filter (fun x => decide (x.fst = e)) s.me.ctl.inq).length < 8 ∧ (e = Engine.e → SMap.get 0 s.me.vec.ready 17 ≤ s.cycle) ∧ (s.me.en e).lead = 0 ∧ s.me.expectStop e ≠ some (s.me.en e).pc) ∧
    (∃ (s : State) (e : Engine) (v : W64) (rest : List W64), e ≠ Engine.c ∧ s.me.run = Run.running ∧ (s.me.en e).active = true ∧ s.me.stand e = Stand.recv ((s.me.en e).pc - (s.me.en e).lead) ∧ (s.me.en e).lead ≤ (s.me.en e).pc ∧ (s.me.en e).stack = v :: rest ∧ (List.filter (fun x => decide (x.fst = e)) s.me.ctl.inq).length < 8 ∧ (e = Engine.e → SMap.get 0 s.me.vec.ready 17 ≤ s.cycle) ∧ 0 < (s.me.en e).lead) :=
    ⟨⟨(at_ .c [5, 7, 9] id), 2, 5, [7, 9], by delta CanIssue; decide +kernel⟩,
    ⟨controlSendReceive1, 2, 2, [(.a, 1)], [], by delta CanIssue; decide +kernel⟩,
    ⟨controlSendReceive2, .e, 4, [], by decide +kernel⟩,
    ⟨controlSendReceive3, .e, 4, [], by decide +kernel⟩⟩

def controlLoadStore1 : Place := { die := 0, peer := none, tier := 0, off := 64, rd := true, w := true, x := false, ra := false, mt := 0, klock := false, size := 3 }
def controlLoadStore2 : State := (((arrived .c (at_ .c [64, 7] id)).setStack .c [7]).farRead 0 (Place.at_ controlLoadStore1 64) 8 0).1
def controlLoadStore3 : State := (at_ .c [64, 7] fun k => { k with comb := [{ va := 64, bytes := List.replicate 64 (some 3), cycle := 0, die := 0, peer := none, off := 64, mt := 0 }] })
def controlLoadStore4 : Comb := { va := 64, bytes := List.replicate 64 (some 3), cycle := 0, die := 0, peer := none, off := 64, mt := 0 }
theorem witness_ControlLoadStore :
    (∃ (s : State) (s2 : State) (c : BitVec 2) (z : BitVec 2) (p : Place) (va : W64) (sgn : BitVec 1) (rest : List W64) (bs : List Byte) (s3 : State), s.me.leg.timed = false ∧ CanIssue Engine.c (Instr.cLd c sgn z) s ∧ top Engine.c s = va :: rest ∧ locate ((arrived Engine.c s).setStack Engine.c rest) va (2 ^ z.toNat) true false = Xlat.at_ p s2 ∧ Unhindered Engine.c p va (2 ^ z.toNat) c.toNat s2 ∧ s2.farRead s2.actor (p.at_ va) (2 ^ z.toNat) p.mt = (s3, some bs)) ∧
    (∃ (s : State) (s2 : State) (c : BitVec 2) (z : BitVec 2) (p : Place) (va : W64) (sgn : BitVec 1) (rest : List W64) (bs : List Byte) (e : Comb), s.me.leg.timed = false ∧ CanIssue Engine.c (Instr.cLd c sgn z) s ∧ top Engine.c s = va :: rest ∧ locate ((arrived Engine.c s).setStack Engine.c rest) va (2 ^ z.toNat) true false = Xlat.at_ p s2 ∧ s.me.combOf va = some e ∧ e.serve va (2 ^ z.toNat) = some bs) ∧
    (∃ (s : State) (s2 : State) (c : BitVec 2) (z : BitVec 2) (p : Place) (va : W64) (v : W64) (rest : List W64), s.me.leg.timed = false ∧ CanIssue Engine.c (Instr.cSt c z) s ∧ top Engine.c s = va :: v :: rest ∧ locate ((arrived Engine.c s).setStack Engine.c rest) va (2 ^ z.toNat) false true = Xlat.at_ p s2) :=
    ⟨⟨(at_ .c [64, 7] id), ((arrived .c (at_ .c [64, 7] id)).setStack .c [7]), 0, 3, controlLoadStore1, 64, 1, [7], List.replicate 8 0, controlLoadStore2, by delta CanIssue Unhindered; decide +kernel⟩,
    ⟨controlLoadStore3, ((arrived .c controlLoadStore3).setStack .c [7]), 0, 3, controlLoadStore1, 64, 1, [7], List.replicate 8 3, controlLoadStore4, by delta CanIssue; decide +kernel⟩,
    ⟨(at_ .c [64, 7] id), ((arrived .c (at_ .c [64, 7] id)).setStack .c []), 0, 3, controlLoadStore1, 64, 7, [], by delta CanIssue; decide +kernel⟩⟩

def postedAccessService1 : State := (at_ .c [] fun k => { k with posted := [{ eng := .c, die := 0, tier := 0, off := 64, va := 64, klock := false, mt := 0, cls := 0, write := some [1, 2] }] })
def postedAccessService2 : Posted := { eng := .c, die := 0, tier := 0, off := 64, va := 64, klock := false, mt := 0, cls := 0, write := some [1, 2] }
def postedAccessService3 : State := (at_ .c [] fun k => { k with posted := [{ eng := .a, die := 0, tier := 0, off := 128, va := 128, klock := false, mt := 0, cls := 0, write := none, pad := 128 }] })
def postedAccessService4 : State := (State.farRead ((postedAccessService3.updMe (Posted.fillPorts { eng := .a, die := 0, tier := 0, off := 128, va := 128, klock := false, mt := 0, cls := 0, write := none, pad := 128 })).updMe fun k => { k with posted := k.posted.erase { eng := .a, die := 0, tier := 0, off := 128, va := 128, klock := false, mt := 0, cls := 0, write := none, pad := 128 } }) 0 (Posted.at_ { eng := .a, die := 0, tier := 0, off := 128, va := 128, klock := false, mt := 0, cls := 0, write := none, pad := 128 }) 128 0).1
def postedAccessService5 : Posted := { eng := .a, die := 0, tier := 0, off := 128, va := 128, klock := false, mt := 0, cls := 0, write := none, pad := 128 }
theorem witness_PostedAccessService :
    (∃ (s : State) (s3 : State) (j : Nat) (a : Posted) (bs : List Byte), s.me.posted[j]? = some a ∧ s.me.mayPerform j = true ∧ a.peer = none ∧ s.waits a.die a.tier a.off a.bytes = false ∧ a.portHeld s.me = false ∧ a.write = some bs ∧ (((s.updMe a.fillPorts).updMe fun k => { k with posted := k.posted.erase a }).farWrite s.actor a.at_ bs a.mt = (s3, true))) ∧
    (∃ (s : State) (s3 : State) (j : Nat) (a : Posted) (bs : List Byte), s.me.posted[j]? = some a ∧ s.me.mayPerform j = true ∧ a.peer = none ∧ s.waits a.die a.tier a.off a.bytes = false ∧ a.portHeld s.me = false ∧ a.write = none ∧ (((s.updMe a.fillPorts).updMe fun k => { k with posted := k.posted.erase a }).farRead s.actor a.at_ 128 a.mt = (s3, some bs))) ∧
    (∃ (s : State) (j : Nat) (a : Posted) (core : Nat) (n : Nat) (w : At) (bs : List Byte) (r : State), s.me.posted[j]? = some a ∧ s.me.mayPerform j = true ∧ a.peer = none ∧ s.waits a.die a.tier a.off a.bytes = false ∧ a.portHeld s.me = false ∧ w.die = core / 512 ∧ (s.die w.die).tokens = [] ∧ s.read w.die w.tier w.off n = (r, some bs)) ∧
    (∃ (s : State) (j : Nat) (a : Posted) (core : Nat) (w : At) (bs : List Byte) (r : State), s.me.posted[j]? = some a ∧ s.me.mayPerform j = true ∧ a.peer = none ∧ s.waits a.die a.tier a.off a.bytes = false ∧ a.portHeld s.me = false ∧ w.die = core / 512 ∧ (s.die w.die).tokens = [] ∧ s.write w.die w.tier w.off bs w.klock = (r, true)) :=
    ⟨⟨postedAccessService1, ((at_ .c [] id).write 0 0 64 [1, 2] false).1, 0, postedAccessService2, [1, 2], by decide +kernel⟩,
    ⟨postedAccessService3, postedAccessService4, 0, postedAccessService5, List.replicate 128 0, by decide +kernel⟩,
    ⟨postedAccessService1, 0, postedAccessService2, 0, 8, { die := 0, va := 64, tier := 0, off := 64, klock := false }, List.replicate 8 0, (postedAccessService1.read 0 0 64 8).1, by decide +kernel⟩,
    ⟨postedAccessService1, 0, postedAccessService2, 0, { die := 0, va := 64, tier := 0, off := 64, klock := false }, [1, 2], (postedAccessService1.write 0 0 64 [1, 2] false).1, by decide +kernel⟩⟩


theorem witness_ConfigurationRegisterWords :
    (∃ (s : State) (g : BitVec 6) (i : BitVec 13) (v : W64), CanIssue Engine.c (Instr.cCsr g i) s ∧ readReg (arrived Engine.c s) g.toNat i.toNat = some v ∧ (top Engine.c s).length < 8) ∧
    (∃ (s : State) (g : BitVec 6) (i : BitVec 13) (v : W64) (rest : List W64), CanIssue Engine.c (Instr.cCsw g i) s ∧ top Engine.c s = v :: rest ∧ (readReg (arrived Engine.c s) g.toNat i.toNat).isSome = true ∧ g = 0 ∧ i ≠ 2 ∧ i ≠ 8) ∧
    (∃ (s : State) (g : BitVec 6) (i : BitVec 13) (v : W64) (rest : List W64), CanIssue Engine.c (Instr.cCsw g i) s ∧ top Engine.c s = v :: rest ∧ (readReg (arrived Engine.c s) g.toNat i.toNat).isSome = true ∧ g = 0 ∧ i = 2) ∧
    (∃ (s : State) (g : BitVec 6) (i : BitVec 13) (v : W64) (rest : List W64), CanIssue Engine.c (Instr.cCsw g i) s ∧ top Engine.c s = v :: rest ∧ (readReg (arrived Engine.c s) g.toNat i.toNat).isSome = true ∧ (g = 0 ∧ i = 8 ∨ g ≠ 0 ∧ s.me.sys = true ∧ (g = 1 → badDgWrite (s.die s.myDie) i.toNat v = false))) ∧
    (∃ (i : Nat), 9 ≤ i) ∧
    (∃ (i : Nat), i ≠ 2 ∧ i ≠ 3 ∧ i ≠ 7) :=
    ⟨⟨(at_ .c [5, 7, 9] id), 0, 1, 10, by delta CanIssue; decide +kernel⟩,
    ⟨(at_ .c [5, 7, 9] id), 0, 3, 5, [7, 9], by delta CanIssue; decide +kernel⟩,
    ⟨(at_ .c [5, 7, 9] id), 0, 2, 5, [7, 9], by delta CanIssue; decide +kernel⟩,
    ⟨(at_ .c [5] fun k => { k with sys := true }), 1, 272, 5, [], by delta CanIssue; decide +kernel⟩,
    ⟨9, by decide +kernel⟩,
    ⟨5, by decide +kernel⟩⟩

def postedRegisterWrites1 : State := { at_ .c [] id with regWrites := [{ cycle := 3, core := 0, group := 1, idx := 272, val := 5 }] }
def postedRegisterWrites2 : State := { at_ .c [] id with regWrites := [{ cycle := 3, core := 0, group := 0, idx := 8, val := 5 }] }
def postedRegisterWrites3 : State := { at_ .c [] id with regWrites := [{ cycle := 3, core := 0, group := 1, idx := 340, val := 0x80 }] }
def postedRegisterWrites4 : RegWrite := { cycle := 3, core := 0, group := 1, idx := 340, val := 0x80 }
def postedRegisterWrites5 : State := { at_ .c [] id with regWrites := [{ cycle := 3, core := 0, group := 1, idx := 1024, val := 0 }] }
def postedRegisterWrites6 : State := { at_ .c [] id with regWrites := [{ cycle := 3, core := 0, group := 1, idx := 1552, val := 1 }] }
def postedRegisterWrites7 : State := { at_ .c [] id with regWrites := [{ cycle := 3, core := 0, group := 1, idx := 289, val := 0 }] }
def postedRegisterWrites8 : State := { at_ .c [] id with regWrites := [{ cycle := 3, core := 0, group := 1, idx := 363, val := 1 }] }
theorem witness_PostedRegisterWrites :
    (∃ (s : State) (w : RegWrite), w.group = 1 ∧ s.nextWrite = some w ∧ w.kind = RegKind.plain) ∧
    (∃ (s : State) (w : RegWrite), s.nextWrite = some w ∧ w.kind = RegKind.slip) ∧
    (∃ (s : State) (w : RegWrite), badHash (s.die w.die) w.idx w.val = false ∧ s.nextWrite = some w ∧ w.kind = RegKind.hash) ∧
    (∃ (s : State) (w : RegWrite), badRegion (s.die w.die) w.idx w.val = false ∧ s.nextWrite = some w ∧ w.kind = RegKind.region) ∧
    (∃ (s : State) (w : RegWrite), BitVec.getLsbD w.val 63 = false ∧ s.nextWrite = some w ∧ w.kind = RegKind.sgFault) ∧
    (∃ (s : State) (w : RegWrite), BitVec.getLsbD w.val 0 = false ∧ s.nextWrite = some w ∧ w.kind = RegKind.uninit) ∧
    (∃ (s : State) (w : RegWrite), BitVec.toNat w.val / 2 ^ 48 % 2 ^ 16 = 0 ∧ s.nextWrite = some w ∧ w.kind = RegKind.errLog) :=
    ⟨⟨postedRegisterWrites1, { cycle := 3, core := 0, group := 1, idx := 272, val := 5 }, by decide +kernel⟩,
    ⟨postedRegisterWrites2, { cycle := 3, core := 0, group := 0, idx := 8, val := 5 }, by decide +kernel⟩,
    ⟨postedRegisterWrites3, postedRegisterWrites4, by decide +kernel⟩,
    ⟨postedRegisterWrites5, { cycle := 3, core := 0, group := 1, idx := 1024, val := 0 }, by decide +kernel⟩,
    ⟨postedRegisterWrites6, { cycle := 3, core := 0, group := 1, idx := 1552, val := 1 }, by decide +kernel⟩,
    ⟨postedRegisterWrites7, { cycle := 3, core := 0, group := 1, idx := 289, val := 0 }, by decide +kernel⟩,
    ⟨postedRegisterWrites8, { cycle := 3, core := 0, group := 1, idx := 363, val := 1 }, by decide +kernel⟩⟩

def legSignAndLoad1 : State := ((at_ .c [5] id).updDie 0 fun d => { d with trav := some { tree := 3, cores := 1, firstBuf := 0 } })
def legSignAndLoad2 : State := ((at_ .c [5] id).updDie 0 fun d => { d with firstLoad := some 0, firstTable := some { cores := 1 }, bufA := { st := .ready, table := { cores := 1 } } })
def legSignAndLoad3 : State := ((at_ .c [128] id).updDie 0 fun d => { d with firstLoad := some 0, firstTable := some { cores := 1 } })
theorem witness_LegSignAndLoad :
    (∃ (s : State) (v : W64) (rest : List W64) (k : BitVec 4) (t : Trav), s.stack Engine.c = v :: rest ∧ CanIssueS (Instr.sSign k) s ∧ s.me.leg.peer = none ∧ s.me.leg.timed = false ∧ (s.die s.myDie).trav = some t ∧ t.tree = k.toNat ∧ t.cores / 2 ^ (s.actor % 512) % 2 = 1 ∧ s.me.leg.signed = false ∧ t.left.contains (s.actor % 512) = false ∧ s.drainedMe = true) ∧
    (∃ (s : State) (v : W64) (rest : List W64) (k : BitVec 4) (b : Nat) (tb : LegTable), s.stack Engine.c = v :: rest ∧ CanIssueS (Instr.sSign k) s ∧ s.me.leg.peer = none ∧ s.me.leg.timed = false ∧ (s.die s.myDie).trav = none ∧ (s.die s.myDie).firstLoad = some b ∧ (s.die s.myDie).firstTable = some tb ∧ tb.cores / 2 ^ (s.actor % 512) % 2 = 1 ∧ s.drainedMe = true) ∧
    (∃ (s : State) (v : W64) (rest : List W64) (b : BitVec 1), s.stack Engine.c = v :: rest ∧ CanIssueS (Instr.sLtload b) s ∧ bits v 58 6 = 0 ∧ BitVec.toNat v % 128 = 0 ∧ s.current s.myDie b.toNat = false ∧ s.committed s.myDie b.toNat = false ∧ ((s.die s.myDie).buf b.toNat).st ≠ BufState.loading ∧ ((s.die s.myDie).firstLoad = none ∨ (s.die s.myDie).firstTable = none ∧ (s.die s.myDie).firstVa = v)) ∧
    (∃ (s : State) (v : W64) (rest : List W64) (b : BitVec 1), s.stack Engine.c = v :: rest ∧ CanIssueS (Instr.sLtload b) s ∧ bits v 58 6 = 0 ∧ BitVec.toNat v % 128 = 0 ∧ s.current s.myDie b.toNat = false ∧ s.committed s.myDie b.toNat = false ∧ ((s.die s.myDie).buf b.toNat).st ≠ BufState.loading ∧ (s.die s.myDie).firstLoad ≠ none ∧ ((s.die s.myDie).firstTable ≠ none ∨ (s.die s.myDie).firstVa ≠ v)) :=
    ⟨⟨legSignAndLoad1, 5, [], 3, { tree := 3, cores := 1, firstBuf := 0 }, by delta CanIssueS; decide +kernel⟩,
    ⟨legSignAndLoad2, 5, [], 3, 0, { cores := 1 }, by delta CanIssueS; decide +kernel⟩,
    ⟨(at_ .c [128] id), 128, [], 1, by delta CanIssueS; decide +kernel⟩,
    ⟨legSignAndLoad3, 128, [], 1, by delta CanIssueS; decide +kernel⟩⟩

def legEnterAndLeave1 : State := ((at_ .c [5] fun k => { k with leg := { k.leg with signed := true, go := some 11 } }).updDie 0 fun d => { d with trav := some { tree := 3, cores := 1, firstBuf := 0 } })
def legEnterAndLeave2 : State := ((at_ .c [5] fun k => { k with leg := { k.leg with signed := true, ended := true } }).updDie 0 fun d => { d with trav := some { tree := 3, cores := 1, firstBuf := 0 } })
def legEnterAndLeave3 : State := ((at_ .c [5] fun k => { k with leg := { k.leg with timed := true, start := 1, len := 10 } }).updDie 0 fun d => { d with trav := some { tree := 3, cores := 1, firstBuf := 0 } })
def legEnterAndLeave4 : State := ((at_ .c [5] fun k => { k with cf := { k.cf with mode := 4 }, leg := { k.leg with timed := true, start := 1, len := 10, rise := 3 } }).updDie 0 fun d => { d with trav := some { tree := 3, cores := 1, firstBuf := 0 } })
theorem witness_LegEnterAndLeave :
    (∃ (s : State) (ts : Nat), CanIssueS Instr.sLeg s ∧ s.me.leg.peer = none ∧ s.me.leg.overrun = none ∧ (s.die s.myDie).trav.isSome = true ∧ s.me.leg.signed = true ∧ s.me.leg.refused = none ∧ s.me.leg.ended = false ∧ s.me.leg.go = some ts ∧ ts ≤ s.cycle + 1) ∧
    (∃ (s : State), CanIssueS Instr.sLeg s ∧ s.me.leg.peer = none ∧ s.me.leg.overrun = none ∧ (s.die s.myDie).trav.isSome = true ∧ s.me.leg.signed = true ∧ s.me.leg.refused = none ∧ s.me.leg.ended = true ∧ s.me.leg.go = none) ∧
    (∃ (s : State) (ts : Nat), s.cycle + 1 ≤ ts) ∧
    (∃ (s : State), CanIssueS Instr.sSlack s ∧ s.me.leg.timed = true ∧ s.me.leg.start + s.me.leg.len ≤ s.cycle + 1 ∧ (bits s.me.cf.mode 2 1 = 0 ∨ s.me.leg.rise = 0)) ∧
    (∃ (s : State), s.me.leg.timed = true ∧ s.me.leg.start + s.me.leg.len ≤ s.cycle + 1 ∧ bits s.me.cf.mode 2 1 = 1 ∧ 0 < s.me.leg.rise) :=
    ⟨⟨legEnterAndLeave1, 11, by delta CanIssueS; decide +kernel⟩,
    ⟨legEnterAndLeave2, by delta CanIssueS; decide +kernel⟩,
    ⟨legEnterAndLeave1, 11, by decide +kernel⟩,
    ⟨legEnterAndLeave3, by delta CanIssueS; decide +kernel⟩,
    ⟨legEnterAndLeave4, by decide +kernel⟩⟩


theorem witness_TaskWords :
    (∃ (s : State) (m : BitVec 6) (o : BitVec 13), (∀ (t : Engine), inMask m t = true → (s.me.en t).active = false) ∧ CanIssueS (Instr.sFork m o) s ∧ s.me.leg.signed = false ∧ m ≠ 0 ∧ 2 ≤ o.toInt ∧ (s.me.en Engine.c).pc + o.toInt.toNat < s.me.text.len ∧ s.me.text.barred ((s.me.en Engine.c).pc + o.toInt.toNat) s.me.text.len ((s.me.en Engine.c).pc + 2) = some false) ∧
    (∃ (s : State) (m : BitVec 6), CanIssueS (Instr.sJoin m) s ∧ s.me.leg.signed = false) ∧
    (∃ (s : State), CanIssueS Instr.sEnd s ∧ s.me.leg.timed = false ∧ s.inTraverse = false) ∧
    (∃ (s : State) (v : W64) (rest : List W64), CanIssueS Instr.sTrap s ∧ s.stack Engine.c = v :: rest) ∧
    (∃ (s : State), CanIssueS Instr.sYield s ∧ s.me.leg.timed = false) ∧
    (∃ (s : State), CanIssueS Instr.sYieldForce s ∧ s.me.leg.timed = false) :=
    ⟨⟨(at_ .c [5, 7, 9] id), 0x20, 8, by intro t; cases t <;> decide +kernel, by delta CanIssueS; decide +kernel⟩,
    ⟨(at_ .c [5, 7, 9] id), 0x20, by delta CanIssueS; decide +kernel⟩,
    ⟨(at_ .c [5, 7, 9] id), by delta CanIssueS; decide +kernel⟩,
    ⟨(at_ .c [5, 7, 9] id), 5, [7, 9], by delta CanIssueS; decide +kernel⟩,
    ⟨(at_ .c [5, 7, 9] id), by delta CanIssueS; decide +kernel⟩,
    ⟨(at_ .c [5, 7, 9] id), by delta CanIssueS; decide +kernel⟩⟩

def fenceWord1 : State := (at_ .c [] fun k => { k with fences := [{ src := 32, dst := 1, scope := 0, place := 0, before := [] }] })
def fenceWord2 : Fence := { src := 32, dst := 1, scope := 0, place := 0, before := [] }
def fenceWord3 : State := (at_ .c [] fun k => { k with fences := [{ src := 32, dst := 1, scope := 0, place := 0, before := [], drainedAt := some 4 }] })
def fenceWord4 : Fence := { src := 32, dst := 1, scope := 0, place := 0, before := [], drainedAt := some 4 }
def fenceWord5 : State := (at_ .c [] fun k => { k with fences := [{ src := 32, dst := 1, scope := 0, place := 0, before := [], drainedAt := some 10 }] })
theorem witness_FenceWord :
    (∃ (s : State) (sc : BitVec 3) (p : BitVec 6) (q : BitVec 6), CanIssueS (Instr.sFence sc p q) s ∧ s.me.leg.timed = false) ∧
    (∃ (s : State) (f : Fence), s.me.fences = [f] ∧ s.me.posted = [] ∧ (∀ (c : Copy), c ∈ s.me.kop.copies → c.killed = true ∨ f.place ≤ c.place) ∧ (∀ (o : FarOp), o ∈ s.me.far → f.place ≤ o.place) ∧ (∀ (c : Coll), c ∈ s.me.colls → c.done = true ∨ f.place ≤ c.place) ∧ s.me.rows = none ∧ f.upto ≤ s.cycle ∧ f.drainedAt = none) ∧
    (∃ (s : State) (f : Fence) (c : Nat), s.me.fences = [f] ∧ f.drainedAt = some c ∧ c < s.cycle) ∧
    (∃ (s : State) (f : Fence) (b : Nat), s.me.fences = [f] ∧ f.dst / 2 ^ b % 2 = 1 ∧ f.drainedAt = none) ∧
    (∃ (s : State) (f : Fence) (b : Nat) (t : State), s.me.fences = [f] ∧ f.dst / 2 ^ b % 2 = 1 ∧ f.drainedAt = none ∧ t.me.fences = [{ src := f.src, dst := f.dst, scope := f.scope, place := f.place, before := f.before, upto := f.upto, drainedAt := some s.cycle }]) ∧
    (∃ (s : State) (f : Fence) (b : Nat) (t : State) (n : Nat), s.me.fences = [f] ∧ f.dst / 2 ^ b % 2 = 1 ∧ f.drainedAt = none ∧ t.me.fences = [{ src := f.src, dst := f.dst, scope := f.scope, place := f.place, before := f.before, upto := f.upto, drainedAt := some s.cycle }] ∧ s.cycle < n) :=
    ⟨⟨(at_ .c [5, 7, 9] id), 5, 0x20, 1, by delta CanIssueS; decide +kernel⟩,
    ⟨fenceWord1, fenceWord2, by decide +kernel⟩,
    ⟨fenceWord3, fenceWord4, 4, by decide +kernel⟩,
    ⟨fenceWord1, fenceWord2, 0, by decide +kernel⟩,
    ⟨fenceWord1, fenceWord2, 0, fenceWord5, by decide +kernel⟩,
    ⟨fenceWord1, fenceWord2, 0, fenceWord5, 11, by decide +kernel⟩⟩

def datumAcquireRelease1 : State := (at_ .c [64, 3] fun k => { k with tlb := [{ page0 with leaf := 1423 }] })
def datumAcquireRelease2 : FarTo := { die := 0, peer := none, off := 64, mt := 0, loc := some (0, 64, false) }
def datumAcquireRelease3 : State := (at_ .c [64, 3] fun k => { k with tlb := [{ page0 with leaf := 1423 }], swait := .acquire 64 false true })
def datumAcquireRelease4 : State := (at_ .c [64, 3] fun k => { k with tlb := [{ page0 with leaf := 1423 }], held := [{ va := 64, excl := true }], swait := .release 64 [] true })
def datumAcquireRelease5 : State := ((datumAcquireRelease4.setStack .c [3]).release { va := 64, excl := true } (57856 + 5)).1
def datumAcquireRelease6 : State := (at_ .c [64, 3] fun k => { k with tlb := [{ page0 with leaf := 1423 }], held := [{ va := 64, excl := true }] })
def datumAcquireRelease7 : State := (at_ .c [64, 3] fun k => { k with tlb := [{ page0 with leaf := 1423 }], held := [{ va := 64, excl := true }], swait := .release 64 [] false })
theorem witness_DatumAcquireRelease :
    (∃ (s : State) (s2 : State) (sc : BitVec 3) (d : W64) (rest : List W64) (i : Instr) (sh : Bool) (die : Nat) (tier : Nat) (off : Nat) (t : FarTo) (bs : List Byte), s.me.leg.timed = false ∧ s.stack Engine.c = d :: rest ∧ (i = Instr.sAcq sc ∧ sh = false ∨ i = Instr.sAcqSh sc ∧ sh = true) ∧ CanIssueS i s ∧ s.me.swait = SWait.none ∧ BitVec.toNat d % 8 = 0 ∧ datumAt s d = DatumAt.at_ die tier off t s2 ∧ (∀ (h : Held), h ∈ s.me.held → h.va ≠ d) ∧ s.me.held.length < 8 ∧ (s2.die die).peek tier off 8 = some bs ∧ datumBad (leNat bs) = false) ∧
    (∃ (s : State) (sc : BitVec 3) (d : W64) (rest : List W64) (b : Bool), s.me.leg.timed = false ∧ s.stack Engine.c = d :: rest ∧ CanIssueS (Instr.sAcq sc) s ∧ s.me.swait = SWait.acquire d b true) ∧
    (∃ (s : State) (sc : BitVec 3) (d : W64) (rest : List W64) (b : Bool), s.me.leg.timed = false ∧ s.stack Engine.c = d :: rest ∧ CanIssueS (Instr.sAcqSh sc) s ∧ s.me.swait = SWait.acquire d b true) ∧
    (∃ (s : State) (sc : BitVec 3) (d : W64) (rest : List W64) (h : Held) (before : List Posted) (s3 : State), s.me.leg.timed = false ∧ s.stack Engine.c = d :: rest ∧ CanIssueS (Instr.sRel sc) s ∧ s.me.swait = SWait.release d before true ∧ List.find? (fun x => x.va == d) s.me.held = some h ∧ (s.setStack Engine.c rest).release h (57856 + sc.toNat) = (s3, true)) ∧
    (∃ (s : State) (s2 : State) (d : W64) (rest : List W64) (h : Held) (die : Nat) (tier : Nat) (off : Nat) (t : FarTo), s.me.leg.timed = false ∧ s.stack Engine.c = d :: rest ∧ datumAt s d = DatumAt.at_ die tier off t s2 ∧ h.va = d) ∧
    (∃ (s : State) (d : W64) (rest : List W64) (before : List Posted), s.me.leg.timed = false ∧ s.stack Engine.c = d :: rest ∧ s.me.swait = SWait.release d before false ∧ s.me.posted = [] ∧ (∀ (c : Copy), c ∈ s.me.kop.copies → c.landed = true) ∧ s.me.far = [] ∧ s.me.landedAll = true) :=
    ⟨⟨datumAcquireRelease1, datumAcquireRelease1, 5, 64, [3], .sAcq 5, false, 0, 0, 64, datumAcquireRelease2, List.replicate 8 0, by delta CanIssueS; decide +kernel⟩,
    ⟨datumAcquireRelease3, 5, 64, [3], false, by delta CanIssueS; decide +kernel⟩,
    ⟨datumAcquireRelease3, 5, 64, [3], false, by delta CanIssueS; decide +kernel⟩,
    ⟨datumAcquireRelease4, 5, 64, [3], { va := 64, excl := true }, [], datumAcquireRelease5, by delta CanIssueS; decide +kernel⟩,
    ⟨datumAcquireRelease6, (datumOf (datumAt datumAcquireRelease6 64)).2.2.2.2, 64, [3], { va := 64, excl := true }, 0, 0, 64, (datumOf (datumAt datumAcquireRelease6 64)).2.2.2.1, by decide +kernel⟩,
    ⟨datumAcquireRelease7, 64, [3], [], by decide +kernel⟩⟩

def datumWords1 : State := ((at_ .c [] fun k => { k with swait := .acquire 64 false false }).updDie 0 fun d => { d with acqs := [{ core := 0, comes := 3, due := 4, tier := 0, off := 64, shared := false }] })
def datumWords2 : State := ((datumWords1.updDie 0 fun d => { d with acqs := [] }).read 0 0 64 8).1
def datumWords3 : AcqReq := { core := 0, comes := 3, due := 4, tier := 0, off := 64, shared := false }
def datumWords4 : State := ((at_ .c [] fun k => k).updDie 0 fun d => { d with rels := [{ core := 0, due := 4, by_ := 6, va := 64, tier := 0, off := 64, shared := false }] })
def datumWords5 : State := ((datumWords4.updDie 0 fun d => { d with rels := [] }).read 0 0 64 8).1
def datumWords6 : RelReq := { core := 0, due := 4, by_ := 6, va := 64, tier := 0, off := 64, shared := false }
theorem witness_DatumWords :
    (∃ (s : State) (s1 : State) (k : Nat) (bs : List Byte) (q : AcqReq) (w : Nat), (s.die s.myDie).acqs[k]? = some q ∧ q.due ≤ s.cycle ∧ (s.die s.myDie).acqBlocked k q = false ∧ s.waits s.myDie q.tier q.off 8 = false ∧ ((s.updDie s.myDie fun x => { x with acqs := x.acqs.eraseIdx k }).read s.myDie q.tier q.off 8 = (s1, some bs)) ∧ datumBad (leNat bs) = false ∧ grantWord s.package q.core (leNat bs) q.shared = some w) ∧
    (∃ (s : State) (s1 : State) (bs : List Byte) (q : RelReq), (s.die s.myDie).rels[0]? = some q ∧ q.due ≤ s.cycle ∧ s.waits s.myDie q.tier q.off 8 = false ∧ ((s.updDie s.myDie fun x => { x with rels := x.rels.eraseIdx 0 }).read s.myDie q.tier q.off 8 = (s1, some bs))) ∧
    (∃ (package : Nat) (core : Nat), package < 1024 ∧ core < 4096) ∧
    (∃ (w : Nat) (w' : Nat) (p : Nat) (c : Nat), grantWord p c w true = some w') :=
    ⟨⟨datumWords1, datumWords2, 0, List.replicate 8 0, datumWords3, datumTaken 0 0, by decide +kernel⟩,
    ⟨datumWords4, datumWords5, List.replicate 8 0, datumWords6, by decide +kernel⟩,
    ⟨1023, 4095, by decide +kernel⟩,
    ⟨0, 2^38, 0, 0, by decide +kernel⟩⟩

def planeWords1 : State := ((at_ .a [4, 9] fun k => k).updDie 0 fun d => { d with dg := [(500, BitVec.allOnes 64), (1024, 9367487224930631936), (1538, 9223372036854775808)], groups := [(2, { members := [0] })] })
def planeWords2 : State := ((at_ .a [1, 128, 9] fun k => k).updDie 0 fun d => { d with dg := [(500, BitVec.allOnes 64), (1024, 9367487224930631936), (1538, 9223372036854775808)], groups := [(2, { members := [0] })] })
def planeWords3 : State := ((at_ .a [8, 9] fun k => k).updDie 0 fun d => { d with dg := [(500, BitVec.allOnes 64), (1024, 9376494424185372928), (1538, 9223372036854775808)], groups := [(2, { members := [0] })] })
def planeWords4 : State := ((at_ .a [65535, 4, 9] fun k => k).updDie 0 fun d => { d with dg := [(500, BitVec.allOnes 64), (1024, 9367487224930631936), (1538, 9223372036854775808)], groups := [(2, { members := [0] })] })
def planeWords5 : State := ((at_ .a [128, 9] fun k => k.setQueue 5 [{ fmt := 8, bytes := List.replicate 128 3, enable := 5 }]).updDie 0 fun d => { d with dg := [(500, BitVec.allOnes 64), (1024, 9367487224930631936), (1538, 9223372036854775808)], groups := [(2, { members := [0] })] })
def planeWords6 : State := ((at_ .a [2, 128, 9] fun k => k.setQueue 5 [{ fmt := 8, bytes := List.replicate 128 3, enable := 5 }]).updDie 0 fun d => { d with dg := [(500, BitVec.allOnes 64), (1024, 9367487224930631936), (1538, 9223372036854775808)], groups := [(2, { members := [0] })] })
theorem witness_PlaneWords :
    (∃ (s : State) (ca : W64) (rest : List W64) (j : Nat) (near : Nat), (s.die s.myDie).regionAt (BitVec.toNat ca) = some j ∧ (near = if BitVec.toNat ca / 2 ^ 20 = s.actor % 512 / 16 then 3 else 9) ∧ CanIssue Engine.a Instr.aPld s ∧ top Engine.a s = ca :: rest ∧ BitVec.toNat ca % regionWidth ((s.die s.myDie).reg j) = 0) ∧
    (∃ (s : State) (v : W64) (ca : W64) (rest : List W64) (j : Nat) (near : Nat) (q : BitVec 2), (s.die s.myDie).regionAt (BitVec.toNat ca) = some j ∧ (near = if BitVec.toNat ca / 2 ^ 20 = s.actor % 512 / 16 then 3 else 9) ∧ CanIssue Engine.a (Instr.aPldQueue q) s ∧ top Engine.a s = v :: ca :: rest ∧ BitVec.toNat ca % 128 = 0 ∧ BitVec.toNat v < 16 ∧ v ≠ 13 ∧ s.me.bound q.toNat = false ∧ s.me.room q.toNat 1 = true) ∧
    (∃ (s : State) (v : W64) (ca : W64) (rest : List W64) (j : Nat) (near : Nat), (s.die s.myDie).regionAt (BitVec.toNat ca) = some j ∧ (near = if BitVec.toNat ca / 2 ^ 20 = s.actor % 512 / 16 then 3 else 9) ∧ (s.die s.myDie).mayStore (regionGroup ((s.die s.myDie).reg j)) s.actor (BitVec.toNat ca) = none ∧ CanIssue Engine.a Instr.aPst s ∧ top Engine.a s = ca :: v :: rest ∧ BitVec.toNat ca % regionWidth ((s.die s.myDie).reg j) = 0) ∧
    (∃ (s : State) (v : W64) (ca : W64) (p : W64) (rest : List W64) (j : Nat) (near : Nat), (s.die s.myDie).regionAt (BitVec.toNat ca) = some j ∧ (near = if BitVec.toNat ca / 2 ^ 20 = s.actor % 512 / 16 then 3 else 9) ∧ (s.die s.myDie).mayStore (regionGroup ((s.die s.myDie).reg j)) s.actor (BitVec.toNat ca) = none ∧ CanIssue Engine.a Instr.aPstPri s ∧ top Engine.a s = p :: ca :: v :: rest ∧ BitVec.toNat p < 65536 ∧ regionRule ((s.die s.myDie).reg j) = 0 ∧ BitVec.toNat ca % regionWidth ((s.die s.myDie).reg j) = 0) ∧
    (∃ (s : State) (ca : W64) (rest : List W64) (j : Nat) (near : Nat) (q : BitVec 1) (e : QEntry) (es : List QEntry), (s.die s.myDie).regionAt (BitVec.toNat ca) = some j ∧ (near = if BitVec.toNat ca / 2 ^ 20 = s.actor % 512 / 16 then 3 else 9) ∧ (s.die s.myDie).mayStore (regionGroup ((s.die s.myDie).reg j)) s.actor (BitVec.toNat ca) = none ∧ s.me.queue (4 + q.toNat) = e :: es ∧ s.me.bound (4 + q.toNat) = false ∧ fmtBytes e.fmt = regionWidth ((s.die s.myDie).reg j) ∧ BitVec.toNat ca % 128 = 0 ∧ CanIssue Engine.a (Instr.aPstQueue q) s ∧ top Engine.a s = ca :: rest) ∧
    (∃ (s : State) (ca : W64) (p : W64) (rest : List W64) (j : Nat) (near : Nat) (q : BitVec 1) (e : QEntry) (es : List QEntry), (s.die s.myDie).regionAt (BitVec.toNat ca) = some j ∧ (near = if BitVec.toNat ca / 2 ^ 20 = s.actor % 512 / 16 then 3 else 9) ∧ (s.die s.myDie).mayStore (regionGroup ((s.die s.myDie).reg j)) s.actor (BitVec.toNat ca) = none ∧ s.me.queue (4 + q.toNat) = e :: es ∧ s.me.bound (4 + q.toNat) = false ∧ fmtBytes e.fmt = regionWidth ((s.die s.myDie).reg j) ∧ BitVec.toNat ca % 128 = 0 ∧ CanIssue Engine.a (Instr.aPstPriQueue q) s ∧ top Engine.a s = p :: ca :: rest ∧ BitVec.toNat p < 65536 ∧ regionRule ((s.die s.myDie).reg j) = 0) :=
    ⟨⟨planeWords1, 4, [9], 1024, 3, by delta CanIssue; decide +kernel⟩,
    ⟨planeWords2, 1, 128, [9], 1024, 3, 3, by delta CanIssue; decide +kernel⟩,
    ⟨planeWords3, 9, 8, [], 1024, 3, by delta CanIssue; decide +kernel⟩,
    ⟨planeWords4, 9, 4, 65535, [], 1024, 3, by delta CanIssue; decide +kernel⟩,
    ⟨planeWords5, 128, [9], 1024, 3, 1, { fmt := 8, bytes := List.replicate 128 3, enable := 5 }, [], by delta CanIssue; decide +kernel⟩,
    ⟨planeWords6, 128, 2, [9], 1024, 3, 1, { fmt := 8, bytes := List.replicate 128 3, enable := 5 }, [], by delta CanIssue; decide +kernel⟩⟩

def stepWords1 : State := ((at_ .c [] fun k => { k with swait := .step 2 false true none }).updDie 0 fun d => { d with dg := [(272, 2), (500, BitVec.allOnes 64), (1024, 9367487224930631936), (1538, 9223372036854775808)], groups := [(2, { members := [0], arrived := [(0, false, 3, 3)] })] })
def stepWords2 : State := ((at_ .c [] fun k => k).updDie 0 fun d => { d with dg := [(272, 2), (500, BitVec.allOnes 64), (1024, 9367487224930631936), (1538, 9223372036854775808)], groups := [(2, { members := [0], arrived := [] })] })
def stepWords3 : State := ((at_ .c [] fun k => k).updDie 0 fun d => { d with dg := [(272, 2), (500, BitVec.allOnes 64), (1024, 9367487224930631936), (1538, 9223372036854775808)], groups := [(2, { members := [0], arrived := [(0, true, 3, 3)] })] })
def stepWords4 : State := ((at_ .c [] fun k => k).updDie 0 fun d => { d with dg := [(272, 2), (500, BitVec.allOnes 64), (1024, 9367487224930631936), (1538, 9223372036854775808)], groups := [(2, { members := [0], arrived := [(0, false, 4, 4)] })] })
def stepWords5 : State := ((at_ .c [] fun k => k).updDie 0 fun d => { d with dg := [(272, 2), (500, BitVec.allOnes 64), (1024, 9403516021949595904), (1538, 9223372036854775808)], groups := [(2, { members := [0, 1], arrived := [(0, false, 1, 1), (1, false, 1, 1)] })], stores := [{ addr := 4, rank := 1, place := 3, order := 0, val := 5, pri := 0 }, { addr := 4, rank := 0, place := 3, order := 0, val := 5, pri := 0 }] })
def stepWords6 : List PlaneStore := [{ addr := 4, rank := 1, place := 3, order := 0, val := 5, pri := 0 }, { addr := 4, rank := 0, place := 3, order := 0, val := 5, pri := 0 }]
def stepWords7 : PlaneStore := { addr := 4, rank := 0, place := 3, order := 0, val := 5, pri := 0 }
def stepWords8 : PlaneStore := { addr := 4, rank := 1, place := 3, order := 0, val := 5, pri := 0 }
def stepWords9 : State := ((at_ .c [] fun k => k).updDie 0 fun d => { d with dg := [(272, 2), (500, BitVec.allOnes 64), (1024, 9367487224930631936), (1538, 9223372036854775808)], groups := [(2, { members := [0, 1], arrived := [(0, false, 4, 4)] })] })
theorem witness_StepWords :
    (∃ (s : State) (g : BitVec 4) (i : Instr) (drop : Bool) (h : Nat) (b : Bool) (p : Option W64), (s.die s.myDie).formed g.toNat = true ∧ (s.die s.myDie).groupFrozen g.toNat = false ∧ (i = Instr.sStep g ∧ drop = false ∨ i = Instr.sStepDrop g ∧ drop = true) ∧ CanIssueS i s ∧ ((s.die s.myDie).group g.toNat).live.contains s.actor = true ∧ s.me.swait = SWait.step h b true p) ∧
    (∃ (s : State) (g : BitVec 4) (i : Instr) (drop : Bool), (s.die s.myDie).formed g.toNat = true ∧ (s.die s.myDie).groupFrozen g.toNat = false ∧ (i = Instr.sStep g ∧ drop = false ∨ i = Instr.sStepDrop g ∧ drop = true) ∧ CanIssueS i s ∧ ((s.die s.myDie).group g.toNat).live.contains s.actor = true ∧ s.me.swait = SWait.none ∧ s.me.planeDue ≤ s.cycle ∧ (∀ (c : Copy), c ∈ s.me.kop.copies → c.landed = true ∨ (c.geo.ss = 3 → c.pieces.length ≤ c.taken) ∧ (c.geo.ds = 3 → c.pieces.length ≤ c.taken ∧ c.moves = []))) ∧
    (∃ (s : State) (g : BitVec 4), (s.die s.myDie).formed g.toNat = true ∧ (s.die s.myDie).groupFrozen g.toNat = false ∧ ((s.die s.myDie).group g.toNat).complete = true ∧ ((s.die s.myDie).group g.toNat).settleAt ≤ s.cycle ∧ ((((s.die s.myDie).group g.toNat).arrived.any fun a => a.snd.fst) = true)) ∧
    (∃ (s : State) (g : BitVec 4), (s.die s.myDie).formed g.toNat = true ∧ (s.die s.myDie).groupFrozen g.toNat = false ∧ ((s.die s.myDie).group g.toNat).complete = true ∧ ((s.die s.myDie).group g.toNat).settleAt ≤ s.cycle ∧ ((((s.die s.myDie).group g.toNat).arrived.any fun a => a.snd.fst) = false) ∧ (s.die s.myDie).collision g.toNat = none) ∧
    (∃ (s : State) (g : BitVec 4) (a : Nat) (xs : List PlaneStore) (x : PlaneStore) (y : PlaneStore), (s.die s.myDie).formed g.toNat = true ∧ (s.die s.myDie).groupFrozen g.toNat = false ∧ ((s.die s.myDie).group g.toNat).complete = true ∧ ((s.die s.myDie).group g.toNat).settleAt ≤ s.cycle ∧ ((((s.die s.myDie).group g.toNat).arrived.any fun a => a.snd.fst) = false) ∧ (s.die s.myDie).collision g.toNat = some (a, xs) ∧ firstStore xs = some x ∧ firstStore (List.filter (fun z => decide (some z ≠ some x)) xs) = some y) ∧
    (∃ (s : State) (g : BitVec 4), (s.die s.myDie).formed g.toNat = true ∧ (s.die s.myDie).groupFrozen g.toNat = false ∧ ((s.die s.myDie).group g.toNat).arrived ≠ [] ∧ ((s.die s.myDie).group g.toNat).complete = false ∧ bits ((s.die s.myDie).reg 272) 0 32 ≠ 0 ∧ (∃ m, m ∈ ((s.die s.myDie).group g.toNat).live ∧ (s.core m).run ≠ Run.running) ∧ (∀ (a : Nat × Bool × Nat × Nat), a ∈ ((s.die s.myDie).group g.toNat).arrived → a.snd.snd.fst + bits ((s.die s.myDie).reg 272) 0 32 ≤ s.cycle)) :=
    ⟨⟨stepWords1, 2, .sStep 2, false, 2, false, none, by delta CanIssueS; decide +kernel⟩,
    ⟨stepWords2, 2, .sStepDrop 2, true, by delta CanIssueS; decide +kernel⟩,
    ⟨stepWords3, 2, by decide +kernel⟩,
    ⟨stepWords4, 2, by decide +kernel⟩,
    ⟨stepWords5, 2, 4, stepWords6, stepWords7, stepWords8, by decide +kernel⟩,
    ⟨stepWords9, 2, by decide +kernel⟩⟩

def planeSettlement1 : List PlaneStore := [{ addr := 0, rank := 0, place := 1, order := 0, val := 5, pri := 7 }, { addr := 0, rank := 1, place := 1, order := 1, val := 6, pri := 7 }, { addr := 0, rank := 1, place := 2, order := 2, val := 8, pri := 7 }]
def planeSettlement2 : List PlaneStore := [{ addr := 0, rank := 0, place := 1, order := 0, val := 5, pri := 7 }, { addr := 0, rank := 1, place := 1, order := 1, val := 18446744073709551610, pri := 7 }]
def planeSettlement3 : List PlaneStore := [{ addr := 0, rank := 0, place := 1, order := 0, val := 9223372036854775808, pri := 7 }, { addr := 0, rank := 1, place := 1, order := 1, val := 18446744073709551615, pri := 7 }]
def planeSettlement4 : List PlaneStore := [{ addr := 0, rank := 0, place := 1, order := 0, val := 9223372036854775807, pri := 7 }, { addr := 0, rank := 1, place := 1, order := 1, val := 1, pri := 7 }]
theorem witness_PlaneSettlement :
    (∃ (v : W64) (xs : List PlaneStore), regionRule v = 0 ∧ xs ≠ []) ∧
    (∃ (v : W64) (xs : List PlaneStore), regionRule v = 1 ∧ (-2 ^ 63 ≤ storeSum xs ∧ storeSum xs < 2 ^ 63)) ∧
    (∃ (v : W64) (xs : List PlaneStore), regionRule v = 1 ∧ storeSum xs < -2 ^ 63) ∧
    (∃ (v : W64) (xs : List PlaneStore), regionRule v = 1 ∧ 2 ^ 63 ≤ storeSum xs) ∧
    (∃ (v : W64), regionRule v = 2) :=
    ⟨⟨9367487224930631936, planeSettlement1, by decide +kernel⟩,
    ⟨9385501623440113920, planeSettlement2, by decide +kernel⟩,
    ⟨9385501623440113920, planeSettlement3, by decide +kernel⟩,
    ⟨9385501623440113920, planeSettlement4, by decide +kernel⟩,
    ⟨9403516021949595904, by decide +kernel⟩⟩

def bindAndTokenWords1 : State := (at_ .c [1048576, 4096, 64] fun k => { k with tlb := [{ page0 with leaf := 1423 }], held := [{ va := 64, excl := true }], swait := .bind 64 4096 1048576 false 4 (some true) })
def bindAndTokenWords2 : State := (at_ .c [1048576, 4096, 64] fun k => { k with tlb := [{ page0 with leaf := 1423 }], held := [{ va := 64, excl := true }] })
def bindAndTokenWords3 : FarTo := { die := 0, peer := none, off := 64, mt := 0, loc := some (0, 64, false) }
def bindAndTokenWords4 : State := (at_ .c [] fun k => { k with swait := .bind 64 4096 3 false 4 none })
def bindAndTokenWords5 : State := (at_ .c [0] fun k => { k with swait := .token 1 0 (some none) })
def bindAndTokenWords6 : State := ((at_ .c [] fun k => { k with swait := .token 1 64 none }).updDie 0 fun d => { d with tlb := [{ page0 with leaf := 1423 }] })
def bindAndTokenWords7 : Place := { die := 0, peer := none, tier := 0, off := 64, rd := true, w := true, x := false, ra := true, mt := 0, klock := false, size := 3 }
def bindAndTokenWords8 : State := ((at_ .c [] fun k => { k with far := [{ i := .fAmo 0 0, args := [64, 1], tpc := 0, place := 0, va := 64, die := 0, block := false, due := 0, ready := some 4 }] }).updDie 0 fun d => { d with tokens := [{ space := 0, region := 0, excl := true, holders := [(0, 1)] }] })
def bindAndTokenWords9 : Token := { space := 0, region := 0, excl := true, holders := [(0, 1)] }
theorem witness_BindAndTokenWords :
    (∃ (s : State) (d : W64) (va : W64) (n : W64) (rest : List W64) (i : Instr) (un : Bool) (due : Nat), (i = Instr.sBind ∧ un = false ∨ i = Instr.sBindU ∧ un = true) ∧ CanIssueS i s ∧ s.stack Engine.c = n :: va :: d :: rest ∧ s.me.swait = SWait.bind d va (BitVec.toNat n) un due (some true)) ∧
    (∃ (s : State) (d : W64) (va : W64) (n : W64) (rest : List W64) (i : Instr) (un : Bool) (s2 : State) (die : Nat) (tier : Nat) (off : Nat) (t : FarTo), (i = Instr.sBind ∧ un = false ∨ i = Instr.sBindU ∧ un = true) ∧ CanIssueS i s ∧ s.stack Engine.c = n :: va :: d :: rest ∧ s.me.swait = SWait.none ∧ s.me.leg.timed = false ∧ BitVec.toNat d % 8 = 0 ∧ BitVec.toNat va % 4096 = 0 ∧ datumAt s d = DatumAt.at_ die tier off t s2 ∧ (∃ h, h ∈ s.me.held ∧ h.va = d ∧ h.excl = true) ∧ n ≠ 0 ∧ BitVec.toNat n ≤ 2 ^ 20) ∧
    (∃ (s : State) (d : W64) (va : W64) (n : W64) (un : Bool) (due : Nat) (r : List Binding), s.me.swait = SWait.bind d va (BitVec.toNat n) un due none ∧ s.me.peerAsked = [] ∧ due ≤ s.cycle ∧ ((if un = true then unbindRuns (s.die (bits d 55 3)).binds { datum := d, space := s.me.space, va := va, n := BitVec.toNat n } else if s.boundAway (bits d 55 3) { datum := d, space := s.me.space, va := va, n := BitVec.toNat n } = true then none else bindRuns (s.die (bits d 55 3)).binds { datum := d, space := s.me.space, va := va, n := BitVec.toNat n }) = some r)) ∧
    (∃ (s : State) (va : W64) (rest : List W64) (i : Instr) (form : Nat), (i = Instr.sTokenShared ∧ form = 0 ∨ i = Instr.sTokenExcl ∧ form = 1 ∨ i = Instr.sTokenReturn ∧ form = 2) ∧ CanIssueS i s ∧ s.stack Engine.c = va :: rest ∧ s.me.swait = SWait.token form va (some none)) ∧
    (∃ (s : State) (va : W64) (s2 : State) (p : Place) (form : Nat), form < 2 ∧ s.me.swait = SWait.token form va none ∧ s.me.peerAsked = [] ∧ ownerXlat s (bits va 55 3) s.me.space va true false = OwnerX.at_ p s2 ∧ p.mt = 0 ∧ (form = 1 → p.w = true) ∧ (s2.die (bits va 55 3)).token s.me.space (BitVec.toNat va / 2 ^ 21) = none ∧ (s2.die (bits va 55 3)).tokens.length < 16384) ∧
    (∃ (s : State) (t : Token) (k : Nat), (s.die s.myDie).tokens[k]? = some t ∧ s.opWants s.myDie t = true) :=
    ⟨⟨bindAndTokenWords1, 64, 4096, 1048576, [], .sBind, false, 4, by delta CanIssueS; decide +kernel⟩,
    ⟨bindAndTokenWords2, 64, 4096, 1048576, [], .sBindU, true, bindAndTokenWords2, 0, 0, 64, bindAndTokenWords3, by delta CanIssueS; decide +kernel⟩,
    ⟨bindAndTokenWords4, 64, 4096, 3, false, 4, [{ datum := 64, space := 0, va := 4096, n := 3 }], by decide +kernel⟩,
    ⟨bindAndTokenWords5, 0, [], .sTokenExcl, 1, by delta CanIssueS; decide +kernel⟩,
    ⟨bindAndTokenWords6, 64, bindAndTokenWords6, bindAndTokenWords7, 1, by decide +kernel⟩,
    ⟨bindAndTokenWords8, bindAndTokenWords9, 0, by decide +kernel⟩⟩

def streamWords1 : State := (at_ .a [1, 9] fun k => (k.setStream 15 { fields := [(0, 256), (2, 4), (3, 1), (4, 1), (5, 1), (6, 4), (10, 1), (14, 1), (16, 5)] }))
def streamWords2 : State := (at_ .a [1, 9] fun k => (k.setStream 15 { fields := [(0, 256), (2, 4), (3, 1), (4, 1), (5, 1), (6, 4), (10, 1), (14, 1), (16, 5)], active := true }))
def streamWords3 : State := (at_ .a [3, 9] fun k => (k.setStream 15 { fields := [(0, 256), (2, 4), (3, 1), (4, 1), (5, 1), (6, 4), (10, 1), (14, 1), (16, 5)] }))
theorem witness_StreamWords :
    (∃ (s : State) (g : BitVec 4) (v : W64) (rest : List W64) (i : BitVec 5), CanIssue Engine.a (Instr.aSfld g i) s ∧ top Engine.a s = v :: rest ∧ (s.me.stream g.toNat).active = false ∧ fieldFits i.toNat v = true) ∧
    (∃ (i : Nat), i ≠ 19 ∧ i ≠ 20) ∧
    (∃ (s : State) (g : BitVec 4), CanIssue Engine.a (Instr.aSgo g) s ∧ (s.me.stream g.toNat).active = false ∧ s.me.bound (BitVec.toNat ((s.me.stream g.toNat).fld 16)) = false ∧ (s.me.stream g.toNat).legal = true ∧ (s.me.stream g.toNat).pos < (s.me.stream g.toNat).total) ∧
    (∃ (s : State) (g : BitVec 4), CanIssue Engine.a (Instr.aSstop g) s ∧ (s.me.stream g.toNat).active = false) ∧
    (∃ (s : State) (g : BitVec 4), CanIssue Engine.a (Instr.aSstop g) s ∧ (s.me.stream g.toNat).active = true) ∧
    (∃ (s : State) (g : BitVec 4), CanIssue Engine.a (Instr.aSstopDrain g) s ∧ (s.me.stream g.toNat).active = false) ∧
    (∃ (s : State) (g : BitVec 4), CanIssue Engine.a (Instr.aSpos g) s ∧ (top Engine.a s).length < 8) ∧
    (∃ (s : State) (g : BitVec 4) (v : W64) (rest : List W64), CanIssue Engine.a (Instr.aSposSet g) s ∧ top Engine.a s = v :: rest ∧ (s.me.stream g.toNat).active = false ∧ BitVec.toNat v < (s.me.stream g.toNat).total) ∧
    (∃ (s : State) (g : BitVec 4) (v : W64) (rest : List W64), CanIssue Engine.a (Instr.aAgen g) s ∧ top Engine.a s = v :: rest ∧ (s.me.stream g.toNat).legal = true ∧ BitVec.toNat v < (s.me.stream g.toNat).total) :=
    ⟨⟨(at_ .a [1, 9] id), 15, 1, [9], 1, by delta CanIssue; decide +kernel⟩,
    ⟨3, by decide +kernel⟩,
    ⟨streamWords1, 15, by delta CanIssue; decide +kernel⟩,
    ⟨streamWords1, 15, by delta CanIssue; decide +kernel⟩,
    ⟨streamWords2, 15, by delta CanIssue; decide +kernel⟩,
    ⟨streamWords1, 15, by delta CanIssue; decide +kernel⟩,
    ⟨streamWords1, 15, by delta CanIssue; decide +kernel⟩,
    ⟨streamWords3, 15, 3, [9], by delta CanIssue; decide +kernel⟩,
    ⟨streamWords3, 15, 3, [9], by delta CanIssue; decide +kernel⟩⟩

def streamRuns1 : State := (at_ .e [] fun k => (k.padWrite 256 (List.replicate 16 7)).setStream 15 { fields := [(0, 256), (2, 4), (3, 1), (4, 1), (5, 1), (6, 4), (10, 1), (14, 1), (16, 3)], active := true })
def streamRuns2 : Stream := { fields := [(0, 256), (2, 4), (3, 1), (4, 1), (5, 1), (6, 4), (10, 1), (14, 1), (16, 3)], active := true }
def streamRuns3 : Nat := (Stream.runBytes streamRuns2 0 (Stream.loadEnd streamRuns2 0 0))
def streamRuns4 : Core := (((Core.setStream streamRuns1.me 15 { fields := [(0, 256), (2, 4), (3, 1), (4, 1), (5, 1), (6, 4), (10, 1), (14, 1), (16, 3)], active := true, nextRun := 11 }).takePorts (portsOf false 256 streamRuns3)).padLanded)
def streamRuns5 : State := (at_ .e [] fun k => (k.setStream 15 { fields := [(0, 256), (2, 4), (3, 1), (4, 1), (5, 1), (6, 4), (10, 1), (14, 1), (16, 5)], active := true }).setQueue 5 [{ fmt := 1, bytes := List.replicate 128 3, enable := 5 }])
def streamRuns6 : Stream := { fields := [(0, 256), (2, 4), (3, 1), (4, 1), (5, 1), (6, 4), (10, 1), (14, 1), (16, 5)], active := true }
def streamRuns7 : Nat := (Stream.runBytes streamRuns6 0 (Stream.endOf streamRuns6 0 4 4))
def streamRuns8 : State := (at_ .a [1, 9] fun k => (k.setStream 15 { fields := [(0, 256), (2, 4), (3, 1), (4, 1), (5, 1), (6, 4), (10, 1), (14, 1), (16, 5)], active := true, next := 4 }))
def streamRuns9 : Stream := { fields := [(0, 256), (2, 4), (3, 1), (4, 1), (5, 1), (6, 4), (10, 1), (14, 1), (16, 5)], active := true, next := 4 }
theorem witness_StreamRuns :
    (∃ (s : State) (g : BitVec 4) (x : Stream) (a : Nat) (j1 : Nat) (n : Nat) (k : Core), x = s.me.stream g.toNat ∧ s.me.run = Run.running ∧ s.me.fenceOn 5 s.cycle = false ∧ s.me.acquiring = false ∧ s.owedHeld s.actor g.toNat = false ∧ s.me.leg.timed = false ∧ x.active = true ∧ s.me.runTurn g.toNat s.cycle = true ∧ s.me.overdue g.toNat s.cycle = false ∧ PlainPadStream x ∧ x.nextRun ≤ s.cycle ∧ x.next < x.total ∧ x.asked = [] ∧ x.addr x.next = some a ∧ a % x.unit = 0 ∧ a < 262144 ∧ n = x.runBytes x.next j1 ∧ s.me.filling a n = false ∧ BitVec.toNat (x.fld 16) < 4 ∧ s.me.portTaken (portsOf false a n) = false ∧ j1 = x.loadEnd x.next x.part.length ∧ k = ((s.me.setStream g.toNat { x with nextRun := s.cycle + 1 }).takePorts (portsOf false a n)).padLanded ∧ k.firstUnwritten a n = none) ∧
    (∃ (s : State) (g : BitVec 4) (x : Stream) (a : Nat) (j1 : Nat) (n : Nat) (e : QEntry) (es : List QEntry) (m : Nat) (ll : Nat), x = s.me.stream g.toNat ∧ s.me.run = Run.running ∧ s.me.fenceOn 5 s.cycle = false ∧ s.me.acquiring = false ∧ s.owedHeld s.actor g.toNat = false ∧ s.me.leg.timed = false ∧ x.active = true ∧ s.me.runTurn g.toNat s.cycle = true ∧ s.me.overdue g.toNat s.cycle = false ∧ PlainPadStream x ∧ x.nextRun ≤ s.cycle ∧ x.next < x.total ∧ x.asked = [] ∧ x.addr x.next = some a ∧ a % x.unit = 0 ∧ a < 262144 ∧ n = x.runBytes x.next j1 ∧ s.me.filling a n = false ∧ (¬BitVec.toNat (x.fld 16) < 4) ∧ s.me.portTaken (runPorts a n) = false ∧ s.me.queue (BitVec.toNat (x.fld 16)) = e :: es ∧ e.fmt = x.dfmt ∧ m = (List.takeWhile (fun y => y.fmt == x.dfmt) (e :: es)).length ∧ ll = min x.total (x.next + (x.per * m - e.done)) ∧ j1 = x.endOf x.next ll ll) ∧
    (∃ (s : State) (g : BitVec 4) (x : Stream), x = s.me.stream g.toNat ∧ s.me.run = Run.running ∧ s.me.fenceOn 5 s.cycle = false ∧ s.me.acquiring = false ∧ s.owedHeld s.actor g.toNat = false ∧ s.me.leg.timed = false ∧ x.active = true ∧ (¬BitVec.toNat (x.fld 16) < 4) ∧ x.total ≤ x.next ∧ s.storing g.toNat = false) :=
    ⟨⟨streamRuns1, 15, streamRuns2, 256, (Stream.loadEnd streamRuns2 0 0), streamRuns3, streamRuns4, by delta PlainPadStream; decide +kernel⟩,
    ⟨streamRuns5, 15, streamRuns6, 256, (Stream.endOf streamRuns6 0 4 4), streamRuns7, { fmt := 1, bytes := List.replicate 128 3, enable := 5 }, [], 1, 4, by delta PlainPadStream; decide +kernel⟩,
    ⟨streamRuns8, 15, streamRuns9, by decide +kernel⟩⟩

def lineWords1 : State := (at_ .a [1, 128, 9] fun k => k.padWrite 128 (List.replicate 128 7))
def lineWords2 : State := (at_ .a [128, 9] fun k => k.setQueue 5 [{ fmt := 1, bytes := List.replicate 128 3, enable := 5 }])
def lineWords3 : Place := { die := 0, peer := none, tier := 0, off := 256, rd := true, w := true, x := false, ra := false, mt := 0, klock := false, size := 3 }
def lineWords4 : State := (at_ .a [128, 256, 9] fun k => k.padWrite 128 (List.replicate 128 7))
theorem witness_LineWords :
    (∃ (s : State) (sa : W64) (f : W64) (rest : List W64) (q : BitVec 2), LineFree (arrived Engine.a s) sa ∧ CanIssue Engine.a (Instr.aLdq q) s ∧ top Engine.a s = f :: sa :: rest ∧ BitVec.toNat f < 16 ∧ f ≠ 13 ∧ s.me.bound q.toNat = false ∧ s.me.room q.toNat 1 = true ∧ (readPad (BitVec.toNat sa) 128 ((arrived Engine.a s).setStack Engine.a rest)).me.firstUnwritten (BitVec.toNat sa) 128 = none) ∧
    (∃ (s : State) (sa : W64) (rest : List W64) (q : BitVec 1) (e : QEntry) (es : List QEntry), LineFree (arrived Engine.a s) sa ∧ CanIssue Engine.a (Instr.aStq q) s ∧ top Engine.a s = sa :: rest ∧ s.me.bound (4 + q.toNat) = false ∧ s.me.queue (4 + q.toNat) = e :: es) ∧
    (∃ (s : State) (sa : W64) (va : W64) (rest : List W64) (c : BitVec 2) (p : Place) (s2 : State), LineFree (arrived Engine.a s) sa ∧ s.me.leg.timed = false ∧ CanIssue Engine.a (Instr.aLdg c) s ∧ top Engine.a s = sa :: va :: rest ∧ locate ((arrived Engine.a s).setStack Engine.a rest) va 128 true false = Xlat.at_ p s2) ∧
    (∃ (s : State) (sa : W64) (va : W64) (rest : List W64) (c : BitVec 2) (p : Place) (s2 : State), LineFree (arrived Engine.a s) sa ∧ s.me.leg.timed = false ∧ CanIssue Engine.a (Instr.aStg c) s ∧ top Engine.a s = sa :: va :: rest ∧ locate ((arrived Engine.a s).setStack Engine.a rest) va 128 false true = Xlat.at_ p s2 ∧ (readPad (BitVec.toNat sa) 128 s2).me.firstUnwritten (BitVec.toNat sa) 128 = none) :=
    ⟨⟨lineWords1, 128, 1, [9], 3, by delta CanIssue LineFree; decide +kernel⟩,
    ⟨lineWords2, 128, [9], 1, { fmt := 1, bytes := List.replicate 128 3, enable := 5 }, [], by delta CanIssue LineFree; decide +kernel⟩,
    ⟨(at_ .a [128, 256, 9] id), 128, 256, [9], 3, lineWords3, ((arrived .a (at_ .a [128, 256, 9] id)).setStack .a [9]), by delta CanIssue LineFree; decide +kernel⟩,
    ⟨lineWords4, 128, 256, [9], 3, lineWords3, ((arrived .a lineWords4).setStack .a [9]), by delta CanIssue LineFree; decide +kernel⟩⟩

def validBitWords1 : State := (at_ .a [3, 128, 9] fun k => k.padWrite 128 (List.replicate 8 7))
def validBitWords2 : State := (atPad false 0 0 ((arrived .a validBitWords1).setStack .a [9]))
theorem witness_ValidBitWords :
    (∃ (s : State) (s1 : State) (sa : W64) (n : W64) (rest : List W64), top Engine.a s = n :: sa :: rest ∧ WordsFree (arrived Engine.a s) sa n ∧ s1 = atPad false 0 0 ((arrived Engine.a s).setStack Engine.a rest) ∧ CanIssue Engine.a Instr.aAlloc s) ∧
    (∃ (s : State) (s1 : State) (sa : W64) (n : W64) (rest : List W64), top Engine.a s = n :: sa :: rest ∧ WordsFree (arrived Engine.a s) sa n ∧ s1 = atPad false 0 0 ((arrived Engine.a s).setStack Engine.a rest) ∧ CanIssue Engine.a Instr.aValidCnt s) ∧
    (∃ (s : State) (s1 : State) (sa : W64) (n : W64) (rest : List W64), top Engine.a s = n :: sa :: rest ∧ WordsFree (arrived Engine.a s) sa n ∧ s1 = atPad false 0 0 ((arrived Engine.a s).setStack Engine.a rest) ∧ CanIssue Engine.a Instr.aValidFirst s) ∧
    (∃ (s : State) (s1 : State) (sa : W64) (n : W64) (rest : List W64), top Engine.a s = n :: sa :: rest ∧ WordsFree (arrived Engine.a s) sa n ∧ s1 = atPad false 0 0 ((arrived Engine.a s).setStack Engine.a rest) ∧ CanIssue Engine.a Instr.aValidSet s) :=
    ⟨⟨validBitWords1, validBitWords2, 128, 3, [9], by delta CanIssue WordsFree; decide +kernel⟩,
    ⟨validBitWords1, validBitWords2, 128, 3, [9], by delta CanIssue WordsFree; decide +kernel⟩,
    ⟨validBitWords1, validBitWords2, 128, 3, [9], by delta CanIssue WordsFree; decide +kernel⟩,
    ⟨validBitWords1, validBitWords2, 128, 3, [9], by delta CanIssue WordsFree; decide +kernel⟩⟩

def accessAluAndQueues1 : State := (at_ .a [1, 9, 4] fun k => k.setQueue 3 [{ fmt := 1, bytes := List.replicate 128 3, enable := 5 }])
theorem witness_AccessAluAndQueues :
    (∃ (s : State) (a : W64) (b : W64) (rest : List W64) (o : BitVec 3), CanIssue Engine.a (Instr.aAlu o) s ∧ top Engine.a s = b :: a :: rest) ∧
    (∃ (s : State) (q : BitVec 3), CanIssue Engine.a (Instr.aXqCount q) s ∧ (top Engine.a s).length < 8) ∧
    (∃ (s : State) (q : BitVec 3), s.me.bound q.toNat = false ∧ CanIssue Engine.a (Instr.aXqFlush q) s) ∧
    (∃ (s : State) (q : BitVec 3), s.me.bound q.toNat = false ∧ CanIssue Engine.a (Instr.aXqDrop q) s) ∧
    (∃ (s : State) (a : W64) (b : W64) (rest : List W64) (q : BitVec 3), s.me.bound q.toNat = false ∧ CanIssue Engine.a (Instr.aXqPut q) s ∧ q.toNat < 4 ∧ top Engine.a s = b :: a :: rest ∧ BitVec.toNat b < 16 ∧ b ≠ 13 ∧ s.me.room q.toNat 1 = true ∧ s.me.dueIn q.toNat = 0) :=
    ⟨⟨accessAluAndQueues1, 9, 1, [4], 7, by delta CanIssue; decide +kernel⟩,
    ⟨accessAluAndQueues1, 5, by delta CanIssue; decide +kernel⟩,
    ⟨accessAluAndQueues1, 3, by delta CanIssue; decide +kernel⟩,
    ⟨accessAluAndQueues1, 3, by delta CanIssue; decide +kernel⟩,
    ⟨accessAluAndQueues1, 9, 1, [4], 3, by delta CanIssue; decide +kernel⟩⟩

def elementwiseWords1 : State := (at_ .e [9, 5, 7] fun k => { k with vec := { k.vec with shp := 65537, v := SMap.setRun 0 (SMap.setRun 0 [] 1024 (List.replicate 16 0x41)) 2048 (List.replicate 16 0x42) } })
def elementwiseWords2 : State := (at_ .e [9, 5, 7] fun k => { k with vec := { k.vec with shp := 65542, v := SMap.setRun 0 (SMap.setRun 0 [] 1024 (List.replicate 16 0x41)) 2048 (List.replicate 16 0x42) } })
theorem witness_ElementwiseWords :
    (∃ (i : Instr) (x : EForm) (s : State) (sh : Shape), elemForm i = some x ∧ sh = shapeOf s.me.vec.shp ∧ CanIssue Engine.e i s ∧ sh.ok = true ∧ x.fmts sh.fmt = true ∧ x.bad sh = false ∧ VecReady i sh (x.dw sh.fmt) (x.dn sh) s) ∧
    (∃ (i : Instr) (x : EForm) (s : State) (sh : Shape), elemForm i = some x ∧ sh = shapeOf s.me.vec.shp ∧ CanIssue Engine.e i s ∧ sh.ok = true ∧ x.fmts sh.fmt = true ∧ x.bad sh = false ∧ VecReady i sh (x.dw sh.fmt) (x.dn sh) s) ∧
    (∃ (i : Instr) (x : EForm) (s : State) (sh : Shape), elemForm i = some x ∧ sh = shapeOf s.me.vec.shp ∧ CanIssue Engine.e i s ∧ sh.ok = true ∧ x.fmts sh.fmt = true ∧ x.bad sh = false ∧ VecReady i sh (x.dw sh.fmt) (x.dn sh) s) ∧
    (∃ (i : Instr) (x : EForm) (s : State) (sh : Shape), elemForm i = some x ∧ sh = shapeOf s.me.vec.shp ∧ CanIssue Engine.e i s ∧ sh.ok = true ∧ x.fmts sh.fmt = true ∧ x.bad sh = false ∧ VecReady i sh (x.dw sh.fmt) (x.dn sh) s) ∧
    (∃ (i : Instr) (x : EForm) (s : State) (sh : Shape), elemForm i = some x ∧ sh = shapeOf s.me.vec.shp ∧ CanIssue Engine.e i s ∧ sh.ok = true ∧ x.fmts sh.fmt = true ∧ x.bad sh = false ∧ VecReady i sh (x.dw sh.fmt) (x.dn sh) s) ∧
    (∃ (i : Instr) (x : EForm) (s : State) (sh : Shape), elemForm i = some x ∧ sh = shapeOf s.me.vec.shp ∧ CanIssue Engine.e i s ∧ sh.ok = true ∧ x.fmts sh.fmt = true ∧ x.bad sh = false ∧ VecReady i sh (x.dw sh.fmt) (x.dn sh) s) ∧
    (∃ (i : Instr) (x : EForm) (s : State) (sh : Shape), elemForm i = some x ∧ sh = shapeOf s.me.vec.shp ∧ CanIssue Engine.e i s ∧ sh.ok = true ∧ x.fmts sh.fmt = true ∧ x.bad sh = false ∧ VecReady i sh (x.dw sh.fmt) (x.dn sh) s) ∧
    (∃ (i : Instr) (x : EForm) (s : State) (sh : Shape), elemForm i = some x ∧ sh = shapeOf s.me.vec.shp ∧ CanIssue Engine.e i s ∧ sh.ok = true ∧ x.fmts sh.fmt = true ∧ x.bad sh = false ∧ VecReady i sh (x.dw sh.fmt) (x.dn sh) s) ∧
    (∃ (i : Instr) (x : EForm) (s : State) (sh : Shape), elemForm i = some x ∧ sh = shapeOf s.me.vec.shp ∧ CanIssue Engine.e i s ∧ sh.ok = true ∧ x.fmts sh.fmt = true ∧ x.bad sh = false ∧ VecReady i sh (x.dw sh.fmt) (x.dn sh) s) ∧
    (∃ (i : Instr) (x : EForm) (s : State) (sh : Shape), elemForm i = some x ∧ sh = shapeOf s.me.vec.shp ∧ CanIssue Engine.e i s ∧ sh.ok = true ∧ x.fmts sh.fmt = true ∧ x.bad sh = false ∧ VecReady i sh (x.dw sh.fmt) (x.dn sh) s) ∧
    (∃ (i : Instr) (x : EForm) (s : State) (sh : Shape), elemForm i = some x ∧ sh = shapeOf s.me.vec.shp ∧ CanIssue Engine.e i s ∧ sh.ok = true ∧ x.fmts sh.fmt = true ∧ x.bad sh = false ∧ VecReady i sh (x.dw sh.fmt) (x.dn sh) s) ∧
    (∃ (i : Instr) (x : EForm) (s : State) (sh : Shape), elemForm i = some x ∧ sh = shapeOf s.me.vec.shp ∧ CanIssue Engine.e i s ∧ sh.ok = true ∧ x.fmts sh.fmt = true ∧ x.bad sh = false ∧ VecReady i sh (x.dw sh.fmt) (x.dn sh) s) ∧
    (∃ (i : Instr) (x : EForm) (s : State) (sh : Shape), elemForm i = some x ∧ sh = shapeOf s.me.vec.shp ∧ CanIssue Engine.e i s ∧ sh.ok = true ∧ x.fmts sh.fmt = true ∧ x.bad sh = false ∧ VecReady i sh (x.dw sh.fmt) (x.dn sh) s) ∧
    (∃ (i : Instr) (x : EForm) (s : State) (sh : Shape), elemForm i = some x ∧ sh = shapeOf s.me.vec.shp ∧ CanIssue Engine.e i s ∧ sh.ok = true ∧ x.fmts sh.fmt = true ∧ x.bad sh = false ∧ VecReady i sh (x.dw sh.fmt) (x.dn sh) s) ∧
    (∃ (i : Instr) (x : EForm) (s : State) (sh : Shape), elemForm i = some x ∧ sh = shapeOf s.me.vec.shp ∧ CanIssue Engine.e i s ∧ sh.ok = true ∧ x.fmts sh.fmt = true ∧ x.bad sh = false ∧ VecReady i sh (x.dw sh.fmt) (x.dn sh) s) ∧
    (∃ (i : Instr) (x : EForm) (s : State) (sh : Shape), elemForm i = some x ∧ sh = shapeOf s.me.vec.shp ∧ CanIssue Engine.e i s ∧ sh.ok = true ∧ x.fmts sh.fmt = true ∧ x.bad sh = false ∧ VecReady i sh (x.dw sh.fmt) (x.dn sh) s) :=
    ⟨⟨.eMov 3 0 1 0, ((elemForm (.eMov 3 0 1 0)).get rfl), elementwiseWords1, { rows := 1, cols := 2, fmt := 1 }, rfl, by delta CanIssue VecReady; decide +kernel⟩,
    ⟨.eAdd 3 0 1 2 0, ((elemForm (.eAdd 3 0 1 2 0)).get rfl), elementwiseWords1, { rows := 1, cols := 2, fmt := 1 }, rfl, by delta CanIssue VecReady; decide +kernel⟩,
    ⟨.eSub 3 0 1 22 0, ((elemForm (.eSub 3 0 1 22 0)).get rfl), elementwiseWords1, { rows := 1, cols := 2, fmt := 1 }, rfl, by delta CanIssue VecReady; decide +kernel⟩,
    ⟨.eMul 3 0 1 2 0, ((elemForm (.eMul 3 0 1 2 0)).get rfl), elementwiseWords1, { rows := 1, cols := 2, fmt := 1 }, rfl, by delta CanIssue VecReady; decide +kernel⟩,
    ⟨.eFma 3 0 1 2 1 0 23, ((elemForm (.eFma 3 0 1 2 1 0 23)).get rfl), elementwiseWords1, { rows := 1, cols := 2, fmt := 1 }, rfl, by delta CanIssue VecReady; decide +kernel⟩,
    ⟨.eDiv 3 0 1 2 0, ((elemForm (.eDiv 3 0 1 2 0)).get rfl), elementwiseWords1, { rows := 1, cols := 2, fmt := 1 }, rfl, by delta CanIssue VecReady; decide +kernel⟩,
    ⟨.eSqrt 3 0 1 0, ((elemForm (.eSqrt 3 0 1 0)).get rfl), elementwiseWords1, { rows := 1, cols := 2, fmt := 1 }, rfl, by delta CanIssue VecReady; decide +kernel⟩,
    ⟨.eMin 3 0 1 2 0, ((elemForm (.eMin 3 0 1 2 0)).get rfl), elementwiseWords1, { rows := 1, cols := 2, fmt := 1 }, rfl, by delta CanIssue VecReady; decide +kernel⟩,
    ⟨.eMax 3 0 1 2 1, ((elemForm (.eMax 3 0 1 2 1)).get rfl), elementwiseWords1, { rows := 1, cols := 2, fmt := 1 }, rfl, by delta CanIssue VecReady; decide +kernel⟩,
    ⟨.eCmp 3 0 1 2 3, ((elemForm (.eCmp 3 0 1 2 3)).get rfl), elementwiseWords1, { rows := 1, cols := 2, fmt := 1 }, rfl, by delta CanIssue VecReady; decide +kernel⟩,
    ⟨.eSelect 3 1 1 2 23, ((elemForm (.eSelect 3 1 1 2 23)).get rfl), elementwiseWords1, { rows := 1, cols := 2, fmt := 1 }, rfl, by delta CanIssue VecReady; decide +kernel⟩,
    ⟨.eIadd 3 0 1 2 1, ((elemForm (.eIadd 3 0 1 2 1)).get rfl), elementwiseWords2, { rows := 1, cols := 2, fmt := 6 }, rfl, by delta CanIssue VecReady; decide +kernel⟩,
    ⟨.eImul 3 0 1 2 1, ((elemForm (.eImul 3 0 1 2 1)).get rfl), elementwiseWords2, { rows := 1, cols := 2, fmt := 6 }, rfl, by delta CanIssue VecReady; decide +kernel⟩,
    ⟨.eLogic 3 0 1 2 2, ((elemForm (.eLogic 3 0 1 2 2)).get rfl), elementwiseWords2, { rows := 1, cols := 2, fmt := 6 }, rfl, by delta CanIssue VecReady; decide +kernel⟩,
    ⟨.eShift 3 0 1 2 2, ((elemForm (.eShift 3 0 1 2 2)).get rfl), elementwiseWords2, { rows := 1, cols := 2, fmt := 6 }, rfl, by delta CanIssue VecReady; decide +kernel⟩,
    ⟨.eSfn 3 0 1 1, ((elemForm (.eSfn 3 0 1 1)).get rfl), elementwiseWords1, { rows := 1, cols := 2, fmt := 1 }, rfl, by delta CanIssue VecReady; decide +kernel⟩⟩

def movingWords1 : State := (at_ .e [9, 5, 7] fun k => { k with vec := { k.vec with shp := 65542, v := SMap.setRun 0 (SMap.setRun 0 [] 1024 (List.replicate 16 0x41)) 2048 (List.replicate 16 0x42) } })
def movingWords2 : State := (at_ .e [9, 5, 7] fun k => { k with vec := { k.vec with shp := 65537, v := SMap.setRun 0 (SMap.setRun 0 [] 1024 (List.replicate 16 0x41)) 2048 (List.replicate 16 0x42) } })
theorem witness_MovingWords :
    (∃ (i : Instr) (x : EForm) (s : State) (sh : Shape), movingForm i = some x ∧ sh = shapeOf s.me.vec.shp ∧ CanIssue Engine.e i s ∧ sh.ok = true ∧ x.fmts sh.fmt = true ∧ x.bad sh = false ∧ VecReady i sh (x.dw sh.fmt) (x.dn sh) s) ∧
    (∃ (i : Instr) (x : EForm) (s : State) (sh : Shape), movingForm i = some x ∧ sh = shapeOf s.me.vec.shp ∧ CanIssue Engine.e i s ∧ sh.ok = true ∧ x.fmts sh.fmt = true ∧ x.bad sh = false ∧ VecReady i sh (x.dw sh.fmt) (x.dn sh) s) ∧
    (∃ (i : Instr) (x : EForm) (s : State) (sh : Shape), movingForm i = some x ∧ sh = shapeOf s.me.vec.shp ∧ CanIssue Engine.e i s ∧ sh.ok = true ∧ x.fmts sh.fmt = true ∧ x.bad sh = false ∧ VecReady i sh (x.dw sh.fmt) (x.dn sh) s) ∧
    (∃ (i : Instr) (x : EForm) (s : State) (sh : Shape), movingForm i = some x ∧ sh = shapeOf s.me.vec.shp ∧ CanIssue Engine.e i s ∧ sh.ok = true ∧ x.fmts sh.fmt = true ∧ x.bad sh = false ∧ VecReady i sh (x.dw sh.fmt) (x.dn sh) s) ∧
    (∃ (i : Instr) (x : EForm) (s : State) (sh : Shape), movingForm i = some x ∧ sh = shapeOf s.me.vec.shp ∧ CanIssue Engine.e i s ∧ sh.ok = true ∧ x.fmts sh.fmt = true ∧ x.bad sh = false ∧ VecReady i sh (x.dw sh.fmt) (x.dn sh) s) :=
    ⟨⟨.eImul 2 0 1 2 3, ((movingForm (.eImul 2 0 1 2 3)).get rfl), movingWords1, { rows := 1, cols := 2, fmt := 6 }, rfl, by delta CanIssue VecReady; decide +kernel⟩,
    ⟨.eRed 3 0 1 0 0, ((movingForm (.eRed 3 0 1 0 0)).get rfl), movingWords2, { rows := 1, cols := 2, fmt := 1 }, rfl, by delta CanIssue VecReady; decide +kernel⟩,
    ⟨.eXpose 3 0 1, ((movingForm (.eXpose 3 0 1)).get rfl), movingWords2, { rows := 1, cols := 2, fmt := 1 }, rfl, by delta CanIssue VecReady; decide +kernel⟩,
    ⟨.ePerm 3 0 1 0 1 0 0, ((movingForm (.ePerm 3 0 1 0 1 0 0)).get rfl), movingWords2, { rows := 1, cols := 2, fmt := 1 }, rfl, by delta CanIssue VecReady; decide +kernel⟩,
    ⟨.eTpack 3 0 1, ((movingForm (.eTpack 3 0 1)).get rfl), movingWords1, { rows := 1, cols := 2, fmt := 6 }, rfl, by delta CanIssue VecReady; decide +kernel⟩⟩

def conversionWords1 : State := (at_ .e [9, 5, 7] fun k => { k with vec := { k.vec with shp := 65537, v := SMap.setRun 0 (SMap.setRun 0 [] 1024 (List.replicate 16 0x41)) 2048 (List.replicate 16 0x42) } })
def conversionWords2 : List Val := (((vecRead (.eCvt 3 0 1 23 0 0 2) { rows := 1, cols := 2, fmt := 1 } conversionWords1).1.getD 0 []).map (valueOf 1))
def conversionWords3 : List (Option (Nat × Bool)) := (List.map (fun x => some (round (cvtValue 0 (modeOf 0) x none) 2 (modeOf 0))) conversionWords2)
def conversionWords4 : State := (at_ .e [9, 5, 7] fun k => { k with vec := { k.vec with shp := 2031617, v := SMap.setRun 0 (SMap.setRun 0 [] 1024 (List.replicate 16 0x41)) 2048 (List.replicate 16 0x42) } })
def conversionWords5 : List (Nat × List (Nat × Bool)) := [quantBlock 4 (((vecRead (.eQuant 3 0 1 4 4) { rows := 1, cols := 32, fmt := 1 } conversionWords4).1.getD 0 []).map (valueOf 1))]
theorem witness_ConversionWords :
    (∃ (s : State) (sh : Shape) (d : BitVec 5) (p : BitVec 1) (a : BitVec 5) (b : BitVec 5) (r : BitVec 2) (o : BitVec 3) (f : BitVec 5) (i : Instr) (ps : Option W64) (xs : List Val) (rs : List (Option (Nat × Bool))) (at_ : Nat), sh = shapeOf s.me.vec.shp ∧ i = Instr.eCvt d p a b r o f ∧ CanIssue Engine.e i s ∧ at_ = s.cycle + 5 + max sh.beats ((sh.n * fmtBytes f.toNat + 127) / 128) ∧ sh.ok = true ∧ (o = 0 ∨ sh.fmt = f.toNat) ∧ sh.n * fmtBytes f.toNat ≤ 1024 ∧ VecReady i sh (fmtBytes f.toNat) sh.n s ∧ (ps = if o ≠ 1 ∧ b = 22 then some ((top Engine.e s).getD (if a = 22 then 1 else 0) 0) else none) ∧ xs = List.map (valueOf sh.fmt) ((vecRead i sh s).fst.getD 0 []) ∧ rs = List.map (fun x => some (round (cvtValue o.toNat (modeOf r.toNat) x ps) f.toNat (modeOf r.toNat))) xs) ∧
    (∃ (s : State) (sh : Shape) (d : BitVec 5) (p : BitVec 1) (a : BitVec 5) (sd : BitVec 5) (f : BitVec 5) (i : Instr) (bs : List (Nat × List (Nat × Bool))), sh = shapeOf s.me.vec.shp ∧ i = Instr.eQuant d p a sd f ∧ CanIssue Engine.e i s ∧ sh.ok = true ∧ 1 ≤ sh.fmt ∧ sh.fmt ≤ 3 ∧ sh.cols % 32 = 0 ∧ VecReady i sh 1 sh.n s ∧ s.me.destRoom sd.toNat 1 (sh.n / 32) = true ∧ bs = List.map (fun j => quantBlock f.toNat (List.take 32 (List.drop (32 * j) (List.map (valueOf sh.fmt) ((vecRead i sh s).fst.getD 0 []))))) (List.range (sh.n / 32))) ∧
    (∃ (s : State) (sh : Shape), sh = shapeOf s.me.vec.shp ∧ (top Engine.e s).length < 8 ∧ CanIssue Engine.e Instr.eAmax s) ∧
    (∃ (s : State) (sh : Shape), sh = shapeOf s.me.vec.shp ∧ (top Engine.e s).length < 8 ∧ CanIssue Engine.e Instr.eAmaxReset s) ∧
    (∃ (s : State) (sh : Shape), sh = shapeOf s.me.vec.shp ∧ CanIssue Engine.e Instr.eAmaxClear s) :=
    ⟨⟨conversionWords1, { rows := 1, cols := 2, fmt := 1 }, 3, 0, 1, 23, 0, 0, 2, .eCvt 3 0 1 23 0 0 2, none, conversionWords2, conversionWords3, 16, by delta CanIssue VecReady; decide +kernel⟩,
    ⟨conversionWords4, { rows := 1, cols := 32, fmt := 1 }, 3, 0, 1, 4, 4, .eQuant 3 0 1 4 4, conversionWords5, by delta CanIssue VecReady; decide +kernel⟩,
    ⟨conversionWords1, { rows := 1, cols := 2, fmt := 1 }, by delta CanIssue; decide +kernel⟩,
    ⟨conversionWords1, { rows := 1, cols := 2, fmt := 1 }, by delta CanIssue; decide +kernel⟩,
    ⟨conversionWords1, { rows := 1, cols := 2, fmt := 1 }, by delta CanIssue; decide +kernel⟩⟩

def maskWords1 : State := (at_ .e [9, 5, 7] fun k => { k with vec := { k.vec with shp := 65537, v := SMap.setRun 0 (SMap.setRun 0 [] 1024 (List.replicate 16 0x41)) 2048 (List.replicate 16 0x42) } })
theorem witness_MaskWords :
    (∃ (s : State) (sh : Shape) (a : BitVec 5) (f : BitVec 3) (u : W64) (v : W64) (rest : List W64), sh = shapeOf s.me.vec.shp ∧ CanIssue Engine.e (Instr.eMask a f) s ∧ (f = 4 ∨ sh.ok = true) ∧ (f = 5 → top Engine.e s = v :: u :: rest) ∧ (f.toNat ≤ 2 → VecReady (Instr.eMask a f) sh 1 0 s)) ∧
    (∃ (s : State) (sh : Shape) (a : BitVec 5) (f : BitVec 3) (u : W64) (v : W64) (rest : List W64), sh = shapeOf s.me.vec.shp ∧ CanIssue Engine.e (Instr.eMask a f) s ∧ (f = 4 ∨ sh.ok = true) ∧ (f = 5 → top Engine.e s = v :: u :: rest) ∧ (f.toNat ≤ 2 → VecReady (Instr.eMask a f) sh 1 0 s)) :=
    ⟨⟨maskWords1, { rows := 1, cols := 2, fmt := 1 }, 1, 0, 0, 0, [], by delta CanIssue VecReady; decide +kernel⟩,
    ⟨maskWords1, { rows := 1, cols := 2, fmt := 1 }, 0, 5, 5, 9, [7], by delta CanIssue VecReady; decide +kernel⟩⟩

def shapeRepeatAndQueueWords1 : State := (at_ .e [65793, 7] fun k => { k with vec := { k.vec with shp := 65537, v := SMap.setRun 0 (SMap.setRun 0 [] 1024 (List.replicate 16 0x41)) 2048 (List.replicate 16 0x42) } })
def shapeRepeatAndQueueWords2 : State := (at_ .e [1, 7] fun k => { k with vec := { k.vec with shp := 65537, v := SMap.setRun 0 (SMap.setRun 0 [] 1024 (List.replicate 16 0x41)) 2048 (List.replicate 16 0x42) } }.setQueue 1 [{ fmt := 1, bytes := List.replicate 128 3, enable := 5 }])
theorem witness_ShapeRepeatAndQueueWords :
    (∃ (s : State) (sh : Shape) (v : W64) (rest : List W64), sh = shapeOf s.me.vec.shp ∧ CanIssue Engine.e Instr.eShape s ∧ top Engine.e s = v :: rest ∧ v &&& ~~~8326943 = 0 ∧ ((shapeOf v).ok = true → (shapeOf v).rows * (shapeOf v).cols * fmtBytes (shapeOf v).fmt ≤ 1024)) ∧
    (∃ (s : State) (sh : Shape), sh = shapeOf s.me.vec.shp ∧ CanIssue Engine.e Instr.eShapeGet s ∧ (top Engine.e s).length < 8) ∧
    (∃ (s : State) (sh : Shape) (m : BitVec 2) (n : BitVec 4), sh = shapeOf s.me.vec.shp ∧ CanIssue Engine.e (Instr.eRep m n) s ∧ s.me.vec.rep = none) ∧
    (∃ (s : State) (sh : Shape) (d : BitVec 5) (p : BitVec 1) (a : BitVec 5), sh = shapeOf s.me.vec.shp ∧ a.toNat < 20 ∧ 16 ≤ a.toNat ∧ s.me.bound (a.toNat - 16) = false ∧ CanIssue Engine.e (Instr.eXq d p a 1) s) ∧
    (∃ (s : State) (sh : Shape) (d : BitVec 5) (p : BitVec 1) (a : BitVec 5), sh = shapeOf s.me.vec.shp ∧ a.toNat < 20 ∧ 16 ≤ a.toNat ∧ s.me.bound (a.toNat - 16) = false ∧ CanIssue Engine.e (Instr.eXq d p a 2) s ∧ sh.ok = true ∧ s.me.rstatDue = false ∧ sh.beats ≤ s.me.readable (a.toNat - 16) ∧ (∀ (e : QEntry), e ∈ List.take sh.beats (s.me.queue (a.toNat - 16)) → e.fmt = sh.fmt)) ∧
    (∃ (s : State) (sh : Shape) (d : BitVec 5) (p : BitVec 1) (a : BitVec 5), sh = shapeOf s.me.vec.shp ∧ CanIssue Engine.e (Instr.eXq d p a 0) s ∧ (a.toNat < 20 → s.me.bound (a.toNat - 16) = false) ∧ (top Engine.e s).length < 8) ∧
    (∃ (s : State) (sh : Shape) (v : W64) (rest : List W64) (d : BitVec 5) (p : BitVec 1) (a : BitVec 5), sh = shapeOf s.me.vec.shp ∧ CanIssue Engine.e (Instr.eXq d p a 3) s ∧ top Engine.e s = v :: rest ∧ sh.ok = true ∧ BitVec.toNat v < sh.n ∧ (a.toNat < 16 → s.me.rstatDue = false) ∧ (arrived Engine.e s).me.tilesPending Engine.e (accTiles [a.toNat]) s.cycle = false) :=
    ⟨⟨shapeRepeatAndQueueWords1, { rows := 1, cols := 2, fmt := 1 }, 65793, [7], by delta CanIssue; decide +kernel⟩,
    ⟨shapeRepeatAndQueueWords1, { rows := 1, cols := 2, fmt := 1 }, by delta CanIssue; decide +kernel⟩,
    ⟨shapeRepeatAndQueueWords1, { rows := 1, cols := 2, fmt := 1 }, 1, 3, by delta CanIssue; decide +kernel⟩,
    ⟨shapeRepeatAndQueueWords1, { rows := 1, cols := 2, fmt := 1 }, 0, 0, 17, by delta CanIssue; decide +kernel⟩,
    ⟨shapeRepeatAndQueueWords2, { rows := 1, cols := 2, fmt := 1 }, 3, 0, 17, by delta CanIssue; decide +kernel⟩,
    ⟨shapeRepeatAndQueueWords2, { rows := 1, cols := 2, fmt := 1 }, 0, 0, 17, by delta CanIssue; decide +kernel⟩,
    ⟨shapeRepeatAndQueueWords2, { rows := 1, cols := 2, fmt := 1 }, 1, [7], 0, 0, 1, by delta CanIssue; decide +kernel⟩⟩

def sourceElements1 : Core := (((at_ .e [1, 7] fun k => { k with vec := { k.vec with shp := 65537, v := SMap.setRun 0 (SMap.setRun 0 [] 1024 (List.replicate 16 0x41)) 2048 (List.replicate 16 0x42) } }.setQueue 1 [{ fmt := 1, bytes := List.replicate 128 3, enable := 5 }])).me)
theorem witness_SourceElements :
    (∃ (sh : Shape) (j : Nat) (r : Nat), j < sh.n ∧ r < 16) ∧
    (∃ (sh : Shape) (j : Nat) (t : Nat), j < sh.n ∧ t < 8) ∧
    (∃ (k : Core) (sh : Shape) (j : Nat) (q : Nat), j < sh.n ∧ q < 4 ∧ (∀ (e : QEntry), e ∈ List.take sh.beats (k.queue q) → e.bytes.length = 128) ∧ sh.beats ≤ (k.queue q).length ∧ 128 % sh.eb = 0) :=
    ⟨⟨{ rows := 1, cols := 2, fmt := 1 }, 1, 1, by decide +kernel⟩,
    ⟨{ rows := 1, cols := 2, fmt := 1 }, 1, 1, by decide +kernel⟩,
    ⟨sourceElements1, { rows := 1, cols := 2, fmt := 1 }, 1, 1, by decide +kernel⟩⟩


theorem witness_RegisterDestination :
    (∃ (r : Nat) (w : Nat) (xs : List (Option Nat)) (j : Nat) (q : Nat) (v : Nat), r < 16 ∧ 0 < w ∧ q < w ∧ xs.getD j none = some v) ∧
    (∃ (r : Nat) (w : Nat) (xs : List (Option Nat)) (a : Nat), (∀ (j q v : Nat), q < w → xs.getD j none = some v → a ≠ 1024 * r + j * w + q) ∧ r < 16 ∧ 0 < w) :=
    ⟨⟨3, 4, [some 7, none], 0, 1, 7, by decide +kernel⟩,
    ⟨3, 4, [some 7, none], 5, by intros; omega, by decide +kernel⟩⟩

def matrixSlotsPlanesAndAccumulator1 : State := (at_ .m [0, 3, 9] fun k => { k with mat := { k.mat with claims := [(3, 1), (4, 2), (5, 1), (6, 1)] } })
def matrixSlotsPlanesAndAccumulator2 : State := (at_ .m [2, 5, 9] fun k => { k with mat := { k.mat with claims := [(3, 1), (4, 2), (5, 1), (6, 1)] } })
def matrixSlotsPlanesAndAccumulator3 : State := (at_ .m [3, 9] fun k => { k with mat := { k.mat with claims := [(3, 1), (4, 2), (5, 1), (6, 1)] } })
def matrixSlotsPlanesAndAccumulator4 : State := (at_ .m [3, 4, 9] fun k => { k with mat := { k.mat with claims := [(3, 1), (4, 2), (5, 1), (6, 1)], slots := SMap.setRun 0 [] (512 * 3) (List.replicate 64 0x44) } })
def matrixSlotsPlanesAndAccumulator5 : State := (at_ .m [9] fun k => { k with mat := { k.mat with claims := [(3, 1), (4, 2), (5, 1), (6, 1)], shadow := some { fmt := 2, sparse := false, data := List.replicate 512 1 } } })
def matrixSlotsPlanesAndAccumulator6 : State := (at_ .m [0, 9] fun k => { k with mat := { k.mat with claims := [(3, 1), (4, 2), (5, 1), (6, 1)] } })
def matrixSlotsPlanesAndAccumulator7 : State := (at_ .m [5, 9] fun k => { k with mat := { k.mat with claims := [(3, 1), (4, 2), (5, 1), (6, 1)] } })
theorem witness_MatrixSlotsPlanesAndAccumulator :
    (∃ (s : State) (a : W64) (n : W64) (rest : List W64) (i : Instr) (st : Nat), top Engine.m s = n :: a :: rest ∧ (i = Instr.mClaim ∧ st = 1 ∨ i = Instr.mClaimR ∧ st = 2) ∧ CanIssue Engine.m i s ∧ n = 0) ∧
    (∃ (s : State) (a : W64) (n : W64) (rest : List W64) (i : Instr) (st : Nat), top Engine.m s = n :: a :: rest ∧ (i = Instr.mClaim ∧ st = 1 ∨ i = Instr.mClaimR ∧ st = 2) ∧ CanIssue Engine.m i s ∧ n ≠ 0 ∧ BitVec.toNat a + BitVec.toNat n ≤ 256 ∧ (∀ (j : Nat), j < BitVec.toNat n → (s.me.claim (BitVec.toNat a + j) = 1 → st = 2 → s.me.slotWritten (BitVec.toNat a + j) = false ∧ s.me.epiDue (BitVec.toNat a + j) 1 = false) ∧ (s.me.claim (BitVec.toNat a + j) = 2 → st = 1 → s.me.slotRead (BitVec.toNat a + j) = false))) ∧
    (∃ (s : State) (a : W64) (n : W64) (rest : List W64), top Engine.m s = n :: a :: rest ∧ CanIssue Engine.m Instr.mRelease s ∧ SlotsUsable s (BitVec.toNat a) (BitVec.toNat n) false ∧ SlotsIdle s (BitVec.toNat a) (BitVec.toNat n)) ∧
    (∃ (s : State) (a : W64) (rest : List W64) (f : BitVec 5), CanIssue Engine.m (Instr.mWload f) s ∧ top Engine.m s = a :: rest ∧ SlotsUsable s (BitVec.toNat a) 1 false ∧ s.me.epiDue (BitVec.toNat a) 1 = false ∧ PlanesFree s ∧ s.me.heldWord Engine.m = false) ∧
    (∃ (s : State) (a : W64) (b : W64) (rest : List W64) (f : BitVec 5), CanIssue Engine.m (Instr.mWloadSp f) s ∧ top Engine.m s = b :: a :: rest ∧ SlotsUsable s (BitVec.toNat a) 1 false ∧ SlotsUsable s (BitVec.toNat b) 1 false ∧ s.me.epiDue (BitVec.toNat a) 1 = false ∧ s.me.epiDue (BitVec.toNat b) 1 = false ∧ PlanesFree s ∧ s.me.heldWord Engine.m = false ∧ (∀ (j : Nat), j < 128 → BitVec.toNat (SMap.get 0 s.me.mat.slots (512 * BitVec.toNat b + j / 2)) / 16 ^ (j % 2) % 4 < BitVec.toNat (SMap.get 0 s.me.mat.slots (512 * BitVec.toNat b + j / 2)) / 16 ^ (j % 2) / 4 % 4)) ∧
    (∃ (s : State), CanIssue Engine.m Instr.mSwap s ∧ s.me.mat.shadow ≠ none ∧ SMap.get 0 s.me.mat.seen 8 ≤ s.cycle ∧ s.me.followDue [] true (s.me.here Engine.m) = false) ∧
    (∃ (s : State) (a : W64) (rest : List W64), CanIssue Engine.m Instr.mRoute s ∧ top Engine.m s = a :: rest ∧ a &&& ~~~9223373136364310527 = 0) ∧
    (∃ (s : State), CanIssue Engine.m Instr.mRouteGet s ∧ (top Engine.m s).length < 8) ∧
    (∃ (s : State) (k : BitVec 3) (i : Instr) (pair : Bool), (i = Instr.mAccClear k ∧ pair = false ∨ i = Instr.mAccClearpair k ∧ pair = true) ∧ CanIssue Engine.m i s ∧ TilesFree s (tilesOf pair k.toNat)) ∧
    (∃ (s : State) (k : BitVec 3) (a : W64) (rest : List W64), CanIssue Engine.m (Instr.mAccLoad k) s ∧ top Engine.m s = a :: rest ∧ SlotsUsable s (BitVec.toNat a) 2 false ∧ s.me.epiDue (BitVec.toNat a) 2 = false ∧ TilesFree s [k.toNat] ∧ s.me.heldWord Engine.m = false) :=
    ⟨⟨matrixSlotsPlanesAndAccumulator1, 3, 0, [9], .mClaim, 1, by delta CanIssue; decide +kernel⟩,
    ⟨matrixSlotsPlanesAndAccumulator2, 5, 2, [9], .mClaim, 1, by delta CanIssue; decide +kernel⟩,
    ⟨matrixSlotsPlanesAndAccumulator2, 5, 2, [9], by delta CanIssue SlotsUsable SlotsIdle; decide +kernel⟩,
    ⟨matrixSlotsPlanesAndAccumulator3, 3, [9], 2, by delta CanIssue SlotsUsable PlanesFree; decide +kernel⟩,
    ⟨matrixSlotsPlanesAndAccumulator4, 4, 3, [9], 2, by delta CanIssue SlotsUsable PlanesFree; decide +kernel⟩,
    ⟨matrixSlotsPlanesAndAccumulator5, by delta CanIssue; decide +kernel⟩,
    ⟨matrixSlotsPlanesAndAccumulator6, 0, [9], by delta CanIssue; decide +kernel⟩,
    ⟨matrixSlotsPlanesAndAccumulator3, by delta CanIssue; decide +kernel⟩,
    ⟨matrixSlotsPlanesAndAccumulator3, 2, .mAccClear 2, false, by delta CanIssue TilesFree; decide +kernel⟩,
    ⟨matrixSlotsPlanesAndAccumulator7, 2, 5, [9], by delta CanIssue SlotsUsable TilesFree; decide +kernel⟩⟩

def matrixProducts1 : State := (at_ .m [BitVec.allOnes 64, BitVec.allOnes 64, BitVec.allOnes 64, 3, 9] fun k => { k with mat := { k.mat with claims := [(3, 1), (4, 2), (5, 1), (6, 1)], active := some { fmt := 2, sparse := false, data := List.replicate 512 1 } } })
def matrixProducts2 : State := (at_ .m [BitVec.allOnes 64, 1, 1, 3, 9] fun k => { k with mat := { k.mat with claims := [(3, 1), (4, 1), (5, 1), (6, 1)], active := some { fmt := 13, sparse := false, data := List.replicate 512 1 } } })
theorem witness_MatrixProducts :
    (∃ (i : Instr) (k : Nat) (n : Nat) (p : Plane) (x : Product) (s : State) (a : W64) (rm : W64) (cm : W64) (dm : W64) (rest : List W64) (r : Nat) (c : Nat) (d : Nat), productOf i p = some x ∧ productWord i = some (k, n) ∧ s.me.mat.active = some p ∧ CanIssue Engine.m i s ∧ top Engine.m s = dm :: cm :: rm :: a :: rest ∧ maskIs rm 16 r ∧ maskIs cm 16 c ∧ maskIs dm (x.depth / x.per) d ∧ SlotsUsable s (BitVec.toNat a) x.slots false ∧ s.me.epiDue (BitVec.toNat a) x.slots = false ∧ TilesFree s (tilesOf x.pair k) ∧ laterTile s.me.mat.made (tilesOf x.pair k) s.cycle = false ∧ s.me.heldWord Engine.m = false) ∧
    (∃ (i : Instr) (k : Nat) (n : Nat) (p : Plane) (x : Product) (s : State) (a : W64) (rm : W64) (cm : W64) (dm : W64) (rest : List W64) (r : Nat) (c : Nat) (d : Nat), productOf i p = some x ∧ productWord i = some (k, n) ∧ s.me.mat.active = some p ∧ CanIssue Engine.m i s ∧ top Engine.m s = dm :: cm :: rm :: a :: rest ∧ maskIs rm 16 r ∧ maskIs cm 16 c ∧ maskIs dm (x.depth / x.per) d ∧ SlotsUsable s (BitVec.toNat a) x.slots false ∧ s.me.epiDue (BitVec.toNat a) x.slots = false ∧ TilesFree s (tilesOf x.pair k) ∧ laterTile s.me.mat.made (tilesOf x.pair k) s.cycle = false ∧ s.me.heldWord Engine.m = false) :=
    ⟨⟨.mMma 0 2, 2, 4, { fmt := 2, sparse := false, data := List.replicate 512 1 }, ((productOf (.mMma 0 2) { fmt := 2, sparse := false, data := List.replicate 512 1 }).get rfl), matrixProducts1, 3, BitVec.allOnes 64, BitVec.allOnes 64, BitVec.allOnes 64, [9], 65535, 65535, 65535, rfl, by delta CanIssue maskIs SlotsUsable TilesFree; decide +kernel⟩,
    ⟨.mTmma 2, 2, 4, { fmt := 13, sparse := false, data := List.replicate 512 1 }, ((productOf (.mTmma 2) { fmt := 13, sparse := false, data := List.replicate 512 1 }).get rfl), matrixProducts2, 3, 1, 1, BitVec.allOnes 64, [9], 1, 1, 4294967295, rfl, by delta CanIssue maskIs SlotsUsable TilesFree; decide +kernel⟩⟩

def epilogueWord1 : State := (at_ .m [5, 1, 1, 9] fun k => { k with mat := { k.mat with claims := [(3, 1), (4, 1), (5, 1)] } })
def epilogueWord2 : List (Option (Nat × Bool)) := ((List.range 256).map (epiElem (epilogueWord1.me) 2 0 2 1 1 0 0))
theorem witness_EpilogueWord :
    (∃ (z : BitVec 1) (d : BitVec 2) (k : BitVec 3) (kind : BitVec 2) (acc : BitVec 2) (f : BitVec 5) (i : Instr) (s : State) (rm : W64) (cm : W64) (sc : W64) (ds : W64) (rest : List W64) (r : Nat) (c : Nat) (o : Nat) (es : List (Option (Nat × Bool))), i = Instr.mEpi z d k kind acc f ∧ CanIssue Engine.m i s ∧ (top Engine.m s = ((if d = 0 then [ds] else []) ++ if kind = 0 then [] else [sc]) ++ cm :: rm :: rest) ∧ maskIs rm 16 r ∧ maskIs cm 16 c ∧ (d = 0 → SlotsUsable s (BitVec.toNat ds) ((256 * fmtBytes f.toNat + 511) / 512) true) ∧ (kind = 2 → SlotsUsable s (BitVec.toNat sc) 1 false) ∧ (d = 2 → BitVec.getLsbD s.me.mat.rt 63 = true ∧ s.me.routeReady = true) ∧ (d = 1 → s.me.room 5 ((256 * fmtBytes f.toNat + 127) / 128) = true) ∧ (d = 0 → s.me.epiDue (BitVec.toNat ds) ((256 * fmtBytes f.toNat + 511) / 512) = false) ∧ (kind = 2 → s.me.epiDue (BitVec.toNat sc) 1 = false ∧ s.me.heldWord Engine.m = false) ∧ (z = 1 → s.me.tileHeld (tilesOf (acc == 2) k.toNat) s.cycle = false) ∧ laterTile s.me.mat.seen (tilesOf (acc == 2) k.toNat) s.cycle = false ∧ s.me.followHolds (tilesOf (acc == 2) k.toNat) false s.cycle = false ∧ (o = if acc = 2 then 8 else 4) ∧ es = List.map (epiElem s.me k.toNat acc.toNat f.toNat r c kind.toNat (if kind = 0 then 0 else sc)) (List.range 256)) :=
    ⟨0, 0, 2, 0, 0, 2, .mEpi 0 0 2 0 0 2, epilogueWord1, 1, 1, 0, 5, [9], 1, 1, 4, epilogueWord2, by delta CanIssue maskIs SlotsUsable; decide +kernel⟩

def copyStateAndWaitWords1 : State := (at_ .k [0, 64, 9] fun k => { { k with tlb := [{ page0 with leaf := 1423 }], kop := { k.kop with poll := none } } with text := textOf [0x81C3] })
def copyStateAndWaitWords2 : Place := { die := 0, peer := none, tier := 0, off := 64, rd := true, w := true, x := false, ra := true, mt := 0, klock := false, size := 3 }
def copyStateAndWaitWords3 : State := (at_ .k [0, 64, 9] fun k => { { k with tlb := [{ page0 with leaf := 1423 }], kop := { k.kop with poll := some { effect := 4, back := 12 } } } with text := textOf [0x81C3] })
def copyStateAndWaitWords4 : State := ((((arrived .k copyStateAndWaitWords3).setStack .k [9])).farRead 0 (Place.at_ copyStateAndWaitWords2 64) 8 0).1
def copyStateAndWaitWords5 : State := (at_ .k [0, 64, 9] fun k => { { k with tlb := [{ page0 with leaf := 1423 }], kop := { k.kop with poll := some { effect := 4, back := 8 } } } with text := textOf [0x81C3] })
def copyStateAndWaitWords6 : State := ((((arrived .k copyStateAndWaitWords5).setStack .k [9])).farRead 0 (Place.at_ copyStateAndWaitWords2 64) 8 0).1
def copyStateAndWaitWords7 : State := (at_ .k [0, 64, 9] fun k => { { k with tlb := [{ page0 with leaf := 1423 }], kop := { k.kop with poll := some { effect := 4, back := 8, got := some 5 } } } with text := textOf [0x81C3] })
def copyStateAndWaitWords8 : State := (at_ .k [7, 64, 9] fun k => { { k with tlb := [{ page0 with leaf := 1423 }], kop := { k.kop with poll := some { effect := 4, back := 8, got := some 5 } } } with text := textOf [0x81C3] })
def copyStateAndWaitWords9 : State := (at_ .k [flagWord 0 3, 9] fun k => { { k with kop := { k.kop with flags := [(5, 7)] } } with text := textOf [0x8185] })
def copyStateAndWaitWords10 : State := (at_ .k [flagWord 1 3, 9] fun k => { { k with kop := { k.kop with flags := [(5, 7)] } } with text := textOf [0x8185] })
def copyStateAndWaitWords11 : State := (at_ .k [flagWord 2 0, 9] fun k => { { k with kop := { k.kop with flags := [(5, 7)] } } with text := textOf [0x8185] })
def copyStateAndWaitWords12 : State := (at_ .k [flagWord 3 3, 9] fun k => { { k with kop := { k.kop with flags := [(5, 7)] } } with text := textOf [0x8185] })
def copyStateAndWaitWords13 : List PageKey := ((walkOf ((arrived .k pinner).setStack .k [9])).2.pinsOf (walkOf ((arrived .k pinner).setStack .k [9])).1)
def copyStateAndWaitWords14 : State := ((((walkOf ((arrived .k pinner).setStack .k [9])).2.keepPages []).pinAll copyStateAndWaitWords13).getD .reset)
def copyStateAndWaitWords15 : State := ((arrived .k (unpinner.setStack .k [8, 64, 9])).setStack .k [9])
def copyStateAndWaitWords16 : List PageKey := ((walkOf copyStateAndWaitWords15).2.pinsOf (walkOf copyStateAndWaitWords15).1)
theorem witness_CopyStateAndWaitWords :
    (∃ (s : State) (i : Instr) (p : Nat) (f : List W64 → Kop → Option Kop) (x : Kop), kopForm i = some (p, f) ∧ CanIssue Engine.k i s ∧ p ≤ (top Engine.k s).length ∧ f (List.take p (top Engine.k s)) s.me.kop = some x) ∧
    (∃ (s : State), CanIssue Engine.k Instr.kCntGet s ∧ (top Engine.k s).length + 2 ≤ 8) ∧
    (∃ (s : State) (w : W64) (a : W64) (rm : W64) (cm : W64) (dm : W64) (rest : List W64) (tern : Bool) (code : Nat) (tile : Nat) (r : Nat) (c : Nat) (d : Nat), CanIssue Engine.k Instr.kFollow s ∧ top Engine.k s = dm :: cm :: rm :: a :: w :: rest ∧ followWord w = some (tern, code, tile) ∧ maskIs rm 16 r ∧ maskIs cm 16 c ∧ maskIs dm (if tern = true then 32 else max (mmaForm code).dense (mmaForm code).sparse) d ∧ ((BitVec.toNat a + if tern = true then 4 else if (mmaForm code).sparse = 0 then 1 else 2) ≤ 256) ∧ s.me.kop.follow = none) ∧
    (∃ (s : State) (rest : List W64) (s2 : State) (x : BitVec 3) (va : W64) (t : W64) (p : Place), CanIssue Engine.k (Instr.kCwait x) s ∧ s.me.leg.timed = false ∧ top Engine.k s = t :: va :: rest ∧ locate ((arrived Engine.k s).setStack Engine.k rest) va 8 true false = Xlat.at_ p s2 ∧ s.me.kop.poll = none ∧ p.peer = none) ∧
    (∃ (s : State) (rest : List W64) (s2 : State) (s3 : State) (x : BitVec 3) (va : W64) (t : W64) (p : Place) (y : Poll) (bs : List Byte), CanIssue Engine.k (Instr.kCwait x) s ∧ s.me.leg.timed = false ∧ top Engine.k s = t :: va :: rest ∧ locate ((arrived Engine.k s).setStack Engine.k rest) va 8 true false = Xlat.at_ p s2 ∧ s.me.kop.poll = some y ∧ y.got = none ∧ y.effect ≤ s.cycle ∧ Unhindered Engine.k p va 8 0 s2 ∧ s2.farRead s2.actor (p.at_ va) 8 p.mt = (s3, some bs) ∧ s.cycle < y.back) ∧
    (∃ (s : State) (rest : List W64) (s2 : State) (s3 : State) (x : BitVec 3) (va : W64) (t : W64) (p : Place) (y : Poll) (bs : List Byte), CanIssue Engine.k (Instr.kCwait x) s ∧ s.me.leg.timed = false ∧ top Engine.k s = t :: va :: rest ∧ locate ((arrived Engine.k s).setStack Engine.k rest) va 8 true false = Xlat.at_ p s2 ∧ s.me.kop.poll = some y ∧ y.got = none ∧ y.effect ≤ s.cycle ∧ Unhindered Engine.k p va 8 0 s2 ∧ s2.farRead s2.actor (p.at_ va) 8 p.mt = (s3, some bs) ∧ y.back ≤ s.cycle ∧ BitVec.toNat t ≤ (BitVec.ofNat 64 (leNat bs)).toNat) ∧
    (∃ (s : State) (rest : List W64) (s2 : State) (s3 : State) (x : BitVec 3) (va : W64) (t : W64) (p : Place) (y : Poll) (bs : List Byte) (s0 : State), CanIssue Engine.k (Instr.kCwait x) s ∧ s.me.leg.timed = false ∧ top Engine.k s = t :: va :: rest ∧ locate ((arrived Engine.k s).setStack Engine.k rest) va 8 true false = Xlat.at_ p s2 ∧ s.me.kop.poll = some y ∧ y.got = none ∧ y.effect ≤ s.cycle ∧ Unhindered Engine.k p va 8 0 s2 ∧ s2.farRead s2.actor (p.at_ va) 8 p.mt = (s3, some bs) ∧ y.back ≤ s.cycle ∧ BitVec.toNat t ≤ (BitVec.ofNat 64 (leNat bs)).toNat ∧ engineTurn s0 Engine.k = Act.run (Instr.kCwait x) s ∧ arrived Engine.k s = s) ∧
    (∃ (s : State) (rest : List W64) (x : BitVec 3) (va : W64) (t : W64) (c : W64) (y : Poll), CanIssue Engine.k (Instr.kCwait x) s ∧ s.me.leg.timed = false ∧ top Engine.k s = t :: va :: rest ∧ s.me.kop.poll = some y ∧ y.got = some c ∧ y.back ≤ s.cycle ∧ BitVec.toNat t ≤ BitVec.toNat c) ∧
    (∃ (s : State) (rest : List W64) (x : BitVec 3) (va : W64) (t : W64) (c : W64) (y : Poll), CanIssue Engine.k (Instr.kCwait x) s ∧ s.me.leg.timed = false ∧ top Engine.k s = t :: va :: rest ∧ s.me.kop.poll = some y ∧ y.got = some c ∧ y.back ≤ s.cycle ∧ BitVec.toNat c < BitVec.toNat t) ∧
    (∃ (s : State) (n : BitVec 6) (v : W64) (rest : List W64) (a : Nat), CanIssue Engine.k (Instr.kFlag n) s ∧ s.flagDue = false ∧ a < 2 ^ 32 ∧ top Engine.k s = v :: rest ∧ v = flagWord 0 a ∧ s.me.leg.timed = false ∧ a ≤ SMap.get 0 s.me.kop.flags n.toNat) ∧
    (∃ (s : State) (n : BitVec 6) (v : W64) (rest : List W64) (a : Nat) (s0 : State), CanIssue Engine.k (Instr.kFlag n) s ∧ s.flagDue = false ∧ a < 2 ^ 32 ∧ top Engine.k s = v :: rest ∧ v = flagWord 0 a ∧ s.me.leg.timed = false ∧ a ≤ SMap.get 0 s.me.kop.flags n.toNat ∧ engineTurn s0 Engine.k = Act.run (Instr.kFlag n) s ∧ arrived Engine.k s = s) ∧
    (∃ (s : State) (n : BitVec 6) (v : W64) (rest : List W64) (a : Nat), CanIssue Engine.k (Instr.kFlag n) s ∧ s.flagDue = false ∧ a < 2 ^ 32 ∧ top Engine.k s = v :: rest ∧ v = flagWord 1 a) ∧
    (∃ (s : State) (n : BitVec 6) (v : W64) (rest : List W64) (a : Nat), CanIssue Engine.k (Instr.kFlag n) s ∧ s.flagDue = false ∧ a < 2 ^ 32 ∧ top Engine.k s = v :: rest ∧ v = flagWord 2 0) ∧
    (∃ (s : State) (n : BitVec 6) (v : W64) (rest : List W64) (a : Nat), CanIssue Engine.k (Instr.kFlag n) s ∧ s.flagDue = false ∧ a < 2 ^ 32 ∧ top Engine.k s = v :: rest ∧ v = flagWord 3 a) ∧
    (∃ (s : State) (s1 : State) (s2 : State) (va : W64) (n : W64) (rest : List W64) (ps : List CopyPage) (qs : List CopyPage) (s0 : State) (keys : List PageKey) (s3 : State), s.me.leg.timed = false ∧ top Engine.k s = n :: va :: rest ∧ 1 ≤ BitVec.toNat n ∧ BitVec.toNat n ≤ 2 ^ 40 ∧ s1 = (arrived Engine.k s).setStack Engine.k rest ∧ pinWalk (arrived Engine.k s) (BitVec.toNat va + BitVec.toNat n) (BitVec.toNat n / 4096 + 2) (BitVec.toNat va) s.me.kop.walked = Pages.ok qs s0 ∧ pinWalk s1 (BitVec.toNat va + BitVec.toNat n) (BitVec.toNat n / 4096 + 2) (BitVec.toNat va) s.me.kop.walked = Pages.ok ps s2 ∧ keys = s2.pinsOf ps ∧ CanIssue Engine.k Instr.kPin s ∧ tooManyPins keys = false ∧ ((s2.updMe fun k => k.havePages Engine.k).pinAll keys = some s3)) ∧
    (∃ (s : State) (s1 : State) (s2 : State) (va : W64) (n : W64) (rest : List W64) (ps : List CopyPage) (qs : List CopyPage) (s0 : State) (keys : List PageKey), s.me.leg.timed = false ∧ top Engine.k s = n :: va :: rest ∧ 1 ≤ BitVec.toNat n ∧ BitVec.toNat n ≤ 2 ^ 40 ∧ s1 = (arrived Engine.k s).setStack Engine.k rest ∧ pinWalk (arrived Engine.k s) (BitVec.toNat va + BitVec.toNat n) (BitVec.toNat n / 4096 + 2) (BitVec.toNat va) s.me.kop.walked = Pages.ok qs s0 ∧ pinWalk s1 (BitVec.toNat va + BitVec.toNat n) (BitVec.toNat n / 4096 + 2) (BitVec.toNat va) s.me.kop.walked = Pages.ok ps s2 ∧ keys = s2.pinsOf ps ∧ CanIssue Engine.k Instr.kPinRelease s ∧ (∀ (q : PageKey), q ∈ keys → q ∈ s2.me.kop.pins)) :=
    ⟨⟨(at_ .k [1, 2, 3, 9] fun k => k), .kGeoSpace, 3, fun v x => if (v.getD 2 0).toNat ≤ 3 ∧ (v.getD 1 0).toNat ≤ 3 ∧ (v.getD 0 0).toNat ≤ 3 then some { x with geo := { x.geo with ss := (v.getD 2 0).toNat, ds := (v.getD 1 0).toNat, cls := (v.getD 0 0).toNat } } else none, { geo := { ss := 3, ds := 2, cls := 1 } }, rfl, by delta CanIssue; decide +kernel⟩,
    ⟨(at_ .k [1, 2, 5, 9] fun k => k), by delta CanIssue; decide +kernel⟩,
    ⟨(at_ .k [BitVec.allOnes 64, 1, 1, 3, 0x6182, 9] fun k => k), 0x6182, 3, 1, 1, BitVec.allOnes 64, [9], false, 0, 2, 1, 1, 2^32-1, by delta CanIssue maskIs; decide +kernel⟩,
    ⟨copyStateAndWaitWords1, [9], ((arrived .k copyStateAndWaitWords1).setStack .k [9]), 3, 64, 0, copyStateAndWaitWords2, by delta CanIssue; decide +kernel⟩,
    ⟨copyStateAndWaitWords3, [9], ((arrived .k copyStateAndWaitWords3).setStack .k [9]), copyStateAndWaitWords4, 3, 64, 0, copyStateAndWaitWords2, { effect := 4, back := 12 }, List.replicate 8 0, by delta CanIssue Unhindered; decide +kernel⟩,
    ⟨copyStateAndWaitWords5, [9], ((arrived .k copyStateAndWaitWords5).setStack .k [9]), copyStateAndWaitWords6, 3, 64, 0, copyStateAndWaitWords2, { effect := 4, back := 8 }, List.replicate 8 0, by delta CanIssue Unhindered; decide +kernel⟩,
    ⟨copyStateAndWaitWords5, [9], ((arrived .k copyStateAndWaitWords5).setStack .k [9]), copyStateAndWaitWords6, 3, 64, 0, copyStateAndWaitWords2, { effect := 4, back := 8 }, List.replicate 8 0, copyStateAndWaitWords5, by delta CanIssue Unhindered; decide +kernel⟩,
    ⟨copyStateAndWaitWords7, [9], 3, 64, 0, 5, { effect := 4, back := 8, got := some 5 }, by delta CanIssue; decide +kernel⟩,
    ⟨copyStateAndWaitWords8, [9], 3, 64, 7, 5, { effect := 4, back := 8, got := some 5 }, by delta CanIssue; decide +kernel⟩,
    ⟨copyStateAndWaitWords9, 5, flagWord 0 3, [9], 3, by delta CanIssue; decide +kernel⟩,
    ⟨copyStateAndWaitWords9, 5, flagWord 0 3, [9], 3, copyStateAndWaitWords9, by delta CanIssue; decide +kernel⟩,
    ⟨copyStateAndWaitWords10, 5, flagWord 1 3, [9], 3, by delta CanIssue; decide +kernel⟩,
    ⟨copyStateAndWaitWords11, 5, flagWord 2 0, [9], 3, by delta CanIssue; decide +kernel⟩,
    ⟨copyStateAndWaitWords12, 5, flagWord 3 3, [9], 3, by delta CanIssue; decide +kernel⟩,
    ⟨pinner, ((arrived .k pinner).setStack .k [9]), (walkOf ((arrived .k pinner).setStack .k [9])).2, 64, 8, [9], (walkOf ((arrived .k pinner).setStack .k [9])).1, (walkOf (arrived .k pinner)).1, (walkOf (arrived .k pinner)).2, copyStateAndWaitWords13, copyStateAndWaitWords14, by delta CanIssue; decide +kernel⟩,
    ⟨(unpinner.setStack .k [8, 64, 9]), copyStateAndWaitWords15, (walkOf copyStateAndWaitWords15).2, 64, 8, [9], (walkOf copyStateAndWaitWords15).1, (walkOf (arrived .k (unpinner.setStack .k [8, 64, 9]))).1, (walkOf (arrived .k (unpinner.setStack .k [8, 64, 9]))).2, copyStateAndWaitWords16, by delta CanIssue; decide +kernel⟩⟩

def copyWords1 : State := (tookOf (Copy.readRun { padCopy with readAt := 4 } (copying { padCopy with readAt := 4 }) (some 64) 4)).2
def copyWords2 : State := (copying { padCopy with taken := 1, moves := [{ piece := padPiece, bytes := [1, 2, 3, 4], at_ := 4 }] })
def copyWords3 : Copy := { padCopy with taken := 1, moves := [{ piece := padPiece, bytes := [1, 2, 3, 4], at_ := 4 }] }
def copyWords4 : Mat × Bool := (match following.me.mma false 0 2 3 1 1 1 with | .ok r => r | _ => ({}, false))
theorem witness_CopyWords :
    (∃ (s : State) (s1 : State) (s2 : State) (s3 : State) (sb : W64) (db : W64) (rest : List W64) (c : Copy) (c2 : Copy) (ps : List CopyPage), CanIssue Engine.k Instr.kCopy s ∧ top Engine.k s = db :: sb :: rest ∧ s1 = (arrived Engine.k s).setStack Engine.k rest ∧ c = copyOf s1 sb db ∧ CopyAllowed c s1 ∧ collectPages Engine.k s1 c.wanted s1.me.kop.walked = Pages.ok ps s2 ∧ tooManyPins (s2.pinsOf ps) = false ∧ (List.filter (fun y => !y.landed) s1.me.kop.copies).length < 16 ∧ s2.pinAll (s2.pinsOf ps) = some s3 ∧ c2 = { c with reads := c.slotsOf false, writes := c.slotsOf true, pages := ps, pins := s2.pinsOf ps }) ∧
    (∃ (s : State) (c : Copy) (run : List Piece) (rest : List (List Piece)) (a : Nat) (bs : List Byte) (s1 : State) (s2 : State), s.me.kop.copies = [c] ∧ s.me.copyTurn s.cycle = true ∧ CopyGoesOn s s1 c ∧ c.moves = [] ∧ c.geo.ss = 0 ∧ groupRuns (List.drop c.taken c.pieces) = run :: rest ∧ ((run.head?.bind fun x => x.src) = some a) ∧ c.readAt ≤ s.cycle ∧ s.me.kop.runAt ≤ s.cycle ∧ c.readRun s1 (some a) (lenOfPieces run) = Taken.ok bs none s2 c) ∧
    (∃ (s : State) (c : Copy) (m : Move) (a : Nat) (s1 : State), s.me.kop.copies = [c] ∧ s.me.copyTurn s.cycle = true ∧ CopyGoesOn s s1 c ∧ c.moves = [m] ∧ c.pieces.length ≤ c.taken ∧ m.at_ ≤ s.cycle ∧ m.piece.dst = some a ∧ c.geo.ds = 0 ∧ c.behind s1 true a m.piece.n = false ∧ s1.me.portTaken (portsOf true a m.piece.n) = false ∧ c.heldIn s1.me = false) ∧
    (∃ (s : State) (c : Copy) (cs : List Copy), s.me.kop.copies = c :: cs ∧ c.landed = false ∧ c.pieces.length ≤ c.taken ∧ c.moves = [] ∧ c.acks = [] ∧ c.ended = none ∧ (∀ (x : Nat), c.tag = some x → s.owedHeld s.actor x = false) ∧ c.lastAt < s.cycle ∧ (∀ (x : Nat), c.tag = some x → s.copyReqs s.actor x = false) ∧ c.stop = none ∧ c.killed = false ∧ s.me.run ≠ Run.killing ∧ c.counterWaits s = false ∧ (c.addCounter s).snd = true) ∧
    (∃ (s : State) (j : Nat) (c : Copy) (f : Follow) (tern : Bool) (code : Nat) (tile : Nat) (r : Mat × Bool), s.me.mma tern code tile f.a f.rm f.cm f.dm = Except.ok r ∧ s.me.run ≠ Run.killing ∧ List.findIdx? (fun c => c.landed && !c.killed) s.me.kop.copies = some j ∧ s.me.kop.copies[j]? = some c ∧ c.follow = some f ∧ s.me.coming Engine.m c.place = [] ∧ s.me.arrayFree s.cycle = true ∧ followWord (BitVec.ofNat 64 f.w) = some (tern, code, tile) ∧ (s.me.en Engine.m).active = false) :=
    ⟨⟨copier, copier1, copier2.2, copier3, 64, 256, [9], (copyOf copier1 64 256), submitted, copier2.1, by delta CanIssue CopyAllowed; decide +kernel⟩,
    ⟨(copying { padCopy with readAt := 4 }), { padCopy with readAt := 4 }, [padPiece], [], 64, [1, 2, 3, 4], (copying { padCopy with readAt := 4 }), copyWords1, by delta CopyGoesOn; decide +kernel⟩,
    ⟨copyWords2, copyWords3, { piece := padPiece, bytes := [1, 2, 3, 4], at_ := 4 }, 256, copyWords2, by delta CopyGoesOn; decide +kernel⟩,
    ⟨(copying { padCopy with taken := 1, lastAt := 4 }), { padCopy with taken := 1, lastAt := 4 }, [], by decide +kernel⟩,
    ⟨following, 0, { padCopy with landed := true, follow := some followOn }, followOn, false, 0, 2, copyWords4, exceptOf_eq _ _ (by decide +kernel), by decide +kernel⟩⟩

def rowWords1 : State := (at_ .w [0x3F800000, 2, 16, 2, 256, 0, 9] fun k => k.padWrite 0 (List.replicate 32 0x41))
theorem witness_RowWords :
    (∃ (s : State) (f : BitVec 3) (m : BitVec 2) (x : RowsArgs), CanIssue Engine.w (Instr.wRows f m) s ∧ 6 ≤ (top Engine.w s).length ∧ x = RowsArgs.of (if f = 0 then 4 else 2) (List.take 6 (top Engine.w s)) ∧ x.check = none) ∧
    (∃ (s : State) (v : W64) (rest : List W64), CanIssue Engine.w Instr.wTime s ∧ top Engine.w s = v :: rest ∧ BitVec.toNat v < 65536) ∧
    (∃ (s : State), CanIssue Engine.w Instr.wTimeGet s ∧ (top Engine.w s).length < 8) ∧
    (∃ (s : State) (i : BitVec 1) (k : BitVec 3) (v : W64) (rm : W64) (cm : W64) (rest : List W64) (r : Nat) (c : Nat), CanIssue Engine.w (Instr.wRstat i k) s ∧ top Engine.w s = cm :: rm :: v :: rest ∧ maskIs rm 16 r ∧ maskIs cm 16 c ∧ BitVec.toNat v < 16 ∧ s.me.tilesPending Engine.w [k.toNat] s.cycle = false ∧ s.me.vBusy (BitVec.toNat v) = false ∧ SMap.get 0 s.me.vec.ready (BitVec.toNat v) ≤ s.cycle + 14) :=
    ⟨⟨(at_ .w [0x3F800000, 2, 16, 2, 256, 0, 9] id), 0, 1, (RowsArgs.of 4 [0x3F800000, 2, 16, 2, 256, 0]), by delta CanIssue; decide +kernel⟩,
    ⟨(at_ .w [7, 9] fun k => k), 7, [9], by delta CanIssue; decide +kernel⟩,
    ⟨rowWords1, by delta CanIssue; decide +kernel⟩,
    ⟨(at_ .w [BitVec.allOnes 64, 1, 3, 9] fun k => k), 0, 2, 3, 1, BitVec.allOnes 64, [9], 1, 65535, by delta CanIssue maskIs; decide +kernel⟩⟩

def rowResults1 : State := (at_ .w [9] fun k => { (k.padWrite 0 (List.replicate 32 0x41)) with rows := some { mode := 1, fmt := 1, args := (RowsArgs.of 4 [0x3F800000, 2, 16, 2, 256, 0]), base := 10, pe := (RowsArgs.of 4 [0x3F800000, 2, 16, 2, 256, 0]).pitch 0, eng := { active := true } } })
def rowResults2 : State := (rowsAfter (1 + ((RowsArgs.of 4 [0x3F800000, 2, 16, 2, 256, 0]).n - 1) * (RowsArgs.of 4 [0x3F800000, 2, 16, 2, 256, 0]).pitch 0 + 3 * (RowsArgs.of 4 [0x3F800000, 2, 16, 2, 256, 0]).beats + 16) rowResults1)
def rowResults3 : State := (at_ .w [9] fun k => { (k.padWrite 0 (List.replicate 32 0x41)) with rows := some { mode := 0, fmt := 1, args := (RowsArgs.of 4 [0x3F800000, 2, 16, 2, 256, 0]), base := 10, pe := (RowsArgs.of 4 [0x3F800000, 2, 16, 2, 256, 0]).pitch 0, eng := { active := true } } })
def rowResults4 : State := (rowsAfter (1 + ((RowsArgs.of 4 [0x3F800000, 2, 16, 2, 256, 0]).n - 1) * (RowsArgs.of 4 [0x3F800000, 2, 16, 2, 256, 0]).pitch 0 + 3 * (RowsArgs.of 4 [0x3F800000, 2, 16, 2, 256, 0]).beats + 16) rowResults3)
def rowResults5 : State := (at_ .w [9] fun k => { (k.padWrite 0 (List.replicate 32 0x41)) with rows := some { mode := 2, fmt := 1, args := (RowsArgs.of 4 [0x3F800000, 2, 16, 2, 256, 0]), base := 10, pe := (RowsArgs.of 4 [0x3F800000, 2, 16, 2, 256, 0]).pitch 0, eng := { active := true } } })
def rowResults6 : State := (rowsAfter (1 + ((RowsArgs.of 4 [0x3F800000, 2, 16, 2, 256, 0]).n - 1) * (RowsArgs.of 4 [0x3F800000, 2, 16, 2, 256, 0]).pitch 0 + 3 * (RowsArgs.of 4 [0x3F800000, 2, 16, 2, 256, 0]).beats + 16) rowResults5)
theorem witness_RowResults :
    (∃ (mode : Nat) (fmt : Nat) (tp : Nat) (x : RowsArgs) (w : Eng) (s : State) (t : State), (fmt = 1 ∧ x.eb = 4 ∨ (fmt = 2 ∨ fmt = 3) ∧ x.eb = 2) ∧ x.check = none ∧ mode ≤ 2 ∧ s.me.leg.timed = false ∧ s.me.rows = some { mode := mode, fmt := fmt, args := x, base := s.cycle, pe := x.pitch tp, eng := w } ∧ (∀ (i : Nat), i < x.n → s.me.firstUnwritten (x.src + i * x.stride) (x.len * x.eb) = none) ∧ t = rowsAfter (1 + (x.n - 1) * x.pitch tp + 3 * x.beats + 16) s) ∧
    (∃ (mode : Nat) (fmt : Nat) (tp : Nat) (x : RowsArgs) (w : Eng) (s : State) (t : State) (i : Nat) (j : Nat) (b : Nat), (fmt = 1 ∧ x.eb = 4 ∨ (fmt = 2 ∨ fmt = 3) ∧ x.eb = 2) ∧ x.check = none ∧ mode ≤ 2 ∧ s.me.leg.timed = false ∧ s.me.rows = some { mode := mode, fmt := fmt, args := x, base := s.cycle, pe := x.pitch tp, eng := w } ∧ (∀ (i : Nat), i < x.n → s.me.firstUnwritten (x.src + i * x.stride) (x.len * x.eb) = none) ∧ t = rowsAfter (1 + (x.n - 1) * x.pitch tp + 3 * x.beats + 16) s ∧ i < x.n ∧ j < x.len ∧ b < x.eb) ∧
    (∃ (mode : Nat) (fmt : Nat) (tp : Nat) (x : RowsArgs) (w : Eng) (s : State) (t : State) (a : Nat), (fmt = 1 ∧ x.eb = 4 ∨ (fmt = 2 ∨ fmt = 3) ∧ x.eb = 2) ∧ x.check = none ∧ mode ≤ 2 ∧ s.me.leg.timed = false ∧ s.me.rows = some { mode := mode, fmt := fmt, args := x, base := s.cycle, pe := x.pitch tp, eng := w } ∧ (∀ (i : Nat), i < x.n → s.me.firstUnwritten (x.src + i * x.stride) (x.len * x.eb) = none) ∧ t = rowsAfter (1 + (x.n - 1) * x.pitch tp + 3 * x.beats + 16) s ∧ (∀ (i : Nat), i < x.n → a < x.dst + i * x.stride ∨ x.dst + i * x.stride + x.len * x.eb ≤ a)) :=
    ⟨⟨1, 1, 0, (RowsArgs.of 4 [0x3F800000, 2, 16, 2, 256, 0]), { active := true }, rowResults1, rowResults2, by decide +kernel⟩,
    ⟨0, 1, 0, (RowsArgs.of 4 [0x3F800000, 2, 16, 2, 256, 0]), { active := true }, rowResults3, rowResults4, 1, 1, 3, by decide +kernel⟩,
    ⟨2, 1, 0, (RowsArgs.of 4 [0x3F800000, 2, 16, 2, 256, 0]), { active := true }, rowResults5, rowResults6, 264, by decide +kernel⟩⟩

def farWords1 : State := (at_ .f [5, 64, 9] fun k => { k with tlb := [{ page0 with leaf := 1423 }] })
def farWords2 : State := (farOf (farTo ((arrived .f farWords1).setStack .f [9]) 64 true true true)).2
def farWords3 : FarTo := (farOf (farTo ((arrived .f farWords1).setStack .f [9]) 64 true true true)).1
def farWords4 : State := (at_ .f [7, 0, 9] fun k => { k with tlb := [{ page0 with leaf := 1423 }] })
def farWords5 : State := (at_ .f [64, 9] fun k => { k with tlb := [{ page0 with leaf := 1423 }], comb := [{ va := 64, bytes := List.replicate 64 (some 3), cycle := 0, die := 1, peer := none, off := 0, mt := 0 }] })
def farWords6 : Comb := { va := 64, bytes := List.replicate 64 (some 3), cycle := 0, die := 1, peer := none, off := 0, mt := 0 }
def farWords7 : FarTo := { die := 0, peer := none, off := 64, mt := 0, loc := some (0, 64, false) }
theorem witness_FarWords :
    (∃ (i : Instr) (x : FarForm) (v : List W64) (s : State) (s2 : State) (t : FarTo), FarSends i x v s ((arrived Engine.f s).setStack Engine.f (List.drop x.pops (top Engine.f s))) s2 t ∧ x.block = false) ∧
    (∃ (i : Instr) (x : FarForm) (v : List W64) (s : State) (s2 : State) (t : FarTo), FarSends i x v s (arrived Engine.f s) s2 t ∧ x.block = true) ∧
    (∃ (s : State) (h : BitVec 4) (c : BitVec 3) (k : BitVec 6) (key : W64) (rest : List W64), CanIssue Engine.f (Instr.fChase h c k) s ∧ s.me.leg.timed = false ∧ top Engine.f s = key :: 0 :: rest) ∧
    (∃ (s : State) (c : BitVec 2) (sgn : BitVec 1) (z : BitVec 2) (va : W64) (rest : List W64) (e : Comb) (bs : List Byte) (s2 : State) (t : FarTo), CanIssue Engine.f (Instr.fRld c sgn z) s ∧ top Engine.f s = va :: rest ∧ BitVec.toNat va % 2 ^ z.toNat = 0 ∧ s.me.combOf va = some e ∧ e.serve va (2 ^ z.toNat) = some bs ∧ bs.length = 2 ^ z.toNat ∧ farTo ((arrived Engine.f s).setStack Engine.f rest) va true false false = FarX.ok t s2) :=
    ⟨⟨.fAmo 0 0, ((farForm (.fAmo 0 0)).get rfl), [5, 64], farWords1, farWords2, farWords3, ⟨rfl, by delta CanIssue; decide +kernel, by decide +kernel, by decide +kernel, rfl, by decide +kernel, by decide +kernel, by delta FarFits; decide +kernel, by decide +kernel⟩, by decide +kernel⟩,
    ⟨.fAmoR 0 0, ((farForm (.fAmoR 0 0)).get rfl), [5, 64], farWords1, (farOf (farTo (arrived .f farWords1) 64 true true true)).2, (farOf (farTo (arrived .f farWords1) 64 true true true)).1, ⟨rfl, by delta CanIssue; decide +kernel, by decide +kernel, by decide +kernel, rfl, by decide +kernel, by decide +kernel, by delta FarFits; decide +kernel, by decide +kernel⟩, by decide +kernel⟩,
    ⟨farWords4, 1, 2, 3, 7, [9], by delta CanIssue; decide +kernel⟩,
    ⟨farWords5, 0, 1, 1, 64, [9], farWords6, [3, 3], ((arrived .f farWords5).setStack .f [9]), farWords7, by delta CanIssue; decide +kernel⟩⟩

def farMemoryAndSketchWords1 : State := (at_ .f [128, 64, 9] fun k => { k with tlb := [{ page0 with leaf := 1423 }] })
def farMemoryAndSketchWords2 : State := (farOf (farTo (arrived .f farMemoryAndSketchWords1) 64 true true true)).2
def farMemoryAndSketchWords3 : State := resOf (readPairs (casBytes 1) 1 128 2 0 [] farMemoryAndSketchWords2 fun _ s => .ok s)
def farMemoryAndSketchWords4 : FarTo := (farOf (farTo (arrived .f farMemoryAndSketchWords1) 64 true true true)).1
def farMemoryAndSketchWords5 : State := (((at_ .f [2^55 + 64, 7, 9] fun k => { k with tlb := [{ page0 with leaf := 1423 }] })).updDie 1 fun d => { readyDie with tlb := [{ page0 with base := 2^34 }] })
def farMemoryAndSketchWords6 : State := (farOf (farTo ((arrived .f farMemoryAndSketchWords5).setStack .f [9]) (2^55 + 64) false true false)).2
def farMemoryAndSketchWords7 : FarTo := (farOf (farTo ((arrived .f farMemoryAndSketchWords5).setStack .f [9]) (2^55 + 64) false true false)).1
def farMemoryAndSketchWords8 : State := (at_ .f [64, 7, 9] fun k => { k with tlb := [{ page0 with leaf := 1423 }] })
def farMemoryAndSketchWords9 : State := (farOf (farTo ((arrived .f farMemoryAndSketchWords8).setStack .f [9]) (64) false true false)).2
def farMemoryAndSketchWords10 : FarTo := (farOf (farTo ((arrived .f farMemoryAndSketchWords8).setStack .f [9]) (64) false true false)).1
def farMemoryAndSketchWords11 : State := ((arrived .f (at_ .f [9] fun k => { k with text := textOf [0xC340] })).setStack .f [])
def farMemoryAndSketchWords12 : State := (at_ .f [1, 2, 64, 9] fun k => { k with tlb := [{ page0 with leaf := 1423 }] })
def farMemoryAndSketchWords13 : State := (farOf (farTo ((arrived .f farMemoryAndSketchWords12).setStack .f [9]) 64 true (((sketchForm (.fSkup 0)).get rfl)).write true)).2
def farMemoryAndSketchWords14 : FarTo := (farOf (farTo ((arrived .f farMemoryAndSketchWords12).setStack .f [9]) 64 true (((sketchForm (.fSkup 0)).get rfl)).write true)).1
def farMemoryAndSketchWords15 : State := (farOf (farTo ((arrived .f farMemoryAndSketchWords12).setStack .f [9]) 64 true (((sketchForm (.fSkup 0)).get rfl)).write true)).2
def farMemoryAndSketchWords16 : State := (at_ .f [64, 128, 9] fun k => { k with tlb := [{ page0 with leaf := 1423 }] })
def farMemoryAndSketchWords17 : State := (farOf (farTo ((arrived .f farMemoryAndSketchWords16).setStack .f [9]) 128 true (((sketchForm (.fSkadd)).get rfl)).write true)).2
def farMemoryAndSketchWords18 : FarTo := (farOf (farTo ((arrived .f farMemoryAndSketchWords16).setStack .f [9]) 128 true (((sketchForm (.fSkadd)).get rfl)).write true)).1
def farMemoryAndSketchWords19 : State := (farOf (farTo (farOf (farTo ((arrived .f farMemoryAndSketchWords16).setStack .f [9]) 128 true (((sketchForm (.fSkadd)).get rfl)).write true)).2 64 true false true)).2
def farMemoryAndSketchWords20 : FarTo := (farOf (farTo (farOf (farTo ((arrived .f farMemoryAndSketchWords16).setStack .f [9]) 128 true (((sketchForm (.fSkadd)).get rfl)).write true)).2 64 true false true)).1
def farMemoryAndSketchWords21 : State := (at_ .f [256, 3, 5, 64, 9] fun k => { k with tlb := [{ page0 with leaf := 1423 }] })
def farMemoryAndSketchWords22 : State := (farOf (farTo ((arrived .f farMemoryAndSketchWords21).setStack .f [9]) 64 true (((sketchForm (.fSkupN 0)).get rfl)).write true)).2
def farMemoryAndSketchWords23 : FarTo := (farOf (farTo ((arrived .f farMemoryAndSketchWords21).setStack .f [9]) 64 true (((sketchForm (.fSkupN 0)).get rfl)).write true)).1
def farMemoryAndSketchWords24 : State := (farOf (farTo (farOf (farTo ((arrived .f farMemoryAndSketchWords21).setStack .f [9]) 64 true (((sketchForm (.fSkupN 0)).get rfl)).write true)).2 256 true false true)).2
def farMemoryAndSketchWords25 : FarTo := (farOf (farTo (farOf (farTo ((arrived .f farMemoryAndSketchWords21).setStack .f [9]) 64 true (((sketchForm (.fSkupN 0)).get rfl)).write true)).2 256 true false true)).1
def farMemoryAndSketchWords26 : State := (at_ .f [5, 64, 9] fun k => { k with tlb := [{ page0 with leaf := 1423 }] })
def farMemoryAndSketchWords27 : State := (farOf (farTo (arrived .f farMemoryAndSketchWords26) 64 true false true)).2
def farMemoryAndSketchWords28 : FarTo := (farOf (farTo (arrived .f farMemoryAndSketchWords26) 64 true false true)).1
theorem witness_FarMemoryAndSketchWords :
    (∃ (s : State) (s1 : State) (s2 : State) (s3 : State) (va : W64) (ea : W64) (rest : List W64) (t : FarTo) (n : BitVec 2) (w : BitVec 1) (ws : List W64), (∀ (f : List W64 → Machine.State → Res), readPairs (casBytes w) (2 ^ n.toNat) ea (2 * 2 ^ n.toNat) 0 [] s2 f = f ws s3) ∧ (arrived Engine.f s).me.farWaits = false ∧ s1 = (arrived Engine.f s).setStack Engine.f rest ∧ CanIssue Engine.f (Instr.fCasM n w) s ∧ s.me.leg.timed = false ∧ top Engine.f s = ea :: va :: rest ∧ BitVec.toNat va % (2 ^ n.toNat * casBytes w) = 0 ∧ BitVec.toNat ea % casBytes w = 0 ∧ farTo (arrived Engine.f s) va true true true = FarX.ok t s2) ∧
    (∃ (s : State) (s1 : State) (s2 : State) (va : W64) (v : W64) (rest : List W64) (t : FarTo) (c : BitVec 2) (z : BitVec 2), (arrived Engine.f s).me.farWaits = false ∧ s1 = (arrived Engine.f s).setStack Engine.f rest ∧ CanIssue Engine.f (Instr.fRst c z) s ∧ top Engine.f s = va :: v :: rest ∧ BitVec.toNat va % 2 ^ z.toNat = 0 ∧ farTo s1 va false true false = FarX.ok t s2 ∧ combines s2 va t = true) ∧
    (∃ (s : State) (s1 : State) (s2 : State) (va : W64) (v : W64) (rest : List W64) (t : FarTo) (c : BitVec 2) (z : BitVec 2), (arrived Engine.f s).me.farWaits = false ∧ s1 = (arrived Engine.f s).setStack Engine.f rest ∧ CanIssue Engine.f (Instr.fRst c z) s ∧ top Engine.f s = va :: v :: rest ∧ BitVec.toNat va % 2 ^ z.toNat = 0 ∧ farTo s1 va false true false = FarX.ok t s2 ∧ combines s2 va t = false) ∧
    (∃ (s : State) (s1 : State) (rest : List W64), (arrived Engine.f s).me.farWaits = false ∧ s1 = (arrived Engine.f s).setStack Engine.f rest ∧ CanIssue Engine.f Instr.fDrain s ∧ s.me.leg.timed = false ∧ (((arrived Engine.f s).flushComb fun x => true).me.reportAt Engine.f false = none) ∧ (((arrived Engine.f s).flushComb fun x => true).me.farDrained = true)) ∧
    (∃ (s : State) (s1 : State) (rest : List W64) (s0 : State), (arrived Engine.f s).me.farWaits = false ∧ s1 = (arrived Engine.f s).setStack Engine.f rest ∧ CanIssue Engine.f Instr.fDrain s ∧ s.me.leg.timed = false ∧ (((arrived Engine.f s).flushComb fun x => true).me.reportAt Engine.f false = none) ∧ (((arrived Engine.f s).flushComb fun x => true).me.farDrained = true) ∧ engineTurn s0 Engine.f = Act.run Instr.fDrain s ∧ arrived Engine.f s = s) ∧
    (∃ (s : State) (s1 : State) (s2 : State) (rest : List W64) (t : FarTo) (i : Instr) (x : SketchForm) (a : List W64) (home : W64) (t2 : State), sketchForm i = some x ∧ (∀ (j n : Nat) (r : Bool), x.vals = some (j, n, r) → BitVec.toNat (a.getD j 0) % n = 0) ∧ (arrived Engine.f s).me.farWaits = false ∧ s1 = (arrived Engine.f s).setStack Engine.f rest ∧ CanIssue Engine.f i s ∧ a = List.take x.pops (top Engine.f s) ∧ a.length = x.pops ∧ rest = List.drop x.pops (top Engine.f s) ∧ (s.me.leg.timed = true → (∃ d, i = Instr.fSkup d) ∧ s.me.leg.sketches < 4096) ∧ (∀ (j : Nat), x.count = some j → 1 ≤ BitVec.toNat (a.getD j 0) ∧ BitVec.toNat (a.getD j 0) ≤ 2 ^ 20) ∧ (∀ (j : Nat), j ∈ x.sks → BitVec.toNat (a.getD j 0) % 64 = 0) ∧ home = a.getD (x.sks.headD 0) 0 ∧ farTo s1 home true x.write true = FarX.ok t s2 ∧ x.vals = none ∧ x.sks.tail = [] ∧ t2 = s2) ∧
    (∃ (s : State) (s1 : State) (s2 : State) (rest : List W64) (t : FarTo) (i : Instr) (x : SketchForm) (a : List W64) (home : W64) (j : Nat) (t2 : State) (u : FarTo), sketchForm i = some x ∧ (∀ (j n : Nat) (r : Bool), x.vals = some (j, n, r) → BitVec.toNat (a.getD j 0) % n = 0) ∧ (arrived Engine.f s).me.farWaits = false ∧ s1 = (arrived Engine.f s).setStack Engine.f rest ∧ CanIssue Engine.f i s ∧ a = List.take x.pops (top Engine.f s) ∧ a.length = x.pops ∧ rest = List.drop x.pops (top Engine.f s) ∧ (s.me.leg.timed = true → (∃ d, i = Instr.fSkup d) ∧ s.me.leg.sketches < 4096) ∧ (∀ (j : Nat), x.count = some j → 1 ≤ BitVec.toNat (a.getD j 0) ∧ BitVec.toNat (a.getD j 0) ≤ 2 ^ 20) ∧ (∀ (j : Nat), j ∈ x.sks → BitVec.toNat (a.getD j 0) % 64 = 0) ∧ home = a.getD (x.sks.headD 0) 0 ∧ farTo s1 home true x.write true = FarX.ok t s2 ∧ x.vals = none ∧ x.sks.tail = [j] ∧ farTo s2 (a.getD j 0) true false true = FarX.ok u t2) ∧
    (∃ (s : State) (s1 : State) (s2 : State) (rest : List W64) (t : FarTo) (i : Instr) (x : SketchForm) (a : List W64) (home : W64) (j : Nat) (n : Nat) (r : Bool) (t2 : State) (u : FarTo), sketchForm i = some x ∧ (∀ (j n : Nat) (r : Bool), x.vals = some (j, n, r) → BitVec.toNat (a.getD j 0) % n = 0) ∧ (arrived Engine.f s).me.farWaits = false ∧ s1 = (arrived Engine.f s).setStack Engine.f rest ∧ CanIssue Engine.f i s ∧ a = List.take x.pops (top Engine.f s) ∧ a.length = x.pops ∧ rest = List.drop x.pops (top Engine.f s) ∧ (s.me.leg.timed = true → (∃ d, i = Instr.fSkup d) ∧ s.me.leg.sketches < 4096) ∧ (∀ (j : Nat), x.count = some j → 1 ≤ BitVec.toNat (a.getD j 0) ∧ BitVec.toNat (a.getD j 0) ≤ 2 ^ 20) ∧ (∀ (j : Nat), j ∈ x.sks → BitVec.toNat (a.getD j 0) % 64 = 0) ∧ home = a.getD (x.sks.headD 0) 0 ∧ farTo s1 home true x.write true = FarX.ok t s2 ∧ x.vals = some (j, n, r) ∧ farTo s2 (a.getD j 0) r (!r) true = FarX.ok u t2) ∧
    (∃ (s : State) (s1 : State) (s2 : State) (va : W64) (v : W64) (rest : List W64) (t : FarTo) (i : BitVec 1), (arrived Engine.f s).me.farWaits = false ∧ s1 = (arrived Engine.f s).setStack Engine.f rest ∧ CanIssue Engine.f (Instr.fSkq i) s ∧ top Engine.f s = v :: va :: rest ∧ BitVec.toNat va % 64 = 0 ∧ farTo (arrived Engine.f s) va true false true = FarX.ok t s2) :=
    ⟨⟨farMemoryAndSketchWords1, ((arrived .f farMemoryAndSketchWords1).setStack .f [9]), farMemoryAndSketchWords2, farMemoryAndSketchWords3, 64, 128, [9], farMemoryAndSketchWords4, 0, 1, [0, 0], fun _ => rfl, by delta CanIssue; decide +kernel⟩,
    ⟨farMemoryAndSketchWords5, ((arrived .f farMemoryAndSketchWords5).setStack .f [9]), farMemoryAndSketchWords6, (2^55 + 64), 7, [9], farMemoryAndSketchWords7, 0, 2, by delta CanIssue; decide +kernel⟩,
    ⟨farMemoryAndSketchWords8, ((arrived .f farMemoryAndSketchWords8).setStack .f [9]), farMemoryAndSketchWords9, 64, 7, [9], farMemoryAndSketchWords10, 0, 2, by delta CanIssue; decide +kernel⟩,
    ⟨(at_ .f [9] fun k => { k with text := textOf [0xC340] }), farMemoryAndSketchWords11, [], by delta CanIssue; decide +kernel⟩,
    ⟨(at_ .f [9] fun k => { k with text := textOf [0xC340] }), farMemoryAndSketchWords11, [], (at_ .f [9] fun k => { k with text := textOf [0xC340] }), by delta CanIssue; decide +kernel⟩,
    ⟨farMemoryAndSketchWords12, ((arrived .f farMemoryAndSketchWords12).setStack .f [9]), farMemoryAndSketchWords13, [9], farMemoryAndSketchWords14, .fSkup 0, ((sketchForm (.fSkup 0)).get rfl), [1, 2, 64], 64, farMemoryAndSketchWords15, rfl, nofun, by delta CanIssue; decide +kernel⟩,
    ⟨farMemoryAndSketchWords16, ((arrived .f farMemoryAndSketchWords16).setStack .f [9]), farMemoryAndSketchWords17, [9], farMemoryAndSketchWords18, .fSkadd, ((sketchForm (.fSkadd)).get rfl), [64, 128], 128, 0, farMemoryAndSketchWords19, farMemoryAndSketchWords20, rfl, nofun, by delta CanIssue; decide +kernel⟩,
    ⟨farMemoryAndSketchWords21, ((arrived .f farMemoryAndSketchWords21).setStack .f [9]), farMemoryAndSketchWords22, [9], farMemoryAndSketchWords23, .fSkupN 0, ((sketchForm (.fSkupN 0)).get rfl), [256, 3, 5, 64], 64, 0, 4, true, farMemoryAndSketchWords24, farMemoryAndSketchWords25, rfl, by rintro _ _ _ ⟨⟩; decide +kernel, by delta CanIssue; decide +kernel⟩,
    ⟨farMemoryAndSketchWords26, ((arrived .f farMemoryAndSketchWords26).setStack .f [9]), farMemoryAndSketchWords27, 64, 5, [9], farMemoryAndSketchWords28, 0, by delta CanIssue; decide +kernel⟩⟩

def farService1 : State := (at_ .f [64, 9] fun k => { k with tlb := [{ page0 with leaf := 1423 }], far := [{ i := .fAmo 0 0, args := [5, 64], tpc := 0, place := 0, va := 64, die := 0, block := false, due := 0, ready := some 4, loc := some (0, 64, false) }] })
def farService2 : FarOp := { i := .fAmo 0 0, args := [5, 64], tpc := 0, place := 0, va := 64, die := 0, block := false, due := 0, ready := some 4, loc := some (0, 64, false) }
def farService3 : State := ((farService1.read 0 0 64 4).1.write 0 0 64 [5, 0, 0, 0] false).1
def farService4 : State := (at_ .f [64, 9] fun k => { k with tlb := [{ page0 with leaf := 1423 }], far := [{ i := .fCas 1, args := [5, 3, 64], tpc := 0, place := 0, va := 64, die := 0, block := false, due := 0, ready := some 4, loc := some (0, 64, false) }] })
def farService5 : FarOp := { i := .fCas 1, args := [5, 3, 64], tpc := 0, place := 0, va := 64, die := 0, block := false, due := 0, ready := some 4, loc := some (0, 64, false) }
def farService6 : State := (at_ .f [64, 9] fun k => { k with tlb := [{ page0 with leaf := 1423 }], far := [{ i := .fCas 1, args := [5, 0, 64], tpc := 0, place := 0, va := 64, die := 0, block := false, due := 0, ready := some 4, loc := some (0, 64, false) }] })
def farService7 : FarOp := { i := .fCas 1, args := [5, 0, 64], tpc := 0, place := 0, va := 64, die := 0, block := false, due := 0, ready := some 4, loc := some (0, 64, false) }
def farService8 : State := ((farService6.read 0 0 64 8).1.write 0 0 64 [5, 0, 0, 0, 0, 0, 0, 0] false).1
def farService9 : State := (at_ .f [64, 9] fun k => { k with tlb := [{ page0 with leaf := 1423 }], far := [{ i := .fRld 0 1 2, args := [64], tpc := 0, place := 0, va := 64, die := 0, block := false, due := 0, ready := some 4, loc := some (0, 64, false) }] })
def farService10 : FarOp := { i := .fRld 0 1 2, args := [64], tpc := 0, place := 0, va := 64, die := 0, block := false, due := 0, ready := some 4, loc := some (0, 64, false) }
def farService11 : State := (at_ .f [64, 9] fun k => { k with tlb := [{ page0 with leaf := 1423 }], far := [{ i := .fRst 0 2, args := [64, 5], tpc := 0, place := 0, va := 64, die := 0, block := false, due := 0, ready := some 4, loc := some (0, 64, false) }] })
def farService12 : FarOp := { i := .fRst 0 2, args := [64, 5], tpc := 0, place := 0, va := 64, die := 0, block := false, due := 0, ready := some 4, loc := some (0, 64, false) }
def farService13 : State := (Tests.at_ .f [64, 9] fun k => { k with tlb := [{ page0 with leaf := 1423 }], far := [{ i := .fAmo 0 0, args := [5, 64], tpc := 0, place := 0, va := 64, die := 0, block := false, due := 0, loc := some (0, 64, false), served := true, back := some 4, report := some (.perm, 64) }] })
def farService14 : FarOp := { i := .fAmo 0 0, args := [5, 64], tpc := 0, place := 0, va := 64, die := 0, block := false, due := 0, loc := some (0, 64, false), served := true, back := some 4, report := some (.perm, 64) }
def farService15 : State := (Tests.at_ .f [64, 9] fun k => { k with tlb := [{ page0 with leaf := 1423 }], far := [{ i := .fAmo 0 0, args := [5, 64], tpc := 0, place := 0, va := 64, die := 0, block := false, due := 0, loc := some (0, 64, false), served := true, back := some 4 }] })
def farService16 : FarOp := { i := .fAmo 0 0, args := [5, 64], tpc := 0, place := 0, va := 64, die := 0, block := false, due := 0, loc := some (0, 64, false), served := true, back := some 4 }
def farService17 : State := (Tests.at_ .f [9] fun k => { k with tlb := [{ page0 with leaf := 1423 }], far := [{ i := .fRld 0 1 2, args := [64], tpc := 0, place := 0, va := 64, die := 0, block := true, due := 0, loc := some (0, 64, false), served := true, back := some 4, result := [7] }] })
def farService18 : FarOp := { i := .fRld 0 1 2, args := [64], tpc := 0, place := 0, va := 64, die := 0, block := true, due := 0, loc := some (0, 64, false), served := true, back := some 4, result := [7] }
def farService19 : State := { (at_ .f [] id) with cycle := 4000, inbound := [{ package := 5, ident := 1, addr := 64, n := 8 }] }
def farService20 : State := { (at_ .f [] id) with peerIn := [{ core := 0, eng := .f, data := [1, 2] }] }
def farService21 : State := { ((at_ .f [] fun k => { k with comb := [{ va := 64, bytes := List.replicate 64 (some 3), cycle := 0, die := 1, peer := none, off := 0, mt := 0 }] })) with cycle := 300 }
def farService22 : Comb := { va := 64, bytes := List.replicate 64 (some 3), cycle := 0, die := 1, peer := none, off := 0, mt := 0 }
def farService23 : State := (at_ .f [64, 9] fun k => { k with tlb := [{ page0 with leaf := 1423 }], far := [{ i := .fSkup 0, args := [1, 2, 64], tpc := 0, place := 0, va := 64, die := 0, block := false, due := 0, ready := some 4, loc := some (0, 64, false), leg := some 5 }] })
def farService24 : Logged := (0, 0, { i := .fSkup 0, args := [1, 2, 64], tpc := 0, place := 0, va := 64, die := 0, block := false, due := 0, ready := some 4, loc := some (0, 64, false), leg := some 5 })
theorem witness_FarService :
    (∃ (s : State) (k : Nat) (o : FarOp) (w : BitVec 2) (tier : Nat) (off : Nat) (n : Nat) (klock : Bool) (bs : List Byte) (s2 : State) (op : BitVec 3) (t : BitVec 2) (new : List Byte) (s3 : State), Servable s w k o ∧ o.loc = some (tier, off, klock) ∧ s.waits o.die tier off n = false ∧ (o.i = Instr.fAmo op t ∨ o.i = Instr.fAmoR op t) ∧ (n = if t = 0 ∨ t = 2 then 4 else 8) ∧ (s.uncached s.actor o.die o.va n true).read o.die tier off n = (s2, some bs) ∧ new = leBytes (amoResult op t (leNat bs) (BitVec.toNat (o.args.getD 0 0) % 256 ^ n)) n ∧ s2.waits o.die tier off n = false ∧ (s2.uncached s2.actor o.die o.va n true).write o.die tier off new klock = (s3, true)) ∧
    (∃ (s : State) (k : Nat) (o : FarOp) (w : BitVec 2) (tier : Nat) (off : Nat) (n : Nat) (klock : Bool) (bs : List Byte) (s2 : State) (z : BitVec 1), Servable s w k o ∧ o.loc = some (tier, off, klock) ∧ s.waits o.die tier off n = false ∧ o.i = Instr.fCas z ∧ (n = if z = 0 then 4 else 8) ∧ (s.uncached s.actor o.die o.va n true).read o.die tier off n = (s2, some bs) ∧ bs.length = n ∧ leNat bs ≠ BitVec.toNat (o.args.getD 1 0) % 256 ^ n) ∧
    (∃ (s : State) (k : Nat) (o : FarOp) (w : BitVec 2) (tier : Nat) (off : Nat) (n : Nat) (klock : Bool) (bs : List Byte) (s2 : State) (z : BitVec 1) (s3 : State), Servable s w k o ∧ o.loc = some (tier, off, klock) ∧ s.waits o.die tier off n = false ∧ o.i = Instr.fCas z ∧ (n = if z = 0 then 4 else 8) ∧ (s.uncached s.actor o.die o.va n true).read o.die tier off n = (s2, some bs) ∧ bs.length = n ∧ leNat bs = BitVec.toNat (o.args.getD 1 0) % 256 ^ n ∧ s2.waits o.die tier off n = false ∧ (s2.uncached s2.actor o.die o.va n true).write o.die tier off (leBytes (BitVec.toNat (o.args.getD 0 0)) n) klock = (s3, true)) ∧
    (∃ (s : State) (k : Nat) (o : FarOp) (w : BitVec 2) (tier : Nat) (off : Nat) (n : Nat) (klock : Bool) (bs : List Byte) (s2 : State) (c : BitVec 2) (sgn : BitVec 1) (z : BitVec 2), Servable s w k o ∧ o.loc = some (tier, off, klock) ∧ s.waits o.die tier off n = false ∧ o.i = Instr.fRld c sgn z ∧ n = 2 ^ z.toNat ∧ bs.length = n ∧ s.farRead s.actor (placeAt o tier off klock) n o.mt = (s2, some bs)) ∧
    (∃ (s : State) (k : Nat) (o : FarOp) (w : BitVec 2) (tier : Nat) (off : Nat) (n : Nat) (klock : Bool) (s2 : State) (c : BitVec 2) (z : BitVec 2), Servable s w k o ∧ o.loc = some (tier, off, klock) ∧ s.waits o.die tier off n = false ∧ o.i = Instr.fRst c z ∧ n = 2 ^ z.toNat ∧ o.flush = [] ∧ s.farWrite s.actor (placeAt o tier off klock) (leBytes (BitVec.toNat (o.args.getD 1 0)) n) o.mt = (s2, true)) ∧
    (∃ (s : State) (k : Nat) (o : FarOp) (at_ : Nat) (c : Cause) (v : W64), s.me.far[k]? = some o ∧ o.served = true ∧ o.back = some at_ ∧ at_ ≤ s.cycle ∧ o.report = some (c, v) ∧ o.block = false) ∧
    (∃ (s : State) (k : Nat) (o : FarOp) (at_ : Nat), s.me.far[k]? = some o ∧ o.served = true ∧ o.back = some at_ ∧ at_ ≤ s.cycle ∧ o.report = none ∧ o.block = false ∧ (∀ (i : BitVec 1), o.i ≠ Instr.fSkqN i)) ∧
    (∃ (s : State) (k : Nat) (o : FarOp) (at_ : Nat) (r : List W64) (s2 : State), ((∀ (n : BitVec 2) (z : BitVec 1), o.i ≠ Instr.fCasM n z) ∧ (∀ (i : BitVec 1), o.i ≠ Instr.fSkqN i) ∧ r = o.result ∧ s2 = s ∨ ∃ n z ok old u, o.i = Instr.fCasM n z ∧ o.result = ok :: old ∧ r = [ok] ∧ writeBack (if z = 0 then 4 else 8) (o.args.getD 0 0) 0 old s = Pushed.ok u s2) ∧ s.me.far[k]? = some o ∧ o.served = true ∧ o.back = some at_ ∧ at_ ≤ s.cycle ∧ o.report = none ∧ o.block = true) ∧
    (∃ (s : State) (w : BitVec 2) (j : Nat) (r : Inbound), s.inbound[j]? = some r ∧ bits r.addr 55 3 = s.myDie ∧ s.unitFree s.myDie w.toNat = true ∧ bits ((s.die s.myDie).reg 351) 4 1 = 0 ∧ r.logged = false ∧ r.at_ + r.effectTime s (bits ((s.die s.myDie).reg 351) 0 4) ≤ s.cycle) ∧
    (∃ (s : State) (j : Nat) (m : PeerMsg), s.peerIn[j]? = some m) ∧
    (∃ (s : State) (c : Comb) (cs : List Comb), s.me.comb = c :: cs ∧ c.cycle + 256 ≤ s.cycle) ∧
    (∃ (s : State) (w : BitVec 2) (l : Nat) (ls : List Nat) (x : Logged) (xs : List Logged), (∀ (x : Logged), x ∈ s.skLog w.toNat → x.snd.snd.leg = some (List.foldl min l ls) → ∃ c, x.snd.snd.ready = some c ∧ c ≤ s.cycle) ∧ List.filterMap (fun x => x.snd.snd.leg) (s.skLog w.toNat) = l :: ls ∧ s.legOver (List.foldl min l ls) = true ∧ s.unitFree s.myDie w.toNat = true ∧ List.foldl (fun acc x => logInsert x acc) [] (List.filter (fun x => decide (x.snd.snd.leg = some (List.foldl min l ls))) (s.skLog w.toNat) ++ s.peerLog w.toNat) = x :: xs) :=
    ⟨⟨farService1, 0, farService2, 0, 0, 64, 4, false, List.replicate 4 0, (farService1.read 0 0 64 4).1, 0, 0, [5, 0, 0, 0], farService3, by delta Servable; decide +kernel⟩,
    ⟨farService4, 0, farService5, 0, 0, 64, 8, false, List.replicate 8 0, (farService4.read 0 0 64 8).1, 1, by delta Servable; decide +kernel⟩,
    ⟨farService6, 0, farService7, 0, 0, 64, 8, false, List.replicate 8 0, (farService6.read 0 0 64 8).1, 1, farService8, by delta Servable; decide +kernel⟩,
    ⟨farService9, 0, farService10, 0, 0, 64, 4, false, List.replicate 4 0, (farService9.read 0 0 64 4).1, 0, 1, 2, by delta Servable; decide +kernel⟩,
    ⟨farService11, 0, farService12, 0, 0, 64, 4, false, (farService11.write 0 0 64 [5, 0, 0, 0] false).1, 0, 2, by delta Servable; decide +kernel⟩,
    ⟨farService13, 0, farService14, 4, .perm, 64, by decide +kernel⟩,
    ⟨farService15, 0, farService16, 4, by decide +kernel⟩,
    ⟨farService17, 0, farService18, 4, [7], farService17, .inl ⟨nofun, nofun, rfl, rfl⟩, by decide +kernel⟩,
    ⟨farService19, 1, 0, { package := 5, ident := 1, addr := 64, n := 8 }, by decide +kernel⟩,
    ⟨farService20, 0, { core := 0, eng := .f, data := [1, 2] }, by decide +kernel⟩,
    ⟨farService21, farService22, [], by decide +kernel⟩,
    ⟨farService23, 0, 5, [], farService24, [], fun x h _ => List.mem_singleton.mp h ▸ ⟨4, by decide +kernel⟩, by decide +kernel⟩⟩

def collectiveWords1 : State := (at_ .f [7, 9] fun k => { k with tlb := [{ page0 with leaf := 1423 }] })
def collectiveWords2 : Place := { die := 0, peer := none, tier := 0, off := 64, rd := true, w := true, x := false, ra := true, mt := 0, klock := false, size := 3 }
def collectiveWords3 : State := (collecting { collective [(0, 0)] none with ended := some { bytes := 4 } })
def collectiveWords4 : Coll := { collective [(0, 0)] none with ended := some { bytes := 4 } }
def collectiveWords5 : State := ((collecting (collective [(0, 0), (0, 1)] none)).setCore 1 { runner with colls := [{ collective [(0, 0), (0, 1)] none with dst := [2, 1, 0, 1024, 1, 4] }] })
def collectiveWords6 : Coll := (Coll.takeAcks (collective [(0, 0), (0, 1)] none) collectiveWords5).2
def collectiveWords7 : State := (Coll.takeAcks (collective [(0, 0), (0, 1)] none) collectiveWords5).1
def collectiveWords8 : State := (collecting { collective [(0, 0)] none with broken := true })
def collectiveWords9 : Coll := (Coll.takeAcks { collective [(0, 0)] none with broken := true } collectiveWords8).2
def collectiveWords10 : State := (Coll.takeAcks { collective [(0, 0)] none with broken := true } collectiveWords8).1
def collectiveWords11 : State := (collecting (collective [(0, 0), (0, 1)] (some [List.replicate 16 3])))
def collectiveWords12 : Coll := (Coll.takeAcks (collective [(0, 0), (0, 1)] (some [List.replicate 16 3])) collectiveWords11).2
def collectiveWords13 : State := (Coll.takeAcks (collective [(0, 0), (0, 1)] (some [List.replicate 16 3])) collectiveWords11).1
def collectiveWords14 : State := (tookColl (Coll.capture (Coll.takeAcks (collective [(0, 0), (0, 1)] (some [List.replicate 16 3])) collectiveWords11).2 (Coll.takeAcks (collective [(0, 0), (0, 1)] (some [List.replicate 16 3])) collectiveWords11).1)).2
def collectiveWords15 : Coll := (tookColl (Coll.capture (Coll.takeAcks (collective [(0, 0), (0, 1)] (some [List.replicate 16 3])) collectiveWords11).2 (Coll.takeAcks (collective [(0, 0), (0, 1)] (some [List.replicate 16 3])) collectiveWords11).1)).1
def collectiveWords16 : State × Coll := (Coll.ship (tookColl (Coll.capture (Coll.takeAcks (collective [(0, 0), (0, 1)] (some [List.replicate 16 3])) collectiveWords11).2 (Coll.takeAcks (collective [(0, 0), (0, 1)] (some [List.replicate 16 3])) collectiveWords11).1)).1 (tookColl (Coll.capture (Coll.takeAcks (collective [(0, 0), (0, 1)] (some [List.replicate 16 3])) collectiveWords11).2 (Coll.takeAcks (collective [(0, 0), (0, 1)] (some [List.replicate 16 3])) collectiveWords11).1)).2 none)
def collectiveWords17 : State := (collecting (collective [(0, 0)] (some [List.replicate 16 3])))
def collectiveWords18 : Coll := (Coll.takeAcks (collective [(0, 0)] (some [List.replicate 16 3])) collectiveWords17).2
def collectiveWords19 : State := (Coll.takeAcks (collective [(0, 0)] (some [List.replicate 16 3])) collectiveWords17).1
def collectiveWords20 : State := (tookColl (Coll.capture (Coll.takeAcks (collective [(0, 0)] (some [List.replicate 16 3])) collectiveWords17).2 (Coll.takeAcks (collective [(0, 0)] (some [List.replicate 16 3])) collectiveWords17).1)).2
def collectiveWords21 : Coll := (tookColl (Coll.capture (Coll.takeAcks (collective [(0, 0)] (some [List.replicate 16 3])) collectiveWords17).2 (Coll.takeAcks (collective [(0, 0)] (some [List.replicate 16 3])) collectiveWords17).1)).1
def collectiveWords22 : State × Coll := (Coll.ship (tookColl (Coll.capture (Coll.takeAcks (collective [(0, 0)] (some [List.replicate 16 3])) collectiveWords17).2 (Coll.takeAcks (collective [(0, 0)] (some [List.replicate 16 3])) collectiveWords17).1)).1 (tookColl (Coll.capture (Coll.takeAcks (collective [(0, 0)] (some [List.replicate 16 3])) collectiveWords17).2 (Coll.takeAcks (collective [(0, 0)] (some [List.replicate 16 3])) collectiveWords17).1)).2 none)
def collectiveWords23 : List Coll := ((State.gather ((Coll.ship (tookColl (Coll.capture (Coll.takeAcks (collective [(0, 0)] (some [List.replicate 16 3])) collectiveWords17).2 (Coll.takeAcks (collective [(0, 0)] (some [List.replicate 16 3])) collectiveWords17).1)).1 (tookColl (Coll.capture (Coll.takeAcks (collective [(0, 0)] (some [List.replicate 16 3])) collectiveWords17).2 (Coll.takeAcks (collective [(0, 0)] (some [List.replicate 16 3])) collectiveWords17).1)).2 none).1.setColl (Coll.ship (tookColl (Coll.capture (Coll.takeAcks (collective [(0, 0)] (some [List.replicate 16 3])) collectiveWords17).2 (Coll.takeAcks (collective [(0, 0)] (some [List.replicate 16 3])) collectiveWords17).1)).1 (tookColl (Coll.capture (Coll.takeAcks (collective [(0, 0)] (some [List.replicate 16 3])) collectiveWords17).2 (Coll.takeAcks (collective [(0, 0)] (some [List.replicate 16 3])) collectiveWords17).1)).2 none).1.actor 0 (Coll.ship (tookColl (Coll.capture (Coll.takeAcks (collective [(0, 0)] (some [List.replicate 16 3])) collectiveWords17).2 (Coll.takeAcks (collective [(0, 0)] (some [List.replicate 16 3])) collectiveWords17).1)).1 (tookColl (Coll.capture (Coll.takeAcks (collective [(0, 0)] (some [List.replicate 16 3])) collectiveWords17).2 (Coll.takeAcks (collective [(0, 0)] (some [List.replicate 16 3])) collectiveWords17).1)).2 none).2) (Coll.ship (tookColl (Coll.capture (Coll.takeAcks (collective [(0, 0)] (some [List.replicate 16 3])) collectiveWords17).2 (Coll.takeAcks (collective [(0, 0)] (some [List.replicate 16 3])) collectiveWords17).1)).1 (tookColl (Coll.capture (Coll.takeAcks (collective [(0, 0)] (some [List.replicate 16 3])) collectiveWords17).2 (Coll.takeAcks (collective [(0, 0)] (some [List.replicate 16 3])) collectiveWords17).1)).2 none).2).getD [])
def collectiveWords24 : State := ((Coll.ship (tookColl (Coll.capture (Coll.takeAcks (collective [(0, 0)] (some [List.replicate 16 3])) collectiveWords17).2 (Coll.takeAcks (collective [(0, 0)] (some [List.replicate 16 3])) collectiveWords17).1)).1 (tookColl (Coll.capture (Coll.takeAcks (collective [(0, 0)] (some [List.replicate 16 3])) collectiveWords17).2 (Coll.takeAcks (collective [(0, 0)] (some [List.replicate 16 3])) collectiveWords17).1)).2 none).1.setColl (Coll.ship (tookColl (Coll.capture (Coll.takeAcks (collective [(0, 0)] (some [List.replicate 16 3])) collectiveWords17).2 (Coll.takeAcks (collective [(0, 0)] (some [List.replicate 16 3])) collectiveWords17).1)).1 (tookColl (Coll.capture (Coll.takeAcks (collective [(0, 0)] (some [List.replicate 16 3])) collectiveWords17).2 (Coll.takeAcks (collective [(0, 0)] (some [List.replicate 16 3])) collectiveWords17).1)).2 none).1.actor 0 (Coll.ship (tookColl (Coll.capture (Coll.takeAcks (collective [(0, 0)] (some [List.replicate 16 3])) collectiveWords17).2 (Coll.takeAcks (collective [(0, 0)] (some [List.replicate 16 3])) collectiveWords17).1)).1 (tookColl (Coll.capture (Coll.takeAcks (collective [(0, 0)] (some [List.replicate 16 3])) collectiveWords17).2 (Coll.takeAcks (collective [(0, 0)] (some [List.replicate 16 3])) collectiveWords17).1)).2 none).2)
def collectiveWords25 : State := (List.foldl Coll.writeRun (((Coll.ship (tookColl (Coll.capture (Coll.takeAcks (collective [(0, 0)] (some [List.replicate 16 3])) collectiveWords17).2 (Coll.takeAcks (collective [(0, 0)] (some [List.replicate 16 3])) collectiveWords17).1)).1 (tookColl (Coll.capture (Coll.takeAcks (collective [(0, 0)] (some [List.replicate 16 3])) collectiveWords17).2 (Coll.takeAcks (collective [(0, 0)] (some [List.replicate 16 3])) collectiveWords17).1)).2 none).1.setColl (Coll.ship (tookColl (Coll.capture (Coll.takeAcks (collective [(0, 0)] (some [List.replicate 16 3])) collectiveWords17).2 (Coll.takeAcks (collective [(0, 0)] (some [List.replicate 16 3])) collectiveWords17).1)).1 (tookColl (Coll.capture (Coll.takeAcks (collective [(0, 0)] (some [List.replicate 16 3])) collectiveWords17).2 (Coll.takeAcks (collective [(0, 0)] (some [List.replicate 16 3])) collectiveWords17).1)).2 none).1.actor 0 (Coll.ship (tookColl (Coll.capture (Coll.takeAcks (collective [(0, 0)] (some [List.replicate 16 3])) collectiveWords17).2 (Coll.takeAcks (collective [(0, 0)] (some [List.replicate 16 3])) collectiveWords17).1)).1 (tookColl (Coll.capture (Coll.takeAcks (collective [(0, 0)] (some [List.replicate 16 3])) collectiveWords17).2 (Coll.takeAcks (collective [(0, 0)] (some [List.replicate 16 3])) collectiveWords17).1)).2 none).2), (Coll.ship (tookColl (Coll.capture (Coll.takeAcks (collective [(0, 0)] (some [List.replicate 16 3])) collectiveWords17).2 (Coll.takeAcks (collective [(0, 0)] (some [List.replicate 16 3])) collectiveWords17).1)).1 (tookColl (Coll.capture (Coll.takeAcks (collective [(0, 0)] (some [List.replicate 16 3])) collectiveWords17).2 (Coll.takeAcks (collective [(0, 0)] (some [List.replicate 16 3])) collectiveWords17).1)).2 none).2, none) (Coll.outcome (Coll.ship (tookColl (Coll.capture (Coll.takeAcks (collective [(0, 0)] (some [List.replicate 16 3])) collectiveWords17).2 (Coll.takeAcks (collective [(0, 0)] (some [List.replicate 16 3])) collectiveWords17).1)).1 (tookColl (Coll.capture (Coll.takeAcks (collective [(0, 0)] (some [List.replicate 16 3])) collectiveWords17).2 (Coll.takeAcks (collective [(0, 0)] (some [List.replicate 16 3])) collectiveWords17).1)).2 none).2 ((State.gather ((Coll.ship (tookColl (Coll.capture (Coll.takeAcks (collective [(0, 0)] (some [List.replicate 16 3])) collectiveWords17).2 (Coll.takeAcks (collective [(0, 0)] (some [List.replicate 16 3])) collectiveWords17).1)).1 (tookColl (Coll.capture (Coll.takeAcks (collective [(0, 0)] (some [List.replicate 16 3])) collectiveWords17).2 (Coll.takeAcks (collective [(0, 0)] (some [List.replicate 16 3])) collectiveWords17).1)).2 none).1.setColl (Coll.ship (tookColl (Coll.capture (Coll.takeAcks (collective [(0, 0)] (some [List.replicate 16 3])) collectiveWords17).2 (Coll.takeAcks (collective [(0, 0)] (some [List.replicate 16 3])) collectiveWords17).1)).1 (tookColl (Coll.capture (Coll.takeAcks (collective [(0, 0)] (some [List.replicate 16 3])) collectiveWords17).2 (Coll.takeAcks (collective [(0, 0)] (some [List.replicate 16 3])) collectiveWords17).1)).2 none).1.actor 0 (Coll.ship (tookColl (Coll.capture (Coll.takeAcks (collective [(0, 0)] (some [List.replicate 16 3])) collectiveWords17).2 (Coll.takeAcks (collective [(0, 0)] (some [List.replicate 16 3])) collectiveWords17).1)).1 (tookColl (Coll.capture (Coll.takeAcks (collective [(0, 0)] (some [List.replicate 16 3])) collectiveWords17).2 (Coll.takeAcks (collective [(0, 0)] (some [List.replicate 16 3])) collectiveWords17).1)).2 none).2) (Coll.ship (tookColl (Coll.capture (Coll.takeAcks (collective [(0, 0)] (some [List.replicate 16 3])) collectiveWords17).2 (Coll.takeAcks (collective [(0, 0)] (some [List.replicate 16 3])) collectiveWords17).1)).1 (tookColl (Coll.capture (Coll.takeAcks (collective [(0, 0)] (some [List.replicate 16 3])) collectiveWords17).2 (Coll.takeAcks (collective [(0, 0)] (some [List.replicate 16 3])) collectiveWords17).1)).2 none).2).getD [])).2).1
def collectiveWords26 : Coll := (List.foldl Coll.writeRun (((Coll.ship (tookColl (Coll.capture (Coll.takeAcks (collective [(0, 0)] (some [List.replicate 16 3])) collectiveWords17).2 (Coll.takeAcks (collective [(0, 0)] (some [List.replicate 16 3])) collectiveWords17).1)).1 (tookColl (Coll.capture (Coll.takeAcks (collective [(0, 0)] (some [List.replicate 16 3])) collectiveWords17).2 (Coll.takeAcks (collective [(0, 0)] (some [List.replicate 16 3])) collectiveWords17).1)).2 none).1.setColl (Coll.ship (tookColl (Coll.capture (Coll.takeAcks (collective [(0, 0)] (some [List.replicate 16 3])) collectiveWords17).2 (Coll.takeAcks (collective [(0, 0)] (some [List.replicate 16 3])) collectiveWords17).1)).1 (tookColl (Coll.capture (Coll.takeAcks (collective [(0, 0)] (some [List.replicate 16 3])) collectiveWords17).2 (Coll.takeAcks (collective [(0, 0)] (some [List.replicate 16 3])) collectiveWords17).1)).2 none).1.actor 0 (Coll.ship (tookColl (Coll.capture (Coll.takeAcks (collective [(0, 0)] (some [List.replicate 16 3])) collectiveWords17).2 (Coll.takeAcks (collective [(0, 0)] (some [List.replicate 16 3])) collectiveWords17).1)).1 (tookColl (Coll.capture (Coll.takeAcks (collective [(0, 0)] (some [List.replicate 16 3])) collectiveWords17).2 (Coll.takeAcks (collective [(0, 0)] (some [List.replicate 16 3])) collectiveWords17).1)).2 none).2), (Coll.ship (tookColl (Coll.capture (Coll.takeAcks (collective [(0, 0)] (some [List.replicate 16 3])) collectiveWords17).2 (Coll.takeAcks (collective [(0, 0)] (some [List.replicate 16 3])) collectiveWords17).1)).1 (tookColl (Coll.capture (Coll.takeAcks (collective [(0, 0)] (some [List.replicate 16 3])) collectiveWords17).2 (Coll.takeAcks (collective [(0, 0)] (some [List.replicate 16 3])) collectiveWords17).1)).2 none).2, none) (Coll.outcome (Coll.ship (tookColl (Coll.capture (Coll.takeAcks (collective [(0, 0)] (some [List.replicate 16 3])) collectiveWords17).2 (Coll.takeAcks (collective [(0, 0)] (some [List.replicate 16 3])) collectiveWords17).1)).1 (tookColl (Coll.capture (Coll.takeAcks (collective [(0, 0)] (some [List.replicate 16 3])) collectiveWords17).2 (Coll.takeAcks (collective [(0, 0)] (some [List.replicate 16 3])) collectiveWords17).1)).2 none).2 ((State.gather ((Coll.ship (tookColl (Coll.capture (Coll.takeAcks (collective [(0, 0)] (some [List.replicate 16 3])) collectiveWords17).2 (Coll.takeAcks (collective [(0, 0)] (some [List.replicate 16 3])) collectiveWords17).1)).1 (tookColl (Coll.capture (Coll.takeAcks (collective [(0, 0)] (some [List.replicate 16 3])) collectiveWords17).2 (Coll.takeAcks (collective [(0, 0)] (some [List.replicate 16 3])) collectiveWords17).1)).2 none).1.setColl (Coll.ship (tookColl (Coll.capture (Coll.takeAcks (collective [(0, 0)] (some [List.replicate 16 3])) collectiveWords17).2 (Coll.takeAcks (collective [(0, 0)] (some [List.replicate 16 3])) collectiveWords17).1)).1 (tookColl (Coll.capture (Coll.takeAcks (collective [(0, 0)] (some [List.replicate 16 3])) collectiveWords17).2 (Coll.takeAcks (collective [(0, 0)] (some [List.replicate 16 3])) collectiveWords17).1)).2 none).1.actor 0 (Coll.ship (tookColl (Coll.capture (Coll.takeAcks (collective [(0, 0)] (some [List.replicate 16 3])) collectiveWords17).2 (Coll.takeAcks (collective [(0, 0)] (some [List.replicate 16 3])) collectiveWords17).1)).1 (tookColl (Coll.capture (Coll.takeAcks (collective [(0, 0)] (some [List.replicate 16 3])) collectiveWords17).2 (Coll.takeAcks (collective [(0, 0)] (some [List.replicate 16 3])) collectiveWords17).1)).2 none).2) (Coll.ship (tookColl (Coll.capture (Coll.takeAcks (collective [(0, 0)] (some [List.replicate 16 3])) collectiveWords17).2 (Coll.takeAcks (collective [(0, 0)] (some [List.replicate 16 3])) collectiveWords17).1)).1 (tookColl (Coll.capture (Coll.takeAcks (collective [(0, 0)] (some [List.replicate 16 3])) collectiveWords17).2 (Coll.takeAcks (collective [(0, 0)] (some [List.replicate 16 3])) collectiveWords17).1)).2 none).2).getD [])).2).2.1
def collectiveWords27 : Status × Writes := (Coll.outcome (Coll.ship (tookColl (Coll.capture (Coll.takeAcks (collective [(0, 0)] (some [List.replicate 16 3])) collectiveWords17).2 (Coll.takeAcks (collective [(0, 0)] (some [List.replicate 16 3])) collectiveWords17).1)).1 (tookColl (Coll.capture (Coll.takeAcks (collective [(0, 0)] (some [List.replicate 16 3])) collectiveWords17).2 (Coll.takeAcks (collective [(0, 0)] (some [List.replicate 16 3])) collectiveWords17).1)).2 none).2 ((State.gather ((Coll.ship (tookColl (Coll.capture (Coll.takeAcks (collective [(0, 0)] (some [List.replicate 16 3])) collectiveWords17).2 (Coll.takeAcks (collective [(0, 0)] (some [List.replicate 16 3])) collectiveWords17).1)).1 (tookColl (Coll.capture (Coll.takeAcks (collective [(0, 0)] (some [List.replicate 16 3])) collectiveWords17).2 (Coll.takeAcks (collective [(0, 0)] (some [List.replicate 16 3])) collectiveWords17).1)).2 none).1.setColl (Coll.ship (tookColl (Coll.capture (Coll.takeAcks (collective [(0, 0)] (some [List.replicate 16 3])) collectiveWords17).2 (Coll.takeAcks (collective [(0, 0)] (some [List.replicate 16 3])) collectiveWords17).1)).1 (tookColl (Coll.capture (Coll.takeAcks (collective [(0, 0)] (some [List.replicate 16 3])) collectiveWords17).2 (Coll.takeAcks (collective [(0, 0)] (some [List.replicate 16 3])) collectiveWords17).1)).2 none).1.actor 0 (Coll.ship (tookColl (Coll.capture (Coll.takeAcks (collective [(0, 0)] (some [List.replicate 16 3])) collectiveWords17).2 (Coll.takeAcks (collective [(0, 0)] (some [List.replicate 16 3])) collectiveWords17).1)).1 (tookColl (Coll.capture (Coll.takeAcks (collective [(0, 0)] (some [List.replicate 16 3])) collectiveWords17).2 (Coll.takeAcks (collective [(0, 0)] (some [List.replicate 16 3])) collectiveWords17).1)).2 none).2) (Coll.ship (tookColl (Coll.capture (Coll.takeAcks (collective [(0, 0)] (some [List.replicate 16 3])) collectiveWords17).2 (Coll.takeAcks (collective [(0, 0)] (some [List.replicate 16 3])) collectiveWords17).1)).1 (tookColl (Coll.capture (Coll.takeAcks (collective [(0, 0)] (some [List.replicate 16 3])) collectiveWords17).2 (Coll.takeAcks (collective [(0, 0)] (some [List.replicate 16 3])) collectiveWords17).1)).2 none).2).getD []))
def collectiveWords28 : State := ((collecting (collective [(0, 0)] none)).updDie 0 fun d => { d with dg := [(272, 2), (500, BitVec.allOnes 64)] })
def collectiveWords29 : State := ((collecting (collective [(0, 0), (0, 1)] none)).updDie 0 fun d => { d with dg := [(272, 2), (500, BitVec.allOnes 64)], saved := [{ kept with left := 1 }] })
def collectiveWords30 : State := ((collecting { collective [(0, 0), (0, 1)] none with absentSince := some 5 }).updDie 0 fun d => { d with dg := [(272, 2), (500, BitVec.allOnes 64)], saved := [{ kept with left := 1 }] })
def collectiveWords31 : Coll := { collective [(0, 0), (0, 1)] none with absentSince := some 5 }
theorem witness_CollectiveWords :
    (∃ (s : State) (n : BitVec 2) (f : BitVec 4) (v : W64) (rest : List W64), layoutValue f.toNat v ∧ CanIssue Engine.f (Instr.fLayout n f) s ∧ top Engine.f s = v :: rest) ∧
    (∃ (s : State) (e : BitVec 1) (dl : BitVec 2) (sl : BitVec 2) (src : Layout) (dst : Layout) (cs : W64) (rest : List W64) (s1 : State) (s2 : State) (s4 : State) (s5 : State) (s6 : State) (s7 : State) (ranks : List (Nat × Nat)) (ps1 : List CopyPage) (ps : List CopyPage) (p : Place), (∀ (f : List (Nat × Nat) → Machine.State → Res), readRanks src.ranktab src.ranks 0 [] s1 f = f ranks s2) ∧ CanIssue Engine.f (Instr.fColl e dl sl) s ∧ top Engine.f s = cs :: rest ∧ s1 = (arrived Engine.f s).setStack Engine.f rest ∧ src = s.me.layout sl.toNat ∧ dst = s.me.layout dl.toNat ∧ src.ownBad = none ∧ dst.ownBad = none ∧ src.pairBad dst = none ∧ (e = 1 → src.epiOk = true) ∧ (List.filter (fun r => r == (s2.package % 2 ^ 10, s2.actor)) ranks).length = 1 ∧ BitVec.toNat cs % 8 = 0 ∧ BitVec.toNat src.base % src.align = 0 ∧ BitVec.toNat dst.base % dst.align = 0 ∧ buffersOutside (e == 1) src dst = none ∧ s2.me.buffersSlot (e == 1) src dst = none ∧ buffersPages (e == 1) src dst s2 s2.me.collPages = Pages.ok ps1 s4 ∧ (e = 0 → buffersMeet src dst = false) ∧ locate s4 cs 8 false true = Xlat.at_ p s5 ∧ collectPages Engine.f s5 [(3, BitVec.toNat cs)] ps1 = Pages.ok ps s6 ∧ tooManyPins (s6.pinsOf ps) = false ∧ s6.pinAll (s6.pinsOf ps) = some s7 ∧ s7.package = s2.package ∧ s7.actor = s2.actor) ∧
    (∃ (s : State) (j : Nat) (c : Coll) (c0 : Coll) (s0 : State) (x : Status), s.me.colls[j]? = some c ∧ c.done = false ∧ (¬(s.me.run = Run.killing ∧ c.task = s.me.task)) ∧ c.takeAcks s = (s0, c0) ∧ c0.ended = some x) ∧
    (∃ (s : State) (j : Nat) (c : Coll) (c0 : Coll) (s0 : State), s.me.colls[j]? = some c ∧ c.done = false ∧ (¬(s.me.run = Run.killing ∧ c.task = s.me.task)) ∧ c.takeAcks s = (s0, c0) ∧ c0.ended = none ∧ s0.digestBad c0 = true) ∧
    (∃ (s : State) (j : Nat) (c : Coll) (c0 : Coll) (s0 : State), s.me.colls[j]? = some c ∧ c.done = false ∧ (¬(s.me.run = Run.killing ∧ c.task = s.me.task)) ∧ c.takeAcks s = (s0, c0) ∧ c0.ended = none ∧ s0.digestBad c0 = false ∧ s0.rankLost c0 = true) ∧
    (∃ (s : State) (j : Nat) (c : Coll) (c0 : Coll) (s0 : State) (s1 : State) (c1 : Coll) (r : State × Coll), s.me.colls[j]? = some c ∧ c.done = false ∧ (¬(s.me.run = Run.killing ∧ c.task = s.me.task)) ∧ c.takeAcks s = (s0, c0) ∧ c0.ended = none ∧ s0.digestBad c0 = false ∧ s0.rankLost c0 = false ∧ c0.capture s0 = Took.ok c1 s1 ∧ r = c1.ship s1 none ∧ (r.fst.setColl r.fst.actor j r.snd).gather r.snd = none) ∧
    (∃ (s : State) (j : Nat) (c : Coll) (c0 : Coll) (s0 : State) (s1 : State) (c1 : Coll) (r : State × Coll) (all : List Coll) (s2 : State) (s3 : State) (c2 : Coll) (o : Status × Writes), s.me.colls[j]? = some c ∧ c.done = false ∧ (¬(s.me.run = Run.killing ∧ c.task = s.me.task)) ∧ c.takeAcks s = (s0, c0) ∧ c0.ended = none ∧ s0.digestBad c0 = false ∧ s0.rankLost c0 = false ∧ c0.capture s0 = Took.ok c1 s1 ∧ r = c1.ship s1 none ∧ s2 = r.fst.setColl r.fst.actor j r.snd ∧ s2.gather r.snd = some all ∧ o = r.snd.outcome all ∧ r.snd.barred s2 (List.map (fun w => (1, Layout.space r.snd.dst, w.fst, w.snd.length)) o.snd) = false ∧ List.foldl Coll.writeRun (s2, r.snd, none) o.snd = (s3, c2, none)) ∧
    (∃ (s : State) (j : Nat) (c : Coll), s.me.colls[j]? = some c ∧ c.done = false ∧ bits ((s.die s.myDie).reg 272) 0 32 ≠ 0 ∧ s.me.leg.timed = false ∧ (∀ (r : Nat × Nat), r ∈ c.ranks → s.absent c r = false)) ∧
    (∃ (s : State) (j : Nat) (c : Coll) (r : Nat × Nat), s.me.colls[j]? = some c ∧ c.done = false ∧ bits ((s.die s.myDie).reg 272) 0 32 ≠ 0 ∧ s.me.leg.timed = false ∧ r ∈ c.ranks ∧ s.absent c r = true ∧ c.absentSince = none) ∧
    (∃ (s : State) (j : Nat) (c : Coll) (r : Nat × Nat) (t : Nat), s.me.colls[j]? = some c ∧ c.done = false ∧ bits ((s.die s.myDie).reg 272) 0 32 ≠ 0 ∧ s.me.leg.timed = false ∧ r ∈ c.ranks ∧ s.absent c r = true ∧ c.absentSince = some t ∧ t + bits ((s.die s.myDie).reg 272) 0 32 ≤ s.cycle) :=
    ⟨⟨collectiveWords1, 1, 4, 7, [9], (by show (7 : W64).toNat < 2 ^ 32; decide), by delta CanIssue; decide +kernel⟩,
    ⟨coller, 0, 1, 0, (coller.me.layout 0), (coller.me.layout 1), 64, [9], coller1, coller2, coller4.2, coller4.2, coller6.2, coller7, [(0, 0)], coller4.1, coller6.1, collectiveWords2, fun _ => rfl, by delta CanIssue; decide +kernel⟩,
    ⟨collectiveWords3, 0, collectiveWords4, (Coll.takeAcks collectiveWords4 collectiveWords3).2, (Coll.takeAcks collectiveWords4 collectiveWords3).1, { bytes := 4 }, by decide +kernel⟩,
    ⟨collectiveWords5, 0, (collective [(0, 0), (0, 1)] none), collectiveWords6, collectiveWords7, by decide +kernel⟩,
    ⟨collectiveWords8, 0, { collective [(0, 0)] none with broken := true }, collectiveWords9, collectiveWords10, by decide +kernel⟩,
    ⟨collectiveWords11, 0, (collective [(0, 0), (0, 1)] (some [List.replicate 16 3])), collectiveWords12, collectiveWords13, collectiveWords14, collectiveWords15, collectiveWords16, by decide +kernel⟩,
    ⟨collectiveWords17, 0, (collective [(0, 0)] (some [List.replicate 16 3])), collectiveWords18, collectiveWords19, collectiveWords20, collectiveWords21, collectiveWords22, collectiveWords23, collectiveWords24, collectiveWords25, collectiveWords26, collectiveWords27, by decide +kernel⟩,
    ⟨collectiveWords28, 0, (collective [(0, 0)] none), by decide +kernel⟩,
    ⟨collectiveWords29, 0, (collective [(0, 0), (0, 1)] none), (0, 1), by decide +kernel⟩,
    ⟨collectiveWords30, 0, collectiveWords31, (0, 1), 5, by decide +kernel⟩⟩

def linkEvents1 : State := (linked { rxKeys := [0], rxSeq := 3, wire := [(flit 3 0 2)] })
def linkEvents2 : State := ((linkEvents1.updLink 0 fun x => { x with wire := [] }).updLink 0 fun x => { x with rxKv := 0, rxSeq := 4, fails := 0 })
def linkEvents3 : State := { (at_ .f [] fun k => { k with far := List.replicate 256 { i := .fAmo 0 0, args := [5, 64], tpc := 0, place := 0, va := 64, die := 1, block := false, due := 0, loc := some (0, 64, false), ready := some 4, came := 1 } }) with links := [(0, { rxKeys := [0], rxSeq := 3, wire := [{ flit 3 0 1 with destStation := 1, atag := Config.flitTag 0 0 (Flit.header { seq := 3, kv := 0, type := 1, destStation := 1 }) [] }] })] }
def linkEvents4 : Link := { rxKeys := [0], rxSeq := 3, wire := [{ flit 3 0 1 with destStation := 1, atag := Config.flitTag 0 0 (Flit.header { seq := 3, kv := 0, type := 1, destStation := 1 }) [] }] }
def linkEvents5 : Flit := { flit 3 0 1 with destStation := 1, atag := Config.flitTag 0 0 (Flit.header { seq := 3, kv := 0, type := 1, destStation := 1 }) [] }
def linkEvents6 : State := ((linkEvents3.updLink 0 fun x => { x with wire := [] }).updLink 0 fun x => { x with rxKv := 0, rxSeq := 4, fails := 0 })
def linkEvents7 : State := (linked { rxKeys := [0], rxSeq := 3, wire := [(flit 3 0 7)] })
def linkEvents8 : State := (linked { rxKeys := [1], rxSeq := 3, wire := [(flit 3 0 2)] })
def linkEvents9 : State := (linked { rxKeys := [0], rxSeq := 3, asking := true, held := [(flit 3 0 2)] })
def linkEvents10 : Link := { rxKeys := [0], rxSeq := 3, asking := true, held := [(flit 3 0 2)] }
def linkEvents11 : State := (linked { rxKeys := [0], rxSeq := 4, held := [(flit 3 0 2)] })
def linkEvents12 : State := { ((at_ .c [] fun k => k)) with links := [(0, { rxKeys := [0], rxSeq := 4, asking := true, fails := 16 })] }
def linkEvents13 : State := (({ ((at_ .c [] fun k => k)) with links := [(0, { txKeys := [0], rxKeys := [0] })] }).updDie 0 fun d => { d with trav := some { tree := 2, cores := 1, firstBuf := 0, opening := false, cur := some 0, tStart := 5 }, timed := { d.timed with slots := [{ cycle := 5, lane := 0, dir := 0, dest := 1, tag := 200, core := 0, off := 0 }] } })
def linkEvents14 : Slot := { cycle := 5, lane := 0, dir := 0, dest := 1, tag := 200, core := 0, off := 0 }
def linkEvents15 : Trav := { tree := 2, cores := 1, firstBuf := 0, opening := false, cur := some 0, tStart := 5 }
def linkEvents16 : State := (linkEvents13.depart 0 10 (hopsBy (stationOf 0) 1 0) (linkEvents13.slotPackets 0 5 linkEvents14))
theorem witness_LinkEvents :
    (∃ (s : State) (l : Nat) (x : Link) (f : Flit) (rest : List Flit) (s1 : State), x = s.link l ∧ x.wire = f :: rest ∧ Accepted f x l ∧ (s1 = (s.updLink l fun x => { x with wire := rest }).updLink l fun x => { x with rxKv := f.kv, rxSeq := f.seq + 1 }) ∧ f.at_ ≤ s.cycle ∧ (l < 80 ∨ 88 ≤ l) ∧ f.type ≠ 7 ∧ s.refusesFlit l f = false ∧ f.type ≠ 6) ∧
    (∃ (s : State) (l : Nat) (x : Link) (f : Flit) (rest : List Flit) (s1 : State), x = s.link l ∧ x.wire = f :: rest ∧ Accepted f x l ∧ (s1 = (s.updLink l fun x => { x with wire := rest }).updLink l fun x => { x with rxKv := f.kv, rxSeq := f.seq + 1 }) ∧ f.at_ ≤ s.cycle ∧ (l < 80 ∨ 88 ≤ l) ∧ f.type ≠ 7 ∧ s.refusesFlit l f = true) ∧
    (∃ (s : State) (l : Nat) (x : Link) (f : Flit) (rest : List Flit), x = s.link l ∧ x.wire = f :: rest ∧ Accepted f x l ∧ f.at_ ≤ s.cycle ∧ f.type = 7) ∧
    (∃ (s : State) (l : Nat) (x : Link) (f : Flit) (rest : List Flit), x = s.link l ∧ x.wire = f :: rest ∧ f.at_ ≤ s.cycle ∧ x.asking = false ∧ (l < 80 ∨ 88 ≤ l) ∧ (¬f.kv ∈ x.rxKeys ∨ f.atag ≠ Config.flitTag f.kv l f.header f.payload)) ∧
    (∃ (s : State) (l : Nat) (x : Link), x = s.link l ∧ x.asking = true ∧ x.fails < 16) ∧
    (∃ (s : State) (l : Nat) (x : Link), x = s.link l ∧ x.rotating = false) ∧
    (∃ (s : State) (l : Nat) (x : Link), x = s.link l ∧ x.asking = true ∧ 16 ≤ x.fails ∧ x.down = false) ∧
    (∃ (s : State) (l : Nat) (x : Link) (j : Nat) (y : Slot) (t : Trav) (ps : List Packet) (u : State), x = s.link l ∧ (s.die s.myDie).timed.slots[j]? = some y ∧ (s.die s.myDie).trav = some t ∧ s.cycle = t.tStart + y.cycle ∧ y.lane < 4 ∧ (y.tag < 128 ∨ 192 ≤ y.tag) ∧ s.laneTaken (y.link s.myDie) = false ∧ (s.link (y.link s.myDie)).maySend = true ∧ s.slotReady s.myDie y = true ∧ ps = s.slotPackets s.myDie t.tStart y ∧ u = s.depart s.myDie s.cycle (hopsBy (stationOf s.myDie) y.dest y.dir) ps) :=
    ⟨⟨linkEvents1, 0, { rxKeys := [0], rxSeq := 3, wire := [(flit 3 0 2)] }, (flit 3 0 2), [], linkEvents2, rfl, rfl, ⟨by decide +kernel, rfl, by decide +kernel, by decide +kernel⟩, rfl, by decide +kernel⟩,
    ⟨linkEvents3, 0, linkEvents4, linkEvents5, [], linkEvents6, rfl, rfl, ⟨by decide +kernel, rfl, by decide +kernel, by decide +kernel⟩, rfl, by decide +kernel⟩,
    ⟨linkEvents7, 0, { rxKeys := [0], rxSeq := 3, wire := [(flit 3 0 7)] }, (flit 3 0 7), [], rfl, rfl, ⟨by decide +kernel, rfl, by decide +kernel, by decide +kernel⟩, by decide +kernel⟩,
    ⟨linkEvents8, 0, { rxKeys := [1], rxSeq := 3, wire := [(flit 3 0 2)] }, (flit 3 0 2), [], rfl, rfl, by decide +kernel⟩,
    ⟨linkEvents9, 0, linkEvents10, rfl, by decide +kernel⟩,
    ⟨linkEvents11, 0, { rxKeys := [0], rxSeq := 4, held := [(flit 3 0 2)] }, rfl, by decide +kernel⟩,
    ⟨linkEvents12, 0, { rxKeys := [0], rxSeq := 4, asking := true, fails := 16 }, by decide +kernel⟩,
    ⟨linkEvents13, 0, { txKeys := [0], rxKeys := [0] }, 0, linkEvents14, linkEvents15, (linkEvents13.slotPackets 0 5 linkEvents14), linkEvents16, by decide +kernel⟩⟩

def legEvents1 : State := (((at_ .c [] fun k => k)).updDie 0 fun _ => { pagedDie [(0, 0x31), (1, 0x47), (2, 0x45), (3, 0x4C)] with bufA := { st := .loading }, trav := some { tree := 2, cores := 1, firstBuf := 0 } })
def legEvents2 : State := (((at_ .c [] fun k => k)).updDie 0 fun _ => { pagedDie [] with bufA := { st := .loading, headRead := true }, trav := some { tree := 2, cores := 1, firstBuf := 0 } })
def legEvents3 : State := (((at_ .c [] fun k => k)).updDie 0 fun _ => { pagedDie [(0, 0x31), (1, 0x47), (2, 0x45), (3, 0x4C)] with bufA := { st := .loading, headRead := true }, trav := some { tree := 2, cores := 1, firstBuf := 0 } })
def legEvents4 : State := (((at_ .c [] fun k => { k with leg := { k.leg with signed := true } }).updDie 0 fun d => { d with trav := some { tree := 2, cores := 1, firstBuf := 0, signed := [0], tFirst := 4, tLast := 5 }, bufA := { d.bufA with st := .ready, readyAt := 1, table := { len := 100, tree := 2, npart := 1, cores := 1 } } })).updDie 0 fun d => { d with dg := [(500, BitVec.allOnes 64), (258, 6)] }
def legEvents5 : Trav := { tree := 2, cores := 1, firstBuf := 0, signed := [0], tFirst := 4, tLast := 5 }
def legEvents6 : State := ((at_ .c [] fun k => k).updDie 0 fun d => { d with trav := some { tree := 2, cores := 1, firstBuf := 0, opening := false, cur := some 0, tStart := 5 }, timed := { d.timed with todo := [(0, 1, { cycle := 2, cmd := 0, bank := 0, addr := 3, tag := 0, off := 200 })] } })
def legEvents7 : Trav := { tree := 2, cores := 1, firstBuf := 0, opening := false, cur := some 0, tStart := 5 }
def legEvents8 : TCmd := { cycle := 2, cmd := 0, bank := 0, addr := 3, tag := 0, off := 200 }
def legEvents9 : State := ((at_ .c [] fun k => k).updDie 0 fun d => { d with trav := some legEvents7, bufA := { d.bufA with table := { len := 3 } } })
def legEvents10 : Die := ((((at_ .c [] fun k => k).updDie 0 fun d => { d with trav := some legEvents7, bufA := { d.bufA with table := { len := 3 } } })).die 0)
def legEvents11 : State := ((at_ .c [] fun k => k).updDie 0 fun d => { d with timed := { d.timed with owed := [(3, 64, false)] } })
def legEvents12 : State := ((at_ .c [] fun k => k).updDie 0 fun d => { d with timed := { d.timed with reqs := [{ tag := 3, core := 0, burst := 64, write := none, arrives := 5 }] } })
def legEvents13 : TimedReq := { tag := 3, core := 0, burst := 64, write := none, arrives := 5 }
def legEvents14 : State := ((at_ .c [] fun k => k).updDie 0 fun d => { d with trav := some legEvents7, bufA := { d.bufA with table := { len := 3, timelines := [{ stack := 0, pch := 0, dirOff := 128, cmds := [] }], slots := [{ cycle := 5, lane := 0, dir := 0, dest := 1, tag := 200, core := 0, off := 0 }] } } })
def legEvents15 : Die := ((((at_ .c [] fun k => k).updDie 0 fun d => { d with trav := some legEvents7, bufA := { d.bufA with table := { len := 3, timelines := [{ stack := 0, pch := 0, dirOff := 128, cmds := [] }], slots := [{ cycle := 5, lane := 0, dir := 0, dest := 1, tag := 200, core := 0, off := 0 }] } } })).die 0)
def legEvents16 : State := ((at_ .c [] fun k => k).updDie 0 fun d => { d with trav := some { tree := 2, cores := 1, firstBuf := 0 }, firstTable := some { len := 3, timelines := [{ stack := 0, pch := 0, dirOff := 128, cmds := [] }] } })
def legEvents17 : State := ((at_ .c [] fun k => k).updDie 0 fun d => { d with mem := d.mem })
def legEvents18 : State := { (((at_ .c [] fun k => k).updDie 0 fun d => { d with heldAt := [(0, 0)] })) with cycle := 7000 }
def legEvents19 : State := ((at_ .c [] fun k => k).updDie 0 fun d => { d with trav := some legEvents7, bufA := { d.bufA with table := { len := 3, slots := [{ cycle := 5, lane := 0, dir := 0, dest := 1, tag := 200, core := 0, off := 0 }] } } })
def legEvents20 : Die := (((at_ .c [] fun k => k).updDie 0 fun d => { d with trav := some legEvents7, bufA := { d.bufA with table := { len := 3, slots := [{ cycle := 5, lane := 0, dir := 0, dest := 1, tag := 200, core := 0, off := 0 }] } } }).die 0)
def legEvents21 : State := ((at_ .c [] fun k => k).updDie 0 fun d => { d with dg := [(272, 2), (500, BitVec.allOnes 64)], trav := some { tree := 2, cores := 3, firstBuf := 0, signed := [0], tFirst := 4, tLast := 5 } })
def legEvents22 : Trav := { tree := 2, cores := 3, firstBuf := 0, signed := [0], tFirst := 4, tLast := 5 }
theorem witness_LegEvents :
    (∃ (s : State) (d : Die) (b : BitVec 1) (h : List Nat) (s1 : State), d = s.die s.myDie ∧ (d.buf b.toNat).st = BufState.loading ∧ (d.buf b.toNat).headRead = false ∧ loadHead s.forTraverse (d.buf b.toNat).space (BitVec.toNat (d.buf b.toNat).addr) = Load.ok h s1) ∧
    (∃ (s : State) (d : Die) (b : BitVec 1) (c : Cause) (off : Nat) (s1 : State), d = s.die s.myDie ∧ (d.buf b.toNat).st = BufState.loading ∧ (d.buf b.toNat).headRead = true ∧ loadTable s.forTraverse s.myDie (d.buf b.toNat).space (BitVec.toNat (d.buf b.toNat).addr) = Load.bad c off s1) ∧
    (∃ (s : State) (d : Die) (b : BitVec 1) (t : LegTable) (pages : List (Nat × TlbEntry)) (s1 : State) (s2 : State), d = s.die s.myDie ∧ (d.buf b.toNat).st = BufState.loading ∧ (d.buf b.toNat).headRead = true ∧ loadTable s.forTraverse s.myDie (d.buf b.toNat).space (BitVec.toNat (d.buf b.toNat).addr) = Load.ok (t, pages) s1 ∧ s1.pinAll (s1.pageKeys pages) = some s2) ∧
    (∃ (s : State) (d : Die) (t : Trav) (ds : List Nat) (b : Nat) (ts : Nat), d = s.die s.myDie ∧ d.trav = some t ∧ t.closed = false ∧ (s.closure t.tree).done = true ∧ ds = s.diesOn t.tree ∧ (b = if (s.closure t.tree).vote = true then 1 else 0) ∧ (∀ (x : Nat), x ∈ ds → ∀ (k : Nat), k ∈ s.preparing x → ∃ p, p ∈ (s.travOf x).prepared ∧ p.fst = k) ∧ (∀ (x : Nat), x ∈ ds → ((s.die x).buf b).st = BufState.ready ∧ ((s.die x).buf b).table.len ≠ 0 ∧ ((s.die x).buf b).readyAt < ts ∧ s.overrunOf x (s.closure t.tree).tLast = 0 ∧ (∀ (p : Nat × Nat), p ∈ (s.travOf x).prepared → p.snd ≤ ts) ∧ (s.travOf x).refab = none ∧ ((s.travOf x).opening = true → ((s.die x).buf (s.travOf x).firstBuf).awaited = false)) ∧ ts = (s.closure t.tree).tLast + s.closureOfs s.myDie ∧ ts ≤ s.cycle + 1) ∧
    (∃ (s : State) (d : Die) (t : Trav) (stack : Nat) (pch : Nat) (c : TCmd) (rest : List (Nat × Nat × TCmd)), d = s.die s.myDie ∧ d.trav = some t ∧ d.timed.todo = (stack, pch, c) :: rest ∧ t.tStart + c.cycle ≤ s.cycle) ∧
    (∃ (s : State) (d : Die) (t : Trav) (b : Nat), d = s.die s.myDie ∧ d.trav = some t ∧ t.cur = some b ∧ t.tStart + (d.buf b).table.len ≤ s.cycle ∧ d.timed.todo = []) ∧
    (∃ (s : State) (d : Die) (tag : Nat) (off : Nat) (write : Bool) (rest : List (Nat × Nat × Bool)), d = s.die s.myDie ∧ d.timed.static_ = [] ∧ d.timed.owed = (tag, off, write) :: rest ∧ s.timedOver s.myDie = true ∧ (∀ (r : TimedReq), r ∈ d.timed.reqs → r.tag = tag → r.burst = off → r.arrives ≤ s.cycle)) ∧
    (∃ (s : State) (d : Die) (r : TimedReq) (rest : List TimedReq), d = s.die s.myDie ∧ d.timed.static_ = [] ∧ d.timed.owed = [] ∧ d.timed.reqs = r :: rest ∧ r.arrives ≤ s.cycle) ∧
    (∃ (s : State) (d : Die) (sel : BitVec 1), d = s.die s.myDie ∧ d.mayStation sel.toNat s.cycle = true ∧ s.stackDone s.myDie sel.toNat = true) ∧
    (∃ (s : State) (d : Die) (sel : BitVec 1), d = s.die s.myDie ∧ d.mayStation sel.toNat s.cycle = false ∧ s.mayPrepare s.myDie sel.toNat = true) ∧
    (∃ (s : State) (d : Die) (sel : BitVec 1), d = s.die s.myDie ∧ BitVec.getLsbD (d.reg 500) sel.toNat = true ∧ SMap.get 0 d.refresh (2 + sel.toNat) ≤ s.cycle) ∧
    (∃ (s : State) (d : Die) (sel : BitVec 1), d = s.die s.myDie ∧ d.heldAt.has sel.toNat = true ∧ SMap.get 0 d.heldAt sel.toNat + 6630 ≤ s.cycle) ∧
    (∃ (s : State) (d : Die), d = s.die s.myDie ∧ d.timed.slots = [] ∧ s.unacked (stationOf s.myDie) = false ∧ d.mayStation 2 s.cycle = true) ∧
    (∃ (s : State) (d : Die) (t : Trav) (gang : List Nat), d = s.die s.myDie ∧ d.trav = some t ∧ gang = List.flatMap s.participants (s.diesOn t.tree) ∧ bits (d.reg 272) 0 32 ≠ 0 ∧ t.closed = false ∧ (t.signed ≠ [] ∨ t.stations ≠ []) ∧ (s.closure t.tree).done = false ∧ t.tFirst + bits (d.reg 272) 0 32 < s.cycle) :=
    ⟨⟨legEvents1, (legEvents1.die 0), 0, (headOf (loadHead legEvents1.forTraverse 0 0)).1, (headOf (loadHead legEvents1.forTraverse 0 0)).2, by decide +kernel⟩,
    ⟨legEvents2, (legEvents2.die 0), 0, .ill, 0, (badOf (loadTable legEvents2.forTraverse 0 0 0)), by decide +kernel⟩,
    ⟨legEvents3, (legEvents3.die 0), 0, { len := 0 }, [], (tableOf (loadTable legEvents3.forTraverse 0 0 0)).2, (tableOf (loadTable legEvents3.forTraverse 0 0 0)).2, by decide +kernel⟩,
    ⟨legEvents4, (legEvents4.die 0), legEvents5, [0], 0, (legEvents4.closure 2).tLast + legEvents4.closureOfs 0, by decide +kernel⟩,
    ⟨legEvents6, (legEvents6.die 0), legEvents7, 0, 1, legEvents8, [], by decide +kernel⟩,
    ⟨legEvents9, legEvents10, legEvents7, 0, by decide +kernel⟩,
    ⟨legEvents11, (legEvents11.die 0), 3, 64, false, [], by decide +kernel⟩,
    ⟨legEvents12, (legEvents12.die 0), legEvents13, [], by decide +kernel⟩,
    ⟨legEvents14, legEvents15, 0, by decide +kernel⟩,
    ⟨legEvents16, (legEvents16.die 0), 0, by decide +kernel⟩,
    ⟨legEvents17, (legEvents17.die 0), 0, by decide +kernel⟩,
    ⟨legEvents18, ((legEvents18 : Machine.State).die 0), 0, by decide +kernel⟩,
    ⟨legEvents19, legEvents20, by decide +kernel⟩,
    ⟨legEvents21, (legEvents21.die 0), legEvents22, (legEvents21.participants 0), by decide +kernel⟩⟩

def managementEvents1 : State := (runs [] [] fun k => { k with walks := [{ space := 0, va := 64, write := false }] })
def managementEvents2 : State := (runs [] [] fun k => { k with walks := [{ space := 1, va := 64, write := false }] })
def managementEvents3 : State := { (runs [] [] fun k => k).updDie 0 fun d => { d with locks := [{ tier := 0, frame := 0, size := 3, count := 1 }] } with regWrites := [{ cycle := 0, core := 0, group := 1, idx := 336, val := 3 }] }
def managementEvents4 : State := { (runs [] [] fun k => k).updDie 0 fun d => d with regWrites := [{ cycle := 0, core := 0, group := 1, idx := 336, val := 1 }] }
def managementEvents5 : State := { (runs [] [] fun k => k).updDie 0 fun d => { d with keys := [0, 1] } with regWrites := [{ cycle := 0, core := 0, group := 1, idx := 361, val := 1 }] }
def managementEvents6 : State := { (runs [] [] fun k => k).updDie 0 fun d => { d with dg := SMap.put d.dg 362 7 } with cycle := 100 }
def managementEvents7 : State := (runs [] [] fun k => k).updDie 0 fun d => { d with dg := [(360, 2^63 + 1), (500, BitVec.allOnes 64)], patrol := tierSize 0 / 256 + tierSize 1 / 256 }
def managementEvents8 : State := { (runs [] [] fun k => k).updDie 0 fun d => { d with dg := [(352, 2^63 + 1), (500, BitVec.allOnes 64)] } with cycle := 2000 }
def managementEvents9 : State := (runs [] [] fun k => k).updDie 0 fun d => { d with swap := some { hot := 1, cold := 2, free := false } }
theorem witness_ManagementEvents :
    (∃ (s : State) (d : Die) (k : Nat) (w : Walk) (x : Nat) (e : TlbEntry), d = s.die s.myDie ∧ s.me.walks[k]? = some w ∧ w.failed = none ∧ w.reported = false ∧ w.due ≤ s.cycle ∧ s.walkHeld (bits w.va 55 3) w.space w.va = false ∧ (s.die (bits w.va 55 3)).walk w.space w.va = WalkOut.leaf x ∧ e = { space := w.space, base := BitVec.toNat w.va / pageSize (pteSize x), size := pteSize x, leaf := x }) ∧
    (∃ (s : State) (d : Die) (k : Nat) (w : Walk) (c : Cause), d = s.die s.myDie ∧ s.me.walks[k]? = some w ∧ w.failed = none ∧ w.reported = false ∧ w.due ≤ s.cycle ∧ s.walkHeld (bits w.va 55 3) w.space w.va = false ∧ (s.die (bits w.va 55 3)).walk w.space w.va = WalkOut.fail c ∧ c ≠ Cause.integ) ∧
    (∃ (s : State) (d : Die) (i : Instr) (kind : RegKind) (w : RegWrite), d = s.die s.myDie ∧ tlbKind i = some kind ∧ tlbHeld i (taken s w) w = true ∧ s.nextWrite = some w ∧ w.kind = kind) ∧
    (∃ (s : State) (d : Die) (i : Instr) (kind : RegKind) (w : RegWrite), d = s.die s.myDie ∧ tlbKind i = some kind ∧ tlbHeld i (taken s w) w = false ∧ s.nextWrite = some w ∧ w.kind = kind) ∧
    (∃ (s : State) (d : Die) (w : RegWrite), d = s.die s.myDie ∧ BitVec.getLsbD w.val 0 = true ∧ (s.die w.die).keyPass = false ∧ ((s.die w.die).keyCur + 1) % 15 ∈ (s.die w.die).keys ∧ s.nextWrite = some w ∧ w.kind = RegKind.keyRotate) ∧
    (∃ (s : State) (d : Die) (p : Nat), d = s.die s.myDie ∧ d.period = some p ∧ d.patrolAt ≤ s.cycle ∧ BitVec.getLsbD (d.reg 500) 22 = true ∧ s.powered = true ∧ d.patrol + 1 < tierSize 0 / 256 + tierSize 1 / 256) ∧
    (∃ (s : State) (d : Die), d = s.die s.myDie ∧ d.keyPass = true ∧ d.mem.baseVer < 16 ∧ d.patrol = tierSize 0 / 256 + tierSize 1 / 256) ∧
    (∃ (s : State) (d : Die), d = s.die s.myDie ∧ bits (d.reg 352) 63 1 = 1 ∧ bits (d.reg 352) 0 16 ≠ 0 ∧ d.epochAt + bits (d.reg 352) 0 16 * 1024 ≤ s.cycle) ∧
    (∃ (s : State) (d : Die) (w : Swap), d = s.die s.myDie ∧ d.swap = some w) :=
    ⟨⟨managementEvents1, (managementEvents1.die 0), 0, { space := 0, va := 64, write := false }, 1935, { space := 0, base := 0, size := 3, leaf := 1935 }, by decide +kernel⟩,
    ⟨managementEvents2, (managementEvents2.die 0), 0, { space := 1, va := 64, write := false }, .xlat, by decide +kernel⟩,
    ⟨managementEvents3, (managementEvents3.die 0), .tlbInvAll, .tlbAll, { cycle := 0, core := 0, group := 1, idx := 336, val := 3 }, by decide +kernel⟩,
    ⟨managementEvents4, (managementEvents4.die 0), .tlbInvPage, .tlbPage, { cycle := 0, core := 0, group := 1, idx := 336, val := 1 }, by decide +kernel⟩,
    ⟨managementEvents5, (managementEvents5.die 0), { cycle := 0, core := 0, group := 1, idx := 361, val := 1 }, by decide +kernel⟩,
    ⟨managementEvents6, (managementEvents6.die 0), (((managementEvents6.die 0)).period.getD 0), by decide +kernel⟩,
    ⟨managementEvents7, (managementEvents7.die 0), by decide +kernel⟩,
    ⟨managementEvents8, (managementEvents8.die 0), by decide +kernel⟩,
    ⟨managementEvents9, (managementEvents9.die 0), { hot := 1, cold := 2, free := false }, by decide +kernel⟩⟩

def launchAndStart1 : State := (runs [(1024, 0x41)] [tasks [plain] [.placed 0]] fun k => { k with task := some ref, text := { space := 0, image := 1024, len := 1 } })
def launchAndStart2 : Place := (match (ownerXlat launchAndStart1 0 0 1024 false false) with | .at_ p _ => p | _ => { die := 0, peer := none, tier := 0, off := 0, rd := true, w := true, x := true, ra := true, mt := 0, klock := false, size := 0 })
def launchAndStart3 : State := (match (ownerXlat launchAndStart1 0 0 1024 false false) with | .at_ _ s => s | _ => State.reset)
def launchAndStart4 : State := (runs [] [] fun k => { (k.updEn .c fun x => { x with pc := 300 }) with text := { k.text with tail := some 200 } })
def launchAndStart5 : State := ((runs record [] fun k => k).updDie 0 fun d => { d with launchq := [{ va := 256, space := 0, sys := false }] })
def launchAndStart6 : State := (recOf (((launchOfHeader ((recOf [] (recRead launchAndStart5 0 256 256)).1) 256 0 false).get rfl), []) (readRecord ((recOf [] (recRead launchAndStart5 0 256 256)).2) ((recOf [] (recRead launchAndStart5 0 256 256)).1) ((launchOfHeader ((recOf [] (recRead launchAndStart5 0 256 256)).1) 256 0 false).get rfl))).2
def launchAndStart7 : State := (recOf () (acceptRecord (recOf (((launchOfHeader ((recOf [] (recRead launchAndStart5 0 256 256)).1) 256 0 false).get rfl), []) (readRecord ((recOf [] (recRead launchAndStart5 0 256 256)).2) ((recOf [] (recRead launchAndStart5 0 256 256)).1) ((launchOfHeader ((recOf [] (recRead launchAndStart5 0 256 256)).1) 256 0 false).get rfl))).2 0 ((recOf [] (recRead launchAndStart5 0 256 256)).1) (recOf (((launchOfHeader ((recOf [] (recRead launchAndStart5 0 256 256)).1) 256 0 false).get rfl), []) (readRecord ((recOf [] (recRead launchAndStart5 0 256 256)).2) ((recOf [] (recRead launchAndStart5 0 256 256)).1) ((launchOfHeader ((recOf [] (recRead launchAndStart5 0 256 256)).1) 256 0 false).get rfl))).1.1 (recOf (((launchOfHeader ((recOf [] (recRead launchAndStart5 0 256 256)).1) 256 0 false).get rfl), []) (readRecord ((recOf [] (recRead launchAndStart5 0 256 256)).2) ((recOf [] (recRead launchAndStart5 0 256 256)).1) ((launchOfHeader ((recOf [] (recRead launchAndStart5 0 256 256)).1) 256 0 false).get rfl))).1.2)).2
def launchAndStart8 : Launch := ((launchOfHeader ((recOf [] (recRead launchAndStart5 0 256 256)).1) 256 0 false).get rfl)
def launchAndStart9 : Launch := (recOf (launchAndStart8, []) (readRecord ((recOf [] (recRead launchAndStart5 0 256 256)).2) ((recOf [] (recRead launchAndStart5 0 256 256)).1) launchAndStart8)).1.1
def launchAndStart10 : List PageKey := (recOf (launchAndStart8, []) (readRecord ((recOf [] (recRead launchAndStart5 0 256 256)).2) ((recOf [] (recRead launchAndStart5 0 256 256)).1) launchAndStart8)).1.2
def launchAndStart11 : State := ((runs [] [(tasks [plain, plain] [.waiting, .waiting])] fun k => k).setCore 0 {})
def launchAndStart12 : State := (((runs [] [(tasks [plain] [.saved 0 0 false])] fun k => k).setCore 0 {}).updDie 0 fun d => { d with requeued := [(0, 0)] })
def launchAndStart13 : State := ((runs [] [{ tasks [plain, plain] [.waiting, .waiting] with levels := [{ flat 7 with extent := 2 }] }] fun k => k).setCore 0 {})
def launchAndStart14 : Launch := { tasks [plain, plain] [.waiting, .waiting] with levels := [{ flat 7 with extent := 2 }] }
def launchAndStart15 : Nat := (match State.placing launchAndStart13 0 launchAndStart14 0 none with | .group d c l v => (d, c, l, v) | _ => (0, [], launchAndStart14, flat 0)).1
def launchAndStart16 : List (Nat × Nat) := (match State.placing launchAndStart13 0 launchAndStart14 0 none with | .group d c l v => (d, c, l, v) | _ => (0, [], launchAndStart14, flat 0)).2.1
def launchAndStart17 : Launch := (match State.placing launchAndStart13 0 launchAndStart14 0 none with | .group d c l v => (d, c, l, v) | _ => (0, [], launchAndStart14, flat 0)).2.2.1
def launchAndStart18 : Level := (match State.placing launchAndStart13 0 launchAndStart14 0 none with | .group d c l v => (d, c, l, v) | _ => (0, [], launchAndStart14, flat 0)).2.2.2
def launchAndStart19 : State := (runs [] [tasks [plain] [.placed 0]] fun k => { k with run := .starting 4, task := some ref, text := { space := 0, image := 1024, len := 1, rows := [{ space := 0, image := 1024, row := 0, words := [] }] } })
def launchAndStart20 : Launch := (tasks [plain, { timedTask with preds := [0] }] [.waiting, .waiting])
def launchAndStart21 : State := ((runs [] [{ timedLaunch with t0 := none }] fun k => k).setCore 0 {})
theorem witness_LaunchAndStart :
    (∃ (s : State) (d : Die) (row : Nat) (q : Nat × Nat × Nat) (p : Place) (s1 : State) (s2 : State) (bs : List Byte), d = s.die s.myDie ∧ List.find? (fun q => decide (s.awaits s.actor q = some row)) (s.kernels s.actor) = some q ∧ ownerXlat s ((q.snd.fst + 256 * row) / 2 ^ 55 % 8) q.fst (BitVec.ofNat 64 (q.snd.fst + 256 * row)) false false = OwnerX.at_ p s1 ∧ s1.waits p.die p.tier p.off 256 = false ∧ s1.read p.die p.tier p.off 256 = (s2, some bs)) ∧
    (∃ (s : State) (d : Die) (tail : Nat) (low : Nat), d = s.die s.myDie ∧ s.me.run = Run.running ∧ s.me.text.tail = some tail ∧ s.me.actives ≠ [] ∧ (∀ (t : Engine), t ∈ s.me.actives → low ≤ (s.me.en t).pc) ∧ (∃ t, t ∈ s.me.actives ∧ (s.me.en t).pc = low) ∧ tail ≤ low) ∧
    (∃ (s : State) (d : Die) (q : LaunchReq) (rest : List LaunchReq) (id : Nat) (s1 : State) (s2 : State) (s3 : State) (h : List Byte) (l : Launch) (l2 : Launch) (pins : List PageKey), d = s.die s.myDie ∧ d.launchq = q :: rest ∧ d.freeLaunch = some id ∧ BitVec.getLsbD (d.reg 500) 18 = true ∧ s.power < 2 ∧ recRead s q.space (BitVec.toNat q.va) 256 = RecOut.ok h s1 ∧ s1.lifeBars = false ∧ launchOfHeader h q.va id q.sys = some l ∧ readRecord s1 h l = RecOut.ok (l2, pins) s2 ∧ acceptRecord s2 s.myDie h l2 pins = RecOut.ok () s3) ∧
    (∃ (s : State) (d : Die) (id : Nat) (i : Nat) (c : Nat) (l : Launch), d = s.die s.myDie ∧ d.readyTasks.head? = some (id, i) ∧ BitVec.getLsbD (d.reg 500) 18 = true ∧ s.power < 2 ∧ d.launch id = some l ∧ s.placing s.myDie l i none = Placing.one c ∧ l.st i = TaskSt.waiting) ∧
    (∃ (s : State) (d : Die) (id : Nat) (i : Nat) (c : Nat) (l : Launch) (f : Nat) (left : Nat) (skip : Bool), d = s.die s.myDie ∧ d.readyTasks.head? = some (id, i) ∧ BitVec.getLsbD (d.reg 500) 18 = true ∧ s.power < 2 ∧ d.launch id = some l ∧ s.placing s.myDie l i none = Placing.one c ∧ l.st i = TaskSt.saved f left skip) ∧
    (∃ (s : State) (d : Die) (id : Nat) (i : Nat) (l : Launch) (gd : Nat) (cs : List (Nat × Nat)) (l2 : Launch) (lv : Level) (g : Nat), d = s.die s.myDie ∧ d.readyTasks.head? = some (id, i) ∧ BitVec.getLsbD (d.reg 500) 18 = true ∧ s.power < 2 ∧ d.launch id = some l ∧ s.placing s.myDie l i none = Placing.group gd cs l2 lv ∧ (s.die gd).freeGroup = some g) ∧
    (∃ (s : State) (d : Die), (∀ (c : Nat), c ∈ s.startSet → ∃ at_ t r, (s.core c).run = Run.starting at_ ∧ at_ ≤ s.cycle ∧ (s.core c).task = some t ∧ s.recordOf t = some r ∧ (s.core c).text.startable r.entry = true ∧ (s.die (c / 512)).halted = false) ∧ d = s.die s.myDie) ∧
    (∃ (s : State) (d : Die) (u : State) (c : Nat) (t : TaskRef) (r : TaskRec), d = s.die s.myDie ∧ (u.core c).task = some t ∧ u.recordOf t = some r) ∧
    (∃ (s : State) (d : Die) (l : Launch) (t0 : Nat) (xs : List (Nat × TaskRec)), d = s.die s.myDie ∧ s.timedDue = some (l, t0, xs)) ∧
    (∃ (s : State) (d : Die) (l : Launch) (t0 : Nat) (xs : List (Nat × TaskRec)) (x : Nat × TaskRec), d = s.die s.myDie ∧ s.timedDue = some (l, t0, xs) ∧ x ∈ xs) ∧
    (∃ (s : State) (d : Die) (l : Launch) (t0 : Nat) (r : TaskRec), d = s.die s.myDie ∧ l.unfinished r (t0 + r.start) = none) ∧
    (∃ (s : State) (d : Die) (l : Launch) (t0 : Nat) (r : TaskRec) (p : Nat), d = s.die s.myDie ∧ l.unfinished r (t0 + r.start) = some p) ∧
    (∃ (s : State) (d : Die) (l : Launch), d = s.die s.myDie ∧ s.timedDue = none ∧ List.find? s.t0Ready d.launches = some l) :=
    ⟨⟨launchAndStart1, (launchAndStart1.die 0), 0, (0, 1024, 1), launchAndStart2, launchAndStart3, (launchAndStart3.read 0 0 1024 256).1, (launchAndStart3.read 0 0 1024 256).2.getD [], by decide +kernel⟩,
    ⟨launchAndStart4, (launchAndStart4.die 0), 200, 300, by decide +kernel⟩,
    ⟨launchAndStart5, (launchAndStart5.die 0), { va := 256, space := 0, sys := false }, [], 0, (recOf [] (recRead launchAndStart5 0 256 256)).2, launchAndStart6, launchAndStart7, (recOf [] (recRead launchAndStart5 0 256 256)).1, launchAndStart8, launchAndStart9, launchAndStart10, by decide +kernel⟩,
    ⟨launchAndStart11, (launchAndStart11.die 0), 0, 0, 0, (tasks [plain, plain] [.waiting, .waiting]), by decide +kernel⟩,
    ⟨launchAndStart12, (launchAndStart12.die 0), 0, 0, 0, (tasks [plain] [.saved 0 0 false]), 0, 0, false, by decide +kernel⟩,
    ⟨launchAndStart13, (launchAndStart13.die 0), 0, 0, launchAndStart14, launchAndStart15, launchAndStart16, launchAndStart17, launchAndStart18, 0, by decide +kernel⟩,
    ⟨launchAndStart19, (launchAndStart19.die 0), fun c h => List.mem_singleton.mp h ▸ ⟨4, ref, plain, by decide +kernel⟩, by decide +kernel⟩,
    ⟨launchAndStart19, (launchAndStart19.die 0), launchAndStart19, 0, ref, plain, by decide +kernel⟩,
    ⟨timedRun, (timedRun.die 0), timedLaunch, 5, [(0, timedTask)], by decide +kernel⟩,
    ⟨timedRun, (timedRun.die 0), timedLaunch, 5, [(0, timedTask)], (0, timedTask), by decide +kernel⟩,
    ⟨timedRun, (timedRun.die 0), timedLaunch, 5, timedTask, by decide +kernel⟩,
    ⟨timedRun, (timedRun.die 0), launchAndStart20, 5, { timedTask with preds := [0] }, 0, by decide +kernel⟩,
    ⟨launchAndStart21, (launchAndStart21.die 0), { timedLaunch with t0 := none }, by decide +kernel⟩⟩

def taskEvents1 : State := (framed (tasks [plain] [.placed 0]) (fun k => { k with run := .ending }) fun d => d)
def taskEvents2 : State := (runs [] [(tasks [plain] [.placed 0])] fun k => { k with task := some ref, run := .saving .preempt })
def taskEvents3 : State := (runs [] [{ (tasks [plain] [.placed 0]) with used := [0] }] fun k => { k with task := some ref, run := .saving .yield })
def taskEvents4 : State := (framed savedTask (fun k => { k with run := .storing .preempt 4, frame := some 0 }) fun d => d)
def taskEvents5 : State := (framed readTask (fun k => { k with run := .restoring false 4, frame := some 0 }) fun d => { d with saved := [kept] })
def taskEvents6 : State := (runs [] [(tasks [plain] [.placed 0])] fun k => { k with task := some ref, swait := .acquire 64 false false })
def taskEvents7 : State := (runs [] [(tasks [plain] [.placed 0])] fun k => { k with task := some ref, run := .killing, posted := [{ eng := .c, die := 0, tier := 0, off := 64, va := 64, klock := false, mt := 0, cls := 0, write := some [1, 2] }] })
def taskEvents8 : State := (framed (tasks [plain] [.placed 0]) (fun k => { k with run := .killing }) fun d => d)
def taskEvents9 : State := (((State.cancel taskEvents8).breakTraverse.breakColls.unpinAll (State.cancel taskEvents8).me.kop.allPins).taskGone ref)
def taskEvents10 : State := (((((State.cancel taskEvents8).breakTraverse.breakColls.unpinAll (State.cancel taskEvents8).me.kop.allPins).taskGone ref).memberKilled (((State.cancel taskEvents8).breakTraverse.breakColls.unpinAll (State.cancel taskEvents8).me.kop.allPins).taskGone ref).actor).updDie (((State.cancel taskEvents8).breakTraverse.breakColls.unpinAll (State.cancel taskEvents8).me.kop.allPins).taskGone ref).myDie Die.killDone)
def taskEvents11 : State := { (runs [] [] fun k => k) with regWrites := [{ cycle := 0, core := 0, group := 1, idx := 400, val := 0 }] }
def taskEvents12 : State := { (runs [] [(tasks [plain] [.trapped 0 0])] fun k => k) with regWrites := [{ cycle := 0, core := 0, group := 1, idx := 400, val := 0 }] }
def taskEvents13 : State := { (runs [] [(tasks [plain] [.placed 0])] fun k => { k with task := some ref, run := .trappedInPlace }) with regWrites := [{ cycle := 0, core := 0, group := 1, idx := 400, val := 2^60 }] }
def taskEvents14 : RegWrite := { cycle := 0, core := 0, group := 1, idx := 400, val := 2^60 }
def taskEvents15 : State := { (runs [] [] fun k => k) with regWrites := [{ cycle := 0, core := 0, group := 1, idx := 400, val := 2*2^60 }] }
def taskEvents16 : RegWrite := { cycle := 0, core := 0, group := 1, idx := 400, val := 2*2^60 }
def taskEvents17 : State := { (runs [] [(tasks [plain] [.placed 0])] fun k => { k with task := some ref }) with regWrites := [{ cycle := 0, core := 0, group := 1, idx := 400, val := 2 * 2^60 }] }
def taskEvents18 : RegWrite := { cycle := 0, core := 0, group := 1, idx := 400, val := 2 * 2^60 }
def taskEvents19 : State := { (runs [] [] fun k => k) with regWrites := [{ cycle := 0, core := 0, group := 1, idx := 406, val := 0 }] }
def taskEvents20 : Nat × Nat := (((taken taskEvents19 { cycle := 0, core := 0, group := 1, idx := 406, val := 0 }).die 0).pageAround 0 (0 &&& BitVec.ofNat 64 ((2 ^ 46 - 1) * 2 ^ 12)))
def taskEvents21 : Nat × Nat := (((taken taskEvents19 { cycle := 0, core := 0, group := 1, idx := 406, val := 0 }).die 0).pageAround 0 (0 &&& BitVec.ofNat 64 ((2 ^ 46 - 1) * 2 ^ 12)))
def taskEvents22 : Nat × Nat := (((taken taskEvents19 { cycle := 0, core := 0, group := 1, idx := 406, val := 0 }).die 0).pageAround 0 (0 &&& BitVec.ofNat 64 ((2 ^ 46 - 1) * 2 ^ 12)))
theorem witness_TaskEvents :
    (∃ (s : State) (t : TaskRef) (l : Launch), (∀ (w : Machine.State), reachEach l.space (l.stat :: l.counters t.task) s ≠ Near.wait w) ∧ s.me.run = Run.ending ∧ s.me.task = some t ∧ s.launchOf t = some l ∧ s.me.settled s.cycle = true ∧ s.me.kop.copies = [] ∧ s.me.held = [] ∧ l.counters t.task = []) ∧
    (∃ (s : State) (t : TaskRef) (l : Launch) (bs : List Byte) (s1 : State), (∀ (w : Machine.State), reachEach l.space (l.stat :: l.counters t.task) s ≠ Near.wait w) ∧ addEach l.space (l.counters t.task) (s.unpinAll s.me.kop.pins) = Near.ok bs s1 ∧ s.me.run = Run.ending ∧ s.me.task = some t ∧ s.launchOf t = some l ∧ s.me.settled s.cycle = true ∧ s.me.kop.copies = [] ∧ s.me.held = []) ∧
    (∃ (s : State) (t : TaskRef) (l : Launch) (why : SaveWhy) (f : Nat), s.me.task = some t ∧ s.launchOf t = some l ∧ s.me.run = Run.saving why ∧ s.me.comb = [] ∧ s.me.settled s.cycle = true ∧ l.freeFrame = some f) ∧
    (∃ (s : State) (t : TaskRef) (l : Launch) (why : SaveWhy), s.me.task = some t ∧ s.launchOf t = some l ∧ s.me.run = Run.saving why ∧ s.me.comb = [] ∧ s.me.settled s.cycle = true ∧ l.freeFrame = none ∧ (why = SaveWhy.yield ∨ why = SaveWhy.preempt)) ∧
    (∃ (s : State) (t : TaskRef) (l : Launch) (why : SaveWhy) (at_ : Nat) (f : Nat) (bs : List Byte) (s1 : State), writeFrame s l.space (l.frameAt f) s.actor s.me.context = Near.ok bs s1 ∧ s.me.task = some t ∧ s.launchOf t = some l ∧ s.me.run = Run.storing why at_ ∧ at_ ≤ s.cycle ∧ s.me.frame = some f ∧ why ≠ SaveWhy.trap) ∧
    (∃ (s : State) (t : TaskRef) (l : Launch) (at_ : Nat) (f : Nat) (skip : Bool) (x : Saved) (bs : List Byte) (s1 : State) (ctx : Core), millRead s l.space (l.frameAt f) 454656 = Near.ok bs s1 ∧ (ctx = if skip = true then { (({ (x.core.fromFrame bs) with cf := x.core.cf }).skip s1.cycle) with cf := (x.core.fromFrame bs).cf } else x.core.fromFrame bs) ∧ s.me.task = some t ∧ s.launchOf t = some l ∧ s.me.run = Run.restoring skip at_ ∧ at_ ≤ s.cycle ∧ s.me.frame = some f ∧ (s.die t.die).savedIn t.launch f = some x) ∧
    (∃ (s : State) (t : TaskRef) (l : Launch), s.me.task = some t ∧ s.launchOf t = some l ∧ s.mayPreempt = true) ∧
    (∃ (s : State) (s1 : State) (t : TaskRef), s.me.run = Run.killing ∧ s.me.task = some t ∧ s1 = s.cancel ∧ s1.draining = true) ∧
    (∃ (s : State) (s1 : State) (s2 : State) (s3 : State) (t : TaskRef) (l : Launch), s1 = s.cancel ∧ (∀ (w : Machine.State), reachEach l.space [l.stat] s1 ≠ Near.wait w) ∧ s3 = (s2.memberKilled s2.actor).updDie s2.myDie Die.killDone ∧ s.me.run = Run.killing ∧ s.me.task = some t ∧ s1.draining = false ∧ s.launchOf t = some l ∧ s1.freeAll.setOf = [] ∧ s2 = (s1.freeAll.breakTraverse.breakColls.unpinAll s1.freeAll.me.kop.allPins).taskGone t ∧ s2.me.frame = none) ∧
    (∃ (s : State) (w : RegWrite) (i : Instr) (skip : Bool), s.nextWrite = some w ∧ (i = Instr.taskCtlRetry ∧ skip = false ∨ i = Instr.taskCtlSkip ∧ skip = true) ∧ (w.kind = if skip = true then RegKind.skip else RegKind.retry) ∧ (taken s w).ctlTask w = none) ∧
    (∃ (s : State) (w : RegWrite) (t : TaskRef) (l : Launch) (i : Instr) (skip : Bool) (f : Nat) (c : Nat), s.nextWrite = some w ∧ (i = Instr.taskCtlRetry ∧ skip = false ∨ i = Instr.taskCtlSkip ∧ skip = true) ∧ (w.kind = if skip = true then RegKind.skip else RegKind.retry) ∧ (taken s w).ctlTask w = some (t, l) ∧ l.st t.task = TaskSt.trapped f c ∧ (skip = true → ∃ x, ((taken s w).die t.die).savedIn t.launch f = some x ∧ x.core.skipsOut = false)) ∧
    (∃ (s : State) (w : RegWrite) (t : TaskRef) (l : Launch) (i : Instr) (skip : Bool) (c : Nat), s.nextWrite = some w ∧ (i = Instr.taskCtlRetry ∧ skip = false ∨ i = Instr.taskCtlSkip ∧ skip = true) ∧ (w.kind = if skip = true then RegKind.skip else RegKind.retry) ∧ (taken s w).ctlTask w = some (t, l) ∧ l.st t.task = TaskSt.placed c ∧ ((taken s w).core c).run = Run.trappedInPlace ∧ ((taken s w).core c).task = some t ∧ (skip = true → ((taken s w).core c).skipsOut = false)) ∧
    (∃ (s : State) (w : RegWrite), s.nextWrite = some w ∧ w.kind = RegKind.kill ∧ (taken s w).ctlTask w = none) ∧
    (∃ (s : State) (w : RegWrite) (t : TaskRef) (l : Launch) (c : Nat), s.nextWrite = some w ∧ w.kind = RegKind.kill ∧ (taken s w).ctlTask w = some (t, l) ∧ l.st t.task = TaskSt.placed c) ∧
    (∃ (s : State) (w : RegWrite) (space : Nat) (r : Nat × Nat) (hit : Nat → W64 → Bool), space = bits w.val 0 4 ∧ r = ((taken s w).die w.die).pageAround space (w.val &&& BitVec.ofNat 64 ((2 ^ 46 - 1) * 2 ^ 12)) ∧ (hit = fun sp a => decide (sp = space) && decide (bits a 55 3 = w.die) && decide (r.fst ≤ BitVec.toNat a) && decide (BitVec.toNat a < r.snd)) ∧ s.nextWrite = some w ∧ w.kind = RegKind.pageDone ∧ (∀ (d : Nat), d < 8 → (s.die d).launches = [])) ∧
    (∃ (s : State) (w : RegWrite) (space : Nat) (r : Nat × Nat) (hit : Nat → W64 → Bool) (k : Core) (va : W64), space = bits w.val 0 4 ∧ r = ((taken s w).die w.die).pageAround space (w.val &&& BitVec.ofNat 64 ((2 ^ 46 - 1) * 2 ^ 12)) ∧ (hit = fun sp a => decide (sp = space) && decide (bits a 55 3 = w.die) && decide (r.fst ≤ BitVec.toNat a) && decide (BitVec.toNat a < r.snd)) ∧ s.nextWrite = some w ∧ w.kind = RegKind.pageDone ∧ k.run = Run.pagedInPlace va ∧ hit k.space va = true) ∧
    (∃ (s : State) (w : RegWrite) (l : Launch) (space : Nat) (r : Nat × Nat) (hit : Nat → W64 → Bool) (i : Nat) (f : Nat) (c : Nat) (va : W64), space = bits w.val 0 4 ∧ r = ((taken s w).die w.die).pageAround space (w.val &&& BitVec.ofNat 64 ((2 ^ 46 - 1) * 2 ^ 12)) ∧ (hit = fun sp a => decide (sp = space) && decide (bits a 55 3 = w.die) && decide (r.fst ≤ BitVec.toNat a) && decide (BitVec.toNat a < r.snd)) ∧ s.nextWrite = some w ∧ w.kind = RegKind.pageDone ∧ l.st i = TaskSt.paged f c va ∧ hit l.space va = true) :=
    ⟨⟨taskEvents1, ref, (tasks [plain] [.placed 0]), no_wait _ (by decide +kernel), by decide +kernel⟩,
    ⟨taskEvents1, ref, (tasks [plain] [.placed 0]), [], (taskEvents1.unpinAll []), no_wait _ (by decide +kernel), rfl, by decide +kernel⟩,
    ⟨taskEvents2, ref, (tasks [plain] [.placed 0]), .preempt, 0, by decide +kernel⟩,
    ⟨taskEvents3, ref, { (tasks [plain] [.placed 0]) with used := [0] }, .yield, by decide +kernel⟩,
    ⟨taskEvents4, ref, savedTask, .preempt, 4, 0, save_written.choose, save_written.choose_spec.choose, save_written.choose_spec.choose_spec, by decide +kernel⟩,
    ⟨taskEvents5, ref, readTask, 4, 0, false, kept, frame_readable.choose, frame_readable.choose_spec.choose, (kept.core.fromFrame frame_readable.choose), frame_readable.choose_spec.choose_spec, rfl, by decide +kernel⟩,
    ⟨taskEvents6, ref, (tasks [plain] [.placed 0]), by decide +kernel⟩,
    ⟨taskEvents7, (State.cancel taskEvents7), ref, by decide +kernel⟩,
    ⟨taskEvents8, (State.cancel taskEvents8), taskEvents9, taskEvents10, ref, (tasks [plain] [.placed 0]), rfl, no_wait _ (by decide +kernel), rfl, by decide +kernel⟩,
    ⟨taskEvents11, { cycle := 0, core := 0, group := 1, idx := 400, val := 0 }, .taskCtlRetry, false, by decide +kernel⟩,
    ⟨taskEvents12, { cycle := 0, core := 0, group := 1, idx := 400, val := 0 }, ref, (tasks [plain] [.trapped 0 0]), .taskCtlRetry, false, 0, 0, by decide +kernel⟩,
    ⟨taskEvents13, taskEvents14, ref, (tasks [plain] [.placed 0]), .taskCtlSkip, true, 0, by decide +kernel⟩,
    ⟨taskEvents15, taskEvents16, by decide +kernel⟩,
    ⟨taskEvents17, taskEvents18, ref, (tasks [plain] [.placed 0]), 0, by decide +kernel⟩,
    ⟨taskEvents19, { cycle := 0, core := 0, group := 1, idx := 406, val := 0 }, 0, taskEvents20, (fun sp a => decide (sp = 0) && decide (bits a 55 3 = 0) && decide ((((taken taskEvents19 { cycle := 0, core := 0, group := 1, idx := 406, val := 0 }).die 0).pageAround 0 (0 &&& BitVec.ofNat 64 ((2 ^ 46 - 1) * 2 ^ 12))).fst ≤ BitVec.toNat a) && decide (BitVec.toNat a < (((taken taskEvents19 { cycle := 0, core := 0, group := 1, idx := 406, val := 0 }).die 0).pageAround 0 (0 &&& BitVec.ofNat 64 ((2 ^ 46 - 1) * 2 ^ 12))).snd)), rfl, rfl, rfl, by decide +kernel⟩,
    ⟨taskEvents19, { cycle := 0, core := 0, group := 1, idx := 406, val := 0 }, 0, taskEvents21, (fun sp a => decide (sp = 0) && decide (bits a 55 3 = 0) && decide ((((taken taskEvents19 { cycle := 0, core := 0, group := 1, idx := 406, val := 0 }).die 0).pageAround 0 (0 &&& BitVec.ofNat 64 ((2 ^ 46 - 1) * 2 ^ 12))).fst ≤ BitVec.toNat a) && decide (BitVec.toNat a < (((taken taskEvents19 { cycle := 0, core := 0, group := 1, idx := 406, val := 0 }).die 0).pageAround 0 (0 &&& BitVec.ofNat 64 ((2 ^ 46 - 1) * 2 ^ 12))).snd)), { runner with run := .pagedInPlace 64 }, 64, rfl, rfl, rfl, by decide +kernel⟩,
    ⟨taskEvents19, { cycle := 0, core := 0, group := 1, idx := 406, val := 0 }, (tasks [plain] [.paged 0 0 64]), 0, taskEvents22, (fun sp a => decide (sp = 0) && decide (bits a 55 3 = 0) && decide ((((taken taskEvents19 { cycle := 0, core := 0, group := 1, idx := 406, val := 0 }).die 0).pageAround 0 (0 &&& BitVec.ofNat 64 ((2 ^ 46 - 1) * 2 ^ 12))).fst ≤ BitVec.toNat a) && decide (BitVec.toNat a < (((taken taskEvents19 { cycle := 0, core := 0, group := 1, idx := 406, val := 0 }).die 0).pageAround 0 (0 &&& BitVec.ofNat 64 ((2 ^ 46 - 1) * 2 ^ 12))).snd)), 0, 0, 0, 64, rfl, rfl, rfl, by decide +kernel⟩⟩

def packageCommands1 : State := { (runs [(64, 5)] [] fun k => k) with pk := [(0, 0xFFFFFFFF), (1, 1)] }
def packageCommands2 : State := (State.write packageCommands1 0 0 64 [1, 2, 3, 4, 5, 6, 7, 8] false).1
def packageCommands3 : State := (({ packageCommands1 with cores := [(0, { runner with leg := {}, swait := .acquire 64 false false }), (1, runner)] }).updDie 0 fun d => { d with haltAsked := true })
def packageCommands4 : State := { ({ (runs [] [] fun k => k) with pk := [(0, 0x1000000), (1, 1)] }) with firmware := some [] }
theorem witness_PackageCommands :
    (∃ (s : State) (die : Nat) (tier : Nat) (off : Nat) (n : Nat) (bs : List Byte) (s2 : State), PortOpen s ∧ PortExtent s die tier off n ∧ s.read die tier off n = (s2, some bs)) ∧
    (∃ (s : State) (die : Nat) (tier : Nat) (off : Nat) (bs : List Byte) (s2 : State), PortOpen s ∧ PortExtent s die tier off bs.length ∧ s.write die tier off bs false = (s2, true)) ∧
    (∃ (s : State) (group : Nat) (die : Nat) (i : Nat) (v : W64), PortOpen s ∧ s.regReady group die = true ∧ (if group = 1 then readDg s die i else readPk s i) = some v) ∧
    (∃ (s : State) (group : Nat) (die : Nat) (i : Nat) (v : W64) (x : W64), PortOpen s ∧ s.regReady group die = true ∧ (if group = 1 then readDg s die i else readPk s i) = some v ∧ (group = 1 → badDgWrite (s.die die) i x = false)) ∧
    (∃ (s : State) (die : Nat) (space : Nat), PortOpen s ∧ die < 8 ∧ space < 16 ∧ (s.die die).launchq.length < 64) ∧
    (∃ (s : State) (l : Nat) (v : Nat), PortOpen s ∧ s.life ≠ 0 ∧ s.life ≠ 3 ∧ l < 96 ∧ v < 4) ∧
    (∃ (s : State) (nonce : List Byte), PortOpen s ∧ nonce.length = 32 ∧ bits (SMap.get 0 s.pk 3) 0 21 < 2 ^ 20) ∧
    (∃ (s : State) (dest : Nat), PortOpen s ∧ lifeStep s.life dest) ∧
    (∃ (s : State) (level : Nat) (token : List Byte), PortOpen s ∧ level < 2 ∧ s.power < 2 ∧ (s.life = 2 → level ≠ 0 → Config.verifies (32 + level) token = true)) ∧
    (∃ (s : State) (dest : Nat), PortOpen s ∧ dest < 2) ∧
    (∃ (s : State) (dest : Nat), PortOpen s ∧ dest = 2 ∧ s.debug ≠ 2 ∧ s.launches = []) ∧
    (∃ (s : State) (dest : Nat), PortOpen s ∧ dest = 3) ∧
    (∃ (s : State), (s.die s.myDie).haltAsked = true ∧ s.mayHalt = true ∧ (∃ p, p ∈ (s.updMe fun k => { k with halted := true }).cores ∧ p.fst / 512 = s.myDie ∧ p.snd.run = Run.running ∧ p.snd.halted = false)) ∧
    (∃ (s : State), s.on = false) ∧
    (∃ (s : State) (bit : Nat), s.on = true ∧ s.bringUpDone = false ∧ (bit = 88 ∨ BitVec.getLsbD (SMap.get 0 s.pk 0) 24 = true) ∧ 64 ≤ bit ∧ s.mayReady (bit - 64) = true) ∧
    (∃ (s : State) (bit : Nat), s.on = true ∧ s.bringUpDone = false ∧ (bit = 88 ∨ BitVec.getLsbD (SMap.get 0 s.pk 0) 24 = true) ∧ 2 ≤ bit ∧ bit < 64 ∧ (s.die s.myDie).mayReady bit s.firmware.isSome = true) ∧
    (∃ (s : State) (die : Nat), s.on = true ∧ die < 8) :=
    ⟨⟨packageCommands1, 0, 0, 64, 8, (State.read packageCommands1 0 0 64 8).2.getD [], (State.read packageCommands1 0 0 64 8).1, by delta PortOpen PortExtent; decide +kernel⟩,
    ⟨packageCommands1, 0, 0, 64, [1, 2, 3, 4, 5, 6, 7, 8], packageCommands2, by delta PortOpen PortExtent; decide +kernel⟩,
    ⟨packageCommands1, 1, 0, 272, (readDg packageCommands1 0 272).getD 0, by delta PortOpen; decide +kernel⟩,
    ⟨packageCommands1, 1, 0, 272, (readDg packageCommands1 0 272).getD 0, 7, by delta PortOpen; decide +kernel⟩,
    ⟨packageCommands1, 0, 0, by delta PortOpen; decide +kernel⟩,
    ⟨packageCommands1, 95, 3, by delta PortOpen; decide +kernel⟩,
    ⟨packageCommands1, List.replicate 32 7, by delta PortOpen; decide +kernel⟩,
    ⟨packageCommands1, 2, by delta PortOpen lifeStep; decide +kernel⟩,
    ⟨packageCommands1, 1, [], by delta PortOpen; decide +kernel⟩,
    ⟨packageCommands1, 1, by delta PortOpen; decide +kernel⟩,
    ⟨packageCommands1, 2, by delta PortOpen; decide +kernel⟩,
    ⟨packageCommands1, 3, by delta PortOpen; decide +kernel⟩,
    ⟨packageCommands3, by decide +kernel⟩,
    ⟨State.reset, by decide +kernel⟩,
    ⟨{ (runs [] [] fun k => k) with pk := [(1, 1)] }, 88, by decide +kernel⟩,
    ⟨packageCommands4, 2, by decide +kernel⟩,
    ⟨packageCommands1, 7, by decide +kernel⟩⟩

def stepRunsDecoded1 : State := { (at_ .e [9] fun k => { (k) with text := textOf [0x5005] }) with sched := [.turn 0 .e] }
def stepRunsDecoded2 : State := (State.setMe { (State.takeItem stepRunsDecoded1).2 with actor := 0 } (Core.moveTo (State.core (State.takeItem stepRunsDecoded1).2 0) .e 0))
def stepRunsDecoded3 : State := { (at_ .e [9] fun k => { (k) with text := textOf [0x41C7] }) with sched := [.turn 0 .e] }
def stepRunsDecoded4 : State := (State.setMe { (State.takeItem stepRunsDecoded3).2 with actor := 0 } (Core.moveTo (State.core (State.takeItem stepRunsDecoded3).2 0) .e 0))
def stepRunsDecoded5 : Reject := ((match decode [0x41C7, 1, 1] with | .error e => e | .ok _ => .noWord))
def stepRunsDecoded6 : State := { (at_ .c [9] fun k => { (k.updEn .c fun x => { x with parked := some 9 }) with text := textOf [0xE080] }) with sched := [.turn 0 .c] }
def stepRunsDecoded7 : State := (State.setMe { (State.takeItem stepRunsDecoded6).2 with actor := 0 } (Core.moveTo (State.core (State.takeItem stepRunsDecoded6).2 0) .c 0))
def stepRunsDecoded8 : State := { (at_ .c [9] fun k => { (k.updEn .c fun x => { x with parked := some 9 }) with text := textOf [0xFFFF] }) with sched := [.turn 0 .c] }
def stepRunsDecoded9 : State := (State.setMe { (State.takeItem stepRunsDecoded8).2 with actor := 0 } (Core.moveTo (State.core (State.takeItem stepRunsDecoded8).2 0) .c 0))
def stepRunsDecoded10 : Reject := ((match decode [0xFFFF, 1, 1] with | .error e => e | .ok _ => .noWord))
def stepRunsDecoded11 : State := { (at_ .e [9] fun k => { (k) with text := textOf [0x04C2] }) with sched := [.turn 0 .e] }
def stepRunsDecoded12 : State := (State.setMe { (State.takeItem stepRunsDecoded11).2 with actor := 0 } (Core.moveTo (State.core (State.takeItem stepRunsDecoded11).2 0) .e 0))
def stepRunsDecoded13 : State := (State.takeItem ({ (at_ .e [9] id) with sched := [.tick] })).2
def stepRunsDecoded14 : State := { (at_ .c [9] fun k => { (k) with text := textOf [1] }) with sched := [.happen 0 .powerLoss] }
theorem witness_StepRunsDecoded :
    (∃ (s : State) (s2 : State) (k : Nat) (t : Engine) (a : Nat) (ws : List Half) (c : Core) (m : State) (i : Instr), AtWord c t s2.cycle a ws ∧ decode ws = Except.ok i ∧ k < 4096 ∧ s.takeItem = (Sched.turn k t, s2) ∧ c = s2.core k ∧ m = { s2 with actor := k }.setMe (c.moveTo t a) ∧ c.slips t ((c.en t).progress + (a - (c.en t).pc)) = false ∧ c.windowCost t a = 0 ∧ (t = Engine.m → m.me.followTakes m.cycle = false) ∧ c.stand t = Stand.own a ∧ c.unsent t a = false ∧ c.reportAt t false = none ∧ c.slips t ((c.en t).progress + (a - (c.en t).pc) + c.text.lenAt a) = false ∧ (c.signWait s2.cycle = false ∨ i = Instr.sLeg)) ∧
    (∃ (s : State) (s2 : State) (k : Nat) (t : Engine) (a : Nat) (ws : List Half) (c : Core) (m : State) (e : Reject), AtWord c t s2.cycle a ws ∧ decode ws = Except.error e ∧ k < 4096 ∧ s.takeItem = (Sched.turn k t, s2) ∧ c = s2.core k ∧ m = { s2 with actor := k }.setMe (c.moveTo t a) ∧ c.slips t ((c.en t).progress + (a - (c.en t).pc)) = false ∧ c.windowCost t a = 0 ∧ (t = Engine.m → m.me.followTakes m.cycle = false) ∧ c.stand t = Stand.own a ∧ c.unsent t a = false ∧ c.reportAt t false = none ∧ c.slips t ((c.en t).progress + (a - (c.en t).pc) + c.text.lenAt a) = false) ∧
    (∃ (s : State) (s2 : State) (k : Nat) (t : Engine) (a : Nat) (ws : List Half) (c : Core) (m : State) (p : Nat) (i : Instr), AtWord c t s2.cycle a ws ∧ decode ws = Except.ok i ∧ k < 4096 ∧ s.takeItem = (Sched.turn k t, s2) ∧ c = s2.core k ∧ m = { s2 with actor := k }.setMe (c.moveTo t a) ∧ c.slips t ((c.en t).progress + (a - (c.en t).pc)) = false ∧ c.windowCost t a = 0 ∧ (t = Engine.m → m.me.followTakes m.cycle = false) ∧ t = Engine.c ∧ c.stand t = Stand.sWord a ∧ (c.en t).parked = some p ∧ c.reportAt t true = none ∧ (c.signWait s2.cycle = false ∨ i = Instr.sLeg)) ∧
    (∃ (s : State) (s2 : State) (k : Nat) (t : Engine) (a : Nat) (ws : List Half) (c : Core) (m : State) (p : Nat) (e : Reject), AtWord c t s2.cycle a ws ∧ decode ws = Except.error e ∧ k < 4096 ∧ s.takeItem = (Sched.turn k t, s2) ∧ c = s2.core k ∧ m = { s2 with actor := k }.setMe (c.moveTo t a) ∧ c.slips t ((c.en t).progress + (a - (c.en t).pc)) = false ∧ c.windowCost t a = 0 ∧ (t = Engine.m → m.me.followTakes m.cycle = false) ∧ t = Engine.c ∧ c.stand t = Stand.sWord a ∧ (c.en t).parked = some p ∧ c.reportAt t true = none) ∧
    (∃ (s : State) (s2 : State) (k : Nat) (t : Engine) (a : Nat) (ws : List Half) (c : Core) (m : State), AtWord c t s2.cycle a ws ∧ k < 4096 ∧ s.takeItem = (Sched.turn k t, s2) ∧ c = s2.core k ∧ m = { s2 with actor := k }.setMe (c.moveTo t a) ∧ c.slips t ((c.en t).progress + (a - (c.en t).pc)) = false ∧ c.windowCost t a = 0 ∧ (t = Engine.m → m.me.followTakes m.cycle = false) ∧ c.stand t = Stand.recv a ∧ c.slips t ((c.en t).progress + (a - (c.en t).pc) + 1) = false) ∧
    (∃ (s : State) (s2 : State) (k : Nat), k < 4096 ∧ s.takeItem = (Sched.tick, s2)) ∧
    (∃ (s : State) (s2 : State) (k : Nat) (i : Instr), (∀ (g : BitVec 3), i ≠ Instr.illegalWord g) ∧ k < 4096 ∧ s.takeItem = (Sched.happen k i, s2) ∧ encodeNat i = none) :=
    ⟨⟨stepRunsDecoded1, (State.takeItem stepRunsDecoded1).2, 0, .e, 0, [0x5005], (State.core (State.takeItem stepRunsDecoded1).2 0), stepRunsDecoded2, .literalPush .e 5, ⟨by decide +kernel, by decide +kernel, by decide +kernel, by intro u; cases u <;> decide +kernel, by decide +kernel, by decide +kernel⟩, exceptOf_eq _ _ (by decide +kernel), by decide +kernel⟩,
    ⟨stepRunsDecoded3, (State.takeItem stepRunsDecoded3).2, 0, .e, 0, [0x41C7, 1, 1], (State.core (State.takeItem stepRunsDecoded3).2 0), stepRunsDecoded4, stepRunsDecoded5, ⟨by decide +kernel, by decide +kernel, by decide +kernel, by intro u; cases u <;> decide +kernel, by decide +kernel, by decide +kernel⟩, errorOf_eq _ _ (by decide +kernel), by decide +kernel⟩,
    ⟨stepRunsDecoded6, (State.takeItem stepRunsDecoded6).2, 0, .c, 0, [0xE080], (State.core (State.takeItem stepRunsDecoded6).2 0), stepRunsDecoded7, 9, .sLeg, ⟨by decide +kernel, by decide +kernel, by decide +kernel, by intro u; cases u <;> decide +kernel, by decide +kernel, by decide +kernel⟩, exceptOf_eq _ _ (by decide +kernel), by decide +kernel⟩,
    ⟨stepRunsDecoded8, (State.takeItem stepRunsDecoded8).2, 0, .c, 0, [0xFFFF], (State.core (State.takeItem stepRunsDecoded8).2 0), stepRunsDecoded9, 9, stepRunsDecoded10, ⟨by decide +kernel, by decide +kernel, by decide +kernel, by intro u; cases u <;> decide +kernel, by decide +kernel, by decide +kernel⟩, errorOf_eq _ _ (by decide +kernel), by decide +kernel⟩,
    ⟨stepRunsDecoded11, (State.takeItem stepRunsDecoded11).2, 0, .e, 0, [0x04C2], (State.core (State.takeItem stepRunsDecoded11).2 0), stepRunsDecoded12, ⟨by decide +kernel, by decide +kernel, by decide +kernel, by intro u; cases u <;> decide +kernel, by decide +kernel, by decide +kernel⟩, by decide +kernel⟩,
    ⟨{ (at_ .e [9] id) with sched := [.tick] }, stepRunsDecoded13, 0, by decide +kernel⟩,
    ⟨stepRunsDecoded14, (State.takeItem stepRunsDecoded14).2, 0, .powerLoss, nofun, by decide +kernel⟩⟩


theorem witness_DecodeEncode :
    (∃ (i : Instr) (ws : List Half), i.WellFormed ∧ encode i = some ws) ∧
    (∃ (i : Instr) (j : Instr) (ws : List Half), i.WellFormed ∧ j.WellFormed ∧ encode i = some ws ∧ encode j = some ws) :=
    ⟨⟨.eFma 3 1 16 1 0 0 2, [0x41C7, 0x5008, 0x4200], by decide +kernel⟩,
    ⟨.kFollow, .kFollow, [0x8100], by decide +kernel⟩⟩

def stepKeepsMemory1 : State := { (at_ .e [9] fun k => { (k) with text := textOf [0x5005] }) with sched := [.turn 0 .e] }
theorem witness_StepKeepsMemory :
    (∃ (s : State) (t : State), MemoryCanonical s ∧ step s = Host.Outcome.next t) :=
    ⟨stepKeepsMemory1, outOf (step stepKeepsMemory1), canonical_of_dies _ (by decide +kernel), outOf_eq _ (by decide +kernel)⟩


theorem witness_IllegalFields :
    (∃ (i : Instr) (tag : Nat) (s : State), tagOfInstr i = some tag ∧ legalFields i = false ∧ (tag = 0 ∨ tag = 7 → s.me.steerFull = false)) ∧
    (∃ (g : BitVec 3) (s : State), (g = 0 ∨ g = 7 → s.me.steerFull = false)) :=
    ⟨⟨.eXq 3 0 1 7, 2, (at_ .e [5, 7, 9] fun k => k), by decide +kernel⟩,
    ⟨0, (at_ .c [] id), by decide +kernel⟩⟩


theorem witness_StackTraps :
    (∃ (s : State) (i : Instr) (tag : Nat) (t : Engine), tagOfInstr i = some tag ∧ 0 < tag ∧ tag < 7 ∧ t = Engine.ofTag tag ∧ legalFields i = true ∧ s.me.fenced i s.cycle = false ∧ (¬(t = Engine.e ∧ s.me.vec.waits i s.cycle = true)) ∧ 8 < (top t s).length ∧ (t ≠ Engine.e ∨ repRefuses (s.me.repFor t) i = false ∧ ∃ n, i = Instr.literalPush Engine.e n)) ∧
    (∃ (s : State) (i : Instr) (tag : Nat) (t : Engine), tagOfInstr i = some tag ∧ 0 < tag ∧ tag < 7 ∧ t = Engine.ofTag tag ∧ legalFields i = true ∧ s.me.fenced i s.cycle = false ∧ (¬(t = Engine.e ∧ s.me.vec.waits i s.cycle = true)) ∧ 8 < (top t s).length ∧ t = Engine.e) ∧
    (∃ (s : State) (i : Instr) (n : Nat) (p : Nat) (f : List W64 → List W64), pureForm i = some (n, p, f) ∧ CanIssue Engine.c i s ∧ (top Engine.c s).length < p) ∧
    (∃ (s : State) (t : Engine) (i : BitVec 11), CanIssue t (Instr.literalPush t i) s ∧ (top t s).length = 8) ∧
    (∃ (s : State) (t : Engine) (n : BitVec 3), CanIssue t (Instr.stkDup t n) s ∧ ((top t s).length ≤ n.toNat ∨ (top t s).length = 8)) ∧
    (∃ (s : State) (t : Engine) (n : BitVec 3) (i : Instr), (i = Instr.stkDrop t n ∨ i = Instr.stkSwap t n ∨ i = Instr.stkOver t n) ∧ CanIssue t i s ∧ (top t s).length ≤ n.toNat) ∧
    (∃ (s : State) (i : Instr) (x : W64), getForm i (arrived Engine.c s).me.ctl = some x ∧ CanIssue Engine.c i s ∧ (top Engine.c s).length = 8) :=
    ⟨⟨(at_ .a [1, 2, 3, 4, 5, 6, 7, 8, 9] fun k => k), .aXqCount 0, 1, .a, by decide +kernel⟩,
    ⟨(at_ .e [1, 2, 3, 4, 5, 6, 7, 8, 9] fun k => k), .eAmaxClear, 2, .e, by decide +kernel⟩,
    ⟨(at_ .c [1] fun k => k), .cAdd, 1, 2, fun v => [v.getD 1 0 + v.getD 0 0], rfl, by delta CanIssue; decide +kernel⟩,
    ⟨(at_ .c [1, 2, 3, 4, 5, 6, 7, 8] fun k => k), .c, 5, by delta CanIssue; decide +kernel⟩,
    ⟨(at_ .c [1, 2, 3, 4, 5, 6, 7, 8] fun k => k), .c, 2, by delta CanIssue; decide +kernel⟩,
    ⟨(at_ .c [1] fun k => k), .c, 3, .stkOver .c 3, by delta CanIssue; decide +kernel⟩,
    ⟨(at_ .c [1, 2, 3, 4, 5, 6, 7, 8] fun k => k), .cGetX 3, 0, by delta CanIssue; decide +kernel⟩⟩

def enginesMoveOn1 : Core := (State.me (at_ .c [] fun k => { ((k.updEn .c fun x => { x with pc := 5 }).updEn .a fun x => { x with active := true }) with ctl := { k.ctl with loops := [{ start := 2, stop := 5, iter := 1, count := 4, depth := 0 }] } }))
def enginesMoveOn2 : Core := (State.me (at_ .c [] fun k => { ((k.updEn .c fun x => { x with pc := 5 }).updEn .a fun x => { x with active := true }) with ctl := { k.ctl with loops := [{ start := 2, stop := 5, iter := 1, count := 2, depth := 0 }] } }))
theorem witness_EnginesMoveOn :
    (∃ (k : Core) (t : Engine) (len : Nat), within (if t = Engine.c then k.loopStop else k.expectStop t) (k.en t).pc len = none) ∧
    (∃ (k : Core) (t : Engine) (len : Nat) (e : LoopEntry) (es : List LoopEntry), t = Engine.c ∧ k.ctl.loops = e :: es ∧ e.depth = k.ctl.ret.length ∧ (k.en Engine.c).pc ≤ e.stop ∧ e.stop < (k.en Engine.c).pc + len ∧ BitVec.toNat (e.iter + 1) < BitVec.toNat e.count) ∧
    (∃ (k : Core) (t : Engine) (len : Nat) (e : LoopEntry) (es : List LoopEntry) (u : Engine), t = Engine.c ∧ k.ctl.loops = e :: es ∧ e.depth = k.ctl.ret.length ∧ (k.en Engine.c).pc ≤ e.stop ∧ e.stop < (k.en Engine.c).pc + len ∧ BitVec.toNat (e.iter + 1) < BitVec.toNat e.count ∧ u ≠ Engine.c ∧ (k.en u).active = true) ∧
    (∃ (k : Core) (t : Engine) (len : Nat) (e : LoopEntry) (es : List LoopEntry), (∀ (f : LoopEntry) (fs : List LoopEntry), es = f :: fs → ¬(f.stop = e.stop ∧ f.depth = e.depth)) ∧ t = Engine.c ∧ k.ctl.loops = e :: es ∧ e.depth = k.ctl.ret.length ∧ (k.en Engine.c).pc ≤ e.stop ∧ e.stop < (k.en Engine.c).pc + len ∧ BitVec.toNat e.count ≤ BitVec.toNat (e.iter + 1)) :=
    ⟨⟨(State.me (at_ .c [] fun k => k)), .c, 1, by decide +kernel⟩,
    ⟨enginesMoveOn1, .c, 1, { start := 2, stop := 5, iter := 1, count := 4, depth := 0 }, [], by decide +kernel⟩,
    ⟨enginesMoveOn1, .c, 1, { start := 2, stop := 5, iter := 1, count := 4, depth := 0 }, [], .a, by decide +kernel⟩,
    ⟨enginesMoveOn2, .c, 1, { start := 2, stop := 5, iter := 1, count := 2, depth := 0 }, [], nofun, by decide +kernel⟩⟩


theorem witness_RegisterFrame :
    (∃ (i : Instr) (s : State) (t : State), exec i s = Host.Outcome.next t ∧ plainControl i = true) ∧
    (∃ (i : Instr) (s : State) (t : State), exec i s = Host.Outcome.next t ∧ executeWord i = true) :=
    ⟨⟨.cAdd, (at_ .c [5, 7, 9] fun k => k), outOf (exec .cAdd (at_ .c [5, 7, 9] fun k => k)), outOf_eq _ (by decide +kernel), by decide +kernel⟩,
    ⟨.eAmaxClear, (at_ .e [5, 7, 9] fun k => k), outOf (exec .eAmaxClear (at_ .e [5, 7, 9] fun k => k)), outOf_eq _ (by decide +kernel), by decide +kernel⟩⟩

def storeFrame1 : State := { (runs [(64, 5)] [] fun k => k) with pk := [(0, 0xFFFFFFFF), (1, 1)] }
def storeFrame2 : State := (runs [] [] fun k => { k with posted := [{ eng := .c, die := 0, tier := 0, off := 64, va := 64, klock := false, mt := 0, cls := 0, write := some [1, 2, 3, 4, 5, 6, 7, 8] }] })
def storeFrame3 : Posted := { eng := .c, die := 0, tier := 0, off := 64, va := 64, klock := false, mt := 0, cls := 0, write := some [1, 2, 3, 4, 5, 6, 7, 8] }
theorem witness_StoreFrame :
    (∃ (s : State) (die : Nat) (tier : Nat) (off : Nat) (bs : List Byte), CellsDistinct (s.die die) ∧ PortOpen s ∧ PortExtent s die tier off bs.length ∧ (s.write die tier off bs false).snd = true) ∧
    (∃ (s : State) (j : Nat) (a : Posted) (bs : List Byte) (s2 : State), CellsDistinct (s.die a.die) ∧ s.me.posted[j]? = some a ∧ s.me.mayPerform j = true ∧ a.peer = none ∧ a.tier < 2 ∧ s.waits a.die a.tier a.off a.bytes = false ∧ a.write = some bs ∧ bs ≠ [] ∧ (∀ (k : Token), k ∈ (s.die a.die).tokens → k.space ≠ s.me.space ∨ k.region < BitVec.toNat a.va / 2 ^ 21 ∨ (BitVec.toNat a.va + bs.length - 1) / 2 ^ 21 < k.region) ∧ (s2 = s.updMe fun k => { k with posted := k.posted.erase a }) ∧ (s2.write a.die a.tier a.off bs a.klock).snd = true) :=
    ⟨⟨storeFrame1, 0, 0, 64, [1, 2, 3, 4, 5, 6, 7, 8], cells_plain _ (by decide +kernel), by delta PortOpen PortExtent; decide +kernel⟩,
    ⟨storeFrame2, 0, storeFrame3, [1, 2, 3, 4, 5, 6, 7, 8], ((storeFrame2.updMe fun k => { k with posted := [] })), cells_plain _ (by decide +kernel), by decide +kernel⟩⟩

end Sys2Proof.Tests
end

section
/-! SUPPORT. Encodings as base numbers with bit fields added: which bits are known, which row of the decoder they pick, and that an
instruction's own words decode to it (02 R25-R28, R41-R43). -/

namespace Sys2Proof.Words

open Sys2Proof.Machine

/-! ## Bit fields -/

/-- The values of `fs` are bit fields, at the places and of the widths that `sh` lists as (least bit, width); `reads` says of a
number that each of them reads back from it. -/
inductive Laid : List (Nat × Nat) → List (Nat × Nat) → (Nat → Prop) → Prop where
  | nil : Laid [] [] fun _ => True
  | cons {w : Nat} (x : BitVec w) (lo : Nat) {fs sh : List (Nat × Nat)} {reads : Nat → Prop} (h : Laid fs sh reads) :
      Laid ((x.toNat, lo) :: fs) ((lo, w) :: sh) fun v => field v lo w = x ∧ reads v

/-- Bit `j` lies in one of the fields. -/
def free (sh : List (Nat × Nat)) (j : Nat) : Bool := sh.any fun f => decide (f.1 ≤ j ∧ j < f.1 + f.2)

/-- The fields lie apart from each other, where `base` has zeros. -/
def apart (base : Nat) : List (Nat × Nat) → Bool
  | [] => true
  | f :: sh => base / 2 ^ f.1 % 2 ^ f.2 == 0 && sh.all (fun g => decide (f.1 + f.2 ≤ g.1 ∨ g.1 + g.2 ≤ f.1)) && apart base sh

/-- A fixed field of the row meets a known bit of another value. -/
def clashes (base : Nat) (sh : List (Nat × Nat)) (r : Row) : Bool :=
  r.fixed.any fun f => (List.range f.2.1).any fun j => !free sh (f.1 + j) && base.testBit (f.1 + j) != f.2.2.testBit j

/-- Every fixed field of the row lies outside the fields and has the value of `base`. -/
def meets (base : Nat) (sh : List (Nat × Nat)) (r : Row) : Bool :=
  r.fixed.all fun f => base / 2 ^ f.1 % 2 ^ f.2.1 == f.2.2 && (List.range f.2.1).all fun j => !free sh (f.1 + j)

/-- Adding a value below `2 ^ w` at a place where `b` has `w` zeros leaves the bits outside that place. -/
theorem testBit_add_outside {b x lo w j : Nat} (hx : x < 2 ^ w) (hb : b / 2 ^ lo % 2 ^ w = 0) (hj : j < lo ∨ lo + w ≤ j) :
    (b + x * 2 ^ lo).testBit j = b.testBit j := by
  have hsplit : b = 2 ^ lo * (2 ^ w * (b / 2 ^ lo / 2 ^ w)) + b % 2 ^ lo := by
    rw [Nat.mul_div_cancel' (Nat.dvd_of_mod_eq_zero hb), Nat.div_add_mod]
  have hlo : b % 2 ^ lo < 2 ^ lo := Nat.mod_lt _ (Nat.two_pow_pos lo)
  have hsum : b + x * 2 ^ lo = 2 ^ lo * (2 ^ w * (b / 2 ^ lo / 2 ^ w) + x) + b % 2 ^ lo := by
    rw [Nat.mul_add, Nat.add_right_comm, ← hsplit, Nat.mul_comm x]
  rw [hsum]
  conv => rhs; rw [hsplit]
  rw [Nat.testBit_two_pow_mul_add _ hlo, Nat.testBit_two_pow_mul_add _ hlo]
  rcases hj with hj | hj
  · simp [hj]
  · have h1 : ¬ j < lo := by omega
    have h2 : ¬ j - lo < w := by omega
    have h3 := Nat.testBit_two_pow_mul_add (b / 2 ^ lo / 2 ^ w) (Nat.two_pow_pos w) (j - lo)
    simp only [Nat.add_zero] at h3
    rw [if_neg h1, if_neg h1, Nat.testBit_two_pow_mul_add _ hx, if_neg h2, h3, if_neg h2]

theorem slice_testBit (v lo w j : Nat) : (v / 2 ^ lo % 2 ^ w).testBit j = (decide (j < w) && v.testBit (lo + j)) := by
  rw [Nat.testBit_mod_two_pow, Nat.testBit_div_two_pow, Nat.add_comm]

theorem slice_congr {v u lo w : Nat} (h : ∀ j < w, v.testBit (lo + j) = u.testBit (lo + j)) :
    v / 2 ^ lo % 2 ^ w = u / 2 ^ lo % 2 ^ w := by
  apply Nat.eq_of_testBit_eq
  intro j
  rw [slice_testBit, slice_testBit]
  by_cases hj : j < w <;> simp [hj, h]

/-- A field added where `base` has zeros keeps the other fields apart. -/
theorem apart_add {base lo w x : Nat} (hx : x < 2 ^ w) (hb : base / 2 ^ lo % 2 ^ w = 0) {sh : List (Nat × Nat)}
    (hs : sh.all (fun g => decide (lo + w ≤ g.1 ∨ g.1 + g.2 ≤ lo)) = true) (h : apart base sh = true) :
    apart (base + x * 2 ^ lo) sh = true := by
  induction sh with
  | nil => rfl
  | cons g sh ih =>
    simp only [List.all_cons, Bool.and_eq_true, decide_eq_true_eq] at hs
    simp only [apart, Bool.and_eq_true, beq_iff_eq] at h ⊢
    obtain ⟨⟨hg, hd⟩, hr⟩ := h
    refine ⟨⟨?_, hd⟩, ih hs.2 hr⟩
    rw [← hg]
    exact slice_congr fun j hj => testBit_add_outside hx hb (by omega)

/-- Outside the fields a number has the bits of its base. -/
theorem testBit_withFields {fs sh : List (Nat × Nat)} {reads : Nat → Prop}
    (hl : Laid fs sh reads) {base j : Nat} (ha : apart base sh = true)
    (hj : free sh j = false) : (withFields base fs).testBit j = base.testBit j := by
  induction hl generalizing base with
  | nil => rfl
  | cons x lo hl ih =>
    simp only [apart, Bool.and_eq_true, beq_iff_eq] at ha
    obtain ⟨⟨hb, hd⟩, hr⟩ := ha
    simp only [free, List.any_cons, Bool.or_eq_false_iff, decide_eq_false_iff_not] at hj
    rw [withFields, ih (apart_add x.isLt hb hd hr) hj.2, testBit_add_outside x.isLt hb (by omega)]

theorem Row.fits_of_meets {fs sh : List (Nat × Nat)} {reads : Nat → Prop}
    (hl : Laid fs sh reads) {base : Nat} (ha : apart base sh = true) {r : Row}
    (h : meets base sh r = true) : r.fits (withFields base fs) = true := by
  refine List.all_eq_true.2 fun f hf => ?_
  have hf' := List.all_eq_true.1 h f hf
  rw [Bool.and_eq_true, beq_iff_eq, List.all_eq_true] at hf'
  rw [beq_iff_eq, ← hf'.1]
  refine slice_congr fun j hj => testBit_withFields hl ha ?_
  simpa using hf'.2 j (List.mem_range.2 hj)

theorem Row.not_fits_of_clashes {fs sh : List (Nat × Nat)} {reads : Nat → Prop}
    (hl : Laid fs sh reads) {base : Nat} (ha : apart base sh = true) {r : Row}
    (h : clashes base sh r = true) : r.fits (withFields base fs) = false := by
  obtain ⟨f, hf, h⟩ := List.any_eq_true.1 h
  obtain ⟨j, hj, h⟩ := List.any_eq_true.1 h
  rw [Bool.and_eq_true, Bool.not_eq_true', bne_iff_ne] at h
  refine List.all_eq_false.2 ⟨f, hf, fun he => h.2 ?_⟩
  rw [← beq_iff_eq.1 he, slice_testBit, testBit_withFields hl ha h.1]
  simp [List.mem_range.1 hj]

/-- The row has another number of words, or clashes with the known bits. -/
def passes (base n : Nat) (sh : List (Nat × Nat)) (r : Row) : Bool := r.len != n || clashes base sh r

/-- The first row of `n` words that does not clash with the known bits, where they fix all of it. -/
def pick (base n : Nat) (sh : List (Nat × Nat)) : List Row → Option Row
  | [] => none
  | r :: rs => if passes base n sh r then pick base n sh rs else if meets base sh r then some r else none

theorem not_found_of_passes {fs sh : List (Nat × Nat)} {reads : Nat → Prop} (hl : Laid fs sh reads) {base n : Nat}
    (ha : apart base sh = true) {r : Row} (h : passes base n sh r = true) :
    (r.len == n && r.fits (withFields base fs)) = false := by
  rw [passes, Bool.or_eq_true, bne_iff_ne] at h
  rcases h with h | h
  · simp [h]
  · simp [Row.not_fits_of_clashes hl ha h]

theorem find?_of_pick {fs sh : List (Nat × Nat)} {reads : Nat → Prop} (hl : Laid fs sh reads) {base n : Nat}
    (ha : apart base sh = true) {rows : List Row} {r : Row} (h : pick base n sh rows = some r) :
    rows.find? (fun r => r.len == n && r.fits (withFields base fs)) = some r := by
  induction rows with
  | nil => cases h
  | cons q rs ih =>
    unfold pick at h
    by_cases hc : passes base n sh q = true
    · rw [if_pos hc] at h
      rw [List.find?_cons_of_neg (by simp [not_found_of_passes hl ha hc]), ih h]
    · rw [if_neg hc] at h
      by_cases hm : meets base sh q = true
      · rw [if_pos hm] at h
        cases h
        have hlen : r.len = n := Decidable.byContradiction fun hne => hc (by simp [passes, hne])
        rw [List.find?_cons_of_pos (by simp [hlen, Row.fits_of_meets hl ha hm])]
      · rw [if_neg hm] at h
        cases h

/-! ## Words and their joint number -/

theorem length_toWords (n v : Nat) : (toWords n v).length = n := by
  induction n with
  | zero => rfl
  | succ n ih => simp [toWords, ih]

theorem joinWords_toWords (n v : Nat) : joinWords (toWords n v) = v % 2 ^ (16 * n) := by
  induction n with
  | zero => simp [toWords, joinWords, Nat.mod_one]
  | succ n ih =>
    rw [toWords, joinWords, ih, length_toWords, BitVec.toNat_ofNat, show 16 * (n + 1) = 16 * n + 16 from rfl, Nat.pow_add,
      Nat.mod_mul, Nat.mul_comm, Nat.add_comm]

/-- The tag of each word is the tag bits at its place. -/
theorem tagOf_word (n v : Nat) : tagOf (BitVec.ofNat 16 (v / 2 ^ (16 * n))) = v / 2 ^ (16 * n + 13) % 2 ^ 3 := by
  rw [tagOf, BitVec.toNat_ofNat, Nat.pow_add, ← Nat.div_div_eq_div_mul]
  omega

theorem isLiteral_word (n v : Nat) :
    isLiteral (BitVec.ofNat 16 (v / 2 ^ (16 * n))) = (v / 2 ^ (16 * n + 12) % 2 ^ 1 == 1) := by
  rw [isLiteral, BitVec.toNat_ofNat, Nat.pow_add, ← Nat.div_div_eq_div_mul]
  congr 1
  omega

theorem opcOf_word (n v : Nat) : opcOf (BitVec.ofNat 16 (v / 2 ^ (16 * n))) = v / 2 ^ (16 * n + 6) % 2 ^ 6 := by
  rw [opcOf, BitVec.toNat_ofNat, Nat.pow_add, ← Nat.div_div_eq_div_mul]
  omega

/-- Every word has the tag of the first. -/
theorem tagOf_toWords {n v t : Nat} (h : ∀ m < n, v / 2 ^ (16 * m + 13) % 2 ^ 3 = t) : ∀ w ∈ toWords n v, tagOf w = t := by
  induction n with
  | zero => simp [toWords]
  | succ n ih =>
    intro w hw
    rcases List.mem_cons.1 hw with rfl | hw
    · rw [tagOf_word, h n (Nat.lt_succ_self n)]
    · exact ih (fun m hm => h m (Nat.lt_succ_of_lt hm)) w hw

/-- Words that say their own length and carry one tag decode by the first of the tag's rows that fits their number. -/
theorem decode_toWords {n v t op : Nat} {r : Row} (rest : List Half) (hv : v < 2 ^ (16 * (n + 1)))
    (ht : ∀ m < n + 1, v / 2 ^ (16 * m + 13) % 2 ^ 3 = t) (ho : v / 2 ^ (16 * n + 6) % 2 ^ 6 = op)
    (hlen : if v / 2 ^ (16 * n + 12) % 2 ^ 1 = 1 then n = 0 ∧ t ≠ 7 else op < assignedOps t ∧ wordsOf t op = n + 1)
    (hf : (rowsOf t).find? (fun r => r.len == n + 1 && r.fits v) = some r) :
    decode (toWords (n + 1) v ++ rest) = .ok (r.build v) := by
  have htag : tagOf (BitVec.ofNat 16 (v / 2 ^ (16 * n))) = t := by rw [tagOf_word, ht n (Nat.lt_succ_self n)]
  have hop : opcOf (BitVec.ofNat 16 (v / 2 ^ (16 * n))) = op := by rw [opcOf_word, ho]
  have hlit := isLiteral_word n v
  have htake : (toWords (n + 1) v ++ rest).take (n + 1) = toWords (n + 1) v := by
    rw [List.take_left' (length_toWords (n + 1) v)]
  have hany : (toWords (n + 1) v).any (fun x => tagOf x != t) = false := by
    simpa using tagOf_toWords ht
  have hlong : ¬ (toWords (n + 1) v ++ rest).length < n + 1 := by
    rw [List.length_append, length_toWords]
    omega
  have hlenOf : lenOf (BitVec.ofNat 16 (v / 2 ^ (16 * n))) = n + 1 ∧
      (isLiteral (BitVec.ofNat 16 (v / 2 ^ (16 * n))) && t == 7) = false ∧
      (!isLiteral (BitVec.ofNat 16 (v / 2 ^ (16 * n))) && decide (assignedOps t ≤ op)) = false := by
    rw [lenOf, hlit, htag, hop]
    by_cases hl : v / 2 ^ (16 * n + 12) % 2 ^ 1 = 1
    · rw [if_pos hl] at hlen
      rw [beq_iff_eq.2 hl]
      simp [hlen.1, hlen.2]
    · rw [if_neg hl] at hlen
      rw [beq_eq_false_iff_ne.2 hl]
      simp [hlen.1, hlen.2]
  obtain ⟨hn, h7, ha⟩ := hlenOf
  unfold decode
  rw [toWords, List.cons_append]
  simp only [htag, hop, hn, h7, ha]
  rw [← List.cons_append, ← toWords, if_neg hlong, htake, hany, joinWords_toWords, Nat.mod_eq_of_lt hv, hf]
  simp

/-- The number fills at most `n + 1` words, all of the tag of the first; the literal bit and the opcode are known, and they
are those of an instruction of `n + 1` words (02 R25-R27, R41). -/
def opens (base n : Nat) (sh : List (Nat × Nat)) : Bool :=
  let t := base / 2 ^ (16 * n + 13) % 2 ^ 3
  let op := base / 2 ^ (16 * n + 6) % 2 ^ 6
  decide (base < 2 ^ (16 * (n + 1))) && sh.all (fun f => decide (f.1 + f.2 ≤ 16 * (n + 1))) &&
    (List.range (n + 1)).all (fun m => base / 2 ^ (16 * m + 13) % 2 ^ 3 == t &&
      (List.range 3).all fun j => !free sh (16 * m + 13 + j)) && !free sh (16 * n + 12) &&
    (if base / 2 ^ (16 * n + 12) % 2 ^ 1 = 1 then n == 0 && t != 7
     else (List.range 6).all (fun j => !free sh (16 * n + 6 + j)) && decide (op < assignedOps t) && wordsOf t op == n + 1)


/-- A number whose known bits open as `n + 1` words fills no more. -/
theorem withFields_lt {fs sh : List (Nat × Nat)} {reads : Nat → Prop}
    (hl : Laid fs sh reads) {base m : Nat} (ha : apart base sh = true)
    (hb : base < 2 ^ m) (hm : sh.all (fun f => decide (f.1 + f.2 ≤ m)) = true) : withFields base fs < 2 ^ m := by
  refine Nat.lt_pow_two_of_testBit _ fun j hj => ?_
  have hfree : free sh j = false := by
    refine List.any_eq_false.2 fun f hf => ?_
    have := List.all_eq_true.1 hm f hf
    simp only [decide_eq_true_eq] at this ⊢
    omega
  rw [testBit_withFields hl ha hfree]
  exact Nat.testBit_lt_two_pow (Nat.lt_of_lt_of_le hb (Nat.pow_le_pow_right (by decide) hj))

/-- Known bits of a number are those of its base. -/
theorem slice_withFields {fs sh : List (Nat × Nat)} {reads : Nat → Prop}
    (hl : Laid fs sh reads) {base lo w : Nat} (ha : apart base sh = true)
    (hk : (List.range w).all (fun j => !free sh (lo + j)) = true) :
    withFields base fs / 2 ^ lo % 2 ^ w = base / 2 ^ lo % 2 ^ w :=
  slice_congr fun j hj => testBit_withFields hl ha (by simpa using List.all_eq_true.1 hk j (List.mem_range.2 hj))

/-- Words whose known bits open as an instruction decode by the first row that fits their number. -/
theorem decode_of_find {base n t : Nat} {fs sh : List (Nat × Nat)} {reads : Nat → Prop} {r : Row}
    (rest : List Half) (hl : Laid fs sh reads)
    (ha : apart base sh = true) (ho : opens base n sh = true) (ht : base / 2 ^ (16 * n + 13) % 2 ^ 3 = t)
    (hf : (rowsOf t).find? (fun r => r.len == n + 1 && r.fits (withFields base fs)) = some r) :
    decode (toWords (n + 1) (withFields base fs) ++ rest) = .ok (r.build (withFields base fs)) := by
  subst ht
  simp only [opens, Bool.and_eq_true, decide_eq_true_eq] at ho
  obtain ⟨⟨⟨⟨hbase, hends⟩, htags⟩, hlit⟩, hrest⟩ := ho
  have hbit : withFields base fs / 2 ^ (16 * n + 12) % 2 ^ 1 = base / 2 ^ (16 * n + 12) % 2 ^ 1 :=
    slice_withFields hl ha (by simpa [List.range_one] using hlit)
  refine decode_toWords rest (withFields_lt hl ha hbase hends) (fun m hm => ?_) rfl ?_ hf
  · have hm := List.all_eq_true.1 htags m (List.mem_range.2 hm)
    rw [Bool.and_eq_true, beq_iff_eq] at hm
    rw [slice_withFields hl ha hm.2, hm.1]
  · rw [hbit]
    split at hrest <;> rename_i hb
    · rw [if_pos hb]
      simpa using hrest
    · rw [if_neg hb]
      simp only [Bool.and_eq_true, decide_eq_true_eq, beq_iff_eq] at hrest
      rw [slice_withFields hl ha hrest.1.1]
      exact ⟨hrest.1.2, hrest.2⟩

/-- A value added where `b` has `w` zeros is what stands there. -/
theorem field_add_same {b lo w : Nat} (x : BitVec w) (hb : b / 2 ^ lo % 2 ^ w = 0) : field (b + x.toNat * 2 ^ lo) lo w = x := by
  apply BitVec.eq_of_toNat_eq
  rw [field, BitVec.toNat_ofNat, Nat.add_mul_div_right _ _ (Nat.two_pow_pos lo), Nat.add_mod, hb, Nat.zero_add, Nat.mod_mod,
    Nat.mod_eq_of_lt x.isLt]

/-- Every field of an encoding reads back. -/
theorem Laid.reads_withFields {fs sh : List (Nat × Nat)} {reads : Nat → Prop} (hl : Laid fs sh reads) {base : Nat}
    (ha : apart base sh = true) : reads (withFields base fs) := by
  induction hl generalizing base with
  | nil => trivial
  | @cons w x lo fs sh reads hl ih =>
    simp only [apart, Bool.and_eq_true, beq_iff_eq] at ha
    obtain ⟨⟨hb, hd⟩, hr⟩ := ha
    have hr := apart_add x.isLt hb hd hr
    have hsame : field (withFields (base + x.toNat * 2 ^ lo) fs) lo w = field (base + x.toNat * 2 ^ lo) lo w := by
      apply BitVec.eq_of_toNat_eq
      simp only [field, BitVec.toNat_ofNat]
      refine slice_congr fun j hj => testBit_withFields hl hr (List.any_eq_false.2 fun g hg => ?_)
      have := List.all_eq_true.1 hd g hg
      simp only [decide_eq_true_eq] at this ⊢
      omega
    exact ⟨hsame.trans (field_add_same x hb), ih hr⟩

/-- Words whose known bits pick a row decode by that row. -/
theorem decode_of_pick {base n : Nat} {fs sh : List (Nat × Nat)} {reads : Nat → Prop} {r : Row} {i : Instr} (rest : List Half)
    (hl : Laid fs sh reads) (hc : (apart base sh && opens base n sh) = true)
    (hp : pick base (n + 1) sh (rowsOf (base / 2 ^ (16 * n + 13) % 2 ^ 3)) = some r) (hi : ∀ v, reads v → r.build v = i) :
    decode (toWords (n + 1) (withFields base fs) ++ rest) = .ok i := by
  rw [Bool.and_eq_true] at hc
  rw [decode_of_find rest hl hc.1 hc.2 rfl (find?_of_pick hl hc.1 hp), hi _ (hl.reads_withFields hc.1)]

theorem ofTag_tag (t : Engine) : Engine.ofTag (BitVec.ofNat 3 t.tag).toNat = t := by cases t <;> rfl

/-- A word that every engine has decodes by its row, and its tag reads back as the engine (02 R25, R26). -/
theorem decode_of_pick_tagged {base w : Nat} (t : Engine) (x : BitVec w) {r : Row} {i : Instr} (rest : List Half)
    (hc : (apart (base + t.tag * 2 ^ 13) [(0, w)] && opens (base + t.tag * 2 ^ 13) 0 [(0, w)] &&
      (base + t.tag * 2 ^ 13) / 2 ^ 13 % 2 ^ 3 == t.tag) = true)
    (hp : pick (base + t.tag * 2 ^ 13) 1 [(0, w)] (rowsOf t.tag) = some r)
    (hi : ∀ v, Engine.ofTag (field v 13 3).toNat = t → field v 0 w = x → r.build v = i) :
    decode (toWords 1 (withFields base [(t.tag, 13), (x.toNat, 0)]) ++ rest) = .ok i := by
  simp only [Bool.and_eq_true, beq_iff_eq] at hc
  obtain ⟨⟨ha, ho⟩, ht⟩ := hc
  have hl : Laid [(x.toNat, 0)] [(0, w)] _ := .cons x 0 .nil
  have hd := decode_of_find rest hl ha ho ht (find?_of_pick hl ha hp)
  have htags := ho
  simp only [opens, Bool.and_eq_true] at htags
  obtain ⟨⟨⟨-, htags⟩, -⟩, -⟩ := htags
  have hknown := List.all_eq_true.1 htags 0 (List.mem_range.2 Nat.one_pos)
  rw [Bool.and_eq_true] at hknown
  have htag : field (withFields (base + t.tag * 2 ^ 13) [(x.toNat, 0)]) 13 3 = BitVec.ofNat 3 t.tag := by
    apply BitVec.eq_of_toNat_eq
    rw [field, BitVec.toNat_ofNat, BitVec.toNat_ofNat, slice_withFields hl ha hknown.2, ht]
    exact (Nat.mod_eq_of_lt (by cases t <;> decide)).symm
  rw [← hi _ (by rw [htag, ofTag_tag]) (hl.reads_withFields ha).1]
  exact hd

/-- C.LOOP with a count in its word: a count of 0 is the other form (04 R83), whose row comes first. -/
theorem decode_cLoopCount (m : BitVec 6) (o : BitVec 13) (hm : m ≠ 0) (rest : List Half) :
    decode (toWords 2 (withFields 0x4400000 [(m.toNat, 16), (o.toNat, 0)]) ++ rest) = .ok (.cLoopCount m o) := by
  have hl : Laid [(m.toNat, 16), (o.toNat, 0)] [(16, 6), (0, 13)] _ := .cons m 16 (.cons o 0 .nil)
  have ha : apart 0x4400000 [(16, 6), (0, 13)] = true := by decide +kernel
  obtain ⟨hrm, hro, -⟩ := hl.reads_withFields ha
  have hfirst : Row.fits ⟨2, [(13, 19, 8704)], fun v => .cLoop (field v 0 13)⟩
      (withFields 0x4400000 [(m.toNat, 16), (o.toNat, 0)]) = false := by
    have := m.isLt
    have : m.toNat ≠ 0 := fun h => hm (BitVec.eq_of_toNat_eq h)
    simp only [Row.fits, withFields, List.all_cons, List.all_nil, Bool.and_true, beq_eq_false_iff_ne]
    omega
  have hfind : (rowsOf 0).find? (fun r => r.len == 2 && r.fits (withFields 0x4400000 [(m.toNat, 16), (o.toNat, 0)])) =
      some ⟨2, [(13, 3, 0), (22, 10, 17)], fun v => .cLoopCount (field v 16 6) (field v 0 13)⟩ := by
    have hbefore : ((rowsOf 0).take 44).find?
        (fun r => r.len == 2 && r.fits (withFields 0x4400000 [(m.toNat, 16), (o.toNat, 0)])) = none := by
      have hpass : ((rowsOf 0).take 44).all (passes 0x4400000 2 [(16, 6), (0, 13)]) = true := by decide +kernel
      refine List.find?_eq_none.2 fun r hr => ?_
      simp [not_found_of_passes hl ha (List.all_eq_true.1 hpass r hr)]
    have hafter := find?_of_pick hl ha (show pick 0x4400000 2 [(16, 6), (0, 13)] ((rowsOf 0).drop 45) = some _ from rfl)
    have hrows : rowsOf 0 = (rowsOf 0).take 44 ++ ⟨2, [(13, 19, 8704)], fun v => .cLoop (field v 0 13)⟩ :: (rowsOf 0).drop 45 := rfl
    rw [hrows, List.find?_append, hbefore, Option.none_or, List.find?_cons_of_neg (by simp [hfirst])]
    exact hafter
  simp only [decode_of_find rest hl ha (by decide +kernel) rfl hfind, hrm, hro]

/-! ## Decoding what was encoded -/

theorem decode_toWords_of_encodeNat {i : Instr} {n v : Nat} (hi : i.WellFormed) (h : encodeNat i = some (n, v)) (rest : List Half) :
    decode (toWords n v ++ rest) = .ok i := by
  cases i
  case literalPush t x | literalExtend t x | wait t x | stkDup t x | stkDrop t x | stkSwap t x | stkOver t x =>
    cases h
    cases t <;> exact decode_of_pick_tagged _ x rest (by decide +kernel) rfl fun v ht hx => by simp only [ht, hx]
  case cLoopCount m o =>
    cases h
    simp only [Instr.WellFormed, legalFields, Bool.and_eq_true, bne_iff_ne] at hi
    exact decode_cLoopCount m o hi.1 rest
  all_goals cases h
  all_goals exact decode_of_pick rest (by repeat' constructor) (by decide +kernel) rfl fun v hv => by simp_all only

theorem encode_eq_some_iff {i : Instr} {ws : List Half} :
    encode i = some ws ↔ ∃ n v, encodeNat i = some (n, v) ∧ toWords n v = ws := by
  simp [encode, Option.map_eq_some_iff]

theorem decode_of_encode {i : Instr} (hi : i.WellFormed) {ws : List Half} (h : encode i = some ws) (rest : List Half) :
    decode (ws ++ rest) = .ok i := by
  obtain ⟨n, v, hnv, rfl⟩ := encode_eq_some_iff.1 h
  exact decode_toWords_of_encodeNat hi hnv rest

theorem length_of_encode {i : Instr} {ws : List Half} (h : encode i = some ws) : ws.length = lenInstr i := by
  obtain ⟨n, v, hnv, rfl⟩ := encode_eq_some_iff.1 h
  rw [length_toWords, lenInstr, hnv]

/-- Settles O53. -/
theorem decodeEncode : Obligations.DecodeEncode := by
  intro i hi
  refine ⟨fun ws rest h => ⟨decode_of_encode hi h rest, length_of_encode h⟩, fun j ws hj h h' => ?_⟩
  have hd := decode_of_encode hi h []
  rw [decode_of_encode hj h' []] at hd
  exact (Except.ok.inj hd).symm

end Sys2Proof.Words
end

section
/-! SUPPORT. An engine's word from its issue to its effect or its trap; the literal, WAIT and STK words (02 R26, R31, R32, R42; 05
R116; 18 R378, R379). -/

namespace Sys2Proof.Words

open Sys2Proof.Machine Sys2Proof.Spec

/-! ## Changes of the state that follow each other -/

theorem SMap.erase_of_not_has {α : Type} (m : SMap α) (k : Nat) (h : SMap.has m k = false) : SMap.erase m k = m := by
  induction m with
  | nil => rfl
  | cons p m ih =>
    have hp : p.1 ≠ k := by
      intro he
      simp [SMap.has, he] at h
    have hm : SMap.has m k = false := by simpa [SMap.has, hp] using h
    simp [SMap.erase, hp, ih hm]

theorem SMap.erase_insert_same {α : Type} (m : SMap α) (k : Nat) (v : α) (h : SMap.has m k = false) :
    SMap.erase (SMap.insert k v m) k = m := by
  induction m with
  | nil => simp [SMap.insert, SMap.erase]
  | cons p m ih =>
    have hp : p.1 ≠ k := by
      intro he
      simp [SMap.has, he] at h
    have hm : SMap.has m k = false := by simpa [SMap.has, hp] using h
    by_cases hk : k < p.1
    · simp [SMap.insert, SMap.erase, hk, hp, SMap.erase_of_not_has m k hm]
    · simp [SMap.insert, SMap.erase, hk, hp, ih hm]

theorem SMap.put_put {α : Type} (m : SMap α) (k : Nat) (v w : α) : SMap.put (SMap.put m k v) k w = SMap.put m k w := by
  simp only [SMap.put, SMap.erase_insert_same _ k v (SMap.has_erase_same m k)]

/-- Two changes of the acting core are one. -/
theorem updMe_updMe (s : State) (f g : Core → Core) : (s.updMe f).updMe g = s.updMe fun k => g (f k) := by
  simp only [State.updMe, State.setMe, State.setCore, State.me, State.core, SMap.put_put, SMap.get_put_same]

theorem updEn_updEn (k : Core) (t : Engine) (f g : Eng → Eng) : (k.updEn t f).updEn t g = k.updEn t fun x => g (f x) := by
  cases t <;> rfl

/-- The second of two writes of a stack stands. -/
theorem setStack_setStack (s : State) (t : Engine) (a b : List W64) : (s.setStack t a).setStack t b = s.setStack t b := by
  simp only [State.setStack, updMe_updMe, updEn_updEn]

theorem pushing_setStack (s : State) (t : Engine) (vs st : List W64) :
    pushing t vs (s.setStack t st) = s.setStack t (vs.reverse ++ st) := by
  rw [pushing, State.stack_setStack_same, setStack_setStack]

/-! ## Issue -/

/-- Only C waits at a loop's end word, and only while a steering queue is full (02 R34). -/
theorem steerBlocked_eq_false {k : Core} {t : Engine} (h : t = .c → k.steerFull = false) (len : Nat) :
    k.steerBlocked t len = false := by
  cases t with
  | c => simp [Core.steerBlocked, h rfl]
  | _ => rfl

theorem repValue_zero (s : State) (t : Engine) : repValue (s.me.repFor t) 0 = plainValue s t := rfl

/-- Every trap leaves the trap registers and what goes with them, as the statements write it out (18 R378, R379). -/
theorem takeTrap_eq_trapped (s : State) (tag addr : Nat) (c : Cause) (v : W64) : takeTrap s tag addr c v = trapped s tag addr c v := by
  have hfatal : ∀ k : Core, (if k.fatal c then Run.killing else .saving .trap) =
      if c = .integ ∨ k.leg.timed = true ∨ k.handle = false then .killing else .saving .trap := by
    intro k
    simp [Core.fatal, or_assoc]
  unfold takeTrap trapped
  refine congrArg s.updMe (funext fun k => ?_)
  rw [Core.takeTrap, hfatal, Nat.mul_comm tag] <;> rfl

section
variable {t : Engine} {i : Instr} {n : State → Nat} {body : State → Res} {s : State}

/-- What a word that can issue comes to, by what its body comes to. -/
theorem issueN_of_canIssue (h : CanIssue t i s) :
    issueN t i n body s =
      match body (arrived t s) with
      | .ok s2 => .next (s2.updMe fun k => k.complete t (s.me.repFor t) (lenInstr i) (n (arrived t s)) s.cycle)
      | .trap c v a => .next (takeTrap s t.tag (a.getD (s.me.en t).pc) c (repValue (s.me.repFor t) v))
      | .wait s2 => .next ((s2.setStack t (top t s)).updMe fun k => k.stall t s.cycle)
      | .hold s2 => .next ((s2.setStack t (top t s)).updMe fun k => k.updEn t fun x => { x with nextIssue := s.cycle + 1 })
      | .part c v s2 => .next (takeTrap (s2.setStack t (top t s)) t.tag (s.me.en t).pc c (repValue (s.me.repFor t) v)) := by
  obtain ⟨hlegal, hsteer, hfence, hwaits, hstack, hrep⟩ := h
  rw [issueN_run hlegal (by rw [hsteer, hfence]; rfl) hwaits hstack hrep]
  rfl

/-- A word that can issue and whose body has an effect completes with it. -/
theorem issueN_completes (h : CanIssue t i s) {e : State} (he : body (arrived t s) = .ok e) :
    issueN t i n body s = .next (issued t i (n (arrived t s)) s e) := by
  rw [issueN_of_canIssue h, he]
  rfl

/-- A reserved field value takes #ILL before anything else but a full steering queue (02 R34, R42). -/
theorem issueN_reserved (hi : legalFields i = false) (hfull : t = .c → s.me.steerFull = false) :
    issueN t i n body s = .next (trapped s t.tag (s.me.en t).pc .ill (plainValue s t)) := by
  rw [issueN_illegal (steerBlocked_eq_false hfull _) hi, takeTrap_eq_trapped, repValue_zero]

end

/-- The same of an S word, whose trap has the engine code 7 (02 R29). -/
theorem issueSN_reserved {i : Instr} {n : Nat} {body : State → Res} {s : State} (hi : legalFields i = false)
    (hfull : s.me.steerFull = false) : issueSN i n body s = .next (trapped s 7 (s.me.en .c).pc .ill 0) := by
  rw [← takeTrap_eq_trapped]
  simp [issueSN, steerBlocked_eq_false (fun _ => hfull), hi]

/-! ## The words every engine has -/

section
variable {t : Engine} {s : State}

theorem stack_arrived : (arrived t s).stack t = top t s := rfl

theorem sextBits_eq_signExtend (i : BitVec 11) : sextBits 11 i.toNat = i.signExtend 64 := by
  have hlt := i.isLt
  rw [BitVec.signExtend, BitVec.toInt_eq_toNat_cond, sextBits, Nat.mod_eq_of_lt hlt]
  by_cases h : i.toNat < 2 ^ 10
  · rw [if_pos h, if_pos (by omega)]
    exact (BitVec.ofInt_natCast 64 i.toNat).symm
  · rw [if_neg h, if_neg (by omega)]
    rfl

/-- A word that pops `p` entries, and finds them and room for the `q` it leaves, completes with its body's effect. -/
theorem popping_completes {i : Instr} {n : State → Nat} {p q : Nat} {body : List W64 → State → Res} (h : CanIssue t i s)
    (hp : p ≤ (top t s).length) (hq : q ≤ p) {e : State}
    (he : body ((top t s).take p) ((arrived t s).setStack t ((top t s).drop p)) = .ok e) :
    issueN t i n (popping t p q body) s = .next (issued t i (n (arrived t s)) s e) := by
  have hstack : (top t s).length ≤ 8 := h.2.2.2.2.1
  have hfits : stackFits ((arrived t s).stack t) p q = true := by
    rw [stackFits, stack_arrived, Bool.and_eq_true]
    exact ⟨decide_eq_true hp, decide_eq_true (by omega)⟩
  exact issueN_completes h (by rw [popping_ok hfits, stack_arrived, he])

theorem exec_literalPush {i : BitVec 11} (h : CanIssue t (.literalPush t i) s) (hroom : (top t s).length < 8) :
    completes t (.literalPush t i) 1 s ((arrived t s).setStack t (i.signExtend 64 :: top t s)) := by
  change execLiteralPush t i s = _
  unfold execLiteralPush issue
  refine issueN_completes h ?_
  rw [stack_arrived, if_neg (by omega), sextBits_eq_signExtend]
  rfl

theorem exec_literalExtend {i : BitVec 11} {v : W64} {rest : List W64} (h : CanIssue t (.literalExtend t i) s)
    (hv : top t s = v :: rest) :
    completes t (.literalExtend t i) 1 s ((arrived t s).setStack t ((v <<< 11 ||| i.setWidth 64) :: rest)) := by
  change execLiteralExtend t i s = _
  unfold execLiteralExtend issue
  refine popping_completes h (by simp [hv]) (Nat.le_refl 1) ?_
  rw [pushing_setStack, hv, w64, BitVec.ofNat_toNat]
  rfl

theorem exec_wait {n : BitVec 6} (h : CanIssue t (.wait t n) s) (hn : n ≠ 0) :
    completes t (.wait t n) n.toNat s (arrived t s) := by
  have hcount : waitCount t n (arrived t s) = n.toNat := by
    have : n.toNat ≠ 0 := fun h0 => hn (BitVec.eq_of_toNat_eq h0)
    rw [waitCount, if_neg hn]
    omega
  change execWait t n s = _
  rw [execWait, if_neg hn, issueN_completes h rfl, hcount]

theorem exec_wait_popped {v : W64} {rest : List W64} (h : CanIssue t (.wait t 0) s) (hv : top t s = v :: rest) :
    completes t (.wait t 0) (max 1 v.toNat) s ((arrived t s).setStack t rest) := by
  have hcount : waitCount t 0 (arrived t s) = max 1 v.toNat := by
    rw [waitCount, if_pos rfl, stack_arrived, hv]
    rfl
  change execWait t 0 s = _
  rw [execWait, if_pos rfl, popping_completes h (by simp [hv]) (Nat.zero_le 1) rfl, hcount, hv]
  rfl

/-- An STK word that finds its entries, and room where it adds one, leaves the stack its form gives (02 R32). -/
theorem stkOp_completes {i : Instr} {need : Nat} {grows : Bool} {f : List W64 → List W64} (h : CanIssue t i s)
    (hneed : need ≤ (top t s).length) (hroom : grows = true → (top t s).length < 8) :
    stkOp t i need grows f s = .next (issued t i 1 s ((arrived t s).setStack t (f (top t s)))) := by
  unfold stkOp issue
  refine issueN_completes h (if_neg ?_)
  simp only [Bool.or_eq_true, Bool.and_eq_true, decide_eq_true_eq]
  rw [stack_arrived]
  rintro (hlt | ⟨hg, hge⟩)
  · omega
  · have := hroom hg
    omega

end

/-- Settles O2: each word by the lemma of its form. -/
theorem literalsStackAndWait : Obligations.LiteralsStackAndWait := by
  intro t s
  refine ⟨fun i h hroom => exec_literalPush h hroom, fun i v rest h hv => exec_literalExtend h hv, fun n h hn => exec_wait h hn,
    fun v rest h hv => exec_wait_popped h hv, fun k h hk hroom => ?_, fun k h hk => ?_, fun k h hk => ?_, fun k h hk => ?_⟩
  · change execStkDup t k s = _
    exact stkOp_completes h hk fun _ => hroom
  · change execStkDrop t k s = _
    rw [← List.eraseIdx_eq_take_drop_succ]
    exact stkOp_completes h hk nofun
  · change execStkSwap t k s = _
    exact stkOp_completes h hk nofun
  · change execStkOver t k s = _
    rw [← List.eraseIdx_eq_take_drop_succ]
    exact stkOp_completes h hk nofun

end Sys2Proof.Words
end

section
/-! SUPPORT. Words with reserved field values, and words that are no instruction (02 R42; 18 R378, R379). -/

namespace Sys2Proof.Words

open Sys2Proof.Machine Sys2Proof.Spec

/-- The tag of an instruction whose known bits open as its words (02 R25). -/
theorem tagOfInstr_of_laid {i : Instr} {n base tag : Nat} {fs sh : List (Nat × Nat)} {reads : Nat → Prop}
    (he : encodeNat i = some (n + 1, withFields base fs)) (hl : Laid fs sh reads) (hc : (apart base sh && opens base n sh) = true)
    (ht : tagOfInstr i = some tag) : base / 2 ^ (16 * n + 13) % 2 ^ 3 = tag := by
  rw [Bool.and_eq_true] at hc
  obtain ⟨ha, ho⟩ := hc
  simp only [opens, Bool.and_eq_true, decide_eq_true_eq] at ho
  obtain ⟨⟨⟨⟨hbase, hends⟩, htags⟩, -⟩, -⟩ := ho
  have hn := List.all_eq_true.1 htags n (List.mem_range.2 (Nat.lt_succ_self n))
  rw [Bool.and_eq_true] at hn
  have hlt : withFields base fs / 2 ^ (16 * n + 13) < 2 ^ 3 := by
    rw [Nat.div_lt_iff_lt_mul (Nat.two_pow_pos _), ← Nat.pow_add, show 3 + (16 * n + 13) = 16 * (n + 1) by omega]
    exact withFields_lt hl ha hbase hends
  rw [← slice_withFields hl ha hn.2, Nat.mod_eq_of_lt hlt, ← Option.some.injEq, ← ht, tagOfInstr, he]
  rfl

section
variable {t : Engine} {i : Instr} {n : Nat} {body : State → Res} {s : State}

theorem issue_reserved (hi : legalFields i = false) (hfull : t = .c → s.me.steerFull = false) :
    issue t i n body s = .next (trapped s t.tag (s.me.en t).pc .ill (plainValue s t)) :=
  issueN_reserved hi hfull

theorem runE_reserved {x : EForm} (hi : legalFields x.i = false) :
    runE x s = .next (trapped s 2 (s.me.en .e).pc .ill (plainValue s .e)) :=
  issueN_reserved (t := .e) hi nofun

theorem execFChase_reserved {h : BitVec 4} {c : BitVec 3} {k : BitVec 6} (hi : legalFields (.fChase h c k) = false) :
    execFChase h c k s = .next (trapped s 6 (s.me.en .f).pc .ill (plainValue s .f)) := by
  unfold execFChase
  simp only
  split
  · exact issue_reserved (t := .f) hi nofun
  · exact issue_reserved (t := .f) hi nofun

end

/-- The tag of an instruction of one kind of word only that has reserved field values. -/
def reservedTag : Instr → Option Nat
  | .cSend _ | .cRecv _ | .cCmp _ | .cSetp _ _ | .cPredSet _ _ | .cLoop _ | .cLoopCount _ _ | .cCsr _ _ | .cCsw _ _ => some 0
  | .aSfld _ _ | .aXqCount _ | .aXqFlush _ | .aXqDrop _ | .aXqPut _ => some 1
  | .eMov .. | .eAdd .. | .eSub .. | .eMul .. | .eDiv .. | .eFma .. | .eSqrt .. | .eMin .. | .eMax .. | .eCmp .. | .eSelect ..
  | .eIadd .. | .eImul .. | .eLogic .. | .eShift .. | .eRed .. | .eXpose .. | .ePerm .. | .eSfn .. | .eTpack .. | .eRep ..
  | .eXq .. | .eCvt .. | .eQuant .. | .eMask .. => some 2
  | .mWload _ | .mWloadSp _ | .mMma _ _ | .mAccClearpair _ | .mEpi .. => some 3
  | .kCwait _ => some 4
  | .wRows _ _ => some 5
  | .fAmo _ _ | .fAmoR _ _ | .fCasM _ _ | .fColl .. | .fLayout _ _ | .fChase .. => some 6
  | .sFence .. | .sAcq _ | .sAcqSh _ | .sRel _ => some 7
  | _ => none

theorem reservedTag_lt {i : Instr} {tag : Nat} (h : reservedTag i = some tag) : tag < 8 := by
  unfold reservedTag at h
  split at h <;> simp at h <;> omega

/-- Field values are reserved in the STK words, which every engine has, and in words of one tag. -/
theorem stk_or_reservedTag {i : Instr} {tag : Nat} (ht : tagOfInstr i = some tag) (hi : legalFields i = false) :
    (∃ t k, i = .stkSwap t k ∨ i = .stkOver t k) ∨ reservedTag i = some tag := by
  cases i
  case stkSwap t k => exact .inl ⟨t, k, .inl rfl⟩
  case stkOver t k => exact .inl ⟨t, k, .inr rfl⟩
  case cSend | cRecv | cCmp | cSetp | cPredSet | cLoop | cLoopCount | cCsr | cCsw | aSfld | aXqCount | aXqFlush | aXqDrop | aXqPut
      | eMov | eAdd | eSub | eMul | eDiv | eFma | eSqrt | eMin | eMax | eCmp | eSelect | eIadd | eImul | eLogic | eShift | eRed
      | eXpose | ePerm | eSfn | eTpack | eRep | eXq | eCvt | eQuant | eMask | mWload | mWloadSp | mMma | mAccClearpair | mEpi
      | kCwait | wRows | fAmo | fAmoR | fCasM | fColl | fLayout | fChase | sFence | sAcq | sAcqSh | sRel =>
    exact .inr (congrArg some (tagOfInstr_of_laid rfl (by repeat' constructor) (by decide +kernel) ht))
  all_goals cases hi

theorem tagOfInstr_stkSwap (t : Engine) (k : BitVec 3) : tagOfInstr (.stkSwap t k) = some t.tag := by
  cases t <;> decide +revert

theorem tagOfInstr_stkOver (t : Engine) (k : BitVec 3) : tagOfInstr (.stkOver t k) = some t.tag := by
  cases t <;> decide +revert

theorem ofTag_tagOf (t : Engine) : Engine.ofTag t.tag = t := by
  cases t <;> rfl

section
variable {i : Instr} {s : State}

theorem exec_reserved_c (htag : reservedTag i = some 0) (hi : legalFields i = false) (hfull : s.me.steerFull = false) :
    exec i s = .next (trapped s 0 (s.me.en .c).pc .ill 0) := by
  cases i
  case cSend | cRecv | cCmp | cSetp | cPredSet | cLoop | cLoopCount | cCsr | cCsw =>
    unfold exec
    delta execCSend execCRecv execCCmp execCSetp execCPredSet execCLoop execCLoopCount execCCsr execCCsw
    exact issue_reserved (t := .c) hi fun _ => hfull
  all_goals exact absurd htag nofun

theorem exec_reserved_a (htag : reservedTag i = some 1) (hi : legalFields i = false) :
    exec i s = .next (trapped s 1 (s.me.en .a).pc .ill (plainValue s .a)) := by
  cases i
  case aSfld | aXqCount | aXqFlush | aXqDrop | aXqPut =>
    unfold exec
    delta execASfld execAXqCount execAXqFlush execAXqDrop execAXqPut
    exact issue_reserved (t := .a) hi nofun
  all_goals exact absurd htag nofun

theorem exec_reserved_e (htag : reservedTag i = some 2) (hi : legalFields i = false) :
    exec i s = .next (trapped s 2 (s.me.en .e).pc .ill (plainValue s .e)) := by
  cases i
  case eMov | eAdd | eSub | eMul | eDiv | eFma | eSqrt | eMin | eMax | eCmp | eSelect | eIadd | eImul | eLogic | eShift | eRed | eXpose
      | ePerm | eSfn | eTpack => exact runE_reserved hi
  case eRep | eXq | eCvt | eQuant | eMask =>
    unfold exec
    delta execERep execEXq execECvt execEQuant execEMask
    exact issueN_reserved (t := .e) hi nofun
  all_goals exact absurd htag nofun

theorem exec_reserved_m (htag : reservedTag i = some 3) (hi : legalFields i = false) :
    exec i s = .next (trapped s 3 (s.me.en .m).pc .ill (plainValue s .m)) := by
  cases i
  case mWload | mWloadSp | mMma | mAccClearpair | mEpi =>
    unfold exec
    delta execMWload execMWloadSp execMMma execMAccClearpair execMEpi
    exact issue_reserved (t := .m) hi nofun
  all_goals exact absurd htag nofun

theorem exec_reserved_k (htag : reservedTag i = some 4) (hi : legalFields i = false) :
    exec i s = .next (trapped s 4 (s.me.en .k).pc .ill (plainValue s .k)) := by
  cases i
  case kCwait =>
    unfold exec execKCwait
    exact issue_reserved (t := .k) hi nofun
  all_goals exact absurd htag nofun

theorem exec_reserved_w (htag : reservedTag i = some 5) (hi : legalFields i = false) :
    exec i s = .next (trapped s 5 (s.me.en .w).pc .ill (plainValue s .w)) := by
  cases i
  case wRows =>
    unfold exec execWRows
    exact issueN_reserved (t := .w) hi nofun
  all_goals exact absurd htag nofun

theorem exec_reserved_f (htag : reservedTag i = some 6) (hi : legalFields i = false) :
    exec i s = .next (trapped s 6 (s.me.en .f).pc .ill (plainValue s .f)) := by
  cases i
  case fChase => exact execFChase_reserved hi
  case fAmo | fAmoR | fCasM | fColl | fLayout =>
    unfold exec
    delta execFAmo execFAmoR execFCasM execFColl execFLayout
    exact issue_reserved (t := .f) hi nofun
  all_goals exact absurd htag nofun

theorem exec_reserved_s (htag : reservedTag i = some 7) (hi : legalFields i = false) (hfull : s.me.steerFull = false) :
    exec i s = .next (trapped s 7 (s.me.en .c).pc .ill 0) := by
  cases i
  case sFence | sAcq | sAcqSh | sRel =>
    unfold exec
    delta execSFence execSAcq execSAcqSh execSRel
    exact issueSN_reserved hi hfull
  all_goals exact absurd htag nofun

end

theorem exec_stk_reserved {t : Engine} {k : BitVec 3} {i : Instr} {s : State} (h : i = .stkSwap t k ∨ i = .stkOver t k)
    (hi : legalFields i = false) (hfull : t = .c → s.me.steerFull = false) :
    exec i s = .next (trapped s t.tag (s.me.en t).pc .ill (plainValue s t)) := by
  obtain rfl | rfl := h
  · change execStkSwap t k s = _
    unfold execStkSwap stkOp
    exact issue_reserved hi hfull
  · change execStkOver t k s = _
    unfold execStkOver stkOp
    exact issue_reserved hi hfull

theorem exec_reserved {i : Instr} {tag : Nat} {s : State} (ht : tagOfInstr i = some tag) (hi : legalFields i = false)
    (hfull : tag = 0 ∨ tag = 7 → s.me.steerFull = false) :
    exec i s = .next (trapped s tag (s.me.en (Engine.ofTag tag)).pc .ill (plainValue s (Engine.ofTag tag))) := by
  obtain ⟨t, k, h⟩ | h := stk_or_reservedTag ht hi
  · have htag : t.tag = tag := by
      obtain rfl | rfl := h
      · exact Option.some.inj ((tagOfInstr_stkSwap t k).symm.trans ht)
      · exact Option.some.inj ((tagOfInstr_stkOver t k).symm.trans ht)
    subst htag
    rw [ofTag_tagOf]
    exact exec_stk_reserved h hi fun hc => hfull (.inl (congrArg Engine.tag hc))
  · match tag, h, hfull, reservedTag_lt h with
    | 0, h, hfull, _ => exact exec_reserved_c h hi (hfull (.inl rfl))
    | 1, h, _, _ => exact exec_reserved_a h hi
    | 2, h, _, _ => exact exec_reserved_e h hi
    | 3, h, _, _ => exact exec_reserved_m h hi
    | 4, h, _, _ => exact exec_reserved_k h hi
    | 5, h, _, _ => exact exec_reserved_w h hi
    | 6, h, _, _ => exact exec_reserved_f h hi
    | 7, h, hfull, _ => exact exec_reserved_s h hi (hfull (.inr rfl))

theorem exec_illegalWord {g : BitVec 3} {s : State} (hfull : g = 0 ∨ g = 7 → s.me.steerFull = false) :
    exec (.illegalWord g) s = .next (trapped s g.toNat (s.me.en (Engine.ofTag g.toNat)).pc .ill 0) := by
  have htag : ∀ g : BitVec 3, Engine.ofTag g.toNat = .c → g = 0 ∨ g = 7 := by decide
  have hc : Engine.ofTag g.toNat = .c → s.me.steerFull = false := fun h => hfull (htag g h)
  rw [← takeTrap_eq_trapped]
  change execIllegalWord g s = _
  unfold execIllegalWord
  simp only [steerBlocked_eq_false hc]
  rfl

/-- Settles O56: the issue checks the field values before all but a full steering queue. -/
theorem illegalFields : Obligations.IllegalFields :=
  ⟨fun _ _ _ ht hi hfull => exec_reserved ht hi hfull, fun _ _ hfull => exec_illegalWord hfull, by decide⟩

end Sys2Proof.Words
end

section
/-! SUPPORT. Two statements that fail, each with the state that shows it: a K.FLAG that waits while its stack is overfull
(02 R31), and a write of register 352, which also starts an epoch (log entry 95). -/

namespace Sys2Proof.Words

open Sys2Proof.Machine Sys2Proof.Spec

/-- A copy of core 0 that was taken at cycle 1 and has the flag of its completion still to raise. -/
def flaggedCopy : Copy :=
  { geo := { sig := 64 }, convS := {}, convD := {}, sbase := 0, dbase := 0, cnt := 0, inc := 0, follow := none, place := 0, tpc := 0,
    reads := [], writes := [], pages := [], pins := [], tag := none, readAt := 0, taken := 1 }

/-- Core 0 has nine entries on K's stack, of cycle 1, in which the flag of `flaggedCopy` is due. -/
def overfullK : State :=
  { State.reset with
    cycle := 1
    cores := [(0, { eng := { k := { stack := List.replicate 9 0 } }, kop := { copies := [flaggedCopy] } })] }

/-- A K.FLAG in a cycle in which a flag of a copy is due waits, whatever its stack holds. -/
theorem exec_kFlag_of_flagDue {n : BitVec 6} {s : State} (h : s.flagDue = true) : exec (.kFlag n) s = .next s := by
  change execKFlag n s = _
  rw [execKFlag, if_pos h]

/-- Refutes O57: K's stack holds nine entries, but K.FLAG waits for the flag of a copy that is due in its cycle, and takes no
#STK (02 R31). -/
theorem not_stackTraps : ¬ Obligations.StackTraps := by
  intro h
  obtain ⟨hover, -⟩ := h overfullK
  have htrap := (hover (.kFlag 0) 4 .k (by decide) (by decide) (by decide) (by decide) (by decide) (by decide) (by decide)
    (by decide)).1 (.inl nofun)
  rw [exec_kFlag_of_flagDue (by decide)] at htrap
  have hat := congrArg (fun s : State => s.me.trapAt) (Host.Outcome.next.inj htrap)
  simp only [trapped, State.me_updMe] at hat
  exact absurd hat (by decide)

/-- At cycle 10 a write of 0 to DG_HOT_CTL, register 352, waits on die 0. -/
def hotControlWrite : State :=
  { State.reset with cycle := 10, regWrites := [{ cycle := 0, core := 0, group := 1, idx := 352, val := 0 }] }

/-- Refutes O10: the write of DG_HOT_CTL starts an epoch at its cycle (log entry 95); the statement's state keeps the die's old
epoch. -/
theorem not_postedRegisterWrites : ¬ Obligations.PostedRegisterWrites := by
  intro h
  obtain ⟨hplain, -⟩ := h hotControlWrite { cycle := 0, core := 0, group := 1, idx := 352, val := 0 }
  have hepoch := congrArg (fun s : State => (s.die 0).epochAt) (Host.Outcome.next.inj (hplain (by decide) (by decide) (by decide)))
  exact absurd hepoch (by decide)

end Sys2Proof.Words
end

section
/-! SUPPORT. How an engine moves on past a word, and C at the end of a loop (02 R35, R36; 04 R69, R84). -/

namespace Sys2Proof.Words

open Sys2Proof.Machine Sys2Proof.Spec

theorem within_eq_some {stop a len : Nat} (hge : a ≤ stop) (hlt : stop < a + len) : within (some stop) a len = some stop :=
  if_pos ⟨hge, hlt⟩

theorem loopStop_eq_some {k : Core} {e : LoopEntry} {es : List LoopEntry} (hl : k.ctl.loops = e :: es)
    (hd : e.depth = k.ctl.ret.length) : k.loopStop = some e.stop := by
  rw [Core.loopStop, hl]
  exact if_pos hd

theorem resolveLoop_again {stop : Nat} {e : LoopEntry} {es : List LoopEntry} (h : (e.iter + 1).toNat < e.count.toNat) :
    resolveLoop stop (e :: es) = (e.start, { e with iter := e.iter + 1 } :: es) := by
  rw [resolveLoop.eq_def]
  exact if_pos h

theorem resolveLoop_last {stop : Nat} {e : LoopEntry} {es : List LoopEntry} (h : e.count.toNat ≤ (e.iter + 1).toNat)
    (hshared : ∀ f fs, es = f :: fs → ¬ (f.stop = e.stop ∧ f.depth = e.depth)) : resolveLoop stop (e :: es) = (stop + 1, es) := by
  rw [resolveLoop.eq_def]
  simp only [if_neg (Nat.not_lt.2 h)]
  cases es with
  | nil => rfl
  | cons f fs => exact if_neg (hshared f fs rfl)

/-- The outcome of C's word waits at every other active engine. -/
theorem steer_giveOutcome (k : Core) (o : Steer) {u : Engine} (hu : u ≠ .c) (ha : (k.en u).active = true) :
    ((k.giveOutcome o).en u).steer = (k.en u).steer ++ [o] := by
  have hen : (k.giveOutcome o).en u = if u ≠ .c ∧ (k.en u).active then { k.en u with steer := (k.en u).steer ++ [o] } else k.en u := by
    cases u <;> rfl
  rw [hen, if_pos ⟨hu, ha⟩]

section
variable {k : Core} {len n cycle : Nat}

theorem advance_past {t : Engine} (h : within (if t = .c then k.loopStop else k.expectStop t) (k.en t).pc len = none) :
    k.advance t len n cycle = k.updEn t fun x => { x with
      pc := x.pc + len, progress := x.progress + len, nextIssue := cycle + n, fromWin := x.pc / 32 + 1 } := by
  cases t <;> (simp only [reduceCtorEq, if_true, if_false] at h; simp only [Core.advance, h]; rfl)

/-- At the end word of C's loop, the loop entries decide where C goes on (04 R84). -/
theorem advance_loopEnd {e : LoopEntry} {es : List LoopEntry} (hl : k.ctl.loops = e :: es) (hd : e.depth = k.ctl.ret.length)
    (hge : (k.en .c).pc ≤ e.stop) (hlt : e.stop < (k.en .c).pc + len) :
    k.advance .c len n cycle =
      Core.steerTo { k with ctl := { k.ctl with loops := (resolveLoop e.stop (e :: es)).2 } } e.stop len
        (resolveLoop e.stop (e :: es)).1 true cycle n := by
  simp only [Core.advance, loopStop_eq_some hl hd, within_eq_some hge hlt, hl]

theorem steerTo_loopEnd (addr target : Nat) :
    ((k.steerTo addr len target true cycle n).en .c).pc = target ∧ (k.steerTo addr len target true cycle n).ctl = k.ctl ∧
      ∀ u, u ≠ .c → (k.en u).active = true → ((k.steerTo addr len target true cycle n).en u).steer =
        (k.en u).steer ++ [{ addr := addr, loopEnd := true, target := target, notBefore := cycle + 1 }] := by
  refine ⟨by simp [Core.steerTo], by simp [Core.steerTo, Core.giveOutcome], fun u hu ha => ?_⟩
  simp only [Core.steerTo, Core.en_updEn_other _ _ hu]
  exact steer_giveOutcome k _ hu ha

end

/-- Settles O58: C's loop entries decide the outcome at the end word. -/
theorem enginesMoveOn : Obligations.EnginesMoveOn := by
  intro k t len n cycle
  refine ⟨advance_past, fun e es _ hl hd hge hlt hmore => ?_, fun e es _ hl hd hge hlt hlast hshared => ?_⟩
  · rw [advance_loopEnd hl hd hge hlt, resolveLoop_again hmore]
    obtain ⟨hpc, hctl, hsteer⟩ := steerTo_loopEnd (k := { k with ctl := { k.ctl with loops := { e with iter := e.iter + 1 } :: es } })
      (len := len) (n := n) (cycle := cycle) e.stop e.start
    exact ⟨hpc, by rw [hctl], hsteer⟩
  · rw [advance_loopEnd hl hd hge hlt, resolveLoop_last hlast hshared]
    obtain ⟨hpc, hctl, -⟩ := steerTo_loopEnd (k := { k with ctl := { k.ctl with loops := es } })
      (len := len) (n := n) (cycle := cycle) e.stop (e.stop + 1)
    exact ⟨hpc, by rw [hctl]⟩

end Sys2Proof.Words
end

section
/-! SUPPORT. What an engine's turn at a word comes to, and a step by the schedule's item (02 R28-R30, R33-R38; 04 R87). -/

namespace Sys2Proof.Words

open Sys2Proof.Machine Sys2Proof.Spec

/-! ## A step by the item it takes -/

section
variable {s s2 : State} {k : Nat}

theorem step_turn {t : Engine} {i : Instr} {m : State} (hk : k < 4096) (h : s.takeItem = (.turn k t, s2))
    (hrun : State.turnOf { s2 with actor := k } t = .run i m) : step s = exec i m := by
  simp only [step, h, Nat.not_le.2 hk, if_false, hrun]

theorem step_happen {i : Instr} (hk : k < 4096) (h : s.takeItem = (.happen k i, s2)) (hi : isEvent i = true) :
    step s = exec i { s2 with actor := k } := by
  simp only [step, h, Nat.not_le.2 hk, if_false, hi, if_true]

theorem step_tick (h : s.takeItem = (.tick, s2)) : step s = .next (if s2.mayTick then s2.passCycle else s2) := by
  simp only [step, h]

end

theorem isEvent_of_encodeNat {i : Instr} (h : encodeNat i = none) (hi : ∀ g, i ≠ .illegalWord g) : isEvent i = true := by
  unfold isEvent
  rw [h]
  cases i with
  | illegalWord g => exact absurd rfl (hi g)
  | _ => rfl

/-- The turn runs what the engine runs, where M has no follow-on start in the way. -/
theorem turnOf_run {s m : State} {t : Engine} {i : Instr} (h : engineTurn s t = .run i m)
    (hm : t = .m → m.me.followTakes m.cycle = false) : State.turnOf s t = .run i m := by
  simp only [State.turnOf, h]
  refine if_neg ?_
  rw [Bool.and_eq_true, decide_eq_true_eq]
  rintro ⟨rfl, hf⟩
  rw [hm rfl] at hf
  exact Bool.false_ne_true hf

/-! ## The fetch of a word -/

section
variable {s : State} {t : Engine} {a : Nat} {ws : List Half} {stag : Bool}

/-- An engine with no report for it, at words that stand in its text, issues what they decode to (02 R28). -/
theorem fetchAct_ok {i : Instr} (hr : s.me.reportAt t stag = none) (hw : s.me.text.words a (s.me.text.lenAt a) = some ws)
    (hd : decode ws = .ok i) (hsign : s.me.signWait s.cycle = false ∨ i = .sLeg) : fetchAct s t a stag = .run i s := by
  have hsigned : (s.me.signWait s.cycle && decide (i ≠ .sLeg)) = false := by
    obtain h | h := hsign <;> simp [h]
  simp only [fetchAct, hr, ite_self, hw, hd, hsigned]
  rfl

theorem fetchAct_error {e : Reject} (hr : s.me.reportAt t stag = none) (hw : s.me.text.words a (s.me.text.lenAt a) = some ws)
    (hd : decode ws = .error e) : fetchAct s t a stag = .run (.illegalWord (if stag then 7 else BitVec.ofNat 3 t.tag)) s := by
  simp only [fetchAct, hr, ite_self, hw, hd]

/-- Moving an engine on leaves the reports, the text and the leg: at its new address it fetches as its core did. -/
theorem fetchAct_moved (hr : s.me.reportAt t stag = none) (hw : s.me.text.words a (s.me.text.lenAt a) = some ws) :
    (∀ i, decode ws = .ok i → (s.me.signWait s.cycle = false ∨ i = .sLeg) →
      fetchAct (s.setMe (s.me.moveTo t a)) t a stag = .run i (s.setMe (s.me.moveTo t a))) ∧
    (∀ e, decode ws = .error e → fetchAct (s.setMe (s.me.moveTo t a)) t a stag =
      .run (.illegalWord (if stag then 7 else BitVec.ofNat 3 t.tag)) (s.setMe (s.me.moveTo t a))) := by
  have hme : (s.setMe (s.me.moveTo t a)).me = s.me.moveTo t a := State.me_setMe _ _
  refine ⟨fun i hd hsign => fetchAct_ok ?_ ?_ hd ?_, fun e hd => fetchAct_error ?_ ?_ hd⟩ <;> rw [hme]
  · exact hr
  · exact hw
  · exact hsign
  · exact hr
  · exact hw

end

/-! ## An engine at a word -/

/-- The engine may act at address `a`: it is the first of its core that is due, its slip limit lets it move there, and the text
window costs it nothing. -/
structure ActsAt (s : State) (t : Engine) (a : Nat) : Prop where
  running : s.me.run = .running
  awake : s.me.halted = false
  due : s.me.due t s.cycle = true
  first : ∀ u, u.tag < t.tag → s.me.due u s.cycle = false
  body : (s.me.en t).endWait = false
  reach : s.me.slips t ((s.me.en t).progress + (a - (s.me.en t).pc)) = false
  window : s.me.windowCost t a = 0

section
variable {s : State} {t : Engine} {a : Nat}

theorem ActsAt.guard (h : ActsAt s t a) :
    (decide (s.me.run ≠ .running) || s.me.halted || !s.me.due t s.cycle ||
      (allEngines.any fun u => decide (u.tag < t.tag) && s.me.due u s.cycle)) = false := by
  simp only [h.running, h.awake, h.due, Bool.or_eq_false_iff, List.any_eq_false, Bool.and_eq_true, decide_eq_true_eq]
  refine ⟨by simp, fun u _ ⟨hu, hd⟩ => ?_⟩
  rw [h.first u hu] at hd
  exact Bool.false_ne_true hd

theorem engineTurn_own (h : ActsAt s t a) (hs : s.me.stand t = .own a) (hu : s.me.unsent t a = false)
    (hslip : s.me.slips t ((s.me.en t).progress + (a - (s.me.en t).pc) + s.me.text.lenAt a) = false) :
    engineTurn s t = fetchAct (s.setMe (s.me.moveTo t a)) t a false := by
  simp only [engineTurn, h.guard, h.body, hs, Stand.addr, h.reach, h.window, hslip, hu]
  simp

theorem engineTurn_sWord {p : Nat} (h : ActsAt s .c a) (hs : s.me.stand .c = .sWord a) (hp : (s.me.en .c).parked = some p) :
    engineTurn s .c = fetchAct (s.setMe (s.me.moveTo .c a)) .c a true := by
  simp only [engineTurn, h.guard, h.body, hs, Stand.addr, h.reach, h.window, hp]
  simp

theorem engineTurn_recv (h : ActsAt s t a) (hs : s.me.stand t = .recv a)
    (hslip : s.me.slips t ((s.me.en t).progress + (a - (s.me.en t).pc) + 1) = false) :
    engineTurn s t = .run (.recvHandoff t) (s.setMe (s.me.moveTo t a)) := by
  simp only [engineTurn, h.guard, h.body, hs, Stand.addr, h.reach, h.window, hslip]
  simp

end

/-- Settles O51: the turn comes to the fetch at the engine's address, and the fetch to the decoded instruction. -/
theorem stepRunsDecoded : Obligations.StepRunsDecoded := by
  intro s s2 k hk
  refine ⟨fun t a ws c m hitem hc hm hword hreach hwin hfollow => ?_, step_tick,
    fun i hitem henc hill => step_happen hk hitem (isEvent_of_encodeNat henc hill)⟩
  subst hc hm
  obtain ⟨hrun, hhalt, hdue, hfirst, hbody, hwords⟩ := hword
  have hacts : ActsAt { s2 with actor := k } t a := ⟨hrun, hhalt, hdue, hfirst, hbody, hreach, hwin⟩
  have hstep {i : Instr} (h : engineTurn { s2 with actor := k } t = .run i _) := step_turn hk hitem (turnOf_run h hfollow)
  refine ⟨fun hs hu hr hslip => ?_, fun p ht hs hp hr => ?_, fun hs hslip => hstep (engineTurn_recv hacts hs hslip)⟩
  · obtain ⟨hok, herr⟩ := fetchAct_moved (s := { s2 with actor := k }) hr hwords
    have hturn := engineTurn_own hacts hs hu hslip
    exact ⟨fun i hd hsign => hstep (hturn.trans (hok i hd hsign)), fun e hd => hstep (hturn.trans (herr e hd))⟩
  · subst ht
    obtain ⟨hok, herr⟩ := fetchAct_moved (s := { s2 with actor := k }) hr hwords
    have hturn := engineTurn_sWord hacts hs hp
    exact ⟨fun i hd hsign => hstep (hturn.trans (hok i hd hsign)), fun e hd => hstep (hturn.trans (herr e hd))⟩

end Sys2Proof.Words
end

section
/-! SUPPORT. Text rows, launch records, and the placing and the start of tasks (02 R39, R40; 18 R369-R374). -/

namespace Sys2Proof.Words

open Sys2Proof.Machine Sys2Proof.Spec

section
variable {s : State}

/-! ## Text rows -/

theorem ownerPlace_at {s1 : State} {die space n : Nat} {va : W64} {read write : Bool} {f : Place → State → Near} {p : Place}
    (h : ownerXlat s die space va read write = .at_ p s1) (hw : s1.waits p.die p.tier p.off n = false) :
    ownerPlace s die space va n read write f = f p s1 := by
  simp only [ownerPlace, h, hw]
  rfl

/-- The least word any engine stands at. -/
theorem foldl_min_eq {p low : Nat} {ps : List Nat} (hle : ∀ x ∈ p :: ps, low ≤ x) (hmem : low ∈ p :: ps) :
    ps.foldl min p = low := by
  have hmin : (p :: ps).min? = some low := List.min?_eq_some_iff.2 ⟨hmem, hle⟩
  exact Option.some.inj (List.min?_cons'.symm.trans hmin)

theorem exec_textRowFree {tail low : Nat} (hrun : s.me.run = .running) (htail : s.me.text.tail = some tail)
    (hle : ∀ t ∈ s.me.actives, low ≤ (s.me.en t).pc) (hlow : ∃ t ∈ s.me.actives, (s.me.en t).pc = low) (htl : tail ≤ low) :
    exec .textRowFree s = .next (s.updMe fun k => { k with text := { k.text with
      rows := k.text.rows.filter fun r =>
        !(decide (r.space = k.text.space) && decide (r.image = k.text.image) && decide (128 * (r.row + 1) ≤ low))
      freed := ((List.range (low / 128)) ++ k.text.freed).eraseDups } }) := by
  have hmem : low ∈ s.me.actives.map fun t => (s.me.en t).pc := List.mem_map.2 hlow
  have hall : ∀ x ∈ s.me.actives.map fun t => (s.me.en t).pc, low ≤ x := List.forall_mem_map.2 hle
  change execTextRowFree s = _
  unfold execTextRowFree
  simp only [htail]
  cases hpcs : s.me.actives.map fun t => (s.me.en t).pc with
  | nil => rw [hpcs] at hmem; cases hmem
  | cons p ps =>
    rw [hpcs] at hmem hall
    simp only [foldl_min_eq hall hmem]
    exact if_neg (by simp [hrun, htl])

/-! ## Placing -/

/-- No ready task comes before the first. -/
theorem first_ready {x : Nat × Nat} {xs : List (Nat × Nat)} (h : xs.head? = some x) :
    xs.contains x = true ∧ xs.takeWhile (· != x) = [] := by
  obtain ⟨ys, rfl⟩ := List.head?_eq_some_iff.1 h
  simp

/-! ## The start of tasks -/

theorem canStart_of {c at_ : Nat} {t : TaskRef} {r : TaskRec} (hrun : (s.core c).run = .starting at_) (hat : at_ ≤ s.cycle)
    (ht : (s.core c).task = some t) (hr : s.recordOf t = some r) (htext : (s.core c).text.startable r.entry = true)
    (hhalt : (s.die (c / 512)).halted = false) : s.canStart c = true := by
  simp [State.canStart, hrun, ht, hat, hr, htext, hhalt]

theorem exec_taskStart (h : ∀ c ∈ s.startSet, ∃ (at_ : Nat) (t : TaskRef) (r : TaskRec), (s.core c).run = .starting at_ ∧
    at_ ≤ s.cycle ∧ (s.core c).task = some t ∧ s.recordOf t = some r ∧ (s.core c).text.startable r.entry = true ∧
    (s.die (c / 512)).halted = false) : exec .taskStart s = .next (s.startSet.foldl State.startOn s) := by
  change execTaskStart s = _
  refine if_pos (List.all_eq_true.2 fun c hc => ?_)
  obtain ⟨at_, t, r, hrun, hat, ht, hr, htext, hhalt⟩ := h c hc
  exact canStart_of hrun hat ht hr htext hhalt

theorem startOn_eq {c : Nat} {t : TaskRef} {r : TaskRec} (ht : (s.core c).task = some t) (hr : s.recordOf t = some r) :
    s.startOn c = s.updCore c fun k => k.begin r.entry r.arg0 r.arg1 s.cycle := by
  simp only [State.startOn, ht, Option.bind_some, hr]

theorem timedReady_iff {l : Launch} {t0 i : Nat} : s.timedReady l t0 i = true ↔ ∀ x ∈ l.startsWith i,
    ((t0 + x.2.start ≤ s.cycle ∧ l.st x.1 = .waiting) ∧ s.idle x.2.core = true) ∧
      ((s.core x.2.core).text.turn l).startable x.2.entry = true ∧ (s.die (x.2.core / 512)).halted = false := by
  simp [State.timedReady, and_assoc]

/-- A timed start that is due is of a launch of the die whose start time is fixed, and its tasks are ready (18 R373). -/
theorem timedDue_ready {l : Launch} {t0 : Nat} {xs : List (Nat × TaskRec)} (h : s.timedDue = some (l, t0, xs)) :
    l ∈ (s.die s.myDie).launches ∧ l.t0 = some t0 ∧ ∃ i, xs = l.startsWith i ∧ s.timedReady l t0 i = true := by
  obtain ⟨l', hl', hsome⟩ := List.exists_of_findSome?_eq_some h
  obtain ⟨t, ht, hfind⟩ := Option.bind_eq_some_iff.1 hsome
  obtain ⟨i, hi, heq⟩ := Option.map_eq_some_iff.1 hfind
  cases heq
  refine ⟨hl', ht, i, rfl, ?_⟩
  have hpred := List.find?_some hi
  rw [Bool.and_eq_true] at hpred
  exact hpred.1

end

/-- Settles O48: each event by the lemma of its conditions. -/
theorem launchAndStart : Obligations.LaunchAndStart := by
  intro s d hd
  subst hd
  refine ⟨fun row q p s1 s2 bs hq hp hw hr => ?_, fun tail low hrun htail _ hle hlow htl => exec_textRowFree hrun htail hle hlow htl,
    fun q rest id s1 s2 s3 h l l2 pins hq hid hreg hpow h1 h2 h3 h4 h5 => ?_, fun id i c l hready hreg hpow hl => ?_, exec_taskStart,
    fun u c t r ht hr => startOn_eq ht hr, fun l t0 xs h => ?_, fun u l t0 i r => ?_, fun l hnone hl => ?_⟩
  · change execTextRowFill row s = _
    simp only [execTextRowFill, hq]
    rw [ownerPlace_at hp hw]
    simp only [hr]
  · change execLaunchRecord s = _
    simp only [execLaunchRecord, hq, hid, hreg, h1, h2, h3, h4, h5]
    simp [Nat.not_le.2 hpow]
  · obtain ⟨hmem, hbefore⟩ := first_ready hready
    refine ⟨fun hpl hst => ?_, fun f left skip hpl hst => ?_, fun gd cs l2 lv g hpl hg => ?_⟩
    all_goals
      change execTaskPlace id i s = _
      simp only [execTaskPlace, hmem, hbefore, hreg, hl, hpl]
    · simp [hst, Nat.not_le.2 hpow]
    · simp [hst, Nat.not_le.2 hpow, frameTime]
    · simp [hg, Nat.not_le.2 hpow]
  · obtain ⟨hmem, ht0, i, rfl, hready⟩ := timedDue_ready h
    refine ⟨⟨hmem, ht0, fun x hx => ?_⟩, ?_⟩
    · obtain ⟨⟨⟨hcycle, hwaiting⟩, hidle⟩, htext, -⟩ := timedReady_iff.1 hready x hx
      exact ⟨hcycle, hwaiting, hidle, htext⟩
    · change execTimedTaskStart s = _
      simp only [execTimedTaskStart, h]
  · exact ⟨fun hu => by simp only [State.startTimed, hu], fun p hu => by simp only [State.startTimed, hu]; rfl⟩
  · change execTimedTaskStart s = _
    simp only [execTimedTaskStart, hnone, hl]
    rfl

end Sys2Proof.Words
end

section
/-! SUPPORT. The core of a word that has taken its operands, and updates of the matrix engine (04 R86). -/

namespace Sys2Proof.Words

open Sys2Proof.Machine Sys2Proof.Spec

/-- A core whose engine has received the values sent to it, with another stack. -/
def taking (k : Core) (t : Engine) (st : List W64) : Core := (k.deliver t).updEn t fun x => { x with stack := st }

theorem me_setStack_arrived (s : State) (t : Engine) (st : List W64) : ((arrived t s).setStack t st).me = taking s.me t st := by
  rw [State.setStack, State.me_updMe, arrived, State.me_updMe]
  rfl

section
variable (k : Core) (t u : Engine) (st : List W64)

/-- Every engine keeps all but its stack. -/
theorem en_taking : ∃ stk, (taking k t st).en u = { k.en u with stack := stk } := by
  by_cases h : u = t
  · subst h
    refine ⟨st, ?_⟩
    rw [taking, Core.en_updEn_same, Core.deliver, Core.en_updEn_same]
    rfl
  · refine ⟨(k.en u).stack, ?_⟩
    rw [taking, Core.en_updEn_other _ _ h, Core.deliver, Core.en_updEn_other _ _ h]
    rfl

theorem coming_taking (limit : Nat) : (taking k t st).coming u limit = k.coming u limit := by
  obtain ⟨stk, h⟩ := en_taking k t u st
  simp only [Core.coming, h]
  rfl

theorem here_taking : (taking k t st).here u = k.here u := by
  obtain ⟨stk, h⟩ := en_taking k t u st
  simp only [Core.here, h]
  rfl

theorem heldWord_taking : (taking k t st).heldWord u = k.heldWord u := by
  have hkeeps : ∀ u, ((taking k t st).en u).active = (k.en u).active ∧ ((taking k t st).en u).parked = (k.en u).parked ∧
      ((taking k t st).en u).lag = (k.en u).lag := fun u => by
    obtain ⟨stk, h⟩ := en_taking k t u st
    rw [h]
    exact ⟨rfl, rfl, rfl⟩
  simp only [Core.heldWord, Core.heldBack, Core.maxLag, Core.actives, hkeeps]
  rfl

theorem tileHeld_taking (tiles : List Nat) (cycle : Nat) : (taking k t st).tileHeld tiles cycle = k.tileHeld tiles cycle := by
  simp only [Core.tileHeld, Core.eReads, Core.wReads, coming_taking, here_taking]
  rfl

theorem followHolds_taking (tiles : List Nat) (plane : Bool) (cycle : Nat) :
    (taking k t st).followHolds tiles plane cycle = k.followHolds tiles plane cycle := by
  simp only [Core.followHolds, Core.followDue, Core.followNow, coming_taking, here_taking]
  rfl

end

/-! ## Updates of the matrix engine -/

theorem stickIf_mat (s : State) (b : Bool) (bit : Nat) : (s.stickIf b bit).me.mat = s.me.mat := by
  cases b
  · rfl
  · rw [State.stickIf, if_pos rfl, State.stick, State.me_updMe]
    rfl

/-- An update of the matrix engine by a value is one by any function that gives it. -/
theorem updMat_congr {s : State} {f g : Mat → Mat} (h : f s.me.mat = g s.me.mat) : s.updMat f = s.updMat g := by
  simp only [State.updMat, State.updMe, h]

end Sys2Proof.Words
end

section
/-! SUPPORT. The products of the array: numbers as bytes, what the rounding answers, elements of the accumulators, and
M.MMA and M.TMMA (03 R59, R62; 09 R202, R206-R210, R215). -/

namespace Sys2Proof.Words

open Sys2Proof.Machine Sys2Proof.Spec

/-! ## Numbers as bytes -/

theorem leNat_leBytes {v n : Nat} (h : v < 256 ^ n) : leNat (leBytes v n) = v := by
  induction n generalizing v with
  | zero =>
    rw [Nat.pow_zero] at h
    simp [leBytes, leNat, Nat.lt_one_iff.1 h]
  | succ n ih =>
    have hdiv : v / 256 < 256 ^ n := Nat.div_lt_of_lt_mul (by rwa [← Nat.pow_succ'])
    rw [leBytes, leNat, ih hdiv, BitVec.toNat_ofNat]
    omega

theorem leBytes_eq_map (v n : Nat) : leBytes v n = (List.range n).map fun q => BitVec.ofNat 8 (v / 256 ^ q) := by
  induction n generalizing v with
  | zero => rfl
  | succ n ih =>
    rw [leBytes, ih, List.range_succ_eq_map, List.map_cons, List.map_map]
    simp [Function.comp_def, Nat.div_div_eq_div_mul, Nat.pow_succ']

theorem getRun_eq_map {α : Type} (d : α) (m : SMap α) (k n : Nat) :
    SMap.getRun d m k n = (List.range n).map fun q => SMap.get d m (k + q) := by
  induction n generalizing k with
  | zero => rfl
  | succ n ih =>
    rw [SMap.getRun, ih, List.range_succ_eq_map, List.map_cons, List.map_map]
    simp [Function.comp_def, Nat.add_assoc, Nat.add_comm 1]

/-! ## Rounded bits fit their format (03 R53, R59) -/

theorem withSign_lt {f code : Nat} {neg : Bool} (hf : 0 < fmtBits f) (h : code < 2 ^ (fmtBits f - 1)) :
    withSign f neg code < 2 ^ fmtBits f := by
  have hpow : 2 ^ fmtBits f = 2 ^ (fmtBits f - 1) * 2 := (Nat.pow_pred_mul hf).symm
  cases neg <;> simp [withSign] <;> omega

theorem intBits_lt (f : Nat) (i : Int) : intBits f i < 2 ^ fmtBits f := by
  have hpos : (0 : Int) < 2 ^ fmtBits f := Int.pow_pos (by decide)
  rw [intBits, Int.toNat_lt (Int.emod_nonneg _ (Int.ne_of_gt hpos))]
  exact_mod_cast Int.emod_lt_of_pos i hpos

theorem saturate_lt (f : Nat) (i : Int) : (saturate f i).1 < 2 ^ fmtBits f := by
  unfold saturate
  split
  · exact intBits_lt f _
  split
  · exact intBits_lt f _
  · exact intBits_lt f _

/-- The codes that a floating format names lie below its sign bit. -/
theorem floatCodes_lt : ∀ f ≤ 5, 0 < fmtBits f ∧ maxCode f < 2 ^ (fmtBits f - 1) ∧ canonNan f < 2 ^ fmtBits f ∧
    (2 ^ expBits f - 1) * 2 ^ fracBits f < 2 ^ (fmtBits f - 1) := by
  decide

theorem round_float_lt {f : Nat} (hf : isFloat f = true) (v : Val) (m : Mode) : (round v f m).1 < 2 ^ fmtBits f := by
  obtain ⟨hbits, hmax, hnan, hinf⟩ := floatCodes_lt f (of_decide_eq_true hf)
  rw [Machine.round.eq_def, if_pos hf]
  cases v with
  | nan => exact hnan
  | inf neg =>
    dsimp only
    split
    · exact withSign_lt hbits hinf
    · exact withSign_lt hbits hmax
  | fin neg num den =>
    dsimp only
    split
    · split
      · split
        · exact withSign_lt hbits hinf
        · exact withSign_lt hbits hmax
      · exact withSign_lt hbits hmax
    · next hle => exact withSign_lt hbits (Nat.lt_of_le_of_lt (Nat.le_of_not_lt hle) hmax)

theorem round_lt (v : Val) (f : Nat) (m : Mode) : (round v f m).1 < 2 ^ fmtBits f := by
  by_cases hf : isFloat f = true
  · exact round_float_lt hf v m
  · rw [Machine.round.eq_def, if_neg hf]
    cases v with
    | nan => exact Nat.two_pow_pos _
    | inf neg => exact intBits_lt f _
    | fin neg num den => exact saturate_lt f _

/-! ## Elements of the accumulators (09 R202) -/

/-- Bytes of an element of a tile or a pair. -/
def elemBytes (pair : Bool) : Nat := if pair then 8 else 4

/-- Elements stand in the order of their linear index. -/
theorem accOff_eq (k : Nat) (pair : Bool) (r c : Nat) : accOff k pair r c = 1024 * k + (16 * r + c) * elemBytes pair := by
  cases pair
  · simp only [accOff, elemBytes, Bool.false_eq_true, if_false]; omega
  · simp only [accOff, elemBytes, if_true]; omega

theorem accBits_eq (m : Mat) (k : Nat) (pair : Bool) (r c : Nat) :
    accBits m k pair r c = leNat ((List.range (elemBytes pair)).map fun q => SMap.get 0 m.acc (accOff k pair r c + q)) := by
  cases pair <;> rfl

theorem accGet_eq_accBits (m : Mat) (k : Nat) (pair : Bool) (r c : Nat) : m.accGet k pair r c = accBits m k pair r c := by
  rw [accBits_eq, Mat.accGet, SMap.slice_eq, getRun_eq_map]
  rfl

section
variable {k : Nat} {pair : Bool} {m : Mat} {r c v : Nat}

theorem get_accPut (a : Nat) :
    SMap.get 0 (m.accPut k pair r c v).acc a =
      if accOff k pair r c ≤ a ∧ a < accOff k pair r c + elemBytes pair then BitVec.ofNat 8 (v / 256 ^ (a - accOff k pair r c))
      else SMap.get 0 m.acc a := by
  have hbytes : leBytes v (elemBytes pair) = (List.range (elemBytes pair)).map fun q => BitVec.ofNat 8 (v / 256 ^ q) :=
    leBytes_eq_map _ _
  change SMap.get 0 (SMap.setRun 0 m.acc (accOff k pair r c) (leBytes v (elemBytes pair))) a = _
  rw [SMap.get_setRun, hbytes, List.length_map, List.length_range]
  split
  · next h =>
    have hlt : a - accOff k pair r c < elemBytes pair := by omega
    simp [List.getD, hlt]
  · rfl

theorem accBits_accPut_same (h : v < 256 ^ elemBytes pair) : accBits (m.accPut k pair r c v) k pair r c = v := by
  rw [accBits_eq]
  conv => rhs; rw [← leNat_leBytes h, leBytes_eq_map]
  refine congrArg leNat (List.map_congr_left fun q hq => ?_)
  rw [get_accPut, if_pos ⟨Nat.le_add_right _ _, Nat.add_lt_add_left (List.mem_range.1 hq) _⟩, Nat.add_sub_cancel_left]

theorem accBits_accPut_other {r' c' : Nat} (hc : c < 16) (hc' : c' < 16) (hne : (r', c') ≠ (r, c)) :
    accBits (m.accPut k pair r c v) k pair r' c' = accBits m k pair r' c' := by
  have hidx : 16 * r' + c' ≠ 16 * r + c := fun h => hne (by ext <;> dsimp only <;> omega)
  rw [accBits_eq, accBits_eq]
  refine congrArg leNat (List.map_congr_left fun q hq => ?_)
  have hq := List.mem_range.1 hq
  rw [get_accPut, accOff_eq, accOff_eq, if_neg]
  cases pair <;> simp only [elemBytes, Bool.false_eq_true, if_false, if_true] at hq ⊢ <;> omega

theorem get_accPut_offTiles {b : Nat} (hr : r < 16) (hc : c < 16) (hb : offTiles (tilesOf pair k) b) :
    SMap.get 0 (m.accPut k pair r c v).acc b = SMap.get 0 m.acc b := by
  rw [get_accPut, accOff_eq, if_neg]
  cases pair <;> simp only [offTiles, tilesOf, elemBytes, Bool.false_eq_true, if_false, if_true, List.mem_cons, List.not_mem_nil,
    or_false, forall_eq_or_imp, forall_eq] at hb ⊢ <;> omega

end

/-! ## Elements written one after another -/

/-- The elements of some cells written in turn. -/
def putCells (k : Nat) (pair : Bool) (val : Nat × Nat → Nat) (cells : List (Nat × Nat)) (m : Mat) : Mat :=
  cells.foldl (fun m x => m.accPut k pair x.1 x.2 (val x)) m

section
variable {k : Nat} {pair : Bool} {val : Nat × Nat → Nat} {cells : List (Nat × Nat)}

/-- Only the accumulators change. -/
theorem putCells_eq (m : Mat) : putCells k pair val cells m = { m with acc := (putCells k pair val cells m).acc } := by
  induction cells generalizing m with
  | nil => rfl
  | cons x xs ih => exact ih (m.accPut k pair x.1 x.2 (val x))

theorem accBits_putCells {m : Mat} {y : Nat × Nat} (hval : ∀ x, val x < 256 ^ elemBytes pair) (hcells : ∀ x ∈ cells, x.2 < 16)
    (hy : y.2 < 16) :
    accBits (putCells k pair val cells m) k pair y.1 y.2 = if y ∈ cells then val y else accBits m k pair y.1 y.2 := by
  induction cells generalizing m with
  | nil => rfl
  | cons x xs ih =>
    rw [List.forall_mem_cons] at hcells
    change accBits (putCells k pair val xs (m.accPut k pair x.1 x.2 (val x))) k pair y.1 y.2 = _
    rw [ih hcells.2]
    by_cases hmem : y ∈ xs
    · rw [if_pos hmem, if_pos (List.mem_cons_of_mem x hmem)]
    rw [if_neg hmem]
    by_cases hyx : y = x
    · rw [hyx, accBits_accPut_same (hval x), if_pos List.mem_cons_self]
    · rw [accBits_accPut_other hcells.1 hy hyx, if_neg (List.not_mem_cons_of_ne_of_not_mem hyx hmem)]

theorem get_putCells_offTiles {m : Mat} {b : Nat} (hcells : ∀ x ∈ cells, x.1 < 16 ∧ x.2 < 16) (hb : offTiles (tilesOf pair k) b) :
    SMap.get 0 (putCells k pair val cells m).acc b = SMap.get 0 m.acc b := by
  induction cells generalizing m with
  | nil => rfl
  | cons x xs ih =>
    rw [List.forall_mem_cons] at hcells
    obtain ⟨⟨hr, hc⟩, hxs⟩ := hcells
    exact (ih hxs).trans (get_accPut_offTiles hr hc hb)

end

/-! ## The cells inside the masks (09 R208) -/

theorem bit_eq_testBit (n j : Nat) : (n / 2 ^ j % 2 == 1) = n.testBit j := by
  rw [Nat.testBit_eq_decide_div_mod_eq]
  rfl

theorem mem_maskedCells {rm cm : Nat} {x : Nat × Nat} :
    x ∈ maskedCells rm cm ↔ (x.1 < 16 ∧ x.2 < 16) ∧ (rm.testBit x.1 && cm.testBit x.2) = true := by
  obtain ⟨r, c⟩ := x
  simp only [maskedCells, List.mem_filter, List.mem_map, List.mem_range, bit_eq_testBit, Prod.mk.injEq]
  refine and_congr_left fun _ => ⟨fun ⟨j, hj, hr, hc⟩ => by omega, fun ⟨hr, hc⟩ => ⟨16 * r + c, by omega, by omega, by omega⟩⟩

theorem any_maskedCells (rm cm : Nat) (f : Nat × Nat → Bool) :
    (maskedCells rm cm).any f = (List.range 256).any fun j =>
      rm.testBit (j / 16) && cm.testBit (j % 16) && f (j / 16, j % 16) := by
  simp only [maskedCells, List.any_filter, List.any_map, Function.comp_def, bit_eq_testBit]

/-! ## The product (03 R62; 09 R208, R209) -/

theorem foldl_pair_or {α β : Type} (f : α → β → α) (g : β → Bool) (xs : List β) (a : α) (b : Bool) :
    xs.foldl (fun acc x => (f acc.1 x, acc.2 || g x)) (a, b) = (xs.foldl f a, b || xs.any g) := by
  induction xs generalizing a b with
  | nil => simp
  | cons x xs ih => simp [ih, Bool.or_assoc]

/-- The bits that a product writes to a cell. -/
def cellBits (x : Product) (p : Plane) (m : Mat) (k d : Nat) (bs : List Byte) (y : Nat × Nat) : Nat :=
  (productElem x p m k d bs y.1 y.2).1

/-- A product writes each cell inside the masks once, with its element. -/
theorem product_eq (h : Core) (k r c d : Nat) (x : Product) (bs : List Byte) (p : Plane) :
    h.product k x.pair x.acc r c x.depth (fun j => d.testBit (j / x.per)) (x.aval bs) p =
      (putCells k x.pair (cellBits x p h.mat k d bs) (maskedCells r c) h.mat,
        (List.range 256).any fun j => r.testBit (j / 16) && c.testBit (j % 16) &&
          (productElem x p h.mat k d bs (j / 16) (j % 16)).2) := by
  have hfold := foldl_pair_or (fun m y => m.accPut k x.pair y.1 y.2 (cellBits x p h.mat k d bs y))
    (fun y => (productElem x p h.mat k d bs y.1 y.2).2) (maskedCells r c) h.mat false
  rw [any_maskedCells, Bool.false_or] at hfold
  refine Eq.trans ?_ hfold
  simp only [Core.product, accGet_eq_accBits]
  rfl

/-! ## What M.MMA and M.TMMA multiply (09 R206, R209) -/

/-- The product of a form of the array, M.TMMA's or that of an M.MMA code, on an active plane. -/
def arrayProduct (tern : Bool) (code : Nat) (p : Plane) : Product :=
  let f := mmaForm code
  if tern then
    { pair := false, acc := 8, depth := 128, per := 4, slots := 4
      aval := fun bs r d => valueOf 6 (bs.getD (r * 128 + d) 0).toNat }
  else
    { pair := f.acc == 0, acc := f.acc, depth := f.depth (some p), per := 1, slots := if f.depth (some p) = f.sparse then 2 else 1
      aval := fun bs r d => valueOf f.fmt (leNat ((bs.drop ((r * f.depth (some p) + d) * fmtBytes f.fmt)).take (fmtBytes f.fmt))) }

/-- The active plane suits a form. -/
def planeSuits (tern : Bool) (code : Nat) (p : Plane) : Bool :=
  if tern then p.fmt == 13 else (mmaForm code).planes.contains p.fmt && (!p.sparse || (mmaForm code).sparse != 0)

/-- M.MMA's code 7 is reserved (09 R206). -/
theorem productOf_mMma {f k : BitVec 3} (p : Plane) (hf : f ≠ 7) :
    productOf (.mMma f k) p = if planeSuits false f.toNat p then some (arrayProduct false f.toNat p) else none := by
  have hcodes : ∀ f : BitVec 3, f ≠ 7 → f = 0 ∨ f = 1 ∨ f = 2 ∨ f = 3 ∨ f = 4 ∨ f = 5 ∨ f = 6 := by decide
  obtain ⟨fmt, sparse, data, md⟩ := p
  obtain rfl | rfl | rfl | rfl | rfl | rfl | rfl := hcodes f hf
  all_goals
    cases sparse <;> simp [productOf, arrayProduct, planeSuits, mmaForm, MmaForm.depth]

theorem productOf_mTmma (k : BitVec 3) (p : Plane) :
    productOf (.mTmma k) p = if planeSuits true 0 p then some (arrayProduct true 0 p) else none := by
  simp [productOf, arrayProduct, planeSuits]

theorem maskWidth_lt (tern : Bool) (code : Nat) (p : Plane) :
    (arrayProduct tern code p).depth / (arrayProduct tern code p).per < 64 := by
  have hdepth : (mmaForm code).dense < 64 ∧ (mmaForm code).sparse < 64 := by
    unfold mmaForm
    split <;> decide
  cases tern
  · change (mmaForm code).depth (some p) / 1 < 64
    rw [Nat.div_one, MmaForm.depth]
    split
    · exact hdepth.2
    · exact hdepth.1
  · change 128 / 4 < 64
    decide

theorem maskOf_of_maskIs {v : W64} {w r : Nat} (hw : w < 64) (h : maskIs v w r) : maskOf v w = some r := by
  obtain ⟨rfl, rfl⟩ | ⟨hv, rfl⟩ := h
  · rw [maskOf, if_pos rfl]
  · have hne : v ≠ BitVec.allOnes 64 := by
      rintro rfl
      have hpow : 2 ^ w ≤ 2 ^ 63 := Nat.pow_le_pow_right (by decide) (by omega)
      rw [BitVec.toNat_allOnes] at hv
      omega
    rw [maskOf, if_neg hne, if_pos hv]

/-- Claimed slots are all usable for reading (09 R199). -/
theorem badSlot_of_usable {s : State} {a n : Nat} (h : SlotsUsable s a n false) : s.me.badSlot a n false = none := by
  obtain ⟨-, hclaim⟩ := h
  rw [Core.badSlot, List.find?_eq_none]
  intro y hy
  obtain ⟨j, hj, rfl⟩ := List.mem_map.1 hy
  simp [(hclaim j (List.mem_range.1 hj)).1]

theorem mmaTiles_eq (tern : Bool) (code tile : Nat) (p : Plane) (hcode : code ≤ 6) :
    mmaTiles tern code tile = tilesOf (arrayProduct tern code p).pair tile := by
  cases tern
  · have hpair : ∀ code ≤ 6, ((mmaForm code).acc == 0) = decide (code = 6) := by decide
    change _ = tilesOf ((mmaForm code).acc == 0) tile
    rw [hpair code hcode]
    simp [mmaTiles, tilesOf]
  · simp [mmaTiles, tilesOf, arrayProduct]

theorem mmaSlots_eq {h : Core} {p : Plane} (tern : Bool) (code : Nat) (hact : h.mat.active = some p) :
    h.mmaSlots tern code = (arrayProduct tern code p).slots := by
  rw [Core.mmaSlots, hact]
  cases tern <;> rfl

/-- Where the checks hold, the operands come to the product (09 R206-R209). -/
theorem mma_eq_product {h : Core} {tern : Bool} {code tile r c d : Nat} {p : Plane} {x : Product} {a rm cm dm : W64}
    (hx : x = arrayProduct tern code p) (hsuits : planeSuits tern code p = true) (hact : h.mat.active = some p)
    (hr : maskIs rm 16 r) (hc : maskIs cm 16 c) (hd : maskIs dm (x.depth / x.per) d) (hroom : a.toNat + x.slots ≤ 256)
    (hslots : h.badSlot a.toNat x.slots false = none) :
    h.mma tern code tile a rm cm dm = .ok (h.product tile x.pair x.acc r c x.depth (fun j => d.testBit (j / x.per))
      (x.aval (h.slotBytes a.toNat x.slots)) p) := by
  have hrow := maskOf_of_maskIs (by decide) hr
  have hcol := maskOf_of_maskIs (by decide) hc
  have hdep := maskOf_of_maskIs (hx ▸ maskWidth_lt tern code p) hd
  have hroom : ¬ 256 < a.toNat + x.slots := Nat.not_lt.2 hroom
  subst hx
  cases tern
  · have hdep : maskOf dm ((mmaForm code).depth (some p)) = some d := by simpa [arrayProduct] using hdep
    simp only [arrayProduct, Bool.false_eq_true, if_false] at hroom hslots
    simp only [planeSuits, Bool.false_eq_true, if_false] at hsuits
    simp only [Core.mma, hact, hrow, hcol, hdep, hroom, hslots, hsuits, arrayProduct, Bool.false_eq_true, if_false, bit_eq_testBit,
      Nat.div_one, Bool.not_true]
  · have hdep : maskOf dm 32 = some d := by simpa [arrayProduct] using hdep
    simp only [arrayProduct, if_true] at hroom hslots
    simp only [planeSuits, if_true] at hsuits
    simp only [Core.mma, hact, hrow, hcol, hdep, hroom, hslots, hsuits, arrayProduct, Bool.false_eq_true, if_false, if_true,
      bit_eq_testBit, Bool.not_true]

/-! ## M.MMA and M.TMMA -/

/-- A product whose operands stand and that nothing holds begins at its cycle (09 R208-R210, R215, R216). -/
theorem mma_completes {s : State} {i : Instr} {n code tile : Nat} {tern : Bool} {a rm cm dm : W64} {rest : List W64}
    {r : Mat × Bool} (hi : CanIssue .m i s) (htop : top .m s = dm :: cm :: rm :: a :: rest)
    (hmma : s.me.mma tern code tile a rm cm dm = .ok r) (hfree : TilesFree s (mmaTiles tern code tile))
    (hmade : laterTile s.me.mat.made (mmaTiles tern code tile) s.cycle = false)
    (hepi : s.me.epiDue a.toNat (s.me.mmaSlots tern code) = false) (hheld : s.me.heldWord .m = false) :
    issue .m i n (mmaBody tern code tile) s = .next (issued .m i n s
      ((((arrived .m s).setStack .m rest).stickIf r.2 0).updMat fun _ => r.1.began tern code tile s.cycle false)) := by
  obtain ⟨htiles, hfollow⟩ := hfree
  unfold issue mmaBody
  refine popping_completes (n := fun _ => n) hi (by simp [htop]) (by decide) ?_
  have hmma' : (taking s.me .m rest).mma tern code tile a rm cm dm = .ok r := hmma
  have hmade' : laterTile (taking s.me .m rest).mat.made (mmaTiles tern code tile) s.cycle = false := hmade
  have hepi' : (taking s.me .m rest).epiDue a.toNat ((taking s.me .m rest).mmaSlots tern code) = false := hepi
  have hcycle : (arrived .m s).cycle = s.cycle := rfl
  simp only [htop, List.take_succ_cons, List.take_zero, List.drop_succ_cons, List.drop_zero, List.getD_cons_succ,
    List.getD_cons_zero, me_setStack_arrived, State.setStack_cycle, hcycle, hmma', hmade', hepi', followHolds_taking,
    tileHeld_taking, heldWord_taking, hfollow, htiles, hheld, Bool.or_false, Bool.false_eq_true, if_false]

/-- The form of M.MMA's code, or M.TMMA's, decides the word's occupancy and body (09 R206, R209). -/
theorem exec_productWord {i : Instr} {k n : Nat} {p : Plane} {x : Product} {s : State} (hw : productWord i = some (k, n))
    (hx : productOf i p = some x) (hi : legalFields i = true) :
    ∃ tern code, code ≤ 6 ∧ planeSuits tern code p = true ∧ x = arrayProduct tern code p ∧ n = mmaOcc tern code ∧
      exec i s = issue .m i n (mmaBody tern code k) s := by
  cases i
  case mMma f t =>
    have hf : f ≠ 7 := by
      rintro rfl
      simp [legalFields] at hi
    have hcodes : ∀ f : BitVec 3, f ≠ 7 → f.toNat ≤ 6 ∧
        (if f = 5 then 8 else if f = 6 then 16 else 4) = (mmaForm f.toNat).occ := by
      decide
    obtain ⟨hle, hocc⟩ := hcodes f hf
    simp only [productWord, Option.some.injEq, Prod.mk.injEq] at hw
    obtain ⟨rfl, rfl⟩ := hw
    simp only [productOf_mMma p hf, Option.ite_none_right_eq_some, Option.some.injEq] at hx
    obtain ⟨hsuits, rfl⟩ := hx
    refine ⟨false, f.toNat, hle, hsuits, rfl, hocc, ?_⟩
    rw [hocc]
    rfl
  case mTmma t =>
    simp only [productWord, Option.some.injEq, Prod.mk.injEq] at hw
    obtain ⟨rfl, rfl⟩ := hw
    simp only [productOf_mTmma, Option.ite_none_right_eq_some, Option.some.injEq] at hx
    obtain ⟨hsuits, rfl⟩ := hx
    exact ⟨true, 0, by decide, hsuits, rfl, rfl, rfl⟩
  all_goals exact absurd hw nofun

/-- The array rounds to FP64 for a pair, to FP32 or INT32 for a tile (09 R206, R209). -/
theorem arrayProduct_bits (tern : Bool) (code : Nat) (p : Plane) :
    2 ^ fmtBits (arrayProduct tern code p).acc = 256 ^ elemBytes (arrayProduct tern code p).pair := by
  cases tern
  · change 2 ^ fmtBits (mmaForm code).acc = 256 ^ elemBytes ((mmaForm code).acc == 0)
    unfold mmaForm
    split <;> rfl
  · rfl

/-- Settles O35: the checks pass, the word completes with the model's product, and the product writes each cell inside the
masks once, with a result that fits its element. -/
theorem matrixProducts : Obligations.MatrixProducts := by
  intro i k n p x s a rm cm dm rest r c d hw hact hx hi htop hr hc hd husable hepi hfree hmade hheld
  obtain ⟨tern, code, hcode, hsuits, hform, rfl, hexec⟩ := exec_productWord (s := s) hw hx hi.1
  have htiles : mmaTiles tern code k = tilesOf x.pair k := hform ▸ mmaTiles_eq tern code k p hcode
  have hslots : s.me.mmaSlots tern code = x.slots := hform ▸ mmaSlots_eq tern code hact
  have hmma := mma_eq_product hform hsuits hact hr hc hd husable.1 (badSlot_of_usable husable) (tile := k)
  rw [product_eq, putCells_eq] at hmma
  rw [← htiles] at hfree hmade
  have hdone := mma_completes (n := mmaOcc tern code) hi htop hmma hfree hmade (hslots ▸ hepi) hheld
  refine ⟨(putCells k x.pair (cellBits x p s.me.mat k d (s.me.slotBytes a.toNat x.slots)) (maskedCells r c) s.me.mat).acc,
    ?_, fun j hj => ?_, fun b hb => ?_⟩
  · rw [completes, hexec, hdone, ← htiles]
    refine congrArg (fun e => Host.Outcome.next (issued .m i _ s e)) (updMat_congr ?_)
    rw [stickIf_mat, me_setStack_arrived]
    rfl
  · have hval : ∀ y, cellBits x p s.me.mat k d (s.me.slotBytes a.toNat x.slots) y < 256 ^ elemBytes x.pair := by
      intro y
      rw [hform, ← arrayProduct_bits]
      exact round_lt _ _ _
    have hrow : j / 16 < 16 := by omega
    have hcol : j % 16 < 16 := by omega
    rw [← putCells_eq, accBits_putCells (y := (j / 16, j % 16)) hval (fun y hy => (mem_maskedCells.1 hy).1.2) hcol]
    simp only [mem_maskedCells, hrow, hcol, and_self, true_and]
    rfl
  · exact get_putCells_offTiles (fun y hy => (mem_maskedCells.1 hy).1) hb

end Sys2Proof.Words
end

section
/-! SUPPORT. The arithmetic, logic, shift, count, compare and min/max words of C (04 R72, R73, R75-R77). -/

namespace Sys2Proof.Words

open Sys2Proof.Machine Sys2Proof.Spec

/-! ## Shifts and rotation (04 R75) -/

theorem shiftOp_shl (a n : W64) : shiftOp 0 a n = a <<< n.toNat := by
  change (if 64 ≤ n.toNat then 0 else w64 (a.toNat * 2 ^ n.toNat)) = _
  split
  next h => rw [BitVec.shiftLeft_eq_zero h]; rfl
  next => exact BitVec.eq_of_toNat_eq (by simp [Nat.shiftLeft_eq])

theorem shiftOp_shr (a n : W64) : shiftOp 1 a n = a >>> n.toNat := by
  change (if 64 ≤ n.toNat then 0 else w64 (a.toNat / 2 ^ n.toNat)) = _
  split
  next h => rw [BitVec.ushiftRight_eq_zero h]; rfl
  next =>
    refine BitVec.eq_of_toNat_eq ?_
    have := Nat.lt_of_le_of_lt (Nat.div_le_self a.toNat (2 ^ n.toNat)) a.isLt
    simp [Nat.shiftRight_eq_div_pow, Nat.mod_eq_of_lt this]

/-- A shift by 63 or more leaves the sign alone. -/
theorem sshiftRight_min (a : W64) (n : Nat) : a.sshiftRight (min n 63) = a.sshiftRight n := by
  refine BitVec.eq_of_getElem_eq fun j hj => ?_
  rw [BitVec.getElem_sshiftRight, BitVec.getElem_sshiftRight]
  by_cases h : n ≤ 63
  · simp [Nat.min_eq_left h]
  · rw [dif_neg (show ¬ n + j < 64 by omega), Nat.min_eq_right (by omega)]
    split
    · obtain rfl : j = 0 := by omega
      rw [BitVec.msb_eq_getLsbD_last]
      rfl
    · rfl

theorem shiftOp_sar (a n : W64) : shiftOp 2 a n = a.sshiftRight n.toNat := by
  rw [← sshiftRight_min]
  change BitVec.ofInt 64 (Int.fdiv a.toInt (2 ^ min n.toNat 63)) = _
  rw [Int.fdiv_eq_ediv_of_nonneg _ (Int.pow_nonneg (by decide)), BitVec.sshiftRight, Int.shiftRight_eq_div_pow, Int.natCast_pow]
  rfl

/-- The rotation goes by the count's low six bits. -/
theorem shiftOp_rol (a n : W64) : shiftOp 3 a n = a.rotateLeft n.toNat := by
  change w64 (a.toNat * 2 ^ (n.toNat % 64) + a.toNat / 2 ^ (64 - n.toNat % 64)) = _
  have hr : n.toNat % 64 < 64 := Nat.mod_lt _ (by omega)
  rw [BitVec.rotateLeft_def]
  generalize n.toNat % 64 = r at hr
  have hlow : a.toNat / 2 ^ (64 - r) < 2 ^ r := by
    rw [Nat.div_lt_iff_lt_mul (Nat.two_pow_pos _), ← Nat.pow_add, show r + (64 - r) = 64 by omega]
    exact a.isLt
  rw [Nat.mul_comm, Nat.two_pow_add_eq_or_of_lt hlow, w64, BitVec.ofNat_or]
  have hleft : BitVec.ofNat 64 (2 ^ r * a.toNat) = a <<< r :=
    BitVec.eq_of_toNat_eq (by rw [BitVec.toNat_ofNat, BitVec.toNat_shiftLeft, Nat.shiftLeft_eq, Nat.mul_comm])
  have hright : BitVec.ofNat 64 (a.toNat / 2 ^ (64 - r)) = a >>> (64 - r) := by
    have hlt := Nat.lt_of_le_of_lt (Nat.div_le_self a.toNat (2 ^ (64 - r))) a.isLt
    refine BitVec.eq_of_toNat_eq ?_
    rw [BitVec.toNat_ofNat, BitVec.toNat_ushiftRight, Nat.shiftRight_eq_div_pow, Nat.mod_eq_of_lt hlt]
  rw [hleft, hright]

/-! ## Counts and byte reversal (04 R75) -/

theorem popCount_eq_countP (n v : Nat) : popCount v n = (List.range n).countP fun j => v.testBit j := by
  induction n generalizing v with
  | zero => rfl
  | succ n ih =>
    rw [popCount, ih, List.range_succ_eq_map, List.countP_cons, List.countP_map, Nat.add_comm]
    simp only [Function.comp_def, Nat.testBit_succ, Nat.testBit_zero, decide_eq_true_eq]
    have := Nat.mod_two_eq_zero_or_one v
    split <;> omega

theorem trailingZeros_eq_takeWhile (n v : Nat) :
    trailingZeros v n = ((List.range n).takeWhile fun j => !v.testBit j).length := by
  induction n generalizing v with
  | zero => rfl
  | succ n ih =>
    rw [trailingZeros, ih, List.range_succ_eq_map, List.takeWhile_cons, List.takeWhile_map]
    by_cases h : v % 2 = 1
    · simp [h, Nat.testBit_zero]
    · simp [h, Nat.testBit_zero, Function.comp_def, Nat.testBit_succ, Nat.add_comm]

/-- How far a test holds in a range. -/
theorem takeWhile_range {p : Nat → Bool} {k n : Nat} (hk : k ≤ n) (hlow : ∀ j < k, p j = true) (hat : k < n → p k = false) :
    (List.range n).takeWhile p = List.range k := by
  obtain ⟨m, rfl⟩ := Nat.exists_eq_add_of_le hk
  rw [List.range_add, List.takeWhile_append_of_pos (by simpa using hlow), List.takeWhile_map]
  cases m with
  | zero => simp
  | succ m => simp [List.range_succ_eq_map, hat (by omega)]

theorem leadingZeros_eq_takeWhile (v : W64) :
    leadingZeros v.toNat = ((List.range 64).takeWhile fun j => !v.getMsbD j).length := by
  unfold leadingZeros
  split
  next h =>
    obtain rfl : v = 0 := BitVec.eq_of_toNat_eq h
    rfl
  next h =>
    have hlog : v.toNat.log2 < 64 := (Nat.log2_lt h).2 v.isLt
    rw [takeWhile_range (k := 63 - v.toNat.log2) (by omega) (fun j hj => ?_) fun hlt => ?_, List.length_range]
    · have hbit : v.toNat.testBit (63 - j) = false :=
        Nat.testBit_lt_two_pow ((Nat.log2_lt h).1 (by omega))
      rw [BitVec.getMsbD_eq_getLsbD, BitVec.getLsbD, hbit, Bool.and_false]
      rfl
    · have hbit := Nat.testBit_log2 h
      rw [BitVec.getMsbD_eq_getLsbD, BitVec.getLsbD, show 64 - 1 - (63 - v.toNat.log2) = v.toNat.log2 by omega, hbit]
      simp [hlt]

theorem leNat_append (xs ys : List Byte) : leNat (xs ++ ys) = leNat xs + 256 ^ xs.length * leNat ys := by
  induction xs with
  | nil => simp [leNat]
  | cons x xs ih =>
    rw [List.cons_append, leNat, leNat, ih, List.length_cons, Nat.pow_succ, Nat.mul_comm (256 ^ xs.length) 256, Nat.mul_add,
      Nat.mul_assoc, Nat.add_assoc]

theorem swapBytes_eq (n v : Nat) : swapBytes v n = leNat (leBytes v n).reverse := by
  induction n generalizing v with
  | zero => rfl
  | succ n ih =>
    have hlen : (leBytes (v / 256) n).length = n := by simp [leBytes_eq_map]
    have hbyte : leNat [BitVec.ofNat 8 v] = v % 256 := rfl
    rw [swapBytes, ih, leBytes, List.reverse_cons, leNat_append, List.length_reverse, hlen, hbyte, Nat.add_comm, Nat.mul_comm]

/-! ## Minimum and maximum (04 R76) -/

theorem minMax_min (a b : W64) : minMax 0 a b = if a.toInt ≤ b.toInt then a else b := by
  change (if b.slt a then b else a) = _
  simp only [BitVec.slt_iff_toInt_lt, ← Int.not_lt, ite_not]

theorem minMax_max (a b : W64) : minMax 1 a b = if b.toInt ≤ a.toInt then a else b := by
  change (if a.slt b then b else a) = _
  simp only [BitVec.slt_iff_toInt_lt, ← Int.not_lt, ite_not]

theorem minMax_minu (a b : W64) : minMax 2 a b = if a.toNat ≤ b.toNat then a else b := by
  change (if b.ult a then b else a) = _
  simp only [BitVec.ult, decide_eq_true_eq, ← Nat.not_lt, ite_not]

theorem minMax_maxu (a b : W64) : minMax 3 a b = if b.toNat ≤ a.toNat then a else b := by
  change (if a.ult b then b else a) = _
  simp only [BitVec.ult, decide_eq_true_eq, ← Nat.not_lt, ite_not]

/-! ## The words that replace their operands -/

theorem mulHigh_eq (a b : W64) : mulHigh a b = BitVec.ofInt 64 (a.toInt * b.toInt / 2 ^ 64) := by
  rw [mulHigh, Int.fdiv_eq_ediv_of_nonneg _ (by decide)]

theorem bitOp_popc (a : W64) : bitOp 0 a = BitVec.ofNat 64 ((List.range 64).countP fun j => a.getLsbD j) :=
  congrArg w64 (popCount_eq_countP 64 a.toNat)

theorem bitOp_clz (a : W64) : bitOp 1 a = BitVec.ofNat 64 ((List.range 64).takeWhile fun j => !a.getMsbD j).length :=
  congrArg w64 (leadingZeros_eq_takeWhile a)

theorem bitOp_ctz (a : W64) : bitOp 2 a = BitVec.ofNat 64 ((List.range 64).takeWhile fun j => !a.getLsbD j).length :=
  congrArg w64 (trailingZeros_eq_takeWhile 64 a.toNat)

theorem bitOp_bswap (a : W64) : bitOp 3 a = BitVec.ofNat 64 (leNat (leBytes a.toNat 8).reverse) :=
  congrArg w64 (swapBytes_eq 8 a.toNat)

theorem twoBits_cases (o : BitVec 2) : o = 0 ∨ o = 1 ∨ o = 2 ∨ o = 3 := by decide +revert

theorem binC_congr {f g : W64 → W64 → W64} (h : ∀ a b, f a b = g a b) (i : Instr) (n : Nat) (s : State) :
    binC i n f s = binC i n g s := by
  rw [show f = g from funext fun a => funext (h a)]

theorem unC_congr {f g : W64 → W64} (h : ∀ a, f a = g a) (i : Instr) (n : Nat) (s : State) : unC i n f s = unC i n g s := by
  rw [show f = g from funext h]

/-- Each of these words pops an operand at least and pushes one value. -/
theorem pureForm_shape {i : Instr} {n p : Nat} {f : List W64 → List W64} (h : pureForm i = some (n, p, f)) :
    0 < p ∧ ∀ v, (f v).length = 1 := by
  unfold pureForm at h
  split at h <;> cases h <;> exact ⟨by decide, fun _ => rfl⟩

/-- Each of these words runs in the model as its form, with the result its rule gives. -/
theorem exec_of_pureForm {i : Instr} {n p : Nat} {f : List W64 → List W64} (h : pureForm i = some (n, p, f)) (s : State) :
    exec i s = pureC i n p f s := by
  cases i
  case cAdd | cSub | cAnd | cOr | cXor | cAddImm | cSubImm | cAndImm | cOrImm | cXorImm | cMul | cMulhu | cCmp =>
    cases h
    rfl
  case cMulh =>
    cases h
    exact binC_congr mulHigh_eq _ _ _
  case cShift o =>
    obtain rfl | rfl | rfl | rfl := twoBits_cases o <;> cases h
    · exact binC_congr shiftOp_shl _ _ _
    · exact binC_congr shiftOp_shr _ _ _
    · exact binC_congr shiftOp_sar _ _ _
    · exact binC_congr shiftOp_rol _ _ _
  case cBitop o =>
    obtain rfl | rfl | rfl | rfl := twoBits_cases o <;> cases h
    · exact unC_congr bitOp_popc _ _ _
    · exact unC_congr bitOp_clz _ _ _
    · exact unC_congr bitOp_ctz _ _ _
    · exact unC_congr bitOp_bswap _ _ _
  case cMinmax o =>
    obtain rfl | rfl | rfl | rfl := twoBits_cases o <;> cases h
    · exact binC_congr minMax_min _ _ _
    · exact binC_congr minMax_max _ _ _
    · exact binC_congr minMax_minu _ _ _
    · exact binC_congr minMax_maxu _ _ _
  all_goals exact absurd h nofun

/-- A word that replaces its operands by one value completes with it on top of the other entries (02 R31). -/
theorem pureC_completes {i : Instr} {n p : Nat} {f : List W64 → List W64} {s : State} (h : CanIssue .c i s)
    (hp : p ≤ (top .c s).length) (hpos : 0 < p) (hone : ∀ v, (f v).length = 1) :
    pureC i n p f s = .next (issued .c i n s ((arrived .c s).setStack .c (f ((top .c s).take p) ++ (top .c s).drop p))) := by
  unfold pureC issue
  refine popping_completes h hp (by rw [hone]; exact hpos) ?_
  obtain ⟨x, hx⟩ := List.length_eq_one_iff.1 (hone ((top .c s).take p))
  rw [pushing_setStack, hx]
  rfl

/-- Settles O1: the words run as one form, and each form's result is what its rule gives; the encodings over all of F6. -/
theorem controlArithmetic : Obligations.ControlArithmetic := by
  refine ⟨by decide +kernel, by decide +kernel, by decide +kernel, fun i n p f s hf h hp => ?_⟩
  obtain ⟨hpos, hone⟩ := pureForm_shape hf
  rw [exec_of_pureForm hf, pureC_completes h hp hpos hone]

end Sys2Proof.Words
end

section
/-! SUPPORT. Moves between C's stack, X, P and the loop counters, the select, and the division (04 R71, R74, R77-R79). -/

namespace Sys2Proof.Words

open Sys2Proof.Machine Sys2Proof.Spec

@[simp] theorem ctl_setStack (s : State) (t : Engine) (st : List W64) : (s.setStack t st).me.ctl = s.me.ctl := by
  simp [State.setStack]

theorem bne_eq_decide_ne {α : Type} [DecidableEq α] (a b : α) : (a != b) = decide (a ≠ b) := Bool.eq_iff_iff.2 (by simp)

section
variable {i : Instr} {s : State}

/-! ## Words that read or write C's registers (04 R71, R79) -/

/-- A word issues only where its engine's stack is within its depth (02 R31). -/
theorem length_top_of_canIssue {t : Engine} (h : CanIssue t i s) : (top t s).length ≤ 8 := by
  obtain ⟨-, -, -, -, hstack, -⟩ := h
  exact hstack

theorem stackFits_arrived {t : Engine} {p q : Nat} (hp : p ≤ (top t s).length) (hroom : (top t s).length - p + q ≤ 8) :
    stackFits ((arrived t s).stack t) p q = true := by
  rw [stackFits, stack_arrived, Bool.and_eq_true]
  exact ⟨decide_eq_true hp, decide_eq_true hroom⟩

/-- The operands of a word that finds them, and room for what it leaves (02 R31). -/
theorem popping_arrived {t : Engine} {p q : Nat} {body : List W64 → State → Res} (hp : p ≤ (top t s).length)
    (hroom : (top t s).length - p + q ≤ 8) :
    popping t p q body (arrived t s) = body ((top t s).take p) ((arrived t s).setStack t ((top t s).drop p)) :=
  popping_ok (stackFits_arrived hp hroom)

/-- The operand of a word that takes PS0 and leaves nothing. -/
theorem popping_one_arrived {t : Engine} {v : W64} {rest : List W64} {body : List W64 → State → Res} (h : CanIssue t i s)
    (hv : top t s = v :: rest) : popping t 1 0 body (arrived t s) = body [v] ((arrived t s).setStack t rest) := by
  rw [popping_arrived (by simp [hv]) (Nat.le_trans (Nat.sub_le _ _) (length_top_of_canIssue h)), hv]
  rfl

theorem getC_completes {f : Ctl → W64} (h : CanIssue .c i s) (hroom : (top .c s).length < 8) :
    getC i f s = .next (issued .c i 1 s ((arrived .c s).setStack .c (f (arrived .c s).me.ctl :: top .c s))) := by
  unfold getC issue
  refine issueN_completes h ?_
  rw [popping_arrived (Nat.zero_le _) (by omega), pushing_setStack, ctl_setStack]
  rfl

theorem putC_completes {f : W64 → Ctl → Ctl} {v : W64} {rest : List W64} (h : CanIssue .c i s) (hv : top .c s = v :: rest) :
    putC i f s = .next (issued .c i 1 s (((arrived .c s).setStack .c rest).updCtl (f v))) := by
  unfold putC issue
  exact popping_completes h (by simp [hv]) (Nat.zero_le 1) (by rw [hv]; rfl)

/-- What C.GET pushes is a function of C's registers alone. -/
theorem exec_of_getForm {r : Ctl} {x : W64} (h : getForm i r = some x) (s : State) :
    exec i s = getC i (fun c => (getForm i c).getD 0) s := by
  cases i
  case cGetX | cGetP | cGetPmask => rfl
  case cGetLidx k =>
    change execCGetLidx k s = _
    unfold execCGetLidx
    refine congrArg (fun f => getC (.cGetLidx k) f s) (funext fun c => ?_)
    simp only [getForm, Option.getD_some]
    cases c.loops[k.toNat]? <;> rfl
  all_goals exact absurd h nofun

theorem predCombine_eq (o : BitVec 2) (q t : Bool) :
    predCombine o q t = if o = 0 then q && t else if o = 1 then q || t else if o = 2 then xor q t else q && !t := by
  decide +revert

theorem predSet_eq (o : BitVec 2) (q : Bool) : predSet o q = if o = 0 then !q else o == 1 := by
  decide +revert

theorem exec_of_putForm {f : W64 → Ctl → Ctl} (h : putForm i = some f) (s : State) : exec i s = putC i f s := by
  cases i
  case cPutX | cPutPmask =>
    cases h
    rfl
  case cPutP n =>
    cases h
    change execCPutP n s = _
    unfold execCPutP
    refine congrArg (fun f => putC (.cPutP n) f s) (funext fun v => funext fun r => ?_)
    rw [bne_eq_decide_ne]
  case cPredCombine d o =>
    cases h
    change execCPredCombine d o s = _
    unfold execCPredCombine
    refine congrArg (fun f => putC (.cPredCombine d o) f s) (funext fun v => funext fun r => ?_)
    rw [predCombine_eq]
  all_goals exact absurd h nofun

theorem exec_cSetp {c n : BitVec 3} {a b : W64} {rest : List W64} (h : CanIssue .c (.cSetp c n) s)
    (ht : top .c s = b :: a :: rest) :
    completes .c (.cSetp c n) 1 s (((arrived .c s).setStack .c rest).updCtl
      fun r => { r with p := setPred r.p n.toNat (condHolds c a b) }) := by
  change execCSetp c n s = _
  unfold execCSetp issue
  exact popping_completes h (by simp [ht]) (by decide) (by rw [ht]; rfl)

theorem exec_cSel {n : BitVec 3} {a b : W64} {rest : List W64} (h : CanIssue .c (.cSel n) s) (ht : top .c s = b :: a :: rest) :
    completes .c (.cSel n) 1 s ((arrived .c s).setStack .c
      ((if (arrived .c s).me.ctl.p.getLsbD n.toNat then a else b) :: rest)) := by
  change execCSel n s = _
  unfold execCSel issue
  refine popping_completes h (by simp [ht]) (by decide) ?_
  rw [pushing_setStack, ctl_setStack, ht]
  rfl

theorem exec_cPredSet {d : BitVec 3} {o : BitVec 2} (h : CanIssue .c (.cPredSet d o) s) :
    completes .c (.cPredSet d o) 1 s ((arrived .c s).updCtl fun r =>
      { r with p := setPred r.p d.toNat (if o = 0 then !r.p.getLsbD d.toNat else o == 1) }) := by
  change execCPredSet d o s = _
  unfold execCPredSet issue
  refine issueN_completes h ?_
  simp only [predSet_eq]

/-! ## Division (04 R74) -/

theorem divide_eq (u : BitVec 1) (a b : W64) :
    divide (u == 1) a b = { quot := (quotRem u a b).1, rem := (quotRem u a b).2, zero := b == 0 } := by
  unfold divide quotRem
  by_cases hb : b = 0
  · subst hb
    rfl
  have hne : (b == 0) = false := beq_eq_false_iff_ne.2 hb
  by_cases hu : u = 1
  · subst hu
    simp only [if_neg hb, if_true, beq_self_eq_true, hne, w64, ← BitVec.toNat_udiv, ← BitVec.toNat_umod, BitVec.ofNat_toNat,
      BitVec.setWidth_eq]
  · simp only [if_neg hb, hu, beq_eq_false_iff_ne.2 hu, if_false, Bool.false_eq_true, hne]

theorem stack_stickIf (s : State) (b : Bool) (bit : Nat) (t : Engine) : (s.stickIf b bit).stack t = s.stack t := by
  unfold State.stickIf
  split
  · simp [State.stack, State.stick, Core.stick, Core.en]
  · rfl

/-- What a form of C.DIV pushes: the quotient below the remainder. -/
def divPushes (q m : Bool) (r : DivOut) : List W64 := (if q then [r.quot] else []) ++ if m then [r.rem] else []

theorem exec_of_divForm {u : BitVec 1} {q m : Bool} (h : divForm i = some (u, q, m)) (s : State) :
    exec i s = divC i u (divPushes q m) s := by
  cases i
  case cDiv | cRem | cDivrem =>
    cases h
    rfl
  all_goals exact absurd h nofun

theorem divC_completes {u : BitVec 1} {q m : Bool} {a b : W64} {rest : List W64} (h : CanIssue .c i s)
    (ht : top .c s = b :: a :: rest) :
    divC i u (divPushes q m) s = .next (issued .c i 36 s
      ((((arrived .c s).setStack .c rest).stickIf (b == 0) 2).setStack .c
        ((if m then [(quotRem u a b).2] else []) ++ (if q then [(quotRem u a b).1] else []) ++ rest))) := by
  have hlen : (divPushes q m ⟨0, 0, false⟩).length ≤ 2 := by cases q <;> cases m <;> decide
  have hrev : (divPushes q m (divide (u == 1) a b)).reverse =
      (if m then [(quotRem u a b).2] else []) ++ if q then [(quotRem u a b).1] else [] := by
    rw [divide_eq]
    cases q <;> cases m <;> rfl
  unfold divC issue
  refine popping_completes h (by simp [ht]) hlen ?_
  simp only [ht, List.take_succ_cons, List.take_zero, List.drop_succ_cons, List.drop_zero, List.getD_cons_zero, List.getD_cons_succ]
  rw [pushing, stack_stickIf, State.stack_setStack_same, hrev, divide_eq]

end

/-- Settles O3: each word by the lemma of its form. -/
theorem controlRegistersAndPredicates : Obligations.ControlRegistersAndPredicates := by
  intro s v rest
  refine ⟨fun i x hx h hroom => ?_, fun i f hf h hv => ?_, fun c n b h ht => exec_cSetp h ht, fun n b h ht => exec_cSel h ht,
    fun d o h => exec_cPredSet h⟩
  · rw [completes, exec_of_getForm hx, getC_completes h hroom, hx]
    rfl
  · rw [completes, exec_of_putForm hf, putC_completes h hv]

/-- Settles O4: the forms run as one division, whose results are what the rule gives; the encodings over all of F6. -/
theorem controlDivision : Obligations.ControlDivision := by
  refine ⟨by decide +kernel, fun i u q m s a b rest hf h ht => ?_⟩
  rw [completes, exec_of_divForm hf, divC_completes h ht]

end Sys2Proof.Words
end

section
/-! SUPPORT. Branches, calls, returns and loops of C (04 R70, R80-R85). -/

namespace Sys2Proof.Words

open Sys2Proof.Machine Sys2Proof.Spec

/-! ## What a word finds as it was -/

/-- A word that has taken its operands finds every engine as it was but for its stack. -/
theorem en_setStack (s : State) (t u : Engine) (st : List W64) :
    ∃ stk, (s.setStack t st).me.en u = { s.me.en u with stack := stk } := by
  rw [State.setStack, State.me_updMe]
  by_cases h : u = t
  · subst h
    exact ⟨st, Core.en_updEn_same _ _ _⟩
  · exact ⟨_, Core.en_updEn_other _ _ h⟩

/-- So does one to whose engine the values sent have come (04 R86). -/
theorem en_arrived (s : State) (t u : Engine) : ∃ stk, (arrived t s).me.en u = { s.me.en u with stack := stk } := by
  rw [arrived, State.me_updMe]
  by_cases h : u = t
  · subst h
    exact ⟨_, Core.en_updEn_same _ _ _⟩
  · exact ⟨_, Core.en_updEn_other _ _ h⟩

@[simp] theorem pc_setStack (s : State) (t u : Engine) (st : List W64) : ((s.setStack t st).me.en u).pc = (s.me.en u).pc := by
  obtain ⟨stk, h⟩ := en_setStack s t u st
  rw [h]

@[simp] theorem pc_arrived (s : State) (t u : Engine) : ((arrived t s).me.en u).pc = (s.me.en u).pc := by
  obtain ⟨stk, h⟩ := en_arrived s t u
  rw [h]

@[simp] theorem text_setStack (s : State) (t : Engine) (st : List W64) : (s.setStack t st).me.text = s.me.text := by
  simp [State.setStack]

@[simp] theorem text_arrived (s : State) (t : Engine) : (arrived t s).me.text = s.me.text := by
  simp [arrived, Core.deliver]

@[simp] theorem loops_arrived (s : State) (t : Engine) : (arrived t s).me.ctl.loops = s.me.ctl.loops := by
  simp [arrived, Core.deliver]

section
variable {i : Instr} {s : State}

/-! ## Steering words (04 R70, R80, R81) -/

theorem issueSteer_steered {body : State → Except Cause (State × Nat)} {e : State} {target : Nat}
    (hfull : s.me.steerFull = false) (hlegal : legalFields i = true) (hbody : body s = .ok (e, target)) :
    issueSteer i body s = .next (steered s i target e) := by
  simp only [issueSteer, hfull, hlegal, hbody, Bool.not_true, Bool.false_eq_true, if_false]
  rfl

theorem targetOf_of_inText {o : BitVec 13} {target : Nat} (h : inText s o = some target) : s.me.targetOf o = some target := h

/-- A branch that finds its entries continues at its target where its condition holds, else at the following word, and leaves the
loops that the address lies outside (04 R80, R85). -/
theorem branchC_steered {o : BitVec 13} {p target : Nat} {taken : State → Bool} (hfull : s.me.steerFull = false)
    (hlegal : legalFields i = true) (htext : inText s o = some target) (hp : p ≤ (s.stack .c).length) :
    branchC i o p taken s = .next (steered s i (if taken s then target else (s.me.en .c).pc + 2)
      ((s.setStack .c ((s.stack .c).drop p)).updCtl fun r =>
        { r with loops := leaveLoops r.ret.length (if taken s then target else (s.me.en .c).pc + 2) r.loops })) := by
  unfold branchC
  refine issueSteer_steered hfull hlegal ?_
  simp only [targetOf_of_inText htext, if_neg (Nat.not_lt.2 hp)]

/-- Whether a branch's condition holds in a state (04 R80). -/
def branchTaken (i : Instr) (u : State) : Bool := ((branchForm u i).map fun x => x.2.2).getD false

/-- The branch words run as one form, on their offset, pops and condition. -/
theorem exec_of_branchForm {o : BitVec 13} {p : Nat} {taken : Bool} (h : branchForm s i = some (o, p, taken)) :
    legalFields i = true ∧ branchTaken i s = taken ∧ exec i s = branchC i o p (branchTaken i) s := by
  cases i
  case cBr | cBrT | cBrF | cBrNz =>
    cases h
    exact ⟨rfl, rfl, rfl⟩
  all_goals exact absurd h nofun

theorem exec_cCall {o : BitVec 13} {target : Nat} (hfull : s.me.steerFull = false) (htext : inText s o = some target)
    (hroom : s.me.ctl.ret.length < 16) :
    exec (.cCall o) s = .next (steered s (.cCall o) target
      (s.updCtl fun r => { r with ret := (((s.me.en .c).pc + 2) % 2 ^ 14) :: r.ret })) := by
  change execCCall o s = _
  unfold execCCall
  refine issueSteer_steered hfull rfl ?_
  simp only [targetOf_of_inText htext, if_neg (Nat.not_le.2 hroom)]

theorem exec_cRet {a : Nat} {rest : List Nat} (hfull : s.me.steerFull = false) (hret : s.me.ctl.ret = a :: rest) :
    exec .cRet s = .next (steered s .cRet a
      (s.updCtl fun r => { r with ret := rest, loops := r.loops.filter fun e => e.depth ≠ rest.length + 1 })) := by
  change execCRet s = _
  unfold execCRet
  refine issueSteer_steered hfull rfl ?_
  simp only [hret, List.length_cons, bne_eq_decide_ne]

/-! ## Loops (04 R82, R83) -/

theorem loopBody_looped {o : BitVec 13} {count : W64} (hend : (s.me.en .c).pc + o.toNat < s.me.text.len)
    (hroom : o = 1 ∨ s.me.ctl.loops.length < 4) : loopBody o count s = .ok (looped o count s) := by
  unfold loopBody looped
  simp only [if_neg (Nat.not_le.2 hend)]
  split
  · rfl
  next ho => rw [if_neg (Nat.not_le.2 (hroom.resolve_left ho))]

theorem exec_cLoop {o : BitVec 13} {v : W64} {rest : List W64} (h : CanIssue .c (.cLoop o) s) (hv : top .c s = v :: rest)
    (hend : (s.me.en .c).pc + o.toNat < s.me.text.len) (hroom : o = 1 ∨ s.me.ctl.loops.length < 4) :
    completes .c (.cLoop o) 1 s (looped o v ((arrived .c s).setStack .c rest)) := by
  change execCLoop o s = _
  unfold execCLoop issue
  refine issueN_completes h ?_
  rw [if_neg (by simpa using hend), popping_one_arrived h hv]
  exact loopBody_looped (by simpa using hend) (by simpa using hroom)

theorem exec_cLoopCount {n : BitVec 6} {o : BitVec 13} (h : CanIssue .c (.cLoopCount n o) s)
    (hend : (s.me.en .c).pc + o.toNat < s.me.text.len) (hroom : o = 1 ∨ s.me.ctl.loops.length < 4) :
    completes .c (.cLoopCount n o) 1 s (looped o (n.setWidth 64) (arrived .c s)) := by
  change execCLoopCount n o s = _
  unfold execCLoopCount issue
  refine issueN_completes h ?_
  rw [w64, BitVec.ofNat_toNat]
  exact loopBody_looped (by simpa using hend) (by simpa using hroom)

end

theorem controlTransfer : ControlTransfer := by
  intro s hfull
  refine ⟨fun i o p taken target hform htext hp => ?_, fun o target htext hroom => exec_cCall hfull htext hroom,
    fun a rest hret => exec_cRet hfull hret⟩
  obtain ⟨hlegal, rfl, hexec⟩ := exec_of_branchForm hform
  rw [hexec, branchC_steered hfull hlegal htext hp]

/-- Settles O5: each word by the lemma of its form. -/
theorem controlTransferAndLoops : Obligations.ControlTransferAndLoops :=
  ⟨controlTransfer, fun _ _ hend hroom =>
    ⟨fun _ _ h hv => exec_cLoop h hv hend hroom, fun _ h => exec_cLoopCount h hend hroom⟩⟩

end Sys2Proof.Words
end

section
/-! SUPPORT. The parameter queues between C and the other engines (04 R86-R88). -/

namespace Sys2Proof.Words

open Sys2Proof.Machine Sys2Proof.Spec

@[simp] theorem place_setStack (s : State) (t u : Engine) (st : List W64) :
    ((s.setStack t st).me.en u).place = (s.me.en u).place := by
  obtain ⟨stk, h⟩ := en_setStack s t u st
  rw [h]
  rfl

@[simp] theorem place_arrived (s : State) (t u : Engine) : ((arrived t s).me.en u).place = (s.me.en u).place := by
  obtain ⟨stk, h⟩ := en_arrived s t u
  rw [h]
  rfl

@[simp] theorem active_arrived (s : State) (t u : Engine) : ((arrived t s).me.en u).active = (s.me.en u).active := by
  obtain ⟨stk, h⟩ := en_arrived s t u
  rw [h]

section
variable {s : State}

theorem exec_cSend {e : BitVec 3} {v : W64} {rest : List W64} (h : CanIssue .c (.cSend e) s) (hv : top .c s = v :: rest)
    (hroom : ((arrived .c s).me.ctl.outq.filter fun x => x.dest = Engine.ofTag e.toNat).length < 8) :
    completes .c (.cSend e) 1 s (((arrived .c s).setStack .c rest).updCtl fun r =>
      { r with outq := r.outq ++ [{ dest := Engine.ofTag e.toNat, val := v, place := (s.me.en .c).place }] }) := by
  change execCSend e s = _
  unfold execCSend issue
  refine popping_completes h (by simp [hv]) (Nat.zero_le 1) ?_
  simp only [ctl_setStack, place_setStack, place_arrived, if_neg (Nat.not_le.2 hroom), hv]
  rfl

theorem stack_updCtl (t : Engine) (f : Ctl → Ctl) : (s.updCtl f).stack t = s.stack t := by
  rw [State.stack, State.updCtl, State.me_updMe]
  rfl

/-- The oldest inbound entry of an engine is the first that names it (04 R87). -/
theorem find_inbound {t : Engine} {v : W64} {l r : List (Engine × W64)} (hl : ∀ x ∈ l, x.1 ≠ t) :
    (l ++ (t, v) :: r).find? (fun x => decide (x.1 = t)) = some (t, v) := by
  rw [List.find?_append, List.find?_eq_none.2 (by simpa using hl)]
  simp

theorem erase_inbound {t : Engine} {v : W64} {l r : List (Engine × W64)} (hl : ∀ x ∈ l, x.1 ≠ t) :
    (l ++ (t, v) :: r).erase (t, v) = l ++ r := by
  rw [List.erase_append_right _ fun hmem => hl _ hmem rfl, List.erase_cons_head]

theorem exec_cRecv {e : BitVec 3} {v : W64} {l r : List (Engine × W64)} (h : CanIssue .c (.cRecv e) s)
    (hroom : (top .c s).length < 8) (hact : (s.me.en (Engine.ofTag e.toNat)).active = true)
    (hinq : (arrived .c s).me.ctl.inq = l ++ (Engine.ofTag e.toNat, v) :: r) (hl : ∀ x ∈ l, x.1 ≠ Engine.ofTag e.toNat) :
    completes .c (.cRecv e) 1 s
      (((arrived .c s).updCtl fun c => { c with inq := l ++ r }).setStack .c (v :: top .c s)) := by
  have hfits : stackFits ((arrived .c s).stack .c) 0 1 = true := stackFits_arrived (Nat.zero_le _) (by omega)
  have hupd : ((arrived .c s).updCtl fun c => { c with inq := c.inq.erase (Engine.ofTag e.toNat, v) }) =
      (arrived .c s).updCtl fun c => { c with inq := l ++ r } := by
    simp only [State.updCtl, State.updMe, hinq, erase_inbound hl]
  change execCRecv e s = _
  unfold execCRecv issue
  refine issueN_completes h ?_
  simp only [active_arrived, hact, hfits, hinq, find_inbound hl, Bool.not_true, Bool.false_eq_true, if_false]
  rw [pushing, hupd, stack_updCtl, stack_arrived]
  rfl

/-! ## The handoff to C.RECV (04 R87) -/

/-- What the engine takes off its stack for C goes to C's inbound queue. -/
def handed (k : Core) (t : Engine) (v : W64) (rest : List W64) : Core :=
  { k with ctl := { k.ctl with inq := k.ctl.inq ++ [(t, v)] } }.updEn t fun x => { x with stack := rest }

theorem exec_recvHandoff {t : Engine} {v : W64} {rest : List W64} (hrun : s.me.run = .running) (hact : (s.me.en t).active = true)
    (hstand : s.me.stand t = .recv ((s.me.en t).pc - (s.me.en t).lead)) (hlead : (s.me.en t).lead ≤ (s.me.en t).pc)
    (hv : (s.me.en t).stack = v :: rest) (hroom : (s.me.ctl.inq.filter fun x => x.1 = t).length < 8)
    (hready : t = .e → SMap.get 0 s.me.vec.ready 17 ≤ s.cycle) :
    exec (.recvHandoff t) s = .next (s.setMe (if 0 < (s.me.en t).lead then
        (handed s.me t v rest).updEn t fun x => { x with lead := x.lead - 1 }
      else ((handed s.me t v rest).advance t 1 0 s.cycle).updEn t fun x =>
        { x with nextIssue := (s.me.en t).nextIssue, fromWin := (s.me.en t).fromWin })) := by
  have hstack : ¬ (t = .e ∧ s.cycle < SMap.get 0 s.me.vec.ready 17) := fun ⟨he, hlt⟩ => absurd hlt (Nat.not_lt.2 (hready he))
  change execRecvHandoff t s = _
  unfold execRecvHandoff
  simp only [hact, hstand, hv, if_neg (Nat.not_le.2 hroom), if_neg hstack, Core.en_updEn_same]
  rw [if_neg (by simp [hrun, Nat.sub_add_cancel hlead]), apply_ite s.setMe, apply_ite Host.Outcome.next]
  rfl

/-- Where the engine goes on does not depend on the handoff (02 R33; 04 R83). -/
theorem expectStop_handed (k : Core) {t : Engine} (v : W64) (rest : List W64) (ht : t ≠ .c) :
    (handed k t v rest).expectStop t = k.expectStop t := by
  cases t with
  | c => exact absurd rfl ht
  | _ => rfl

/-- A loop's end is not at the next word unless it is the word's own address. -/
theorem within_one_eq_none {stop : Option Nat} {a : Nat} (h : stop ≠ some a) : within stop a 1 = none := by
  cases stop with
  | none => rfl
  | some x => exact if_neg fun ⟨hge, hlt⟩ => h (congrArg some (by omega))

/-- An engine that has handed over its PS0 moves past the C.RECV, but for the end of a loop. -/
theorem advance_handed (k : Core) {t : Engine} (v : W64) (rest : List W64) (cycle : Nat) (ht : t ≠ .c)
    (hstop : k.expectStop t ≠ some (k.en t).pc) :
    ((handed k t v rest).advance t 1 0 cycle).updEn t (fun x =>
        { x with nextIssue := (k.en t).nextIssue, fromWin := (k.en t).fromWin }) =
      { k.updEn t fun x => { x with stack := rest, pc := x.pc + 1, progress := x.progress + 1 } with
        ctl := { k.ctl with inq := k.ctl.inq ++ [(t, v)] } } := by
  have hpc : ((handed k t v rest).en t).pc = (k.en t).pc := by rw [handed, Core.en_updEn_same]; rfl
  have hpast : within (if t = .c then (handed k t v rest).loopStop else (handed k t v rest).expectStop t)
      ((handed k t v rest).en t).pc 1 = none := by
    rw [if_neg ht, expectStop_handed k v rest ht, hpc]
    exact within_one_eq_none hstop
  rw [advance_past hpast, updEn_updEn, handed, updEn_updEn]
  cases t <;> rfl

end

/-- Settles O6: each word by the lemma of its form. -/
theorem controlSendReceive : Obligations.ControlSendReceive := by
  intro s
  refine ⟨fun e v rest h hv hroom => exec_cSend h hv hroom, fun e v l r h hroom hact hinq hl => exec_cRecv h hroom hact hinq hl,
    fun _ v rest he hrun hact hstand hlead hv hroom hready => ⟨fun hzero hstop => ?_, fun hpos => ?_⟩⟩
  · rw [exec_recvHandoff hrun hact hstand hlead hv hroom hready, if_neg (by omega), advance_handed _ _ _ _ he hstop]
    rfl
  · rw [exec_recvHandoff hrun hact hstand hlead hv hroom hready, if_pos hpos, handed, updEn_updEn]
    rfl

end Sys2Proof.Words
end

section
/-! SUPPORT. C.CSR, C.CSW and the CF registers (04 R90-R95). -/

namespace Sys2Proof.Words

open Sys2Proof.Machine Sys2Proof.Spec

section
variable {g : BitVec 6} {i : BitVec 13} {s : State} {v : W64} {rest : List W64}

theorem exec_cCsr (h : CanIssue .c (.cCsr g i) s) (hreg : readReg (arrived .c s) g.toNat i.toNat = some v)
    (hroom : (top .c s).length < 8) :
    completes .c (.cCsr g i) (regIssue g.toNat) s ((arrived .c s).setStack .c (v :: top .c s)) := by
  change execCCsr g i s = _
  unfold execCCsr issue
  refine issueN_completes h ?_
  simp only [hreg]
  rw [popping_arrived (Nat.zero_le _) (by omega), pushing_setStack]
  rfl

/-! ## C.CSW (04 R90-R92) -/

/-- A write of a CF register other than CF_SLIP is in effect at once. -/
theorem exec_cCsw_cf (h : CanIssue .c (.cCsw 0 i) s) (hv : top .c s = v :: rest)
    (hreg : (readReg (arrived .c s) (0 : BitVec 6).toNat i.toNat).isSome = true) (hi : i ≠ 8) :
    completes .c (.cCsw 0 i) 2 s (((arrived .c s).setStack .c rest).writeCf i.toNat v) := by
  have hslip : i.toNat ≠ 8 := fun h8 => hi (BitVec.eq_of_toNat_eq h8)
  obtain ⟨old, hold⟩ := Option.isSome_iff_exists.1 hreg
  change execCCsw 0 i s = _
  unfold execCCsw issue
  refine issueN_completes h ?_
  simp only [hold]
  rw [popping_one_arrived h hv, if_pos ⟨rfl, hslip⟩]
  rfl

/-- Any other write that is allowed is posted. -/
theorem exec_cCsw_posted (h : CanIssue .c (.cCsw g i) s) (hv : top .c s = v :: rest)
    (hreg : (readReg (arrived .c s) g.toNat i.toNat).isSome = true)
    (hallowed : (g = 0 ∧ i = 8) ∨ (g ≠ 0 ∧ s.me.sys = true ∧ (g = 1 → badDgWrite (s.die s.myDie) i.toNat v = false))) :
    completes .c (.cCsw g i) (regIssue g.toNat) s { (arrived .c s).setStack .c rest with
      regWrites := s.regWrites ++ [{ cycle := s.cycle, core := s.actor, group := g.toNat, idx := i.toNat, val := v }] } := by
  have hsys : ((arrived .c s).setStack .c rest).me.sys = s.me.sys := by simp [State.setStack, arrived, Core.deliver]
  obtain ⟨old, hold⟩ := Option.isSome_iff_exists.1 hreg
  have hcf : ¬ (g.toNat = 0 ∧ i.toNat ≠ 8) := by
    rintro ⟨hg, hi⟩
    obtain ⟨-, rfl⟩ | ⟨hne, -⟩ := hallowed
    · exact hi rfl
    · exact hne (BitVec.eq_of_toNat_eq hg)
  have hperm : ¬ (g.toNat ≠ 0 ∧ (!s.me.sys) = true) := by
    rintro ⟨hg, hno⟩
    obtain ⟨rfl, -⟩ | ⟨-, hyes, -⟩ := hallowed
    · exact hg rfl
    · simp [hyes] at hno
  have hgood : ¬ (g.toNat = 1 ∧ badDgWrite (s.die s.myDie) i.toNat v = true) := by
    rintro ⟨hg, hbad⟩
    obtain ⟨rfl, -⟩ | ⟨-, -, hok⟩ := hallowed
    · exact absurd hg (by decide)
    · simp [hok (BitVec.eq_of_toNat_eq hg)] at hbad
  change execCCsw g i s = _
  unfold execCCsw issue
  refine issueN_completes h ?_
  simp only [hold]
  rw [popping_one_arrived h hv, if_neg hcf, hsys, if_neg hperm]
  exact if_neg hgood

theorem writeCf_other (u : State) {n : Nat} (hn : n ≠ 2) (v : W64) :
    u.writeCf n v = u.updMe fun k => { k with cf := k.cf.write n v u.cycle } := if_neg hn

/-- Until an S word the other engines may see an earlier CF_MODE (04 R92; log entry 12). -/
theorem writeCf_mode (u : State) (v : W64) :
    u.writeCf 2 v = { u.updMe fun k => { k with
        cf := { k.cf.write 2 v u.cycle with older := k.cf.mode :: k.cf.older, draw := u.freeCount } } with
      freeCount := u.freeCount + 1 } := by
  rw [State.writeCf, if_pos rfl]
  simp only [updMe_updMe]
  rfl

end

/-! ## The CF registers (04 R94, R95) -/

theorem configurationRegisters : ConfigurationRegisters := by
  intro s g i v
  refine ⟨fun h hreg hroom => exec_cCsr h hreg hroom, fun rest h hv hreg => ⟨?_, ?_, fun hallowed =>
    exec_cCsw_posted h hv hreg hallowed⟩⟩
  · rintro rfl hmode hslip
    rw [completes, exec_cCsw_cf h hv hreg hslip, writeCf_other _ fun h2 => hmode (BitVec.eq_of_toNat_eq h2)]
    rfl
  · rintro rfl rfl
    rw [completes, exec_cCsw_cf h hv hreg (by decide)]
    exact congrArg (fun e => Host.Outcome.next (issued .c _ 2 s e)) (writeCf_mode _ v)

/-- A register past CF_SLIP is not assigned. -/
theorem readCf_past (s : State) {i : Nat} (hi : 9 ≤ i) : readCf s i = none := by
  obtain ⟨n, rfl⟩ := Nat.exists_eq_add_of_le' hi
  rfl

/-- A write of an index other than those of CF_MODE, CF_STATUS and CF_BREACH leaves every register as it was. -/
theorem write_eq_now (c : Cf) {i : Nat} (v : W64) (n : Nat) (h2 : i ≠ 2) (h3 : i ≠ 3) (h7 : i ≠ 7) :
    c.write i v n = c.now n := by
  unfold Cf.write
  split
  · exact absurd rfl h2
  · exact absurd rfl h3
  · exact absurd rfl h7
  · rfl

theorem controlRegisterReads : ControlRegisterReads := by
  refine ⟨fun s => ⟨rfl, rfl, rfl, rfl, rfl, rfl, rfl, rfl, rfl, fun i hi => readCf_past s hi⟩, fun c i v n h2 h3 h7 => ?_⟩
  rw [write_eq_now c v n h2 h3 h7, Cf.now]
  split <;> exact ⟨rfl, rfl, rfl, rfl, rfl, rfl, rfl⟩

/-- Settles O9: C.CSR and C.CSW by the lemmas of their forms, the CF registers by their reads and writes. -/
theorem configurationRegisterWords : Obligations.ConfigurationRegisterWords := ⟨configurationRegisters, controlRegisterReads⟩

end Sys2Proof.Words
end

section
/-! SUPPORT. What the package holds after reset (04 R94; 17 R422; 19 R396). -/

namespace Sys2Proof.Words

open Sys2Proof.Machine Sys2Proof.Spec

/-- Every die after reset holds zeros. -/
theorem byteAt_reset (d tier a : Nat) : (State.reset.die d).byteAt tier a = 0 := by
  unfold Die.byteAt
  split <;> rfl

/-- Settles O54: no core, die or register is listed after reset, so each reads as its default. -/
theorem resetState : Obligations.ResetState :=
  ⟨State.reset_memWf, rfl, fun _ => ⟨rfl, fun t => by cases t <;> exact ⟨rfl, rfl⟩⟩, byteAt_reset, fun _ => rfl, rfl⟩

end Sys2Proof.Words
end

section
/-! SUPPORT. C.LD of a line of the far cache that is shorter than a line (04 R89; 14 R293): the statement about C.LD and C.ST fails
there. -/

namespace Sys2Proof.Words

open Sys2Proof.Machine Sys2Proof.Spec

/-- The first address of die 1's memory. -/
def die1Start : W64 := BitVec.ofNat 64 (2 ^ 55)

/-- Core 0, on die 0, has the first address of die 1 on C's stack. Die 1 maps its first 2 MiB, and die 0 holds their token and, in its
far cache, the line at that address, of the one byte 0x80. -/
def shortLine : State :=
  { State.reset with
    cores := [(0, { eng := { c := { stack := [die1Start] } } })]
    dies := [(0, { farCache := [{ owner := 1, space := 0, line := 2 ^ 48, tier := 0, off := 0, klock := false, bytes := [0x80] }] }),
      (1, { tlb := [{ space := 0, base := 2 ^ 34, size := 3, leaf := 399 }]
            tokens := [{ space := 0, region := 2 ^ 34, excl := false, holders := [(0, 0)] }] })]
    pk := [(0, BitVec.ofNat 64 (2 ^ 63))] }

/-- Where that address lies. -/
def shortPlace : Place :=
  { die := 1, peer := none, tier := 0, off := 0, rd := true, w := true, x := false, ra := false, mt := 0, klock := false, size := 3 }

/-- The state once C's word has taken the address. -/
def shortTaken : State := (arrived .c shortLine).setStack .c []

/-- C's stack in the state a word comes to. -/
def stackAfter : Out → List W64
  | .next s => s.stack .c
  | _ => []

/-- What the statement asks of the load: the short line's byte, read as a value of two bytes. -/
def statedLoad : State :=
  issued .c (.cLd 0 1 1) 1 shortLine ((loaded .c shortTaken).setStack .c (extended true 2 [0x80] :: shortTaken.stack .c))

theorem locate_short : locate shortTaken die1Start 2 true false = .at_ shortPlace shortTaken := by decide +kernel

/-- The token lets the far cache serve the load, with the byte the line has. -/
theorem farRead_short : shortTaken.farRead shortTaken.actor (shortPlace.at_ die1Start) 2 0 = (shortTaken, some [0x80]) := by
  decide +kernel

theorem unhindered_short : Unhindered .c shortPlace die1Start 2 0 shortTaken := by
  delta Unhindered
  decide +kernel

/-- The model extends the sign of the one byte it got. -/
theorem stackAfter_short : stackAfter (exec (.cLd 0 1 1) shortLine) = [-128] := by decide +kernel

theorem stack_statedLoad : statedLoad.stack .c = [128] := by decide +kernel

/-- Refutes O7: the statement speaks of every state, also of one whose far cache holds a line of fewer than 128 bytes. A signed C.LD
of two bytes then gets one, 0x80, and extends that byte's sign, where the statement extends the sign of two bytes. -/
theorem not_controlLoadStore : ¬ Obligations.ControlLoadStore := by
  intro h
  obtain ⟨hload, -⟩ := h shortLine shortTaken 0 1 shortPlace die1Start (by decide)
  have hissue : CanIssue .c (.cLd 0 1 1) shortLine := by
    delta CanIssue
    decide +kernel
  have hexec : exec (.cLd 0 1 1) shortLine = .next statedLoad :=
    (hload 1 [] [0x80] shortTaken hissue (by decide +kernel) locate_short).1 unhindered_short farRead_short
  have hstack := congrArg stackAfter hexec
  rw [stackAfter_short, stackAfter, stack_statedLoad] at hstack
  exact absurd hstack (by decide)

end Sys2Proof.Words
end

section
/-! SUPPORT. S words from their issue to their effect, and the words that join, enter and leave a leg (02 R29, R31; 05 R107,
R111-R114). -/

namespace Sys2Proof.Words

open Sys2Proof.Machine Sys2Proof.Spec

/-! ## Issue of an S word -/

section
variable {i : Instr} {n : Nat} {s e : State}

/-- An S word that can issue and whose body has an effect completes with it. -/
theorem issueSN_completes {body : State → Res} (h : CanIssueS i s) (he : body s = .ok e) :
    issueSN i n body s = .next (issuedS i n s e) := by
  obtain ⟨hlegal, hsteer, -⟩ := h
  simp only [issueSN, hlegal, hsteer, he, Bool.not_true, Bool.false_eq_true, if_false]
  rfl

/-- The same of an S word that takes the entry on top of C's stack. -/
theorem issueS_popped {v : W64} {rest : List W64} {body : List W64 → State → Res} (h : CanIssueS i s)
    (hv : s.stack .c = v :: rest) (he : body [v] (s.setStack .c rest) = .ok e) :
    issueS i (popping .c 1 0 body) s = .next (issuedS i 1 s e) := by
  have ⟨_, _, hdepth⟩ := h
  rw [hv, List.length_cons] at hdepth
  have hfits : stackFits (s.stack .c) 1 0 = true := by
    rw [hv, stackFits, Bool.and_eq_true]
    exact ⟨decide_eq_true (by simp), decide_eq_true (by simp; omega)⟩
  exact issueSN_completes h (by rw [popping_ok hfits, hv]; exact he)

end

/-! ## Changes of a die and of the pins -/

/-- An update of a die is one by any function that gives the same die. -/
theorem updDie_congr {s : State} {d : Nat} {f g : Die → Die} (h : f (s.die d) = g (s.die d)) : s.updDie d f = s.updDie d g := by
  simp only [State.updDie, h]

theorem me_setStack (s : State) (t : Engine) (st : List W64) :
    (s.setStack t st).me = s.me.updEn t fun x => { x with stack := st } :=
  State.me_updMe _ _

@[simp] theorem leg_setStack (s : State) (t : Engine) (st : List W64) : (s.setStack t st).me.leg = s.me.leg := by
  rw [me_setStack, Core.updEn_leg]

@[simp] theorem space_setStack (s : State) (t : Engine) (st : List W64) : (s.setStack t st).me.space = s.me.space := by
  rw [me_setStack, Core.updEn_space]

/-- A stack is no part of the writes a core has under way. -/
@[simp] theorem drainedMe_setStack (s : State) (t : Engine) (st : List W64) : (s.setStack t st).drainedMe = s.drainedMe := by
  have hcore : (s.setStack t st).me.drained = s.me.drained := by
    rw [me_setStack]
    rfl
  rw [State.drainedMe, hcore]
  rfl

/-- A function of the state that each step of a fold keeps is as it was after the fold. -/
theorem foldl_keeps {α β : Type} {f : State → α → State} (p : State → β) (hf : ∀ s a, p (f s a) = p s) :
    ∀ (l : List α) (s : State), p (l.foldl f s) = p s
  | [], _ => rfl
  | a :: l, s => (foldl_keeps p hf l (f s a)).trans (hf s a)

@[simp] theorem tellPin_actor (s : State) (k : PageKey) (form : Nat) : (s.tellPin k form).actor = s.actor := by
  unfold State.tellPin
  split <;> rfl

@[simp] theorem tellPin_die (s : State) (k : PageKey) (form d : Nat) : (s.tellPin k form).die d = s.die d := by
  unfold State.tellPin
  split <;> rfl

@[simp] theorem unpinAll_actor (s : State) (ks : List PageKey) : (s.unpinAll ks).actor = s.actor := by
  refine foldl_keeps State.actor (fun s k => ?_) ks s
  split
  · exact tellPin_actor s k 2
  · rfl

@[simp] theorem unpinAll_myDie (s : State) (ks : List PageKey) : (s.unpinAll ks).myDie = s.myDie :=
  congrArg (· / 512) (unpinAll_actor s ks)

/-- Of a die, pins change the page-lock table alone (17 R348). -/
theorem die_unpinAll (s : State) (ks : List PageKey) (d : Nat) : ∃ l, (s.unpinAll ks).die d = { s.die d with locks := l } := by
  induction ks generalizing s with
  | nil => exact ⟨_, rfl⟩
  | cons k ks ih =>
    have hstep : ∃ l, (if 8 ≤ k.1 then s.tellPin k 2 else s.updDie k.1 fun d => d.unpin k.2.1 k.2.2.1 k.2.2.2).die d =
        { s.die d with locks := l } := by
      split
      · exact ⟨_, tellPin_die s k 2 d⟩
      · by_cases hd : d = k.1
        · subst hd
          exact ⟨_, State.die_updDie_same _ _ _⟩
        · exact ⟨_, State.die_setDie_other _ _ hd⟩
    obtain ⟨l, hl⟩ := hstep
    obtain ⟨l', hl'⟩ := ih (if 8 ≤ k.1 then s.tellPin k 2 else s.updDie k.1 fun d => d.unpin k.2.1 k.2.2.1 k.2.2.2)
    exact ⟨l', by rw [hl] at hl'; exact hl'⟩

/-! ## S.SIGN (05 R107, R112) -/

@[simp] theorem testBuf_actor (s : State) (d b : Nat) : (s.testBuf d b).actor = s.actor := by
  unfold State.testBuf
  simp only
  split
  · rfl
  · split
    · rfl
    · exact unpinAll_actor _ _

@[simp] theorem openTrav_actor (s : State) (d tree first : Nat) : (s.openTrav d tree first).actor = s.actor := by
  rw [State.openTrav, testBuf_actor, testBuf_actor, State.updDie_actor]

section
variable {s : State} {k : Nat} {vote : Bool}

/-- A core of an open traverse that has written out all it had to write signs its pending closure. -/
theorem signBody_joins {t : Trav} (htimed : s.me.leg.timed = false) (htrav : (s.die s.myDie).trav = some t) (htree : t.tree = k)
    (hcore : t.cores / 2 ^ (s.actor % 512) % 2 = 1) (hsigned : s.me.leg.signed = false)
    (hleft : t.left.contains (s.actor % 512) = false) (hdrained : s.drainedMe = true) :
    signBody k vote s = .ok (signedAt s vote) := by
  simp only [signBody, State.slotInDie, htimed, htrav, htree, hcore, hsigned, hleft, hdrained, ne_eq, not_true_eq_false,
    decide_false, Nat.reduceBEq, Bool.or_self, Bool.not_true, Bool.false_eq_true, if_false]
  rfl

/-- The first core to sign opens the traverse, whose core set is that of the first table. -/
theorem signBody_opens {b : Nat} {tb : LegTable} (htimed : s.me.leg.timed = false) (htrav : (s.die s.myDie).trav = none)
    (hload : (s.die s.myDie).firstLoad = some b) (htable : (s.die s.myDie).firstTable = some tb)
    (hcore : tb.cores / 2 ^ (s.actor % 512) % 2 = 1) (hdrained : s.drainedMe = true) :
    signBody k vote s = .ok (signedAt (s.openTrav s.myDie k b) vote) := by
  have hdie : (s.openTrav s.myDie k b).myDie = s.myDie := congrArg (· / 512) (openTrav_actor s s.myDie k b)
  simp only [signBody, signedAt, State.slotInDie, htimed, htrav, hload, htable, hcore, hdrained, hdie, openTrav_actor,
    Option.isNone_some, Option.getD_some, Bool.and_false, Nat.reduceBEq, Bool.not_true, Bool.false_eq_true, if_false]
  rfl

end

section
variable {s : State} {v : W64} {rest : List W64} {k : BitVec 4}

/-- An S.SIGN at which no killed member is to be reported is an S word like any other. -/
theorem execSSign_of_noPeer (hpeer : s.me.leg.peer = none) :
    execSSign k s = issueS (.sSign k) (popping .c 1 0 fun vs s => signBody k.toNat (vs.getD 0 0 != 0) s) s := by
  simp only [execSSign, hpeer]

theorem exec_sSign {e : State} (h : CanIssueS (.sSign k) s) (hv : s.stack .c = v :: rest) (hpeer : s.me.leg.peer = none)
    (he : signBody k.toNat (v != 0) (s.setStack .c rest) = .ok e) : completesS (.sSign k) 1 s e :=
  (execSSign_of_noPeer hpeer).trans (issueS_popped h hv he)

/-! ## S.LTLOAD (05 R111) -/

/-- A load of a buffer that is neither current, committed nor LOADING begins; it is that of the traverse's first table where
none was named before, or the same one again and its header has not been read (05 R112). -/
theorem exec_sLtload {b : BitVec 1} {first : Bool} (h : CanIssueS (.sLtload b) s) (hv : s.stack .c = v :: rest)
    (hhigh : bits v 58 6 = 0) (halign : v.toNat % 128 = 0) (hcur : s.current s.myDie b.toNat = false)
    (hcom : s.committed s.myDie b.toNat = false) (hst : ((s.die s.myDie).buf b.toNat).st ≠ .loading)
    (hfirst : ((s.die s.myDie).firstLoad.isNone || ((s.die s.myDie).firstTable.isNone && (s.die s.myDie).firstVa == v)) = first) :
    completesS (.sLtload b) 1 s (((s.setStack .c rest).unpinAll
        ((s.setStack .c rest).pageKeys ((s.die s.myDie).buf b.toNat).pages)).updDie s.myDie fun d =>
      let x := d.setBuf b.toNat { st := .loading, addr := v, space := s.me.space, first := first }
      if first then { x with firstLoad := some b.toNat, firstVa := v } else x) := by
  have hcur' : (s.setStack .c rest).current s.myDie b.toNat = false := hcur
  have hcom' : (s.setStack .c rest).committed s.myDie b.toNat = false := hcom
  refine issueS_popped h hv ?_
  simp only [List.getD_cons_zero, hhigh, halign, State.setStack_die, State.setStack_myDie, hcur', hcom', hst, space_setStack,
    unpinAll_myDie, ne_eq, not_true_eq_false, if_false, Bool.or_self, Bool.false_eq_true]
  refine congrArg Res.ok (updDie_congr ?_)
  obtain ⟨l, hl⟩ := die_unpinAll (s.setStack .c rest)
    ((s.setStack .c rest).pageKeys ((s.die s.myDie).buf b.toNat).pages) s.myDie
  simp only [hl, State.setStack_die, hfirst]

end

/-- Settles O11: S.SIGN joins or opens by the lemmas of its body; a load is the first one or it is not. -/
theorem legSignAndLoad : Obligations.LegSignAndLoad := by
  intro s v rest hv
  refine ⟨fun k t h hpeer htimed htrav htree hcore hsigned hleft hdrained => ?_,
    fun k b tb h hpeer htimed htrav hload htable hcore hdrained => ?_,
    fun b h hhigh halign hcur hcom hst => ⟨fun hfirst => ?_, fun hload hlater => ?_⟩⟩
  · refine exec_sSign h hv hpeer (signBody_joins ?_ htrav htree hcore ?_ hleft ?_) <;> simpa
  · refine exec_sSign h hv hpeer (signBody_opens ?_ htrav hload htable hcore ?_) <;> simpa
  · exact exec_sLtload (first := true) h hv hhigh halign hcur hcom hst (by simpa using hfirst)
  · refine exec_sLtload (first := false) h hv hhigh halign hcur hcom hst ?_
    rw [Bool.or_eq_false_iff, Bool.and_eq_false_iff]
    simpa [Option.isSome_iff_ne_none] using And.intro hload hlater

/-! ## S.LEG and S.SLACK (05 R113, R114) -/

theorem setBits_bits (v : W64) (lo w : Nat) : setBits v lo w (bits v lo w) = v := by
  have hle : bits v lo w * 2 ^ lo ≤ v.toNat :=
    Nat.le_trans (Nat.mul_le_mul_right _ (Nat.mod_le _ _)) (Nat.div_mul_le_self _ _)
  have hmod : bits v lo w % 2 ^ w = bits v lo w := Nat.mod_mod _ _
  rw [setBits, hmod, Nat.sub_add_cancel hle, BitVec.ofNat_toNat, BitVec.setWidth_eq]

/-- A counter to which nothing is added stays as it is. -/
theorem bump_zero (v : W64) (lo w : Nat) : bump v lo w 0 = v := by
  have hlt : bits v lo w < 2 ^ w := Nat.mod_lt _ (Nat.two_pow_pos w)
  rw [bump, Nat.add_zero, Nat.min_eq_left (by omega), setBits_bits]

theorem breach_now (c : Cf) (cycle : Nat) : (c.now cycle).breach = c.breach := by
  unfold Cf.now
  split <;> rfl

theorem breach_addBreach_zero (k : Core) (cycle : Nat) : (k.addBreach 0 cycle).cf.breach = k.cf.breach :=
  (bump_zero _ _ _).trans (breach_now _ _)

section
variable {s : State} {ts : Nat}

/-- A leg whose start is still to come begins in the cycle of its start. -/
theorem legCycle_of_coming (h : s.cycle + 1 ≤ ts) : s.legCycle ts = ts := by
  unfold State.legCycle
  simp only
  split
  · rfl
  · exact Nat.max_eq_left h

/-- A core that enters a leg before its start is in its timed part from the start on, and no breach is counted. -/
theorem me_enterLeg_onTime (h : s.cycle + 1 ≤ ts) :
    (s.enterLeg ts).me.leg.timed = true ∧ (s.enterLeg ts).me.leg.start = ts ∧ (s.enterLeg ts).me.leg.signed = false ∧
      (s.enterLeg ts).me.cf.breach = s.me.cf.breach := by
  simp only [State.enterLeg, legCycle_of_coming h, Nat.sub_self, if_true, State.me_updMe]
  exact ⟨rfl, rfl, rfl, breach_addBreach_zero _ _⟩

theorem exec_sLeg_enters (h : CanIssueS .sLeg s) (hpeer : s.me.leg.peer = none) (hover : s.me.leg.overrun = none)
    (htrav : (s.die s.myDie).trav.isSome = true) (hsigned : s.me.leg.signed = true) (hrefused : s.me.leg.refused = none)
    (hended : s.me.leg.ended = false) (hgo : s.me.leg.go = some ts) (hts : ts ≤ s.cycle + 1) :
    completesS .sLeg (s.legCycle ts - s.cycle) s (s.enterLeg ts) := by
  have hopen : (s.die s.myDie).trav.isNone = false := by simpa using htrav
  change execSLeg s = _
  simp only [execSLeg, hpeer, hover, hgo]
  refine issueSN_completes h ?_
  simp only [hrefused, hsigned, hended, hopen, if_neg (Nat.not_lt.2 hts)]
  rfl

theorem exec_sLeg_leaves (h : CanIssueS .sLeg s) (hpeer : s.me.leg.peer = none) (hover : s.me.leg.overrun = none)
    (hsigned : s.me.leg.signed = true) (hrefused : s.me.leg.refused = none) (hended : s.me.leg.ended = true)
    (hgo : s.me.leg.go = none) : completesS .sLeg 1 s s.leaveTrav := by
  change execSLeg s = _
  simp only [execSLeg, hpeer, hover, hgo]
  refine issueSN_completes h ?_
  simp only [hrefused, hsigned, hended]
  rfl

theorem exec_sSlack_ends (h : CanIssueS .sSlack s) (htimed : s.me.leg.timed = true)
    (hover : s.me.leg.start + s.me.leg.len ≤ s.cycle + 1) (hquiet : bits s.me.cf.mode 2 1 = 0 ∨ s.me.leg.rise = 0) :
    completesS .sSlack 1 s (s.updMe fun k =>
      { k with leg := { k.leg with timed := false }, tagLag := [], eng := k.eng.map fun _ x => { x with lag := 0 } }) := by
  have hsilent : (bits s.me.cf.mode 2 1 == 1 && decide (0 < s.me.leg.rise)) = false := by
    rcases hquiet with hmode | hrise
    · rw [hmode]
      rfl
    · rw [hrise]
      exact Bool.and_false _
  change execSSlack s = _
  simp only [execSSlack, Bool.and_assoc, hsilent, Bool.and_false, Bool.false_eq_true, if_false]
  refine issueSN_completes h ?_
  simp only [htimed, if_neg (Nat.not_lt.2 hover)]
  rfl

theorem exec_sSlack_breach (htimed : s.me.leg.timed = true) (hover : s.me.leg.start + s.me.leg.len ≤ s.cycle + 1)
    (hmode : bits s.me.cf.mode 2 1 = 1) (hrise : 0 < s.me.leg.rise) :
    exec .sSlack s = .next (takeTrap (s.updMe fun k => { k with leg := { k.leg with timed := false } }) 7 (s.me.en .c).pc
      .breach (BitVec.ofNat 64 s.me.leg.rise)) := by
  change execSSlack s = _
  simp only [execSSlack, htimed, hover, hmode, hrise, decide_true, beq_self_eq_true, Bool.and_self, if_true]

end

/-- Settles O12: each word by the lemma of its case. -/
theorem legEnterAndLeave : Obligations.LegEnterAndLeave := fun _ =>
  ⟨fun _ => exec_sLeg_enters, fun h hpeer hover _ => exec_sLeg_leaves h hpeer hover, fun _ => me_enterLeg_onTime,
    exec_sSlack_ends, exec_sSlack_breach⟩

end Sys2Proof.Words
end

section
/-! SUPPORT. The links between packages: what a flit comes to at its receiver, replay, acknowledgement and rotation, and the
departure of a reserved slot (05 R122; 14 R280-R283, R289; 19 R398). -/

namespace Sys2Proof.Words

open Sys2Proof.Machine Sys2Proof.Spec

/-! ## A flit at its receiver (14 R280, R281) -/

section
variable {f : Flit} {x : Link} {l : Nat}

theorem good_iff : f.good x l = true ↔ f.kv ∈ x.rxKeys ∧ f.atag = Config.flitTag f.kv l f.header f.payload := by
  rw [Flit.good, Bool.and_eq_true, List.contains_iff_mem, decide_eq_true_iff]
  rfl

theorem expected_iff : f.expected x = true ↔ f.kv = x.rxKv ∧ f.seq = x.rxSeq ∨ f.kv = (x.rxKv + 1) % 4 ∧ f.seq = 0 := by
  simp [Flit.expected]

/-- A flit whose key version the receiver does not hold, or whose tag does not fit, is not good. -/
theorem good_eq_false (h : f.kv ∉ x.rxKeys ∨ f.atag ≠ Config.flitTag f.kv l f.header f.payload) : f.good x l = false := by
  rw [Bool.eq_false_iff, ne_eq, good_iff]
  rintro ⟨hkey, htag⟩
  exact h.elim (fun hn => hn hkey) fun hn => hn htag

end

section
variable {s : State} {l : Nat} {f : Flit} {rest : List Flit}

/-- The state once the receiver of a link has accepted the flit at the head of its wire. -/
def flitTaken (s : State) (l : Nat) (f : Flit) (rest : List Flit) : State :=
  (s.updLink l fun x => { x with wire := rest }).updLink l fun x => { x with rxKv := f.kv, rxSeq := f.seq + 1, fails := 0 }

/-- An accepted flit goes once round its ring where its target refuses it, and is passed on otherwise, but for an acknowledgement. -/
theorem execFlitReceive_accepted (hwire : (s.link l).wire = f :: rest) (hat : f.at_ ≤ s.cycle) (hacc : Accepted f (s.link l) l)
    (hl : l < 80 ∨ 88 ≤ l) (hmarker : f.type ≠ 7) :
    execFlitReceive l s =
      if s.refusesFlit l f then
        .next (((flitTaken s l f rest).farEvent (rxDie l) 48).pass (roundHop l) { f with second := true })
      else if f.type = 6 then .next (flitTaken s l f rest)
      else .next ((flitTaken s l f rest).deliverFlit l f) := by
  obtain ⟨hkey, htag, hnext, hasking⟩ := hacc
  have hgood : f.good (s.link l) l = true := good_iff.2 ⟨hkey, htag⟩
  have hexp : f.expected (s.link l) = true := expected_iff.2 hnext
  have hinside : ¬ (80 ≤ l ∧ l < 88) := by omega
  simp only [execFlitReceive, hwire, if_neg (Nat.not_lt.2 hat), if_neg hinside, hasking, hgood, hexp, if_neg hmarker,
    Bool.not_true, Bool.false_eq_true, if_false]
  rfl

/-- A flit that fails its checks is dropped, and its receiver asks for a replay. -/
theorem exec_flitReceive_failed (hwire : (s.link l).wire = f :: rest) (hat : f.at_ ≤ s.cycle) (hasking : (s.link l).asking = false)
    (hl : l < 80 ∨ 88 ≤ l) (hbad : f.kv ∉ (s.link l).rxKeys ∨ f.atag ≠ Config.flitTag f.kv l f.header f.payload) :
    exec (.flitReceive l) s = .next ((((s.updLink l fun x => { x with wire := rest }).updLink l fun x =>
      { x with asking := true }).farEvent (rxDie l) 0).farEvent (rxDie l) 32) := by
  have hinside : ¬ (80 ≤ l ∧ l < 88) := by omega
  change execFlitReceive l s = _
  simp only [execFlitReceive, hwire, if_neg (Nat.not_lt.2 hat), if_neg hinside, hasking, good_eq_false hbad, Bool.not_false,
    Bool.false_eq_true, if_false, if_true]

/-- With the rotation marker the receiver erases every key but that of the marker's version (14 R282). -/
theorem exec_rotationMarker (hwire : (s.link l).wire = f :: rest) (hat : f.at_ ≤ s.cycle) (hacc : Accepted f (s.link l) l)
    (hmarker : f.type = 7) : exec (.rotationMarker l) s = .next (s.updLink l fun x =>
      { x with wire := rest, rxKv := f.kv, rxSeq := f.seq + 1, fails := 0, rxKeys := [f.kv] }) := by
  obtain ⟨hkey, htag, hnext, hasking⟩ := hacc
  change execRotationMarker l s = _
  simp only [execRotationMarker, hwire]
  exact if_pos ⟨hmarker, hat, good_iff.2 ⟨hkey, htag⟩, expected_iff.2 hnext, by rw [hasking]; rfl⟩

/-! ## Replay, acknowledgement and a link that goes down (14 R281, R282; 19 R398) -/

theorem exec_replayRequest (hasking : (s.link l).asking = true) (hfails : (s.link l).fails < 16) :
    exec (.replayRequest l) s = .next ((s.updLink l fun x =>
      { x with wire := [], again := unaccepted (s.link l), asking := false, fails := x.fails + 1 }).stationBreach (txDie l)
        ((unaccepted (s.link l)).filter fun f => f.reserved).length) := by
  have hfew : decide (16 ≤ (s.link l).fails) = false := decide_eq_false (Nat.not_le.2 hfails)
  change execReplayRequest l s = _
  simp only [execReplayRequest, hasking, hfew, unaccepted, Bool.not_true, Bool.or_self, Bool.false_eq_true, if_false]

/-- An acknowledgement outside a rotation only releases. -/
theorem exec_flitAck (q : Nat) (hrot : (s.link l).rotating = false) : exec (.flitAck l q) s = .next (s.updLink l fun y =>
    { y with held := (s.link l).held.filter fun f => !((decide (80 ≤ l) || f.accepted (s.link l)) && decide (f.seq ≤ q)) }) := by
  change execFlitAck l q s = _
  simp only [execFlitAck, hrot, Bool.false_and, Bool.false_eq_true, if_false]

theorem exec_linkDown (hasking : (s.link l).asking = true) (hfails : 16 ≤ (s.link l).fails) (hup : (s.link l).down = false) :
    exec (.linkDown l) s = .next ((unaccepted (s.link l) ++ (s.link l).queue).foldl
      (fun s f => s.pass (otherWay l) { f with reserved := false })
      (((s.updLink l fun x => { x with down := true, asking := false, held := [], wire := [], again := [], queue := [] }).clearReady
        (linkBit l)).stationBreach (txDie l)
          ((unaccepted (s.link l) ++ (s.link l).queue).filter fun f => f.reserved).length)) := by
  have hmany : decide ((s.link l).fails < 16) = false := decide_eq_false (Nat.not_lt.2 hfails)
  change execLinkDown l s = _
  simp only [execLinkDown, hasking, hmany, hup, unaccepted, Bool.not_true, Bool.or_self, Bool.false_eq_true, if_false]

end

/-! ## Reserved slots (05 R122; 14 R289) -/

section
variable (s : State) (die at_ hops : Nat) (ps : List Packet) (y : Slot)

/-- A function of the state that no change of a die or a core alters is as it was after packets have left. -/
theorem depart_keeps {β : Type} (p : State → β) (hdie : ∀ s d f, p (State.updDie s d f) = p s)
    (hcore : ∀ s k f, p (State.updCore s k f) = p s) : p (s.depart die at_ hops ps) = p s := by
  unfold State.depart
  refine (foldl_keeps p (fun u a => ?_) ps _).trans (hdie _ _ _)
  split
  · rfl
  · exact hcore _ _ _

@[simp] theorem depart_cycle : (s.depart die at_ hops ps).cycle = s.cycle :=
  depart_keeps s die at_ hops ps State.cycle (fun _ _ _ => rfl) fun _ _ _ => rfl

@[simp] theorem depart_package : (s.depart die at_ hops ps).package = s.package :=
  depart_keeps s die at_ hops ps State.package (fun _ _ _ => rfl) fun _ _ _ => rfl

/-- A collective's bytes that leave in a slot change a core alone. -/
theorem slotExchange_keeps {β : Type} (p : State → β) (hcore : ∀ s k f, p (State.updCore s k f) = p s) :
    p (s.slotExchange die y) = p s := by
  unfold State.slotExchange
  simp only
  split
  · rfl
  · split
    · rfl
    · exact hcore _ _ _

@[simp] theorem slotExchange_cycle : (s.slotExchange die y).cycle = s.cycle :=
  slotExchange_keeps s die y State.cycle fun _ _ _ => rfl

@[simp] theorem slotExchange_package : (s.slotExchange die y).package = s.package :=
  slotExchange_keeps s die y State.package fun _ _ _ => rfl

end

section
variable {s : State} {y : Slot}

/-- On a lane of the package ring a slot takes nothing from a bridge. -/
theorem sendSlot_inside {l : Nat} {f : Flit} (hlane : y.lane < 4) : s.sendSlot l y f = s.sendFlit l f := by
  have hring : ¬ (4 ≤ y.lane ∧ y.tag ≤ 8) := by omega
  rw [State.sendSlot, if_neg hring]

/-- The flit of a slot on the package ring for the package its first packet goes to. -/
def slotFlit (s : State) (y : Slot) (ps : List Packet) : Flit :=
  s.flitOf (stationOf s.myDie) (((ps.head?.bind Packet.package).getD s.package) % 2 ^ 10) y.dest (y.flitType ps) true ps

/-- A reserved slot on the package ring that no copy fills leaves at its cycle. -/
theorem exec_slotDeparture {j : Nat} {t : Trav} {u : State} (hslot : (s.die s.myDie).timed.slots[j]? = some y)
    (htrav : (s.die s.myDie).trav = some t) (hat : s.cycle = t.tStart + y.cycle) (hlane : y.lane < 4)
    (htag : y.tag < 128 ∨ 192 ≤ y.tag) (hfree : s.laneTaken (y.link s.myDie) = false)
    (hsend : (s.link (y.link s.myDie)).maySend = true) (hready : s.slotReady s.myDie y = true)
    (hu : u = s.depart s.myDie s.cycle (hopsBy (stationOf s.myDie) y.dest y.dir) (s.slotPackets s.myDie t.tStart y)) :
    exec (.slotDeparture j) s = .next (((if 192 ≤ y.tag then u.slotExchange s.myDie y else u).updDie s.myDie
      fun d => { d with timed := { d.timed with
        slots := d.timed.slots.eraseIdx j
        gone := d.timed.gone ++ [(s.cycle, y)] } }).sendFlit (y.link s.myDie)
          (slotFlit s y (s.slotPackets s.myDie t.tStart y))) := by
  have hcopy : ¬ (128 ≤ y.tag ∧ y.tag < 192) := by omega
  have hrack : decide (4 ≤ y.lane) = false := decide_eq_false (by omega)
  have hfilled : ∀ v : State, (if 192 ≤ y.tag ∧ y.lane < 4 then v.slotExchange s.myDie y else v) =
      if 192 ≤ y.tag then v.slotExchange s.myDie y else v := fun v => by simp [hlane]
  have hcycle : (if 192 ≤ y.tag then u.slotExchange s.myDie y else u).cycle = s.cycle := by
    subst hu
    split <;> simp
  have hpackage : (if 192 ≤ y.tag then u.slotExchange s.myDie y else u).package = s.package := by
    subst hu
    split <;> simp
  change execSlotDeparture j s = _
  simp only [execSlotDeparture, hslot, htrav, ← hat, hfree, hsend, hready, ← hu, if_neg hcopy, hfilled, hrack, hcycle,
    State.updDie_cycle, Nat.lt_irrefl, decide_false, Bool.not_true, Bool.or_self, Bool.false_eq_true, if_false,
    sendSlot_inside hlane, slotFlit, State.flitOf, State.updDie_package, hpackage]

end

/-- Settles O45: each event by the lemma of its case. -/
theorem linkEvents : Obligations.LinkEvents := by
  intro s l x hx
  subst hx
  refine ⟨fun f rest hwire hat hacc => ⟨fun s1 hl hmarker hs1 => ?_, exec_rotationMarker hwire hat hacc⟩,
    fun f rest hwire hat hasking hl => exec_flitReceive_failed hwire hat hasking hl, exec_replayRequest, exec_flitAck,
    exec_linkDown, fun j y t ps u hslot htrav hat hlane htag hfree hsend hready hps hu => ?_⟩
  · subst hs1
    refine ⟨fun hroom htype => ?_, fun hfull => ?_⟩
    · exact (execFlitReceive_accepted hwire hat hacc hl hmarker).trans (by rw [hroom, if_neg htype]; rfl)
    · exact (execFlitReceive_accepted hwire hat hacc hl hmarker).trans (by rw [hfull]; rfl)
  · subst hps
    exact exec_slotDeparture hslot htrav hat hlane htag hfree hsend hready hu

end Sys2Proof.Words
end

section
/-! SUPPORT. The events of a traverse: the load of a leg table, the start and the timed part of a leg, refresh, sign-offs and the
closure limit (05 R101, R102, R105, R107-R112; 06 R137; 17 R356-R358). -/

namespace Sys2Proof.Words

open Sys2Proof.Machine Sys2Proof.Spec

/-! ## The load of a leg table (05 R101, R111, R112) -/

section
variable {s s1 : State} {b : BitVec 1}

/-- The header of the table has been read. -/
theorem exec_legTableLoaded_head {h : List Nat} (hst : ((s.die s.myDie).buf b.toNat).st = .loading)
    (hhead : ((s.die s.myDie).buf b.toNat).headRead = false)
    (hload : loadHead s.forTraverse ((s.die s.myDie).buf b.toNat).space ((s.die s.myDie).buf b.toNat).addr.toNat = .ok h s1) :
    exec (.legTableLoaded b) s = .next { (s1.updDie s.myDie fun x => x.noteHead b.toNat (headerOf h)).noteOutline s.myDie b.toNat with
      actor := s.actor } := by
  change execLegTableLoaded b s = _
  simp only [execLegTableLoaded, hst, hhead, hload, ne_eq, not_true_eq_false, if_false, Bool.not_false, if_true]

/-- The table fails its checks. -/
theorem exec_legTableLoaded_bad {c : Cause} {off : Nat} (hst : ((s.die s.myDie).buf b.toNat).st = .loading)
    (hhead : ((s.die s.myDie).buf b.toNat).headRead = true)
    (hload : loadTable s.forTraverse s.myDie ((s.die s.myDie).buf b.toNat).space ((s.die s.myDie).buf b.toNat).addr.toNat =
      .bad c off s1) :
    exec (.legTableLoaded b) s = .next { s1.updDie s.myDie fun x => x.markBad b.toNat c off s1.cycle with actor := s.actor } := by
  change execLegTableLoaded b s = _
  simp only [execLegTableLoaded, hst, hhead, hload, ne_eq, not_true_eq_false, if_false, Bool.not_true, Bool.false_eq_true]

/-- The table is validated and its pages are pinned. -/
theorem exec_legTableLoaded_ready {t : LegTable} {pages : List (Nat × TlbEntry)} {s2 : State}
    (hst : ((s.die s.myDie).buf b.toNat).st = .loading) (hhead : ((s.die s.myDie).buf b.toNat).headRead = true)
    (hload : loadTable s.forTraverse s.myDie ((s.die s.myDie).buf b.toNat).space ((s.die s.myDie).buf b.toNat).addr.toNat =
      .ok (t, pages) s1) (hpin : s1.pinAll (s1.pageKeys pages) = some s2) :
    exec (.legTableLoaded b) s = .next { s2.updDie s.myDie fun x => x.noteReady b.toNat t pages s2.cycle with actor := s.actor } := by
  change execLegTableLoaded b s = _
  simp only [execLegTableLoaded, hst, hhead, hload, hpin, ne_eq, not_true_eq_false, if_false, Bool.not_true, Bool.false_eq_true]

end

/-! ## The start of a leg (05 R105, R107, R109; 17 R358) -/

theorem foldl_max_le {l : List Nat} {m : Nat} (h : ∀ x ∈ l, x ≤ m) : l.foldl max 0 ≤ m :=
  List.foldlRecOn (motive := (· ≤ m)) l max (Nat.zero_le m) fun _ hb x hx => Nat.max_le.2 ⟨hb, h x hx⟩

/-- Nothing delays the start of a die's leg from buffer `b` at `ts`: no load, no overrun of the closing leg, no preparation, no
REFAB of a hold and no S.SIGN that waited for a header; and the buffer holds a table that starts a leg. -/
structure StartsOnTime (s : State) (b tLast ts x : Nat) : Prop where
  ready : ((s.die x).buf b).st = .ready
  starts : ((s.die x).buf b).table.len ≠ 0
  loaded : ((s.die x).buf b).readyAt < ts
  kept : s.overrunOf x tLast = 0
  prepared : ∀ p ∈ (s.travOf x).prepared, p.2 ≤ ts
  refreshed : (s.travOf x).refab = none
  prompt : (s.travOf x).opening = true → ((s.die x).buf (s.travOf x).firstBuf).awaited = false

/-- A closure is complete only where some die takes part in it. -/
theorem diesOn_ne_nil_of_done {s : State} {tree : Nat} (h : (s.closure tree).done = true) : s.diesOn tree ≠ [] := by
  intro hnil
  simp [State.closure, hnil] at h

theorem refusal_of_ready {d : Die} {b : Nat} (h : (d.buf b).st = .ready) : d.refusal b = none := by
  simp only [Die.refusal, h]

section
variable {s : State} {b tLast ts : Nat} {ds : List Nat}

/-- The last arrival and the offset alone decide the cycle of a start that nothing delays. -/
theorem startOf_onTime {ofs : Nat} (hds : ds ≠ []) (h : ∀ x ∈ ds, StartsOnTime s b tLast ts x) (hts : ts = tLast + ofs) :
    s.startOf ds b tLast ofs = { at_ := ts, late := false } := by
  have hpos : 0 < ts := by
    obtain ⟨x, hx⟩ := List.exists_mem_of_ne_nil ds hds
    exact Nat.zero_lt_of_lt (h x hx).loaded
  have hready : (ds.map fun d => ((s.die d).buf b).readyAt).foldl max 0 ≤ ts - 1 := by
    refine foldl_max_le fun r hr => ?_
    obtain ⟨x, hx, rfl⟩ := List.mem_map.1 hr
    exact Nat.le_sub_one_of_lt (h x hx).loaded
  have hprep : (ds.flatMap fun d => (s.travOf d).prepared.map (·.2)).foldl max 0 ≤ ts := by
    refine foldl_max_le fun r hr => ?_
    obtain ⟨x, hx, hr⟩ := List.mem_flatMap.1 hr
    obtain ⟨p, hp, rfl⟩ := List.mem_map.1 hr
    exact (h x hx).prepared p hp
  have hrefab : (ds.filterMap fun d => (s.travOf d).refab) = [] :=
    List.filterMap_eq_nil_iff.2 fun x hx => (h x hx).refreshed
  have hawaited : (ds.any fun d => (s.travOf d).opening && ((s.die d).buf (s.travOf d).firstBuf).awaited) = false :=
    List.any_eq_false.2 fun x hx => by simpa using (h x hx).prompt
  simp only [State.startOf, ← hts, hrefab, hawaited, List.foldl_nil, Bool.or_false, Start.mk.injEq, Bool.or_eq_false_iff,
    decide_eq_false_iff_not]
  omega

/-- No die whose leg keeps its bound counts an overrun. -/
theorem noteOverrun_onTime (h : ∀ x ∈ ds, StartsOnTime s b tLast ts x) : ds.foldl (fun s d => s.noteOverrun d tLast) s = s := by
  refine List.foldlRecOn (motive := (· = s)) ds _ rfl fun u hu x hx => ?_
  rw [hu, State.noteOverrun]
  exact if_pos (h x hx).kept

theorem exec_legStart {t : Trav} (htrav : (s.die s.myDie).trav = some t) (hopen : t.closed = false)
    (hdone : (s.closure t.tree).done = true) (hds : ds = s.diesOn t.tree) (hb : b = if (s.closure t.tree).vote then 1 else 0)
    (hprepared : ∀ x ∈ ds, ∀ k ∈ s.preparing x, ∃ p ∈ (s.travOf x).prepared, p.1 = k)
    (h : ∀ x ∈ ds, StartsOnTime s b (s.closure t.tree).tLast ts x)
    (hts : ts = (s.closure t.tree).tLast + s.closureOfs s.myDie) (hcycle : ts ≤ s.cycle + 1) :
    exec .legStart s = .next (ds.foldl (fun s2 x => s2.startLeg x b (max ts s2.cycle))
      { ds.foldl (fun s2 x => s2.updDie x fun y => y.setVote (s.closure t.tree).vote) s with
        bridges := s.bridges.filter fun p => p.1 != t.tree
        peerSigns := s.peerSigns.filter fun p => p.tree != t.tree }) := by
  have hunprepared : (ds.any fun d => (s.preparing d).any fun k =>
      !(s.travOf d).prepared.any fun (p : Nat × Nat) => p.1 == k) = false := by
    simpa using hprepared
  have hloading : (ds.any fun d => decide (((s.die d).buf b).st = .loading)) = false :=
    List.any_eq_false.2 fun x hx => by simp [(h x hx).ready]
  have hrefused : (ds.findSome? fun d => (s.die d).refusal b) = none :=
    List.findSome?_eq_none_iff.2 fun x hx => refusal_of_ready (h x hx).ready
  have hends : (ds.any fun d => decide (((s.die d).buf b).table.len = 0)) = false :=
    List.any_eq_false.2 fun x hx => by simpa using (h x hx).starts
  have hbridges : (ds.foldl (fun u d => u.updDie d fun x => x.setVote (s.closure t.tree).vote) s).bridges = s.bridges :=
    foldl_keeps State.bridges (fun u x => State.updDie_bridges u x _) ds s
  have hpeers : (ds.foldl (fun u d => u.updDie d fun x => x.setVote (s.closure t.tree).vote) s).peerSigns = s.peerSigns :=
    foldl_keeps State.peerSigns (fun u x => State.updDie_peerSigns u x _) ds s
  have hstart := startOf_onTime (hds ▸ diesOn_ne_nil_of_done hdone) h hts
  change execLegStart s = _
  simp only [execLegStart, htrav, hopen, hdone, ← hds, ← hb, hunprepared, hloading, hrefused, hends, hstart,
    noteOverrun_onTime h, Option.isNone_none, Bool.and_false, Bool.not_true, Bool.or_self, Bool.false_eq_true, if_false,
    if_neg (Nat.not_lt.2 hcycle), hbridges, hpeers]

end

/-! ## The timed part of a leg and what it owes (05 R102, R108; 06 R137) -/

section
variable {s : State} {t : Trav}

theorem exec_timelineCommand {stack pch : Nat} {c : TCmd} {rest : List (Nat × Nat × TCmd)}
    (htrav : (s.die s.myDie).trav = some t) (htodo : (s.die s.myDie).timed.todo = (stack, pch, c) :: rest)
    (hcycle : t.tStart + c.cycle ≤ s.cycle) :
    exec .timelineCommand s = .next ((s.updDie s.myDie fun x => { x with timed := { x.timed with todo := rest } }).runCommand
      s.myDie stack pch c) := by
  change execTimelineCommand s = _
  simp only [execTimelineCommand, htrav, htodo, if_neg (Nat.not_lt.2 hcycle), State.updDie_myDie]

theorem exec_legTimedEnd {b : Nat} (htrav : (s.die s.myDie).trav = some t) (hcur : t.cur = some b)
    (hover : t.tStart + ((s.die s.myDie).buf b).table.len ≤ s.cycle) (htodo : (s.die s.myDie).timed.todo = []) :
    exec .legTimedEnd s = .next (s.updDie s.myDie fun x => { x with
      timed := { x.timed with static_ := [], rows := [], accepted := s.acceptedBy s.myDie } }) := by
  change execLegTimedEnd s = _
  simp only [execLegTimedEnd, htrav, hcur, htodo, Option.isNone_some, List.isEmpty_nil, decide_eq_false (Nat.not_lt.2 hover),
    Bool.not_true, Bool.or_self, Bool.false_eq_true, if_false]

/-- An owed command is served with the requests of its burst, once all of them have come. -/
theorem exec_owedCommandService_owed {tag off : Nat} {write : Bool} {rest : List (Nat × Nat × Bool)}
    (hfree : (s.die s.myDie).timed.static_ = []) (howed : (s.die s.myDie).timed.owed = (tag, off, write) :: rest)
    (hover : s.timedOver s.myDie = true)
    (hcome : ∀ r ∈ (s.die s.myDie).timed.reqs, r.tag = tag → r.burst = off → r.arrives ≤ s.cycle) :
    exec .owedCommandService s = .next ((s.updDie s.myDie fun x => { x with
      timed := { x.timed with owed := rest } }).serveBurst s.myDie off tag write) := by
  have hcoming : ((s.die s.myDie).timed.reqs.any fun r =>
      decide (r.tag = tag) && decide (r.burst = off) && decide (s.cycle < r.arrives)) = false := by
    simpa using hcome
  change execOwedCommandService s = _
  simp only [execOwedCommandService, howed, hover, hfree, hcoming, List.isEmpty_nil, State.updDie_myDie, Bool.not_true,
    Bool.or_self, Bool.false_eq_true, if_false]

/-- A request that no owed command is left for is served in FREE mode. -/
theorem exec_owedCommandService_left {r : TimedReq} {rest : List TimedReq} (hfree : (s.die s.myDie).timed.static_ = [])
    (howed : (s.die s.myDie).timed.owed = []) (hreqs : (s.die s.myDie).timed.reqs = r :: rest) (hcome : r.arrives ≤ s.cycle) :
    exec .owedCommandService s = .next (s.serveBurst s.myDie r.burst r.tag r.write.isSome) := by
  change execOwedCommandService s = _
  simp only [execOwedCommandService, howed, hreqs, hfree, decide_eq_false (Nat.not_lt.2 hcome), List.isEmpty_nil, Bool.not_true,
    Bool.or_self, Bool.false_eq_true, if_false]

end

/-! ## Refresh and sign-offs (05 R108; 17 R357, R358) -/

section
variable {s : State} {sel : BitVec 1}

theorem exec_controllerSignoff_signs (hmay : (s.die s.myDie).mayStation sel.toNat s.cycle = true)
    (hdone : s.stackDone s.myDie sel.toNat = true) :
    exec (.controllerSignoff sel) s = .next (s.updDie s.myDie fun x =>
      { Die.signStation (x.payRefresh sel.toNat) sel.toNat s.cycle with
        heldAt := SMap.put (Die.signStation (x.payRefresh sel.toNat) sel.toNat s.cycle).heldAt sel.toNat s.cycle }) := by
  change execControllerSignoff sel s = _
  simp only [execControllerSignoff, hmay, hdone, Bool.and_self, if_true]

theorem exec_controllerSignoff_prepares (hmay : (s.die s.myDie).mayStation sel.toNat s.cycle = false)
    (hprep : s.mayPrepare s.myDie sel.toNat = true) :
    exec (.controllerSignoff sel) s = .next (s.updDie s.myDie fun x =>
      let y := (x.payRefresh sel.toNat).updTrav fun t => { t with prepared := (sel.toNat, s.cycle) :: t.prepared }
      { y with heldAt := SMap.put y.heldAt sel.toNat s.cycle }) := by
  change execControllerSignoff sel s = _
  simp only [execControllerSignoff, hmay, hprep, Bool.false_and, Bool.false_eq_true, if_false, if_true]

theorem exec_refreshTick (hon : ((s.die s.myDie).reg 500).getLsbD sel.toNat = true)
    (hdue : SMap.get 0 (s.die s.myDie).refresh (2 + sel.toNat) ≤ s.cycle) :
    exec (.refreshTick sel) s = .next (s.updDie s.myDie fun x => { x with
      refresh := SMap.set 0 (SMap.set 0 x.refresh sel.toNat (SMap.get 0 x.refresh sel.toNat + 1)) (2 + sel.toNat)
        (SMap.get 0 (s.die s.myDie).refresh (2 + sel.toNat) + 6630) }) := by
  change execRefreshTick sel s = _
  simp only [execRefreshTick, hon, hdue, decide_true, Bool.and_self, if_true]

/-- A fold of steps each of which changes the refresh debts alone changes them alone. -/
theorem foldl_refresh_only {α : Type} {f : Die → α → Die} (hf : ∀ d a, ∃ m, f d a = { d with refresh := m }) (l : List α)
    (d : Die) : ∃ m, l.foldl f d = { d with refresh := m } := by
  refine List.foldlRecOn (motive := fun x => ∃ m, x = { d with refresh := m }) l f ⟨d.refresh, rfl⟩ fun x hx a _ => ?_
  obtain ⟨m, rfl⟩ := hx
  exact hf _ a

/-- Refreshes of every bank of some pseudo-channels change the debts alone. -/
theorem refreshBanks_refresh_only (stack : Nat) (pchs : List Nat) (d : Die) :
    ∃ m, pchs.foldl (fun x p => (List.range 48).foldl (fun x b => x.refreshBank stack p b) x) d = { d with refresh := m } :=
  foldl_refresh_only (fun x _ => foldl_refresh_only (fun _ _ => ⟨_, rfl⟩) _ x) pchs d

theorem exec_heldRefresh (hheld : SMap.has (s.die s.myDie).heldAt sel.toNat = true)
    (hdue : SMap.get 0 (s.die s.myDie).heldAt sel.toNat + 6630 ≤ s.cycle) :
    ∃ m, exec (.heldRefresh sel) s = .next (s.updDie s.myDie fun x => { x with
      refresh := m
      heldAt := SMap.put x.heldAt sel.toNat s.cycle
      trav := x.trav.map fun t => { t with refab := some s.cycle } }) := by
  obtain ⟨m, hm⟩ := refreshBanks_refresh_only sel.toNat ((List.range 64).filter fun p =>
    (decide ((s.die s.myDie).bufA.st = .loading) || decide ((s.die s.myDie).bufB.st = .loading)) ||
      (s.die s.myDie).lists sel.toNat p) (s.die s.myDie)
  refine ⟨m, ?_⟩
  change execHeldRefresh sel s = _
  simp only [execHeldRefresh, hheld, hdue, decide_true, Bool.and_self, if_true]
  exact congrArg _ (updDie_congr (by simp only [hm]; rfl))

theorem exec_stationSignoff (hleft : (s.die s.myDie).timed.slots = []) (hacked : s.unacked (stationOf s.myDie) = false)
    (hmay : (s.die s.myDie).mayStation 2 s.cycle = true) :
    exec .stationSignoff s = .next (s.updDie s.myDie fun x => x.signStation 2 s.cycle) := by
  change execStationSignoff s = _
  simp only [execStationSignoff, hleft, hacked, hmay, List.isEmpty_nil, Bool.not_false, Bool.and_self, if_true]

/-! ## The closure limit (05 R110) -/

theorem exec_closureLimitExpiry {t : Trav} {gang : List Nat} (htrav : (s.die s.myDie).trav = some t)
    (hgang : gang = (s.diesOn t.tree).flatMap s.participants) (hlimit : bits ((s.die s.myDie).reg 272) 0 32 ≠ 0)
    (hopen : t.closed = false) (hcome : t.signed ≠ [] ∨ t.stations ≠ []) (hdone : (s.closure t.tree).done = false)
    (hlate : t.tFirst + bits ((s.die s.myDie).reg 272) 0 32 < s.cycle) :
    exec .closureLimitExpiry s =
      .next ((gang ++ (s.collMates gang).filter fun k => !gang.contains k).foldl State.preemptCore s) := by
  have harrived : (t.signed.isEmpty && t.stations.isEmpty) = false := by
    rw [Bool.and_eq_false_iff]
    simpa using hcome
  change execClosureLimitExpiry s = _
  simp only [execClosureLimitExpiry, htrav, ← hgang, hopen, harrived, hdone, decide_eq_false hlimit,
    decide_eq_false (Nat.not_le.2 hlate), Bool.or_self, Bool.false_eq_true, if_false]

end

/-- Settles O46: each event by the lemma of its case. -/
theorem legEvents : Obligations.LegEvents := by
  intro s d hd
  subst hd
  refine ⟨fun b hst => ⟨fun h s1 hhead => exec_legTableLoaded_head hst hhead, fun hhead =>
      ⟨fun c off s1 => exec_legTableLoaded_bad hst hhead, fun t pages s1 s2 => exec_legTableLoaded_ready hst hhead⟩⟩,
    fun t ds b ts htrav hopen hdone hds hb hprepared h hts hcycle =>
      exec_legStart htrav hopen hdone hds hb hprepared (fun x hx =>
        let ⟨ready, starts, loaded, kept, prepared, refreshed, prompt⟩ := h x hx
        ⟨ready, starts, loaded, kept, prepared, refreshed, prompt⟩) hts hcycle,
    fun t stack pch c rest => exec_timelineCommand, fun t b => exec_legTimedEnd, fun hfree =>
      ⟨fun tag off write rest => exec_owedCommandService_owed hfree, fun r rest => exec_owedCommandService_left hfree⟩,
    fun sel => ⟨exec_controllerSignoff_signs, exec_controllerSignoff_prepares, exec_refreshTick, exec_heldRefresh⟩,
    exec_stationSignoff, fun t gang => exec_closureLimitExpiry⟩

end Sys2Proof.Words
end

section
/-! SUPPORT. Bytes of the scratchpad and the valid bits of its words (06 R125, R126). -/

namespace Sys2Proof.Words

open Sys2Proof.Machine Sys2Proof.Spec

/-! ## A byte written -/

section
variable {k : Core} {sa : Nat}

/-- A write to a valid word changes its byte alone. -/
theorem padPut_of_valid (b : Byte) (h : SMap.get false k.valid (sa / 4) = true) :
    k.padPut sa b = { k with pad := SMap.set 0 k.pad sa b } := by
  simp only [Core.padPut, h, if_true]

/-- A write to an invalid word zeroes it first and makes it valid. -/
theorem padPut_of_invalid (b : Byte) (h : SMap.get false k.valid (sa / 4) = false) :
    k.padPut sa b = { k with
      pad := SMap.set 0 ((List.range 4).foldl (fun m j => SMap.set 0 m (4 * (sa / 4) + j) 0) k.pad) sa b
      valid := SMap.set false k.valid (sa / 4) true } := by
  simp only [Core.padPut, h, Bool.false_eq_true, if_false]

end

/-- A byte written changes the scratchpad and its valid bits alone. -/
theorem padPut_eq (k : Core) (sa : Nat) (b : Byte) :
    k.padPut sa b = { k with pad := (k.padPut sa b).pad, valid := (k.padPut sa b).valid } := by
  cases h : SMap.get false k.valid (sa / 4)
  · rw [padPut_of_invalid b h]
  · rw [padPut_of_valid b h]

theorem valid_padPut (k : Core) (sa w : Nat) (b : Byte) :
    SMap.get false (k.padPut sa b).valid w = (SMap.get false k.valid w || w == sa / 4) := by
  cases h : SMap.get false k.valid (sa / 4)
  · rw [padPut_of_invalid b h, SMap.get_set]
    by_cases hw : w = sa / 4 <;> simp [hw]
  · rw [padPut_of_valid b h]
    by_cases hw : w = sa / 4 <;> simp [hw, h]

/-- Two tests with one answer are one test. -/
theorem ite_ite_same {α : Type} {p q : Prop} [Decidable p] [Decidable q] (x y : α) :
    (if p then x else if q then x else y) = if p ∨ q then x else y := by
  by_cases hp : p
  · rw [if_pos hp, if_pos (.inl hp)]
  · by_cases hq : q
    · rw [if_neg hp, if_pos hq, if_pos (.inr hq)]
    · rw [if_neg hp, if_neg hq, if_neg (not_or.2 ⟨hp, hq⟩)]

theorem get_zeroWord (m : SMap Byte) (w a : Nat) :
    SMap.get 0 ((List.range 4).foldl (fun m j => SMap.set 0 m (4 * w + j) 0) m) a =
      if a / 4 = w then 0 else SMap.get 0 m a := by
  have hword : a / 4 = w ↔ a = 4 * w + 3 ∨ a = 4 * w + 2 ∨ a = 4 * w + 1 ∨ a = 4 * w + 0 := by omega
  rw [show List.range 4 = [0, 1, 2, 3] from rfl]
  simp only [List.foldl_cons, List.foldl_nil, SMap.get_set, hword, ite_ite_same]

/-- The byte reads back, and every other byte reads as before: those of a word that was invalid read as zero before and after. -/
theorem padByte_padPut (k : Core) (sa a : Nat) (b : Byte) :
    (k.padPut sa b).padByte a = if a = sa then b else k.padByte a := by
  rw [Core.padByte, Core.wordValid, valid_padPut]
  by_cases ha : a = sa
  · subst ha
    cases h : SMap.get false k.valid (a / 4)
    · simp [padPut_of_invalid b h]
    · simp [padPut_of_valid b h]
  · rw [if_neg ha, Core.padByte, Core.wordValid]
    cases h : SMap.get false k.valid (sa / 4)
    · rw [padPut_of_invalid b h, SMap.get_set_other _ _ _ ha, get_zeroWord]
      by_cases hw : a / 4 = sa / 4 <;> simp [hw, h]
    · rw [padPut_of_valid b h, SMap.get_set_other _ _ _ ha]
      by_cases hw : a / 4 = sa / 4 <;> simp [hw, h]

/-- Settles O25: the byte and the valid bits after a write of one byte. -/
theorem scratchpadWrite : Obligations.ScratchpadWrite :=
  fun k sa a w b => ⟨padByte_padPut k sa a b, valid_padPut k sa w b⟩

/-! ## Bytes written one after another -/

theorem padWrite_eq (k : Core) (sa : Nat) (bs : List Byte) :
    k.padWrite sa bs = { k with pad := (k.padWrite sa bs).pad, valid := (k.padWrite sa bs).valid } := by
  induction bs generalizing k sa with
  | nil => rfl
  | cons b bs ih =>
    rw [Core.padWrite, ih, padPut_eq]

/-- Zeros written where zeros are read leave every byte to read as before. -/
theorem padByte_padWrite_zeros {k : Core} {sa n : Nat} (h : ∀ j < n, k.padByte (sa + j) = 0) (x : Nat) :
    (k.padWrite sa (List.replicate n 0)).padByte x = k.padByte x := by
  induction n generalizing k sa with
  | zero => rfl
  | succ n ih =>
    have hput : ∀ y, (k.padPut sa 0).padByte y = k.padByte y := fun y => by
      rw [padByte_padPut]
      split
      next hy => rw [hy, ← h 0 (Nat.succ_pos n), Nat.add_zero]
      next => rfl
    rw [List.replicate_succ, Core.padWrite, ih fun j hj => by rw [hput, Nat.add_right_comm]; exact h (j + 1) (by omega), hput]

section
variable {k : Core} {w : Nat}

theorem padByte_padWrite_zeroWord (h : SMap.get false k.valid w = false) (x : Nat) :
    (k.padWrite (4 * w) [0, 0, 0, 0]).padByte x = k.padByte x := by
  refine padByte_padWrite_zeros (n := 4) (fun j hj => ?_) x
  rw [Core.padByte, Core.wordValid, show (4 * w + j) / 4 = w by omega, h, if_neg Bool.false_ne_true]

theorem valid_padWrite_zeroWord (v : Nat) :
    SMap.get false (k.padWrite (4 * w) [0, 0, 0, 0]).valid v = (SMap.get false k.valid v || v == w) := by
  have hword : 4 * w / 4 = w ∧ (4 * w + 1) / 4 = w ∧ (4 * w + 2) / 4 = w ∧ (4 * w + 3) / 4 = w := by omega
  simp only [Core.padWrite, valid_padPut, Nat.add_assoc, Nat.reduceAdd, hword, Bool.or_assoc, Bool.or_self]

end

/-- The core with `n` words from `w` on made valid, those that were not as zeros (06 R149). -/
def validated (w n : Nat) (k : Core) : Core :=
  (List.range n).foldl (fun k j => if SMap.get false k.valid (w + j) then k else k.padWrite (4 * (w + j)) [0, 0, 0, 0]) k

theorem validated_succ (w n : Nat) (k : Core) :
    validated w (n + 1) k = if SMap.get false (validated w n k).valid (w + n) then validated w n k
      else (validated w n k).padWrite (4 * (w + n)) [0, 0, 0, 0] := by
  rw [validated, List.range_succ, List.foldl_append]
  rfl

theorem validated_eq (w n : Nat) (k : Core) :
    validated w n k = { k with pad := (validated w n k).pad, valid := (validated w n k).valid } := by
  induction n with
  | zero => rfl
  | succ n ih =>
    rw [validated_succ]
    split
    · exact ih
    · rw [padWrite_eq, ih]

theorem padByte_validated (w n : Nat) (k : Core) (x : Nat) : (validated w n k).padByte x = k.padByte x := by
  induction n with
  | zero => rfl
  | succ n ih =>
    rw [validated_succ]
    split
    next => exact ih
    next h => exact (padByte_padWrite_zeroWord (Bool.eq_false_iff.2 h) x).trans ih

theorem valid_validated (w n : Nat) (k : Core) (v : Nat) :
    SMap.get false (validated w n k).valid v =
      (SMap.get false k.valid v || (decide (w ≤ v) && decide (v < w + n))) := by
  induction n with
  | zero =>
    have : (decide (w ≤ v) && decide (v < w + 0)) = false := by simp
    rw [this, Bool.or_false]
    rfl
  | succ n ih =>
    have hlast : (decide (w ≤ v) && decide (v < w + (n + 1))) = ((decide (w ≤ v) && decide (v < w + n)) || v == w + n) := by
      rw [Bool.eq_iff_iff]
      simp
      omega
    rw [hlast, ← Bool.or_assoc, ← ih, validated_succ]
    split
    next h =>
      by_cases hv : v = w + n <;> simp [hv, h]
    next => exact valid_padWrite_zeroWord v

end Sys2Proof.Words
end

section
/-! SUPPORT. What a store leaves of the memories, and the service of posted accesses (06 R138, R147; 14 R293, R294; 17 R353, R356; 19
R394). -/

namespace Sys2Proof.Words

open Sys2Proof.Machine Sys2Proof.Spec

/-! ## Dies with the same bytes -/

/-- Two dies hold the same bytes at the same offsets: tiers and hash masks are the same (17 R353). -/
structure SameBytes (d e : Die) : Prop where
  fast : d.mem.fast = e.mem.fast
  cap : d.mem.cap = e.mem.cap
  masks : ∀ i < 11, d.reg (340 + i) = e.reg (340 + i)

theorem SameBytes.refl (d : Die) : SameBytes d d := ⟨rfl, rfl, fun _ _ => rfl⟩

theorem SameBytes.trans {c d e : Die} (h : SameBytes c d) (h' : SameBytes d e) : SameBytes c e :=
  ⟨h.fast.trans h'.fast, h.cap.trans h'.cap, fun i hi => (h.masks i hi).trans (h'.masks i hi)⟩

/-- A masked offset maps by the eleven masks alone (17 R353). -/
theorem remap_congr {f g : Nat → Nat} (h : ∀ i < 11, f i = g i) (dest : Nat → Nat) (o : Nat) :
    remap f dest o = remap g dest o := by
  unfold remap
  refine congrArg (_ + List.sum ·) (List.map_congr_left fun i hi => ?_)
  rw [h i (List.mem_range.1 hi)]

theorem SameBytes.plainHash {d e : Die} (h : SameBytes d e) : d.plainHash = e.plainHash := by
  rw [Die.plainHash, Die.plainHash, List.all_eq, List.all_eq]
  exact decide_eq_decide.2 (forall₂_congr fun i hi => by rw [h.masks i (List.mem_range.1 hi)])

theorem SameBytes.cellOf {d e : Die} (h : SameBytes d e) (o : Nat) : d.cellOf o = e.cellOf o := by
  have hmasks : ∀ i < 11, d.mask i = e.mask i := fun i hi => congrArg BitVec.toNat (h.masks i hi)
  rw [Die.cellOf, Die.cellOf, h.plainHash, remap_congr hmasks]

theorem SameBytes.byteAt {d e : Die} (h : SameBytes d e) (tier off : Nat) : d.byteAt tier off = e.byteAt tier off := by
  rw [Die.byteAt, Die.byteAt, h.fast, h.cap, h.cellOf]

theorem sameBytes_heat (d : Die) (tier off n : Nat) : SameBytes (d.heat tier off n) d := ⟨rfl, rfl, fun _ _ => rfl⟩

/-- A correction changes the table of soft errors and the register that logs it. -/
theorem sameBytes_correct (d : Die) (tier line : Nat) : SameBytes (d.correct tier line) d := by
  unfold Die.correct
  dsimp only
  split
  · refine ⟨?_, ?_, fun i hi => (Die.reg_setReg_other _ _ (by omega)).trans (Die.reg_congr rfl _)⟩
    · rw [Die.setReg_mem]
    · rw [Die.setReg_mem]
  · exact .refl d

theorem sameBytes_corrects (tier : Nat) (ls : List Nat) (d : Die) :
    SameBytes (ls.foldl (fun d l => d.correct tier l) d) d := by
  induction ls generalizing d with
  | nil => exact .refl d
  | cons l ls ih => exact (ih _).trans (sameBytes_correct d tier l)

/-- What a write counts and corrects first leaves every byte. -/
theorem sameBytes_prepared (d : Die) (tier off n : Nat) : SameBytes ((d.heat tier off n).mend tier off n) d :=
  (sameBytes_corrects tier _ _).trans (sameBytes_heat d tier off n)

/-! ## Bytes put -/

section
variable {d : Die}

theorem scatter_cap (m : Mem) (off : Nat) (bs : List Byte) : (m.scatter d off bs).cap = m.cap := by
  induction bs generalizing m off with
  | nil => rfl
  | cons b bs ih => exact ih _ _

/-- Bytes scattered over distinct cells read back, each at its own offset (17 R424). -/
theorem get_scatter (hd : CellsDistinct d) (m : Mem) (off a : Nat) (bs : List Byte) :
    SMap.get blank (m.scatter d off bs).fast (d.cellOf a) =
      if off ≤ a ∧ a < off + bs.length then bs.getD (a - off) 0 else SMap.get blank m.fast (d.cellOf a) := by
  induction bs generalizing m off with
  | nil => rw [Mem.scatter, if_neg (by rw [List.length_nil]; omega)]
  | cons b bs ih =>
    rw [Mem.scatter, ih, SMap.get_set, List.length_cons]
    have hcell : d.cellOf a = d.cellOf off ↔ a = off := ⟨hd a off, congrArg d.cellOf⟩
    simp only [hcell]
    by_cases ha : a = off
    · subst ha
      rw [if_neg (by omega), if_pos rfl, if_pos (by omega), Nat.sub_self, List.getD_cons_zero]
    · by_cases hin : off + 1 ≤ a ∧ a < off + 1 + bs.length
      · rw [if_pos hin, if_pos (by omega), show a - off = a - (off + 1) + 1 by omega, List.getD_cons_succ]
      · rw [if_neg hin, if_neg ha, if_neg (by omega)]

variable {tier off u : Nat} {bs : List Byte}

theorem byteAt_putBytes (hd : CellsDistinct d) (ht : tier < 2) (hu : u < 2) (a : Nat) :
    Die.byteAt { d with mem := d.mem.putBytes d tier off bs } u a =
      if u = tier ∧ off ≤ a ∧ a < off + bs.length then bs.getD (a - off) 0 else d.byteAt u a := by
  have hcell : Die.cellOf { d with mem := d.mem.putBytes d tier off bs } a = d.cellOf a := rfl
  rw [Die.byteAt, Die.byteAt, hcell, Mem.putBytes]
  by_cases htier : tier = 0
  · subst htier
    by_cases hu0 : u = 0
    · subst hu0
      by_cases hplain : d.plainHash = true
      · have hself : d.cellOf a = a := by rw [Die.cellOf, if_pos hplain]
        simp [hplain, hself, SMap.get_setRun]
      · simp only [ne_eq, not_true, if_false, if_true, hplain, Bool.false_eq_true, get_scatter hd, true_and]
    · by_cases hplain : d.plainHash = true
      · simp [hplain, hu0]
      · simp [hplain, hu0, scatter_cap]
  · by_cases hu0 : u = 0
    · simp [htier, hu0, Ne.symm htier]
    · obtain rfl : u = tier := by omega
      simp [htier, SMap.get_setRun]

/-- A write that its lines' checks let through changes the bytes it writes. -/
theorem byteAt_poke {d' : Die} {klock : Bool} (hd : CellsDistinct d) (hp : d.poke tier off bs klock = some d') (ht : tier < 2)
    (hu : u < 2) (a : Nat) :
    d'.byteAt u a = if u = tier ∧ off ≤ a ∧ a < off + bs.length then bs.getD (a - off) 0 else d.byteAt u a := by
  rw [← byteAt_putBytes hd ht hu]
  unfold Die.poke at hp
  dsimp only at hp
  split at hp
  · obtain ⟨hfast, hcap, hdg⟩ := Die.sealLines_bytes tier (fun d => if klock then 15 else d.keyCur) (linesOf off bs.length)
      { d with mem := d.mem.putBytes d tier off bs }
    cases hp
    exact SameBytes.byteAt ⟨hfast, hcap, fun i _ => Die.reg_congr hdg _⟩ u a
  · cases hp

end

/-- A write that is performed changes exactly the bytes it stores. -/
theorem onlyStored_write {s : State} {die tier off : Nat} {bs : List Byte} {klock : Bool} (hd : CellsDistinct (s.die die))
    (ht : tier < 2) (h : (s.write die tier off bs klock).2 = true) :
    OnlyStored s (s.write die tier off bs klock).1 die tier off bs := by
  have hsame := sameBytes_prepared (s.die die) tier off bs.length
  have hcells : CellsDistinct (((s.die die).heat tier off bs.length).mend tier off bs.length) := fun a b hab =>
    hd a b (by rw [← hsame.cellOf, ← hsame.cellOf]; exact hab)
  intro d u a hu
  unfold State.write at h ⊢
  dsimp only at h ⊢
  split at h
  next d' hpoke =>
    simp only [State.die_setDie]
    by_cases hdie : d = die
    · simp only [hdie, if_true, true_and]
      rw [byteAt_poke hcells hpoke ht hu, hsame.byteAt]
    · simp [hdie]
  next => cases h

/-! ## MEMWR (19 R394) -/

theorem exec_memwr {s : State} {die tier off : Nat} {bs : List Byte} (hport : PortOpen s) (hext : PortExtent s die tier off bs.length)
    (hw : (s.write die tier off bs false).2 = true) :
    exec (.memwr die tier off bs) s = .next ((s.write die tier off bs false).1.done_ []) := by
  obtain ⟨hon, hready⟩ := hport
  obtain ⟨hdie, htier, hmin, hmax, hend, hset, hfree⟩ := hext
  have hspan : portSpan die tier off bs.length = true := by simp [portSpan, hdie, htier, hmin, hmax, hend]
  have hwrite : s.write die tier off bs false = ((s.write die tier off bs false).1, true) := Prod.ext rfl hw
  change execMemwr die tier off bs s = _
  rw [execMemwr, portCommand, State.portReady, hon, hready]
  simp only [hspan, hset, hfree, Bool.and_self, Bool.not_true, Bool.false_eq_true, if_true, if_false]
  rw [hwrite]

/-! ## The acting core of a unit's accesses -/

theorem actor_read (s : State) (die tier off n : Nat) : (s.read die tier off n).1.actor = s.actor := by
  unfold State.read
  dsimp only
  split <;> rfl

theorem actor_write (s : State) (die tier off : Nat) (bs : List Byte) (klock : Bool) :
    (s.write die tier off bs klock).1.actor = s.actor := by
  unfold State.write
  dsimp only
  split <;> rfl

theorem actor_writeBack (x : FarLine) (s : State) : (x.writeBack s).actor = s.actor := by
  unfold FarLine.writeBack
  split
  · exact actor_write s _ _ _ _ _
  · rfl

theorem actor_dropLines (s : State) (owner : Nat) (t : Token) (holder : Nat × Nat) :
    (s.dropLines owner t holder).actor = s.actor := by
  unfold State.dropLines
  split
  · rfl
  · exact foldl_keeps State.actor (fun s x => actor_writeBack x s) _ _

theorem actor_retoken (s : State) (owner : Nat) (t : Token) (holders : List (Nat × Nat)) :
    (s.retoken owner t holders).actor = s.actor :=
  foldl_keeps State.actor (fun s h => actor_dropLines s owner t h) _ s

theorem actor_uncached (s : State) (core die : Nat) (va : W64) (n : Nat) (write : Bool) :
    (s.uncached core die va n write).actor = s.actor := by
  unfold State.uncached State.revokeFor
  refine (foldl_keeps State.actor (fun s t => actor_retoken s die t _) _ _).trans ?_
  split
  · exact actor_dropLines s die _ _
  · rfl

theorem actor_farLine (s : State) (core : Nat) (a : At) : (s.farLine core a).1.actor = s.actor := by
  have hread := actor_read s a.die a.tier (a.off - a.va.toNat % 128) 128
  unfold State.farLine
  dsimp only
  split
  · rfl
  · split
    next hr =>
      rw [hr] at hread
      exact hread
    next hr =>
      rw [hr] at hread
      rw [State.updDie_actor]
      split
      · split
        · exact hread
        · exact (actor_writeBack _ _).trans hread
      · exact hread

/-- A read by an engine leaves the acting core what it is. -/
theorem actor_farRead (s : State) (core : Nat) (a : At) (n mt : Nat) : (s.farRead core a n mt).1.actor = s.actor := by
  unfold State.farRead
  split
  · exact (actor_read _ _ _ _ _).trans (actor_uncached s core a.die a.va n false)
  · refine List.foldlRecOn (motive := fun acc : State × Option (List Byte) => acc.1.actor = s.actor) _ _ rfl fun acc hacc p _ => ?_
    obtain ⟨u, bs⟩ := acc
    cases bs with
    | none => exact hacc
    | some bs =>
      have hline := (actor_farLine u core (a.plus p.1)).trans hacc
      dsimp only
      split
      next hl =>
        rw [hl] at hline
        exact hline
      next hl =>
        rw [hl] at hline
        exact hline

/-! ## Accesses that meet no token (14 R293, R294) -/

/-- No token of a space stands at the regions of a run of bytes. -/
def NoToken (s : State) (die space : Nat) (va : W64) (n : Nat) : Prop :=
  ∀ k ∈ (s.die die).tokens, k.space ≠ space ∨ k.region < va.toNat / 2 ^ 21 ∨ (va.toNat + n - 1) / 2 ^ 21 < k.region

section
variable {s : State} {core die n : Nat} {va : W64}

theorem revokeFor_of_noToken {space : Nat} (h : NoToken s die space va n) (me : Nat × Nat) (write : Bool) :
    s.revokeFor me die space va n write = s := by
  unfold State.revokeFor
  dsimp only
  rw [List.filter_eq_nil_iff.2 fun k hk => ?_]
  · rfl
  · have := h k hk
    simp only [Bool.and_eq_true, decide_eq_true_eq]
    omega

theorem tokenOf_of_noToken (h : NoToken s die (s.core core).space va n) (hn : 0 < n) : s.tokenOf core die va = none := by
  unfold State.tokenOf
  split
  · rfl
  · refine List.find?_eq_none.2 fun k hk => ?_
    have := h k hk
    have : va.toNat / 2 ^ 21 ≤ (va.toNat + n - 1) / 2 ^ 21 := Nat.div_le_div_right (by omega)
    simp only [Bool.and_eq_true, decide_eq_true_eq]
    omega

/-- An access of a core whose die holds no token of the address, and that no token stands against, reaches the memory. -/
theorem uncached_eq_self (h : NoToken s die (s.core core).space va n) (htok : s.tokenOf core die va = none) (write : Bool) :
    s.uncached core die va n write = s := by
  simp only [State.uncached, htok]
  exact revokeFor_of_noToken h _ _

theorem farRead_eq_read {w : At} (h : NoToken s w.die (s.core core).space w.va n) (htok : s.tokenOf core w.die w.va = none)
    (mt : Nat) : s.farRead core w n mt = s.read w.die w.tier w.off n := by
  rw [State.farRead, htok, Option.isNone_none, Bool.or_true, if_pos rfl, uncached_eq_self h htok]

theorem farWrite_eq_write {w : At} {bs : List Byte} (h : NoToken s w.die (s.core core).space w.va bs.length)
    (htok : s.tokenOf core w.die w.va = none) (mt : Nat) :
    s.farWrite core w bs mt = s.write w.die w.tier w.off bs w.klock := by
  simp only [State.farWrite, htok, ite_self, uncached_eq_self h htok]

end

/-! ## The service of posted accesses (17 R356) -/

section
variable {s s3 : State} {j : Nat} {a : Posted} {bs : List Byte}

/-- The state in which a posted access is performed: its fill has its ports, and it is posted no more. -/
def unposted (s : State) (a : Posted) : State := (s.updMe a.fillPorts).updMe fun k => { k with posted := k.posted.erase a }

/-- An access that may be performed, and that no controller and no port holds, is performed. -/
theorem exec_freeModeRequestService (hat : s.me.posted[j]? = some a) (hmay : s.me.mayPerform j = true)
    (hfree : s.waits a.die a.tier a.off a.bytes = false) (hports : a.portHeld s.me = false) :
    exec (.freeModeRequestService j) s = .next (performPosted (s.updMe a.fillPorts) s.actor a) := by
  change execFreeModeRequestService j s = _
  simp only [execFreeModeRequestService, hat, hmay, hfree, hports, Bool.and_false, Bool.not_false, Bool.and_self, if_true]

theorem performPosted_store (hpeer : a.peer = none) (hw : a.write = some bs)
    (h : (unposted s a).farWrite s.actor a.at_ bs a.mt = (s3, true)) : performPosted (s.updMe a.fillPorts) s.actor a = s3 := by
  change ((s.updMe a.fillPorts).updCore s.actor fun k => { k with posted := k.posted.erase a }).farWrite _ _ _ _ = _ at h
  simp only [performPosted, hpeer, hw, h]

theorem performPosted_line (hpeer : a.peer = none) (hw : a.write = none)
    (h : (unposted s a).farRead s.actor a.at_ 128 a.mt = (s3, some bs)) :
    performPosted (s.updMe a.fillPorts) s.actor a = s3.updMe fun k => k.padWrite a.pad bs := by
  have hactor : s3.actor = s.actor := by
    have := actor_farRead (unposted s a) s.actor a.at_ 128 a.mt
    rw [h] at this
    exact this
  change ((s.updMe a.fillPorts).updCore s.actor fun k => { k with posted := k.posted.erase a }).farRead _ _ _ _ = _ at h
  simp only [performPosted, hpeer, hw, h]
  rw [← hactor]
  rfl

/-- A store fills no line of the scratchpad: it takes no port (06 R124). -/
theorem unposted_store (hw : a.write = some bs) : unposted s a = s.updMe fun k => { k with posted := k.posted.erase a } := by
  have hfill : ∀ k, a.fillPorts k = k := fun k => by
    rw [Posted.fillPorts, Posted.ports, hw]
    rfl
  rw [unposted, updMe_updMe]
  simp only [hfill]

theorem portHeld_store (hw : a.write = some bs) (k : Core) : a.portHeld k = false := by
  rw [Posted.portHeld, Posted.ports, hw]
  rfl

end

/-- Settles O8: what is performed, and that an access that meets no token is one of memory. -/
theorem postedAccessService : Obligations.PostedAccessService := by
  intro s s3 j a hat hmay hpeer hfree hports
  refine ⟨fun bs hw h => ?_, fun bs hw h => ?_, fun core n w bs r hdie htok => ?_⟩
  · rw [exec_freeModeRequestService hat hmay hfree hports, performPosted_store hpeer hw h]
  · rw [exec_freeModeRequestService hat hmay hfree hports, performPosted_line hpeer hw h]
  · have hown : s.tokenOf core w.die w.va = none := if_pos hdie
    have hnone : ∀ m, NoToken s w.die (s.core core).space w.va m := fun m k hk => by
      rw [htok] at hk
      cases hk
    exact ⟨(farRead_eq_read (hnone _) hown a.mt).trans, (farWrite_eq_write (hnone _) hown a.mt).trans⟩

/-- Settles O60: MEMWR and a posted store come to a write of memory, which changes the bytes it stores. -/
theorem storeFrame : Obligations.StoreFrame := by
  intro s
  refine ⟨fun die tier off bs hport hext hcells hw => ?_,
    fun j a bs s2 hat hmay hpeer htier hfree hwrite hbs hcells htok hs2 hw => ?_⟩
  · obtain ⟨-, htier, -⟩ := id hext
    exact ⟨_, exec_memwr hport hext hw, onlyStored_write hcells htier hw⟩
  · subst hs2
    rw [← unposted_store hwrite] at hw
    have hspace : ((unposted s a).core s.actor).space = s.me.space := by
      change (unposted s a).me.space = _
      rw [unposted_store hwrite, State.me_updMe]
    have hnone : NoToken (unposted s a) a.die ((unposted s a).core s.actor).space a.va bs.length := by
      rw [hspace]
      exact htok
    have hfar := farWrite_eq_write (w := a.at_) hnone (tokenOf_of_noToken hnone (List.length_pos_iff.2 hbs)) a.mt
    refine ⟨_, exec_freeModeRequestService hat hmay hfree (portHeld_store hwrite s.me), ?_⟩
    rw [performPosted_store hpeer hwrite (hfar.trans (Prod.ext rfl hw))]
    exact onlyStored_write hcells htier hw

end Sys2Proof.Words
end

section
/-! SUPPORT. What a word of the access engine finds as it was, and the words of the stream descriptors (06 R131, R132, R141-R144,
R150). -/

namespace Sys2Proof.Words

open Sys2Proof.Machine Sys2Proof.Spec

/-! ## What a word finds as it was -/

section
variable (s : State) (t : Engine) (st : List W64)

@[simp] theorem stream_setStack (g : Nat) : (s.setStack t st).me.stream g = s.me.stream g := by
  rw [me_setStack]
  rfl

@[simp] theorem stream_arrived (g : Nat) : (arrived t s).me.stream g = s.me.stream g := by
  rw [arrived, State.me_updMe]
  rfl

@[simp] theorem bound_setStack (q : Nat) : (s.setStack t st).me.bound q = s.me.bound q := by
  rw [me_setStack]
  rfl

@[simp] theorem bound_arrived (q : Nat) : (arrived t s).me.bound q = s.me.bound q := by
  rw [arrived, State.me_updMe]
  rfl

@[simp] theorem queue_setStack (q : Nat) : (s.setStack t st).me.queue q = s.me.queue q := by
  rw [me_setStack]
  rfl

@[simp] theorem queue_arrived (q : Nat) : (arrived t s).me.queue q = s.me.queue q := by
  rw [arrived, State.me_updMe]
  rfl

@[simp] theorem room_setStack (q n : Nat) : (s.setStack t st).me.room q n = s.me.room q n := by
  rw [me_setStack]
  rfl

@[simp] theorem room_arrived (q n : Nat) : (arrived t s).me.room q n = s.me.room q n := by
  rw [arrived, State.me_updMe]
  rfl

@[simp] theorem filling_setStack (sa n : Nat) : (s.setStack t st).me.filling sa n = s.me.filling sa n := by
  rw [me_setStack]
  rfl

@[simp] theorem leg_arrived : (arrived t s).me.leg = s.me.leg := by
  rw [arrived, State.me_updMe]
  rfl

@[simp] theorem lag_arrived (u : Engine) : ((arrived t s).me.en u).lag = (s.me.en u).lag := by
  obtain ⟨stk, h⟩ := en_arrived s t u
  rw [h]

@[simp] theorem heldWord_setStack (u : Engine) : (s.setStack t st).me.heldWord u = s.me.heldWord u := by
  have hkeeps : ∀ u, ((s.setStack t st).me.en u).active = (s.me.en u).active ∧
      ((s.setStack t st).me.en u).parked = (s.me.en u).parked ∧ ((s.setStack t st).me.en u).lag = (s.me.en u).lag := fun u => by
    obtain ⟨stk, h⟩ := en_setStack s t u st
    rw [h]
    exact ⟨rfl, rfl, rfl⟩
  simp only [Core.heldWord, Core.heldBack, Core.maxLag, Core.actives, hkeeps, leg_setStack]
  rw [me_setStack]
  rfl

end

/-! ## Words that take one or two operands -/

section
variable {t : Engine} {i : Instr} {n : State → Nat} {q : Nat} {body : List W64 → State → Res} {s e : State} {a b : W64}
  {rest : List W64}

theorem popped_one_completes (h : CanIssue t i s) (hv : top t s = a :: rest) (hq : q ≤ 1)
    (he : body [a] ((arrived t s).setStack t rest) = .ok e) :
    issueN t i n (popping t 1 q body) s = .next (issued t i (n (arrived t s)) s e) :=
  popping_completes h (by simp [hv]) hq (by rw [hv]; exact he)

theorem popped_two_completes (h : CanIssue t i s) (hv : top t s = b :: a :: rest) (hq : q ≤ 2)
    (he : body [b, a] ((arrived t s).setStack t rest) = .ok e) :
    issueN t i n (popping t 2 q body) s = .next (issued t i (n (arrived t s)) s e) :=
  popping_completes h (by simp [hv]) hq (by rw [hv]; exact he)

end

/-! ## The stream words -/

section
variable {s : State} {g : BitVec 4} {v : W64} {rest : List W64}

theorem exec_aSfld {i : BitVec 5} (h : CanIssue .a (.aSfld g i) s) (hv : top .a s = v :: rest)
    (hidle : (s.me.stream g.toNat).active = false) (hfits : fieldFits i.toNat v = true) :
    completes .a (.aSfld g i) 1 s (((arrived .a s).setStack .a rest).updMe fun k => k.setStream g.toNat
      { s.me.stream g.toNat with fields := SMap.set 0 (s.me.stream g.toNat).fields i.toNat (fieldKept i.toNat v) }) := by
  change execASfld g i s = _
  unfold execASfld issue
  refine popped_one_completes h hv (Nat.zero_le 1) ?_
  simp [hidle, hfits]

theorem fieldKept_eq {i : Nat} (hwin : i ≠ 19) (hpad : i ≠ 20) (v : W64) : fieldKept i v = v := by
  rw [fieldKept, if_neg hwin, if_neg hpad]

/-- A.SGO of a legal descriptor whose queue no other stream has (06 R142). -/
theorem exec_aSgo (h : CanIssue .a (.aSgo g) s) (hidle : (s.me.stream g.toNat).active = false)
    (hfree : s.me.bound ((s.me.stream g.toNat).fld 16).toNat = false) (hlegal : (s.me.stream g.toNat).legal = true)
    (hpos : (s.me.stream g.toNat).pos < (s.me.stream g.toNat).total) :
    completes .a (.aSgo g) 1 s ((arrived .a s).updMe fun k => { k.setStream g.toNat { s.me.stream g.toNat with
      active := true, next := (s.me.stream g.toNat).pos, part := [], stopping := false, sgo := (s.me.en .a).pc
      nextRun := s.cycle + 1, asked := [] } with tagLag := SMap.set 0 k.tagLag g.toNat (s.me.en .a).lag }) := by
  change execASgo g s = _
  unfold execASgo issue
  refine issueN_completes h ?_
  simp only [stream_arrived, bound_arrived, hidle, hfree, hlegal, Nat.not_le.2 hpos, decide_false, Bool.not_true, Bool.or_self,
    Bool.false_eq_true, if_false, Res.ok.injEq]
  simp only [State.updMe, pc_arrived, lag_arrived]
  rfl

theorem exec_aSstop_idle (h : CanIssue .a (.aSstop g) s) (hidle : (s.me.stream g.toNat).active = false) :
    completes .a (.aSstop g) 1 s (arrived .a s) := by
  change execASstop g s = _
  unfold execASstop issue
  exact issueN_completes h (by simp [hidle])

theorem exec_aSstop_active (h : CanIssue .a (.aSstop g) s) (hact : (s.me.stream g.toNat).active = true) :
    completes .a (.aSstop g) 1 s ((arrived .a s).updMe fun k => k.later .a (s.cycle + 1) (.halt g.toNat)) := by
  change execASstop g s = _
  unfold execASstop issue
  exact issueN_completes h (by simp [hact]; rfl)

theorem exec_aSstopDrain_idle (h : CanIssue .a (.aSstopDrain g) s) (hidle : (s.me.stream g.toNat).active = false) :
    completes .a (.aSstopDrain g) 1 s (arrived .a s) := by
  change execASstopDrain g s = _
  unfold execASstopDrain issue
  exact issueN_completes h (by simp [hidle])

theorem exec_aSpos (h : CanIssue .a (.aSpos g) s) (hroom : (top .a s).length < 8) :
    completes .a (.aSpos g) 1 s ((arrived .a s).setStack .a (BitVec.ofNat 64 (s.me.stream g.toNat).pos :: top .a s)) := by
  change execASpos g s = _
  unfold execASpos issue
  refine issueN_completes h ?_
  rw [popping_arrived (Nat.zero_le _) (by omega), pushing_setStack, stream_setStack, stream_arrived]
  rfl

theorem exec_aSposSet (h : CanIssue .a (.aSposSet g) s) (hv : top .a s = v :: rest) (hidle : (s.me.stream g.toNat).active = false)
    (hpos : v.toNat < (s.me.stream g.toNat).total) :
    completes .a (.aSposSet g) 1 s (((arrived .a s).setStack .a rest).updMe fun k => k.setStream g.toNat
      { s.me.stream g.toNat with pos := v.toNat, next := v.toNat }) := by
  change execASposSet g s = _
  unfold execASposSet issue
  refine popped_one_completes h hv (Nat.zero_le 1) ?_
  simp [hidle, Nat.not_le.2 hpos]

theorem exec_aAgen (h : CanIssue .a (.aAgen g) s) (hv : top .a s = v :: rest) (hlegal : (s.me.stream g.toNat).legal = true)
    (hpos : v.toNat < (s.me.stream g.toNat).total) :
    completes .a (.aAgen g) 3 s ((arrived .a s).setStack .a
      (((s.me.stream g.toNat).addr v.toNat).elim (BitVec.allOnes 64) (BitVec.ofNat 64) :: rest)) := by
  change execAAgen g s = _
  unfold execAAgen issue
  refine popped_one_completes h hv (Nat.le_refl 1) ?_
  simp only [stream_setStack, stream_arrived, hlegal, pushing_setStack]
  cases haddr : (s.me.stream g.toNat).addr v.toNat <;> simp [haddr, Nat.not_le.2 hpos]

end

/-- Settles O21: each word by the lemma of its form. -/
theorem streamWords : Obligations.StreamWords := by
  intro s g v rest
  exact ⟨fun i => exec_aSfld, fun i hwin hpad => fieldKept_eq hwin hpad v, exec_aSgo, exec_aSstop_idle, exec_aSstop_active,
    exec_aSstopDrain_idle, exec_aSpos, exec_aSposSet, exec_aAgen⟩

end Sys2Proof.Words
end

section
/-! SUPPORT. The words of the access engine that move lines and that act on valid bits (06 R124, R138, R140, R145-R149). -/

namespace Sys2Proof.Words

open Sys2Proof.Machine Sys2Proof.Spec

/-! ## An access of a word to the scratchpad -/

section
variable {s : State} {sa : W64}

theorem lineFree_setStack (h : LineFree s sa) (t : Engine) (st : List W64) : LineFree (s.setStack t st) sa := by
  rwa [LineFree, heldWord_setStack, filling_setStack]

theorem wordsFree_setStack {n : W64} (h : WordsFree s sa n) (t : Engine) (st : List W64) : WordsFree (s.setStack t st) sa n := by
  rwa [WordsFree, heldWord_setStack, filling_setStack]

theorem withLine_free (h : LineFree s sa) (r : Res) : withLine sa r = r := by
  obtain ⟨-, halign, hin, -⟩ := h
  rw [withLine, if_neg (Decidable.not_not.2 halign), if_neg (Nat.not_le.2 hin)]

theorem padWord_free {write : Bool} {x n : Nat} {f : State → Res} (h : s.me.heldWord .a = false) :
    padWord write x n f s = f (atPad write x n s) := by
  rw [padWord, h, if_neg Bool.false_ne_true]
  rfl

theorem eng_padPut (k : Core) (x : Nat) (b : Byte) : (k.padPut x b).eng = k.eng := by
  rw [padPut_eq]

theorem eng_padWriteSome (k : Core) (x : Nat) (bs : List (Option Byte)) : (k.padWriteSome x bs).eng = k.eng := by
  induction bs generalizing k x with
  | nil => rfl
  | cons b bs ih =>
    cases b with
    | none => exact ih k (x + 1)
    | some b => exact (ih (k.padPut x b) (x + 1)).trans (eng_padPut k x b)

theorem eng_padLanded (k : Core) : k.padLanded.eng = k.eng := by
  unfold Core.padLanded
  refine List.foldlRecOn (motive := fun c : Core => c.eng = k.eng) _ _ rfl fun c hc l _ => ?_
  dsimp only
  split
  · exact (eng_padWriteSome c _ _).trans hc
  · exact hc

theorem eng_landedLose (k : Core) (ps : List Nat) (cycle : Nat) : (k.landedLose ps cycle).eng = k.eng := by
  unfold Core.landedLose
  split
  · rfl
  · refine List.foldlRecOn (motive := fun c : Core => c.eng = k.eng) _ _ rfl fun c hc l _ => ?_
    unfold Core.waitTag
    dsimp only
    split
    · exact hc
    · exact hc

/-- The stacks are as they were when a word reaches the scratchpad. -/
theorem stack_atPad (write : Bool) (x n : Nat) (t : Engine) : (atPad write x n s).stack t = s.stack t := by
  rw [State.stack, State.stack, atPad, State.me_updMe, Core.takePorts, Core.en, eng_padLanded, eng_landedLose]
  rfl

/-- A read of written words by a word of A gives their bytes (06 R126). -/
theorem withPad_readPad {x n : Nat} {f : List Byte → State → Res} (h : (readPad x n s).me.firstUnwritten x n = none) :
    withPad (atPad false x n s) 1 x n f = f ((readPad x n s).me.padBytes x n) (readPad x n s) := by
  rw [readPad] at h
  simp only [withPad, State.padRead, if_true, h]
  rfl

theorem withWords_free {n : W64} {f : State → Res} (h : WordsFree s sa n) : withWords sa n f s = f (atPad false 0 0 s) := by
  obtain ⟨hheld, halign, hin, hfill⟩ := h
  rw [withWords, if_neg (Decidable.not_not.2 halign), if_neg (Nat.not_lt.2 hin), hfill, if_neg Bool.false_ne_true, padWord_free hheld]

/-- An update of the acting core is one by any function that gives the same core. -/
theorem updMe_congr {f g : Core → Core} (h : f s.me = g s.me) : s.updMe f = s.updMe g := by
  rw [State.updMe, State.updMe, h]

end

/-! ## Translation leaves the acting core but for its TLB -/

section
variable {s s2 : State} {va : W64} {n : Nat} {read write : Bool} {p : Place}

theorem me_of_translate (h : Machine.translate s va write = .at_ p s2) : ∃ tlb, s2.me = { s.me with tlb := tlb } := by
  unfold Machine.translate at h
  dsimp only at h
  split at h
  · cases h
  · split at h
    · unfold askWalk at h
      dsimp only at h
      split at h
      · split at h <;> cases h
      · cases h
    · split at h
      · cases h
        split
        · exact ⟨_, State.me_setMe _ _⟩
        · exact ⟨s.me.tlb, rfl⟩
      · cases h

theorem me_of_locate (h : locate s va n read write = .at_ p s2) : ∃ tlb, s2.me = { s.me with tlb := tlb } := by
  unfold locate at h
  split at h
  next htr =>
    split at h
    · cases h
    · split at h
      · cases h
      · cases h
        exact me_of_translate htr
  next hne => exact absurd h (hne p s2)

/-- A line that a word may use is free after the translation of its address. -/
theorem lineFree_locate {sa : W64} (hfree : LineFree s sa) (h : locate s va n read write = .at_ p s2) : LineFree s2 sa := by
  obtain ⟨tlb, hme⟩ := me_of_locate h
  rw [LineFree, hme]
  exact hfree

end

/-! ## Lines -/

section
variable {s : State} {sa va f : W64} {rest : List W64}

theorem entryFmt_eq_true (hf : f.toNat < 16) (h13 : f ≠ 13) : entryFmt f = true := by
  rw [entryFmt, decide_eq_true hf, Bool.true_and, bne_iff_ne]
  exact h13

theorem exec_aLdq {q : BitVec 2} (hfree : LineFree (arrived .a s) sa) (h : CanIssue .a (.aLdq q) s) (hv : top .a s = f :: sa :: rest)
    (hf : f.toNat < 16) (h13 : f ≠ 13) (hbound : s.me.bound q.toNat = false) (hroom : s.me.room q.toNat 1 = true)
    (hread : (readPad sa.toNat 128 ((arrived .a s).setStack .a rest)).me.firstUnwritten sa.toNat 128 = none) :
    completes .a (.aLdq q) 1 s ((readPad sa.toNat 128 ((arrived .a s).setStack .a rest)).updMe fun k =>
      k.later .a (s.cycle + 3) (.push q.toNat [QEntry.full f.toNat (k.padBytes sa.toNat 128)] none 0)) := by
  have hline := lineFree_setStack hfree .a rest
  obtain ⟨hheld, -, -, hfill⟩ := id hline
  change execALdq q s = _
  unfold execALdq issue
  refine popped_two_completes h hv (Nat.zero_le 2) ?_
  change withLine sa _ = _
  simp only [withLine_free hline, List.getD_cons_zero, List.getD_cons_succ, entryFmt_eq_true hf h13, bound_setStack,
    bound_arrived, hbound, room_setStack, room_arrived, hroom, hfill, Bool.not_true, Bool.or_self, Bool.false_eq_true, if_false,
    padWord_free hheld, withPad_readPad hread]
  exact congrArg Res.ok (updMe_congr rfl)

theorem exec_aStq {q : BitVec 1} {e : QEntry} {es : List QEntry} (hfree : LineFree (arrived .a s) sa) (h : CanIssue .a (.aStq q) s)
    (hv : top .a s = sa :: rest) (hbound : s.me.bound (4 + q.toNat) = false) (hq : s.me.queue (4 + q.toNat) = e :: es) :
    completes .a (.aStq q) 1 s ((atPad true sa.toNat 128 ((arrived .a s).setStack .a rest)).updMe fun k =>
      (k.setQueue (4 + q.toNat) es).padWriteSome sa.toNat e.enabled) := by
  have hline := lineFree_setStack hfree .a rest
  obtain ⟨hheld, -, -, hfill⟩ := id hline
  change execAStq q s = _
  unfold execAStq issue
  refine popped_one_completes h hv (Nat.zero_le 1) ?_
  change withLine sa _ = _
  simp only [withLine_free hline, List.getD_cons_zero, bound_setStack, bound_arrived, hbound, queue_setStack, queue_arrived, hq,
    hfill, Bool.false_eq_true, if_false, padWord_free hheld]

variable {c : BitVec 2} {p : Place} {s2 : State}

theorem exec_aLdg (hfree : LineFree (arrived .a s) sa) (htimed : s.me.leg.timed = false) (h : CanIssue .a (.aLdg c) s)
    (hv : top .a s = sa :: va :: rest) (hloc : locate ((arrived .a s).setStack .a rest) va 128 true false = .at_ p s2) :
    completes .a (.aLdg c) 1 s (s2.updMe fun k => { k.padLanded with posted := k.posted ++
      [{ eng := .a, die := p.die, peer := p.peer, tier := p.tier, off := p.off, va := va, klock := p.klock
         mt := p.mt, cls := c.toNat, write := none, pad := sa.toNat, tpc := (k.en .a).pc }] }) := by
  have hline := lineFree_locate (lineFree_setStack hfree .a rest) hloc
  obtain ⟨-, -, -, hfill⟩ := id hline
  change execALdg c s = _
  unfold execALdg issue
  refine popped_two_completes h hv (Nat.zero_le 2) ?_
  simp only [leg_setStack, leg_arrived, htimed, List.getD_cons_zero, List.getD_cons_succ, withPlace, hloc, withLine_free hline,
    hfill, Bool.false_eq_true, if_false]

theorem exec_aStg (hfree : LineFree (arrived .a s) sa) (htimed : s.me.leg.timed = false) (h : CanIssue .a (.aStg c) s)
    (hv : top .a s = sa :: va :: rest) (hloc : locate ((arrived .a s).setStack .a rest) va 128 false true = .at_ p s2)
    (hread : (readPad sa.toNat 128 s2).me.firstUnwritten sa.toNat 128 = none) :
    completes .a (.aStg c) 1 s ((readPad sa.toNat 128 s2).updMe fun k => { k with posted := k.posted ++
      [{ postedWrite .a p va c.toNat (k.padBytes sa.toNat 128) with tpc := (k.en .a).pc }] }) := by
  have hline := lineFree_locate (lineFree_setStack hfree .a rest) hloc
  obtain ⟨hheld, -, -, hfill⟩ := id hline
  change execAStg c s = _
  unfold execAStg issue
  refine popped_two_completes h hv (Nat.zero_le 2) ?_
  simp only [leg_setStack, leg_arrived, htimed, List.getD_cons_zero, List.getD_cons_succ, withPlace, hloc, withLine_free hline,
    hfill, Bool.false_eq_true, if_false, padWord_free hheld, withPad_readPad hread]
  exact congrArg Res.ok (updMe_congr rfl)

end

/-- Settles O23: each word by the lemma of its form. -/
theorem lineWords : Obligations.LineWords := by
  intro s sa va f rest hfree
  exact ⟨fun q => exec_aLdq hfree, fun q e es => exec_aStq hfree,
    fun c p s2 htimed => ⟨exec_aLdg hfree htimed, exec_aStg hfree htimed⟩⟩

/-! ## Valid bits -/

section
variable {i : Instr} {s s1 e : State} {sa n : W64} {rest : List W64}

/-- A word on a run of scratchpad words that may be used has its body's effect there, at the distance its count gives (06 R140). -/
theorem wordsIssue_completes {q : Nat} {f : List W64 → State → Res} (h : CanIssue .a i s) (hv : top .a s = n :: sa :: rest)
    (hfree : WordsFree (arrived .a s) sa n) (hq : q ≤ 2)
    (he : f [n, sa] (atPad false 0 0 ((arrived .a s).setStack .a rest)) = .ok e) :
    issueN .a i wordsIssue (popping .a 2 q fun vs => withWords (vs.getD 1 0) (vs.getD 0 0) (f vs)) s =
      .next (issued .a i (wordsDistance n) s e) := by
  have hdist : wordsIssue (arrived .a s) = wordsDistance n := by
    rw [wordsIssue, stack_arrived, hv]
    rfl
  rw [popped_two_completes h hv hq ((withWords_free (wordsFree_setStack hfree .a rest)).trans he), hdist]

variable (hv : top .a s = n :: sa :: rest) (hfree : WordsFree (arrived .a s) sa n)
  (hs1 : s1 = atPad false 0 0 ((arrived .a s).setStack .a rest))
include hv hfree hs1

theorem exec_aAlloc (h : CanIssue .a .aAlloc s) :
    completes .a .aAlloc (wordsDistance n) s (s1.updMe fun k =>
      { k with valid := k.valid.filter fun p => !(decide (sa.toNat / 4 ≤ p.1) && decide (p.1 < sa.toNat / 4 + n.toNat))
               cleared := (sa.toNat / 4, sa.toNat / 4 + n.toNat) :: k.cleared }) := by
  subst hs1
  exact wordsIssue_completes h hv hfree (Nat.zero_le 2) rfl

theorem exec_aValidCnt (h : CanIssue .a .aValidCnt s) :
    completes .a .aValidCnt (wordsDistance n) s (s1.setStack .a
      (BitVec.ofNat 64 ((List.range n.toNat).countP fun j => SMap.get false s1.me.valid (sa.toNat / 4 + j)) :: rest)) := by
  subst hs1
  refine wordsIssue_completes h hv hfree (Nat.le_succ 1) ?_
  rw [pushing, stack_atPad, State.stack_setStack_same, List.countP_eq_length_filter]
  rfl

theorem exec_aValidFirst (h : CanIssue .a .aValidFirst s) :
    completes .a .aValidFirst (wordsDistance n) s (s1.setStack .a
      (BitVec.ofNat 64 (((List.range n.toNat).find? fun j => !SMap.get false s1.me.valid (sa.toNat / 4 + j)).getD
        n.toNat) :: rest)) := by
  subst hs1
  refine wordsIssue_completes h hv hfree (Nat.le_succ 1) ?_
  rw [pushing, stack_atPad, State.stack_setStack_same]
  rfl

theorem exec_aValidSet (h : CanIssue .a .aValidSet s) :
    completes .a .aValidSet (wordsDistance n) s (s1.updMe (validated (sa.toNat / 4) n.toNat)) := by
  subst hs1
  exact wordsIssue_completes h hv hfree (Nat.zero_le 2) rfl

end

/-- Settles O24: each word by the lemma of its form; what A.VALID set leaves, by the lemmas on words made valid. -/
theorem validBitWords : Obligations.ValidBitWords := by
  intro s s1 sa n rest hv hfree hs1
  refine ⟨exec_aAlloc hv hfree hs1, exec_aValidCnt hv hfree hs1, exec_aValidFirst hv hfree hs1, fun h => ?_⟩
  have hset := validated_eq (sa.toNat / 4) n.toNat s1.me
  refine ⟨(validated (sa.toNat / 4) n.toNat s1.me).pad, (validated (sa.toNat / 4) n.toNat s1.me).valid, ?_, fun x => ?_,
    valid_validated (sa.toNat / 4) n.toNat s1.me⟩
  · rw [← updMe_congr (f := validated (sa.toNat / 4) n.toNat) hset]
    exact exec_aValidSet hv hfree hs1 h
  · rw [← hset, padByte_validated]

end Sys2Proof.Words
end

section
/-! SUPPORT. Two statements that fail, each with the state that shows it: an A.XQ put behind a push of no entries that is under way
(06 R130, R152; log entry 80), and a run of a store stream whose head entry is passed already (06 R133, R423; log entry 79). -/

namespace Sys2Proof.Words

open Sys2Proof.Machine Sys2Proof.Spec

/-! ## A.XQ put behind a push of no entries -/

/-- Core 0 is to put the value 9 in format 1 on queue 0, to which an earlier word of A has a push of no entries under way. -/
def emptyPushDue : State :=
  { State.reset with
    cycle := 10
    cores := [(0, { eng := { a := { stack := [1, 9] } }, late := [{ at_ := 12, eng := .a, act := .push 0 [] none 0 }] })] }

/-- Queue 0 in the state a word comes to. -/
def queueAfter : Out → List QEntry
  | .next s => s.me.queue 0
  | _ => []

/-- The model puts the entry behind the push that is under way: the queue is still empty. -/
theorem queueAfter_emptyPushDue : queueAfter (exec (.aXqPut 0) emptyPushDue) = [] := by decide +kernel

/-- Refutes O26: a push of no entries that is under way counts as no entry due for the queue, but A.XQ put still follows it, where
the statement has the entry in the queue at once. -/
theorem not_accessAluAndQueues : ¬ Obligations.AccessAluAndQueues := by
  intro h
  obtain ⟨-, -, hqueues⟩ := h emptyPushDue 9 1 []
  obtain ⟨-, -, hput⟩ := hqueues 0 (by decide +kernel)
  have hissue : CanIssue .a (.aXqPut 0) emptyPushDue := by
    delta CanIssue
    decide +kernel
  have hqueue := congrArg queueAfter (hput hissue (by decide) (by decide +kernel) (by decide) (by decide) (by decide +kernel)
    (by decide +kernel))
  rw [queueAfter_emptyPushDue] at hqueue
  exact absurd hqueue (by decide +kernel)

/-! ## A store stream whose head entry is passed -/

/-- The descriptor of an active stream that stores one element of format 1 from queue 4 at address 256 of the scratchpad. -/
def storeStream : Stream :=
  { fields := [(0, 256), (2, 1), (3, 1), (4, 1), (5, 1), (6, 4), (10, 1), (14, 1), (16, 4)], active := true }

/-- An entry of 32 elements of format 1, none enabled, that the stream has passed. -/
def passedEntry : QEntry := { fmt := 1, bytes := List.replicate 128 0, done := 32 }

/-- An entry of another format, its first element enabled. -/
def otherEntry : QEntry := { fmt := 2, bytes := List.replicate 128 3, enable := 1 }

/-- Core 0 runs the stream over the two entries. -/
def passedHead : State :=
  { State.reset with
    cycle := 10
    cores := [(0, { run := .running, streams := [(0, storeStream)], queues := [(4, [passedEntry, otherEntry])] })] }

/-- What is under way in the state an event comes to. -/
def lateAfter : Out → List LateDo
  | .next s => s.me.late.map Late.act
  | _ => []

/-- The model takes the element from the entries of the stream's own format: it is disabled. -/
theorem lateAfter_passedHead : lateAfter (exec (.streamRun 0) passedHead) = [.pad 256 (List.replicate 4 none) 0] := by
  decide +kernel

/-- Refutes O22: the head entry has all its elements passed, and the run of one element then lies beyond the entries of the stream's
format. The model takes its last choice among these, the head, where the statement takes the entry behind them, of another format. -/
theorem not_streamRuns : ¬ Obligations.StreamRuns := by
  intro h
  obtain ⟨hrun, -⟩ := h passedHead 0 storeStream 256 1 4 (by decide +kernel) (by decide +kernel) (by decide +kernel)
    (by decide +kernel) (by decide +kernel) (by decide +kernel) (by decide +kernel)
  have hplain : PlainPadStream storeStream := by
    delta PlainPadStream
    decide +kernel
  obtain ⟨-, hstore⟩ := hrun (by decide +kernel) (by decide +kernel) hplain (by decide) (by decide) (by decide)
    (by decide +kernel) (by decide) (by decide) (by decide +kernel) (by decide +kernel)
  have hlate := congrArg lateAfter (hstore passedEntry [otherEntry] (by decide) (by decide +kernel) (by decide +kernel) (by decide)
    1 0 (by decide +kernel) (by decide +kernel) (by decide +kernel))
  rw [lateAfter_passedHead] at hlate
  exact absurd hlate (by decide +kernel)

end Sys2Proof.Words
end

section
/-! SUPPORT. What a word of E reads from its sources and leaves as it was; the bits of EM after E.MASK (07 R157, R160; 08 R195,
R196). -/

namespace Sys2Proof.Words

open Sys2Proof.Machine Sys2Proof.Spec

/-! ## The sources of a word of E (07 R157, R160) -/

@[simp] theorem vec_arrived (s : State) (t : Engine) : (arrived t s).me.vec = s.me.vec := by
  rw [arrived, State.me_updMe]
  rfl

theorem vec_readSource (k : Core) (sh : Shape) (code : Nat) : (k.readSource sh code).2.vec = k.vec := by
  unfold Core.readSource
  dsimp only
  split <;> rfl

/-- Reading sources takes entries from queues and from the stack, and leaves the registers of E. -/
theorem vec_readSources (k : Core) (sh : Shape) (codes : List Nat) : (k.readSources sh codes).2.vec = k.vec := by
  induction codes generalizing k with
  | nil => rfl
  | cons c cs ih => exact (ih _).trans (vec_readSource k sh c)

section
variable {i : Instr} {sh : Shape} {s : State}

@[simp] theorem vec_vecRead : (vecRead i sh s).2.me.vec = s.me.vec := by
  rw [vecRead, State.me_setMe]
  exact (vec_readSources _ sh _).trans (vec_arrived s .e)

/-- A word of E whose sources and destination are ready reads its sources. -/
theorem withSources_ready {dw dn : Nat} {f : List (List Nat) → State → Res} (h : VecReady i sh dw dn s) :
    withSources i sh dw dn f (arrived .e s) = f (vecRead i sh s).1 (vecRead i sh s).2 := by
  obtain ⟨hstack, hrstat, htiles, hentries, htags, hroom⟩ := h
  have hcycle : (arrived .e s).cycle = s.cycle := rfl
  simp only [vec_arrived] at hrstat
  simp only [withSources, vec_arrived, stack_arrived, hstack, hcycle, hrstat, htiles, hentries, htags, Bool.not_true, Bool.or_self,
    Bool.false_eq_true, if_false]
  cases hdst : (s.me.vec.codes i).dst with
  | none => rfl
  | some d =>
    simp only [hroom d hdst, Bool.not_true, Bool.false_eq_true, if_false]
    rfl

end

/-! ## Numbers whose bits are given (08 R195) -/

/-- The number with the bits of a function below bit `n`. -/
def numOfBits (n : Nat) (g : Nat → Bool) : Nat := ((List.range n).map fun i => if g i then 2 ^ i else 0).sum

theorem numOfBits_succ (n : Nat) (g : Nat → Bool) : numOfBits (n + 1) g = 2 ^ n * (g n).toNat + numOfBits n g := by
  simp only [numOfBits, List.range_succ, List.map_append, List.sum_append]
  cases h : g n <;> simp [h, Nat.add_comm]

theorem numOfBits_lt (n : Nat) (g : Nat → Bool) : numOfBits n g < 2 ^ n := by
  induction n with
  | zero => exact Nat.one_pos
  | succ n ih =>
    have hbit : 2 ^ n * (g n).toNat ≤ 2 ^ n * 1 := Nat.mul_le_mul_left _ (Bool.toNat_le _)
    rw [numOfBits_succ, Nat.pow_succ]
    omega

theorem testBit_numOfBits (n : Nat) (g : Nat → Bool) (j : Nat) : (numOfBits n g).testBit j = (decide (j < n) && g j) := by
  induction n with
  | zero => simp [numOfBits]
  | succ n ih =>
    rw [numOfBits_succ, Nat.testBit_two_pow_mul_add _ (numOfBits_lt n g), ih]
    rcases Nat.lt_trichotomy j n with h | rfl | h
    · simp [h, Nat.lt_succ_of_lt h]
    · cases g j <;> simp
    · have hhigh : (g n).toNat < 2 ^ (j - n) :=
        Nat.lt_of_lt_of_le (Bool.toNat_lt _) (Nat.le_self_pow (Nat.sub_ne_zero_of_lt h) 2)
      rw [if_neg (by omega), Nat.testBit_lt_two_pow hhigh, decide_eq_false (by omega), Bool.false_and]

/-- The mask bits below bit `n` become those of the function, and the others stay. -/
theorem getLsbD_setMask (em : BitVec 1024) (n : Nat) (g : Nat → Bool) {j : Nat} (hj : j < 1024) :
    (setMask em n g).getLsbD j = if n ≤ j then em.getLsbD j else g j := by
  have hsum : setMask em n g = BitVec.ofNat 1024 (2 ^ n * (em.toNat / 2 ^ n) + numOfBits n g) := by
    rw [Nat.mul_comm]
    rfl
  rw [hsum, BitVec.getLsbD_ofNat, decide_eq_true hj, Bool.true_and, Nat.testBit_two_pow_mul_add _ (numOfBits_lt n g)]
  by_cases h : n ≤ j
  · rw [if_neg (Nat.not_lt.2 h), if_pos h, Nat.testBit_div_two_pow, Nat.sub_add_cancel h]
    rfl
  · rw [if_pos (Nat.not_le.1 h), if_neg h, testBit_numOfBits, decide_eq_true (Nat.not_le.1 h), Bool.true_and]

/-! ## E.MASK (08 R195, R196) -/

/-- The state with another mask, which stands from a cycle on. -/
def masking (em : BitVec 1024) (at_ : Nat) (s : State) : State := s.updVec fun x => { x with em := em }.readyAt [16] at_

/-- The model's update of the mask, in a state whose mask is known. -/
theorem updVec_setMask {s : State} {em : BitVec 1024} (hem : s.me.vec.em = em) (n at_ : Nat) (g : BitVec 1024 → Nat → Bool) :
    (s.updVec fun x => { x with em := setMask x.em n (g x.em) }.readyAt [16] at_) = masking (setMask em n (g em)) at_ s := by
  subst hem
  rfl

/-- The bit of an element after the forms that use a source, of the elements `src`: set, and, or (08 R195). -/
def sourceBit (f : BitVec 3) (src : List Nat) (em : BitVec 1024) (j : Nat) : Bool :=
  if f = 0 then src.getD j 0 != 0 else if f = 1 then em.getLsbD j && src.getD j 0 != 0 else em.getLsbD j || src.getD j 0 != 0

/-- The bit of an element after the box form, of `nr` rows and `nc` columns (08 R195). -/
def boxBit (sh : Shape) (nr nc : W64) (j : Nat) : Bool := decide (j / sh.cols < nr.toNat) && decide (j % sh.cols < nc.toNat)

theorem maskBit_source {f : BitVec 3} (hf : f = 0 ∨ f = 1 ∨ f = 2) {sh : Shape} {em : BitVec 1024} {src : List Nat} {u v : W64}
    {j : Nat} : maskBit f sh em src u v j = if sh.n ≤ j then em.getLsbD j else sourceBit f src em j := by
  rcases hf with rfl | rfl | rfl <;> rfl

section
variable {a : BitVec 5} {f : BitVec 3} {s : State} {sh : Shape} {u v : W64} {rest : List W64}

/-- A form with an assigned value: one that uses a source, not, all or box. -/
theorem eMask_forms (h : CanIssue .e (.eMask a f) s) : (f = 0 ∨ f = 1 ∨ f = 2) ∨ f = 3 ∨ f = 4 ∨ f = 5 := by
  obtain ⟨hlegal, -⟩ := h
  have hle : f.toNat ≤ 5 := by
    rw [legalFields] at hlegal
    split at hlegal
    next hsource => omega
    next => exact of_decide_eq_true (Bool.and_eq_true_iff.1 hlegal).2
  have hforms : ∀ g : BitVec 3, g.toNat ≤ 5 → (g = 0 ∨ g = 1 ∨ g = 2) ∨ g = 3 ∨ g = 4 ∨ g = 5 := by decide
  exact hforms f hle

theorem exec_eMask_all (h : CanIssue .e (.eMask a 4) s) :
    completes .e (.eMask a 4) 1 s (masking (BitVec.allOnes 1024) (s.cycle + 2) (arrived .e s)) := by
  change execEMask a 4 s = _
  unfold execEMask
  exact issueN_completes h rfl

variable (hsh : sh = shapeOf s.me.vec.shp) (hok : sh.ok = true)
include hsh hok

theorem exec_eMask_source (hf : f = 0 ∨ f = 1 ∨ f = 2) (h : CanIssue .e (.eMask a f) s)
    (hready : VecReady (.eMask a f) sh 1 0 s) :
    completes .e (.eMask a f) sh.beats s
      (masking (setMask s.me.vec.em sh.n (sourceBit f ((vecRead (.eMask a f) sh s).1.getD 0 []) s.me.vec.em))
        (s.cycle + (4 + sh.beats)) (vecRead (.eMask a f) sh s).2) := by
  have hle : f.toNat ≤ 2 := by rcases hf with rfl | rfl | rfl <;> decide
  have hother : f ≠ 3 ∧ f ≠ 4 ∧ f ≠ 5 := by rcases hf with rfl | rfl | rfl <;> decide
  obtain ⟨h3, h4, h5⟩ := hother
  have hocc : sh.beats = if f.toNat ≤ 2 then (shapeOf (arrived .e s).me.vec.shp).beats else 1 := by
    rw [if_pos hle, vec_arrived, hsh]
  change execEMask a f s = _
  unfold execEMask
  rw [hocc]
  refine issueN_completes h ?_
  simp only [vec_arrived, ← hsh, hok, h3, h4, h5, hle, Bool.not_true, Bool.false_eq_true, if_true, if_false,
    withSources_ready hready]
  exact congrArg Res.ok (updVec_setMask (congrArg Vec.em vec_vecRead) _ _ (sourceBit f _))

theorem exec_eMask_not (h : CanIssue .e (.eMask a 3) s) :
    completes .e (.eMask a 3) 1 s
      (masking (setMask s.me.vec.em sh.n fun j => !s.me.vec.em.getLsbD j) (s.cycle + 2) (arrived .e s)) := by
  change execEMask a 3 s = _
  unfold execEMask
  refine issueN_completes h ?_
  simp only [vec_arrived, ← hsh, hok, Bool.not_true, Bool.false_eq_true, if_true, if_false]
  exact congrArg Res.ok (updVec_setMask (congrArg Vec.em (vec_arrived s .e)) _ _ fun em j => !em.getLsbD j)

theorem exec_eMask_box (h : CanIssue .e (.eMask a 5) s) (hv : top .e s = v :: u :: rest) :
    completes .e (.eMask a 5) 1 s
      (masking (setMask s.me.vec.em sh.n (boxBit sh u v)) (s.cycle + 2) ((arrived .e s).setStack .e rest)) := by
  change execEMask a 5 s = _
  unfold execEMask
  refine issueN_completes h ?_
  have hroom := length_top_of_canIssue h
  have hem : ((arrived .e s).setStack .e rest).me.vec.em = s.me.vec.em := by
    rw [me_setStack_arrived]
    rfl
  have htwo : 2 ≤ (top .e s).length := by simp [hv]
  simp only [vec_arrived, ← hsh, hok, Bool.not_true, Bool.false_eq_true, if_true, if_false]
  rw [popping_arrived htwo (by omega), hv]
  exact congrArg Res.ok (updVec_setMask hem _ _ fun _ => boxBit sh u v)

end

/-- Settles O30: each form by its lemma, and the bits of the mask it leaves by the lemma on numbers whose bits are given. -/
theorem maskWords : Obligations.MaskWords := by
  intro s sh a f u v rest hsh h hok hbox hready
  rcases eMask_forms h with hf | rfl | rfl | rfl
  · have hle : f.toNat ≤ 2 := by rcases hf with rfl | rfl | rfl <;> decide
    have hshape : sh.ok = true := hok.resolve_left (by rintro rfl; exact absurd hle (by decide))
    refine ⟨_, ?_, fun j hj => (getLsbD_setMask _ _ _ hj).trans (maskBit_source hf).symm⟩
    simp only [if_pos hle]
    exact exec_eMask_source hsh hshape hf h (hready hle)
  · exact ⟨_, exec_eMask_not hsh (hok.resolve_left (by decide)) h, fun j hj => getLsbD_setMask _ _ _ hj⟩
  · refine ⟨_, exec_eMask_all h, fun j hj => ?_⟩
    rw [BitVec.getLsbD_allOnes]
    exact decide_eq_true hj
  · exact ⟨_, exec_eMask_box hsh (hok.resolve_left (by decide)) h (hbox rfl), fun j hj => getLsbD_setMask _ _ _ hj⟩

end Sys2Proof.Words
end

section
/-! SUPPORT. E.CVT under a repetition that steps source A to PS: the statement about conversions fails there (07 R183, R184; 08
R187, R189). -/

namespace Sys2Proof.Words

open Sys2Proof.Machine Sys2Proof.Spec

/-- E.CVT from FP32 to INT8, of V15 with a scale from PS, into V0. -/
def scaledCvt : Instr := .eCvt 0 0 15 22 0 0 6

/-- Core 0 has repetition 7 of a pending E.REP that steps sources: V15 stands for code 22, PS. On the stack are 2.0 and, under it,
1.0 of FP32; the shape is one element of FP32. -/
def steppedToPs : State :=
  { State.reset with
    cores := [(0, { eng := { e := { stack := [0x40000000, 0x3F800000] } }
                    vec := { shp := 1, rep := some { n := 9, mode := 2, k := 7 } } })] }

/-- Byte 0 of V0 in the state a word comes to. -/
def convertedByte : Out → Byte
  | .next s => SMap.get 0 s.me.vec.v 0
  | _ => 0

/-- The model scales by the entry under the one that source A takes. -/
theorem convertedByte_steppedToPs : convertedByte (exec scaledCvt steppedToPs) = 2 := by decide +kernel

/-- Refutes O29: the statement speaks of every state, also of one in the midst of a repetition that E.REP would have refused at its
start (07 R184), in which V15 has stepped to PS. Source A then takes the top entry, and the model scales by the one under it, where
the statement scales by the top entry because the word's own code of A is not PS: byte 0 of V0 is 2 and not 4. -/
theorem not_conversionWords : ¬ Obligations.ConversionWords := by
  intro h
  have hissue : CanIssue .e scaledCvt steppedToPs := by
    delta CanIssue
    decide +kernel
  have hready : VecReady scaledCvt (shapeOf 1) 1 1 steppedToPs := by
    delta VecReady
    decide +kernel
  obtain ⟨hcvt, -⟩ := h steppedToPs (shapeOf 1) (by decide +kernel)
  have hexec := hcvt 0 0 15 22 0 0 6 scaledCvt _ _ _ _ rfl hissue rfl (by decide +kernel) (.inl rfl) (by decide +kernel) hready
    rfl rfl rfl
  have hbyte := congrArg convertedByte hexec
  rw [convertedByte_steppedToPs] at hbyte
  exact absurd hbyte (by decide +kernel)

end Sys2Proof.Words
end

section
/-! SUPPORT. What a word of M finds as it was, and the words of M on slots, planes, the routing register and the accumulators (03
R56; 09 R199-R205, R211, R214-R216). -/

namespace Sys2Proof.Words

open Sys2Proof.Machine Sys2Proof.Spec

/-! ## What a word finds as it was -/

/-- A word that takes no operand finds the stack with the values sent to its engine (04 R86). -/
theorem setStack_top (s : State) (t : Engine) : (arrived t s).setStack t (top t s) = arrived t s := by
  refine (updMe_updMe _ _ _).trans (updMe_congr ?_)
  rw [top, State.stack, arrived, State.me_updMe]
  cases t <;> rfl

@[simp] theorem cycle_arrived (s : State) (t : Engine) : (arrived t s).cycle = s.cycle := rfl

@[simp] theorem cycle_stickIf (s : State) (b : Bool) (bit : Nat) : (s.stickIf b bit).cycle = s.cycle := by
  cases b <;> rfl

section
variable (k : Core) (t : Engine) (st : List W64)

@[simp] theorem mat_taking : (taking k t st).mat = k.mat := rfl

@[simp] theorem claim_taking (x : Nat) : (taking k t st).claim x = k.claim x := rfl

@[simp] theorem claimBusy_taking (v x : Nat) : (taking k t st).claimBusy v x = k.claimBusy v x := rfl

@[simp] theorem badSlot_taking (x n : Nat) (w : Bool) : (taking k t st).badSlot x n w = k.badSlot x n w := rfl

@[simp] theorem slotRead_taking (x : Nat) : (taking k t st).slotRead x = k.slotRead x := rfl

@[simp] theorem slotWritten_taking (x : Nat) : (taking k t st).slotWritten x = k.slotWritten x := rfl

@[simp] theorem epiDue_taking (x n : Nat) : (taking k t st).epiDue x n = k.epiDue x n := rfl

@[simp] theorem slotBytes_taking (x n : Nat) : (taking k t st).slotBytes x n = k.slotBytes x n := rfl

theorem followDue_taking (tiles : List Nat) (plane : Bool) (limit : Nat) :
    (taking k t st).followDue tiles plane limit = k.followDue tiles plane limit := by
  simp only [Core.followDue, coming_taking]
  rfl

end

/-! ## Bytes of slots -/

section
variable {α : Type} (d : α) (m : SMap α) (k : Nat) {j n : Nat}

theorem getD_slice (h : j < n) : (SMap.slice d m k n).getD j d = SMap.get d m (k + j) := by
  rw [SMap.slice_eq, getRun_eq_map]
  simp [List.getD, h]

theorem take_slice (h : j ≤ n) : (SMap.slice d m k n).take j = SMap.slice d m k j := by
  rw [SMap.slice_eq, SMap.slice_eq, getRun_eq_map, getRun_eq_map, ← List.map_take, List.take_range, Nat.min_eq_left h]

end

theorem getD_slotBytes (k : Core) (a : Nat) {n j : Nat} (h : j < 512 * n) :
    (k.slotBytes a n).getD j 0 = SMap.get 0 k.mat.slots (512 * a + j) :=
  getD_slice 0 k.mat.slots (512 * a) h

/-! ## Claims (09 R199-R201) -/

section
variable {s : State} {i : Instr} {st : Nat} {a n : W64} {rest : List W64}

/-- No slot of the run changes its claim while another engine, or an epilogue, still uses it as it is (09 R200). -/
def ClaimsSettled (s : State) (st a n : Nat) : Prop :=
  ∀ j, j < n →
    (s.me.claim (a + j) = 1 → st = 2 → s.me.slotWritten (a + j) = false ∧ s.me.epiDue (a + j) 1 = false) ∧
    (s.me.claim (a + j) = 2 → st = 1 → s.me.slotRead (a + j) = false)

theorem claimBusy_of_settled {a n : Nat} (h : ClaimsSettled s st a n) :
    ((List.range n).any fun j => s.me.claimBusy st (a + j)) = false := by
  rw [List.any_eq_false]
  intro j hj
  obtain ⟨hwrites, hreads⟩ := h j (List.mem_range.1 hj)
  simp only [Core.claimBusy, Bool.or_eq_true, Bool.and_eq_true, decide_eq_true_eq]
  rintro (⟨⟨hclaim, hst⟩, hdue⟩ | ⟨⟨hclaim, hst⟩, hdue⟩)
  · rw [(hwrites hclaim hst).1] at hdue
    exact Bool.false_ne_true hdue
  · rw [hreads hclaim hst] at hdue
    exact Bool.false_ne_true hdue

theorem not_epiDue_of_settled {a n : Nat} (h : ClaimsSettled s st a n) :
    ¬ (st = 2 ∧ ((List.range n).any fun j => s.me.claim (a + j) == 1 && s.me.epiDue (a + j) 1) = true) := by
  rintro ⟨hst, hany⟩
  obtain ⟨j, hj, hdue⟩ := List.any_eq_true.1 hany
  rw [Bool.and_eq_true, beq_iff_eq] at hdue
  obtain ⟨hclaim, hdue⟩ := hdue
  rw [((h j (List.mem_range.1 hj)).1 hclaim hst).2] at hdue
  exact Bool.false_ne_true hdue

theorem claimBody_none (h : CanIssue .m i s) (hv : top .m s = n :: a :: rest) (hn : n = 0) :
    claimBody i st s = .next (issued .m i 1 s ((arrived .m s).setStack .m rest)) := by
  subst hn
  unfold claimBody issue
  exact popped_two_completes h hv (Nat.zero_le 2) rfl

theorem claimBody_completes (h : CanIssue .m i s) (hv : top .m s = n :: a :: rest) (hn : n ≠ 0) (hin : a.toNat + n.toNat ≤ 256)
    (hset : ClaimsSettled s st a.toNat n.toNat) :
    claimBody i st s = .next (issued .m i 1 s (((arrived .m s).setStack .m rest).updMe fun k =>
      k.later .m (s.cycle + 1) (.claims a.toNat n.toNat st))) := by
  have hn : n.toNat ≠ 0 := fun h0 => hn (BitVec.eq_of_toNat_eq h0)
  unfold claimBody issue
  refine popped_two_completes h hv (Nat.zero_le 2) ?_
  simp only [List.getD_cons_zero, List.getD_cons_succ, me_setStack_arrived, claimBusy_taking, claim_taking, epiDue_taking, hn,
    Nat.not_lt.2 hin, claimBusy_of_settled hset, not_epiDue_of_settled hset, Bool.false_eq_true, if_false]
  rfl

theorem exec_mRelease (h : CanIssue .m .mRelease s) (hv : top .m s = n :: a :: rest)
    (husable : SlotsUsable s a.toNat n.toNat false) (hidle : SlotsIdle s a.toNat n.toNat) :
    completes .m .mRelease 1 s (((arrived .m s).setStack .m rest).updMe fun k =>
      k.later .m (s.cycle + 1) (.claims a.toNat n.toNat 0)) := by
  obtain ⟨hothers, hepi⟩ := hidle
  have hfree : ((List.range n.toNat).any fun j => s.me.slotRead (a.toNat + j) || s.me.slotWritten (a.toNat + j)) = false := by
    rw [List.any_eq_false]
    intro j hj
    simp [hothers j (List.mem_range.1 hj)]
  change execMRelease s = _
  unfold execMRelease issue
  refine popped_two_completes h hv (Nat.zero_le 2) ?_
  simp only [List.getD_cons_zero, List.getD_cons_succ, me_setStack_arrived, badSlot_taking, slotRead_taking, slotWritten_taking,
    epiDue_taking, Nat.not_lt.2 husable.1, badSlot_of_usable husable, hfree, hepi, Bool.false_eq_true, if_false]
  rfl

end

theorem slotClaims : SlotClaims := by
  intro s a n rest hv
  refine ⟨fun i st hi h => ?_, fun h => exec_mRelease h hv⟩
  have hexec : exec i s = claimBody i st s := by
    obtain ⟨rfl, rfl⟩ | ⟨rfl, rfl⟩ := hi <;> rfl
  rw [completes, completes, hexec]
  exact ⟨claimBody_none h hv, claimBody_completes h hv⟩

/-! ## Planes (09 R203-R205; 03 R56) -/

section
variable {s : State} {a b : W64} {rest : List W64} {f : BitVec 5}

theorem ternBadTile_slotBytes (k : Core) (a : Nat) :
    ternBadTile (k.slotBytes a 1) =
      (List.range 416).any fun j => decide (242 < (SMap.get (0 : Byte) k.mat.slots (512 * a + j)).toNat) := by
  rw [ternBadTile, Bool.eq_iff_iff, List.any_eq_true, List.any_eq_true]
  refine exists_congr fun j => and_congr_right fun hj => ?_
  have hj := List.mem_range.1 hj
  rw [getD_slotBytes k a (by omega)]

theorem exec_mWload (h : CanIssue .m (.mWload f) s) (hv : top .m s = a :: rest) (husable : SlotsUsable s a.toNat 1 false)
    (hepi : s.me.epiDue a.toNat 1 = false) (hplanes : PlanesFree s) (hheld : s.me.heldWord .m = false) :
    completes .m (.mWload f) 1 s ((((arrived .m s).setStack .m rest).stickIf
      (f == 13 && ternBadTile (s.me.slotBytes a.toNat 1)) 1).updMat fun m => { m with
        shadow := some { fmt := f.toNat, sparse := false, data := SMap.slice 0 m.slots (512 * a.toNat) 512 }
        seen := markTiles m.seen [8] (s.cycle + 4)
        arrayAt := s.cycle + 1, arrayFol := false }) := by
  have hin : ¬ 256 ≤ a.toNat := Nat.not_le.2 (Nat.lt_of_succ_le husable.1)
  have hfollow : s.me.followHolds [] true s.cycle = false := hplanes
  change execMWload f s = _
  unfold execMWload issue
  refine popped_one_completes h hv (Nat.zero_le 1) ?_
  simp only [List.getD_cons_zero, me_setStack_arrived, badSlot_taking, epiDue_taking, followHolds_taking, heldWord_taking,
    slotBytes_taking, State.setStack_cycle, cycle_arrived, cycle_stickIf, hin, badSlot_of_usable husable, hfollow, hepi, hheld,
    Bool.false_eq_true, if_false]
  refine congrArg Res.ok (updMat_congr ?_)
  rw [stickIf_mat, me_setStack_arrived]
  rfl

/-- In each nibble of the metadata in a slot the lower position of the pair comes first (09 R204). -/
def NibblesRise (k : Core) (b : Nat) : Prop :=
  ∀ j, j < 128 → (SMap.get (0 : Byte) k.mat.slots (512 * b + j / 2)).toNat / 16 ^ (j % 2) % 4 <
    (SMap.get (0 : Byte) k.mat.slots (512 * b + j / 2)).toNat / 16 ^ (j % 2) / 4 % 4

theorem badNibble_of_nibblesRise {k : Core} {b : Nat} (h : NibblesRise k b) :
    badNibble (SMap.slice 0 k.mat.slots (512 * b) 64) = none := by
  rw [badNibble, List.find?_eq_none]
  intro j hj
  have hj := List.mem_range.1 hj
  have horder := h j hj
  rw [getD_slice 0 k.mat.slots (512 * b) (by omega : j / 2 < 64)]
  simp only [decide_eq_true_eq]
  omega

theorem exec_mWloadSp (h : CanIssue .m (.mWloadSp f) s) (hv : top .m s = b :: a :: rest) (ha : SlotsUsable s a.toNat 1 false)
    (hb : SlotsUsable s b.toNat 1 false) (hepiA : s.me.epiDue a.toNat 1 = false) (hepiB : s.me.epiDue b.toNat 1 = false)
    (hplanes : PlanesFree s) (hheld : s.me.heldWord .m = false)
    (hmeta : NibblesRise s.me b.toNat) :
    completes .m (.mWloadSp f) 1 s (((arrived .m s).setStack .m rest).updMat fun m => { m with
      shadow := some
        { fmt := f.toNat, sparse := true, data := SMap.slice 0 m.slots (512 * a.toNat) 512
          meta_ := SMap.slice 0 m.slots (512 * b.toNat) 64 }
      seen := markTiles m.seen [8] (s.cycle + 5)
      arrayAt := s.cycle + 1, arrayFol := false }) := by
  have hin : ¬ (256 ≤ a.toNat ∨ 256 ≤ b.toNat) := by
    have := ha.1
    have := hb.1
    omega
  have hbad : ((s.me.badSlot (min a.toNat b.toNat) 1 false).orElse fun _ => s.me.badSlot (max a.toNat b.toNat) 1 false) = none := by
    have hA := badSlot_of_usable ha
    have hB := badSlot_of_usable hb
    rcases Nat.le_total a.toNat b.toNat with hle | hle
    · rw [Nat.min_eq_left hle, Nat.max_eq_right hle, hA, hB]
      rfl
    · rw [Nat.min_eq_right hle, Nat.max_eq_left hle, hA, hB]
      rfl
  have hmd : (s.me.slotBytes b.toNat 1).take 64 = SMap.slice 0 s.me.mat.slots (512 * b.toNat) 64 :=
    take_slice 0 s.me.mat.slots (512 * b.toNat) (by decide)
  have hfollow : s.me.followHolds [] true s.cycle = false := hplanes
  change execMWloadSp f s = _
  unfold execMWloadSp issue
  refine popped_two_completes h hv (Nat.zero_le 2) ?_
  simp only [List.getD_cons_zero, List.getD_cons_succ, me_setStack_arrived, badSlot_taking, epiDue_taking, followHolds_taking,
    heldWord_taking, slotBytes_taking, State.setStack_cycle, cycle_arrived, hin, hbad, hfollow, hepiA, hepiB, hheld, hmd,
    badNibble_of_nibblesRise hmeta, Bool.or_self, Bool.false_eq_true, if_false]
  refine congrArg Res.ok (updMat_congr ?_)
  rw [me_setStack_arrived]
  rfl

theorem exec_mSwap (h : CanIssue .m .mSwap s) (hshadow : s.me.mat.shadow ≠ none) (hseen : SMap.get 0 s.me.mat.seen 8 ≤ s.cycle)
    (hdue : s.me.followDue [] true (s.me.here .m) = false) :
    completes .m .mSwap 1 s ((arrived .m s).updMat fun m => { m with active := m.shadow, shadow := m.active }) := by
  have hsome : s.me.mat.shadow.isNone = false := Option.isNone_eq_false_iff.2 (Option.isSome_iff_ne_none.2 hshadow)
  have hlater : laterTile s.me.mat.seen [8] s.cycle = false := by simpa [laterTile] using hseen
  change execMSwap s = _
  unfold execMSwap issue
  refine issueN_completes h ?_
  rw [← setStack_top]
  simp only [me_setStack_arrived, mat_taking, followDue_taking, here_taking, State.setStack_cycle, cycle_arrived, hsome, hlater,
    hdue, Bool.false_eq_true, if_false]

/-! ## The routing register (09 R214) -/

theorem exec_mRoute (h : CanIssue .m .mRoute s) (hv : top .m s = a :: rest) (hbits : a &&& ~~~ rtMask = 0) :
    completes .m .mRoute 1 s (((arrived .m s).setStack .m rest).updMat fun m => { m with rt := a }) := by
  change execMRoute s = _
  unfold execMRoute issue
  exact popped_one_completes h hv (Nat.zero_le 1) (if_neg (not_not_intro hbits))

theorem exec_mRouteGet (h : CanIssue .m .mRouteGet s) (hroom : (top .m s).length < 8) :
    completes .m .mRouteGet 1 s ((arrived .m s).setStack .m (s.me.mat.rt :: top .m s)) := by
  change execMRouteGet s = _
  unfold execMRouteGet issue
  refine issueN_completes h ?_
  rw [popping_arrived (Nat.zero_le _) (by omega), pushing_setStack, me_setStack_arrived]
  rfl

end

theorem planeLoadsAndRouting : PlaneLoadsAndRouting := by
  intro s a b rest
  simp only [← ternBadTile_slotBytes]
  exact ⟨fun f => exec_mWload, fun f => exec_mWloadSp, exec_mSwap, exec_mRoute, exec_mRouteGet⟩

/-! ## The accumulators (09 R202, R211) -/

section
variable {s : State} {k : BitVec 3} {a : W64} {rest : List W64}

/-- A write of tiles that nothing holds takes place. -/
theorem accBody_free {tiles : List Nat} {f : Mat → Mat} (h : TilesFree s tiles) (st : List W64) :
    accBody tiles f ((arrived .m s).setStack .m st) = .ok (((arrived .m s).setStack .m st).updMat f) := by
  obtain ⟨hheld, hfollow⟩ := h
  simp only [accBody, me_setStack_arrived, followHolds_taking, tileHeld_taking, State.setStack_cycle, cycle_arrived, hheld, hfollow,
    Bool.false_eq_true, if_false]

theorem offTiles_iff {tiles : List Nat} {b : Nat} : offTiles tiles b ↔ tiles.contains (b / 1024) = false := by
  rw [← Bool.not_eq_true, List.contains_iff_mem]
  exact ⟨fun h hb => h _ hb rfl, fun h t ht he => h (he ▸ ht)⟩

/-- Cleared tiles read as zero, and the others as before. -/
theorem get_clearTiles (m : Mat) (tiles : List Nat) (b : Nat) :
    (offTiles tiles b → SMap.get 0 (m.clearTiles tiles).acc b = SMap.get 0 m.acc b) ∧
      (¬ offTiles tiles b → SMap.get 0 (m.clearTiles tiles).acc b = 0) := by
  have hget : SMap.get 0 (m.clearTiles tiles).acc b = if (!tiles.contains (b / 1024)) = true then SMap.get 0 m.acc b else 0 :=
    SMap.get_filter 0 m.acc (fun x => !tiles.contains (x / 1024)) b
  rw [hget, offTiles_iff]
  exact ⟨fun h => by rw [h]; rfl, fun h => if_neg (by simpa using h)⟩

/-- A word that clears tiles: M.ACC clear one, M.ACC clearpair a pair. -/
theorem exec_accClear {i : Instr} {pair : Bool} (hi : i = .mAccClear k ∧ pair = false ∨ i = .mAccClearpair k ∧ pair = true)
    (h : CanIssue .m i s) (hfree : TilesFree s (tilesOf pair k.toNat)) :
    completes .m i 1 s ((arrived .m s).updMat fun m => m.clearTiles (tilesOf pair k.toNat)) := by
  have hexec : exec i s = issue .m i 1 (accBody (tilesOf pair k.toNat) fun m => m.clearTiles (tilesOf pair k.toNat)) s := by
    obtain ⟨rfl, rfl⟩ | ⟨rfl, rfl⟩ := hi <;> rfl
  rw [completes, hexec]
  refine issueN_completes h ?_
  rw [← setStack_top]
  exact accBody_free hfree (top .m s)

/-- The matrix engine once two slots have filled a tile at a cycle (09 R211, R215). -/
def accLoaded (tile slot cycle : Nat) (m : Mat) : Mat :=
  { m with
    acc := SMap.setRun 0 m.acc (1024 * tile) (SMap.slice 0 m.slots (512 * slot) 1024)
    seen := markTiles m.seen [tile] (cycle + 4)
    made := markTiles m.made [tile] (cycle + 4)
    arrayAt := cycle + 2, arrayFol := false }

theorem exec_mAccLoad (h : CanIssue .m (.mAccLoad k) s) (hv : top .m s = a :: rest) (husable : SlotsUsable s a.toNat 2 false)
    (hepi : s.me.epiDue a.toNat 2 = false) (hfree : TilesFree s [k.toNat]) (hheld : s.me.heldWord .m = false) :
    completes .m (.mAccLoad k) 2 s (((arrived .m s).setStack .m rest).updMat (accLoaded k.toNat a.toNat s.cycle)) := by
  have hin : ¬ 255 ≤ a.toNat := by
    have := husable.1
    omega
  change execMAccLoad k s = _
  unfold execMAccLoad issue
  refine popped_one_completes h hv (Nat.zero_le 1) ?_
  simp only [List.getD_cons_zero, me_setStack_arrived, badSlot_taking, epiDue_taking, followHolds_taking, heldWord_taking,
    State.setStack_cycle, cycle_arrived, hin, badSlot_of_usable husable, hfree.2, hepi, hheld, Bool.false_eq_true, if_false,
    accBody_free hfree]
  refine congrArg Res.ok (updMat_congr ?_)
  rw [me_setStack_arrived]
  rfl

/-- The tile holds the bytes of the slots, and the other tiles are as before. -/
theorem get_accLoaded (m : Mat) (tile slot cycle b : Nat) :
    (b / 1024 ≠ tile → SMap.get 0 (accLoaded tile slot cycle m).acc b = SMap.get 0 m.acc b) ∧
      (b < 1024 → SMap.get 0 (accLoaded tile slot cycle m).acc (1024 * tile + b) = SMap.get 0 m.slots (512 * slot + b)) := by
  have hlen : (SMap.slice 0 m.slots (512 * slot) 1024).length = 1024 := by rw [SMap.slice_eq, SMap.getRun_length]
  simp only [accLoaded, SMap.get_setRun, hlen]
  refine ⟨fun hb => if_neg (by omega), fun hb => ?_⟩
  rw [if_pos (by omega), Nat.add_sub_cancel_left, getD_slice 0 m.slots (512 * slot) hb]

end

theorem accumulatorWords : AccumulatorWords := by
  intro s k
  refine ⟨fun i pair hi h hfree => ?_, fun a rest h hv husable hepi hfree hheld => ?_⟩
  · refine ⟨(s.me.mat.clearTiles (tilesOf pair k.toNat)).acc, ?_, get_clearTiles s.me.mat _⟩
    rw [← updMat_congr (f := fun m => m.clearTiles (tilesOf pair k.toNat))]
    · exact exec_accClear hi h hfree
    · rw [← setStack_top, me_setStack_arrived]
      rfl
  · refine ⟨(accLoaded k.toNat a.toNat s.cycle s.me.mat).acc, ?_, get_accLoaded s.me.mat _ _ _⟩
    rw [← updMat_congr (f := accLoaded k.toNat a.toNat s.cycle)]
    · exact exec_mAccLoad h hv husable hepi hfree hheld
    · rw [me_setStack_arrived]
      rfl

/-- Settles O34: the claims, the planes with the routing register, and the accumulators, each by the lemmas of its words. -/
theorem matrixSlotsPlanesAndAccumulator : Obligations.MatrixSlotsPlanesAndAccumulator :=
  ⟨slotClaims, planeLoadsAndRouting, accumulatorWords⟩

end Sys2Proof.Words
end

section
/-! SUPPORT. M.EPI: its operands, the elements it converts, what it sends and the matrix engine it leaves (09 R212, R213, R215,
R216). -/

namespace Sys2Proof.Words

open Sys2Proof.Machine Sys2Proof.Spec

/-! ## What M.EPI finds as it was -/

section
variable (k : Core) (t : Engine) (st : List W64)

@[simp] theorem room_taking (q n : Nat) : (taking k t st).room q n = k.room q n := rfl

@[simp] theorem routeReady_taking : (taking k t st).routeReady = k.routeReady := rfl

@[simp] theorem epilogue_taking (tile acc df rm cm kind : Nat) (sc : W64) :
    (taking k t st).epilogue tile acc df rm cm kind sc = k.epilogue tile acc df rm cm kind sc := rfl

end

/-! ## The operands of M.EPI (09 R213) -/

/-- The operands, PS0 first: the slot where the destination is slots, the scale where there is one, and the masks. -/
def epiOperands (d kind : BitVec 2) (ds sc cm rm : W64) : List W64 :=
  (if d = 0 then [ds] else []) ++ (if kind = 0 then [] else [sc]) ++ [cm, rm]

/-- The first destination slot, where the destination is slots. -/
def epiSlot (d : BitVec 2) (ds : W64) : Nat := if d = 0 then ds.toNat else 0

/-- The scale, where there is one. -/
def epiScale (kind : BitVec 2) (sc : W64) : W64 := if kind = 0 then 0 else sc

theorem epiScale_of_block {kind : BitVec 2} (h : kind = 2) (sc : W64) : epiScale kind sc = sc := by
  subst h
  rfl

theorem length_epiOperands (d kind : BitVec 2) (ds sc cm rm : W64) :
    (epiOperands d kind ds sc cm rm).length = 2 + (if kind = 0 then 0 else 1) + (if d = 0 then 1 else 0) := by
  unfold epiOperands
  split <;> split <;> rfl

/-- Each operand stands where the word looks for it. -/
theorem getD_epiOperands (d kind : BitVec 2) (ds sc cm rm : W64) :
    (if d = 0 then ((epiOperands d kind ds sc cm rm).getD 0 0).toNat else 0) = epiSlot d ds ∧
      (if kind = 0 then 0 else (epiOperands d kind ds sc cm rm).getD (if d = 0 then 1 else 0) 0) = epiScale kind sc ∧
      (epiOperands d kind ds sc cm rm).getD ((if kind = 0 then 0 else 1) + (if d = 0 then 1 else 0)) 0 = cm ∧
      (epiOperands d kind ds sc cm rm).getD (1 + (if kind = 0 then 0 else 1) + (if d = 0 then 1 else 0)) 0 = rm := by
  unfold epiOperands epiSlot epiScale
  split <;> split <;> exact ⟨rfl, rfl, rfl, rfl⟩

/-! ## The converted elements (09 R213) -/

/-- The elements of a list, none outside the masks, without what tells that they saturated. -/
def elemValues (es : List (Option (Nat × Bool))) : List (Option Nat) := es.map fun e => e.map fun v => v.1

/-- An element of the list saturated. -/
def elemsSaturate (es : List (Option (Nat × Bool))) : Bool := es.any fun e => (e.map fun v => v.2).getD false

/-- The converted elements of a tile or a pair, by linear index. -/
def epiElems (k : Core) (tile acc df rm cm kind : Nat) (sc : W64) : List (Option (Nat × Bool)) :=
  (List.range 256).map (epiElem k tile acc df rm cm kind sc)

theorem epilogue_eq (k : Core) (tile acc df rm cm : Nat) {kind : Nat} (sc : W64) (hkind : kind ≤ 2) :
    k.epilogue tile acc df rm cm kind sc =
      (elemValues (epiElems k tile acc df rm cm kind sc), elemsSaturate (epiElems k tile acc df rm cm kind sc)) := by
  unfold Core.epilogue
  dsimp only
  rw [List.map_congr_left (g := epiElem k tile acc df rm cm kind sc) fun j hj => ?_]
  · have hsat : (fun e : Option (Nat × Bool) => (e.map fun v => v.2).getD false) =
        fun e => match e with | some v => v.2 | none => false := funext fun e => by cases e <;> rfl
    rw [elemsSaturate, hsat]
    rfl
  have hmask : (rm / 2 ^ (j / 16) % 2 = 1 ∧ cm / 2 ^ (j % 16) % 2 = 1) ↔
      (rm.testBit (j / 16) && cm.testBit (j % 16)) = true := by
    rw [Bool.and_eq_true, ← bit_eq_testBit, ← bit_eq_testBit, beq_iff_eq, beq_iff_eq]
  unfold epiElem
  by_cases hin : (rm.testBit (j / 16) && cm.testBit (j % 16)) = true
  · rw [if_pos (hmask.2 hin), if_pos hin, accGet_eq_accBits]
    have hj := List.mem_range.1 hj
    obtain rfl | rfl | rfl : kind = 0 ∨ kind = 1 ∨ kind = 2 := by omega
    · rfl
    · rfl
    · have hrow := getD_slotBytes k sc.toNat (n := 1) (j := j / 16) (by omega)
      have hcol := getD_slotBytes k sc.toNat (n := 1) (j := 16 + j % 16) (by omega)
      simp only [if_true, hrow, hcol]
      rfl
  · rw [if_neg fun h => hin (hmask.1 h), if_neg hin]

/-! ## What M.EPI does (09 R213, R215) -/

theorem elemBytesSome_elemValues (w : Nat) (es : List (Option (Nat × Bool))) :
    elemBytesSome w (elemValues es) = es.flatMap fun e => match e with
      | some v => (leBytes v.1 w).map some
      | none => List.replicate w none := by
  rw [elemBytesSome, elemValues, List.flatMap_map]
  exact congrArg (List.flatMap · es) (funext fun e => by cases e <;> rfl)

theorem pushEach_eq (k : Core) (at_ : Nat) (es : List QEntry) :
    k.pushEach at_ es = { k with late := k.late ++ es.mapIdx fun j e =>
      { at_ := at_ + j, eng := .m, act := .push 5 [e] none 0 } } := by
  induction es generalizing k at_ with
  | nil => simp [Core.pushEach]
  | cons e es ih =>
    rw [Core.pushEach, ih, List.mapIdx_cons]
    simp [Core.later, Nat.add_assoc, Nat.add_comm 1]

/-- The core once a converted tile is on its way: to slots, to SQ1 one entry a cycle, or to the route. -/
def epiSent (d : BitVec 2) (f slot cycle occ : Nat) (es : List (Option (Nat × Bool))) (k : Core) : Core :=
  if d = 0 then
    k.later .m (cycle + occ + 6) (.slots (512 * slot) (elemBytesSome (fmtBytes f) (elemValues es))) (k.en .m).lag
  else if d = 1 then
    k.pushEach (cycle + 6) (sqEntries f (fmtBytes f) (entriesFor (fmtBytes f) 256) (elemValues es))
  else k.later .m (cycle + 6) (.tile f k.mat.rt (elemValues es))

/-- The matrix engine an epilogue leaves: the array is busy, and the tiles are clear where Z is 1. -/
def epiLeft (z : BitVec 1) (tiles : List Nat) (until_ : Nat) (m : Mat) : Mat :=
  if z = 1 then ((m.busy until_ false).clearTiles tiles).wrote tiles until_ else m.busy until_ false

/-- All that an epilogue does to the acting core but for SAT. -/
def epiDone (z : BitVec 1) (d : BitVec 2) (f slot cycle occ : Nat) (tiles : List Nat) (es : List (Option (Nat × Bool)))
    (k : Core) : Core :=
  { epiSent d f slot cycle occ es k with mat := epiLeft z tiles (cycle + occ) (epiSent d f slot cycle occ es k).mat }

/-! ## What M.EPI checks (09 R199, R212, R213, R216) -/

/-- No slot of a run is bad for the access it is claimed for, a read or a write (09 R199). -/
theorem badSlot_of_slotsUsable {s : State} {a n : Nat} {w : Bool} (h : SlotsUsable s a n w) : s.me.badSlot a n w = none := by
  obtain ⟨-, hclaim⟩ := h
  rw [Core.badSlot, List.find?_eq_none]
  intro y hy
  obtain ⟨j, hj, rfl⟩ := List.mem_map.1 hy
  obtain ⟨hclaimed, hwrite⟩ := hclaim j (List.mem_range.1 hj)
  cases w
  · simp [hclaimed]
  · simp [hwrite rfl]

/-- An epilogue finds its slots, its scale and its route usable, and nothing that holds it; `n` slots from `slot` on are its
destination, where it has slots. -/
structure EpiReady (s : State) (z : BitVec 1) (d kind : BitVec 2) (tiles : List Nat) (slot n entries : Nat) (scale : W64) :
    Prop where
  valid : ¬ ((d = 0 ∧ 256 < slot + n) ∨ (kind = 2 ∧ 256 ≤ scale.toNat) ∨ (d = 2 ∧ (!rtValid s.me.mat.rt) = true))
  claimed : lowerSlot (if d = 0 then s.me.badSlot slot n true else none)
    (if kind = 2 then s.me.badSlot scale.toNat 1 false else none) = none
  follow : s.me.followHolds tiles false s.cycle = false
  order : ¬ ((z = 1 ∧ s.me.tileHeld tiles s.cycle = true) ∨ laterTile s.me.mat.seen tiles s.cycle = true ∨
    (d = 0 ∧ s.me.epiDue slot n = true) ∨ (kind = 2 ∧ s.me.epiDue scale.toNat 1 = true))
  held : ¬ (kind = 2 ∧ s.me.heldWord .m = true)
  room : ¬ (d = 1 ∧ (!s.me.room 5 entries) = true)
  route : ¬ (d = 2 ∧ (!s.me.routeReady) = true)

section
variable {z : BitVec 1} {d kind acc : BitVec 2} {k : BitVec 3} {f : BitVec 5} {s : State} {rm cm sc ds : W64} {rest : List W64}
  {tiles : List Nat} {n entries r c o : Nat}

theorem epiReady (hds : d = 0 → SlotsUsable s ds.toNat n true) (hsc : kind = 2 → SlotsUsable s sc.toNat 1 false)
    (hroute : d = 2 → s.me.mat.rt.getLsbD 63 = true ∧ s.me.routeReady = true) (hroom : d = 1 → s.me.room 5 entries = true)
    (hdue : d = 0 → s.me.epiDue ds.toNat n = false)
    (hscale : kind = 2 → s.me.epiDue sc.toNat 1 = false ∧ s.me.heldWord .m = false)
    (hheld : z = 1 → s.me.tileHeld tiles s.cycle = false) (hseen : laterTile s.me.mat.seen tiles s.cycle = false)
    (hfollow : s.me.followHolds tiles false s.cycle = false) :
    EpiReady s z d kind tiles (epiSlot d ds) n entries (epiScale kind sc) where
  valid := by
    rintro (⟨hd, hlt⟩ | ⟨hk, hle⟩ | ⟨hd, hrt⟩)
    · rw [epiSlot, if_pos hd] at hlt
      exact Nat.not_lt.2 (hds hd).1 hlt
    · rw [epiScale_of_block hk] at hle
      exact Nat.not_le.2 (hsc hk).1 hle
    · rw [rtValid, (hroute hd).1] at hrt
      exact Bool.false_ne_true hrt
  claimed := by
    have hslots : (if d = 0 then s.me.badSlot (epiSlot d ds) n true else none) = none := by
      by_cases hd : d = 0
      · rw [if_pos hd, epiSlot, if_pos hd, badSlot_of_slotsUsable (hds hd)]
      · rw [if_neg hd]
    have hblock : (if kind = 2 then s.me.badSlot (epiScale kind sc).toNat 1 false else none) = none := by
      by_cases hk : kind = 2
      · rw [if_pos hk, epiScale_of_block hk, badSlot_of_slotsUsable (hsc hk)]
      · rw [if_neg hk]
    rw [hslots, hblock]
    rfl
  follow := hfollow
  order := by
    rintro (⟨hz, h⟩ | h | ⟨hd, h⟩ | ⟨hk, h⟩)
    · exact Bool.false_ne_true ((hheld hz).symm.trans h)
    · exact Bool.false_ne_true (hseen.symm.trans h)
    · rw [epiSlot, if_pos hd, hdue hd] at h
      exact Bool.false_ne_true h
    · rw [epiScale_of_block hk, (hscale hk).1] at h
      exact Bool.false_ne_true h
  held := fun ⟨hk, h⟩ => Bool.false_ne_true ((hscale hk).2.symm.trans h)
  room := fun ⟨hd, h⟩ => by simp [hroom hd] at h
  route := fun ⟨hd, h⟩ => by simp [(hroute hd).2] at h

/-! ## M.EPI -/

/-- The kinds of a legal epilogue: no scale, one for all, one by rows and columns. -/
theorem epiKind_le (h : CanIssue .m (.mEpi z d k kind acc f) s) : kind.toNat ≤ 2 := by
  obtain ⟨hlegal, -⟩ := h
  have hne : kind ≠ 3 := by
    rintro rfl
    simp [legalFields] at hlegal
  have hkinds : ∀ x : BitVec 2, x ≠ 3 → x.toNat ≤ 2 := by decide
  exact hkinds kind hne

theorem exec_mEpi {es : List (Option (Nat × Bool))} (h : CanIssue .m (.mEpi z d k kind acc f) s)
    (hv : top .m s = epiOperands d kind ds sc cm rm ++ rest) (hr : maskIs rm 16 r) (hc : maskIs cm 16 c)
    (hready : EpiReady s z d kind (tilesOf (acc == 2) k.toNat) (epiSlot d ds) ((256 * fmtBytes f.toNat + 511) / 512)
      (entriesFor (fmtBytes f.toNat) 256) (epiScale kind sc))
    (ho : o = if acc = 2 then 8 else 4)
    (hes : es = epiElems s.me k.toNat acc.toNat f.toNat r c kind.toNat (epiScale kind sc)) :
    completes .m (.mEpi z d k kind acc f) o s ((((arrived .m s).setStack .m rest).stickIf (elemsSaturate es) 0).updMe
      (epiDone z d f.toNat (epiSlot d ds) s.cycle o (tilesOf (acc == 2) k.toNat) es)) := by
  have hlen := length_epiOperands d kind ds sc cm rm
  obtain ⟨hslot, hscaled, hcols, hrows⟩ := getD_epiOperands d kind ds sc cm rm
  have hocc : (if (acc == 2) = true then 8 else 4) = o := by simp [ho]
  have htiles : (if (acc == 2) = true then [k.toNat, k.toNat + 1] else [k.toNat]) = tilesOf (acc == 2) k.toNat := rfl
  have hepilogue := epilogue_eq s.me k.toNat acc.toNat f.toNat r c (epiScale kind sc) (epiKind_le h)
  rw [← hes] at hepilogue
  change execMEpi z d k kind acc f s = _
  unfold execMEpi issue
  simp only [hocc, htiles]
  refine popping_completes h (by simp [hv, hlen]) (Nat.zero_le _) ?_
  rw [hv, List.take_left' hlen, List.drop_left' hlen]
  simp only [hslot, hscaled, hcols, hrows, maskOf_of_maskIs (by decide) hr, maskOf_of_maskIs (by decide) hc, me_setStack_arrived,
    mat_taking, badSlot_taking, followHolds_taking, tileHeld_taking, epiDue_taking, heldWord_taking, room_taking, routeReady_taking,
    State.setStack_cycle, cycle_arrived, hready.valid, hready.claimed, hready.follow, hready.order, hready.held, hready.room,
    hready.route, epilogue_taking, hepilogue, Bool.false_eq_true, if_false, cycle_stickIf]
  rfl

end

/-- Settles O36: the checks pass, and what the word then does is written out by its destination. -/
theorem epilogueWord : Obligations.EpilogueWord := by
  intro z d k kind acc f i s rm cm sc ds rest r c o es hi h hv hr hc hds hsc hroute hroom hdue hscale hheld hseen hfollow ho hes
  subst hi
  have hready := epiReady hds hsc hroute hroom hdue hscale hheld hseen hfollow
  have hops : top .m s = epiOperands d kind ds sc cm rm ++ rest := by simp [hv, epiOperands]
  have hexec := exec_mEpi h hops hr hc hready ho hes
  refine hexec.trans (congrArg (fun e => Host.Outcome.next (issued .m _ o s (State.updMe _ e))) (funext fun k0 => ?_))
  by_cases hd : d = 0
  · simp only [epiDone, epiSent, epiSlot, if_pos hd, elemBytesSome_elemValues]
    rfl
  by_cases hd1 : d = 1
  · simp only [epiDone, epiSent, if_neg hd, if_pos hd1, pushEach_eq]
    rfl
  · simp only [epiDone, epiSent, if_neg hd, if_neg hd1]
    rfl

end Sys2Proof.Words
end

section
/-! SUPPORT. Runs of bytes of the scratchpad, and lists made of pieces of one length (06 R125, R126). -/

namespace Sys2Proof.Words

open Sys2Proof.Machine Sys2Proof.Spec

/-! ## Runs of bytes -/

/-- A run of bytes written reads back, and every byte outside it reads as before. -/
theorem padByte_padWrite (k : Core) (sa : Nat) (bs : List Byte) (a : Nat) :
    (k.padWrite sa bs).padByte a = if sa ≤ a ∧ a < sa + bs.length then bs.getD (a - sa) 0 else k.padByte a := by
  induction bs generalizing k sa with
  | nil => rw [Core.padWrite, List.length_nil, if_neg (by omega)]
  | cons b bs ih =>
    rw [Core.padWrite, ih, padByte_padPut, List.length_cons]
    by_cases ha : a = sa
    · subst ha
      rw [if_neg (by omega), if_pos rfl, if_pos (by omega), Nat.sub_self, List.getD_cons_zero]
    · rw [if_neg ha]
      by_cases hin : sa + 1 ≤ a ∧ a < sa + 1 + bs.length
      · rw [if_pos hin, if_pos (by omega), show a - sa = a - (sa + 1) + 1 by omega, List.getD_cons_succ]
      · rw [if_neg hin, if_neg (by omega)]

/-- A write leaves the words valid that were. -/
theorem valid_padWrite_of_valid {k : Core} {w : Nat} (h : SMap.get false k.valid w = true) (sa : Nat) (bs : List Byte) :
    SMap.get false (k.padWrite sa bs).valid w = true := by
  induction bs generalizing k sa with
  | nil => exact h
  | cons b bs ih => exact ih (by rw [valid_padPut, h, Bool.true_or]) _

theorem firstUnwritten_eq_none_iff {k : Core} {sa n : Nat} (hn : 0 < n) :
    k.firstUnwritten sa n = none ↔ ∀ w, sa / 4 ≤ w → w ≤ (sa + n - 1) / 4 → SMap.get false k.valid w = true := by
  rw [Core.firstUnwritten, List.head?_eq_none_iff, Core.unwritten, if_neg (by omega), List.map_eq_nil_iff, List.filter_eq_nil_iff]
  simp only [List.mem_range, Bool.not_eq_true', Bool.not_eq_false]
  constructor
  · intro h w hlo hhi
    rw [← Nat.add_sub_cancel' hlo]
    exact h _ (by omega)
  · intro h j hj
    exact h _ (by omega) (by omega)

/-- A run whose words are valid holds no unwritten word in any part of it, nor once more words are valid. -/
theorem firstUnwritten_part {k k' : Core} {sa n a m : Nat} (h : k.firstUnwritten sa n = none) (hlo : sa ≤ a) (hhi : a + m ≤ sa + n)
    (hvalid : ∀ w, SMap.get false k.valid w = true → SMap.get false k'.valid w = true) : k'.firstUnwritten a m = none := by
  rcases Nat.eq_zero_or_pos m with hm | hm
  · rw [hm, Core.firstUnwritten, Core.unwritten, if_pos rfl, List.head?_nil]
  · rw [firstUnwritten_eq_none_iff (by omega)] at h
    exact (firstUnwritten_eq_none_iff hm).2 fun w hw hw' => hvalid w (h w (by omega) (by omega))

@[simp] theorem length_padBytes (k : Core) (sa n : Nat) : (k.padBytes sa n).length = n := by simp [Core.padBytes]

theorem padBytes_append (k : Core) (sa m n : Nat) : k.padBytes sa m ++ k.padBytes (sa + m) n = k.padBytes sa (m + n) := by
  simp [Core.padBytes, List.range_add, Nat.add_assoc]

theorem padBytes_congr {k k' : Core} {sa n : Nat} (h : ∀ j < n, k.padByte (sa + j) = k'.padByte (sa + j)) :
    k.padBytes sa n = k'.padBytes sa n :=
  List.map_congr_left fun j hj => h j (List.mem_range.1 hj)

theorem elemsOf_padBytes (k : Core) (sa eb n : Nat) :
    elemsOf eb n (k.padBytes sa (n * eb)) = (List.range n).map fun q => leNat (k.padBytes (sa + q * eb) eb) := by
  induction n generalizing sa with
  | zero => rfl
  | succ n ih =>
    have hsplit : k.padBytes sa ((n + 1) * eb) = k.padBytes sa eb ++ k.padBytes (sa + eb) (n * eb) := by
      rw [padBytes_append, Nat.succ_mul, Nat.add_comm eb]
    rw [elemsOf, hsplit, List.take_left' (length_padBytes ..), List.drop_left' (length_padBytes ..), ih, List.range_succ_eq_map,
      List.map_cons, List.map_map]
    simp [Function.comp_def, Nat.succ_mul, Nat.add_assoc, Nat.add_comm eb]

/-! ## Lists made of pieces of one length -/

theorem getD_map_default {α β : Type} (f : α → β) (l : List α) (j : Nat) (x : α) : (l.map f).getD j (f x) = f (l.getD j x) := by
  rw [List.getD_eq_getElem?_getD, List.getElem?_map, Option.getD_map, List.getD_eq_getElem?_getD]

section
variable {α β : Type} {f : α → List β} {w : Nat}

theorem length_flatMap_pieces (hf : ∀ x, (f x).length = w) (l : List α) : (l.flatMap f).length = l.length * w := by
  induction l with
  | nil => rw [List.flatMap_nil, List.length_nil, List.length_nil, Nat.zero_mul]
  | cons x xs ih => rw [List.flatMap_cons, List.length_append, hf, ih, List.length_cons, Nat.succ_mul, Nat.add_comm]

/-- Place `j * w + b` of the joined pieces is place `b` of piece `j`. -/
theorem getD_flatMap_pieces (hf : ∀ x, (f x).length = w) {l : List α} {j b : Nat} (hj : j < l.length) (hb : b < w) (x : α) (d : β) :
    (l.flatMap f).getD (j * w + b) d = (f (l.getD j x)).getD b d := by
  induction l generalizing j with
  | nil => exact absurd hj (Nat.not_lt_zero j)
  | cons y ys ih =>
    rw [List.flatMap_cons]
    cases j with
    | zero =>
      rw [Nat.zero_mul, Nat.zero_add, List.getD_cons_zero, List.getD_eq_getElem?_getD, List.getElem?_append_left (by rw [hf]; omega),
        List.getD_eq_getElem?_getD]
    | succ j =>
      rw [List.getD_cons_succ, ← ih (Nat.lt_of_succ_lt_succ hj), List.getD_eq_getElem?_getD,
        List.getElem?_append_right (by rw [hf, Nat.succ_mul]; omega), hf,
        show (j + 1) * w + b - w = j * w + b by rw [Nat.succ_mul]; omega, List.getD_eq_getElem?_getD]

end

end Sys2Proof.Words
end

section
/-! SUPPORT. W.ROWS over the cycles of its schedule: the lines of each row that it has read and written, its buffers, and the
bytes of the scratchpad (10 R219-R222). -/

namespace Sys2Proof.Words

open Sys2Proof.Machine Sys2Proof.Spec

/-! ## The results of a row (10 R219) -/

@[simp] theorem length_leBytes (v n : Nat) : (leBytes v n).length = n := by simp [leBytes_eq_map]

theorem length_rowVals (mode : Nat) (xs : List Val) (pi : Val) : (rowVals mode xs pi).length = xs.length := by
  unfold rowVals
  split
  · dsimp only
    split <;> simp
  · dsimp only
    split <;> simp

/-- The results of a row that stands at an address. -/
def rowOut (k : Core) (r : RowsRun) (i : Nat) : List Byte :=
  (r.results (k.padBytes (r.args.src + i * r.args.stride) (r.args.len * r.args.eb))).1

theorem rowOut_eq (k : Core) (r : RowsRun) (i : Nat) :
    rowOut k r i = ((rowVals r.mode ((List.range r.args.len).map fun q =>
        valueOf r.fmt (leNat (k.padBytes (r.args.src + i * r.args.stride + q * r.args.eb) r.args.eb))) (valueOf 1 r.args.p)).map
      fun v => round v r.fmt .rne).flatMap fun y => leBytes y.1 r.args.eb := by
  rw [rowOut, RowsRun.results, elemsOf_padBytes, List.map_map]
  rfl

theorem length_rowOut (k : Core) (r : RowsRun) (i : Nat) : (rowOut k r i).length = r.args.len * r.args.eb := by
  rw [rowOut_eq, length_flatMap_pieces (fun _ => length_leBytes _ _), List.length_map, length_rowVals, List.length_map,
    List.length_range]

theorem getD_rowOut (k : Core) (r : RowsRun) (i : Nat) {j b : Nat} (hj : j < r.args.len) (hb : b < r.args.eb) :
    (rowOut k r i).getD (j * r.args.eb + b) 0 = (rowResult k r.args r.mode r.fmt i j).getD b 0 := by
  rw [rowOut_eq, getD_flatMap_pieces (fun _ => length_leBytes _ _) (by simpa [length_rowVals] using hj) hb (round .nan r.fmt .rne),
    getD_map_default]
  rfl

/-! ## The schedule (10 R222) -/

/-- The lines of a row that a phase has done before a cycle. -/
def linesDone (r : RowsRun) (first cycle i : Nat) : Nat := min r.args.beats (cycle - (first + i * r.pe))

section
variable {r : RowsRun} {first cycle i j : Nat}

theorem lineAt_eq_some_iff (hpe : r.args.beats < r.pe) :
    r.lineAt first cycle = some (i, j) ↔ i < r.args.n ∧ j < r.args.beats ∧ cycle = first + i * r.pe + j := by
  rw [RowsRun.lineAt]
  constructor
  · intro h
    obtain ⟨hle, hi, hj⟩ : first ≤ cycle ∧ (cycle - first) / r.pe < r.args.n ∧ (cycle - first) % r.pe < r.args.beats := by
      refine Decidable.byContradiction fun hno => ?_
      rw [if_neg hno] at h
      cases h
    rw [if_pos ⟨hle, hi, hj⟩, Option.some.injEq, Prod.mk.injEq] at h
    obtain ⟨rfl, rfl⟩ := h
    have := Nat.div_add_mod' (cycle - first) r.pe
    exact ⟨hi, hj, by omega⟩
  · rintro ⟨hi, hj, rfl⟩
    have hsub : first + i * r.pe + j - first = j + r.pe * i := by rw [Nat.mul_comm r.pe]; omega
    have hdiv : (j + r.pe * i) / r.pe = i := by
      rw [Nat.add_mul_div_left _ _ (by omega), Nat.div_eq_of_lt (by omega), Nat.zero_add]
    have hmod : (j + r.pe * i) % r.pe = j := by rw [Nat.add_mul_mod_self_left, Nat.mod_eq_of_lt (by omega)]
    simp only [hsub, hdiv, hmod]
    exact if_pos ⟨by omega, hi, hj⟩

/-- A cycle does the line that the schedule has in it, and no other. -/
theorem linesDone_succ (hpe : r.args.beats < r.pe) (hi : i < r.args.n) :
    linesDone r first (cycle + 1) i =
      if r.lineAt first cycle = some (i, linesDone r first cycle i) then linesDone r first cycle i + 1
      else linesDone r first cycle i := by
  simp only [lineAt_eq_some_iff hpe, linesDone]
  split <;> omega

theorem linesDone_of_lineAt (hpe : r.args.beats < r.pe) (h : r.lineAt first cycle = some (i, j)) :
    linesDone r first cycle i = j := by
  obtain ⟨-, hj, rfl⟩ := (lineAt_eq_some_iff hpe).1 h
  rw [linesDone]
  omega

end

/-! ## A cycle that meets no other access (10 R221, R222) -/

theorem me_stickIf (s : State) (b : Bool) (bit : Nat) : ∃ cf, (s.stickIf b bit).me = { s.me with cf := cf } := by
  cases b
  · exact ⟨s.me.cf, rfl⟩
  · rw [State.stickIf, if_pos rfl, State.stick, State.me_updMe]
    exact ⟨_, rfl⟩

theorem portTaken_of_idle {k : Core} (h : k.ports = []) (ps : List Nat) : k.portTaken ps = false := by
  simp [Core.portTaken, h]

theorem heldWord_of_untimed {k : Core} (h : k.leg.timed = false) (t : Engine) : k.heldWord t = false := by
  simp [Core.heldWord, Core.heldBack, h]

/-- The core once the line that a cycle has to write, if any, is written. -/
def rowsWrote (r : RowsRun) (cycle : Nat) (k : Core) : Core :=
  match r.writeNow cycle with
  | some x => k.padWrite (r.dstOf x) (((SMap.get [] r.bufs x.1).drop (128 * x.2)).take (r.lineLen x.2))
  | none => k

/-- A row's buffer once a line is read behind what it holds: the results, with the last line. -/
def bufferWith (r : RowsRun) (x : Nat × Nat) (line : List Byte) : List Byte :=
  if x.2 + 1 < r.args.beats then SMap.get [] r.bufs x.1 ++ line else (r.results (SMap.get [] r.bufs x.1 ++ line)).1

/-- The buffers once the line that a cycle has to read, if any, is read. -/
def rowsBuffered (r : RowsRun) (cycle : Nat) (k : Core) : SMap (List Byte) :=
  match r.readNow cycle with
  | some x => SMap.put r.bufs x.1 (bufferWith r x (k.padBytes (r.srcOf x) (r.lineLen x.2)))
  | none => r.bufs

theorem rowsWrote_eq (r : RowsRun) (cycle : Nat) (k : Core) :
    rowsWrote r cycle k = { k with pad := (rowsWrote r cycle k).pad, valid := (rowsWrote r cycle k).valid } := by
  unfold rowsWrote
  split
  · exact padWrite_eq _ _ _
  · rfl

theorem rowsRead_of_written {u : State} {r : RowsRun} {x : Nat × Nat}
    (h : u.me.firstUnwritten (r.srcOf x) (r.lineLen x.2) = none) :
    ∃ b, u.rowsRead r x =
      (u.stickIf b 0, { r with bufs := SMap.put r.bufs x.1 (bufferWith r x (u.me.padBytes (r.srcOf x) (r.lineLen x.2))) }) := by
  have hread : u.padRead 5 (r.srcOf x) (r.lineLen x.2) = (u, u.me.padBytes (r.srcOf x) (r.lineLen x.2), none) := by
    simp [State.padRead, h]
  rw [State.rowsRead, hread]
  dsimp only
  by_cases hlast : x.2 + 1 < r.args.beats
  · exact ⟨false, by simp [bufferWith, hlast, State.stickIf]⟩
  · exact ⟨(r.results (SMap.get [] r.bufs x.1 ++ u.me.padBytes (r.srcOf x) (r.lineLen x.2))).2,
      by simp only [bufferWith, if_neg hlast]⟩

/-- The state once the line that a cycle has to write is written. -/
def rowsWritten (u : State) (r : RowsRun) : State := match r.writeNow u.cycle with | some x => u.rowsWrite r x | none => u

/-- The state and the run once the line that a cycle has to read is read. -/
def rowsReadNow (u : State) (r : RowsRun) : State × RowsRun :=
  match r.readNow u.cycle with | some x => u.rowsRead r x | none => (u, r)

/-- The end of a cycle: the run goes on, or it ends, or it stops at an unwritten word. -/
def rowsEnd (p : State × RowsRun) : State :=
  let s := p.1.updMe fun k => { k with rows := some p.2 }
  if s.cycle < p.2.lastCycle then s
  else match p.2.stop with
    | none => s.updMe fun k => { k with rows := none }
    | some (_, a) => s.updMe fun k => k.rowsStop p.2 a s.cycle

theorem me_rowsEnd {p : State × RowsRun} (h : p.2.stop = none) :
    (rowsEnd p).me = { p.1.me with rows := if p.1.cycle < p.2.lastCycle then some p.2 else none } := by
  rw [rowsEnd, State.updMe_cycle, h]
  by_cases hc : p.1.cycle < p.2.lastCycle
  · rw [if_pos hc, if_pos hc, State.me_updMe]
  · rw [if_neg hc, if_neg hc, State.me_updMe, State.me_updMe]

section
variable {u : State} {r : RowsRun}

theorem me_rowsWritten : (rowsWritten u r).me = rowsWrote r u.cycle u.me := by
  unfold rowsWritten rowsWrote
  split
  · rw [State.rowsWrite, State.me_updMe]
  · rfl

theorem cycle_rowsWritten : (rowsWritten u r).cycle = u.cycle := by
  unfold rowsWritten
  split <;> rfl

theorem rowsReadNow_of_written
    (hread : ∀ x, r.readNow u.cycle = some x → u.me.firstUnwritten (r.srcOf x) (r.lineLen x.2) = none) :
    ∃ b, rowsReadNow u r = (u.stickIf b 0, { r with bufs := rowsBuffered r u.cycle u.me }) := by
  unfold rowsReadNow rowsBuffered
  split
  next x hx => exact rowsRead_of_written (hread x hx)
  next => exact ⟨false, rfl⟩

/-- A cycle in which no port is taken and nothing holds W writes its line, then reads its line. -/
theorem rowsStep_free (hrows : u.me.rows = some r) (hports : u.me.ports = []) (htimed : u.me.leg.timed = false) :
    u.rowsStep = rowsEnd (rowsReadNow (rowsWritten u r) r) := by
  have hfree : (!(r.portsNow u.cycle).isEmpty && (u.me.portTaken (r.portsNow u.cycle) || u.me.heldWord .w)) = false := by
    rw [portTaken_of_idle hports, heldWord_of_untimed htimed, Bool.or_self, Bool.and_false]
  rw [State.rowsStep, hrows]
  dsimp only
  rw [hfree, if_neg Bool.false_ne_true]
  rfl

theorem me_rowsStep (hrows : u.me.rows = some r) (hstop : r.stop = none) (hports : u.me.ports = [])
    (htimed : u.me.leg.timed = false)
    (hread : ∀ x, r.readNow u.cycle = some x → (rowsWrote r u.cycle u.me).firstUnwritten (r.srcOf x) (r.lineLen x.2) = none) :
    ∃ cf, u.rowsStep.me = { rowsWrote r u.cycle u.me with
      cf := cf
      rows := if u.cycle < r.lastCycle then some { r with bufs := rowsBuffered r u.cycle (rowsWrote r u.cycle u.me) } else none } := by
  obtain ⟨b, hb⟩ := rowsReadNow_of_written (u := rowsWritten u r) (r := r) (by rwa [me_rowsWritten, cycle_rowsWritten])
  obtain ⟨cf, hcf⟩ := me_stickIf (rowsWritten u r) b 0
  rw [me_rowsWritten, cycle_rowsWritten] at hb
  rw [rowsStep_free hrows hports htimed, me_rowsEnd (by rw [hb, hstop]), hb, hcf, me_rowsWritten, cycle_stickIf, cycle_rowsWritten]
  exact ⟨cf, rfl⟩

/-- A core at the start of a cycle in which nothing else takes place. -/
def unported (k : Core) : Core := { k with ports := [] }

/-- The state a cycle on. -/
def rowsNext (t : State) : State := { (t.updMe unported).rowsStep with cycle := t.cycle + 1 }

theorem me_rowsNext {t : State} (hrows : t.me.rows = some r) (hstop : r.stop = none) (htimed : t.me.leg.timed = false)
    (hread : ∀ x, r.readNow t.cycle = some x →
      (rowsWrote r t.cycle (unported t.me)).firstUnwritten (r.srcOf x) (r.lineLen x.2) = none) :
    ∃ cf, (rowsNext t).me = { rowsWrote r t.cycle (unported t.me) with
      cf := cf
      rows := if t.cycle < r.lastCycle then some { r with bufs := rowsBuffered r t.cycle (rowsWrote r t.cycle (unported t.me)) }
              else none } := by
  have hme : (t.updMe unported).me = unported t.me := State.me_updMe _ _
  have := me_rowsStep (u := t.updMe unported) (by rw [hme]; exact hrows) hstop (by rw [hme]; rfl) (by rw [hme]; exact htimed)
    (by rwa [hme])
  rwa [hme] at this

end

/-! ## Where the rows stand (10 R220) -/

theorem limits_of_check {x : RowsArgs} (h : x.check = none) :
    0 < x.len ∧ 0 < x.n ∧ (1 < x.n → x.len * x.eb ≤ x.stride) ∧
      (x.dst = x.src ∨ x.dst + x.span ≤ x.src ∨ x.src + x.span ≤ x.dst) := by
  unfold RowsArgs.check at h
  iterate 6
    split at h
    · cases h
  split at h
  · cases h
  split at h
  · cases h
  · omega

section
variable {x : RowsArgs} {i j p q : Nat}

/-- Bytes of different rows of a region stand apart. -/
theorem rows_apart (h : x.check = none) (hi : i < x.n) (hj : j < x.n) (hp : p < x.len * x.eb) (hq : q < x.len * x.eb)
    (heq : i * x.stride + p = j * x.stride + q) : i = j ∧ p = q := by
  obtain ⟨-, -, hstride, -⟩ := limits_of_check h
  rcases Nat.lt_trichotomy i j with hlt | rfl | hlt
  · have := Nat.mul_le_mul_right x.stride (Nat.succ_le_of_lt hlt)
    rw [Nat.succ_mul] at this
    have := hstride (by omega)
    omega
  · exact ⟨rfl, by omega⟩
  · have := Nat.mul_le_mul_right x.stride (Nat.succ_le_of_lt hlt)
    rw [Nat.succ_mul] at this
    have := hstride (by omega)
    omega

/-- A byte that a row is read from and a row is written to is the same byte of the same row. -/
theorem regions_apart (h : x.check = none) (hi : i < x.n) (hj : j < x.n) (hp : p < x.len * x.eb) (hq : q < x.len * x.eb)
    (heq : x.src + i * x.stride + p = x.dst + j * x.stride + q) : i = j ∧ p = q := by
  obtain ⟨-, -, -, hregions⟩ := limits_of_check h
  have hspan : ∀ {i p : Nat}, i < x.n → p < x.len * x.eb → i * x.stride + p < x.span := by
    intro i p hi hp
    have := Nat.mul_le_mul_right x.stride (Nat.le_sub_one_of_lt hi)
    rw [RowsArgs.span]
    omega
  have := hspan hi hp
  have := hspan hj hq
  exact rows_apart h hi hj hp hq (by omega)

end

/-! ## What a run has done before a cycle (10 R221, R222) -/

/-- A run as W.ROWS begins it, at whatever cycle: its rows pass the checks, and it has met no unwritten word. -/
structure RowsFit (r : RowsRun) : Prop where
  checked : r.args.check = none
  width : 0 < r.args.eb
  pitch : 2 * r.args.beats + 8 ≤ r.pe
  going : r.stop = none

def linesRead (r : RowsRun) (cycle i : Nat) : Nat := linesDone r (r.base + 1) cycle i
def linesWritten (r : RowsRun) (cycle i : Nat) : Nat := linesDone r (r.base + 2 * r.args.beats + 17) cycle i

/-- What a row's buffer holds: the lines read, or the results once every line is. -/
def rowBuffer (k₀ : Core) (r : RowsRun) (cycle i : Nat) : List Byte :=
  if linesRead r cycle i < r.args.beats then k₀.padBytes (r.args.src + i * r.args.stride) (128 * linesRead r cycle i)
  else rowOut k₀ r i

/-- Every row's buffer holds what the cycles before have read for it. -/
def BuffersStand (k₀ : Core) (r : RowsRun) (cycle : Nat) : Prop :=
  ∀ i, i < r.args.n → SMap.get [] r.bufs i = rowBuffer k₀ r cycle i

/-- The scratchpad of a core in which the lines written hold the results of the rows of `k₀`, and every other byte is as in
`k₀`. -/
structure LinesStand (k₀ : Core) (r : RowsRun) (cycle : Nat) (k : Core) : Prop where
  valid : ∀ w, SMap.get false k₀.valid w = true → SMap.get false k.valid w = true
  wrote : ∀ i p, i < r.args.n → p < r.args.len * r.args.eb → p < 128 * linesWritten r cycle i →
    k.padByte (r.args.dst + i * r.args.stride + p) = (rowOut k₀ r i).getD p 0
  kept : ∀ a, (∀ i p, i < r.args.n → p < r.args.len * r.args.eb → p < 128 * linesWritten r cycle i →
    a ≠ r.args.dst + i * r.args.stride + p) → k.padByte a = k₀.padByte a

section
variable {k₀ k : Core} {r : RowsRun} {cycle i j : Nat}

theorem RowsFit.beats_lt (h : RowsFit r) : r.args.beats < r.pe := by
  have := h.pitch
  omega

theorem RowsFit.length_le (_ : RowsFit r) : r.args.len * r.args.eb ≤ 128 * r.args.beats := by
  rw [RowsArgs.beats]
  omega

theorem RowsFit.lt_length (_ : RowsFit r) (hj : j < r.args.beats) : 128 * j < r.args.len * r.args.eb := by
  rw [RowsArgs.beats] at hj
  omega

theorem RowsFit.writeNow (h : RowsFit r) : r.writeNow cycle = r.lineAt (r.base + 2 * r.args.beats + 17) cycle := by
  rw [RowsRun.writeNow, h.going]
  split
  next heq => cases heq
  next => rfl

theorem RowsFit.readNow (h : RowsFit r) : r.readNow cycle = r.lineAt (r.base + 1) cycle := by
  rw [RowsRun.readNow, h.going]
  rfl

theorem RowsFit.writeNow_iff (h : RowsFit r) : r.writeNow cycle = some (i, j) ↔
    i < r.args.n ∧ j < r.args.beats ∧ cycle = r.base + 2 * r.args.beats + 17 + i * r.pe + j := by
  rw [h.writeNow, lineAt_eq_some_iff h.beats_lt]

theorem RowsFit.readNow_iff (h : RowsFit r) :
    r.readNow cycle = some (i, j) ↔ i < r.args.n ∧ j < r.args.beats ∧ cycle = r.base + 1 + i * r.pe + j := by
  rw [h.readNow, lineAt_eq_some_iff h.beats_lt]

/-- A cycle writes the line that the schedule has in it, and no other. -/
theorem RowsFit.linesWritten_succ (h : RowsFit r) (hi : i < r.args.n) :
    linesWritten r (cycle + 1) i =
      if r.writeNow cycle = some (i, linesWritten r cycle i) then linesWritten r cycle i + 1 else linesWritten r cycle i := by
  rw [h.writeNow]
  exact linesDone_succ h.beats_lt hi

theorem RowsFit.linesRead_succ (h : RowsFit r) (hi : i < r.args.n) :
    linesRead r (cycle + 1) i =
      if r.readNow cycle = some (i, linesRead r cycle i) then linesRead r cycle i + 1 else linesRead r cycle i := by
  rw [h.readNow]
  exact linesDone_succ h.beats_lt hi

theorem RowsFit.linesWritten_eq (h : RowsFit r) (hx : r.writeNow cycle = some (i, j)) : linesWritten r cycle i = j :=
  linesDone_of_lineAt h.beats_lt (h.writeNow ▸ hx)

theorem RowsFit.linesRead_eq (h : RowsFit r) (hx : r.readNow cycle = some (i, j)) : linesRead r cycle i = j :=
  linesDone_of_lineAt h.beats_lt (h.readNow ▸ hx)

/-- A row is written once all of it is read: the line to write comes from its results (10 R222). -/
theorem BuffersStand.results (h : BuffersStand k₀ r cycle) (hfit : RowsFit r) (hx : r.writeNow cycle = some (i, j)) :
    SMap.get [] r.bufs i = rowOut k₀ r i := by
  obtain ⟨hi, -, hcycle⟩ := hfit.writeNow_iff.1 hx
  have hread : linesRead r cycle i = r.args.beats := by
    rw [linesRead, linesDone]
    omega
  rw [h _ hi, rowBuffer, hread, if_neg (Nat.lt_irrefl _)]

/-- A line written holds its part of the results; no other byte changes. -/
theorem padByte_rowsWrote (hbufs : BuffersStand k₀ r cycle) (hfit : RowsFit r) (hx : r.writeNow cycle = some (i, j)) (a : Nat) :
    (rowsWrote r cycle k).padByte a =
      if r.args.dst + i * r.args.stride + 128 * j ≤ a ∧ a < r.args.dst + i * r.args.stride + 128 * (j + 1) ∧
          a < r.args.dst + i * r.args.stride + r.args.len * r.args.eb then
        (rowOut k₀ r i).getD (a - (r.args.dst + i * r.args.stride)) 0
      else k.padByte a := by
  have hlen : (((rowOut k₀ r i).drop (128 * j)).take (r.lineLen j)).length = min 128 (r.args.len * r.args.eb - 128 * j) := by
    rw [List.length_take, List.length_drop, length_rowOut, RowsRun.lineLen]
    omega
  have hat : r.dstOf (i, j) = r.args.dst + i * r.args.stride + 128 * j := rfl
  rw [rowsWrote, hx]
  dsimp only
  rw [padByte_padWrite, hbufs.results hfit hx, hlen, hat]
  by_cases hin : r.args.dst + i * r.args.stride + 128 * j ≤ a ∧ a < r.args.dst + i * r.args.stride + 128 * (j + 1) ∧
      a < r.args.dst + i * r.args.stride + r.args.len * r.args.eb
  · rw [if_pos (by omega), if_pos hin, List.getD_eq_getElem?_getD, List.getElem?_take_of_lt (by rw [RowsRun.lineLen]; omega),
      List.getElem?_drop, List.getD_eq_getElem?_getD, ← Nat.add_sub_assoc hin.1, Nat.add_comm (128 * j), Nat.add_sub_add_right]
  · rw [if_neg (by omega), if_neg hin]

theorem valid_rowsWrote {w : Nat} (h : SMap.get false k.valid w = true) : SMap.get false (rowsWrote r cycle k).valid w = true := by
  unfold rowsWrote
  split
  · exact valid_padWrite_of_valid h _ _
  · exact h

theorem LinesStand.step (h : LinesStand k₀ r cycle k) (hbufs : BuffersStand k₀ r cycle) (hfit : RowsFit r) :
    LinesStand k₀ r (cycle + 1) (rowsWrote r cycle k) := by
  have hvalid : ∀ w, SMap.get false k₀.valid w = true → SMap.get false (rowsWrote r cycle k).valid w = true :=
    fun w hw => valid_rowsWrote (h.valid w hw)
  cases hx : r.writeNow cycle with
  | none =>
    have hsame : ∀ i, i < r.args.n → linesWritten r (cycle + 1) i = linesWritten r cycle i := fun i hi => by
      rw [hfit.linesWritten_succ hi, hx, if_neg nofun]
    have hpad : (rowsWrote r cycle k).padByte = k.padByte := by rw [rowsWrote, hx]
    refine ⟨hvalid, fun i p hi hp hw => ?_, fun a ha => ?_⟩
    · rw [hpad, h.wrote i p hi hp (hsame i hi ▸ hw)]
    · rw [hpad, h.kept a fun i p hi hp hw => ha i p hi hp ((hsame i hi).symm ▸ hw)]
  | some x =>
    obtain ⟨i, j⟩ := x
    have hbyte := padByte_rowsWrote (k := k) hbufs hfit hx
    have hi : i < r.args.n := (hfit.writeNow_iff.1 hx).1
    have hdone := hfit.linesWritten_eq hx
    have hnext : linesWritten r (cycle + 1) i = j + 1 := by
      rw [hfit.linesWritten_succ hi, hdone, if_pos hx]
    have hother : ∀ i', i' < r.args.n → i' ≠ i → linesWritten r (cycle + 1) i' = linesWritten r cycle i' := fun i' hi' hne => by
      rw [hfit.linesWritten_succ hi', hx, if_neg fun he => hne (Prod.mk.inj (Option.some.inj he)).1.symm]
    refine ⟨hvalid, fun i' p hi' hp hw => ?_, fun a ha => ?_⟩
    · rw [hbyte]
      by_cases hii : i' = i
      · subst hii
        by_cases hpj : p < 128 * j
        · rw [if_neg (by omega), h.wrote i' p hi' hp (by omega)]
        · rw [if_pos (by omega), Nat.add_sub_cancel_left]
      · rw [if_neg, h.wrote i' p hi' hp (hother i' hi' hii ▸ hw)]
        rintro ⟨hlo, -, hhi⟩
        exact hii (rows_apart (q := r.args.dst + i' * r.args.stride + p - (r.args.dst + i * r.args.stride)) hfit.checked hi' hi hp
          (by omega) (by omega)).1
    · rw [hbyte, if_neg, h.kept a fun i' p hi' hp hw => ?_]
      · by_cases hii : i' = i
        · subst hii
          exact ha i' p hi' hp (by omega)
        · exact ha i' p hi' hp (hother i' hi' hii ▸ hw)
      · rintro ⟨hlo, hnear, hhi⟩
        exact ha i (a - (r.args.dst + i * r.args.stride)) hi (by omega) (by omega) (by omega)

/-- No byte of a row is written before all of the row is read (10 R222). -/
theorem LinesStand.unread (h : LinesStand k₀ r (cycle + 1) k) (hfit : RowsFit r) (hx : r.readNow cycle = some (i, j))
    {p : Nat} (hp : p < r.args.len * r.args.eb) :
    k.padByte (r.args.src + i * r.args.stride + p) = k₀.padByte (r.args.src + i * r.args.stride + p) := by
  obtain ⟨hi, hj, hcycle⟩ := hfit.readNow_iff.1 hx
  refine h.kept _ fun i' p' hi' hp' hw heq => ?_
  obtain ⟨rfl, -⟩ := regions_apart hfit.checked hi hi' hp hp' heq
  rw [linesWritten, linesDone] at hw
  omega

/-- The line read goes behind those in the buffer, and the last one makes it the results. -/
theorem bufferWith_next (h : BuffersStand k₀ r cycle) (hpad : LinesStand k₀ r (cycle + 1) k) (hfit : RowsFit r)
    (hx : r.readNow cycle = some (i, j)) :
    bufferWith r (i, j) (k.padBytes (r.srcOf (i, j)) (r.lineLen j)) =
      if j + 1 < r.args.beats then k₀.padBytes (r.args.src + i * r.args.stride) (128 * (j + 1)) else rowOut k₀ r i := by
  obtain ⟨hi, hj, -⟩ := hfit.readNow_iff.1 hx
  have hlen := hfit.length_le
  have hline := hfit.lt_length hj
  have hrow : SMap.get [] r.bufs i = k₀.padBytes (r.args.src + i * r.args.stride) (128 * j) := by
    rw [h i hi, rowBuffer, hfit.linesRead_eq hx, if_pos hj]
  have hread : k.padBytes (r.srcOf (i, j)) (r.lineLen j) = k₀.padBytes (r.args.src + i * r.args.stride + 128 * j) (r.lineLen j) :=
    padBytes_congr fun q hq => by
      rw [RowsRun.lineLen] at hq
      have := hpad.unread hfit hx (p := 128 * j + q) (by omega)
      rwa [← Nat.add_assoc] at this
  rw [bufferWith, hrow, hread, padBytes_append, RowsRun.lineLen]
  by_cases hlast : j + 1 < r.args.beats
  · have hmore := hfit.lt_length hlast
    rw [if_pos hlast, if_pos hlast, show 128 * j + min 128 (r.args.len * r.args.eb - 128 * j) = 128 * (j + 1) by omega]
  · have hbeats : j + 1 = r.args.beats := by omega
    rw [if_neg hlast, if_neg hlast, show 128 * j + min 128 (r.args.len * r.args.eb - 128 * j) = r.args.len * r.args.eb by omega]
    rfl

theorem BuffersStand.step (h : BuffersStand k₀ r cycle) (hpad : LinesStand k₀ r (cycle + 1) k) (hfit : RowsFit r) :
    BuffersStand k₀ { r with bufs := rowsBuffered r cycle k } (cycle + 1) := by
  intro i hi
  change SMap.get [] (rowsBuffered r cycle k) i = rowBuffer k₀ r (cycle + 1) i
  rw [rowBuffer, hfit.linesRead_succ hi]
  cases hx : r.readNow cycle with
  | none =>
    simp only [rowsBuffered, hx, reduceCtorEq, if_false]
    exact h i hi
  | some x =>
    obtain ⟨i', j⟩ := x
    rw [rowsBuffered, hx]
    dsimp only
    rw [SMap.get_put]
    by_cases hii : i = i'
    · subst hii
      rw [if_pos rfl, bufferWith_next h hpad hfit hx, hfit.linesRead_eq hx, if_pos rfl]
    · rw [if_neg hii, if_neg fun he => hii (Prod.mk.inj (Option.some.inj he)).1.symm]
      exact h i hi

end

/-! ## The whole schedule (10 R222) -/

section
variable {k₀ : Core} {r : RowsRun} {t : State}

/-- A state in which a run from the core `k₀` is under way, the rows of which hold no unwritten word. -/
structure RowsUnderway (k₀ : Core) (r : RowsRun) (t : State) : Prop where
  fit : RowsFit r
  written : ∀ i, i < r.args.n → k₀.firstUnwritten (r.args.src + i * r.args.stride) (r.args.len * r.args.eb) = none
  untimed : t.me.leg.timed = false
  buffers : BuffersStand k₀ r t.cycle
  lines : LinesStand k₀ r t.cycle t.me

theorem RowsUnderway.step (h : RowsUnderway k₀ r t) (hrows : t.me.rows = some r) :
    ∃ bufs, RowsUnderway k₀ { r with bufs := bufs } (rowsNext t) ∧
      (rowsNext t).me.rows = if t.cycle < r.lastCycle then some { r with bufs := bufs } else none := by
  obtain ⟨hfit, hwritten, huntimed, hbuffers, hlines⟩ := h
  have hidle : LinesStand k₀ r t.cycle (unported t.me) := ⟨hlines.valid, hlines.wrote, hlines.kept⟩
  have hnext := hidle.step hbuffers hfit
  obtain ⟨cf, hcf⟩ := me_rowsNext hrows hfit.going huntimed (by
    rintro ⟨i, j⟩ hx
    obtain ⟨hi, hj, -⟩ := hfit.readNow_iff.1 hx
    have hline := hfit.lt_length hj
    have hat : r.srcOf (i, j) = r.args.src + i * r.args.stride + 128 * j := rfl
    have hlen : r.lineLen j = min 128 (r.args.len * r.args.eb - 128 * j) := rfl
    exact firstUnwritten_part (hwritten i hi) (by omega) (by dsimp only; omega) hnext.valid)
  refine ⟨rowsBuffered r t.cycle (rowsWrote r t.cycle (unported t.me)),
    ⟨⟨hfit.checked, hfit.width, hfit.pitch, hfit.going⟩, hwritten, ?_, hbuffers.step hnext hfit, ?_⟩, ?_⟩
  · rw [hcf, rowsWrote_eq]
    exact huntimed
  · rw [hcf]
    exact ⟨hnext.valid, hnext.wrote, hnext.kept⟩
  · rw [hcf]

/-- At its issue a run has read and written nothing. -/
theorem rowsUnderway_start (hfit : RowsFit r) (hbase : r.base = t.cycle) (hbufs : r.bufs = []) (huntimed : t.me.leg.timed = false)
    (hwritten : ∀ i, i < r.args.n →
      t.me.firstUnwritten (r.args.src + i * r.args.stride) (r.args.len * r.args.eb) = none) : RowsUnderway t.me r t := by
  have hread : ∀ i, linesRead r t.cycle i = 0 := fun i => by
    rw [linesRead, linesDone]
    omega
  have hwrote : ∀ i, linesWritten r t.cycle i = 0 := fun i => by
    rw [linesWritten, linesDone]
    omega
  refine ⟨hfit, hwritten, huntimed, fun i hi => ?_, fun w hw => hw, fun i p _ _ hw => ?_, fun a _ => rfl⟩
  · have hlen := hfit.length_le
    obtain ⟨hlen0, -⟩ := limits_of_check hfit.checked
    have hpos := Nat.mul_pos hlen0 hfit.width
    rw [hbufs, rowBuffer, hread, if_pos (by omega)]
    rfl
  · rw [hwrote] at hw
    exact absurd hw (Nat.not_lt_zero p)

/-- The run goes on to the last cycle of its schedule, in which it ends. -/
theorem RowsUnderway.after {n : Nat} (h : RowsUnderway k₀ r t) (hrows : t.me.rows = some r)
    (hn : t.cycle + n = r.lastCycle) :
    ∃ bufs, LinesStand k₀ { r with bufs := bufs } (r.lastCycle + 1) (rowsAfter (n + 1) t).me ∧ (rowsAfter (n + 1) t).me.rows = none := by
  induction n generalizing t r with
  | zero =>
    obtain ⟨bufs, hnext, hend⟩ := h.step hrows
    rw [if_neg (by omega)] at hend
    refine ⟨bufs, ?_, hend⟩
    have := hnext.lines
    rw [← hn]
    exact this
  | succ n ih =>
    obtain ⟨bufs, hnext, hgoes⟩ := h.step hrows
    rw [if_pos (by omega)] at hgoes
    have hlast : (rowsNext t).cycle + n = r.lastCycle := by
      change t.cycle + 1 + n = r.lastCycle
      omega
    exact ih (t := rowsNext t) (r := { r with bufs := bufs }) hnext hgoes hlast

/-- By the end of the schedule every line of every row is written. -/
theorem RowsFit.linesWritten_end (h : RowsFit r) {i : Nat} (hi : i < r.args.n) :
    linesWritten r (r.lastCycle + 1) i = r.args.beats := by
  have hrow := Nat.mul_le_mul_right r.pe (Nat.le_sub_one_of_lt hi)
  rw [linesWritten, linesDone, RowsRun.lastCycle, h.going]
  dsimp only
  omega

/-- After the last cycle every row holds its results, and no other byte has changed. -/
theorem LinesStand.results {k₀ k : Core} (h : LinesStand k₀ r (r.lastCycle + 1) k) (hfit : RowsFit r) :
    (∀ i j b, i < r.args.n → j < r.args.len → b < r.args.eb →
      k.padByte (r.args.dst + i * r.args.stride + j * r.args.eb + b) = (rowResult k₀ r.args r.mode r.fmt i j).getD b 0) ∧
    ∀ a, (∀ i, i < r.args.n →
        a < r.args.dst + i * r.args.stride ∨ r.args.dst + i * r.args.stride + r.args.len * r.args.eb ≤ a) →
      k.padByte a = k₀.padByte a := by
  have hlen := hfit.length_le
  refine ⟨fun i j b hi hj hb => ?_, fun a ha => h.kept a fun i p hi hp _ heq => ?_⟩
  · have hp : j * r.args.eb + b < r.args.len * r.args.eb := by
      have := Nat.mul_le_mul_right r.args.eb (Nat.succ_le_of_lt hj)
      rw [Nat.succ_mul] at this
      omega
    rw [Nat.add_assoc, h.wrote i _ hi hp (by rw [hfit.linesWritten_end hi]; omega), getD_rowOut k₀ r i hj hb]
  · have := ha i hi
    omega

end

/-- Settles O40: the lines read and written before each cycle, from the issue to the last cycle of the schedule. -/
theorem rowResults : Obligations.RowResults := by
  intro mode fmt tp x w s t hfmt hcheck _ huntimed hrows hwritten ht
  have hfit : RowsFit { mode := mode, fmt := fmt, args := x, base := s.cycle, pe := x.pitch tp, eng := w } :=
    ⟨hcheck, show 0 < x.eb by omega, Nat.le_max_right _ _, rfl⟩
  obtain ⟨bufs, hlines, hend⟩ := (rowsUnderway_start hfit rfl rfl huntimed hwritten).after hrows
    (n := (x.n - 1) * x.pitch tp + 3 * x.beats + 16) (by dsimp only [RowsRun.lastCycle]; omega)
  rw [show 1 + (x.n - 1) * x.pitch tp + 3 * x.beats + 16 = (x.n - 1) * x.pitch tp + 3 * x.beats + 16 + 1 by omega] at ht
  subst ht
  exact ⟨hend, hlines.results ⟨hcheck, hfit.width, hfit.pitch, rfl⟩⟩

end Sys2Proof.Words
end

section
/-! SUPPORT. The words of W: W.ROWS at its issue, W.TIME, and the statistics of W.RSTAT (10 R220, R222, R224-R226). -/

namespace Sys2Proof.Words

open Sys2Proof.Machine Sys2Proof.Spec

/-! ## What a word of W finds as it was -/

section
variable (k : Core) (t : Engine) (st : List W64)

@[simp] theorem tp_taking : (taking k t st).tp = k.tp := rfl

@[simp] theorem vec_taking : (taking k t st).vec = k.vec := rfl

theorem tilesPending_taking (u : Engine) (tiles : List Nat) (cycle : Nat) :
    (taking k t st).tilesPending u tiles cycle = k.tilesPending u tiles cycle := by
  simp only [Core.tilesPending, coming_taking, here_taking, followDue_taking]
  rfl

theorem vBusy_taking (v : Nat) : (taking k t st).vBusy v = k.vBusy v := by
  simp only [Core.vBusy, coming_taking, here_taking]
  rfl

end

@[simp] theorem tp_arrived (s : State) (t : Engine) : (arrived t s).me.tp = s.me.tp := by
  rw [arrived, State.me_updMe]
  rfl

/-! ## W.ROWS and W.TIME (10 R220, R222, R224) -/

section
variable {s : State}

theorem exec_wRows {f : BitVec 3} {m : BitVec 2} {x : RowsArgs} (h : CanIssue .w (.wRows f m) s) (hlen : 6 ≤ (top .w s).length)
    (hx : x = RowsArgs.of (if f = 0 then 4 else 2) ((top .w s).take 6)) (hcheck : x.check = none) :
    completes .w (.wRows f m) (1 + (x.n - 1) * x.pitch s.me.tp + 3 * x.beats + 16) s
      (((arrived .w s).setStack .w ((top .w s).drop 6)).updMe fun k => { k with
        rows := some { mode := m.toNat, fmt := f.toNat + 1, args := x, base := s.cycle, pe := x.pitch s.me.tp
                       eng := (arrived .w s).me.en .w } }) := by
  have hroom := length_top_of_canIssue h
  have htime : x.time (arrived .w s).me.tp = 1 + (x.n - 1) * x.pitch s.me.tp + 3 * x.beats + 16 := by
    rw [tp_arrived, RowsArgs.time]
  rw [hx] at htime hcheck
  change execWRows f m s = _
  unfold execWRows
  refine (issueN_completes h (e := _) ?_).trans (congrArg (fun n => Host.Outcome.next (issued .w _ n s _)) (hx ▸ htime))
  dsimp only
  rw [popping_arrived hlen (by omega), hcheck]
  refine congrArg Res.ok (updMe_congr ?_)
  rw [me_setStack_arrived, hx]
  rfl

theorem exec_wTime {v : W64} {rest : List W64} (h : CanIssue .w .wTime s) (hv : top .w s = v :: rest) (hp : v.toNat < 65536) :
    completes .w .wTime 1 s (((arrived .w s).setStack .w rest).updMe fun k => { k with tp := v.toNat }) := by
  change execWTime s = _
  unfold execWTime issue
  refine popped_one_completes h hv (Nat.zero_le 1) ?_
  exact if_neg (by simpa using Nat.le_of_lt_succ hp)

theorem exec_wTimeGet (h : CanIssue .w .wTimeGet s) (hroom : (top .w s).length < 8) :
    completes .w .wTimeGet 1 s ((arrived .w s).setStack .w (BitVec.ofNat 64 s.me.tp :: top .w s)) := by
  change execWTimeGet s = _
  unfold execWTimeGet issue
  refine issueN_completes h ?_
  rw [popping_arrived (Nat.zero_le _) (by omega), pushing_setStack, me_setStack_arrived]
  rfl

end

/-! ## Runs of 16 bytes, each written where a bit asks for it -/

/-- A map with a run of 16 values at `a + 16 * j` written for each place `j` below `n` that is on. -/
def putRuns (a n : Nat) (on : Nat → Bool) (run : Nat → List Byte) (m : SMap Byte) : SMap Byte :=
  (List.range n).foldl (fun m j => if on j then SMap.setRun 0 m (a + 16 * j) (run j) else m) m

section
variable {a n : Nat} {on : Nat → Bool} {run : Nat → List Byte}

theorem putRuns_succ (m : SMap Byte) : putRuns a (n + 1) on run m =
    if on n then SMap.setRun 0 (putRuns a n on run m) (a + 16 * n) (run n) else putRuns a n on run m := by
  rw [putRuns, List.range_succ, List.foldl_append]
  rfl

theorem get_putRuns_off (hrun : ∀ j, (run j).length = 16) (m : SMap Byte) {b : Nat}
    (hb : ∀ j, j < n → on j = true → b < a + 16 * j ∨ a + 16 * j + 16 ≤ b) :
    SMap.get 0 (putRuns a n on run m) b = SMap.get 0 m b := by
  induction n with
  | zero => rfl
  | succ n ih =>
    have hrest := ih fun j hj => hb j (Nat.lt_succ_of_lt hj)
    rw [putRuns_succ]
    by_cases hon : on n = true
    · have hout := hb n (Nat.lt_succ_self n) hon
      rw [if_pos hon, SMap.get_setRun, hrun, if_neg (by omega), hrest]
    · rw [if_neg hon, hrest]

theorem get_putRuns_on (hrun : ∀ j, (run j).length = 16) (m : SMap Byte) {j q : Nat} (hj : j < n) (hq : q < 16)
    (hon : on j = true) : SMap.get 0 (putRuns a n on run m) (a + 16 * j + q) = (run j).getD q 0 := by
  induction n with
  | zero => exact absurd hj (Nat.not_lt_zero j)
  | succ n ih =>
    rw [putRuns_succ]
    rcases Nat.lt_succ_iff_lt_or_eq.1 hj with hlt | rfl
    · have hrest := ih hlt
      split
      · rw [SMap.get_setRun, if_neg (by omega), hrest]
      · exact hrest
    · rw [if_pos hon, SMap.get_setRun, hrun, if_pos (by omega), Nat.add_sub_cancel_left]

end

/-! ## W.RSTAT (10 R225, R226) -/

/-- The elements of a row of a tile that a column mask names, in FP32. -/
def statElems (m : Mat) (fmt k r cm : Nat) : List (Option Val) :=
  (List.range 16).map fun c => if cm / 2 ^ c % 2 = 1 then some (rne32 (valueOf fmt (m.accGet k false r c))) else none

/-- The bytes of a row's four statistics. -/
def statBytes (m : Mat) (fmt k r cm : Nat) : List Byte :=
  (rowStats (statElems m fmt k r cm)).flatMap fun y => leBytes (round y 1 .rne).1 4

theorem statElems_eq (m : Mat) (fmt k r cm : Nat) :
    statElems m fmt k r cm = (List.range 16).map fun c =>
      if cm.testBit c then some (valueOf 1 (round (valueOf fmt (accBits m k false r c)) 1 .rne).1) else none := by
  simp only [statElems, accGet_eq_accBits, ← bit_eq_testBit, beq_iff_eq]
  rfl

theorem length_statBytes (m : Mat) (fmt k r cm : Nat) : (statBytes m fmt k r cm).length = 16 :=
  length_flatMap_pieces (fun _ => length_leBytes _ _) _

theorem getD_rowStats (m : Mat) (fmt k r cm : Nat) {q : Nat} (hq : q < 4) (d : Val) :
    (round ((rowStats (statElems m fmt k r cm)).getD q d) 1 .rne).1 = rowStatistic m fmt k r cm q := by
  rw [statElems_eq]
  match q, hq with
  | 0, _ => rfl
  | 1, _ => rfl
  | 2, _ => rfl
  | 3, _ => rfl

theorem getD_statBytes (m : Mat) (fmt k r cm : Nat) {q b : Nat} (hq : q < 4) (hb : b < 4) :
    (statBytes m fmt k r cm).getD (4 * q + b) 0 = BitVec.ofNat 8 (rowStatistic m fmt k r cm q / 256 ^ b) := by
  rw [statBytes, Nat.mul_comm, getD_flatMap_pieces (fun _ => length_leBytes _ _) hq hb .nan, getD_rowStats m fmt k r cm hq,
    leBytes_eq_map]
  simp [hb]

/-- The V registers once the statistics of the masked rows are in V register `v`. -/
def statRegs (s : State) (fmt k v r c : Nat) : SMap Byte :=
  putRuns (1024 * v) 16 (fun row => r / 2 ^ row % 2 == 1) (fun row => statBytes s.me.mat fmt k row c) s.me.vec.v

section
variable {s : State} {i : BitVec 1} {k : BitVec 3} {v rm cm : W64} {rest : List W64} {r c : Nat}

theorem exec_wRstat (h : CanIssue .w (.wRstat i k) s) (hv : top .w s = cm :: rm :: v :: rest) (hr : maskIs rm 16 r)
    (hc : maskIs cm 16 c) (hreg : v.toNat < 16) (htiles : s.me.tilesPending .w [k.toNat] s.cycle = false)
    (hbusy : s.me.vBusy v.toNat = false) (hready : SMap.get 0 s.me.vec.ready v.toNat ≤ s.cycle + 14) :
    completes .w (.wRstat i k) 4 s ((((arrived .w s).setStack .w rest).updVec fun x =>
      { x with v := statRegs s (if i = 1 then 8 else 1) k.toNat v.toNat r c }.readyAt [v.toNat] (s.cycle + 14)).updMe fun k0 =>
        k0.readTiles [k.toNat] (s.cycle + 4)) := by
  change execWRstat i k s = _
  unfold execWRstat issue
  refine popping_completes h (by simp [hv]) (Nat.zero_le _) ?_
  rw [hv]
  simp only [List.take_succ_cons, List.take_zero, List.drop_succ_cons, List.drop_zero, List.getD_cons_zero, List.getD_cons_succ,
    maskOf_of_maskIs (by decide : 16 < 64) hr, maskOf_of_maskIs (by decide : 16 < 64) hc, if_neg (Nat.not_le.2 hreg),
    me_setStack_arrived, tilesPending_taking, vBusy_taking, vec_taking, mat_taking, State.setStack_cycle, cycle_arrived, htiles, hbusy,
    decide_eq_false (Nat.not_lt.2 hready), Bool.or_self, Bool.false_eq_true, if_false]
  refine congrArg (fun u => Res.ok (State.updMe u _)) (updMe_congr ?_)
  rw [me_setStack_arrived]
  simp only [statRegs, putRuns, beq_iff_eq]
  rfl

end

/-- Settles O39: each word by its own lemma; the statistics by the runs they are written in. -/
theorem rowWords : Obligations.RowWords := by
  intro s
  refine ⟨fun f m x => exec_wRows, fun v rest => exec_wTime, exec_wTimeGet,
    fun i k v rm cm rest r c h hv hr hc hreg htiles hbusy hready => ⟨_, exec_wRstat h hv hr hc hreg htiles hbusy hready, ?_, ?_⟩⟩
  · intro row q b hrow hq hb hbit
    rw [statRegs, Nat.add_assoc, get_putRuns_on (length_statBytes _ _ _ · _) _ hrow (by omega) (bit_eq_testBit r row ▸ hbit),
      getD_statBytes _ _ _ _ _ hq hb]
  · intro a ha
    exact get_putRuns_off (length_statBytes _ _ _ · _) _ fun row hrow hon => ha row hrow (bit_eq_testBit r row ▸ hon)

end Sys2Proof.Words
end

section
/-! SUPPORT. Translation and the reads of an engine leave the cycle; the bytes a load of K brings (04 R89; 14 R293, R294). -/

namespace Sys2Proof.Words

open Sys2Proof.Machine Sys2Proof.Spec

/-! ## What a read of memory leaves as it was

A read, and the write-backs and revocations that come before it, replace dies alone. -/

section
variable {β : Type} {f : State → β} (hf : ∀ s d x, f (s.setDie d x) = f s)
include hf

theorem read_keeps (s : State) (die tier off n : Nat) : f (s.read die tier off n).1 = f s := by
  unfold State.read
  dsimp only
  split <;> exact hf _ _ _

theorem writeBack_keeps (x : FarLine) (s : State) : f (x.writeBack s) = f s := by
  unfold FarLine.writeBack State.write
  split
  · dsimp only
    split <;> exact hf _ _ _
  · rfl

theorem dropLines_keeps (s : State) (owner : Nat) (t : Token) (holder : Nat × Nat) : f (s.dropLines owner t holder) = f s := by
  unfold State.dropLines
  split
  · rfl
  · exact (foldl_keeps f (fun s x => writeBack_keeps hf x s) _ _).trans (hf _ _ _)

theorem uncached_keeps (s : State) (core die : Nat) (va : W64) (n : Nat) (write : Bool) :
    f (s.uncached core die va n write) = f s := by
  have hretoken : ∀ (s : State) (t : Token) (holders : List (Nat × Nat)), f (s.retoken die t holders) = f s := fun s t _ =>
    (hf _ _ _).trans (foldl_keeps f (fun s h => dropLines_keeps hf s die t h) _ s)
  unfold State.uncached State.revokeFor
  refine (foldl_keeps f (fun s t => hretoken s t _) _ _).trans ?_
  split
  · exact dropLines_keeps hf s die _ _
  · rfl

theorem farLine_keeps (s : State) (core : Nat) (a : At) : f (s.farLine core a).1 = f s := by
  have hread := read_keeps hf s a.die a.tier (a.off - a.va.toNat % 128) 128
  unfold State.farLine
  dsimp only
  split
  · rfl
  · split
    next hr => rwa [hr] at hread
    next hr =>
      rw [hr] at hread
      refine (hf _ _ _).trans ?_
      split
      · split
        · exact hread
        · exact (writeBack_keeps hf _ _).trans hread
      · exact hread

theorem farRead_keeps (s : State) (core : Nat) (a : At) (n mt : Nat) : f (s.farRead core a n mt).1 = f s := by
  unfold State.farRead
  split
  · exact (read_keeps hf _ _ _ _ _).trans (uncached_keeps hf s core a.die a.va n false)
  · refine List.foldlRecOn (motive := fun acc : State × Option (List Byte) => f acc.1 = f s) _ _ rfl fun acc hacc p _ => ?_
    obtain ⟨u, bs⟩ := acc
    cases bs with
    | none => exact hacc
    | some bs =>
      have hline := (farLine_keeps hf u core (a.plus p.1)).trans hacc
      dsimp only
      split
      next hl => rwa [hl] at hline
      next hl => rwa [hl] at hline

end

section
variable {s s2 s3 : State} {va : W64} {n : Nat} {read write : Bool} {p : Place}

theorem cycle_of_translate (h : Machine.translate s va write = .at_ p s2) : s2.cycle = s.cycle := by
  unfold Machine.translate at h
  dsimp only at h
  split at h
  · cases h
  · split at h
    · unfold askWalk at h
      dsimp only at h
      split at h
      · split at h <;> cases h
      · cases h
    · split at h
      · cases h
        split <;> rfl
      · cases h

theorem cycle_of_locate (h : locate s va n read write = .at_ p s2) : s2.cycle = s.cycle := by
  unfold locate at h
  split at h
  next htr =>
    split at h
    · cases h
    · split at h
      · cases h
      · cases h
        exact cycle_of_translate htr
  next hne => exact absurd h (hne p s2)

theorem cycle_of_farRead {core mt : Nat} {a : At} {bs : Option (List Byte)} (h : s.farRead core a n mt = (s3, bs)) :
    s3.cycle = s.cycle := by
  have := farRead_keeps (f := State.cycle) (fun _ _ _ => rfl) s core a n mt
  rwa [h] at this

/-- A load of K that meets nothing goes on with the bytes that are read. -/
theorem loadBytes_k {f : List Byte → State → Res} {cls : Nat} {bs : List Byte} (hat : locate s va n true false = .at_ p s2)
    (hfree : Unhindered .k p va n cls s2) (hread : s2.farRead s2.actor (p.at_ va) n p.mt = (s3, some bs)) :
    loadBytes .k va n cls f s = f bs (loaded .k s3) := by
  obtain ⟨hpeer, hwait, hfree, -⟩ := hfree
  have hgot : readPlace 0 .k p va n cls s2 = .ok bs s3 := by simp [readPlace, hpeer, hwait, hfree, hread]
  simp only [loadBytes, loadSpan, fetchSpan, hat, hgot]
  rfl

end

end Sys2Proof.Words
end

section
/-! SUPPORT. What a word of K finds as it was; the words that set the copy engine's registers, its waits, flags and pins (11 R230,
R233, R239, R241-R243, R245, R247, R248). -/

namespace Sys2Proof.Words

open Sys2Proof.Machine Sys2Proof.Spec

/-! ## What a word of K finds as it was -/

@[simp] theorem kop_setStack (s : State) (t : Engine) (st : List W64) : (s.setStack t st).me.kop = s.me.kop := by
  rw [me_setStack]
  rfl

@[simp] theorem kop_arrived (s : State) (t : Engine) : (arrived t s).me.kop = s.me.kop := by
  rw [arrived, State.me_updMe]
  rfl

section
variable {t : Engine} {i : Instr} {n : State → Nat} {body : State → Res} {s e : State} {a b : W64} {rest : List W64}

theorem issueN_holds (h : CanIssue t i s) (he : body (arrived t s) = .hold e) :
    issueN t i n body s =
      .next ((e.setStack t (top t s)).updMe fun k => k.updEn t fun x => { x with nextIssue := s.cycle + 1 }) := by
  rw [issueN_of_canIssue h, he]

theorem popping_two_arrived {f : List W64 → State → Res} (h : CanIssue t i s) (hv : top t s = b :: a :: rest) :
    popping t 2 0 f (arrived t s) = f [b, a] ((arrived t s).setStack t rest) := by
  rw [popping_arrived (by simp [hv]) (Nat.le_trans (Nat.sub_le _ _) (length_top_of_canIssue h)), hv]
  rfl

end

/-! ## The words that set registers (11 R230, R233, R239, R245) -/

/-- A word of K pops its operands and sets the registers as a form gives them. -/
def SetsKop (i : Instr) (p : Nat) (f : List W64 → Kop → Option Kop) : Prop :=
  ∃ body, (∀ s, exec i s = issue .k i 1 (popping .k p 0 body) s) ∧
    ∀ v s x, f v s.me.kop = some x → body v s = .ok (s.updKop fun _ => x)

theorem contains_elemSizes {n : Nat} (h : n = 1 ∨ n = 2 ∨ n = 4 ∨ n = 8) : ([1, 2, 4, 8] : List Nat).contains n = true := by
  obtain rfl | rfl | rfl | rfl := h <;> rfl

theorem kconvOf_of_reserved {v : List W64}
    (h : bits (v.getD 3 0) 0 8 = 0 ∧ bits (v.getD 2 0) 32 32 = 0 ∧ bits (v.getD 1 0) 32 32 = 0) :
    kconvOf v = some { geom := v.getD 4 0, win := v.getD 3 0, pad := v.getD 2 0, nb := v.getD 1 0, pv := v.getD 0 0 } := by
  dsimp only [kconvOf]
  rw [if_neg (by omega)]

theorem setsKop_of_kopForm {i : Instr} {p : Nat} {f : List W64 → Kop → Option Kop} (h : kopForm i = some (p, f)) :
    SetsKop i p f := by
  cases i
  case kGeoDim | kGeoSpace | kGeoSig =>
    cases h
    refine ⟨_, fun _ => rfl, fun v s x hx => ?_⟩
    dsimp only at hx ⊢
    split at hx <;> cases hx
    rw [if_neg (by omega)]
  case kGeoRank =>
    cases h
    refine ⟨_, fun _ => rfl, fun v s x hx => ?_⟩
    dsimp only at hx ⊢
    split at hx <;> cases hx
    next hok =>
      obtain ⟨hlo, hhi, heb⟩ := hok
      rw [contains_elemSizes heb, if_neg]
      simp only [Bool.not_true, Bool.false_eq_true, or_false]
      omega
  case kGeoClear =>
    cases h
    refine ⟨_, fun _ => rfl, fun v s x hx => ?_⟩
    cases hx
    rfl
  case kConvSrc | kConvDst =>
    cases h
    refine ⟨_, fun _ => rfl, fun v s x hx => ?_⟩
    dsimp only at hx ⊢
    split at hx <;> cases hx
    next hok =>
      rw [kconvOf_of_reserved hok]
      rfl
  case kCnt =>
    cases h
    refine ⟨_, fun _ => rfl, fun v s x hx => ?_⟩
    dsimp only at hx ⊢
    split at hx <;> cases hx
    rw [if_neg (by omega), if_neg (by omega)]
    rfl
  all_goals exact absurd h nofun

theorem kopForm_completes {i : Instr} {p : Nat} {f : List W64 → Kop → Option Kop} {s : State} {x : Kop}
    (hf : kopForm i = some (p, f)) (h : CanIssue .k i s) (hp : p ≤ (top .k s).length)
    (hx : f ((top .k s).take p) s.me.kop = some x) :
    completes .k i 1 s (((arrived .k s).setStack .k ((top .k s).drop p)).updKop fun _ => x) := by
  obtain ⟨body, hexec, hbody⟩ := setsKop_of_kopForm hf
  rw [completes, hexec]
  exact popping_completes h hp (Nat.zero_le p) (hbody _ _ _ (by rwa [kop_setStack, kop_arrived]))

section
variable {s : State}

theorem exec_kCntGet (h : CanIssue .k .kCntGet s) (hroom : (top .k s).length + 2 ≤ 8) :
    completes .k .kCntGet 1 s ((arrived .k s).setStack .k (s.me.kop.cntInc :: s.me.kop.cntVa :: top .k s)) := by
  change execKCntGet s = _
  unfold execKCntGet issue
  refine issueN_completes h ?_
  rw [popping_arrived (Nat.zero_le _) hroom, pushing_setStack, kop_setStack, kop_arrived]
  rfl

/-- No form is deeper than 32 (09 R206). -/
theorem followDepth_lt (tern : Bool) (code : Nat) :
    (if tern then 32 else max (mmaForm code).dense (mmaForm code).sparse) < 64 := by
  have hdeep : max (mmaForm code).dense (mmaForm code).sparse < 64 := by
    unfold mmaForm
    split <;> exact of_decide_eq_true rfl
  split
  · decide
  · exact hdeep

theorem exec_kFollow {w a rm cm dm : W64} {rest : List W64} {tern : Bool} {code tile r c d : Nat} (h : CanIssue .k .kFollow s)
    (hv : top .k s = dm :: cm :: rm :: a :: w :: rest) (hword : followWord w = some (tern, code, tile)) (hr : maskIs rm 16 r)
    (hc : maskIs cm 16 c) (hd : maskIs dm (if tern then 32 else max (mmaForm code).dense (mmaForm code).sparse) d)
    (hslots : a.toNat + (if tern then 4 else if (mmaForm code).sparse = 0 then 1 else 2) ≤ 256) (hnone : s.me.kop.follow = none) :
    completes .k .kFollow 1 s (((arrived .k s).setStack .k rest).updKop fun x => { x with
      follow := some { w := w.toNat, a := a, rm := rm, cm := cm, dm := dm } }) := by
  change execKFollow s = _
  unfold execKFollow issue
  refine popping_completes h (by simp [hv]) (Nat.zero_le 5) ?_
  simp [hv, hword, maskOf_of_maskIs (by decide) hr, maskOf_of_maskIs (by decide) hc, maskOf_of_maskIs (followDepth_lt tern code) hd,
    hnone, hslots]

/-- The words of 11 R230, R233, R239 and R245, each by the lemma of its form. -/
theorem copyRegisters : CopyRegisters := fun _ =>
  ⟨fun _ _ _ _ => kopForm_completes, exec_kCntGet, fun _ _ _ _ _ _ _ _ _ _ _ _ => exec_kFollow⟩

end

/-! ## K.CWAIT (11 R241) -/

section
variable {s s2 s3 : State} {x : BitVec 3} {va t : W64} {rest : List W64}

section
variable (h : CanIssue .k (.kCwait x) s) (htimed : s.me.leg.timed = false) (hv : top .k s = t :: va :: rest)
include h htimed hv

theorem cwaitBody_unsent (hpoll : s.me.kop.poll = none) :
    cwaitBody (arrived .k s) = pollStart va ((arrived .k s).setStack .k rest) := by
  simp only [cwaitBody, leg_arrived, htimed, Bool.false_eq_true, if_false, popping_two_arrived h hv, kop_setStack, kop_arrived, hpoll]
  rfl

theorem cwaitBody_back {y : Poll} {c : W64} (hpoll : s.me.kop.poll = some y) (hgot : y.got = some c) (hback : y.back ≤ s.cycle) :
    cwaitBody (arrived .k s) = pollEnd t c ((arrived .k s).setStack .k rest) := by
  simp only [cwaitBody, leg_arrived, htimed, Bool.false_eq_true, if_false, popping_two_arrived h hv, kop_setStack, kop_arrived, hpoll,
    hgot, State.setStack_cycle, cycle_arrived, Nat.not_lt.2 hback]
  rfl

theorem cwaitBody_reads {y : Poll} {p : Place} {bs : List Byte} (hpoll : s.me.kop.poll = some y) (hgot : y.got = none)
    (heffect : y.effect ≤ s.cycle) (hat : locate ((arrived .k s).setStack .k rest) va 8 true false = .at_ p s2)
    (hfree : Unhindered .k p va 8 0 s2) (hread : s2.farRead s2.actor (p.at_ va) 8 p.mt = (s3, some bs)) :
    cwaitBody (arrived .k s) =
      if s.cycle < y.back then
        .hold ((loaded .k s3).updKop fun k => { k with poll := some { y with got := some (BitVec.ofNat 64 (leNat bs)) } })
      else pollEnd t (BitVec.ofNat 64 (leNat bs)) (loaded .k s3) := by
  have hcycle : (loaded .k s3).cycle = s.cycle := (cycle_of_farRead hread).trans ((cycle_of_locate hat).trans rfl)
  simp only [cwaitBody, leg_arrived, htimed, Bool.false_eq_true, if_false, popping_two_arrived h hv, kop_setStack, kop_arrived, hpoll,
    hgot, State.setStack_cycle, cycle_arrived, Nat.not_lt.2 heffect]
  refine (loadBytes_k hat hfree hread).trans ?_
  rw [hcycle]
  rfl

end

theorem pollEnd_reached {c : W64} {u : State} (hc : t.toNat ≤ c.toNat) :
    pollEnd t c u = .ok (u.updKop fun k => { k with poll := none }) := if_pos hc

theorem pollEnd_short {c : W64} {u : State} (hc : c.toNat < t.toNat) :
    pollEnd t c u = .hold (u.updKop fun k => { k with poll := none }) := if_neg (Nat.not_le.2 hc)

theorem exec_kCwait {e : State} (h : CanIssue .k (.kCwait x) s) (hbody : cwaitBody (arrived .k s) = .ok e) :
    completes .k (.kCwait x) 1 s e := by
  change execKCwait x s = _
  exact issueN_completes (n := fun _ => 1) h hbody

theorem exec_kCwait_holds {e : State} (h : CanIssue .k (.kCwait x) s) (hbody : cwaitBody (arrived .k s) = .hold e) :
    holds .k (.kCwait x) s e := by
  change execKCwait x s = _
  exact issueN_holds (n := fun _ => 1) h hbody

/-- The event that ends the wait completes the word (11 R241). -/
theorem exec_cwaitSatisfied {s0 e : State} (h : CanIssue .k (.kCwait x) s) (hbody : cwaitBody (arrived .k s) = .ok e)
    (hturn : engineTurn s0 .k = .run (.kCwait x) s) (harrived : arrived .k s = s) :
    exec .cwaitSatisfied s0 = .next (issued .k (.kCwait x) 1 s e) := by
  rw [← show execKCwait x s = .next (issued .k (.kCwait x) 1 s e) from exec_kCwait h hbody]
  rw [harrived] at hbody
  change execCwaitSatisfied s0 = _
  simp only [execCwaitSatisfied, hturn, hbody]

end

/-! ## K.FLAG (11 R243) -/

section
variable {s : State} {n : BitVec 6} {v : W64} {rest : List W64}

theorem flagWord_toNat {op a : Nat} (hop : op < 4) (ha : a < 2 ^ 32) : (flagWord op a).toNat = op * 2 ^ 62 + a := by
  rw [flagWord, BitVec.toNat_ofNat]
  omega

theorem flagOp_flagWord {op a : Nat} (hop : op < 4) (ha : a < 2 ^ 32) : flagOp (flagWord op a) = op := by
  rw [flagOp, bits, flagWord_toNat hop ha]
  omega

theorem flagAmount_flagWord {op a : Nat} (hop : op < 4) (ha : a < 2 ^ 32) : flagAmount (flagWord op a) = a := by
  rw [flagAmount, bits, flagWord_toNat hop ha]
  omega

theorem flagReserved_flagWord {op a : Nat} (hop : op < 4) (ha : a < 2 ^ 32) : bits (flagWord op a) 32 30 = 0 := by
  rw [bits, flagWord_toNat hop ha]
  omega

section
variable {a : Nat} (h : CanIssue .k (.kFlag n) s) (ha : a < 2 ^ 32)
include h ha

theorem flagBody_waits (hv : top .k s = flagWord 0 a :: rest) (htimed : s.me.leg.timed = false)
    (hle : a ≤ SMap.get 0 s.me.kop.flags n.toNat) :
    flagBody n.toNat (arrived .k s) = .ok (((arrived .k s).setStack .k rest).updKop fun x => { x with
      flags := SMap.set 0 x.flags n.toNat (SMap.get 0 s.me.kop.flags n.toNat - a) }) := by
  simp only [flagBody, stack_arrived, hv, flagReserved_flagWord (show 0 < 4 by decide) ha, flagOp_flagWord (show 0 < 4 by decide) ha,
    flagAmount_flagWord (show 0 < 4 by decide) ha, leg_arrived, htimed, kop_arrived, hle, popping_one_arrived h hv]
  rfl

theorem flagBody_adds (hv : top .k s = flagWord 1 a :: rest) :
    flagBody n.toNat (arrived .k s) = .ok (((arrived .k s).setStack .k rest).updKop fun x => { x with
      flags := SMap.set 0 x.flags n.toNat (min (SMap.get 0 x.flags n.toNat + a) (2 ^ 32 - 1)) }) := by
  simp only [flagBody, stack_arrived, hv, flagReserved_flagWord (show 1 < 4 by decide) ha, flagOp_flagWord (show 1 < 4 by decide) ha,
    flagAmount_flagWord (show 1 < 4 by decide) ha, popping_one_arrived h hv]
  rfl

theorem flagBody_sets (hv : top .k s = flagWord 3 a :: rest) :
    flagBody n.toNat (arrived .k s) = .ok (((arrived .k s).setStack .k rest).updKop fun x => { x with
      flags := SMap.set 0 x.flags n.toNat a }) := by
  simp only [flagBody, stack_arrived, hv, flagReserved_flagWord (show 3 < 4 by decide) ha, flagOp_flagWord (show 3 < 4 by decide) ha,
    flagAmount_flagWord (show 3 < 4 by decide) ha, popping_one_arrived h hv]
  rfl

end

theorem flagBody_reads (h : CanIssue .k (.kFlag n) s) (hv : top .k s = flagWord 2 0 :: rest) :
    flagBody n.toNat (arrived .k s) =
      .ok ((arrived .k s).setStack .k (BitVec.ofNat 64 (SMap.get 0 s.me.kop.flags n.toNat) :: rest)) := by
  have hdepth := length_top_of_canIssue h
  have hlen : (top .k s).length = rest.length + 1 := by rw [hv, List.length_cons]
  simp only [flagBody, stack_arrived, hv, flagReserved_flagWord (show 2 < 4 by decide) (show 0 < 2 ^ 32 by decide),
    flagOp_flagWord (show 2 < 4 by decide) (show 0 < 2 ^ 32 by decide),
    flagAmount_flagWord (show 2 < 4 by decide) (show 0 < 2 ^ 32 by decide), kop_arrived]
  rw [if_neg (by decide), if_neg (by decide), popping_arrived (by omega) (by omega), hv, pushing_setStack]
  rfl

theorem exec_kFlag {e : State} (h : CanIssue .k (.kFlag n) s) (hdue : s.flagDue = false)
    (hbody : flagBody n.toNat (arrived .k s) = .ok e) : completes .k (.kFlag n) 1 s e := by
  change execKFlag n s = _
  rw [execKFlag, hdue, if_neg Bool.false_ne_true]
  exact issueN_completes h hbody

/-- The event that ends the wait completes the word (11 R243). -/
theorem exec_flagWaitSatisfied {s0 e : State} (h : CanIssue .k (.kFlag n) s) (hdue : s.flagDue = false)
    (hbody : flagBody n.toNat (arrived .k s) = .ok e) (hturn : engineTurn s0 .k = .run (.kFlag n) s) (harrived : arrived .k s = s) :
    exec .flagWaitSatisfied s0 = .next (issued .k (.kFlag n) 1 s e) := by
  rw [← show execKFlag n s = .next (issued .k (.kFlag n) 1 s e) from exec_kFlag h hdue hbody]
  rw [harrived] at hbody
  change execFlagWaitSatisfied s0 = _
  simp only [execFlagWaitSatisfied, hturn, hbody]

end

/-- The two waits by what their bodies come to, of which the events that end them make use too (11 R241, R243). -/
theorem copyWaitsAndFlags : CopyWaitsAndFlags := by
  intro s n v rest
  refine ⟨fun s2 s3 x va t p y bs h htimed hv hat => ⟨fun hpoll hpeer => ?_, fun hpoll hgot heffect hfree hread => ?_⟩,
    fun x va t c y h htimed hv hpoll hgot hback => ?_, fun a h hdue ha hv => ⟨?_, ?_, ?_, ?_⟩⟩
  · refine exec_kCwait_holds h ((cwaitBody_unsent h htimed hv hpoll).trans ?_)
    simp only [pollStart, withPlace, hat, hpeer]
  · have hbody := cwaitBody_reads h htimed hv hpoll hgot heffect hat hfree hread
    refine ⟨fun hfar => exec_kCwait_holds h (hbody.trans (if_pos hfar)), fun hback hreached => ?_⟩
    replace hbody := (hbody.trans (if_neg (Nat.not_lt.2 hback))).trans (pollEnd_reached hreached)
    exact ⟨exec_kCwait h hbody, fun s0 => exec_cwaitSatisfied h hbody⟩
  · have hbody := cwaitBody_back h htimed hv hpoll hgot hback
    exact ⟨fun hreached => exec_kCwait h (hbody.trans (pollEnd_reached hreached)),
      fun hshort => exec_kCwait_holds h (hbody.trans (pollEnd_short hshort))⟩
  · rintro rfl htimed hle
    have hbody := flagBody_waits h ha hv htimed hle
    refine ⟨exec_kFlag h hdue hbody, fun s0 hturn harrived => ?_⟩
    have hexec := exec_flagWaitSatisfied h hdue hbody hturn harrived
    rwa [harrived] at hexec
  · rintro rfl
    exact exec_kFlag h hdue (flagBody_adds h ha hv)
  · rintro rfl
    exact exec_kFlag h hdue (flagBody_reads h hv)
  · rintro rfl
    exact exec_kFlag h hdue (flagBody_sets h ha hv)

/-! ## K.PIN (11 R247, R248) -/

section
variable {s s1 s2 s0 s3 : State} {va n : W64} {rest : List W64} {ps qs : List CopyPage} {keys : List PageKey}

/-- The distance of the word counts the pages of the run as it is issued. -/
theorem pinTime_arrived (hv : top .k s = n :: va :: rest)
    (hwalk : pinWalk (arrived .k s) (va.toNat + n.toNat) (n.toNat / 4096 + 2) va.toNat s.me.kop.walked = .ok qs s0) :
    pinTime (arrived .k s) = 1 + qs.length := by
  simp only [pinTime, stack_arrived, hv, List.getD_cons_zero, List.getD_cons_succ, kop_arrived, hwalk]

section
variable {i : Instr} (h : CanIssue .k i s) (htimed : s.me.leg.timed = false) (hv : top .k s = n :: va :: rest)
  (hn : 1 ≤ n.toNat) (hmax : n.toNat ≤ 2 ^ 40)
  (hwalk : pinWalk ((arrived .k s).setStack .k rest) (va.toNat + n.toNat) (n.toNat / 4096 + 2) va.toNat s.me.kop.walked = .ok ps s2)
include h htimed hv hn hmax hwalk

theorem pinBody_pins (hfew : tooManyPins (s2.pinsOf ps) = false)
    (hpin : (s2.updMe fun k => k.havePages .k).pinAll (s2.pinsOf ps) = some s3) :
    pinBody false (arrived .k s) = .ok (s3.updKop fun x => { x with pins := x.pins ++ s2.pinsOf ps }) := by
  have hrange : ¬(n.toNat < 1 ∨ 2 ^ 40 < n.toNat) := by omega
  simp only [pinBody, leg_arrived, htimed, Bool.false_eq_true, if_false, popping_two_arrived h hv, List.getD_cons_zero,
    List.getD_cons_succ, hrange, kop_setStack, kop_arrived, hwalk, hfew, hpin]

theorem pinBody_releases (hheld : ∀ q ∈ s2.pinsOf ps, q ∈ s2.me.kop.pins) :
    pinBody true (arrived .k s) = .ok (((s2.updMe fun k => k.havePages .k).unpinAll (s2.pinsOf ps)).updKop fun x =>
      { x with pins := (s2.pinsOf ps).foldl (fun l y => l.erase y) x.pins }) := by
  have hrange : ¬(n.toNat < 1 ∨ 2 ^ 40 < n.toNat) := by omega
  have hall : ((s2.pinsOf ps).all fun x => (s2.updMe fun k => k.havePages .k).me.kop.pins.contains x) = true := by
    rw [State.me_updMe, List.all_eq_true]
    exact fun q hq => List.contains_iff_mem.2 (hheld q hq)
  simp only [pinBody, leg_arrived, htimed, Bool.false_eq_true, if_false, popping_two_arrived h hv, List.getD_cons_zero,
    List.getD_cons_succ, hrange, kop_setStack, kop_arrived, hwalk, hall, if_true]

end

/-- Both forms of K.PIN, with the distance that counts their pages (11 R247, R248). -/
theorem pinWords : PinWords := by
  rintro s s1 s2 va n rest ps qs s0 keys htimed hv hn hmax rfl hissue hwalk rfl
  have htime := pinTime_arrived hv hissue
  refine ⟨fun s3 h hfew hpin => ?_, fun h hheld => ?_⟩
  · exact htime ▸ issueN_completes h (pinBody_pins h htimed hv hn hmax hwalk hfew hpin)
  · exact htime ▸ issueN_completes h (pinBody_releases h htimed hv hn hmax hwalk hheld)

end

/-- Settles O37: the words that set registers, the waits and flags, and the pins, each by the lemmas of its words. -/
theorem copyStateAndWaitWords : Obligations.CopyStateAndWaitWords := ⟨copyRegisters, copyWaitsAndFlags, pinWords⟩

end Sys2Proof.Words
end

section
/-! SUPPORT. The statement about copies fails: the state that shows it has a copy whose only piece counts as read before its read is
sent (11 R236, R248). -/

namespace Sys2Proof.Words

open Sys2Proof.Machine Sys2Proof.Spec

/-- A copy of four bytes from global address 64, in a page of the fast tier, to address 256 of the scratchpad. It counts its piece as
read and holds the bytes, which are due; its count of the pieces whose reads are sent stands at 0. -/
def unsentCopy : Copy :=
  { geo := { n := 1, eb := 4, ss := 1 }
    convS := {}, convD := {}, sbase := 64, dbase := 256, cnt := 0, inc := 0, follow := none, place := 0, tpc := 0
    reads := [], writes := [], pins := [], tag := none, readAt := 0
    pages := [{ side := 0, die := 0, entry := { space := 0, base := 0, size := 3, leaf := 399 } }]
    taken := 1
    moves := [{ piece := { src := some 64, dst := some 256, n := 4 }, bytes := [1, 2, 3, 4], at_ := 4 }] }

/-- Core 0 has that copy under way. -/
def writingUnsent : State :=
  { State.reset with
    cycle := 10
    cores := [(0, { kop := { copies := [unsentCopy] } })] }

/-- The number of pieces whose reads the first copy has sent, in the state an event comes to. -/
def sentAfter : Out → Option Nat
  | .next s => s.me.kop.copies.head?.map Copy.sentTo
  | _ => none

/-- The model writes the piece and, in the same cycle, sends the read that was not sent. -/
theorem sentAfter_writingUnsent : sentAfter (exec (.copyComplete 0) writingUnsent) = some 1 := by decide +kernel

/-- Refutes O38: the clause on a write speaks of every copy whose pieces all count as read, also of one from global memory whose read
was never sent. Once it has written, the model sends that read, and the copy's count of sent pieces goes to 1, where the statement
leaves it as it was. -/
theorem not_copyWords : ¬ Obligations.CopyWords := by
  rintro ⟨-, hmovement⟩
  obtain ⟨-, hwrite, -⟩ := hmovement writingUnsent
  have hgoes : CopyGoesOn writingUnsent writingUnsent unsentCopy := by
    delta CopyGoesOn
    decide +kernel
  have hexec := hwrite unsentCopy _ 256 writingUnsent rfl (by decide +kernel) hgoes rfl (by decide +kernel) (by decide +kernel) rfl rfl
    (by decide +kernel) (by decide +kernel) (by decide +kernel)
  have hsent := congrArg sentAfter hexec
  rw [sentAfter_writingUnsent] at hsent
  exact absurd hsent (by decide +kernel)

end Sys2Proof.Words
end

section
/-! SUPPORT. What the pending words of the commons settle to, by the rule of their region (12 R257). -/

namespace Sys2Proof.Words

open Sys2Proof.Machine Sys2Proof.Spec

/-! ## PRIORITY: the last stores of the ranks and the winner among them -/

/-- A store by its rank and its place in the program order. -/
def storeOrder (x : PlaneStore) : ℕ ×ₗ ℕ ×ₗ ℕ := toLex (x.rank, toLex (x.place, x.order))

/-- A store by what decides between the last stores of two ranks. -/
def storeStrength (x : PlaneStore) : ℕ ×ₗ ℕ := toLex (x.pri, x.rank)

theorem before_iff_storeOrder_lt {x y : PlaneStore} : x.before y = true ↔ storeOrder x < storeOrder y := by
  simp [PlaneStore.before, storeOrder, Prod.Lex.toLex_lt_toLex]

theorem before_eq_false_of_le {x y : PlaneStore} (h : storeOrder y ≤ storeOrder x) : x.before y = false :=
  Bool.eq_false_iff.2 fun hb => absurd (before_iff_storeOrder_lt.1 hb) (not_lt_of_ge h)

theorem storeStrength_le_iff {x y : PlaneStore} :
    storeStrength y ≤ storeStrength x ↔ y.pri < x.pri ∨ (y.pri = x.pri ∧ y.rank ≤ x.rank) :=
  Prod.Lex.toLex_le_toLex

/-- The last store of each rank. -/
def lastStores (xs : List PlaneStore) : List PlaneStore :=
  xs.filter fun x => !xs.any fun y => decide (y.rank = x.rank) && x.before y

theorem mem_lastStores_iff {xs : List PlaneStore} {x : PlaneStore} :
    x ∈ lastStores xs ↔ x ∈ xs ∧ ∀ y ∈ xs, y.rank = x.rank → x.before y = false := by
  simp [lastStores]

/-- The store that no other follows is the last one of its rank. -/
theorem lastStores_ne_nil {xs : List PlaneStore} (h : xs ≠ []) : lastStores xs ≠ [] := by
  obtain ⟨x, hx⟩ := Option.ne_none_iff_exists'.1 (mt List.argmax_eq_none.1 h : xs.argmax storeOrder ≠ none)
  exact List.ne_nil_of_mem (mem_lastStores_iff.2
    ⟨List.argmax_mem hx, fun _ hy _ => before_eq_false_of_le (List.le_of_mem_argmax hy hx)⟩)

/-- The stronger of the store found so far and the next one, the earlier of two equals. -/
def stronger (acc : Option PlaneStore) (x : PlaneStore) : Option PlaneStore :=
  match acc with
  | none => some x
  | some a => if decide (a.pri < x.pri) || (decide (a.pri = x.pri) && decide (a.rank < x.rank)) then some x else some a

theorem foldl_stronger (xs : List PlaneStore) : xs.foldl stronger none = xs.argmax storeStrength := by
  refine congrArg (fun f => xs.foldl f none) (funext fun acc => funext fun x => ?_)
  cases acc with
  | none => rfl
  | some a => simp [stronger, List.argAux, storeStrength, Prod.Lex.toLex_lt_toLex]

theorem settleWord_priority {v : W64} (xs : List PlaneStore) (h : regionRule v = 0) :
    settleWord v xs = (((lastStores xs).argmax storeStrength).elim 0 PlaneStore.val, false) := by
  rw [← foldl_stronger]
  simp only [settleWord, h]
  change (match (lastStores xs).foldl stronger none with | some x => x.val | none => 0, false) = _
  cases (lastStores xs).foldl stronger none <;> rfl

theorem settleWord_priority_winner {v : W64} {xs : List PlaneStore} (h : regionRule v = 0) (hxs : xs ≠ []) :
    ∃ x ∈ lastStores xs, settleWord v xs = (x.val, false) ∧ ∀ y ∈ lastStores xs, storeStrength y ≤ storeStrength x := by
  obtain ⟨x, hx⟩ := Option.ne_none_iff_exists'.1
    (mt List.argmax_eq_none.1 (lastStores_ne_nil hxs) : (lastStores xs).argmax storeStrength ≠ none)
  refine ⟨x, List.argmax_mem hx, ?_, fun y hy => List.le_of_mem_argmax hy hx⟩
  rw [settleWord_priority xs h, hx]
  rfl

/-! ## SUM: the exact sum, brought into 64 bits -/

theorem signedOf_eq_toInt (b : Nat) : signedOf 64 b = (BitVec.ofNat 64 b).toInt := by
  rw [BitVec.toInt_eq_toNat_cond, BitVec.toNat_ofNat, signedOf]
  by_cases h : b % 2 ^ 64 < 2 ^ 63
  · rw [if_pos h, if_pos (by omega)]
    rfl
  · rw [if_neg h, if_neg (by omega)]
    rfl

theorem settleWord_sum {v : W64} (xs : List PlaneStore) (h : regionRule v = 1) :
    settleWord v xs = saturate 9 (storeSum xs) := by
  simp only [settleWord, h, storeSum, signedOf_eq_toInt]

/-- The range of 64 bits written out (03 R59). -/
theorem saturate_int64 (t : Int) : saturate 9 t =
    if t < -(2 ^ 63) then (2 ^ 63, true) else if 2 ^ 63 - 1 < t then (2 ^ 63 - 1, true) else ((BitVec.ofInt 64 t).toNat, false) := by
  rw [BitVec.toNat_ofInt]
  rfl

theorem saturate_int64_within {t : Int} (h : -(2 ^ 63) ≤ t ∧ t < 2 ^ 63) : saturate 9 t = ((BitVec.ofInt 64 t).toNat, false) := by
  rw [saturate_int64, if_neg (by omega), if_neg (by omega)]

theorem saturate_int64_below {t : Int} (h : t < -(2 ^ 63)) : saturate 9 t = (2 ^ 63, true) := by
  rw [saturate_int64, if_pos h]

theorem saturate_int64_above {t : Int} (h : 2 ^ 63 ≤ t) : saturate 9 t = (2 ^ 63 - 1, true) := by
  rw [saturate_int64, if_neg (by omega), if_pos (by omega)]

/-! ## FAULT -/

theorem settleWord_fault {v : W64} (x : PlaneStore) (h : regionRule v = 2) : settleWord v [x] = (x.val, false) := by
  simp only [settleWord, h]

/-- Settles O19: the winner among the last stores, the sum brought into its range, and the one store. -/
theorem planeSettlement : Obligations.PlaneSettlement := by
  refine ⟨fun v xs h hxs => ?_, fun v xs h => ?_, fun v x h => settleWord_fault x h⟩
  · obtain ⟨x, hx, hval, hwins⟩ := settleWord_priority_winner h hxs
    obtain ⟨hmem, hlast⟩ := mem_lastStores_iff.1 hx
    exact ⟨x, hmem, hval, hlast, fun y hy hy' => storeStrength_le_iff.1 (hwins y (mem_lastStores_iff.2 ⟨hy, hy'⟩))⟩
  · rw [settleWord_sum xs h]
    exact ⟨saturate_int64_within, saturate_int64_below, saturate_int64_above⟩

end Sys2Proof.Words
end

section
/-! SUPPORT. The words of the access engine on the commons (12 R256, R259, R260, R262). -/

namespace Sys2Proof.Words

open Sys2Proof.Machine Sys2Proof.Spec

@[simp] theorem here_setStack (s : State) (t u : Engine) (st : List W64) : (s.setStack t st).me.here u = s.me.here u :=
  place_setStack s t u st

@[simp] theorem here_arrived (s : State) (t u : Engine) : (arrived t s).me.here u = s.me.here u := place_arrived s t u

@[simp] theorem die_arrived (s : State) (t : Engine) (d : Nat) : (arrived t s).die d = s.die d := rfl

@[simp] theorem myDie_arrived (s : State) (t : Engine) : (arrived t s).myDie = s.myDie := rfl

@[simp] theorem actor_arrived (s : State) (t : Engine) : (arrived t s).actor = s.actor := rfl

/-! ## Own field and other field (12 R262) -/

section
variable (s : State) (ca : Nat)

/-- A number of cycles that depends on the field of an address. -/
theorem ite_planeNear {α : Type} (near far : α) :
    (if s.planeNear ca then near else far) = if ca / 2 ^ 20 = s.actor % 512 / 16 then near else far := by
  simp [State.planeNear]

theorem planeWait_eq_plane (near far : Nat) : s.planeWait (if s.planeNear ca then near else far) = plane ca near far s := by
  rw [ite_planeNear]
  rfl

/-- The read of a plane load: its landing is noted for the cycle in which it takes its value (12 R261). -/
theorem pld_eq_plane {near : Nat} (h : near = if ca / 2 ^ 20 = s.actor % 512 / 16 then 3 else 9) (n : Nat) (dest : Option (Nat × Nat)) :
    s.pld ca n dest = (plane ca 2 8 s).updMe fun k => k.later .a (s.cycle + near) (.plane ca n dest near) := by
  have hread : s.pldRead ca = near := (ite_planeNear s ca 3 9).trans h.symm
  have hwait : s.pldRead ca - 1 = if s.planeNear ca then 2 else 8 := by
    rw [State.pldRead]
    split <;> rfl
  have hcome : s.pldCome ca = near := hread
  rw [State.pld, hwait, planeWait_eq_plane, hread, hcome]

end

/-! ## A.PLD (12 R259) -/

section
variable {s : State} {v ca p : W64} {rest : List W64} {j near : Nat}

theorem exec_aPld (hj : (s.die s.myDie).regionAt ca.toNat = some j)
    (hnear : near = if ca.toNat / 2 ^ 20 = s.actor % 512 / 16 then 3 else 9) (h : CanIssue .a .aPld s) (hv : top .a s = ca :: rest)
    (halign : ca.toNat % regionWidth ((s.die s.myDie).reg j) = 0) :
    completes .a .aPld (if ca.toNat / 2 ^ 20 = s.actor % 512 / 16 then 7 else 19) s
      ((plane ca.toNat 2 8 ((arrived .a s).setStack .a rest)).updMe fun k =>
        k.later .a (s.cycle + near) (.plane ca.toNat (regionWidth ((s.die s.myDie).reg j)) none near)) := by
  have hn : (if (arrived .a s).planeNear (((arrived .a s).stack .a).getD 0 0).toNat then 7 else 19) =
      if ca.toNat / 2 ^ 20 = s.actor % 512 / 16 then 7 else 19 := by
    rw [stack_arrived, hv]
    exact ite_planeNear (arrived .a s) ca.toNat 7 19
  rw [← hn]
  change execAPld s = _
  unfold execAPld
  refine popped_one_completes h hv (Nat.le_refl 1) ?_
  simpa [hj, halign] using pld_eq_plane ((arrived .a s).setStack .a rest) ca.toNat hnear _ none

theorem exec_aPldQueue {q : BitVec 2} (hj : (s.die s.myDie).regionAt ca.toNat = some j)
    (hnear : near = if ca.toNat / 2 ^ 20 = s.actor % 512 / 16 then 3 else 9) (h : CanIssue .a (.aPldQueue q) s)
    (hv : top .a s = v :: ca :: rest) (halign : ca.toNat % 128 = 0) (hf : v.toNat < 16) (h13 : v ≠ 13)
    (hbound : s.me.bound q.toNat = false) (hroom : s.me.room q.toNat 1 = true) :
    completes .a (.aPldQueue q) 1 s ((plane ca.toNat 2 8 ((arrived .a s).setStack .a rest)).updMe fun k =>
      k.later .a (s.cycle + near) (.plane ca.toNat 128 (some (q.toNat, v.toNat)) near)) := by
  change execAPldQueue q s = _
  unfold execAPldQueue issue
  refine popped_two_completes h hv (Nat.zero_le 2) ?_
  simpa [hj, halign, entryFmt_eq_true hf h13, hbound, hroom] using
    pld_eq_plane ((arrived .a s).setStack .a rest) ca.toNat hnear 128 (some (q.toNat, v.toNat))

/-! ## A.PST (12 R260) -/

/-- An explicit priority is one that a store to the region may have (12 R260). -/
def PriFits (pri : Option W64) (r : W64) : Prop := ∀ p ∈ pri, p.toNat < 65536 ∧ regionRule r = 0

theorem priFits_none (r : W64) : PriFits none r := fun _ h => nomatch h

theorem priFits_some {r : W64} (hp : p.toNat < 65536) (hrule : regionRule r = 0) : PriFits (some p) r := by
  rintro _ ⟨⟩
  exact ⟨hp, hrule⟩

/-- A store that passes its checks gets the region. -/
theorem withRegion_ok {a : Nat} {align : Nat → Nat} {pri : Option W64} {f : W64 → Res}
    (hj : (s.die s.myDie).regionAt a = some j) (halign : a % align (regionWidth ((s.die s.myDie).reg j)) = 0)
    (hpri : PriFits pri ((s.die s.myDie).reg j)) : withRegion s a align pri false f = f ((s.die s.myDie).reg j) := by
  simp only [withRegion, hj, halign, ne_eq, not_true_eq_false, if_false, Bool.false_eq_true]
  cases pri with
  | none => rfl
  | some p =>
    obtain ⟨hp, hrule⟩ := hpri p rfl
    simp [Nat.le_of_lt_succ hp, hrule]

theorem pstBody_records {pri : Option W64} (hj : (s.die s.myDie).regionAt ca.toNat = some j)
    (halign : ca.toNat % regionWidth ((s.die s.myDie).reg j) = 0) (hpri : PriFits pri ((s.die s.myDie).reg j))
    (hmay : (s.die s.myDie).mayStore (regionGroup ((s.die s.myDie).reg j)) s.actor ca.toNat = none) :
    pstBody pri ca.toNat v s = .ok ((plane ca.toNat 4 12 s).updDie s.myDie fun d =>
      d.planeStore s.actor (s.me.here .a) ca.toNat ((leBytes v.toNat (regionWidth ((s.die s.myDie).reg j))).map some)
        (pri.map (·.toNat))) := by
  rw [pstBody, withRegion_ok hj halign hpri]
  simp only [hmay, planeWait_eq_plane]

theorem pstQueueBody_records {sq : Nat} {pri : Option W64} {e : QEntry} {es : List QEntry}
    (hj : (s.die s.myDie).regionAt ca.toNat = some j) (halign : ca.toNat % 128 = 0) (hpri : PriFits pri ((s.die s.myDie).reg j))
    (hmay : (s.die s.myDie).mayStore (regionGroup ((s.die s.myDie).reg j)) s.actor ca.toNat = none)
    (hq : s.me.queue (4 + sq) = e :: es) (hbound : s.me.bound (4 + sq) = false)
    (hwidth : fmtBytes e.fmt = regionWidth ((s.die s.myDie).reg j)) :
    pstQueueBody sq pri ca.toNat s = .ok ((plane ca.toNat 4 12 (s.updMe fun k => k.setQueue (4 + sq) es)).updDie s.myDie fun d =>
      d.planeStore s.actor (s.me.here .a) ca.toNat e.enabled (pri.map (·.toNat))) := by
  rw [pstQueueBody, hbound, withRegion_ok hj halign hpri]
  simp only [hq, hwidth, hmay, ne_eq, not_true_eq_false, if_false, planeWait_eq_plane]
  rfl

section
variable (hj : (s.die s.myDie).regionAt ca.toNat = some j)
  (hmay : (s.die s.myDie).mayStore (regionGroup ((s.die s.myDie).reg j)) s.actor ca.toNat = none)
include hj hmay

/-- The store of a stack value by a word that has taken its operands. -/
theorem pstBody_popped {pri : Option W64} (halign : ca.toNat % regionWidth ((s.die s.myDie).reg j) = 0)
    (hpri : PriFits pri ((s.die s.myDie).reg j)) :
    pstBody pri ca.toNat v ((arrived .a s).setStack .a rest) =
      .ok ((plane ca.toNat 4 12 ((arrived .a s).setStack .a rest)).updDie s.myDie fun d =>
        d.planeStore s.actor (s.me.here .a) ca.toNat ((leBytes v.toNat (regionWidth ((s.die s.myDie).reg j))).map some)
          (pri.map (·.toNat))) := by
  refine (pstBody_records (s := (arrived .a s).setStack .a rest) hj halign hpri hmay).trans ?_
  rw [here_setStack, here_arrived]
  rfl

theorem exec_aPst (h : CanIssue .a .aPst s) (hv : top .a s = ca :: v :: rest)
    (halign : ca.toNat % regionWidth ((s.die s.myDie).reg j) = 0) :
    completes .a .aPst 1 s ((plane ca.toNat 4 12 ((arrived .a s).setStack .a rest)).updDie s.myDie fun d =>
      d.planeStore s.actor (s.me.here .a) ca.toNat ((leBytes v.toNat (regionWidth ((s.die s.myDie).reg j))).map some) none) := by
  change execAPst s = _
  unfold execAPst issue
  exact popped_two_completes h hv (Nat.zero_le 2) (pstBody_popped hj hmay halign (priFits_none _))

theorem exec_aPstPri (h : CanIssue .a .aPstPri s) (hv : top .a s = p :: ca :: v :: rest) (hp : p.toNat < 65536)
    (hrule : regionRule ((s.die s.myDie).reg j) = 0) (halign : ca.toNat % regionWidth ((s.die s.myDie).reg j) = 0) :
    completes .a .aPstPri 1 s ((plane ca.toNat 4 12 ((arrived .a s).setStack .a rest)).updDie s.myDie fun d =>
      d.planeStore s.actor (s.me.here .a) ca.toNat ((leBytes v.toNat (regionWidth ((s.die s.myDie).reg j))).map some)
        (some p.toNat)) := by
  change execAPstPri s = _
  unfold execAPstPri issue
  refine popping_completes h (by simp [hv]) (Nat.zero_le 3) ?_
  rw [hv]
  exact pstBody_popped hj hmay halign (priFits_some hp hrule)

variable {q : BitVec 1} {e : QEntry} {es : List QEntry} (hq : s.me.queue (4 + q.toNat) = e :: es)
  (hbound : s.me.bound (4 + q.toNat) = false) (hwidth : fmtBytes e.fmt = regionWidth ((s.die s.myDie).reg j))
  (halign : ca.toNat % 128 = 0)
include hq hbound hwidth halign

/-- The store of a queue's head by a word that has taken its operands. -/
theorem pstQueueBody_popped {pri : Option W64} (hpri : PriFits pri ((s.die s.myDie).reg j)) :
    pstQueueBody q.toNat pri ca.toNat ((arrived .a s).setStack .a rest) =
      .ok ((plane ca.toNat 4 12 (((arrived .a s).setStack .a rest).updMe fun k => k.setQueue (4 + q.toNat) es)).updDie s.myDie
        fun d => d.planeStore s.actor (s.me.here .a) ca.toNat e.enabled (pri.map (·.toNat))) := by
  refine (pstQueueBody_records (s := (arrived .a s).setStack .a rest) hj halign hpri hmay (by rwa [queue_setStack, queue_arrived])
    (by rwa [bound_setStack, bound_arrived]) hwidth).trans ?_
  rw [here_setStack, here_arrived]
  rfl

theorem exec_aPstQueue (h : CanIssue .a (.aPstQueue q) s) (hv : top .a s = ca :: rest) :
    completes .a (.aPstQueue q) 1 s
      ((plane ca.toNat 4 12 (((arrived .a s).setStack .a rest).updMe fun k => k.setQueue (4 + q.toNat) es)).updDie s.myDie
        fun d => d.planeStore s.actor (s.me.here .a) ca.toNat e.enabled none) := by
  change execAPstQueue q s = _
  unfold execAPstQueue issue
  exact popped_one_completes h hv (Nat.zero_le 1) (pstQueueBody_popped hj hmay hq hbound hwidth halign (priFits_none _))

theorem exec_aPstPriQueue (h : CanIssue .a (.aPstPriQueue q) s) (hv : top .a s = p :: ca :: rest) (hp : p.toNat < 65536)
    (hrule : regionRule ((s.die s.myDie).reg j) = 0) :
    completes .a (.aPstPriQueue q) 1 s
      ((plane ca.toNat 4 12 (((arrived .a s).setStack .a rest).updMe fun k => k.setQueue (4 + q.toNat) es)).updDie s.myDie
        fun d => d.planeStore s.actor (s.me.here .a) ca.toNat e.enabled (some p.toNat)) := by
  change execAPstPriQueue q s = _
  unfold execAPstPriQueue issue
  exact popped_two_completes h hv (Nat.zero_le 2) (pstQueueBody_popped hj hmay hq hbound hwidth halign (priFits_some hp hrule))

end

end

/-- Settles O17: each word by the lemma of its form; what a read that takes its value does is the model's own. -/
theorem planeWords : Obligations.PlaneWords := by
  intro s v ca p rest j near hj hnear
  refine ⟨exec_aPld hj hnear, fun q => exec_aPldQueue hj hnear, fun l n after => ⟨rfl, fun q f => rfl⟩, fun hmay =>
    ⟨exec_aPst hj hmay, exec_aPstPri hj hmay, fun q e es hq hbound hwidth halign =>
      ⟨exec_aPstQueue hj hmay hq hbound hwidth halign, exec_aPstPriQueue hj hmay hq hbound hwidth halign⟩⟩⟩

end Sys2Proof.Words
end

section
/-! SUPPORT. S.STEP, the step of a group and its absence limit (12 R256-R258, R261, R263). -/

namespace Sys2Proof.Words

open Sys2Proof.Machine Sys2Proof.Spec

/-! ## S.STEP (12 R261) -/

section
variable {i : Instr} {n : Nat} {s e : State}

/-- An S word that can issue and whose body waits leaves its effect and is tried again. -/
theorem issueSN_waits {body : State → Res} (h : CanIssueS i s) (he : body s = .hold e) :
    issueSN i n body s =
      .next ((e.setStack .c (s.stack .c)).updMe fun k => k.updEn .c fun x => { x with nextIssue := s.cycle + 1 }) := by
  obtain ⟨hlegal, hsteer, -⟩ := h
  simp only [issueSN, hlegal, hsteer, he, Bool.not_true, Bool.false_eq_true, if_false]

end

/-- The two forms of S.STEP run one body. -/
theorem exec_sStep {g : BitVec 4} {i : Instr} {drop : Bool} (hi : i = .sStep g ∧ drop = false ∨ i = .sStepDrop g ∧ drop = true)
    (s : State) : exec i s = issueS i (stepBody g.toNat drop) s := by
  obtain ⟨rfl, rfl⟩ | ⟨rfl, rfl⟩ := hi
  · rfl
  · rfl

/-- No commons access of a copy is out once it has landed, or has read or written all that lies in a commons (12 R261). -/
theorem planeOut_eq_false {c : Copy} (h : c.landed = true ∨
    (c.geo.ss = 3 → c.pieces.length ≤ c.taken) ∧ (c.geo.ds = 3 → c.pieces.length ≤ c.taken ∧ c.moves = [])) :
    c.planeOut = false := by
  obtain h | ⟨hread, hwrite⟩ := h
  · simp [Copy.planeOut, h]
  · have hss : (c.geo.ss == 3 && decide (c.taken < c.pieces.length)) = false := by simpa using hread
    have hds : (c.geo.ds == 3 && (decide (c.taken < c.pieces.length) || !c.moves.isEmpty)) = false := by simpa using hwrite
    rw [Copy.planeOut, hss, hds]
    exact Bool.and_false _

section
variable {s : State} {g : Nat} {drop : Bool} (hformed : (s.die s.myDie).formed g = true)
  (hfrozen : (s.die s.myDie).groupFrozen g = false) (hlive : ((s.die s.myDie).group g).live.contains s.actor = true)
include hformed hfrozen hlive

theorem stepBody_done {h : Nat} {b : Bool} {p : Option W64} (hwait : s.me.swait = .step h b true p) :
    stepBody g drop s = .ok (s.updMe fun k => { k with swait := .none }) := by
  simp only [stepBody, hformed, hfrozen, hlive, hwait, Bool.not_true, Bool.or_self, Bool.false_eq_true, if_false]

theorem stepBody_arrives (hwait : s.me.swait = .none) (hdue : s.me.planeDue ≤ s.cycle)
    (hcopies : ∀ c ∈ s.me.kop.copies, c.planeOut = false) :
    stepBody g drop s = .hold ((s.updDie s.myDie fun d => d.setGroup g
      { (s.die s.myDie).group g with
        arrived := ((s.die s.myDie).group g).arrived ++
          [(s.actor, drop, s.cycle, s.cycle - if s.me.leg.timed then s.me.slipped else 0)] }).updMe fun k =>
      { k with swait := .step g drop false none }) := by
  have hout : s.me.kop.copies.any Copy.planeOut = false := by simpa using hcopies
  simp only [stepBody, hformed, hfrozen, hlive, hwait, hout, Nat.not_lt.2 hdue, decide_false, Bool.not_true, Bool.or_self,
    Bool.false_eq_true, if_false]

end

/-! ## The step (12 R256-R258, R261) -/

section
variable {s : State} {g : BitVec 4} (hformed : (s.die s.myDie).formed g.toNat = true)
  (hfrozen : (s.die s.myDie).groupFrozen g.toNat = false)
include hformed hfrozen

section
variable (hcomplete : ((s.die s.myDie).group g.toNat).complete = true)
  (hat : ((s.die s.myDie).group g.toNat).settleAt ≤ s.cycle)
include hcomplete hat

/-- The step of a complete group takes place from t_g on. -/
theorem stepSettle_due : (!(s.die s.myDie).formed g.toNat || (s.die s.myDie).groupFrozen g.toNat ||
    !((s.die s.myDie).group g.toNat).complete || decide (s.cycle < ((s.die s.myDie).group g.toNat).settleAt)) = false := by
  rw [hformed, hfrozen, hcomplete, decide_eq_false (Nat.not_lt.2 hat)]
  rfl

theorem exec_stepSettle_drop (hdrop : (((s.die s.myDie).group g.toNat).arrived.any fun a => a.2.1) = true) :
    exec (.stepSettle g) s = .next (((stepLateAll g.toNat s).updDie s.myDie fun d =>
      ((d.dropStores g.toNat).setGroup g.toNat { (d.dropStores g.toNat).group g.toNat with arrived := [] }).countStep
        g.toNat).stepDone g.toNat (((s.die s.myDie).group g.toNat).arrived.map fun a => a.1)) := by
  change execStepSettle g s = _
  simp only [execStepSettle, stepSettle_due hformed hfrozen hcomplete hat, hdrop, Bool.false_eq_true, if_false, if_true]
  rfl

variable (hstep : (((s.die s.myDie).group g.toNat).arrived.any fun a => a.2.1) = false)
include hstep

theorem exec_stepSettle_flip (hcol : (s.die s.myDie).collision g.toNat = none) :
    exec (.stepSettle g) s = .next (((stepLateAll g.toNat s).updDie s.myDie fun d =>
      ((d.flip g.toNat).setGroup g.toNat { (d.flip g.toNat).group g.toNat with arrived := [] }).countStep
        g.toNat).stepDone g.toNat (((s.die s.myDie).group g.toNat).arrived.map fun a => a.1)) := by
  change execStepSettle g s = _
  simp only [execStepSettle, stepSettle_due hformed hfrozen hcomplete hat, hstep, hcol, Bool.false_eq_true, if_false]
  rfl

theorem exec_stepSettle_collision {a : Nat} {xs : List PlaneStore} {x y : PlaneStore}
    (hcol : (s.die s.myDie).collision g.toNat = some (a, xs)) (hx : firstStore xs = some x)
    (hy : firstStore (xs.filter fun z => decide (some z ≠ some x)) = some y) :
    exec (.stepSettle g) s = .next ((((s.die s.myDie).group g.toNat).arrived.map fun a => a.1).foldl
      (fun u c => u.updCore c fun k => { k with swait := .none }.takeTrap 7 (k.en .c).pc .plane (w64 a) u.cycle)
      (((stepLateAll g.toNat s).updDie s.myDie fun d =>
        d.setGroup g.toNat { d.group g.toNat with arrived := [] }).updDie s.myDie fun d =>
          d.setReg (1552 + g.toNat) (w64 (2 ^ 63 + y.rank * 2 ^ 51 + x.rank * 2 ^ 42 + a)))) := by
  change execStepSettle g s = _
  simp only [execStepSettle, stepSettle_due hformed hfrozen hcomplete hat, hstep, hcol, hx, hy, Bool.false_eq_true, if_false]
  rfl

end

end

/-! ## The absence limit (12 R263) -/

theorem foldl_min_le (l : List Nat) (m : Nat) : l.foldl min m ≤ m :=
  List.foldlRecOn (motive := (· ≤ m)) l min (Nat.le_refl m) fun b hb x _ => (Nat.min_le_left b x).trans hb

theorem exec_stepAbsenceLimit {s : State} {g : BitVec 4} (harrived : ((s.die s.myDie).group g.toNat).arrived ≠ [])
    (hcomplete : ((s.die s.myDie).group g.toNat).complete = false) (hlimit : bits ((s.die s.myDie).reg 272) 0 32 ≠ 0)
    (habsent : ∃ m ∈ ((s.die s.myDie).group g.toNat).live, (s.core m).run ≠ .running)
    (hpast : ∀ a ∈ ((s.die s.myDie).group g.toNat).arrived, a.2.2.1 + bits ((s.die s.myDie).reg 272) 0 32 ≤ s.cycle) :
    exec (.stepAbsenceLimit g) s = .next (((s.die s.myDie).group g.toNat).live.foldl State.preemptCore s) := by
  have hany : (((s.die s.myDie).group g.toNat).live.any fun m => decide ((s.core m).run ≠ .running)) = true := by
    simpa using habsent
  obtain ⟨a, as, has⟩ := List.exists_cons_of_ne_nil harrived
  have hfirst := foldl_min_le ((a :: as).map fun x => x.2.2.1) a.2.2.1
  have hhead := hpast a (by simp [has])
  change execStepAbsenceLimit g s = _
  simp only [execStepAbsenceLimit, hcomplete, hany, has]
  refine if_neg ?_
  simp only [List.isEmpty_cons, List.map_cons, List.headD_cons] at hfirst ⊢
  simp only [Bool.not_true, Bool.or_false, Bool.or_eq_true, decide_eq_true_eq, not_or]
  exact ⟨hlimit, by omega⟩

/-- Settles O18: S.STEP by its body, the step by what the group has stored, and the absence limit. -/
theorem stepWords : Obligations.StepWords := by
  intro s g hformed hfrozen
  refine ⟨fun i drop hi h hlive => ⟨fun _ _ _ hwait => ?_, fun hwait hdue hcopies => ?_⟩, fun hcomplete hat =>
    ⟨exec_stepSettle_drop hformed hfrozen hcomplete hat, exec_stepSettle_flip hformed hfrozen hcomplete hat,
      fun a xs x y hstep => exec_stepSettle_collision hformed hfrozen hcomplete hat hstep⟩, exec_stepAbsenceLimit⟩
  · exact (exec_sStep hi s).trans (issueSN_completes h (stepBody_done hformed hfrozen hlive hwait))
  · exact (exec_sStep hi s).trans (issueSN_waits h (stepBody_arrives hformed hfrozen hlive hwait hdue fun c hc =>
      planeOut_eq_false (hcopies c hc)))

end Sys2Proof.Words
end

section
/-! SUPPORT. The words that the spec's examples write out (02 R25-R27), and the frame of the register words, which fails: the state that
shows it has a C.ADD that takes #STK (02 R31; 18 R380). -/

namespace Sys2Proof.Words

open Sys2Proof.Machine Sys2Proof.Spec

/-- Settles O52: each example is a closed fact of the decoder. -/
theorem decodedWords : Obligations.DecodedWords := by
  unfold Obligations.DecodedWords
  decide +kernel

/-- Core 0 in cycle 10 with no operand on C's stack. -/
def noOperands : State := { State.reset with cycle := 10 }

/-- The cycle of the acting core's last trap in the state a word comes to. -/
def trapAtAfter : Out → Nat
  | .next s => s.me.trapAt
  | _ => 0

/-- C.ADD finds no operands, and its trap is recorded with the cycle. -/
theorem trapAtAfter_noOperands : trapAtAfter (exec .cAdd noOperands) = 10 := by decide +kernel

/-- Refutes O59: a C.ADD without operands takes #STK, which records the trap's cycle in the core; the statement's frame keeps the old
one. -/
theorem not_registerFrame : ¬ Obligations.RegisterFrame := by
  intro h
  match hrun : exec .cAdd noOperands with
  | .next t =>
    have hcycle : t.me.trapAt = 10 := (congrArg trapAtAfter hrun).symm.trans trapAtAfter_noOperands
    have hframe : t.me.trapAt = noOperands.me.trapAt :=
      (congrArg (fun s : State => s.me.trapAt) ((h .cAdd noOperands t hrun).1 rfl)).trans (by rw [State.me_updMe])
    exact absurd (hcycle.symm.trans hframe) (by decide)
  | .fault _ | .refused _ =>
    exact absurd (show 0 = 10 from (congrArg trapAtAfter hrun).symm.trans trapAtAfter_noOperands) (by decide)

end Sys2Proof.Words
end

section
/-! SUPPORT. The S words of tasks, and S.FENCE with its end (16 R332, R334; 18 R375-R377, R383, R385). -/

namespace Sys2Proof.Words

open Sys2Proof.Machine Sys2Proof.Spec

/-! ## S.FORK and S.JOIN -/

theorem contains_maskEngines (m : BitVec 6) (t : Engine) : (maskEngines m).contains t = inMask m t := by
  rw [Bool.eq_iff_iff, List.contains_iff_mem, maskEngines, List.mem_filter, inMask, Bool.and_eq_true]
  cases t <;> simp

theorem maskEngines_isEmpty {m : BitVec 6} (h : m ≠ 0) : (maskEngines m).isEmpty = false := by
  revert h
  decide +revert

section
variable {s : State} {m : BitVec 6} {o : BitVec 13}

theorem forkBody_starts (hsigned : s.me.leg.signed = false) (hm : m ≠ 0)
    (hidle : ∀ t, inMask m t = true → (s.me.en t).active = false) (ho : 2 ≤ o.toInt)
    (htext : (s.me.en .c).pc + o.toInt.toNat < s.me.text.len)
    (hclear : s.me.text.barred ((s.me.en .c).pc + o.toInt.toNat) s.me.text.len ((s.me.en .c).pc + 2) = some false) :
    forkBody m o s = .ok (s.updMe fun k => { k with
      eng := k.eng.map fun t x => if inMask m t then
        x.forked (k.en .c) ((k.en .c).pc + o.toInt.toNat) o.toNat s.cycle else x }) := by
  have htarget : ((s.me.en .c).pc : Int) + o.toInt = (((s.me.en .c).pc + o.toInt.toNat : Nat) : Int) := by omega
  have hany : ((maskEngines m).any fun t => (s.me.en t).active) = false := by
    rw [List.any_eq_false]
    intro t ht
    rw [hidle t (by rw [← contains_maskEngines, List.contains_iff_mem]; exact ht)]
    decide
  have hfar : ¬ o.toInt < 2 := by omega
  have hshort : ¬ (s.me.text.len : Int) ≤ (((s.me.en .c).pc + o.toInt.toNat : Nat) : Int) := by omega
  simp only [forkBody, Core.signing, hsigned, maskEngines_isEmpty hm, hany, htarget, hfar, hshort, Int.toNat_natCast,
    Int.ofNat_eq_natCast, hclear, decide_false, Bool.or_false, Bool.false_eq_true, if_false, contains_maskEngines]
  rfl

theorem exec_sFork (h : CanIssueS (.sFork m o) s) (hsigned : s.me.leg.signed = false) (hm : m ≠ 0)
    (hidle : ∀ t, inMask m t = true → (s.me.en t).active = false) (ho : 2 ≤ o.toInt)
    (htext : (s.me.en .c).pc + o.toInt.toNat < s.me.text.len)
    (hclear : s.me.text.barred ((s.me.en .c).pc + o.toInt.toNat) s.me.text.len ((s.me.en .c).pc + 2) = some false) :
    completesS (.sFork m o) 1 s (s.updMe fun k => { k with
      eng := k.eng.map fun t x => if inMask m t then { x with
        active := true, pc := (k.en .c).pc + o.toInt.toNat, mid := false, lead := o.toNat - 2
        progress := (k.en .c).progress, skew := (k.en .c).skew + o.toInt.toNat, steer := [], endWait := false, parked := none
        fromWin := ((k.en .c).pc + o.toInt.toNat) / 32, nextIssue := s.cycle + 1, lag := (k.en .c).lag }
      else x }) := by
  have hskew : o.toInt.toNat = o.toNat := by
    have := BitVec.toInt_eq_toNat_cond o
    split at this <;> omega
  exact issueSN_completes h ((forkBody_starts hsigned hm hidle ho htext hclear).trans (by rw [hskew]; rfl))

theorem exec_sJoin (h : CanIssueS (.sJoin m) s) (hsigned : s.me.leg.signed = false) :
    completesS (.sJoin m) 1 s (s.updMe fun k => { k with
      eng := k.eng.map fun t x => if inMask m t then { x with active := false } else x }) := by
  change execSJoin m s = _
  unfold execSJoin issueS
  refine issueSN_completes h ?_
  simp only [Core.signing, hsigned, contains_maskEngines]
  rfl

/-! ## S.END, S.TRAP and S.YIELD -/

theorem exec_sEnd (h : CanIssueS .sEnd s) (htimed : s.me.leg.timed = false) (htrav : s.inTraverse = false) :
    completesS .sEnd 1 s ((s.flushComb fun _ => true).updMe fun k => { k.haltStreams s.cycle with run := .ending }) := by
  change execSEnd s = _
  unfold execSEnd issueS
  refine issueSN_completes h ?_
  simp only [htimed, htrav]
  rfl

theorem exec_sTrap {v : W64} {rest : List W64} (h : CanIssueS .sTrap s) (hv : s.stack .c = v :: rest) :
    exec .sTrap s = .next (takeTrap s 7 (s.me.en .c).pc .swt v) := by
  obtain ⟨hlegal, hsteer, hdepth⟩ := h
  have hfits : stackFits (s.stack .c) 1 0 = true := by
    rw [hv, List.length_cons] at hdepth
    rw [hv, stackFits, Bool.and_eq_true]
    exact ⟨decide_eq_true (by simp), decide_eq_true (by simp; omega)⟩
  change issueSN .sTrap 1 _ s = _
  simp only [issueSN, hlegal, hsteer, popping_ok hfits, hv, Bool.not_true, Bool.false_eq_true, if_false]
  rfl

theorem yieldBody_untimed (force : Bool) (htimed : s.me.leg.timed = false) :
    yieldBody force s = .ok (if s.frameLeft s.actor && (force || s.wanted) then s.updMe fun k => { k with run := .saving .yield } else s) := by
  rw [yieldBody, htimed, if_neg Bool.false_ne_true]
  split <;> rfl

end

/-- Settles O13. -/
theorem taskWords : Obligations.TaskWords := by
  intro s
  refine ⟨fun m o => exec_sFork, fun m => exec_sJoin, exec_sEnd, fun v rest => exec_sTrap, fun h htimed => ?_, fun h htimed => ?_⟩
  · exact issueSN_completes h (yieldBody_untimed false htimed)
  · exact issueSN_completes h ((yieldBody_untimed true htimed).trans (by rw [Bool.true_or, Bool.and_true]))

/-! ## S.FENCE (16 R332, R334) -/

section
variable {s : State}

theorem exec_sFence {sc : BitVec 3} {p q : BitVec 6} (h : CanIssueS (.sFence sc p q) s) (htimed : s.me.leg.timed = false) :
    completesS (.sFence sc p q) 1 s
      ((if p.getLsbD 1 then s.flushComb fun _ => true else s).updMe fun k => { k with
        fences := k.fences ++ [{ src := p.toNat, dst := q.toNat, scope := sc.toNat, place := k.here .c, before := k.posted
                                 upto := k.lateOf p }] }) := by
  change execSFence sc p q s = _
  unfold execSFence issueS
  refine issueSN_completes h ?_
  simp only [htimed]
  rfl

/-- What a fence waits for is over once nothing that precedes it is under way. -/
theorem drained_of_idle {f : Fence} {k : Core} {cycle : Nat} (hposted : k.posted = [])
    (hcopies : ∀ c ∈ k.kop.copies, c.killed = true ∨ f.place ≤ c.place) (hfar : ∀ o ∈ k.far, f.place ≤ o.place)
    (hcolls : ∀ c ∈ k.colls, c.done = true ∨ f.place ≤ c.place) (hrows : k.rows = none) (hupto : f.upto ≤ cycle) :
    f.drained k cycle = true := by
  have hcopies' : (k.kop.copies.all fun c => c.killed || decide (f.place ≤ c.place)) = true := by simpa using hcopies
  have hfar' : (k.far.all fun o => decide (f.place ≤ o.place)) = true := by simpa using hfar
  have hcolls' : (k.colls.all fun c => c.done || decide (f.place ≤ c.place)) = true := by simpa using hcolls
  simp [Fence.drained, hposted, hcopies', hfar', hcolls', hrows, hupto]

theorem exec_fenceDrainComplete {f : Fence} (hf : s.me.fences = [f]) :
    exec .fenceDrainComplete s = .next (s.updMe fun k => { k with fences := (f.turn s.me s.cycle).toList }) := by
  refine congrArg Host.Outcome.next (updMe_congr ?_)
  rw [hf, List.filterMap_cons]
  cases f.turn s.me s.cycle <;> rfl

theorem fenceOn_single {k : Core} {f : Fence} {b : Nat} (hf : k.fences = [f]) (hdst : f.dst / 2 ^ b % 2 = 1) (cycle : Nat) :
    k.fenceOn b cycle = f.drainedAt.all fun c => decide (cycle ≤ c) := by
  simp [Core.fenceOn, hf, hdst]

end

/-- Settles O14. -/
theorem fenceWord : Obligations.FenceWord := by
  intro s
  refine ⟨fun sc p q => exec_sFence, fun f hf hposted hcopies hfar hcolls hrows hupto hopen => ?_, fun f c hf hat hlt => ?_,
    fun f b hf hdst hopen => ⟨?_, fun t ht => ⟨?_, fun n hn => ?_⟩⟩⟩
  · rw [exec_fenceDrainComplete hf, Fence.turn, hopen]
    simp only [drained_of_idle hposted hcopies hfar hcolls hrows hupto, if_true]
    rfl
  · rw [exec_fenceDrainComplete hf, Fence.turn, hat]
    simp only [hlt, if_true]
    rfl
  · rw [fenceOn_single hf hdst, hopen]
    rfl
  · rw [fenceOn_single ht hdst]
    simp
  · rw [fenceOn_single ht hdst]
    simpa using hn

end Sys2Proof.Words
end

section
/-! SUPPORT. Datums: S.ACQ and S.REL, and what a grant and a release make of a datum's word (16 R325, R328, R329). -/

namespace Sys2Proof.Words

open Sys2Proof.Machine Sys2Proof.Spec

/-! ## S.ACQ (16 R328) -/

section
variable {s s2 : State} {i : Instr} {sc : BitVec 3} {d : W64} {rest : List W64}

/-- An S word whose check of the stack comes first finds the entry on top of C's stack. -/
theorem popping_one_issueS (h : CanIssueS i s) (hv : s.stack .c = d :: rest) (body : List W64 → State → Res) :
    popping .c 1 0 body s = body [d] (s.setStack .c rest) := by
  obtain ⟨-, -, hdepth⟩ := h
  have hfits : stackFits (s.stack .c) 1 0 = true := by
    rw [hv, List.length_cons] at hdepth
    rw [hv, stackFits, Bool.and_eq_true]
    exact ⟨decide_eq_true (by simp), decide_eq_true (by simp; omega)⟩
  rw [popping_ok hfits, hv]
  rfl

@[simp] theorem held_setStack (s : State) (t : Engine) (st : List W64) : (s.setStack t st).me.held = s.me.held := by
  rw [me_setStack]
  rfl

/-- The datum is none that the core holds, and there is room for it in the core's list. -/
theorem mayHold {held : List Held} (hnew : ∀ h ∈ held, h.va ≠ d) (hroom : held.length < 8) :
    ((held.any fun h => h.va == d) || decide (8 ≤ held.length)) = false := by
  have hany : (held.any fun h => h.va == d) = false := by simpa using hnew
  rw [hany, Bool.false_or, decide_eq_false (by omega)]

theorem acqBody_asks {shared : Bool} {op die tier off : Nat} {t : FarTo} {bs : List Byte} (hi : CanIssueS i s)
    (htimed : s.me.leg.timed = false) (hv : s.stack .c = d :: rest) (hwait : s.me.swait = .none) (halign : d.toNat % 8 = 0)
    (hat : datumAt s d = .at_ die tier off t s2) (hnew : ∀ h ∈ s.me.held, h.va ≠ d) (hroom : s.me.held.length < 8)
    (hpeek : (s2.die die).peek tier off 8 = some bs) (hgood : datumBad (leNat bs) = false) :
    acqBody shared op s = .hold ((s2.waitFor (.acquire d shared false)).updDie die fun x => { x with
      acqs := insertAcq { core := s2.actor, comes := s2.cycle + s2.wayTo s2.myDie t, due := s2.cycle + s2.datumTrip d t
                          tier := tier, off := off, shared := shared } x.acqs }) := by
  simp only [acqBody, hwait, popping_one_issueS hi hv, datumCheck, leg_setStack, htimed, List.getD_cons_zero, halign, hat,
    held_setStack, mayHold hnew hroom, hpeek, hgood, ne_eq, not_true_eq_false, Bool.false_eq_true, if_false]

theorem acqBody_granted {shared b : Bool} {op : Nat} (hi : CanIssueS i s) (hv : s.stack .c = d :: rest)
    (hwait : s.me.swait = .acquire d b true) : acqBody shared op s = .ok ((s.setStack .c rest).waitFor .none) := by
  simp only [acqBody, hwait, popping_one_issueS hi hv]

/-! ## S.REL (16 R329) -/

theorem relBody_posts {h : Held} {before : List Posted} {op : Nat} {s3 : State} (hi : CanIssueS i s) (hv : s.stack .c = d :: rest)
    (hwait : s.me.swait = .release d before true) (hheld : (s.me.held.find? fun x => x.va == d) = some h)
    (hrel : (s.setStack .c rest).release h op = (s3, true)) : relBody op s = .ok (s3.waitFor .none) := by
  simp only [relBody, hwait, popping_one_issueS hi hv, held_setStack, hheld, hrel]

theorem release_sends {h : Held} {op die tier off : Nat} {t : FarTo} (hat : datumAt s h.va = .at_ die tier off t s2) :
    s.release h op = ((s2.updMe fun k => { k with held := k.held.erase h }).updDie die fun x => { x with
      rels := x.rels ++ [{ core := s2.actor, due := s2.cycle + s2.datumReach h.va t, by_ := s2.cycle + s2.datumTrip h.va t
                           va := h.va, tier := tier, off := off, shared := !h.excl }] }, true) := by
  simp only [State.release, hat]

theorem exec_releaseDrainComplete {before : List Posted} (hwait : s.me.swait = .release d before false) (hposted : s.me.posted = [])
    (hcopies : ∀ c ∈ s.me.kop.copies, c.landed = true) (hfar : s.me.far = []) (hlanded : s.me.landedAll = true) :
    exec .releaseDrainComplete s = .next (s.updMe fun k => { k with swait := .release d before true }) := by
  have hcopies' : s.me.kop.copies.all (·.landed) = true := List.all_eq_true.2 hcopies
  change execReleaseDrainComplete s = _
  simp [execReleaseDrainComplete, hwait, hposted, hcopies', hfar, hlanded, State.waitFor]

end

/-- Settles O15. -/
theorem datumAcquireRelease : Obligations.DatumAcquireRelease := by
  intro s s2 sc d rest htimed hv
  refine ⟨?_, fun b h hwait => ?_, fun b h hwait => ?_, fun h before s3 hi hwait hheld hrel => ?_,
    fun h die tier off t hat hva => ?_, fun before => exec_releaseDrainComplete⟩
  · rintro i sh die tier off t bs hi h hwait halign hat hnew hroom hpeek hgood
    have hbody := fun op => acqBody_asks (shared := sh) (op := op) h htimed hv hwait halign hat hnew hroom hpeek hgood
    rcases hi with ⟨rfl, rfl⟩ | ⟨rfl, rfl⟩
    · exact issueSN_waits h (hbody _)
    · exact issueSN_waits h (hbody _)
  · exact issueSN_completes h (acqBody_granted h hv hwait)
  · exact issueSN_completes h (acqBody_granted h hv hwait)
  · exact issueSN_completes hi (relBody_posts hi hv hwait hheld hrel)
  · subst hva
    exact release_sends hat

/-! ## The words of a datum (16 R325) -/

section
variable {s s1 : State} {bs : List Byte}

theorem exec_acquireGrant {k : Nat} {q : AcqReq} {w : Nat} (hq : (s.die s.myDie).acqs[k]? = some q) (hdue : q.due ≤ s.cycle)
    (hfirst : (s.die s.myDie).acqBlocked k q = false) (hfree : s.waits s.myDie q.tier q.off 8 = false)
    (hread : (s.updDie s.myDie fun x => { x with acqs := x.acqs.eraseIdx k }).read s.myDie q.tier q.off 8 = (s1, some bs))
    (hgood : datumBad (leNat bs) = false) (hw : grantWord s.package q.core (leNat bs) q.shared = some w) :
    exec (.acquireGrant k) s =
      .next ((s1.write s.myDie q.tier q.off (leBytes w 8) false).1.updCore q.core Core.grant) := by
  change execAcquireGrant k s = _
  simp only [execAcquireGrant, hq, Nat.not_lt.2 hdue, hfirst, hfree, hread, hgood, hw, decide_false, Bool.or_self,
    Bool.false_eq_true, if_false]

theorem exec_releaseEffect_first {q : RelReq} (hq : (s.die s.myDie).rels[0]? = some q) (hdue : q.due ≤ s.cycle)
    (hfree : s.waits s.myDie q.tier q.off 8 = false)
    (hread : (s.updDie s.myDie fun x => { x with rels := x.rels.eraseIdx 0 }).read s.myDie q.tier q.off 8 = (s1, some bs)) :
    exec (.releaseEffect 0) s =
      .next (s1.write s.myDie q.tier q.off (leBytes (datumFreed q.shared (leNat bs)) 8) false).1 := by
  change execReleaseEffect 0 s = _
  simp only [execReleaseEffect, hq, Nat.not_lt.2 hdue, hfree, hread, List.take_zero, List.all_nil, decide_false, Bool.not_true,
    Bool.or_self, Bool.false_eq_true, if_false]

theorem datumFreed_datumTaken {package core : Nat} (hp : package < 1024) (hc : core < 4096) :
    datumFreed false (datumTaken package core) = 0 := by
  simp only [datumFreed, datumTaken, Bool.false_eq_true, if_false]
  omega

/-- A shared grant adds one holder, which the release takes away again. -/
theorem datumFreed_grantWord {w w' p c : Nat} (h : grantWord p c w true = some w') : datumFreed true w' = w := by
  simp only [grantWord, if_true] at h
  split at h
  · exact nomatch h
  · split at h
    · next hroom =>
      cases h
      have hsome : datumSh (w + 2 ^ 38) ≠ 0 := by
        unfold datumSh at hroom ⊢
        omega
      simp only [datumFreed, if_true, if_neg hsome, Nat.add_sub_cancel]
    · exact nomatch h

end

/-- Settles O16. -/
theorem datumWords : Obligations.DatumWords := by
  intro s s1 k bs
  refine ⟨fun q w hq hdue hfirst hfree hread hgood hw => ?_, fun q => exec_releaseEffect_first, fun _ _ => datumFreed_datumTaken,
    fun _ _ _ _ => datumFreed_grantWord⟩
  refine (exec_acquireGrant hq hdue hfirst hfree hread hgood hw).trans (congrArg (fun f => Host.Outcome.next (State.updCore _ _ f)) ?_)
  funext c
  rw [Core.grant]
  rfl

end Sys2Proof.Words
end

section
/-! SUPPORT. S.BIND and the binding table, S.TOKEN and the directory of the owning die (14 R293-R295; 16 R330). -/

namespace Sys2Proof.Words

open Sys2Proof.Machine Sys2Proof.Spec

/-! ## S.BIND (16 R330) -/

section
variable {s : State} {i : Instr} {d va n : W64} {rest : List W64}

/-- An S word that takes three entries finds them on C's stack. -/
theorem popping_three_issueS (h : CanIssueS i s) (hv : s.stack .c = n :: va :: d :: rest) (body : List W64 → State → Res) :
    popping .c 3 0 body s = body [n, va, d] (s.setStack .c rest) := by
  obtain ⟨-, -, hdepth⟩ := h
  have hfits : stackFits (s.stack .c) 3 0 = true := by
    rw [hv] at hdepth ⊢
    simp only [List.length_cons] at hdepth
    simp only [stackFits, List.length_cons, Bool.and_eq_true, decide_eq_true_eq]
    omega
  rw [popping_ok hfits, hv]
  rfl

theorem bindBody_ends {un un' : Bool} {m due : Nat} (hi : CanIssueS i s) (hv : s.stack .c = n :: va :: d :: rest)
    (hwait : s.me.swait = .bind d va m un' due (some true)) : bindBody un s = .ok ((s.setStack .c rest).waitFor .none) := by
  simp only [bindBody, hwait, popping_three_issueS hi hv, if_true]

/-- The core may bind: it holds the datum exclusively, and the number of granules is one of the table's. -/
theorem mayBind {held : List Held} (hheld : ∃ h ∈ held, h.va = d ∧ h.excl = true) (hn : n ≠ 0) (hmax : n.toNat ≤ 2 ^ 20) :
    ((held.all fun h => h.va != d || !h.excl) || decide (n = 0) || decide (2 ^ 20 < n.toNat)) = false := by
  have hall : (held.all fun h => h.va != d || !h.excl) = false := by
    obtain ⟨h, hmem, hva, hexcl⟩ := hheld
    exact List.all_eq_false.2 ⟨h, hmem, by simp [hva, hexcl]⟩
  rw [hall, decide_eq_false hn, decide_eq_false (by omega)]
  rfl

theorem bindBody_asks {un : Bool} {die tier off : Nat} {t : FarTo} {s2 : State} (hi : CanIssueS i s)
    (hv : s.stack .c = n :: va :: d :: rest) (hwait : s.me.swait = .none) (htimed : s.me.leg.timed = false)
    (hd : d.toNat % 8 = 0) (hva : va.toNat % 4096 = 0) (hat : datumAt s d = .at_ die tier off t s2)
    (hheld : ∃ h ∈ s.me.held, h.va = d ∧ h.excl = true) (hn : n ≠ 0) (hmax : n.toNat ≤ 2 ^ 20) :
    bindBody un s = .hold (s2.waitFor (.bind d va n.toNat un (s2.cycle + s2.datumTrip d t) none)) := by
  simp only [bindBody, hwait, popping_three_issueS hi hv, datumCheck, leg_setStack, htimed, List.getD_cons_zero,
    List.getD_cons_succ, hd, hva, hat, held_setStack, mayBind hheld hn hmax, ne_eq, not_true_eq_false, Bool.false_eq_true, if_false]

theorem exec_bindRecord {un : Bool} {m due : Nat} {r : List Binding} (hwait : s.me.swait = .bind d va m un due none)
    (hasked : s.me.peerAsked = []) (hdue : due ≤ s.cycle)
    (hr : (if un then unbindRuns (s.die (bits d 55 3)).binds { datum := d, space := s.me.space, va := va, n := m }
      else if s.boundAway (bits d 55 3) { datum := d, space := s.me.space, va := va, n := m } then none
      else bindRuns (s.die (bits d 55 3)).binds { datum := d, space := s.me.space, va := va, n := m }) = some r) :
    exec .bindRecord s = .next ((s.updDie (bits d 55 3) fun x => { x with binds := r }).waitFor
      (.bind d va m un due (some true))) := by
  change execBindRecord s = _
  simp only [execBindRecord, hwait, hasked, List.contains_nil, Bool.false_eq_true, if_false, Nat.not_lt.2 hdue, hr]

end

theorem bindWords : BindWords := by
  intro s d va n rest
  refine ⟨fun i un hi h hv => ⟨fun due hwait => ?_, fun s2 die tier off t hwait htimed hd hva hat hheld hn hmax => ?_⟩,
    fun un due r => exec_bindRecord⟩
  · rcases hi with ⟨rfl, rfl⟩ | ⟨rfl, rfl⟩
    · exact issueSN_completes h (bindBody_ends h hv hwait)
    · exact issueSN_completes h (bindBody_ends h hv hwait)
  · have hbody := fun un => bindBody_asks (un := un) h hv hwait htimed hd hva hat hheld hn hmax
    rcases hi with ⟨rfl, rfl⟩ | ⟨rfl, rfl⟩
    · exact issueSN_waits h (hbody _)
    · exact issueSN_waits h (hbody _)

/-! ## S.TOKEN (14 R293-R295) -/

section
variable {s s2 : State} {i : Instr} {va : W64} {rest : List W64} {form : Nat}

theorem tokenWord_ends {form' : Nat} (h : CanIssueS i s) (hv : s.stack .c = va :: rest)
    (hwait : s.me.swait = .token form' va (some none)) :
    tokenWord i form s = .next (issuedS i 1 s ((s.setStack .c rest).updMe fun k => { k with swait := .none })) := by
  unfold tokenWord issueS
  refine issueSN_completes h ?_
  simp only [hwait, popping_one_issueS h hv]

/-- A request for a region that no die holds stands against nothing. -/
theorem conflict_of_free {t : Token} (hfree : t.holders = []) (hexcl : t.excl = false) (me : Nat × Nat) (form : Nat) :
    t.conflict me form = .none := by
  simp [Token.conflict, hfree, hexcl]

/-- The token that the first holder of a region is given. -/
theorem granted_of_free {t : Token} (hfree : t.holders = []) (me : Nat × Nat) (hform : form < 2) :
    t.granted me form = { t with excl := form == 1, holders := [me] } := by
  obtain rfl | rfl : form = 0 ∨ form = 1 := by omega
  · simp [Token.granted, hfree]
  · rfl

/-- A grant of a region that is in no entry of the directory adds an entry. -/
theorem grant_new {x : Die} {t : Token} (h : x.token t.space t.region = none) (hheld : t.holders ≠ []) (me : Nat × Nat) :
    x.grant t me = { x with
      tokens := x.tokens ++ [t]
      grants := (x.grants.filter (· != (t.space, t.region, me))) ++ [(t.space, t.region, me)] } := by
  have hnone : (x.tokens.any fun y => decide (y.space = t.space) && decide (y.region = t.region)) = false := by
    rw [Die.token, List.find?_eq_none] at h
    exact List.any_eq_false.2 h
  simp only [Die.grant, Die.putToken, List.isEmpty_iff, hheld, hnone, Bool.false_eq_true, if_false]

theorem exec_tokenComplete {p : Place} (hform : form < 2) (hwait : s.me.swait = .token form va none) (hasked : s.me.peerAsked = [])
    (hat : ownerXlat s (bits va 55 3) s.me.space va true false = .at_ p s2) (hmt : p.mt = 0) (hw : form = 1 → p.w = true)
    (hfree : (s2.die (bits va 55 3)).token s.me.space (va.toNat / 2 ^ 21) = none)
    (hroom : (s2.die (bits va 55 3)).tokens.length < 16384) :
    exec .tokenComplete s = .next ((s2.updDie (bits va 55 3) fun d => { d with
        tokens := d.tokens ++
          [{ space := s.me.space, region := va.toNat / 2 ^ 21, excl := form == 1, holders := [(s.package, s.myDie)] }]
        grants := (d.grants.filter (· != (s.me.space, va.toNat / 2 ^ 21, s.package, s.myDie))) ++
          [(s.me.space, va.toNat / 2 ^ 21, s.package, s.myDie)] }).updMe
      fun k => { k with swait := .token form va (some none) }) := by
  have hpage : tokenPage s (bits va 55 3) s.me.space va form = .ok s2 := by
    have hplain : (decide (p.mt ≠ 0) || (form == 1 && !p.w)) = false := by
      obtain rfl | rfl : form = 0 ∨ form = 1 := by omega
      · simp [hmt]
      · simp [hmt, hw rfl]
    simp only [tokenPage, decide_eq_true hform, hat, hplain, Bool.false_eq_true, if_false]
  have hentry : (s2.die (bits va 55 3)).tokenOr s.me.space (va.toNat / regionBytes) =
      { space := s.me.space, region := va.toNat / 2 ^ 21, excl := false, holders := [] } := by
    rw [Die.tokenOr, hfree]
    rfl
  have hgranted := granted_of_free (t := { space := s.me.space, region := va.toNat / 2 ^ 21, excl := false, holders := [] })
    rfl (s.package, s.myDie) hform
  have hnotfull : (s2.die (bits va 55 3)).directoryFull = false := decide_eq_false (by omega)
  change execTokenComplete s = _
  simp only [execTokenComplete, hwait, hasked, List.contains_nil, Bool.false_eq_true, if_false, hpage, hentry,
    if_neg (show form ≠ 2 by omega), conflict_of_free, hnotfull, Bool.and_false, Bool.or_false, ne_eq, not_true_eq_false,
    decide_false, hgranted, State.tokenAnswer]
  exact congrArg (fun u => Host.Outcome.next (State.updMe u _)) (updDie_congr (grant_new hfree (List.cons_ne_nil _ _) _))

/-- Revoking an entry as a whole takes it from each of its holders. -/
theorem retoken_nil (die : Nat) (t : Token) :
    s.retoken die t [] = (t.holders.foldl (fun u h => u.dropLines die t h) s).updDie die fun d =>
      { d with
        grants := d.grants.filter fun g => !(decide (g.1 = t.space) && decide (g.2.1 = t.region) && t.holders.contains g.2.2)
        tokens := d.tokens.erase t }.bumpReg 300 16 16 t.holders.length := by
  have hlost : (t.holders.filter fun h => !([] : List (Nat × Nat)).contains h) = t.holders := List.filter_eq_self.2 fun _ _ => rfl
  simp only [State.retoken, hlost]
  rfl

theorem exec_tokenRevoke {t : Token} {k : Nat} (ht : (s.die s.myDie).tokens[k]? = some t) (hwants : s.opWants s.myDie t = true) :
    exec (.tokenRevoke k) s = .next (s.retoken s.myDie t []) := by
  change execTokenRevoke k s = _
  simp only [execTokenRevoke, ht, hwants, if_true]

end

theorem tokenWords : TokenWords := by
  intro s va rest
  refine ⟨fun i form hi h hv hwait => ?_, fun s2 p form => exec_tokenComplete, fun t k ht hwants => ?_⟩
  · rcases hi with ⟨rfl, -⟩ | ⟨rfl, -⟩ | ⟨rfl, -⟩
    · exact tokenWord_ends h hv hwait
    · exact tokenWord_ends h hv hwait
    · exact tokenWord_ends h hv hwait
  · rw [exec_tokenRevoke ht hwants, retoken_nil]

/-- Settles O20. -/
theorem bindAndTokenWords : Obligations.BindAndTokenWords := ⟨bindWords, tokenWords⟩

end Sys2Proof.Words
end

section
/-! SUPPORT. The words of the far engine that send operations, and those that complete at once (13 R269; 14 R285, R289, R292,
R296-R301). -/

namespace Sys2Proof.Words

open Sys2Proof.Machine Sys2Proof.Spec

/-! ## Loaded values -/

theorem sextBits_eq_signExtend_ofNat {n : Nat} (hn : 0 < n) (v : Nat) : sextBits n v = (BitVec.ofNat n v).signExtend 64 := by
  have hhalf : 2 ^ n = 2 * 2 ^ (n - 1) := by rw [← Nat.pow_succ', Nat.succ_eq_add_one, Nat.sub_add_cancel hn]
  rw [BitVec.signExtend, BitVec.toInt_eq_toNat_cond, BitVec.toNat_ofNat, sextBits]
  by_cases h : v % 2 ^ n < 2 ^ (n - 1)
  · rw [if_pos h, if_pos (by omega)]
    exact (BitVec.ofInt_natCast 64 (v % 2 ^ n)).symm
  · rw [if_neg h, if_neg (by omega)]
    simp

/-- A load extends the bytes it brings as its word says (04 R89). -/
theorem extendBytes_eq_extended {bs : List Byte} {n : Nat} (hlen : bs.length = n) (hn : 0 < n) (signed : Bool) :
    extendBytes signed bs = extended signed n bs := by
  subst hlen
  cases signed
  · rfl
  · exact sextBits_eq_signExtend_ofNat (by omega) _

/-! ## A word that sends one operation (14 R285, R289) -/

section
variable {s s2 : State} {i : Instr} {t : FarTo} {e : State}

/-- A word of F that can issue and whose body has an effect. -/
theorem issueF_completes {n : Nat} {body : State → Res} (h : CanIssue .f i s) (he : body (arrived .f s) = .ok e) :
    issue .f i n body s = .next (issued .f i n s e) :=
  issueN_completes h he

/-- A word of F that can issue and waits for its reply. -/
theorem issueF_waits {n : Nat} {body : State → Res} (h : CanIssue .f i s) (he : body (arrived .f s) = .hold e) :
    issue .f i n body s = .next ((e.setStack .f (top .f s)).updMe fun k => k.updEn .f fun x => { x with nextIssue := s.cycle + 1 }) :=
  issueN_holds h he

/-- The operands of a word that leaves no more entries than it takes. -/
theorem popping_within {u : Engine} {p q : Nat} {f : List W64 → State → Res} (h : CanIssue u i s) (hp : p ≤ (top u s).length)
    (hq : q ≤ p) : popping u p q f (arrived u s) = f ((top u s).take p) ((arrived u s).setStack u ((top u s).drop p)) :=
  popping_arrived hp (by have := length_top_of_canIssue h; omega)

section
variable {p q pos al cls : Nat} {timedOk read write ra : Bool} {more : List W64 → Option (Cause × W64)} {v : List W64}
  (h : CanIssue .f i s) (hfree : (arrived .f s).me.farWaits = false) (hv : v = (top .f s).take p) (hp : v.length = p) (hq : q ≤ p)
  (htimed : s.me.leg.timed = true → timedOk = true) (halign : (v.getD pos 0).toNat % al = 0) (hmore : more v = none)
include h hfree hv hp hq htimed halign hmore

theorem farWord_sends
    (hto : farTo ((arrived .f s).setStack .f ((top .f s).drop p)) (v.getD pos 0) read write ra = .ok t s2) :
    farWord i p q timedOk false pos al read write ra cls more s =
      .next (issued .f i 1 s (s2.sendFar (mkFar s2 i v [] (v.getD pos 0) t cls false))) := by
  have hlen : p ≤ (top .f s).length := by rw [hv, List.length_take] at hp; omega
  have hleg : (!timedOk && s.me.leg.timed) = false := by
    cases hl : s.me.leg.timed
    · exact Bool.and_false _
    · rw [htimed hl]; rfl
  refine issueF_completes h ?_
  simp only [hfree, popping_within h hlen hq, ← hv, leg_setStack, leg_arrived, hleg, halign, hmore, withFar, hto, ne_eq,
    not_true_eq_false, Bool.false_eq_true, if_false]

theorem farWord_blocks (hto : farTo (arrived .f s) (v.getD pos 0) read write ra = .ok t s2) :
    farWord i p q timedOk true pos al read write ra cls more s =
      .next (((s2.sendFar (mkFar s2 i v [] (v.getD pos 0) t cls true)).setStack .f (top .f s)).updMe fun k =>
        k.updEn .f fun x => { x with nextIssue := s.cycle + 1 }) := by
  have hlen : p ≤ (top .f s).length := by rw [hv, List.length_take] at hp; omega
  have hleg : (!timedOk && s.me.leg.timed) = false := by
    cases hl : s.me.leg.timed
    · exact Bool.and_false _
    · rw [htimed hl]; rfl
  refine issueF_waits h ?_
  simp only [hfree, popping_within h hlen hq, ← hv, leg_setStack, leg_arrived, hleg, halign, hmore, withFar, hto, blockOn, ne_eq,
    not_true_eq_false, Bool.false_eq_true, if_false, if_true]

end

/-- A load of F that no combining-buffer entry serves goes to its target (14 R292, R300). -/
theorem execFRld_sends {c : BitVec 2} {sgn : BitVec 1} {z : BitVec 2}
    (h : ∀ e, (arrived .f s).me.combOf ((top .f s).getD 0 0) = some e → e.serve ((top .f s).getD 0 0) (2 ^ z.toNat) = none) :
    execFRld c sgn z s = farWord (.fRld c sgn z) 1 1 true true 0 (2 ^ z.toNat) true false false c.toNat noMore s := by
  change (match (match (arrived .f s).me.combOf ((top .f s).getD 0 0) with
    | some e => if ((top .f s).getD 0 0).toNat % 2 ^ z.toNat = 0 then e.serve ((top .f s).getD 0 0) (2 ^ z.toNat) else none
    | none => none) with | some _ => _ | none => _) = _
  cases hc : (arrived .f s).me.combOf ((top .f s).getD 0 0) with
  | none => rfl
  | some e => simp only [h e hc, ite_self]

/-- A chase whose head is not null goes to its target (14 R299). -/
theorem execFChase_sends {h : BitVec 4} {c : BitVec 3} {k : BitVec 6} (hhead : (top .f s).getD 1 0 ≠ 0) :
    execFChase h c k s = farWord (.fChase h c k) 2 2 false true 1 8 true false true 0 noMore s := by
  change (if decide ((top .f s).getD 1 0 = 0) = true then _ else _) = _
  rw [if_neg (by simpa using hhead)]

theorem getD_take {l : List W64} {j n : Nat} (h : j < n) : (l.take n).getD j 0 = l.getD j 0 := by
  simp [List.getD_eq_getElem?_getD, h]

/-- Every word of the form sends by the word's own checks, its further check passed. -/
theorem exec_of_farForm {x : FarForm} {v : List W64} (hx : farForm i = some x) (hv : v = (top .f s).take x.pops)
    (hfits : FarFits i v (arrived .f s)) :
    ∃ q more, q ≤ x.pops ∧ more v = none ∧
      exec i s = farWord i x.pops q x.timed x.block x.pos x.align x.read x.write x.ra x.cls more s := by
  have amoBytes_eq : ∀ w : BitVec 2, amoBytes w = if w = 0 ∨ w = 2 then 4 else 8 := by decide
  have node : (v.getD 0 0).toNat % 8 = 0 → nodeCheck v = none := fun h => by simp only [nodeCheck, h, ne_eq, not_true_eq_false, if_false]
  cases i <;> cases hx
  case fAmo o w => exact ⟨0, noMore, by simp, rfl, by rw [← amoBytes_eq]; rfl⟩
  case fAmoR o w => exact ⟨1, noMore, by simp, rfl, by rw [← amoBytes_eq]; rfl⟩
  case fCas w => exact ⟨1, noMore, by simp, rfl, rfl⟩
  case fEnq => exact ⟨0, nodeCheck, by simp, node hfits, rfl⟩
  case fEnqR => exact ⟨1, nodeCheck, by simp, node hfits, rfl⟩
  case fChase h c k =>
    subst hv
    exact ⟨2, noMore, by simp, rfl, execFChase_sends (by rw [← getD_take (n := 2) (by decide)]; exact hfits)⟩
  case fRld c sgn z =>
    subst hv
    refine ⟨1, noMore, by simp, rfl, execFRld_sends fun e he => ?_⟩
    rw [← getD_take (n := 1) (by decide)] at he ⊢
    exact hfits e he

/-! ## Words that complete at once (14 R292, R299) -/

theorem exec_fChase_null {h : BitVec 4} {c : BitVec 3} {k : BitVec 6} {key : W64} {rest : List W64} (hi : CanIssue .f (.fChase h c k) s)
    (htimed : s.me.leg.timed = false) (hv : top .f s = key :: 0 :: rest) :
    completes .f (.fChase h c k) 2 s ((arrived .f s).setStack .f (32 :: 0 :: rest)) := by
  have hhead : decide ((top .f s).getD 1 0 = 0) = true := by rw [hv]; rfl
  change (if decide ((top .f s).getD 1 0 = 0) = true then _ else _) = _
  rw [if_pos hhead]
  refine issueF_completes hi ?_
  rw [popping_within hi (by rw [hv]; simp) (Nat.le_refl 2)]
  simp only [leg_setStack, leg_arrived, htimed, Bool.false_eq_true, if_false, pushing_setStack, hv]
  rfl

theorem exec_fRld_served {c : BitVec 2} {sgn : BitVec 1} {z : BitVec 2} {va : W64} {rest : List W64} {y : Comb} {bs : List Byte}
    (hi : CanIssue .f (.fRld c sgn z) s) (hv : top .f s = va :: rest) (halign : va.toNat % 2 ^ z.toNat = 0)
    (hy : s.me.combOf va = some y) (hserve : y.serve va (2 ^ z.toNat) = some bs) (hlen : bs.length = 2 ^ z.toNat)
    (hto : farTo ((arrived .f s).setStack .f rest) va true false false = .ok t s2) :
    completes .f (.fRld c sgn z) 4 s (s2.setStack .f (extended (sgn == 1) (2 ^ z.toNat) bs :: s2.stack .f)) := by
  have hy' : (arrived .f s).me.combOf va = some y := by
    rw [arrived, State.me_updMe]
    exact hy
  change (match (match (arrived .f s).me.combOf ((top .f s).getD 0 0) with
    | some e => if ((top .f s).getD 0 0).toNat % 2 ^ z.toNat = 0 then e.serve ((top .f s).getD 0 0) (2 ^ z.toNat) else none
    | none => none) with | some _ => _ | none => _) = _
  simp only [hv, List.getD_cons_zero, hy', halign, if_true, hserve]
  refine issueF_completes hi ?_
  rw [popping_within hi (by rw [hv]; simp) (Nat.le_refl 1), hv]
  simp only [List.take_succ_cons, List.take_zero, List.drop_succ_cons, List.drop_zero, List.getD_cons_zero, withFar, hto,
    extendBytes_eq_extended hlen (Nat.two_pow_pos _)]
  rfl

end

/-- Settles O41. -/
theorem farWords : Obligations.FarWords := by
  intro i x v s
  refine ⟨fun s2 t hblock hsends => ?_, fun s2 t hblock hsends => ?_, fun h c k key rest => exec_fChase_null,
    fun c sgn z va rest e bs s2 t => exec_fRld_served⟩
  · obtain ⟨hx, hi, hfree, hv, hlen, htimed, halign, hfits, hto⟩ := hsends
    obtain ⟨q, more, hq, hmore, hexec⟩ := exec_of_farForm hx hv hfits
    rw [hblock] at hexec
    exact hexec.trans (farWord_sends hi hfree hv hlen hq htimed halign hmore hto)
  · obtain ⟨hx, hi, hfree, hv, hlen, htimed, halign, hfits, hto⟩ := hsends
    obtain ⟨q, more, hq, hmore, hexec⟩ := exec_of_farForm hx hv hfits
    rw [hblock] at hexec
    exact hexec.trans (farWord_blocks hi hfree hv hlen hq htimed halign hmore hto)

end Sys2Proof.Words
end

section
/-! SUPPORT. The memory form of F.CAS, F.RST, F.DRAIN and the sketch words (13 R269; 14 R292, R297, R300, R301). -/

namespace Sys2Proof.Words

open Sys2Proof.Machine Sys2Proof.Spec

section
variable {s s2 s3 : State} {va ea v : W64} {rest : List W64} {t : FarTo}

/-! ## F.CAS in memory form and F.RST -/

theorem exec_fCasM {n : BitVec 2} {w : BitVec 1} {ws : List W64} (h : CanIssue .f (.fCasM n w) s)
    (hfree : (arrived .f s).me.farWaits = false) (htimed : s.me.leg.timed = false) (hv : top .f s = ea :: va :: rest)
    (hva : va.toNat % (2 ^ n.toNat * casBytes w) = 0) (hea : ea.toNat % casBytes w = 0)
    (hto : farTo (arrived .f s) va true true true = .ok t s2)
    (hread : ∀ f : List W64 → State → Res, readPairs (casBytes w) (2 ^ n.toNat) ea (2 * 2 ^ n.toNat) 0 [] s2 f = f ws s3) :
    waitsF (.fCasM n w) s ((loaded .f s3).sendFar ((mkFar (loaded .f s3) (.fCasM n w) [ea, va] ws va t 0 true).delayed
      ((loaded .f s3).pairsTime (casBytes w) (2 ^ n.toNat) ea))) := by
  change execFCasM n w s = _
  unfold execFCasM
  refine issueF_waits h ?_
  simp only [hfree, popping_within h (by rw [hv]; simp) (show 1 ≤ 2 by decide), hv, List.take_succ_cons, List.take_zero,
    List.drop_succ_cons, List.drop_zero, leg_setStack, leg_arrived, htimed, List.getD_cons_zero, List.getD_cons_succ, casCount,
    hva, hea, withFar, hto, hread, blockOn, ne_eq, not_true_eq_false, Bool.false_eq_true, if_false]
  rfl

section
variable {c z : BitVec 2} (h : CanIssue .f (.fRst c z) s) (hv : top .f s = va :: v :: rest) (halign : va.toNat % 2 ^ z.toNat = 0)
  (hto : farTo ((arrived .f s).setStack .f rest) va false true false = .ok t s2)
include h hv halign hto

theorem exec_fRst_combines (hcomb : combines s2 va t = true) :
    completes .f (.fRst c z) 1 s (s2.combine va t (leBytes v.toNat (2 ^ z.toNat))) := by
  refine issueF_completes h ?_
  simp only [popping_two_arrived h hv, List.getD_cons_zero, List.getD_cons_succ, halign, withFar, hto, hcomb, ne_eq,
    not_true_eq_false, if_false, if_true]

theorem exec_fRst_sends (hcomb : combines s2 va t = false) :
    completes .f (.fRst c z) 1 s (s2.sendFar (mkFar s2 (.fRst c z) [va, v] [] va t c.toNat false)) := by
  refine issueF_completes h ?_
  simp only [popping_two_arrived h hv, List.getD_cons_zero, halign, withFar, hto, hcomb, ne_eq, not_true_eq_false,
    Bool.false_eq_true, if_false]

end

/-! ## F.DRAIN (14 R301) -/

theorem drainBody_drained (htimed : s.me.leg.timed = false) (hreport : (s.flushComb fun _ => true).me.reportAt .f false = none)
    (hdrained : (s.flushComb fun _ => true).me.farDrained = true) : drainBody s = .ok (s.flushComb fun _ => true) := by
  simp only [drainBody, htimed, hreport, hdrained, Bool.false_eq_true, if_false, if_true]

theorem exec_farDrainComplete {s0 e : State} (hturn : engineTurn s0 .f = .run .fDrain s) (hbody : drainBody s = .ok e) :
    exec .farDrainComplete s0 = exec .fDrain s := by
  change execFarDrainComplete s0 = execFDrain s
  simp only [execFarDrainComplete, hturn, hbody]

/-! ## The sketch words (13 R269) -/

/-- The operands of a sketch word pass its checks: its count, the alignment of its sketches and of its values. -/
structure SketchFits (x : SketchForm) (a : List W64) : Prop where
  count : ∀ j, x.count = some j → 1 ≤ (a.getD j 0).toNat ∧ (a.getD j 0).toNat ≤ 2 ^ 20
  sketches : ∀ j ∈ x.sks, (a.getD j 0).toNat % 64 = 0
  values : ∀ j n r, x.vals = some (j, n, r) → (a.getD j 0).toNat % n = 0

/-- A sketch word of a form that goes on once its operation is sent. -/
def sketchWordOf (i : Instr) (x : SketchForm) (timedOk : Bool) : State → Out :=
  sketchWord i x.pops 0 timedOk false x.count x.sks (x.vals.map fun y => (y.1, y.2.1)) x.write ((x.vals.map fun y => y.2.2).getD true)

/-- What a sketch word comes to, by what the sending of its operation comes to. -/
def sketchSends (i : Instr) (x : SketchForm) (a : List W64) (t : FarTo) (s : State) : Res :=
  match x.sks.tail, x.vals with
  | j :: _, _ => withFar s (a.getD j 0) true false true fun u s =>
      .ok (s.sendFar ((mkFar s i a [] (a.getD (x.sks.headD 0) 0) t 0 false).also u))
  | [], some (j, _, r) => withFar s (a.getD j 0) r (!r) true fun u s =>
      .ok (s.sendFar ((mkFar s i a [] (a.getD (x.sks.headD 0) 0) t 0 false).also u))
  | [], none => .ok ((s.sendFar (mkFar s i a [] (a.getD (x.sks.headD 0) 0) t 0 false)).countSketch)

theorem sketchWordOf_sends {i : Instr} {x : SketchForm} {a : List W64} {timedOk : Bool} {e : State} (h : CanIssue .f i s)
    (hfree : (arrived .f s).me.farWaits = false) (ha : a = (top .f s).take x.pops) (hlen : a.length = x.pops)
    (htimed : s.me.leg.timed = true → timedOk = true ∧ s.me.leg.sketches < 4096) (hfits : SketchFits x a)
    (hto : farTo ((arrived .f s).setStack .f ((top .f s).drop x.pops)) (a.getD (x.sks.headD 0) 0) true x.write true = .ok t s2)
    (he : sketchSends i x a t s2 = .ok e) : sketchWordOf i x timedOk s = .next (issued .f i 1 s e) := by
  have hpops : x.pops ≤ (top .f s).length := by rw [ha, List.length_take] at hlen; omega
  have hleg : ∀ ended : Bool, (s.me.leg.timed && (!timedOk || (ended && decide (4096 ≤ s.me.leg.sketches)))) = false := by
    intro ended
    cases hl : s.me.leg.timed
    · rfl
    · rw [(htimed hl).1, decide_eq_false (Nat.not_le.2 (htimed hl).2), Bool.and_false]
      rfl
  have haligned : (x.sks.find? fun j => (a.getD j 0).toNat % 64 != 0) = none :=
    List.find?_eq_none.2 fun j hj => by rw [hfits.sketches j hj]; decide
  unfold sketchWordOf sketchWord
  refine issueF_completes h ?_
  simp only [hfree, popping_within h hpops (Nat.zero_le _), ← ha, leg_setStack, leg_arrived, hleg, haligned, withFar, hto,
    Bool.not_false, Bool.true_and, Bool.false_eq_true, if_false]
  refine (if_neg ?_).trans ?_
  · cases hc : x.count with
    | none => exact Bool.false_ne_true
    | some j => simpa only [Bool.not_eq_true', decide_eq_false_iff_not, not_not] using hfits.count j hc
  · rw [← he, sketchSends, List.drop_one]
    cases hvals : x.vals with
    | none => cases x.sks.tail <;> rfl
    | some y =>
      simp only [Option.map_some, hfits.values y.1 y.2.1 y.2.2 hvals, ne_eq, not_true_eq_false, if_false, Option.getD_some]
      cases x.sks.tail <;> rfl

/-- The forms of the sketch words that go on once their operation is sent; only F.SKUP may stand in the timed part of a leg. -/
theorem exec_of_sketchForm {i : Instr} {x : SketchForm} (hx : sketchForm i = some x) :
    ∃ timedOk : Bool, ((∃ d, i = .fSkup d) → timedOk = true) ∧ exec i s = sketchWordOf i x timedOk s := by
  cases i <;> cases hx
  case fSkup d => exact ⟨true, fun _ => rfl, rfl⟩
  case fSkupN d => exact ⟨false, nofun, rfl⟩
  case fSkqN d => exact ⟨false, nofun, rfl⟩
  case fSkadd => exact ⟨false, nofun, rfl⟩

theorem exec_fSkq {i : BitVec 1} (h : CanIssue .f (.fSkq i) s) (hfree : (arrived .f s).me.farWaits = false)
    (hv : top .f s = v :: va :: rest) (halign : va.toNat % 64 = 0) (hto : farTo (arrived .f s) va true false true = .ok t s2) :
    waitsF (.fSkq i) s (s2.sendFar (mkFar s2 (.fSkq i) [v, va] [] va t 0 true)) := by
  have haligned : (([1] : List Nat).find? fun j => ([v, va].getD j 0).toNat % 64 != 0) = none := by
    simp only [List.find?_cons, List.find?_nil, List.getD_cons_succ, List.getD_cons_zero, halign, bne_self_eq_false]
  change execFSkq i s = _
  unfold execFSkq sketchWord
  refine issueF_waits h ?_
  simp only [hfree, popping_within h (by rw [hv]; simp) (show 1 ≤ 2 by decide), hv, List.take_succ_cons, List.take_zero,
    List.drop_succ_cons, List.drop_zero, haligned, Bool.not_true, Bool.false_and, Bool.or_self, Bool.and_false,
    Bool.false_eq_true, if_false, if_true, List.headD_cons, List.getD_cons_succ, List.getD_cons_zero, withFar, hto, blockOn]

end

/-- Settles O42. -/
theorem farMemoryAndSketchWords : Obligations.FarMemoryAndSketchWords := by
  rintro s s1 s2 s3 va ea v rest t hfree rfl
  refine ⟨fun n w ws h htimed hv hva hea hto hread => exec_fCasM h hfree htimed hv hva hea hto hread,
    fun c z h hv halign hto => ⟨exec_fRst_combines h hv halign hto, exec_fRst_sends h hv halign hto⟩,
    fun h htimed hreport hdrained => ?_, ?_, fun i h hv halign hto => exec_fSkq h hfree hv halign hto⟩
  · have hbody := drainBody_drained (s := arrived .f s) (by rw [leg_arrived, htimed]) hreport hdrained
    have hdone : completes .f .fDrain 1 s ((arrived .f s).flushComb fun _ => true) := issueF_completes h hbody
    refine ⟨hdone, fun s0 hturn hs => ?_⟩
    rw [hs] at hbody hdone
    exact (exec_farDrainComplete hturn hbody).trans hdone
  · rintro i x a home hx h ha hlen rfl htimed hcount hsks hvals rfl hto
    obtain ⟨timedOk, hok, hexec⟩ := exec_of_sketchForm (s := s) hx
    have hsends := fun e => sketchWordOf_sends (e := e) h hfree ha hlen (fun hl => ⟨hok (htimed hl).1, (htimed hl).2⟩)
      ⟨hcount, hsks, hvals⟩ hto
    refine ⟨fun t2 hx' htail ht2 => ?_, fun j t2 u hx' htail hto2 => ?_, fun j n r t2 u hx' hto2 => ?_⟩
    · subst ht2
      exact hexec.trans (hsends _ (by simp only [sketchSends, hx', htail]))
    · exact hexec.trans (hsends _ (by simp only [sketchSends, hx', htail, withFar, hto2]))
    · have htail : x.sks.tail = [] := by cases i <;> cases hx <;> first | rfl | exact nomatch hx'
      exact hexec.trans (hsends _ (by simp only [sketchSends, hx', htail, withFar, hto2]))

end Sys2Proof.Words
end

section
/-! SUPPORT. The reply of a far operation, a statement that fails: the state that shows it holds an F.CAS in memory form that its engine
does not wait for and whose word cannot be written back yet (14 R297, R302). -/

namespace Sys2Proof.Words

open Sys2Proof.Machine Sys2Proof.Spec

/-- An F.CAS in memory form that no engine waits for, served with one word to write back at address 0. -/
def postedCas : FarOp :=
  { i := .fCasM 0 0, args := [], tpc := 0, place := 0, va := 0, die := 0, block := false, due := 0, served := true
    result := [1, 2], back := some 0 }

/-- Core 0 holds that operation alone; no page is mapped. -/
def postedCasReplies : State := { State.reset with cores := [(0, { far := [postedCas] })] }

/-- How many far operations the acting core holds in the state an event comes to. -/
def farAfter : Out → Nat
  | .next s => s.me.far.length
  | _ => 0

/-- The write-back waits for the translation of address 0, and the operation stays. -/
theorem farAfter_postedCasReplies : farAfter (exec (.farReply 0) postedCasReplies) = 1 := by decide +kernel

/-- Refutes O43: the reply of an operation that its engine does not wait for is said to take it away and change nothing else, the
queries in .n form alone left out; that of an F.CAS in memory form first writes its words back, and waits for their page. -/
theorem not_farService : ¬ Obligations.FarService := by
  intro h
  obtain ⟨-, hreplies, -⟩ := h postedCasReplies 0 postedCas
  obtain ⟨-, hposted, -⟩ := hreplies 0 (by decide +kernel) rfl rfl (by decide +kernel)
  have hgone := hposted rfl rfl nofun
  have hnone : farAfter (exec (.farReply 0) postedCasReplies) = 0 := by rw [hgone]; decide +kernel
  exact absurd (hnone.symm.trans farAfter_postedCasReplies) (by decide)

end Sys2Proof.Words
end

section
/-! SUPPORT. Layout registers, F.COLL, and the turns of a collective at its rank (15 R305, R307-R312, R317, R318). -/

namespace Sys2Proof.Words

open Sys2Proof.Machine Sys2Proof.Spec

/-! ## F.LAYOUT -/

/-- The bits of a word from `lo` up are 0 just where it is below 2^lo. -/
theorem bits_above_eq_zero_iff (v : W64) {lo w : Nat} (h : lo + w = 64) : bits v lo w = 0 ↔ v.toNat < 2 ^ lo := by
  have hlt : v.toNat / 2 ^ lo < 2 ^ w := (Nat.div_lt_iff_lt_mul (Nat.two_pow_pos lo)).2 (by
    rw [← Nat.pow_add, Nat.add_comm, h]; exact v.isLt)
  rw [bits, Nat.mod_eq_of_lt hlt, Nat.div_eq_zero_iff_lt (Nat.two_pow_pos lo)]

/-- The field alone decides as R305 lists it. -/
theorem layoutFieldOk_iff (f : Nat) (v : W64) : layoutFieldOk f v = true ↔ layoutValue f v := by
  match f with
  | 0 => simp only [layoutFieldOk, layoutValue, Bool.and_eq_true, beq_iff_eq, bne_iff_ne, decide_eq_true_eq]; tauto
  | 1 | 3 => exact iff_of_true rfl trivial
  | 2 => exact beq_iff_eq
  | 4 => exact beq_iff_eq.trans (bits_above_eq_zero_iff v rfl)
  | n + 5 =>
    simp only [layoutFieldOk, layoutValue, Bool.and_eq_true, beq_iff_eq, decide_eq_true_eq, bits_above_eq_zero_iff v (show 35 + 29 = 64 from rfl)]

section
variable {s : State} {v : W64} {rest : List W64}

theorem exec_fLayout {n : BitVec 2} {f : BitVec 4} (h : CanIssue .f (.fLayout n f) s) (hv : top .f s = v :: rest)
    (hfield : layoutValue f.toNat v) : completes .f (.fLayout n f) 1 s (((arrived .f s).setStack .f rest).updMe fun k =>
      { k with layouts := SMap.set 0 k.layouts (16 * n.toNat + f.toNat) v }) := by
  refine issueF_completes h ((popping_one_arrived h hv).trans ?_)
  exact if_pos ((layoutFieldOk_iff f.toNat v).2 hfield)

/-! ## F.COLL -/

@[simp] theorem layout_setStack (t : Engine) (st : List W64) (n : Nat) : (s.setStack t st).me.layout n = s.me.layout n := by
  rw [me_setStack]
  rfl

@[simp] theorem layout_arrived (t : Engine) (n : Nat) : (arrived t s).me.layout n = s.me.layout n := by
  rw [arrived, State.me_updMe]
  rfl

/-- F.COLL files its collective once each of the checks of R307 has passed. -/
theorem exec_fColl {e : BitVec 1} {dl sl : BitVec 2} {src dst : Layout} {cs : W64} {s1 s2 s4 s5 s6 s7 : State}
    {ranks : List (Nat × Nat)} {ps1 ps : List CopyPage} {p : Place} (h : CanIssue .f (.fColl e dl sl) s)
    (hv : top .f s = cs :: rest) (hs1 : s1 = (arrived .f s).setStack .f rest) (hsrc : src = s.me.layout sl.toNat)
    (hdst : dst = s.me.layout dl.toNat) (hown : Layout.ownBad src = none) (hown' : Layout.ownBad dst = none)
    (hpair : Layout.pairBad src dst = none) (hepi : e = 1 → Layout.epiOk src = true)
    (hranks : ∀ f : List (Nat × Nat) → State → Res, readRanks (Layout.ranktab src) (Layout.ranks src) 0 [] s1 f = f ranks s2)
    (hmine : (ranks.filter fun r => r == (s2.package % 2 ^ 10, s2.actor)).length = 1) (hcs : cs.toNat % 8 = 0)
    (halign : (Layout.base src).toNat % Layout.align src = 0) (halign' : (Layout.base dst).toNat % Layout.align dst = 0)
    (hinside : buffersOutside (e == 1) src dst = none) (hslots : s2.me.buffersSlot (e == 1) src dst = none)
    (hpages : buffersPages (e == 1) src dst s2 s2.me.collPages = .ok ps1 s4) (hapart : e = 0 → buffersMeet src dst = false)
    (hplace : locate s4 cs 8 false true = .at_ p s5) (hstatus : collectPages .f s5 [(3, cs.toNat)] ps1 = .ok ps s6)
    (hpins : tooManyPins (s6.pinsOf ps) = false) (hpinned : s6.pinAll (s6.pinsOf ps) = some s7)
    (hpackage : s7.package = s2.package) (hactor : s7.actor = s2.actor) :
    completes .f (.fColl e dl sl) 1 s
      ((s7.updMe fun k => (k.havePages .f).dropLoads .f 0).addColl (collOf s7 src dst e cs p ranks ps (s6.pinsOf ps))) := by
  have hepi' : ¬ (e = 1 ∧ (!Layout.epiOk src) = true) := fun ⟨h1, h2⟩ => by rw [hepi h1] at h2; exact absurd h2 (by decide)
  have hapart' : ¬ (e = 0 ∧ buffersMeet src dst = true) := fun ⟨h1, h2⟩ => Bool.false_ne_true ((hapart h1).symm.trans h2)
  refine issueF_completes h ((popping_one_arrived h hv).trans ?_)
  rw [← hs1]
  have hl : ∀ n, s1.me.layout n = s.me.layout n := fun n => by rw [hs1, layout_setStack, layout_arrived]
  simp only [List.getD_cons_zero, hl, ← hsrc, ← hdst, hown, hown', hpair, if_neg hepi', hranks, hmine, hcs, halign, halign', hinside,
    hslots, hpages, if_neg hapart', hplace, hstatus, hpins, hpinned, ne_eq, not_true_eq_false, if_false, Bool.false_eq_true]
  rw [collOf, hpackage, hactor]
  rfl

end

/-! ## The turns of a collective -/

section
variable {s s0 s1 s2 s3 : State} {j : Nat} {c c0 c1 c2 : Coll}

/-- A collective that is under way takes what has been acknowledged and goes on. -/
theorem exec_collectiveComplete (hc : s.me.colls[j]? = some c) (hdone : c.done = false)
    (hkill : ¬ (s.me.run = .killing ∧ c.task = s.me.task)) (hacks : c.takeAcks s = (s0, c0)) :
    (∀ x, c0.ended = some x → exec (.collectiveComplete j) s = .next (s0.finishColl s0.actor j c0 x)) ∧
      (c0.ended = none → exec (.collectiveComplete j) s = .next (s0.turnColl j c0)) := by
  have hexec : exec (.collectiveComplete j) s = execCollectiveComplete j s := rfl
  constructor
  · intro x hx
    rw [hexec]
    simp only [execCollectiveComplete, hc, if_neg hkill, hdone, hacks, hx, Bool.false_eq_true, if_false]
  · intro hx
    rw [hexec]
    simp only [execCollectiveComplete, hc, if_neg hkill, hdone, hacks, hx, Bool.false_eq_true, if_false]

theorem collFails_of_digestBad (h : s.digestBad c = true) : s.collFails c = some .ill := if_pos h

theorem collFails_of_rankLost (h : s.digestBad c = false) (hlost : s.rankLost c = true) : s.collFails c = some .peer :=
  (if_neg (by rw [h]; decide)).trans (if_pos hlost)

theorem collFails_eq_none (h : s.digestBad c = false) (hlost : s.rankLost c = false) : s.collFails c = none :=
  (if_neg (by rw [h]; decide)).trans (if_neg (by rw [hlost]; decide))

theorem turnColl_fails {e : Cause} (h : s.collFails c = some e) : s.turnColl j c = s.failColl j c e := by
  rw [State.turnColl, h]

theorem turnColl_waits {r : State × Coll} (h : s.collFails c = none) (hcap : c.capture s = .ok c1 s1) (hr : r = c1.ship s1 none)
    (hgather : (r.1.setColl r.1.actor j r.2).gather r.2 = none) : s.turnColl j c = r.1.setColl r.1.actor j r.2 := by
  subst hr
  simp only [State.turnColl, h, hcap, hgather]

theorem turnColl_delivers {r : State × Coll} {all : List Coll} (h : s.collFails c = none) (hcap : c.capture s = .ok c1 s1)
    (hr : r = c1.ship s1 none) (hgather : (r.1.setColl r.1.actor j r.2).gather r.2 = some all) :
    s.turnColl j c = (r.1.setColl r.1.actor j r.2).deliverColl j r.2 all := by
  subst hr
  simp only [State.turnColl, h, hcap, hgather]

theorem deliverColl_ends {all : List Coll} {o : Status × Writes} (ho : o = c.outcome all)
    (hfree : c.barred s (o.2.map fun w => (1, Layout.space c.dst, w.1, w.2.length)) = false)
    (hwrites : o.2.foldl Coll.writeRun (s, c, none) = (s3, c2, none)) :
    s.deliverColl j c all = s3.finishColl s3.actor j c2 { o.1 with sat := o.1.sat || c.satOut s } := by
  subst ho
  simp only [State.deliverColl, hfree, hwrites, Bool.false_eq_true, if_false]

/-- An untimed collective that waits under a limit looks for an absent rank. -/
theorem exec_exchangeWaitLimit (hc : s.me.colls[j]? = some c) (hdone : c.done = false)
    (hlimit : bits ((s.die s.myDie).reg 272) 0 32 ≠ 0) (htimed : s.me.leg.timed = false) :
    ((∀ r ∈ c.ranks, s.absent c r = false) →
      exec (.exchangeWaitLimit j) s = .next (s.setColl s.actor j { c with absentSince := none })) ∧
    (∀ r ∈ c.ranks, s.absent c r = true → c.absentSince = none →
      exec (.exchangeWaitLimit j) s = .next (s.setColl s.actor j { c with absentSince := some s.cycle })) ∧
    (∀ r ∈ c.ranks, ∀ t, s.absent c r = true → c.absentSince = some t → t + bits ((s.die s.myDie).reg 272) 0 32 ≤ s.cycle →
      exec (.exchangeWaitLimit j) s =
        .next (((c.cores s.package).filter fun r => (s.core r).colls.any (c.pairs ·)).foldl State.preemptCore s)) := by
  have hwaits : ¬ ((c.done || decide (bits ((s.die s.myDie).reg 272) 0 32 = 0) || s.me.leg.timed) = true) := by
    rw [hdone, htimed, decide_eq_false hlimit]
    decide
  have hexec : exec (.exchangeWaitLimit j) s = execExchangeWaitLimit j s := rfl
  refine ⟨fun hall => ?_, fun r hr habs hsince => ?_, fun r hr t habs hsince hover => ?_⟩
  · have hnone : c.ranks.any (s.absent c) = false := List.any_eq_false.2 fun r hr => by rw [hall r hr]; decide
    rw [hexec]
    simp only [execExchangeWaitLimit, hc, if_neg hwaits, hnone, Bool.not_false, if_true]
  · have hsome : c.ranks.any (s.absent c) = true := List.any_eq_true.2 ⟨r, hr, habs⟩
    rw [hexec]
    simp only [execExchangeWaitLimit, hc, if_neg hwaits, hsome, hsince, Bool.not_true, Bool.false_eq_true, if_false]
  · have hsome : c.ranks.any (s.absent c) = true := List.any_eq_true.2 ⟨r, hr, habs⟩
    rw [hexec]
    simp only [execExchangeWaitLimit, hc, if_neg hwaits, hsome, hsince, Nat.not_lt.2 hover, Bool.not_true, Bool.false_eq_true,
      if_false]

end

/-- Settles O44: the two words by the checks that they pass, a collective by what its turn finds. -/
theorem collectiveWords : Obligations.CollectiveWords := by
  intro s
  refine ⟨fun n f v rest h hv hfield => exec_fLayout h hv hfield, ?_, ?_, ?_⟩
  · intro e dl sl src dst cs rest s1 s2 s4 s5 s6 s7 ranks ps1 ps p
    exact exec_fColl
  · intro j c c0 s0 hc hdone hkill hacks
    obtain ⟨hended, hturn⟩ := exec_collectiveComplete hc hdone hkill hacks
    refine ⟨hended, fun hnone hbad => ?_, fun hnone hgood hlost => ?_, fun s1 c1 r hnone hgood hlost hcap hr => ⟨fun hwait => ?_, ?_⟩⟩
    · rw [hturn hnone, turnColl_fails (collFails_of_digestBad hbad)]
    · rw [hturn hnone, turnColl_fails (collFails_of_rankLost hgood hlost)]
    · rw [hturn hnone, turnColl_waits (collFails_eq_none hgood hlost) hcap hr hwait]
    · intro all s2 s3 c2 o hs2 hgather ho hfree hwrites
      subst hs2
      rw [hturn hnone, turnColl_delivers (collFails_eq_none hgood hlost) hcap hr hgather, deliverColl_ends ho hfree hwrites]
  · intro j c hc hdone hlimit htimed
    exact exec_exchangeWaitLimit hc hdone hlimit htimed

end Sys2Proof.Words
end

section
/-! SUPPORT. Page walks, TLB commands, key rotations, the patrol, epochs and swaps (17 R344-R351, R361). -/

namespace Sys2Proof.Words

open Sys2Proof.Machine Sys2Proof.Spec

section
variable {s : State}

/-! ## Page walks -/

/-- A walk that is due is performed. -/
theorem exec_pageWalk {k : Nat} {w : Walk} (hw : s.me.walks[k]? = some w) (hfailed : w.failed = none)
    (hreported : w.reported = false) (hdue : w.due ≤ s.cycle) (hheld : s.walkHeld (bits w.va 55 3) w.space w.va = false) :
    (∀ x, (s.die (bits w.va 55 3)).walk w.space w.va = .leaf x →
      exec (.pageWalk k) s = .next (((s.updDie (bits w.va 55 3) fun d => d.heatWalk w.space w.va).fillTlb (bits w.va 55 3)
        { space := w.space, base := w.va.toNat / pageSize (pteSize x), size := pteSize x, leaf := x }).updMe fun c =>
          { c with walks := c.walks.eraseIdx k })) ∧
    (∀ c, (s.die (bits w.va 55 3)).walk w.space w.va = .fail c → c ≠ .integ →
      exec (.pageWalk k) s = .next ((s.updDie (bits w.va 55 3) fun d => d.heatWalk w.space w.va).updMe fun x =>
        { x with walks := x.walks.set k { w with failed := some c } })) := by
  have hexec : exec (.pageWalk k) s = execPageWalk k s := rfl
  have hnow : (w.failed.isSome || w.reported || decide (s.cycle < w.due) || s.walkHeld (bits w.va 55 3) w.space w.va) = false := by
    rw [hfailed, hreported, decide_eq_false (Nat.not_lt.2 hdue), hheld]
    rfl
  refine ⟨fun x hleaf => ?_, fun c hfail hc => ?_⟩ <;> rw [hexec, execPageWalk]
  · simp only [hw, hnow, hleaf, Bool.false_eq_true, if_false]
  · simp only [hw, hnow, hfail, if_neg hc, Bool.false_eq_true, if_false]

/-! ## Register writes with an effect of their own -/

theorem applyWrite_takes {i : Instr} {kind : RegKind} {w : RegWrite} {f : RegWrite → State → State}
    (hexec : exec i s = applyWrite s kind f) : takes i kind s w (f w (taken s w)) := by
  intro hnext hkind
  rw [hexec, applyWrite, hnext]
  exact if_pos hkind

/-- A command of DG_TLB_INV that covers a held page is refused as a whole. -/
theorem tlbCommand_refused {covers : State → Nat → W64 → TlbEntry → Bool} {also : State → Nat → W64 → Bool} {w : RegWrite}
    (h : (also s w.die w.val || ((s.tlbsOf w.die).any fun e => covers s w.die w.val e && s.leafHeld w.die e.leaf)
      || (s.legPages w.die).any (covers s w.die w.val)) = true) :
    tlbCommand covers also w s = tlbInvDone s w true := by
  simp only [tlbCommand, h, if_true]
  rfl

/-- One that covers none drops what it covers. -/
theorem tlbCommand_drops {covers : State → Nat → W64 → TlbEntry → Bool} {also : State → Nat → W64 → Bool} {w : RegWrite}
    (h : (also s w.die w.val || ((s.tlbsOf w.die).any fun e => covers s w.die w.val e && s.leafHeld w.die e.leaf)
      || (s.legPages w.die).any (covers s w.die w.val)) = false) :
    tlbCommand covers also w s = tlbInvDone (s.dropTlb w.die (covers s w.die w.val)) w false := by
  simp only [tlbCommand, h, Bool.false_eq_true, if_false]
  rfl

/-- A command that covers what its word names is refused as a whole, or drops it. -/
theorem tlbCommand_takes {i : Instr} {kind : RegKind} {covers : State → Nat → W64 → TlbEntry → Bool}
    {also : State → Nat → W64 → Bool} {w : RegWrite} (hexec : exec i s = applyWrite s kind (tlbCommand covers also))
    (hcovers : covers (taken s w) w.die w.val = tlbCovers i (taken s w) w)
    (hheld : (also (taken s w) w.die w.val || (((taken s w).tlbsOf w.die).any fun e => covers (taken s w) w.die w.val e &&
      (taken s w).leafHeld w.die e.leaf) || ((taken s w).legPages w.die).any (covers (taken s w) w.die w.val)) =
        tlbHeld i (taken s w) w) :
    (tlbHeld i (taken s w) w = true → takes i kind s w (tlbInvDone (taken s w) w true)) ∧
      (tlbHeld i (taken s w) w = false →
        takes i kind s w (tlbInvDone ((taken s w).dropTlb w.die (tlbCovers i (taken s w) w)) w false)) := by
  refine ⟨fun h => ?_, fun h => ?_⟩
  · rw [← tlbCommand_refused (hheld.trans h)]
    exact applyWrite_takes hexec
  · rw [← hcovers, ← tlbCommand_drops (hheld.trans h)]
    exact applyWrite_takes hexec

/-- The three commands of DG_TLB_INV, by what each covers. -/
theorem exec_tlbInv {i : Instr} {kind : RegKind} (w : RegWrite) (hkind : tlbKind i = some kind) :
    (tlbHeld i (taken s w) w = true → takes i kind s w (tlbInvDone (taken s w) w true)) ∧
      (tlbHeld i (taken s w) w = false →
        takes i kind s w (tlbInvDone ((taken s w).dropTlb w.die (tlbCovers i (taken s w) w)) w false)) := by
  cases i <;> cases hkind
  case tlbInvPage => exact tlbCommand_takes (show execTlbInvPage s = _ by unfold execTlbInvPage; rfl) rfl rfl
  case tlbInvSpace => exact tlbCommand_takes (show execTlbInvSpace s = _ by unfold execTlbInvSpace; rfl) rfl rfl
  case tlbInvAll => exact tlbCommand_takes (show execTlbInvAll s = _ by unfold execTlbInvAll; rfl) rfl rfl

/-! ## Keys and the patrol -/

theorem exec_keyRotate {w : RegWrite} (hw : w.val.getLsbD 0 = true) (hpass : (s.die w.die).keyPass = false)
    (hkey : ((s.die w.die).keyCur + 1) % 15 ∈ (s.die w.die).keys) :
    takes .keyRotate .keyRotate s w ((taken s w).updDie w.die fun d =>
      { d.setReg 360 (BitVec.ofNat 64 (2 ^ 63 + d.keyCur * 2 ^ 8 + (d.keyCur + 1) % 15)) with patrol := 0 }) := by
  have hgood : ((!w.val.getLsbD 0) || badRotate (s.die w.die) w.val) = false := by
    rw [badRotate, hw, hpass, List.contains_iff_mem.2 hkey]
    rfl
  intro hnext hkind
  refine (applyWrite_takes (i := .keyRotate) (show execKeyRotate s = _ by unfold execKeyRotate; rfl) hnext hkind).trans ?_
  refine congrArg (fun t => Host.Outcome.next (s.portAnswer w t)) (updDie_congr ?_)
  exact if_neg (by rw [show (taken s w).die w.die = s.die w.die from rfl, hgood]; decide)

theorem exec_patrolLine {p : Nat} (hperiod : (s.die s.myDie).period = some p) (hdue : (s.die s.myDie).patrolAt ≤ s.cycle)
    (hup : ((s.die s.myDie).reg 500).getLsbD 22 = true) (hpower : s.powered = true)
    (hmore : (s.die s.myDie).patrol + 1 < lineCount) :
    exec .patrolLine s = .next (s.setDie s.myDie
      { (s.die s.myDie).patrolLine (lineAt (s.die s.myDie).patrol).1 (lineAt (s.die s.myDie).patrol).2 with
        patrol := (s.die s.myDie).patrol + 1, patrolAt := s.cycle + p }) := by
  change execPatrolLine s = _
  have hvisit : (decide (s.cycle < (s.die s.myDie).patrolAt) || !((s.die s.myDie).reg 500).getLsbD 22 || !s.powered ||
      decide (lineCount ≤ (s.die s.myDie).patrol)) = false := by
    rw [decide_eq_false (Nat.not_lt.2 hdue), hup, hpower, decide_eq_false (by omega)]
    rfl
  have hmid : ¬ ((s.die s.myDie).patrol + 1 = lineCount) := by omega
  simp only [execPatrolLine, hperiod, hvisit, hmid, false_and, Bool.false_eq_true, if_false]

theorem exec_rotationPassEnd (hpass : (s.die s.myDie).keyPass = true) (hbase : (s.die s.myDie).mem.baseVer < 16)
    (hall : (s.die s.myDie).patrol = lineCount) :
    exec .rotationPassEnd s = .next (s.setDie s.myDie
      { ((s.die s.myDie).setReg 360 (setBits ((s.die s.myDie).reg 360) 63 1 0)).passDone with
        keys := (s.die s.myDie).keys.filter (· != (s.die s.myDie).keyPrev)
        mem := { (s.die s.myDie).mem with
          baseVer := (s.die s.myDie).keyCur
          ver := (s.die s.myDie).mem.ver.filter fun p => p.2 != (s.die s.myDie).keyCur } }) := by
  change execRotationPassEnd s = _
  simp only [execRotationPassEnd, hpass, hall, hbase, decide_true, Bool.and_self, if_true]

/-! ## Epochs and swaps -/

/-- An epoch that closes leaves a swap under way as it is. -/
theorem exec_epochClose (hon : bits ((s.die s.myDie).reg 352) 63 1 = 1) (hepoch : bits ((s.die s.myDie).reg 352) 0 16 ≠ 0)
    (hdue : (s.die s.myDie).epochAt + bits ((s.die s.myDie).reg 352) 0 16 * 1024 ≤ s.cycle) :
    ∃ (v : W64) (w : Option Swap), exec .epochClose s = .next (s.setDie s.myDie { ((s.die s.myDie).setReg 353 v).halve with
      epochAt := s.cycle
      swap := w }) ∧ ((s.die s.myDie).swap ≠ none → w = (s.die s.myDie).swap) := by
  have hclose : ¬ ((decide (bits ((s.die s.myDie).reg 352) 63 1 = 0) || decide (bits ((s.die s.myDie).reg 352) 0 16 = 0) ||
      decide (s.cycle < (s.die s.myDie).epochAt + bits ((s.die s.myDie).reg 352) 0 16 * 1024)) = true) := by
    rw [hon, decide_eq_false hepoch, decide_eq_false (Nat.not_lt.2 hdue)]
    decide
  refine ⟨_, _, if_neg hclose, fun hswap => ?_⟩
  have hsome : (s.die s.myDie).swap.isSome = true := Option.isSome_iff_ne_none.2 hswap
  simp only [hsome, if_true]

theorem exec_swapComplete {w : Swap} (hw : (s.die s.myDie).swap = some w) :
    exec .swapComplete s = .next ((s.doSwap s.myDie w).updDie s.myDie fun d => { d with swap := none }) := by
  change execSwapComplete s = _
  simp only [execSwapComplete, hw]

end

/-- Settles O47. -/
theorem managementEvents : Obligations.ManagementEvents := by
  rintro s d rfl
  refine ⟨fun k w hw hfailed hreported hdue hheld => ?_, fun i kind w hkind => exec_tlbInv w hkind,
    fun w hw hpass hkey => exec_keyRotate hw hpass hkey, fun p hperiod hdue hup hpower hmore => ?_,
    fun hpass hbase hall => exec_rotationPassEnd hpass hbase hall, exec_epochClose, fun w hw => exec_swapComplete hw⟩
  · obtain ⟨hleaf, hfail⟩ := exec_pageWalk hw hfailed hreported hdue hheld
    exact ⟨fun x e hx he => he ▸ hleaf x hx, hfail⟩
  · rw [exec_patrolLine hperiod hdue hup hpower hmore, lineAt]
    by_cases hfast : (s.die s.myDie).patrol < tierSize 0 / 256
    · simp only [if_pos hfast]
    · simp only [if_neg hfast]

end Sys2Proof.Words
end

section
/-! SUPPORT. The commands on tasks, a statement that fails: the state that shows it holds a KILL written by a command of the Helale
port, which is answered (18 R392; 19 R395). -/

namespace Sys2Proof.Words

open Sys2Proof.Machine Sys2Proof.Spec

/-- The port writes KILL of task 0 of launch 0 to DG_TASK_CTL. -/
def portKill : RegWrite := { cycle := 1, core := 0, group := 1, idx := 400, val := 2 * 2 ^ 60, port := true }

/-- That write is the next to be taken; no die has a launch. -/
def portKillDue : State := { State.reset with cycle := 10, regWrites := [portKill] }

/-- A launch without tasks: the command names none. -/
def emptyLaunch : Launch :=
  { id := 0, space := 0, sys := false, handle := false, text := 0, textw := 0, tail := 0, stat := 0, frames := 0, nframe := 0
    levels := [], recs := [], tasks := [] }

/-- How many responses leave by the port up to the state an event comes to. -/
def repliesAfter : Out → Nat
  | .next s => s.replies.length
  | _ => 0

/-- The write is refused, and the port is answered. -/
theorem repliesAfter_portKillDue : repliesAfter (exec .taskCtlKill portKillDue) = 1 := by decide +kernel

/-- Refutes O49: the effect of a command in DG_TASK_CTL is stated without the answer to the port, which a command of the port that
wrote it gets in the same step. -/
theorem not_taskEvents : ¬ Obligations.TaskEvents := by
  rintro ⟨-, -, -, hcommands⟩
  obtain ⟨-, hkill, -⟩ := hcommands portKillDue portKill { die := 0, launch := 0, task := 0 } emptyLaunch (by decide +kernel)
  obtain ⟨hrefused, -⟩ := hkill (by decide +kernel)
  have hstep := hrefused (by decide +kernel)
  have hnone : repliesAfter (exec .taskCtlKill portKillDue) = 0 := by rw [hstep]; decide +kernel
  exact absurd (hnone.symm.trans repliesAfter_portKillDue) (by decide)

end Sys2Proof.Words
end

section
/-! SUPPORT. Every step keeps the canonical form of the memories (17 R360; 00 R5): for each operation that gives a state or a die,
in the order of the model, one lemma that what it gives has canonical memories where what it is given has them. -/

namespace Sys2Proof.Machine

/-! ## What results come to -/

/-- Every state that an event or a word comes to has a property. -/
def Out.all (P : State → Prop) : Out → Prop
  | .next s => P s
  | _ => True

def Act.all (P : State → Prop) : Act → Prop
  | .run _ s => P s
  | .done s => P s

def Got.all (P : State → Prop) : Got → Prop
  | .ok _ s => P s
  | .wait s => P s
  | .fail _ _ s => P s

def Pages.all (P : State → Prop) : Pages → Prop
  | .ok _ s => P s
  | .wait _ s => P s
  | .fail _ _ => True

def Load.all {α : Type} (P : State → Prop) : Load α → Prop
  | .ok _ s => P s
  | .later s => P s
  | .bad _ _ s => P s

def FarX.all (P : State → Prop) : FarX → Prop
  | .ok _ s => P s
  | .wait s => P s
  | .fail _ _ => True

def DatumAt.all (P : State → Prop) : DatumAt → Prop
  | .at_ _ _ _ _ s => P s
  | .peer _ _ s => P s
  | .wait s => P s
  | .fail _ _ => True

def SkOut.all {α : Type} (P : State → Prop) : SkOut α → Prop
  | .ok _ s => P s
  | .wait s => P s
  | .fail _ _ s => P s

def Served.all (P : State → Prop) : Served → Prop
  | .ok _ _ s => P s
  | .wait s => P s
  | .ask _ => True
  | .report _ _ s => P s

def Pushed.all (P : State → Prop) : Pushed → Prop
  | .ok _ s => P s
  | .wait s => P s
  | .fail _ _ s => P s

def Took.all (P : State → Prop) : Took → Prop
  | .ok _ s => P s
  | .wait s => P s
  | .fail _ _ s => P s

def Taken.all (P : State → Prop) : Taken → Prop
  | .ok _ _ s _ => P s
  | .wait s _ => P s
  | .fail s => P s

def Queued.all (P : State → Prop) : Queued → Prop
  | .ok s => P s
  | .full => True
  | .wait s => P s

def RecOut.all {α : Type} (P : State → Prop) : RecOut α → Prop
  | .ok _ s => P s
  | .wait s => P s
  | .reject _ s => P s

def Stopped.all (P : State → Prop) : Stopped → Prop
  | .wait s => P s
  | .integ _ s => P s

section
variable {P : State → Prop}

theorem Res.all_of_eq {r x : Res} (e : r = x) (h : r.all P) : x.all P := e ▸ h
theorem Xlat.all_of_eq {r x : Xlat} (e : r = x) (h : r.all P) : x.all P := e ▸ h
theorem OwnerX.all_of_eq {r x : OwnerX} (e : r = x) (h : r.all P) : x.all P := e ▸ h
theorem Near.all_of_eq {r x : Near} (e : r = x) (h : r.all P) : x.all P := e ▸ h
theorem Act.all_of_eq {r x : Act} (e : r = x) (h : r.all P) : x.all P := e ▸ h
theorem Got.all_of_eq {r x : Got} (e : r = x) (h : r.all P) : x.all P := e ▸ h
theorem Pages.all_of_eq {r x : Pages} (e : r = x) (h : r.all P) : x.all P := e ▸ h
theorem Load.all_of_eq {α : Type} {r x : Load α} (e : r = x) (h : r.all P) : x.all P := e ▸ h
theorem FarX.all_of_eq {r x : FarX} (e : r = x) (h : r.all P) : x.all P := e ▸ h
theorem DatumAt.all_of_eq {r x : DatumAt} (e : r = x) (h : r.all P) : x.all P := e ▸ h
theorem SkOut.all_of_eq {α : Type} {r x : SkOut α} (e : r = x) (h : r.all P) : x.all P := e ▸ h
theorem Served.all_of_eq {r x : Served} (e : r = x) (h : r.all P) : x.all P := e ▸ h
theorem Pushed.all_of_eq {r x : Pushed} (e : r = x) (h : r.all P) : x.all P := e ▸ h
theorem Took.all_of_eq {r x : Took} (e : r = x) (h : r.all P) : x.all P := e ▸ h
theorem Taken.all_of_eq {r x : Taken} (e : r = x) (h : r.all P) : x.all P := e ▸ h
theorem Queued.all_of_eq {r x : Queued} (e : r = x) (h : r.all P) : x.all P := e ▸ h
theorem RecOut.all_of_eq {α : Type} {r x : RecOut α} (e : r = x) (h : r.all P) : x.all P := e ▸ h

end

/-! ## The memories under the shared changes -/

/-- A changed state has the memories of its dies. Stated of the constructor, so that it applies to a structure update. -/
theorem State.memWf_mk {x : State} {ds : SMap Die} {cycle package cores pk peerOut peerIn inbound answers bridges peerSigns links
    regWrites on firmware owner replies sched actor freeCount} (e : ds = x.dies) (h : x.memWf) :
    State.memWf ⟨cycle, package, cores, ds, pk, peerOut, peerIn, inbound, answers, bridges, peerSigns, links, regWrites, on,
      firmware, owner, replies, sched, actor, freeCount⟩ := fun d => by
  rw [State.die, e]
  exact h d

/-- The same of a die that keeps its memory. -/
theorem Die.wf_mk {x : Die} {m : Mem} {dg bufA bufB firstLoad firstVa firstTable trav timed tlb faults locks binds acqs rels
    launchq launches saved requeued halted haltAsked hot swap epochAt refresh heldAt patrol patrolAt commons side stores groups
    tokens grants peerTokens farCache packets wallower uninitAt keys} (e : m = x.mem) (h : Memory.wf x.mem = true) :
    Memory.wf (Die.mem ⟨dg, bufA, bufB, firstLoad, firstVa, firstTable, trav, timed, m, tlb, faults, locks, binds, acqs, rels,
      launchq, launches, saved, requeued, halted, haltAsked, hot, swap, epochAt, refresh, heldAt, patrol, patrolAt, commons, side,
      stores, groups, tokens, grants, peerTokens, farCache, packets, wallower, uninitAt, keys⟩) = true := by
  rw [e]
  exact h

theorem forall_some_eq {α : Type} {P : α → Prop} {x : α} (h : P x) : ∀ y, some x = some y → P y :=
  fun _ e => Option.some.inj e ▸ h

theorem forall_none_eq {α : Type} {P : α → Prop} : ∀ y, none = some y → P y := nofun

theorem State.memWf_fst {α : Type} {r : State × α} {s : State} {a : α} (e : r = (s, a)) (h : r.1.memWf) : s.memWf := by
  rw [e] at h
  exact h

theorem State.memWf_snd {α : Type} {r : α × State} {s : State} {a : α} (e : r = (a, s)) (h : r.2.memWf) : s.memWf := by
  rw [e] at h
  exact h

/-- A change of every die that keeps its memory's form. -/
theorem Die.wf_get_map {f : Die → Die} (hf : ∀ d, Memory.wf d.mem = true → Memory.wf (f d).mem = true) (k : Nat) :
    ∀ ds : SMap Die, Memory.wf (SMap.get {} ds k).mem = true →
      Memory.wf (SMap.get {} (ds.map fun p => (p.1, f p.2)) k).mem = true
  | [], h => h
  | (j, d) :: ds, h => by
    by_cases hj : j = k
    · simp only [SMap.get, List.map_cons, if_pos hj] at h ⊢
      exact hf _ h
    · simp only [SMap.get, List.map_cons, if_neg hj] at h ⊢
      exact wf_get_map hf k ds h

theorem State.memWf_mapDies {s t : State} {f : Die → Die} (hf : ∀ d, Memory.wf d.mem = true → Memory.wf (f d).mem = true)
    (h : s.memWf) (e : t.dies = s.dies.map fun p => (p.1, f p.2)) : t.memWf := fun d => by
  rw [State.die, e]
  exact Die.wf_get_map hf d s.dies (h d)

theorem State.updDie_memWf {s : State} {k : Nat} {f : Die → Die}
    (hf : Memory.wf (s.die k).mem = true → Memory.wf (f (s.die k)).mem = true) (h : s.memWf) : (s.updDie k f).memWf :=
  State.memWf_updDie s k f hf h

theorem State.updMe_memWf {s : State} {f : Core → Core} (h : s.memWf) : (s.updMe f).memWf := h

theorem Die.poke_memWf {d : Die} {tier off : Nat} {bs : List Byte} {klock : Bool} (h : Memory.wf d.mem = true) :
    ∀ y, d.poke tier off bs klock = some y → Memory.wf y.mem = true :=
  fun y e => Die.poke_wf d y tier off bs klock h e

theorem State.foldl_memWf {α : Type} {f : State → α → State} {l : List α} {s : State} (hf : ∀ s a, s.memWf → (f s a).memWf)
    (h : s.memWf) : (l.foldl f s).memWf :=
  State.memWf_foldl f hf l s h

theorem Near.bind_memWf {r : Near} {f : List Byte → State → Near} (hr : r.all State.memWf)
    (hf : ∀ bs s, s.memWf → (f bs s).all State.memWf) : (r.bind f).all State.memWf :=
  Near.bind_all State.memWf r f hr hf

theorem ownerPlace_keeps {s : State} {die space : Nat} {va : W64} {n : Nat} {r w : Bool} {f : Place → State → Near}
    (hf : ∀ p x, x.memWf → (f p x).all State.memWf) (h : s.memWf) : (ownerPlace s die space va n r w f).all State.memWf :=
  ownerPlace_memWf s die space va n r w f hf h

theorem popping_memWf {t : Engine} {p q : Nat} {body : List W64 → State → Res} {s : State}
    (hb : ∀ vs x, x.memWf → (body vs x).all State.memWf) (h : s.memWf) : (popping t p q body s).all State.memWf :=
  popping_all State.memWf (fun _ _ hx => hx) hb s h

theorem issueN_memWf {t : Engine} {i : Instr} {n : State → Nat} {body : State → Res} {s : State}
    (hb : ∀ x, x.memWf → (body x).all State.memWf) (h : s.memWf) : Out.all State.memWf (issueN t i n body s) := by
  obtain ⟨u, hu, hwf⟩ := issueN_keeps State.memWf (fun _ _ hx => hx) (t := t) (i := i) (n := n) h hb
  rw [hu]
  exact hwf

theorem issueSN_memWf {i : Instr} {n : Nat} {body : State → Res} {s : State} (hb : ∀ x, x.memWf → (body x).all State.memWf)
    (h : s.memWf) : Out.all State.memWf (issueSN i n body s) := by
  obtain ⟨u, hu, hwf⟩ := issueSN_keeps State.memWf (fun _ _ hx => hx) (i := i) (n := n) h hb
  rw [hu]
  exact hwf

theorem Die.foldl_wf {α : Type} {f : Die → α → Die} {l : List α} {d : Die}
    (hf : ∀ d a, Memory.wf d.mem = true → Memory.wf (f d a).mem = true) (h : Memory.wf d.mem = true) :
    Memory.wf (l.foldl f d).mem = true := by
  induction l generalizing d with
  | nil => exact h
  | cons a l ih => exact ih (hf d a h)

theorem Near.foldl_memWf {α : Type} {f : Near → α → Near} {l : List α} {r : Near}
    (hf : ∀ r a, r.all State.memWf → (f r a).all State.memWf) (h : r.all State.memWf) : (l.foldl f r).all State.memWf := by
  induction l generalizing r with
  | nil => exact h
  | cons a l ih => exact ih (hf r a h)

theorem Served.foldl_memWf {α : Type} {f : Served → α → Served} {l : List α} {r : Served}
    (hf : ∀ r a, r.all State.memWf → (f r a).all State.memWf) (h : r.all State.memWf) : (l.foldl f r).all State.memWf := by
  induction l generalizing r with
  | nil => exact h
  | cons a l ih => exact ih (hf r a h)

theorem State.foldl_fst_memWf {α β : Type} {f : State × β → α → State × β} {l : List α} {x : State × β}
    (hf : ∀ x a, x.1.memWf → (f x a).1.memWf) (h : x.1.memWf) : (l.foldl f x).1.memWf := by
  induction l generalizing x with
  | nil => exact h
  | cons a l ih => exact ih (hf x a h)

theorem State.memWf_getD {o : Option State} {s : State} (ho : ∀ y, o = some y → y.memWf) (h : s.memWf) : (o.getD s).memWf := by
  cases o with
  | none => exact h
  | some y => exact ho y rfl

theorem Die.wf_getD {o : Option Die} {d : Die} (ho : ∀ y, o = some y → Memory.wf y.mem = true) (h : Memory.wf d.mem = true) :
    Memory.wf (o.getD d).mem = true := by
  cases o with
  | none => exact h
  | some y => exact ho y rfl

/-! ## Results that are a state or an error, and choices -/

/-- A property of what a computation gives and one of what it fails with. -/
def okOrError {ε α : Type} (P : ε → Prop) (Q : α → Prop) : Except ε α → Prop
  | .error e => P e
  | .ok a => Q a

theorem okOrError_of_eq {ε α : Type} {P : ε → Prop} {Q : α → Prop} {r x : Except ε α} (e : r = x) (h : okOrError P Q r) :
    okOrError P Q x := e ▸ h

theorem okOrError_ite {ε α : Type} {P : ε → Prop} {Q : α → Prop} {c : Prop} [Decidable c] {x y : Except ε α}
    (hx : okOrError P Q x) (hy : okOrError P Q y) : okOrError P Q (if c then x else y) := by
  split
  · exact hx
  · exact hy

theorem ite_keeps {α : Type} {P : α → Prop} {c : Prop} [Decidable c] {x y : α} (hx : P x) (hy : P y) :
    P (if c then x else y) := by
  split
  · exact hx
  · exact hy

theorem Out.all_of_next {P : State → Prop} {o : Out} {t : State} (e : o = .next t) (h : o.all P) : P t := by
  subst e
  exact h

/-! ## The state -/

theorem Res.fail_memWf {c : Cause} {tval : W64} : Res.all State.memWf (Res.fail c tval) := trivial

theorem State.updCore_memWf {s : State} {k : Nat} {f : Core → Core} (h : s.memWf) : (s.updCore k f).memWf :=
  State.memWf_setCore _ _ _ h

theorem State.setStack_memWf {s : State} {t : Engine} {st : List W64} (h : s.memWf) : (s.setStack t st).memWf :=
  State.updMe_memWf h

theorem pushing_memWf {t : Engine} {vs : List W64} {s : State} (h : s.memWf) : (pushing t vs s).memWf := State.setStack_memWf h

theorem Die.setReg_wf {d : Die} {i : Nat} {v : W64} (h : Memory.wf d.mem = true) : Memory.wf (d.setReg i v).mem = true := h

theorem Die.bumpReg_wf {d : Die} {i lo w n : Nat} (h : Memory.wf d.mem = true) : Memory.wf (d.bumpReg i lo w n).mem = true :=
  Die.setReg_wf h

theorem State.stick_memWf {s : State} {bit : Nat} (h : s.memWf) : (s.stick bit).memWf := State.updMe_memWf h

theorem State.stickIf_memWf {s : State} {b : Bool} {bit : Nat} (h : s.memWf) : (s.stickIf b bit).memWf := by
  unfold State.stickIf
  split
  · exact State.stick_memWf h
  · exact h

theorem takeTrap_memWf {s : State} {tag addr : Nat} {c : Cause} {tval : W64} (h : s.memWf) : (takeTrap s tag addr c tval).memWf :=
  State.updMe_memWf h

theorem State.preemptCore_memWf {s : State} {c : Nat} (h : s.memWf) : (s.preemptCore c).memWf := by
  unfold State.preemptCore
  split
  · exact State.updCore_memWf h
  · exact h

theorem State.updCores_memWf {s : State} {ks : List Nat} {f : Core → Core} (h : s.memWf) : (s.updCores ks f).memWf :=
  State.foldl_memWf (fun _ _ h1 => State.updCore_memWf h1) h

theorem State.bare_memWf {s : State} (h : s.memWf) : s.bare.memWf := State.updMe_memWf (State.setStack_memWf h)

theorem issue_memWf {t : Engine} {i : Instr} {n : Nat} {body : State → Res} {s : State}
    (hf : ∀ (x : State), x.memWf → Res.all State.memWf (body x)) (h : s.memWf) :
    Out.all State.memWf (issue t i n body s) :=
  issueN_memWf (fun _ h1 => hf _ h1) h

theorem issueS_memWf {i : Instr} {body : State → Res} {s : State} (hf : ∀ (x : State), x.memWf → Res.all State.memWf (body x))
    (h : s.memWf) :
    Out.all State.memWf (issueS i body s) :=
  issueSN_memWf (fun _ h1 => hf _ h1) h

theorem execIllegalWord_memWf {t : BitVec 3} {s : State} (h : s.memWf) : Out.all State.memWf (execIllegalWord t s) := by
  unfold execIllegalWord
  show State.memWf _
  split
  · exact State.updMe_memWf h
  · exact takeTrap_memWf h

/-! ## The scratchpad -/

theorem Die.warnUninit_wf {d : Die} {core tag addr cycle : Nat} (h : Memory.wf d.mem = true) :
    Memory.wf (d.warnUninit core tag addr cycle).mem = true := by
  unfold Die.warnUninit
  dsimp only
  split
  · exact Die.setReg_wf h
  · exact Die.wf_mk rfl (Die.setReg_wf (Die.setReg_wf h))

theorem State.padRead_memWf {s : State} {tag sa n : Nat} (h : s.memWf) : (s.padRead tag sa n).1.memWf := by
  unfold State.padRead
  dsimp only
  split
  · dsimp only
    split
    · exact State.updMe_memWf h
    · exact h
  · split
    · split
      · exact State.updMe_memWf h
      · exact State.updDie_memWf (fun h1 => Die.foldl_wf (fun _ _ h2 => Die.warnUninit_wf h2) h1) (State.updMe_memWf h)
    · split
      · exact h
      · exact State.updDie_memWf (fun h1 => Die.foldl_wf (fun _ _ h2 => Die.warnUninit_wf h2) h1) h

theorem withPad_memWf {s : State} {tag sa n : Nat} {f : List Byte → State → Res} (h : s.memWf)
    (hf : ∀ (a : List Byte) (x : State), x.memWf → Res.all State.memWf (f a x)) :
    Res.all State.memWf (withPad s tag sa n f) := by
  unfold withPad
  split
  next e => exact hf _ _ (State.memWf_fst e (State.padRead_memWf h))
  · exact Res.fail_memWf

/-! ## Fetch -/

theorem takeReport_memWf {s : State} {r : Report} (h : s.memWf) : (takeReport s r).memWf := takeTrap_memWf (State.updMe_memWf h)

theorem fetchAct_memWf {s : State} {t : Engine} {a : Nat} {stag : Bool} (h : s.memWf) :
    Act.all State.memWf (fetchAct s t a stag) := by
  unfold fetchAct
  dsimp only
  split
  · exact takeReport_memWf h
  · split
    · exact State.updMe_memWf h
    · split
      · split
        · exact State.updMe_memWf h
        · exact h
      · exact h

theorem engineTurn_memWf {s : State} {t : Engine} (h : s.memWf) : Act.all State.memWf (engineTurn s t) := by
  unfold engineTurn
  dsimp only
  split
  · exact h
  · split
    · split <;> exact State.memWf_setMe _ _ h
    · split
      · exact State.memWf_setMe _ _ h
      · split
        · exact State.updMe_memWf (State.memWf_setMe _ _ h)
        · split
          · split
            · exact State.updMe_memWf (State.memWf_setMe _ _ h)
            · exact fetchAct_memWf (State.memWf_setMe _ _ h)
          · split
            · split
              · exact fetchAct_memWf (State.memWf_setMe _ _ h)
              · exact h
            · split
              · exact takeReport_memWf (State.memWf_setMe _ _ h)
              · exact State.updMe_memWf (State.memWf_setMe _ _ h)
          · split
            · split <;> split <;> exact State.updMe_memWf (State.memWf_setMe _ _ h)
            · exact State.updMe_memWf (State.memWf_setMe _ _ h)
          · split
            · exact State.updMe_memWf (State.memWf_setMe _ _ h)
            · split <;> split <;> exact State.updMe_memWf (State.memWf_setMe _ _ h)
          · split
            · exact State.updMe_memWf (State.memWf_setMe _ _ h)
            · exact State.memWf_setMe _ _ h
          · exact State.updMe_memWf (State.memWf_setMe _ _ h)
          · exact takeTrap_memWf (State.memWf_setMe _ _ h)
          · exact takeTrap_memWf (State.memWf_setMe _ _ h)

theorem State.turnOf_memWf {s : State} {t : Engine} (h : s.memWf) : Act.all State.memWf (s.turnOf t) := by
  unfold State.turnOf
  split
  next e =>
    have h1 := Act.all_of_eq e (engineTurn_memWf h)
    split
    · exact State.updMe_memWf h1
    · exact h1
  · exact engineTurn_memWf h

/-! ## The vector engine -/

theorem State.updVec_memWf {s : State} {f : Vec → Vec} (h : s.memWf) : (s.updVec f).memWf := State.updMe_memWf h

theorem withSources_memWf {i : Instr} {sh : Shape} {dw dn : Nat} {f : List (List Nat) → State → Res} {s : State}
    (hf : ∀ (a : List (List Nat)) (x : State), x.memWf → Res.all State.memWf (f a x)) (h : s.memWf) :
    Res.all State.memWf (withSources i sh dw dn f s) := by
  unfold withSources
  dsimp only
  split
  · exact Res.fail_memWf
  · split
    · exact h
    · split
      · exact h
      · split
        · exact Res.fail_memWf
        · split
          all_goals
            split
            · exact h
            · exact hf _ _ (State.memWf_setMe _ _ h)

theorem runE_memWf {x : EForm} {s : State} (h : s.memWf) : Out.all State.memWf (runE x s) := by
  unfold runE
  refine issueN_memWf (fun _ h1 => ?_) h
  dsimp only
  split
  · exact Res.fail_memWf
  · exact withSources_memWf (fun _ _ h2 => State.updMe_memWf (State.stickIf_memWf h2)) h1

theorem execEMov_memWf {d : BitVec 5} {p : BitVec 1} {a : BitVec 5} {m : BitVec 3} {s : State} (h : s.memWf) :
    Out.all State.memWf (execEMov d p a m s) :=
  runE_memWf h

theorem execEAdd_memWf {d : BitVec 5} {p : BitVec 1} {a b : BitVec 5} {r : BitVec 2} {s : State} (h : s.memWf) :
    Out.all State.memWf (execEAdd d p a b r s) :=
  runE_memWf h

theorem execESub_memWf {d : BitVec 5} {p : BitVec 1} {a b : BitVec 5} {r : BitVec 2} {s : State} (h : s.memWf) :
    Out.all State.memWf (execESub d p a b r s) :=
  runE_memWf h

theorem execEMul_memWf {d : BitVec 5} {p : BitVec 1} {a b : BitVec 5} {r : BitVec 2} {s : State} (h : s.memWf) :
    Out.all State.memWf (execEMul d p a b r s) :=
  runE_memWf h

theorem execEDiv_memWf {d : BitVec 5} {p : BitVec 1} {a b : BitVec 5} {r : BitVec 2} {s : State} (h : s.memWf) :
    Out.all State.memWf (execEDiv d p a b r s) :=
  runE_memWf h

theorem execEFma_memWf {d : BitVec 5} {p : BitVec 1} {a b : BitVec 5} {neg : BitVec 1} {r : BitVec 2} {c : BitVec 5} {s : State}
    (h : s.memWf) :
    Out.all State.memWf (execEFma d p a b neg r c s) :=
  runE_memWf h

theorem execESqrt_memWf {d : BitVec 5} {p : BitVec 1} {a : BitVec 5} {r : BitVec 2} {s : State} (h : s.memWf) :
    Out.all State.memWf (execESqrt d p a r s) :=
  runE_memWf h

theorem execEMin_memWf {d : BitVec 5} {p : BitVec 1} {a b : BitVec 5} {n : BitVec 1} {s : State} (h : s.memWf) :
    Out.all State.memWf (execEMin d p a b n s) :=
  runE_memWf h

theorem execEMax_memWf {d : BitVec 5} {p : BitVec 1} {a b : BitVec 5} {n : BitVec 1} {s : State} (h : s.memWf) :
    Out.all State.memWf (execEMax d p a b n s) :=
  runE_memWf h

theorem execECmp_memWf {d : BitVec 5} {p : BitVec 1} {a b : BitVec 5} {c : BitVec 3} {s : State} (h : s.memWf) :
    Out.all State.memWf (execECmp d p a b c s) :=
  runE_memWf h

theorem execESelect_memWf {d : BitVec 5} {p : BitVec 1} {a b c : BitVec 5} {s : State} (h : s.memWf) :
    Out.all State.memWf (execESelect d p a b c s) :=
  runE_memWf h

theorem execEIadd_memWf {d : BitVec 5} {p : BitVec 1} {a b : BitVec 5} {m : BitVec 3} {s : State} (h : s.memWf) :
    Out.all State.memWf (execEIadd d p a b m s) :=
  runE_memWf h

theorem execEImul_memWf {d : BitVec 5} {p : BitVec 1} {a b : BitVec 5} {m : BitVec 3} {s : State} (h : s.memWf) :
    Out.all State.memWf (execEImul d p a b m s) :=
  runE_memWf h

theorem execELogic_memWf {d : BitVec 5} {p : BitVec 1} {a b : BitVec 5} {m : BitVec 3} {s : State} (h : s.memWf) :
    Out.all State.memWf (execELogic d p a b m s) :=
  runE_memWf h

theorem execEShift_memWf {d : BitVec 5} {p : BitVec 1} {a b : BitVec 5} {m : BitVec 3} {s : State} (h : s.memWf) :
    Out.all State.memWf (execEShift d p a b m s) :=
  runE_memWf h

theorem execESfn_memWf {d : BitVec 5} {p : BitVec 1} {a : BitVec 5} {g : BitVec 2} {s : State} (h : s.memWf) :
    Out.all State.memWf (execESfn d p a g s) :=
  runE_memWf h

theorem execERed_memWf {d : BitVec 5} {p : BitVec 1} {a : BitVec 5} {x : BitVec 1} {o : BitVec 2} {s : State} (h : s.memWf) :
    Out.all State.memWf (execERed d p a x o s) :=
  runE_memWf h

theorem execEXpose_memWf {d : BitVec 5} {p : BitVec 1} {a : BitVec 5} {s : State} (h : s.memWf) :
    Out.all State.memWf (execEXpose d p a s) :=
  runE_memWf h

theorem execEPerm_memWf {d : BitVec 5} {p : BitVec 1} {a b : BitVec 5} {m : BitVec 3} {c : BitVec 5} {sub : BitVec 8} {s : State}
    (h : s.memWf) :
    Out.all State.memWf (execEPerm d p a b m c sub s) :=
  runE_memWf h

theorem execEShape_memWf {s : State} (h : s.memWf) : Out.all State.memWf (execEShape s) := by
  unfold execEShape
  refine issue_memWf (fun _ h1 => popping_memWf (fun _ _ h2 => ?_) h1) h
  dsimp only
  split
  · exact Res.fail_memWf
  · exact State.updVec_memWf h2

theorem execEShapeGet_memWf {s : State} (h : s.memWf) : Out.all State.memWf (execEShapeGet s) :=
  issue_memWf (fun _ h1 => popping_memWf (fun _ _ h2 => pushing_memWf h2) h1) h

theorem execERep_memWf {m : BitVec 2} {n : BitVec 4} {s : State} (h : s.memWf) : Out.all State.memWf (execERep m n s) :=
  issue_memWf (fun _ h1 => State.updVec_memWf h1) h

theorem execEXq_memWf {d : BitVec 5} {p : BitVec 1} {a : BitVec 5} {m : BitVec 3} {s : State} (h : s.memWf) :
    Out.all State.memWf (execEXq d p a m s) := by
  unfold execEXq
  refine issueN_memWf (fun _ h1 => ?_) h
  dsimp only
  split
  · split
    · exact Res.fail_memWf
    · exact popping_memWf (fun _ _ h2 => pushing_memWf h2) h1
  · split
    · exact Res.fail_memWf
    · split
      · exact h1
      · exact State.updMe_memWf h1
  · split
    · exact Res.fail_memWf
    · split
      · exact h1
      · split
        · exact h1
        · split
          · exact Res.fail_memWf
          · exact State.updMe_memWf h1
  · split
    · exact Res.fail_memWf
    · refine popping_memWf (fun _ _ h2 => ?_) h1
      split
      · exact Res.fail_memWf
      · split
        · exact h2
        · exact State.updMe_memWf (pushing_memWf h2)

theorem execECvt_memWf {d : BitVec 5} {p : BitVec 1} {a b : BitVec 5} {r : BitVec 2} {o : BitVec 3} {f : BitVec 5} {s : State}
    (h : s.memWf) :
    Out.all State.memWf (execECvt d p a b r o f s) := by
  unfold execECvt
  refine issueN_memWf (fun _ h1 => ?_) h
  dsimp only
  split
  · exact Res.fail_memWf
  · exact withSources_memWf (fun _ _ h2 => State.updMe_memWf (State.stickIf_memWf h2)) h1

theorem execEAmax_memWf {s : State} (h : s.memWf) : Out.all State.memWf (execEAmax s) :=
  issue_memWf (fun _ h1 => popping_memWf (fun _ _ h2 => pushing_memWf h2) h1) h

theorem execEAmaxReset_memWf {s : State} (h : s.memWf) : Out.all State.memWf (execEAmaxReset s) :=
  issue_memWf (fun _ h1 => popping_memWf (fun _ _ h2 => State.updVec_memWf (pushing_memWf h2)) h1) h

theorem execEAmaxClear_memWf {s : State} (h : s.memWf) : Out.all State.memWf (execEAmaxClear s) :=
  issue_memWf (fun _ h1 => State.updVec_memWf h1) h

theorem execEQuant_memWf {d : BitVec 5} {p : BitVec 1} {a sd f : BitVec 5} {s : State} (h : s.memWf) :
    Out.all State.memWf (execEQuant d p a sd f s) := by
  unfold execEQuant
  refine issueN_memWf (fun _ h1 => ?_) h
  dsimp only
  split
  · exact Res.fail_memWf
  · split
    · exact h1
    · exact withSources_memWf (fun _ _ h2 => State.updMe_memWf (State.stickIf_memWf h2)) h1

theorem execETpack_memWf {d : BitVec 5} {p : BitVec 1} {a : BitVec 5} {s : State} (h : s.memWf) :
    Out.all State.memWf (execETpack d p a s) :=
  runE_memWf h

theorem execEMask_memWf {a : BitVec 5} {f : BitVec 3} {s : State} (h : s.memWf) : Out.all State.memWf (execEMask a f s) := by
  unfold execEMask
  refine issueN_memWf (fun _ h1 => ?_) h
  dsimp only
  split
  · exact State.updVec_memWf h1
  · split
    · exact Res.fail_memWf
    · split
      · exact State.updVec_memWf h1
      · split
        · exact popping_memWf (fun _ _ h2 => State.updVec_memWf h2) h1
        · exact withSources_memWf (fun _ _ h2 => State.updVec_memWf h2) h1

/-! ## The matrix engine -/

theorem State.updMat_memWf {s : State} {f : Mat → Mat} (h : s.memWf) : (s.updMat f).memWf := State.updMe_memWf h

theorem claimBody_memWf {i : Instr} {st : Nat} {s : State} (h : s.memWf) : Out.all State.memWf (claimBody i st s) := by
  unfold claimBody
  refine issue_memWf (fun _ h1 => popping_memWf (fun _ _ h2 => ?_) h1) h
  dsimp only
  split
  · exact h2
  · split
    · exact Res.fail_memWf
    · split
      · exact h2
      · split
        · exact h2
        · exact State.updMe_memWf h2

theorem execMClaim_memWf {s : State} (h : s.memWf) : Out.all State.memWf (execMClaim s) := claimBody_memWf h

theorem execMClaimR_memWf {s : State} (h : s.memWf) : Out.all State.memWf (execMClaimR s) := claimBody_memWf h

theorem execMRelease_memWf {s : State} (h : s.memWf) : Out.all State.memWf (execMRelease s) := by
  unfold execMRelease
  refine issue_memWf (fun _ h1 => popping_memWf (fun _ _ h2 => ?_) h1) h
  dsimp only
  split
  · exact Res.fail_memWf
  · split
    · exact Res.fail_memWf
    · split
      · exact h2
      · split
        · exact h2
        · exact State.updMe_memWf h2

theorem execMWload_memWf {f : BitVec 5} {s : State} (h : s.memWf) : Out.all State.memWf (execMWload f s) := by
  unfold execMWload
  refine issue_memWf (fun _ h1 => popping_memWf (fun _ _ h2 => ?_) h1) h
  dsimp only
  split
  · exact Res.fail_memWf
  · split
    · exact Res.fail_memWf
    · split
      · exact h2
      · split
        · exact h2
        · split
          · exact h2
          · exact State.updMat_memWf (State.stickIf_memWf h2)

theorem execMWloadSp_memWf {f : BitVec 5} {s : State} (h : s.memWf) : Out.all State.memWf (execMWloadSp f s) := by
  unfold execMWloadSp
  refine issue_memWf (fun _ h1 => popping_memWf (fun _ _ h2 => ?_) h1) h
  dsimp only
  split
  · exact Res.fail_memWf
  · split
    · exact Res.fail_memWf
    · split
      · exact h2
      · split
        · exact h2
        · split
          · exact h2
          · split
            · exact Res.fail_memWf
            · exact State.updMat_memWf h2

theorem execMSwap_memWf {s : State} (h : s.memWf) : Out.all State.memWf (execMSwap s) := by
  unfold execMSwap
  refine issue_memWf (fun _ h1 => ?_) h
  split
  · exact Res.fail_memWf
  · split
    · exact h1
    · split
      · exact h1
      · exact State.updMat_memWf h1

theorem mmaBody_memWf {tern : Bool} {code tile : Nat} {s : State} (h : s.memWf) :
    Res.all State.memWf (mmaBody tern code tile s) := by
  unfold mmaBody
  refine popping_memWf (fun _ _ h1 => ?_) h
  dsimp only
  split
  · exact Res.fail_memWf
  · split
    · exact h1
    · split
      · exact h1
      · split
        · exact h1
        · exact State.updMat_memWf (State.stickIf_memWf h1)

theorem execMMma_memWf {f k : BitVec 3} {s : State} (h : s.memWf) : Out.all State.memWf (execMMma f k s) :=
  issue_memWf (fun _ h1 => mmaBody_memWf h1) h

theorem execMTmma_memWf {k : BitVec 3} {s : State} (h : s.memWf) : Out.all State.memWf (execMTmma k s) :=
  issue_memWf (fun _ h1 => mmaBody_memWf h1) h

theorem accBody_memWf {tiles : List Nat} {f : Mat → Mat} {s : State} (h : s.memWf) : Res.all State.memWf (accBody tiles f s) := by
  unfold accBody
  split
  · exact h
  · split
    · exact h
    · exact State.updMat_memWf h

theorem execMAccClear_memWf {k : BitVec 3} {s : State} (h : s.memWf) : Out.all State.memWf (execMAccClear k s) :=
  issue_memWf (fun _ h1 => accBody_memWf h1) h

theorem execMAccClearpair_memWf {k : BitVec 3} {s : State} (h : s.memWf) : Out.all State.memWf (execMAccClearpair k s) :=
  issue_memWf (fun _ h1 => accBody_memWf h1) h

theorem execMAccLoad_memWf {k : BitVec 3} {s : State} (h : s.memWf) : Out.all State.memWf (execMAccLoad k s) := by
  unfold execMAccLoad
  refine issue_memWf (fun _ h1 => popping_memWf (fun _ _ h2 => ?_) h1) h
  dsimp only
  split
  · exact Res.fail_memWf
  · split
    · exact Res.fail_memWf
    · split
      · exact h2
      · split
        · exact h2
        · split
          · exact h2
          · exact accBody_memWf h2

theorem execMEpi_memWf {z : BitVec 1} {d : BitVec 2} {k : BitVec 3} {x a : BitVec 2} {f : BitVec 5} {s : State} (h : s.memWf) :
    Out.all State.memWf (execMEpi z d k x a f s) := by
  unfold execMEpi
  extract_lets scaled toSlot tile pair tiles df ed nslots occ
  refine issue_memWf (fun s hs => popping_memWf (fun vs s hs => ?_) hs) h
  extract_lets ds sc
  split
  · split
    · trivial
    · split
      · trivial
      · split
        · exact hs
        · split
          · exact hs
          · split
            · exact hs
            · split
              · exact hs
              · split
                · exact hs
                · exact State.updMe_memWf (State.stickIf_memWf hs)
  · trivial

theorem execMRoute_memWf {s : State} (h : s.memWf) : Out.all State.memWf (execMRoute s) := by
  unfold execMRoute
  refine issue_memWf (fun _ h1 => popping_memWf (fun _ _ h2 => ?_) h1) h
  dsimp only
  split
  · exact Res.fail_memWf
  · exact State.updMat_memWf h2

theorem execMRouteGet_memWf {s : State} (h : s.memWf) : Out.all State.memWf (execMRouteGet s) :=
  issue_memWf (fun _ h1 => popping_memWf (fun _ _ h2 => pushing_memWf h2) h1) h

/-! ## Memory -/

theorem Die.agedMem_wf {d : Die} (h : Memory.wf d.mem = true) : Memory.wf d.agedMem = true := by
  rw [Memory.wf_iff] at h ⊢
  obtain ⟨hfast, hcap, hwrote, hfailed, hsoft, holder⟩ := h
  refine ⟨hfast, hcap, rfl, hfailed, hsoft, fun e he => ?_⟩
  rcases List.mem_cons.mp he with rfl | he
  · exact hwrote
  · exact holder e he

theorem Die.heat_wf {d : Die} {tier off n : Nat} (h : Memory.wf d.mem = true) : Memory.wf (d.heat tier off n).mem = true := h

theorem Die.logInteg_wf {d : Die} {tier line : Nat} {scrub : Bool} (h : Memory.wf d.mem = true) :
    Memory.wf (d.logInteg tier line scrub).mem = true :=
  Die.setReg_wf h

theorem Die.allReady_wf {d : Die} (h : Memory.wf d.mem = true) : Memory.wf d.allReady.mem = true := Die.setReg_wf h

theorem Die.heatWalk_wf {d : Die} {space : Nat} {va : W64} (h : Memory.wf d.mem = true) :
    Memory.wf (d.heatWalk space va).mem = true :=
  Die.foldl_wf (fun _ _ h1 => Die.heat_wf h1) h

theorem withPlace_memWf {s : State} {va : W64} {size : Nat} {read write : Bool} {f : Place → State → Res} (h : s.memWf)
    (hf : ∀ (a : Place) (x : State), x.memWf → Res.all State.memWf (f a x)) :
    Res.all State.memWf (withPlace s va size read write f) := by
  unfold withPlace
  split
  next e => exact hf _ _ (Xlat.all_of_eq e (locate_memWf _ _ _ _ _ h))
  next e => exact Xlat.all_of_eq e (locate_memWf _ _ _ _ _ h)
  · exact Res.fail_memWf

/-! ## Pins and closures -/

theorem Die.pin_wf {d : Die} {tier frame size : Nat} (h : Memory.wf d.mem = true) :
    ∀ (y : Die), d.pin tier frame size = some y → Memory.wf y.mem = true := by
  unfold Die.pin
  dsimp only
  split
  · exact forall_none_eq
  · split
    all_goals
      split
      · exact forall_none_eq
      · exact forall_some_eq h

theorem Die.unpin_wf {d : Die} {tier frame size : Nat} (h : Memory.wf d.mem = true) :
    Memory.wf (d.unpin tier frame size).mem = true :=
  h

theorem State.tellPin_memWf {s : State} {k : PageKey} {form : Nat} (h : s.memWf) : (s.tellPin k form).memWf := by
  unfold State.tellPin
  split <;> exact h

theorem State.pinAll_memWf {s : State} {ks : List PageKey} (h : s.memWf) : ∀ (y : State), s.pinAll ks = some y → y.memWf := by
  induction ks generalizing s with
  | nil =>
    unfold State.pinAll
    exact forall_some_eq h
  | cons x ks ih =>
    unfold State.pinAll
    split
    · exact ih (State.tellPin_memWf h)
    · split
      next e =>
        have h1 := (Die.pin_wf (h _)) _ e
        exact ih (State.memWf_setDie h h1)
      · exact forall_none_eq

theorem State.unpinAll_memWf {s : State} {ks : List PageKey} (h : s.memWf) : (s.unpinAll ks).memWf := by
  unfold State.unpinAll
  refine State.foldl_memWf (fun _ _ h1 => ?_) h
  split
  · exact State.tellPin_memWf h1
  · exact State.updDie_memWf (fun h2 => Die.unpin_wf h2) h1

theorem Die.setBuf_wf {d : Die} {b : Nat} {x : LegBuf} (h : Memory.wf d.mem = true) : Memory.wf (d.setBuf b x).mem = true := by
  unfold Die.setBuf
  split <;> exact h

/-! ## Control -/

theorem pureC_memWf {i : Instr} {n p : Nat} {f : List W64 → List W64} {s : State} (h : s.memWf) :
    Out.all State.memWf (pureC i n p f s) :=
  issue_memWf (fun _ h1 => popping_memWf (fun _ _ h2 => pushing_memWf h2) h1) h

theorem binC_memWf {i : Instr} {n : Nat} {f : W64 → W64 → W64} {s : State} (h : s.memWf) : Out.all State.memWf (binC i n f s) :=
  pureC_memWf h

theorem unC_memWf {i : Instr} {n : Nat} {f : W64 → W64} {s : State} (h : s.memWf) : Out.all State.memWf (unC i n f s) :=
  pureC_memWf h

theorem State.updCtl_memWf {s : State} {f : Ctl → Ctl} (h : s.memWf) : (s.updCtl f).memWf := State.updMe_memWf h

theorem execLiteralPush_memWf {t : Engine} {i : BitVec 11} {s : State} (h : s.memWf) :
    Out.all State.memWf (execLiteralPush t i s) := by
  unfold execLiteralPush
  refine issue_memWf (fun _ h1 => ?_) h
  split
  · exact Res.fail_memWf
  · exact pushing_memWf h1

theorem execLiteralExtend_memWf {t : Engine} {i : BitVec 11} {s : State} (h : s.memWf) :
    Out.all State.memWf (execLiteralExtend t i s) :=
  issue_memWf (fun _ h1 => popping_memWf (fun _ _ h2 => pushing_memWf h2) h1) h

theorem execWait_memWf {t : Engine} {n : BitVec 6} {s : State} (h : s.memWf) : Out.all State.memWf (execWait t n s) := by
  unfold execWait
  refine issueN_memWf (fun _ h1 => ?_) h
  split
  · exact popping_memWf (fun _ _ h2 => h2) h1
  · exact h1

theorem stkOp_memWf {t : Engine} {i : Instr} {need : Nat} {grows : Bool} {f : List W64 → List W64} {s : State} (h : s.memWf) :
    Out.all State.memWf (stkOp t i need grows f s) := by
  unfold stkOp
  refine issue_memWf (fun _ h1 => ?_) h
  dsimp only
  split
  · exact Res.fail_memWf
  · exact State.setStack_memWf h1

theorem execStkDup_memWf {t : Engine} {k : BitVec 3} {s : State} (h : s.memWf) : Out.all State.memWf (execStkDup t k s) :=
  stkOp_memWf h

theorem execStkDrop_memWf {t : Engine} {k : BitVec 3} {s : State} (h : s.memWf) : Out.all State.memWf (execStkDrop t k s) :=
  stkOp_memWf h

theorem execStkSwap_memWf {t : Engine} {k : BitVec 3} {s : State} (h : s.memWf) : Out.all State.memWf (execStkSwap t k s) :=
  stkOp_memWf h

theorem execStkOver_memWf {t : Engine} {k : BitVec 3} {s : State} (h : s.memWf) : Out.all State.memWf (execStkOver t k s) :=
  stkOp_memWf h

theorem getC_memWf {i : Instr} {f : Ctl → W64} {s : State} (h : s.memWf) : Out.all State.memWf (getC i f s) :=
  issue_memWf (fun _ h1 => popping_memWf (fun _ _ h2 => pushing_memWf h2) h1) h

theorem putC_memWf {i : Instr} {f : W64 → Ctl → Ctl} {s : State} (h : s.memWf) : Out.all State.memWf (putC i f s) :=
  issue_memWf (fun _ h1 => popping_memWf (fun _ _ h2 => State.updCtl_memWf h2) h1) h

theorem execCGetX_memWf {n : BitVec 4} {s : State} (h : s.memWf) : Out.all State.memWf (execCGetX n s) := getC_memWf h

theorem execCGetP_memWf {n : BitVec 3} {s : State} (h : s.memWf) : Out.all State.memWf (execCGetP n s) := getC_memWf h

theorem execCGetPmask_memWf {s : State} (h : s.memWf) : Out.all State.memWf (execCGetPmask s) := getC_memWf h

theorem execCGetLidx_memWf {k : BitVec 2} {s : State} (h : s.memWf) : Out.all State.memWf (execCGetLidx k s) := getC_memWf h

theorem execCPutX_memWf {n : BitVec 4} {s : State} (h : s.memWf) : Out.all State.memWf (execCPutX n s) := putC_memWf h

theorem execCPutP_memWf {n : BitVec 3} {s : State} (h : s.memWf) : Out.all State.memWf (execCPutP n s) := putC_memWf h

theorem execCPutPmask_memWf {s : State} (h : s.memWf) : Out.all State.memWf (execCPutPmask s) := putC_memWf h

theorem execCAdd_memWf {s : State} (h : s.memWf) : Out.all State.memWf (execCAdd s) := binC_memWf h

theorem execCAddImm_memWf {i : BitVec 5} {s : State} (h : s.memWf) : Out.all State.memWf (execCAddImm i s) := unC_memWf h

theorem execCSub_memWf {s : State} (h : s.memWf) : Out.all State.memWf (execCSub s) := binC_memWf h

theorem execCSubImm_memWf {i : BitVec 5} {s : State} (h : s.memWf) : Out.all State.memWf (execCSubImm i s) := unC_memWf h

theorem execCAnd_memWf {s : State} (h : s.memWf) : Out.all State.memWf (execCAnd s) := binC_memWf h

theorem execCAndImm_memWf {i : BitVec 5} {s : State} (h : s.memWf) : Out.all State.memWf (execCAndImm i s) := unC_memWf h

theorem execCOr_memWf {s : State} (h : s.memWf) : Out.all State.memWf (execCOr s) := binC_memWf h

theorem execCOrImm_memWf {i : BitVec 5} {s : State} (h : s.memWf) : Out.all State.memWf (execCOrImm i s) := unC_memWf h

theorem execCXor_memWf {s : State} (h : s.memWf) : Out.all State.memWf (execCXor s) := binC_memWf h

theorem execCXorImm_memWf {i : BitVec 5} {s : State} (h : s.memWf) : Out.all State.memWf (execCXorImm i s) := unC_memWf h

theorem execCMul_memWf {s : State} (h : s.memWf) : Out.all State.memWf (execCMul s) := binC_memWf h

theorem execCMulh_memWf {s : State} (h : s.memWf) : Out.all State.memWf (execCMulh s) := binC_memWf h

theorem execCMulhu_memWf {s : State} (h : s.memWf) : Out.all State.memWf (execCMulhu s) := binC_memWf h

theorem divC_memWf {i : Instr} {u : BitVec 1} {out : DivOut → List W64} {s : State} (h : s.memWf) :
    Out.all State.memWf (divC i u out s) :=
  issue_memWf (fun _ h1 => popping_memWf (fun _ _ h2 => pushing_memWf (State.stickIf_memWf h2)) h1) h

theorem execCDiv_memWf {u : BitVec 1} {s : State} (h : s.memWf) : Out.all State.memWf (execCDiv u s) := divC_memWf h

theorem execCRem_memWf {u : BitVec 1} {s : State} (h : s.memWf) : Out.all State.memWf (execCRem u s) := divC_memWf h

theorem execCDivrem_memWf {u : BitVec 1} {s : State} (h : s.memWf) : Out.all State.memWf (execCDivrem u s) := divC_memWf h

theorem execCShift_memWf {o : BitVec 2} {s : State} (h : s.memWf) : Out.all State.memWf (execCShift o s) := binC_memWf h

theorem execCBitop_memWf {o : BitVec 2} {s : State} (h : s.memWf) : Out.all State.memWf (execCBitop o s) := unC_memWf h

theorem execCMinmax_memWf {m : BitVec 2} {s : State} (h : s.memWf) : Out.all State.memWf (execCMinmax m s) := binC_memWf h

theorem execCCmp_memWf {c : BitVec 3} {s : State} (h : s.memWf) : Out.all State.memWf (execCCmp c s) := binC_memWf h

theorem execCSetp_memWf {c n : BitVec 3} {s : State} (h : s.memWf) : Out.all State.memWf (execCSetp c n s) :=
  issue_memWf (fun _ h1 => popping_memWf (fun _ _ h2 => State.updCtl_memWf h2) h1) h

theorem execCSel_memWf {n : BitVec 3} {s : State} (h : s.memWf) : Out.all State.memWf (execCSel n s) :=
  issue_memWf (fun _ h1 => popping_memWf (fun _ _ h2 => pushing_memWf h2) h1) h

theorem execCPredCombine_memWf {d : BitVec 3} {o : BitVec 2} {s : State} (h : s.memWf) :
    Out.all State.memWf (execCPredCombine d o s) :=
  putC_memWf h

theorem execCPredSet_memWf {d : BitVec 3} {o : BitVec 2} {s : State} (h : s.memWf) : Out.all State.memWf (execCPredSet d o s) :=
  issue_memWf (fun _ h1 => State.updCtl_memWf h1) h

theorem issueSteer_memWf {i : Instr} {body : State → Except Cause (State × Nat)} {s : State}
    (hb : okOrError (fun _ => True) (fun x => x.1.memWf) (body s)) (h : s.memWf) : Out.all State.memWf (issueSteer i body s) := by
  unfold issueSteer
  dsimp only
  split
  · exact State.updMe_memWf h
  · split
    · exact takeTrap_memWf h
    · split <;> rename_i e <;> rw [e] at hb
      · exact takeTrap_memWf h
      · exact State.updMe_memWf hb

theorem branchC_memWf {i : Instr} {o : BitVec 13} {pops : Nat} {taken : State → Bool} {s : State} (h : s.memWf) :
    Out.all State.memWf (branchC i o pops taken s) := by
  refine issueSteer_memWf ?_ h
  split
  · trivial
  · exact okOrError_ite trivial h

theorem execCBr_memWf {o : BitVec 13} {s : State} (h : s.memWf) : Out.all State.memWf (execCBr o s) := branchC_memWf h

theorem execCBrT_memWf {n : BitVec 3} {o : BitVec 13} {s : State} (h : s.memWf) : Out.all State.memWf (execCBrT n o s) :=
  branchC_memWf h

theorem execCBrF_memWf {n : BitVec 3} {o : BitVec 13} {s : State} (h : s.memWf) : Out.all State.memWf (execCBrF n o s) :=
  branchC_memWf h

theorem execCBrNz_memWf {o : BitVec 13} {s : State} (h : s.memWf) : Out.all State.memWf (execCBrNz o s) := branchC_memWf h

theorem execCCall_memWf {o : BitVec 13} {s : State} (h : s.memWf) : Out.all State.memWf (execCCall o s) := by
  refine issueSteer_memWf ?_ h
  split
  · trivial
  · exact okOrError_ite trivial h

theorem execCRet_memWf {s : State} (h : s.memWf) : Out.all State.memWf (execCRet s) := by
  refine issueSteer_memWf ?_ h
  split
  · trivial
  · exact h

theorem loopBody_memWf {o : BitVec 13} {count : W64} {s : State} (h : s.memWf) : Res.all State.memWf (loopBody o count s) := by
  unfold loopBody
  dsimp only
  split
  · exact Res.fail_memWf
  · split
    · exact h
    · split
      · exact Res.fail_memWf
      · exact State.updCtl_memWf h

theorem execCLoop_memWf {o : BitVec 13} {s : State} (h : s.memWf) : Out.all State.memWf (execCLoop o s) := by
  unfold execCLoop
  refine issue_memWf (fun _ h1 => ?_) h
  split
  · exact Res.fail_memWf
  · exact popping_memWf (fun _ _ h2 => loopBody_memWf h2) h1

theorem execCLoopCount_memWf {n : BitVec 6} {o : BitVec 13} {s : State} (h : s.memWf) :
    Out.all State.memWf (execCLoopCount n o s) :=
  issue_memWf (fun _ h1 => loopBody_memWf h1) h

theorem execCSend_memWf {e : BitVec 3} {s : State} (h : s.memWf) : Out.all State.memWf (execCSend e s) := by
  unfold execCSend
  refine issue_memWf (fun _ h1 => popping_memWf (fun _ _ h2 => ?_) h1) h
  dsimp only
  split
  · exact h2
  · exact State.updCtl_memWf h2

theorem execCRecv_memWf {e : BitVec 3} {s : State} (h : s.memWf) : Out.all State.memWf (execCRecv e s) := by
  unfold execCRecv
  refine issue_memWf (fun _ h1 => ?_) h
  dsimp only
  split
  · exact Res.fail_memWf
  · split
    · exact Res.fail_memWf
    · split
      · exact h1
      · exact pushing_memWf (State.updCtl_memWf h1)

theorem execRecvHandoff_memWf {t : Engine} {s : State} (h : s.memWf) : Out.all State.memWf (execRecvHandoff t s) := by
  unfold execRecvHandoff
  dsimp only
  split
  all_goals
    split
    · exact h
    · split
      · exact takeTrap_memWf h
      · split
        · exact State.updMe_memWf h
        · split
          · exact State.updMe_memWf h
          · split <;> exact State.memWf_setMe _ _ h

/-! ## The ring -/

theorem Die.queuePacket_wf {d : Die} {p : Packet} (h : Memory.wf d.mem = true) : Memory.wf (d.queuePacket p).mem = true := h

/-! ## Scalar words -/

theorem peerLoad_memWf {s : State} {tag : Nat} {t : Engine} {p : Place} {package n : Nat} {va : W64} (h : s.memWf) :
    Got.all State.memWf (peerLoad s tag t p package n va) := by
  unfold peerLoad
  dsimp only
  split
  · split <;> exact h
  · split
    · exact h
    · exact State.memWf_mk rfl (State.updMe_memWf h)

theorem State.flushComb_memWf {s : State} {which : Comb → Bool} (h : s.memWf) : (s.flushComb which).memWf :=
  State.updDie_memWf (fun h1 => Die.foldl_wf (fun _ _ h2 => Die.queuePacket_wf h2) h1) (State.updMe_memWf h)

theorem State.keepWaiting_memWf {s : State} {core place : Nat} {copy : Option (Nat × Nat)} {die tier off n : Nat} (h : s.memWf) :
    (s.keepWaiting core place copy die tier off n).memWf := by
  unfold State.keepWaiting
  refine State.foldl_memWf (fun _ _ h1 => State.updDie_memWf (fun h2 => ?_) h1) h
  dsimp only
  split <;> exact h2

theorem State.uncached_memWf {s : State} {core die : Nat} {va : W64} {n : Nat} {write : Bool} (h : s.memWf) :
    (s.uncached core die va n write).memWf := by
  unfold State.uncached
  refine State.revokeFor_memWf _ _ _ _ _ _ _ ?_
  split
  · exact State.dropLines_memWf _ _ _ _ h
  · exact h

theorem State.farLine_memWf {s : State} {core : Nat} {a : At} (h : s.memWf) : (s.farLine core a).1.memWf := by
  unfold State.farLine
  dsimp only
  split
  · exact h
  · split
    next e => exact State.memWf_fst e (State.read_memWf _ _ _ _ _ h)
    next e =>
      have h1 := State.memWf_fst e (State.read_memWf _ _ _ _ _ h)
      refine State.updDie_memWf (fun h2 => h2) ?_
      split
      · split
        · exact h1
        · exact FarLine.writeBack_memWf _ _ h1
      · exact h1

theorem Die.storeLine_wf {d : Die} {x : FarLine} {at_ : Nat} {bs : List Byte} (h : Memory.wf d.mem = true) :
    Memory.wf (d.storeLine x at_ bs).mem = true :=
  h

theorem State.farRead_memWf {s : State} {core : Nat} {a : At} {n mt : Nat} (h : s.memWf) : (s.farRead core a n mt).1.memWf := by
  unfold State.farRead
  split
  · exact State.read_memWf _ _ _ _ _ (State.uncached_memWf h)
  · refine State.foldl_fst_memWf (fun _ _ h1 => ?_) h
    split
    · exact h1
    · split <;> rename_i e <;> exact State.memWf_fst e (State.farLine_memWf h1)

theorem State.farWrite_memWf {s : State} {core : Nat} {a : At} {bs : List Byte} {mt : Nat} (h : s.memWf) :
    (s.farWrite core a bs mt).1.memWf := by
  unfold State.farWrite
  dsimp only
  split
  · exact State.write_memWf _ _ _ _ _ _ (State.uncached_memWf h)
  · split
    · refine State.foldl_fst_memWf (fun _ _ h1 => ?_) h
      split
      · exact h1
      · split
        next e => exact State.memWf_fst e (State.farLine_memWf h1)
        next e => exact State.updDie_memWf (fun h3 => Die.storeLine_wf h3) (State.memWf_fst e (State.farLine_memWf h1))
    · exact State.write_memWf _ _ _ _ _ _ (State.uncached_memWf h)

theorem readPlace_memWf {tag : Nat} {t : Engine} {p : Place} {va : W64} {n cls : Nat} {s : State} (h : s.memWf) :
    Got.all State.memWf (readPlace tag t p va n cls s) := by
  unfold readPlace
  split
  · split
    · exact h
    · exact State.flushComb_memWf h
  · split
    · exact h
    · split
      · exact peerLoad_memWf h
      · split
        · exact State.turnAway_memWf _ _ _ _ _ h
        · split <;> rename_i e <;> exact State.memWf_fst e (State.farRead_memWf h)

theorem fetchSpan_memWf {tag : Nat} {t : Engine} {va : W64} {al n cls : Nat} {s : State} (h : s.memWf) :
    Got.all State.memWf (fetchSpan tag t va al n cls s) := by
  unfold fetchSpan
  split
  next e => exact readPlace_memWf (Xlat.all_of_eq e (locate_memWf _ _ _ _ _ h))
  next e => exact Xlat.all_of_eq e (locate_memWf _ _ _ _ _ h)
  next e => exact Xlat.all_of_eq e (locate_memWf _ _ _ _ _ h)

theorem loadSpan_memWf {t : Engine} {va : W64} {al n cls : Nat} {f : List Byte → State → Res} {s : State}
    (hf : ∀ (a : List Byte) (x : State), x.memWf → Res.all State.memWf (f a x)) (h : s.memWf) :
    Res.all State.memWf (loadSpan t va al n cls f s) := by
  unfold loadSpan
  split
  next e => exact hf _ _ (State.updMe_memWf (Got.all_of_eq e (fetchSpan_memWf h)))
  next e => exact Got.all_of_eq e (fetchSpan_memWf h)
  · exact Res.fail_memWf

theorem loadBytes_memWf {t : Engine} {va : W64} {n cls : Nat} {f : List Byte → State → Res} {s : State}
    (hf : ∀ (a : List Byte) (x : State), x.memWf → Res.all State.memWf (f a x)) (h : s.memWf) :
    Res.all State.memWf (loadBytes t va n cls f s) :=
  loadSpan_memWf (fun _ _ h1 => hf _ _ h1) h

theorem postBytes_memWf {t : Engine} {va : W64} {bs : List Byte} {cls : Nat} {s : State} (h : s.memWf) :
    Res.all State.memWf (postBytes t va bs cls s) :=
  withPlace_memWf h (fun _ _ h1 => State.updMe_memWf h1)

theorem execCLd_memWf {c : BitVec 2} {sgn : BitVec 1} {z : BitVec 2} {s : State} (h : s.memWf) :
    Out.all State.memWf (execCLd c sgn z s) := by
  unfold execCLd
  refine issueN_memWf (fun _ h1 => ?_) h
  split
  · exact Res.fail_memWf
  · exact popping_memWf (fun _ _ h2 => loadBytes_memWf (fun _ _ h3 => pushing_memWf h3) h2) h1

theorem execCSt_memWf {c z : BitVec 2} {s : State} (h : s.memWf) : Out.all State.memWf (execCSt c z s) := by
  unfold execCSt
  refine issue_memWf (fun _ h1 => ?_) h
  split
  · exact Res.fail_memWf
  · exact popping_memWf (fun _ _ h2 => postBytes_memWf h2) h1

theorem peerLine_memWf {s : State} {core : Nat} {a : Posted} {q : Nat} (h : s.memWf) : (peerLine s core a q).memWf := by
  unfold peerLine
  dsimp only
  split
  · exact State.updCore_memWf h
  · split
    · exact h
    · exact State.memWf_mk rfl (State.updCore_memWf h)

theorem peerWrite_memWf {s : State} {core : Nat} {a : Posted} {q : Nat} {bs : List Byte} (h : s.memWf) :
    (peerWrite s core a q bs).memWf := by
  unfold peerWrite
  dsimp only
  split
  · split
    · exact State.updCore_memWf h
    · exact h
  · exact State.memWf_mk rfl (State.updCore_memWf h)

theorem performPosted_memWf {s0 : State} {core : Nat} {a : Posted} (h : s0.memWf) : (performPosted s0 core a).memWf := by
  unfold performPosted
  dsimp only
  split
  · exact peerWrite_memWf h
  · exact peerLine_memWf h
  · split
    next e => exact State.memWf_fst e (State.farWrite_memWf (State.updCore_memWf h))
    next e => exact State.updCore_memWf (State.memWf_fst e (State.farWrite_memWf (State.updCore_memWf h)))
  · split <;> rename_i e <;> exact State.updCore_memWf (State.memWf_fst e (State.farRead_memWf (State.updCore_memWf h)))

theorem execFreeModeRequestService_memWf {k : Nat} {s : State} (h : s.memWf) :
    Out.all State.memWf (execFreeModeRequestService k s) := by
  unfold execFreeModeRequestService
  split
  · exact h
  · split
    · exact performPosted_memWf (State.updMe_memWf h)
    · exact h

/-! ## Far memory -/

theorem State.noteFault_memWf {s : State} {die space : Nat} {va : W64} {write : Bool} (h : s.memWf) :
    (s.noteFault die space va write).memWf := by
  unfold State.noteFault
  refine State.updDie_memWf (fun h1 => ?_) h
  split <;> exact h1

theorem State.unheated_memWf {s old : State} (h : s.memWf) : (s.unheated old).memWf :=
  State.foldl_memWf (fun _ _ h1 => State.updDie_memWf (fun h2 => h2) h1) h

/-! ## Registers -/

theorem State.writeCf_memWf {s : State} {i : Nat} {v : W64} (h : s.memWf) : (s.writeCf i v).memWf := by
  unfold State.writeCf
  dsimp only
  split
  · exact State.memWf_mk rfl (State.updMe_memWf (State.updMe_memWf h))
  · exact State.updMe_memWf h

theorem State.setPk_memWf {s : State} {i : Nat} {v : W64} (h : s.memWf) : (s.setPk i v).memWf := h

theorem State.reply_memWf {s : State} {r : Reply} (h : s.memWf) : (s.reply r).memWf := h

theorem State.portAnswer_memWf {s : State} {w : RegWrite} {e : State} (h' : e.memWf) : (s.portAnswer w e).memWf := by
  unfold State.portAnswer
  split
  · exact h'
  · split <;> exact State.reply_memWf h'

theorem applyWrite_memWf {s : State} {kind : RegKind} {f : RegWrite → State → State} (h : s.memWf)
    (hf : ∀ (a : RegWrite) (x : State), x.memWf → (f a x).memWf) :
    Out.all State.memWf (applyWrite s kind f) := by
  unfold applyWrite
  split
  · split
    · exact State.portAnswer_memWf (hf _ _ h)
    · exact h
  · exact h

theorem execRegisterWrite_memWf {s : State} (h : s.memWf) : Out.all State.memWf (execRegisterWrite s) := by
  unfold execRegisterWrite
  refine applyWrite_memWf h (fun _ _ h1 => ?_)
  dsimp only
  split
  · exact State.updDie_memWf (fun h2 => Die.wf_mk rfl (Die.setReg_wf h2)) h1
  · exact h1

theorem execCfSlipWrite_memWf {s : State} (h : s.memWf) : Out.all State.memWf (execCfSlipWrite s) :=
  applyWrite_memWf h (fun _ _ h1 => State.updCore_memWf h1)

theorem execHashMaskWrite_memWf {s : State} (h : s.memWf) : Out.all State.memWf (execHashMaskWrite s) := by
  unfold execHashMaskWrite
  refine applyWrite_memWf h (fun _ _ h1 => State.updDie_memWf (fun h2 => ?_) h1)
  split
  · exact h2
  · exact Die.remask_wf _ _ _ h2

theorem execRegionWrite_memWf {s : State} (h : s.memWf) : Out.all State.memWf (execRegionWrite s) := by
  unfold execRegionWrite
  refine applyWrite_memWf h (fun _ _ h1 => State.updDie_memWf (fun h2 => ?_) h1)
  split
  · exact h2
  · exact Die.setReg_wf h2

theorem execSgFaultClear_memWf {s : State} (h : s.memWf) : Out.all State.memWf (execSgFaultClear s) := by
  unfold execSgFaultClear
  refine applyWrite_memWf h (fun _ _ h1 => State.updDie_memWf (fun h2 => ?_) h1)
  split
  · exact h2
  · exact Die.setReg_wf h2

theorem execUninitClear_memWf {s : State} (h : s.memWf) : Out.all State.memWf (execUninitClear s) := by
  unfold execUninitClear
  refine applyWrite_memWf h (fun _ _ h1 => State.updDie_memWf (fun h2 => ?_) h1)
  split
  · exact h2
  · exact Die.setReg_wf (Die.setReg_wf h2)

theorem execErrorLogClear_memWf {s : State} (h : s.memWf) : Out.all State.memWf (execErrorLogClear s) := by
  unfold execErrorLogClear
  refine applyWrite_memWf h (fun _ _ h1 => State.updDie_memWf (fun h2 => ?_) h1)
  split
  · exact Die.setReg_wf h2
  · exact h2

theorem execCCsr_memWf {g : BitVec 6} {i : BitVec 13} {s : State} (h : s.memWf) : Out.all State.memWf (execCCsr g i s) := by
  unfold execCCsr
  refine issue_memWf (fun _ h1 => ?_) h
  split
  · exact Res.fail_memWf
  · exact popping_memWf (fun _ _ h2 => pushing_memWf h2) h1

theorem execCCsw_memWf {g : BitVec 6} {i : BitVec 13} {s : State} (h : s.memWf) : Out.all State.memWf (execCCsw g i s) := by
  unfold execCCsw
  refine issue_memWf (fun _ h1 => ?_) h
  dsimp only
  split
  · exact Res.fail_memWf
  · refine popping_memWf (fun _ _ h2 => ?_) h1
    split
    · exact State.writeCf_memWf h2
    · split
      · exact Res.fail_memWf
      · split
        · exact Res.fail_memWf
        · exact h2

/-! ## Leg tables -/

theorem Load.bind_memWf {α β : Type} {r : Load α} {f : α → State → Load β} (h : Load.all State.memWf r)
    (hf : ∀ (a : α) (x : State), x.memWf → Load.all State.memWf (f a x)) :
    Load.all State.memWf (r.bind f) := by
  unfold Load.bind
  split
  · exact hf _ _ h
  · exact h
  · exact h

theorem imageWords_memWf {s : State} {space va n : Nat} (h : s.memWf) : Load.all State.memWf (imageWords s space va n) := by
  unfold imageWords
  split <;> rename_i e <;> exact Near.all_of_eq e (millRead_memWf _ _ _ _ h)

theorem readTimelines_memWf {space va len : Nat} {xs : List (Nat × Nat)} {s : State} (h : s.memWf) :
    Load.all State.memWf (readTimelines space va len xs s) := by
  induction xs generalizing s with
  | nil =>
    unfold readTimelines
    exact h
  | cons x xs ih =>
    unfold readTimelines
    dsimp only
    split
    · exact h
    · refine Load.bind_memWf (imageWords_memWf h) (fun _ _ h1 => ?_)
      split
      · exact h1
      · exact Load.bind_memWf (ih h1) (fun _ _ h2 => h2)

theorem xlatPages_memWf {space : Nat} {es : List XlatEntry} {s : State} (h : s.memWf) :
    Load.all State.memWf (xlatPages space es s) := by
  induction es generalizing s with
  | nil =>
    unfold xlatPages
    exact h
  | cons x es ih =>
    unfold xlatPages
    dsimp only
    split
    · exact State.noteFault_memWf h
    · exact h
    · split
      all_goals
        split
        · exact h
        · exact Load.bind_memWf (ih h) (fun _ _ h1 => h1)

theorem loadHead_memWf {s : State} {space va : Nat} (h : s.memWf) : Load.all State.memWf (loadHead s space va) :=
  imageWords_memWf h

theorem loadOutline_memWf {s : State} {space va : Nat} (h : s.memWf) : Load.all State.memWf (loadOutline s space va) := by
  unfold loadOutline
  refine Load.bind_memWf (loadHead_memWf h) (fun _ _ h1 => ?_)
  dsimp only
  split
  · exact h1
  · split
    · exact h1
    · exact Load.bind_memWf (imageWords_memWf h1) (fun _ _ h2 => h2)

theorem loadTable_memWf {s : State} {die space va : Nat} (h : s.memWf) : Load.all State.memWf (loadTable s die space va) := by
  unfold loadTable
  refine Load.bind_memWf (loadHead_memWf h) (fun _ _ h1 => ?_)
  dsimp only
  split
  · exact h1
  · split
    · exact h1
    · split
      · exact h1
      · refine Load.bind_memWf (imageWords_memWf h1) (fun _ _ h2 => Load.bind_memWf (readTimelines_memWf h2) (fun _ _ h3 => ?_))
        split
        · exact h3
        · split
          · exact h3
          · split
            · exact h3
            · refine Load.bind_memWf (xlatPages_memWf h3) (fun _ _ h4 => ?_)
              split <;> exact h4

/-! ## Legs -/

theorem Die.updTrav_wf {d : Die} {f : Trav → Trav} (h : Memory.wf d.mem = true) : Memory.wf (d.updTrav f).mem = true := h

theorem execSLtload_memWf {b : BitVec 1} {s : State} (h : s.memWf) : Out.all State.memWf (execSLtload b s) := by
  unfold execSLtload
  refine issueS_memWf (fun _ h1 => popping_memWf (fun _ _ h2 => ?_) h1) h
  dsimp only
  split
  · exact Res.fail_memWf
  · split
    · exact Res.fail_memWf
    · split
      · exact Res.fail_memWf
      · split
        · split
          · exact h2
          · exact Res.fail_memWf
        · refine State.updDie_memWf (fun h3 => ?_) (State.unpinAll_memWf h2)
          split
          · exact Die.wf_mk rfl (Die.setBuf_wf h3)
          · exact Die.setBuf_wf h3

theorem Die.markBad_wf {d : Die} {b : Nat} {c : Cause} {off cycle : Nat} (h : Memory.wf d.mem = true) :
    Memory.wf (d.markBad b c off cycle).mem = true :=
  Die.setReg_wf (Die.setBuf_wf h)

theorem Die.noteHead_wf {d : Die} {b : Nat} {t : LegTable} (h : Memory.wf d.mem = true) :
    Memory.wf (d.noteHead b t).mem = true := by
  unfold Die.noteHead
  refine Die.setBuf_wf ?_
  split <;> exact h

theorem Die.noteReady_wf {d : Die} {b : Nat} {t : LegTable} {pages : List (Nat × TlbEntry)} {cycle : Nat}
    (h : Memory.wf d.mem = true) :
    Memory.wf (d.noteReady b t pages cycle).mem = true := by
  unfold Die.noteReady
  refine Die.setBuf_wf ?_
  split <;> exact h

theorem State.forTraverse_memWf {s : State} (h : s.memWf) : s.forTraverse.memWf := by
  unfold State.forTraverse
  split
  · split
    · exact h
    · exact h
  · exact h

theorem State.noteOutline_memWf {s : State} {die b : Nat} (h : s.memWf) : (s.noteOutline die b).memWf := by
  unfold State.noteOutline
  dsimp only
  split
  · exact h
  · split
    next e =>
      exact State.memWf_mk rfl (State.updDie_memWf (fun h2 => h2) (State.unheated_memWf
        (Load.all_of_eq e (loadOutline_memWf (State.forTraverse_memWf h)))))
    · exact h

theorem execLegTableLoaded_memWf {b : BitVec 1} {s : State} (h : s.memWf) : Out.all State.memWf (execLegTableLoaded b s) := by
  unfold execLegTableLoaded
  dsimp only
  split
  · exact h
  · split
    · split
      next e => exact State.memWf_mk rfl (State.unheated_memWf (Load.all_of_eq e (loadHead_memWf (State.forTraverse_memWf h))))
      next e =>
        exact State.memWf_mk rfl (State.updDie_memWf (fun h2 => Die.markBad_wf h2)
          (Load.all_of_eq e (loadHead_memWf (State.forTraverse_memWf h))))
      next e =>
        exact State.memWf_mk rfl (State.noteOutline_memWf (State.updDie_memWf (fun h2 => Die.noteHead_wf h2)
          (Load.all_of_eq e (loadHead_memWf (State.forTraverse_memWf h)))))
    · split
      next e =>
        exact State.memWf_mk rfl (State.noteOutline_memWf (State.unheated_memWf
          (Load.all_of_eq e (loadTable_memWf (State.forTraverse_memWf h)))))
      next e =>
        exact State.memWf_mk rfl (State.updDie_memWf (fun h2 => Die.markBad_wf h2)
          (Load.all_of_eq e (loadTable_memWf (State.forTraverse_memWf h))))
      next e =>
        have h1 := Load.all_of_eq e (loadTable_memWf (State.forTraverse_memWf h))
        split
        · exact h1
        next e2 => exact State.memWf_mk rfl (State.updDie_memWf (fun h3 => Die.noteReady_wf h3) ((State.pinAll_memWf h1) _ e2))

theorem State.testBuf_memWf {s : State} {d b : Nat} (h : s.memWf) : (s.testBuf d b).memWf := by
  unfold State.testBuf
  dsimp only
  split
  · exact h
  · split
    · exact h
    · exact State.updDie_memWf (fun h1 => Die.markBad_wf h1) (State.unpinAll_memWf h)

theorem State.openTrav_memWf {s : State} {d tree first : Nat} (h : s.memWf) : (s.openTrav d tree first).memWf :=
  State.testBuf_memWf (State.testBuf_memWf (State.updDie_memWf (fun h1 => h1) h))

theorem signBody_memWf {tree : Nat} {vote : Bool} {s : State} (h : s.memWf) : Res.all State.memWf (signBody tree vote s) := by
  unfold signBody
  dsimp only
  split
  · exact Res.fail_memWf
  · split
    · split
      · exact Res.fail_memWf
      · split
        · exact State.flushComb_memWf h
        · exact State.updMe_memWf (State.updDie_memWf (fun h1 => Die.updTrav_wf h1) h)
    · split
      · exact Res.fail_memWf
      · split
        · exact State.updDie_memWf (fun h1 => Die.setBuf_wf h1) h
        · split
          · exact Res.fail_memWf
          · split
            · exact State.flushComb_memWf h
            · exact State.updMe_memWf (State.updDie_memWf (fun h1 => Die.updTrav_wf h1) (State.openTrav_memWf h))

theorem peerTrap_memWf {s : State} {p : Nat} (h : s.memWf) : Out.all State.memWf (peerTrap s p) :=
  takeTrap_memWf (State.updMe_memWf h)

theorem execSSign_memWf {k : BitVec 4} {s : State} (h : s.memWf) : Out.all State.memWf (execSSign k s) := by
  unfold execSSign
  split
  · exact peerTrap_memWf h
  · exact issueS_memWf (fun _ h1 => popping_memWf (fun _ _ h2 => signBody_memWf h2) h1) h

theorem State.updMember_memWf {s : State} {k : Nat} {f : Core → Core} (h : s.memWf) : (s.updMember k f).memWf := by
  unfold State.updMember
  split
  · exact State.updCore_memWf h
  · exact State.memWf_mapDies (f := fun d => { d with saved := d.saved.map fun x => x.updMember k f }) (fun _ hd => hd) h rfl

theorem State.updMembers_memWf {s : State} {ks : List Nat} {f : Core → Core} (h : s.memWf) : (s.updMembers ks f).memWf :=
  State.foldl_memWf (fun _ _ h1 => State.updMember_memWf h1) h

theorem State.noteOverrun_memWf {s : State} {d tLast : Nat} (h : s.memWf) : (s.noteOverrun d tLast).memWf := by
  unfold State.noteOverrun
  dsimp only
  split
  · exact h
  · exact State.updMembers_memWf (State.updDie_memWf (fun h1 => Die.bumpReg_wf h1) h)

theorem State.unlockSet_memWf {s : State} {d : Nat} (h : s.memWf) : (s.unlockSet d).memWf := by
  unfold State.unlockSet
  refine State.foldl_memWf (fun _ _ h1 => ?_) h
  split
  · exact h1
  · exact State.updDie_memWf (fun h2 => h2) h1

theorem State.lockSet_memWf {s : State} {d : Nat} {buf : LegBuf} (h : s.memWf) : (s.lockSet d buf).memWf :=
  State.foldl_memWf (fun _ _ h1 => State.updDie_memWf (fun h2 => h2) h1) (State.unlockSet_memWf h)

theorem State.startLeg_memWf {s : State} {d b ts : Nat} (h : s.memWf) : (s.startLeg d b ts).memWf :=
  State.updMembers_memWf (State.updDie_memWf (fun h1 => Die.wf_mk rfl (Die.updTrav_wf (Die.setReg_wf h1)))
    (State.lockSet_memWf h))

theorem State.endTrav_memWf {s : State} {d b : Nat} {cause : Option Cause} (h : s.memWf) : (s.endTrav d b cause).memWf :=
  State.updMembers_memWf (State.updDie_memWf (fun h1 => Die.updTrav_wf h1) h)

theorem Die.setVote_wf {d : Die} {v : Bool} (h : Memory.wf d.mem = true) : Memory.wf (d.setVote v).mem = true := Die.setReg_wf h

theorem execLegStart_memWf {s : State} (h : s.memWf) : Out.all State.memWf (execLegStart s) := by
  unfold execLegStart
  split
  · exact h
  · extract_lets cl ds b unprepared st refused ends s1 s2 s3 s4
    have h1 : s1.memWf := State.foldl_memWf (fun _ _ hx => State.noteOverrun_memWf hx) h
    have h2 : s2.memWf := State.foldl_memWf (fun _ _ hx => State.updDie_memWf (fun hd => Die.setVote_wf hd) hx) h1
    have h3 : s3.memWf :=
      ite_keeps (State.foldl_memWf (fun _ _ hx => State.updDie_memWf (fun hd => Die.bumpReg_wf hd) hx) h2) h2
    have h4 : s4.memWf := h3
    clear_value unprepared refused ends s4
    split
    · exact h
    · refine ite_keeps (P := Out.all State.memWf) h ?_
      split
      · exact State.foldl_memWf (fun _ _ hx => State.endTrav_memWf hx) h4
      · split
        · exact State.foldl_memWf (fun _ _ hx => State.endTrav_memWf hx) h4
        · exact State.foldl_memWf (fun _ _ hx => State.startLeg_memWf hx) h4

theorem State.leaveTrav_memWf {s : State} (h : s.memWf) : s.leaveTrav.memWf := by
  unfold State.leaveTrav
  dsimp only
  split
  · exact State.updDie_memWf (fun h1 => h1) (State.unpinAll_memWf (State.unlockSet_memWf
      (State.updDie_memWf (fun h2 => Die.updTrav_wf h2) (State.updMe_memWf h))))
  · exact State.updDie_memWf (fun h1 => Die.updTrav_wf h1) (State.updMe_memWf h)

theorem State.enterLeg_memWf {s : State} {ts : Nat} (h : s.memWf) : (s.enterLeg ts).memWf := by
  unfold State.enterLeg
  dsimp only
  split
  · exact State.updMe_memWf h
  · exact State.updDie_memWf (fun h1 => Die.bumpReg_wf h1) (State.updMe_memWf h)

theorem execSLeg_memWf {s : State} (h : s.memWf) : Out.all State.memWf (execSLeg s) := by
  unfold execSLeg
  dsimp only
  split
  · exact peerTrap_memWf h
  · split
    · exact takeTrap_memWf (State.updMe_memWf h)
    · exact issueS_memWf (fun _ h1 => Res.fail_memWf) h
  · refine issueSN_memWf (fun _ h1 => ?_) h
    split
    · exact Res.fail_memWf
    · split
      · exact State.leaveTrav_memWf h1
      · split
        · exact Res.fail_memWf
        · split
          · exact h1
          · split
            · exact h1
            · exact State.enterLeg_memWf h1

theorem execSSlack_memWf {s : State} (h : s.memWf) : Out.all State.memWf (execSSlack s) := by
  unfold execSSlack
  dsimp only
  split
  · exact takeTrap_memWf (State.updMe_memWf h)
  · refine issueS_memWf (fun _ h1 => ?_) h
    split
    · exact Res.fail_memWf
    · split
      · exact h1
      · exact State.updMe_memWf h1

theorem State.serveBurst_memWf {s : State} {d off tag : Nat} {write : Bool} (h : s.memWf) :
    (s.serveBurst d off tag write).memWf := by
  unfold State.serveBurst
  dsimp only
  split
  · exact State.updDie_memWf (fun h1 => h1) h
  · split
    next e =>
      have h1 := State.memWf_fst e (by
        split
        · exact State.updDie_memWf (fun h2 => h2) h
        · exact State.read_memWf _ _ _ _ _ (State.updDie_memWf (fun h3 => h3) h))
      refine State.foldl_memWf (fun _ _ h4 => State.updCore_memWf h4) ?_
      split
      · exact State.read_memWf _ _ _ _ _ h1
      · exact h1
    next e =>
      have h1 := State.memWf_fst e (by
        split
        · exact State.updDie_memWf (fun h2 => h2) h
        · exact State.read_memWf _ _ _ _ _ (State.updDie_memWf (fun h3 => h3) h))
      split
      · exact State.write_memWf _ _ _ _ _ _ h1
      · exact State.foldl_memWf (fun _ _ h4 => State.updCore_memWf h4) h1

theorem State.owedWaits_memWf {s : State} (h : s.memWf) : s.owedWaits.memWf :=
  State.foldl_memWf (fun _ _ h1 => State.foldl_memWf (fun _ _ h2 => State.updCore_memWf h2) h1) h

theorem Die.refreshBank_wf {d : Die} {stack pch bank : Nat} (h : Memory.wf d.mem = true) :
    Memory.wf (d.refreshBank stack pch bank).mem = true :=
  h

theorem State.owe_memWf {s : State} {d : Nat} {o : Nat × Nat × Bool} (h : s.memWf) :
    (s.updDie d fun x => { x with timed := { x.timed with owed := x.timed.owed ++ [o] } }).memWf :=
  State.updDie_memWf (fun hd => hd) h

theorem State.runCommand_memWf {s : State} {d stack pch : Nat} {c : TCmd} (h : s.memWf) : (s.runCommand d stack pch c).memWf := by
  unfold State.runCommand
  extract_lets die
  split
  · exact State.updDie_memWf (fun hd => hd) h
  · exact State.updDie_memWf (fun hd => hd) h
  · exact State.updDie_memWf (fun hd => hd) h
  · exact State.updDie_memWf (fun hd => Die.refreshBank_wf hd) h
  · exact State.updDie_memWf (fun hd => Die.foldl_wf (fun _ _ => Die.refreshBank_wf) hd) h
  · split
    · exact h
    · extract_lets hit reqs owedHere off full
      generalize full = o
      cases reqs with
      | nil =>
        cases o with
        | none => exact h
        | some o => exact State.owe_memWf h
      | cons q rest => exact ite_keeps (P := State.memWf) (State.owe_memWf h) (State.serveBurst_memWf h)

theorem execTimelineCommand_memWf {s : State} (h : s.memWf) : Out.all State.memWf (execTimelineCommand s) := by
  unfold execTimelineCommand
  dsimp only
  split
  · split
    · exact h
    · exact State.runCommand_memWf (State.updDie_memWf (fun h1 => h1) h)
  · exact h

theorem execLegTimedEnd_memWf {s : State} (h : s.memWf) : Out.all State.memWf (execLegTimedEnd s) := by
  unfold execLegTimedEnd
  dsimp only
  split
  · exact h
  · split
    all_goals
      split
      · exact h
      · exact State.updDie_memWf (fun h1 => h1) h

theorem execOwedCommandService_memWf {s : State} (h : s.memWf) : Out.all State.memWf (execOwedCommandService s) := by
  unfold execOwedCommandService
  extract_lets d
  generalize s.timedOver s.myDie = b
  split
  · split
    · split
      · exact h
      · exact State.serveBurst_memWf h
    · exact h
  · extract_lets coming
    split
    · exact h
    · exact State.serveBurst_memWf (State.updDie_memWf (fun hd => hd) h)

theorem execRefreshTick_memWf {sel : BitVec 1} {s : State} (h : s.memWf) : Out.all State.memWf (execRefreshTick sel s) := by
  unfold execRefreshTick
  dsimp only
  split
  · exact State.updDie_memWf (fun h1 => h1) h
  · exact h

theorem Die.payRefresh_wf {d : Die} {stack : Nat} (h : Memory.wf d.mem = true) : Memory.wf (d.payRefresh stack).mem = true :=
  Die.wf_mk rfl h

theorem Die.signStation_wf {d : Die} {x cycle : Nat} (h : Memory.wf d.mem = true) :
    Memory.wf (d.signStation x cycle).mem = true :=
  Die.updTrav_wf h

theorem execControllerSignoff_memWf {sel : BitVec 1} {s : State} (h : s.memWf) :
    Out.all State.memWf (execControllerSignoff sel s) := by
  unfold execControllerSignoff
  dsimp only
  split
  · exact State.updDie_memWf (fun h1 => Die.wf_mk rfl (Die.signStation_wf (Die.payRefresh_wf h1))) h
  · split
    · exact State.updDie_memWf (fun h1 => Die.wf_mk rfl (Die.updTrav_wf (Die.payRefresh_wf h1))) h
    · exact h

theorem execHeldRefresh_memWf {sel : BitVec 1} {s : State} (h : s.memWf) : Out.all State.memWf (execHeldRefresh sel s) := by
  unfold execHeldRefresh
  dsimp only
  split
  · exact State.updDie_memWf (fun h1 => Die.updTrav_wf (Die.wf_mk rfl (Die.foldl_wf
      (fun _ _ h2 => Die.foldl_wf (fun _ _ h3 => Die.refreshBank_wf h3) h2) h1))) h
  · exact h

theorem execStationSignoff_memWf {s : State} (h : s.memWf) : Out.all State.memWf (execStationSignoff s) := by
  unfold execStationSignoff
  dsimp only
  split
  · exact State.updDie_memWf (fun h1 => Die.signStation_wf h1) h
  · split
    · exact h
    · split
      all_goals
        split
        · exact h
        · split
          · exact State.memWf_mk rfl (State.updDie_memWf (fun h1 => Die.updTrav_wf h1) h)
          · exact h

theorem execClosureLimitExpiry_memWf {s : State} (h : s.memWf) : Out.all State.memWf (execClosureLimitExpiry s) := by
  unfold execClosureLimitExpiry
  dsimp only
  split
  · exact h
  · split
    · exact h
    · exact State.foldl_memWf (fun _ _ h1 => State.preemptCore_memWf h1) h

/-! ## Access -/

theorem State.askBursts_memWf {s : State} {tag va off n : Nat} {write : Option (List (Option Byte))} (h : s.memWf) :
    (s.askBursts tag va off n write).memWf :=
  State.updDie_memWf (fun h1 => h1) h

theorem State.takeRun_memWf {s : State} {tag off n : Nat} (h : s.memWf) : ∀ y, s.takeRun tag off n = some y → y.1.memWf := by
  intro y hy
  obtain ⟨x, -, rfl⟩ := Option.map_eq_some_iff.mp hy
  exact h

theorem State.streamWaits_memWf {s : State} {g : Nat} (h : s.memWf) : (s.streamWaits g).memWf := State.updMe_memWf h

theorem runBytes_memWf {s : State} {g a n : Nat} {x : Stream} (h : s.memWf) : (runBytes s g x a n).1.all State.memWf := by
  unfold runBytes
  split
  · split
    · exact h
    · split
      · exact h
      · exact State.padRead_memWf (State.updMe_memWf h)
  · have hx := locate_memWf s (w64 a) x.unit true false h
    dsimp only
    split <;> rename_i e <;> rw [e] at hx
    · exact State.streamWaits_memWf hx
    · exact hx
    · split
      · split
        next e' => exact State.takeRun_memWf hx _ e'
        next => exact hx
      · exact readPlace_memWf hx

theorem scaleByte_memWf {s : State} {g : Nat} {x : Stream} {j : Nat} (h : s.memWf) : Got.all State.memWf (scaleByte s g x j) := by
  unfold scaleByte
  dsimp only
  split
  · split
    · exact h
    · split
      · exact h
      · split <;> rename_i e <;> exact State.memWf_fst e (State.padRead_memWf h)
  · exact fetchSpan_memWf h

theorem readScales_memWf {g n j : Nat} {x : Stream} {s : State} {acc : List (Option Nat)} (h : s.memWf) :
    (readScales g x n j s acc).s.memWf ∧ ∀ r, (readScales g x n j s acc).stop = some r → r.all State.memWf := by
  induction n generalizing j s acc with
  | zero => exact ⟨h, forall_none_eq⟩
  | succ n ih =>
    unfold readScales
    split
    · exact ih h
    · have hb := scaleByte_memWf (g := g) (x := x) (j := j) h
      split
      next e => exact ih (Got.all_of_eq e hb)
      next => exact ⟨h, forall_some_eq hb⟩

theorem settleStop_memWf {s : State} {g : Nat} {stop : Option Got} (h : s.memWf)
    (h' : ∀ (y : Got), stop = some y → Got.all State.memWf y) :
    (settleStop s g stop).memWf := by
  unfold settleStop
  split
  · exact State.updMe_memWf h
  · exact h

theorem aheadRun_memWf {s : State} {g : Nat} (h : s.memWf) : (aheadRun s g).memWf := by
  unfold aheadRun
  dsimp only
  split
  · exact h
  · split
    · split
      · exact h
      · exact State.updMe_memWf h
    · split
      next e =>
        have h1 := Xlat.all_of_eq e (locate_memWf _ _ _ _ _ h)
        split
        · exact State.updMe_memWf (State.askBursts_memWf h1)
        · exact h1
      next e =>
        have h1 := Xlat.all_of_eq e (locate_memWf _ _ _ _ _ h)
        split
        · exact h1
        · exact State.streamWaits_memWf h1
      · exact h

theorem loadRun_memWf {s : State} {g : Nat} (h : s.memWf) : (loadRun s g).memWf := by
  unfold loadRun
  extract_lets x j0 at_ j1 sc
  split
  · exact h
  next a _ =>
    split
    · exact h
    · split
      · exact State.streamWaits_memWf h
      · have hsc := readScales_memWf (g := g) (x := x) (n := j1 - j0) (j := j0) (acc := [])
            (State.updMe_memWf (f := fun k => k.takePorts (x.scalePorts j0 j1)) h)
        change sc.s.memWf ∧ ∀ r, sc.stop = some r → r.all State.memWf at hsc
        obtain ⟨hs, hstop⟩ := hsc
        split
        next e => exact State.streamWaits_memWf (hstop _ e)
        next =>
          have hb := runBytes_memWf (g := g) (x := x) (a := a) (n := x.runBytes j0 j1) hs
          split <;> rename_i e <;> rw [e] at hb
          · exact hb
          · exact hb
          · exact ite_keeps (P := State.memWf)
              (State.updMe_memWf (State.updMe_memWf (State.stickIf_memWf (State.stickIf_memWf hb))))
              (settleStop_memWf (State.updMe_memWf (State.stickIf_memWf (State.stickIf_memWf hb))) hstop)

theorem storeBytes_memWf {s : State} {g : Nat} {x : Stream} {a : Nat} {p : Option Place} {bs : List (Option Byte)} (h : s.memWf) :
    (storeBytes s g x a p bs).memWf := by
  unfold storeBytes
  split
  · exact State.updMe_memWf h
  · split
    · exact State.askBursts_memWf h
    · exact State.updMe_memWf h

theorem storeRun_memWf {s : State} {g : Nat} (h : s.memWf) : (storeRun s g).memWf := by
  unfold storeRun
  extract_lets x es j0
  split
  · exact State.streamWaits_memWf h
  · split
    · exact h
    · extract_lets stop0 stop j1
      split
      · exact h
      next a _ =>
        extract_lets go
        have hgo : ∀ t p, t.memWf → (go t p).memWf := fun t p ht => by
          have hsc := readScales_memWf (g := g) (x := x) (n := j1 - j0) (j := j0) (acc := [])
            (State.updMe_memWf (f := fun k => k.takePorts (x.scalePorts j0 j1)) ht)
          obtain ⟨hs, hstop⟩ := hsc
          dsimp only [go]
          split
          next e => exact State.streamWaits_memWf (hstop _ e)
          next =>
            exact settleStop_memWf (stop := (readScales _ _ _ _ _ _).stop)
              (State.updMe_memWf (State.stickIf_memWf (storeBytes_memWf hs))) hstop
        split
        · split
          · exact h
          · split
            · exact h
            · split
              · exact h
              · exact ite_keeps (State.streamWaits_memWf h) (hgo _ _ h)
        · have hl := locate_memWf s (w64 a) x.unit false true h
          split <;> rename_i e <;> rw [e] at hl
          · exact State.streamWaits_memWf hl
          · exact hl
          · exact hgo _ _ hl

theorem State.streamStep_memWf {s : State} {g : Nat} (h : s.memWf) : (s.streamStep g).memWf := by
  unfold State.streamStep
  dsimp only
  split
  · exact h
  · split
    · exact State.updMe_memWf h
    · split
      · exact State.streamWaits_memWf (State.updMe_memWf h)
      · split
        · exact State.updMe_memWf h
        · split
          · exact loadRun_memWf (aheadRun_memWf (State.updMe_memWf h))
          · exact storeRun_memWf (State.updMe_memWf h)

theorem execStreamRun_memWf {g : BitVec 4} {s : State} (h : s.memWf) : Out.all State.memWf (execStreamRun g s) := by
  unfold execStreamRun
  split
  · exact State.streamStep_memWf h
  · exact h

theorem execStreamDrained_memWf {g : BitVec 4} {s : State} (h : s.memWf) : Out.all State.memWf (execStreamDrained g s) := by
  unfold execStreamDrained
  dsimp only
  split
  · exact State.updMe_memWf h
  · exact h

theorem execASfld_memWf {g : BitVec 4} {i : BitVec 5} {s : State} (h : s.memWf) : Out.all State.memWf (execASfld g i s) := by
  unfold execASfld
  refine issue_memWf (fun _ h1 => popping_memWf (fun _ _ h2 => ?_) h1) h
  dsimp only
  split
  · exact Res.fail_memWf
  · exact State.updMe_memWf h2

theorem execASgo_memWf {g : BitVec 4} {s : State} (h : s.memWf) : Out.all State.memWf (execASgo g s) := by
  unfold execASgo
  refine issue_memWf (fun _ h1 => ?_) h
  dsimp only
  split
  · exact Res.fail_memWf
  · exact State.updMe_memWf h1

theorem execASstop_memWf {g : BitVec 4} {s : State} (h : s.memWf) : Out.all State.memWf (execASstop g s) := by
  unfold execASstop
  refine issue_memWf (fun _ h1 => ?_) h
  split
  · exact h1
  · exact State.updMe_memWf h1

theorem execASstopDrain_memWf {g : BitVec 4} {s : State} (h : s.memWf) : Out.all State.memWf (execASstopDrain g s) := by
  unfold execASstopDrain
  refine issue_memWf (fun _ h1 => ?_) h
  split <;> exact h1

theorem execASpos_memWf {g : BitVec 4} {s : State} (h : s.memWf) : Out.all State.memWf (execASpos g s) :=
  issue_memWf (fun _ h1 => popping_memWf (fun _ _ h2 => pushing_memWf h2) h1) h

theorem execASposSet_memWf {g : BitVec 4} {s : State} (h : s.memWf) : Out.all State.memWf (execASposSet g s) := by
  unfold execASposSet
  refine issue_memWf (fun _ h1 => popping_memWf (fun _ _ h2 => ?_) h1) h
  dsimp only
  split
  · exact Res.fail_memWf
  · exact State.updMe_memWf h2

theorem withLine_memWf {sa : W64} {r : Res} (h : Res.all State.memWf r) : Res.all State.memWf (withLine sa r) := by
  unfold withLine
  split
  · exact Res.fail_memWf
  · split
    · exact Res.fail_memWf
    · exact h

theorem padWord_memWf {write : Bool} {sa n : Nat} {f : State → Res} {s : State}
    (hf : ∀ (x : State), x.memWf → Res.all State.memWf (f x)) (h : s.memWf) :
    Res.all State.memWf (padWord write sa n f s) := by
  unfold padWord
  split
  · exact h
  · exact hf _ (State.updMe_memWf h)

theorem execALdq_memWf {q : BitVec 2} {s : State} (h : s.memWf) : Out.all State.memWf (execALdq q s) := by
  unfold execALdq
  refine issue_memWf (fun _ h1 => popping_memWf (fun _ _ h2 => withLine_memWf ?_) h1) h
  split
  · exact Res.fail_memWf
  · split
    · exact h2
    · exact padWord_memWf (fun _ h3 => withPad_memWf h3 (fun _ _ h4 => State.updMe_memWf h4)) h2

theorem execAStq_memWf {q : BitVec 1} {s : State} (h : s.memWf) : Out.all State.memWf (execAStq q s) := by
  unfold execAStq
  refine issue_memWf (fun _ h1 => popping_memWf (fun _ _ h2 => withLine_memWf ?_) h1) h
  split
  · exact Res.fail_memWf
  · split
    · exact h2
    · split
      · exact h2
      · exact padWord_memWf (fun _ h3 => State.updMe_memWf h3) h2

theorem execALdg_memWf {c : BitVec 2} {s : State} (h : s.memWf) : Out.all State.memWf (execALdg c s) := by
  unfold execALdg
  refine issue_memWf (fun _ h1 => popping_memWf (fun _ _ h2 => ?_) h1) h
  dsimp only
  split
  · exact Res.fail_memWf
  · refine withPlace_memWf h2 (fun _ _ h3 => withLine_memWf ?_)
    split
    · exact h3
    · exact State.updMe_memWf h3

theorem execAStg_memWf {c : BitVec 2} {s : State} (h : s.memWf) : Out.all State.memWf (execAStg c s) := by
  unfold execAStg
  refine issue_memWf (fun _ h1 => popping_memWf (fun _ _ h2 => ?_) h1) h
  dsimp only
  split
  · exact Res.fail_memWf
  · refine withPlace_memWf h2 (fun _ _ h3 => withLine_memWf ?_)
    split
    · exact h3
    · exact padWord_memWf (fun _ h4 => withPad_memWf h4 (fun _ _ h5 => State.updMe_memWf h5)) h3

theorem withWords_memWf {sa n : W64} {f : State → Res} {s : State} (hf : ∀ (x : State), x.memWf → Res.all State.memWf (f x))
    (h : s.memWf) :
    Res.all State.memWf (withWords sa n f s) := by
  unfold withWords
  split
  · exact Res.fail_memWf
  · split
    · exact Res.fail_memWf
    · split
      · exact h
      · exact padWord_memWf (fun _ h1 => hf _ h1) h

theorem execAAlloc_memWf {s : State} (h : s.memWf) : Out.all State.memWf (execAAlloc s) :=
  issueN_memWf (fun _ h1 => popping_memWf (fun _ _ h2 => withWords_memWf (fun _ h3 => State.updMe_memWf h3) h2) h1) h

theorem execAValidCnt_memWf {s : State} (h : s.memWf) : Out.all State.memWf (execAValidCnt s) :=
  issueN_memWf (fun _ h1 => popping_memWf (fun _ _ h2 => withWords_memWf (fun _ h3 => pushing_memWf h3) h2) h1) h

theorem execAValidFirst_memWf {s : State} (h : s.memWf) : Out.all State.memWf (execAValidFirst s) :=
  issueN_memWf (fun _ h1 => popping_memWf (fun _ _ h2 => withWords_memWf (fun _ h3 => pushing_memWf h3) h2) h1) h

theorem execAValidSet_memWf {s : State} (h : s.memWf) : Out.all State.memWf (execAValidSet s) :=
  issueN_memWf (fun _ h1 => popping_memWf (fun _ _ h2 => withWords_memWf (fun _ h3 => State.updMe_memWf h3) h2) h1) h

theorem execAAgen_memWf {g : BitVec 4} {s : State} (h : s.memWf) : Out.all State.memWf (execAAgen g s) := by
  unfold execAAgen
  refine issue_memWf (fun _ h1 => popping_memWf (fun _ _ h2 => ?_) h1) h
  dsimp only
  split
  · exact Res.fail_memWf
  · exact pushing_memWf h2

theorem execAAlu_memWf {o : BitVec 3} {s : State} (h : s.memWf) : Out.all State.memWf (execAAlu o s) :=
  issue_memWf (fun _ h1 => popping_memWf (fun _ _ h2 => pushing_memWf h2) h1) h

theorem execAXqCount_memWf {q : BitVec 3} {s : State} (h : s.memWf) : Out.all State.memWf (execAXqCount q s) :=
  issue_memWf (fun _ h1 => popping_memWf (fun _ _ h2 => pushing_memWf h2) h1) h

theorem execAXqFlush_memWf {q : BitVec 3} {s : State} (h : s.memWf) : Out.all State.memWf (execAXqFlush q s) := by
  unfold execAXqFlush
  refine issue_memWf (fun _ h1 => ?_) h
  split
  · exact Res.fail_memWf
  · exact State.updMe_memWf h1

theorem execAXqDrop_memWf {q : BitVec 3} {s : State} (h : s.memWf) : Out.all State.memWf (execAXqDrop q s) := by
  unfold execAXqDrop
  refine issue_memWf (fun _ h1 => ?_) h
  split
  · exact Res.fail_memWf
  · exact State.updMe_memWf h1

theorem execAXqPut_memWf {q : BitVec 3} {s : State} (h : s.memWf) : Out.all State.memWf (execAXqPut q s) := by
  unfold execAXqPut
  refine issue_memWf (fun _ h1 => ?_) h
  dsimp only
  split
  · exact Res.fail_memWf
  · refine popping_memWf (fun _ _ h2 => ?_) h1
    split
    · exact Res.fail_memWf
    · split
      · exact h2
      · exact State.updMe_memWf h2

/-! ## Planes -/

theorem Die.setGroup_wf {d : Die} {g : Nat} {x : Group} (h : Memory.wf d.mem = true) : Memory.wf (d.setGroup g x).mem = true := h

theorem Die.planeStore_wf {d : Die} {core place ca : Nat} {bs : List (Option Byte)} {pri : Option Nat}
    (h : Memory.wf d.mem = true) :
    Memory.wf (d.planeStore core place ca bs pri).mem = true := by
  unfold Die.planeStore
  dsimp only
  split
  · exact h
  · refine Die.foldl_wf (fun _ _ h1 => ?_) h
    split <;> exact h1

theorem State.planeWait_memWf {s : State} {n : Nat} (h : s.memWf) : (s.planeWait n).memWf := State.updMe_memWf h

theorem State.pld_memWf {s : State} {ca n : Nat} {dest : Option (Nat × Nat)} (h : s.memWf) : (s.pld ca n dest).memWf :=
  State.updMe_memWf (State.planeWait_memWf h)

theorem execAPld_memWf {s : State} (h : s.memWf) : Out.all State.memWf (execAPld s) := by
  unfold execAPld
  refine issueN_memWf (fun _ h1 => popping_memWf (fun _ _ h2 => ?_) h1) h
  dsimp only
  split
  · exact Res.fail_memWf
  · split
    · exact Res.fail_memWf
    · exact State.pld_memWf h2

theorem execAPldQueue_memWf {q : BitVec 2} {s : State} (h : s.memWf) : Out.all State.memWf (execAPldQueue q s) := by
  unfold execAPldQueue
  refine issue_memWf (fun _ h1 => popping_memWf (fun _ _ h2 => ?_) h1) h
  dsimp only
  split
  · exact Res.fail_memWf
  · split
    · exact Res.fail_memWf
    · split
      · exact Res.fail_memWf
      · split
        · exact h2
        · exact State.pld_memWf h2

theorem withRegion_memWf {s : State} {ca : Nat} {align : Nat → Nat} {pri : Option W64} {bound : Bool} {f : W64 → Res}
    (hf : ∀ (a : W64), Res.all State.memWf (f a)) :
    Res.all State.memWf (withRegion s ca align pri bound f) := by
  unfold withRegion
  dsimp only
  split
  · exact Res.fail_memWf
  · split
    · exact Res.fail_memWf
    · split
      · exact Res.fail_memWf
      · split
        all_goals
          split
          · exact Res.fail_memWf
          · exact hf _

theorem pstBody_memWf {pri : Option W64} {ca : Nat} {v : W64} {s : State} (h : s.memWf) :
    Res.all State.memWf (pstBody pri ca v s) := by
  unfold pstBody
  refine withRegion_memWf (fun _ => ?_)
  dsimp only
  split
  · exact Res.fail_memWf
  · exact State.updDie_memWf (fun h1 => Die.planeStore_wf h1) (State.planeWait_memWf h)

theorem execAPst_memWf {s : State} (h : s.memWf) : Out.all State.memWf (execAPst s) :=
  issue_memWf (fun _ h1 => popping_memWf (fun _ _ h2 => pstBody_memWf h2) h1) h

theorem execAPstPri_memWf {s : State} (h : s.memWf) : Out.all State.memWf (execAPstPri s) :=
  issue_memWf (fun _ h1 => popping_memWf (fun _ _ h2 => pstBody_memWf h2) h1) h

theorem pstQueueBody_memWf {sq : Nat} {pri : Option W64} {ca : Nat} {s : State} (h : s.memWf) :
    Res.all State.memWf (pstQueueBody sq pri ca s) := by
  unfold pstQueueBody
  refine withRegion_memWf (fun _ => ?_)
  dsimp only
  split
  · exact h
  · split
    · exact Res.fail_memWf
    · split
      · exact Res.fail_memWf
      · exact State.updDie_memWf (fun h1 => Die.planeStore_wf h1) (State.planeWait_memWf (State.updMe_memWf h))

theorem execAPstQueue_memWf {q : BitVec 1} {s : State} (h : s.memWf) : Out.all State.memWf (execAPstQueue q s) :=
  issue_memWf (fun _ h1 => popping_memWf (fun _ _ h2 => pstQueueBody_memWf h2) h1) h

theorem execAPstPriQueue_memWf {q : BitVec 1} {s : State} (h : s.memWf) : Out.all State.memWf (execAPstPriQueue q s) :=
  issue_memWf (fun _ h1 => popping_memWf (fun _ _ h2 => pstQueueBody_memWf h2) h1) h

theorem Die.dropStores_wf {d : Die} {g : Nat} (h : Memory.wf d.mem = true) : Memory.wf (d.dropStores g).mem = true := h

theorem Die.flip_wf {d : Die} {g : Nat} (h : Memory.wf d.mem = true) : Memory.wf (d.flip g).mem = true := by
  unfold Die.flip
  refine Die.dropStores_wf (Die.foldl_wf (fun _ _ h1 => ?_) h)
  dsimp only
  split
  · exact h1
  · refine Die.wf_mk rfl ?_
    split
    · exact Die.setReg_wf h1
    · exact h1

theorem Die.countStep_wf {d : Die} {g : Nat} (h : Memory.wf d.mem = true) : Memory.wf (d.countStep g).mem = true :=
  Die.setReg_wf h

theorem State.stepDone_memWf {s : State} {g : Nat} {cores : List Nat} (h : s.memWf) : (s.stepDone g cores).memWf :=
  State.foldl_memWf (fun _ _ h1 => State.updCore_memWf h1) h

theorem execStepSettle_memWf {g : BitVec 4} {s : State} (h : s.memWf) : Out.all State.memWf (execStepSettle g s) := by
  unfold execStepSettle
  dsimp only
  split
  · exact h
  · split
    · exact State.stepDone_memWf (State.updDie_memWf (fun h1 => Die.countStep_wf (Die.setGroup_wf (Die.dropStores_wf h1)))
        (State.foldl_memWf (fun _ _ h2 => State.updCore_memWf h2) h))
    · split
      · exact State.foldl_memWf (fun _ _ h1 => State.updCore_memWf h1) (State.updDie_memWf (fun h2 => Die.setReg_wf h2)
          (State.updDie_memWf (fun h3 => Die.setGroup_wf h3) (State.foldl_memWf (fun _ _ h4 => State.updCore_memWf h4) h)))
      · exact State.stepDone_memWf (State.updDie_memWf (fun h1 => Die.countStep_wf (Die.setGroup_wf (Die.flip_wf h1)))
          (State.foldl_memWf (fun _ _ h2 => State.updCore_memWf h2) h))

theorem execStepAbsenceLimit_memWf {g : BitVec 4} {s : State} (h : s.memWf) : Out.all State.memWf (execStepAbsenceLimit g s) := by
  unfold execStepAbsenceLimit
  dsimp only
  split
  · exact h
  · exact State.foldl_memWf (fun _ _ h1 => State.preemptCore_memWf h1) h

theorem Die.clearRegion_wf {d : Die} {zero : Bool} {j : Nat} (h : Memory.wf d.mem = true) :
    Memory.wf (d.clearRegion zero j).mem = true :=
  h

theorem Die.formGroup_wf {d : Die} {die g : Nat} {members : List Nat} {regions : List (Nat × W64)} (h : Memory.wf d.mem = true) :
    Memory.wf (d.formGroup die g members regions).mem = true :=
  Die.setGroup_wf (Die.setReg_wf (Die.setReg_wf (Die.foldl_wf (fun _ _ h1 => Die.setReg_wf h1)
    (Die.foldl_wf (fun _ _ h2 => Die.clearRegion_wf (Die.setReg_wf h2)) h))))

theorem Die.memberGone_wf {d : Die} {core : Nat} {killed : Bool} (h : Memory.wf d.mem = true) :
    Memory.wf (d.memberGone core killed).mem = true := by
  unfold Die.memberGone
  dsimp only
  split
  · exact h
  · split
    all_goals
      split
      · exact Die.wf_mk rfl (Die.setReg_wf (Die.foldl_wf (fun _ _ h1 => Die.setReg_wf (Die.clearRegion_wf h1)) h))
      · refine Die.setGroup_wf ?_
        split
        · exact Die.setReg_wf h
        · exact h

/-! ## Copies -/

theorem State.updKop_memWf {s : State} {f : Kop → Kop} (h : s.memWf) : (s.updKop f).memWf := State.updMe_memWf h

theorem setK_memWf {i : Instr} {p : Nat} {f : List W64 → Kop → Option Kop} {s : State} (h : s.memWf) :
    Out.all State.memWf (setK i p f s) := by
  unfold setK
  refine issue_memWf (fun _ h1 => popping_memWf (fun _ _ h2 => ?_) h1) h
  split
  · exact State.updKop_memWf h2
  · exact Res.fail_memWf

theorem execKGeoDim_memWf {k : BitVec 3} {s : State} (h : s.memWf) : Out.all State.memWf (execKGeoDim k s) := setK_memWf h

theorem execKGeoRank_memWf {s : State} (h : s.memWf) : Out.all State.memWf (execKGeoRank s) := setK_memWf h

theorem execKGeoSpace_memWf {s : State} (h : s.memWf) : Out.all State.memWf (execKGeoSpace s) := setK_memWf h

theorem execKGeoSig_memWf {s : State} (h : s.memWf) : Out.all State.memWf (execKGeoSig s) := setK_memWf h

theorem execKGeoClear_memWf {s : State} (h : s.memWf) : Out.all State.memWf (execKGeoClear s) := setK_memWf h

theorem execKConvSrc_memWf {s : State} (h : s.memWf) : Out.all State.memWf (execKConvSrc s) := setK_memWf h

theorem execKConvDst_memWf {s : State} (h : s.memWf) : Out.all State.memWf (execKConvDst s) := setK_memWf h

theorem execKCnt_memWf {s : State} (h : s.memWf) : Out.all State.memWf (execKCnt s) := by
  unfold execKCnt
  refine issue_memWf (fun _ h1 => popping_memWf (fun _ _ h2 => ?_) h1) h
  dsimp only
  split
  · exact Res.fail_memWf
  · split
    · exact Res.fail_memWf
    · exact State.updKop_memWf h2

theorem execKCntGet_memWf {s : State} (h : s.memWf) : Out.all State.memWf (execKCntGet s) :=
  issue_memWf (fun _ h1 => popping_memWf (fun _ _ h2 => pushing_memWf h2) h1) h

theorem execKFollow_memWf {s : State} (h : s.memWf) : Out.all State.memWf (execKFollow s) := by
  unfold execKFollow
  refine issue_memWf (fun _ h1 => popping_memWf (fun _ _ h2 => ?_) h1) h
  dsimp only
  split
  · exact Res.fail_memWf
  · split
    · split
      · split
        · exact Res.fail_memWf
        · exact State.updKop_memWf h2
      · split
        all_goals
          split
          · exact Res.fail_memWf
          · exact State.updKop_memWf h2
    · exact Res.fail_memWf

theorem State.tripBack_memWf {s : State} {a : Nat} (h : s.memWf) : (s.tripBack a).memWf := by
  unfold State.tripBack
  split
  · exact h
  · exact State.updMe_memWf h

theorem State.tripAsk_memWf {s : State} {a : Nat} (h : s.memWf) : (s.tripAsk a).memWf := by
  unfold State.tripAsk
  split
  · exact h
  · exact State.updMe_memWf h

theorem askPage_memWf {s : State} {t : Engine} {package addr : Nat} {write : Bool} {va : W64} (h : s.memWf) :
    Got.all State.memWf (askPage s t package addr write va) := by
  unfold askPage
  dsimp only
  split
  · split <;> exact h
  · split
    · exact h
    · exact State.memWf_mk rfl (State.updMe_memWf h)

theorem collectPages_memWf {t : Engine} {s : State} {xs : List (Nat × Nat)} {ps : List CopyPage} (h : s.memWf) :
    Pages.all State.memWf (collectPages t s xs ps) := by
  induction xs generalizing s ps with
  | nil =>
    unfold collectPages
    exact h
  | cons x xs ih =>
    unfold collectPages
    dsimp only
    split
    · exact ih h
    · split
      next e => exact State.tripAsk_memWf (Xlat.all_of_eq e (locate_memWf _ _ _ _ _ h))
      · exact trivial
      next e =>
        have h1 := Xlat.all_of_eq e (locate_memWf _ _ _ _ _ h)
        split
        · exact h1
        · split
          · exact State.tripBack_memWf h1
          · split
            next e2 =>
              have h2 := Got.all_of_eq e2 (by
                split
                · exact askPage_memWf h1
                · exact h1)
              exact ih h2
            next e2 =>
              refine Got.all_of_eq e2 ?_
              split
              · exact askPage_memWf h1
              · exact h1
            · exact trivial

theorem State.keepPages_memWf {s : State} {ps : List CopyPage} (h : s.memWf) : (s.keepPages ps).memWf := State.updKop_memWf h

theorem Copy.askReads_memWf {c : Copy} {s : State} (h : s.memWf) : (c.askReads s).1.memWf := by
  unfold Copy.askReads
  dsimp only
  split
  · exact h
  · refine State.foldl_fst_memWf (fun _ _ h1 => ?_) h
    split
    · exact h1
    · split
      · exact State.updDie_memWf (fun h2 => h2) h1
      · exact h1

theorem State.submit_memWf {s : State} {c : Copy} (h : s.memWf) : (s.submit c).memWf := State.updMe_memWf (Copy.askReads_memWf h)

theorem copyBody_memWf {s : State} (h : s.memWf) : Res.all State.memWf (copyBody s) := by
  unfold copyBody
  refine popping_memWf (fun _ _ h1 => ?_) h
  dsimp only
  split
  all_goals
    split
    all_goals
      split
      · exact Res.fail_memWf
      · split
        · exact Res.fail_memWf
        · split
          · exact Res.fail_memWf
          · split
            · exact Res.fail_memWf
            · split
              · exact Res.fail_memWf
              · split
                next e => exact State.keepPages_memWf (Pages.all_of_eq e (collectPages_memWf h1))
                · exact Res.fail_memWf
                next e =>
                  have h2 := Pages.all_of_eq e (collectPages_memWf h1)
                  split
                  · exact Res.fail_memWf
                  · split
                    · exact State.keepPages_memWf h2
                    · split
                      · exact State.keepPages_memWf h2
                      next e2 => exact State.submit_memWf ((State.pinAll_memWf h2) _ e2)

theorem execKCopy_memWf {s : State} (h : s.memWf) : Out.all State.memWf (execKCopy s) :=
  issue_memWf (fun _ h1 => copyBody_memWf h1) h

theorem Copy.waited_memWf {c : Copy} {s : State} (h : s.memWf) : (c.waited s).memWf := by
  unfold Copy.waited
  split
  · exact State.updMe_memWf h
  · exact h

theorem Copy.keepWaiting_memWf {c : Copy} {s : State} {q : Place} {n : Nat} (h : s.memWf) : (c.keepWaiting s q n).memWf :=
  State.keepWaiting_memWf h

theorem Copy.atCommons_memWf {c : Copy} {s : State} (h : s.memWf) : (c.atCommons s).memWf := State.updMe_memWf h

theorem Copy.fromPeer_memWf {c : Copy} {s : State} {package off n a : Nat} (h : s.memWf) :
    Taken.all State.memWf (c.fromPeer s package off n a) := by
  unfold Copy.fromPeer
  dsimp only
  split
  · split <;> exact State.updMe_memWf h
  · split <;> exact h

theorem Copy.readRun_memWf {c : Copy} {s : State} {src : Option Nat} {n : Nat} (h : s.memWf) :
    (c.readRun s src n).all State.memWf := by
  have hw : (c.waited s).memWf := Copy.waited_memWf h
  unfold Copy.readRun
  split
  · exact h
  · split
    · exact hw
    · split
      · split
        · exact hw
        · exact State.padRead_memWf (State.updMe_memWf h)
      · split
        · exact hw
        · exact h
      · split
        · exact h
        · exact h
      · split
        · exact h
        · split
          · split
            · exact Copy.fromPeer_memWf h
            · exact h
          · split
            · split
              next e => exact State.takeRun_memWf h _ e
              next => exact h
            · split
              · exact Copy.waited_memWf (Copy.keepWaiting_memWf h)
              · split
                · exact ite_keeps (P := State.memWf) hw h
                · split
                  next e => exact State.memWf_fst e (State.farRead_memWf h)
                  next e => exact State.memWf_fst e (State.farRead_memWf h)

theorem Copy.readNext_memWf {c : Copy} {s : State} (h : s.memWf) : (c.readNext s).1.memWf := by
  unfold Copy.readNext
  split
  · exact h
  · extract_lets src shared at_
    clear_value src
    split
    · exact h
    · split
      next e => exact Taken.all_of_eq e (Copy.readRun_memWf h)
      next e => exact Taken.all_of_eq e (Copy.readRun_memWf h)
      next bs stop t c' e =>
        have ht : t.memWf := Taken.all_of_eq e (Copy.readRun_memWf h)
        have hk : (if shared then t.updKop fun x => { x with runAt := t.cycle + 1 } else t).memWf :=
          ite_keeps (State.updKop_memWf ht) ht
        dsimp only
        split
        · exact hk
        · exact hk

theorem Copy.readAll_memWf {n : Nat} {c : Copy} {s : State} (h : s.memWf) : (c.readAll n s).1.memWf := by
  induction n generalizing c s with
  | zero => exact h
  | succ n ih =>
    unfold Copy.readAll
    split
    next e =>
      have ht := State.memWf_fst e (Copy.readNext_memWf h)
      exact ite_keeps (P := fun r : Moving => r.1.memWf) ht (ih ht)
    next => exact Copy.readNext_memWf h

theorem Die.planeCopy_wf {d : Die} {core place eb ca : Nat} {bs : List Byte} (h : Memory.wf d.mem = true) :
    Memory.wf (d.planeCopy core place eb ca bs).mem = true :=
  Die.foldl_wf (fun _ _ h1 => Die.planeStore_wf h1) h

theorem Copy.putGlobal_memWf {c : Copy} {s : State} {a : Nat} {bs : List Byte} (h : s.memWf) :
    ∀ (y : State × Bool), c.putGlobal s a bs = some y → y.1.memWf := by
  unfold Copy.putGlobal
  split
  · exact forall_none_eq
  · split
    · split
      · exact forall_some_eq h
      · exact forall_none_eq
    · split
      · exact forall_some_eq (State.askBursts_memWf h)
      · split
        · exact forall_none_eq
        · exact forall_some_eq (State.farWrite_memWf h)

theorem Copy.put_memWf {c : Copy} {s : State} {m : Move} (h : s.memWf) :
    ∀ (y : State × Bool), c.put s m = some y → y.1.memWf := by
  unfold Copy.put
  split
  · exact forall_some_eq h
  · split
    · exact forall_none_eq
    · split
      · split
        · exact forall_none_eq
        · exact forall_some_eq (State.updMe_memWf h)
      · split
        · exact forall_none_eq
        · exact forall_some_eq (State.updMe_memWf h)
      · exact forall_some_eq (Copy.atCommons_memWf (State.updDie_memWf (fun h1 => Die.planeCopy_wf h1) h))
      · exact Copy.putGlobal_memWf h

theorem Copy.putWaits_memWf {c : Copy} {s : State} {m : Move} (h : s.memWf) : (c.putWaits s m).memWf := by
  unfold Copy.putWaits
  dsimp only
  split
  · split
    · split
      · exact Copy.keepWaiting_memWf h
      · exact Copy.waited_memWf (Copy.keepWaiting_memWf h)
    · split
      · exact h
      · exact Copy.waited_memWf h
  · split
    · exact Copy.waited_memWf h
    · exact h

theorem Copy.writeDue_memWf {ms : List Move} {c : Copy} {s : State} (h : s.memWf) : (c.writeDue ms s).1.memWf := by
  induction ms generalizing c s with
  | nil => exact h
  | cons m ms ih =>
    unfold Copy.writeDue
    split
    · exact h
    · split
      next => exact Copy.putWaits_memWf h
      next e => exact Copy.put_memWf h _ e
      next e => exact ih (Copy.put_memWf h _ e)

theorem Copy.writePick_memWf {p : Nat} {c : Copy} {s : State} (h : s.memWf) : (c.writePick p s).1.memWf := by
  unfold Copy.writePick
  split
  · exact h
  · split
    · exact h
    · split
      next => exact h
      next e => exact Copy.put_memWf h _ e
      next e => exact Copy.put_memWf h _ e

theorem State.setCopy_memWf {s : State} {j : Nat} {c : Option Copy} (h : s.memWf) : (s.setCopy j c).memWf := State.updKop_memWf h

theorem State.stopCopy_memWf {s : State} {j : Nat} {c : Copy} {cause : Cause} {v : Nat} (h : s.memWf) :
    (s.stopCopy j c cause v).memWf :=
  State.updMe_memWf (State.setCopy_memWf (State.unpinAll_memWf h))

theorem Copy.addCounter_memWf {c : Copy} {s : State} (h : s.memWf) : (c.addCounter s).1.memWf := by
  unfold Copy.addCounter
  split
  · exact h
  · split
    · exact h
    · split
      · exact h
      · split
        next e => exact State.memWf_fst e (State.read_memWf _ _ _ _ _ (State.uncached_memWf h))
        next e => exact State.write_memWf _ _ _ _ _ _ (State.memWf_fst e (State.read_memWf _ _ _ _ _ (State.uncached_memWf h)))

theorem State.finishCopy_memWf {s : State} {j : Nat} {c : Copy} (h : s.memWf) : (s.finishCopy j c).1.memWf := by
  unfold State.finishCopy
  dsimp only
  split
  · refine State.setCopy_memWf ?_
    split
    · exact State.updKop_memWf (Copy.addCounter_memWf h)
    · exact Copy.addCounter_memWf h
  · refine State.setCopy_memWf (State.unpinAll_memWf ?_)
    split
    · exact State.updKop_memWf (Copy.addCounter_memWf h)
    · exact Copy.addCounter_memWf h

theorem State.copyInteg_memWf {s : State} {j : Nat} {c : Copy} {v : Nat} (h : s.memWf) : (s.copyInteg j c v).memWf :=
  takeTrap_memWf (State.setCopy_memWf h)

theorem Copy.takeAcks_memWf {c : Copy} {s : State} (h : s.memWf) : (c.takeAcks s).1.memWf := State.updMe_memWf h

theorem State.copyReads_memWf {j : Nat} {c : Copy} {r : Moving} (h : r.1.memWf) : (State.copyReads j c r).memWf := by
  unfold State.copyReads
  split
  next => exact State.copyInteg_memWf h
  next =>
    split <;> rename_i e <;> have ht := State.memWf_fst e (Copy.readAll_memWf h)
    · exact State.copyInteg_memWf ht
    · exact State.setCopy_memWf ht

theorem State.copyStep_memWf {s : State} {p place : Nat} (h : s.memWf) : (s.copyStep p place).memWf := by
  unfold State.copyStep
  dsimp only
  split
  · exact h
  · split
    · exact h
    · split
      · exact h
      · split
        · split
          · exact State.setCopy_memWf h
          · split
            · exact State.copyInteg_memWf h
            · exact State.stopCopy_memWf h
        · split
          · split
            · split
              · exact State.setCopy_memWf h
              · exact State.stopCopy_memWf h
            · split
              · exact State.setCopy_memWf h
              · split
                · exact h
                · split
                  · exact State.finishCopy_memWf h
                  · exact State.copyInteg_memWf (State.finishCopy_memWf h)
          · refine State.copyReads_memWf ?_
            split
            · exact Copy.writeDue_memWf (Copy.takeAcks_memWf h)
            · exact Copy.writePick_memWf (Copy.takeAcks_memWf h)

theorem execCopyComplete_memWf {k : Nat} {s : State} (h : s.memWf) : Out.all State.memWf (execCopyComplete k s) := by
  unfold execCopyComplete
  dsimp only
  split
  · exact h
  · split
    · exact State.copyStep_memWf (State.foldl_memWf (fun _ _ h1 => State.copyStep_memWf h1) h)
    · exact h

theorem execFollowOnStart_memWf {s : State} (h : s.memWf) : Out.all State.memWf (execFollowOnStart s) := by
  unfold execFollowOnStart
  dsimp only
  split
  · exact h
  · split
    · exact h
    · split
      · exact State.setCopy_memWf (State.unpinAll_memWf h)
      · split
        · exact h
        · split
          · exact State.setCopy_memWf (State.unpinAll_memWf h)
          · split
            · exact State.stopCopy_memWf h
            · exact State.updMe_memWf (State.updMat_memWf (State.stickIf_memWf (State.setCopy_memWf (State.unpinAll_memWf h))))

theorem pollStart_memWf {va : W64} {s : State} (h : s.memWf) : Res.all State.memWf (pollStart va s) :=
  withPlace_memWf h (fun _ _ h1 => State.updKop_memWf h1)

theorem pollEnd_memWf {target v : W64} {s : State} (h : s.memWf) : Res.all State.memWf (pollEnd target v s) := by
  unfold pollEnd
  dsimp only
  split <;> exact State.updKop_memWf h

theorem cwaitBody_memWf {s : State} (h : s.memWf) : Res.all State.memWf (cwaitBody s) := by
  unfold cwaitBody
  dsimp only
  split
  · exact Res.fail_memWf
  · refine popping_memWf (fun _ _ h1 => ?_) h
    split
    · exact pollStart_memWf h1
    · split
      · split
        · exact h1
        · exact pollEnd_memWf h1
      · split
        · exact h1
        · refine loadBytes_memWf (fun _ _ h2 => ?_) h1
          split
          · exact State.updKop_memWf h2
          · exact pollEnd_memWf h2

theorem execKCwait_memWf {x : BitVec 3} {s : State} (h : s.memWf) : Out.all State.memWf (execKCwait x s) :=
  issue_memWf (fun _ h1 => cwaitBody_memWf h1) h

theorem execCwaitSatisfied_memWf {s : State} (h : s.memWf) : Out.all State.memWf (execCwaitSatisfied s) := by
  unfold execCwaitSatisfied
  split
  next e =>
    have h1 := Act.all_of_eq e (engineTurn_memWf h)
    split
    · exact execKCwait_memWf h1
    · exact h
  · exact h

theorem flagBody_memWf {n : Nat} {s : State} (h : s.memWf) : Res.all State.memWf (flagBody n s) := by
  unfold flagBody
  dsimp only
  split
  · exact Res.fail_memWf
  · split
    · exact Res.fail_memWf
    · split
      · split
        · exact Res.fail_memWf
        · split
          · exact popping_memWf (fun _ _ h1 => State.updKop_memWf h1) h
          · exact h
      · exact popping_memWf (fun _ _ h1 => State.updKop_memWf h1) h
      · split
        · exact Res.fail_memWf
        · exact popping_memWf (fun _ _ h1 => pushing_memWf h1) h
      · exact popping_memWf (fun _ _ h1 => State.updKop_memWf h1) h

theorem execKFlag_memWf {n : BitVec 6} {s : State} (h : s.memWf) : Out.all State.memWf (execKFlag n s) := by
  unfold execKFlag
  split
  · exact h
  · exact issue_memWf (fun _ h1 => flagBody_memWf h1) h

theorem execFlagWaitSatisfied_memWf {s : State} (h : s.memWf) : Out.all State.memWf (execFlagWaitSatisfied s) := by
  unfold execFlagWaitSatisfied
  split
  next e =>
    have h1 := Act.all_of_eq e (engineTurn_memWf h)
    split
    · exact execKFlag_memWf h1
    · exact h
  · exact h

theorem pinWalk_memWf {s : State} {stop fuel a : Nat} {ps : List CopyPage} (h : s.memWf) :
    Pages.all State.memWf (pinWalk s stop fuel a ps) := by
  induction fuel generalizing s a ps with
  | zero =>
    unfold pinWalk
    exact h
  | succ fuel ih =>
    unfold pinWalk
    split
    · exact h
    · split
      next e =>
        have h1 := Pages.all_of_eq e (collectPages_memWf h)
        split
        · exact ih h1
        · exact h1
      · exact collectPages_memWf h

theorem pinBody_memWf {release : Bool} {s : State} (h : s.memWf) : Res.all State.memWf (pinBody release s) := by
  unfold pinBody
  dsimp only
  split
  · exact Res.fail_memWf
  · refine popping_memWf (fun _ _ h1 => ?_) h
    split
    · exact Res.fail_memWf
    · split
      next e => exact State.keepPages_memWf (Pages.all_of_eq e (pinWalk_memWf h1))
      · exact Res.fail_memWf
      next e =>
        have h2 := Pages.all_of_eq e (pinWalk_memWf h1)
        split
        · split
          · exact State.updKop_memWf (State.unpinAll_memWf (State.updMe_memWf h2))
          · exact Res.fail_memWf
        · split
          · exact Res.fail_memWf
          · split
            · exact State.keepPages_memWf h2
            next e2 => exact State.updKop_memWf ((State.pinAll_memWf (State.updMe_memWf h2)) _ e2)

theorem execKPin_memWf {s : State} (h : s.memWf) : Out.all State.memWf (execKPin s) :=
  issueN_memWf (fun _ h1 => pinBody_memWf h1) h

theorem execKPinRelease_memWf {s : State} (h : s.memWf) : Out.all State.memWf (execKPinRelease s) :=
  issueN_memWf (fun _ h1 => pinBody_memWf h1) h

/-! ## Sketches -/

theorem skRead_memWf {α : Type} {s : State} {die space : Nat} {va : W64} {n : Nat} {f : List Byte → State → SkOut α} (h : s.memWf)
    (hf : ∀ (a : List Byte) (x : State), x.memWf → SkOut.all State.memWf (f a x)) :
    SkOut.all State.memWf (skRead s die space va n f) := by
  unfold skRead
  split
  · exact h
  next e => exact OwnerX.all_of_eq e (ownerXlat_memWf _ _ _ _ _ _ h)
  next e =>
    have h1 := OwnerX.all_of_eq e (ownerXlat_memWf _ _ _ _ _ _ h)
    split
    · exact h1
    · split
      next e2 => exact hf _ _ (State.memWf_fst e2 (State.read_memWf _ _ _ _ _ (State.revokeFor_memWf _ _ _ _ _ _ _ h1)))
      next e2 => exact State.memWf_fst e2 (State.read_memWf _ _ _ _ _ (State.revokeFor_memWf _ _ _ _ _ _ _ h1))

theorem skWrite_memWf {α : Type} {s : State} {die space : Nat} {va : W64} {bs : List Byte} {f : State → SkOut α} (h : s.memWf)
    (hf : ∀ (x : State), x.memWf → SkOut.all State.memWf (f x)) :
    SkOut.all State.memWf (skWrite s die space va bs f) := by
  unfold skWrite
  split
  · exact h
  next e => exact OwnerX.all_of_eq e (ownerXlat_memWf _ _ _ _ _ _ h)
  next e =>
    have h1 := OwnerX.all_of_eq e (ownerXlat_memWf _ _ _ _ _ _ h)
    split
    · exact h1
    · split
      next e2 => exact hf _ (State.memWf_fst e2 (State.write_memWf _ _ _ _ _ _ (State.revokeFor_memWf _ _ _ _ _ _ _ h1)))
      next e2 => exact State.memWf_fst e2 (State.write_memWf _ _ _ _ _ _ (State.revokeFor_memWf _ _ _ _ _ _ _ h1))

theorem withHeader_memWf {α : Type} {s : State} {die space : Nat} {sk : W64} {write : Bool} {f : Sk → State → SkOut α}
    (h : s.memWf) (hf : ∀ (a : Sk) (x : State), x.memWf → SkOut.all State.memWf (f a x)) :
    SkOut.all State.memWf (withHeader s die space sk write f) := by
  unfold withHeader
  refine skRead_memWf h (fun _ _ h1 => ?_)
  dsimp only
  split
  · exact h1
  · split
    all_goals
      split
      · exact h1
      · split
        · exact h1
        · exact hf _ _ h1

theorem readCounters_memWf {α : Type} {die space : Nat} {hd : Sk} {xs : List (Nat × Nat)} {acc : List Int} {s : State}
    {f : List Int → State → SkOut α} (h : s.memWf) (hf : ∀ (a : List Int) (x : State), x.memWf → SkOut.all State.memWf (f a x)) :
    SkOut.all State.memWf (readCounters die space hd xs acc s f) := by
  induction xs generalizing acc s with
  | nil =>
    unfold readCounters
    exact hf _ _ h
  | cons x xs ih =>
    unfold readCounters
    exact skRead_memWf h (fun _ _ h1 => ih h1)

theorem writeCounters_memWf {α : Type} {die space : Nat} {hd : Sk} {xs : List ((Nat × Nat) × Int)} {s : State}
    {f : State → SkOut α} (h : s.memWf) (hf : ∀ (x : State), x.memWf → SkOut.all State.memWf (f x)) :
    SkOut.all State.memWf (writeCounters die space hd xs s f) := by
  induction xs generalizing s with
  | nil =>
    unfold writeCounters
    exact hf _ h
  | cons x xs ih =>
    unfold writeCounters
    exact skWrite_memWf h (fun _ h1 => ih h1)

theorem putTail_memWf {α : Type} {die space : Nat} {a3 : Sk} {s : State} {f : State → SkOut α} (h : s.memWf)
    (hf : ∀ (x : State), x.memWf → SkOut.all State.memWf (f x)) :
    SkOut.all State.memWf (putTail die space a3 s f) :=
  skWrite_memWf h (fun _ h1 => hf _ h1)

theorem skup_memWf {s : State} {die space : Nat} {sk key : W64} {v : Val} (h : s.memWf) :
    SkOut.all State.memWf (skup s die space sk key v) := by
  unfold skup
  refine withHeader_memWf h (fun _ _ h1 => readCounters_memWf h1 (fun _ _ h2 => ?_))
  dsimp only
  split
  · exact putTail_memWf h2 (fun _ h3 => h3)
  · exact writeCounters_memWf h2 (fun _ h3 => putTail_memWf h3 (fun _ h4 => h4))

theorem skq_memWf {s : State} {die space : Nat} {sk key : W64} {int : Bool} {own : List (W64 × Val)} (h : s.memWf) :
    SkOut.all State.memWf (skq s die space sk key int own) :=
  withHeader_memWf h (fun _ _ h1 => readCounters_memWf h1 (fun _ _ h2 => h2))

theorem SkSrc.counter_memWf {α : Type} {x : SkSrc} {a2 : Sk} {r b : Nat} {s : State} {f : Int → State → SkOut α} (h : s.memWf)
    (hf : ∀ (a : Int) (x : State), x.memWf → SkOut.all State.memWf (f a x)) :
    SkOut.all State.memWf (x.counter a2 r b s f) := by
  unfold SkSrc.counter
  split
  · exact readCounters_memWf h (fun _ _ h1 => hf _ _ h1)
  · exact hf _ _ h

theorem SkSrc.header_memWf {α : Type} {x : SkSrc} {sk : W64} {s : State} {f : Sk → State → SkOut α} (h : s.memWf)
    (hf : ∀ (a : Sk) (x : State), x.memWf → SkOut.all State.memWf (f a x)) :
    SkOut.all State.memWf (x.header sk s f) := by
  unfold SkSrc.header
  split
  · exact withHeader_memWf h (fun _ _ h1 => hf _ _ h1)
  · split
    · exact h
    · exact hf _ _ h

theorem addCounters_memWf {die space : Nat} {src : SkSrc} {hd hs : Sk} {m i : Nat} {sat : Bool} {s : State} (h : s.memWf) :
    SkOut.all State.memWf (addCounters die space src hd hs m i sat s) := by
  induction m generalizing i sat s with
  | zero =>
    unfold addCounters
    exact h
  | succ m ih =>
    unfold addCounters
    dsimp only
    split
    next e =>
      have h1 := SkOut.all_of_eq e (SkSrc.counter_memWf h (fun _ _ h2 => readCounters_memWf h2 (fun _ _ h3 => h3)))
      exact h1
    next e =>
      have h1 := SkOut.all_of_eq e (SkSrc.counter_memWf h (fun _ _ h2 => readCounters_memWf h2 (fun _ _ h3 => h3)))
      exact h1
    next e =>
      have h1 := SkOut.all_of_eq e (SkSrc.counter_memWf h (fun _ _ h2 => readCounters_memWf h2 (fun _ _ h3 => h3)))
      split
      · exact h1
      · split
        next e2 =>
          have h4 := SkOut.all_of_eq e2 (writeCounters_memWf h1 (fun _ h5 => h5))
          exact h4
        next e2 =>
          have h4 := SkOut.all_of_eq e2 (writeCounters_memWf h1 (fun _ h5 => h5))
          exact h4
        next e2 =>
          have h4 := SkOut.all_of_eq e2 (writeCounters_memWf h1 (fun _ h5 => h5))
          exact ih h4

theorem skadd_memWf {s : State} {die space : Nat} {dst src : W64} {from_ : SkSrc} (h : s.memWf) :
    SkOut.all State.memWf (skadd s die space dst src from_) := by
  unfold skadd
  refine withHeader_memWf h (fun _ _ h1 => SkSrc.header_memWf h1 (fun _ _ h2 => ?_))
  dsimp only
  split
  all_goals
    split
    · exact h2
    · split
      next e =>
        have h3 := SkOut.all_of_eq e (addCounters_memWf h2)
        exact h3
      next e =>
        have h3 := SkOut.all_of_eq e (addCounters_memWf h2)
        exact h3
      next e =>
        have h3 := SkOut.all_of_eq e (addCounters_memWf h2)
        exact putTail_memWf h3 (fun _ h4 => h4)
      next e =>
        have h3 := SkOut.all_of_eq e (addCounters_memWf h2)
        exact putTail_memWf h3 (fun _ h4 => h4)

/-! ## Collectives -/

theorem execFLayout_memWf {n : BitVec 2} {f : BitVec 4} {s : State} (h : s.memWf) : Out.all State.memWf (execFLayout n f s) := by
  unfold execFLayout
  refine issue_memWf (fun _ h1 => popping_memWf (fun _ _ h2 => ?_) h1) h
  dsimp only
  split
  · exact State.updMe_memWf h2
  · exact Res.fail_memWf

theorem readRanks_memWf {tab : W64} {n j : Nat} {acc : List (Nat × Nat)} {s : State} {f : List (Nat × Nat) → State → Res}
    (h : s.memWf) (hf : ∀ (a : List (Nat × Nat)) (x : State), x.memWf → Res.all State.memWf (f a x)) :
    Res.all State.memWf (readRanks tab n j acc s f) := by
  induction n generalizing j acc s with
  | zero =>
    unfold readRanks
    exact hf _ _ h
  | succ n ih =>
    unfold readRanks
    split
    next e =>
      have h1 := Got.all_of_eq e (fetchSpan_memWf h)
      exact ih h1
    next e => exact Got.all_of_eq e (fetchSpan_memWf h)
    · exact Res.fail_memWf

theorem spanPages_memWf {side stop n a : Nat} {ps : List CopyPage} {s : State} (h : s.memWf) :
    Pages.all State.memWf (spanPages side stop n a ps s) := by
  induction n generalizing a ps s with
  | zero =>
    unfold spanPages
    exact h
  | succ n ih =>
    unfold spanPages
    split
    · exact h
    · split
      next e =>
        have h1 := Pages.all_of_eq e (collectPages_memWf h)
        split
        · exact ih h1
        · exact h1
      · exact collectPages_memWf h

theorem bufferPages_memWf {l : Layout} {side : Nat} {s : State} {ps : List CopyPage} (h : s.memWf) :
    Pages.all State.memWf (bufferPages l side s ps) := by
  unfold bufferPages
  split
  · exact h
  · exact spanPages_memWf h

theorem buffersPages_memWf {e : Bool} {src dst : Layout} {s : State} {ps : List CopyPage} (h : s.memWf) :
    (buffersPages e src dst s ps).all State.memWf := by
  have hx : (if e then Pages.ok ps s else bufferPages src 0 s ps).all State.memWf := by
    split
    · exact h
    · exact bufferPages_memWf h
  unfold buffersPages
  split
  next e' => exact bufferPages_memWf (Pages.all_of_eq e' hx)
  next => exact hx

theorem State.keepCollPages_memWf {s : State} {ps : List CopyPage} (h : s.memWf) : (s.keepCollPages ps).memWf :=
  State.updMe_memWf h

theorem State.addColl_memWf {s : State} {c : Coll} (h : s.memWf) : (s.addColl c).memWf := State.updMe_memWf h

theorem collBody_memWf {e : BitVec 1} {dl sl : BitVec 2} {s : State} (h : s.memWf) :
    Res.all State.memWf (collBody e dl sl s) := by
  unfold collBody
  refine popping_memWf (fun _ _ h1 => ?_) h
  dsimp only
  split
  · exact Res.fail_memWf
  · exact Res.fail_memWf
  · exact Res.fail_memWf
  · split
    · exact Res.fail_memWf
    · refine readRanks_memWf h1 (fun _ _ h2 => ?_)
      split
      · exact Res.fail_memWf
      · split
        · exact Res.fail_memWf
        · split
          · exact Res.fail_memWf
          · split
            · exact Res.fail_memWf
            · split
              · exact Res.fail_memWf
              · exact Res.fail_memWf
              · split
                next e => exact State.keepCollPages_memWf (Pages.all_of_eq e (buffersPages_memWf h2))
                · exact Res.fail_memWf
                next e =>
                  have h3 := Pages.all_of_eq e (buffersPages_memWf h2)
                  split
                  · exact Res.fail_memWf
                  · split
                    next e2 => exact State.keepCollPages_memWf (Xlat.all_of_eq e2 (locate_memWf _ _ _ _ _ h3))
                    · exact Res.fail_memWf
                    next e2 =>
                      have h4 := Xlat.all_of_eq e2 (locate_memWf _ _ _ _ _ h3)
                      split
                      next e3 => exact State.keepCollPages_memWf (Pages.all_of_eq e3 (collectPages_memWf h4))
                      · exact Res.fail_memWf
                      next e3 =>
                        have h5 := Pages.all_of_eq e3 (collectPages_memWf h4)
                        split
                        · exact Res.fail_memWf
                        · split
                          · exact State.keepCollPages_memWf h5
                          next e4 => exact State.addColl_memWf (State.updMe_memWf ((State.pinAll_memWf h5) _ e4))

theorem execFColl_memWf {e : BitVec 1} {d sl : BitVec 2} {s : State} (h : s.memWf) : Out.all State.memWf (execFColl e d sl s) :=
  issue_memWf (fun _ h1 => collBody_memWf h1) h

theorem State.askAll_memWf {s : State} {rs : List PeerReq} (h : s.memWf) : (s.askAll rs).memWf := by
  unfold State.askAll
  refine State.foldl_memWf (fun _ _ h1 => ?_) h
  dsimp only
  split
  · exact h1
  · exact State.memWf_mk rfl (State.updMe_memWf h1)

theorem Coll.readPart_memWf {c : Coll} {side : Nat} {acc : State × List Byte × Option (Cause × Nat)} {b : Nat × Nat}
    (h : acc.1.memWf) :
    (c.readPart side acc b).1.memWf := by
  unfold Coll.readPart
  dsimp only
  split
  · exact h
  · split
    · split <;> exact h
    · split <;> rename_i e <;> exact State.memWf_fst e (State.read_memWf _ _ _ _ _ (State.uncached_memWf h))

theorem Coll.readRun_memWf {c : Coll} {s : State} {r : CollRun} (h : s.memWf) : (c.readRun s r).1.memWf := by
  unfold Coll.readRun
  split
  · exact h
  · exact h
  · exact State.foldl_fst_memWf (fun _ _ h1 => Coll.readPart_memWf h1) h

theorem Coll.readRuns_memWf {c : Coll} {rs : List CollRun} {s : State} (h : s.memWf) : (c.readRuns rs s).1.memWf := by
  induction rs generalizing s with
  | nil =>
    unfold Coll.readRuns
    exact h
  | cons x rs ih =>
    unfold Coll.readRuns
    exact ih (Coll.readRun_memWf h)

theorem Coll.capture_memWf {c : Coll} {s : State} (h : s.memWf) : Took.all State.memWf (c.capture s) := by
  unfold Coll.capture
  dsimp only
  split
  · exact h
  · split
    · exact h
    · split
      · exact State.askAll_memWf h
      · split
        · exact h
        · split <;> exact Coll.readRuns_memWf h

theorem Coll.ship_memWf {c : Coll} {s : State} {fails : Option Cause} (h : s.memWf) : (c.ship s fails).1.memWf := h

theorem State.setColl_memWf {s : State} {core k : Nat} {c : Coll} (h : s.memWf) : (s.setColl core k c).memWf :=
  State.updCore_memWf h

theorem State.dropGroup_memWf {s : State} {c : Coll} (h : s.memWf) : (s.dropGroup c).memWf := by
  unfold State.dropGroup
  dsimp only
  split
  · exact State.foldl_memWf (fun _ _ h1 => State.updCore_memWf h1) h
  · exact h

theorem State.closeColl_memWf {s : State} {core j : Nat} {c : Coll} (h : s.memWf) : (s.closeColl core j c).memWf :=
  State.dropGroup_memWf (State.updCore_memWf (State.unpinAll_memWf h))

theorem State.finishColl_memWf {s : State} {core j : Nat} {c : Coll} {x : Status} (h : s.memWf) :
    (s.finishColl core j c x).memWf := by
  unfold State.finishColl
  dsimp only
  split
  · exact State.setColl_memWf h
  · split
    · exact State.closeColl_memWf h
    · split
      · exact State.memWf_mk rfl (State.setColl_memWf h)
      · split
        · exact State.setColl_memWf h
        · split
          next e => exact State.closeColl_memWf (State.memWf_fst e (State.write_memWf _ _ _ _ _ _ (State.uncached_memWf h)))
          next e => exact State.updCore_memWf (State.memWf_fst e (State.write_memWf _ _ _ _ _ _ (State.uncached_memWf h)))

theorem Coll.writePart_memWf {c : Coll} {acc : State × Coll × Option Nat} {b : Nat × List Byte} (h : acc.1.memWf) :
    (c.writePart acc b).1.memWf := by
  unfold Coll.writePart
  dsimp only
  split
  · exact h
  · split
    · exact h
    · exact State.write_memWf _ _ _ _ _ _ (State.uncached_memWf h)

theorem Coll.writeRun_memWf {acc : State × Coll × Option Nat} {w : Nat × List Byte} (h : acc.1.memWf) :
    (Coll.writeRun acc w).1.memWf := by
  unfold Coll.writeRun
  dsimp only
  split
  · exact State.updMe_memWf h
  · exact State.updMe_memWf h
  · exact State.foldl_fst_memWf (fun _ _ h1 => Coll.writePart_memWf h1) h

theorem Coll.takeAcks_memWf {c : Coll} {s : State} (h : s.memWf) : (c.takeAcks s).1.memWf := State.updMe_memWf h

theorem State.failColl_memWf {s : State} {k : Nat} {c : Coll} {e : Cause} (h : s.memWf) : (s.failColl k c e).memWf :=
  State.finishColl_memWf (Coll.ship_memWf h)

theorem State.deliverColl_memWf {s : State} {k : Nat} {c : Coll} {all : List Coll} (h : s.memWf) :
    (s.deliverColl k c all).memWf := by
  unfold State.deliverColl
  dsimp only
  split
  · exact h
  · split
    next e =>
      have h1 := State.memWf_fst e (State.foldl_fst_memWf (fun _ _ h2 => Coll.writeRun_memWf h2) h)
      exact State.finishColl_memWf h1
    next e =>
      have h1 := State.memWf_fst e (State.foldl_fst_memWf (fun _ _ h2 => Coll.writeRun_memWf h2) h)
      exact takeTrap_memWf (State.setColl_memWf h1)

theorem State.turnColl_memWf {s : State} {k : Nat} {c : Coll} (h : s.memWf) : (s.turnColl k c).memWf := by
  unfold State.turnColl
  dsimp only
  split
  · exact State.failColl_memWf h
  · split
    next e => exact Took.all_of_eq e (Coll.capture_memWf h)
    next e =>
      have h1 := Took.all_of_eq e (Coll.capture_memWf h)
      split
      · exact takeTrap_memWf h1
      · exact State.failColl_memWf h1
    next e =>
      have h1 := Took.all_of_eq e (Coll.capture_memWf h)
      split
      · exact State.setColl_memWf (Coll.ship_memWf h1)
      · exact State.deliverColl_memWf (State.setColl_memWf (Coll.ship_memWf h1))

theorem execCollectiveComplete_memWf {k : Nat} {s : State} (h : s.memWf) : Out.all State.memWf (execCollectiveComplete k s) := by
  unfold execCollectiveComplete
  dsimp only
  split
  · exact h
  · split
    · exact State.setColl_memWf (Coll.takeAcks_memWf h)
    · split
      · refine State.dropGroup_memWf (State.setColl_memWf ?_)
        split
        · exact Coll.ship_memWf h
        · exact h
      · split
        · exact State.finishColl_memWf (Coll.takeAcks_memWf h)
        · exact State.turnColl_memWf (Coll.takeAcks_memWf h)

theorem execExchangeWaitLimit_memWf {k : Nat} {s : State} (h : s.memWf) : Out.all State.memWf (execExchangeWaitLimit k s) := by
  unfold execExchangeWaitLimit
  dsimp only
  split
  · exact h
  · split
    · exact h
    · split
      · exact State.setColl_memWf h
      · split
        · exact State.setColl_memWf h
        · split
          · exact h
          · exact State.foldl_memWf (fun _ _ h1 => State.preemptCore_memWf h1) h

/-! ## Far words -/

theorem farTo_memWf {s : State} {va : W64} {read write ra : Bool} (h : s.memWf) :
    FarX.all State.memWf (farTo s va read write ra) := by
  unfold farTo
  split
  · exact trivial
  · split
    · exact h
    · split
      next e => exact Xlat.all_of_eq e (translate_memWf _ _ _ h)
      · exact trivial
      next e =>
        have h1 := Xlat.all_of_eq e (translate_memWf _ _ _ h)
        split
        · exact trivial
        · exact h1

theorem withFar_memWf {s : State} {va : W64} {read write ra : Bool} {f : FarTo → State → Res} (h : s.memWf)
    (hf : ∀ (a : FarTo) (x : State), x.memWf → Res.all State.memWf (f a x)) :
    Res.all State.memWf (withFar s va read write ra f) := by
  unfold withFar
  split
  next e => exact hf _ _ (FarX.all_of_eq e (farTo_memWf h))
  next e => exact FarX.all_of_eq e (farTo_memWf h)
  · exact Res.fail_memWf

theorem State.sendFar_memWf {s : State} {o : FarOp} (h : s.memWf) : (s.sendFar o).memWf := by
  unfold State.sendFar
  dsimp only
  split
  all_goals
    split
    · exact State.updMe_memWf (State.flushComb_memWf h)
    · exact State.updDie_memWf (fun h1 => Die.queuePacket_wf h1) (State.updMe_memWf (State.flushComb_memWf h))

theorem blockOn_memWf {s : State} {mk : State → FarOp} (h : s.memWf) : Res.all State.memWf (blockOn s mk) := State.sendFar_memWf h

theorem farHold_memWf {s : State} (h : s.memWf) : Res.all State.memWf (farHold s) := by
  unfold farHold
  split <;> exact h

theorem farWord_memWf {i : Instr} {p q : Nat} {timedOk block : Bool} {pos al : Nat} {read write ra : Bool} {cls : Nat}
    {more : List W64 → Option (Cause × W64)} {s : State} (h : s.memWf) :
    Out.all State.memWf (farWord i p q timedOk block pos al read write ra cls more s) := by
  unfold farWord
  refine issue_memWf (fun _ h1 => ?_) h
  dsimp only
  split
  · exact farHold_memWf h1
  · refine popping_memWf (fun _ _ h2 => ?_) h1
    split
    · exact Res.fail_memWf
    · split
      · exact Res.fail_memWf
      · split
        · exact Res.fail_memWf
        · split
          · exact withFar_memWf h1 (fun _ _ h3 => blockOn_memWf h3)
          · exact withFar_memWf h2 (fun _ _ h3 => State.sendFar_memWf h3)

theorem execFAmo_memWf {o : BitVec 3} {t : BitVec 2} {s : State} (h : s.memWf) : Out.all State.memWf (execFAmo o t s) :=
  farWord_memWf h

theorem execFAmoR_memWf {o : BitVec 3} {t : BitVec 2} {s : State} (h : s.memWf) : Out.all State.memWf (execFAmoR o t s) :=
  farWord_memWf h

theorem execFCas_memWf {w : BitVec 1} {s : State} (h : s.memWf) : Out.all State.memWf (execFCas w s) := farWord_memWf h

theorem readPairs_memWf {size n : Nat} {ea : W64} {m j : Nat} {acc : List W64} {s : State} {f : List W64 → State → Res}
    (h : s.memWf) (hf : ∀ (a : List W64) (x : State), x.memWf → Res.all State.memWf (f a x)) :
    Res.all State.memWf (readPairs size n ea m j acc s f) := by
  induction m generalizing j acc s with
  | zero =>
    unfold readPairs
    exact hf _ _ h
  | succ m ih =>
    unfold readPairs
    split
    next e => exact Xlat.all_of_eq e (locate_memWf _ _ _ _ _ h)
    · exact Res.fail_memWf
    next e =>
      have h1 := Xlat.all_of_eq e (locate_memWf _ _ _ _ _ h)
      split
      next e2 => exact Got.all_of_eq e2 (readPlace_memWf h1)
      · exact Res.fail_memWf
      next e2 =>
        have h2 := Got.all_of_eq e2 (readPlace_memWf h1)
        exact ih h2

theorem execFCasM_memWf {n : BitVec 2} {w : BitVec 1} {s : State} (h : s.memWf) : Out.all State.memWf (execFCasM n w s) := by
  unfold execFCasM
  refine issue_memWf (fun _ h1 => ?_) h
  dsimp only
  split
  · exact farHold_memWf h1
  · refine popping_memWf (fun _ _ h2 => ?_) h1
    split
    · exact Res.fail_memWf
    · split
      · exact Res.fail_memWf
      · split
        · exact Res.fail_memWf
        · exact withFar_memWf h1 (fun _ _ h3 => readPairs_memWf h3 (fun _ _ h4 => blockOn_memWf (State.updMe_memWf h4)))

theorem execFEnq_memWf {s : State} (h : s.memWf) : Out.all State.memWf (execFEnq s) := farWord_memWf h

theorem execFEnqR_memWf {s : State} (h : s.memWf) : Out.all State.memWf (execFEnqR s) := farWord_memWf h

theorem execFChase_memWf {a0 : BitVec 4} {c : BitVec 3} {k : BitVec 6} {s : State} (h : s.memWf) :
    Out.all State.memWf (execFChase a0 c k s) := by
  unfold execFChase
  dsimp only
  split
  · refine issue_memWf (fun _ h1 => popping_memWf (fun _ _ h2 => ?_) h1) h
    split
    · exact Res.fail_memWf
    · exact pushing_memWf h2
  · exact farWord_memWf h

theorem execFRld_memWf {c : BitVec 2} {sel : BitVec 1} {z : BitVec 2} {s : State} (h : s.memWf) :
    Out.all State.memWf (execFRld c sel z s) := by
  unfold execFRld
  dsimp only
  split
  · exact issue_memWf (fun _ h1 => popping_memWf (fun _ _ h2 => withFar_memWf h2 (fun _ _ h3 => pushing_memWf h3)) h1) h
  · exact farWord_memWf h

theorem State.combine_memWf {s : State} {va : W64} {t : FarTo} {bs : List Byte} (h : s.memWf) : (s.combine va t bs).memWf := by
  unfold State.combine
  dsimp only
  split
  · exact State.updMe_memWf h
  · refine State.updMe_memWf ?_
    split
    · exact State.flushComb_memWf h
    · exact h

theorem execFRst_memWf {c z : BitVec 2} {s : State} (h : s.memWf) : Out.all State.memWf (execFRst c z s) := by
  unfold execFRst
  refine issue_memWf (fun _ h1 => popping_memWf (fun _ _ h2 => ?_) h1) h
  dsimp only
  split
  · exact Res.fail_memWf
  · refine withFar_memWf h2 (fun _ _ h3 => ?_)
    split
    · exact State.combine_memWf h3
    · exact State.sendFar_memWf h3

theorem drainBody_memWf {s : State} (h : s.memWf) : Res.all State.memWf (drainBody s) := by
  unfold drainBody
  dsimp only
  split
  · exact Res.fail_memWf
  · split
    · exact trivial
    · split <;> exact State.flushComb_memWf h

theorem execFDrain_memWf {s : State} (h : s.memWf) : Out.all State.memWf (execFDrain s) :=
  issue_memWf (fun _ h1 => drainBody_memWf h1) h

theorem execFarDrainComplete_memWf {s : State} (h : s.memWf) : Out.all State.memWf (execFarDrainComplete s) := by
  unfold execFarDrainComplete
  split
  next e =>
    have h1 := Act.all_of_eq e (engineTurn_memWf h)
    split
    · exact execFDrain_memWf h1
    · exact h
  · exact h

theorem State.countSketch_memWf {s : State} (h : s.memWf) : s.countSketch.memWf := by
  unfold State.countSketch
  dsimp only
  split
  · exact State.updMe_memWf h
  · exact h

theorem sketchWord_memWf {i : Instr} {p q : Nat} {timedOk block : Bool} {n : Option Nat} {sks : List Nat}
    {va : Option (Nat × Nat)} {writeSk readVa : Bool} {s : State} (h : s.memWf) :
    Out.all State.memWf (sketchWord i p q timedOk block n sks va writeSk readVa s) := by
  unfold sketchWord
  refine issue_memWf (fun _ h1 => ?_) h
  dsimp only
  split
  · exact farHold_memWf h1
  · refine popping_memWf (fun _ _ h2 => ?_) h1
    split
    · exact Res.fail_memWf
    · split
      all_goals
        split
        · exact Res.fail_memWf
        · split
          · exact Res.fail_memWf
          · split
            · exact Res.fail_memWf
            · refine withFar_memWf ?_ (fun _ _ h3 => ?_)
              · split
                · exact h1
                · exact h2
              · split
                · exact withFar_memWf h3 (fun _ _ h4 => State.sendFar_memWf h4)
                · exact withFar_memWf h3 (fun _ _ h4 => State.sendFar_memWf h4)
                · split
                  · exact blockOn_memWf h3
                  · exact State.countSketch_memWf (State.sendFar_memWf h3)

theorem execFSkup_memWf {d : BitVec 1} {s : State} (h : s.memWf) : Out.all State.memWf (execFSkup d s) := sketchWord_memWf h

theorem execFSkupN_memWf {d : BitVec 1} {s : State} (h : s.memWf) : Out.all State.memWf (execFSkupN d s) := sketchWord_memWf h

theorem execFSkq_memWf {i : BitVec 1} {s : State} (h : s.memWf) : Out.all State.memWf (execFSkq i s) := sketchWord_memWf h

theorem execFSkqN_memWf {i : BitVec 1} {s : State} (h : s.memWf) : Out.all State.memWf (execFSkqN i s) := sketchWord_memWf h

theorem execFSkadd_memWf {s : State} (h : s.memWf) : Out.all State.memWf (execFSkadd s) := sketchWord_memWf h

/-! ## The Wallowers -/

theorem Near.served_memWf {r : Near} {f : List Byte → State → Served} (h : Near.all State.memWf r)
    (hf : ∀ (a : List Byte) (x : State), x.memWf → Served.all State.memWf (f a x)) :
    Served.all State.memWf (r.served f) := by
  unfold Near.served
  split
  · exact hf _ _ h
  · exact h
  · exact h

theorem withTarget_memWf {s : State} {o : FarOp} {va : W64} {n : Nat} {read write : Bool} {f : At → Nat → State → Served}
    (h : s.memWf) (hf : ∀ (a : At) (b : Nat) (x : State), x.memWf → Served.all State.memWf (f a b x)) :
    Served.all State.memWf (withTarget s o va n read write f) := by
  unfold withTarget
  dsimp only
  split
  · split
    · exact h
    · exact hf _ _ _ h
  · split
    next e => exact OwnerX.all_of_eq e (ownerXlat_memWf _ _ _ _ _ _ h)
    next e => exact OwnerX.all_of_eq e (ownerXlat_memWf _ _ _ _ _ _ h)
    next e =>
      have h1 := OwnerX.all_of_eq e (ownerXlat_memWf _ _ _ _ _ _ h)
      split
      · exact h1
      · exact hf _ _ _ h1

theorem State.forTarget_memWf {s : State} {o : FarOp} {a : At} {n : Nat} {write : Bool} (h : s.memWf) :
    (s.forTarget o a n write).memWf := by
  unfold State.forTarget
  split
  · exact State.revokeFor_memWf _ _ _ _ _ _ _ h
  · exact State.uncached_memWf h

theorem targetRead_memWf {s : State} {o : FarOp} {n : Nat} {write : Bool} {f : List Byte → State → Served} (h : s.memWf)
    (hf : ∀ (a : List Byte) (x : State), x.memWf → Served.all State.memWf (f a x)) :
    Served.all State.memWf (targetRead s o n write f) := by
  unfold targetRead
  refine withTarget_memWf h (fun _ _ _ h1 => ?_)
  split
  next e =>
    refine hf _ _ (State.memWf_fst e ?_)
    split
    · exact State.farRead_memWf h1
    · exact State.read_memWf _ _ _ _ _ (State.forTarget_memWf h1)
  next e =>
    refine State.memWf_fst e ?_
    split
    · exact State.farRead_memWf h1
    · exact State.read_memWf _ _ _ _ _ (State.forTarget_memWf h1)

theorem targetWrite_memWf {s : State} {o : FarOp} {bs : List Byte} {f : State → Served} (h : s.memWf)
    (hf : ∀ (x : State), x.memWf → Served.all State.memWf (f x)) :
    Served.all State.memWf (targetWrite s o bs f) := by
  unfold targetWrite
  refine withTarget_memWf h (fun _ _ _ h1 => ?_)
  split
  next e => exact hf _ (State.memWf_fst e (State.write_memWf _ _ _ _ _ _ (State.forTarget_memWf h1)))
  next e => exact State.memWf_fst e (State.write_memWf _ _ _ _ _ _ (State.forTarget_memWf h1))

theorem serveStore_memWf {s : State} {o : FarOp} {bs : List (Option Byte)} (h : s.memWf) :
    Served.all State.memWf (serveStore s o bs) := by
  unfold serveStore
  refine Served.foldl_memWf (fun _ _ h1 => ?_) h
  split
  · refine withTarget_memWf h1 (fun _ _ _ h2 => ?_)
    split <;> rename_i e
    all_goals
      refine State.memWf_fst e ?_
      split
      · exact State.farWrite_memWf h2
      · exact State.write_memWf _ _ _ _ _ _ (State.forTarget_memWf h2)
  · exact h1

theorem serveCas_memWf {s : State} {o : FarOp} {size n : Nat} {expect new : List W64} {f : Bool → List Nat → State → Served}
    (h : s.memWf) (hf : ∀ (a : Bool) (b : List Nat) (x : State), x.memWf → Served.all State.memWf (f a b x)) :
    Served.all State.memWf (serveCas s o size n expect new f) := by
  unfold serveCas
  refine targetRead_memWf h (fun _ _ h1 => ?_)
  dsimp only
  split
  · exact targetWrite_memWf h1 (fun _ h2 => hf _ _ _ h2)
  · exact hf _ _ _ h1

theorem serveEnq_memWf {s0 : State} {o : FarOp} {node : W64} {ret : Bool} (h : s0.memWf) :
    Served.all State.memWf (serveEnq s0 o node ret) := by
  unfold serveEnq
  dsimp only
  split
  · exact h
  · split
    next e => exact OwnerX.all_of_eq e (ownerXlat_memWf _ _ _ _ _ _ h)
    next e => exact OwnerX.all_of_eq e (ownerXlat_memWf _ _ _ _ _ _ h)
    next e =>
      have h1 := OwnerX.all_of_eq e (ownerXlat_memWf _ _ _ _ _ _ h)
      refine targetRead_memWf h1 (fun _ _ h2 => Near.served_memWf (nearWrite_memWf _ _ _ _ _ h2)
        (fun _ _ h3 => Near.served_memWf (nearRead_memWf _ _ _ _ _ h3) (fun _ _ h4 => ?_)))
      split
      · exact Near.served_memWf (nearWrite_memWf _ _ _ _ _ h4) (fun _ _ h5 => Near.served_memWf (nearWrite_memWf _ _ _ _ _ h5)
          (fun _ _ h6 => h6))
      · split
        next e2 => exact OwnerX.all_of_eq e2 (ownerXlat_memWf _ _ _ _ _ _ h4)
        · exact h
        next e2 =>
          exact Near.served_memWf (nearWrite_memWf _ _ _ _ _ (OwnerX.all_of_eq e2 (ownerXlat_memWf _ _ _ _ _ _ h4)))
            (fun _ _ h6 => Near.served_memWf (nearWrite_memWf _ _ _ _ _ h6) (fun _ _ h7 => h7))

theorem spanRead_memWf {s : State} {die space : Nat} {va : W64} {n : Nat} (h : s.memWf) :
    Near.all State.memWf (spanRead s die space va n) :=
  Near.foldl_memWf (fun _ _ h1 => Near.bind_memWf h1 (fun _ _ h2 => Near.bind_memWf (nearRead_memWf _ _ _ _ _ h2)
    (fun _ _ h3 => h3))) h

theorem chaseKey_memWf {s : State} {die space : Nat} {p koff : W64} (h : s.memWf) :
    okOrError (Stopped.all State.memWf) (fun o => ∀ y, o = some y → y.2.2.memWf) (chaseKey s die space p koff) := by
  unfold chaseKey
  split
  · exact forall_none_eq
  · have hx := spanRead_memWf (die := die) (space := space) (va := p) (n := 8) h
    split <;> rename_i e <;> rw [e] at hx
    · exact hx
    · exact hx
    · exact forall_none_eq
    · have hy := spanRead_memWf (die := die) (space := space) (va := p + 8 * koff) (n := 8) hx
      split <;> rename_i e' <;> rw [e'] at hy
      · exact hy
      · exact hy
      · exact forall_none_eq
      · exact forall_some_eq hy

theorem chaseWalk_memWf {die space cond hops fuel k late : Nat} {koff key p : W64} {s : State} (h : s.memWf) :
    okOrError (Stopped.all State.memWf) (fun o => o.2.memWf) (chaseWalk die space cond koff key hops fuel k late p s) := by
  induction fuel generalizing k late p s with
  | zero => exact h
  | succ fuel ih =>
    unfold chaseWalk
    split
    · exact h
    · have hx := chaseKey_memWf (die := die) (space := space) (p := p) (koff := koff) h
      split <;> rename_i e <;> rw [e] at hx
      · exact hx
      · exact h
      · have hs := hx _ rfl
        exact okOrError_ite hs (okOrError_ite hs (ih hs))

theorem SkOut.served_memWf {α : Type} {r : SkOut α} {s0 : State} {f : α → State → Served} (h : SkOut.all State.memWf r)
    (h' : s0.memWf) (hf : ∀ (a : α) (x : State), x.memWf → Served.all State.memWf (f a x)) :
    Served.all State.memWf (r.served s0 f) := by
  unfold SkOut.served
  split
  · exact hf _ _ h
  · exact h'
  · show State.memWf _
    split
    · exact h
    · exact h'

theorem FarOp.value_memWf {o : FarOp} {s : State} {a : W64} {n : Nat} {f : List Byte → State → Served} (h : s.memWf)
    (hf : ∀ (a : List Byte) (x : State), x.memWf → Served.all State.memWf (f a x)) :
    Served.all State.memWf (o.value s a n f) := by
  unfold FarOp.value
  dsimp only
  split
  · split
    · exact hf _ _ h
    · split <;> exact h
  · exact Near.served_memWf (nearRead_memWf _ _ _ _ _ h) (fun _ _ h1 => hf _ _ h1)

theorem serveSkupN_memWf {o : FarOp} {d : BitVec 1} {m j : Nat} {s : State} (h : s.memWf) :
    Served.all State.memWf (serveSkupN o d m j s) := by
  induction m generalizing j s with
  | zero =>
    unfold serveSkupN
    exact h
  | succ m ih =>
    unfold serveSkupN
    exact FarOp.value_memWf h (fun _ _ h1 => SkOut.served_memWf (skup_memWf h1) h (fun _ _ h2 => ih h2))

theorem FarOp.putValue_memWf {o : FarOp} {s : State} {x : W64} {bs : List Byte} {f : State → Served} (h : s.memWf)
    (hf : ∀ (x : State), x.memWf → Served.all State.memWf (f x)) :
    Served.all State.memWf (o.putValue s x bs f) := by
  unfold FarOp.putValue
  split
  · exact Near.served_memWf (nearWrite_memWf _ _ _ _ _ h) (fun _ _ h1 => hf _ h1)
  · split
    · split
      · exact h
      · exact hf _ h
    · exact h

theorem serveSkqN_memWf {o : FarOp} {int : Bool} {m j : Nat} {acc : List W64} {s : State} (h : s.memWf) :
    Served.all State.memWf (serveSkqN o int m j acc s) := by
  induction m generalizing j acc s with
  | zero =>
    unfold serveSkqN
    exact h
  | succ m ih =>
    unfold serveSkqN
    refine SkOut.served_memWf (skq_memWf h) h (fun _ _ h1 => ?_)
    split
    · exact ih h1
    · exact FarOp.putValue_memWf h1 (fun _ h2 => ih h2)

theorem serveSkadd_memWf {s : State} {o : FarOp} (h : s.memWf) : Served.all State.memWf (serveSkadd s o) := by
  unfold serveSkadd
  dsimp only
  split
  · exact SkOut.served_memWf (skadd_memWf h) h (fun _ _ h1 => h1)
  · split
    all_goals
      split
      · exact trivial
      · split
        · exact h
        · split
          · exact h
          · exact SkOut.served_memWf (skadd_memWf h) h (fun _ _ h1 => h1)
        · exact SkOut.served_memWf (skadd_memWf h) h (fun _ _ h1 => h1)

theorem serveFar_memWf {s : State} {o : FarOp} {own : List (W64 × Val)} (h : s.memWf) : (serveFar s o own).all State.memWf := by
  unfold serveFar
  extract_lets v
  split
  · exact targetRead_memWf h fun _ _ hx => targetWrite_memWf hx fun _ hy => hy
  · exact targetRead_memWf h fun _ _ hx => targetWrite_memWf hx fun _ hy => hy
  · exact serveCas_memWf h fun _ _ _ hx => hx
  · exact serveCas_memWf h fun _ _ _ hx => hx
  · exact serveEnq_memWf h
  · exact serveEnq_memWf h
  · have hw := fun c koff key hops fuel p => chaseWalk_memWf (die := o.die) (space := o.space) (cond := c) (koff := koff)
      (key := key) (hops := hops) (fuel := fuel) (k := 0) (late := 0) (p := p) h
    split
    next e => exact okOrError_of_eq e (hw _ _ _ _ _ _)
    next e => exact okOrError_of_eq e (hw _ _ _ _ _ _)
    next e => exact okOrError_of_eq e (hw _ _ _ _ _ _)
  · exact targetRead_memWf h fun _ _ hx => hx
  · exact serveStore_memWf h
  · exact SkOut.served_memWf (skup_memWf h) h fun _ _ hx => hx
  · exact ite_keeps (P := Served.all State.memWf) trivial (serveSkupN_memWf h)
  · exact SkOut.served_memWf (skq_memWf h) h fun _ _ hx => hx
  · exact serveSkqN_memWf h
  · exact serveSkadd_memWf h
  · exact h

theorem State.keepWalks_memWf {s t : State} (h : s.memWf) : (s.keepWalks t).memWf := State.updMe_memWf h

theorem State.keepFaults_memWf {s t : State} (h : s.memWf) : (s.keepFaults t).memWf :=
  State.foldl_memWf (fun _ _ h1 => State.updDie_memWf (fun h2 => h2) h1) h

theorem State.occupy_memWf {s : State} {die w n : Nat} (h : s.memWf) : (s.occupy die w n).memWf :=
  State.updDie_memWf (fun h1 => h1) h

theorem State.answer_memWf {s : State} {core : Nat} {o : FarOp} {r : List W64} {e : Option (Cause × W64)} {late : Nat}
    (h : s.memWf) :
    (s.answer core o r e late).memWf := by
  unfold State.answer
  dsimp only
  split
  · exact State.updCore_memWf h
  · exact State.updDie_memWf (fun h1 => Die.queuePacket_wf h1) (State.updCore_memWf h)

theorem State.setFar_memWf {s : State} {k : Nat} {o : FarOp} (h : s.memWf) : (s.setFar k o).memWf := State.updMe_memWf h

theorem State.askOperand_memWf {s : State} {k : Nat} {o : FarOp} {n : Nat} (h : s.memWf) : (s.askOperand k o n).memWf := by
  unfold State.askOperand
  dsimp only
  split
  · split <;> exact State.setFar_memWf (State.updMe_memWf h)
  · split
    · exact h
    · split
      · split
        · exact State.setFar_memWf h
        · exact State.memWf_mk rfl (State.setFar_memWf h)
      · split
        next e => exact State.setFar_memWf (Near.all_of_eq e (nearRead_memWf _ _ _ _ _ h))
        · exact State.keepFaults_memWf h
        next e => exact State.setFar_memWf (Near.all_of_eq e (nearRead_memWf _ _ _ _ _ h))

theorem Die.putToken_wf {d : Die} {t : Token} (h : Memory.wf d.mem = true) : Memory.wf (d.putToken t).mem = true := h

theorem Die.grant_wf {d : Die} {t : Token} {a2 : Nat × Nat} (h : Memory.wf d.mem = true) : Memory.wf (d.grant t a2).mem = true :=
  Die.wf_mk rfl (Die.putToken_wf h)

theorem Die.giveUp_wf {d : Die} {t : Token} {a2 : Nat × Nat} (h : Memory.wf d.mem = true) :
    Memory.wf (d.giveUp t a2).mem = true :=
  Die.wf_mk rfl (Die.putToken_wf h)

theorem State.resolve_memWf {s : State} {die : Nat} {t : Token} {me : Nat × Nat} {form : Nat} (h : s.memWf) :
    (s.resolve die t me form).memWf := by
  unfold State.resolve
  split
  · exact h
  · exact State.retoken_memWf _ _ _ _ h
  · exact State.retoken_memWf _ _ _ _ h

theorem State.dropOldest_memWf {s : State} {die : Nat} (h : s.memWf) : (s.dropOldest die).memWf := by
  unfold State.dropOldest
  split
  · exact h
  · split
    · exact State.retoken_memWf _ _ _ _ h
    · exact State.updDie_memWf (fun h1 => h1) h

theorem tokenPage_memWf {s : State} {die space form : Nat} {va : W64} (h : s.memWf) :
    okOrError (fun e => e.2.memWf) State.memWf (tokenPage s die space va form) := by
  have hx := ownerXlat_memWf s die space va (decide (form < 2)) false h
  unfold tokenPage
  split <;> rename_i e <;> rw [e] at hx
  · exact hx
  · exact hx
  · split <;> exact hx

theorem serveToken_memWf {s : State} {r : Inbound} {space form : Nat} (h : s.memWf) :
    (serveToken s r space form).all State.memWf := by
  have hp := tokenPage_memWf (die := bits r.addr 55 3) (space := space) (va := r.addr) (form := form) h
  unfold serveToken
  extract_lets die me region
  split <;> rename_i e <;> rw [e] at hp
  · exact hp
  · exact hp
  · split
    · refine State.updDie_memWf (fun hd => ?_) hp
      split
      · exact Die.giveUp_wf hd
      · exact hd
    · exact State.updDie_memWf (fun hd => Die.grant_wf hd)
        (ite_keeps (State.dropOldest_memWf (State.resolve_memWf hp)) (State.resolve_memWf hp))

theorem servePage_memWf {s : State} {r : Inbound} {space form : Nat} {write : Bool} (h : s.memWf) :
    Served.all State.memWf (servePage s r space form write) := by
  unfold servePage
  dsimp only
  split
  next e => exact OwnerX.all_of_eq e (ownerXlat_memWf _ _ _ _ _ _ h)
  next e => exact OwnerX.all_of_eq e (ownerXlat_memWf _ _ _ _ _ _ h)
  next e =>
    have h1 := OwnerX.all_of_eq e (ownerXlat_memWf _ _ _ _ _ _ h)
    split
    · split
      next e2 => exact (State.pinAll_memWf h1) _ e2
      · exact h1
    · split
      · exact State.unpinAll_memWf h1
      · exact h1

theorem serveInbound_memWf {s : State} {r : Inbound} {space : Nat} (h : s.memWf) :
    Served.all State.memWf (serveInbound s r space) := by
  unfold serveInbound
  dsimp only
  split
  · exact servePage_memWf h
  · split
    · exact serveToken_memWf h
    · split
      · exact Near.served_memWf (nearRead_memWf _ _ _ _ _ (State.revokeFor_memWf _ _ _ _ _ _ _ h))
          (fun _ _ h1 => Near.served_memWf (nearWrite_memWf _ _ _ _ _ h1) (fun _ _ h2 => h2))
      · split
        · exact Near.served_memWf (nearRead_memWf _ _ _ _ _ (State.revokeFor_memWf _ _ _ _ _ _ _ h)) (fun _ _ h1 => h1)
        · split
          · exact serveFar_memWf h
          · exact h

theorem State.answerInbound_memWf {s : State} {w j : Nat} (h : s.memWf) : (s.answerInbound w j).memWf := by
  unfold State.answerInbound
  dsimp only
  split
  · exact h
  · split
    · exact h
    · split
      · exact State.memWf_mk rfl (State.occupy_memWf h)
      · split
        · exact h
        · split
          next e => exact State.memWf_mk rfl (State.occupy_memWf (Served.all_of_eq e (serveInbound_memWf h)))
          next e => exact State.memWf_mk rfl (State.occupy_memWf (Served.all_of_eq e (serveInbound_memWf h)))
          · exact State.keepFaults_memWf h
          · exact h

theorem execWallowerService_memWf {w : BitVec 2} {k : Nat} {s : State} (h : s.memWf) :
    Out.all State.memWf (execWallowerService w k s) := by
  unfold execWallowerService
  split
  · exact State.answerInbound_memWf h
  · split
    · exact State.askOperand_memWf h
    · split
      · exact State.updDie_memWf (fun h1 => h1) (State.answer_memWf h)
      · split
        · exact h
        · split
          next e => exact State.answer_memWf (State.occupy_memWf (Served.all_of_eq e (serveFar_memWf h)))
          next e => exact State.answer_memWf (State.occupy_memWf (Served.all_of_eq e (serveFar_memWf h)))
          · exact State.keepFaults_memWf h
          · exact State.askOperand_memWf h

theorem State.takeMessage_memWf {s : State} {j : Nat} (h : s.memWf) : (s.takeMessage j).memWf := by
  unfold State.takeMessage
  dsimp only
  split
  · exact h
  · exact State.memWf_mk rfl (State.updCore_memWf h)

theorem writeBack_memWf {size : Nat} {ea : W64} {j : Nat} {xs : List W64} {s : State} (h : s.memWf) :
    Pushed.all State.memWf (writeBack size ea j xs s) := by
  induction xs generalizing j s with
  | nil =>
    unfold writeBack
    exact h
  | cons x xs ih =>
    unfold writeBack
    dsimp only
    split
    next e =>
      have h1 := Xlat.all_of_eq e (locate_memWf _ _ _ _ _ h)
      split
      · exact ih h1
      · split
        · exact h1
        · split
          next e2 =>
            have h2 := State.memWf_fst e2 (State.farWrite_memWf h1)
            exact ih h2
          next e2 => exact State.memWf_fst e2 (State.farWrite_memWf h1)
    next e => exact Xlat.all_of_eq e (locate_memWf _ _ _ _ _ h)
    next e => exact Xlat.all_of_eq e (locate_memWf _ _ _ _ _ h)

theorem State.resultOf_memWf {s : State} {o : FarOp} (h : s.memWf) : Pushed.all State.memWf (s.resultOf o) := by
  unfold State.resultOf
  split
  · split
    next e =>
      have h1 := Pushed.all_of_eq e (writeBack_memWf h)
      exact h1
    · exact writeBack_memWf h
  · split
    · exact writeBack_memWf h
    · exact h
  · exact h

theorem State.farPush_memWf {s : State} {o : FarOp} {r : List W64} (h : s.memWf) : (s.farPush o r).memWf := State.updMe_memWf h

theorem execFarReply_memWf {k : Nat} {s : State} (h : s.memWf) : Out.all State.memWf (execFarReply k s) := by
  unfold execFarReply
  split
  · exact State.takeMessage_memWf h
  · extract_lets t gone
    have ht : t.memWf := by
      dsimp only [t]
      split
      · exact ite_keeps h (State.updMe_memWf h)
      · exact h
    have hgone : ∀ x, x.memWf → (gone x).memWf := fun _ hx => State.updMe_memWf hx
    clear_value t gone
    split
    · exact ht
    next o _ =>
      have hr := State.resultOf_memWf (o := o) ht
      split
      · exact ht
      · split
        · exact ite_keeps (P := State.memWf) (takeTrap_memWf (hgone _ ht)) (hgone _ ht)
        · split <;> rename_i e <;> have hx := Pushed.all_of_eq e hr
          · exact State.farPush_memWf (hgone _ hx)
          · exact State.keepWalks_memWf ht
          · exact ite_keeps (P := State.memWf) (takeTrap_memWf (hgone _ hx)) (hgone _ hx)
        · exact ht
        · split <;> rename_i e <;> have hx := Pushed.all_of_eq e hr
          · exact hgone _ hx
          · exact State.keepWalks_memWf ht
          · exact hgone _ (State.updMe_memWf hx)

theorem execReportArrival_memWf {k : Nat} {s : State} (h : s.memWf) : Out.all State.memWf (execReportArrival k s) := by
  unfold execReportArrival
  split
  · exact h
  · split
    · split
      · exact h
      · exact State.updMe_memWf h
    · exact h

theorem execCombineTimerFlush_memWf {k : Nat} {s : State} (h : s.memWf) : Out.all State.memWf (execCombineTimerFlush k s) := by
  unfold execCombineTimerFlush
  split
  · exact h
  · split
    · exact State.flushComb_memWf h
    · exact h

theorem State.logDone_memWf {s : State} {x : Logged} {e : Option (Cause × W64)} (h : s.memWf) : (s.logDone x e).memWf := by
  unfold State.logDone
  split
  · exact State.answer_memWf h
  · exact h

theorem State.applyLog_memWf {w : Nat} {x : Logged} {s : State} (h : s.memWf) : (s.applyLog w x).memWf := by
  have ha : ∀ n, State.memWf { s with actor := n } := fun _ => h
  unfold State.applyLog
  extract_lets n
  split
  next e => exact State.logDone_memWf (State.occupy_memWf (Served.all_of_eq e (serveFar_memWf (ha _))))
  next e => exact State.logDone_memWf (State.occupy_memWf (Served.all_of_eq e (serveFar_memWf (ha _))))
  next e => exact State.keepFaults_memWf h
  next => exact h

theorem execSketchLogApply_memWf {w : BitVec 2} {s : State} (h : s.memWf) : Out.all State.memWf (execSketchLogApply w s) := by
  unfold execSketchLogApply
  extract_lets log first mine done
  clear_value done mine
  split
  · exact h
  · split
    · exact h
    · exact State.applyLog_memWf h

/-! ## Links -/

theorem State.updLink_memWf {s : State} {l : Nat} {f : Link → Link} (h : s.memWf) : (s.updLink l f).memWf := h

theorem State.farEvent_memWf {s : State} {die : Option Nat} {lo : Nat} (h : s.memWf) : (s.farEvent die lo).memWf := by
  unfold State.farEvent
  split
  · exact State.updDie_memWf (fun h1 => Die.bumpReg_wf h1) h
  · exact h

theorem State.stationBreach_memWf {s : State} {die : Option Nat} {n : Nat} (h : s.memWf) : (s.stationBreach die n).memWf := by
  unfold State.stationBreach
  split
  · exact State.updDie_memWf (fun h1 => Die.bumpReg_wf h1) h
  · exact h

theorem State.sendFlit_memWf {s : State} {l : Nat} {f : Flit} (h : s.memWf) : (s.sendFlit l f).memWf := State.updLink_memWf h

theorem State.arrivePacket_memWf {s : State} {p : Packet} (h : s.memWf) : (s.arrivePacket p).memWf := State.updCore_memWf h

theorem State.leavePacket_memWf {s : State} {p : Packet} (h : s.memWf) : (s.leavePacket p).memWf := by
  unfold State.leavePacket
  dsimp only
  split
  · split
    · exact State.updCore_memWf h
    · exact State.memWf_mk rfl (State.updCore_memWf h)
  · exact h

theorem State.pass_memWf {s : State} {l : Nat} {f : Flit} (h : s.memWf) : (s.pass l f).memWf := State.updLink_memWf h

theorem State.deliverFlit_memWf {s : State} {l : Nat} {f : Flit} (h : s.memWf) : (s.deliverFlit l f).memWf := by
  unfold State.deliverFlit
  split
  · exact State.pass_memWf h
  · split
    · exact State.foldl_memWf (fun _ _ h1 => State.leavePacket_memWf h1) h
    · exact State.foldl_memWf (fun _ _ h1 => State.arrivePacket_memWf h1) h

theorem execFlitReceive_memWf {l : Nat} {s : State} (h : s.memWf) : Out.all State.memWf (execFlitReceive l s) := by
  unfold execFlitReceive
  dsimp only
  split
  · exact h
  · split
    · exact h
    · split
      · show State.memWf _
        split
        · exact State.updLink_memWf (State.updLink_memWf h)
        · exact State.deliverFlit_memWf (State.updLink_memWf h)
      · split
        · exact State.updLink_memWf h
        · split
          · exact State.farEvent_memWf (State.farEvent_memWf (State.updLink_memWf (State.updLink_memWf h)))
          · split
            · exact State.updLink_memWf h
            · split
              · exact h
              · split
                · exact State.pass_memWf (State.farEvent_memWf (State.updLink_memWf (State.updLink_memWf h)))
                · split
                  · exact State.updLink_memWf (State.updLink_memWf h)
                  · exact State.deliverFlit_memWf (State.updLink_memWf (State.updLink_memWf h))

theorem execReplayRequest_memWf {l : Nat} {s : State} (h : s.memWf) : Out.all State.memWf (execReplayRequest l s) := by
  unfold execReplayRequest
  dsimp only
  split
  · exact h
  · exact State.stationBreach_memWf (State.updLink_memWf h)

theorem execFlitAck_memWf {l q : Nat} {s : State} (h : s.memWf) : Out.all State.memWf (execFlitAck l q s) := by
  unfold execFlitAck
  dsimp only
  split
  · exact State.sendFlit_memWf (State.updLink_memWf (State.updLink_memWf h))
  · exact State.updLink_memWf h

theorem execRotationMarker_memWf {l : Nat} {s : State} (h : s.memWf) : Out.all State.memWf (execRotationMarker l s) := by
  unfold execRotationMarker
  dsimp only
  split
  · split
    · exact State.updLink_memWf h
    · exact h
  · exact h

theorem State.clearReady_memWf {s : State} {bit : Nat} (h : s.memWf) : (s.clearReady bit).memWf := h

theorem execLinkDown_memWf {l : Nat} {s : State} (h : s.memWf) : Out.all State.memWf (execLinkDown l s) := by
  unfold execLinkDown
  dsimp only
  split
  · exact h
  · exact State.foldl_memWf (fun _ _ h1 => State.pass_memWf h1) (State.stationBreach_memWf
      (State.clearReady_memWf (State.updLink_memWf h)))

theorem State.depart_memWf {s : State} {die at_ hops : Nat} {ps : List Packet} (h : s.memWf) :
    (s.depart die at_ hops ps).memWf := by
  unfold State.depart
  refine State.foldl_memWf (fun _ _ h1 => ?_) (State.updDie_memWf (fun h2 => h2) h)
  dsimp only
  split
  · exact h1
  · exact State.updCore_memWf h1

theorem State.slotCopy_memWf {s : State} {die : Nat} {x : Slot} (h : s.memWf) : (s.slotCopy die x).memWf := by
  unfold State.slotCopy
  dsimp only
  split
  · exact h
  · split
    · exact h
    · exact State.updCore_memWf h

theorem State.slotExchange_memWf {s : State} {die : Nat} {x : Slot} (h : s.memWf) : (s.slotExchange die x).memWf := by
  unfold State.slotExchange
  dsimp only
  split
  · exact h
  · split
    · exact h
    · exact State.setColl_memWf h

theorem State.sendSlot_memWf {s : State} {l : Nat} {x : Slot} {f : Flit} (h : s.memWf) : (s.sendSlot l x f).memWf := by
  unfold State.sendSlot
  split
  · exact State.sendFlit_memWf (State.updLink_memWf h)
  · exact State.sendFlit_memWf h

theorem execSlotDeparture_memWf {k : Nat} {s : State} (h : s.memWf) : Out.all State.memWf (execSlotDeparture k s) := by
  unfold execSlotDeparture
  dsimp only
  split
  · split
    · exact h
    · refine State.sendSlot_memWf ?_
      split
      · split
        · exact State.stationBreach_memWf (State.updDie_memWf (fun h1 => h1) (State.slotCopy_memWf (State.depart_memWf h)))
        · exact State.updDie_memWf (fun h1 => h1) (State.slotCopy_memWf (State.depart_memWf h))
      · split
        · split
          · exact State.stationBreach_memWf (State.updDie_memWf (fun h1 => h1) (State.slotExchange_memWf (State.depart_memWf h)))
          · exact State.updDie_memWf (fun h1 => h1) (State.slotExchange_memWf (State.depart_memWf h))
        · split
          · exact State.stationBreach_memWf (State.updDie_memWf (fun h1 => h1) (State.depart_memWf h))
          · exact State.updDie_memWf (fun h1 => h1) (State.depart_memWf h)
  · exact h

theorem State.sendPackets_memWf {die n : Nat} {s : State} (h : s.memWf) : (State.sendPackets die n s).memWf := by
  induction n generalizing s with
  | zero =>
    unfold State.sendPackets
    exact h
  | succ n ih =>
    unfold State.sendPackets
    dsimp only
    split
    · exact h
    · split
      · exact h
      · exact ih (State.sendFlit_memWf (State.depart_memWf h))

theorem State.resend_memWf {s : State} {l : Nat} (h : s.memWf) : (s.resend l).memWf := State.updLink_memWf h

theorem State.linkCycle_memWf {s : State} {l : Nat} (h : s.memWf) : (s.linkCycle l).memWf := by
  unfold State.linkCycle
  dsimp only
  split
  · exact h
  · split
    · split
      · exact h
      · exact State.resend_memWf h
    · split
      · split
        · exact State.sendFlit_memWf (State.updLink_memWf h)
        · exact h
      · exact h

theorem State.ringCycle_memWf {s : State} (h : s.memWf) : s.ringCycle.memWf :=
  State.foldl_memWf (fun _ _ h1 => State.sendPackets_memWf h1) (State.foldl_memWf (fun _ _ h2 => State.linkCycle_memWf h2) h)

/-! ## Rows -/

theorem State.rowsRead_memWf {s : State} {r : RowsRun} {x : Nat × Nat} (h : s.memWf) : (s.rowsRead r x).1.memWf := by
  unfold State.rowsRead
  dsimp only
  split
  · exact h
  next e =>
    have h1 := State.memWf_fst e (State.padRead_memWf h)
    split
    · exact h1
    · exact State.stickIf_memWf h1

theorem State.rowsWrite_memWf {s : State} {r : RowsRun} {x : Nat × Nat} (h : s.memWf) : (s.rowsWrite r x).memWf :=
  State.updMe_memWf h

theorem State.rowsOver_memWf {s : State} (h : s.memWf) : s.rowsOver.memWf := by
  unfold State.rowsOver
  dsimp only
  split
  all_goals
    split
    · exact State.updMe_memWf h
    · exact h

theorem State.rowsStep_memWf {s : State} (h : s.memWf) : s.rowsStep.memWf := by
  unfold State.rowsStep
  dsimp only
  split
  · exact h
  · split
    · exact State.updMe_memWf h
    · split
      · split
        · split
          · exact State.updMe_memWf (State.rowsRead_memWf (State.rowsWrite_memWf h))
          · split <;> exact State.updMe_memWf (State.updMe_memWf (State.rowsRead_memWf (State.rowsWrite_memWf h)))
        · split
          · exact State.updMe_memWf (State.rowsRead_memWf h)
          · split <;> exact State.updMe_memWf (State.updMe_memWf (State.rowsRead_memWf h))
      · dsimp only
        split
        · split
          · exact State.updMe_memWf (State.rowsWrite_memWf h)
          · split <;> exact State.updMe_memWf (State.updMe_memWf (State.rowsWrite_memWf h))
        · split
          · exact State.updMe_memWf h
          · split <;> exact State.updMe_memWf (State.updMe_memWf h)

theorem execWRows_memWf {f : BitVec 3} {m : BitVec 2} {s : State} (h : s.memWf) : Out.all State.memWf (execWRows f m s) := by
  unfold execWRows
  refine issueN_memWf (fun _ h1 => popping_memWf (fun _ _ h2 => ?_) h1) h
  dsimp only
  split
  · exact Res.fail_memWf
  · exact State.updMe_memWf h2

theorem execWTime_memWf {s : State} (h : s.memWf) : Out.all State.memWf (execWTime s) := by
  unfold execWTime
  refine issue_memWf (fun _ h1 => popping_memWf (fun _ _ h2 => ?_) h1) h
  dsimp only
  split
  · exact Res.fail_memWf
  · exact State.updMe_memWf h2

theorem execWTimeGet_memWf {s : State} (h : s.memWf) : Out.all State.memWf (execWTimeGet s) :=
  issue_memWf (fun _ h1 => popping_memWf (fun _ _ h2 => pushing_memWf h2) h1) h

theorem execWRstat_memWf {i : BitVec 1} {k_ : BitVec 3} {s : State} (h : s.memWf) : Out.all State.memWf (execWRstat i k_ s) := by
  unfold execWRstat
  refine issue_memWf (fun _ h1 => popping_memWf (fun _ _ h2 => ?_) h1) h
  dsimp only
  split
  · split
    · exact Res.fail_memWf
    · split
      · exact h2
      · exact State.updMe_memWf (State.updVec_memWf h2)
  · exact Res.fail_memWf

/-! ## A cycle -/

theorem State.within_memWf {s : State} {core : Nat} {f : State → State} (h : s.memWf) (hf : ∀ (x : State), x.memWf → (f x).memWf)
    :
    (s.within core f).memWf :=
  State.memWf_mk rfl (hf _ h)

theorem State.sample_memWf {s : State} {l : Late} {ca n after : Nat} {dest : Option (Nat × Nat)} (h : s.memWf) :
    (s.sample l ca n after dest).memWf := by
  unfold State.sample
  dsimp only
  split
  · exact pushing_memWf h
  · exact State.updMe_memWf h

theorem State.land_memWf {ls : List Late} {full : List Nat} {s : State} (h : s.memWf) : (State.land ls full s).memWf := by
  induction ls generalizing full s with
  | nil =>
    unfold State.land
    exact h
  | cons x ls ih =>
    unfold State.land
    dsimp only
    split
    · split
      · exact ih h
      · exact ih (State.updMe_memWf (State.updMe_memWf h))
    · split
      · exact ih (State.updMe_memWf (State.updMe_memWf (State.updMe_memWf h)))
      · exact ih (State.updMe_memWf (State.updMe_memWf h))
    · exact ih (State.updMe_memWf (State.updMe_memWf h))
    · exact ih (State.updMe_memWf (State.updMe_memWf h))
    · exact ih (State.sample_memWf (State.updMe_memWf h))
    · exact ih (State.updMat_memWf (State.updMe_memWf h))
    · exact ih (State.updMe_memWf (State.updMe_memWf h))

theorem State.coreCycle_memWf {s : State} (h : s.memWf) : s.coreCycle.memWf := State.land_memWf (State.updMe_memWf h)

theorem State.passCycle_memWf {s : State} (h : s.memWf) : s.passCycle.memWf :=
  State.foldl_memWf (fun _ _ h1 => State.within_memWf h1 (fun _ h2 => State.coreCycle_memWf h2))
    (State.memWf_mk rfl (State.ringCycle_memWf (State.owedWaits_memWf (State.foldl_memWf
    (fun _ _ h3 => State.within_memWf h3 (fun _ h4 => State.rowsOver_memWf (State.rowsStep_memWf h4))) h))))

/-! ## Management -/

theorem queueAppend_memWf {s : State} {die reg space : Nat} {r : List Byte} (h : s.memWf) :
    Queued.all State.memWf (queueAppend s die reg space r) := by
  unfold queueAppend
  dsimp only
  split
  · exact trivial
  · split
    next e => exact Near.all_of_eq e (millRead_memWf _ _ _ _ h)
    · exact trivial
    next e =>
      have h1 := Near.all_of_eq e (millRead_memWf _ _ _ _ h)
      split
      · exact trivial
      · split
        · split
          next e2 => exact Near.all_of_eq e2 (millWrite_memWf _ _ _ _ h1)
          · exact trivial
        · split
          next e2 =>
            have h2 := Near.all_of_eq e2 (Near.bind_memWf (millWrite_memWf _ _ _ _ h1) (fun _ _ h3 => millWrite_memWf _ _ _ _ h3))
            exact h2
          · exact trivial

theorem State.fillTlb_memWf {s : State} {die : Nat} {e : TlbEntry} (h : s.memWf) : (s.fillTlb die e).memWf := by
  unfold State.fillTlb
  split
  · exact State.updMe_memWf h
  · exact State.updDie_memWf (fun h1 => h1) h

theorem Die.logWalk_wf {d : Die} {space : Nat} {va : W64} (h : Memory.wf d.mem = true) :
    Memory.wf (d.logWalk space va).mem = true := by
  unfold Die.logWalk
  split
  · exact Die.logInteg_wf h
  · exact h

theorem pageFault_memWf {s : State} {j : Nat} {w : Walk} (h : s.memWf) : (pageFault s j w).memWf := by
  unfold pageFault
  dsimp only
  split
  next e => split <;> exact State.updMe_memWf (Queued.all_of_eq e (queueAppend_memWf h))
  · exact State.updMe_memWf h

theorem sideFault_memWf {s : State} {j : Nat} {f : PageFault} (h : s.memWf) : (sideFault s j f).memWf := by
  unfold sideFault
  dsimp only
  split
  next e => exact State.updDie_memWf (fun h2 => h2) (Queued.all_of_eq e (queueAppend_memWf h))
  · exact h

theorem execPageWalk_memWf {k : Nat} {s : State} (h : s.memWf) : Out.all State.memWf (execPageWalk k s) := by
  unfold execPageWalk
  dsimp only
  split
  · split
    · exact h
    · split
      · exact State.updMe_memWf (State.fillTlb_memWf (State.updDie_memWf (fun h1 => Die.heatWalk_wf h1) h))
      · refine State.updMe_memWf ?_
        split
        · exact State.updDie_memWf (fun h1 => Die.logWalk_wf h1) (State.updDie_memWf (fun h2 => Die.heatWalk_wf h2) h)
        · exact State.updDie_memWf (fun h1 => Die.heatWalk_wf h1) h
      · exact pageFault_memWf h
  · split
    · split
      · exact h
      · exact sideFault_memWf h
    · exact h

theorem State.dropTlb_memWf {s : State} {die : Nat} {gone : TlbEntry → Bool} (h : s.memWf) : (s.dropTlb die gone).memWf :=
  State.memWf_mk rfl (State.updDie_memWf (fun h1 => h1) h)

theorem tlbCommand_memWf {covers : State → Nat → W64 → TlbEntry → Bool} {also : State → Nat → W64 → Bool} {w : RegWrite}
    {s : State} (h : s.memWf) :
    (tlbCommand covers also w s).memWf := by
  unfold tlbCommand
  refine State.updDie_memWf (fun h1 => Die.setReg_wf h1) ?_
  split
  · exact h
  · exact State.dropTlb_memWf h

theorem execTlbInvPage_memWf {s : State} (h : s.memWf) : Out.all State.memWf (execTlbInvPage s) :=
  applyWrite_memWf h (fun _ _ h1 => tlbCommand_memWf h1)

theorem execTlbInvSpace_memWf {s : State} (h : s.memWf) : Out.all State.memWf (execTlbInvSpace s) :=
  applyWrite_memWf h (fun _ _ h1 => tlbCommand_memWf h1)

theorem execTlbInvAll_memWf {s : State} (h : s.memWf) : Out.all State.memWf (execTlbInvAll s) :=
  applyWrite_memWf h (fun _ _ h1 => tlbCommand_memWf h1)

theorem execKeyRotate_memWf {s : State} (h : s.memWf) : Out.all State.memWf (execKeyRotate s) := by
  unfold execKeyRotate
  refine applyWrite_memWf h (fun _ _ h1 => State.updDie_memWf (fun h2 => ?_) h1)
  dsimp only
  split
  · exact h2
  · exact Die.wf_mk rfl (Die.setReg_wf h2)

theorem Die.patrolLine_wf {d : Die} {tier off : Nat} (h : Memory.wf d.mem = true) :
    Memory.wf (d.patrolLine tier off).mem = true := by
  unfold Die.patrolLine
  dsimp only
  split
  · exact h
  · split
    · exact Die.logInteg_wf (Die.heat_wf (Die.correct_wf _ _ _ h))
    · split
      · exact Die.heat_wf (Die.correct_wf _ _ _ h)
      · exact Die.heat_wf (Die.sealLine_wf _ _ _ _ (Die.heat_wf (Die.correct_wf _ _ _ h)))

theorem Die.passDone_wf {d : Die} (h : Memory.wf d.mem = true) : Memory.wf d.passDone.mem = true :=
  Die.wf_mk rfl (Die.setReg_wf h)

theorem execPatrolLine_memWf {s : State} (h : s.memWf) : Out.all State.memWf (execPatrolLine s) := by
  unfold execPatrolLine
  dsimp only
  split
  · exact h
  · split
    · exact h
    · refine State.memWf_setDie h ?_
      split
      · exact Die.passDone_wf (Die.wf_mk rfl (Die.patrolLine_wf (h _)))
      · exact Die.wf_mk rfl (Die.patrolLine_wf (h _))

theorem execRotationPassEnd_memWf {s : State} (h : s.memWf) : Out.all State.memWf (execRotationPassEnd s) := by
  unfold execRotationPassEnd
  extract_lets d
  split
  · refine State.memWf_setDie h ?_
    change Memory.wf (if d.mem.baseVer < 16 then _ else d.mem) = true
    split
    · exact h _
    · exact h _
  · exact h

theorem Die.halve_wf {d : Die} (h : Memory.wf d.mem = true) : Memory.wf d.halve.mem = true := h

theorem execEpochClose_memWf {s : State} (h : s.memWf) : Out.all State.memWf (execEpochClose s) := by
  unfold execEpochClose
  dsimp only
  split
  · exact h
  · exact State.memWf_setDie h (Die.wf_mk rfl (Die.halve_wf (Die.setReg_wf (h _))))

theorem Die.putLine_wf {d : Die} {tier off : Nat} {x : LineImage} (h : Memory.wf d.mem = true) :
    Memory.wf (d.putLine tier off x).mem = true := by
  have hput := Die.sealLine_wf { d with mem := d.mem.putBytes d tier off x.bytes } tier off (if x.ok then d.keyCur else x.ver)
    (d.mem.putBytes_wf d tier off x.bytes h)
  unfold Die.putLine
  rw [Memory.wf_iff] at hput ⊢
  obtain ⟨hfast, hcap, hwrote, hfailed, hsoft, holder⟩ := hput
  exact ⟨hfast, hcap, hwrote, SMap.wf_set _ _ _ _ hfailed, SMap.wf_set _ _ _ _ hsoft, holder⟩

theorem Die.swapLine_wf {d : Die} {w : Swap} {i : Nat} (h : Memory.wf d.mem = true) : Memory.wf (d.swapLine w i).mem = true := by
  unfold Die.swapLine
  dsimp only
  split
  · exact Die.putLine_wf h
  · exact Die.putLine_wf (Die.putLine_wf h)

theorem Die.putTable_wf {d : Die} {at_ : Option (Nat × Nat)} {x : Nat} (h : Memory.wf d.mem = true) :
    Memory.wf (d.putTable at_ x).mem = true := by
  unfold Die.putTable
  split
  · exact Die.wf_getD (Die.poke_memWf (Die.heat_wf h)) h
  · exact h

theorem Die.heatSwap_wf {d : Die} {w : Swap} (h : Memory.wf d.mem = true) : Memory.wf (d.heatSwap w).mem = true :=
  Die.heat_wf (Die.heat_wf h)

theorem Die.swapFrames_wf {d : Die} {w : Swap} (h : Memory.wf d.mem = true) : Memory.wf (d.swapFrames w).mem = true := by
  unfold Die.swapFrames
  refine Die.putTable_wf (Die.putTable_wf ?_)
  split
  · split
    · exact Die.putTable_wf (Die.heatSwap_wf (Die.foldl_wf (fun _ _ h1 => Die.swapLine_wf h1) h))
    · exact Die.heatSwap_wf (Die.foldl_wf (fun _ _ h1 => Die.swapLine_wf h1) h)
  · split
    · refine Die.putTable_wf ?_
      split
      · exact Die.putTable_wf (Die.heatSwap_wf (Die.foldl_wf (fun _ _ h1 => Die.swapLine_wf h1) h))
      · exact Die.heatSwap_wf (Die.foldl_wf (fun _ _ h1 => Die.swapLine_wf h1) h)
    · split
      · exact Die.putTable_wf (Die.heatSwap_wf (Die.foldl_wf (fun _ _ h1 => Die.swapLine_wf h1) h))
      · exact Die.heatSwap_wf (Die.foldl_wf (fun _ _ h1 => Die.swapLine_wf h1) h)

theorem Die.countSwap_wf {d : Die} (h : Memory.wf d.mem = true) : Memory.wf d.countSwap.mem = true := Die.setReg_wf h

theorem State.doSwap_memWf {s : State} {die : Nat} {w : Swap} (h : s.memWf) : (s.doSwap die w).memWf :=
  State.dropTlb_memWf (State.updDie_memWf (fun h1 => Die.countSwap_wf (Die.swapFrames_wf h1)) h)

theorem execSwapComplete_memWf {s : State} (h : s.memWf) : Out.all State.memWf (execSwapComplete s) := by
  unfold execSwapComplete
  dsimp only
  split
  · exact h
  · exact State.updDie_memWf (fun h1 => h1) (State.doSwap_memWf h)

/-! ## Placement -/

theorem State.updLaunch_memWf {s : State} {die id : Nat} {f : Launch → Launch} (h : s.memWf) : (s.updLaunch die id f).memWf :=
  State.updDie_memWf (fun h1 => h1) h

theorem State.setTask_memWf {s : State} {t : TaskRef} {st : TaskSt} (h : s.memWf) : (s.setTask t st).memWf :=
  State.updLaunch_memWf h

theorem State.requeue_memWf {s : State} {t : TaskRef} (h : s.memWf) : (s.requeue t).memWf := State.updDie_memWf (fun h1 => h1) h

theorem State.assign_memWf {s : State} {die : Nat} {l : Launch} {i core : Nat} {run : Run} (h : s.memWf) :
    (s.assign die l i core run).memWf :=
  State.updLaunch_memWf (State.setTask_memWf (State.updCore_memWf h))

theorem execTaskPlace_memWf {id i : Nat} {s : State} (h : s.memWf) : Out.all State.memWf (execTaskPlace id i s) := by
  unfold execTaskPlace
  dsimp only
  split
  · exact h
  · split
    · exact h
    · split
      · exact h
      · split
        · exact State.updCore_memWf (State.assign_memWf (State.updDie_memWf (fun h1 => h1) h))
        · exact State.assign_memWf h
      · split
        · exact h
        · exact State.foldl_memWf (fun _ _ h1 => State.assign_memWf h1) (State.updDie_memWf (fun h2 => Die.formGroup_wf h2) h)

/-! ## Frames -/

theorem writeFrame_memWf {s : State} {space at_ core : Nat} {k : Core} (h : s.memWf) :
    Near.all State.memWf (writeFrame s space at_ core k) :=
  Near.foldl_memWf (fun _ _ h1 => Near.bind_memWf h1 (fun _ _ h2 => millWrite_memWf _ _ _ _ h2)) h

/-! ## Ordering -/

theorem datumAt_memWf {s : State} {d : W64} (h : s.memWf) : DatumAt.all State.memWf (datumAt s d) := by
  unfold datumAt
  split
  · exact trivial
  next e => exact FarX.all_of_eq e (farTo_memWf h)
  next e =>
    have h1 := FarX.all_of_eq e (farTo_memWf h)
    split
    · exact h1
    · exact h1
    · split
      next e2 => exact OwnerX.all_of_eq e2 (ownerXlat_memWf _ _ _ _ _ _ h1)
      next e2 => exact OwnerX.all_of_eq e2 (ownerXlat_memWf _ _ _ _ _ _ h1)
      · exact trivial

theorem State.askPeer_memWf {s : State} {package off op : Nat} {args : List W64} {wait : Bool} (h : s.memWf) :
    (s.askPeer package off op args wait).memWf := by
  unfold State.askPeer
  refine State.memWf_mk rfl ?_
  split
  · exact State.updMe_memWf h
  · exact h

theorem State.peerAnswer_memWf {s : State} (h : s.memWf) : ∀ y, s.peerAnswer = some y → y.2.memWf := by
  unfold State.peerAnswer
  split
  · intro y hy
    obtain ⟨x, -, rfl⟩ := Option.map_eq_some_iff.mp hy
    exact h
  · exact forall_none_eq

theorem datumCheck_memWf {s : State} {d : W64} {f : Res} (h' : Res.all State.memWf f) :
    Res.all State.memWf (datumCheck s d f) := by
  unfold datumCheck
  split
  · exact Res.fail_memWf
  · split
    · exact Res.fail_memWf
    · exact h'

theorem State.waitFor_memWf {s : State} {w : SWait} (h : s.memWf) : (s.waitFor w).memWf := State.updMe_memWf h

theorem acqBody_memWf {shared : Bool} {op : Nat} {s0 : State} (h : s0.memWf) : Res.all State.memWf (acqBody shared op s0) := by
  unfold acqBody
  dsimp only
  split
  · exact popping_memWf (fun _ _ h1 => State.waitFor_memWf h1) h
  · exact h
  · refine popping_memWf (fun _ _ h1 => datumCheck_memWf ?_) h
    split
    · exact Res.fail_memWf
    next e => exact DatumAt.all_of_eq e (datumAt_memWf h)
    next e =>
      have h2 := DatumAt.all_of_eq e (datumAt_memWf h)
      split
      · exact Res.fail_memWf
      · exact State.askPeer_memWf (State.waitFor_memWf h2)
    next e =>
      have h2 := DatumAt.all_of_eq e (datumAt_memWf h)
      split
      · exact Res.fail_memWf
      · split
        · split
          · exact Res.fail_memWf
          · exact State.updDie_memWf (fun h3 => h3) (State.waitFor_memWf h2)
        · split
          · exact h2
          · exact Res.fail_memWf

theorem execSAcq_memWf {sc : BitVec 3} {s : State} (h : s.memWf) : Out.all State.memWf (execSAcq sc s) :=
  issueS_memWf (fun _ h1 => acqBody_memWf h1) h

theorem execSAcqSh_memWf {sc : BitVec 3} {s : State} (h : s.memWf) : Out.all State.memWf (execSAcqSh sc s) :=
  issueS_memWf (fun _ h1 => acqBody_memWf h1) h

theorem execAcquireGrant_memWf {k : Nat} {s : State} (h : s.memWf) : Out.all State.memWf (execAcquireGrant k s) := by
  unfold execAcquireGrant
  extract_lets die d gone
  split
  · split
    next e =>
      have ht := State.peerAnswer_memWf h _ e
      split
      · exact takeTrap_memWf ht
      · exact State.updMe_memWf ht
    next => exact h
  · extract_lets fail
    split
    · exact h
    · have hg : gone.memWf := State.updDie_memWf (fun hd => hd) h
      split <;> rename_i e <;> have ht := State.memWf_fst e (State.read_memWf _ _ _ _ _ hg)
      · exact State.updCore_memWf ht
      · split
        · exact State.updCore_memWf ht
        · split
          · exact h
          · exact State.updCore_memWf (State.write_memWf _ _ _ _ _ _ ht)

theorem State.release_memWf {s : State} {a1 : Held} {op : Nat} (h : s.memWf) : (s.release a1 op).1.memWf := by
  unfold State.release
  dsimp only
  split
  next e => exact State.updDie_memWf (fun h2 => h2) (State.updMe_memWf (DatumAt.all_of_eq e (datumAt_memWf h)))
  next e => exact State.askPeer_memWf (State.updMe_memWf (DatumAt.all_of_eq e (datumAt_memWf h)))
  next e => exact DatumAt.all_of_eq e (datumAt_memWf h)
  · exact State.updMe_memWf h

theorem relBody_memWf {op : Nat} {s0 : State} (h : s0.memWf) : Res.all State.memWf (relBody op s0) := by
  unfold relBody
  dsimp only
  split
  · refine popping_memWf (fun _ _ h1 => ?_) h
    split
    · split
      next e => exact State.waitFor_memWf (State.memWf_fst e (State.release_memWf h1))
      next e => exact State.memWf_fst e (State.release_memWf h1)
    · exact State.waitFor_memWf h1
  · exact h
  · refine popping_memWf (fun _ _ h1 => datumCheck_memWf ?_) h
    split
    · exact Res.fail_memWf
    next e => exact DatumAt.all_of_eq e (datumAt_memWf h)
    next e =>
      have h2 := DatumAt.all_of_eq e (datumAt_memWf h)
      split
      · exact Res.fail_memWf
      · exact State.waitFor_memWf (State.flushComb_memWf h2)
    next e =>
      have h2 := DatumAt.all_of_eq e (datumAt_memWf h)
      split
      · exact Res.fail_memWf
      · exact State.waitFor_memWf (State.flushComb_memWf h2)

theorem execSRel_memWf {sc : BitVec 3} {s : State} (h : s.memWf) : Out.all State.memWf (execSRel sc s) :=
  issueS_memWf (fun _ h1 => relBody_memWf h1) h

theorem execReleaseDrainComplete_memWf {s : State} (h : s.memWf) : Out.all State.memWf (execReleaseDrainComplete s) := by
  unfold execReleaseDrainComplete
  split
  · split
    · exact State.waitFor_memWf h
    · exact h
  · exact h

theorem execReleaseEffect_memWf {k : Nat} {s : State} (h : s.memWf) : Out.all State.memWf (execReleaseEffect k s) := by
  unfold execReleaseEffect
  dsimp only
  split
  · exact h
  · split
    · exact h
    · split
      next e =>
        have h1 := State.memWf_fst e (State.read_memWf _ _ _ _ _ (State.updDie_memWf (fun h2 => h2) h))
        exact State.updCore_memWf h1
      next e =>
        have h1 := State.memWf_fst e (State.read_memWf _ _ _ _ _ (State.updDie_memWf (fun h2 => h2) h))
        exact State.write_memWf _ _ _ _ _ _ h1

theorem bindBody_memWf {unbind : Bool} {s0 : State} (h : s0.memWf) : Res.all State.memWf (bindBody unbind s0) := by
  unfold bindBody
  dsimp only
  split
  · refine popping_memWf (fun _ _ h1 => ?_) h
    split
    · exact State.waitFor_memWf h1
    · exact Res.fail_memWf
  · exact h
  · refine popping_memWf (fun _ _ h1 => datumCheck_memWf ?_) h
    split
    · exact Res.fail_memWf
    · split
      · exact Res.fail_memWf
      next e => exact DatumAt.all_of_eq e (datumAt_memWf h)
      next e =>
        have h2 := DatumAt.all_of_eq e (datumAt_memWf h)
        split
        · exact Res.fail_memWf
        · exact State.askPeer_memWf (State.waitFor_memWf h2)
      next e =>
        have h2 := DatumAt.all_of_eq e (datumAt_memWf h)
        split
        · exact Res.fail_memWf
        · exact State.waitFor_memWf h2

theorem execSBind_memWf {s : State} (h : s.memWf) : Out.all State.memWf (execSBind s) :=
  issueS_memWf (fun _ h1 => bindBody_memWf h1) h

theorem execSBindU_memWf {s : State} (h : s.memWf) : Out.all State.memWf (execSBindU s) :=
  issueS_memWf (fun _ h1 => bindBody_memWf h1) h

theorem execBindRecord_memWf {s : State} (h : s.memWf) : Out.all State.memWf (execBindRecord s) := by
  unfold execBindRecord
  split
  · split
    · split
      next e => exact State.waitFor_memWf (State.peerAnswer_memWf h _ e)
      next => exact h
    · split
      · exact h
      · extract_lets die b runs
        split
        · exact State.waitFor_memWf (State.updDie_memWf (fun hd => hd) h)
        · exact State.waitFor_memWf h
  · exact h

theorem execSFence_memWf {sc : BitVec 3} {p q : BitVec 6} {s : State} (h : s.memWf) :
    Out.all State.memWf (execSFence sc p q s) := by
  unfold execSFence
  refine issueS_memWf (fun _ h1 => ?_) h
  dsimp only
  split
  · exact Res.fail_memWf
  · refine State.updMe_memWf ?_
    split
    · exact State.flushComb_memWf h1
    · exact h1

theorem execFenceDrainComplete_memWf {s : State} (h : s.memWf) : Out.all State.memWf (execFenceDrainComplete s) :=
  State.updMe_memWf h

/-! ## Tasks -/

theorem forkBody_memWf {m : BitVec 6} {o : BitVec 13} {s : State} (h : s.memWf) : Res.all State.memWf (forkBody m o s) := by
  unfold forkBody
  dsimp only
  split
  · exact Res.fail_memWf
  · split
    · exact State.updMe_memWf h
    · exact Res.fail_memWf
    · exact State.updMe_memWf h

theorem execSFork_memWf {m : BitVec 6} {o : BitVec 13} {s : State} (h : s.memWf) : Out.all State.memWf (execSFork m o s) :=
  issueS_memWf (fun _ h1 => forkBody_memWf h1) h

theorem execSJoin_memWf {m : BitVec 6} {s : State} (h : s.memWf) : Out.all State.memWf (execSJoin m s) := by
  unfold execSJoin
  refine issueS_memWf (fun _ h1 => ?_) h
  split
  · exact Res.fail_memWf
  · exact State.updMe_memWf h1

theorem execSTrap_memWf {s : State} (h : s.memWf) : Out.all State.memWf (execSTrap s) :=
  issueS_memWf (fun _ h1 => popping_memWf (fun _ _ _ => Res.fail_memWf) h1) h

theorem execSEnd_memWf {s : State} (h : s.memWf) : Out.all State.memWf (execSEnd s) := by
  unfold execSEnd
  refine issueS_memWf (fun _ h1 => ?_) h
  dsimp only
  split
  · exact Res.fail_memWf
  · exact State.updMe_memWf (State.flushComb_memWf h1)

theorem yieldBody_memWf {force : Bool} {s : State} (h : s.memWf) : Res.all State.memWf (yieldBody force s) := by
  unfold yieldBody
  split
  · exact Res.fail_memWf
  · split
    · exact State.updMe_memWf h
    · exact h

theorem execSYield_memWf {s : State} (h : s.memWf) : Out.all State.memWf (execSYield s) :=
  issueSN_memWf (fun _ h1 => yieldBody_memWf h1) h

theorem execSYieldForce_memWf {s : State} (h : s.memWf) : Out.all State.memWf (execSYieldForce s) :=
  issueSN_memWf (fun _ h1 => yieldBody_memWf h1) h

theorem execMillwrightPreemption_memWf {s : State} (h : s.memWf) : Out.all State.memWf (execMillwrightPreemption s) := by
  unfold execMillwrightPreemption
  show State.memWf _
  split
  · exact State.preemptCore_memWf h
  · exact h

theorem State.withdraw_memWf {s : State} (h : s.memWf) : s.withdraw.memWf := by
  unfold State.withdraw
  dsimp only
  split
  · exact State.updMe_memWf (State.updDie_memWf (fun h1 => h1) h)
  · exact State.updMe_memWf (State.updDie_memWf (fun h1 => Die.setGroup_wf h1) h)
  · exact h

theorem State.saveTo_memWf {s : State} {t : TaskRef} {why : SaveWhy} {f : Nat} (h : s.memWf) : (s.saveTo t why f).memWf := by
  unfold State.saveTo
  refine State.updMe_memWf ?_
  split
  · exact State.requeue_memWf (State.setTask_memWf (State.updDie_memWf (fun h1 => h1) (State.withdraw_memWf h)))
  · exact State.requeue_memWf (State.setTask_memWf (State.updDie_memWf (fun h1 => h1) (State.withdraw_memWf h)))
  · exact State.setTask_memWf (State.updDie_memWf (fun h1 => h1) (State.withdraw_memWf h))

theorem State.saveFrame_memWf {s : State} {t : TaskRef} {l : Launch} {why : SaveWhy} {f : Nat} (h : s.memWf) :
    (s.saveFrame t l why f).memWf := by
  unfold State.saveFrame
  split
  next e => exact State.saveTo_memWf (Near.all_of_eq e (writeFrame_memWf h))
  next e => exact Near.all_of_eq e (writeFrame_memWf h)
  next e => exact State.updMe_memWf (Near.all_of_eq e (writeFrame_memWf h))

theorem State.toKill_memWf {s : State} (h : s.memWf) : s.toKill.memWf := State.updMe_memWf h

theorem State.deliverTrap_memWf {s : State} {t : TaskRef} {l : Launch} {frame : Option Nat} (h : s.memWf) :
    (s.deliverTrap t l frame).memWf := by
  unfold State.deliverTrap
  dsimp only
  split
  · split
    next e => exact State.updMe_memWf (Queued.all_of_eq e (queueAppend_memWf h))
    · exact State.toKill_memWf h
    next e => exact Queued.all_of_eq e (queueAppend_memWf h)
  · split
    · exact State.toKill_memWf h
    next e => exact Queued.all_of_eq e (queueAppend_memWf h)
    · split
      next e => exact Near.all_of_eq e (writeFrame_memWf h)
      next e => exact State.toKill_memWf (Near.all_of_eq e (writeFrame_memWf h))
      next e =>
        have h1 := Near.all_of_eq e (writeFrame_memWf h)
        split
        next e2 => exact State.saveTo_memWf (Queued.all_of_eq e2 (queueAppend_memWf h1))
        · exact State.toKill_memWf h1
        next e2 => exact Queued.all_of_eq e2 (queueAppend_memWf h1)

theorem State.beginStore_memWf {s : State} {t : TaskRef} {why : SaveWhy} {f : Nat} (h : s.memWf) : (s.beginStore t why f).memWf :=
  State.updMe_memWf (State.updLaunch_memWf h)

theorem execContextSaveComplete_memWf {s : State} (h : s.memWf) : Out.all State.memWf (execContextSaveComplete s) := by
  unfold execContextSaveComplete
  split
  · split
    · exact State.flushComb_memWf h
    · split
      · exact h
      · split
        · exact h
        · split
          · exact State.deliverTrap_memWf h
          · exact State.updMe_memWf h
          · exact State.updMe_memWf h
          · exact State.updMe_memWf h
          · exact State.beginStore_memWf h
  · split
    · split
      · exact h
      · show State.memWf _
        split
        · exact State.deliverTrap_memWf h
        · exact State.saveFrame_memWf h
    · exact h
  · exact h

theorem State.freeFrame_memWf {s : State} {die id f : Nat} (h : s.memWf) : (s.freeFrame die id f).memWf :=
  State.updDie_memWf (fun h1 => h1) (State.updLaunch_memWf h)

theorem execContextRestoreComplete_memWf {s : State} (h : s.memWf) : Out.all State.memWf (execContextRestoreComplete s) := by
  unfold execContextRestoreComplete
  dsimp only
  split
  · split
    · split
      · exact h
      · split
        next e => exact Near.all_of_eq e (millRead_memWf _ _ _ _ h)
        next e => exact State.updMe_memWf (Near.all_of_eq e (millRead_memWf _ _ _ _ h))
        next e => exact State.freeFrame_memWf (State.updMe_memWf (Near.all_of_eq e (millRead_memWf _ _ _ _ h)))
    · exact h
  · exact h

theorem State.setCtl_memWf {s : State} {w : RegWrite} {refused : Bool} (h : s.memWf) : (s.setCtl w refused).memWf :=
  State.updDie_memWf (fun h1 => Die.setReg_wf h1) h

theorem resume_memWf {skip : Bool} {w : RegWrite} {s : State} (h : s.memWf) : (resume skip w s).memWf := by
  unfold resume
  dsimp only
  split
  · exact State.setCtl_memWf h
  · split
    · split
      all_goals
        split
        · exact State.setCtl_memWf h
        · exact State.setCtl_memWf (State.requeue_memWf (State.setTask_memWf h))
    · split
      · exact State.setCtl_memWf h
      · split
        · exact State.setCtl_memWf h
        · exact State.setCtl_memWf (State.updCore_memWf h)
    · exact State.setCtl_memWf h

theorem execTaskCtlRetry_memWf {s : State} (h : s.memWf) : Out.all State.memWf (execTaskCtlRetry s) :=
  applyWrite_memWf h (fun _ _ h1 => resume_memWf h1)

theorem execTaskCtlSkip_memWf {s : State} (h : s.memWf) : Out.all State.memWf (execTaskCtlSkip s) :=
  applyWrite_memWf h (fun _ _ h1 => resume_memWf h1)

theorem execPageDone_memWf {s : State} (h : s.memWf) : Out.all State.memWf (execPageDone s) :=
  applyWrite_memWf h (fun _ _ h1 => State.foldl_memWf (fun _ _ h2 => State.foldl_memWf
    (fun _ _ h3 => State.foldl_memWf (fun _ _ h4 => State.requeue_memWf h4) (State.updLaunch_memWf h3)) h2)
    (State.updDie_memWf (fun h5 => h5) h1))

/-! ## Launches -/

theorem Launch.writeStatus_memWf {l : Launch} {s : State} {done : Bool} {cause : Nat} (h : s.memWf) :
    Near.all State.memWf (l.writeStatus s done cause) :=
  millWrite_memWf _ _ _ _ h

theorem State.closeLaunch_memWf {s : State} {die id : Nat} (h : s.memWf) : Near.all State.memWf (s.closeLaunch die id) := by
  unfold State.closeLaunch
  dsimp only
  split
  · exact h
  · split
    · exact h
    · split
      next e =>
        have h1 := Near.all_of_eq e (Launch.writeStatus_memWf h)
        exact State.updDie_memWf (fun h2 => h2) (State.unpinAll_memWf h1)
      next e =>
        have h1 := Near.all_of_eq e (Launch.writeStatus_memWf h)
        exact h1
      next e =>
        have h1 := Near.all_of_eq e (Launch.writeStatus_memWf h)
        exact State.updDie_memWf (fun h2 => h2) (State.unpinAll_memWf h1)

theorem RecOut.bind_memWf {α β : Type} {r : RecOut α} {f : α → State → RecOut β} (h : RecOut.all State.memWf r)
    (hf : ∀ (a : α) (x : State), x.memWf → RecOut.all State.memWf (f a x)) :
    RecOut.all State.memWf (r.bind f) := by
  unfold RecOut.bind
  split
  · exact hf _ _ h
  · exact h
  · exact h

theorem RecOut.unless_memWf {α : Type} {b : Bool} {s : State} {f : RecOut α} (h : s.memWf) (h' : RecOut.all State.memWf f) :
    RecOut.all State.memWf (RecOut.unless b s f) := by
  unfold RecOut.unless
  split
  · exact h
  · exact h'

theorem recRead_memWf {s : State} {space va n : Nat} (h : s.memWf) : RecOut.all State.memWf (recRead s space va n) := by
  unfold recRead
  split
  · exact h
  · exact h
  · split <;> rename_i e <;> exact Near.all_of_eq e (millRead_memWf _ _ _ _ h)

theorem recPages_memWf {s : State} {space va n : Nat} {need : Need} (h : s.memWf) :
    RecOut.all State.memWf (recPages s space va n need) := by
  unfold recPages
  split <;> exact h

theorem RecOut.each_memWf {α β : Type} {f : α → State → RecOut β} {xs : List α} {s : State}
    (hf : ∀ (a : α) (x : State), x.memWf → RecOut.all State.memWf (f a x)) (h : s.memWf) :
    RecOut.all State.memWf (RecOut.each f xs s) := by
  induction xs generalizing s with
  | nil =>
    unfold RecOut.each
    exact h
  | cons x xs ih =>
    unfold RecOut.each
    exact RecOut.bind_memWf (hf _ _ h) (fun _ _ h1 => RecOut.bind_memWf (ih h1) (fun _ _ h2 => h2))

theorem readRecord_memWf {s : State} {a1 : List Byte} {l : Launch} (h : s.memWf) :
    RecOut.all State.memWf (readRecord s a1 l) := by
  unfold readRecord
  refine RecOut.bind_memWf (recRead_memWf h) (fun _ _ h1 => RecOut.unless_memWf h1
    (RecOut.bind_memWf (RecOut.each_memWf (fun _ _ h2 => ?_) h1) (fun _ _ h3 => RecOut.bind_memWf (recPages_memWf h3)
    (fun _ _ h4 => RecOut.bind_memWf (recRead_memWf h4) (fun _ _ h5 => RecOut.bind_memWf
    (RecOut.each_memWf (fun _ _ h6 => recPages_memWf h6) h5) (fun _ _ h7 => RecOut.bind_memWf (recPages_memWf h7)
    (fun _ _ h8 => RecOut.bind_memWf (RecOut.each_memWf (fun _ _ h9 => ?_) h8)
    (fun _ _ h10 => RecOut.bind_memWf (RecOut.each_memWf (fun _ _ h11 => ?_) h10) (fun _ _ h12 => ?_)))))))))
  · dsimp only
    split
    · exact RecOut.bind_memWf (recRead_memWf h2) (fun _ _ h13 => RecOut.unless_memWf h13 h13)
    · exact h2
  · split
    · exact h9
    · exact recPages_memWf h9
  · split
    · exact h11
    · exact recPages_memWf h11
  · dsimp only
    split
    · exact h12
    · exact h12
    · split <;> exact h12

theorem stagePage_memWf {home space va : Nat} {heads : List Nat} {s : State} (h : s.memWf) :
    (stagePage home space heads s va).memWf := by
  have hcount : ∀ (x : State) (f : Die → W64), x.memWf → (x.updDie home fun d => d.setReg 356 (f d)).memWf :=
    fun _ _ hx => State.updDie_memWf (fun hd => Die.setReg_wf hd) hx
  unfold stagePage
  extract_lets die
  split
  · split
    · exact h
    · extract_lets
      split
      · exact hcount _ _ h
      · split
        · exact hcount _ _ h
        · exact hcount _ _ (State.doSwap_memWf h)
  · exact h

theorem stageAll_memWf {s : State} {home space : Nat} {heads : List Nat} (h : s.memWf) : (stageAll s home space heads).memWf :=
  State.foldl_memWf (fun _ _ h1 => stagePage_memWf h1) (State.updDie_memWf (fun h2 => Die.setReg_wf h2) h)

theorem rejectRecord_memWf {s : State} {a1 : List Byte} {id : Nat} {c : Cause} (h : s.memWf) :
    Near.all State.memWf (rejectRecord s a1 id c) := by
  unfold rejectRecord
  dsimp only
  split
  · exact h
  · split <;> rename_i e
    all_goals
      have h1 := Near.all_of_eq e (Launch.writeStatus_memWf h)
      exact h1

theorem acceptRecord_memWf {s : State} {die : Nat} {a2 : List Byte} {l : Launch} {pins : List PageKey} (h : s.memWf) :
    RecOut.all State.memWf (acceptRecord s die a2 l pins) := by
  unfold acceptRecord
  refine RecOut.bind_memWf (recRead_memWf h) (fun _ _ h1 => RecOut.unless_memWf h1 ?_)
  dsimp only
  split
  · exact h1
  · split
    · exact h1
    · split
      next e =>
        have h2 := Near.all_of_eq e (Launch.writeStatus_memWf h1)
        exact h2
      next e =>
        have h2 := Near.all_of_eq e (Launch.writeStatus_memWf h1)
        exact h2
      next e =>
        have h2 := Near.all_of_eq e (Launch.writeStatus_memWf h1)
        split
        · exact h1
        next e2 => exact State.updDie_memWf (fun h4 => h4) (stageAll_memWf ((State.pinAll_memWf h2) _ e2))

theorem execLaunchRecord_memWf {s : State} (h : s.memWf) : Out.all State.memWf (execLaunchRecord s) := by
  unfold execLaunchRecord
  extract_lets die d
  split
  next q rest id _ _ =>
    split
    · exact h
    · extract_lets drop refuse
      have hdrop : ∀ x, x.memWf → (drop x).memWf := fun _ hx => State.updDie_memWf (fun hd => hd) hx
      have hrefuse : ∀ x bs c, x.memWf → Out.all State.memWf (refuse x bs c) := fun x bs c hx => by
        have hr := rejectRecord_memWf (a1 := bs) (id := id) (c := c) hx
        dsimp only [refuse]
        split <;> rename_i e <;> have hy := Near.all_of_eq e hr
        · exact hdrop _ hy
        · exact hy
        · exact hdrop _ hy
      clear_value drop refuse
      split <;> rename_i e <;> have hx := RecOut.all_of_eq e (recRead_memWf h)
      · exact hx
      · exact hdrop _ hx
      · split
        · exact hrefuse _ _ _ hx
        · split
          · exact hrefuse _ _ _ hx
          · split <;> rename_i e' <;> have hy := RecOut.all_of_eq e' (readRecord_memWf hx)
            · exact hy
            · exact hrefuse _ _ _ hy
            · split <;> rename_i e'' <;> have hz := RecOut.all_of_eq e'' (acceptRecord_memWf hy)
              · exact hdrop _ hz
              · exact hz
              · exact hrefuse _ _ _ hz
  next => exact h

theorem execTextRowFill_memWf {row : Nat} {s : State} (h : s.memWf) : Out.all State.memWf (execTextRowFill row s) := by
  unfold execTextRowFill
  split
  · exact h
  next q _ =>
    extract_lets va
    have hread : ∀ (p : Place) (x : State), x.memWf → Near.all State.memWf (match x.read p.die p.tier p.off 256 with
        | (s, some bs) => Near.ok bs s
        | (s, none) => .fail .integ (w64 va) s) := fun p x hx => by
      split <;> rename_i e <;> exact State.memWf_fst e (State.read_memWf _ _ _ _ _ hx)
    have hp := ownerPlace_keeps (die := va / 2 ^ 55 % 8) (space := q.1) (va := w64 va) (n := 256) (r := false)
      (w := false) hread h
    split
    next e => exact Near.all_of_eq e hp
    next e => exact ite_keeps (P := State.memWf) (takeTrap_memWf (Near.all_of_eq e hp)) (Near.all_of_eq e hp)
    next e =>
      exact State.foldl_memWf (fun x c hx => ite_keeps (State.updCore_memWf hx) hx) (Near.all_of_eq e hp)

theorem execTextRowFree_memWf {s : State} (h : s.memWf) : Out.all State.memWf (execTextRowFree s) := by
  unfold execTextRowFree
  dsimp only
  split
  · split
    · exact h
    · exact State.updMe_memWf h
  · exact h

theorem State.startOn_memWf {s : State} {core : Nat} (h : s.memWf) : (s.startOn core).memWf := by
  unfold State.startOn
  split
  · exact State.updCore_memWf h
  · exact h

theorem execTaskStart_memWf {s : State} (h : s.memWf) : Out.all State.memWf (execTaskStart s) := by
  unfold execTaskStart
  split
  · exact State.foldl_memWf (fun _ _ h1 => State.startOn_memWf h1) h
  · exact h

theorem fixT0_memWf {s : State} {l : Launch} (h : s.memWf) : (fixT0 s l).memWf := State.updLaunch_memWf h

theorem State.formTimed_memWf {s : State} {l : Launch} {cores : List Nat} (h : s.memWf) :
    ∀ y, s.formTimed l cores = some y → y.memWf := by
  unfold State.formTimed
  split
  · exact forall_some_eq h
  · dsimp only
    split
    · exact forall_none_eq
    · intro y hy
      obtain ⟨x, -, rfl⟩ := Option.map_eq_some_iff.mp hy
      exact State.updDie_memWf (fun hd => Die.formGroup_wf hd) h

theorem State.startTimed_memWf {s : State} {l : Launch} {t0 : Nat} {x : Nat × TaskRec} (h : s.memWf) :
    (s.startTimed l t0 x).memWf := by
  unfold State.startTimed
  dsimp only
  split
  · exact State.updCore_memWf (State.updCore_memWf (State.assign_memWf h))
  · exact State.updCore_memWf (State.assign_memWf h)

theorem execTimedTaskStart_memWf {s : State} (h : s.memWf) : Out.all State.memWf (execTimedTaskStart s) := by
  unfold execTimedTaskStart
  dsimp only
  split
  · exact State.foldl_memWf (fun _ _ h1 => State.startTimed_memWf h1) (State.memWf_getD (State.formTimed_memWf h) h)
  · split
    · exact fixT0_memWf h
    · exact h

theorem addOne_memWf {s : State} {space : Nat} {va : W64} (h : s.memWf) : Near.all State.memWf (addOne s space va) :=
  Near.bind_memWf (millRead_memWf _ _ _ _ h) (fun _ _ h1 => millWrite_memWf _ _ _ _ h1)

theorem addEach_memWf {space : Nat} {vs : List W64} {s : State} (h : s.memWf) : Near.all State.memWf (addEach space vs s) := by
  induction vs generalizing s with
  | nil =>
    unfold addEach
    exact h
  | cons x vs ih =>
    unfold addEach
    exact Near.bind_memWf (addOne_memWf h) (fun _ _ h1 => ih h1)

theorem reachEach_memWf {space : Nat} {vs : List W64} {s : State} (h : s.memWf) :
    Near.all State.memWf (reachEach space vs s) := by
  induction vs generalizing s with
  | nil =>
    unfold reachEach
    exact h
  | cons x vs ih =>
    unfold reachEach
    exact Near.bind_memWf (ownerPlace_keeps (fun _ _ h1 => h1) h) (fun _ _ h2 => ih h2)

theorem releaseAll_memWf {n : Nat} {s : State} (h : s.memWf) : (releaseAll n s).1.memWf := by
  induction n generalizing s with
  | zero =>
    unfold releaseAll
    exact h
  | succ n ih =>
    unfold releaseAll
    split
    · exact h
    · split
      next e =>
        have h1 := State.memWf_fst e (State.release_memWf h)
        exact ih h1
      next e => exact State.memWf_fst e (State.release_memWf h)

theorem State.freeDatum_memWf {s : State} {a1 : Held} (h : s.memWf) : (s.freeDatum a1).memWf := by
  unfold State.freeDatum
  dsimp only
  split
  · split
    · split
      · exact State.askPeer_memWf h
      · exact State.updDie_memWf (fun h1 => h1) h
    · exact h
  · exact h

theorem State.freeAll_memWf {s : State} (h : s.memWf) : s.freeAll.memWf :=
  State.updMe_memWf (State.foldl_memWf (fun _ _ h1 => State.freeDatum_memWf h1) h)

theorem State.thaw_memWf {s : State} {core : Nat} (h : s.memWf) : (s.thaw core).memWf := h

theorem execEndComplete_memWf {s : State} (h : s.memWf) : Out.all State.memWf (execEndComplete s) := by
  unfold execEndComplete
  split
  next t _ _ =>
    split
    · exact h
    · split
      · exact h
      next l _ =>
        extract_lets adds kill
        have hr := reachEach_memWf (space := l.space) (vs := l.stat :: adds) h
        split
        next e => exact Near.all_of_eq e hr
        all_goals
          split <;> rename_i e <;> have hx := State.memWf_fst e (releaseAll_memWf h)
          · exact hx
          · split <;> rename_i e' <;> have hy := Near.all_of_eq e' (addEach_memWf (State.unpinAll_memWf hx))
            · exact hy
            · exact State.updMe_memWf (State.updMe_memWf hy)
            · extract_lets s1 s2
              have h1 : s1.memWf := State.updLaunch_memWf (State.setTask_memWf hy)
              have h2 : s2.memWf :=
                State.thaw_memWf (State.updMe_memWf (State.updDie_memWf (fun hd => Die.memberGone_wf hd) h1))
              have hc := State.closeLaunch_memWf (die := t.die) (id := t.launch) h2
              split <;> rename_i e'' <;> exact Near.all_of_eq e'' hc
  next => exact h

theorem State.tellPeers_memWf {s : State} {cores : List Nat} {dead : Nat} (h : s.memWf) : (s.tellPeers cores dead).memWf :=
  State.foldl_memWf (fun _ _ h1 => State.updDie_memWf (fun h2 => h2) h1) (State.updCores_memWf h)

theorem State.memberKilled_memWf {s : State} {core : Nat} (h : s.memWf) : (s.memberKilled core).memWf := by
  unfold State.memberKilled
  exact State.updDie_memWf (fun h1 => Die.memberGone_wf h1) (State.tellPeers_memWf h)

theorem State.breakTraverse_memWf {s : State} (h : s.memWf) : s.breakTraverse.memWf := by
  unfold State.breakTraverse
  split
  · exact h
  · extract_lets dead tree t
    have ht : t.memWf := h
    refine State.foldl_memWf (fun s d hs => ?_) ht
    exact State.updDie_memWf (fun hd => Die.wf_mk rfl hd)
      (State.unpinAll_memWf (State.unlockSet_memWf (State.tellPeers_memWf (State.updMembers_memWf hs))))

theorem State.tellSaved_memWf {s : State} {f : Core → Core} (h : s.memWf) : State.memWf
    { s with dies := s.dies.map fun p => (p.1, { p.2 with saved := p.2.saved.map fun x => { x with core := f x.core } }) } :=
  State.memWf_mapDies (f := fun d => { d with saved := d.saved.map fun x => { x with core := f x.core } }) (fun _ hd => hd) h rfl

theorem State.breakColls_memWf {s : State} (h : s.memWf) : s.breakColls.memWf := by
  unfold State.breakColls
  refine State.foldl_memWf (fun s c hs => ?_) (State.updMe_memWf (State.unpinAll_memWf h))
  have hship : ∀ x : State, x.memWf → (c.ship x (some .peer)).1.memWf := fun _ hx => Coll.ship_memWf hx
  have htell : ∀ cs f d, ((s.updCores cs f).tellPeers cs d).memWf := fun _ _ _ => State.tellPeers_memWf (State.updCores_memWf hs)
  exact hship _ (State.tellSaved_memWf (f := fun k => { k with colls := k.colls.map (Coll.breakWith c) }) (htell _ _ _))

theorem State.cancel_memWf {s : State} (h : s.memWf) : s.cancel.memWf :=
  State.withdraw_memWf (State.updDie_memWf (fun h1 => h1) (State.updMe_memWf (State.flushComb_memWf h)))

theorem State.taskGone_memWf {s : State} {t : TaskRef} (h : s.memWf) : (s.taskGone t).memWf :=
  State.updLaunch_memWf (State.setTask_memWf h)

theorem Die.killDone_wf {d : Die} (h : Memory.wf d.mem = true) : Memory.wf d.killDone.mem = true := Die.setReg_wf h

theorem execKillComplete_memWf {s : State} (h : s.memWf) : Out.all State.memWf (execKillComplete s) := by
  unfold execKillComplete
  split
  next t _ _ =>
    extract_lets s1 s2 set s3 s3' s4 s5
    have h1 : s1.memWf := State.cancel_memWf h
    have h2 : s2.memWf := State.freeAll_memWf h1
    have h3 : s3.memWf := State.taskGone_memWf (State.unpinAll_memWf (State.breakColls_memWf (State.breakTraverse_memWf h2)))
    have h3' : s3'.memWf := by
      dsimp only [s3']
      split
      · exact State.freeFrame_memWf h3
      · exact h3
    have h5 : s5.memWf := State.thaw_memWf (State.updMe_memWf (State.updDie_memWf (fun hd => Die.killDone_wf hd)
      (State.memberKilled_memWf h3')))
    clear_value s1 s5
    split
    · exact h1
    · split
      · exact h1
      next l _ =>
        have hr := reachEach_memWf (space := l.space) (vs := [l.stat]) h1
        split
        next e => exact Near.all_of_eq e hr
        next =>
          have hc := State.closeLaunch_memWf (die := t.die) (id := t.launch) h5
          split <;> rename_i e <;> exact Near.all_of_eq e hc
  next => exact h

theorem State.killAway_memWf {s : State} {t : TaskRef} {frame : Option Nat} (h : s.memWf) : (s.killAway t frame).memWf := by
  unfold State.killAway
  refine State.updDie_memWf (fun h1 => Die.killDone_wf h1) (State.taskGone_memWf ?_)
  dsimp only
  split
  · exact h
  · split
    · exact h
    · refine State.thaw_memWf (State.freeFrame_memWf (State.memWf_setMe _ _ ?_))
      split
      · exact State.memberKilled_memWf (State.breakTraverse_memWf (State.unpinAll_memWf
          (State.breakColls_memWf (State.freeAll_memWf (State.memWf_setMe _ _ h)))))
      · exact State.unpinAll_memWf (State.breakColls_memWf (State.freeAll_memWf (State.memWf_setMe _ _ h)))

theorem killTask_memWf {w : RegWrite} {s : State} (h : s.memWf) : (killTask w s).memWf := by
  unfold killTask
  split
  · exact State.setCtl_memWf h
  next t l _ =>
    extract_lets me away
    have haway : ∀ f, (away f).memWf := fun f => by
      have hc := State.closeLaunch_memWf (die := t.die) (id := t.launch) (State.killAway_memWf (t := t) (frame := f) h)
      refine State.setCtl_memWf (State.memWf_mk rfl ?_)
      split <;> rename_i e <;> exact Near.all_of_eq e hc
    split
    · exact haway _
    · exact haway _
    · exact haway _
    · exact haway _
    · exact State.setCtl_memWf (State.updCore_memWf h)
    · exact State.setCtl_memWf h
    · exact State.setCtl_memWf h

theorem execTaskCtlKill_memWf {s : State} (h : s.memWf) : Out.all State.memWf (execTaskCtlKill s) :=
  applyWrite_memWf h (fun _ _ h1 => killTask_memWf h1)

/-! ## The package -/

theorem State.setLife_memWf {s : State} {lo w v : Nat} (h : s.memWf) : (s.setLife lo w v).memWf := State.setPk_memWf h

theorem State.done_memWf {s : State} {data : List Byte} (h : s.memWf) : (s.done_ data).memWf := State.reply_memWf h

theorem State.refuse_memWf {s : State} {c : Option Cause} (h : s.memWf) : (s.refuse c).memWf := State.reply_memWf h

theorem portCommand_memWf {s : State} {f : State → State} (h : s.memWf) (hf : ∀ (x : State), x.memWf → (f x).memWf) :
    Out.all State.memWf (portCommand s f) := by
  unfold portCommand
  show State.memWf _
  split
  · exact hf _ h
  · exact h

theorem execMemrd_memWf {die tier off n : Nat} {s : State} (h : s.memWf) : Out.all State.memWf (execMemrd die tier off n s) := by
  unfold execMemrd
  refine portCommand_memWf h (fun _ h1 => ?_)
  split
  · exact State.refuse_memWf h1
  · split
    · exact State.refuse_memWf h1
    · split
      · exact h1
      · split
        next e => exact State.done_memWf (State.memWf_fst e (State.read_memWf _ _ _ _ _ h1))
        next e => exact State.refuse_memWf (State.memWf_fst e (State.read_memWf _ _ _ _ _ h1))

theorem execMemwr_memWf {die tier off : Nat} {data : List (BitVec 8)} {s : State} (h : s.memWf) :
    Out.all State.memWf (execMemwr die tier off data s) := by
  unfold execMemwr
  refine portCommand_memWf h (fun _ h1 => ?_)
  split
  · exact State.refuse_memWf h1
  · split
    · exact State.refuse_memWf h1
    · split
      · exact h1
      · split
        next e => exact State.done_memWf (State.memWf_fst e (State.write_memWf _ _ _ _ _ _ h1))
        next e => exact State.refuse_memWf (State.memWf_fst e (State.write_memWf _ _ _ _ _ _ h1))

theorem execRegrd_memWf {group die idx : Nat} {s : State} (h : s.memWf) : Out.all State.memWf (execRegrd group die idx s) := by
  unfold execRegrd
  refine portCommand_memWf h (fun _ h1 => ?_)
  split
  · exact State.refuse_memWf h1
  · split
    · exact State.done_memWf h1
    · exact State.refuse_memWf h1

theorem execRegwr_memWf {group die idx : Nat} {v : BitVec 64} {s : State} (h : s.memWf) :
    Out.all State.memWf (execRegwr group die idx v s) := by
  unfold execRegwr
  refine portCommand_memWf h (fun _ h1 => ?_)
  split
  · exact State.refuse_memWf h1
  · split
    all_goals
      split
      · exact State.refuse_memWf h1
      · split
        · exact State.refuse_memWf h1
        · exact h1

theorem execLaunch_memWf {die space : Nat} {va : BitVec 64} {sys : Bool} {s : State} (h : s.memWf) :
    Out.all State.memWf (execLaunch die space va sys s) := by
  unfold execLaunch
  refine portCommand_memWf h (fun _ h1 => ?_)
  split
  · exact State.refuse_memWf h1
  · split
    · exact State.refuse_memWf h1
    · exact State.done_memWf (State.updDie_memWf (fun h2 => h2) h1)

theorem execKeyld_memWf {fields : List Nat} {s : State} (h : s.memWf) : Out.all State.memWf (execKeyld fields s) := by
  unfold execKeyld
  refine portCommand_memWf h (fun _ h1 => ?_)
  split
  · exact State.refuse_memWf h1
  · split
    · split
      · exact State.refuse_memWf h1
      · exact State.done_memWf (State.updLink_memWf h1)
    · split
      · exact State.refuse_memWf h1
      · exact State.done_memWf (State.foldl_memWf (fun _ _ h2 => State.updDie_memWf (fun h3 => h3) h2) h1)
    · exact State.refuse_memWf h1

theorem execFwld_memWf {image : List (BitVec 8)} {s : State} (h : s.memWf) : Out.all State.memWf (execFwld image s) := by
  unfold execFwld
  refine portCommand_memWf h (fun _ h1 => ?_)
  dsimp only
  split
  · exact State.refuse_memWf h1
  · exact State.memWf_mk rfl (State.done_memWf (State.setPk_memWf h1))

theorem execAttestCmd_memWf {nonce : List (BitVec 8)} {s : State} (h : s.memWf) :
    Out.all State.memWf (execAttestCmd nonce s) := by
  unfold execAttestCmd
  refine portCommand_memWf h (fun _ h1 => ?_)
  dsimp only
  split
  · exact State.refuse_memWf h1
  · exact State.done_memWf (State.setPk_memWf h1)

theorem State.eraseLinks_memWf {s : State} (h : s.memWf) : s.eraseLinks.memWf := h

theorem State.eraseAll_memWf {s : State} (h : s.memWf) : s.eraseAll.memWf :=
  State.memWf_mapDies (f := fun d => { d with keys := [], mem := { baseVer := d.keyCur } }) (fun _ _ => Memory.wf_empty _)
    (State.eraseLinks_memWf h) rfl

theorem execLifeCmd_memWf {dest : Nat} {sig : List (BitVec 8)} {s : State} (h : s.memWf) :
    Out.all State.memWf (execLifeCmd dest sig s) := by
  unfold execLifeCmd
  refine portCommand_memWf h (fun _ h1 => ?_)
  dsimp only
  split
  · exact State.refuse_memWf h1
  · refine State.done_memWf ?_
    split
    · exact State.memWf_mk rfl (State.setLife_memWf h1)
    · split
      · exact State.eraseAll_memWf (State.setLife_memWf h1)
      · exact State.setLife_memWf h1

theorem execDebugCmd_memWf {level : Nat} {token : List (BitVec 8)} {s : State} (h : s.memWf) :
    Out.all State.memWf (execDebugCmd level token s) := by
  unfold execDebugCmd
  refine portCommand_memWf h (fun _ h1 => ?_)
  dsimp only
  split
  · exact State.refuse_memWf h1
  · refine State.done_memWf ?_
    split
    · exact State.foldl_memWf (fun _ _ h2 => State.updDie_memWf (fun h3 => h3) h2) (State.setLife_memWf (State.setLife_memWf h1))
    · exact State.memWf_mk rfl (State.foldl_memWf (fun _ _ h2 => State.updDie_memWf (fun h3 => h3) h2)
        (State.setLife_memWf (State.setLife_memWf h1)))

theorem State.haltTask_memWf {s : State} {die : Nat} {l : Launch} {i : Nat} (h : s.memWf) : (s.haltTask die l i).memWf := by
  unfold State.haltTask
  dsimp only
  split
  · exact State.killAway_memWf h
  · exact State.memWf_mk rfl (State.killAway_memWf h)
  · exact State.memWf_mk rfl (State.killAway_memWf h)
  · exact State.memWf_mk rfl (State.killAway_memWf h)
  · exact h

theorem State.haltLaunch_memWf {s : State} {die : Nat} {l : Launch} (h : s.memWf) : (s.haltLaunch die l).memWf :=
  State.foldl_memWf (fun _ _ h1 => State.haltTask_memWf h1) h

theorem State.haltDeployed_memWf {s : State} {die : Nat} (h : s.memWf) : (s.haltDeployed die).memWf := by
  unfold State.haltDeployed
  refine State.foldl_memWf (fun s l hs => ?_) (State.memWf_mk rfl (State.updDie_memWf (fun hd => hd) h))
  have hc := State.closeLaunch_memWf (die := die) (id := l.id) (State.haltLaunch_memWf (die := die) (l := l) hs)
  split <;> rename_i e <;> exact Near.all_of_eq e hc

theorem execHaltEntry_memWf {s : State} (h : s.memWf) : Out.all State.memWf (execHaltEntry s) := by
  unfold execHaltEntry
  dsimp only
  split
  · exact h
  · split
    · exact State.updMe_memWf h
    · show State.memWf _
      split
      · exact State.haltDeployed_memWf (State.updDie_memWf (fun h1 => h1) (State.updMe_memWf h))
      · exact State.updDie_memWf (fun h1 => h1) (State.updMe_memWf h)

theorem Die.retained_wf {d : Die} (h : Memory.wf d.mem = true) : Memory.wf d.retained.mem = true := by
  change Memory.wf (if d.plainHash then d.mem else d.agedMem) = true
  split
  · exact h
  · exact Die.agedMem_wf h

theorem State.powerDown_memWf {s : State} : s.powerDown.memWf := State.reset_memWf

theorem State.powerRetain_memWf {s : State} (h : s.memWf) : s.powerRetain.memWf :=
  State.memWf_mapDies (fun _ h1 => Die.retained_wf h1) h rfl

theorem execPowerCmd_memWf {dest : Nat} {s : State} (h : s.memWf) : Out.all State.memWf (execPowerCmd dest s) := by
  unfold execPowerCmd
  refine portCommand_memWf h (fun _ h1 => ?_)
  split
  · exact State.refuse_memWf h1
  · split
    · exact State.done_memWf (State.powerDown_memWf)
    · split
      · exact State.done_memWf (State.setLife_memWf (State.setLife_memWf (State.setLife_memWf (State.powerRetain_memWf h1))))
      · exact State.done_memWf (State.setLife_memWf h1)

theorem execPowerOn_memWf {s : State} (h : s.memWf) : Out.all State.memWf (execPowerOn s) := by
  unfold execPowerOn
  dsimp only
  split
  · exact h
  · exact State.memWf_mk rfl (State.setPk_memWf (State.setLife_memWf (State.foldl_memWf
      (fun _ _ h1 => State.updDie_memWf (fun h2 => h2) h1) h)))

theorem execPowerLoss_memWf {s : State} : Out.all State.memWf (execPowerLoss s) := State.powerDown_memWf

theorem execFunctionReady_memWf {bit : Nat} {s : State} (h : s.memWf) : Out.all State.memWf (execFunctionReady bit s) := by
  unfold execFunctionReady
  dsimp only
  split
  · exact h
  · split
    · split
      · exact h
      · refine State.updDie_memWf (fun h1 => ?_) h
        split
        · exact Die.wf_mk rfl (Die.setReg_wf h1)
        · exact Die.setReg_wf h1
    · split
      · exact State.setPk_memWf h
      · exact h

theorem State.heated_memWf {s : State} {deg : Nat} {warn : Bool} (h : s.memWf) : (s.heated deg warn).memWf := State.setPk_memWf h

theorem execThermalWarn_memWf {die : Nat} {s : State} (h : s.memWf) : Out.all State.memWf (execThermalWarn die s) := by
  unfold execThermalWarn
  show State.memWf _
  split
  · exact State.heated_memWf h
  · exact h

theorem execThermalTrip_memWf {die : Nat} {s : State} (h : s.memWf) : Out.all State.memWf (execThermalTrip die s) := by
  unfold execThermalTrip
  show State.memWf _
  split
  · exact State.powerDown_memWf
  · exact h

/-! ## Steps -/

theorem stepBody_memWf {g : Nat} {drop : Bool} {s : State} (h : s.memWf) : Res.all State.memWf (stepBody g drop s) := by
  unfold stepBody
  dsimp only
  split
  · exact Res.fail_memWf
  · split
    · exact Res.fail_memWf
    · split
      · exact State.updMe_memWf h
      · exact h
      · split
        · exact h
        · exact State.updMe_memWf (State.updDie_memWf (fun h1 => Die.setGroup_wf h1) h)

theorem execSStep_memWf {g : BitVec 4} {s : State} (h : s.memWf) : Out.all State.memWf (execSStep g s) :=
  issueS_memWf (fun _ h1 => stepBody_memWf h1) h

theorem execSStepDrop_memWf {g : BitVec 4} {s : State} (h : s.memWf) : Out.all State.memWf (execSStepDrop g s) :=
  issueS_memWf (fun _ h1 => stepBody_memWf h1) h

/-! ## Tokens -/

theorem tokenWord_memWf {i : Instr} {form : Nat} {s : State} (h : s.memWf) : Out.all State.memWf (tokenWord i form s) := by
  unfold tokenWord
  refine issueS_memWf (fun _ h1 => ?_) h
  dsimp only
  split
  · split
    · exact Res.fail_memWf
    · exact popping_memWf (fun _ _ h2 => State.updMe_memWf h2) h1
  · exact h1
  · refine popping_memWf (fun _ _ h2 => ?_) h1
    split
    · exact Res.fail_memWf
    · split
      · exact Res.fail_memWf
      · refine withFar_memWf h1 (fun _ _ h3 => ?_)
        split
        · exact State.memWf_mk rfl (State.updMe_memWf h3)
        · split
          · exact h2
          · exact State.updMe_memWf h3

theorem execSTokenShared_memWf {s : State} (h : s.memWf) : Out.all State.memWf (execSTokenShared s) := tokenWord_memWf h

theorem execSTokenExcl_memWf {s : State} (h : s.memWf) : Out.all State.memWf (execSTokenExcl s) := tokenWord_memWf h

theorem execSTokenReturn_memWf {s : State} (h : s.memWf) : Out.all State.memWf (execSTokenReturn s) := tokenWord_memWf h

theorem execTokenRevoke_memWf {region : Nat} {s : State} (h : s.memWf) : Out.all State.memWf (execTokenRevoke region s) := by
  unfold execTokenRevoke
  dsimp only
  split
  · exact h
  · split
    · exact State.retoken_memWf _ _ _ _ h
    · split
      · exact State.resolve_memWf h
      · split
        · exact State.dropOldest_memWf h
        · exact h

theorem State.tokenAnswer_memWf {s : State} {form : Nat} {va : W64} {r : Option Cause} (h : s.memWf) :
    (s.tokenAnswer form va r).memWf :=
  State.updMe_memWf h

theorem Die.peerToken_wf {d : Die} {space region form : Nat} (h : Memory.wf d.mem = true) :
    Memory.wf (d.peerToken space region form).mem = true :=
  h

theorem execTokenComplete_memWf {s : State} (h : s.memWf) : Out.all State.memWf (execTokenComplete s) := by
  unfold execTokenComplete
  split
  · extract_lets sp region die me
    split
    · split
      · refine State.tokenAnswer_memWf (ite_keeps (State.updDie_memWf (fun hd => Die.peerToken_wf hd) ?_) ?_) <;>
          exact State.updMe_memWf h
      · exact h
    · have hp := fun va form => tokenPage_memWf (die := die) (space := sp) (va := va) (form := form) h
      split
      next e => exact okOrError_of_eq e (hp _ _)
      next e => exact State.tokenAnswer_memWf (okOrError_of_eq e (hp _ _))
      next t e =>
        have ht : t.memWf := okOrError_of_eq e (hp _ _)
        extract_lets old
        split
        · refine State.tokenAnswer_memWf (State.updDie_memWf (fun hd => ?_) (State.dropLines_memWf _ _ _ _ ht))
          exact ite_keeps (P := fun d : Die => Memory.wf d.mem = true) (Die.giveUp_wf hd) hd
        · split
          · exact ht
          · exact State.tokenAnswer_memWf (State.updDie_memWf (fun hd => Die.grant_wf hd) ht)
  · exact h

/-! ## Every instruction and every step -/

theorem exec_memWf {i : Instr} {s : State} (h : s.memWf) : Out.all State.memWf (exec i s) := by
  cases i with
  | literalPush => exact execLiteralPush_memWf h
  | literalExtend => exact execLiteralExtend_memWf h
  | wait => exact execWait_memWf h
  | stkDup => exact execStkDup_memWf h
  | stkDrop => exact execStkDrop_memWf h
  | stkSwap => exact execStkSwap_memWf h
  | stkOver => exact execStkOver_memWf h
  | cGetX => exact execCGetX_memWf h
  | cGetP => exact execCGetP_memWf h
  | cGetPmask => exact execCGetPmask_memWf h
  | cGetLidx => exact execCGetLidx_memWf h
  | cPutX => exact execCPutX_memWf h
  | cPutP => exact execCPutP_memWf h
  | cPutPmask => exact execCPutPmask_memWf h
  | cAdd => exact execCAdd_memWf h
  | cAddImm => exact execCAddImm_memWf h
  | cSub => exact execCSub_memWf h
  | cSubImm => exact execCSubImm_memWf h
  | cAnd => exact execCAnd_memWf h
  | cAndImm => exact execCAndImm_memWf h
  | cOr => exact execCOr_memWf h
  | cOrImm => exact execCOrImm_memWf h
  | cXor => exact execCXor_memWf h
  | cXorImm => exact execCXorImm_memWf h
  | cMul => exact execCMul_memWf h
  | cMulh => exact execCMulh_memWf h
  | cMulhu => exact execCMulhu_memWf h
  | cDiv => exact execCDiv_memWf h
  | cRem => exact execCRem_memWf h
  | cDivrem => exact execCDivrem_memWf h
  | cShift => exact execCShift_memWf h
  | cBitop => exact execCBitop_memWf h
  | cCmp => exact execCCmp_memWf h
  | cSetp => exact execCSetp_memWf h
  | cSel => exact execCSel_memWf h
  | cMinmax => exact execCMinmax_memWf h
  | cPredCombine => exact execCPredCombine_memWf h
  | cPredSet => exact execCPredSet_memWf h
  | cBr => exact execCBr_memWf h
  | cBrT => exact execCBrT_memWf h
  | cBrF => exact execCBrF_memWf h
  | cBrNz => exact execCBrNz_memWf h
  | cCall => exact execCCall_memWf h
  | cRet => exact execCRet_memWf h
  | cLoopCount => exact execCLoopCount_memWf h
  | cLoop => exact execCLoop_memWf h
  | cSend => exact execCSend_memWf h
  | cRecv => exact execCRecv_memWf h
  | recvHandoff => exact execRecvHandoff_memWf h
  | cLd => exact execCLd_memWf h
  | cSt => exact execCSt_memWf h
  | cCsr => exact execCCsr_memWf h
  | cCsw => exact execCCsw_memWf h
  | registerWrite => exact execRegisterWrite_memWf h
  | cfSlipWrite => exact execCfSlipWrite_memWf h
  | sFork => exact execSFork_memWf h
  | sJoin => exact execSJoin_memWf h
  | sLeg => exact execSLeg_memWf h
  | sSign => exact execSSign_memWf h
  | sSlack => exact execSSlack_memWf h
  | sLtload => exact execSLtload_memWf h
  | sFence => exact execSFence_memWf h
  | sAcq => exact execSAcq_memWf h
  | sAcqSh => exact execSAcqSh_memWf h
  | sRel => exact execSRel_memWf h
  | sStep => exact execSStep_memWf h
  | sStepDrop => exact execSStepDrop_memWf h
  | sTrap => exact execSTrap_memWf h
  | sEnd => exact execSEnd_memWf h
  | sYield => exact execSYield_memWf h
  | sYieldForce => exact execSYieldForce_memWf h
  | sBind => exact execSBind_memWf h
  | sBindU => exact execSBindU_memWf h
  | sTokenShared => exact execSTokenShared_memWf h
  | sTokenExcl => exact execSTokenExcl_memWf h
  | sTokenReturn => exact execSTokenReturn_memWf h
  | aSfld => exact execASfld_memWf h
  | aSgo => exact execASgo_memWf h
  | aSstop => exact execASstop_memWf h
  | aSstopDrain => exact execASstopDrain_memWf h
  | aSpos => exact execASpos_memWf h
  | aSposSet => exact execASposSet_memWf h
  | aLdq => exact execALdq_memWf h
  | aStq => exact execAStq_memWf h
  | aLdg => exact execALdg_memWf h
  | aStg => exact execAStg_memWf h
  | aAlloc => exact execAAlloc_memWf h
  | aValidCnt => exact execAValidCnt_memWf h
  | aValidFirst => exact execAValidFirst_memWf h
  | aValidSet => exact execAValidSet_memWf h
  | aPld => exact execAPld_memWf h
  | aPldQueue => exact execAPldQueue_memWf h
  | aPst => exact execAPst_memWf h
  | aPstPri => exact execAPstPri_memWf h
  | aPstQueue => exact execAPstQueue_memWf h
  | aPstPriQueue => exact execAPstPriQueue_memWf h
  | aAgen => exact execAAgen_memWf h
  | aAlu => exact execAAlu_memWf h
  | aXqCount => exact execAXqCount_memWf h
  | aXqFlush => exact execAXqFlush_memWf h
  | aXqDrop => exact execAXqDrop_memWf h
  | aXqPut => exact execAXqPut_memWf h
  | streamRun => exact execStreamRun_memWf h
  | streamDrained => exact execStreamDrained_memWf h
  | eShape => exact execEShape_memWf h
  | eShapeGet => exact execEShapeGet_memWf h
  | eMov => exact execEMov_memWf h
  | eAdd => exact execEAdd_memWf h
  | eSub => exact execESub_memWf h
  | eMul => exact execEMul_memWf h
  | eFma => exact execEFma_memWf h
  | eDiv => exact execEDiv_memWf h
  | eSqrt => exact execESqrt_memWf h
  | eMin => exact execEMin_memWf h
  | eMax => exact execEMax_memWf h
  | eCmp => exact execECmp_memWf h
  | eSelect => exact execESelect_memWf h
  | eIadd => exact execEIadd_memWf h
  | eImul => exact execEImul_memWf h
  | eLogic => exact execELogic_memWf h
  | eShift => exact execEShift_memWf h
  | eCvt => exact execECvt_memWf h
  | eQuant => exact execEQuant_memWf h
  | eAmax => exact execEAmax_memWf h
  | eAmaxReset => exact execEAmaxReset_memWf h
  | eAmaxClear => exact execEAmaxClear_memWf h
  | eRed => exact execERed_memWf h
  | eXpose => exact execEXpose_memWf h
  | ePerm => exact execEPerm_memWf h
  | eRep => exact execERep_memWf h
  | eSfn => exact execESfn_memWf h
  | eTpack => exact execETpack_memWf h
  | eMask => exact execEMask_memWf h
  | eXq => exact execEXq_memWf h
  | mClaim => exact execMClaim_memWf h
  | mClaimR => exact execMClaimR_memWf h
  | mRelease => exact execMRelease_memWf h
  | mWload => exact execMWload_memWf h
  | mWloadSp => exact execMWloadSp_memWf h
  | mSwap => exact execMSwap_memWf h
  | mMma => exact execMMma_memWf h
  | mTmma => exact execMTmma_memWf h
  | mEpi => exact execMEpi_memWf h
  | mRoute => exact execMRoute_memWf h
  | mRouteGet => exact execMRouteGet_memWf h
  | mAccClear => exact execMAccClear_memWf h
  | mAccClearpair => exact execMAccClearpair_memWf h
  | mAccLoad => exact execMAccLoad_memWf h
  | kGeoDim => exact execKGeoDim_memWf h
  | kGeoRank => exact execKGeoRank_memWf h
  | kGeoSpace => exact execKGeoSpace_memWf h
  | kGeoSig => exact execKGeoSig_memWf h
  | kGeoClear => exact execKGeoClear_memWf h
  | kCopy => exact execKCopy_memWf h
  | kFollow => exact execKFollow_memWf h
  | kCnt => exact execKCnt_memWf h
  | kCntGet => exact execKCntGet_memWf h
  | kFlag => exact execKFlag_memWf h
  | kCwait => exact execKCwait_memWf h
  | kPin => exact execKPin_memWf h
  | kPinRelease => exact execKPinRelease_memWf h
  | kConvSrc => exact execKConvSrc_memWf h
  | kConvDst => exact execKConvDst_memWf h
  | copyComplete => exact execCopyComplete_memWf h
  | followOnStart => exact execFollowOnStart_memWf h
  | cwaitSatisfied => exact execCwaitSatisfied_memWf h
  | flagWaitSatisfied => exact execFlagWaitSatisfied_memWf h
  | wRows => exact execWRows_memWf h
  | wRstat => exact execWRstat_memWf h
  | wTime => exact execWTime_memWf h
  | wTimeGet => exact execWTimeGet_memWf h
  | fAmo => exact execFAmo_memWf h
  | fAmoR => exact execFAmoR_memWf h
  | fCas => exact execFCas_memWf h
  | fCasM => exact execFCasM_memWf h
  | fEnq => exact execFEnq_memWf h
  | fEnqR => exact execFEnqR_memWf h
  | fChase => exact execFChase_memWf h
  | fRld => exact execFRld_memWf h
  | fRst => exact execFRst_memWf h
  | fSkup => exact execFSkup_memWf h
  | fSkupN => exact execFSkupN_memWf h
  | fSkq => exact execFSkq_memWf h
  | fSkqN => exact execFSkqN_memWf h
  | fSkadd => exact execFSkadd_memWf h
  | fColl => exact execFColl_memWf h
  | fLayout => exact execFLayout_memWf h
  | fDrain => exact execFDrain_memWf h
  | farDrainComplete => exact execFarDrainComplete_memWf h
  | farReply => exact execFarReply_memWf h
  | reportArrival => exact execReportArrival_memWf h
  | wallowerService => exact execWallowerService_memWf h
  | sketchLogApply => exact execSketchLogApply_memWf h
  | combineTimerFlush => exact execCombineTimerFlush_memWf h
  | tokenRevoke => exact execTokenRevoke_memWf h
  | tokenComplete => exact execTokenComplete_memWf h
  | flitReceive => exact execFlitReceive_memWf h
  | replayRequest => exact execReplayRequest_memWf h
  | flitAck => exact execFlitAck_memWf h
  | rotationMarker => exact execRotationMarker_memWf h
  | linkDown => exact execLinkDown_memWf h
  | slotDeparture => exact execSlotDeparture_memWf h
  | acquireGrant => exact execAcquireGrant_memWf h
  | releaseDrainComplete => exact execReleaseDrainComplete_memWf h
  | releaseEffect => exact execReleaseEffect_memWf h
  | bindRecord => exact execBindRecord_memWf h
  | fenceDrainComplete => exact execFenceDrainComplete_memWf h
  | collectiveComplete => exact execCollectiveComplete_memWf h
  | stepSettle => exact execStepSettle_memWf h
  | stepAbsenceLimit => exact execStepAbsenceLimit_memWf h
  | legTableLoaded => exact execLegTableLoaded_memWf h
  | legStart => exact execLegStart_memWf h
  | legTimedEnd => exact execLegTimedEnd_memWf h
  | timelineCommand => exact execTimelineCommand_memWf h
  | owedCommandService => exact execOwedCommandService_memWf h
  | controllerSignoff => exact execControllerSignoff_memWf h
  | stationSignoff => exact execStationSignoff_memWf h
  | closureLimitExpiry => exact execClosureLimitExpiry_memWf h
  | refreshTick => exact execRefreshTick_memWf h
  | heldRefresh => exact execHeldRefresh_memWf h
  | pageWalk => exact execPageWalk_memWf h
  | epochClose => exact execEpochClose_memWf h
  | swapComplete => exact execSwapComplete_memWf h
  | patrolLine => exact execPatrolLine_memWf h
  | rotationPassEnd => exact execRotationPassEnd_memWf h
  | textRowFill => exact execTextRowFill_memWf h
  | textRowFree => exact execTextRowFree_memWf h
  | launchRecord => exact execLaunchRecord_memWf h
  | taskPlace => exact execTaskPlace_memWf h
  | taskStart => exact execTaskStart_memWf h
  | timedTaskStart => exact execTimedTaskStart_memWf h
  | endComplete => exact execEndComplete_memWf h
  | contextSaveComplete => exact execContextSaveComplete_memWf h
  | contextRestoreComplete => exact execContextRestoreComplete_memWf h
  | killComplete => exact execKillComplete_memWf h
  | taskCtlRetry => exact execTaskCtlRetry_memWf h
  | taskCtlSkip => exact execTaskCtlSkip_memWf h
  | taskCtlKill => exact execTaskCtlKill_memWf h
  | pageDone => exact execPageDone_memWf h
  | tlbInvPage => exact execTlbInvPage_memWf h
  | tlbInvSpace => exact execTlbInvSpace_memWf h
  | tlbInvAll => exact execTlbInvAll_memWf h
  | keyRotate => exact execKeyRotate_memWf h
  | hashMaskWrite => exact execHashMaskWrite_memWf h
  | regionWrite => exact execRegionWrite_memWf h
  | sgFaultClear => exact execSgFaultClear_memWf h
  | uninitClear => exact execUninitClear_memWf h
  | errorLogClear => exact execErrorLogClear_memWf h
  | memrd => exact execMemrd_memWf h
  | memwr => exact execMemwr_memWf h
  | regrd => exact execRegrd_memWf h
  | regwr => exact execRegwr_memWf h
  | launch => exact execLaunch_memWf h
  | keyld => exact execKeyld_memWf h
  | fwld => exact execFwld_memWf h
  | attestCmd => exact execAttestCmd_memWf h
  | lifeCmd => exact execLifeCmd_memWf h
  | debugCmd => exact execDebugCmd_memWf h
  | powerCmd => exact execPowerCmd_memWf h
  | haltEntry => exact execHaltEntry_memWf h
  | powerOn => exact execPowerOn_memWf h
  | functionReady => exact execFunctionReady_memWf h
  | thermalWarn => exact execThermalWarn_memWf h
  | thermalTrip => exact execThermalTrip_memWf h
  | illegalWord => exact execIllegalWord_memWf h
  | freeModeRequestService => exact execFreeModeRequestService_memWf h
  | millwrightPreemption => exact execMillwrightPreemption_memWf h
  | exchangeWaitLimit => exact execExchangeWaitLimit_memWf h
  | powerLoss => exact execPowerLoss_memWf

theorem State.takeItem_memWf {s : State} (h : s.memWf) : s.takeItem.2.memWf := by
  unfold State.takeItem
  split <;> exact h

theorem step_memWf {s : State} (h : s.memWf) : Out.all State.memWf (step s) := by
  have hp : s.takeItem.2.memWf := State.takeItem_memWf h
  unfold step
  extract_lets p
  split
  · split
    · trivial
    · have ht := fun k t => State.turnOf_memWf (s := { p.2 with actor := k }) (t := t) hp
      split
      next e => exact exec_memWf (Act.all_of_eq e (ht _ _))
      next e => exact Act.all_of_eq e (ht _ _)
  · split
    · trivial
    · exact ite_keeps (P := Out.all State.memWf) (exec_memWf hp) hp
  · exact ite_keeps (P := State.memWf) (State.passCycle_memWf hp) hp

/-- Settles O55: whatever a turn, an event or the passing of a cycle comes to, each operation in it keeps the canonical form of the
memories. -/
theorem stepKeepsMemory : Obligations.StepKeepsMemory := fun _ _ hs ht => Out.all_of_next ht (step_memWf hs)

end Sys2Proof.Machine
end

section
/-! SUPPORT. What a source of E gives and what a V destination receives (07 R154, R157, R158, R163). -/

namespace Sys2Proof.Words

open Sys2Proof.Machine Sys2Proof.Spec

/-! ## Elements as runs of bytes -/

theorem leNat_lt (bs : List Byte) : leNat bs < 256 ^ bs.length := by
  induction bs with
  | nil => exact Nat.one_pos
  | cons b bs ih =>
    have hb := b.isLt
    rw [leNat, List.length_cons, Nat.pow_succ]
    omega

/-- Element `j` is the number of the `w` bytes from `j * w` on. -/
theorem elemsOf_eq_map (w n : Nat) (bs : List Byte) :
    elemsOf w n bs = (List.range n).map fun j => leNat ((bs.drop (j * w)).take w) := by
  induction n generalizing bs with
  | zero => rfl
  | succ n ih =>
    rw [elemsOf, ih, List.range_succ_eq_map, List.map_cons, List.map_map, Nat.zero_mul, List.drop_zero]
    simp [Function.comp_def, List.drop_drop, Nat.succ_mul, Nat.add_comm w]

@[simp] theorem length_elemsOf (w n : Nat) (bs : List Byte) : (elemsOf w n bs).length = n := by simp [elemsOf_eq_map]

theorem getD_elemsOf {w n j : Nat} (bs : List Byte) (hj : j < n) :
    (elemsOf w n bs).getD j 0 = leNat ((bs.drop (j * w)).take w) := by
  simp [elemsOf_eq_map, List.getD, hj]

theorem lt_of_mem_elemsOf {w n x : Nat} {bs : List Byte} (hx : x ∈ elemsOf w n bs) : x < 2 ^ (8 * w) := by
  rw [elemsOf_eq_map] at hx
  obtain ⟨j, -, rfl⟩ := List.mem_map.1 hx
  calc leNat ((bs.drop (j * w)).take w)
    _ < 256 ^ ((bs.drop (j * w)).take w).length := leNat_lt _
    _ ≤ 256 ^ w := Nat.pow_le_pow_right (by decide) (List.length_take_le _ _)
    _ = 2 ^ (8 * w) := by rw [Nat.pow_mul]

/-- Element `j` of a run of a map's bytes. -/
theorem getD_elemsOf_slice (m : SMap Byte) (a w : Nat) {n j : Nat} (hj : j < n) :
    (elemsOf w n (SMap.slice 0 m a (n * w))).getD j 0 = leNat ((List.range w).map fun q => SMap.get 0 m (a + j * w + q)) := by
  have hend : (j + 1) * w ≤ n * w := Nat.mul_le_mul_right w hj
  rw [Nat.succ_mul] at hend
  rw [getD_elemsOf _ hj, SMap.slice_eq, getRun_eq_map]
  refine congrArg leNat (List.ext_getElem (by simp; omega) fun q hq _ => ?_)
  simp [Nat.add_assoc]

/-- A part of one of the joined pieces of one length. -/
theorem take_drop_flatten_pieces {α : Type} {w b m : Nat} (hm : b + m ≤ w) {l : List (List α)} (hl : ∀ x ∈ l, x.length = w)
    {i : Nat} (hi : i < l.length) : (l.flatten.drop (i * w + b)).take m = ((l.getD i []).drop b).take m := by
  induction l generalizing i with
  | nil => exact absurd hi (Nat.not_lt_zero i)
  | cons x xs ih =>
    have hx : x.length = w := hl x List.mem_cons_self
    rw [List.flatten_cons]
    cases i with
    | zero =>
      rw [Nat.zero_mul, Nat.zero_add, List.getD_cons_zero, List.drop_append_of_le_length (by omega),
        List.take_append_of_le_length (by rw [List.length_drop]; omega)]
    | succ i =>
      rw [List.getD_cons_succ, ← ih (fun y hy => hl y (List.mem_cons_of_mem x hy)) (Nat.lt_of_succ_lt_succ hi),
        show (i + 1) * w + b = x.length + (i * w + b) by rw [hx, Nat.succ_mul]; omega, List.drop_length_add_append]

/-- An element whose width divides the pieces' lies in one of them. -/
theorem getD_elemsOf_pieces {w n j : Nat} {l : List (List Byte)} (hw : 128 % w = 0) (hl : ∀ x ∈ l, x.length = 128)
    (hn : n * w ≤ l.length * 128) (hj : j < n) :
    (elemsOf w n l.flatten).getD j 0 = leNat (((l.getD (j * w / 128) []).drop (j * w % 128)).take w) := by
  obtain ⟨c, hc⟩ := Nat.dvd_of_mod_eq_zero hw
  have hpos : 0 < w := Nat.pos_of_ne_zero (by rintro rfl; omega)
  have hcpos : 0 < c := Nat.pos_of_ne_zero (by rintro rfl; omega)
  have hend : (j + 1) * w ≤ n * w := Nat.mul_le_mul_right w hj
  rw [Nat.succ_mul] at hend
  have hin : j * w % 128 + w ≤ 128 := by
    have hmod : j * w % 128 = w * (j % c) := by rw [hc, Nat.mul_comm j, Nat.mul_mod_mul_left]
    have hlast : w * (j % c + 1) ≤ w * c := Nat.mul_le_mul_left w (Nat.mod_lt j hcpos)
    rw [Nat.mul_succ] at hlast
    omega
  rw [getD_elemsOf _ hj, ← take_drop_flatten_pieces hin hl (i := j * w / 128) (by omega), Nat.div_add_mod']

/-! ## Sources (07 R157) -/

section
variable (k : Core) (sh : Shape)

theorem operandOf_v {r : Nat} (h : r < 16) : operandOf r = .v r := if_pos h

theorem operandOf_acc (t : Nat) : operandOf (24 + t) = .acc t := by
  rw [operandOf]
  iterate 5 rw [if_neg (by omega)]
  rw [Nat.add_sub_cancel_left]

theorem operandOf_lq {q : Nat} (h : q < 4) : operandOf (16 + q) = .lq q := by
  rw [operandOf, if_neg (by omega), if_pos (by omega), Nat.add_sub_cancel_left]

theorem readSource_v {r : Nat} (h : r < 16) :
    k.readSource sh r = (elemsOf sh.eb sh.n (SMap.slice 0 k.vec.v (1024 * r) (sh.n * sh.eb)), k) := by
  simp only [Core.readSource, operandOf_v h]

theorem readSource_acc (t : Nat) :
    k.readSource sh (24 + t) = (elemsOf sh.eb sh.n (SMap.slice 0 k.mat.acc (1024 * t) (sh.n * sh.eb)), k) := by
  simp only [Core.readSource, operandOf_acc, Core.tileBytes]

theorem readSource_lq {q : Nat} (h : q < 4) : k.readSource sh (16 + q) =
    (elemsOf sh.eb sh.n (((k.queue q).map fun e => e.bytes).take sh.beats).flatten,
      k.setQueue q ((k.queue q).drop sh.beats)) := by
  simp only [Core.readSource, operandOf_lq h, List.flatMap_def, List.map_take]

theorem readSource_ps : (k.readSource sh 22).1 = List.replicate sh.n (((k.en .e).stack.getD 0 0).toNat % 2 ^ (8 * sh.eb)) := rfl

theorem readSource_zero : k.readSource sh 23 = (List.replicate sh.n 0, k) := rfl

variable {sh} {j : Nat} (hj : j < sh.n)
include hj

/-- An element of a load queue's entries lies in the entry that its byte address names. -/
theorem getD_readSource_lq {q : Nat} (hq : q < 4) (hbytes : ∀ e ∈ (k.queue q).take sh.beats, e.bytes.length = 128)
    (hbeats : sh.beats ≤ (k.queue q).length) (heb : 128 % sh.eb = 0) :
    (k.readSource sh (16 + q)).1.getD j 0 =
      leNat (((((k.queue q).map fun e => e.bytes).getD (j * sh.eb / 128) []).drop (j * sh.eb % 128)).take sh.eb) := by
  have hdef : sh.beats = (sh.n * sh.eb + 127) / 128 := rfl
  have hend : (j + 1) * sh.eb ≤ sh.n * sh.eb := Nat.mul_le_mul_right sh.eb hj
  rw [Nat.succ_mul] at hend
  have hpos : 0 < sh.eb := Nat.pos_of_ne_zero fun h => by rw [h] at heb; omega
  have hlen : (((k.queue q).map fun e => e.bytes).take sh.beats).length = sh.beats := by simp [hbeats]
  have hpieces : ∀ x ∈ ((k.queue q).map fun e => e.bytes).take sh.beats, x.length = 128 := by
    rw [← List.map_take]
    exact List.forall_mem_map.2 hbytes
  have hentry : (((k.queue q).map fun e => e.bytes).take sh.beats).getD (j * sh.eb / 128) [] =
      ((k.queue q).map fun e => e.bytes).getD (j * sh.eb / 128) [] := by
    rw [List.getD_eq_getElem?_getD, List.getElem?_take_of_lt (by omega), ← List.getD_eq_getElem?_getD]
  rw [readSource_lq k sh hq, getD_elemsOf_pieces heb hpieces (by rw [hlen]; omega) hj, hentry]

end

/-- Settles O32: each kind of source by its lemma. -/
theorem sourceElements : Obligations.SourceElements := by
  intro k sh j hj
  refine ⟨fun r hr => ?_, fun t _ => ?_, fun q hq hbytes hbeats heb => ?_, ?_, rfl, ?_⟩
  · rw [readSource_v k sh hr]
    exact ⟨rfl, getD_elemsOf_slice _ _ _ hj⟩
  · rw [readSource_acc]
    exact ⟨rfl, getD_elemsOf_slice _ _ _ hj⟩
  · exact ⟨by rw [readSource_lq k sh hq], getD_readSource_lq k hj hq hbytes hbeats heb⟩
  · simp [readSource_ps, List.getD, hj]
  · simp [readSource_zero, List.getD, hj]

/-! ## A V destination (07 R158, R163) -/

/-- The registers with one element of `w` bytes written, where one is given. -/
def putElem (w a : Nat) (x : Option Nat) (m : SMap Byte) : SMap Byte := x.elim m fun v => SMap.setRun 0 m a (leBytes v w)

theorem putElems_cons (w a : Nat) (x : Option Nat) (xs : List (Option Nat)) (m : SMap Byte) :
    putElems w a (x :: xs) m = putElems w (a + w) xs (putElem w a x m) := by
  cases x <;> rfl

theorem get_putElem (w a : Nat) (y : Option Nat) (m : SMap Byte) (x : Nat) :
    SMap.get 0 (putElem w a y m) x =
      if a ≤ x ∧ x < a + w then (y.map fun v => BitVec.ofNat 8 (v / 256 ^ (x - a))).getD (SMap.get 0 m x)
      else SMap.get 0 m x := by
  cases y with
  | none => exact (ite_self _).symm
  | some v =>
    rw [putElem, Option.elim_some, SMap.get_setRun, length_leBytes]
    refine ite_congr rfl (fun h => ?_) fun _ => rfl
    have hq : x - a < w := by omega
    simp [leBytes_eq_map, List.getD, hq]

/-- A byte after elements are written from `a` on: that of the element there where one is written, else the byte that was. -/
theorem get_putElems {w : Nat} (hw : 0 < w) (xs : List (Option Nat)) (a : Nat) (m : SMap Byte) (x : Nat) :
    SMap.get 0 (putElems w a xs m) x =
      if x < a then SMap.get 0 m x
      else ((xs.getD ((x - a) / w) none).map fun v => BitVec.ofNat 8 (v / 256 ^ ((x - a) % w))).getD (SMap.get 0 m x) := by
  induction xs generalizing a m with
  | nil => simp [putElems]
  | cons y ys ih =>
    rw [putElems_cons, ih, get_putElem]
    rcases Nat.lt_or_ge x a with h | h
    · rw [if_pos (by omega), if_pos h, if_neg (by omega)]
    rw [if_neg (Nat.not_lt.2 h)]
    rcases Nat.lt_or_ge x (a + w) with h' | h'
    · rw [if_pos h', if_pos ⟨h, h'⟩, Nat.div_eq_of_lt (by omega), Nat.mod_eq_of_lt (by omega), List.getD_cons_zero]
    · have hsub : x - a = x - (a + w) + w := by omega
      rw [if_neg (Nat.not_lt.2 h'), if_neg (by omega), hsub, Nat.add_div_right _ hw, Nat.add_mod_right, List.getD_cons_succ]

section
variable (k : Core) (fmt w at_ : Nat) (xs : List (Option Nat))

theorem writeDest_v {r : Nat} (hr : r < 16) : k.writeDest r fmt w xs at_ =
    { k with
      vec := Vec.readyAt { k.vec with v := putElems w (1024 * r) xs k.vec.v }
        ((List.range ((xs.length * w + 1023) / 1024)).map (r + ·)) at_ } := by
  simp only [Core.writeDest, operandOf_v hr]

end

/-- Settles O33: a byte after a write of elements is that of the element there, else the byte that was. -/
theorem registerDestination : Obligations.RegisterDestination := by
  intro k r fmt w at_ xs hr hw
  rw [writeDest_v k fmt w at_ xs hr]
  have hget := get_putElems hw xs (1024 * r) k.vec.v
  refine ⟨fun j q v hq hv => ?_, fun a ha => ?_, _, rfl⟩
  · have hsub : 1024 * r + j * w + q - 1024 * r = q + j * w := by omega
    refine (hget _).trans ?_
    rw [if_neg (by omega), hsub, Nat.add_mul_div_right _ _ hw, Nat.div_eq_of_lt hq, Nat.zero_add, Nat.add_mul_mod_self_right,
      Nat.mod_eq_of_lt hq, hv]
    rfl
  · refine (hget a).trans ?_
    rcases Nat.lt_or_ge a (1024 * r) with h | h
    · exact if_pos h
    · rw [if_neg (Nat.not_lt.2 h)]
      cases hv : xs.getD ((a - 1024 * r) / w) none with
      | none => rfl
      | some v =>
        refine absurd ?_ (ha _ _ v (Nat.mod_lt (a - 1024 * r) hw) hv)
        rw [Nat.add_assoc, Nat.div_add_mod']
        omega

end Sys2Proof.Words
end

section
/-! SUPPORT. The words of E with one destination: their sources, and what they come to where the model's form and the statements'
agree (02 R42; 07 R154-R160, R163). -/

namespace Sys2Proof.Words

open Sys2Proof.Machine Sys2Proof.Spec

/-! ## Sources -/

theorem eight_mul_fmtBytes (f : Nat) : 8 * fmtBytes f = fmtBits f := by
  unfold fmtBytes fmtBits
  split <;> rfl

/-- The sources of a word of `m` sources: each has the shape's elements, of the format's width. -/
def Sources (sh : Shape) (m : Nat) (xs : List (List Nat)) : Prop :=
  xs.length = m ∧ ∀ x ∈ xs, x.length = sh.n ∧ ∀ a ∈ x, a < 2 ^ fmtBits sh.fmt

theorem readSource_fits (k : Core) (sh : Shape) (code : Nat) :
    (k.readSource sh code).1.length = sh.n ∧ ∀ a ∈ (k.readSource sh code).1, a < 2 ^ fmtBits sh.fmt := by
  have helems : ∀ bs, (elemsOf sh.eb sh.n bs).length = sh.n ∧ ∀ a ∈ elemsOf sh.eb sh.n bs, a < 2 ^ fmtBits sh.fmt := fun bs =>
    ⟨length_elemsOf .., fun a ha => eight_mul_fmtBytes sh.fmt ▸ lt_of_mem_elemsOf ha⟩
  unfold Core.readSource
  dsimp only
  split
  · exact helems _
  · exact helems _
  · refine ⟨List.length_replicate, fun a ha => ?_⟩
    rw [List.eq_of_mem_replicate ha, Shape.eb, eight_mul_fmtBytes]
    exact Nat.mod_lt _ (Nat.two_pow_pos _)
  · exact helems _
  · refine ⟨List.length_replicate, fun a ha => ?_⟩
    rw [List.eq_of_mem_replicate ha]
    exact Nat.two_pow_pos _

theorem readSources_fit (k : Core) (sh : Shape) (codes : List Nat) : Sources sh codes.length (k.readSources sh codes).1 := by
  induction codes generalizing k with
  | nil => exact ⟨rfl, nofun⟩
  | cons c cs ih =>
    obtain ⟨hlen, hrest⟩ := ih (k.readSource sh c).2
    exact ⟨congrArg (· + 1) hlen, List.forall_mem_cons.2 ⟨readSource_fits k sh c, hrest⟩⟩

/-- A repetition steps the sources and leaves their number (07 R183). -/
theorem length_srcs_codes (x : Vec) (i : Instr) : (x.codes i).srcs.length = (codesOf i).srcs.length := by
  unfold Vec.codes
  split
  · unfold Codes.step
    dsimp only
    split
    · rfl
    · exact List.length_map _
  · rfl

theorem vecRead_fits (i : Instr) (sh : Shape) (s : State) : Sources sh (codesOf i).srcs.length (vecRead i sh s).1 :=
  length_srcs_codes s.me.vec i ▸ readSources_fit _ sh _

section
variable {sh : Shape} {m j : Nat} {xs : List (List Nat)} (h : Sources sh m xs)
include h

theorem Sources.length_getD (hj : j < m) : (xs.getD j []).length = sh.n := by
  obtain ⟨hlen, hfits⟩ := h
  rw [List.getD_eq_getElem _ _ (hlen ▸ hj)]
  exact (hfits _ (List.getElem_mem _)).1

theorem Sources.getD_lt (q : Nat) : (xs.getD j []).getD q 0 < 2 ^ fmtBits sh.fmt := by
  obtain ⟨hlen, hfits⟩ := h
  rcases Nat.lt_or_ge j xs.length with hj | hj
  · rw [List.getD_eq_getElem _ _ hj]
    rcases Nat.lt_or_ge q xs[j].length with hq | hq
    · rw [List.getD_eq_getElem _ _ hq]
      exact (hfits _ (List.getElem_mem _)).2 _ (List.getElem_mem _)
    · rw [List.getD_eq_default _ _ hq]
      exact Nat.two_pow_pos _
  · rw [List.getD_eq_default _ _ hj]
    exact Nat.two_pow_pos _

end

/-! ## The destination (07 R156, R158) -/

theorem masked_eq (x : Vec) (p : BitVec 1) (rs : List (Option (Nat × Bool))) :
    masked x p rs = ((written x p rs).map fun r => r.map fun v => v.1,
      (written x p rs).any fun r => (r.map fun v => v.2).getD false) := by
  have hp : p = 0 ∨ p = 1 := by decide +revert
  have hkeep : (rs.mapIdx fun i r => if p = 0 ∨ x.em.getLsbD i then r else none) = written x p rs := by
    refine List.ext_getElem (by simp [written]) fun j hkept _ => ?_
    have hj : j < rs.length := by rwa [List.length_mapIdx] at hkept
    rcases hp with rfl | rfl <;> cases hem : x.em.getLsbD j <;> simp [written, hem, List.getD, hj]
  unfold masked
  dsimp only
  rw [hkeep]
  exact congrArg (Prod.mk _) (congrArg (List.any _) (funext fun r => by cases r <;> rfl))

/-- What a word leaves once its results stand, as the statements write it out. -/
theorem vecWrite_eq (s : State) (p : BitVec 1) (d fmt w at_ : Nat) (rs : List (Option (Nat × Bool))) :
    ((s.stickIf (masked s.me.vec p rs).2 0).updMe fun k => k.writeDest d fmt w (masked s.me.vec p rs).1 at_) =
      vecWrite s p d fmt w at_ rs := by
  rw [masked_eq]
  rfl

/-! ## What a word comes to -/

/-- The model runs a word whose format, shape, sources and destination pass its checks. -/
theorem runE_completes {x : EForm} {s : State} {sh : Shape} (hsh : sh = shapeOf s.me.vec.shp) (h : CanIssue .e x.i s)
    (hok : sh.ok = true) (hfmt : x.fmts sh.fmt = true) (hbad : x.bad sh = false)
    (hready : VecReady x.i sh (x.dw sh.fmt) (x.dn sh) s) :
    runE x s = .next (issued .e x.i (x.occ sh) s (vecWrite (vecRead x.i sh s).2 x.p ((s.me.vec.codes x.i).dst.getD 0)
      (x.dfmt sh.fmt) (x.dw sh.fmt) (s.cycle + x.lat sh) (x.f sh (vecRead x.i sh s).1))) := by
  have hocc : x.occ sh = x.occ (shapeOf (arrived .e s).me.vec.shp) := by rw [vec_arrived, hsh]
  unfold runE
  rw [hocc]
  refine issueN_completes h ?_
  simp only [vec_arrived, ← hsh, hok, hfmt, hbad, Bool.not_true, Bool.or_self, Bool.false_eq_true, if_false,
    withSources_ready hready]
  rw [← vecWrite_eq]
  simp only [vec_vecRead, cycle_stickIf]
  rfl

/-- The model's form of a word agrees with the statements' for a shape: on what passes its checks, on its times, and on what it
makes of its sources. -/
structure Agrees (y x : EForm) (sh : Shape) (m : Nat) : Prop where
  fmts : y.fmts sh.fmt = true
  f : ∀ xs, Sources sh m xs → y.f sh xs = x.f sh xs
  bad : y.bad sh = x.bad sh := by rfl
  dfmt : y.dfmt sh.fmt = x.dfmt sh.fmt := by rfl
  dw : y.dw sh.fmt = x.dw sh.fmt := by rfl
  dn : y.dn sh = x.dn sh := by rfl
  occ : y.occ sh = x.occ sh := by rfl
  lat : y.lat sh = x.lat sh := by rfl

/-- The shapes a SHP value can give have at most 16 rows and 128 columns (07 R155). -/
def ShapeFits (sh : Shape) : Prop := 0 < sh.rows ∧ sh.rows ≤ 16 ∧ 0 < sh.cols ∧ sh.cols ≤ 128

theorem shapeOf_fits (v : W64) : ShapeFits (shapeOf v) := by
  have hrows : bits v 8 4 < 16 := Nat.mod_lt _ (by decide)
  have hcols : bits v 16 7 < 128 := Nat.mod_lt _ (by decide)
  exact ⟨Nat.succ_pos _, hrows, Nat.succ_pos _, hcols⟩

/-- A word that the model runs by a form completes as the statements' form says, where the two agree. -/
theorem vecCompletes_of_agrees {i : Instr} {x y : EForm} (hexec : ∀ s, exec i s = runE y s) (hi : y.i = i) (hp : y.p = x.p)
    (hagree : legalFields i = true → ∀ sh, ShapeFits sh → x.fmts sh.fmt = true → Agrees y x sh (codesOf i).srcs.length) :
    vecCompletes i x := by
  subst hi
  intro s sh hsh h hok hfmt hbad hready
  have ha := hagree h.1 sh (hsh ▸ shapeOf_fits _) hfmt
  rw [completes, hexec, runE_completes hsh h hok ha.fmts (ha.bad.trans hbad) (by rw [ha.dw, ha.dn]; exact hready),
    ha.f _ (vecRead_fits ..), hp, ha.dfmt, ha.dw, ha.occ, ha.lat]

end Sys2Proof.Words
end

section
/-! SUPPORT. The elementwise words of E (07 R157, R163, R165, R167-R177, R181). -/

namespace Sys2Proof.Words

open Sys2Proof.Machine Sys2Proof.Spec

/-! ## Elements of the results -/

section
variable {α β γ : Type} {n : Nat} {x : List α} {y : List β}

theorem map_eq_range (f : α → γ) (hx : x.length = n) (a : α) : x.map f = (List.range n).map fun j => f (x.getD j a) := by
  refine List.ext_getElem (by simp [hx]) fun j hj _ => ?_
  have hxj : j < x.length := by simpa using hj
  simp [List.getD, hxj]

theorem zipWith_eq_range (f : α → β → γ) (hx : x.length = n) (hy : y.length = n) (a : α) (b : β) :
    List.zipWith f x y = (List.range n).map fun j => f (x.getD j a) (y.getD j b) := by
  refine List.ext_getElem (by simp [hx, hy]) fun j _ hj => ?_
  have hxj : j < x.length := by simpa [hx] using hj
  have hyj : j < y.length := by rwa [hy, ← hx]
  simp [List.getD, hxj, hyj]

end

section
variable {sh : Shape} {m : Nat} {xs : List (List Nat)} {i : Instr} {p : BitVec 1} {fmts : Nat → Bool} {occ : Shape → Nat}
  {d : Nat} {g' : Nat → Nat → Nat → Nat → Nat × Bool} (h : Sources sh m xs)
include h

theorem map1_eq_elementwise {g : Nat → Nat → Nat × Bool} (hm : 1 ≤ m)
    (hg : ∀ a b c, a < 2 ^ fmtBits sh.fmt → g sh.fmt a = g' sh.fmt a b c) :
    map1 g sh xs = (elementwise i p fmts occ d g').f sh xs := by
  rw [map1, map_eq_range _ (h.length_getD (j := 0) hm) 0]
  exact List.map_congr_left fun j _ => congrArg some (hg _ _ _ (h.getD_lt j))

theorem map2_eq_elementwise {g : Nat → Nat → Nat → Nat × Bool} (hm : 2 ≤ m)
    (hg : ∀ a b c, a < 2 ^ fmtBits sh.fmt → b < 2 ^ fmtBits sh.fmt → g sh.fmt a b = g' sh.fmt a b c) :
    map2 g sh xs = (elementwise i p fmts occ d g').f sh xs := by
  rw [map2, zipWith_eq_range _ (h.length_getD (j := 0) (by omega)) (h.length_getD (j := 1) hm) 0 0]
  exact List.map_congr_left fun j _ => congrArg some (hg _ _ _ (h.getD_lt j) (h.getD_lt j))

theorem map3_eq_elementwise {g : Nat → Nat → Nat → Nat → Nat × Bool} (hm : 3 ≤ m)
    (hg : ∀ a b c, g sh.fmt a b c = g' sh.fmt a b c) :
    map3 g sh xs = (elementwise i p fmts occ d g').f sh xs := by
  have hzip : List.zip (xs.getD 0 []) (xs.getD 1 []) =
      (List.range sh.n).map fun j => ((xs.getD 0 []).getD j 0, (xs.getD 1 []).getD j 0) :=
    zipWith_eq_range Prod.mk (h.length_getD (j := 0) (by omega)) (h.length_getD (j := 1) (by omega)) 0 0
  rw [map3, hzip, List.zipWith_map_left, zipWith_eq_range _ List.length_range (h.length_getD (j := 2) hm) 0 0]
  refine List.map_congr_left fun j hj => congrArg some ?_
  have hindex : (List.range sh.n).getD j 0 = j := by simp [List.getD, List.mem_range.1 hj]
  rw [hindex]
  exact hg _ _ _

end

/-! ## Formats (07 R165) -/

theorem flIntFx_eq (f : Nat) : flIntFx f = fmtNum f := by
  rw [Bool.eq_iff_iff]
  simp [flIntFx, fmtNum, isInt]
  omega

theorem intFx_eq (f : Nat) : intFx f = fmtIntFx f := by
  rw [Bool.eq_iff_iff]
  simp [intFx, fmtIntFx, isInt]
  omega

theorem everyFmt_eq (f : Nat) : everyFmt f = fmtAll f := by
  rw [Bool.eq_iff_iff]
  simp [everyFmt, flIntFx, fmtAll]
  omega

theorem fmtSigned_eq (f : Nat) : fmtSigned f = ([0, 1, 2, 3, 4, 5, 6, 7, 8, 9, 14] : List Nat).contains f := by
  rw [Bool.eq_iff_iff]
  simp [fmtSigned]
  omega

/-- The formats of E.MIN, E.MAX and E.CMP, some of them only where a field allows integers. -/
theorem fmtNum_or_not_isInt {f : Nat} {b : Bool} (h : (flIntFx f && (b || f == 14 || decide (f ≤ 3))) = true) :
    (fmtNum f && (b || !isInt f)) = true := by
  cases b
  · simp [flIntFx, fmtNum, isInt] at h ⊢
    omega
  · simpa [flIntFx_eq] using h

/-! ## Numbers of some bits -/

theorem all_sub_eq_xor {w b : Nat} (hb : b < 2 ^ w) : 2 ^ w - 1 - b = (2 ^ w - 1) ^^^ b := by
  refine Nat.eq_of_testBit_eq fun j => ?_
  rw [Nat.sub_sub, Nat.add_comm, Nat.testBit_two_pow_sub_succ hb, Nat.testBit_xor, Nat.testBit_two_pow_sub_one]
  by_cases hj : j < w
  · simp [hj]
  · have hbj : b.testBit j = false :=
      Nat.testBit_lt_two_pow (Nat.lt_of_lt_of_le hb (Nat.pow_le_pow_right (by decide) (Nat.not_lt.1 hj)))
    simp [hj, hbj]

theorem add_two_pow_eq_xor {k a : Nat} (ha : a < 2 ^ k) : a + 2 ^ k = a ^^^ 2 ^ k := by
  refine Nat.eq_of_testBit_eq fun j => ?_
  have hsum : a + 2 ^ k = 2 ^ k * 1 + a := by omega
  rw [hsum, Nat.testBit_two_pow_mul_add _ ha, Nat.testBit_xor, Nat.testBit_two_pow]
  by_cases hj : j < k
  · have hne : k ≠ j := by omega
    simp [hj, hne]
  · have haj : a.testBit j = false :=
      Nat.testBit_lt_two_pow (Nat.lt_of_lt_of_le ha (Nat.pow_le_pow_right (by decide) (Nat.not_lt.1 hj)))
    have hone : Nat.testBit 1 (j - k) = decide (k = j) := by
      rw [Bool.eq_iff_iff, Nat.testBit_one_eq_true_iff_self_eq_zero, decide_eq_true_iff]
      omega
    simp [hj, haj, hone]

/-- A number of `k + 1` bits with its top bit turned. -/
theorem flip_top_bit {k a : Nat} (ha : a < 2 ^ (k + 1)) :
    (if a / 2 ^ k % 2 = 1 then a - 2 ^ k else a + 2 ^ k) = a ^^^ 2 ^ k := by
  rw [Nat.pow_succ] at ha
  rcases Nat.lt_or_ge a (2 ^ k) with h | h
  · rw [Nat.div_eq_of_lt h, if_neg (by decide), add_two_pow_eq_xor h]
  · obtain ⟨b, rfl⟩ := Nat.exists_eq_add_of_le' h
    have hb : b < 2 ^ k := by omega
    rw [Nat.add_div_right _ (Nat.two_pow_pos k), Nat.div_eq_of_lt hb, if_pos (by decide), Nat.add_sub_cancel,
      add_two_pow_eq_xor hb, Nat.xor_xor_cancel_right]

/-- A number of `k + 1` bits with its top bit cleared. -/
theorem clear_top_bit {k a : Nat} (ha : a < 2 ^ (k + 1)) : a - a / 2 ^ k % 2 * 2 ^ k = a % 2 ^ k := by
  rw [Nat.pow_succ] at ha
  have hdiv : a / 2 ^ k < 2 := Nat.div_lt_of_lt_mul ha
  rw [Nat.mod_eq_of_lt hdiv, Nat.mod_eq_sub_div_mul]

theorem rotateLeft_toNat {w a b : Nat} (hw : 0 < w) (ha : a < 2 ^ w) :
    ((BitVec.ofNat w a).rotateLeft b).toNat = (a * 2 ^ (b % w) + a / 2 ^ (w - b % w)) % 2 ^ w := by
  have hr : b % w < w := Nat.mod_lt b hw
  rw [BitVec.rotateLeft_def]
  generalize b % w = r at hr
  have hlow : a / 2 ^ (w - r) < 2 ^ r := by
    rw [Nat.div_lt_iff_lt_mul (Nat.two_pow_pos _), ← Nat.pow_add, show r + (w - r) = w by omega]
    exact ha
  have hlt : a / 2 ^ (w - r) < 2 ^ w := Nat.lt_of_le_of_lt (Nat.div_le_self ..) ha
  rw [Nat.mul_comm, Nat.two_pow_add_eq_or_of_lt hlow, Nat.or_mod_two_pow, Nat.mod_eq_of_lt hlt, BitVec.toNat_or,
    BitVec.toNat_shiftLeft, BitVec.toNat_ushiftRight, BitVec.toNat_ofNat, Nat.mod_eq_of_lt ha, Nat.shiftLeft_eq,
    Nat.shiftRight_eq_div_pow, Nat.mul_comm]

/-! ## Element functions -/

theorem eq_nan_iff (x : Val) : x = .nan ↔ x.isNan = true := by cases x <;> simp [Val.isNan]

theorem fmtBits_pos_of_intFx {f : Nat} (h : intFx f = true) : 0 < fmtBits f := by
  have hmem : f ∈ [6, 7, 8, 9, 10, 11, 12, 14] := List.contains_iff_mem.1 h
  have hall : ∀ f ∈ [6, 7, 8, 9, 10, 11, 12, 14], 0 < fmtBits f := by decide
  exact hall f hmem

/-- The least three values of a field of three bits. -/
theorem le_two_cases : ∀ m : BitVec 3, m.toNat ≤ 2 → m = 0 ∨ m = 1 ∨ m = 2 := by decide

theorem le_three_cases : ∀ m : BitVec 3, m.toNat ≤ 3 → m = 0 ∨ m = 1 ∨ m = 2 ∨ m = 3 := by decide

/-- E.MOV neg and abs turn or clear the sign of a floating element (07 R171). -/
theorem movElem_float {m f a : Nat} (hf : f ≤ 5) (ha : a < 2 ^ fmtBits f) (hm : m ≠ 0) :
    movElem m f a = (if m = 1 then a ^^^ 2 ^ (fmtBits f - 1) else a % 2 ^ (fmtBits f - 1), false) := by
  obtain ⟨k, hk⟩ : ∃ k, fmtBits f = k + 1 := Nat.exists_eq_succ_of_ne_zero (by interval_cases f <;> decide)
  have hfloat : isFloat f = true := decide_eq_true hf
  rw [hk] at ha
  simp only [movElem, hk, hm, hfloat, if_true, if_false, Nat.add_sub_cancel, flip_top_bit ha, clear_top_bit ha]

theorem movElem_int {m f a : Nat} (hf : ¬ f ≤ 5) (hm : m ≠ 0) :
    movElem m f a = saturate f (if m = 1 then -signedOf (fmtBits f) a else (signedOf (fmtBits f) a).natAbs) := by
  have hfloat : isFloat f = false := decide_eq_false hf
  simp only [movElem, hm, hfloat, Bool.false_eq_true, if_false]
  rfl

theorem movElem_eq {m : BitVec 3} {f a : Nat} (ha : a < 2 ^ fmtBits f) :
    movElem m.toNat f a =
      if m = 0 then (a, false)
      else if f ≤ 5 then (if m = 1 then a ^^^ 2 ^ (fmtBits f - 1) else a % 2 ^ (fmtBits f - 1), false)
      else saturate f (if m = 1 then -signedOf (fmtBits f) a else (signedOf (fmtBits f) a).natAbs) := by
  by_cases hm : m = 0
  · subst hm
    rfl
  · have hm0 : m.toNat ≠ 0 := fun h => hm (BitVec.eq_of_toNat_eq h)
    have hm1 : m.toNat = 1 ↔ m = 1 := ⟨fun h => BitVec.eq_of_toNat_eq h, fun h => h ▸ rfl⟩
    rw [if_neg hm]
    split
    next hf => simp only [movElem_float hf ha hm0, hm1]
    next hf => simp only [movElem_int hf hm0, hm1]

/-- E.MIN and E.MAX choose as the statements write it out (07 R170). -/
theorem minMaxElem_eq_chosen (isMax num : Bool) (f a b : Nat) : minMaxElem isMax num f a b = chosen isMax num f a b := by
  unfold minMaxElem chosen
  simp only [eq_nan_iff, ne_eq]
  cases (valueOf f a).isNan <;> cases (valueOf f b).isNan <;> cases isMax <;> cases num <;> simp

theorem cmpHolds_eq_related (c : BitVec 3) (x y : Val) : cmpHolds c.toNat x y = related c x y := by
  have hcases : ∀ c : BitVec 3, c = 0 ∨ c = 1 ∨ c = 2 ∨ c = 3 ∨ c = 4 ∨ c = 5 ∨ c = 6 ∨ c = 7 := by decide
  have hnan : (x.isNan || y.isNan) = true ↔ x = .nan ∨ y = .nan := by rw [Bool.or_eq_true, eq_nan_iff, eq_nan_iff]
  unfold cmpHolds related
  by_cases h : x = .nan ∨ y = .nan
  · rw [if_pos (hnan.2 h), if_pos h]
    decide +revert
  · rw [if_neg (mt hnan.1 h), if_neg h]
    rcases hcases c with rfl | rfl | rfl | rfl | rfl | rfl | rfl | rfl
    · exact (Bool.not_or ..).symm
    all_goals rfl

theorem iaddElem_eq {m : BitVec 3} (hm : m.toNat ≤ 3) (f a b : Nat) :
    iaddElem m.toNat f a b =
      let v := if m = 1 ∨ m = 3 then intOf f a - intOf f b else intOf f a + intOf f b
      if m = 0 ∨ m = 1 then ((v % 2 ^ fmtBits f).toNat, false) else saturate f v := by
  rcases le_three_cases m hm with rfl | rfl | rfl | rfl <;> rfl

theorem imulElem_eq {m : BitVec 3} (hm : m.toNat ≤ 2) (f a b : Nat) :
    imulElem m.toNat f a b =
      let v := intOf f a * intOf f b
      if m = 0 then ((v % 2 ^ fmtBits f).toNat, false)
      else if m = 1 then ((v / 2 ^ fmtBits f % 2 ^ fmtBits f).toNat, false) else saturate f v := by
  have hpos : (0 : Int) ≤ 2 ^ fmtBits f := Int.pow_nonneg (by decide)
  rcases le_two_cases m hm with rfl | rfl | rfl
  · rfl
  · change (intBits f (Int.fdiv _ _), false) = _
    rw [Int.fdiv_eq_ediv_of_nonneg _ hpos]
    rfl
  · rfl

/-- E.LOGIC computes bit by bit (07 R176). -/
theorem logicElem_eq {m : BitVec 3} {f a b : Nat} (ha : a < 2 ^ fmtBits f) (hb : b < 2 ^ fmtBits f) :
    m.toNat ≤ 4 → logicElem m.toNat f a b =
      (match m with
        | 0 => a &&& b
        | 1 => a ||| b
        | 2 => a ^^^ b
        | 3 => a &&& ((2 ^ fmtBits f - 1) ^^^ b)
        | _ => (2 ^ fmtBits f - 1) ^^^ a) := by
  intro hm
  have hcases : ∀ m : BitVec 3, m.toNat ≤ 4 → m = 0 ∨ m = 1 ∨ m = 2 ∨ m = 3 ∨ m = 4 := by decide
  rw [← all_sub_eq_xor ha, ← all_sub_eq_xor hb]
  rcases hcases m hm with rfl | rfl | rfl | rfl | rfl <;> rfl

/-- E.SHIFT shifts by as much as the width allows, and rotates (07 R177). -/
theorem shiftElem_eq {m : BitVec 3} {f a b : Nat} (hf : 0 < fmtBits f) (ha : a < 2 ^ fmtBits f) :
    m.toNat ≤ 3 → shiftElem m.toNat f a b =
      (match m with
        | 0 => if b < fmtBits f then a * 2 ^ b % 2 ^ fmtBits f else 0
        | 1 => if b < fmtBits f then a / 2 ^ b else 0
        | 2 => (signedOf (fmtBits f) a / 2 ^ min b (fmtBits f - 1) % 2 ^ fmtBits f).toNat
        | _ => ((BitVec.ofNat (fmtBits f) a).rotateLeft b).toNat) := by
  intro hm
  rcases le_three_cases m hm with rfl | rfl | rfl | rfl
  · change (if fmtBits f ≤ b then 0 else _) = if b < fmtBits f then _ else 0
    simp only [← Nat.not_lt, ite_not]
  · change (if fmtBits f ≤ b then 0 else _) = if b < fmtBits f then _ else 0
    simp only [← Nat.not_lt, ite_not]
  · change (Int.fdiv _ _ % _).toNat = _
    rw [Int.fdiv_eq_ediv_of_nonneg _ (Int.pow_nonneg (by decide))]
    rfl
  · exact (rotateLeft_toNat hf ha).symm

/-! ## The words -/

section
variable {i : Instr} {p : BitVec 1} {fmts fm : Nat → Bool} {occ : Shape → Nat} {d : Nat} {g' : Nat → Nat → Nat → Nat → Nat × Bool}

/-- A word that the model runs element by element over one source completes as the statements' form says. -/
theorem elementwise_map1 {g : Nat → Nat → Nat × Bool}
    (hexec : ∀ s, exec i s = runE { i := i, p := p, fmts := fm, occ := occ, lat := fun sh => d + occ sh, f := map1 g } s)
    (hm : 1 ≤ (codesOf i).srcs.length)
    (hg : legalFields i = true → ∀ f, fmts f = true → fm f = true ∧ ∀ a, a < 2 ^ fmtBits f → ∀ b c, g f a = g' f a b c) :
    vecCompletes i (elementwise i p fmts occ d g') :=
  vecCompletes_of_agrees hexec rfl rfl fun hlegal sh _ hf =>
    { fmts := (hg hlegal sh.fmt hf).1
      f := fun _ hxs => map1_eq_elementwise hxs hm fun a b c ha => (hg hlegal sh.fmt hf).2 a ha b c }

/-- The same over two sources. -/
theorem elementwise_map2 {g : Nat → Nat → Nat → Nat × Bool}
    (hexec : ∀ s, exec i s = runE { i := i, p := p, fmts := fm, occ := occ, lat := fun sh => d + occ sh, f := map2 g } s)
    (hm : 2 ≤ (codesOf i).srcs.length)
    (hg : legalFields i = true → ∀ f, fmts f = true → fm f = true ∧
      ∀ a b, a < 2 ^ fmtBits f → b < 2 ^ fmtBits f → ∀ c, g f a b = g' f a b c) :
    vecCompletes i (elementwise i p fmts occ d g') :=
  vecCompletes_of_agrees hexec rfl rfl fun hlegal sh _ hf =>
    { fmts := (hg hlegal sh.fmt hf).1
      f := fun _ hxs => map2_eq_elementwise hxs hm fun a b c ha hb => (hg hlegal sh.fmt hf).2 a b ha hb c }

/-- The same over three sources. -/
theorem elementwise_map3 {g : Nat → Nat → Nat → Nat → Nat × Bool}
    (hexec : ∀ s, exec i s = runE { i := i, p := p, fmts := fm, occ := occ, lat := fun sh => d + occ sh, f := map3 g } s)
    (hm : 3 ≤ (codesOf i).srcs.length) (hg : ∀ f, fmts f = true → fm f = true ∧ ∀ a b c, g f a b c = g' f a b c) :
    vecCompletes i (elementwise i p fmts occ d g') :=
  vecCompletes_of_agrees hexec rfl rfl fun _ sh _ hf =>
    { fmts := (hg sh.fmt hf).1, f := fun _ hxs => map3_eq_elementwise hxs hm (hg sh.fmt hf).2 }

end

theorem eMov_completes {d a : BitVec 5} {p : BitVec 1} {m : BitVec 3} {x : EForm} (hx : elemForm (.eMov d p a m) = some x) :
    vecCompletes (.eMov d p a m) x := by
  cases hx
  refine elementwise_map1 (fun _ => rfl) (Nat.le_refl 1) fun _ f hf => ⟨?_, fun a ha _ _ => movElem_eq ha⟩
  by_cases hm : m = 0 <;> simp only [hm, if_true, if_false] at hf ⊢
  · rwa [← everyFmt_eq]
  · rwa [fmtSigned_eq]

theorem eLogic_completes {d a b : BitVec 5} {p : BitVec 1} {m : BitVec 3} {x : EForm}
    (hx : elemForm (.eLogic d p a b m) = some x) : vecCompletes (.eLogic d p a b m) x := by
  cases hx
  refine vecCompletes_of_agrees (fun _ => rfl) rfl rfl fun hlegal sh _ hf =>
    { fmts := (everyFmt_eq _).symm.trans hf, f := fun xs hxs => ?_ }
  simp only [legalFields, Bool.and_eq_true, decide_eq_true_eq] at hlegal
  obtain ⟨⟨-, hm⟩, -⟩ := hlegal
  by_cases h4 : m = 4
  · subst h4
    dsimp only
    rw [if_pos rfl]
    refine map1_eq_elementwise hxs (Nat.le_refl 1) fun a _ _ ha => ?_
    exact congrArg (·, false) (all_sub_eq_xor ha)
  · rw [codesOf, if_neg h4] at hxs
    dsimp only
    rw [if_neg h4]
    refine map2_eq_elementwise hxs (Nat.le_refl 2) fun a b _ ha hb => ?_
    exact congrArg (·, false) (logicElem_eq ha hb hm)

theorem eImul_completes {d a b : BitVec 5} {p : BitVec 1} {m : BitVec 3} {x : EForm} (h3 : m ≠ 3)
    (hx : elemForm (.eImul d p a b m) = some x) : vecCompletes (.eImul d p a b m) x := by
  rw [elemForm, if_neg h3] at hx
  cases hx
  refine elementwise_map2 (g := imulElem m.toNat) (fm := isInt) (fun s => ?_) (Nat.le_refl 2) fun hlegal f hf =>
    ⟨hf, fun a b _ _ _ => ?_⟩
  · change execEImul d p a b m s = _
    simp only [execEImul, if_neg h3]
  · simp only [legalFields, Bool.and_eq_true, decide_eq_true_eq] at hlegal
    obtain ⟨⟨-, hm⟩, -⟩ := hlegal
    have hne : m.toNat ≠ 3 := fun h => h3 (BitVec.eq_of_toNat_eq h)
    exact imulElem_eq (by omega) _ a b

/-- E.DIV's latency, like that of E.SQRT, is no fixed number of cycles behind its occupancy (07 R163). -/
theorem eDiv_completes {d a b : BitVec 5} {p : BitVec 1} {r : BitVec 2} {x : EForm} (hx : elemForm (.eDiv d p a b r) = some x) :
    vecCompletes (.eDiv d p a b r) x := by
  cases hx
  refine vecCompletes_of_agrees (fun _ => rfl) rfl rfl fun _ sh _ hf => { fmts := hf, f := fun xs hxs => ?_ }
  dsimp only
  refine map2_eq_elementwise hxs (Nat.le_refl 2) fun _ _ _ _ _ => ?_
  rfl

theorem eSqrt_completes {d a : BitVec 5} {p : BitVec 1} {r : BitVec 2} {x : EForm} (hx : elemForm (.eSqrt d p a r) = some x) :
    vecCompletes (.eSqrt d p a r) x := by
  cases hx
  refine vecCompletes_of_agrees (fun _ => rfl) rfl rfl fun _ sh _ hf => { fmts := hf, f := fun xs hxs => ?_ }
  dsimp only
  refine map1_eq_elementwise hxs (Nat.le_refl 1) fun _ _ _ _ => ?_
  rfl

/-- Settles O27: each elementwise word by what the model computes of its elements. -/
theorem elementwiseWords : Obligations.ElementwiseWords := by
  intro i x hx
  cases i
  case eMov => exact eMov_completes hx
  case eLogic => exact eLogic_completes hx
  case eDiv => exact eDiv_completes hx
  case eSqrt => exact eSqrt_completes hx
  case eAdd | eSub | eMul =>
    cases hx
    exact elementwise_map2 (fun _ => rfl) (Nat.le_refl 2) fun _ _ hf => ⟨hf, fun _ _ _ _ _ => rfl⟩
  case eSfn =>
    cases hx
    exact elementwise_map1 (fun _ => rfl) (Nat.le_refl 1) fun _ _ hf => ⟨hf, fun _ _ _ _ => rfl⟩
  case eFma =>
    cases hx
    exact elementwise_map3 (fun _ => rfl) (Nat.le_refl 3) fun _ hf => ⟨hf, fun _ _ _ => by simp only [fmaElem, beq_iff_eq]⟩
  case eSelect =>
    cases hx
    exact elementwise_map3 (fun _ => rfl) (Nat.le_refl 3) fun f hf =>
      ⟨(everyFmt_eq f).symm.trans hf, fun _ _ _ => by simp only [ne_eq, ite_not]⟩
  case eMin | eMax =>
    cases hx
    exact elementwise_map2 (fun _ => rfl) (Nat.le_refl 2) fun _ f hf =>
      ⟨fmtNum_or_not_isInt hf, fun a b _ _ _ => congrArg (·, false) (minMaxElem_eq_chosen _ _ f a b)⟩
  case eCmp =>
    cases hx
    exact elementwise_map2 (fun _ => rfl) (Nat.le_refl 2) fun _ f hf =>
      ⟨fmtNum_or_not_isInt hf, fun a b _ _ _ => by simp only [cmpHolds_eq_related]⟩
  case eIadd =>
    cases hx
    refine elementwise_map2 (fun _ => rfl) (Nat.le_refl 2) fun hlegal f hf =>
      ⟨(intFx_eq f).symm.trans hf, fun a b _ _ _ => ?_⟩
    simp only [legalFields, Bool.and_eq_true, decide_eq_true_eq] at hlegal
    obtain ⟨-, hm⟩ := hlegal
    exact iaddElem_eq hm f a b
  case eShift =>
    cases hx
    refine elementwise_map2 (fun _ => rfl) (Nat.le_refl 2) fun hlegal f hf =>
      ⟨(intFx_eq f).symm.trans hf, fun a b ha _ _ => ?_⟩
    simp only [legalFields, Bool.and_eq_true, decide_eq_true_eq] at hlegal
    obtain ⟨-, hm⟩ := hlegal
    exact congrArg (·, false) (shiftElem_eq (fmtBits_pos_of_intFx hf) ha hm)
  case eImul d p a b m =>
    by_cases h3 : m = 3
    · rw [elemForm, if_pos h3] at hx
      exact absurd hx nofun
    · exact eImul_completes h3 hx
  all_goals exact absurd hx nofun

end Sys2Proof.Words
end

section
/-! SUPPORT. The words of E that move elements between places: wide products, reductions, transposition, permutation and packing
(03 R54, R63; 07 R163, R165, R175, R178-R180; 08 R194). -/

namespace Sys2Proof.Words

open Sys2Proof.Machine Sys2Proof.Spec

/-! ## Results given row by row -/

/-- Rows of one length one after another, by linear index. -/
theorem flatMap_range_rows {α : Type} (m n : Nat) (g : Nat → Nat → α) :
    ((List.range m).flatMap fun r => (List.range n).map fun c => g r c) = (List.range (m * n)).map fun j => g (j / n) (j % n) := by
  induction m with
  | zero => rw [Nat.zero_mul]; rfl
  | succ m ih =>
    rw [List.range_succ, List.flatMap_append, ih, Nat.succ_mul, List.range_add, List.map_append, List.map_map,
      List.flatMap_singleton]
    refine congrArg _ (List.map_congr_left fun c hc => ?_)
    have hlt : c < n := List.mem_range.1 hc
    have hdiv : (m * n + c) / n = m := by
      rw [Nat.mul_comm, Nat.mul_add_div (by omega), Nat.div_eq_of_lt hlt, Nat.add_zero]
    have hmod : (m * n + c) % n = c := by rw [Nat.mul_comm, Nat.mul_add_mod, Nat.mod_eq_of_lt hlt]
    rw [Function.comp, hdiv, hmod]

theorem byRows_eq (sh : Shape) (g : Nat → Nat → Option (Nat × Bool)) :
    byRows sh g = (List.range sh.n).map fun j => g (j / sh.cols) (j % sh.cols) :=
  flatMap_range_rows sh.rows sh.cols g

/-! ## E.RED (07 R178) -/

/-- The one place of a range where a test holds. -/
theorem find?_range_eq_some {p : Nat → Bool} {m r : Nat} (hr : r < m) (hp : p r = true) (hone : ∀ j, p j = true → j = r) :
    (List.range m).find? p = some r := by
  rw [List.find?_range_eq_some]
  refine ⟨hp, List.mem_range.2 hr, fun j hj => ?_⟩
  rw [Bool.not_eq_true', Bool.eq_false_iff]
  exact fun hpj => Nat.ne_of_lt hj (hone j hpj)

/-- Results at places that a function gives for the numbers below `m`, found by the number whose place it is. -/
theorem scatter_map (n m : Nat) (pos : Nat → Nat) (val : Nat → Nat × Bool) :
    scatter n ((List.range m).map fun r => (pos r, val r)) =
      (List.range n).map fun j => ((List.range m).find? fun r => decide (pos r = j)).map val := by
  unfold scatter
  refine List.map_congr_left fun j _ => ?_
  rw [List.find?_map, Option.map_map]
  rfl

theorem scatter_rows {rows cols : Nat} (hc : 0 < cols) (val : Nat → Nat × Bool) :
    scatter (rows * cols) ((List.range rows).map fun r => (r * cols, val r)) =
      (List.range (rows * cols)).map fun j => if j % cols = 0 then some (val (j / cols)) else none := by
  rw [scatter_map]
  refine List.map_congr_left fun j hj => ?_
  have hlt : j / cols < rows := (Nat.div_lt_iff_lt_mul hc).2 (List.mem_range.1 hj)
  split
  next h =>
    have hpos : j / cols * cols = j := Nat.div_mul_cancel (Nat.dvd_of_mod_eq_zero h)
    rw [find?_range_eq_some hlt (decide_eq_true hpos)
      fun r hr => Nat.eq_of_mul_eq_mul_right hc ((of_decide_eq_true hr).trans hpos.symm)]
    rfl
  next h =>
    rw [List.find?_eq_none.2 fun r _ hr => h ?_]
    · rfl
    · rw [← of_decide_eq_true hr]
      exact Nat.mul_mod_left r cols

theorem scatter_cols {rows cols : Nat} (hc : 0 < cols) (val : Nat → Nat × Bool) :
    scatter (rows * cols) ((List.range cols).map fun c => (c, val c)) =
      (List.range (rows * cols)).map fun j => if j / cols = 0 then some (val (j % cols)) else none := by
  rw [scatter_map]
  refine List.map_congr_left fun j _ => ?_
  split
  next h =>
    have hlt : j < cols := (Nat.div_eq_zero_iff_lt hc).1 h
    rw [find?_range_eq_some hlt (decide_eq_true rfl) fun c hc => of_decide_eq_true hc, Nat.mod_eq_of_lt hlt]
    rfl
  next h =>
    rw [List.find?_eq_none.2 fun c hc' hj => h ?_]
    · rfl
    · rw [← of_decide_eq_true hj]
      exact Nat.div_eq_of_lt (List.mem_range.1 hc')

/-- A row of a list of elements. -/
theorem take_drop_eq_range {v : List Nat} {a n : Nat} (h : a + n ≤ v.length) :
    (v.drop a).take n = (List.range n).map fun j => v.getD (a + j) 0 := by
  refine List.ext_getElem (by simp; omega) fun j hj _ => ?_
  have hj' : a + j < v.length := by simp at hj; omega
  simp [List.getD, hj']

theorem log2Up_eq_logUp {n : Nat} (h : n ≤ 128) : log2Up n = logUp n := by
  have hall : ∀ n < 129, log2Up n = logUp n := by decide +kernel
  exact hall n (by omega)

/-- The canonical NaN of a format in which a number may be none is one, E8M0 aside (03 R53, R54). -/
theorem isNan_canonNan {f a : Nat} (hf : flIntFx f = true) (h : (valueOf f a).isNan = true) :
    (valueOf f (canonNan f)).isNan = true := by
  by_cases hfloat : f ≤ 5
  · have hall : ∀ f < 6, (valueOf f (canonNan f)).isNan = true := by decide +kernel
    exact hall f (by omega)
  · have h15 : f ≠ 15 := by rintro rfl; exact absurd hf (by decide)
    refine absurd h ?_
    rw [valueOf, isFloat, decide_eq_false hfloat, if_neg Bool.false_ne_true, if_neg h15]
    split
    · exact Bool.false_ne_true
    · split <;> exact Bool.false_ne_true

theorem Val.lt_self (z : Bool) (x : Val) : Val.lt z x x = false := by
  cases x with
  | nan => rfl
  | inf s => cases s <;> rfl
  | fin s n d => cases s <;> simp [Val.lt]

/-- An element chosen from itself alone: a NaN becomes the canonical one (03 R54). -/
theorem chosen_self (isMax : Bool) (f a : Nat) :
    chosen isMax false f a a = if (valueOf f a).isNan = true then canonNan f else a := by
  unfold chosen
  simp only [eq_nan_iff, Val.lt_self, Bool.false_eq_true, false_and, if_false, ite_self]
  split <;> rfl

theorem chosen_chosen_self {isMax : Bool} {f a b : Nat} (hf : flIntFx f = true) :
    chosen isMax false f (chosen isMax false f a a) b = chosen isMax false f a b := by
  rw [chosen_self]
  split
  next h =>
    unfold chosen
    simp only [eq_nan_iff, h, isNan_canonNan hf h, if_true]
  next => rfl

/-- A reduction of one element at least comes to what the statements write out (07 R178). -/
theorem reduceElems_eq_reduced {o : BitVec 2} {f x : Nat} {xs : List Nat} (hf : flIntFx f = true) :
    reduceElems o.toNat f (x :: xs) = reduced o f (x :: xs) := by
  have hzero : o.toNat = 0 ↔ o = 0 := ⟨fun h => BitVec.eq_of_toNat_eq h, fun h => h ▸ rfl⟩
  have hone : (o.toNat == 1) = (o == 1) := by decide +revert
  unfold reduceElems reduced
  simp only [hzero, hone, minMaxElem_eq_chosen, List.headD_cons, List.foldl_cons]
  split
  · rfl
  · cases xs with
    | nil => rw [List.foldl_nil, chosen_self]
    | cons y ys =>
      rw [List.foldl_cons, chosen_chosen_self hf]
      rfl

theorem eRed_completes {d a : BitVec 5} {p x : BitVec 1} {o : BitVec 2} {y : EForm}
    (hy : movingForm (.eRed d p a x o) = some y) : vecCompletes (.eRed d p a x o) y := by
  cases hy
  refine vecCompletes_of_agrees (fun _ => rfl) rfl rfl fun _ sh hfits hf =>
    { fmts := (flIntFx_eq _).symm.trans hf, f := fun xs hxs => ?_, lat := ?_ }
  all_goals obtain ⟨hrows, hrows', hcols, hcols'⟩ := hfits
  · have hlen : (xs.getD 0 []).length = sh.rows * sh.cols := hxs.length_getD (j := 0) (Nat.one_pos)
    have hreduce : ∀ v : List Nat, 0 < v.length → reduceElems o.toNat sh.fmt v = reduced o sh.fmt v := fun v hv => by
      obtain ⟨e, es, rfl⟩ := List.exists_cons_of_length_pos hv
      exact reduceElems_eq_reduced hf
    dsimp only
    rw [byRows_eq]
    split
    · refine (scatter_rows hcols _).trans (List.map_congr_left fun j hj => ite_congr rfl (fun _ => congrArg some ?_) fun _ => rfl)
      have hj' : j / sh.cols < sh.rows := (Nat.div_lt_iff_lt_mul hcols).2 (List.mem_range.1 hj)
      have hend : (j / sh.cols + 1) * sh.cols ≤ sh.rows * sh.cols := Nat.mul_le_mul_right _ hj'
      rw [Nat.succ_mul] at hend
      rw [take_drop_eq_range (by omega), hreduce _ (by simpa using hcols)]
    · refine (scatter_cols hcols _).trans (List.map_congr_left fun j _ => ite_congr rfl (fun _ => congrArg some ?_) fun _ => rfl)
      exact hreduce _ (by simpa using hrows)
  · dsimp only
    rw [log2Up_eq_logUp]
    split <;> omega

/-! ## Wide products and transposition (07 R175, R179) -/

theorem fmtWide_eq (f : Nat) : fmtWide f = ([6, 7, 8, 10, 11] : List Nat).contains f := by
  rw [Bool.eq_iff_iff]
  simp [fmtWide]
  omega

theorem eImul_wide_completes {d a b : BitVec 5} {p : BitVec 1} {y : EForm} (hy : movingForm (.eImul d p a b 3) = some y) :
    vecCompletes (.eImul d p a b 3) y := by
  cases hy
  refine vecCompletes_of_agrees (fun _ => rfl) rfl rfl fun _ sh _ hf => { fmts := ?_, f := fun xs hxs => ?_ }
  · dsimp only
    rw [if_pos rfl, fmtWide_eq]
    exact hf
  · exact zipWith_eq_range _ (hxs.length_getD (j := 0) Nat.zero_lt_two) (hxs.length_getD (j := 1) Nat.one_lt_two) 0 0

theorem eXpose_completes {d a : BitVec 5} {p : BitVec 1} {y : EForm} (hy : movingForm (.eXpose d p a) = some y) :
    vecCompletes (.eXpose d p a) y := by
  cases hy
  refine vecCompletes_of_agrees (fun _ => rfl) rfl rfl fun _ sh _ hf =>
    { fmts := (everyFmt_eq _).symm.trans hf, f := fun xs _ => ?_ }
  dsimp only
  rw [flatMap_range_rows, Nat.mul_comm]
  rfl

/-! ## E.PERM (07 R180) -/

theorem ePerm_completes {d a b c : BitVec 5} {p : BitVec 1} {m : BitVec 3} {sub : BitVec 8} {y : EForm}
    (hy : movingForm (.ePerm d p a b m c sub) = some y) : vecCompletes (.ePerm d p a b m c sub) y := by
  cases hy
  refine vecCompletes_of_agrees (fun _ => rfl) rfl rfl fun hlegal sh _ hf =>
    { fmts := (everyFmt_eq _).symm.trans hf, f := fun xs hxs => ?_, bad := ?_ }
  all_goals
    have hm : m = 0 ∨ m = 1 ∨ m = 2 ∨ m = 3 := by
      simp only [legalFields, Bool.and_eq_true, decide_eq_true_eq] at hlegal
      obtain ⟨⟨-, hm⟩, -⟩ := hlegal
      exact le_three_cases m hm
  · dsimp only
    rw [byRows_eq]
    rcases hm with rfl | rfl | rfl | rfl
    · have hindex := hxs.length_getD (j := 1) (Nat.le_succ 2)
      have hother := hxs.length_getD (j := 2) (Nat.le_refl 3)
      refine (zipWith_eq_range _ hindex hother 0 0).trans (List.map_congr_left fun j _ => ?_)
      simp only [if_true, Nat.div_add_mod']
    all_goals rfl
  · rcases hm with rfl | rfl | rfl | rfl <;> simp

/-! ## E.TPACK (08 R194) -/

theorem tpackFmts_eq (f : Nat) : (decide (1 ≤ f ∧ f ≤ 3) || f == 6) = ([1, 2, 3, 6] : List Nat).contains f := by
  rw [Bool.eq_iff_iff]
  simp
  omega

theorem any_eq_range {α : Type} {l : List α} {n : Nat} (h : l.length ≤ n) {p : α → Bool} {x : α} (hx : p x = false) :
    l.any p = (List.range n).any fun q => p (l.getD q x) := by
  rw [Bool.eq_iff_iff, List.any_eq_true, List.any_eq_true]
  constructor
  · rintro ⟨a, ha, hp⟩
    obtain ⟨q, hq, rfl⟩ := List.getElem_of_mem ha
    exact ⟨q, List.mem_range.2 (by omega), by rwa [List.getD_eq_getElem _ _ hq]⟩
  · rintro ⟨q, -, hp⟩
    rcases Nat.lt_or_ge q l.length with hq | hq
    · exact ⟨l[q], List.getElem_mem hq, by rwa [List.getD_eq_getElem _ _ hq] at hp⟩
    · rw [List.getD_eq_default _ _ hq, hx] at hp
      exact absurd hp Bool.false_ne_true

/-- The trit of an element of a list, a zero past its end, and whether the element was no trit. -/
def tritAt (xs : List Val) (j : Nat) : Int × Bool := (xs.map tritOf).getD j (0, false)

theorem tritAt_map {v : List Nat} {n : Nat} (hv : v.length = n) (g : Nat → Val) (j : Nat) :
    tritAt (v.map g) j = if j < n then tritOf (g (v.getD j 0)) else (0, false) := by
  subst hv
  split
  next h => simp [tritAt, List.getD, h]
  next h => simp [tritAt, List.getD, Nat.not_lt.1 h]

/-- The trits of the five elements from `5 * j` on. -/
def tritsAt (xs : List Val) (j : Nat) : List (Int × Bool) := (List.range 5).map fun q => tritAt xs (5 * j + q)

/-- The byte of five trits, and whether an element was no trit. -/
def tritByte (ts : List (Int × Bool)) : Nat × Bool := (ternEncode (ts.map Prod.fst), ts.any Prod.snd)

theorem tritsAt_drop (xs : List Val) : tritsAt (xs.drop 5) = tritsAt xs ∘ Nat.succ := by
  funext j
  rw [Function.comp, tritsAt, tritsAt]
  refine List.map_congr_left fun q _ => ?_
  simp [tritAt, List.getD, List.getElem?_drop, Nat.mul_succ, Nat.add_assoc, Nat.add_left_comm 5]

/-- The first byte is that of the first five elements. -/
theorem tritByte_take (xs : List Val) :
    (ternEncode ((List.range 5).map fun j => (((xs.take 5).map tritOf).getD j (0, false)).1),
      ((xs.take 5).map tritOf).any fun t => t.2) = tritByte (tritsAt xs 0) := by
  have htrits : tritsAt xs 0 = (List.range 5).map fun j => ((xs.take 5).map tritOf).getD j (0, false) :=
    List.map_congr_left fun q hq => by simp [tritAt, List.getD, List.mem_range.1 hq]
  rw [any_eq_range (n := 5) (x := (0, false)) (by simp) rfl, tritByte, htrits, List.map_map, List.any_map]
  rfl

theorem packTrits_eq_map (n : Nat) (xs : List Val) : packTrits n xs = (List.range n).map fun j => tritByte (tritsAt xs j) := by
  induction n generalizing xs with
  | zero => rfl
  | succ n ih =>
    rw [packTrits, ih, tritByte_take, tritsAt_drop, List.range_succ_eq_map, List.map_cons, List.map_map]
    rfl

theorem eTpack_completes {d a : BitVec 5} {p : BitVec 1} {y : EForm} (hy : movingForm (.eTpack d p a) = some y) :
    vecCompletes (.eTpack d p a) y := by
  cases hy
  refine vecCompletes_of_agrees (fun _ => rfl) rfl rfl fun _ sh _ hf => { fmts := ?_, f := fun xs hxs => ?_ }
  · dsimp only
    rw [tpackFmts_eq]
    exact hf
  · have hlen : (xs.getD 0 []).length = sh.n := hxs.length_getD (j := 0) Nat.one_pos
    dsimp only
    rw [packTrits_eq_map, List.map_map]
    refine List.map_congr_left fun j _ => congrArg some ?_
    simp only [tritByte, tritsAt, List.map_map, List.any_map, tritAt_map hlen]
    rfl

/-- Settles O28: each word by its lemma. -/
theorem movingWords : Obligations.MovingWords := by
  intro i y hy
  unfold movingForm at hy
  split at hy
  · exact eImul_wide_completes hy
  · exact eRed_completes hy
  · exact eXpose_completes hy
  · exact ePerm_completes hy
  · exact eTpack_completes hy
  · exact absurd hy nofun

end Sys2Proof.Words
end

section
/-! SUPPORT. E.SHAPE, E.REP and E.XQ (07 R182, R183, R185). -/

namespace Sys2Proof.Words

open Sys2Proof.Machine Sys2Proof.Spec

/-! ## What a word of E finds as it was -/

section
variable (s : State) (t : Engine)

@[simp] theorem readable_arrived (q : Nat) : (arrived t s).me.readable q = s.me.readable q := by
  rw [arrived, State.me_updMe]
  rfl

theorem rstatDue_taking (k : Core) (st : List W64) : (taking k t st).rstatDue = k.rstatDue := by
  simp only [Core.rstatDue, coming_taking, here_taking]

@[simp] theorem rstatDue_arrived : (arrived t s).me.rstatDue = s.me.rstatDue := by
  rw [← setStack_top, me_setStack_arrived, rstatDue_taking]

theorem tilesPending_setStack_arrived (st : List W64) (u : Engine) (tiles : List Nat) (cycle : Nat) :
    ((arrived t s).setStack t st).me.tilesPending u tiles cycle = (arrived t s).me.tilesPending u tiles cycle := by
  rw [← setStack_top s t, setStack_setStack, me_setStack_arrived, me_setStack_arrived, tilesPending_taking, tilesPending_taking]

end

section
variable {s : State} {sh : Shape} {v : W64} {rest : List W64} {d a : BitVec 5} {p : BitVec 1}

theorem exec_eShape (h : CanIssue .e .eShape s) (hv : top .e s = v :: rest) (hbits : v &&& ~~~ 0x7F0F1F = 0)
    (hsize : (shapeOf v).ok = true → (shapeOf v).rows * (shapeOf v).cols * fmtBytes (shapeOf v).fmt ≤ 1024) :
    completes .e .eShape 1 s (((arrived .e s).setStack .e rest).updVec fun x => { x with shp := v }) := by
  change execEShape s = _
  unfold execEShape issue
  refine popped_one_completes h hv (Nat.zero_le 1) (if_neg ?_)
  rintro (hother | ⟨hok, hlarge⟩)
  · exact hother hbits
  · exact Nat.not_lt.2 (hsize hok) hlarge

theorem exec_eShapeGet (h : CanIssue .e .eShapeGet s) (hroom : (top .e s).length < 8) :
    completes .e .eShapeGet 1 s ((arrived .e s).setStack .e (s.me.vec.shp :: top .e s)) := by
  change execEShapeGet s = _
  unfold execEShapeGet issue
  refine issueN_completes h ?_
  rw [popping_arrived (Nat.zero_le _) (by omega), pushing_setStack, me_setStack_arrived, vec_taking]
  rfl

theorem exec_eRep {m : BitVec 2} {n : BitVec 4} (h : CanIssue .e (.eRep m n) s) :
    completes .e (.eRep m n) 1 s
      ((arrived .e s).updVec fun x => { x with rep := some { n := n.toNat + 1, mode := m.toNat, k := 0 } }) := by
  change execERep m n s = _
  unfold execERep issue
  exact issueN_completes h rfl

/-! ## E.XQ (07 R185) -/

theorem exec_eXqCount (h : CanIssue .e (.eXq d p a 0) s) (hfree : a.toNat < 20 → s.me.bound (a.toNat - 16) = false)
    (hroom : (top .e s).length < 8) :
    completes .e (.eXq d p a 0) 1 s ((arrived .e s).setStack .e
      (BitVec.ofNat 64 (s.me.queue (a.toNat - 16)).length :: top .e s)) := by
  have hopen : xqClosed (arrived .e s).me a.toNat = false := by
    rw [xqClosed, bound_arrived, Bool.and_eq_false_imp]
    exact fun hlt => hfree (of_decide_eq_true hlt)
  change execEXq d p a 0 s = _
  unfold execEXq
  refine issueN_completes h ?_
  change (if xqClosed (arrived .e s).me a.toNat = true then _ else popping .e 0 1 _ _) = _
  rw [hopen, if_neg Bool.false_ne_true, popping_arrived (Nat.zero_le _) (by omega), pushing_setStack,
    queue_setStack, queue_arrived]
  rfl

theorem exec_eXqDrop (h : CanIssue .e (.eXq d p a 1) s) (hfree : s.me.bound (a.toNat - 16) = false) :
    completes .e (.eXq d p a 1) 1 s ((arrived .e s).updMe fun k =>
      if s.me.readable (a.toNat - 16) = 0 then k else k.setQueue (a.toNat - 16) ((s.me.queue (a.toNat - 16)).drop 1)) := by
  have hopen : xqClosed (arrived .e s).me a.toNat = false := by
    rw [xqClosed, bound_arrived, hfree, Bool.and_false]
  change execEXq d p a 1 s = _
  unfold execEXq
  refine issueN_completes h ?_
  change (if xqClosed (arrived .e s).me a.toNat = true then _
    else if (arrived .e s).me.readable (a.toNat - 16) = 0 then _ else _) = _
  rw [hopen, if_neg Bool.false_ne_true, readable_arrived]
  split
  next hempty =>
    simp only [arrived, updMe_updMe]
  next hsome =>
    refine congrArg Res.ok (updMe_congr ?_)
    rw [queue_arrived]

theorem namings_singleton (c q : Nat) : namings [c] q = if c = 16 + q then 1 else 0 := by
  by_cases h : c = 16 + q <;> simp [namings, h]

theorem exec_eXqPeek (hsh : sh = shapeOf s.me.vec.shp) (h : CanIssue .e (.eXq d p a 2) s)
    (hfree : s.me.bound (a.toNat - 16) = false) (hok : sh.ok = true) (hstat : s.me.rstatDue = false)
    (hentries : sh.beats ≤ s.me.readable (a.toNat - 16))
    (htags : ∀ e ∈ (s.me.queue (a.toNat - 16)).take sh.beats, e.fmt = sh.fmt) :
    completes .e (.eXq d p a 2) sh.beats s ((arrived .e s).updMe fun k => k.writeDest d.toNat sh.fmt sh.eb
      ((written s.me.vec p ((elemsOf sh.eb sh.n (((s.me.queue (a.toNat - 16)).take sh.beats).flatMap fun e => e.bytes)).map
        fun e => some (e, false))).map fun r => r.map fun x => x.1) (s.cycle + 4 + sh.beats)) := by
  have hopen : xqClosed (arrived .e s).me a.toNat = false := by
    rw [xqClosed, bound_arrived, hfree, Bool.and_false]
  have hmatch : (arrived .e s).me.tagsMatch [a.toNat] sh.beats sh.fmt = true := by
    refine List.all_eq_true.2 fun q _ => List.all_eq_true.2 fun e he => ?_
    rw [queue_arrived, namings_singleton] at he
    split at he
    next hq =>
      rw [Nat.one_mul, ← Nat.sub_eq_of_eq_add' hq] at he
      exact decide_eq_true (htags e he)
    next =>
      rw [Nat.zero_mul] at he
      exact absurd he List.not_mem_nil
  have hocc : sh.beats = if (2 : BitVec 3) = 2 then (shapeOf (arrived .e s).me.vec.shp).beats else 1 := by
    rw [if_pos rfl, vec_arrived, hsh]
  change execEXq d p a 2 s = _
  unfold execEXq
  rw [hocc]
  refine issueN_completes h ?_
  change (if (xqClosed (arrived .e s).me a.toNat || _) = true then _ else _) = _
  simp only [vec_arrived, ← hsh, hok, hopen, hmatch, rstatDue_arrived, hstat, readable_arrived, Nat.not_lt.2 hentries,
    queue_arrived, masked_eq, Bool.not_true, Bool.or_self, Bool.false_eq_true, if_false]
  rfl

/-- What a V register or an accumulator tile gives rests on no stack and no queue. -/
theorem readSource_congr {k k' : Core} {c : Nat} (hvec : k'.vec = k.vec) (hmat : k'.mat = k.mat) (hc : c < 16 ∨ 24 ≤ c) :
    (k'.readSource sh c).1 = (k.readSource sh c).1 := by
  rcases hc with hc | hc
  · rw [readSource_v _ _ hc, readSource_v _ _ hc, hvec]
  · obtain ⟨t, rfl⟩ := Nat.exists_eq_add_of_le hc
    rw [readSource_acc, readSource_acc, hmat]

theorem exec_eXqExtract (hsh : sh = shapeOf s.me.vec.shp) (h : CanIssue .e (.eXq d p a 3) s) (hv : top .e s = v :: rest)
    (hok : sh.ok = true) (hj : v.toNat < sh.n) (hstat : a.toNat < 16 → s.me.rstatDue = false)
    (htiles : (arrived .e s).me.tilesPending .e (accTiles [a.toNat]) s.cycle = false) :
    completes .e (.eXq d p a 3) 1 s (((arrived .e s).setStack .e
      (BitVec.ofNat 64 (((arrived .e s).me.readSource sh a.toNat).1.getD v.toNat 0) :: rest)).updMe fun k =>
        { k.readTiles (accTiles [a.toNat]) (s.cycle + 1) with vec := k.vec.readyAt [17] (s.cycle + 4) }) := by
  have hcode : a.toNat < 16 ∨ 24 ≤ a.toNat := by
    obtain ⟨hlegal, -⟩ := h
    simpa [legalFields] using (Bool.and_eq_true_iff.1 hlegal).2
  have htaken : (arrived .e s).me = taking s.me .e (top .e s) := by rw [← me_setStack_arrived, setStack_top]
  have hread : (((arrived .e s).setStack .e rest).me.readSource sh a.toNat).1 = ((arrived .e s).me.readSource sh a.toNat).1 := by
    rw [me_setStack_arrived, htaken]
    exact readSource_congr rfl rfl hcode
  have hdue : (decide (a.toNat < 16) && ((arrived .e s).setStack .e rest).me.rstatDue) = false := by
    rw [me_setStack_arrived, rstatDue_taking, Bool.and_eq_false_imp]
    exact fun hlt => hstat (of_decide_eq_true hlt)
  have hroom := length_top_of_canIssue h
  have hone : 1 ≤ (top .e s).length := by simp [hv]
  change execEXq d p a 3 s = _
  unfold execEXq
  refine issueN_completes h ?_
  change (if (!(shapeOf (arrived .e s).me.vec.shp).ok) = true then _ else popping .e 1 1 _ _) = _
  rw [popping_arrived hone (by omega), hv]
  change (if _ then _ else if (shapeOf (arrived .e s).me.vec.shp).n ≤ v.toNat then _
    else if ((decide (a.toNat < 16) && ((arrived .e s).setStack .e rest).me.rstatDue) ||
      ((arrived .e s).setStack .e rest).me.tilesPending .e (accTiles [a.toNat]) s.cycle) = true then _ else _) = _
  rw [vec_arrived, ← hsh, hok, if_neg (by decide), if_neg (Nat.not_le.2 hj), hdue, tilesPending_setStack_arrived, htiles,
    if_neg (by decide), ← hread]
  dsimp only
  rw [pushing_setStack]
  rfl

end

/-- Settles O31: each word by the lemma of its form. -/
theorem shapeRepeatAndQueueWords : Obligations.ShapeRepeatAndQueueWords := by
  intro s sh v rest hsh
  exact ⟨exec_eShape, exec_eShapeGet, fun m n h _ => exec_eRep h,
    fun d p a _ _ hfree => ⟨fun h => exec_eXqDrop h hfree, fun h => exec_eXqPeek hsh h hfree⟩,
    fun d p a => ⟨exec_eXqCount, exec_eXqExtract hsh⟩⟩

end Sys2Proof.Words
end
